-- ==== Sys2Proof/Word.lean ====
section
/-! DEFINITION. The word types of the device and its sparse canonical maps. Every register is 64 bits (the sentence
before R8); bit 0 is the least significant bit of a field (R5). -/
namespace Sys2Proof

abbrev Byte := BitVec 8
abbrev W16 := BitVec 16
abbrev W32 := BitVec 32
abbrev W64 := BitVec 64

/-- A sparse map from numbers to values: keys strictly rising, no entry equal to the value an unlisted key reads as. -/
abbrev SMap (α : Type) := List (Nat × α)

end Sys2Proof
end

