-- ==== Sys2Proof/Syntax.lean ====
section
/-! DEFINITION. The commands the block takes: one constructor per row of the table of operations and events, in the
table's order. What the outside world decides (a sensor's reading, a training's outcome, what a ring line holds)
is an operand of the command that brings it in (DESIGN CHOICE, log entry 3). -/
namespace Sys2Proof

/-- Who sends a control-space access (R24). -/
inductive Agent where
  | companion | zen | mc
deriving DecidableEq, Repr

/-- Who reads or writes stack memory, in the order of R409's rows (Pileus LDG and IFILL apart). -/
inductive Requester where
  | tdma | virga | ldg | ifill | companion | fabric | ldr | zen | copier | scrubber
deriving DecidableEq, Repr

/-- A fabric frame (R660) with its payload; ce is the congestion mark of the packet that carries it (R666). Numbers
are those of the header's fields. -/
structure Frame where
  typ : Nat
  op : Nat
  hops : Nat
  last : Bool
  dst : Nat
  src : Nat
  rjob : Nat
  poison : Bool
  seq : W32
  group : Nat
  raddr : Nat
  rstack : Nat
  rslot : Nat
  rtile : Nat
  rtok : Nat
  rinc : Nat
  fmtc : Nat
  aop : Nat
  exact : Bool
  len : Nat
  ce : Bool
  payload : List Byte
deriving DecidableEq, Repr

/-- What a housekeeping round measures (R702): the inlet in 1/16 degC, none where the sensor gives no reading; the
board in 1/16 degC; TMAX and TMIN of each stack's dies in degC; the power of each domain in 0.1 W; the input's average
over the round in W, its voltage in 10 mV, and its last 10 us average in W. -/
structure Readings where
  inlet : Option Int
  board : Int
  tmax : List Int
  tmin : List Int
  power : List Nat
  pin : Nat
  vin : Nat
  p10 : Nat
deriving DecidableEq, Repr

/-- A converter or phase that PWR sheds (R752 - R754). -/
inductive Rail where
  | bus
  | vc
  | vrg (n : Nat)
deriving DecidableEq, Repr


/-- A command with PAD_FILL that the verifier proves some path to issue (R136, R618): directory index and byte offset of
the code that builds it, its queue and logical tile, its words, the view registers as they stand at its start, and the
byte ranges of the other live tensors of the job's allocation map, first and last byte each. -/
structure PadUse where
  sect : Nat
  off : Nat
  queue : Nat
  tile : Nat
  cmd : List (BitVec 64)
  views : List (Nat × BitVec 64)
  live : List (Nat × Nat)
deriving DecidableEq, Repr

/-- One command. Numbers t are physical tiles, and in the rows of Pileus instructions and debug control also 200 + n for
the VPC of stack n (R335); j jobs, l logical tiles, q queues of R280, n stacks or ports. -/
inductive Instr where
  | registerWrite (by_ : Agent) (off size : Nat) (val : W64)
  -- engine commands (chapters 3 - 6, 10, 12, 18)
  | commandStart (j l q : Nat)
  | commandCompletion (j l q beats : Nat)
  | queueSend (j l q : Nat)
  | destAccept (j l q : Nat)
  | view (j l q : Nat)
  | cfg (j l q : Nat)
  | nop (j l q : Nat)
  | mmul (j l : Nat)
  | att (j l : Nat) (par : Bool)
  | vop (j l : Nat) (par : Bool)
  | copy (j l ch : Nat)
  | planeSplit (j l ch : Nat)
  | planeMerge (j l ch : Nat)
  | gather (j l ch : Nat)
  | scatter (j l ch : Nat)
  | scatterAcc (j l ch : Nat)
  | list (j l ch : Nat)
  | vmv (j l n : Nat) (ue : Option Nat)
  | vatt (j l n : Nat) (ue : Option Nat)
  | vkva (j l n : Nat) (ue : Option Nat)
  | vew (j l n : Nat) (ue : Option Nat)
  | vgsGather (j l n : Nat) (ue : Option Nat)
  | vgsScatter (j l n : Nat) (ue : Option Nat)
  | vgsScatterAcc (j l n : Nat) (ue : Option Nat)
  | vamo (j l n : Nat) (ue : Option Nat)
  | slotClear (j l n : Nat) (ue : Option Nat)
  | slotFinalise (j l n : Nat) (ue : Option Nat)
  | slotSave (j l n : Nat) (ue : Option Nat)
  | slotLoad (j l n : Nat) (ue : Option Nat)
  | slotCombine (j l n : Nat) (ue : Option Nat)
  | fopRead (j l : Nat)
  | fopWrite (j l : Nat)
  | fopAtomic (j l : Nat)
  | fopSignal (j l : Nat)
  | fopCombine (j l : Nat)
  | vrgHalt (j l n : Nat)
  | dmaHalt (j l ch : Nat)
  | xwfHalt (j l : Nat)
  | vrgResume (by_ : Agent) (n t : Nat) (skip : Bool)
  | dmaResume (by_ : Agent) (t ch : Nat) (skip : Bool)
  | dmaRetry (by_ : Agent) (t ch : Nat) (skip : Bool)
  | xwfResume (by_ : Agent) (t : Nat) (skip : Bool)
  | dmaDisable (by_ : Agent) (t ch written : Nat)
  | dmaDisabled (t ch : Nat)
  -- Pileus instructions (chapter 7)
  | add (t : Nat) (rd rs1 rs2 : BitVec 5)
  | sub (t : Nat) (rd rs1 rs2 : BitVec 5)
  | and (t : Nat) (rd rs1 rs2 : BitVec 5)
  | or (t : Nat) (rd rs1 rs2 : BitVec 5)
  | xor (t : Nat) (rd rs1 rs2 : BitVec 5)
  | andn (t : Nat) (rd rs1 rs2 : BitVec 5)
  | sll (t : Nat) (rd rs1 rs2 : BitVec 5)
  | srl (t : Nat) (rd rs1 rs2 : BitVec 5)
  | sra (t : Nat) (rd rs1 rs2 : BitVec 5)
  | ror (t : Nat) (rd rs1 rs2 : BitVec 5)
  | mul (t : Nat) (rd rs1 rs2 : BitVec 5)
  | mulh (t : Nat) (rd rs1 rs2 : BitVec 5)
  | mulhu (t : Nat) (rd rs1 rs2 : BitVec 5)
  | div (t : Nat) (rd rs1 rs2 : BitVec 5)
  | divu (t : Nat) (rd rs1 rs2 : BitVec 5)
  | rem (t : Nat) (rd rs1 rs2 : BitVec 5)
  | remu (t : Nat) (rd rs1 rs2 : BitVec 5)
  | min (t : Nat) (rd rs1 rs2 : BitVec 5)
  | max (t : Nat) (rd rs1 rs2 : BitVec 5)
  | minu (t : Nat) (rd rs1 rs2 : BitVec 5)
  | maxu (t : Nat) (rd rs1 rs2 : BitVec 5)
  | clz (t : Nat) (rd rs1 : BitVec 5)
  | ctz (t : Nat) (rd rs1 : BitVec 5)
  | popc (t : Nat) (rd rs1 : BitVec 5)
  | shadd (t : Nat) (rd rs1 rs2 : BitVec 5) (sh : BitVec 6)
  | addi (t : Nat) (rd rs1 : BitVec 5) (imm : BitVec 16)
  | andi (t : Nat) (rd rs1 : BitVec 5) (imm : BitVec 16)
  | ori (t : Nat) (rd rs1 : BitVec 5) (imm : BitVec 16)
  | xori (t : Nat) (rd rs1 : BitVec 5) (imm : BitVec 16)
  | shi (t : Nat) (rd rs1 : BitVec 5) (op : BitVec 2) (sh : BitVec 6)
  | cat16 (t : Nat) (rd rs1 : BitVec 5) (imm : BitVec 16)
  | addh (t : Nat) (rd rs1 : BitVec 5) (imm : BitVec 16)
  | madd (t : Nat) (rd rs1 rs2 rs3 : BitVec 5)
  | fext (t : Nat) (rd rs1 : BitVec 5) (pos wm1 : BitVec 6)
  | fins (t : Nat) (rd rs1 : BitVec 5) (pos wm1 : BitVec 6)
  | cmp (t : Nat) (pd cond : BitVec 3) (rs1 rs2 : BitVec 5)
  | cmpi (t : Nat) (pd cond : BitVec 3) (rs1 : BitVec 5) (imm : BitVec 15)
  | plog (t : Nat) (pd ps1 ps2 : BitVec 3) (n1 n2 : Bool) (f : BitVec 2)
  | sel (t : Nat) (rd rs1 rs2 : BitVec 5) (p : BitVec 3)
  | ldb (t : Nat) (rd rs1 : BitVec 5) (imm : BitVec 16)
  | ldh (t : Nat) (rd rs1 : BitVec 5) (imm : BitVec 16)
  | ldw (t : Nat) (rd rs1 : BitVec 5) (imm : BitVec 16)
  | ldd (t : Nat) (rd rs1 : BitVec 5) (imm : BitVec 16)
  | ldbu (t : Nat) (rd rs1 : BitVec 5) (imm : BitVec 16)
  | ldhu (t : Nat) (rd rs1 : BitVec 5) (imm : BitVec 16)
  | ldwu (t : Nat) (rd rs1 : BitVec 5) (imm : BitVec 16)
  | stb (t : Nat) (rs rs1 : BitVec 5) (imm : BitVec 16)
  | sth (t : Nat) (rs rs1 : BitVec 5) (imm : BitVec 16)
  | stw (t : Nat) (rs rs1 : BitVec 5) (imm : BitVec 16)
  | std (t : Nat) (rs rs1 : BitVec 5) (imm : BitVec 16)
  | ldg (t : Nat) (rd rs1 : BitVec 5) (size : BitVec 2) (sx : Bool) (imm : BitVec 13)
  | stg (t : Nat) (rs rs1 : BitVec 5) (size : BitVec 2) (imm : BitVec 13)
  | ldgDataArrival (t k : Nat)
  | stgApplied (t k : Nat)
  | busTrap (t : Nat)
  | br (t : Nat) (ps : BitVec 3) (neg : Bool) (off : BitVec 22)
  | bdec (t : Nat) (rd : BitVec 5) (off : BitVec 21)
  | jal (t : Nat) (rd : BitVec 5) (off : BitVec 21)
  | jalr (t : Nat) (rd rs1 : BitVec 5) (imm : BitVec 16)
  | push (t : Nat) (rs1 rs2 : BitVec 5) (qr : Bool) (q : BitVec 5)
  | pushRoomFree (t : Nat)
  | tsig (t : Nat) (rs : BitVec 5) (tok inc : BitVec 8)
  | twait (t : Nat) (rs : BitVec 5) (tok : BitVec 8)
  | fenceLocal (t : Nat)
  | fenceDrain (t : Nat)
  | fenceRemote (t : Nat)
  | fenceAll (t : Nat)
  | acquire (t : Nat) (rs1 rs2 : BitVec 5) (tok : BitVec 8) (sig : Bool)
  | release (t : Nat) (rs1 rs2 : BitVec 5) (tok : BitVec 8) (sig : Bool)
  | clbComplete (t : Nat)
  | ifill (t : Nat) (rs1 rs2 : BitVec 5)
  | ifillCopyDone (t : Nat)
  | trap (t : Nat) (imm : BitVec 8)
  | eret (t : Nat)
  | csrr (t : Nat) (rd : BitVec 5) (num : BitVec 8)
  | csrw (t : Nat) (rs1 : BitVec 5) (num : BitVec 8)
  | endTile (t : Nat)
  | brk (t : Nat)
  | haltReq (by_ : Agent) (t : Nat)
  | dbgStep (by_ : Agent) (t : Nat)
  | dbgResume (by_ : Agent) (t : Nat)
  | anvPerfClear (by_ : Agent) (t : Nat)
  | vrgPerfClear (by_ : Agent) (n : Nat)
  -- adders, slots and stack memory (chapters 2, 5, 8, 9)
  | adderOperation (addr : Nat) (aop : BitVec 2) (fmtc : BitVec 5) (x cmp : W64)
  | slotContribution (n slot : Nat) (fmtc : BitVec 5) (x : W32)
  | stackRead (who : Requester) (j addr : Nat)
  | stackWrite (who : Requester) (addr : Nat) (bytes : List Byte)
  | mergeIdleTimeout (n c page : Nat)
  | mergeWriteback (n c page : Nat)
  | refresh (n c bank : Nat)
  | farAccess (addr : Nat) (bytes : List Byte) (write : Bool)
  | cacheAccess (j addr : Nat) (bytes : List Byte) (write : Bool)
  | flitReceive (block inst badCrcs : Nat)
  | linkCrcLimit (n c k : Nat)
  | mscRetrainGo (by_ : Agent) (n : Nat) (c : BitVec 5)
  | retrainAttemptEnd (n : Nat) (ok : Bool)
  | copyPage (n : Nat)
  | writeHoldBegin (n : Nat) (tmin tmax : BitVec 8)
  | writeHoldEnd (n : Nat) (tmin tmax : BitVec 8)
  | scrubPage (n c lapMs : Nat)
  | scrubTargetExpiry (n : Nat)
  | erqConsume (by_ : Agent) (v : W32)
  | resetDone
  -- scheduling (chapter 15)
  | sliceEnd (j beats : Nat)
  | idlePreempt (j beats : Nat)
  | tileRoundEnd (debits : List (Nat × Nat))
  | stackRoundEnd (n : Nat) (debits : List (Nat × Nat))
  | saveDone (j beats : Nat)
  | restoreStart (j : Nat)
  | restoreDone (j beats : Nat)
  | jobHold (by_ : Agent) (j : Nat)
  | jobEndRequest (by_ : Agent) (j : Nat) (hold : Bool)
  | jobEnd (j : Nat)
  | jobEnded (j : Nat)
  -- loading (chapter 16)
  | load (finding : Option (Nat × Nat)) (pads : List PadUse) (raceFree : Bool)
  | loadResult
  -- the companion's link (chapter 17)
  | ringPoll (r : Nat) (line : List W64)
  | ringSnoop (r : Nat) (line : List W64)
  | ringObserve (r : Nat) (payload : List W64)
  -- serving (chapters 12 - 14)
  | request
  | cancel
  | resultRingRoom (j : Nat)
  | stepBoundary (j : Nat)
  | stepLaunch (j : Nat)
  | handoff (j : Nat)
  | stepReport (j : Nat)
  | sample (j : Nat)
  | draft (j : Nat)
  | verify (j : Nat)
  | ringRoom (j : Nat)
  | deadlineTick
  | rqtIdxWrite (by_ : Agent) (idx : BitVec 15)
  | companionRead (addr size : Nat) (hold : Nat)
  | companionWrite (addr : Nat) (bytes : List Byte)
  | snoop (addr : Nat)
  | deviceSnoop (addr : Nat) (write : Bool)
  | snoopResponse (addr : Nat) (data : List Byte)
  | snoopTimeout (p addr : Nat)
  | dylTraining (p : Nat)
  | dylL0 (p mode rate width : Nat) (same : Bool)
  | dylTrainingTimeout (p : Nat)
  | dylPerst (p : Nat) (high : Bool)
  | dylRetrain (by_ : Agent) (p : Nat)
  | dylRecovery (p : Nat) (lanes : List Nat)
  | dylRecoveryEnd (p : Nat) (ok : Bool) (rate : Nat)
  | linkLoss
  | messageWrite
  | msgConsume (by_ : Agent) (v : W64)
  | vectorHoldExpiry (v : Nat)

  -- fabric (chapter 18)
  | frameRequest (p : Nat) (badPacket : Bool) (f : Frame)
  | frameResponse (p : Nat) (f : Frame)
  | frameAck (p : Nat) (f : Frame) (roundTrip : Bool)
  | frameRefuse (p : Nat) (f : Frame)
  | transitFrame (p : Nat) (f : Frame)
  | resendTimeout (dst : Nat) (seq : W32)
  | xwfTraining (p : Nat) (mode : Nat) (partner : Nat) (ok : Bool)
  | nativeAnswerTimeout (p : Nat)
  | xwfRetrain (by_ : Agent) (p : Nat)
  | wavelengthFail (p w : Nat)
  -- timing domains and far ports (chapters 8, 19)
  | cxpLinkLoss (p : Nat)
  | cxpRetrainDone (p mode rate width devices : Nat)
  | domainStopped (d : Nat) (osc : Bool)
  | domainRunning (d : Nat)
  | freqOutOfRange (d : Nat) (osc : Bool)
  | countSample (d events : Nat) (job : Bool)
  | forceResync (by_ : Agent) (d : Nat)
  | rsyncAck (d : Nat)
  -- power and temperature (chapters 20, 22)
  | housekeepingRound (r : Readings)
  | tripClear (by_ : Agent)
  | peakResponse (p10 : Nat)
  | pwrSampleGo (by_ : Agent) (dom : BitVec 5)
  | sampleDone (power : Nat)
  | domainSwitchOn (d : Nat)
  | domainRampDone (d : Nat)
  | domainSwitchOff (d : Nat)
  | phaseShed (rail : Rail)
  | flashHoldBegin
  | flashHoldEnd
  -- reset, boot and update (chapters 21, 23)
  | powerUpReset (longReset : Bool)
  | bootDone (fwOk : Bool) (devices : List (List Nat)) (links : List (Nat × Nat))
  | pgoodLow (byBoard : Bool)
  | hotSwapTrip
  | deviceReset (by_ : Agent) (key : BitVec 16)
  | zenRestart (by_ : Agent) (key : BitVec 16)
  | zenWatchdog
  | zenRestartDone
  | fwuGo (by_ : Agent)
  | fwuWriteDone (ok : Bool)
  | fwuCommit (by_ : Agent)
  -- service (chapters 5, 8, 22)
  | retireTile (t : Nat)
  | migrateChannel (g : Nat)
  | migratePage (addr : Nat)
  | retireEngine (n : Nat)
  | retireComplete (n : Nat)
  | flashCheck
  | flashCheckTimer
  -- attestation and sideband (chapter 21); tr 0 is MCTP over I3C, 1 the DOE mailbox
  | getVersion (tr : Nat)
  | getCapabilities (tr : Nat)
  | negotiateAlgorithms (tr : Nat) (mldsa shake : Bool)
  | getDigests (tr : Nat)
  | getCertificate (tr slot off len : Nat)
  | challenge (tr slot : Nat) (nonce : List Byte)
  | getMeasurements (tr index : Nat) (signed : Bool) (nonce : List Byte)
  | unsupportedRequest (tr code : Nat)
  | sidebandRegisterRead (off : Nat)
  | fwChunk (off : Nat) (bytes : List Byte)
  | fwEnd
  | illegalInstruction (t : Nat)
  | dramTemperatureMove (n c : Nat)
  | neighbourSolicitation (p : Nat) (upper lower : W64)
  | jtagTapAccess (trst : Bool) (bits : List (Bool × Bool))
  | sbPgoodRelease (mV : Nat) (vdd : Bool)
  | hotSwapRetry
deriving DecidableEq, Repr

end Sys2Proof
end

