-- ==== Sys2Proof/Machine/Sparse.lean ====
section
/-! DEFINITION. Sparse maps in one canonical form (keys strictly rising, no entry equal to what an unlisted key reads
as), and byte memories over them. The spec gives no encoding of memory inside a model; the byte order is R6. -/
namespace Sys2Proof

/-- Value of a key; d is what an unlisted key reads as. -/
def SMap.get {α : Type} (d : α) : SMap α → Nat → α
  | [], _ => d
  | (a, v) :: t, k => if a = k then v else SMap.get d t k

/-- The entries without those of key k. -/
def SMap.erase {α : Type} : SMap α → Nat → SMap α
  | [], _ => []
  | (a, v) :: t, k => if a = k then SMap.erase t k else (a, v) :: SMap.erase t k

/-- An entry placed before the first larger key. -/
def SMap.insert {α : Type} : SMap α → Nat → α → SMap α
  | [], k, v => [(k, v)]
  | (a, w) :: t, k, v => if k < a then (k, v) :: (a, w) :: t else (a, w) :: SMap.insert t k v

/-- The map with key k set to v; writing what an unlisted key reads as removes the entry. -/
def SMap.put {α : Type} [DecidableEq α] (d : α) (m : SMap α) (k : Nat) (v : α) : SMap α :=
  if v = d then SMap.erase m k else SMap.insert (SMap.erase m k) k v

/-- Keys strictly rise, and no entry equals d. -/
def SMap.wf {α : Type} [DecidableEq α] (d : α) : SMap α → Bool
  | [] => true
  | (a, v) :: t => decide (v ≠ d) && t.all (fun p => decide (a < p.1)) && SMap.wf d t

/-- Keys strictly rise. -/
def SMap.sorted {α : Type} : SMap α → Bool
  | [] => true
  | (a, _) :: t => t.all (fun p => decide (a < p.1)) && SMap.sorted t

/-- Entries whose key lies in [lo, lo + n) are removed. -/
def SMap.dropRange {α : Type} (m : SMap α) (lo n : Nat) : SMap α :=
  m.filter (fun p => !(decide (lo ≤ p.1) && decide (p.1 < lo + n)))

/-- A map that is constant on runs of keys: each entry gives the value from its key up to the next entry's; d is the value
before the first one. -/
def Runs.get {α : Type} (d : α) : SMap α → Nat → α
  | [], _ => d
  | (a, v) :: t, k => if k < a then d else Runs.get v t k

/-- The entries that change nothing removed. -/
def Runs.norm {α : Type} [DecidableEq α] (d : α) : SMap α → SMap α
  | [] => []
  | (a, v) :: t => if v = d then Runs.norm d t else (a, v) :: Runs.norm v t

/-- The n keys from lo upward set to v. -/
def Runs.set {α : Type} [DecidableEq α] (d : α) (m : SMap α) (lo n : Nat) (v : α) : SMap α :=
  if n = 0 then m
  else Runs.norm d (m.filter (fun p => decide (p.1 < lo)) ++ [(lo, v), (lo + n, Runs.get d m (lo + n))] ++
    m.filter (fun p => decide (lo + n < p.1)))

/-- Keys strictly rise, and every entry changes the value. -/
def Runs.wf {α : Type} [DecidableEq α] (d : α) : SMap α → Bool
  | [] => true
  | (a, v) :: t => decide (v ≠ d) && t.all (fun p => decide (a < p.1)) && Runs.wf v t

/-- A byte memory in canonical form: an unlisted address reads zero. -/
abbrev Bytes := SMap Byte

namespace Bytes

/-- One byte. -/
def rd (m : Bytes) (a : Nat) : Byte := SMap.get 0#8 m a

/-- One byte written. -/
def wr (m : Bytes) (a : Nat) (v : Byte) : Bytes := SMap.put 0#8 m a v

/-- n bytes from address a upward. -/
def rdList (m : Bytes) (a : Nat) : Nat → List Byte
  | 0 => []
  | n + 1 => rd m a :: rdList m (a + 1) n

/-- A run of bytes written from address a upward. -/
def wrList (m : Bytes) (a : Nat) : List Byte → Bytes
  | [] => m
  | v :: vs => wrList (wr m a v) (a + 1) vs

def wf (m : Bytes) : Bool := SMap.wf 0#8 m

end Bytes

/-- Little-endian value of a list of bytes (R6). -/
def leNat : List Byte → Nat
  | [] => 0
  | b :: bs => b.toNat + 256 * leNat bs

/-- The n bytes of a value, lowest first (R6). -/
def leBytes : Nat → Nat → List Byte
  | 0, _ => []
  | n + 1, v => BitVec.ofNat 8 v :: leBytes n (v / 256)

/-- n bytes at address a as a little-endian number. -/
def Bytes.rdNat (m : Bytes) (a n : Nat) : Nat := leNat (Bytes.rdList m a n)

/-- A number written as n bytes at address a. -/
def Bytes.wrNat (m : Bytes) (a n v : Nat) : Bytes := Bytes.wrList m a (leBytes n v)

/-- Bits hi down to lo of a number. -/
def bitsOf (v hi lo : Nat) : Nat := v / 2 ^ lo % 2 ^ (hi + 1 - lo)

/-- Bits hi down to lo of a 64-bit word. -/
def fld (w : W64) (hi lo : Nat) : Nat := bitsOf w.toNat hi lo

/-- One bit of a word. -/
def bitAt (w : W64) (i : Nat) : Bool := w.toNat.testBit i

/-- A word with bits hi down to lo replaced by the low bits of v. -/
def setFld (w : W64) (hi lo v : Nat) : W64 :=
  let m := 2 ^ (hi + 1 - lo)
  BitVec.ofNat 64 (w.toNat - w.toNat / 2 ^ lo % m * 2 ^ lo + v % m * 2 ^ lo)

/-- Signed value of bits hi down to lo. -/
def sfld (w : W64) (hi lo : Nat) : Int :=
  let n := hi + 1 - lo
  let v := fld w hi lo
  if v ≥ 2 ^ (n - 1) then (v : Int) - (2 ^ n : Nat) else v

/-- Smallest multiple of n not below a. -/
def roundUp (a n : Nat) : Nat := (a + n - 1) / n * n

def ceilDiv (a n : Nat) : Nat := (a + n - 1) / n

/-- Element i of a list replaced. -/
def listSet {α : Type} : List α → Nat → α → List α
  | [], _, _ => []
  | _ :: t, 0, v => v :: t
  | a :: t, i + 1, v => a :: listSet t i v

/-- A sorted list of numbers without repeats, with n added. -/
def addNum : List Nat → Nat → List Nat
  | [], n => [n]
  | a :: t, n => if n < a then n :: a :: t else if n = a then a :: t else a :: addNum t n

/-- The list without n. -/
def dropNum (l : List Nat) (n : Nat) : List Nat := l.filter (fun a => a != n)

/-- The list without the numbers of [lo, lo + n). -/
def dropNums (l : List Nat) (lo n : Nat) : List Nat := l.filter (fun a => !(decide (lo ≤ a) && decide (a < lo + n)))

end Sys2Proof
end

