-- ==== Sys2Proof/Machine/Crypto.lean ====
section
/-! DEFINITION. SHAKE256 (R609, R722, R731, R733) as FIPS 202 defines it, and the ChaCha block function of R567. -/
namespace Sys2Proof

/-! ## SHAKE256 -/

def keccakRC : List W64 :=
  [0x0000000000000001#64, 0x0000000000008082#64, 0x800000000000808A#64, 0x8000000080008000#64,
   0x000000000000808B#64, 0x0000000080000001#64, 0x8000000080008081#64, 0x8000000000008009#64,
   0x000000000000008A#64, 0x0000000000000088#64, 0x0000000080008009#64, 0x000000008000000A#64,
   0x000000008000808B#64, 0x800000000000008B#64, 0x8000000000008089#64, 0x8000000000008003#64,
   0x8000000000008002#64, 0x8000000000000080#64, 0x000000000000800A#64, 0x800000008000000A#64,
   0x8000000080008081#64, 0x8000000000008080#64, 0x0000000080000001#64, 0x8000000080008008#64]

/-- Rotation of lane x + 5 y. -/
def keccakRot : List Nat :=
  [0, 1, 62, 28, 27, 36, 44, 6, 55, 20, 3, 10, 43, 25, 39, 41, 45, 15, 21, 8, 18, 2, 61, 56, 14]

def rotl64 (a : W64) (n : Nat) : W64 := a.rotateLeft n

def laneOf (a : List W64) (i : Nat) : W64 := (a[i]?).getD 0#64

/-- One round of Keccak-f[1600] over 25 lanes. -/
def keccakRound (a : List W64) (rc : W64) : List W64 :=
  let cs := (List.range 5).map (fun x => laneOf a x ^^^ laneOf a (x + 5) ^^^ laneOf a (x + 10) ^^^ laneOf a (x + 15) ^^^
    laneOf a (x + 20))
  let ds := (List.range 5).map (fun x => laneOf cs ((x + 4) % 5) ^^^ rotl64 (laneOf cs ((x + 1) % 5)) 1)
  let a := (List.range 25).map (fun i => laneOf a i ^^^ laneOf ds (i % 5))
  let b := (List.range 25).map (fun i =>
    let x := (i % 5 + 3 * (i / 5)) % 5
    let k := x + 5 * (i % 5)
    rotl64 (laneOf a k) ((keccakRot[k]?).getD 0))
  (List.range 25).map (fun i =>
    let y := 5 * (i / 5)
    let v := laneOf b i ^^^ (~~~(laneOf b (y + (i + 1) % 5)) &&& laneOf b (y + (i + 2) % 5))
    if i = 0 then v ^^^ rc else v)

def keccakF (a : List W64) : List W64 := keccakRC.foldl keccakRound a

/-- Words of a block of bytes. -/
def wordsOfBytes : Nat → List Byte → List W64
  | 0, _ => []
  | n + 1, bs => BitVec.ofNat 64 (leNat (bs.take 8)) :: wordsOfBytes n (bs.drop 8)

/-- Sponge input: fuel is a bound on the number of blocks of 136 bytes. -/
def shakeAbsorb : Nat → List W64 → List Byte → List W64
  | 0, a, _ => a
  | f + 1, a, bs =>
    let blk := if bs.length < 136 then
        let p := bs ++ [0x1F#8] ++ List.replicate (135 - bs.length) 0#8
        p.take 135 ++ [(p[135]?).getD 0#8 ||| 0x80#8]
      else bs.take 136
    let ws := wordsOfBytes 17 blk
    let a := keccakF ((List.range 25).map (fun i => laneOf a i ^^^ laneOf ws i))
    if bs.length < 136 then a else shakeAbsorb f a (bs.drop 136)

/-- SHAKE256 of at most 136 output bytes. -/
def shake256 (bs : List Byte) (n : Nat) : List Byte :=
  let a := shakeAbsorb (bs.length / 136 + 1) (List.replicate 25 0#64) bs
  ((a.take 17).flatMap (fun w => leBytes 8 w.toNat)).take n

/-! ## ChaCha with 8 rounds -/

def w32At (s : List W32) (i : Nat) : W32 := (s[i]?).getD 0#32

/-- Quarter round on words a, b, c, d of a block state. -/
def quarter (s : List W32) (i j k l : Nat) : List W32 :=
  let a := w32At s i
  let b := w32At s j
  let c := w32At s k
  let d := w32At s l
  let a := a + b
  let d := (d ^^^ a).rotateLeft 16
  let c := c + d
  let b := (b ^^^ c).rotateLeft 12
  let a := a + b
  let d := (d ^^^ a).rotateLeft 8
  let c := c + d
  let b := (b ^^^ c).rotateLeft 7
  listSet (listSet (listSet (listSet s i a) j b) k c) l d

def doubleRound (s : List W32) : List W32 :=
  let s := quarter (quarter (quarter (quarter s 0 4 8 12) 1 5 9 13) 2 6 10 14) 3 7 11 15
  quarter (quarter (quarter (quarter s 0 5 10 15) 1 6 11 12) 2 7 8 13) 3 4 9 14

/-- Output word 0 of the block function with 4 double rounds, for a seed, a token index, a draw kind and VCOUNT
(R567). -/
def chaCha8Word (seed : BitVec 128) (t d v : Nat) : W32 :=
  let s : List W32 := [0x61707865#32, 0x3320646e#32, 0x79622d32#32, 0x6b206574#32] ++
    (List.range 4).map (fun i => BitVec.ofNat 32 (seed.toNat / 2 ^ (32 * i))) ++ List.replicate 4 0#32 ++
    [BitVec.ofNat 32 t, BitVec.ofNat 32 d, BitVec.ofNat 32 (if d = 1 ∨ d = 2 then v else 0), 0#32]
  let r := doubleRound (doubleRound (doubleRound (doubleRound s)))
  w32At r 0 + w32At s 0

end Sys2Proof
end

