-- ==== Sys2Proof/Config.lean ====
section
/-! DEFINITION. What one module fixes and the spec leaves open as a value: opaque constants that no proof can evaluate.
freeReq is read at the counter State.free; the others stand for the mask ROM, the seed, the signature algorithm of
FIPS 204, and the encodings of objects whose contents the spec gives and whose layout it does not. -/
namespace Sys2Proof

/-- The token of a draft that no draft handoff of the step gave, or whose row had no candidate, by the request's seed, its
token index and VCOUNT, which are the job's own (R43, R573, R574; log entry 1). -/
opaque Config.freeDraft : BitVec 128 → Nat → Nat → BitVec 32

/-- REQ of an uncorrectable word that R179 gives no requester for: one met where the results of an MMUL or of an ATT are
merged into the scratchpad, or in the accumulators (log entry 74). -/
opaque Config.freeReq : Nat → BitVec 4

/-! ## The configuration record (R728) -/

/-- The factory section: θ and τ as FP32 bits, θ row by row; temperatures in whole degrees; check is the value that
SHAKE256 of seed and serial must equal (R730). -/
structure Factory where
  serial : W64
  part : Nat
  capGib : Nat
  check : List Byte
  devCert : List Byte
  defects : List Nat
  badEngines : List Nat
  theta : List W32
  tau : List W32
  tjTrip : Nat
  winLo : BitVec 8
  winHi : BitVec 8
  macs : List (BitVec 48)
deriving DecidableEq, Repr, Inhabited

/-- The site section; DISABLE of ports as sets. -/
structure Site where
  dylOff : List Nat
  dylMode : List Nat
  xwfOff : List Nat
  pfx : W64
  node : Nat
deriving DecidableEq, Repr, Inhabited

/-- The defaults of R728. -/
def Site.default_ : Site := ⟨[], [0, 0], List.range 16, 0xFD00000000000000#64, 0x7FFF⟩

/-- The factory section and the site section that a record body holds; no site section where its CRC fails or a growth
field is not zero (R728; DESIGN CHOICE, log entry 50). -/
opaque Config.recordBody : List Byte → Factory × Option Site

/-- The object that a record update writes: the selected record's factory section with the staged site section, or the
staged object where it carries a new signed factory section (R734). -/
opaque Config.mergeRecord : List Byte → List Byte → List Byte

/-- The four stages of a firmware body, in the order of R720. -/
opaque Config.fwStages : List Byte → List (List Byte)

/-- The area at a flash offset holds an unlock object for the serial, signed with the firmware root key (R736). -/
opaque Config.unlocks : Bytes → Nat → W64 → Bool

/-! ## Keys and digests (R721, R730, R731) -/

/-- ROM digests of the public keys for firmware and for records. -/
opaque Config.romKey : Bool → List Byte

/-- The boot ROM's image. -/
opaque Config.romImage : List Byte

/-- The device seed that the ROM reconstructs. -/
opaque Config.seed : List Byte

/-- ML-DSA-65 of FIPS 204: verification of a signature over a message under a context string. -/
opaque Config.verify : List Byte → List Byte → List Byte → List Byte → Bool

/-- Public key, and signature of a message, of the key pair made from a 32-byte seed. -/
opaque Config.publicKey : List Byte → List Byte
opaque Config.sign : List Byte → List Byte → List Byte

/-- The alias certificate that ZEN issues: DevID seed, alias public key and measurements 1 - 3. -/
opaque Config.aliasCert : List Byte → List Byte → List Byte → List Byte

/-- Molqua's root and manufacturing CA certificates. -/
opaque Config.caCerts : List (List Byte)

/-! ## A flit lost at a block other than a tile (R172) -/

/-- TYPE and DETAIL of the record of the receiving block, by its BLOCK code (log entry 90). -/
opaque Config.lostFlitType : Nat → BitVec 8
opaque Config.lostFlitDetail : Nat → BitVec 64

/-! ## The Virga control core's debug window (R336) -/

/-- What the VPC firmware stage puts into the core's IMEM and DMEM, whose layout the spec does not give (DESIGN CHOICE,
log entry 61). -/
opaque Config.vpcImem : List (BitVec 8) → List (BitVec 8)
opaque Config.vpcDmem : List (BitVec 8) → List (BitVec 8)

/-! ## JTAG (R736) -/

/-- Length of the instruction register, and of the register that an instruction other than BYPASS selects with the bits
it captures, which the spec does not give. -/
opaque Config.irLen : Nat
opaque Config.drCapture : List Bool → List Bool

end Sys2Proof
end

