-- ==== Sys2Proof/Machine/Codes.lean ====
section
/-! DEFINITION. The codes of chapter 9: CRC-32C (R392), the Reed-Solomon code over GF(2^12) with its decoder (R390,
R391), and the Reed-Muller word W(GEN) of the generation stamp (R394). -/
namespace Sys2Proof.Machine

/-! ## CRC-32C -/

/-- One bit of the reflected CRC. -/
def crcBit (c : Nat) : Nat := if c % 2 = 1 then (c / 2) ^^^ 0x82F63B78 else c / 2

def crcBits : Nat → Nat → Nat
  | 0, c => c
  | n + 1, c => crcBits n (crcBit c)

def crcStep (c : Nat) (b : Byte) : Nat := crcBits 8 (c ^^^ b.toNat)

/-- CRC-32C of a list of bytes (R392). -/
def crc32c (bs : List Byte) : Nat := (bs.foldl crcStep 0xFFFFFFFF) ^^^ 0xFFFFFFFF

/-! ## GF(2^12) -/

/-- Product by alpha, a root of x^12 + x^6 + x^4 + x + 1. -/
def gfDouble (a : Nat) : Nat := let b := 2 * a; if b ≥ 4096 then (b ^^^ 0x1053) else b

def gfMulAux : Nat → Nat → Nat → Nat → Nat
  | 0, _, _, acc => acc
  | n + 1, a, b, acc => gfMulAux n (gfDouble a) (b / 2) (if b % 2 = 1 then acc ^^^ a else acc)

def gfMul (a b : Nat) : Nat := gfMulAux 12 a b 0

def gfPowAux : Nat → Nat → Nat → Nat → Nat
  | 0, _, _, acc => acc
  | n + 1, b, e, acc => gfPowAux n (gfMul b b) (e / 2) (if e % 2 = 1 then gfMul acc b else acc)

/-- a to the power e, e below 4096. -/
def gfPow (a e : Nat) : Nat := gfPowAux 12 a e 1

def gfAlpha (e : Nat) : Nat := gfPow 2 (e % 4095)

/-- Inverse: the multiplicative group has 4095 elements. -/
def gfInv (a : Nat) : Nat := gfPow a 4094

/-! ## Polynomials, lowest coefficient first -/

def polyAdd : List Nat → List Nat → List Nat
  | [], b => b
  | a, [] => a
  | x :: a, y :: b => (x ^^^ y) :: polyAdd a b

def polyScale (c : Nat) (p : List Nat) : List Nat := p.map (gfMul c)

def polyMul : List Nat → List Nat → List Nat
  | [], _ => []
  | a :: p, q => polyAdd (polyScale a q) (0 :: polyMul p q)

def polyEval (p : List Nat) (x : Nat) : Nat := p.foldr (fun c acc => c ^^^ gfMul acc x) 0

/-- g(x) for 2t parity symbols (R390). -/
def rsGen (t : Nat) : List Nat :=
  (List.range (2 * t)).foldl (fun g i => polyMul g [gfAlpha (i + 1), 1]) [1]

/-- One step of the division by g: the remainder shifted up with one message symbol. -/
def rsStep (g : List Nat) (r : List Nat) (m : Nat) : List Nat :=
  let top := (r.getLast?).getD 0 ^^^ m
  polyAdd (0 :: r.dropLast) (polyScale top g.dropLast)

/-- Parity symbols of a message, given as symbols from the lowest (R390). -/
def rsParity (t : Nat) (msg : List Nat) : List Nat :=
  msg.reverse.foldl (rsStep (rsGen t)) (List.replicate (2 * t) 0)

/-- Bits of bytes, 12 at a time (R390): symbol i is bits 12i + 11 : 12i of the little-endian number. -/
def symbolsOf : Nat → Nat → List Nat
  | 0, _ => []
  | n + 1, v => v % 4096 :: symbolsOf n (v / 4096)

/-- The little-endian number of symbols. -/
def ofSymbols : List Nat → Nat
  | [] => 0
  | x :: xs => x + 4096 * ofSymbols xs

/-- The 2736 message symbols of 4,096 data bytes and the 8 bytes of WRITTEN (R390). -/
def rsMessage (data : List Byte) (written : W64) : List Nat :=
  symbolsOf 2736 (leNat data + 2 ^ 32768 * written.toNat)

/-- Syndromes of a received word, coefficients from x^0 up. -/
def rsSyndromes (t : Nat) (word : List Nat) : List Nat :=
  (List.range (2 * t)).map (fun i => polyEval word (gfAlpha (i + 1)))

/-- State of the Berlekamp-Massey recursion: locator, previous locator, length, gap, previous discrepancy. -/
structure BM where
  lam : List Nat
  prev : List Nat
  len : Nat
  gap : Nat
  disc : Nat
deriving DecidableEq, Repr

def bmStep (syn : List Nat) (b : BM) (n : Nat) : BM :=
  let d := (List.range (b.len + 1)).foldl (fun acc i =>
    acc ^^^ gfMul ((b.lam[i]?).getD 0) (if i ≤ n then (syn[n - i]?).getD 0 else 0)) 0
  if d = 0 then { b with gap := b.gap + 1 }
  else
    let c := gfMul d (gfInv b.disc)
    let lam := polyAdd b.lam (List.replicate b.gap 0 ++ polyScale c b.prev)
    if 2 * b.len ≤ n then ⟨lam, b.lam, n + 1 - b.len, 1, d⟩
    else { b with lam := lam, gap := b.gap + 1 }

/-- Error locator of the syndromes. -/
def rsLocator (syn : List Nat) : BM := (List.range syn.length).foldl (bmStep syn) ⟨[1], [1], 0, 1, 1⟩

/-- Formal derivative over a field of characteristic 2. -/
def polyDeriv (p : List Nat) : List Nat := (p.zipIdx.map (fun c => if c.2 % 2 = 1 then c.1 else 0)).drop 1

/-- Value of the error at position p (Forney). -/
def rsErrorAt (t : Nat) (syn lam : List Nat) (p : Nat) : Nat :=
  let xi := gfAlpha (4095 - p % 4095)
  let om := (polyMul syn lam).take (2 * t)
  gfMul (polyEval om xi) (gfInv (polyEval (polyDeriv lam) xi))

/-- Correction of a received word of parity then message symbols (R391): the corrected word and how many symbols
were wrong, or none where no codeword lies within t symbols. -/
def rsDecode (t : Nat) (word : List Nat) : Option (List Nat × Nat) :=
  let syn := rsSyndromes t word
  if syn.all (· == 0) then some (word, 0)
  else
    let b := rsLocator syn
    let pos := (List.range word.length).filter (fun p => polyEval b.lam (gfAlpha (4095 - p % 4095)) == 0)
    if b.len > t ∨ pos.length ≠ b.len then none
    else
      let fixed := pos.foldl (fun w p => listSet w p (((w[p]?).getD 0) ^^^ rsErrorAt t syn b.lam p)) word
      if (rsSyndromes t fixed).all (· == 0) then some (fixed, b.len) else none

/-! ## The generation word -/

/-- The pairs of R394, in the order of GEN bits 6 - 15. -/
def rmPairs : List (Nat × Nat) :=
  [(1, 2), (1, 3), (1, 4), (1, 5), (2, 3), (2, 4), (2, 5), (3, 4), (3, 5), (4, 5)]

/-- Bit k of W(GEN) (R394). -/
def genBit (gen k : Nat) : Bool :=
  let x := fun i => k.testBit (i - 1)
  let w := (List.range 5).foldl (fun w i => xor w (gen.testBit (i + 1) && x (i + 1))) (gen.testBit 0)
  (rmPairs.zipIdx).foldl (fun w p => xor w (gen.testBit (p.2 + 6) && x p.1.1 && x p.1.2)) w

/-- W(GEN): the Reed-Muller codeword of GEN[15:0] (R394). -/
def genWord (gen : Nat) : W32 :=
  BitVec.ofNat 32 ((List.range 32).foldl (fun a k => a + (if genBit gen k then 2 ^ k else 0)) 0)

/-- Set bits of a number below 2^64. -/
def popcount (v : Nat) : Nat := ((List.range 64).filter (fun i => v.testBit i)).length

end Sys2Proof.Machine
end

