-- ==== Sys2Proof/Machine/Num.lean ====
section
/-! DEFINITION. Number formats and arithmetic (chapter 2 of the spec): exact values, the element formats of R50, the
one rounding step of R62, overflow (R63), the conversions of R64 and R65, block encodings (R58, R61), and the
correctly rounded functions of R77. Every operation is computed exactly and narrowed once at its end. -/
namespace Sys2Proof.Machine

/-- An exact value: NaN, an infinity, or (-1)^neg * m * 2^e. A zero keeps its sign. -/
inductive FVal where
  | nan
  | inf (neg : Bool)
  | fin (neg : Bool) (m : Nat) (e : Int)
deriving DecidableEq, Repr

/-- Rounding modes of R62. -/
inductive RM where
  | rne | rtz
deriving DecidableEq, Repr

/-- Overflow modes of R63. -/
inductive Ovf where
  | sat | ieee
deriving DecidableEq, Repr

/-- The format codes of R257. -/
inductive Fmt where
  | none | fp32 | bf16 | fp16 | e5m2 | e4m3 | e3m2 | e2m3 | e2m1
  | int4 | int8 | int32 | int64
  | mxE4m3 | mxE5m2 | mxE2m3 | mxE3m2 | mxfp4 | pq8 | pq6 | pq4
deriving DecidableEq, Repr

/-- The format a code names; codes 21 - 31 are growth (R257). -/
def Fmt.ofCode : Nat → Option Fmt
  | 0 => some .none | 1 => some .fp32 | 2 => some .bf16 | 3 => some .fp16 | 4 => some .e5m2 | 5 => some .e4m3
  | 6 => some .e3m2 | 7 => some .e2m3 | 8 => some .e2m1 | 9 => some .int4 | 10 => some .int8 | 11 => some .int32
  | 12 => some .int64 | 13 => some .mxE4m3 | 14 => some .mxE5m2 | 15 => some .mxE2m3 | 16 => some .mxE3m2
  | 17 => some .mxfp4 | 18 => some .pq8 | 19 => some .pq6 | 20 => some .pq4 | _ => Option.none

/-- Width in bits of one element as R50 gives it; for MX the element's own width, for PQ the number of planes. -/
def Fmt.bits : Fmt → Nat
  | .none => 0 | .fp32 => 32 | .bf16 => 16 | .fp16 => 16 | .e5m2 => 8 | .e4m3 => 8 | .e3m2 => 6 | .e2m3 => 6
  | .e2m1 => 4 | .int4 => 4 | .int8 => 8 | .int32 => 32 | .int64 => 64 | .mxE4m3 => 8 | .mxE5m2 => 8
  | .mxE2m3 => 6 | .mxE3m2 => 6 | .mxfp4 => 4 | .pq8 => 8 | .pq6 => 6 | .pq4 => 4

def Fmt.isMx : Fmt → Bool
  | .mxE4m3 | .mxE5m2 | .mxE2m3 | .mxE3m2 | .mxfp4 => true
  | _ => false

def Fmt.isPq : Fmt → Bool
  | .pq8 | .pq6 | .pq4 => true
  | _ => false

def Fmt.isInt : Fmt → Bool
  | .int4 | .int8 | .int32 | .int64 => true
  | _ => false

/-- The floating-point formats of R50 (bare, not blocks). -/
def Fmt.isFloat : Fmt → Bool
  | .fp32 | .bf16 | .fp16 | .e5m2 | .e4m3 | .e3m2 | .e2m3 | .e2m1 => true
  | _ => false

def Fmt.isBlock (f : Fmt) : Bool := f.isMx || f.isPq

/-- Element format of an MX block (R57). -/
def Fmt.elem : Fmt → Fmt
  | .mxE4m3 => .e4m3 | .mxE5m2 => .e5m2 | .mxE2m3 => .e2m3 | .mxE3m2 => .e3m2 | .mxfp4 => .e2m1 | f => f

/-- How a format encodes its top exponent (R50, R51, R52). -/
inductive Top where
  /-- infinity and NaN, as IEEE -/
  | ieee
  /-- NaN only at all ones (E4M3) -/
  | nanOnly
  /-- every code finite -/
  | finite
deriving DecidableEq, Repr

/-- Parameters of a floating-point format (R50). -/
structure FF where
  eb : Nat
  mb : Nat
  bias : Nat
  top : Top
deriving DecidableEq, Repr

def Fmt.ff : Fmt → FF
  | .bf16 => ⟨8, 7, 127, .ieee⟩
  | .fp16 => ⟨5, 10, 15, .ieee⟩
  | .e5m2 | .mxE5m2 => ⟨5, 2, 15, .ieee⟩
  | .e4m3 | .mxE4m3 => ⟨4, 3, 7, .nanOnly⟩
  | .e3m2 | .mxE3m2 => ⟨3, 2, 3, .finite⟩
  | .e2m3 | .mxE2m3 => ⟨2, 3, 1, .finite⟩
  | .e2m1 | .mxfp4 => ⟨2, 1, 1, .finite⟩
  | _ => ⟨8, 23, 127, .ieee⟩

/-- Code of the canonical NaN, sign positive (R54); 0 for a format without one (R52). -/
def FF.nanCode (f : FF) : Nat :=
  match f.top with
  | .ieee => (2 ^ f.eb - 1) * 2 ^ f.mb + 2 ^ (f.mb - 1)
  | .nanOnly => (2 ^ f.eb - 1) * 2 ^ f.mb + (2 ^ f.mb - 1)
  | .finite => 0

/-- Code, without sign, of the largest finite value (R50, R51). -/
def FF.maxCode (f : FF) : Nat :=
  match f.top with
  | .ieee => (2 ^ f.eb - 1) * 2 ^ f.mb - 1
  | .nanOnly => (2 ^ f.eb - 1) * 2 ^ f.mb + (2 ^ f.mb - 2)
  | .finite => 2 ^ (f.eb + f.mb) - 1

/-- Significand and exponent of a code without its sign. -/
def FF.parts (f : FF) (c : Nat) : Nat × Int :=
  let ef := c / 2 ^ f.mb
  let mf := c % 2 ^ f.mb
  if ef = 0 then (mf, 1 - (f.bias : Int) - f.mb) else (mf + 2 ^ f.mb, (ef : Int) - f.bias - f.mb)

/-- The value a code stands for (R50 - R53). -/
def FF.decode (f : FF) (c : Nat) : FVal :=
  let w := f.eb + f.mb
  let neg := c / 2 ^ w % 2 = 1
  let c := c % 2 ^ w
  let inTop := c / 2 ^ f.mb = 2 ^ f.eb - 1
  match f.top with
  | .ieee =>
    if inTop then (if c % 2 ^ f.mb = 0 then .inf neg else .nan)
    else let p := f.parts c; .fin neg p.1 p.2
  | .nanOnly =>
    if c = 2 ^ w - 1 then .nan else let p := f.parts c; .fin neg p.1 p.2
  | .finite => let p := f.parts c; .fin neg p.1 p.2

/-- m * 2^e rounded to an integer: the one rounding step of R62. -/
def roundInt (rm : RM) (m : Nat) (e : Int) : Nat :=
  if 0 ≤ e then m * 2 ^ e.toNat
  else
    let d := 2 ^ (-e).toNat
    let q := m / d
    let r := m % d
    match rm with
    | .rtz => q
    | .rne => if 2 * r > d ∨ (2 * r = d ∧ q % 2 = 1) then q + 1 else q

/-- Code with sign. -/
def FF.signed (f : FF) (neg : Bool) (c : Nat) : Nat := (if neg then 2 ^ (f.eb + f.mb) else 0) + c

/-- Result of an overflow (R63): a format without infinity or NaN always saturates (DEDUCED, log entry 13). -/
def FF.overflow (f : FF) (o : Ovf) (neg : Bool) : Nat :=
  match o, f.top with
  | .sat, _ => f.signed neg f.maxCode
  | .ieee, .ieee => f.signed neg ((2 ^ f.eb - 1) * 2 ^ f.mb)
  | .ieee, .nanOnly => f.nanCode
  | .ieee, .finite => f.signed neg f.maxCode

/-- The code of an exact value in a format, rounded once (R62) and overflowing under R63. -/
def FF.encode (f : FF) (rm : RM) (o : Ovf) : FVal → Nat
  | .nan => f.nanCode
  | .inf neg => f.overflow o neg
  | .fin neg m e =>
    if m = 0 then f.signed neg 0
    else
      let top : Int := (Nat.log2 m : Int) + e
      let q : Int := max top (1 - (f.bias : Int)) - f.mb
      let r := roundInt rm m (e - q)
      let (r, q) := if r ≥ 2 ^ (f.mb + 1) then (r / 2, q + 1) else (r, q)
      let mx := f.parts f.maxCode
      -- r * 2^q against the largest finite value
      let ovfl := if q ≥ mx.2 then decide (r * 2 ^ (q - mx.2).toNat > mx.1) else false
      if ovfl then (match rm with | .rtz => f.signed neg f.maxCode | .rne => f.overflow o neg)
      else if r < 2 ^ f.mb then f.signed neg r
      else f.signed neg (((q + f.mb + f.bias).toNat) * 2 ^ f.mb + (r - 2 ^ f.mb))

/-- Signed value of a two's complement code of w bits. -/
def sext (w c : Nat) : Int := if c % 2 ^ w ≥ 2 ^ (w - 1) then (c % 2 ^ w : Nat) - (2 ^ w : Nat) else (c % 2 ^ w : Nat)

/-- Two's complement code of w bits. -/
def twos (w : Nat) (i : Int) : Nat := (i % (2 ^ w : Nat)).toNat

def FVal.ofInt (i : Int) : FVal := .fin (decide (i < 0)) i.natAbs 0

def FVal.zero : FVal := .fin false 0 0

/-- Saturation at the range of a signed integer of w bits. -/
def satInt (w : Nat) (i : Int) : Int := max (-(2 ^ (w - 1) : Nat)) (min ((2 ^ (w - 1) : Nat) - 1) i)

/-- Value of a bare element code. -/
def Fmt.decode (f : Fmt) (c : Nat) : FVal :=
  if f.isInt then FVal.ofInt (sext f.bits c) else f.ff.decode c

/-- Conversion of a value to a bare element code (R63 - R65). -/
def Fmt.encode (f : Fmt) (rm : RM) (o : Ovf) (x : FVal) : Nat :=
  if f.isInt then
    match x with
    | .nan => 0
    | .inf neg => twos f.bits (if neg then -(2 ^ (f.bits - 1) : Nat) else (2 ^ (f.bits - 1) : Nat) - 1)
    | .fin neg m e =>
      let r : Int := roundInt rm m e
      twos f.bits (satInt f.bits (if neg then -r else r))
  else f.ff.encode rm o x

/-! ## Exact arithmetic -/

def FVal.isNan : FVal → Bool
  | .nan => true
  | _ => false

def FVal.isZero : FVal → Bool
  | .fin _ m _ => m == 0
  | _ => false

def FVal.isNeg : FVal → Bool
  | .nan => false
  | .inf n => n
  | .fin n _ _ => n

def FVal.neg : FVal → FVal
  | .nan => .nan
  | .inf n => .inf (!n)
  | .fin n m e => .fin (!n) m e

def FVal.abs : FVal → FVal
  | .nan => .nan
  | .inf _ => .inf false
  | .fin _ m e => .fin false m e

/-- Value scaled by a power of two, exactly. -/
def FVal.scale (k : Int) : FVal → FVal
  | .fin n m e => .fin n m (e + k)
  | x => x

/-- Exact sum with the sign rules of R56 and the special values of R70. -/
def FVal.add : FVal → FVal → FVal
  | .nan, _ => .nan
  | _, .nan => .nan
  | .inf a, .inf b => if a = b then .inf a else .nan
  | .inf a, .fin .. => .inf a
  | .fin .., .inf b => .inf b
  | .fin a m e, .fin b n f =>
    if m = 0 ∧ n = 0 then .fin (a && b) 0 0
    else
      let l := min e f
      let x : Int := (m * 2 ^ (e - l).toNat : Nat)
      let y : Int := (n * 2 ^ (f - l).toNat : Nat)
      let s := (if a then -x else x) + (if b then -y else y)
      .fin (decide (s < 0)) s.natAbs l

/-- Exact product (R67, R70). -/
def FVal.mul : FVal → FVal → FVal
  | .nan, _ => .nan
  | _, .nan => .nan
  | .inf a, .inf b => .inf (xor a b)
  | .inf a, .fin b n _ => if n = 0 then .nan else .inf (xor a b)
  | .fin a m _, .inf b => if m = 0 then .nan else .inf (xor a b)
  | .fin a m e, .fin b n f => .fin (xor a b) (m * n) (e + f)

/-- Exact comparison of finite values as integers over a common exponent. -/
def FVal.toScaled (l : Int) : FVal → Int
  | .fin n m e => let x : Int := (m * 2 ^ (e - l).toNat : Nat); if n then -x else x
  | _ => 0

/-- Strictly below; false when either is NaN. Zeros of both signs are equal. -/
def FVal.lt : FVal → FVal → Bool
  | .nan, _ => false
  | _, .nan => false
  | .inf a, .inf b => a && !b
  | .inf a, .fin .. => a
  | .fin .., .inf b => !b
  | .fin a m e, .fin b n f =>
    let l := min e f
    decide (FVal.toScaled l (.fin a m e) < FVal.toScaled l (.fin b n f))

def FVal.le (a b : FVal) : Bool := !a.isNan && !b.isNan && !b.lt a
def FVal.eqv (a b : FVal) : Bool := !a.isNan && !b.isNan && !a.lt b && !b.lt a

/-- The operation of IEEE 754-2019 minimum: NaN gives NaN, and -0 orders below +0 (R75). -/
def FVal.minimum (a b : FVal) : FVal :=
  if a.isNan || b.isNan then .nan
  else if a.lt b then a else if b.lt a then b
  else if a.isNeg then a else b

def FVal.maximum (a b : FVal) : FVal :=
  if a.isNan || b.isNan then .nan
  else if a.lt b then b else if b.lt a then a
  else if a.isNeg then b else a

/-- m / d * 2^e with the remainder kept as a last sticky bit, so that one later rounding is exact. -/
def quotSticky (neg : Bool) (m d : Nat) (e : Int) : FVal :=
  let k := 80 + Nat.log2 d
  let q := m * 2 ^ k / d
  let r := m * 2 ^ k % d
  .fin neg (2 * q + (if r = 0 then 0 else 1)) (e - k - 1)

/-- Quotient before its rounding (R74). -/
def FVal.div : FVal → FVal → FVal
  | .nan, _ => .nan
  | _, .nan => .nan
  | .inf _, .inf _ => .nan
  | .inf a, .fin b _ _ => .inf (xor a b)
  | .fin a _ _, .inf b => .fin (xor a b) 0 0
  | .fin a m e, .fin b n f =>
    if n = 0 then (if m = 0 then .nan else .inf (xor a b))
    else if m = 0 then .fin (xor a b) 0 0
    else quotSticky (xor a b) m n (e - f)

/-- Integer square root by bisection over the bits, from the top bit down. -/
def isqrtAux (n : Nat) : Nat → Nat → Nat
  | 0, r => r
  | k + 1, r => if (r + 2 ^ k) * (r + 2 ^ k) ≤ n then isqrtAux n k (r + 2 ^ k) else isqrtAux n k r

def isqrt (n : Nat) : Nat := isqrtAux n (Nat.log2 n / 2 + 1) 0

def FVal.sqrt : FVal → FVal
  | .nan => .nan
  | .inf n => if n then .nan else .inf false
  | .fin n m e =>
    if m = 0 then .fin n 0 0
    else if n then .nan
    else
      let e' := e - 120
      let (m, e) := if e' % 2 = 0 then (m * 2 ^ 120, e') else (m * 2 ^ 121, e' - 1)
      let r := isqrt m
      .fin false (2 * r + (if r * r = m then 0 else 1)) (e / 2 - 1)

/-- Reciprocal square root; a zero gives an infinity of its sign (IEEE 754-2019, clause 9.2). -/
def FVal.rsqrt : FVal → FVal
  | .nan => .nan
  | .inf n => if n then .nan else .fin false 0 0
  | .fin n m e =>
    if m = 0 then .inf n
    else if n then .nan
    else
      let (m, e) := if e % 2 = 0 then (m, e) else (2 * m, e - 1)
      let k := 120 + Nat.log2 m
      let v := 2 ^ (2 * k) / m
      let r := isqrt v
      .fin false (2 * r + (if r * r * m = 2 ^ (2 * k) then 0 else 1)) (-(e / 2) - k - 1)

/-! ## Rounding to FP32 and BF16 inside a computation -/

def fp32 : FF := Fmt.ff .fp32

/-- One rounding to FP32 under RNE, overflow per IEEE (R62, R68). -/
def FVal.r32 (x : FVal) : FVal := fp32.decode (fp32.encode .rne .ieee x)

def FVal.r32m (rm : RM) (x : FVal) : FVal := fp32.decode (fp32.encode rm .ieee x)

def ofBits32 (b : W32) : FVal := fp32.decode b.toNat
def toBits32 (x : FVal) : W32 := BitVec.ofNat 32 (fp32.encode .rne .ieee x)

/-- Single operations in FP32 (R74), in the rounding mode of the command (R62); fused multiply-add rounds once. -/
def faddR (rm : RM) (a b : FVal) : FVal := (a.add b).r32m rm
def fsubR (rm : RM) (a b : FVal) : FVal := (a.add b.neg).r32m rm
def fmulR (rm : RM) (a b : FVal) : FVal := (a.mul b).r32m rm
def fdivR (rm : RM) (a b : FVal) : FVal := (a.div b).r32m rm
def ffmaR (rm : RM) (a b c : FVal) : FVal := ((a.mul b).add c).r32m rm

/-- The same to nearest even, where no command selects a mode. -/
def fadd (a b : FVal) : FVal := faddR .rne a b
def fsub (a b : FVal) : FVal := fsubR .rne a b
def fmul (a b : FVal) : FVal := fmulR .rne a b
def fdiv (a b : FVal) : FVal := fdivR .rne a b
def ffma (a b c : FVal) : FVal := ffmaR .rne a b c

/-- Exact sum of a list, no rounding; an empty list gives +0. -/
def exactSum : List FVal → FVal
  | [] => .zero
  | x :: xs => xs.foldl FVal.add x

/-! ## The functions of R77, in fixed point with P fractional bits -/

/-- Fractional bits of the fixed-point computations. -/
def fxP : Nat := 400

def fxMul (a b : Int) : Int := a * b / (2 ^ fxP : Nat)
def fxDiv (a b : Int) : Int := a * (2 ^ fxP : Nat) / b

/-- A finite value in fixed point. -/
def FVal.toFx : FVal → Int
  | .fin n m e =>
    let x : Int := if 0 ≤ e + fxP then (m * 2 ^ (e + fxP).toNat : Nat) else (m / 2 ^ (-(e + fxP)).toNat : Nat)
    if n then -x else x
  | _ => 0

/-- A fixed-point result of an irrational value: a sticky bit stands for what lies below. -/
def ofFx (x : Int) : FVal := .fin (decide (x < 0)) (2 * x.natAbs + 1) (-(fxP : Int) - 1)

/-- Sum of 1 / (k * 2^k): the natural logarithm of 2. -/
def ln2Aux : Nat → Nat → Int → Int
  | 0, _, acc => acc
  | n + 1, k, acc => ln2Aux n (k + 1) (acc + (2 ^ fxP : Nat) / ((k * 2 ^ k : Nat) : Int))

def fxLn2 : Int := ln2Aux 400 1 0

/-- Arc tangent of 1 / q by its series. -/
def atanInvAux (q : Int) : Nat → Int → Int → Bool → Int → Int
  | 0, _, _, _, acc => acc
  | n + 1, p, k, neg, acc =>
    atanInvAux q n (p / (q * q)) (k + 2) (!neg) (if neg then acc - p / k else acc + p / k)

def fxPi : Int :=
  16 * atanInvAux 5 100 ((2 ^ fxP : Nat) / 5) 1 false 0 - 4 * atanInvAux 239 40 ((2 ^ fxP : Nat) / 239) 1 false 0

/-- Taylor series of the exponential. -/
def expSeries (r : Int) : Nat → Int → Int → Int → Int
  | 0, _, _, acc => acc
  | n + 1, k, t, acc => let t := fxMul t r / k; expSeries r n (k + 1) t (acc + t)

def squareTimes : Nat → Int → Int
  | 0, x => x
  | n + 1, x => squareTimes n (fxMul x x)

/-- exp of a fixed-point value of magnitude below 2^9: 2^k times the exponential of the remainder (DEDUCED, log entry
14). -/
def fxExp (x : Int) : Int :=
  let k := x / fxLn2
  let r := x - k * fxLn2
  let one : Int := (2 ^ fxP : Nat)
  let y := squareTimes 8 (expSeries (r / 256) 60 1 one one)
  if 0 ≤ k then y * (2 ^ k.toNat : Nat) else y / (2 ^ (-k).toNat : Nat)

/-- Series of the inverse hyperbolic tangent. -/
def atanhSeries (z2 : Int) : Nat → Int → Int → Int → Int
  | 0, _, _, acc => acc
  | n + 1, k, p, acc => atanhSeries z2 n (k + 2) (fxMul p z2) (acc + p / k)

/-- Natural logarithm of m * 2^e, m > 0. -/
def fxLn (m : Nat) (e : Int) : Int :=
  let l := Nat.log2 m
  let x : Int := if l ≤ fxP then (m * 2 ^ (fxP - l) : Nat) else (m / 2 ^ (l - fxP) : Nat)
  let one : Int := (2 ^ fxP : Nat)
  let z := fxDiv (x - one) (x + one)
  2 * atanhSeries (fxMul z z) 140 1 z 0 + ((l : Int) + e) * fxLn2

/-- Sine series of an angle in fixed point. -/
def sinSeries (r2 : Int) : Nat → Int → Int → Int → Int
  | 0, _, _, acc => acc
  | n + 1, k, t, acc => let t := -(fxMul t r2) / ((k + 1) * (k + 2)); sinSeries r2 n (k + 2) t (acc + t)

def fxSin (r : Int) : Int := sinSeries (fxMul r r) 60 1 r r
def fxCos (r : Int) : Int := sinSeries (fxMul r r) 60 0 (2 ^ fxP : Nat) (2 ^ fxP : Nat)

/-- Series of the error function times sqrt(pi) / 2. -/
def erfSeries (x2 : Int) : Nat → Int → Int → Int → Int
  | 0, _, _, acc => acc
  | n + 1, k, t, acc =>
    let t := -(fxMul t x2) / (k + 1)
    erfSeries x2 n (k + 1) t (acc + t / (2 * (k + 1) + 1))

/-- 2 / sqrt(pi) from an integer square root. -/
def fxTwoOverSqrtPi : Int := fxDiv (2 * (2 ^ fxP : Nat)) (isqrt (fxPi.toNat * 2 ^ fxP))

def fxErf (x : Int) : Int := fxMul fxTwoOverSqrtPi (erfSeries (fxMul x x) 300 0 x x)

/-- A value just inside 1, and a value below every format's range: limits that one rounding settles. -/
def justBelowOne (neg : Bool) : FVal := .fin neg (2 ^ 100 - 1) (-100)
def tiny (neg : Bool) : FVal := .fin neg 1 (-1000)
def huge (neg : Bool) : FVal := .fin neg 1 1000

def FVal.gtInt (x : FVal) (i : Int) : Bool := (FVal.ofInt i).lt x
def FVal.ltInt (x : FVal) (i : Int) : Bool := x.lt (FVal.ofInt i)

/-- A finite dyadic is an integer. -/
def FVal.asInt? : FVal → Option Int
  | .fin n m e =>
    if m = 0 then some 0
    else if 0 ≤ e then
      (if e > 300 then none else some (let v : Int := (m * 2 ^ e.toNat : Nat); if n then -v else v))
    else if -e > 2000 then none
    else if m % 2 ^ (-e).toNat = 0 then some (let v : Int := (m / 2 ^ (-e).toNat : Nat); if n then -v else v)
    else none
  | _ => none

def FVal.exp : FVal → FVal
  | .nan => .nan
  | .inf n => if n then .zero else .inf false
  | x => if x.isZero then FVal.ofInt 1 else if x.gtInt 200 then huge false else if x.ltInt (-200) then tiny false
         else ofFx (fxExp x.toFx)

def FVal.exp2 : FVal → FVal
  | .nan => .nan
  | .inf n => if n then .zero else .inf false
  | x =>
    if x.gtInt 300 then huge false else if x.ltInt (-300) then tiny false
    else match x.asInt? with
      | some i => .fin false 1 i
      | none => ofFx (fxExp (fxMul x.toFx fxLn2))

def FVal.log : FVal → FVal
  | .nan => .nan
  | .inf n => if n then .nan else .inf false
  | .fin n m e =>
    if m = 0 then .inf true else if n then .nan
    else if FVal.eqv (.fin n m e) (FVal.ofInt 1) then .zero
    else ofFx (fxLn m e)

def FVal.log2 : FVal → FVal
  | .nan => .nan
  | .inf n => if n then .nan else .inf false
  | .fin n m e =>
    if m = 0 then .inf true else if n then .nan
    else if m = 2 ^ Nat.log2 m then FVal.ofInt ((Nat.log2 m : Int) + e)
    else ofFx (fxDiv (fxLn m e) fxLn2)

/-- The fractional part of x modulo 2 as a dyadic of at most 200 bits, with x's sign removed. -/
def FVal.mod2 : FVal → FVal
  | .fin _ m e =>
    if 1 ≤ e then .zero
    else if -e > 160 then .fin false m e
    else .fin false (m % 2 ^ (1 - e).toNat) e
  | _ => .zero

/-- sin(pi x): exact at multiples of 1/2, with the signed zeros of clause 9.2. -/
def FVal.sinpi : FVal → FVal
  | .nan => .nan
  | .inf _ => .nan
  | .fin n m e =>
    let x : FVal := .fin n m e
    if m = 0 then x
    else
      let r := (x.abs).mod2
      match (r.scale 1).asInt? with
      | some 0 => .fin n 0 0
      | some 1 => .fin n 1 0
      | some 2 => .fin n 0 0
      | some 3 => .fin (!n) 1 0
      | _ =>
        let s := fxSin (fxMul r.toFx fxPi)
        -- below 2^-160 the value is pi * x to every bit that a rounding reads
        if -e > 160 + Nat.log2 m then (let v := FVal.mul x (.fin false fxPi.toNat (-(fxP : Int)));
          match v with | .fin a b c => .fin a (2 * b + 1) (c - 1) | v => v)
        else if n then ofFx (-s) else ofFx s

def FVal.cospi : FVal → FVal
  | .nan => .nan
  | .inf _ => .nan
  | .fin n m e =>
    let x : FVal := .fin n m e
    let r := (x.abs).mod2
    match (r.scale 1).asInt? with
    | some 0 => FVal.ofInt 1
    | some 1 => .zero
    | some 2 => FVal.ofInt (-1)
    | some 3 => .zero
    | _ => ofFx (fxCos (fxMul r.toFx fxPi))

def FVal.tanh : FVal → FVal
  | .nan => .nan
  | .inf n => .fin n 1 0
  | x =>
    if x.isZero then x
    else if (x.abs).gtInt 40 then justBelowOne x.isNeg
    else
      let t := fxExp (2 * x.toFx)
      let one : Int := (2 ^ fxP : Nat)
      ofFx (fxDiv (t - one) (t + one))

/-- sigmoid with the special values of R77. -/
def FVal.sigmoid : FVal → FVal
  | .nan => .nan
  | .inf n => if n then .zero else FVal.ofInt 1
  | x =>
    if x.isZero then .fin false 1 (-1)
    else if x.gtInt 60 then justBelowOne false
    else if x.ltInt (-200) then tiny false
    else
      let one : Int := (2 ^ fxP : Nat)
      ofFx (fxDiv one (one + fxExp (-x.toFx)))

/-- erf with the special values of R77. -/
def FVal.erf : FVal → FVal
  | .nan => .nan
  | .inf n => .fin n 1 0
  | x =>
    if x.isZero then x
    else if (x.abs).gtInt 6 then justBelowOne x.isNeg
    else ofFx (fxErf x.toFx)

/-! ## Reductions and composites -/

/-- Elements of a list at the positions congruent to r modulo n, in order. -/
def lane (n r : Nat) (xs : List FVal) : List FVal :=
  (xs.zipIdx.filter (fun p => p.2 % n = r)).map (·.1)

/-- Neighbours combined in pairs, level by level, until one value remains. -/
def pairUp (f : FVal → FVal → FVal) : List FVal → List FVal
  | a :: b :: t => f a b :: pairUp f t
  | l => l

def pairLevels (f : FVal → FVal → FVal) : Nat → List FVal → List FVal
  | 0, l => l
  | n + 1, l => pairLevels f n (pairUp f l)

/-- The reduction order of R76 (256 lanes, 8 levels) and of R201 (2,048 sub-lanes, 11 levels): each lane combines
its elements in increasing order from start, then lanes 2j and 2j + 1 are combined, level by level. -/
def reduceOrder (lanes levels : Nat) (start : FVal) (step : FVal → FVal → FVal) (join : FVal → FVal → FVal)
    (xs : List FVal) : FVal :=
  let ls := (List.range lanes).map (fun r => (lane lanes r xs).foldl step start)
  (pairLevels join levels ls).headD .zero

/-- The two reduction orders of the device. -/
inductive RedOrder where
  | vxe | virga
deriving DecidableEq, Repr

def RedOrder.lanes : RedOrder → Nat
  | .vxe => 256
  | .virga => 2048

def RedOrder.levels : RedOrder → Nat
  | .vxe => 8
  | .virga => 11

def redSum (o : RedOrder) (rm : RM) (xs : List FVal) : FVal :=
  reduceOrder o.lanes o.levels .zero (faddR rm) (faddR rm) xs

/-- Where a maximum lane starts: from -infinity on the VXE (R76), from +0 on a Virga engine (R201). -/
def RedOrder.maxStart : RedOrder → FVal
  | .vxe => .inf true
  | .virga => .zero

def redMax (o : RedOrder) (xs : List FVal) : FVal :=
  reduceOrder o.lanes o.levels o.maxStart FVal.maximum FVal.maximum xs

/-- A sum-of-products lane uses fused multiply-add, starting from +0. -/
def redDot (o : RedOrder) (rm : RM) (xs ys : List FVal) : FVal :=
  let ps := xs.zip ys
  let ls := (List.range o.lanes).map (fun r =>
    ((ps.zipIdx.filter (fun p => p.2 % o.lanes = r)).map (·.1)).foldl (fun a p => ffmaR rm p.1 p.2 a) .zero)
  (pairLevels (faddR rm) o.levels ls).headD .zero

def fsigmoid (x : FVal) : FVal := x.sigmoid.r32
def ferf (x : FVal) : FVal := x.erf.r32
def fexp (x : FVal) : FVal := x.exp.r32
def frcp (x : FVal) : FVal := ((FVal.ofInt 1).div x).r32
def frsqrt (x : FVal) : FVal := x.rsqrt.r32
def fsqrt (x : FVal) : FVal := x.sqrt.r32

/-- silu (R79); like every composite, its steps round in the command's mode, and its primitive functions to nearest even
(R62, R74, R77). -/
def silu (rm : RM) (x : FVal) : FVal := fmulR rm x (fsigmoid x)

/-- gelu (R79). -/
def gelu (rm : RM) (x : FVal) : FVal :=
  let t1 := fmulR rm x (ofBits32 0x3F3504F3#32)
  let t3 := faddR rm (FVal.ofInt 1) (ferf t1)
  fmulR rm (fmulR rm x t3) (.fin false 1 (-1))

/-- softmax over one row (R79). -/
def softmax (o : RedOrder) (rm : RM) (xs : List FVal) : List FVal :=
  let m := redMax o xs
  let es := xs.map (fun x => fexp (fsubR rm x m))
  let r := frcp (redSum o rm es)
  es.map (fun e => fmulR rm e r)

/-- RMS norm over one row (R79). -/
def rmsNorm (o : RedOrder) (rm : RM) (invN eps : FVal) (xs gs : List FVal) : List FVal :=
  let t := ffmaR rm (redDot o rm xs xs) invN eps
  let r := frsqrt t
  (xs.zip gs).map (fun p => fmulR rm (fmulR rm p.1 r) p.2)

/-- Layer norm over one row (R79). -/
def layerNorm (o : RedOrder) (rm : RM) (invN eps : FVal) (xs gs bs : List FVal) : List FVal :=
  let mu := fmulR rm (redSum o rm xs) invN
  let ds := xs.map (fun x => fsubR rm x mu)
  let t := ffmaR rm (redDot o rm ds ds) invN eps
  let r := frsqrt t
  ((ds.zip gs).zip bs).map (fun p => ffmaR rm (fmulR rm p.1.1 r) p.1.2 p.2)

/-! ## Block encodings -/

/-- emax of the element format of an MX block (R57). -/
def Fmt.emax : Fmt → Int
  | .mxE4m3 => 8 | .mxE5m2 => 15 | .mxE2m3 => 2 | .mxE3m2 => 4 | .mxfp4 => 2 | _ => 0

/-- Largest magnitude of a list of finite values. -/
def amax (vs : List FVal) : FVal := vs.foldl (fun a v => if a.lt v.abs then v.abs else a) .zero

/-- Some value of the list is NaN or infinite. -/
def anySpecial (vs : List FVal) : Bool := vs.any (fun v => match v with | .fin .. => false | _ => true)

/-- floor of the base-2 logarithm of a finite non-zero value. -/
def FVal.floorLog2 : FVal → Int
  | .fin _ m e => (Nat.log2 m : Int) + e
  | _ => 0

/-- Encoding of an MX block from wider values (R58): the scale X and the element codes. -/
def mxEncode (f : Fmt) (vs : List FVal) : Nat × List Nat :=
  if anySpecial vs then (255, vs.map (fun _ => 0))
  else
    let a := amax vs
    if a.isZero then (0, vs.map (fun _ => 0))
    else
      let x : Int := max 0 (min 254 (a.floorLog2 - f.emax + 127))
      (x.toNat, vs.map (fun v => f.elem.encode .rne .sat (v.scale (127 - x))))

/-- An element of an MX block read back exactly (R57). -/
def mxDecode (f : Fmt) (x c : Nat) : FVal :=
  if x = 255 then .nan else (f.elem.decode c).scale ((x : Int) - 127)

/-- The magnitude of a value scaled for a PQ or KV_INT block of scale X, rounded (R61, R96). -/
def scaledMag (v : FVal) (x : Nat) : Nat :=
  match v with
  | .fin _ m e => roundInt .rne m (e - ((x : Int) - 127))
  | _ => 0

/-- The scale rule of R61 with magnitude limit M, used by PQ blocks and KV_INT formats. -/
def pqScale (lim : Nat) (a : FVal) : Nat :=
  ((List.range 255).find? (fun x => decide (scaledMag a x ≤ lim))).getD 254

/-- Encoding of a PQ block of n planes (R61): the scale X and, per weight, its sign and magnitude. -/
def pqEncode (n : Nat) (vs : List FVal) : Nat × List (Bool × Nat) :=
  let lim := 2 ^ (n - 1) - 1
  if anySpecial vs then (255, vs.map (fun _ => (false, 0)))
  else
    let a := amax vs
    let x := if a.isZero then 0 else pqScale lim a
    (x, vs.map (fun v => (v.isNeg, min lim (scaledMag v x))))

/-- Reconstruction modes of R88. -/
inductive Recon where
  | trunc | mid
deriving DecidableEq, Repr

/-- A PQ weight read with p of n planes (R88): m is its full stored magnitude. -/
def pqDecode (n p : Nat) (rc : Recon) (x : Nat) (s : Bool) (m : Nat) : FVal :=
  if x = 255 then .nan
  else
    let d := n - p
    let h := m / 2 ^ d
    let m' := match rc with
      | .trunc => h * 2 ^ d
      | .mid => if d = 0 then h else h * 2 ^ d + 2 ^ (d - 1)
    .fin s m' ((x : Int) - 127)

end Sys2Proof.Machine
end

