-- ==== Sys2Proof/Machine/Layout.lean ====
section
/-! DEFINITION. Tensor layouts (chapter 3): the view of a VIEW command (R256) and where the bits of each of its
elements lie. -/
namespace Sys2Proof.Machine

/-- A view register's contents (R256); sizes are stored minus 1, P0 - P3 as their 48 bits. -/
structure View where
  layout : Nat
  fmtc : Nat
  base : Nat
  s0 : Nat
  s1 : Nat
  s2 : Nat
  s3 : Nat
  p0 : Nat
  p1 : Nat
  p2 : Nat
  p3 : Nat
deriving DecidableEq, Repr

/-- The view held by eight words of a VIEW command (R256). -/
def View.ofWords (w : List W64) : View :=
  let g := fun i => (w[i]?).getD 0#64
  { layout := fld (g 0) 47 44, fmtc := fld (g 0) 43 39, base := fld (g 1) 47 0,
    s1 := fld (g 2) 62 32, s0 := fld (g 2) 30 0, s3 := fld (g 3) 62 32, s2 := fld (g 3) 30 0,
    p0 := fld (g 4) 47 0, p1 := fld (g 5) 47 0, p2 := fld (g 6) 47 0, p3 := fld (g 7) 47 0 }

/-- Signed value of a 48-bit stride field. -/
def s48 (v : Nat) : Int := sext 48 v

def View.fmt (v : View) : Fmt := (Fmt.ofCode v.fmtc).getD .none

def View.isLinear (v : View) : Bool := v.layout == 0
def View.isBlocked (v : View) : Bool := v.layout == 1
def View.isPlanar (v : View) : Bool := v.layout == 2
def View.isPanel (v : View) : Bool := v.layout == 3 || v.layout == 4

/-- Lanes of a panel slice (R119, R120). -/
def View.lanes (v : View) : Nat := if v.layout == 3 then 128 else 256

/-- Sizes of dimensions 0 to 3; rows and columns play that part for BLOCKED and PLANAR (R116, R435), slices and
lanes for a panel (R436, R437). -/
def View.dims (v : View) : List Nat :=
  if v.isLinear then [v.s0 + 1, v.s1 + 1, v.s2 + 1, v.s3 + 1]
  else if v.isPanel then [v.s0 + 1, v.lanes, 1, 1]
  else [v.s2 + 1, v.s3 + 1, 1, 1]

def View.dim (v : View) (i : Nat) : Nat := (v.dims[i]?).getD 1

/-- Number of elements. -/
def View.count (v : View) : Nat := v.dim 0 * v.dim 1 * v.dim 2 * v.dim 3

/-- Index of the n-th element in iteration order, dimension 0 fastest (R106) (DEDUCED, log entry 15). -/
def View.unravel (v : View) (n : Nat) : List Nat :=
  let d0 := v.dim 0
  let d1 := v.dim 1
  let d2 := v.dim 2
  [n % d0, n / d0 % d1, n / d0 / d1 % d2, n / d0 / d1 / d2]

/-- Iteration number of an index. -/
def View.ravel (v : View) (ix : List Nat) : Nat :=
  let g : Nat → Nat := fun i => (ix[i]?).getD 0
  g 0 + v.dim 0 * (g 1 + v.dim 1 * (g 2 + v.dim 2 * g 3))

/-- Where an element lies: its bit pieces, lowest bits first, as (bit offset, width), and the byte of its scale. -/
structure Loc where
  parts : List (Nat × Nat)
  scale : Option Nat
deriving DecidableEq, Repr

def kSlabs (k : Nat) : Nat := ceilDiv k 256

/-- Width in bricks of stripe ns (R107). -/
def stripeW (n ns : Nat) : Nat := if ns + 1 < ceilDiv n 256 then 2 else ceilDiv (n - 256 * ns) 128

/-- Bit offset of element (k, n) of a BLOCKED array of width e (R107). -/
def blockedBit (base e kk nn k n : Nat) : Nat :=
  let ns := n / 256
  let w := stripeW nn ns
  8 * base + (16 * kSlabs kk * ns + k / 32 * w + n % 256 / 128) * 4096 * e + (k % 32 * 128 + n % 128) * e

/-- Byte of the scale of the block that holds (k, n) (R112). -/
def blockedScale (base kk nn k n : Nat) : Nat :=
  let ns := n / 256
  base + 2048 * kSlabs kk * ns + k / 32 * 128 * stripeW nn ns + n % 256

/-- Bricks of a BLOCKED array of kk rows and nn columns. -/
def brickCount (kk nn : Nat) : Nat :=
  let st := ceilDiv nn 256
  8 * kSlabs kk * (2 * (st - 1) + stripeW nn (st - 1))

/-- Bytes of one plane array, rounded up to a page (R113). -/
def planeSize (kk nn : Nat) : Nat := roundUp (512 * brickCount kk nn) 4096

/-- Bytes of a scale array (R112). -/
def scaleSize (kk nn : Nat) : Nat :=
  let st := ceilDiv nn 256
  2048 * kSlabs kk * (st - 1) + 8 * kSlabs kk * 128 * stripeW nn (st - 1)

/-- Position (row, column) inside some brick of the tensor (R131). -/
def inBricks (kk nn k n : Nat) : Bool :=
  decide (k < 256 * kSlabs kk) && decide (n / 256 < ceilDiv nn 256) &&
    decide (n % 256 / 128 < stripeW nn (n / 256))

/-- Whether a format splits its BLOCKED elements into arrays H and L (R111). -/
def Fmt.isSplit6 : Fmt → Bool
  | .e3m2 | .e2m3 | .mxE2m3 | .mxE3m2 => true
  | _ => false

/-- Bytes of one slice of a panel without scale slices (R119, R120). -/
def View.sliceBytes (v : View) : Nat := v.lanes * v.fmt.bits / 8

/-- Byte offset, from BASE, of slice k of a panel, and of its scale slice (R121, R122); np planes for PQ. -/
def View.panelSlice (v : View) (np k : Nat) : Nat :=
  if v.fmt.isPq then k / 32 * (256 + np * 1024) + 256
  else if v.fmt.isMx then k / 32 * (v.lanes + 32 * v.sliceBytes) + v.lanes + k % 32 * v.sliceBytes
  else k * v.sliceBytes

def View.panelScale (v : View) (np k : Nat) : Nat :=
  if v.fmt.isPq then k / 32 * (256 + np * 1024) else k / 32 * (v.lanes + 32 * v.sliceBytes)

/-- Bytes of a panel with np planes (R119 - R122). -/
def View.panelBytes (v : View) (np : Nat) : Nat :=
  let k := v.s0 + 1
  if v.fmt.isPq then ceilDiv k 32 * (256 + np * 1024)
  else if v.fmt.isMx then ceilDiv k 32 * v.lanes + k * v.sliceBytes
  else k * v.sliceBytes

/-- Bits of a PQ element: magnitude planes from the lowest read one up, then the sign plane 0 (R59). -/
def planeBits (np : Nat) (bit : Nat → Nat) : List (Nat × Nat) :=
  ((List.range np).reverse.map (fun p => (bit p, 1)))

/-- A bit offset of a LINEAR view; a negative one lies beyond every address, with the same low bits (R118). -/
def linearBit (o : Int) : Nat := if o < 0 then (o + 2 ^ 90).toNat else o.toNat

/-- Where element (i0, i1, i2, i3) of a view lies (R102, R107, R111 - R113, R119 - R122); the index may continue
past the view's edges, for padding positions. -/
def View.loc (v : View) (np : Nat) (ix : List Nat) : Loc :=
  let g : Nat → Nat := fun i => (ix[i]?).getD 0
  let f := v.fmt
  if v.isLinear then
    let o : Int := 8 * v.base + f.bits *
      ((g 0 : Int) * s48 v.p0 + (g 1 : Int) * s48 v.p1 + (g 2 : Int) * s48 v.p2 + (g 3 : Int) * s48 v.p3)
    ⟨[(linearBit o, f.bits)], none⟩
  else if v.isPanel then
    let k := g 0
    let l := g 1
    if f.isPq then
      let b := 8 * (v.base + v.panelSlice np k)
      ⟨planeBits np (fun p => b + 8 * (1024 * p + 32 * (k % 32) + l / 8) + l % 8),
        some (v.base + v.panelScale np k + l)⟩
    else
      ⟨[(8 * (v.base + v.panelSlice np k) + f.bits * l, f.bits)],
        if f.isMx then some (v.base + v.panelScale np k + l) else none⟩
  else
    let kk := v.s0 + 1
    let nn := v.s1 + 1
    let k := v.p0 + g 0
    let n := v.p1 + g 1
    if f.isPq then
      ⟨planeBits np (fun p => blockedBit (v.base + p * planeSize kk nn) 1 kk nn k n),
        some (blockedScale v.p2 kk nn k n)⟩
    else
      ⟨if f.isSplit6 then [(blockedBit v.p3 2 kk nn k n, 2), (blockedBit v.base 4 kk nn k n, 4)]
       else [(blockedBit v.base f.bits kk nn k n, f.bits)],
        if f.isMx then some (blockedScale v.p2 kk nn k n) else none⟩

/-- Whether a padding or edge position has an address (R131). -/
def View.hasAddr (v : View) (ix : List Nat) : Bool :=
  let g : Nat → Nat := fun i => (ix[i]?).getD 0
  if v.isBlocked || v.isPlanar then inBricks (v.s0 + 1) (v.s1 + 1) (v.p0 + g 0) (v.p1 + g 1)
  else if v.isPanel then decide (g 0 < v.s0 + 1) && decide (g 1 < v.lanes)
  else true

/-- Whether a position lies inside the whole tensor of a BLOCKED or PLANAR view; true for the others inside the view. -/
def View.inTensor (v : View) (ix : List Nat) : Bool :=
  let g : Nat → Nat := fun i => (ix[i]?).getD 0
  if v.isBlocked || v.isPlanar then decide (v.p0 + g 0 < v.s0 + 1) && decide (v.p1 + g 1 < v.s1 + 1)
  else decide (g 0 < v.dim 0) && decide (g 1 < v.dim 1) && decide (g 2 < v.dim 2) && decide (g 3 < v.dim 3)

/-- Number of planes of a PQ format, with PLANES 0 meaning all of them (R439). -/
def View.planes (v : View) (p : Nat) : Nat := if p = 0 then v.fmt.bits else p

/-! ## Checks of a view -/

/-- Formats a layout carries (R99). -/
def fmtOk (layout : Nat) (f : Fmt) : Bool :=
  match layout with
  | 0 => match f with
    | .fp32 | .bf16 | .fp16 | .e5m2 | .e4m3 | .e2m1 | .int4 | .int8 | .int32 | .int64 => true
    | _ => false
  | 1 => !f.isPq && (match f with | .none => false | _ => true)
  | 2 => f.isPq
  | 3 => match f with
    | .fp32 | .bf16 | .fp16 | .e5m2 | .e4m3 | .int4 | .int8 | .int32 => true
    | _ => f.isMx
  | 4 => match f with
    | .bf16 | .fp16 | .e5m2 | .e4m3 | .int4 | .int8 => true
    | _ => f.isBlock
  | _ => false

/-- First local address of the tile scratchpad windows, and the window size (R14). -/
def spmBase : Nat := 0x0F8000000000
def spmWin : Nat := 0x200000

def inSpm (a : Nat) : Bool := decide (spmBase ≤ a) && decide (a < spmBase + 200 * spmWin)

/-- A panel with np planes lies whole in one scratchpad window. -/
def View.panelIn (v : View) (np : Nat) : Bool := decide (v.base % spmWin + v.panelBytes np ≤ spmWin)

/-- Every array base, alignment, size and stride rule that a VIEW breaks makes it illegal at start
(R100, R103, R104, R108, R112, R117, R124, R436, and the last clause of R278); a panel lies whole in one scratchpad
window, and a stride of 0 is not judged here, where nothing says whether the view is written (DEDUCED, log entry 15). -/
def View.legal (v : View) : Bool :=
  if v.fmtc = 0 then decide (v.layout < 5)
  else match Fmt.ofCode v.fmtc with
    | Option.none => false
    | some f =>
      fmtOk v.layout f &&
      (if v.isLinear then
        let okStride := fun p => decide (-(2 ^ 39 : Int) ≤ s48 p) && decide (s48 p < 2 ^ 39)
        v.base % (max 1 (f.bits / 8)) == 0 &&
        okStride v.p0 && okStride v.p1 && okStride v.p2 && okStride v.p3 &&
        (if f.bits = 4 then s48 v.p0 == 1 && (v.s0 + 1) % 2 == 0 else true)
      else if v.isPanel then
        inSpm v.base && v.panelIn 2 && v.base % 256 == 0 && v.s1 == 0 && v.s2 == 0 && v.s3 == 0 &&
        v.p0 == 0 && v.p1 == 0 && v.p2 == 0 && v.p3 == 0 &&
        (if f.isBlock then (v.s0 + 1) % 32 == 0 else true)
      else
        v.base % 4096 == 0 &&
        (if f.isBlock then v.p2 % 4096 == 0 && v.p0 % 32 == 0 else v.p2 == 0) &&
        (if f.isSplit6 then v.p3 % 4096 == 0 else v.p3 == 0) &&
        decide (v.p0 + v.s2 ≤ v.s0) && decide (v.p1 + v.s3 ≤ v.s1))

/-- The byte ranges (first, last) that PUSH checks for a view (R308): one span for LINEAR and panels, one per array
of the whole tensor otherwise. -/
def View.spans (v : View) : List (Int × Int) :=
  let f := v.fmt
  if v.isLinear then
    let ext := fun (s p : Nat) => (s : Int) * s48 p
    let es := [ext v.s0 v.p0, ext v.s1 v.p1, ext v.s2 v.p2, ext v.s3 v.p3]
    let lo : Int := (es.map (fun e => min e 0)).sum
    let hi : Int := (es.map (fun e => max e 0)).sum
    [((8 * v.base + f.bits * lo) / 8, (8 * v.base + f.bits * hi + f.bits - 1) / 8)]
  else if v.isPanel then [((v.base : Int), (v.base : Int) + v.panelBytes 2 - 1)]
  else
    let kk := v.s0 + 1
    let nn := v.s1 + 1
    let arr := fun (b n : Nat) => ((b : Int), (b : Int) + n - 1)
    let bricks := brickCount kk nn
    let sc := if f.isBlock then [arr v.p2 (scaleSize kk nn)] else []
    if f.isPq then (List.range f.bits).map (fun p => arr (v.base + p * planeSize kk nn) (512 * bricks)) ++ sc
    else if f.isSplit6 then [arr v.base (2048 * bricks), arr v.p3 (1024 * bricks)] ++ sc
    else [arr v.base (512 * f.bits * bricks)] ++ sc

end Sys2Proof.Machine
end

