-- ==== Sys2Proof/Machine/Registers.lean ====
section
/-! DEFINITION. The control-space register map of the device: every register the spec tabulates, with the offset
of its first copy, how it repeats, and its fields with their access codes (R8) and reset values (R9). The tables
follow the field tables of the rules named beside each register. -/
namespace Sys2Proof.Machine

/-- The access codes of R8. -/
inductive Acc where
  | ro | rw | rws | rwl | rwb | w1c | w1s | wo | rz
deriving DecidableEq, Repr

/-- How a field treats a value outside those its Description lists (R11). -/
inductive Chk where
  /-- every value of the field's width is listed -/
  | any
  /-- a value outside the range is clamped to it -/
  | clamp (lo hi : Nat)
  /-- a value outside the range is growth: the write is discarded for the field -/
  | within (lo hi : Nat)
deriving DecidableEq, Repr

/-- One row of a field table. -/
structure Fld where
  hi : Nat
  lo : Nat
  acc : Acc
  rst : Nat
  chk : Chk
deriving DecidableEq, Repr

/-- One register of the map: the control-space offset of its first copy, the (count, stride) of each index, its
fields, whether a compute reset keeps its value, and which requesters' writes are accepted
(companion, ZEN, management controller). -/
structure RegDef where
  base : Nat
  dims : List (Nat × Nat)
  keep : Bool
  byComp : Bool
  byZen : Bool
  byMc : Bool
  flds : List Fld
deriving DecidableEq, Repr

/-- A field of one register copy, by control-space offset and bit range. -/
structure FRef where
  off : Nat
  hi : Nat
  lo : Nat
deriving DecidableEq, Repr

/-- Offset of ZEN_ID (R738). -/
def ZEN_ID.at : Nat := 0x0
def ZEN_ID.FW_VER : FRef := ⟨ZEN_ID.at, 63, 48⟩
def ZEN_ID.CAP_GIB : FRef := ⟨ZEN_ID.at, 47, 40⟩
def ZEN_ID.ARCH : FRef := ⟨ZEN_ID.at, 39, 32⟩
def ZEN_ID.PART : FRef := ⟨ZEN_ID.at, 31, 16⟩
/-- ZEN_ID (R738). -/
def ZEN_ID.reg : RegDef :=
  ⟨0x0, [], true, true, true, true,
   [⟨63, 48, .ro, 1, .any⟩,
    ⟨47, 40, .ro, 0x60, .any⟩,
    ⟨39, 32, .ro, 0x10, .any⟩,
    ⟨31, 16, .ro, 0x96, .any⟩,
    ⟨15, 0, .rz, 0, .any⟩]⟩

/-- Offset of ZEN_SERIAL (R738). -/
def ZEN_SERIAL.at : Nat := 0x8
def ZEN_SERIAL.SERIAL : FRef := ⟨ZEN_SERIAL.at, 63, 0⟩
/-- ZEN_SERIAL (R738). -/
def ZEN_SERIAL.reg : RegDef :=
  ⟨0x8, [], true, true, true, true,
   [⟨63, 0, .ro, 1, .any⟩]⟩

/-- Offset of ZEN_BOOT (R738). -/
def ZEN_BOOT.at : Nat := 0x10
def ZEN_BOOT.STATE : FRef := ⟨ZEN_BOOT.at, 63, 60⟩
def ZEN_BOOT.FW_COPY : FRef := ⟨ZEN_BOOT.at, 59, 59⟩
def ZEN_BOOT.REC_COPY : FRef := ⟨ZEN_BOOT.at, 58, 58⟩
def ZEN_BOOT.FALLBACK : FRef := ⟨ZEN_BOOT.at, 57, 57⟩
def ZEN_BOOT.SITE_DEFAULT : FRef := ⟨ZEN_BOOT.at, 56, 56⟩
def ZEN_BOOT.UNLOCKED : FRef := ⟨ZEN_BOOT.at, 55, 55⟩
def ZEN_BOOT.CAUSE : FRef := ⟨ZEN_BOOT.at, 54, 52⟩
def ZEN_BOOT.SVN : FRef := ⟨ZEN_BOOT.at, 31, 16⟩
def ZEN_BOOT.FLOOR : FRef := ⟨ZEN_BOOT.at, 15, 0⟩
/-- ZEN_BOOT (R738). -/
def ZEN_BOOT.reg : RegDef :=
  ⟨0x10, [], true, true, true, true,
   [⟨63, 60, .ro, 0, .any⟩,
    ⟨59, 59, .ro, 0, .any⟩,
    ⟨58, 58, .ro, 0, .any⟩,
    ⟨57, 57, .ro, 0, .any⟩,
    ⟨56, 56, .ro, 0, .any⟩,
    ⟨55, 55, .ro, 0, .any⟩,
    ⟨54, 52, .ro, 0, .any⟩,
    ⟨51, 32, .rz, 0, .any⟩,
    ⟨31, 16, .ro, 0, .any⟩,
    ⟨15, 0, .ro, 0, .any⟩]⟩

/-- Offset of ZEN_RESET (R738). -/
def ZEN_RESET.at : Nat := 0x18
def ZEN_RESET.KEY : FRef := ⟨ZEN_RESET.at, 63, 48⟩
def ZEN_RESET.ZEN_RESTART : FRef := ⟨ZEN_RESET.at, 1, 1⟩
def ZEN_RESET.DEVICE_RESET : FRef := ⟨ZEN_RESET.at, 0, 0⟩
/-- ZEN_RESET (R738). -/
def ZEN_RESET.reg : RegDef :=
  ⟨0x18, [], true, true, true, true,
   [⟨63, 48, .wo, 0, .any⟩,
    ⟨47, 2, .rz, 0, .any⟩,
    ⟨1, 1, .wo, 0, .any⟩,
    ⟨0, 0, .wo, 0, .any⟩]⟩

/-- Offset of ZEN_FWU_CTL (R738). -/
def ZEN_FWU_CTL.at : Nat := 0x3000
def ZEN_FWU_CTL.COMMIT : FRef := ⟨ZEN_FWU_CTL.at, 49, 49⟩
def ZEN_FWU_CTL.GO : FRef := ⟨ZEN_FWU_CTL.at, 48, 48⟩
def ZEN_FWU_CTL.SRC : FRef := ⟨ZEN_FWU_CTL.at, 47, 0⟩
/-- ZEN_FWU_CTL (R738). -/
def ZEN_FWU_CTL.reg : RegDef :=
  ⟨0x3000, [], true, true, true, true,
   [⟨63, 50, .rz, 0, .any⟩,
    ⟨49, 49, .w1s, 0, .any⟩,
    ⟨48, 48, .w1s, 0, .any⟩,
    ⟨47, 0, .rw, 0, .any⟩]⟩

/-- Offset of ZEN_FWU_STATUS (R738). -/
def ZEN_FWU_STATUS.at : Nat := 0x3008
def ZEN_FWU_STATUS.STATE : FRef := ⟨ZEN_FWU_STATUS.at, 63, 60⟩
def ZEN_FWU_STATUS.RESULT : FRef := ⟨ZEN_FWU_STATUS.at, 59, 56⟩
def ZEN_FWU_STATUS.KIND : FRef := ⟨ZEN_FWU_STATUS.at, 55, 55⟩
def ZEN_FWU_STATUS.DONE_KIB : FRef := ⟨ZEN_FWU_STATUS.at, 31, 0⟩
/-- ZEN_FWU_STATUS (R738). -/
def ZEN_FWU_STATUS.reg : RegDef :=
  ⟨0x3008, [], true, true, true, true,
   [⟨63, 60, .ro, 0, .any⟩,
    ⟨59, 56, .ro, 0, .any⟩,
    ⟨55, 55, .rw, 0, .any⟩,
    ⟨54, 32, .rz, 0, .any⟩,
    ⟨31, 0, .ro, 0, .any⟩]⟩

/-- Offset of ERQ_PROD (R425). -/
def ERQ_PROD.at : Nat := 0x1000
def ERQ_PROD.PROD : FRef := ⟨ERQ_PROD.at, 31, 0⟩
/-- ERQ_PROD (R425). -/
def ERQ_PROD.reg : RegDef :=
  ⟨0x1000, [], true, true, true, true,
   [⟨63, 32, .rz, 0, .any⟩,
    ⟨31, 0, .ro, 0, .any⟩]⟩

/-- Offset of ERQ_CONS (R425). -/
def ERQ_CONS.at : Nat := 0x1008
def ERQ_CONS.CONS : FRef := ⟨ERQ_CONS.at, 31, 0⟩
/-- ERQ_CONS (R425). -/
def ERQ_CONS.reg : RegDef :=
  ⟨0x1008, [], true, true, true, true,
   [⟨63, 32, .rz, 0, .any⟩,
    ⟨31, 0, .rw, 0, .any⟩]⟩

/-- Offset of ERQ_LOST (R425). -/
def ERQ_LOST.at : Nat := 0x1010
def ERQ_LOST.COUNT : FRef := ⟨ERQ_LOST.at, 63, 0⟩
/-- ERQ_LOST (R425). -/
def ERQ_LOST.reg : RegDef :=
  ⟨0x1010, [], true, true, true, true,
   [⟨63, 0, .ro, 0, .any⟩]⟩

/-- Offset of ERQ_FATAL_V (R425). -/
def ERQ_FATAL_V.at : Nat := 0x1018
def ERQ_FATAL_V.FVALID : FRef := ⟨ERQ_FATAL_V.at, 0, 0⟩
/-- ERQ_FATAL_V (R425). -/
def ERQ_FATAL_V.reg : RegDef :=
  ⟨0x1018, [], true, true, true, false,
   [⟨63, 1, .rz, 0, .any⟩,
    ⟨0, 0, .w1c, 0, .any⟩]⟩

/-- Offset of ERQ_FATAL (R425). -/
def ERQ_FATAL.at (i : Nat) : Nat := 0x1020 + 0x8 * i
def ERQ_FATAL.W (i : Nat) : FRef := ⟨ERQ_FATAL.at i, 63, 0⟩
/-- ERQ_FATAL (R425). -/
def ERQ_FATAL.reg : RegDef :=
  ⟨0x1020, [(4, 0x8)], true, true, true, true,
   [⟨63, 0, .ro, 0, .any⟩]⟩

/-- Offset of ERQ_REC (R425). -/
def ERQ_REC.at (i : Nat) (k : Nat) : Nat := 0x2000 + 0x20 * i + 0x8 * k
def ERQ_REC.W (i : Nat) (k : Nat) : FRef := ⟨ERQ_REC.at i k, 63, 0⟩
/-- ERQ_REC (R425). -/
def ERQ_REC.reg : RegDef :=
  ⟨0x2000, [(64, 0x20), (4, 0x8)], true, true, true, true,
   [⟨63, 0, .ro, 0, .any⟩]⟩

/-- Offset of ZEN_SVC_CTL (R760). -/
def ZEN_SVC_CTL.at : Nat := 0x4000
def ZEN_SVC_CTL.ACTION : FRef := ⟨ZEN_SVC_CTL.at, 63, 60⟩
def ZEN_SVC_CTL.GO : FRef := ⟨ZEN_SVC_CTL.at, 57, 57⟩
def ZEN_SVC_CTL.TARGET : FRef := ⟨ZEN_SVC_CTL.at, 47, 0⟩
/-- ZEN_SVC_CTL (R760). -/
def ZEN_SVC_CTL.reg : RegDef :=
  ⟨0x4000, [], true, true, true, true,
   [⟨63, 60, .rw, 0, .within 1 5⟩,
    ⟨59, 58, .rz, 0, .any⟩,
    ⟨57, 57, .w1s, 0, .any⟩,
    ⟨56, 48, .rz, 0, .any⟩,
    ⟨47, 0, .rw, 0, .any⟩]⟩

/-- Offset of ZEN_SVC_STATUS (R760). -/
def ZEN_SVC_STATUS.at : Nat := 0x4008
def ZEN_SVC_STATUS.STATE : FRef := ⟨ZEN_SVC_STATUS.at, 63, 60⟩
def ZEN_SVC_STATUS.RESULT : FRef := ⟨ZEN_SVC_STATUS.at, 59, 56⟩
def ZEN_SVC_STATUS.LAST_ACTION : FRef := ⟨ZEN_SVC_STATUS.at, 55, 52⟩
def ZEN_SVC_STATUS.SPARES : FRef := ⟨ZEN_SVC_STATUS.at, 35, 32⟩
def ZEN_SVC_STATUS.RETIRED : FRef := ⟨ZEN_SVC_STATUS.at, 19, 16⟩
def ZEN_SVC_STATUS.ACTIONS : FRef := ⟨ZEN_SVC_STATUS.at, 15, 0⟩
/-- ZEN_SVC_STATUS (R760). -/
def ZEN_SVC_STATUS.reg : RegDef :=
  ⟨0x4008, [], true, true, true, true,
   [⟨63, 60, .ro, 0, .any⟩,
    ⟨59, 56, .ro, 0, .any⟩,
    ⟨55, 52, .ro, 0, .any⟩,
    ⟨51, 36, .rz, 0, .any⟩,
    ⟨35, 32, .ro, 8, .any⟩,
    ⟨31, 20, .rz, 0, .any⟩,
    ⟨19, 16, .ro, 0, .any⟩,
    ⟨15, 0, .ro, 0, .any⟩]⟩

/-- Offset of ZEN_PHASE (R760). -/
def ZEN_PHASE.at : Nat := 0x4010
def ZEN_PHASE.BUS_LIVE : FRef := ⟨ZEN_PHASE.at, 63, 60⟩
def ZEN_PHASE.VC_LIVE : FRef := ⟨ZEN_PHASE.at, 59, 52⟩
def ZEN_PHASE.VRG_LIVE : FRef := ⟨ZEN_PHASE.at, 47, 0⟩
/-- ZEN_PHASE (R760). -/
def ZEN_PHASE.reg : RegDef :=
  ⟨0x4010, [], true, true, true, true,
   [⟨63, 60, .ro, 0xa, .any⟩,
    ⟨59, 52, .ro, 0x80, .any⟩,
    ⟨51, 48, .rz, 0, .any⟩,
    ⟨47, 0, .ro, 0x924924924924, .any⟩]⟩

/-- Offset of ZEN_PHASE_CAP (R760). -/
def ZEN_PHASE_CAP.at : Nat := 0x4018
def ZEN_PHASE_CAP.VMAX_EFF : FRef := ⟨ZEN_PHASE_CAP.at, 41, 32⟩
def ZEN_PHASE_CAP.PH_PEAK_W : FRef := ⟨ZEN_PHASE_CAP.at, 31, 16⟩
def ZEN_PHASE_CAP.PH_CAP_W : FRef := ⟨ZEN_PHASE_CAP.at, 15, 0⟩
/-- ZEN_PHASE_CAP (R760). -/
def ZEN_PHASE_CAP.reg : RegDef :=
  ⟨0x4018, [], true, true, true, true,
   [⟨63, 42, .rz, 0, .any⟩,
    ⟨41, 32, .ro, 0x320, .any⟩,
    ⟨31, 16, .ro, 0xed8, .any⟩,
    ⟨15, 0, .ro, 0xc80, .any⟩]⟩

/-- Offset of ZEN_ALERT (R760). -/
def ZEN_ALERT.at : Nat := 0x4020
def ZEN_ALERT.MASK : FRef := ⟨ZEN_ALERT.at, 39, 32⟩
def ZEN_ALERT.LINK : FRef := ⟨ZEN_ALERT.at, 7, 7⟩
def ZEN_ALERT.FLASH : FRef := ⟨ZEN_ALERT.at, 6, 6⟩
def ZEN_ALERT.TILE : FRef := ⟨ZEN_ALERT.at, 5, 5⟩
def ZEN_ALERT.PHASE : FRef := ⟨ZEN_ALERT.at, 4, 4⟩
def ZEN_ALERT.THERMAL : FRef := ⟨ZEN_ALERT.at, 3, 3⟩
def ZEN_ALERT.LOST : FRef := ⟨ZEN_ALERT.at, 2, 2⟩
def ZEN_ALERT.CONTAINED : FRef := ⟨ZEN_ALERT.at, 1, 1⟩
def ZEN_ALERT.FATAL : FRef := ⟨ZEN_ALERT.at, 0, 0⟩
/-- ZEN_ALERT (R760). -/
def ZEN_ALERT.reg : RegDef :=
  ⟨0x4020, [], true, true, true, true,
   [⟨63, 40, .rz, 0, .any⟩,
    ⟨39, 32, .rw, 0xff, .any⟩,
    ⟨31, 8, .rz, 0, .any⟩,
    ⟨7, 7, .w1c, 0, .any⟩,
    ⟨6, 6, .w1c, 0, .any⟩,
    ⟨5, 5, .w1c, 0, .any⟩,
    ⟨4, 4, .w1c, 0, .any⟩,
    ⟨3, 3, .w1c, 0, .any⟩,
    ⟨2, 2, .w1c, 0, .any⟩,
    ⟨1, 1, .w1c, 0, .any⟩,
    ⟨0, 0, .w1c, 0, .any⟩]⟩

/-- Offset of ZEN_FLASH (R760). -/
def ZEN_FLASH.at : Nat := 0x4028
def ZEN_FLASH.CHECKS : FRef := ⟨ZEN_FLASH.at, 63, 32⟩
def ZEN_FLASH.OK : FRef := ⟨ZEN_FLASH.at, 3, 0⟩
/-- ZEN_FLASH (R760). -/
def ZEN_FLASH.reg : RegDef :=
  ⟨0x4028, [], true, true, true, true,
   [⟨63, 32, .ro, 0, .any⟩,
    ⟨31, 4, .rz, 0, .any⟩,
    ⟨3, 0, .ro, 0, .any⟩]⟩

/-- Offset of EQX_CTL (R607). -/
def EQX_CTL.at : Nat := 0x100000
def EQX_CTL.TSLICE_LOG2 : FRef := ⟨EQX_CTL.at, 47, 40⟩
def EQX_CTL.IDLE_LOG2 : FRef := ⟨EQX_CTL.at, 39, 32⟩
def EQX_CTL.ROUND_T_LOG2 : FRef := ⟨EQX_CTL.at, 31, 24⟩
def EQX_CTL.ROUND_V_LOG2 : FRef := ⟨EQX_CTL.at, 23, 16⟩
/-- EQX_CTL (R607). -/
def EQX_CTL.reg : RegDef :=
  ⟨0x100000, [], true, true, true, false,
   [⟨63, 48, .rz, 0, .any⟩,
    ⟨47, 40, .rw, 0x14, .clamp 12 28⟩,
    ⟨39, 32, .rw, 0x10, .clamp 8 24⟩,
    ⟨31, 24, .rw, 0x1a, .clamp 16 32⟩,
    ⟨23, 16, .rw, 0x16, .clamp 16 30⟩,
    ⟨15, 0, .rz, 0, .any⟩]⟩

/-- Offset of EQX_FAULT (R607). -/
def EQX_FAULT.at : Nat := 0x100008
def EQX_FAULT.VALID : FRef := ⟨EQX_FAULT.at, 63, 63⟩
def EQX_FAULT.JOB : FRef := ⟨EQX_FAULT.at, 62, 57⟩
def EQX_FAULT.JOB_V : FRef := ⟨EQX_FAULT.at, 56, 56⟩
def EQX_FAULT.CAUSE : FRef := ⟨EQX_FAULT.at, 55, 48⟩
def EQX_FAULT.BLOCK : FRef := ⟨EQX_FAULT.at, 47, 43⟩
def EQX_FAULT.INST : FRef := ⟨EQX_FAULT.at, 42, 35⟩
def EQX_FAULT.SEQ : FRef := ⟨EQX_FAULT.at, 31, 0⟩
/-- EQX_FAULT (R607). -/
def EQX_FAULT.reg : RegDef :=
  ⟨0x100008, [], true, true, true, false,
   [⟨63, 63, .w1c, 0, .any⟩,
    ⟨62, 57, .ro, 0, .any⟩,
    ⟨56, 56, .ro, 0, .any⟩,
    ⟨55, 48, .ro, 0, .any⟩,
    ⟨47, 43, .ro, 0, .any⟩,
    ⟨42, 35, .ro, 0, .any⟩,
    ⟨34, 32, .rz, 0, .any⟩,
    ⟨31, 0, .ro, 0, .any⟩]⟩

/-- Offset of EQX_RESETS (R607). -/
def EQX_RESETS.at : Nat := 0x100010
def EQX_RESETS.COUNT : FRef := ⟨EQX_RESETS.at, 31, 0⟩
/-- EQX_RESETS (R607). -/
def EQX_RESETS.reg : RegDef :=
  ⟨0x100010, [], true, true, true, false,
   [⟨63, 32, .rz, 0, .any⟩,
    ⟨31, 0, .ro, 0, .any⟩]⟩

/-- Offset of EQX_JOB_CFG (R607). -/
def EQX_JOB_CFG.at (i : Nat) : Nat := 0x101000 + 0x100 * i
def EQX_JOB_CFG.SHARE (i : Nat) : FRef := ⟨EQX_JOB_CFG.at i, 15, 0⟩
/-- EQX_JOB_CFG (R607). -/
def EQX_JOB_CFG.reg : RegDef :=
  ⟨0x101000, [(64, 0x100)], false, true, true, false,
   [⟨63, 16, .rz, 0, .any⟩,
    ⟨15, 0, .rw, 0, .any⟩]⟩

/-- Offset of EQX_JOB_CTL (R607). -/
def EQX_JOB_CTL.at (i : Nat) : Nat := 0x101008 + 0x100 * i
def EQX_JOB_CTL.END (i : Nat) : FRef := ⟨EQX_JOB_CTL.at i, 1, 1⟩
def EQX_JOB_CTL.HOLD (i : Nat) : FRef := ⟨EQX_JOB_CTL.at i, 0, 0⟩
/-- EQX_JOB_CTL (R607). -/
def EQX_JOB_CTL.reg : RegDef :=
  ⟨0x101008, [(64, 0x100)], false, true, true, false,
   [⟨63, 2, .rz, 0, .any⟩,
    ⟨1, 1, .w1s, 0, .any⟩,
    ⟨0, 0, .rw, 0, .any⟩]⟩

/-- Offset of EQX_JOB_STATUS (R607). -/
def EQX_JOB_STATUS.at (i : Nat) : Nat := 0x101010 + 0x100 * i
def EQX_JOB_STATUS.STATE (i : Nat) : FRef := ⟨EQX_JOB_STATUS.at i, 63, 61⟩
def EQX_JOB_STATUS.T_ARREARS (i : Nat) : FRef := ⟨EQX_JOB_STATUS.at i, 60, 60⟩
def EQX_JOB_STATUS.V_ARREARS (i : Nat) : FRef := ⟨EQX_JOB_STATUS.at i, 59, 44⟩
def EQX_JOB_STATUS.HALTS_SAVED (i : Nat) : FRef := ⟨EQX_JOB_STATUS.at i, 43, 43⟩
def EQX_JOB_STATUS.OUT_READS (i : Nat) : FRef := ⟨EQX_JOB_STATUS.at i, 41, 29⟩
def EQX_JOB_STATUS.SWITCHES (i : Nat) : FRef := ⟨EQX_JOB_STATUS.at i, 15, 0⟩
/-- EQX_JOB_STATUS (R607). -/
def EQX_JOB_STATUS.reg : RegDef :=
  ⟨0x101010, [(64, 0x100)], false, true, true, false,
   [⟨63, 61, .ro, 0, .any⟩,
    ⟨60, 60, .ro, 0, .any⟩,
    ⟨59, 44, .ro, 0, .any⟩,
    ⟨43, 43, .ro, 0, .any⟩,
    ⟨42, 42, .rz, 0, .any⟩,
    ⟨41, 29, .ro, 0, .any⟩,
    ⟨28, 16, .rz, 0, .any⟩,
    ⟨15, 0, .ro, 0, .any⟩]⟩

/-- Offset of EQX_JOB_TILES (R607). -/
def EQX_JOB_TILES.at (i : Nat) (k : Nat) : Nat := 0x101018 + 0x100 * i + 0x8 * k
def EQX_JOB_TILES.TILES (i : Nat) (k : Nat) : FRef := ⟨EQX_JOB_TILES.at i k, 63, 0⟩
/-- EQX_JOB_TILES (R607). -/
def EQX_JOB_TILES.reg : RegDef :=
  ⟨0x101018, [(64, 0x100), (3, 0x8)], false, true, true, false,
   [⟨63, 0, .ro, 0, .any⟩]⟩

/-- Offset of EQX_JOB_SAVE (R607). -/
def EQX_JOB_SAVE.at (i : Nat) : Nat := 0x101030 + 0x100 * i
def EQX_JOB_SAVE.SAVE_OFF (i : Nat) : FRef := ⟨EQX_JOB_SAVE.at i, 47, 0⟩
/-- EQX_JOB_SAVE (R607). -/
def EQX_JOB_SAVE.reg : RegDef :=
  ⟨0x101030, [(64, 0x100)], false, true, true, false,
   [⟨63, 48, .rz, 0, .any⟩,
    ⟨47, 0, .ro, 0, .any⟩]⟩

/-- Offset of EQX_JOB_BAL_T (R607). -/
def EQX_JOB_BAL_T.at (i : Nat) : Nat := 0x101038 + 0x100 * i
def EQX_JOB_BAL_T.BAL (i : Nat) : FRef := ⟨EQX_JOB_BAL_T.at i, 63, 0⟩
/-- EQX_JOB_BAL_T (R607). -/
def EQX_JOB_BAL_T.reg : RegDef :=
  ⟨0x101038, [(64, 0x100)], false, true, true, false,
   [⟨63, 0, .ro, 0, .any⟩]⟩

/-- Offset of EQX_JOB_WORK_T (R607). -/
def EQX_JOB_WORK_T.at (i : Nat) : Nat := 0x101040 + 0x100 * i
def EQX_JOB_WORK_T.WORK (i : Nat) : FRef := ⟨EQX_JOB_WORK_T.at i, 63, 0⟩
/-- EQX_JOB_WORK_T (R607). -/
def EQX_JOB_WORK_T.reg : RegDef :=
  ⟨0x101040, [(64, 0x100)], false, true, true, false,
   [⟨63, 0, .ro, 0, .any⟩]⟩

/-- Offset of EQX_JOB_WORK_V (R607). -/
def EQX_JOB_WORK_V.at (i : Nat) : Nat := 0x101048 + 0x100 * i
def EQX_JOB_WORK_V.WORK (i : Nat) : FRef := ⟨EQX_JOB_WORK_V.at i, 63, 0⟩
/-- EQX_JOB_WORK_V (R607). -/
def EQX_JOB_WORK_V.reg : RegDef :=
  ⟨0x101048, [(64, 0x100)], false, true, true, false,
   [⟨63, 0, .ro, 0, .any⟩]⟩

/-- Offset of EQX_JOB_BAL_V (R607). -/
def EQX_JOB_BAL_V.at (i : Nat) (k : Nat) : Nat := 0x101080 + 0x100 * i + 0x8 * k
def EQX_JOB_BAL_V.BAL (i : Nat) (k : Nat) : FRef := ⟨EQX_JOB_BAL_V.at i k, 63, 0⟩
/-- EQX_JOB_BAL_V (R607). -/
def EQX_JOB_BAL_V.reg : RegDef :=
  ⟨0x101080, [(64, 0x100), (16, 0x8)], false, true, true, false,
   [⟨63, 0, .ro, 0, .any⟩]⟩

/-- Offset of SRV_STATUS (R556). -/
def SRV_STATUS.at : Nat := 0x200000
def SRV_STATUS.USED : FRef := ⟨SRV_STATUS.at, 47, 32⟩
def SRV_STATUS.QUEUED : FRef := ⟨SRV_STATUS.at, 31, 16⟩
/-- SRV_STATUS (R556). -/
def SRV_STATUS.reg : RegDef :=
  ⟨0x200000, [], false, true, true, false,
   [⟨63, 48, .rz, 0, .any⟩,
    ⟨47, 32, .ro, 0, .any⟩,
    ⟨31, 16, .ro, 0, .any⟩,
    ⟨15, 0, .rz, 0, .any⟩]⟩

/-- Offset of SRV_RQT_IDX (R556). -/
def SRV_RQT_IDX.at : Nat := 0x200008
def SRV_RQT_IDX.IDX : FRef := ⟨SRV_RQT_IDX.at, 14, 0⟩
/-- SRV_RQT_IDX (R556). -/
def SRV_RQT_IDX.reg : RegDef :=
  ⟨0x200008, [], false, true, true, false,
   [⟨63, 15, .rz, 0, .any⟩,
    ⟨14, 0, .rw, 0, .any⟩]⟩

/-- Offset of SRV_RQT_W (R556). -/
def SRV_RQT_W.at (i : Nat) : Nat := 0x200080 + 0x8 * i
def SRV_RQT_W.Wn (i : Nat) : FRef := ⟨SRV_RQT_W.at i, 63, 0⟩
/-- SRV_RQT_W (R556). -/
def SRV_RQT_W.reg : RegDef :=
  ⟨0x200080, [(16, 0x8)], false, true, true, false,
   [⟨63, 0, .ro, 0, .any⟩]⟩

/-- Offset of SRV_JOB_CFG (R556). -/
def SRV_JOB_CFG.at (i : Nat) : Nat := 0x201000 + 0x40 * i
def SRV_JOB_CFG.V (i : Nat) : FRef := ⟨SRV_JOB_CFG.at i, 63, 63⟩
def SRV_JOB_CFG.MAXB (i : Nat) : FRef := ⟨SRV_JOB_CFG.at i, 52, 44⟩
def SRV_JOB_CFG.CHUNK (i : Nat) : FRef := ⟨SRV_JOB_CFG.at i, 43, 28⟩
def SRV_JOB_CFG.LAUNCH_TOK (i : Nat) : FRef := ⟨SRV_JOB_CFG.at i, 27, 20⟩
def SRV_JOB_CFG.LEAD (i : Nat) : FRef := ⟨SRV_JOB_CFG.at i, 19, 12⟩
/-- SRV_JOB_CFG (R556). -/
def SRV_JOB_CFG.reg : RegDef :=
  ⟨0x201000, [(64, 0x40)], false, true, true, false,
   [⟨63, 63, .ro, 0, .any⟩,
    ⟨62, 53, .rz, 0, .any⟩,
    ⟨52, 44, .ro, 0, .any⟩,
    ⟨43, 28, .ro, 0, .any⟩,
    ⟨27, 20, .ro, 0, .any⟩,
    ⟨19, 12, .ro, 0, .any⟩,
    ⟨11, 0, .rz, 0, .any⟩]⟩

/-- Offset of SRV_JOB_CTL (R556). -/
def SRV_JOB_CTL.at (i : Nat) : Nat := 0x201008 + 0x40 * i
def SRV_JOB_CTL.BACKFILL (i : Nat) : FRef := ⟨SRV_JOB_CTL.at i, 1, 1⟩
def SRV_JOB_CTL.ADM_EN (i : Nat) : FRef := ⟨SRV_JOB_CTL.at i, 0, 0⟩
/-- SRV_JOB_CTL (R556). -/
def SRV_JOB_CTL.reg : RegDef :=
  ⟨0x201008, [(64, 0x40)], false, true, true, false,
   [⟨63, 2, .rz, 0, .any⟩,
    ⟨1, 1, .rw, 0, .any⟩,
    ⟨0, 0, .rw, 1, .any⟩]⟩

/-- Offset of SRV_JOB_QUOTA (R556). -/
def SRV_JOB_QUOTA.at (i : Nat) : Nat := 0x201010 + 0x40 * i
def SRV_JOB_QUOTA.PAGES (i : Nat) : FRef := ⟨SRV_JOB_QUOTA.at i, 31, 0⟩
/-- SRV_JOB_QUOTA (R556). -/
def SRV_JOB_QUOTA.reg : RegDef :=
  ⟨0x201010, [(64, 0x40)], false, true, true, false,
   [⟨63, 32, .rz, 0, .any⟩,
    ⟨31, 0, .rw, 0, .any⟩]⟩

/-- Offset of SRV_JOB_USE (R556). -/
def SRV_JOB_USE.at (i : Nat) : Nat := 0x201018 + 0x40 * i
def SRV_JOB_USE.COMMITTED (i : Nat) : FRef := ⟨SRV_JOB_USE.at i, 63, 32⟩
def SRV_JOB_USE.ALLOCATED (i : Nat) : FRef := ⟨SRV_JOB_USE.at i, 31, 0⟩
/-- SRV_JOB_USE (R556). -/
def SRV_JOB_USE.reg : RegDef :=
  ⟨0x201018, [(64, 0x40)], false, true, true, false,
   [⟨63, 32, .ro, 0, .any⟩,
    ⟨31, 0, .ro, 0, .any⟩]⟩

/-- Offset of SRV_JOB_STATUS (R556). -/
def SRV_JOB_STATUS.at (i : Nat) : Nat := 0x201020 + 0x40 * i
def SRV_JOB_STATUS.QUOTA_ARREARS (i : Nat) : FRef := ⟨SRV_JOB_STATUS.at i, 63, 63⟩
def SRV_JOB_STATUS.UNREPORTED (i : Nat) : FRef := ⟨SRV_JOB_STATUS.at i, 62, 62⟩
def SRV_JOB_STATUS.RES_WAIT (i : Nat) : FRef := ⟨SRV_JOB_STATUS.at i, 61, 61⟩
def SRV_JOB_STATUS.STEP_PLANES (i : Nat) : FRef := ⟨SRV_JOB_STATUS.at i, 55, 52⟩
def SRV_JOB_STATUS.ROWS (i : Nat) : FRef := ⟨SRV_JOB_STATUS.at i, 41, 32⟩
def SRV_JOB_STATUS.QUEUED (i : Nat) : FRef := ⟨SRV_JOB_STATUS.at i, 28, 16⟩
/-- SRV_JOB_STATUS (R556). -/
def SRV_JOB_STATUS.reg : RegDef :=
  ⟨0x201020, [(64, 0x40)], false, true, true, false,
   [⟨63, 63, .ro, 0, .any⟩,
    ⟨62, 62, .ro, 0, .any⟩,
    ⟨61, 61, .ro, 0, .any⟩,
    ⟨60, 56, .rz, 0, .any⟩,
    ⟨55, 52, .ro, 0, .any⟩,
    ⟨51, 42, .rz, 0, .any⟩,
    ⟨41, 32, .ro, 0, .any⟩,
    ⟨31, 29, .rz, 0, .any⟩,
    ⟨28, 16, .ro, 0, .any⟩,
    ⟨15, 0, .rz, 0, .any⟩]⟩

/-- Offset of SRV_JOB_STEP (R556). -/
def SRV_JOB_STEP.at (i : Nat) : Nat := 0x201028 + 0x40 * i
def SRV_JOB_STEP.STEP (i : Nat) : FRef := ⟨SRV_JOB_STEP.at i, 63, 0⟩
/-- SRV_JOB_STEP (R556). -/
def SRV_JOB_STEP.reg : RegDef :=
  ⟨0x201028, [(64, 0x40)], false, true, true, false,
   [⟨63, 0, .ro, 0, .any⟩]⟩

/-- Offset of SRV_JOB_BD (R556). -/
def SRV_JOB_BD.at (i : Nat) : Nat := 0x201030 + 0x40 * i
def SRV_JOB_BD.BASE (i : Nat) : FRef := ⟨SRV_JOB_BD.at i, 47, 0⟩
/-- SRV_JOB_BD (R556). -/
def SRV_JOB_BD.reg : RegDef :=
  ⟨0x201030, [(64, 0x40)], false, true, true, false,
   [⟨63, 48, .rz, 0, .any⟩,
    ⟨47, 0, .ro, 0, .any⟩]⟩

/-- Offset of SRV_JOB_RES (R556). -/
def SRV_JOB_RES.at (i : Nat) : Nat := 0x201038 + 0x40 * i
def SRV_JOB_RES.RSZ (i : Nat) : FRef := ⟨SRV_JOB_RES.at i, 63, 60⟩
def SRV_JOB_RES.BASE (i : Nat) : FRef := ⟨SRV_JOB_RES.at i, 47, 0⟩
/-- SRV_JOB_RES (R556). -/
def SRV_JOB_RES.reg : RegDef :=
  ⟨0x201038, [(64, 0x40)], false, true, true, false,
   [⟨63, 60, .ro, 0, .any⟩,
    ⟨59, 48, .rz, 0, .any⟩,
    ⟨47, 0, .ro, 0, .any⟩]⟩

/-- Offset of PXW_JOB_CFG (R556). -/
def PXW_JOB_CFG.at (i : Nat) : Nat := 0x203000 + 0x10 * i
def PXW_JOB_CFG.LOG2B (i : Nat) : FRef := ⟨PXW_JOB_CFG.at i, 57, 53⟩
def PXW_JOB_CFG.BASE (i : Nat) : FRef := ⟨PXW_JOB_CFG.at i, 47, 0⟩
/-- PXW_JOB_CFG (R556). -/
def PXW_JOB_CFG.reg : RegDef :=
  ⟨0x203000, [(64, 0x10)], false, true, true, false,
   [⟨63, 58, .rz, 0, .any⟩,
    ⟨57, 53, .ro, 0, .any⟩,
    ⟨52, 48, .rz, 0, .any⟩,
    ⟨47, 0, .ro, 0, .any⟩]⟩

/-- Offset of PXW_JOB_NODES (R556). -/
def PXW_JOB_NODES.at (i : Nat) : Nat := 0x203008 + 0x10 * i
def PXW_JOB_NODES.USEDN (i : Nat) : FRef := ⟨PXW_JOB_NODES.at i, 47, 24⟩
def PXW_JOB_NODES.NMAX (i : Nat) : FRef := ⟨PXW_JOB_NODES.at i, 23, 0⟩
/-- PXW_JOB_NODES (R556). -/
def PXW_JOB_NODES.reg : RegDef :=
  ⟨0x203008, [(64, 0x10)], false, true, true, false,
   [⟨63, 48, .rz, 0, .any⟩,
    ⟨47, 24, .ro, 0, .any⟩,
    ⟨23, 0, .ro, 0, .any⟩]⟩

/-- Offset of SMP_JOB_CTL (R578). -/
def SMP_JOB_CTL.at (i : Nat) : Nat := 0x204000 + 0x20 * i
def SMP_JOB_CTL.SPEC_EN (i : Nat) : FRef := ⟨SMP_JOB_CTL.at i, 0, 0⟩
/-- SMP_JOB_CTL (R578). -/
def SMP_JOB_CTL.reg : RegDef :=
  ⟨0x204000, [(64, 0x20)], false, true, true, false,
   [⟨63, 1, .rz, 0, .any⟩,
    ⟨0, 0, .ro, 0, .any⟩]⟩

/-- Offset of SMP_JOB_STATUS (R578). -/
def SMP_JOB_STATUS.at (i : Nat) : Nat := 0x204008 + 0x20 * i
def SMP_JOB_STATUS.RING_WAIT (i : Nat) : FRef := ⟨SMP_JOB_STATUS.at i, 0, 0⟩
/-- SMP_JOB_STATUS (R578). -/
def SMP_JOB_STATUS.reg : RegDef :=
  ⟨0x204008, [(64, 0x20)], false, true, true, false,
   [⟨63, 1, .rz, 0, .any⟩,
    ⟨0, 0, .ro, 0, .any⟩]⟩

/-- Offset of SMP_JOB_SPEC (R578). -/
def SMP_JOB_SPEC.at (i : Nat) : Nat := 0x204010 + 0x20 * i
def SMP_JOB_SPEC.DRAFTED (i : Nat) : FRef := ⟨SMP_JOB_SPEC.at i, 63, 32⟩
def SMP_JOB_SPEC.ACCEPTED (i : Nat) : FRef := ⟨SMP_JOB_SPEC.at i, 31, 0⟩
/-- SMP_JOB_SPEC (R578). -/
def SMP_JOB_SPEC.reg : RegDef :=
  ⟨0x204010, [(64, 0x20)], false, true, true, false,
   [⟨63, 32, .ro, 0, .any⟩,
    ⟨31, 0, .ro, 0, .any⟩]⟩

/-- Offset of SMP_JOB_DEAD (R578). -/
def SMP_JOB_DEAD.at (i : Nat) : Nat := 0x204018 + 0x20 * i
def SMP_JOB_DEAD.DEAD (i : Nat) : FRef := ⟨SMP_JOB_DEAD.at i, 31, 0⟩
/-- SMP_JOB_DEAD (R578). -/
def SMP_JOB_DEAD.reg : RegDef :=
  ⟨0x204018, [(64, 0x20)], false, true, true, false,
   [⟨63, 32, .rz, 0, .any⟩,
    ⟨31, 0, .ro, 0, .any⟩]⟩

/-- Offset of DSK_JOB_CTL (R557). -/
def DSK_JOB_CTL.at (i : Nat) : Nat := 0x300000 + 0x80 * i
def DSK_JOB_CTL.FB (i : Nat) : FRef := ⟨DSK_JOB_CTL.at i, 63, 63⟩
def DSK_JOB_CTL.FULL (i : Nat) : FRef := ⟨DSK_JOB_CTL.at i, 55, 52⟩
def DSK_JOB_CTL.FLOOR_MIN (i : Nat) : FRef := ⟨DSK_JOB_CTL.at i, 51, 48⟩
def DSK_JOB_CTL.MARGIN (i : Nat) : FRef := ⟨DSK_JOB_CTL.at i, 47, 40⟩
/-- DSK_JOB_CTL (R557). -/
def DSK_JOB_CTL.reg : RegDef :=
  ⟨0x300000, [(64, 0x80)], false, true, true, false,
   [⟨63, 63, .ro, 0, .any⟩,
    ⟨62, 56, .rz, 0, .any⟩,
    ⟨55, 52, .ro, 0, .any⟩,
    ⟨51, 48, .rw, 0, .any⟩,
    ⟨47, 40, .rw, 0x10, .any⟩,
    ⟨39, 0, .rz, 0, .any⟩]⟩

/-- Offset of DSK_JOB_CNT (R557). -/
def DSK_JOB_CNT.at (i : Nat) : Nat := 0x300008 + 0x80 * i
def DSK_JOB_CNT.EXPIRED (i : Nat) : FRef := ⟨DSK_JOB_CNT.at i, 63, 32⟩
def DSK_JOB_CNT.LOW_STEPS (i : Nat) : FRef := ⟨DSK_JOB_CNT.at i, 31, 0⟩
/-- DSK_JOB_CNT (R557). -/
def DSK_JOB_CNT.reg : RegDef :=
  ⟨0x300008, [(64, 0x80)], false, true, true, false,
   [⟨63, 32, .ro, 0, .any⟩,
    ⟨31, 0, .ro, 0, .any⟩]⟩

/-- Offset of DSK_JOB_TP (R557). -/
def DSK_JOB_TP.at (i : Nat) (k : Nat) : Nat := 0x300010 + 0x80 * i + 0x8 * k
def DSK_JOB_TP.US (i : Nat) (k : Nat) : FRef := ⟨DSK_JOB_TP.at i k, 31, 0⟩
/-- DSK_JOB_TP (R557). -/
def DSK_JOB_TP.reg : RegDef :=
  ⟨0x300010, [(64, 0x80), (7, 0x8)], false, true, true, false,
   [⟨63, 32, .rz, 0, .any⟩,
    ⟨31, 0, .rw, 0, .any⟩]⟩

/-- Offset of LDR_ID (R630). -/
def LDR_ID.at : Nat := 0x400000
def LDR_ID.FEATURES : FRef := ⟨LDR_ID.at, 63, 16⟩
def LDR_ID.MAJOR : FRef := ⟨LDR_ID.at, 15, 8⟩
def LDR_ID.MINOR : FRef := ⟨LDR_ID.at, 7, 0⟩
/-- LDR_ID (R630). -/
def LDR_ID.reg : RegDef :=
  ⟨0x400000, [], true, false, false, false,
   [⟨63, 16, .ro, 0xf, .any⟩,
    ⟨15, 8, .ro, 1, .any⟩,
    ⟨7, 0, .ro, 0, .any⟩]⟩

/-- Offset of LDR_STATUS (R630). -/
def LDR_STATUS.at : Nat := 0x400008
def LDR_STATUS.LOADS : FRef := ⟨LDR_STATUS.at, 63, 32⟩
def LDR_STATUS.BUSY : FRef := ⟨LDR_STATUS.at, 7, 7⟩
def LDR_STATUS.JOB_V : FRef := ⟨LDR_STATUS.at, 6, 6⟩
def LDR_STATUS.JOB : FRef := ⟨LDR_STATUS.at, 5, 0⟩
/-- LDR_STATUS (R630). -/
def LDR_STATUS.reg : RegDef :=
  ⟨0x400008, [], false, false, false, false,
   [⟨63, 32, .ro, 0, .any⟩,
    ⟨31, 8, .rz, 0, .any⟩,
    ⟨7, 7, .ro, 0, .any⟩,
    ⟨6, 6, .ro, 0, .any⟩,
    ⟨5, 0, .ro, 0, .any⟩]⟩

/-- Offset of LDR_JOB_ATTR (R630). -/
def LDR_JOB_ATTR.at (i : Nat) : Nat := 0x401000 + 0x8 * i
def LDR_JOB_ATTR.SERVING (i : Nat) : FRef := ⟨LDR_JOB_ATTR.at i, 6, 6⟩
def LDR_JOB_ATTR.DEBUG (i : Nat) : FRef := ⟨LDR_JOB_ATTR.at i, 5, 5⟩
def LDR_JOB_ATTR.FLAGS (i : Nat) : FRef := ⟨LDR_JOB_ATTR.at i, 4, 1⟩
def LDR_JOB_ATTR.DET (i : Nat) : FRef := ⟨LDR_JOB_ATTR.at i, 0, 0⟩
/-- LDR_JOB_ATTR (R630). -/
def LDR_JOB_ATTR.reg : RegDef :=
  ⟨0x401000, [(64, 0x8)], false, false, false, false,
   [⟨63, 7, .rz, 0, .any⟩,
    ⟨6, 6, .ro, 0, .any⟩,
    ⟨5, 5, .ro, 0, .any⟩,
    ⟨4, 1, .ro, 0, .any⟩,
    ⟨0, 0, .ro, 0, .any⟩]⟩

/-- Offset of LDR_SEG_W0 (R343). -/
def LDR_SEG_W0.at (i : Nat) (k : Nat) : Nat := 0x500000 + 0x200 * i + 0x20 * k
def LDR_SEG_W0.V (i : Nat) (k : Nat) : FRef := ⟨LDR_SEG_W0.at i k, 63, 63⟩
def LDR_SEG_W0.CLASS (i : Nat) (k : Nat) : FRef := ⟨LDR_SEG_W0.at i k, 62, 61⟩
def LDR_SEG_W0.PR (i : Nat) (k : Nat) : FRef := ⟨LDR_SEG_W0.at i k, 60, 60⟩
def LDR_SEG_W0.PW (i : Nat) (k : Nat) : FRef := ⟨LDR_SEG_W0.at i k, 59, 59⟩
def LDR_SEG_W0.CODE_T (i : Nat) (k : Nat) : FRef := ⟨LDR_SEG_W0.at i k, 58, 57⟩
def LDR_SEG_W0.CACHE (i : Nat) (k : Nat) : FRef := ⟨LDR_SEG_W0.at i k, 56, 56⟩
def LDR_SEG_W0.MIR_V (i : Nat) (k : Nat) : FRef := ⟨LDR_SEG_W0.at i k, 55, 55⟩
def LDR_SEG_W0.MIR_FAR (i : Nat) (k : Nat) : FRef := ⟨LDR_SEG_W0.at i k, 54, 54⟩
def LDR_SEG_W0.MROT (i : Nat) (k : Nat) : FRef := ⟨LDR_SEG_W0.at i k, 51, 48⟩
def LDR_SEG_W0.BASE (i : Nat) (k : Nat) : FRef := ⟨LDR_SEG_W0.at i k, 47, 12⟩
/-- LDR_SEG_W0 (R343). -/
def LDR_SEG_W0.reg : RegDef :=
  ⟨0x500000, [(64, 0x200), (16, 0x20)], false, false, false, false,
   [⟨63, 63, .ro, 0, .any⟩,
    ⟨62, 61, .ro, 0, .any⟩,
    ⟨60, 60, .ro, 0, .any⟩,
    ⟨59, 59, .ro, 0, .any⟩,
    ⟨58, 57, .ro, 0, .any⟩,
    ⟨56, 56, .ro, 0, .any⟩,
    ⟨55, 55, .ro, 0, .any⟩,
    ⟨54, 54, .ro, 0, .any⟩,
    ⟨53, 52, .rz, 0, .any⟩,
    ⟨51, 48, .ro, 0, .any⟩,
    ⟨47, 12, .ro, 0, .any⟩,
    ⟨11, 0, .rz, 0, .any⟩]⟩

/-- Offset of LDR_SEG_W1 (R343). -/
def LDR_SEG_W1.at (i : Nat) (k : Nat) : Nat := 0x500008 + 0x200 * i + 0x20 * k
def LDR_SEG_W1.STACKS (i : Nat) (k : Nat) : FRef := ⟨LDR_SEG_W1.at i k, 63, 48⟩
def LDR_SEG_W1.LIMIT (i : Nat) (k : Nat) : FRef := ⟨LDR_SEG_W1.at i k, 47, 12⟩
/-- LDR_SEG_W1 (R343). -/
def LDR_SEG_W1.reg : RegDef :=
  ⟨0x500008, [(64, 0x200), (16, 0x20)], false, false, false, false,
   [⟨63, 48, .ro, 0, .any⟩,
    ⟨47, 12, .ro, 0, .any⟩,
    ⟨11, 0, .rz, 0, .any⟩]⟩

/-- Offset of LDR_SEG_W2 (R343). -/
def LDR_SEG_W2.at (i : Nat) (k : Nat) : Nat := 0x500010 + 0x200 * i + 0x20 * k
def LDR_SEG_W2.MIRROR (i : Nat) (k : Nat) : FRef := ⟨LDR_SEG_W2.at i k, 47, 12⟩
/-- LDR_SEG_W2 (R343). -/
def LDR_SEG_W2.reg : RegDef :=
  ⟨0x500010, [(64, 0x200), (16, 0x20)], false, false, false, false,
   [⟨63, 48, .rz, 0, .any⟩,
    ⟨47, 12, .ro, 0, .any⟩,
    ⟨11, 0, .rz, 0, .any⟩]⟩

/-- Offset of LDR_SEG_W3 (R343). -/
def LDR_SEG_W3.at (i : Nat) (k : Nat) : Nat := 0x500018 + 0x200 * i + 0x20 * k
/-- LDR_SEG_W3 (R343). -/
def LDR_SEG_W3.reg : RegDef :=
  ⟨0x500018, [(64, 0x200), (16, 0x20)], false, false, false, false,
   [⟨63, 0, .rz, 0, .any⟩]⟩

/-- Offset of PWR_IN (R714). -/
def PWR_IN.at : Nat := 0x800000
def PWR_IN.VIN : FRef := ⟨PWR_IN.at, 47, 32⟩
def PWR_IN.P_ROUND : FRef := ⟨PWR_IN.at, 31, 16⟩
def PWR_IN.P_10US : FRef := ⟨PWR_IN.at, 15, 0⟩
/-- PWR_IN (R714). -/
def PWR_IN.reg : RegDef :=
  ⟨0x800000, [], true, true, true, false,
   [⟨63, 48, .rz, 0, .any⟩,
    ⟨47, 32, .ro, 0, .any⟩,
    ⟨31, 16, .ro, 0, .any⟩,
    ⟨15, 0, .ro, 0, .any⟩]⟩

/-- Offset of PWR_CAP (R714). -/
def PWR_CAP.at : Nat := 0x800008
def PWR_CAP.PEAKS : FRef := ⟨PWR_CAP.at, 31, 16⟩
def PWR_CAP.CAP_W : FRef := ⟨PWR_CAP.at, 15, 0⟩
/-- PWR_CAP (R714). -/
def PWR_CAP.reg : RegDef :=
  ⟨0x800008, [], true, true, true, false,
   [⟨63, 32, .rz, 0, .any⟩,
    ⟨31, 16, .ro, 0, .any⟩,
    ⟨15, 0, .rw, 0xc80, .clamp 1000 3200⟩]⟩

/-- Offset of PWR_SAMPLE (R714). -/
def PWR_SAMPLE.at : Nat := 0x800010
def PWR_SAMPLE.GO : FRef := ⟨PWR_SAMPLE.at, 7, 7⟩
def PWR_SAMPLE.BUSY : FRef := ⟨PWR_SAMPLE.at, 6, 6⟩
def PWR_SAMPLE.DOM : FRef := ⟨PWR_SAMPLE.at, 4, 0⟩
/-- PWR_SAMPLE (R714). -/
def PWR_SAMPLE.reg : RegDef :=
  ⟨0x800010, [], true, true, true, false,
   [⟨63, 8, .rz, 0, .any⟩,
    ⟨7, 7, .w1s, 0, .any⟩,
    ⟨6, 6, .ro, 0, .any⟩,
    ⟨5, 5, .rz, 0, .any⟩,
    ⟨4, 0, .rw, 0, .clamp 0 29⟩]⟩

/-- Offset of PWR_DOM_STATUS (R714). -/
def PWR_DOM_STATUS.at (i : Nat) : Nat := 0x800100 + 0x8 * i
def PWR_DOM_STATUS.STATE (i : Nat) : FRef := ⟨PWR_DOM_STATUS.at i, 63, 62⟩
def PWR_DOM_STATUS.VOLT (i : Nat) : FRef := ⟨PWR_DOM_STATUS.at i, 47, 38⟩
def PWR_DOM_STATUS.TARGET (i : Nat) : FRef := ⟨PWR_DOM_STATUS.at i, 37, 28⟩
def PWR_DOM_STATUS.POWER (i : Nat) : FRef := ⟨PWR_DOM_STATUS.at i, 15, 0⟩
/-- PWR_DOM_STATUS (R714). -/
def PWR_DOM_STATUS.reg : RegDef :=
  ⟨0x800100, [(30, 0x8)], true, true, true, false,
   [⟨63, 62, .ro, 0, .any⟩,
    ⟨61, 48, .rz, 0, .any⟩,
    ⟨47, 38, .ro, 0, .any⟩,
    ⟨37, 28, .ro, 0, .any⟩,
    ⟨27, 16, .rz, 0, .any⟩,
    ⟨15, 0, .ro, 0, .any⟩]⟩

/-- Offset of TMD_INLET (R714). -/
def TMD_INLET.at : Nat := 0x810000
def TMD_INLET.INLET : FRef := ⟨TMD_INLET.at, 15, 0⟩
/-- TMD_INLET (R714). -/
def TMD_INLET.reg : RegDef :=
  ⟨0x810000, [], true, true, true, false,
   [⟨63, 16, .rz, 0, .any⟩,
    ⟨15, 0, .ro, 0, .any⟩]⟩

/-- Offset of TMD_CTL (R714). -/
def TMD_CTL.at : Nat := 0x810008
def TMD_CTL.TJ_MAX_C : FRef := ⟨TMD_CTL.at, 63, 56⟩
def TMD_CTL.TJ_MAX_V : FRef := ⟨TMD_CTL.at, 55, 48⟩
def TMD_CTL.DRAM_TGT : FRef := ⟨TMD_CTL.at, 47, 40⟩
def TMD_CTL.VMAX_C : FRef := ⟨TMD_CTL.at, 39, 30⟩
def TMD_CTL.VMAX_V : FRef := ⟨TMD_CTL.at, 29, 20⟩
def TMD_CTL.ROUND_MS : FRef := ⟨TMD_CTL.at, 19, 16⟩
def TMD_CTL.TJ_TRIP : FRef := ⟨TMD_CTL.at, 15, 8⟩
/-- TMD_CTL (R714). -/
def TMD_CTL.reg : RegDef :=
  ⟨0x810008, [], true, true, true, false,
   [⟨63, 56, .rw, 0x5f, .clamp 60 105⟩,
    ⟨55, 48, .rw, 0x5f, .clamp 60 95⟩,
    ⟨47, 40, .rw, 0x55, .clamp 60 95⟩,
    ⟨39, 30, .rw, 0x320, .clamp 600 800⟩,
    ⟨29, 20, .rw, 0x320, .clamp 600 800⟩,
    ⟨19, 16, .rw, 1, .clamp 1 8⟩,
    ⟨15, 8, .ro, 0x6e, .any⟩,
    ⟨7, 0, .rz, 0, .any⟩]⟩

/-- Offset of TMD_STATUS (R714). -/
def TMD_STATUS.at : Nat := 0x810010
def TMD_STATUS.INLET_HI : FRef := ⟨TMD_STATUS.at, 63, 63⟩
def TMD_STATUS.INLET_BAD : FRef := ⟨TMD_STATUS.at, 62, 62⟩
def TMD_STATUS.TRIPPED : FRef := ⟨TMD_STATUS.at, 61, 61⟩
def TMD_STATUS.STUCK : FRef := ⟨TMD_STATUS.at, 60, 60⟩
def TMD_STATUS.V_C : FRef := ⟨TMD_STATUS.at, 59, 50⟩
def TMD_STATUS.ROUNDS : FRef := ⟨TMD_STATUS.at, 31, 0⟩
/-- TMD_STATUS (R714). -/
def TMD_STATUS.reg : RegDef :=
  ⟨0x810010, [], true, true, true, false,
   [⟨63, 63, .ro, 0, .any⟩,
    ⟨62, 62, .ro, 0, .any⟩,
    ⟨61, 61, .ro, 0, .any⟩,
    ⟨60, 60, .w1c, 0, .any⟩,
    ⟨59, 50, .ro, 0x2bc, .any⟩,
    ⟨49, 32, .rz, 0, .any⟩,
    ⟨31, 0, .ro, 0, .any⟩]⟩

/-- Offset of TMD_TRIP (R714). -/
def TMD_TRIP.at : Nat := 0x810018
def TMD_TRIP.CLEAR : FRef := ⟨TMD_TRIP.at, 0, 0⟩
/-- TMD_TRIP (R714). -/
def TMD_TRIP.reg : RegDef :=
  ⟨0x810018, [], true, true, true, false,
   [⟨63, 1, .rz, 0, .any⟩,
    ⟨0, 0, .w1s, 0, .any⟩]⟩

/-- Offset of TMD_NODE (R714). -/
def TMD_NODE.at (i : Nat) : Nat := 0x810100 + 0x8 * i
def TMD_NODE.TEMP (i : Nat) : FRef := ⟨TMD_NODE.at i, 15, 0⟩
/-- TMD_NODE (R714). -/
def TMD_NODE.reg : RegDef :=
  ⟨0x810100, [(30, 0x8)], true, true, true, false,
   [⟨63, 16, .rz, 0, .any⟩,
    ⟨15, 0, .ro, 0, .any⟩]⟩

/-- Offset of TMD_STK (R714). -/
def TMD_STK.at (i : Nat) : Nat := 0x810200 + 0x8 * i
def TMD_STK.V_N (i : Nat) : FRef := ⟨TMD_STK.at i, 41, 32⟩
def TMD_STK.WHY (i : Nat) : FRef := ⟨TMD_STK.at i, 7, 6⟩
def TMD_STK.DUTY (i : Nat) : FRef := ⟨TMD_STK.at i, 2, 0⟩
/-- TMD_STK (R714). -/
def TMD_STK.reg : RegDef :=
  ⟨0x810200, [(16, 0x8)], true, true, true, false,
   [⟨63, 42, .rz, 0, .any⟩,
    ⟨41, 32, .ro, 0x2bc, .any⟩,
    ⟨31, 8, .rz, 0, .any⟩,
    ⟨7, 6, .ro, 0, .any⟩,
    ⟨5, 3, .rz, 0, .any⟩,
    ⟨2, 0, .ro, 0, .any⟩]⟩

/-- Offset of TMD_FLASH (R714). -/
def TMD_FLASH.at : Nat := 0x810300
def TMD_FLASH.FHOLD : FRef := ⟨TMD_FLASH.at, 17, 17⟩
def TMD_FLASH.BOARD : FRef := ⟨TMD_FLASH.at, 15, 0⟩
/-- TMD_FLASH (R714). -/
def TMD_FLASH.reg : RegDef :=
  ⟨0x810300, [], true, true, true, false,
   [⟨63, 18, .rz, 0, .any⟩,
    ⟨17, 17, .ro, 0, .any⟩,
    ⟨16, 16, .rz, 0, .any⟩,
    ⟨15, 0, .ro, 0, .any⟩]⟩

/-- Offset of DYL_PORT_STATUS (R654). -/
def DYL_PORT_STATUS.at (i : Nat) : Nat := 0x1000000 + 0x10000 * i
def DYL_PORT_STATUS.STATE (i : Nat) : FRef := ⟨DYL_PORT_STATUS.at i, 47, 44⟩
def DYL_PORT_STATUS.MODE (i : Nat) : FRef := ⟨DYL_PORT_STATUS.at i, 43, 42⟩
def DYL_PORT_STATUS.RATE (i : Nat) : FRef := ⟨DYL_PORT_STATUS.at i, 41, 34⟩
def DYL_PORT_STATUS.WIDTH (i : Nat) : FRef := ⟨DYL_PORT_STATUS.at i, 33, 32⟩
def DYL_PORT_STATUS.SPARE_V (i : Nat) : FRef := ⟨DYL_PORT_STATUS.at i, 31, 31⟩
def DYL_PORT_STATUS.SPARE_LANE (i : Nat) : FRef := ⟨DYL_PORT_STATUS.at i, 30, 26⟩
def DYL_PORT_STATUS.LANE_FAIL (i : Nat) : FRef := ⟨DYL_PORT_STATUS.at i, 25, 9⟩
/-- DYL_PORT_STATUS (R654). -/
def DYL_PORT_STATUS.reg : RegDef :=
  ⟨0x1000000, [(2, 0x10000)], true, true, true, false,
   [⟨63, 48, .rz, 0, .any⟩,
    ⟨47, 44, .ro, 0, .any⟩,
    ⟨43, 42, .ro, 0, .any⟩,
    ⟨41, 34, .ro, 0, .any⟩,
    ⟨33, 32, .ro, 0, .any⟩,
    ⟨31, 31, .ro, 0, .any⟩,
    ⟨30, 26, .ro, 0, .any⟩,
    ⟨25, 9, .ro, 0, .any⟩,
    ⟨8, 0, .rz, 0, .any⟩]⟩

/-- Offset of DYL_PORT_CTL (R654). -/
def DYL_PORT_CTL.at (i : Nat) : Nat := 0x1000008 + 0x10000 * i
def DYL_PORT_CTL.RETRAIN (i : Nat) : FRef := ⟨DYL_PORT_CTL.at i, 3, 3⟩
def DYL_PORT_CTL.MAX_MODE (i : Nat) : FRef := ⟨DYL_PORT_CTL.at i, 2, 1⟩
def DYL_PORT_CTL.DISABLE (i : Nat) : FRef := ⟨DYL_PORT_CTL.at i, 0, 0⟩
/-- DYL_PORT_CTL (R654). -/
def DYL_PORT_CTL.reg : RegDef :=
  ⟨0x1000008, [(2, 0x10000)], true, true, true, false,
   [⟨63, 4, .rz, 0, .any⟩,
    ⟨3, 3, .w1s, 0, .any⟩,
    ⟨2, 1, .rw, 0, .within 0 2⟩,
    ⟨0, 0, .rw, 0, .any⟩]⟩

/-- Offset of DYL_PORT_ERR (R654). -/
def DYL_PORT_ERR.at (i : Nat) : Nat := 0x1000010 + 0x10000 * i
def DYL_PORT_ERR.CORR (i : Nat) : FRef := ⟨DYL_PORT_ERR.at i, 63, 32⟩
def DYL_PORT_ERR.REPLAY (i : Nat) : FRef := ⟨DYL_PORT_ERR.at i, 31, 16⟩
def DYL_PORT_ERR.RECOV (i : Nat) : FRef := ⟨DYL_PORT_ERR.at i, 15, 0⟩
/-- DYL_PORT_ERR (R654). -/
def DYL_PORT_ERR.reg : RegDef :=
  ⟨0x1000010, [(2, 0x10000)], true, true, true, false,
   [⟨63, 32, .ro, 0, .any⟩,
    ⟨31, 16, .ro, 0, .any⟩,
    ⟨15, 0, .ro, 0, .any⟩]⟩

/-- Offset of DYL_RING_BASE (R654). -/
def DYL_RING_BASE.at (i : Nat) : Nat := 0x1080000 + 0x20 * i
def DYL_RING_BASE.BASE (i : Nat) : FRef := ⟨DYL_RING_BASE.at i, 63, 12⟩
/-- DYL_RING_BASE (R654). -/
def DYL_RING_BASE.reg : RegDef :=
  ⟨0x1080000, [(8, 0x20)], true, true, true, false,
   [⟨63, 12, .rwb, 0, .any⟩,
    ⟨11, 0, .rz, 0, .any⟩]⟩

/-- Offset of DYL_RING_CFG (R654). -/
def DYL_RING_CFG.at (i : Nat) : Nat := 0x1080008 + 0x20 * i
def DYL_RING_CFG.POLL_US (i : Nat) : FRef := ⟨DYL_RING_CFG.at i, 31, 20⟩
def DYL_RING_CFG.LOG2N (i : Nat) : FRef := ⟨DYL_RING_CFG.at i, 19, 16⟩
def DYL_RING_CFG.EN (i : Nat) : FRef := ⟨DYL_RING_CFG.at i, 0, 0⟩
/-- DYL_RING_CFG (R654). -/
def DYL_RING_CFG.reg : RegDef :=
  ⟨0x1080008, [(8, 0x20)], true, true, true, false,
   [⟨63, 32, .rz, 0, .any⟩,
    ⟨31, 20, .rwl, 0, .any⟩,
    ⟨19, 16, .rwb, 4, .clamp 4 12⟩,
    ⟨15, 1, .rz, 0, .any⟩,
    ⟨0, 0, .rw, 0, .any⟩]⟩

/-- Offset of DYL_RING_STATUS (R654). -/
def DYL_RING_STATUS.at (i : Nat) : Nat := 0x1080010 + 0x20 * i
def DYL_RING_STATUS.NEXT (i : Nat) : FRef := ⟨DYL_RING_STATUS.at i, 63, 32⟩
def DYL_RING_STATUS.STALL (i : Nat) : FRef := ⟨DYL_RING_STATUS.at i, 31, 30⟩
def DYL_RING_STATUS.CFG_REJECT (i : Nat) : FRef := ⟨DYL_RING_STATUS.at i, 29, 29⟩
/-- DYL_RING_STATUS (R654). -/
def DYL_RING_STATUS.reg : RegDef :=
  ⟨0x1080010, [(8, 0x20)], true, true, true, false,
   [⟨63, 32, .rwb, 0, .any⟩,
    ⟨31, 30, .ro, 0, .any⟩,
    ⟨29, 29, .w1c, 0, .any⟩,
    ⟨28, 0, .rz, 0, .any⟩]⟩

/-- Offset of DYL_MSG_BASE (R654). -/
def DYL_MSG_BASE.at : Nat := 0x1080100
def DYL_MSG_BASE.BASE : FRef := ⟨DYL_MSG_BASE.at, 63, 12⟩
/-- DYL_MSG_BASE (R654). -/
def DYL_MSG_BASE.reg : RegDef :=
  ⟨0x1080100, [], true, true, true, false,
   [⟨63, 12, .rwb, 0, .any⟩,
    ⟨11, 0, .rz, 0, .any⟩]⟩

/-- Offset of DYL_MSG_CFG (R654). -/
def DYL_MSG_CFG.at : Nat := 0x1080108
def DYL_MSG_CFG.VMAP : FRef := ⟨DYL_MSG_CFG.at, 35, 8⟩
def DYL_MSG_CFG.LOG2M : FRef := ⟨DYL_MSG_CFG.at, 7, 3⟩
def DYL_MSG_CFG.MEN : FRef := ⟨DYL_MSG_CFG.at, 0, 0⟩
/-- DYL_MSG_CFG (R654). -/
def DYL_MSG_CFG.reg : RegDef :=
  ⟨0x1080108, [], true, true, true, false,
   [⟨63, 36, .rz, 0, .any⟩,
    ⟨35, 8, .rw, 0, .any⟩,
    ⟨7, 3, .rwb, 6, .clamp 6 16⟩,
    ⟨2, 1, .rz, 0, .any⟩,
    ⟨0, 0, .rw, 0, .any⟩]⟩

/-- Offset of DYL_MSG_CONS (R654). -/
def DYL_MSG_CONS.at : Nat := 0x1080110
def DYL_MSG_CONS.MCONS : FRef := ⟨DYL_MSG_CONS.at, 63, 0⟩
/-- DYL_MSG_CONS (R654). -/
def DYL_MSG_CONS.reg : RegDef :=
  ⟨0x1080110, [], true, true, true, false,
   [⟨63, 0, .rw, 0, .any⟩]⟩

/-- Offset of DYL_MSG_PROD (R654). -/
def DYL_MSG_PROD.at : Nat := 0x1080118
def DYL_MSG_PROD.MPROD : FRef := ⟨DYL_MSG_PROD.at, 63, 0⟩
/-- DYL_MSG_PROD (R654). -/
def DYL_MSG_PROD.reg : RegDef :=
  ⟨0x1080118, [], true, true, true, false,
   [⟨63, 0, .ro, 0, .any⟩]⟩

/-- Offset of DYL_MSG_LOST (R654). -/
def DYL_MSG_LOST.at : Nat := 0x1080120
def DYL_MSG_LOST.COUNT : FRef := ⟨DYL_MSG_LOST.at, 63, 0⟩
/-- DYL_MSG_LOST (R654). -/
def DYL_MSG_LOST.reg : RegDef :=
  ⟨0x1080120, [], true, true, true, false,
   [⟨63, 0, .ro, 0, .any⟩]⟩

/-- Offset of DYL_VEC_ADDR (R654). -/
def DYL_VEC_ADDR.at (i : Nat) : Nat := 0x1080200 + 0x10 * i
def DYL_VEC_ADDR.ADDR (i : Nat) : FRef := ⟨DYL_VEC_ADDR.at i, 63, 0⟩
/-- DYL_VEC_ADDR (R654). -/
def DYL_VEC_ADDR.reg : RegDef :=
  ⟨0x1080200, [(16, 0x10)], true, true, true, false,
   [⟨63, 0, .rw, 0, .any⟩]⟩

/-- Offset of DYL_VEC_CTL (R654). -/
def DYL_VEC_CTL.at (i : Nat) : Nat := 0x1080208 + 0x10 * i
def DYL_VEC_CTL.DATA (i : Nat) : FRef := ⟨DYL_VEC_CTL.at i, 63, 32⟩
def DYL_VEC_CTL.MASK (i : Nat) : FRef := ⟨DYL_VEC_CTL.at i, 31, 31⟩
def DYL_VEC_CTL.PEND (i : Nat) : FRef := ⟨DYL_VEC_CTL.at i, 30, 30⟩
def DYL_VEC_CTL.HOLD_US (i : Nat) : FRef := ⟨DYL_VEC_CTL.at i, 29, 16⟩
def DYL_VEC_CTL.COAL_N (i : Nat) : FRef := ⟨DYL_VEC_CTL.at i, 15, 8⟩
/-- DYL_VEC_CTL (R654). -/
def DYL_VEC_CTL.reg : RegDef :=
  ⟨0x1080208, [(16, 0x10)], true, true, true, false,
   [⟨63, 32, .rw, 0, .any⟩,
    ⟨31, 31, .rw, 1, .any⟩,
    ⟨30, 30, .ro, 0, .any⟩,
    ⟨29, 16, .rw, 0x14, .any⟩,
    ⟨15, 8, .rw, 1, .clamp 1 255⟩,
    ⟨7, 0, .rz, 0, .any⟩]⟩

/-- Offset of CXP_PORT_STATUS (R363). -/
def CXP_PORT_STATUS.at (i : Nat) : Nat := 0x1100000 + 0x8 * i
def CXP_PORT_STATUS.DEVICES (i : Nat) : FRef := ⟨CXP_PORT_STATUS.at i, 23, 20⟩
def CXP_PORT_STATUS.MODE (i : Nat) : FRef := ⟨CXP_PORT_STATUS.at i, 19, 16⟩
def CXP_PORT_STATUS.RATE (i : Nat) : FRef := ⟨CXP_PORT_STATUS.at i, 15, 8⟩
def CXP_PORT_STATUS.WIDTH (i : Nat) : FRef := ⟨CXP_PORT_STATUS.at i, 7, 6⟩
def CXP_PORT_STATUS.LINK_DOWN (i : Nat) : FRef := ⟨CXP_PORT_STATUS.at i, 5, 5⟩
def CXP_PORT_STATUS.POISON_SEEN (i : Nat) : FRef := ⟨CXP_PORT_STATUS.at i, 4, 4⟩
/-- CXP_PORT_STATUS (R363). -/
def CXP_PORT_STATUS.reg : RegDef :=
  ⟨0x1100000, [(4, 0x8)], true, false, true, false,
   [⟨63, 24, .rz, 0, .any⟩,
    ⟨23, 20, .ro, 0, .any⟩,
    ⟨19, 16, .ro, 0, .any⟩,
    ⟨15, 8, .ro, 0, .any⟩,
    ⟨7, 6, .ro, 0, .any⟩,
    ⟨5, 5, .w1c, 0, .any⟩,
    ⟨4, 4, .w1c, 0, .any⟩,
    ⟨3, 0, .rz, 0, .any⟩]⟩

/-- Offset of CXP_HDM_RANGE (R363). -/
def CXP_HDM_RANGE.at (i : Nat) : Nat := 0x1100100 + 0x10 * i
def CXP_HDM_RANGE.BASE (i : Nat) : FRef := ⟨CXP_HDM_RANGE.at i, 47, 28⟩
def CXP_HDM_RANGE.SIZE (i : Nat) : FRef := ⟨CXP_HDM_RANGE.at i, 27, 13⟩
def CXP_HDM_RANGE.V (i : Nat) : FRef := ⟨CXP_HDM_RANGE.at i, 0, 0⟩
/-- CXP_HDM_RANGE (R363). -/
def CXP_HDM_RANGE.reg : RegDef :=
  ⟨0x1100100, [(16, 0x10)], true, false, true, false,
   [⟨63, 48, .rz, 0, .any⟩,
    ⟨47, 28, .ro, 0, .any⟩,
    ⟨27, 13, .ro, 0, .any⟩,
    ⟨12, 1, .rz, 0, .any⟩,
    ⟨0, 0, .ro, 0, .any⟩]⟩

/-- Offset of CXP_HDM_TGT (R363). -/
def CXP_HDM_TGT.at (i : Nat) : Nat := 0x1100108 + 0x10 * i
def CXP_HDM_TGT.IW (i : Nat) : FRef := ⟨CXP_HDM_TGT.at i, 9, 8⟩
def CXP_HDM_TGT.PORTS (i : Nat) : FRef := ⟨CXP_HDM_TGT.at i, 7, 4⟩
def CXP_HDM_TGT.DEV (i : Nat) : FRef := ⟨CXP_HDM_TGT.at i, 3, 2⟩
/-- CXP_HDM_TGT (R363). -/
def CXP_HDM_TGT.reg : RegDef :=
  ⟨0x1100108, [(16, 0x10)], true, false, true, false,
   [⟨63, 10, .rz, 0, .any⟩,
    ⟨9, 8, .ro, 0, .any⟩,
    ⟨7, 4, .ro, 0, .any⟩,
    ⟨3, 2, .ro, 0, .any⟩,
    ⟨1, 0, .rz, 0, .any⟩]⟩

/-- Offset of XWF_ID (R677). -/
def XWF_ID.at : Nat := 0x1200000
def XWF_ID.NODE : FRef := ⟨XWF_ID.at, 14, 0⟩
/-- XWF_ID (R677). -/
def XWF_ID.reg : RegDef :=
  ⟨0x1200000, [], true, true, true, false,
   [⟨63, 15, .rz, 0, .any⟩,
    ⟨14, 0, .rwb, 0x7fff, .within 0 0x7FFE⟩]⟩

/-- Offset of XWF_CTL (R677). -/
def XWF_CTL.at : Nat := 0x1200008
def XWF_CTL.UDP_PORT : FRef := ⟨XWF_CTL.at, 63, 48⟩
def XWF_CTL.RTO_US : FRef := ⟨XWF_CTL.at, 47, 32⟩
def XWF_CTL.MAX_HOPS : FRef := ⟨XWF_CTL.at, 31, 28⟩
def XWF_CTL.SFP : FRef := ⟨XWF_CTL.at, 8, 5⟩
def XWF_CTL.SFV : FRef := ⟨XWF_CTL.at, 4, 4⟩
def XWF_CTL.CFG_REJECT : FRef := ⟨XWF_CTL.at, 3, 3⟩
def XWF_CTL.EN : FRef := ⟨XWF_CTL.at, 0, 0⟩
/-- XWF_CTL (R677). -/
def XWF_CTL.reg : RegDef :=
  ⟨0x1200008, [], true, true, true, false,
   [⟨63, 48, .rwb, 0xb400, .any⟩,
    ⟨47, 32, .rw, 0x32, .any⟩,
    ⟨31, 28, .rw, 6, .any⟩,
    ⟨27, 9, .rz, 0, .any⟩,
    ⟨8, 5, .rw, 0, .any⟩,
    ⟨4, 4, .rw, 0, .any⟩,
    ⟨3, 3, .w1c, 0, .any⟩,
    ⟨2, 1, .rz, 0, .any⟩,
    ⟨0, 0, .rw, 0, .any⟩]⟩

/-- Offset of XWF_IPV6_PREFIX (R677). -/
def XWF_IPV6_PREFIX.at : Nat := 0x1200010
def XWF_IPV6_PREFIX.PREFIX : FRef := ⟨XWF_IPV6_PREFIX.at, 63, 0⟩
/-- XWF_IPV6_PREFIX (R677). -/
def XWF_IPV6_PREFIX.reg : RegDef :=
  ⟨0x1200010, [], true, true, true, false,
   [⟨63, 0, .rwb, 0xfd00000000000000, .any⟩]⟩

/-- Offset of XWF_PORT_STATUS (R677). -/
def XWF_PORT_STATUS.at (i : Nat) : Nat := 0x1200100 + 0x40 * i
def XWF_PORT_STATUS.STATE (i : Nat) : FRef := ⟨XWF_PORT_STATUS.at i, 63, 60⟩
def XWF_PORT_STATUS.MODE (i : Nat) : FRef := ⟨XWF_PORT_STATUS.at i, 59, 58⟩
def XWF_PORT_STATUS.WAVES (i : Nat) : FRef := ⟨XWF_PORT_STATUS.at i, 57, 54⟩
def XWF_PORT_STATUS.SPARE_V (i : Nat) : FRef := ⟨XWF_PORT_STATUS.at i, 53, 53⟩
def XWF_PORT_STATUS.SPARE_W (i : Nat) : FRef := ⟨XWF_PORT_STATUS.at i, 52, 49⟩
def XWF_PORT_STATUS.WAVE_FAIL (i : Nat) : FRef := ⟨XWF_PORT_STATUS.at i, 48, 40⟩
def XWF_PORT_STATUS.PARTNER (i : Nat) : FRef := ⟨XWF_PORT_STATUS.at i, 14, 0⟩
/-- XWF_PORT_STATUS (R677). -/
def XWF_PORT_STATUS.reg : RegDef :=
  ⟨0x1200100, [(16, 0x40)], true, true, true, false,
   [⟨63, 60, .ro, 0, .any⟩,
    ⟨59, 58, .ro, 0, .any⟩,
    ⟨57, 54, .ro, 0, .any⟩,
    ⟨53, 53, .ro, 0, .any⟩,
    ⟨52, 49, .ro, 0, .any⟩,
    ⟨48, 40, .ro, 0, .any⟩,
    ⟨39, 15, .rz, 0, .any⟩,
    ⟨14, 0, .ro, 0, .any⟩]⟩

/-- Offset of XWF_PORT_CTL (R677). -/
def XWF_PORT_CTL.at (i : Nat) : Nat := 0x1200108 + 0x40 * i
def XWF_PORT_CTL.PAYLOAD_E (i : Nat) : FRef := ⟨XWF_PORT_CTL.at i, 4, 4⟩
def XWF_PORT_CTL.RETRAIN (i : Nat) : FRef := ⟨XWF_PORT_CTL.at i, 3, 3⟩
def XWF_PORT_CTL.MAX_MODE (i : Nat) : FRef := ⟨XWF_PORT_CTL.at i, 2, 1⟩
def XWF_PORT_CTL.DISABLE (i : Nat) : FRef := ⟨XWF_PORT_CTL.at i, 0, 0⟩
/-- XWF_PORT_CTL (R677). -/
def XWF_PORT_CTL.reg : RegDef :=
  ⟨0x1200108, [(16, 0x40)], true, true, true, false,
   [⟨63, 5, .rz, 0, .any⟩,
    ⟨4, 4, .rw, 0, .any⟩,
    ⟨3, 3, .w1s, 0, .any⟩,
    ⟨2, 1, .rw, 0, .within 0 2⟩,
    ⟨0, 0, .rw, 1, .any⟩]⟩

/-- Offset of XWF_PORT_ERR (R677). -/
def XWF_PORT_ERR.at (i : Nat) : Nat := 0x1200110 + 0x40 * i
def XWF_PORT_ERR.CORR (i : Nat) : FRef := ⟨XWF_PORT_ERR.at i, 63, 32⟩
def XWF_PORT_ERR.REPLAY (i : Nat) : FRef := ⟨XWF_PORT_ERR.at i, 31, 16⟩
def XWF_PORT_ERR.DROPS (i : Nat) : FRef := ⟨XWF_PORT_ERR.at i, 15, 0⟩
/-- XWF_PORT_ERR (R677). -/
def XWF_PORT_ERR.reg : RegDef :=
  ⟨0x1200110, [(16, 0x40)], true, true, true, false,
   [⟨63, 32, .ro, 0, .any⟩,
    ⟨31, 16, .ro, 0, .any⟩,
    ⟨15, 0, .ro, 0, .any⟩]⟩

/-- Offset of XWF_PORT_MAC (R677). -/
def XWF_PORT_MAC.at (i : Nat) : Nat := 0x1200118 + 0x40 * i
def XWF_PORT_MAC.MAC (i : Nat) : FRef := ⟨XWF_PORT_MAC.at i, 47, 0⟩
/-- XWF_PORT_MAC (R677). -/
def XWF_PORT_MAC.reg : RegDef :=
  ⟨0x1200118, [(16, 0x40)], true, true, true, false,
   [⟨63, 48, .rz, 0, .any⟩,
    ⟨47, 0, .ro, 0, .any⟩]⟩

/-- Offset of XWF_PORT_GWMAC (R677). -/
def XWF_PORT_GWMAC.at (i : Nat) : Nat := 0x1200120 + 0x40 * i
def XWF_PORT_GWMAC.GWMAC (i : Nat) : FRef := ⟨XWF_PORT_GWMAC.at i, 47, 0⟩
/-- XWF_PORT_GWMAC (R677). -/
def XWF_PORT_GWMAC.reg : RegDef :=
  ⟨0x1200120, [(16, 0x40)], true, true, true, false,
   [⟨63, 48, .rz, 0, .any⟩,
    ⟨47, 0, .rw, 0, .any⟩]⟩

/-- Offset of XWF_JOB_GROUP (R677). -/
def XWF_JOB_GROUP.at (i : Nat) : Nat := 0x1201000 + 0x8 * i
def XWF_JOB_GROUP.GROUP (i : Nat) : FRef := ⟨XWF_JOB_GROUP.at i, 31, 0⟩
/-- XWF_JOB_GROUP (R677). -/
def XWF_JOB_GROUP.reg : RegDef :=
  ⟨0x1201000, [(64, 0x8)], true, true, true, false,
   [⟨63, 32, .rz, 0, .any⟩,
    ⟨31, 0, .rw, 0, .any⟩]⟩

/-- Offset of XWF_FQSTAT (R677). -/
def XWF_FQSTAT.at (i : Nat) : Nat := 0x1204000 + 0x20 * i
def XWF_FQSTAT.CMD_SEQ (i : Nat) : FRef := ⟨XWF_FQSTAT.at i, 47, 32⟩
def XWF_FQSTAT.LAST_CODE (i : Nat) : FRef := ⟨XWF_FQSTAT.at i, 31, 24⟩
def XWF_FQSTAT.REMOTE (i : Nat) : FRef := ⟨XWF_FQSTAT.at i, 12, 0⟩
/-- XWF_FQSTAT (R677). -/
def XWF_FQSTAT.reg : RegDef :=
  ⟨0x1204000, [(200, 0x20)], true, true, true, false,
   [⟨63, 48, .rz, 0, .any⟩,
    ⟨47, 32, .ro, 0, .any⟩,
    ⟨31, 24, .ro, 0, .any⟩,
    ⟨23, 13, .rz, 0, .any⟩,
    ⟨12, 0, .ro, 0, .any⟩]⟩

/-- Offset of XWF_HALT_INFO (R677). -/
def XWF_HALT_INFO.at (i : Nat) : Nat := 0x1204008 + 0x20 * i
def XWF_HALT_INFO.VALID (i : Nat) : FRef := ⟨XWF_HALT_INFO.at i, 63, 63⟩
def XWF_HALT_INFO.RESUME (i : Nat) : FRef := ⟨XWF_HALT_INFO.at i, 62, 62⟩
def XWF_HALT_INFO.SKIP_SIGNAL (i : Nat) : FRef := ⟨XWF_HALT_INFO.at i, 61, 61⟩
def XWF_HALT_INFO.LATE (i : Nat) : FRef := ⟨XWF_HALT_INFO.at i, 60, 60⟩
def XWF_HALT_INFO.REASON (i : Nat) : FRef := ⟨XWF_HALT_INFO.at i, 55, 48⟩
def XWF_HALT_INFO.CODE (i : Nat) : FRef := ⟨XWF_HALT_INFO.at i, 47, 40⟩
def XWF_HALT_INFO.FOP (i : Nat) : FRef := ⟨XWF_HALT_INFO.at i, 39, 37⟩
def XWF_HALT_INFO.NODE (i : Nat) : FRef := ⟨XWF_HALT_INFO.at i, 29, 15⟩
/-- XWF_HALT_INFO (R677). -/
def XWF_HALT_INFO.reg : RegDef :=
  ⟨0x1204008, [(200, 0x20)], false, true, true, false,
   [⟨63, 63, .ro, 0, .any⟩,
    ⟨62, 62, .w1s, 0, .any⟩,
    ⟨61, 61, .rw, 0, .any⟩,
    ⟨60, 60, .ro, 0, .any⟩,
    ⟨59, 56, .rz, 0, .any⟩,
    ⟨55, 48, .ro, 0, .any⟩,
    ⟨47, 40, .ro, 0, .any⟩,
    ⟨39, 37, .ro, 0, .any⟩,
    ⟨36, 30, .rz, 0, .any⟩,
    ⟨29, 15, .ro, 0, .any⟩,
    ⟨14, 0, .rz, 0, .any⟩]⟩

/-- Offset of XWF_HALT_ADDR (R677). -/
def XWF_HALT_ADDR.at (i : Nat) : Nat := 0x1204010 + 0x20 * i
def XWF_HALT_ADDR.ADDR (i : Nat) : FRef := ⟨XWF_HALT_ADDR.at i, 47, 0⟩
/-- XWF_HALT_ADDR (R677). -/
def XWF_HALT_ADDR.reg : RegDef :=
  ⟨0x1204010, [(200, 0x20)], false, true, true, false,
   [⟨63, 48, .rz, 0, .any⟩,
    ⟨47, 0, .ro, 0, .any⟩]⟩

/-- Offset of XWF_ROUTE (R677). -/
def XWF_ROUTE.at (i : Nat) : Nat := 0x1300000 + 0x8 * i
def XWF_ROUTE.V (i : Nat) : FRef := ⟨XWF_ROUTE.at i, 63, 63⟩
def XWF_ROUTE.PMASK (i : Nat) : FRef := ⟨XWF_ROUTE.at i, 15, 0⟩
/-- XWF_ROUTE (R677). -/
def XWF_ROUTE.reg : RegDef :=
  ⟨0x1300000, [(32767, 0x8)], true, true, true, false,
   [⟨63, 63, .rw, 0, .any⟩,
    ⟨62, 16, .rz, 0, .any⟩,
    ⟨15, 0, .rw, 0, .any⟩]⟩

/-- Offset of CLB_PART (R358). -/
def CLB_PART.at (i : Nat) (k : Nat) : Nat := 0x1401000 + 0x20 * i + 0x8 * k
def CLB_PART.SCOUNT (i : Nat) (k : Nat) : FRef := ⟨CLB_PART.at i k, 30, 24⟩
def CLB_PART.SFIRST (i : Nat) (k : Nat) : FRef := ⟨CLB_PART.at i k, 21, 16⟩
def CLB_PART.CCOUNT (i : Nat) (k : Nat) : FRef := ⟨CLB_PART.at i k, 14, 8⟩
def CLB_PART.CFIRST (i : Nat) (k : Nat) : FRef := ⟨CLB_PART.at i k, 5, 0⟩
/-- CLB_PART (R358). -/
def CLB_PART.reg : RegDef :=
  ⟨0x1401000, [(64, 0x20), (4, 0x8)], false, false, false, false,
   [⟨63, 31, .rz, 0, .any⟩,
    ⟨30, 24, .ro, 0, .any⟩,
    ⟨23, 22, .rz, 0, .any⟩,
    ⟨21, 16, .ro, 0, .any⟩,
    ⟨15, 15, .rz, 0, .any⟩,
    ⟨14, 8, .ro, 0, .any⟩,
    ⟨7, 6, .rz, 0, .any⟩,
    ⟨5, 0, .ro, 0, .any⟩]⟩

/-- Offset of CLB_ERR (R358). -/
def CLB_ERR.at : Nat := 0x1400010
def CLB_ERR.CE_COUNT : FRef := ⟨CLB_ERR.at, 63, 32⟩
def CLB_ERR.UE_JOB : FRef := ⟨CLB_ERR.at, 7, 4⟩
def CLB_ERR.UE_CLEAN : FRef := ⟨CLB_ERR.at, 3, 0⟩
/-- CLB_ERR (R358). -/
def CLB_ERR.reg : RegDef :=
  ⟨0x1400010, [], true, true, true, false,
   [⟨63, 32, .ro, 0, .any⟩,
    ⟨31, 8, .rz, 0, .any⟩,
    ⟨7, 4, .w1c, 0, .any⟩,
    ⟨3, 0, .w1c, 0, .any⟩]⟩

/-- Offset of MSC_ID (R382). -/
def MSC_ID.at (i : Nat) : Nat := 0x2000000 + 0x100000 * i
def MSC_ID.CAP_GIB (i : Nat) : FRef := ⟨MSC_ID.at i, 47, 40⟩
def MSC_ID.RES_GIB (i : Nat) : FRef := ⟨MSC_ID.at i, 39, 32⟩
def MSC_ID.STACK (i : Nat) : FRef := ⟨MSC_ID.at i, 3, 0⟩
/-- MSC_ID (R382). -/
def MSC_ID.reg : RegDef :=
  ⟨0x2000000, [(16, 0x100000)], true, false, false, false,
   [⟨63, 48, .rz, 0, .any⟩,
    ⟨47, 40, .ro, 0x60, .any⟩,
    ⟨39, 32, .ro, 4, .any⟩,
    ⟨31, 4, .rz, 0, .any⟩,
    ⟨3, 0, .ro, 0, .any⟩]⟩

/-- Offset of MSC_STATUS (R383). -/
def MSC_STATUS.at (i : Nat) : Nat := 0x2000008 + 0x100000 * i
def MSC_STATUS.RETRAINS (i : Nat) : FRef := ⟨MSC_STATUS.at i, 47, 32⟩
def MSC_STATUS.FAILED_ANY (i : Nat) : FRef := ⟨MSC_STATUS.at i, 6, 6⟩
def MSC_STATUS.RETRAINING (i : Nat) : FRef := ⟨MSC_STATUS.at i, 5, 5⟩
def MSC_STATUS.RT_CH (i : Nat) : FRef := ⟨MSC_STATUS.at i, 4, 0⟩
/-- MSC_STATUS (R383). -/
def MSC_STATUS.reg : RegDef :=
  ⟨0x2000008, [(16, 0x100000)], true, false, false, false,
   [⟨63, 48, .rz, 0, .any⟩,
    ⟨47, 32, .ro, 0, .any⟩,
    ⟨31, 7, .rz, 0, .any⟩,
    ⟨6, 6, .ro, 0, .any⟩,
    ⟨5, 5, .ro, 0, .any⟩,
    ⟨4, 0, .ro, 0, .any⟩]⟩

/-- Offset of MSC_TEMP (R384). -/
def MSC_TEMP.at (i : Nat) : Nat := 0x2000010 + 0x100000 * i
def MSC_TEMP.WIN_HI (i : Nat) : FRef := ⟨MSC_TEMP.at i, 47, 40⟩
def MSC_TEMP.WIN_LO (i : Nat) : FRef := ⟨MSC_TEMP.at i, 39, 32⟩
def MSC_TEMP.TMAX (i : Nat) : FRef := ⟨MSC_TEMP.at i, 23, 16⟩
def MSC_TEMP.TMIN (i : Nat) : FRef := ⟨MSC_TEMP.at i, 15, 8⟩
def MSC_TEMP.REF2X (i : Nat) : FRef := ⟨MSC_TEMP.at i, 1, 1⟩
def MSC_TEMP.WHOLD (i : Nat) : FRef := ⟨MSC_TEMP.at i, 0, 0⟩
/-- MSC_TEMP (R384). -/
def MSC_TEMP.reg : RegDef :=
  ⟨0x2000010, [(16, 0x100000)], true, false, false, false,
   [⟨63, 48, .rz, 0, .any⟩,
    ⟨47, 40, .ro, 0x64, .any⟩,
    ⟨39, 32, .ro, 0, .any⟩,
    ⟨31, 24, .rz, 0, .any⟩,
    ⟨23, 16, .ro, 0, .any⟩,
    ⟨15, 8, .ro, 0, .any⟩,
    ⟨7, 2, .rz, 0, .any⟩,
    ⟨1, 1, .ro, 0, .any⟩,
    ⟨0, 0, .ro, 0, .any⟩]⟩

/-- Offset of MSC_RETRAIN (R385). -/
def MSC_RETRAIN.at (i : Nat) : Nat := 0x2000018 + 0x100000 * i
def MSC_RETRAIN.GO (i : Nat) : FRef := ⟨MSC_RETRAIN.at i, 5, 5⟩
def MSC_RETRAIN.CH (i : Nat) : FRef := ⟨MSC_RETRAIN.at i, 4, 0⟩
/-- MSC_RETRAIN (R385). -/
def MSC_RETRAIN.reg : RegDef :=
  ⟨0x2000018, [(16, 0x100000)], true, true, true, false,
   [⟨63, 6, .rz, 0, .any⟩,
    ⟨5, 5, .wo, 0, .any⟩,
    ⟨4, 0, .wo, 0, .any⟩]⟩

/-- Offset of MSC_COPY (R386). -/
def MSC_COPY.at (i : Nat) : Nat := 0x2000020 + 0x100000 * i
def MSC_COPY.ENTRY (i : Nat) : FRef := ⟨MSC_COPY.at i, 43, 32⟩
def MSC_COPY.CP (i : Nat) : FRef := ⟨MSC_COPY.at i, 31, 16⟩
def MSC_COPY.ACTIVE (i : Nat) : FRef := ⟨MSC_COPY.at i, 0, 0⟩
/-- MSC_COPY (R386). -/
def MSC_COPY.reg : RegDef :=
  ⟨0x2000020, [(16, 0x100000)], true, false, false, false,
   [⟨63, 44, .rz, 0, .any⟩,
    ⟨43, 32, .ro, 0, .any⟩,
    ⟨31, 16, .ro, 0, .any⟩,
    ⟨15, 1, .rz, 0, .any⟩,
    ⟨0, 0, .ro, 0, .any⟩]⟩

/-- Offset of MSC_CH_STATUS (R387). -/
def MSC_CH_STATUS.at (i : Nat) (k : Nat) : Nat := 0x2000100 + 0x100000 * i + 0x8 * k
def MSC_CH_STATUS.LINK_CRC (i : Nat) (k : Nat) : FRef := ⟨MSC_CH_STATUS.at i k, 47, 32⟩
def MSC_CH_STATUS.TRAINS (i : Nat) (k : Nat) : FRef := ⟨MSC_CH_STATUS.at i k, 31, 16⟩
def MSC_CH_STATUS.FAILS (i : Nat) (k : Nat) : FRef := ⟨MSC_CH_STATUS.at i k, 3, 2⟩
def MSC_CH_STATUS.STATE (i : Nat) (k : Nat) : FRef := ⟨MSC_CH_STATUS.at i k, 1, 0⟩
/-- MSC_CH_STATUS (R387). -/
def MSC_CH_STATUS.reg : RegDef :=
  ⟨0x2000100, [(16, 0x100000), (32, 0x8)], true, false, false, false,
   [⟨63, 48, .rz, 0, .any⟩,
    ⟨47, 32, .ro, 0, .any⟩,
    ⟨31, 16, .ro, 0, .any⟩,
    ⟨15, 4, .rz, 0, .any⟩,
    ⟨3, 2, .ro, 0, .any⟩,
    ⟨1, 0, .ro, 0, .any⟩]⟩

/-- Offset of MSC_REDIR (R372). -/
def MSC_REDIR.at (i : Nat) (k : Nat) : Nat := 0x2010000 + 0x100000 * i + 0x8 * k
def MSC_REDIR.V (i : Nat) (k : Nat) : FRef := ⟨MSC_REDIR.at i k, 63, 63⟩
def MSC_REDIR.STATE (i : Nat) (k : Nat) : FRef := ⟨MSC_REDIR.at i k, 62, 61⟩
def MSC_REDIR.SIZE (i : Nat) (k : Nat) : FRef := ⟨MSC_REDIR.at i k, 60, 57⟩
def MSC_REDIR.SRC_CH (i : Nat) (k : Nat) : FRef := ⟨MSC_REDIR.at i k, 56, 52⟩
def MSC_REDIR.SRC_J (i : Nat) (k : Nat) : FRef := ⟨MSC_REDIR.at i k, 51, 32⟩
def MSC_REDIR.DST_CH (i : Nat) (k : Nat) : FRef := ⟨MSC_REDIR.at i k, 31, 27⟩
def MSC_REDIR.DST_R (i : Nat) (k : Nat) : FRef := ⟨MSC_REDIR.at i k, 26, 12⟩
/-- MSC_REDIR (R372). -/
def MSC_REDIR.reg : RegDef :=
  ⟨0x2010000, [(16, 0x100000), (4096, 0x8)], true, false, true, false,
   [⟨63, 63, .ro, 0, .any⟩,
    ⟨62, 61, .ro, 0, .any⟩,
    ⟨60, 57, .ro, 0, .any⟩,
    ⟨56, 52, .ro, 0, .any⟩,
    ⟨51, 32, .ro, 0, .any⟩,
    ⟨31, 27, .ro, 0, .any⟩,
    ⟨26, 12, .ro, 0, .any⟩,
    ⟨11, 0, .rz, 0, .any⟩]⟩

/-- Offset of MSC_GEN (R426). -/
def MSC_GEN.at (i : Nat) : Nat := 0x2001000 + 0x100000 * i
def MSC_GEN.GEN (i : Nat) : FRef := ⟨MSC_GEN.at i, 31, 0⟩
/-- MSC_GEN (R426). -/
def MSC_GEN.reg : RegDef :=
  ⟨0x2001000, [(16, 0x100000)], true, true, true, false,
   [⟨63, 32, .rz, 0, .any⟩,
    ⟨31, 0, .ro, 1, .any⟩]⟩

/-- Offset of MSC_SCRUB_CTL (R426). -/
def MSC_SCRUB_CTL.at (i : Nat) : Nat := 0x2001008 + 0x100000 * i
def MSC_SCRUB_CTL.TARGET_MS (i : Nat) : FRef := ⟨MSC_SCRUB_CTL.at i, 63, 32⟩
def MSC_SCRUB_CTL.FLOOR (i : Nat) : FRef := ⟨MSC_SCRUB_CTL.at i, 2, 1⟩
def MSC_SCRUB_CTL.EN (i : Nat) : FRef := ⟨MSC_SCRUB_CTL.at i, 0, 0⟩
/-- MSC_SCRUB_CTL (R426). -/
def MSC_SCRUB_CTL.reg : RegDef :=
  ⟨0x2001008, [(16, 0x100000)], true, true, true, false,
   [⟨63, 32, .rw, 0x3e8, .any⟩,
    ⟨31, 3, .rz, 0, .any⟩,
    ⟨2, 1, .rw, 2, .any⟩,
    ⟨0, 0, .rw, 1, .any⟩]⟩

/-- Offset of MSC_SCRUB_LAP (R426). -/
def MSC_SCRUB_LAP.at (i : Nat) : Nat := 0x2001010 + 0x100000 * i
def MSC_SCRUB_LAP.LAST_MS (i : Nat) : FRef := ⟨MSC_SCRUB_LAP.at i, 63, 32⟩
def MSC_SCRUB_LAP.LAPS (i : Nat) : FRef := ⟨MSC_SCRUB_LAP.at i, 31, 16⟩
/-- MSC_SCRUB_LAP (R426). -/
def MSC_SCRUB_LAP.reg : RegDef :=
  ⟨0x2001010, [(16, 0x100000)], true, true, true, false,
   [⟨63, 32, .ro, 0, .any⟩,
    ⟨31, 16, .ro, 0, .any⟩,
    ⟨15, 0, .rz, 0, .any⟩]⟩

/-- Offset of MSC_SCRUB_RESULT (R426). -/
def MSC_SCRUB_RESULT.at (i : Nat) : Nat := 0x2001018 + 0x100000 * i
def MSC_SCRUB_RESULT.CE_PAGES (i : Nat) : FRef := ⟨MSC_SCRUB_RESULT.at i, 63, 32⟩
def MSC_SCRUB_RESULT.UE_PAGES (i : Nat) : FRef := ⟨MSC_SCRUB_RESULT.at i, 31, 0⟩
/-- MSC_SCRUB_RESULT (R426). -/
def MSC_SCRUB_RESULT.reg : RegDef :=
  ⟨0x2001018, [(16, 0x100000)], true, true, true, false,
   [⟨63, 32, .ro, 0, .any⟩,
    ⟨31, 0, .ro, 0, .any⟩]⟩

/-- Offset of MSC_ECC_COUNT (R426). -/
def MSC_ECC_COUNT.at (i : Nat) : Nat := 0x2001020 + 0x100000 * i
def MSC_ECC_COUNT.CE (i : Nat) : FRef := ⟨MSC_ECC_COUNT.at i, 63, 32⟩
def MSC_ECC_COUNT.UE (i : Nat) : FRef := ⟨MSC_ECC_COUNT.at i, 31, 0⟩
/-- MSC_ECC_COUNT (R426). -/
def MSC_ECC_COUNT.reg : RegDef :=
  ⟨0x2001020, [(16, 0x100000)], true, true, true, false,
   [⟨63, 32, .ro, 0, .any⟩,
    ⟨31, 0, .ro, 0, .any⟩]⟩

/-- Offset of MSC_POISONED (R426). -/
def MSC_POISONED.at (i : Nat) : Nat := 0x2001028 + 0x100000 * i
def MSC_POISONED.PAGES (i : Nat) : FRef := ⟨MSC_POISONED.at i, 31, 0⟩
/-- MSC_POISONED (R426). -/
def MSC_POISONED.reg : RegDef :=
  ⟨0x2001028, [(16, 0x100000)], true, true, true, false,
   [⟨63, 32, .rz, 0, .any⟩,
    ⟨31, 0, .ro, 0, .any⟩]⟩

/-- Offset of VRG_ID (R229). -/
def VRG_ID.at (i : Nat) : Nat := 0x3000000 + 0x100000 * i
def VRG_ID.FW_VER (i : Nat) : FRef := ⟨VRG_ID.at i, 47, 32⟩
def VRG_ID.MODE (i : Nat) : FRef := ⟨VRG_ID.at i, 31, 30⟩
def VRG_ID.STACK (i : Nat) : FRef := ⟨VRG_ID.at i, 3, 0⟩
/-- VRG_ID (R229). -/
def VRG_ID.reg : RegDef :=
  ⟨0x3000000, [(16, 0x100000)], true, false, false, false,
   [⟨63, 48, .rz, 0, .any⟩,
    ⟨47, 32, .ro, 0, .any⟩,
    ⟨31, 30, .ro, 0, .any⟩,
    ⟨29, 4, .rz, 0, .any⟩,
    ⟨3, 0, .ro, 0, .any⟩]⟩

/-- Offset of VRG_CTL (R230). -/
def VRG_CTL.at (i : Nat) : Nat := 0x3000008 + 0x100000 * i
def VRG_CTL.PLAIN (i : Nat) : FRef := ⟨VRG_CTL.at i, 1, 1⟩
def VRG_CTL.RETIRE (i : Nat) : FRef := ⟨VRG_CTL.at i, 0, 0⟩
/-- VRG_CTL (R230). -/
def VRG_CTL.reg : RegDef :=
  ⟨0x3000008, [(16, 0x100000)], false, false, true, false,
   [⟨63, 2, .rz, 0, .any⟩,
    ⟨1, 1, .rwb, 0, .any⟩,
    ⟨0, 0, .rw, 0, .any⟩]⟩

/-- Offset of VRG_STATUS (R231). -/
def VRG_STATUS.at (i : Nat) : Nat := 0x3000010 + 0x100000 * i
def VRG_STATUS.CMD_SEQ (i : Nat) : FRef := ⟨VRG_STATUS.at i, 47, 32⟩
def VRG_STATUS.LAST_CODE (i : Nat) : FRef := ⟨VRG_STATUS.at i, 31, 24⟩
def VRG_STATUS.CTX_BUSY (i : Nat) : FRef := ⟨VRG_STATUS.at i, 11, 8⟩
def VRG_STATUS.HALTS (i : Nat) : FRef := ⟨VRG_STATUS.at i, 3, 3⟩
def VRG_STATUS.CFG_REJECT (i : Nat) : FRef := ⟨VRG_STATUS.at i, 2, 2⟩
def VRG_STATUS.DOMAIN_OFF (i : Nat) : FRef := ⟨VRG_STATUS.at i, 1, 1⟩
def VRG_STATUS.BUSY (i : Nat) : FRef := ⟨VRG_STATUS.at i, 0, 0⟩
/-- VRG_STATUS (R231). -/
def VRG_STATUS.reg : RegDef :=
  ⟨0x3000010, [(16, 0x100000)], false, true, true, false,
   [⟨63, 48, .rz, 0, .any⟩,
    ⟨47, 32, .ro, 0, .any⟩,
    ⟨31, 24, .ro, 0, .any⟩,
    ⟨23, 12, .rz, 0, .any⟩,
    ⟨11, 8, .ro, 0, .any⟩,
    ⟨7, 4, .rz, 0, .any⟩,
    ⟨3, 3, .ro, 0, .any⟩,
    ⟨2, 2, .w1c, 0, .any⟩,
    ⟨1, 1, .ro, 1, .any⟩,
    ⟨0, 0, .ro, 0, .any⟩]⟩

/-- Offset of VRG_ERR (R232). -/
def VRG_ERR.at (i : Nat) : Nat := 0x3000018 + 0x100000 * i
def VRG_ERR.VPC_TRAP (i : Nat) : FRef := ⟨VRG_ERR.at i, 7, 7⟩
def VRG_ERR.VPC_IMEM_UE (i : Nat) : FRef := ⟨VRG_ERR.at i, 6, 6⟩
def VRG_ERR.VPC_DMEM_UE (i : Nat) : FRef := ⟨VRG_ERR.at i, 5, 5⟩
def VRG_ERR.SLOT_UE (i : Nat) : FRef := ⟨VRG_ERR.at i, 4, 4⟩
def VRG_ERR.BUF_UE (i : Nat) : FRef := ⟨VRG_ERR.at i, 3, 3⟩
def VRG_ERR.LANE_UE (i : Nat) : FRef := ⟨VRG_ERR.at i, 2, 2⟩
def VRG_ERR.CE (i : Nat) : FRef := ⟨VRG_ERR.at i, 1, 1⟩
def VRG_ERR.MULTI (i : Nat) : FRef := ⟨VRG_ERR.at i, 0, 0⟩
/-- VRG_ERR (R232). -/
def VRG_ERR.reg : RegDef :=
  ⟨0x3000018, [(16, 0x100000)], false, true, true, false,
   [⟨63, 8, .rz, 0, .any⟩,
    ⟨7, 7, .w1c, 0, .any⟩,
    ⟨6, 6, .w1c, 0, .any⟩,
    ⟨5, 5, .w1c, 0, .any⟩,
    ⟨4, 4, .w1c, 0, .any⟩,
    ⟨3, 3, .w1c, 0, .any⟩,
    ⟨2, 2, .w1c, 0, .any⟩,
    ⟨1, 1, .w1c, 0, .any⟩,
    ⟨0, 0, .w1c, 0, .any⟩]⟩

/-- Offset of VRG_JOB_CFG (R273). -/
def VRG_JOB_CFG.at (i : Nat) (k : Nat) : Nat := 0x3000200 + 0x100000 * i + 0x8 * k
def VRG_JOB_CFG.BRK_TAG (i : Nat) (k : Nat) : FRef := ⟨VRG_JOB_CFG.at i k, 31, 24⟩
def VRG_JOB_CFG.BRK_EN (i : Nat) (k : Nat) : FRef := ⟨VRG_JOB_CFG.at i k, 23, 23⟩
def VRG_JOB_CFG.READ_AHEAD (i : Nat) (k : Nat) : FRef := ⟨VRG_JOB_CFG.at i k, 15, 8⟩
/-- VRG_JOB_CFG (R273). -/
def VRG_JOB_CFG.reg : RegDef :=
  ⟨0x3000200, [(16, 0x100000), (64, 0x8)], false, true, true, false,
   [⟨63, 32, .rz, 0, .any⟩,
    ⟨31, 24, .rwl, 0, .any⟩,
    ⟨23, 23, .rwl, 0, .any⟩,
    ⟨22, 16, .rz, 0, .any⟩,
    ⟨15, 8, .rwb, 8, .clamp 2 16⟩,
    ⟨7, 0, .rz, 0, .any⟩]⟩

/-- Offset of VRG_JOB_SLOTS (R233). -/
def VRG_JOB_SLOTS.at (i : Nat) (k : Nat) : Nat := 0x3002000 + 0x100000 * i + 0x8 * k
def VRG_JOB_SLOTS.COUNT (i : Nat) (k : Nat) : FRef := ⟨VRG_JOB_SLOTS.at i k, 32, 16⟩
def VRG_JOB_SLOTS.BASE (i : Nat) (k : Nat) : FRef := ⟨VRG_JOB_SLOTS.at i k, 15, 0⟩
/-- VRG_JOB_SLOTS (R233). -/
def VRG_JOB_SLOTS.reg : RegDef :=
  ⟨0x3002000, [(16, 0x100000), (64, 0x8)], false, false, false, false,
   [⟨63, 33, .rz, 0, .any⟩,
    ⟨32, 16, .ro, 0, .any⟩,
    ⟨15, 0, .ro, 0, .any⟩]⟩

/-- Offset of VRG_KV_SAT (R234). -/
def VRG_KV_SAT.at (i : Nat) (k : Nat) : Nat := 0x3002200 + 0x100000 * i + 0x8 * k
def VRG_KV_SAT.COUNT (i : Nat) (k : Nat) : FRef := ⟨VRG_KV_SAT.at i k, 31, 0⟩
/-- VRG_KV_SAT (R234). -/
def VRG_KV_SAT.reg : RegDef :=
  ⟨0x3002200, [(16, 0x100000), (64, 0x8)], false, false, false, false,
   [⟨63, 32, .rz, 0, .any⟩,
    ⟨31, 0, .ro, 0, .any⟩]⟩

/-- Offset of VRG_HALT_INFO (R235). -/
def VRG_HALT_INFO.at (i : Nat) (k : Nat) : Nat := 0x3004000 + 0x100000 * i + 0x10 * k
def VRG_HALT_INFO.VALID (i : Nat) (k : Nat) : FRef := ⟨VRG_HALT_INFO.at i k, 63, 63⟩
def VRG_HALT_INFO.RESUME (i : Nat) (k : Nat) : FRef := ⟨VRG_HALT_INFO.at i k, 62, 62⟩
def VRG_HALT_INFO.SKIP_SIGNAL (i : Nat) (k : Nat) : FRef := ⟨VRG_HALT_INFO.at i k, 61, 61⟩
def VRG_HALT_INFO.REASON (i : Nat) (k : Nat) : FRef := ⟨VRG_HALT_INFO.at i k, 55, 48⟩
def VRG_HALT_INFO.DIR (i : Nat) (k : Nat) : FRef := ⟨VRG_HALT_INFO.at i k, 47, 46⟩
def VRG_HALT_INFO.KIND (i : Nat) (k : Nat) : FRef := ⟨VRG_HALT_INFO.at i k, 45, 40⟩
def VRG_HALT_INFO.ENTRY (i : Nat) (k : Nat) : FRef := ⟨VRG_HALT_INFO.at i k, 39, 0⟩
/-- VRG_HALT_INFO (R235). -/
def VRG_HALT_INFO.reg : RegDef :=
  ⟨0x3004000, [(16, 0x100000), (200, 0x10)], false, true, true, false,
   [⟨63, 63, .ro, 0, .any⟩,
    ⟨62, 62, .w1s, 0, .any⟩,
    ⟨61, 61, .rw, 0, .any⟩,
    ⟨60, 56, .rz, 0, .any⟩,
    ⟨55, 48, .ro, 0, .any⟩,
    ⟨47, 46, .ro, 0, .any⟩,
    ⟨45, 40, .ro, 0, .any⟩,
    ⟨39, 0, .ro, 0, .any⟩]⟩

/-- Offset of VRG_HALT_ADDR (R236). -/
def VRG_HALT_ADDR.at (i : Nat) (k : Nat) : Nat := 0x3004008 + 0x100000 * i + 0x10 * k
def VRG_HALT_ADDR.ADDR (i : Nat) (k : Nat) : FRef := ⟨VRG_HALT_ADDR.at i k, 47, 0⟩
/-- VRG_HALT_ADDR (R236). -/
def VRG_HALT_ADDR.reg : RegDef :=
  ⟨0x3004008, [(16, 0x100000), (200, 0x10)], false, false, false, false,
   [⟨63, 48, .rz, 0, .any⟩,
    ⟨47, 0, .ro, 0, .any⟩]⟩

/-- Offset of VRG_PERF_CTL (R181). -/
def VRG_PERF_CTL.at (i : Nat) : Nat := 0x3001000 + 0x100000 * i
def VRG_PERF_CTL.CLEAR (i : Nat) : FRef := ⟨VRG_PERF_CTL.at i, 2, 2⟩
def VRG_PERF_CTL.FREEZE (i : Nat) : FRef := ⟨VRG_PERF_CTL.at i, 1, 1⟩
def VRG_PERF_CTL.ENABLE (i : Nat) : FRef := ⟨VRG_PERF_CTL.at i, 0, 0⟩
/-- VRG_PERF_CTL (R181). -/
def VRG_PERF_CTL.reg : RegDef :=
  ⟨0x3001000, [(16, 0x100000)], false, true, true, false,
   [⟨63, 3, .rz, 0, .any⟩,
    ⟨2, 2, .wo, 0, .any⟩,
    ⟨1, 1, .rwl, 0, .any⟩,
    ⟨0, 0, .rwl, 0, .any⟩]⟩

/-- Offset of VRG_PERF_SEL (R182). -/
def VRG_PERF_SEL.at (i : Nat) (k : Nat) : Nat := 0x3001040 + 0x100000 * i + 0x8 * k
def VRG_PERF_SEL.EVENT (i : Nat) (k : Nat) : FRef := ⟨VRG_PERF_SEL.at i k, 7, 0⟩
/-- VRG_PERF_SEL (R182). -/
def VRG_PERF_SEL.reg : RegDef :=
  ⟨0x3001040, [(16, 0x100000), (8, 0x8)], false, true, true, false,
   [⟨63, 8, .rz, 0, .any⟩,
    ⟨7, 0, .rwl, 0, .within 0 14⟩]⟩

/-- Offset of VRG_PERF_CNT (R183). -/
def VRG_PERF_CNT.at (i : Nat) (k : Nat) : Nat := 0x3001080 + 0x100000 * i + 0x8 * k
def VRG_PERF_CNT.OVF (i : Nat) (k : Nat) : FRef := ⟨VRG_PERF_CNT.at i k, 63, 63⟩
def VRG_PERF_CNT.COUNT (i : Nat) (k : Nat) : FRef := ⟨VRG_PERF_CNT.at i k, 47, 0⟩
/-- VRG_PERF_CNT (R183). -/
def VRG_PERF_CNT.reg : RegDef :=
  ⟨0x3001080, [(16, 0x100000), (8, 0x8)], false, true, true, false,
   [⟨63, 63, .w1c, 0, .any⟩,
    ⟨62, 48, .rz, 0, .any⟩,
    ⟨47, 0, .rwl, 0, .any⟩]⟩

/-- Offset of ANV_ID (R175). -/
def ANV_ID.at (i : Nat) : Nat := 0x4000000 + 0x40000 * i
def ANV_ID.STATE (i : Nat) : FRef := ⟨ANV_ID.at i, 31, 30⟩
def ANV_ID.JOB_V (i : Nat) : FRef := ⟨ANV_ID.at i, 29, 29⟩
def ANV_ID.JOB (i : Nat) : FRef := ⟨ANV_ID.at i, 28, 23⟩
def ANV_ID.GROUP (i : Nat) : FRef := ⟨ANV_ID.at i, 22, 20⟩
def ANV_ID.FIELD (i : Nat) : FRef := ⟨ANV_ID.at i, 19, 18⟩
def ANV_ID.LOGICAL (i : Nat) : FRef := ⟨ANV_ID.at i, 15, 8⟩
def ANV_ID.PHYS (i : Nat) : FRef := ⟨ANV_ID.at i, 7, 0⟩
/-- ANV_ID (R175). -/
def ANV_ID.reg : RegDef :=
  ⟨0x4000000, [(200, 0x40000)], true, false, false, false,
   [⟨63, 32, .rz, 0, .any⟩,
    ⟨31, 30, .ro, 0, .any⟩,
    ⟨29, 29, .ro, 0, .any⟩,
    ⟨28, 23, .ro, 0, .any⟩,
    ⟨22, 20, .ro, 0, .any⟩,
    ⟨19, 18, .ro, 0, .any⟩,
    ⟨17, 16, .rz, 0, .any⟩,
    ⟨15, 8, .ro, 0, .any⟩,
    ⟨7, 0, .ro, 0, .any⟩]⟩

/-- Offset of ANV_STATUS (R176). -/
def ANV_STATUS.at (i : Nat) : Nat := 0x4000008 + 0x40000 * i
def ANV_STATUS.HALTED (i : Nat) : FRef := ⟨ANV_STATUS.at i, 15, 15⟩
def ANV_STATUS.SAVING (i : Nat) : FRef := ⟨ANV_STATUS.at i, 14, 14⟩
def ANV_STATUS.GROUP_OFF (i : Nat) : FRef := ⟨ANV_STATUS.at i, 13, 13⟩
def ANV_STATUS.PIL_RUN (i : Nat) : FRef := ⟨ANV_STATUS.at i, 12, 12⟩
def ANV_STATUS.MXE_BUSY (i : Nat) : FRef := ⟨ANV_STATUS.at i, 11, 11⟩
def ANV_STATUS.VXE_BUSY (i : Nat) : FRef := ⟨ANV_STATUS.at i, 10, 10⟩
def ANV_STATUS.SCB_WAIT (i : Nat) : FRef := ⟨ANV_STATUS.at i, 9, 9⟩
def ANV_STATUS.NET_BP (i : Nat) : FRef := ⟨ANV_STATUS.at i, 8, 8⟩
def ANV_STATUS.DMA_BUSY (i : Nat) : FRef := ⟨ANV_STATUS.at i, 7, 0⟩
/-- ANV_STATUS (R176). -/
def ANV_STATUS.reg : RegDef :=
  ⟨0x4000008, [(200, 0x40000)], false, false, false, false,
   [⟨63, 16, .rz, 0, .any⟩,
    ⟨15, 15, .ro, 0, .any⟩,
    ⟨14, 14, .ro, 0, .any⟩,
    ⟨13, 13, .ro, 1, .any⟩,
    ⟨12, 12, .ro, 0, .any⟩,
    ⟨11, 11, .ro, 0, .any⟩,
    ⟨10, 10, .ro, 0, .any⟩,
    ⟨9, 9, .ro, 0, .any⟩,
    ⟨8, 8, .ro, 0, .any⟩,
    ⟨7, 0, .ro, 0, .any⟩]⟩

/-- Offset of ANV_MXE_STATUS (R177). -/
def ANV_MXE_STATUS.at (i : Nat) : Nat := 0x4000010 + 0x40000 * i
def ANV_MXE_STATUS.CMD_SEQ (i : Nat) : FRef := ⟨ANV_MXE_STATUS.at i, 47, 32⟩
def ANV_MXE_STATUS.LAST_CODE (i : Nat) : FRef := ⟨ANV_MXE_STATUS.at i, 31, 24⟩
def ANV_MXE_STATUS.CFG_REJECT (i : Nat) : FRef := ⟨ANV_MXE_STATUS.at i, 2, 2⟩
def ANV_MXE_STATUS.SHADOW_VALID (i : Nat) : FRef := ⟨ANV_MXE_STATUS.at i, 1, 1⟩
def ANV_MXE_STATUS.BUSY (i : Nat) : FRef := ⟨ANV_MXE_STATUS.at i, 0, 0⟩
/-- ANV_MXE_STATUS (R177). -/
def ANV_MXE_STATUS.reg : RegDef :=
  ⟨0x4000010, [(200, 0x40000)], false, true, true, false,
   [⟨63, 48, .rz, 0, .any⟩,
    ⟨47, 32, .ro, 0, .any⟩,
    ⟨31, 24, .ro, 0, .any⟩,
    ⟨23, 3, .rz, 0, .any⟩,
    ⟨2, 2, .w1c, 0, .any⟩,
    ⟨1, 1, .ro, 0, .any⟩,
    ⟨0, 0, .ro, 0, .any⟩]⟩

/-- Offset of ANV_VXE_STATUS (R177). -/
def ANV_VXE_STATUS.at (i : Nat) : Nat := 0x4000018 + 0x40000 * i
def ANV_VXE_STATUS.CMD_SEQ (i : Nat) : FRef := ⟨ANV_VXE_STATUS.at i, 47, 32⟩
def ANV_VXE_STATUS.LAST_CODE (i : Nat) : FRef := ⟨ANV_VXE_STATUS.at i, 31, 24⟩
def ANV_VXE_STATUS.CFG_REJECT (i : Nat) : FRef := ⟨ANV_VXE_STATUS.at i, 2, 2⟩
def ANV_VXE_STATUS.SHADOW_VALID (i : Nat) : FRef := ⟨ANV_VXE_STATUS.at i, 1, 1⟩
def ANV_VXE_STATUS.BUSY (i : Nat) : FRef := ⟨ANV_VXE_STATUS.at i, 0, 0⟩
/-- ANV_VXE_STATUS (R177). -/
def ANV_VXE_STATUS.reg : RegDef :=
  ⟨0x4000018, [(200, 0x40000)], false, true, true, false,
   [⟨63, 48, .rz, 0, .any⟩,
    ⟨47, 32, .ro, 0, .any⟩,
    ⟨31, 24, .ro, 0, .any⟩,
    ⟨23, 3, .rz, 0, .any⟩,
    ⟨2, 2, .w1c, 0, .any⟩,
    ⟨1, 1, .ro, 0, .any⟩,
    ⟨0, 0, .ro, 0, .any⟩]⟩

/-- Offset of ANV_ERR (R178). -/
def ANV_ERR.at (i : Nat) : Nat := 0x4000020 + 0x40000 * i
def ANV_ERR.NET_UE (i : Nat) : FRef := ⟨ANV_ERR.at i, 7, 7⟩
def ANV_ERR.DMEM_UE (i : Nat) : FRef := ⟨ANV_ERR.at i, 6, 6⟩
def ANV_ERR.IMEM_UE (i : Nat) : FRef := ⟨ANV_ERR.at i, 5, 5⟩
def ANV_ERR.SPM_UE (i : Nat) : FRef := ⟨ANV_ERR.at i, 4, 4⟩
def ANV_ERR.ACC_UE (i : Nat) : FRef := ⟨ANV_ERR.at i, 3, 3⟩
def ANV_ERR.VXE_UE (i : Nat) : FRef := ⟨ANV_ERR.at i, 2, 2⟩
def ANV_ERR.SPM_CE (i : Nat) : FRef := ⟨ANV_ERR.at i, 1, 1⟩
def ANV_ERR.MULTI (i : Nat) : FRef := ⟨ANV_ERR.at i, 0, 0⟩
/-- ANV_ERR (R178). -/
def ANV_ERR.reg : RegDef :=
  ⟨0x4000020, [(200, 0x40000)], false, true, true, false,
   [⟨63, 8, .rz, 0, .any⟩,
    ⟨7, 7, .w1c, 0, .any⟩,
    ⟨6, 6, .w1c, 0, .any⟩,
    ⟨5, 5, .w1c, 0, .any⟩,
    ⟨4, 4, .w1c, 0, .any⟩,
    ⟨3, 3, .w1c, 0, .any⟩,
    ⟨2, 2, .w1c, 0, .any⟩,
    ⟨1, 1, .w1c, 0, .any⟩,
    ⟨0, 0, .w1c, 0, .any⟩]⟩

/-- Offset of ANV_ERR_INFO (R179). -/
def ANV_ERR_INFO.at (i : Nat) : Nat := 0x4000028 + 0x40000 * i
def ANV_ERR_INFO.UNIT (i : Nat) : FRef := ⟨ANV_ERR_INFO.at i, 63, 60⟩
def ANV_ERR_INFO.REQ (i : Nat) : FRef := ⟨ANV_ERR_INFO.at i, 59, 56⟩
def ANV_ERR_INFO.OFFSET (i : Nat) : FRef := ⟨ANV_ERR_INFO.at i, 20, 0⟩
/-- ANV_ERR_INFO (R179). -/
def ANV_ERR_INFO.reg : RegDef :=
  ⟨0x4000028, [(200, 0x40000)], false, false, false, false,
   [⟨63, 60, .ro, 0, .any⟩,
    ⟨59, 56, .ro, 0, .any⟩,
    ⟨55, 21, .rz, 0, .any⟩,
    ⟨20, 0, .ro, 0, .any⟩]⟩

/-- Offset of ANV_ECC_CE (R180). -/
def ANV_ECC_CE.at (i : Nat) : Nat := 0x4000030 + 0x40000 * i
def ANV_ECC_CE.COUNT (i : Nat) : FRef := ⟨ANV_ECC_CE.at i, 31, 0⟩
/-- ANV_ECC_CE (R180). -/
def ANV_ECC_CE.reg : RegDef :=
  ⟨0x4000030, [(200, 0x40000)], true, false, false, false,
   [⟨63, 32, .rz, 0, .any⟩,
    ⟨31, 0, .ro, 0, .any⟩]⟩

/-- Offset of ANV_PERF_CTL (R181). -/
def ANV_PERF_CTL.at (i : Nat) : Nat := 0x4001000 + 0x40000 * i
def ANV_PERF_CTL.CLEAR (i : Nat) : FRef := ⟨ANV_PERF_CTL.at i, 2, 2⟩
def ANV_PERF_CTL.FREEZE (i : Nat) : FRef := ⟨ANV_PERF_CTL.at i, 1, 1⟩
def ANV_PERF_CTL.ENABLE (i : Nat) : FRef := ⟨ANV_PERF_CTL.at i, 0, 0⟩
/-- ANV_PERF_CTL (R181). -/
def ANV_PERF_CTL.reg : RegDef :=
  ⟨0x4001000, [(200, 0x40000)], false, true, true, false,
   [⟨63, 3, .rz, 0, .any⟩,
    ⟨2, 2, .wo, 0, .any⟩,
    ⟨1, 1, .rwl, 0, .any⟩,
    ⟨0, 0, .rwl, 0, .any⟩]⟩

/-- Offset of ANV_PERF_SEL (R182). -/
def ANV_PERF_SEL.at (i : Nat) (k : Nat) : Nat := 0x4001040 + 0x40000 * i + 0x8 * k
def ANV_PERF_SEL.EVENT (i : Nat) (k : Nat) : FRef := ⟨ANV_PERF_SEL.at i k, 7, 0⟩
/-- ANV_PERF_SEL (R182). -/
def ANV_PERF_SEL.reg : RegDef :=
  ⟨0x4001040, [(200, 0x40000), (8, 0x8)], false, true, true, false,
   [⟨63, 8, .rz, 0, .any⟩,
    ⟨7, 0, .rwl, 0, .within 0 14⟩]⟩

/-- Offset of ANV_PERF_CNT (R183). -/
def ANV_PERF_CNT.at (i : Nat) (k : Nat) : Nat := 0x4001080 + 0x40000 * i + 0x8 * k
def ANV_PERF_CNT.OVF (i : Nat) (k : Nat) : FRef := ⟨ANV_PERF_CNT.at i k, 63, 63⟩
def ANV_PERF_CNT.COUNT (i : Nat) (k : Nat) : FRef := ⟨ANV_PERF_CNT.at i k, 47, 0⟩
/-- ANV_PERF_CNT (R183). -/
def ANV_PERF_CNT.reg : RegDef :=
  ⟨0x4001080, [(200, 0x40000), (8, 0x8)], false, true, true, false,
   [⟨63, 63, .w1c, 0, .any⟩,
    ⟨62, 48, .rz, 0, .any⟩,
    ⟨47, 0, .rwl, 0, .any⟩]⟩

/-- Offset of ANV_SCB_TOKEN (R185). -/
def ANV_SCB_TOKEN.at (i : Nat) (k : Nat) : Nat := 0x4002000 + 0x40000 * i + 0x8 * k
def ANV_SCB_TOKEN.VALUE (i : Nat) (k : Nat) : FRef := ⟨ANV_SCB_TOKEN.at i k, 15, 0⟩
/-- ANV_SCB_TOKEN (R185). -/
def ANV_SCB_TOKEN.reg : RegDef :=
  ⟨0x4002000, [(200, 0x40000), (256, 0x8)], false, false, false, false,
   [⟨63, 16, .rz, 0, .any⟩,
    ⟨15, 0, .ro, 0, .any⟩]⟩

/-- Offset of ANV_QSTAT (R281). -/
def ANV_QSTAT.at (i : Nat) (k : Nat) : Nat := 0x4004000 + 0x40000 * i + 0x8 * k
def ANV_QSTAT.STARTED (i : Nat) (k : Nat) : FRef := ⟨ANV_QSTAT.at i k, 47, 32⟩
def ANV_QSTAT.PUSHED (i : Nat) (k : Nat) : FRef := ⟨ANV_QSTAT.at i k, 31, 16⟩
def ANV_QSTAT.HALTED (i : Nat) (k : Nat) : FRef := ⟨ANV_QSTAT.at i k, 15, 15⟩
def ANV_QSTAT.BRK (i : Nat) (k : Nat) : FRef := ⟨ANV_QSTAT.at i k, 14, 14⟩
def ANV_QSTAT.WAIT (i : Nat) (k : Nat) : FRef := ⟨ANV_QSTAT.at i k, 13, 13⟩
def ANV_QSTAT.ORDER_WAIT (i : Nat) (k : Nat) : FRef := ⟨ANV_QSTAT.at i k, 12, 12⟩
def ANV_QSTAT.DEST_FULL (i : Nat) (k : Nat) : FRef := ⟨ANV_QSTAT.at i k, 11, 11⟩
def ANV_QSTAT.DEPTH (i : Nat) (k : Nat) : FRef := ⟨ANV_QSTAT.at i k, 5, 0⟩
/-- ANV_QSTAT (R281). -/
def ANV_QSTAT.reg : RegDef :=
  ⟨0x4004000, [(200, 0x40000), (27, 0x8)], false, false, false, false,
   [⟨63, 48, .rz, 0, .any⟩,
    ⟨47, 32, .ro, 0, .any⟩,
    ⟨31, 16, .ro, 0, .any⟩,
    ⟨15, 15, .ro, 0, .any⟩,
    ⟨14, 14, .ro, 0, .any⟩,
    ⟨13, 13, .ro, 0, .any⟩,
    ⟨12, 12, .ro, 0, .any⟩,
    ⟨11, 11, .ro, 0, .any⟩,
    ⟨10, 6, .rz, 0, .any⟩,
    ⟨5, 0, .ro, 0, .any⟩]⟩

/-- Offset of ANV_MXE_CFG (R273). -/
def ANV_MXE_CFG.at (i : Nat) : Nat := 0x4004100 + 0x40000 * i
def ANV_MXE_CFG.BRK_TAG (i : Nat) : FRef := ⟨ANV_MXE_CFG.at i, 31, 24⟩
def ANV_MXE_CFG.BRK_EN (i : Nat) : FRef := ⟨ANV_MXE_CFG.at i, 23, 23⟩
def ANV_MXE_CFG.READ_AHEAD (i : Nat) : FRef := ⟨ANV_MXE_CFG.at i, 15, 8⟩
/-- ANV_MXE_CFG (R273). -/
def ANV_MXE_CFG.reg : RegDef :=
  ⟨0x4004100, [(200, 0x40000)], false, true, true, false,
   [⟨63, 32, .rz, 0, .any⟩,
    ⟨31, 24, .rwl, 0, .any⟩,
    ⟨23, 23, .rwl, 0, .any⟩,
    ⟨22, 16, .rz, 0, .any⟩,
    ⟨15, 8, .rwb, 0x20, .clamp 8 32⟩,
    ⟨7, 0, .rz, 0, .any⟩]⟩

/-- Offset of ANV_VXE_CFG (R273). -/
def ANV_VXE_CFG.at (i : Nat) : Nat := 0x4004108 + 0x40000 * i
def ANV_VXE_CFG.BRK_TAG (i : Nat) : FRef := ⟨ANV_VXE_CFG.at i, 31, 24⟩
def ANV_VXE_CFG.BRK_EN (i : Nat) : FRef := ⟨ANV_VXE_CFG.at i, 23, 23⟩
def ANV_VXE_CFG.READ_AHEAD (i : Nat) : FRef := ⟨ANV_VXE_CFG.at i, 15, 8⟩
/-- ANV_VXE_CFG (R273). -/
def ANV_VXE_CFG.reg : RegDef :=
  ⟨0x4004108, [(200, 0x40000)], false, true, true, false,
   [⟨63, 32, .rz, 0, .any⟩,
    ⟨31, 24, .rwl, 0, .any⟩,
    ⟨23, 23, .rwl, 0, .any⟩,
    ⟨22, 16, .rz, 0, .any⟩,
    ⟨15, 8, .rwb, 0x10, .clamp 4 16⟩,
    ⟨7, 0, .rz, 0, .any⟩]⟩

/-- Offset of ANV_DMA_CTL (R458). -/
def ANV_DMA_CTL.at (i : Nat) (k : Nat) : Nat := 0x4008000 + 0x40000 * i + 0x800 * k
def ANV_DMA_CTL.EN (i : Nat) (k : Nat) : FRef := ⟨ANV_DMA_CTL.at i k, 0, 0⟩
/-- ANV_DMA_CTL (R458). -/
def ANV_DMA_CTL.reg : RegDef :=
  ⟨0x4008000, [(200, 0x40000), (8, 0x800)], true, true, true, false,
   [⟨63, 1, .rz, 0, .any⟩,
    ⟨0, 0, .rw, 1, .any⟩]⟩

/-- Offset of ANV_DMA_STATUS (R459). -/
def ANV_DMA_STATUS.at (i : Nat) (k : Nat) : Nat := 0x4008008 + 0x40000 * i + 0x800 * k
def ANV_DMA_STATUS.CMD_SEQ (i : Nat) (k : Nat) : FRef := ⟨ANV_DMA_STATUS.at i k, 47, 32⟩
def ANV_DMA_STATUS.LAST_CODE (i : Nat) (k : Nat) : FRef := ⟨ANV_DMA_STATUS.at i k, 31, 24⟩
def ANV_DMA_STATUS.HALTED (i : Nat) (k : Nat) : FRef := ⟨ANV_DMA_STATUS.at i k, 7, 7⟩
def ANV_DMA_STATUS.DISABLED (i : Nat) (k : Nat) : FRef := ⟨ANV_DMA_STATUS.at i k, 6, 6⟩
def ANV_DMA_STATUS.HELD (i : Nat) (k : Nat) : FRef := ⟨ANV_DMA_STATUS.at i k, 5, 4⟩
def ANV_DMA_STATUS.BUSY (i : Nat) (k : Nat) : FRef := ⟨ANV_DMA_STATUS.at i k, 0, 0⟩
/-- ANV_DMA_STATUS (R459). -/
def ANV_DMA_STATUS.reg : RegDef :=
  ⟨0x4008008, [(200, 0x40000), (8, 0x800)], false, false, false, false,
   [⟨63, 48, .rz, 0, .any⟩,
    ⟨47, 32, .ro, 0, .any⟩,
    ⟨31, 24, .ro, 0, .any⟩,
    ⟨23, 8, .rz, 0, .any⟩,
    ⟨7, 7, .ro, 0, .any⟩,
    ⟨6, 6, .ro, 0, .any⟩,
    ⟨5, 4, .ro, 0, .any⟩,
    ⟨3, 1, .rz, 0, .any⟩,
    ⟨0, 0, .ro, 0, .any⟩]⟩

/-- Offset of ANV_DMA_HALT_INFO (R460). -/
def ANV_DMA_HALT_INFO.at (i : Nat) (k : Nat) : Nat := 0x4008010 + 0x40000 * i + 0x800 * k
def ANV_DMA_HALT_INFO.VALID (i : Nat) (k : Nat) : FRef := ⟨ANV_DMA_HALT_INFO.at i k, 63, 63⟩
def ANV_DMA_HALT_INFO.RESUME (i : Nat) (k : Nat) : FRef := ⟨ANV_DMA_HALT_INFO.at i k, 62, 62⟩
def ANV_DMA_HALT_INFO.RETRY (i : Nat) (k : Nat) : FRef := ⟨ANV_DMA_HALT_INFO.at i k, 61, 61⟩
def ANV_DMA_HALT_INFO.SKIP_SIGNAL (i : Nat) (k : Nat) : FRef := ⟨ANV_DMA_HALT_INFO.at i k, 60, 60⟩
def ANV_DMA_HALT_INFO.REASON (i : Nat) (k : Nat) : FRef := ⟨ANV_DMA_HALT_INFO.at i k, 55, 48⟩
def ANV_DMA_HALT_INFO.DIR (i : Nat) (k : Nat) : FRef := ⟨ANV_DMA_HALT_INFO.at i k, 47, 46⟩
def ANV_DMA_HALT_INFO.DMODE (i : Nat) (k : Nat) : FRef := ⟨ANV_DMA_HALT_INFO.at i k, 45, 42⟩
def ANV_DMA_HALT_INFO.ENTRY (i : Nat) (k : Nat) : FRef := ⟨ANV_DMA_HALT_INFO.at i k, 39, 0⟩
/-- ANV_DMA_HALT_INFO (R460). -/
def ANV_DMA_HALT_INFO.reg : RegDef :=
  ⟨0x4008010, [(200, 0x40000), (8, 0x800)], false, true, true, false,
   [⟨63, 63, .ro, 0, .any⟩,
    ⟨62, 62, .w1s, 0, .any⟩,
    ⟨61, 61, .w1s, 0, .any⟩,
    ⟨60, 60, .rw, 0, .any⟩,
    ⟨59, 56, .rz, 0, .any⟩,
    ⟨55, 48, .ro, 0, .any⟩,
    ⟨47, 46, .ro, 0, .any⟩,
    ⟨45, 42, .ro, 0, .any⟩,
    ⟨41, 40, .rz, 0, .any⟩,
    ⟨39, 0, .ro, 0, .any⟩]⟩

/-- Offset of ANV_DMA_HALT_ADDR (R461). -/
def ANV_DMA_HALT_ADDR.at (i : Nat) (k : Nat) : Nat := 0x4008018 + 0x40000 * i + 0x800 * k
def ANV_DMA_HALT_ADDR.TILE (i : Nat) (k : Nat) : FRef := ⟨ANV_DMA_HALT_ADDR.at i k, 63, 56⟩
def ANV_DMA_HALT_ADDR.ADDR (i : Nat) (k : Nat) : FRef := ⟨ANV_DMA_HALT_ADDR.at i k, 47, 0⟩
/-- ANV_DMA_HALT_ADDR (R461). -/
def ANV_DMA_HALT_ADDR.reg : RegDef :=
  ⟨0x4008018, [(200, 0x40000), (8, 0x800)], false, false, false, false,
   [⟨63, 56, .ro, 0, .any⟩,
    ⟨55, 48, .rz, 0, .any⟩,
    ⟨47, 0, .ro, 0, .any⟩]⟩

/-- Offset of PIL_DBG_CTL (R331). -/
def PIL_DBG_CTL.at (i : Nat) : Nat := 0x4010000 + 0x40000 * i
def PIL_DBG_CTL.STEP (i : Nat) : FRef := ⟨PIL_DBG_CTL.at i, 2, 2⟩
def PIL_DBG_CTL.RESUME (i : Nat) : FRef := ⟨PIL_DBG_CTL.at i, 1, 1⟩
def PIL_DBG_CTL.HALT_REQ (i : Nat) : FRef := ⟨PIL_DBG_CTL.at i, 0, 0⟩
/-- PIL_DBG_CTL (R331). -/
def PIL_DBG_CTL.reg : RegDef :=
  ⟨0x4010000, [(200, 0x40000)], false, true, true, false,
   [⟨63, 3, .rz, 0, .any⟩,
    ⟨2, 2, .w1s, 0, .any⟩,
    ⟨1, 1, .w1s, 0, .any⟩,
    ⟨0, 0, .w1s, 0, .any⟩]⟩

/-- Offset of PIL_DBG_STATUS (R332). -/
def PIL_DBG_STATUS.at (i : Nat) : Nat := 0x4010008 + 0x40000 * i
def PIL_DBG_STATUS.DBG_HALTED (i : Nat) : FRef := ⟨PIL_DBG_STATUS.at i, 31, 31⟩
def PIL_DBG_STATUS.DBG_PERMIT (i : Nat) : FRef := ⟨PIL_DBG_STATUS.at i, 30, 30⟩
def PIL_DBG_STATUS.IN_TRAP (i : Nat) : FRef := ⟨PIL_DBG_STATUS.at i, 29, 29⟩
def PIL_DBG_STATUS.STALL (i : Nat) : FRef := ⟨PIL_DBG_STATUS.at i, 28, 28⟩
def PIL_DBG_STATUS.STALL_WHY (i : Nat) : FRef := ⟨PIL_DBG_STATUS.at i, 27, 24⟩
def PIL_DBG_STATUS.PC (i : Nat) : FRef := ⟨PIL_DBG_STATUS.at i, 15, 0⟩
/-- PIL_DBG_STATUS (R332). -/
def PIL_DBG_STATUS.reg : RegDef :=
  ⟨0x4010008, [(200, 0x40000)], false, false, false, false,
   [⟨63, 32, .rz, 0, .any⟩,
    ⟨31, 31, .ro, 0, .any⟩,
    ⟨30, 30, .ro, 0, .any⟩,
    ⟨29, 29, .ro, 0, .any⟩,
    ⟨28, 28, .ro, 0, .any⟩,
    ⟨27, 24, .ro, 0, .any⟩,
    ⟨23, 16, .rz, 0, .any⟩,
    ⟨15, 0, .ro, 0, .any⟩]⟩

/-- Offset of PIL_TRAP_INFO (R333). -/
def PIL_TRAP_INFO.at (i : Nat) : Nat := 0x4010010 + 0x40000 * i
def PIL_TRAP_INFO.VALID (i : Nat) : FRef := ⟨PIL_TRAP_INFO.at i, 63, 63⟩
def PIL_TRAP_INFO.CODE (i : Nat) : FRef := ⟨PIL_TRAP_INFO.at i, 55, 48⟩
def PIL_TRAP_INFO.INNER (i : Nat) : FRef := ⟨PIL_TRAP_INFO.at i, 47, 40⟩
def PIL_TRAP_INFO.EPC (i : Nat) : FRef := ⟨PIL_TRAP_INFO.at i, 15, 0⟩
/-- PIL_TRAP_INFO (R333). -/
def PIL_TRAP_INFO.reg : RegDef :=
  ⟨0x4010010, [(200, 0x40000)], false, false, false, false,
   [⟨63, 63, .ro, 0, .any⟩,
    ⟨62, 56, .rz, 0, .any⟩,
    ⟨55, 48, .ro, 0, .any⟩,
    ⟨47, 40, .ro, 0, .any⟩,
    ⟨39, 16, .rz, 0, .any⟩,
    ⟨15, 0, .ro, 0, .any⟩]⟩

/-- Offset of PIL_TRAP_EVAL (R334). -/
def PIL_TRAP_EVAL.at (i : Nat) : Nat := 0x4010018 + 0x40000 * i
def PIL_TRAP_EVAL.EVAL (i : Nat) : FRef := ⟨PIL_TRAP_EVAL.at i, 63, 0⟩
/-- PIL_TRAP_EVAL (R334). -/
def PIL_TRAP_EVAL.reg : RegDef :=
  ⟨0x4010018, [(200, 0x40000)], false, false, false, false,
   [⟨63, 0, .ro, 0, .any⟩]⟩

/-- Offset of a VPC's PIL_DBG_CTL (R331, R336). -/
def VPC_DBG_CTL.at (i : Nat) : Nat := 0x3010000 + 0x100000 * i
/-- A VPC's PIL_DBG_CTL, which only ZEN writes (R336). -/
def VPC_DBG_CTL.reg : RegDef := { PIL_DBG_CTL.reg with base := 0x3010000, dims := [(16, 0x100000)], byComp := false }

/-- Offset of a VPC's PIL_DBG_STATUS (R332, R336). -/
def VPC_DBG_STATUS.at (i : Nat) : Nat := 0x3010008 + 0x100000 * i
/-- A VPC's PIL_DBG_STATUS (R336). -/
def VPC_DBG_STATUS.reg : RegDef := { PIL_DBG_STATUS.reg with base := 0x3010008, dims := [(16, 0x100000)] }

/-- Offset of a VPC's PIL_TRAP_INFO (R333, R336). -/
def VPC_TRAP_INFO.at (i : Nat) : Nat := 0x3010010 + 0x100000 * i
/-- A VPC's PIL_TRAP_INFO (R336). -/
def VPC_TRAP_INFO.reg : RegDef := { PIL_TRAP_INFO.reg with base := 0x3010010, dims := [(16, 0x100000)] }

/-- Offset of a VPC's PIL_TRAP_EVAL (R334, R336). -/
def VPC_TRAP_EVAL.at (i : Nat) : Nat := 0x3010018 + 0x100000 * i
/-- A VPC's PIL_TRAP_EVAL (R336). -/
def VPC_TRAP_EVAL.reg : RegDef := { PIL_TRAP_EVAL.reg with base := 0x3010018, dims := [(16, 0x100000)] }

/-- Offset of TDC_DOM_STATUS (R696). -/
def TDC_DOM_STATUS.at (i : Nat) : Nat := 0x8000000 + 0x10 * i
def TDC_DOM_STATUS.STOPS (i : Nat) : FRef := ⟨TDC_DOM_STATUS.at i, 47, 32⟩
def TDC_DOM_STATUS.STATE (i : Nat) : FRef := ⟨TDC_DOM_STATUS.at i, 7, 4⟩
def TDC_DOM_STATUS.FREQ (i : Nat) : FRef := ⟨TDC_DOM_STATUS.at i, 3, 3⟩
def TDC_DOM_STATUS.STOP_SEEN (i : Nat) : FRef := ⟨TDC_DOM_STATUS.at i, 2, 2⟩
def TDC_DOM_STATUS.HELD (i : Nat) : FRef := ⟨TDC_DOM_STATUS.at i, 1, 1⟩
/-- TDC_DOM_STATUS (R696). -/
def TDC_DOM_STATUS.reg : RegDef :=
  ⟨0x8000000, [(60, 0x10)], true, true, true, false,
   [⟨63, 48, .rz, 0, .any⟩,
    ⟨47, 32, .ro, 0, .any⟩,
    ⟨31, 8, .rz, 0, .any⟩,
    ⟨7, 4, .ro, 0, .any⟩,
    ⟨3, 3, .w1c, 0, .any⟩,
    ⟨2, 2, .w1c, 0, .any⟩,
    ⟨1, 1, .ro, 0, .any⟩,
    ⟨0, 0, .rz, 0, .any⟩]⟩

/-- Offset of TDC_DOM_CTL (R696). -/
def TDC_DOM_CTL.at (i : Nat) : Nat := 0x8000008 + 0x10 * i
def TDC_DOM_CTL.FORCE_RESYNC (i : Nat) : FRef := ⟨TDC_DOM_CTL.at i, 1, 1⟩
def TDC_DOM_CTL.SCM (i : Nat) : FRef := ⟨TDC_DOM_CTL.at i, 0, 0⟩
/-- TDC_DOM_CTL (R696). -/
def TDC_DOM_CTL.reg : RegDef :=
  ⟨0x8000008, [(60, 0x10)], true, true, true, false,
   [⟨63, 2, .rz, 0, .any⟩,
    ⟨1, 1, .w1s, 0, .any⟩,
    ⟨0, 0, .rw, 0, .any⟩]⟩

/-- Offset of TDC_CTL (R696). -/
def TDC_CTL.at : Nat := 0x8010000
def TDC_CTL.STOP_US : FRef := ⟨TDC_CTL.at, 15, 8⟩
/-- TDC_CTL (R696). -/
def TDC_CTL.reg : RegDef :=
  ⟨0x8010000, [], true, true, true, false,
   [⟨63, 16, .rz, 0, .any⟩,
    ⟨15, 8, .rw, 4, .clamp 1 255⟩,
    ⟨7, 0, .rz, 0, .any⟩]⟩

/-- Offset of TDC_OSC (R696). -/
def TDC_OSC.at : Nat := 0x8010008
def TDC_OSC.DSK_ON_Z : FRef := ⟨TDC_OSC.at, 5, 5⟩
def TDC_OSC.OSC_FAIL : FRef := ⟨TDC_OSC.at, 4, 0⟩
/-- TDC_OSC (R696). -/
def TDC_OSC.reg : RegDef :=
  ⟨0x8010008, [], true, true, true, false,
   [⟨63, 6, .rz, 0, .any⟩,
    ⟨5, 5, .ro, 0, .any⟩,
    ⟨4, 0, .w1c, 0, .any⟩]⟩

/-- Registers of one block window (R22). -/
def regsZen : List RegDef :=
  [ZEN_ID.reg, ZEN_SERIAL.reg, ZEN_BOOT.reg, ZEN_RESET.reg, ZEN_FWU_CTL.reg, ZEN_FWU_STATUS.reg,
   ERQ_PROD.reg, ERQ_CONS.reg, ERQ_LOST.reg, ERQ_FATAL_V.reg, ERQ_FATAL.reg, ERQ_REC.reg,
   ZEN_SVC_CTL.reg, ZEN_SVC_STATUS.reg, ZEN_PHASE.reg, ZEN_PHASE_CAP.reg, ZEN_ALERT.reg, ZEN_FLASH.reg]
/-- Registers of one block window (R22). -/
def regsEqx : List RegDef :=
  [EQX_CTL.reg, EQX_FAULT.reg, EQX_RESETS.reg, EQX_JOB_CFG.reg, EQX_JOB_CTL.reg, EQX_JOB_STATUS.reg,
   EQX_JOB_TILES.reg, EQX_JOB_SAVE.reg, EQX_JOB_BAL_T.reg, EQX_JOB_WORK_T.reg, EQX_JOB_WORK_V.reg, EQX_JOB_BAL_V.reg]
/-- Registers of one block window (R22). -/
def regsSrv : List RegDef :=
  [SRV_STATUS.reg, SRV_RQT_IDX.reg, SRV_RQT_W.reg, SRV_JOB_CFG.reg, SRV_JOB_CTL.reg, SRV_JOB_QUOTA.reg,
   SRV_JOB_USE.reg, SRV_JOB_STATUS.reg, SRV_JOB_STEP.reg, SRV_JOB_BD.reg, SRV_JOB_RES.reg, PXW_JOB_CFG.reg,
   PXW_JOB_NODES.reg, SMP_JOB_CTL.reg, SMP_JOB_STATUS.reg, SMP_JOB_SPEC.reg, SMP_JOB_DEAD.reg]
/-- Registers of one block window (R22). -/
def regsDsk : List RegDef :=
  [DSK_JOB_CTL.reg, DSK_JOB_CNT.reg, DSK_JOB_TP.reg]
/-- Registers of one block window (R22). -/
def regsLdr : List RegDef :=
  [LDR_ID.reg, LDR_STATUS.reg, LDR_JOB_ATTR.reg, LDR_SEG_W0.reg, LDR_SEG_W1.reg, LDR_SEG_W2.reg,
   LDR_SEG_W3.reg]
/-- Registers of one block window (R22). -/
def regsPwr : List RegDef :=
  [PWR_IN.reg, PWR_CAP.reg, PWR_SAMPLE.reg, PWR_DOM_STATUS.reg, TMD_INLET.reg, TMD_CTL.reg,
   TMD_STATUS.reg, TMD_TRIP.reg, TMD_NODE.reg, TMD_STK.reg, TMD_FLASH.reg]
/-- Registers of one block window (R22). -/
def regsDyl : List RegDef :=
  [DYL_PORT_STATUS.reg, DYL_PORT_CTL.reg, DYL_PORT_ERR.reg, DYL_RING_BASE.reg, DYL_RING_CFG.reg, DYL_RING_STATUS.reg,
   DYL_MSG_BASE.reg, DYL_MSG_CFG.reg, DYL_MSG_CONS.reg, DYL_MSG_PROD.reg, DYL_MSG_LOST.reg, DYL_VEC_ADDR.reg,
   DYL_VEC_CTL.reg]
/-- Registers of one block window (R22). -/
def regsCxp : List RegDef :=
  [CXP_PORT_STATUS.reg, CXP_HDM_RANGE.reg, CXP_HDM_TGT.reg]
/-- Registers of one block window (R22). -/
def regsXwf : List RegDef :=
  [XWF_ID.reg, XWF_CTL.reg, XWF_IPV6_PREFIX.reg, XWF_PORT_STATUS.reg, XWF_PORT_CTL.reg, XWF_PORT_ERR.reg,
   XWF_PORT_MAC.reg, XWF_PORT_GWMAC.reg, XWF_JOB_GROUP.reg, XWF_FQSTAT.reg, XWF_HALT_INFO.reg, XWF_HALT_ADDR.reg,
   XWF_ROUTE.reg]
/-- Registers of one block window (R22). -/
def regsClb : List RegDef :=
  [CLB_PART.reg, CLB_ERR.reg]
/-- Registers of one block window (R22). -/
def regsMsc : List RegDef :=
  [MSC_ID.reg, MSC_STATUS.reg, MSC_TEMP.reg, MSC_RETRAIN.reg, MSC_COPY.reg, MSC_CH_STATUS.reg,
   MSC_REDIR.reg, MSC_GEN.reg, MSC_SCRUB_CTL.reg, MSC_SCRUB_LAP.reg, MSC_SCRUB_RESULT.reg, MSC_ECC_COUNT.reg,
   MSC_POISONED.reg]
/-- Registers of one block window (R22). -/
def regsVrg : List RegDef :=
  [VRG_ID.reg, VRG_CTL.reg, VRG_STATUS.reg, VRG_ERR.reg, VRG_JOB_CFG.reg, VRG_JOB_SLOTS.reg,
   VRG_KV_SAT.reg, VRG_HALT_INFO.reg, VRG_HALT_ADDR.reg, VRG_PERF_CTL.reg, VRG_PERF_SEL.reg, VRG_PERF_CNT.reg,
   VPC_DBG_CTL.reg, VPC_DBG_STATUS.reg, VPC_TRAP_INFO.reg, VPC_TRAP_EVAL.reg]
/-- Registers of one block window (R22). -/
def regsAnv : List RegDef :=
  [ANV_ID.reg, ANV_STATUS.reg, ANV_MXE_STATUS.reg, ANV_VXE_STATUS.reg, ANV_ERR.reg, ANV_ERR_INFO.reg,
   ANV_ECC_CE.reg, ANV_PERF_CTL.reg, ANV_PERF_SEL.reg, ANV_PERF_CNT.reg, ANV_SCB_TOKEN.reg, ANV_QSTAT.reg,
   ANV_MXE_CFG.reg, ANV_VXE_CFG.reg, ANV_DMA_CTL.reg, ANV_DMA_STATUS.reg, ANV_DMA_HALT_INFO.reg, ANV_DMA_HALT_ADDR.reg,
   PIL_DBG_CTL.reg, PIL_DBG_STATUS.reg, PIL_TRAP_INFO.reg, PIL_TRAP_EVAL.reg]
/-- Registers of one block window (R22). -/
def regsTdc : List RegDef :=
  [TDC_DOM_STATUS.reg, TDC_DOM_CTL.reg, TDC_CTL.reg, TDC_OSC.reg]
/-- Every register of the control space, block by block. -/
def regMap : List RegDef :=
  regsZen ++ regsEqx ++ regsSrv ++ regsDsk ++ regsLdr ++ regsPwr ++ regsDyl ++ regsCxp ++ regsXwf ++ regsClb ++ regsMsc ++ regsVrg ++ regsAnv ++ regsTdc
/-- The registers of the block window that an offset lies in (R22). -/
def regWindow (off : Nat) : List RegDef :=
  if off < 0x100000 then regsZen else
  if off < 0x200000 then regsEqx else
  if off < 0x300000 then regsSrv else
  if off < 0x400000 then regsDsk else
  if off < 0x800000 then regsLdr else
  if off < 0x1000000 then regsPwr else
  if off < 0x1100000 then regsDyl else
  if off < 0x1200000 then regsCxp else
  if off < 0x1400000 then regsXwf else
  if off < 0x2000000 then regsClb else
  if off < 0x3000000 then regsMsc else
  if off < 0x4000000 then regsVrg else
  if off < 0x8000000 then regsAnv else
  if off < 0x10000000 then regsTdc else []

end Sys2Proof.Machine
end

