-- ==== Sys2Proof/Machine/State.lean ====
section
/-! DEFINITION. The state of the device as plain data: every register, memory, queue, buffer, counter and mode the
spec gives it, the reasons a step can stop, and the state right after a power-up reset. -/
namespace Sys2Proof.Machine

/-! ## Engine commands and tiles (chapters 4, 6, 7, 10) -/

/-- Where a started command stands (R243, R244, R250): `released` after a RESUME gave up a halted command, with
whether its tokens are still to be signalled (R220). -/
inductive FlightSt where
  | running | done | halted
  | released (signal : Bool)
deriving DecidableEq, Repr

/-- What a halting command latches: REASON, DIR, ENTRY, ADDR and, for a multicast write, the receiving tile
(R235, R236, R460, R461, R677). -/
structure HaltRec where
  reason : Nat
  dir : Nat
  entry : Nat
  addr : Nat
  tile : Nat
deriving DecidableEq, Repr

/-- A started command: its shadow (R251) with the view registers as they stood at its start (R254), its completion
code (R276), and the fault it met, if any. -/
structure Flight where
  cmd : List W64
  views : SMap W64
  st : FlightSt
  code : Nat
  fault : Option HaltRec
  /-- number of an FOP whose frames have been handed to the endpoint, 0 before (R671) -/
  fop : Nat
deriving DecidableEq, Repr

/-- One queue of a tile (R240, R246, R247): entries not sent, commands held at the destination, started commands in
order of start, and the 16 view registers, word w of register v at 8 * v + w. -/
structure Queue where
  entries : List (List W64)
  sent : Bool
  held : List (List W64)
  flight : List Flight
  views : SMap W64
  halted : Bool
  /-- a chain is open: the last MMUL started had CHAIN 1 (R259) -/
  chain : Bool
  pushed : W16
  started : W16
  /-- entries at the front that pre-emption withdrew: they are sent again without a wait (R591) -/
  waived : Nat
deriving DecidableEq, Repr

def Queue.empty : Queue := ⟨[], false, [], [], [], false, false, 0#16, 0#16, 0⟩

/-- An LDG or STG that has issued and not completed (R287, R303). -/
structure OutAcc where
  store : Bool
  pc : Nat
  addr : Nat
  /-- bytes accessed -/
  size : Nat
  sx : Bool
  rd : BitVec 5
  data : W64
  refused : Bool
deriving DecidableEq, Repr

/-- A CLB that has issued and not completed (R315). -/
structure ClbOp where
  acquire : Bool
  base : Nat
  len : Nat
  sig : Bool
  tok : BitVec 8
deriving DecidableEq, Repr

/-- A Pileus core (R282, R321 - R323): scalar registers by number, predicates as a byte whose bit 0 reads 1, and PC,
where 0x10000 stands for a fetch past 0xFFFC that has not trapped yet (R299). -/
structure Core where
  sreg : SMap W64
  preds : BitVec 8
  pc : Nat
  tvec : W64
  epc : W64
  ecause : W64
  eval : W64
  scratch : W64
  inTrap : Bool
  imprecise : Bool
  past : Bool
  multiBus : Bool
  ended : Bool
  dbgHalted : Bool
  /-- STEP was written: one instruction issues, then the core halts again (R331) -/
  dbgStep : Bool
  /-- a fatal trap or a fatal fault has stopped issue -/
  stopped : Bool
  /-- STALL_WHY of R332; 8 for a wait that it has no code for -/
  stall : Nat
  out : List OutAcc
  clbs : List ClbOp
  /-- source and IMEM offset of an IFILL whose copy runs (R317) -/
  ifill : Option (Nat × Nat)
deriving DecidableEq, Repr

def Core.zero : Core :=
  ⟨[], 1#8, 0, 0#64, 0#64, 0#64, 0#64, 0#64, false, false, false, false, false, false, false, false, 0, [], [], none⟩

/-- The job state of one tile (R591, R596): what a save moves out and a restore brings back. Words of SPM, IMEM and
DMEM that hold an uncorrectable or a single-bit error are listed by word number (offset / 8), accumulators by index
set * 32768 + row * 256 + column (R157, R158). -/
structure TileState where
  core : Core
  imem : Bytes
  dmem : Bytes
  spm : Bytes
  imemBad : List Nat
  dmemBad : List Nat
  spmBad : List Nat
  imemWeak : List Nat
  dmemWeak : List Nat
  spmWeak : List Nat
  /-- tokens T0 - T255 (R160) -/
  tok : SMap W16
  /-- queues by number of R280 -/
  queues : SMap Queue
  /-- accumulator sets as codes of the chain's accumulator type, and the set that a chain continues (R145) -/
  acc : SMap W32
  accSet : Nat
  accBad : List Nat
  /-- ANV_MXE_CFG, ANV_VXE_CFG and halt latches while saved, by offset within the tile's register set (R591) -/
  savedRegs : SMap W64
deriving DecidableEq, Repr

def TileState.zero : TileState :=
  ⟨Core.zero, [], [], [], [], [], [], [], [], [], [], [], [], 0, [], []⟩

/-! ## Slots and stack memory (chapters 2, 5, 8, 9) -/

/-- An exact slot (R82): VALUE modulo 2^320, its flags and COUNT. -/
structure Slot where
  value : BitVec 320
  nan : Bool
  pinf : Bool
  ninf : Bool
  ovf : Bool
  count : BitVec 42
deriving DecidableEq, Repr

def Slot.zero : Slot := ⟨0#320, false, false, false, false, 0#42⟩

/-- A stored stack code page with its metadata (R388). tagErrs is the number of bit errors in the 88 bits that TCHK
protects: the spec gives TCHK's guarantee and not its matrix (DESIGN CHOICE, log entry 7). -/
structure Page where
  data : Bytes
  /-- PARITY or CRC, metadata bytes 0 - 95 -/
  par : Bytes
  written : W64
  /-- TAG[23:0] -/
  tag : BitVec 24
  dcrc : W32
  stamp : W64
  tagErrs : Nat
deriving DecidableEq, Repr

def Page.zero : Page := ⟨[], [], 0#64, 0#24, 0#32, 0#64, 0⟩

/-- What a discard leaves in a page (R397): its TAG, and its STAMP less its page number, which is the same for all pages
of a stack. Data lanes are masked; nothing reads what they still hold (R396; DEDUCED, log entry 24). -/
structure Blank where
  tag : BitVec 24
  base : W64
deriving DecidableEq, Repr

/-- Page gp as its blank says. -/
def Blank.page (b : Blank) (gp : Nat) : Page := ⟨[], [], 0#64, b.tag, 0#32, b.base + BitVec.ofNat 64 gp, 0⟩

/-- A page without data, errors and POISON is told by its blank. -/
def Page.bare (p : Page) : Bool :=
  p.data.isEmpty && p.par.isEmpty && p.written == 0#64 && p.dcrc == 0#32 && p.tagErrs == 0 && !p.tag.getLsbD 23

/-- A merge-buffer entry (R398 - R400): bit o of mask is set when byte o has been written. -/
structure MergeEntry where
  page : Nat
  data : Bytes
  mask : Nat
  /-- its write-back has started -/
  wb : Bool
deriving DecidableEq, Repr

/-- A Cloudbank cache line of one job (R354): per-granule valid, dirty and uncorrectable bits. -/
structure CLine where
  data : Bytes
  valid : BitVec 4
  dirty : BitVec 4
  bad : BitVec 4
  /-- 64-bit words of the line with a single-bit error (R356) -/
  weak : BitVec 32
deriving DecidableEq, Repr

def CLine.zero : CLine := ⟨[], 0#4, 0#4, 0#4, 0#32⟩

/-! ## Records and messages (chapters 9, 17) -/

/-- A record as its unit hands it to the ERQ (R419). -/
structure ErqRec where
  typ : Nat
  sev : Nat
  block : Nat
  inst : Nat
  job : Option Nat
  addr : Nat
  detail : W64
deriving DecidableEq, Repr

/-- A message due to the companion (R645, R646). -/
structure Msg where
  kind : Nat
  job : Option Nat
  value : W64
  addr : Nat
deriving DecidableEq, Repr

/-! ## Requests (chapters 12 - 14) -/

/-- An entry of the request table (R523); times are microseconds left, 2^32 - 1 for no deadline. -/
structure Req where
  state : Nat
  prio : Nat
  job : Nat
  floor : Nat
  home : Nat
  result : Nat
  reason : Nat
  cancel : Bool
  low : Bool
  pfxUse : Bool
  pfxIns : Bool
  ns : Nat
  cookie : W64
  promptLen : Nat
  maxNew : Nat
  pos : Nat
  delivered : Nat
  left : Nat
  qpos : Nat
  commit : Nat
  alloc : Nat
  node : Nat
  matched : Nat
  arrival : Nat
  prompt : Nat
  param : Nat
  ring : Nat
  /-- LOG2N of the output ring as SMP read it at admission (R569) -/
  log2n : Nat
deriving DecidableEq, Repr

def Req.zero : Req :=
  ⟨0, 0, 0, 0, 0, 0, 0, false, false, false, false, 0, 0#64, 0, 0, 0, 0, 0, 0, 0, 0, 0, 0, 0, 0, 0, 0, 0⟩

/-- A token whose commit point waits for room in the output ring (R570). -/
structure Pend where
  token : Nat
  nan : Bool
  dead : Bool
  /-- a rejected draft or the last row: nothing follows -/
  final : Bool
deriving DecidableEq, Repr

/-- A row of the running step (R535, R574): next row of the verify pass, drafts accepted, last token committed. -/
structure RowSt where
  idx : Nat
  nq : Nat
  pos : Nat
  row0 : Nat
  drafts : Nat
  t0 : Nat
  next : Nat
  accepted : Nat
  /-- tokens of the drafts sampled in this step, by draft index -/
  drafted : List (Nat × Nat)
  wait : Option Pend
  last : Option Nat
  passed : Bool
deriving DecidableEq, Repr

/-- What SRV, PXW and SMP hold of a serving job beside its registers (R519, R525, R534 - R537). -/
structure SrvJob where
  /-- local addresses of the KV header and its copies (R491) -/
  kvh : List Nat
  listPages : Nat
  poolPages : Nat
  poolOff : Nat
  pg64 : Nat
  mapOff : Nat
  /-- PROD of the result ring (R519) -/
  prod : Nat
  /-- a step boundary is being carried out, and what of its admission loop is left: requests in order, and BLOCKED
  (R520, R530, R534) -/
  bnd : Bool
  adm : Option (List Nat × Bool)
  /-- admitted requests in row order (R535) -/
  order : List Nat
  rows : List RowSt
  /-- the step runs; its boundary is done and the launch is due -/
  running : Bool
  ready : Bool
  /-- microseconds since the launch (R553) -/
  us : Nat
  /-- STEP_PLANES chosen for the coming step, and of the running one (R554) -/
  planes : Nat
  /-- unreported steps with the pages pinned for each, as 2^28 * stack + page (R510) -/
  unrep : List (Nat × List Nat)
  /-- BD_HANDOFF as handed to SMP, and whether a SAMPLE or VERIFY handoff of the step has come (R537) -/
  handoff : Option (List W64)
  handed : Bool
  /-- the handoff is being handled: rows have begun -/
  begun : Bool
deriving DecidableEq, Repr

def SrvJob.zero : SrvJob :=
  ⟨[], 0, 0, 0, 0, 0, 0, false, none, [], [], false, false, 0, 0, [], none, false, false⟩

/-! ## Fabric (chapter 18) -/

/-- A REQUEST frame that the endpoint holds for an FOP: not sent yet, or sent and not acknowledged or answered (R666).
A dead one belongs to an FOP that has failed or whose job is gone. -/
structure Sent where
  frame : Frame
  job : Nat
  lt : Nat
  fop : Nat
  retries : Nat
  dead : Bool
deriving DecidableEq, Repr

/-- A failure of an FOP that had completed (R675): the XWF_HALT registers that it will latch. -/
structure LateHalt where
  job : Nat
  lt : Nat
  fop : Nat
  info : W64
  addr : Nat
deriving DecidableEq, Repr

/-- Receive state of a source node (R666): next number expected, numbers applied beyond it, and answers kept. -/
structure RxNode where
  next : W32
  ahead : List Nat
  answers : List Frame
deriving DecidableEq, Repr

def RxNode.zero : RxNode := ⟨0#32, [], []⟩

/-! ## Loading (chapter 16) -/

/-- A load whose result is not written yet (R626, R627): placement block, COOKIE, the job it loads, RESULT and REASON,
DETAIL, the granted features, HOLD, and the stacks whose engines it uses. -/
structure Loading where
  place : Nat
  cookie : W64
  job : Option Nat
  result : Nat
  reason : Nat
  detail : W64
  feat : W64
  hold : Bool
  vrg : Nat
deriving DecidableEq, Repr

/-! ## Crossings, power, boot and service (chapters 19 - 23) -/

/-- The COUNT crossings into a clocked domain (R683): PRODUCED, APPLIED and what the destination has been given. -/
structure Cross where
  produced : W32
  applied : W32
  total : W64
deriving DecidableEq, Repr

def Cross.zero : Cross := ⟨0#32, 0#32, 0#64⟩

/-- A flash copy being written (R734): KIND, copy (0 A, 1 B), the object, whether its erase has started, and whether it
repairs a failing copy (R756). -/
structure Fwu where
  kind : Nat
  copy : Nat
  obj : List Byte
  started : Bool
  repair : Bool
deriving DecidableEq, Repr

/-- Answers of the SPDM responder (R732, R733). -/
inductive SpdmRsp where
  | version (minor : List Nat)
  | capabilities (cert chal meas : Bool)
  | algorithms
  | digests (slots : List (Nat × List Byte))
  | certificate (slot : Nat) (portion : List Byte) (remainder : Nat)
  | challengeAuth (chain summary sig : List Byte)
  | measurements (total : Nat) (blocks : List (Nat × List Byte)) (sig : List Byte)
  | error (code : Nat)
deriving DecidableEq, Repr

/-- How an access from the companion ends (R12, R15, R409). -/
inductive CRsp where
  | data (bs : List Byte)
  | done
  | busError
  | poison
deriving DecidableEq, Repr


/-! ## The machine -/

/-- Why the machine stops. -/
inductive Fault where
  /-- No meaning raises this: every access the spec refuses is answered by the device itself. Safe. -/
  | unreachable
deriving DecidableEq, Repr

/-- Why a command has no meaning here. -/
inductive Refusal where
  /-- Raised by an arm of exec whose command is not modelled yet. Safe. -/
  | notModelled (mnemonic : String)
deriving DecidableEq, Repr

/-- The whole device. -/
structure State where
  /-- commands waiting, first in, first out -/
  pending : List Instr
  /-- control-space registers by offset; an unlisted one holds its reset value (R9) -/
  regs : SMap W64
  /-- how many free values have been taken (the model's own field; DESIGN CHOICE, log entry 1) -/
  free : Nat
  /-- tile contexts by physical tile, the residue of the last job while JOB_V is 0; the VPC of stack n, with its memories,
  stands under 200 + n (R225) -/
  tiles : SMap TileState
  /-- saved tile contexts by 256 * job + logical tile (R591, R596; DESIGN CHOICE, log entry 6) -/
  saved : SMap TileState
  /-- uncorrectable errors per physical tile since power-up (R746) -/
  tileUe : SMap Nat
  /-- exact slots by 65536 * stack + slot (R82, R210) -/
  slots : SMap Slot
  /-- stack code pages by local page number (R388); a bare page stands in blank -/
  pages : SMap Page
  /-- runs of pages that pages does not list: as a discard left them, or none where none has been (R396, R397) -/
  blank : SMap (Option Blank)
  /-- reserve pages by (32 * stack + channel) * 32768 + page (R338) -/
  reserve : SMap Page
  /-- merge buffers by global channel, oldest entry first (R398) -/
  merge : SMap (List MergeEntry)
  /-- channels waiting for a retrain, by stack (R370) -/
  retrainQ : SMap (List Nat)
  /-- next page index of each channel's scrubber, by global channel (R413) -/
  scrubAt : SMap Nat
  /-- pages corrected and pages poisoned or repaired in the current lap, by stack (R416) -/
  lapCe : SMap Nat
  lapUe : SMap Nat
  /-- stacks whose current lap exceeded TARGET_MS (R415) -/
  lapLate : List Nat
  /-- corrections since the last MEM_CE_SUM record, by stack (R420) -/
  ceSince : SMap Nat
  /-- Cloudbank cache lines by 2^40 * job + address / 256 (R353) -/
  cache : SMap CLine
  /-- Cloudbank scratch bytes by window offset, its uncorrectable words and its words with a single-bit error (R350,
  R356) -/
  scratch : Bytes
  scratchBad : List Nat
  scratchWeak : List Nat
  /-- the granule and direction of each unit's last counted access, as 2 * granule + write + 1, keyed by physical tile,
  256 + n for stack n's engine, and 512 for the rest (the model's own, log entry 86) -/
  lastGran : SMap Nat
  /-- far-tier bytes by local address (DESIGN CHOICE, log entry 8), and granules whose device answers with poison (R359, R362) -/
  far : Bytes
  farPoison : List Nat
  /-- bytes the device has written into the companion's memory (DESIGN CHOICE, log entry 71) -/
  comp : Bytes
  /-- records generated since power-up reset (R419) -/
  erqSeq : W32
  /-- milliseconds of ZEN's oscillator since power-up reset (R419; DESIGN CHOICE, log entry 5) -/
  ms : W32
  /-- SEQ of the JOB_FAULT record of the compute reset in progress (R422) -/
  resetSeq : Option W32
  /-- jobs that are parked (R583) -/
  parked : List Nat
  /-- jobs that had demand in the tile pool, and 64 * stack + job in a stack pool, since the round began (R584) -/
  demT : List Nat
  demV : List Nat
  /-- SHARE in force in the tile pool by job, and in a stack pool by 64 * stack + job (R585) -/
  shareT : SMap Nat
  shareV : SMap Nat
  /-- logical tile whose queue a stack's engine served last, by 64 * stack + job (R590) -/
  rrLast : SMap Nat
  /-- messages raised and not yet written or folded (R645) -/
  msgs : List Msg
  /-- pending bits: kind and job of a folded message with the latest value (R647) -/
  msgPend : List Msg
  /-- messages written and not yet signalled, by vector (R648) -/
  vecWait : SMap Nat
  /-- a ZEN restart runs (R718), and the one record each unit holds meanwhile -/
  zenRestart : Bool
  heldRecs : List (W32 × Bool × ErqRec)
  /-- stack granules the companion holds, least recently used first: 1 shared, 2 modified (R637) -/
  filter : List (Nat × Nat)
  /-- granules whose snoop of the companion awaits its answer, with whether it invalidates (R637) -/
  snoops : List (Nat × Bool)
  /-- the device's link mode (R633), 0 before a port has set it -/
  dylMode : Nat
  /-- ports whose DYL_PERST_N is low, and ports whose CXP_PERST_N the module drives low (R767, R768) -/
  dylPerst : List Nat
  cxpPerst : List Nat
  /-- pages, each with job, segment and class, whose poison ended jobs: ZEN asks for their repair after the reset (R412) -/
  repairDue : List (Nat × Nat × Nat × Nat)
  /-- the request table by entry (R523), and REQUEST records observed since power-up reset -/
  rqt : SMap Req
  arrivals : Nat
  /-- serving state by job -/
  srv : SMap SrvJob
  /-- records handed to SRV and not yet handled: kind and payload (R643) -/
  srvIn : List (Nat × List W64)
  /-- LOAD payloads in LDR's queue (R643) -/
  ldrIn : List (List W64)
  /-- header line of ring r's record NEXT, read and not yet handled (R642) -/
  ringSeen : SMap (Option (List W64))
  /-- rings whose header line the link cache holds (R638, R642) -/
  linkCache : List Nat
  /-- REQUEST frames accepted and waiting for room in the window, oldest first, and frames sent (R666) -/
  txWait : List Sent
  txSent : List Sent
  /-- number of the next frame to a node, and the window toward it, 2 MiB where unlisted (R666) -/
  txSeq : SMap W32
  txWin : SMap Nat
  /-- number the next FOP takes, from 1 -/
  fopNext : Nat
  /-- failures of completed FOPs that await their latch, and the one latched per 256 * job + tile (R675) -/
  lateWait : List LateHalt
  lateHeld : List LateHalt
  rxNode : SMap RxNode
  /-- frames given to ports, oldest first, and ports that answered a neighbour solicitation (R661) -/
  xwfOut : List (Nat × Frame)
  naOut : List Nat
  /-- ports that fell back to Ethernet training (R659) -/
  xwfEth : List Nat
  /-- frames dropped per port since the last XWF_DROP record (R678) -/
  dropSince : SMap Nat
  /-- the service action that ZEN runs, as ACTION and TARGET (R741), and whether jobs are held for a tile's move -/
  svc : Option (Nat × Nat)
  svcHeld : Bool
  /-- automatic actions that wait for the slot (R741) -/
  svcDue : List (Nat × Nat)
  /-- redirect entries that the running migration has still to copy (R374, R748) -/
  migTodo : List W64
  /-- pages with a MEM_CE_HEAVY record in the current lap and in the last one (R749) -/
  heavyNow : List Nat
  heavyPrev : List Nat
  /-- jobs that EQX has chosen and that wait for their tiles, in order (R588) -/
  chosen : List Nat
  /-- jobs whose end was requested (R600) -/
  endAsked : List Nat
  /-- the load that LDR is handling (R621) -/
  loading : Option Loading
  /-- COUNT crossings by 2 * domain, plus 1 for those that carry job state (R683, R695) -/
  cross : SMap Cross
  /-- the ZEN domain has been STOPPED since the last power-up reset (R688) -/
  zenLost : Bool
  /-- the model's nodes as FP32, empty before the first inlet reading; θ and τ of the record in use (R703) -/
  nodes : List W32
  theta : List W32
  tau : List W32
  /-- consecutive rounds with V_C at 0.60 V and the condition of R706 (R707) -/
  stuckFor : Nat
  /-- ANV_ECC_CE of each tile at the last round (R180, R746) -/
  ceLast : SMap Nat
  /-- a trip for want of phases, which only a power-up reset clears (R752, R753) -/
  tripHard : Bool
  /-- domains whose sample was asked for; the first one runs (R701) -/
  sampleQ : List Nat
  /-- milliseconds at the last fatal fault under R227 plus 1, by stack (R751) -/
  vrgFaultAt : SMap Nat
  /-- the boot flash by byte (R719) -/
  flash : Bytes
  /-- repair areas: SVN floors and retired tiles by stack (R724, R745) -/
  fwFloor : SMap Nat
  recFloor : SMap Nat
  retired : SMap (List Nat)
  /-- the update that waits or writes, and the next offset of a streamed one (R734, R737) -/
  fwu : Option Fwu
  fwStream : Option Nat
  /-- the firmware copy that failed to start at the last boot (R723) -/
  badCopy : Option Nat
  /-- the ZEN restart in progress came from the watchdog (R739) -/
  watchdog : Bool
  /-- the VPC firmware stage that ZEN checked at boot, which it loads again at a compute reset (R225, R227) -/
  vpcFw : List Byte
  /-- measurements by index, the alias key's 32-byte seed, and slot 0's chain after the CA certificates (R731 - R733) -/
  meas : SMap (List Byte)
  aliasSeed : List Byte
  certs : List (List Byte)
  /-- connection state by transport, 0 I3C and 1 the DOE mailbox; answers sent (R732) -/
  spdm : SMap Nat
  spdmOut : List (Nat × SpdmRsp)
  /-- SB_PGOOD as last sampled, the module's own pull on it, the input disconnected by the hot-swap controller, VDD_SB
  present (R763, R764, R773), and the input's voltage in mV as last seen -/
  pgood : Bool
  pgPull : Bool
  inputOff : Bool
  vddSb : Bool
  inputMv : Nat
  /-- test access port: controller state, instruction, shift register, and TDO bits of the last access (R736) -/
  tap : Nat
  tapIr : List Bool
  tapShift : List Bool
  tdo : List Bool
  /-- DIGEST of the image of each resident job (R733), and the stacks whose engines it uses (R223) -/
  digests : SMap (List Byte)
  engines : SMap Nat
  /-- how the companion's last access ended, and the last value read over the sideband -/
  rsp : Option CRsp
  mcRsp : Option W64
deriving DecidableEq, Repr

/-- The machine right after a power-up reset (R9, R716; DESIGN CHOICE, log entries 8 - 10). -/
def State.reset : State :=
  { pending := [], regs := [], free := 0, tiles := [], saved := [], tileUe := [], slots := [], pages := [], blank := [],
    reserve := [], merge := [], retrainQ := [], scrubAt := [], lapCe := [], lapUe := [], lapLate := [],
    ceSince := [], cache := [], scratch := [], scratchBad := [], scratchWeak := [], lastGran := [], far := [], farPoison := [], comp := [],
    erqSeq := 0#32, ms := 0#32, resetSeq := none, parked := [], demT := [], demV := [], shareT := [],
    shareV := [], rrLast := [], msgs := [], msgPend := [], vecWait := [], zenRestart := false, heldRecs := [],
    filter := [], snoops := [], dylMode := 0, dylPerst := [], cxpPerst := [0, 1, 2, 3], repairDue := [],
    rqt := [], arrivals := 0, srv := [], srvIn := [], ldrIn := [], ringSeen := [], linkCache := [],
    txWait := [], txSent := [], txSeq := [], txWin := [], fopNext := 1, lateWait := [], lateHeld := [],
    rxNode := [], xwfOut := [], naOut := [], xwfEth := [], dropSince := [],
    svc := none, svcHeld := false, svcDue := [], migTodo := [], heavyNow := [], heavyPrev := [],
    chosen := [], endAsked := [], loading := none,
    cross := [], zenLost := false, nodes := [], theta := [], tau := [], stuckFor := 0, ceLast := [],
    tripHard := false, sampleQ := [], vrgFaultAt := [], flash := [], fwFloor := [], recFloor := [], retired := [],
    fwu := none, fwStream := none, badCopy := none, watchdog := false, vpcFw := [], meas := [], aliasSeed := [], certs := [],
    spdm := [], spdmOut := [], pgood := true, pgPull := false, inputOff := false, vddSb := true,
    inputMv := 48000,
    tap := 0, tapIr := [], tapShift := [], tdo := [], digests := [], engines := [], rsp := none, mcRsp := none
  }

abbrev Out := Host.Outcome State Fault Refusal

end Sys2Proof.Machine
end

