-- ==== Sys2Proof/Machine/RegFile.lean ====
section
/-! DEFINITION. The control-space register file (R8 - R13): reset values (R9), fields, and lookup by offset. -/
namespace Sys2Proof.Machine

/-- Index numbers of a register copy, or none where the offset is no copy. -/
def regIndex : List (Nat × Nat) → Nat → Option (List Nat)
  | [], r => if r = 0 then some [] else none
  | (n, st) :: t, r =>
    if r / st < n then (regIndex t (r % st)).map (fun l => r / st :: l)
    else none

def RegDef.match? (d : RegDef) (off : Nat) : Option (List Nat) :=
  if off < d.base then none else regIndex d.dims (off - d.base)

/-- First register of a list that has a copy at the offset. -/
def regSearch : List RegDef → Nat → Option (RegDef × List Nat)
  | [], _ => none
  | d :: t, off =>
    match d.match? off with
    | some ix => some (d, ix)
    | none => regSearch t off

/-- The register copy at a control-space offset that is a multiple of 8; none is R13. -/
def regFind (off : Nat) : Option (RegDef × List Nat) :=
  if off % 8 = 0 then regSearch (regWindow off) off else none

/-- Logical tile of a physical tile in a part whose record lists no defect (R168): the first 24 of each group. -/
def defaultLogical (t : Nat) : Nat := if t % 25 < 24 then 24 * (t / 25) + t % 25 else 255

/-- The word built from the Reset column. -/
def RegDef.resetWord (d : RegDef) : W64 :=
  d.flds.foldl (fun w f => setFld w f.hi f.lo f.rst) 0#64

/-- Reset value of the register at an offset (R9), with the values that depend on the copy's number. -/
def regReset (off : Nat) : W64 :=
  match regFind off with
  | none => 0#64
  | some (d, ix) =>
    let i := ix.headD 0
    let w := d.resetWord
    if d.base = ANV_ID.at 0 then
      let l := defaultLogical i
      setFld (setFld (setFld (setFld (setFld w 31 30 (if l = 255 then 1 else 0)) 22 20 (i / 25)) 19 18 (i / 50))
        15 8 l) 7 0 i
    else if d.base = VRG_ID.at 0 then setFld w 3 0 i
    else if d.base = MSC_ID.at 0 then setFld w 3 0 i
    else w

/-- The register at an offset. -/
def State.reg (s : State) (off : Nat) : W64 := SMap.get (regReset off) s.regs off

/-- A register set whole. -/
def State.setReg (s : State) (off : Nat) (v : W64) : State :=
  { s with regs := SMap.put (regReset off) s.regs off v }

/-- A field of a register. -/
def State.f (s : State) (r : FRef) : Nat := fld (s.reg r.off) r.hi r.lo

/-- A field of a register set; the register's other bits are kept. -/
def State.setF (s : State) (r : FRef) (v : Nat) : State := s.setReg r.off (setFld (s.reg r.off) r.hi r.lo v)

/-- A one-bit field. -/
def State.flag (s : State) (r : FRef) : Bool := s.f r == 1

def State.setFlag (s : State) (r : FRef) (b : Bool) : State := s.setF r (if b then 1 else 0)

/-- A field raised by n, modulo its width. -/
def State.bump (s : State) (r : FRef) (n : Nat) : State := s.setF r (s.f r + n)

/-- A field raised by n, stopping at its largest value. -/
def State.bumpSat (s : State) (r : FRef) (n : Nat) : State :=
  s.setF r (min (2 ^ (r.hi + 1 - r.lo) - 1) (s.f r + n))

/-- A signed 64-bit register. -/
def State.signed (s : State) (r : FRef) : Int := sfld (s.reg r.off) r.hi r.lo

def State.setSigned (s : State) (r : FRef) (v : Int) : State := s.setF r (twos (r.hi + 1 - r.lo) v)

/-- Registers dropped back to their reset values at the offsets of a list. -/
def State.resetRegs (s : State) (offs : List Nat) : State :=
  { s with regs := offs.foldl SMap.erase s.regs }

/-! ## Tiles and jobs -/

/-- Physical tile of a logical tile (R168): the enabled tile whose LOGICAL is l. -/
def State.physOf (s : State) (l : Nat) : Option Nat :=
  (List.range 200).find? (fun t => s.f (ANV_ID.STATE t) == 0 && s.f (ANV_ID.LOGICAL t) == l)

def State.tile (s : State) (t : Nat) : TileState := SMap.get TileState.zero s.tiles t

def State.setTile (s : State) (t : Nat) (x : TileState) : State :=
  { s with tiles := SMap.put TileState.zero s.tiles t x }

/-- STATE codes of R581. -/
def jNONE : Nat := 0
def jSAVED : Nat := 1
def jRESTORING : Nat := 2
def jRUNNING : Nat := 3
def jSAVING : Nat := 4
def jENDING : Nat := 5

def State.jobState (s : State) (j : Nat) : Nat := s.f (EQX_JOB_STATUS.STATE j)

/-- The tile holds a job's state (JOB_V, R175). -/
def State.loaded (s : State) (t : Nat) : Bool := s.flag (ANV_ID.JOB_V t)

/-- Whether logical tile l is in the tile set of job j (R579). -/
def State.inSet (s : State) (j l : Nat) : Bool :=
  decide (l < 192) && bitAt (s.reg (EQX_JOB_TILES.at j (l / 64))) (l % 64)

/-- The logical tiles of job j. -/
def State.tileSet (s : State) (j : Nat) : List Nat := (List.range 192).filter (fun l => s.inSet j l)

def savedKey (j l : Nat) : Nat := 256 * j + l

/-- The physical tile that holds the live copy of job j's logical tile l, while its tiles are loaded and not being
restored (R593, R594). -/
def State.livePhys (s : State) (j l : Nat) : Option Nat :=
  if s.jobState j = jRUNNING ∨ s.jobState j = jSAVING then s.physOf l else none

/-- The job state of logical tile l of job j, at the place that holds its current copy (R593). -/
def State.ctx (s : State) (j l : Nat) : TileState :=
  match s.livePhys j l with
  | some t => s.tile t
  | none => SMap.get TileState.zero s.saved (savedKey j l)

def State.setCtx (s : State) (j l : Nat) (x : TileState) : State :=
  match s.livePhys j l with
  | some t => s.setTile t x
  | none => { s with saved := SMap.put TileState.zero s.saved (savedKey j l) x }

def TileState.queue (x : TileState) (q : Nat) : Queue := SMap.get Queue.empty x.queues q

def TileState.setQueue (x : TileState) (q : Nat) (v : Queue) : TileState :=
  { x with queues := SMap.put Queue.empty x.queues q v }

def State.queue (s : State) (j l q : Nat) : Queue := (s.ctx j l).queue q

def State.setQueue (s : State) (j l q : Nat) (v : Queue) : State :=
  s.setCtx j l ((s.ctx j l).setQueue q v)

/-- A signal adds its increment to a token modulo 2^16 (R160, R594). -/
def TileState.signal (x : TileState) (tok inc : Nat) : TileState :=
  { x with tok := SMap.put 0#16 x.tok tok (SMap.get 0#16 x.tok tok + BitVec.ofNat 16 inc) }

/-- Parking ends, and the job has demand again unless it is held (R583). -/
def State.unpark (s : State) (j : Nat) : State :=
  if s.parked.contains j then
    { s with parked := dropNum s.parked j, demT := if s.flag (EQX_JOB_CTL.HOLD j) then s.demT else addNum s.demT j }
  else s

/-- A signal to a token of job j's logical tile l; a signal to a saved tile ends the job's parking (R583, R594). -/
def State.signal (s : State) (j l tok inc : Nat) : State :=
  (s.setCtx j l ((s.ctx j l).signal tok inc)).unpark j

/-- The job whose state is loaded in tile t, and its logical tile. -/
def State.jobOf (s : State) (t : Nat) : Nat := s.f (ANV_ID.JOB t)
def State.ltile (s : State) (t : Nat) : Nat := s.f (ANV_ID.LOGICAL t)

/-- Jobs 0 - 63 that are resident. -/
def State.resident (s : State) (j : Nat) : Bool := s.jobState j != jNONE

def jobList : List Nat := List.range 64

/-! ## Performance counters (R181 - R184, R237) -/

/-- A performance counter raised by n, modulo 2^48, with OVF on a wrap (R183). -/
def State.perfAdd (s : State) (cnt ovf : FRef) (n : Nat) : State :=
  let v := s.f cnt + n
  let s := s.setF cnt v
  if v ≥ 2 ^ 48 then s.setFlag ovf true else s

/-- Event ev of tile t occurs n times: each enabled counter that selects it counts. -/
def State.anvEvent (s : State) (t ev n : Nat) : State :=
  if s.flag (ANV_PERF_CTL.ENABLE t) ∧ s.flag (ANV_PERF_CTL.FREEZE t) = false then
    (List.range 8).foldl (fun s k =>
      if s.f (ANV_PERF_SEL.EVENT t k) = ev then s.perfAdd (ANV_PERF_CNT.COUNT t k) (ANV_PERF_CNT.OVF t k) n else s) s
  else s

/-- Event ev of stack n's engine occurs k times. -/
def State.vrgEvent (s : State) (n ev k : Nat) : State :=
  if s.flag (VRG_PERF_CTL.ENABLE n) ∧ s.flag (VRG_PERF_CTL.FREEZE n) = false then
    (List.range 8).foldl (fun s i =>
      if s.f (VRG_PERF_SEL.EVENT n i) = ev then s.perfAdd (VRG_PERF_CNT.COUNT n i) (VRG_PERF_CNT.OVF n i) k else s) s
  else s

/-- An automatic service action becomes due (R741), once for each object. -/
def State.due (s : State) (action target : Nat) : State :=
  if s.svcDue.contains (action, target) ∨ s.svc = some (action, target) then s
  else { s with svcDue := s.svcDue ++ [(action, target)] }

/-- ZEN's firmware runs: no restart is in progress (R718), its domain has not stopped (R688) and the module has power. -/
def State.zenUp (s : State) : Bool := !s.zenRestart && !s.zenLost && s.pgood

/-- STATE of ZEN_BOOT is READY (R726), or RECOVERY (R727). -/
def State.ready (s : State) : Bool := s.f ZEN_BOOT.STATE == 2
def State.recovery (s : State) : Bool := s.f ZEN_BOOT.STATE == 3

/-- Live phases of stack n's rail (R754). -/
def State.vrgLive (s : State) (n : Nat) : Nat := s.f ⟨ZEN_PHASE.at, 3 * n + 2, 3 * n⟩

/-- Spares in the order of rule 3 of R168 for a logical tile whose own group is g: its group, the other group of the same
field, then the fields that follow. -/
def spareOrder (g : Nat) : List Nat :=
  [g, g / 2 * 2 + (1 - g % 2)] ++ [1, 2, 3].flatMap (fun k => let f := (g / 2 + k) % 4; [2 * f, 2 * f + 1])

/-- The first spare for a logical tile (R168, R744), among those that a test admits. -/
def State.spareFor (s : State) (g : Nat) : Option Nat :=
  (spareOrder g).findSome? (fun h => (List.range 25).findSome? (fun i =>
    if s.f (ANV_ID.STATE (25 * h + i)) = 1 then some (25 * h + i) else none))

/-! ## Clocked domains (R679, R684 - R694) -/

def dMSC (n : Nat) : Nat := n
def dSIF (n : Nat) : Nat := 16 + n
def dDYL (p : Nat) : Nat := 32 + p
def dDYC : Nat := 34
def dCXP (p : Nat) : Nat := 35 + p
def dXWF (p : Nat) : Nat := 39 + p
def dZEN : Nat := 55
def dXWE : Nat := 56
def dDSK : Nat := 57
def dSBD : Nat := 58
def dJTG : Nat := 59

def State.domState (s : State) (d : Nat) : Nat := s.f (TDC_DOM_STATUS.STATE d)

def State.domRuns (s : State) (d : Nat) : Bool := s.domState d == 0

/-- A request into a domain completes with a bus error: it is PARKED, or STOPPED in WAKE mode (R685, R686). -/
def State.domRefuses (s : State) (d : Nat) : Bool :=
  s.domState d == 1 || (s.domState d == 2 && !s.flag (TDC_DOM_CTL.SCM d))

/-- A request into a domain waits: it is STOPPED in HANG mode, or its crossings resynchronise (R686, R691). -/
def State.domWaits (s : State) (d : Nat) : Bool :=
  s.domState d == 3 || (s.domState d == 2 && s.flag (TDC_DOM_CTL.SCM d))

/-- One side of a running domain's crossings was reset: they resynchronise (R690) (DEDUCED, log entry 57). -/
def State.resync (s : State) (d : Nat) : State := if s.domRuns d then s.setF (TDC_DOM_STATUS.STATE d) 3 else s

/-! ## Who may write a register (R8, R22 - R24, R682, R686, R726, R737, R738) -/

/-- The sideband reaches the device (R687, R773). -/
def State.sbUp (s : State) : Bool := s.vddSb && s.pgood && s.domRuns dSBD

/-- Clocked domain that a control-space offset lies in (R679, R682). The registers of a port stay reachable while its own
clock is parked, since one of them ends that state (DEDUCED, log entry 60). -/
def ctlDomain (off : Nat) : Option Nat :=
  if off < 0x100000 then some dZEN
  else if off < 0x300000 then none
  else if off < 0x400000 then some dDSK
  else if off < 0x1000000 then some dZEN
  else if off < 0x1080000 then none
  else if off < 0x1100000 then some dDYC
  else if off < 0x1200000 then none
  else if off < 0x1400000 then (if 0x1200100 ≤ off ∧ off < 0x1200500 then none else some dXWE)
  else if off < 0x2000000 then none
  else if off < 0x3000000 then some (dMSC ((off - 0x2000000) / 0x100000))
  else if off < 0x8000000 then none
  else some dZEN

/-- The companion reaches an offset before READY, and in RECOVERY (R726, R727). -/
def State.bootReach (s : State) (off : Nat) : Bool :=
  s.ready || decide (off < 0x100000) || (!s.recovery && decide (0x1000000 ≤ off) && decide (off < 0x1100000))

/-- The block of an offset is there: the window of a tile that is not enabled falls under R13 (R23). -/
def State.tileReach (s : State) (off : Nat) : Bool :=
  decide (off < 0x4000000) || decide (0x8000000 ≤ off) ||
    (let t := (off - 0x4000000) / 0x40000
     decide (t < 200) && s.f (ANV_ID.STATE t) == 0)

/-- Some Dysiric port is in L0. -/
def State.dylUp (s : State) : Bool := (List.range 2).any (fun p => s.f (DYL_PORT_STATUS.STATE p) == 2)

/-- A sender reaches the register's block: no clock or boot state refuses or holds the access, and the companion's comes
over the Dysiric Link (R24). -/
def State.reaches (s : State) (by_ : Agent) (off : Nat) : Bool :=
  (match by_ with
   | .companion => s.pgood && s.dylUp && s.bootReach off
   | .zen => s.zenUp
   | .mc => s.sbUp) &&
  (match ctlDomain off with
   | some d => s.domRuns d
   | none => true)

/-- Writes of the sender to the register are accepted (the Writes lines of the field tables). -/
def RegDef.from (d : RegDef) (by_ : Agent) : Bool :=
  match by_ with
  | .companion => d.byComp
  | .zen => d.byZen
  | .mc => d.byMc

/-- A write of a register has its effect. -/
def State.accepts (s : State) (by_ : Agent) (off : Nat) : Bool :=
  s.reaches by_ off && s.tileReach off &&
  (match regFind off with
   | some (d, _) => d.from by_
   | none => false)

/-! ## Switched domains and plain mode (R217, R221, R229, R697) -/

/-- GROUP_OFF of a tile group, or DOMAIN_OFF of a stack, shows its domain (R176, R231). -/
def State.showOff (s : State) (d : Nat) (off : Bool) : State :=
  if d < 8 then (List.range 25).foldl (fun s i => s.setFlag (ANV_STATUS.GROUP_OFF (25 * d + i)) off) s
  else if 13 ≤ d ∧ d < 29 then s.setFlag (VRG_STATUS.DOMAIN_OFF (d - 13)) off
  else s

/-- A domain goes off; it then reads zero power (R701). -/
def State.powerOff (s : State) (d : Nat) : State := (s.setReg (PWR_DOM_STATUS.at d) 0#64).showOff d true

/-- The engine of stack n is plain or retired: it runs nothing (R221 - R223). -/
def State.plain (s : State) (n : Nat) : Bool := s.flag (VRG_CTL.PLAIN n) || decide (s.f (VRG_ID.MODE n) ≥ 2)

/-- Stack n enters plain mode: MODE reads PLAIN, every slot is cleared, and its compute domain goes off with the VPC
(R217, R221, steps 5 and 6 of R223). -/
def State.enterPlain (s : State) (n : Nat) : State :=
  let s := (s.setF (VRG_ID.MODE n) 2).setTile (200 + n) TileState.zero
  { s with slots := SMap.dropRange s.slots (65536 * n) 65536 }.powerOff (13 + n)

/-- A free value taken: the counter that the opaque constants of Config read. -/
def State.takeFree (s : State) : State := { s with free := s.free + 1 }

end Sys2Proof.Machine
end

