-- ==== Sys2Proof/Machine/Erq.lean ====
section
/-! DEFINITION. Raising messages to the companion (R645, R646) and entering records in the error record queue
(R417 - R424). -/
namespace Sys2Proof.Machine

/-- A message raised; MESSAGE_WRITE writes it or folds it (R645, R647). -/
def State.post (s : State) (kind : Nat) (job : Option Nat) (value : W64) (addr : Nat) : State :=
  { s with msgs := s.msgs ++ [⟨kind, job, value, addr⟩] }

/-- PROD and CONS of the ERQ. -/
def State.erqProd (s : State) : Nat := s.f ERQ_PROD.PROD
def State.erqCons (s : State) : Nat := s.f ERQ_CONS.CONS

/-- Records queued and not consumed, modulo 2^32 (R417). -/
def State.erqCount (s : State) : Nat := (s.erqProd + 2 ^ 32 - s.erqCons) % 2 ^ 32

/-- An unconsumed record of the same BLOCK and INST exists (R421). -/
def State.erqNested (s : State) (block inst : Nat) : Bool :=
  (List.range (min 64 s.erqCount)).any (fun i =>
    let w := s.reg (ERQ_REC.at ((s.erqCons + i) % 64) 0)
    fld w 12 8 == block && fld w 7 0 == inst)

/-- Word 0 of a record (R419). -/
def erqWord0 (seq : W32) (r : ErqRec) (nested joined : Bool) : W64 :=
  let w := setFld (setFld (setFld 0#64 63 32 seq.toNat) 31 24 r.typ) 23 22 r.sev
  let w := setFld (setFld w 21 21 nested.toNat) 20 20 joined.toNat
  let w := match r.job with
    | some j => setFld (setFld w 19 19 1) 18 13 j
    | none => w
  setFld (setFld w 12 8 r.block) 7 0 r.inst

/-- The four words of a record with number seq. -/
def erqWords (s : State) (seq : W32) (r : ErqRec) (joined : Bool) : List W64 :=
  [erqWord0 seq r (s.erqNested r.block r.inst) joined, setFld 0#64 47 0 r.addr, r.detail,
    setFld 0#64 63 32 s.ms.toNat]

/-- Words w of a record stored from register offset a upward. -/
def State.storeWords (s : State) (a : Nat) : List W64 → State
  | [] => s
  | w :: ws => (s.setReg a w).storeWords (a + 8) ws

/-- The CAUSE bits of ZEN_ALERT that a record sets (R758). -/
def State.alertFor (s : State) (sev : Nat) : State :=
  if sev = 3 then s.setFlag ZEN_ALERT.FATAL true
  else if sev = 2 then s.setFlag ZEN_ALERT.CONTAINED true
  else s

/-- A record counted lost (R423). -/
def State.erqLose (s : State) : State := (s.bump ERQ_LOST.COUNT 1).setFlag ZEN_ALERT.LOST true

/-- A record of SEV 3 is latched when FVALID is 0, whether it is queued or not (R423). -/
def State.erqLatch (s : State) (r : ErqRec) (ws : List W64) : State :=
  if r.sev = 3 ∧ s.flag ERQ_FATAL_V.FVALID = false then
    (s.storeWords (ERQ_FATAL.at 0) ws).setFlag ERQ_FATAL_V.FVALID true
  else s

/-- A record with number seq enters the queue (R417, R421 - R423): a record of SEV 3 is latched when FVALID is 0, and it
is queued, or lost when the queue is full. -/
def State.erqQueue (s : State) (seq : W32) (r : ErqRec) (joined : Bool) : State :=
  let ws := erqWords s seq r joined
  let s := (s.alertFor r.sev).erqLatch r ws
  if s.erqCount = 64 then s.erqLose
  else
    let p := s.erqProd
    let s := (s.storeWords (ERQ_REC.at (p % 64) 0) ws).setF ERQ_PROD.PROD (p + 1)
    s.post 1 none (BitVec.ofNat 64 (s.erqProd)) 0

/-- A unit writes a record (R417), which takes a SEQ (R419). During a ZEN restart each unit holds one record and its
further ones are counted lost (R718). While the ZEN domain is lost there are no records (R688) (DEDUCED, log entry 25).
-/
def State.erq (s : State) (r : ErqRec) (joined : Bool := false) : State :=
  if s.zenLost then s
  else
    let seq := s.erqSeq
    let s := { s with erqSeq := seq + 1#32 }
    if s.zenRestart then
      if s.heldRecs.any (fun h => h.2.2.block == r.block && h.2.2.inst == r.inst) then
        (s.erqLatch r (erqWords s seq r joined)).erqLose
      else { s with heldRecs := s.heldRecs ++ [(seq, joined, r)] }
    else s.erqQueue seq r joined

/-- SEQ that the next record takes. -/
def State.nextSeq (s : State) : W32 := s.erqSeq

/-- Block numbers of R419. -/
def bZEN : Nat := 0
def bEQX : Nat := 1
def bSRV : Nat := 2
def bDSK : Nat := 3
def bLDR : Nat := 4
def bPWR : Nat := 5
def bDYL : Nat := 6
def bCXP : Nat := 7
def bXWF : Nat := 8
def bCLB : Nat := 9
def bMSC : Nat := 10
def bVRG : Nat := 11
def bANV : Nat := 12
def bTDC : Nat := 13

end Sys2Proof.Machine
end

