-- ==== Sys2Proof/Machine/Memory.lean ====
section
/-! DEFINITION. The memories of chapters 8 and 9: address map, H512, segments, page judgement, the merge buffer and
its write-back, mirrors and poison. -/
namespace Sys2Proof.Machine

/-! ## Address map (R14, R337 - R340) -/

/-- S: bytes per stack (R337). -/
def State.stackBytes (s : State) : Nat := 2 ^ 30 * s.f ZEN_ID.CAP_GIB

inductive Region where
  | stack | far | scratch | spm | control | growth
deriving DecidableEq, Repr

def farBase : Nat := 0x020000000000
def scratchBase : Nat := 0x0F0000000000
def ctlBase : Nat := 0x0FFF00000000

def State.region (s : State) (a : Nat) : Region :=
  if a < 16 * s.stackBytes then .stack
  else if farBase ≤ a ∧ a < 0x0A0000000000 then .far
  else if scratchBase ≤ a ∧ a < scratchBase + 2 ^ 30 then .scratch
  else if inSpm a then .spm
  else if ctlBase ≤ a ∧ a < ctlBase + 2 ^ 28 then .control
  else .growth

/-- Pages per stack. -/
def State.stackPages (s : State) : Nat := s.stackBytes / 4096

/-- Stack of a local page number, and the page's number within its stack. -/
def State.stackOf (s : State) (gp : Nat) : Nat := gp / s.stackPages
def State.pageIn (s : State) (gp : Nat) : Nat := gp % s.stackPages

/-- Channel of a page within its stack (R339). -/
def h512 (p : Nat) : Nat :=
  (p % 32) ^^^ (p / 2 ^ 5 % 32) ^^^ (p / 2 ^ 10 % 32) ^^^ (p / 2 ^ 15 % 32) ^^^ (p / 2 ^ 20 % 32)

/-- Global channel of a local page number. -/
def State.gchan (s : State) (gp : Nat) : Nat := 32 * s.stackOf gp + h512 (s.pageIn gp)

/-! ## Segments (R343 - R346) -/

structure Seg where
  v : Bool
  cls : Nat
  pr : Bool
  pw : Bool
  codeT : Nat
  cache : Bool
  mirV : Bool
  mirFar : Bool
  mrot : Nat
  base : Nat
  stkMask : Nat
  limit : Nat
  mirror : Nat
deriving DecidableEq, Repr

/-- The segment that the words W0 - W2 of a descriptor give. -/
def Seg.ofWords (w0 w1 w2 : W64) : Seg :=
  ⟨bitAt w0 63, fld w0 62 61, bitAt w0 60, bitAt w0 59, fld w0 58 57, bitAt w0 56, bitAt w0 55, bitAt w0 54,
    fld w0 51 48, fld w0 47 12, fld w1 63 48, fld w1 47 12, fld w2 47 12⟩

def State.seg (s : State) (j i : Nat) : Seg :=
  Seg.ofWords (s.reg (LDR_SEG_W0.at j i)) (s.reg (LDR_SEG_W1.at j i)) (s.reg (LDR_SEG_W2.at j i))

/-- Correctable symbols of a CODE_T code (R389). -/
def codeSymbols (c : Nat) : Nat := match c with | 0 => 4 | 1 => 8 | 2 => 16 | _ => 32

/-- Whether a segment covers address a (R344). -/
def Seg.covers (g : Seg) (sb a : Nat) : Bool :=
  g.v && (if g.stkMask = 0 then decide (g.base * 4096 ≤ a) && decide (a < g.limit * 4096 + 4096)
    else decide (a < 16 * sb) && g.stkMask.testBit (a / sb) &&
      decide (g.base * 4096 ≤ a % sb) && decide (a % sb < g.limit * 4096 + 4096))

/-- Segment of job j that covers the bytes a to a + n - 1 whole (R301, R118); a segment's copies in different stacks
are different ranges. -/
def State.segOf (s : State) (j a n : Nat) : Option Nat :=
  (List.range 16).find? (fun i =>
    let g := s.seg j i
    g.covers s.stackBytes a && g.covers s.stackBytes (a + n - 1) &&
      (g.stkMask == 0 || a / s.stackBytes == (a + n - 1) / s.stackBytes))

/-- A segment of job j covers the bytes and permits the access. -/
def State.segOk (s : State) (j a n : Nat) (write : Bool) : Bool :=
  match s.segOf j a n with
  | some i => if write then (s.seg j i).pw else (s.seg j i).pr
  | none => false

/-- Mirror address of byte a of a segment's primary (R346). -/
def Seg.mirrorOf (g : Seg) (sb a : Nat) : Nat :=
  let n := a / sb
  let o := if g.stkMask = 0 then a - g.base * 4096 else a % sb - g.base * 4096
  if g.mirFar then
    let k := ((List.range n).filter (fun i => g.stkMask.testBit i)).length
    g.mirror * 4096 + (if g.stkMask = 0 then 0 else k) * ((g.limit - g.base + 1) * 4096) + o
  else (n + g.mrot) % 16 * sb + g.mirror * 4096 + o

/-- Segments with a mirror, of any resident job. -/
def State.mirrored (s : State) : List Seg :=
  (jobList.flatMap (fun j => (List.range 16).map (fun i => s.seg j i))).filter (fun g => g.v && g.mirV)

/-- The other copy of the page at local address a: its mirror when a is a primary, its primary when a is a mirror in
stack memory (R404). -/
def State.otherCopy (s : State) (a : Nat) : Option Nat :=
  let sb := s.stackBytes
  match s.mirrored.find? (fun g => g.covers sb a) with
  | some g => some (g.mirrorOf sb a)
  | none =>
    (s.mirrored.findSome? (fun g =>
      if g.mirFar then none
      else
        let n := (a / sb + 16 - g.mrot) % 16
        let back := if g.stkMask = 0 then g.base * 4096 + (a % sb - g.mirror * 4096)
          else n * sb + g.base * 4096 + (a % sb - g.mirror * 4096)
        if decide (g.mirror * 4096 ≤ a % sb) && g.covers sb back && g.mirrorOf sb back == a then some back
        else none))

/-! ## Redirects (R372 - R375) -/

/-- Valid redirect entries of stack n, as register words with their numbers. -/
def State.redirs (s : State) (n : Nat) : List (Nat × W64) :=
  let b := MSC_REDIR.at n 0
  (s.regs.filter (fun p => decide (b ≤ p.1) && decide (p.1 < b + 0x8000) && bitAt p.2 63)).map
    (fun p => ((p.1 - b) / 8, p.2))

/-- Key of a reserve page. -/
def reserveKey (n ch r : Nat) : Nat := (32 * n + ch) * 32768 + r

/-- Where page j of channel c of stack n lies when a redirect moves it: an ACTIVE extent, or the copied part of the
extent being copied (R373, R375). -/
def State.redirected (s : State) (n c j : Nat) : Option Nat :=
  s.redirs n |>.findSome? (fun e =>
    let w := e.2
    let sz := 2 ^ fld w 60 57
    let j0 := fld w 51 32
    if fld w 56 52 = c ∧ j0 ≤ j ∧ j < j0 + sz then
      if fld w 62 61 = 1 ∨ (fld w 62 61 = 0 ∧ s.f (MSC_COPY.ENTRY n) = e.1 ∧ j - j0 < s.f (MSC_COPY.CP n)) then
        some (reserveKey n (fld w 31 27) (fld w 26 12 + (j - j0)))
      else none
    else none)

def State.pageSpot (s : State) (gp : Nat) : Option Nat :=
  let p := s.pageIn gp
  s.redirected (s.stackOf gp) (h512 p) (p / 32)

/-- A page that is not listed (R396, R397). -/
def State.blankPage (s : State) (gp : Nat) : Page :=
  match Runs.get none s.blank gp with
  | some b => b.page gp
  | none => Page.zero

/-- Pages lo to lo + n - 1 of DRAM, bare ones all told by b. -/
def State.setBlank (s : State) (lo n : Nat) (b : Option Blank) : State :=
  { s with pages := SMap.dropRange s.pages lo n, blank := Runs.set none s.blank lo n b }

/-- The stored page that a local page number reaches. -/
def State.page (s : State) (gp : Nat) : Page :=
  match s.pageSpot gp with
  | some k => SMap.get Page.zero s.reserve k
  | none => SMap.get (s.blankPage gp) s.pages gp

def State.setPage (s : State) (gp : Nat) (pg : Page) : State :=
  match s.pageSpot gp with
  | some k => { s with reserve := SMap.put Page.zero s.reserve k pg }
  | none =>
    if pg.bare then s.setBlank gp 1 (if pg = Page.zero then none else some ⟨pg.tag, pg.stamp - BitVec.ofNat 64 gp⟩)
    else { s with pages := SMap.insert (SMap.erase s.pages gp) gp pg }

/-- The channel is FAILED and no ACTIVE redirect covers the page (R371). -/
def State.failed (s : State) (gp : Nat) : Bool :=
  s.f (MSC_CH_STATUS.STATE (s.stackOf gp) (h512 (s.pageIn gp))) == 2 && (s.pageSpot gp).isNone

/-- The channel that serves a page is paused by a retrain (R370). -/
def State.paused (s : State) (gp : Nat) : Bool :=
  let n := s.stackOf gp
  let c := match s.pageSpot gp with
    | some k => k / 32768 % 32
    | none => h512 (s.pageIn gp)
  s.f (MSC_CH_STATUS.STATE n c) == 1

/-! ## Far tier (R360, R361) -/

/-- The decoder that holds a far address. -/
def State.farDecoder (s : State) (a : Nat) : Option Nat :=
  (List.range 16).find? (fun d => s.flag (CXP_HDM_RANGE.V d) &&
    decide (2 ^ 28 * s.f (CXP_HDM_RANGE.BASE d) ≤ a) &&
    decide (a < 2 ^ 28 * (s.f (CXP_HDM_RANGE.BASE d) + s.f (CXP_HDM_RANGE.SIZE d) + 1)))

/-- Set bits of a 4-bit mask, lowest first. -/
def setBits (m : Nat) : List Nat := (List.range 4).filter (fun i => m.testBit i)

/-- Port that serves a far address: the k-th set port of its decoder (R361). -/
def State.farPort (s : State) (a : Nat) : Option Nat :=
  match s.farDecoder a with
  | none => none
  | some d =>
    let ports := setBits (s.f (CXP_HDM_TGT.PORTS d))
    let k := (a - 2 ^ 28 * s.f (CXP_HDM_RANGE.BASE d)) / 4096 % max 1 ports.length
    ports[k]?

/-- The port that serves a far access, where its link is up (R362). -/
def State.farLive (s : State) (a : Nat) : Option Nat :=
  match s.farPort a with
  | some p => if s.f (CXP_PORT_STATUS.MODE p) = 0 then none else some p
  | none => none

/-! ## Page judgement (R391, R394, R395) -/

/-- Expected STAMP of a page (R394). -/
def State.stampOf (s : State) (gp : Nat) : W64 :=
  BitVec.ofNat 64 (2 ^ 32 * (genWord (s.f (MSC_GEN.GEN (s.stackOf gp)))).toNat + s.pageIn gp % 2 ^ 32)

def tagPoison (t : BitVec 24) : Bool := t.toNat.testBit 23
def tagClass (t : BitVec 24) : Nat := bitsOf t.toNat 22 21
def tagCode (t : BitVec 24) : Nat := bitsOf t.toNat 20 19

/-- TAG of a class, strength and mirror flag, POISON 0 (R389). -/
def mkTag (cls codeT : Nat) (mcopy : Bool) : BitVec 24 :=
  BitVec.ofNat 24 (cls * 2 ^ 21 + codeT * 2 ^ 19 + mcopy.toNat * 2 ^ 18)

def withPoison (t : BitVec 24) (b : Bool) : BitVec 24 :=
  BitVec.ofNat 24 (t.toNat % 2 ^ 23 + b.toNat * 2 ^ 23)

/-- What reading a page gives (R395); `bad` carries the cause number of MEM_POISONED and the piece. -/
inductive PageRes where
  | zero
  | ok (data : Bytes) (fixed : Nat)
  | bad (cause piece : Nat)
  | poisoned
deriving DecidableEq, Repr

/-- Data bytes with never-written granules as zero. -/
def maskGranules (written : W64) (d : Bytes) : Bytes := d.filter (fun p => bitAt written (p.1 / 64))

/-- The 4,104-byte message of a page (R390). -/
def pageMessage (d : Bytes) (written : W64) : List Byte := Bytes.rdList d 0 4096 ++ leBytes 8 written.toNat

/-- Bytes of a number as a sparse memory. -/
def bytesOfNat (n v : Nat) : Bytes := Bytes.wrList [] 0 (leBytes n v)

/-- Judgement of a page against the STAMP it should carry, by the order of R395. -/
def judge (expect : W64) (pg : Page) : PageRes :=
  if popcount ((pg.stamp ^^^ expect).toNat) > 4 then .zero
  else if pg.tagErrs > 1 then .bad 2 0
  else if tagPoison pg.tag then .poisoned
  else if pg.written = 0#64 then .zero
  else
    let d := maskGranules pg.written pg.data
    if tagClass pg.tag = 2 then
      match (List.range 16).find? (fun b =>
        decide (crc32c (Bytes.rdList pg.data (256 * b) 256) ≠ Bytes.rdNat pg.par (4 * b) 4)) with
      | some b => .bad 3 b
      | none => .ok d 0
    else
      let t := codeSymbols (tagCode pg.tag)
      let word := symbolsOf (2 * t) (Bytes.rdNat pg.par 0 96) ++ rsMessage (Bytes.rdList d 0 4096) pg.written
      match rsDecode t word with
      | none => .bad 0 0
      | some (w, k) =>
        let m := ofSymbols (w.drop (2 * t))
        let d' := bytesOfNat 4096 (m % 2 ^ 32768)
        let wr := BitVec.ofNat 64 (m / 2 ^ 32768)
        if crc32c (pageMessage d' wr) = pg.dcrc.toNat then .ok (maskGranules wr d') k else .bad 1 0

/-- A page encoded for its TAG (R388, R390): parity and DCRC, or the CRC of each piece. -/
def encodePage (data : Bytes) (written : W64) (tag : BitVec 24) (stamp : W64) : Page :=
  let d := maskGranules written data
  if tagClass tag = 2 then
    let crcs := (List.range 16).flatMap (fun b => leBytes 4 (crc32c (Bytes.rdList d (256 * b) 256)))
    ⟨d, Bytes.wrList [] 0 crcs, written, tag, 0#32, stamp, 0⟩
  else
    let t := codeSymbols (tagCode tag)
    let par := ofSymbols (rsParity t (rsMessage (Bytes.rdList d 0 4096) written))
    ⟨d, bytesOfNat 96 par, written, tag, BitVec.ofNat 32 (crc32c (pageMessage d written)), stamp, 0⟩

/-- Judgement of a local page number; a FAILED channel reads as poisoned (R371). -/
def State.judgePage (s : State) (gp : Nat) : PageRes :=
  if s.failed gp then .poisoned else judge (s.stampOf gp) (s.page gp)

/-- The MSC poisons an uncorrectable page (R408): POISON set, counted, and recorded. -/
def State.poisonPage (s : State) (gp cause piece : Nat) : State :=
  let pg := s.page gp
  let n := s.stackOf gp
  let fresh := if tagPoison pg.tag then 0 else 1
  let s := s.setPage gp { pg with tag := withPoison pg.tag true, tagErrs := 0 }
  let s := s.bump (MSC_POISONED.PAGES n) fresh
  let s := s.bumpSat (MSC_ECC_COUNT.UE n) 1
  s.erq ⟨0x04, 2, bMSC, n, none, gp * 4096,
    BitVec.ofNat 64 (cause * 256 + piece * 16 + tagClass pg.tag)⟩

/-- A corrected page counted (R420, R426); a heavy correction is recorded. -/
def State.countFixed (s : State) (gp k : Nat) : State :=
  if k = 0 then s
  else
    let n := s.stackOf gp
    let s := s.bumpSat (MSC_ECC_COUNT.CE n) 1
    let s := { s with ceSince := SMap.put 0 s.ceSince n (SMap.get 0 s.ceSince n + 1) }
    let c := tagCode (s.page gp).tag
    if k > codeSymbols c / 2 then
      let s := if s.heavyPrev.contains gp then s.due 3 (gp * 4096) else s
      { s with heavyNow := addNum s.heavyNow gp }.erq ⟨0x02, 1, bMSC, n, none, gp * 4096, BitVec.ofNat 64 (c * 256 + k)⟩
    else s

/-! ## The merge buffer (R398 - R404) -/

def State.mergeBuf (s : State) (gc : Nat) : List MergeEntry := SMap.get [] s.merge gc

def State.setMergeBuf (s : State) (gc : Nat) (l : List MergeEntry) : State :=
  { s with merge := SMap.put [] s.merge gc l }

def State.mergeEntry (s : State) (gp : Nat) : Option MergeEntry :=
  (s.mergeBuf (s.gchan gp)).find? (fun e => e.page == gp)

/-- All 4,096 bytes of an entry are written. -/
def fullMask : Nat := 2 ^ 4096 - 1

/-- Mask bits of a run of bytes. -/
def runMask (off n : Nat) : Nat := (2 ^ n - 1) * 2 ^ off

/-- Bit set of the granules that have some byte in a mask, and of those that have all. -/
def someGranules (mask : Nat) : Nat :=
  (List.range 64).foldl (fun a g => if mask / 2 ^ (64 * g) % 2 ^ 64 = 0 then a else a + 2 ^ g) 0

/-- Granule g of a mask is wholly written. -/
def granuleFull (mask g : Nat) : Bool := mask / 2 ^ (64 * g) % 2 ^ 64 == 2 ^ 64 - 1

/-- Entry data over older data. -/
def overlay (mask : Nat) (new old : Bytes) : Bytes :=
  new.foldl (fun m p => SMap.put 0#8 m p.1 p.2) (old.filter (fun p => !(mask.testBit p.1)))

def MergeEntry.add (e : MergeEntry) (off : Nat) (bs : List Byte) : MergeEntry :=
  { e with data := Bytes.wrList e.data off bs, mask := e.mask ||| runMask off bs.length }

/-- Writes are held in the stack (R378). -/
def State.whold (s : State) (n : Nat) : Bool := s.flag (MSC_TEMP.WHOLD n)

/-- The page as the merge of an entry over what memory holds, after a write-back (R400): new WRITTEN, data encoded
under the page's own TAG, or class A where none is valid (R348, R396). -/
def mergedPage (expect : W64) (pg : Page) (res : PageRes) (e : MergeEntry) : Page :=
  let valid := decide (popcount ((pg.stamp ^^^ expect).toNat) ≤ 4)
  let tag := if valid then withPoison pg.tag false else mkTag 2 0 false
  let oldW := match res with
    | .ok _ _ => pg.written
    | _ => 0#64
  let old := match res with
    | .ok d _ => d
    | _ => []
  let w := oldW ||| BitVec.ofNat 64 (someGranules e.mask)
  encodePage (overlay e.mask e.data old) w tag expect

/-- All 4,096 bytes of a page whose memory part is d, merged with an entry (R401). -/
def mergedData (e : Option MergeEntry) (d : Bytes) : Bytes :=
  match e with
  | none => d
  | some e => overlay e.mask e.data d

/-- What the MSC reads of the other copy of a mirrored page (R404, R413, R376): its merged page, none where it is
uncorrectable or poisoned; what it finds uncorrectable is poisoned and recorded (R408). -/
def State.otherRead (s : State) (gp : Nat) : Option Bytes × State :=
  match s.otherCopy (gp * 4096) with
  | none => (none, s)
  | some a =>
    if s.region a = .far then
      match s.farLive a with
      | none => (none, s)
      | some p =>
        if s.farPoison.any (fun g => g / 64 == a / 4096) then
          (none, (s.setFlag (CXP_PORT_STATUS.POISON_SEEN p) true).erq ⟨0x04, 2, bCXP, p, none, a, 0x400#64⟩)
        else (some (Bytes.wrList [] 0 (Bytes.rdList s.far a 4096)), s)
    else
      let e := s.mergeEntry (a / 4096)
      if e.any (fun e => e.mask == fullMask) then (some (mergedData e []), s)
      else match s.judgePage (a / 4096) with
        | .ok d k => (some (mergedData e d), s.countFixed (a / 4096) k)
        | .zero => (some (mergedData e []), s)
        | .bad c p => (none, s.poisonPage (a / 4096) c p)
        | .poisoned => (none, s)

/-- A byte that the entry has not written lies in a granule whose old WRITTEN bit is 1: the write-back reads the old page
(R400). -/
def needsOld (written : W64) (mask : Nat) : Bool :=
  (List.range 64).any (fun g => bitAt written g && !granuleFull mask g)

/-- What a write-back learns of the old page (R400, R404): nothing where it does not read it, beyond its metadata. -/
def oldPage (expect : W64) (pg : Page) (mask : Nat) : PageRes :=
  if needsOld pg.written mask || decide (pg.tagErrs > 1) || tagPoison pg.tag then judge expect pg else .zero

/-- Write-back of an entry (R400, R404). -/
def State.writeBackEntry (s : State) (e : MergeEntry) : State :=
  let gp := e.page
  let n := s.stackOf gp
  let s := s.setMergeBuf (s.gchan gp) ((s.mergeBuf (s.gchan gp)).filter (fun x => x.page != gp))
  let pg := s.page gp
  let expect := s.stampOf gp
  if s.failed gp then s.erq ⟨0x06, 2, bMSC, n, none, gp * 4096, 1#64⟩
  else
    let unpoison := fun (t : State) => t.setF (MSC_POISONED.PAGES n) (t.f (MSC_POISONED.PAGES n) - 1)
    let wasPoison := tagPoison pg.tag && decide (popcount ((pg.stamp ^^^ expect).toNat) ≤ 4)
    if e.mask = fullMask then
      (if wasPoison then unpoison s else s).setPage gp (mergedPage expect pg .zero e)
    else match oldPage expect pg e.mask with
      | .ok d k => (s.countFixed gp k).setPage gp (mergedPage expect pg (.ok d k) e)
      | .zero => s.setPage gp (mergedPage expect pg .zero e)
      | r =>
        let s := match r with
          | .bad c p => s.poisonPage gp c p
          | _ => s
        match s.otherRead gp with
        | (some d, s) =>
          let full : MergeEntry := { e with data := overlay e.mask e.data d, mask := fullMask }
          (unpoison (s.setPage gp (mergedPage expect pg .zero full))).erq ⟨0x03, 1, bMSC, n, none, gp * 4096, 3#64⟩
        | (none, s) => s.erq ⟨0x06, 2, bMSC, n, none, gp * 4096, 0#64⟩

/-- Bytes taken into the page's entry, which exists (R399). -/
def State.mergeInto (s : State) (gp off : Nat) (bs : List Byte) : State :=
  let gc := s.gchan gp
  s.setMergeBuf gc ((s.mergeBuf gc).map (fun e => if e.page = gp then e.add off bs else e))

/-- The entry's write-back has started: it was told to, or all its granules are written (R400). -/
def MergeEntry.leaving (e : MergeEntry) : Bool := e.wb || e.mask == fullMask

/-- A free entry of the merge buffer of global channel gc: where none is free, the oldest entry that is not under
write-back is written back, or the oldest of all where every one is leaving (R399); none while that may not happen (R370,
R378). -/
def State.mergeRoom (s : State) (gc : Nat) : Option State :=
  if (s.mergeBuf gc).length < 16 then some s
  else if s.whold (gc / 32) then none
  else match ((s.mergeBuf gc).find? (fun e => !e.leaving)).or (s.mergeBuf gc).head? with
    | some old => if s.paused old.page then none else some (s.writeBackEntry old)
    | none => none

/-- An entry taken into the merge buffer of its page's channel as the newest one (R399). -/
def State.pushEntry (s : State) (e : MergeEntry) : Option State :=
  let gc := s.gchan e.page
  (s.mergeRoom gc).map (fun s => s.setMergeBuf gc (s.mergeBuf gc ++ [e]))

/-- A write inside one stack page through the merge buffer (R398, R399); none while the writer is back-pressured by a
write hold (R378) or by a retrain (R370). -/
def State.writePage (s : State) (gp off : Nat) (bs : List Byte) : Option State :=
  if s.paused gp then none
  else match s.mergeEntry gp with
    | some _ => some (s.mergeInto gp off bs)
    | none => s.pushEntry ((⟨gp, [], 0, false⟩ : MergeEntry).add off bs)

/-- Mask of the bytes of the granules whose WRITTEN bit is 1. -/
def writtenMask (written : W64) : Nat :=
  (List.range 64).foldl (fun a g => if bitAt written g then a + (2 ^ 64 - 1) * 2 ^ (64 * g) else a) 0

/-- A corrected or repaired page written back through the merge buffer (R398, R413): what an entry of the page already
holds is newer and stays. -/
def State.writeUnder (s : State) (gp : Nat) (d : Bytes) (mask : Nat) : Option State :=
  match s.mergeEntry gp with
  | some _ =>
    let gc := s.gchan gp
    some (s.setMergeBuf gc ((s.mergeBuf gc).map (fun e =>
      if e.page = gp then { e with data := overlay e.mask e.data d, mask := e.mask ||| mask } else e)))
  | none => s.pushEntry ⟨gp, d, mask, false⟩

/-- What a discard leaves (R397). -/
def Page.blank (tag : BitVec 24) (stamp : W64) : Page := ⟨[], [], 0#64, tag, 0#32, stamp, 0⟩

/-- A page discarded: bursts 12 - 14 rewritten with WRITTEN zero, the expected STAMP and a TAG; a merge entry that
holds earlier writes is dropped (R397). -/
def State.discardPage (s : State) (gp : Nat) (tag : BitVec 24) : State :=
  let gc := s.gchan gp
  let s := s.setMergeBuf gc ((s.mergeBuf gc).filter (fun e => e.page != gp))
  let pg := s.page gp
  let n := s.stackOf gp
  let wasPoison := tagPoison pg.tag && decide (popcount ((pg.stamp ^^^ s.stampOf gp).toNat) ≤ 4)
  let s := if wasPoison then s.setF (MSC_POISONED.PAGES n) (s.f (MSC_POISONED.PAGES n) - 1) else s
  s.setPage gp (Page.blank tag (s.stampOf gp))

/-- The merge entries of pages that hit, dropped. -/
def dropEntries (hit : Nat → Bool) (m : SMap (List MergeEntry)) : SMap (List MergeEntry) :=
  List.filterMap (fun (p : Nat × List MergeEntry) =>
    let l := p.2.filter (fun (e : MergeEntry) => !hit e.page)
    if l.isEmpty then none else some (p.1, l)) m

/-- The n pages from lo of one stack discarded at once, where no redirect moves any of them. -/
def State.discardRun (s : State) (lo n : Nat) (tag : BitVec 24) : State :=
  let k := s.stackOf lo
  if !(s.redirs k).isEmpty then (List.range n).foldl (fun s i => s.discardPage (lo + i) tag) s
  else
    let hit := fun (gp : Nat) => decide (lo ≤ gp) && decide (gp < lo + n)
    let bad := (s.pages.filter (fun p => hit p.1 && tagPoison p.2.tag &&
      decide (popcount ((p.2.stamp ^^^ s.stampOf p.1).toNat) ≤ 4))).length
    let t := { s with merge := dropEntries hit s.merge }
    let t := t.setBlank lo n (some ⟨tag, s.stampOf lo - BitVec.ofNat 64 lo⟩)
    if bad = 0 then t else t.setF (MSC_POISONED.PAGES k) (t.f (MSC_POISONED.PAGES k) - bad)

/-! ## Reads of a stack page -/

/-- What a read of bytes of a stack page gives. -/
inductive RdRes where
  | ok (bs : List Byte)
  | poison
  | wait
deriving DecidableEq, Repr

/-- Bytes off to off + n - 1 of a page whose memory part is d, merged with an entry (R401). -/
def mergedBytes (e : Option MergeEntry) (d : Bytes) (off n : Nat) : List Byte :=
  match e with
  | none => Bytes.rdList d off n
  | some e => Bytes.rdList (overlay e.mask e.data d) off n

/-- A read inside one stack page without the mirror rule: judged, counted, poisoned where uncorrectable (R395, R401,
R408). -/
def State.readPage (s : State) (gp off n : Nat) : RdRes × State :=
  if s.paused gp then (.wait, s)
  else
    let e := s.mergeEntry gp
    let inEntry := match e with
      | some e => e.mask &&& runMask off n == runMask off n
      | none => false
    if inEntry then (.ok (mergedBytes e [] off n), s)
    else match s.judgePage gp with
      | .zero => (.ok (mergedBytes e [] off n), s)
      | .ok d k => (.ok (mergedBytes e d off n), s.countFixed gp k)
      | .bad c p => (.poison, s.poisonPage gp c p)
      | .poisoned => (.poison, s)

/-- The bytes a stack or far address holds, without effects; zero where a page gives none. -/
def State.peekStack (s : State) (a : Nat) : Byte :=
  let gp := a / 4096
  let d := match s.judgePage gp with
    | .ok d _ => d
    | _ => []
  ((mergedBytes (s.mergeEntry gp) d (a % 4096) 1).head?).getD 0#8

end Sys2Proof.Machine
end

