-- ==== Sys2Proof/Machine/Access.lean ====
section
/-! DEFINITION. Accesses of the device's requesters to local addresses: scratchpads (R157 - R159, R304, R593),
Cloudbank scratch and cache (R352 - R356), far tier (R361, R362), stack memory with mirrors (R405, R406), and the
segment check (R118). -/
namespace Sys2Proof.Machine

/-- Why an access or a command does not go on. -/
inductive Stop where
  /-- refused under R12, R15 -/
  | bus (addr : Nat)
  /-- an uncorrectable or poisoned page that no mirror serves (R409) -/
  | poison (addr : Nat)
  /-- outside the job's segments (R118) -/
  | seg (addr : Nat)
  /-- a fatal fault of CAUSE under R602, with the record that reports it -/
  | fatal (cause : Nat) (r : ErqRec)
  /-- a halt of the command's unit (R219, R450, R674) -/
  | halt (h : HaltRec)
  /-- nothing may happen yet: the command is tried again later -/
  | wait
deriving DecidableEq, Repr

/-- Work that reads and changes the state and may stop; the state reached at the stop is kept. -/
abbrev EM := ExceptT Stop (StateM State)

def EM.go {α : Type} (x : EM α) (s : State) : Except Stop α × State := x.run.run s

/-- Who accesses, for which job; lt is the logical tile that issued it, or 256 + n for stack n's engine; and port is the
REQ code under which an error of that tile names it (R179), where the spec gives one. -/
structure Who where
  kind : Requester
  job : Option Nat
  lt : Nat
  port : Option Nat
deriving DecidableEq, Repr

/-! ## Tile memories (R157, R158) -/

/-- UNIT numbers of ANV_ERR_INFO (R179). -/
inductive TUnit where
  | spm | imem | dmem | acc | vxe | net
deriving DecidableEq, Repr

def TUnit.code : TUnit → Nat
  | .spm => 0 | .imem => 1 | .dmem => 2 | .acc => 3 | .vxe => 4 | .net => 5

def TUnit.bit (t : Nat) : TUnit → FRef
  | .spm => ANV_ERR.SPM_UE t | .imem => ANV_ERR.IMEM_UE t | .dmem => ANV_ERR.DMEM_UE t
  | .acc => ANV_ERR.ACC_UE t | .vxe => ANV_ERR.VXE_UE t | .net => ANV_ERR.NET_UE t

/-- DETAIL of an ANV_ERR record (R420). -/
def State.anvDetail (s : State) (t : Nat) : W64 :=
  let i := s.reg (ANV_ERR_INFO.at t)
  setFld (setFld (setFld 0#64 63 56 (fld (s.reg (ANV_ERR.at t)) 7 0)) 55 48 (fld i 63 56)) 20 0 (fld i 20 0)

/-- An uncorrectable error of tile t recorded in ANV_ERR and ANV_ERR_INFO (R178, R179), and counted for R746. -/
def State.anvUe (s : State) (t : Nat) (u : TUnit) (req off : Nat) : State :=
  let first := fld (s.reg (ANV_ERR.at t)) 7 2 == 0
  let s := if first then
      s.setReg (ANV_ERR_INFO.at t) (setFld (setFld (setFld 0#64 63 60 u.code) 59 56 req) 20 0 off)
    else s.setFlag (ANV_ERR.MULTI t) true
  let s := s.setFlag (u.bit t) true
  let k := SMap.get 0 s.tileUe t + 1
  let s := { s with tileUe := SMap.put 0 s.tileUe t k }
  if k = 2 then s.due 1 t else s

/-- The record of the last anvUe (R178). -/
def State.anvRec (s : State) (t : Nat) : ErqRec :=
  ⟨0x10, 3, bANV, t, if s.loaded t then some (s.jobOf t) else none, 0, s.anvDetail t⟩

/-- n single-bit errors corrected (R157, R180), each with its record (R178, R420). -/
def State.anvCe (s : State) (t n : Nat) : State :=
  if n = 0 then s
  else
    let s := ((s.bumpSat (ANV_ECC_CE.COUNT t) n).setFlag (ANV_ERR.SPM_CE t) true).anvEvent t 14 n
    (List.range n).foldl (fun s _ => s.erq { s.anvRec t with sev := 1 }) s

/-- 64-bit words that the bytes off to off + n - 1 touch. -/
def wordsOf (off n : Nat) : List Nat :=
  if n = 0 then [] else (List.range ((off + n - 1) / 8 - off / 8 + 1)).map (fun i => off / 8 + i)

/-- Word w is covered whole by the bytes off to off + n - 1. -/
def wordWhole (off n w : Nat) : Bool := decide (off ≤ 8 * w) && decide (8 * w + 8 ≤ off + n)

/-- One protected memory of a tile: its bytes, its uncorrectable words and its words with one wrong bit. -/
structure TMem where
  data : Bytes
  bad : List Nat
  weak : List Nat
deriving DecidableEq, Repr

def TileState.mem (x : TileState) : TUnit → TMem
  | .imem => ⟨x.imem, x.imemBad, x.imemWeak⟩
  | .dmem => ⟨x.dmem, x.dmemBad, x.dmemWeak⟩
  | _ => ⟨x.spm, x.spmBad, x.spmWeak⟩

def TileState.setMem (x : TileState) (u : TUnit) (m : TMem) : TileState :=
  match u with
  | .imem => { x with imem := m.data, imemBad := m.bad, imemWeak := m.weak }
  | .dmem => { x with dmem := m.data, dmemBad := m.bad, dmemWeak := m.weak }
  | _ => { x with spm := m.data, spmBad := m.bad, spmWeak := m.weak }

/-- First uncorrectable word that a read of the bytes meets. -/
def TMem.badIn (m : TMem) (off n : Nat) : Option Nat := (wordsOf off n).find? (fun w => m.bad.contains w)

/-- Words with a single-bit error that a write covers only in part: reading them to merge corrects them (R157, R158). -/
def TMem.weakMerge (m : TMem) (off n : Nat) : Nat :=
  ((wordsOf off n).filter (fun w => m.weak.contains w && !wordWhole off n w)).length

/-- Words with a single-bit error among those touched: corrected in the data and in the stored word (R157). -/
def TMem.weakIn (m : TMem) (off n : Nat) : Nat := ((wordsOf off n).filter (fun w => m.weak.contains w)).length

def TMem.heal (m : TMem) (off n : Nat) : TMem :=
  { m with weak := m.weak.filter (fun w => !(wordsOf off n).contains w) }

/-- First uncorrectable word that a write covers only in part (R158). -/
def TMem.badMerge (m : TMem) (off n : Nat) : Option Nat :=
  (wordsOf off n).find? (fun w => m.bad.contains w && !wordWhole off n w)

/-- A write: words covered whole lose their error marks. -/
def TMem.write (m : TMem) (off : Nat) (bs : List Byte) : TMem :=
  ⟨Bytes.wrList m.data off bs, m.bad.filter (fun w => !wordWhole off bs.length w),
    m.weak.filter (fun w => !(wordsOf off bs.length).contains w)⟩

/-! ## Scratchpad windows -/

/-- The tile context that a scratchpad address reaches, and how to put it back (R14, R304, R593). -/
inductive SpmSpot where
  | ctx (j l : Nat)
  | phys (t : Nat)
deriving DecidableEq, Repr

/-- Where window number k leads: a job's windows name logical tiles; others name physical tiles (R304). -/
def State.spmSpot (s : State) (w : Who) (k : Nat) : Option SpmSpot :=
  match w.job with
  | some j =>
    if s.inSet j k then some (.ctx j k)
    else if k < 192 then (s.physOf k).map SpmSpot.phys else none
  | none => if s.f (ANV_ID.STATE k) = 0 then some (.phys k) else none

def State.spotTile (s : State) : SpmSpot → TileState
  | .ctx j l => s.ctx j l
  | .phys t => s.tile t

def State.setSpot (s : State) (p : SpmSpot) (x : TileState) : State :=
  match p with
  | .ctx j l => s.setCtx j l x
  | .phys t => s.setTile t x

/-- Physical tile that reports errors of a spot. -/
def State.spotPhys (s : State) : SpmSpot → Nat
  | .ctx _ l => (s.physOf l).getD 0
  | .phys t => t

/-- The requester is an engine, channel or core of the tile itself, whose uncorrectable reads are fatal (R158). -/
def Who.owns (w : Who) : SpmSpot → Bool
  | .ctx j l => w.job == some j && w.lt == l && (w.kind == .tdma || w.kind == .ldg)
  | .phys _ => false

/-- The requester at one of its unit's ports (R179). -/
def Who.at_ (w : Who) (port : Nat) : Who := { w with port := some port }

/-- REQ of an error (R179): the requester's code, or a free value where the spec names none (log entry 74). -/
def State.reqOf (s : State) (port : Option Nat) : Nat × State :=
  match port with
  | some q => (q, s)
  | none => ((Config.freeReq s.free).toNat, s.takeFree)

/-- An uncorrectable scratchpad word met (R158): a fatal fault for the tile's own requesters; a bus error for others, which
leaves ANV_ERR and ANV_ERR_INFO as they are, although R179 has a REQ code for them (DESIGN CHOICE, log entry 78). -/
def spmUe (w : Who) (p : SpmSpot) (a wd : Nat) : EM Unit := do
  let s ← get
  if w.owns p then
    let t := s.spotPhys p
    let (req, s) := s.reqOf w.port
    let s := s.anvUe t .spm req (8 * wd)
    set s
    throw (.fatal 4 (s.anvRec t))
  else throw (.bus a)

def spmRead (w : Who) (a n : Nat) : EM (List Byte) := do
  let s ← get
  match s.spmSpot w ((a - spmBase) / spmWin) with
  | none => throw (.bus a)
  | some p =>
    let off := (a - spmBase) % spmWin
    let m := (s.spotTile p).mem .spm
    match m.badIn off n with
    | some wd => spmUe w p a wd; pure []
    | none =>
      let k := m.weakIn off n
      if k > 0 then
        set ((s.setSpot p ((s.spotTile p).setMem .spm (m.heal off n))).anvCe (s.spotPhys p) k)
      pure (Bytes.rdList m.data off n)

def spmWrite (w : Who) (a : Nat) (bs : List Byte) : EM Unit := do
  let s ← get
  match s.spmSpot w ((a - spmBase) / spmWin) with
  | none => throw (.bus a)
  | some p =>
    let off := (a - spmBase) % spmWin
    let m := (s.spotTile p).mem .spm
    match m.badMerge off bs.length with
    | some wd => spmUe w p a wd
    | none =>
      set ((s.setSpot p ((s.spotTile p).setMem .spm (m.write off bs))).anvCe (s.spotPhys p) (m.weakMerge off bs.length))

/-! ## Cloudbank scratch (R17, R350, R356) -/

/-- Some resident job's partition assigns the scratch block of a window offset (R17). -/
def State.scratchOk (s : State) (o : Nat) : Bool :=
  let b := o / 0x400000
  let q := b / 64
  jobList.any (fun j => s.resident j &&
    decide (s.f (CLB_PART.SFIRST j q) ≤ b % 64) && decide (b % 64 < s.f (CLB_PART.SFIRST j q) + s.f (CLB_PART.SCOUNT j q)))

/-- CLB_ERR record (R358, R420). -/
def State.clbRec (s : State) (sev q : Nat) (j : Option Nat) (a : Nat) : ErqRec :=
  ⟨0x20, sev, bCLB, q, j, a, s.reg (CLB_ERR.at)⟩

def scratchUe (w : Who) (a : Nat) : EM Unit := do
  let s ← get
  let q := (a - scratchBase) / 2 ^ 28
  let s := s.setF CLB_ERR.UE_JOB (s.f CLB_ERR.UE_JOB ||| 2 ^ q)
  set s
  throw (.fatal 4 (s.clbRec 3 q w.job a))

/-- k single-bit errors of slice q corrected: each is counted and recorded (R356, R358) (DEDUCED, log entry 77). -/
def State.clbCe (s : State) (j : Option Nat) (q a k : Nat) : State :=
  (List.range k).foldl (fun s _ =>
    let s := s.bumpSat CLB_ERR.CE_COUNT 1
    s.erq (s.clbRec 1 q j a)) s

/-- Scratch words among ws with a single-bit error corrected in the data and in the stored word. -/
def scratchHeal (w : Who) (a : Nat) (ws : List Nat) : EM Unit := do
  let s ← get
  let k := (ws.filter (fun x => s.scratchWeak.contains x)).length
  set ({ s with scratchWeak := s.scratchWeak.filter (fun x => !ws.contains x) }.clbCe w.job
    ((a - scratchBase) / 2 ^ 28) a k)

def scratchRead (w : Who) (a n : Nat) : EM (List Byte) := do
  let s ← get
  let o := a - scratchBase
  if !s.scratchOk o then throw (.bus a)
  match (wordsOf o n).find? (fun wd => s.scratchBad.contains wd) with
  | some _ => scratchUe w a; pure []
  | none => scratchHeal w a (wordsOf o n); pure (Bytes.rdList s.scratch o n)

def scratchWrite (w : Who) (a : Nat) (bs : List Byte) : EM Unit := do
  let s ← get
  let o := a - scratchBase
  if !s.scratchOk o then throw (.bus a)
  match (wordsOf o bs.length).find? (fun wd => s.scratchBad.contains wd && !wordWhole o bs.length wd) with
  | some _ => scratchUe w a
  | none => do
    scratchHeal w a ((wordsOf o bs.length).filter (fun wd => !wordWhole o bs.length wd))
    modify (fun s => { s with scratch := Bytes.wrList s.scratch o bs,
                              scratchBad := s.scratchBad.filter (fun wd => !wordWhole o bs.length wd),
                              scratchWeak := s.scratchWeak.filter (fun wd => !wordWhole o bs.length wd) })

/-! ## Far tier (R360 - R362) -/

/-- Granules of 64 bytes that a run of bytes touches. -/
def granulesOf (a n : Nat) : List Nat :=
  if n = 0 then [] else (List.range ((a + n - 1) / 64 - a / 64 + 1)).map (fun i => a / 64 + i)

/-- A request crosses into clocked domains: it is refused or waits where one of them does not run (R686, R691). -/
def crossInto (ds : List Nat) (a : Nat) : EM Unit := do
  let s ← get
  if ds.any s.domRefuses then throw (.bus a)
  if ds.any s.domWaits then throw .wait

/-- Domains between a requester and a stack (R679, R687): an engine's own lanes do not cross the interface. -/
def State.stackDoms (s : State) (who : Who) (a : Nat) : List Nat :=
  let n := s.stackOf (a / 4096)
  if who.kind = .virga then [dMSC n] else [dMSC n, dSIF n]

/-- Domain of the far port that serves an address. -/
def State.farDoms (s : State) (a : Nat) : List Nat :=
  match s.farPort a with
  | some p => [dCXP p]
  | none => []

/-- Bytes of the far tier; a poisoned response is a poisoned page (R362, R408). -/
def farRead (a n : Nat) : EM (List Byte) := do
  let s ← get
  crossInto (s.farDoms a) a
  match s.farLive a with
  | none => throw (.bus a)
  | some p =>
    if (granulesOf a n).any (fun g => s.farPoison.contains g) then
      set ((s.setFlag (CXP_PORT_STATUS.POISON_SEEN p) true).erq ⟨0x04, 2, bCXP, p, none, a, 0x400#64⟩)
      throw (.poison a)
    else pure (Bytes.rdList s.far a n)

/-- A far write: a granule written whole loses its poison (DEDUCED, log entry 21). -/
def farWrite (a : Nat) (bs : List Byte) : EM Unit := do
  let s ← get
  crossInto (s.farDoms a) a
  match s.farLive a with
  | none => throw (.bus a)
  | some _ =>
    set { s with far := Bytes.wrList s.far a bs,
                 farPoison := s.farPoison.filter (fun g =>
                   !(decide (a ≤ 64 * g) && decide (64 * g + 64 ≤ a + bs.length))) }

/-! ## Stack memory on the direct path -/

/-- The companion holds a granule that the access must snoop first (R637). -/
def State.snoopFirst (s : State) (a n : Nat) (write : Bool) : Bool :=
  (granulesOf a n).any (fun g => s.filter.any (fun e => e.1 == g && (write || e.2 == 2)))

/-- A direct-path read of bytes inside one page or far granule run (R462, R463), before the mirror rule. -/
def rawRead (who : Who) (a n : Nat) : EM (List Byte) := do
  let s ← get
  match s.region a with
  | .stack =>
    crossInto (s.stackDoms who a) a
    if who.kind != .companion && s.snoopFirst a n false then throw .wait
    let (r, s') := s.readPage (a / 4096) (a % 4096) n
    set s'
    match r with
    | .ok bs => pure bs
    | .poison => throw (.poison a)
    | .wait => throw .wait
  | .far => farRead a n
  | .scratch => scratchRead who a n
  | .spm => spmRead who a n
  | _ => throw (.bus a)

def rawWrite (who : Who) (a : Nat) (bs : List Byte) : EM Unit := do
  let s ← get
  match s.region a with
  | .stack =>
    crossInto (s.stackDoms who a) a
    if who.kind != .companion && s.snoopFirst a bs.length true then throw .wait
    if s.failed (a / 4096) then
      set (s.erq ⟨0x06, 2, bMSC, s.stackOf (a / 4096), who.job, a, 1#64⟩)
    else match s.writePage (a / 4096) (a % 4096) bs with
      | some s' => set s'
      | none => throw .wait
  | .far => farWrite a bs
  | .scratch => scratchWrite who a bs
  | .spm => spmWrite who a bs
  | _ => throw (.bus a)

/-- Requester number and SEV of a MEM_POISON_READ record (R409, R420). -/
def reqPoisonNo : Requester → Nat
  | .tdma => 0 | .virga => 1 | .ldg => 2 | .ifill => 3 | .companion => 4 | .fabric => 5
  | .ldr | .zen | .copier => 6 | .scrubber => 7

/-- SEV 3 where the read is a fatal fault (R410), which a job's own fabric read is as well (R674); SEV 2 for the others. -/
def reqPoisonSev (k : Requester) (job : Option Nat) : Nat :=
  match k with
  | .tdma | .virga | .ldg | .ifill => 3
  | .fabric => if job.isSome then 3 else 2
  | _ => 2

/-- Requesters that read a mirror in place of a bad primary (R405; IFILL through R318). -/
def reqUsesMirror : Requester → Bool
  | .tdma | .virga | .ldg | .ifill => true
  | _ => false

/-- Code of a mirror repairer in MEM_MIRROR_FIX (R420). -/
def reqFixNo : Requester → Nat
  | .tdma => 1 | .virga => 2 | .ldg | .ifill => 0 | _ => 3

/-- The page of a poisoned read whose fault ends job j noted for R412, once. -/
def State.noteRepair (s : State) (j a : Nat) : State :=
  match s.segOf j a 1 with
  | some i =>
    let r := (a / 4096 * 4096, j, i, (s.seg j i).cls)
    if s.repairDue.any (fun x => x.1 == r.1) then s else { s with repairDue := s.repairDue ++ [r] }
  | none => s

/-- The MEM_POISON_READ record of a read by who at address a (R409, R420); one of SEV 3 while a compute reset runs joins it
(R422). -/
def State.poisonRec (s : State) (who : Who) (a : Nat) : State :=
  let sev := reqPoisonSev who.kind who.job
  let s := match who.job with
    | some j => if sev = 3 then s.noteRepair j a else s
    | none => s
  s.erq ⟨0x05, sev, if s.region a = .far then bCXP else bMSC,
    (if s.region a = .far then (s.farPort a).getD 0 else s.stackOf (a / 4096)), who.job, a,
    BitVec.ofNat 64 (reqPoisonNo who.kind)⟩ (sev == 3 && s.resetSeq.isSome)

/-- The record of a poisoned read; the scrubber's is only counted (R409). -/
def poisonRecord (who : Who) (a : Nat) : EM Unit :=
  modify (fun s => if who.kind = .scrubber then s else s.poisonRec who a)

/-- The mirror's page written whole to the primary, with its record (R406). -/
def mirrorRepair (who : Who) (prim mir : Nat) : EM Unit := do
  let p := prim / 4096 * 4096
  let m := mir / 4096 * 4096
  let bs ← rawRead who m 4096
  rawWrite who p bs
  modify (fun s => s.erq ⟨0x03, 1, if s.region p = .far then bCXP else bMSC,
    (if s.region p = .far then (s.farPort p).getD 0 else s.stackOf (p / 4096)), who.job, p,
    BitVec.ofNat 64 (reqFixNo who.kind)⟩)

/-- A Virga engine reaches a mirror outside its own stack through the stack interfaces (R405). -/
def State.mirrorDoms (s : State) (who : Who) (a m : Nat) : List Nat :=
  if who.kind = .virga then
    if s.region m = .far then [dSIF (s.stackOf (a / 4096))]
    else if s.stackOf (m / 4096) ≠ s.stackOf (a / 4096) then [dSIF (s.stackOf (a / 4096)), dSIF (s.stackOf (m / 4096))]
    else []
  else []

/-- A direct-path read that a mirror may serve (R405, R406); the record of R409 where none does. -/
def directRead (who : Who) (a n : Nat) : EM (List Byte) :=
  tryCatch (rawRead who a n) (fun e => match e with
    | .poison b => do
      let s ← get
      let g := match who.job with
        | some j => (s.segOf j a n).map (s.seg j)
        | none => none
      match g with
      | some g =>
        if (reqUsesMirror who.kind) && g.mirV then
          let m := g.mirrorOf s.stackBytes a
          tryCatch (do crossInto (s.mirrorDoms who a m) m; let bs ← rawRead who m n; mirrorRepair who a m; pure bs) (fun e2 => match e2 with
            | .poison _ => do poisonRecord who b; throw (.poison b)
            | e2 => throw e2)
        else do poisonRecord who b; throw (.poison b)
      | none => do poisonRecord who b; throw (.poison b)
    | e => throw e)

/-! ## The cached path (R352 - R356) -/

/-- Home slice of a stack or far address (R353). -/
def State.homeSlice (s : State) (a : Nat) : Nat :=
  if s.region a = .far then a / 4096 % 4 else a / s.stackBytes / 4

def lineKey (j line : Nat) : Nat := 2 ^ 40 * j + line

/-- Set of a line among the job's cache blocks of its home slice (R353). -/
def State.lineSet (s : State) (j line : Nat) : Nat :=
  (line ^^^ (line * 256 / 2 ^ 28)) % (1024 * max 1 (s.f (CLB_PART.CCOUNT j (s.homeSlice (line * 256)))))

/-- An access of the cached path that is looked up in Cloudbank (R352, R462). -/
def State.cached (s : State) (who : Who) (a n : Nat) : Option Nat :=
  match who.job with
  | none => none
  | some j =>
    if (who.kind = .ldg ∨ who.kind = .tdma) ∧ (s.region a = .stack ∨ s.region a = .far) then
      match s.segOf j a n with
      | some i => if (s.seg j i).cache ∧ s.f (CLB_PART.CCOUNT j (s.homeSlice a)) > 0 then some j else none
      | none => none
    else none

def State.line (s : State) (j line : Nat) : CLine := SMap.get CLine.zero s.cache (lineKey j line)

def State.setLine (s : State) (j line : Nat) (c : CLine) : State :=
  { s with cache := SMap.put CLine.zero s.cache (lineKey j line) c }

/-- Words of a line with a single-bit error among the bytes off to off + n - 1 of the line. -/
def CLine.weakIn (c : CLine) (off n : Nat) : Nat := ((wordsOf off n).filter (fun w => c.weak.toNat.testBit w)).length

/-- The words ws of a line lose their single-bit errors. -/
def CLine.heal (c : CLine) (ws : List Nat) : CLine :=
  { c with weak := ws.foldl (fun m w => m &&& ~~~(1#32 <<< w)) c.weak }

/-- Single-bit errors among bytes of a line corrected in the data and in the stored word (R356). -/
def healLine (j line off n : Nat) : EM Unit :=
  modify (fun s =>
    let c := s.line j line
    (s.setLine j line (c.heal (wordsOf off n))).clbCe (some j) (s.homeSlice (line * 256)) (line * 256 + off) (c.weakIn off n))

/-- An uncorrectable granule of a line (R356): clean ones are dropped, dirty ones are fatal. -/
def checkGranule (j line g : Nat) : EM Unit := do
  let s ← get
  let c := s.line j line
  let q := s.homeSlice (line * 256)
  if c.bad.toNat.testBit g then
    if c.dirty.toNat.testBit g then
      let s := s.setF CLB_ERR.UE_JOB (s.f CLB_ERR.UE_JOB ||| 2 ^ q)
      set s
      throw (.fatal 4 (s.clbRec 3 q (some j) (line * 256 + 64 * g)))
    else
      let s := s.setLine j line { c.heal (wordsOf (64 * g) 64) with
        valid := BitVec.ofNat 4 (c.valid.toNat &&& (15 - 2 ^ g)),
        bad := BitVec.ofNat 4 (c.bad.toNat &&& (15 - 2 ^ g)) }
      let s := s.setF CLB_ERR.UE_CLEAN (s.f CLB_ERR.UE_CLEAN ||| 2 ^ q)
      set (s.erq (s.clbRec 1 q (some j) (line * 256 + 64 * g)))

/-- Dirty granules of a line written to memory whole (R354, R467); one that is uncorrectable is fatal (R356). -/
def writeBackLine (who : Who) (j line : Nat) : EM Unit := do
  for g in [0, 1, 2, 3] do
    let s ← get
    let c := s.line j line
    if c.dirty.toNat.testBit g then
      checkGranule j line g
      healLine j line (64 * g) 64
      rawWrite { who with kind := .tdma } (line * 256 + 64 * g) (Bytes.rdList c.data (64 * g) 64)
      modify (fun s => s.setLine j line { s.line j line with
        dirty := BitVec.ofNat 4 ((s.line j line).dirty.toNat &&& (15 - 2 ^ g)) })

/-- Lines of job j in the set of a line, other than it. -/
def State.setLines (s : State) (j line : Nat) : List Nat :=
  (s.cache.filter (fun p => p.1 / 2 ^ 40 == j && p.1 % 2 ^ 40 != line &&
    s.homeSlice (p.1 % 2 ^ 40 * 256) == s.homeSlice (line * 256) &&
    s.lineSet j (p.1 % 2 ^ 40) == s.lineSet j line)).map (fun p => p.1 % 2 ^ 40)

/-- Room for a line that is to be allocated: a full set replaces one of its sixteen ways (R353). -/
def makeRoom (who : Who) (j line : Nat) : EM Unit := do
  let s ← get
  let ls := s.setLines j line
  if (s.line j line).valid = 0#4 ∧ ls.length ≥ 16 then
    match ls.head? with
    | some v =>
      writeBackLine who j v
      modify (fun s => s.setLine j v CLine.zero)
    | none => pure ()

/-- Line filled: granules that it does not hold are read from memory (R354). -/
def fillLine (who : Who) (j line : Nat) : EM Unit := do
  makeRoom who j line
  for g in [0, 1, 2, 3] do
    let s ← get
    if !(s.line j line).valid.toNat.testBit g then
      let bs ← directRead who (line * 256 + 64 * g) 64
      modify (fun s =>
        let c := s.line j line
        s.setLine j line { c.heal (wordsOf (64 * g) 64) with
                                  data := Bytes.wrList c.data (64 * g) bs,
                                  valid := BitVec.ofNat 4 (c.valid.toNat ||| 2 ^ g) })

/-- A cached read inside one granule. -/
def cachedRead (who : Who) (j a n : Nat) : EM (List Byte) := do
  let line := a / 256
  checkGranule j line (a / 64 % 4)
  let s ← get
  if !(s.line j line).valid.toNat.testBit (a / 64 % 4) then fillLine who j line
  healLine j line (a % 256) n
  let s ← get
  pure (Bytes.rdList (s.line j line).data (a % 256) n)

/-- A cached write inside one granule: a whole granule allocates without a fill, a part fills first (R354). -/
def cachedWrite (who : Who) (j a : Nat) (bs : List Byte) : EM Unit := do
  let line := a / 256
  let g := a / 64 % 4
  if bs.length = 64 then makeRoom who j line
  else
    checkGranule j line g
    let s ← get
    if !(s.line j line).valid.toNat.testBit g then fillLine who j line
    for w in wordsOf (a % 256) bs.length do
      if !wordWhole (a % 256) bs.length w then healLine j line (8 * w) 8
  modify (fun s =>
    let c := s.line j line
    s.setLine j line { c.heal (wordsOf (a % 256) bs.length) with
                              data := Bytes.wrList c.data (a % 256) bs,
                              valid := BitVec.ofNat 4 (c.valid.toNat ||| 2 ^ g),
                              dirty := BitVec.ofNat 4 (c.dirty.toNat ||| 2 ^ g),
                              bad := BitVec.ofNat 4 (c.bad.toNat &&& (15 - 2 ^ g)) })

/-! ## Whole accesses -/

/-- Event ev of a unit for its access to the granule of a, unless its last access was to that granule in that direction:
the bytes of a granule move together (DESIGN CHOICE, log entry 86). -/
def State.onNewGranule (s : State) (key a : Nat) (write : Bool) (ev : State → State) : State :=
  let g := 2 * (a / 64) + write.toNat + 1
  if SMap.get 0 s.lastGran key = g then s else ev { s with lastGran := SMap.put 0 s.lastGran key g }

/-- Physical tile whose engines, channels or core make an access. -/
def State.whoTile (s : State) (who : Who) : Option Nat :=
  match who.kind, who.job with
  | .tdma, some j | .ldg, some j | .ifill, some j => if who.lt < 192 then s.livePhys j who.lt else none
  | _, _ => none

/-- Physical tile whose scratchpad an address reaches. -/
def State.spmTile (s : State) (who : Who) (a : Nat) : Option Nat :=
  if s.region a = .spm then (s.spmSpot who ((a - spmBase) / spmWin)).map s.spotPhys else none

/-- Events 9 and 10 at the tiles of the two ends of an access, where they are not one (R184). -/
def State.portEvents (s : State) (own far : Option Nat) (write : Bool) : State :=
  if own = far then s
  else
    let s := match own with
      | some t => s.anvEvent t (if write then 10 else 9) 1
      | none => s
    match far with
    | some t => s.anvEvent t (if write then 9 else 10) 1
    | none => s

/-- The performance events of an access to a granule: received or sent through the network ports of the tiles at its two
ends (R184), or read by a stack's lanes (R237). -/
def State.countGranule (s : State) (who : Who) (a : Nat) (write : Bool) : State :=
  let own := s.whoTile who
  let far := s.spmTile who a
  if who.kind = .virga then
    s.onNewGranule who.lt a write (fun s => (if write then s else s.vrgEvent (who.lt - 256) 3 1).portEvents own far write)
  else if own.isSome || far.isSome then s.onNewGranule (own.getD 512) a write (fun s => s.portEvents own far write)
  else s

/-- One access inside a granule on its path (R462, R468). -/
def readIn (who : Who) (a n : Nat) : EM (List Byte) := do
  let s ← get
  let bs ← match s.cached who a n with
    | some j => cachedRead who j a n
    | none => directRead who a n
  modify (fun s => s.countGranule who a false)
  pure bs

def writeIn (who : Who) (a : Nat) (bs : List Byte) : EM Unit := do
  let s ← get
  match s.cached who a bs.length with
  | some j => cachedWrite who j a bs
  | none => rawWrite who a bs
  modify (fun s => s.countGranule who a true)

/-- Bytes that remain in the granule of address a. -/
def granuleRoom (a n : Nat) : Nat := min n (64 - a % 64)

/-- A read divided into granule accesses (R468); fuel is the number of bytes. -/
def readSpan (who : Who) : Nat → Nat → Nat → EM (List Byte)
  | 0, _, _ => pure []
  | f + 1, a, n =>
    if n = 0 then pure []
    else do
      let k := granuleRoom a n
      let x ← readIn who a k
      let y ← readSpan who f (a + k) (n - k)
      pure (x ++ y)

def writeSpan (who : Who) : Nat → Nat → List Byte → EM Unit
  | 0, _, _ => pure ()
  | f + 1, a, bs =>
    match bs with
    | [] => pure ()
    | _ => do
      let k := granuleRoom a bs.length
      writeIn who a (bs.take k)
      writeSpan who f (a + k) (bs.drop k)

/-- The access lies inside one segment of the job with the permission it needs (R118, R193); no bytes are no access. -/
def checkSeg (who : Who) (a n : Nat) (write : Bool) : EM Unit := do
  let s ← get
  match who.job with
  | some j => if n ≠ 0 ∧ !s.segOk j a n write then throw (.seg a)
  | none => pure ()

/-- A job's read of n bytes: segment check, then the access. -/
def jobRead (who : Who) (a n : Nat) : EM (List Byte) := do
  checkSeg who a n false
  readSpan who n a n

def jobWrite (who : Who) (a : Nat) (bs : List Byte) : EM Unit := do
  checkSeg who a bs.length true
  writeSpan who bs.length a bs

end Sys2Proof.Machine
end

