-- ==== Sys2Proof/Machine/Operands.lean ====
section
/-! DEFINITION. The operand forms of engine commands: command words (R238 - R241), views, reading an element
(R57, R88, R138), writing elements with padding (R131 - R135) and with block re-encoding (R779). -/
namespace Sys2Proof.Machine

/-! ## Command words -/

/-- Word i of a command. -/
def cw (ws : List W64) (i : Nat) : W64 := (ws[i]?).getD 0#64

/-- Bits of word i. -/
def cf (c : List W64) (i hi lo : Nat) : Nat := fld (cw c i) hi lo

def cKind (c : List W64) : Nat := cf c 0 63 58
def cTag (c : List W64) : Nat := cf c 0 15 0

/-- Entries a command occupies (R240). -/
def cSlots (c : List W64) : Nat := if c.length > 8 then 2 else 1

/-- FP32 value of a 32-bit field. -/
def cF32 (c : List W64) (i hi lo : Nat) : FVal := ofBits32 (BitVec.ofNat 32 (cf c i hi lo))

def cRM (b : Nat) : RM := if b = 1 then .rtz else .rne
def cOvf (b : Nat) : Ovf := if b = 1 then .ieee else .sat
def cRecon (b : Nat) : Recon := if b = 1 then .mid else .trunc

/-- View register v of a set of view registers. -/
def viewOf (vs : SMap W64) (v : Nat) : View :=
  View.ofWords ((List.range 8).map (fun i => SMap.get 0#64 vs (8 * v + i)))

/-! ## Who computes -/

/-- The engine that runs a command: its requester, and what an ENGINE_FAULT record says of it (R420). -/
structure Eng where
  who : Who
  unit : Nat
  block : Nat
  inst : Nat
  q : Nat
  kind : Nat
  tag : Nat
deriving DecidableEq, Repr

/-- An ENGINE_FAULT record (R420): cause 1 segment violation, 2 slot outside the range, 3 illegal encoding. -/
def Eng.faultRec (e : Eng) (cause addr : Nat) : ErqRec :=
  ⟨0x13, 3, e.block, e.inst, e.who.job, addr,
    setFld (setFld (setFld (setFld (setFld 0#64 63 56 e.unit) 55 48 cause) 47 40 e.kind) 39 32 e.q) 15 0 e.tag⟩

/-- An access at a position: what stops it becomes the halt or the fatal fault of the engine (R118, R219, R450). -/
def Eng.at_ {α : Type} (e : Eng) (dir pos : Nat) (x : EM α) : EM α :=
  tryCatch x (fun
    | .bus a => throw (.halt ⟨3, dir, pos, a, 255⟩)
    | .poison a => throw (.halt ⟨1, dir, pos, a, 255⟩)
    | .seg a => throw (.fatal 2 (e.faultRec 1 (a % 2 ^ 48)))
    | st => throw st)

/-- The receiving tile named in a halt of a multicast write (R461). -/
def atTile {α : Type} (t : Nat) (x : EM α) : EM α :=
  tryCatch x (fun
    | .halt h => throw (.halt { h with tile := t })
    | st => throw st)

/-- A halt met while reading, raised once every earlier position is written. -/
def raise : Option HaltRec → EM Unit
  | some h => throw (.halt h)
  | none => pure ()

/-- What a list gives until the first halt, which is kept for later. -/
def readUntil {α β : Type} (f : α → EM β) : List α → EM (List β × Option HaltRec)
  | [] => pure ([], none)
  | a :: t => do
    let r ← tryCatch (do let b ← f a; pure (Sum.inl b)) (fun st => match st with
      | .halt h => pure (Sum.inr h)
      | st => throw st)
    match r with
    | .inr h => pure ([], some h)
    | .inl b => do
      let (bs, h) ← readUntil f t
      pure (b :: bs, h)

/-- Acts done one after the other until one stops, which is undone; the answer is the list from that one on. -/
def untilStop {α : Type} (act : α → EM Unit) : List α → EM (List α)
  | [] => pure []
  | a :: t => do
    let s ← get
    match (act a).go s with
    | (.ok _, s') => do
      set s'
      untilStop act t
    | (.error _, _) => pure (a :: t)

/-- Accesses of one position, made all or none: where one stops, it alone is made. -/
def allOrNone {α : Type} (act : α → EM Unit) (l : List α) : EM Unit := do
  let s ← get
  match ← untilStop act l with
  | [] => pure ()
  | a :: _ => do
    set s
    act a

/-- An access that is refused leaves nothing behind. -/
def undoBus {α : Type} (x : EM α) : EM α := do
  let s ← get
  tryCatch x (fun
    | .bus a => do
      set s
      throw (.bus a)
    | st => throw st)

/-! ## Elements -/

/-- Bits o to o + w - 1 of the job's memory. -/
def readBits (who : Who) (o w : Nat) : EM Nat := do
  let a := o / 8
  let n := (o + w - 1) / 8 - a + 1
  let bs ← jobRead who a n
  pure (leNat bs / 2 ^ (o % 8) % 2 ^ w)

/-- Pieces of an element put together, lowest first. -/
def readParts (who : Who) : List (Nat × Nat) → EM Nat
  | [] => pure 0
  | (o, w) :: t => do
    let x ← readBits who o w
    let y ← readParts who t
    pure (x + 2 ^ w * y)

/-- Value of the code of an element of format f (R50, R57, R88): x is its scale, np the planes read. -/
def codeValue (f : Fmt) (np : Nat) (rc : Recon) (x c : Nat) : FVal :=
  if f.isMx then mxDecode f x c
  else if f.isPq then
    let n := f.bits
    pqDecode n np rc x (c.testBit (np - 1)) (c % 2 ^ (np - 1) * 2 ^ (n - np))
  else f.decode c

/-- The code of an element, and its scale (0 where it has none). -/
def readCode (who : Who) (v : View) (np : Nat) (ix : List Nat) : EM (Nat × Nat) := do
  let l := v.loc np ix
  let x ← match l.scale with
    | some a => do let b ← jobRead who a 1; pure (leNat b)
    | none => pure 0
  let c ← readParts who l.parts
  pure (c, x)

/-- The value of an element of a view. -/
def readElem (who : Who) (v : View) (np : Nat) (rc : Recon) (ix : List Nat) : EM FVal := do
  let (c, x) ← readCode who v np ix
  pure (codeValue v.fmt np rc x c)

/-- A conversion that keeps an infinity where the target has one (R65): a copy to a format that holds it. -/
def encodeKeep (f : Fmt) (rm : RM) (ov : Ovf) (keep : Bool) (x : FVal) : Nat :=
  match keep, x with
  | true, .inf _ => f.encode rm .ieee x
  | _, _ => f.encode rm ov x

/-! ## Writing

What a command writes is first gathered into granules, and every granule is then written once: whole, with byte enables
(R133), or merged with what it holds where a byte is written in part (R134). -/

/-- Bits that a command writes: w bits of val at bit offset off, for position pos of its order. A halt reports ent as
ENTRY and tile as the receiving tile. -/
structure Piece where
  pos : Nat
  ent : Nat
  tile : Nat
  off : Nat
  w : Nat
  val : Nat
deriving DecidableEq, Repr

/-- What a command writes into granule num: the bits of mask; pos, ent and tile are those of its first piece. -/
structure Gran where
  num : Nat
  pos : Nat
  ent : Nat
  tile : Nat
  mask : Nat
  bits : Nat
deriving DecidableEq, Repr

/-- w bits of v put at bit lo of a granule; later ones prevail (R106). -/
def Gran.put (g : Gran) (lo w v : Nat) : Gran :=
  let m := (2 ^ w - 1) * 2 ^ lo
  { g with mask := g.mask ||| m, bits := g.bits - (g.bits &&& m) + v % 2 ^ w * 2 ^ lo }

/-- The same in a list of granules, in order of first touch. -/
def putGran (p : Piece) (n lo w v : Nat) : List Gran → List Gran
  | [] => [(⟨n, p.pos, p.ent, p.tile, 0, 0⟩ : Gran).put lo w v]
  | g :: t => if g.num == n then g.put lo w v :: t else g :: putGran p n lo w v t

/-- A piece cut at granule boundaries; fuel is one more than the boundaries it can cross. -/
def putPiece (p : Piece) : Nat → Nat → Nat → Nat → List Gran → List Gran
  | 0, _, _, _, gs => gs
  | f + 1, o, w, v, gs =>
    if w = 0 then gs
    else
      let k := min w (512 - o % 512)
      putPiece p f (o + k) (w - k) (v / 2 ^ k) (putGran p (o / 512) (o % 512) k v gs)

/-- Granules of a list of pieces. -/
def granules (ps : List Piece) : List Gran :=
  ps.foldl (fun gs p => putPiece p (p.w / 512 + 2) p.off p.w p.val gs) []

/-- Mask of byte k of a granule. -/
def Gran.byteMask (g : Gran) (k : Nat) : Nat := g.mask / 2 ^ (8 * k) % 256

/-- Runs of indices k, k + 1, ... that satisfy p, as (first, length); fuel is the number of indices. -/
def runsOf (p : Nat → Bool) : Nat → Nat → List (Nat × Nat)
  | 0, _ => []
  | f + 1, k =>
    if p k then
      match runsOf p f (k + 1) with
      | (a, n) :: t => if a = k + 1 then (k, n + 1) :: t else (k, 1) :: (a, n) :: t
      | [] => [(k, 1)]
    else runsOf p f (k + 1)

/-- Bytes of a granule that are written at least in part, as runs. -/
def Gran.runs (g : Gran) : List (Nat × Nat) := runsOf (fun k => g.byteMask k != 0) 64 0

/-- Every byte is written whole or not at all. -/
def Gran.plain (g : Gran) : Bool := (List.range 64).all (fun k => g.byteMask k == 0 || g.byteMask k == 255)

/-- A granule written for a command: its bytes lie in a segment with write permission, which is all that the read of a
merge under R134 needs as well (DESIGN CHOICE, log entry 80). -/
def writeGran (e : Eng) (g : Gran) : EM Unit := atTile g.tile (do
  let a := 64 * g.num
  e.at_ 1 g.ent (g.runs.forM (fun r => checkSeg e.who (a + r.1) r.2 true))
  if g.plain then
    e.at_ 1 g.ent (undoBus (g.runs.forM (fun r =>
      writeSpan e.who r.2 (a + r.1) (leBytes r.2 (g.bits / 2 ^ (8 * r.1))))))
  else do
    let bs ← e.at_ 0 g.ent (readSpan e.who 64 a 64)
    let old := leNat bs
    e.at_ 1 g.ent (writeSpan e.who 64 a (leBytes 64 (old - (old &&& g.mask) + g.bits))))

/-- Pieces written in the order of their positions. Where a granule stops the command, every earlier position is written
and nothing of the position that it belongs to (R451). -/
def writePieces (e : Eng) (ps : List Piece) : EM Unit := do
  let s ← get
  match ← untilStop (writeGran e) (granules ps) with
  | [] => pure ()
  | g :: _ => do
    set s
    (granules (ps.filter (fun p => decide (p.pos < g.pos)))).forM (writeGran e)
    writeGran e g

/-- Pieces of one element, or of a scale. -/
def partPieces (pos ent tile : Nat) : List (Nat × Nat) → Nat → List Piece
  | [], _ => []
  | (o, w) :: t, v => ⟨pos, ent, tile, o, w, v % 2 ^ w⟩ :: partPieces pos ent tile t (v / 2 ^ w)

/-- A byte run as one piece. -/
def bytePiece (pos ent a : Nat) (bs : List Byte) : Piece := ⟨pos, ent, 255, 8 * a, 8 * bs.length, leNat bs⟩

/-- What a command writes at a position. -/
structure WElem where
  ix : List Nat
  val : FVal
deriving DecidableEq, Repr

/-- Positions of a run of i along dimension 0 from lo to hi - 1 at the indices of other dimensions. -/
def padRun (v : View) (lo hi : Nat) : List (List Nat) :=
  (List.range (v.dim 3)).flatMap (fun d => (List.range (v.dim 2)).flatMap (fun c =>
    (List.range (v.dim 1)).flatMap (fun b => (List.range (hi - lo)).map (fun a => [lo + a, b, c, d]))))

/-- Padding positions of a destination whose write block is n elements along dimension 0 (R131). -/
def padPositions (v : View) (n : Nat) : List (List Nat) :=
  (padRun v (v.dim 0) (roundUp (v.dim 0) n)).filter v.hasAddr

/-- The block of 32 that holds a position of an MX or PQ view: its index with the position along kk removed
modulo 32. -/
def blockStart (v : View) (ix : List Nat) : List Nat :=
  let i0 := (ix[0]?).getD 0
  let k := if v.isBlocked || v.isPlanar then v.p0 + i0 else i0
  listSet ix 0 (i0 - k % 32)

/-- Distinct blocks that a list of positions touches, in order of first touch. -/
def blocksOf (v : View) : List (List Nat) → List (List Nat)
  | [] => []
  | ix :: t =>
    let b := blockStart v ix
    let r := blocksOf v t
    b :: r.filter (fun x => x != b)

/-- The stored value of a position of a block that a write does not cover (R779): the positions of the whole tensor
have one, slack positions have none. It is read under the permission of the write (DESIGN CHOICE, log entry 80). -/
def storedElem (who : Who) (v : View) (ix : List Nat) : EM (Option FVal) := do
  let f := v.fmt
  let np := f.bits
  if v.isPanel || (v.hasAddr ix && v.inTensor ix) then do
    let l := v.loc np ix
    checkSeg who ((l.parts.headD (0, 1)).1 / 8) 1 true
    let x ← match l.scale with
      | some a => do let y ← readSpan who 1 a 1; pure (leNat y)
      | none => pure 0
    let c ← l.parts.reverse.foldlM (fun acc p => do
      let y ← readSpan who 2 (p.1 / 8) ((p.1 + p.2 - 1) / 8 - p.1 / 8 + 1)
      pure (acc * 2 ^ p.2 + leNat y / 2 ^ (p.1 % 8) % 2 ^ p.2)) 0
    pure (some (codeValue f np .trunc x c))
  else pure none

/-- Index of position i of a block. -/
def blockIx (b : List Nat) (i : Nat) : List Nat := listSet b 0 ((b[0]?).getD 0 + i)

/-- Pieces of a block of a view with np planes: its scale x and the codes of its elements. -/
def codePieces (pos ent tile : Nat) (v : View) (np : Nat) (b : List Nat) (x : Nat) (codes : List (List Nat × Nat)) :
    List Piece :=
  (match (v.loc np b).scale with
   | some a => [⟨pos, ent, tile, 8 * a, 8, x⟩]
   | none => []) ++ codes.flatMap (fun p => partPieces pos ent tile (v.loc np p.1).parts p.2)

/-- PQ code of a sign and a magnitude, cut to the planes that are written. -/
def pqPlanes (n np : Nat) (sg : Bool) (m : Nat) : Nat := m / 2 ^ (n - np) + sg.toNat * 2 ^ (np - 1)

/-- A block encoded from values: its scale and codes. -/
def blockCodes (f : Fmt) (np : Nat) (xs : List FVal) : Nat × List Nat :=
  if f.isMx then mxEncode f xs
  else
    let (x, sm) := pqEncode f.bits xs
    (x, sm.map (fun p => pqPlanes f.bits np p.1 p.2))

/-- One block of an MX or PQ destination encoded again (R779): written values, fill values at padding positions, the
stored values elsewhere in the tensor; slack positions are left out. -/
def blockPieces (e : Eng) (v : View) (pos : Nat) (ws : List WElem) (b : List Nat) : EM (List Piece) := do
  let np := v.fmt.bits
  let vals ← e.at_ 0 pos ((List.range 32).mapM (fun i => do
    let ix := blockIx b i
    match ws.find? (fun w => w.ix == ix) with
    | some w => pure (some (ix, w.val))
    | none => pure ((← storedElem e.who v ix).map (fun x => (ix, x)))))
  let present := vals.filterMap id
  let (x, codes) := blockCodes v.fmt np (present.map (·.2))
  pure (codePieces pos pos 255 v np b x ((present.map (·.1)).zip codes))

/-- The position of an element in the order of its view; padding follows every element (DESIGN CHOICE, log entry 81). -/
def View.posOf (v : View) (ix : List Nat) : Nat :=
  if (ix.zip v.dims).all (fun p => decide (p.1 < p.2)) then v.ravel ix else v.count

/-- Elements of a view written, then its padding (R131 - R135). -/
def Eng.writes (e : Eng) (v : View) (rm : RM) (ov : Ovf) (keep : Bool) (ws pads : List WElem) : EM Unit :=
  let all := ws ++ pads
  if v.fmt.isBlock then do
    let late := all.reverse
    let (ps, h) ← readUntil (fun b =>
      let pos := ((all.find? (fun w => blockStart v w.ix == b)).map (fun w => v.posOf w.ix)).getD 0
      blockPieces e v pos late b) (blocksOf v (all.map (·.ix)))
    writePieces e ps.flatten
    raise h
  else
    writePieces e (all.flatMap (fun w =>
      let pos := v.posOf w.ix
      partPieces pos pos 255 (v.loc 0 w.ix).parts (encodeKeep v.fmt rm ov keep w.val)))

/-- FILL elements at the padding positions under PAD_FILL (R132, R135). -/
def fillElems (v : View) (padFill : Bool) (n : Nat) (fill : FVal) : List WElem :=
  if padFill then (padPositions v n).map (fun ix => ⟨ix, fill⟩) else []

/-- FILL given in the format of the source (R139); its 32 bits are zero-extended for a wider source (DESIGN CHOICE, log
entry 82). -/
def srcFill (v : View) (raw : Nat) : FVal :=
  if v.fmt.isBlock then ofBits32 (BitVec.ofNat 32 raw) else v.fmt.decode (raw % 2 ^ v.fmt.bits)

/-- Elements of a write block of one granule along dimension 0 (R131): as many as its 512 bits hold, whatever scales the
format has beside them (DESIGN CHOICE, log entry 83). -/
def granuleElems (v : View) : Nat := max 1 (512 / max 1 v.fmt.bits)

end Sys2Proof.Machine
end

