-- ==== Sys2Proof/Machine/Checks.lean ====
section
/-! DEFINITION. The checks an engine makes of a command at its start (R278, R279, R780), kind by kind. -/
namespace Sys2Proof.Machine

/-! ## Kinds and queues (R239, R280) -/

def kVIEW : Nat := 0x01
def kCFG : Nat := 0x02
def kNOP : Nat := 0x03
def kMMUL : Nat := 0x04
def kATT : Nat := 0x05
def kVOP : Nat := 0x08
def kDCOPY : Nat := 0x0C
def kVMV : Nat := 0x10
def kVATT : Nat := 0x11
def kVKVA : Nat := 0x12
def kVEW : Nat := 0x13
def kVGS : Nat := 0x14
def kVAMO : Nat := 0x15
def kVSLOT : Nat := 0x16
def kFOP : Nat := 0x18

def isVq (q : Nat) : Bool := decide (10 ≤ q) && decide (q < 26)
def isDq (q : Nat) : Bool := decide (2 ≤ q) && decide (q < 10)
def isRemoteQ (q : Nat) : Bool := isVq q || q == 26

/-- The queue accepts the kind (R239). -/
def accepts (k q : Nat) : Bool :=
  if k = kVIEW ∨ k = kNOP then decide (q ≤ 26)
  else if k = kCFG then q == 0 || q == 1 || isVq q
  else if k = kMMUL ∨ k = kATT then q == 0
  else if k = kVOP then q == 1
  else if k = kDCOPY then isDq q
  else if k = kFOP then q == 26
  else if kVMV ≤ k ∧ k ≤ kVSLOT then isVq q
  else false

/-- Bit ranges of a kind whose access is RZ, as (word, high, low) (R241, R256 - R272). -/
def rzFields (k : Nat) : List (Nat × Nat × Nat) :=
  let head := [(0, 51, 48), (2, 30, 0)]
  let whole := fun (a b : Nat) => (List.range (b + 1 - a)).map (fun i => (a + i, 63, 0))
  if k = kVIEW then
    [(0, 57, 52), (0, 38, 0), (1, 63, 48), (2, 63, 63), (2, 31, 31), (3, 63, 63), (3, 31, 31), (4, 63, 48),
      (5, 63, 48), (6, 63, 48), (7, 63, 48)]
  else if k = kCFG then head ++ whole 5 7
  else if k = kMMUL then head ++ [(3, 11, 0), (4, 2, 0), (5, 63, 32)] ++ whole 6 7
  else if k = kATT ∨ k = kVATT then head ++ [(3, 32, 0), (4, 63, 48), (5, 35, 32), (6, 47, 42)] ++ whole 7 15
  else if k = kVOP ∨ k = kVEW then head ++ [(3, 36, 0)]
  else if k = kVMV then head ++ [(3, 28, 0), (4, 43, 0), (5, 63, 32)] ++ whole 6 7
  else if k = kVKVA then head ++ [(3, 15, 0), (4, 63, 48)] ++ whole 5 7
  else if k = kVGS then head ++ [(3, 41, 0), (4, 43, 40), (5, 63, 32)] ++ whole 6 7
  else if k = kVAMO then head ++ [(3, 43, 0), (4, 43, 0)] ++ whole 5 7
  else if k = kVSLOT then head ++ [(3, 22, 0)] ++ whole 4 7
  else if k = kDCOPY then head ++ [(3, 35, 32), (5, 43, 40), (6, 55, 0)] ++ whole 7 7
  else if k = kFOP then head ++ [(3, 38, 0), (4, 63, 48), (5, 13, 0)] ++ whole 6 7
  else head

def rzZero (c : List W64) : Bool := (rzFields (cKind c)).all (fun f => cf c f.1 f.2.1 f.2.2 == 0)

/-- An active signal has a non-zero increment. -/
def signalsOk (c : List W64) : Bool :=
  (cf c 0 52 52 == 0 || cf c 0 23 16 != 0) && (cf c 0 53 53 == 0 || cf c 0 39 32 != 0)

/-! ## Formats -/

def Fmt.isFp8 : Fmt → Bool
  | .e4m3 | .e5m2 => true
  | _ => false

/-- FP32, BF16, FP16 and the FP8 formats (R84, R433, R499). -/
def Fmt.isWide : Fmt → Bool
  | .fp32 | .bf16 | .fp16 | .e4m3 | .e5m2 => true
  | _ => false

/-- FP32, BF16 and FP16: targets of FINALISE (R86) and sources of PLANE_SPLIT (R435). -/
def Fmt.isSlot : Fmt → Bool
  | .fp32 | .bf16 | .fp16 => true
  | _ => false

/-- Formats of R205. -/
def Fmt.isAdder : Fmt → Bool
  | .fp32 | .bf16 | .fp16 | .int32 | .int64 => true
  | _ => false

/-- The operand pairs of R66. -/
def pair66 (b a : Fmt) : Bool :=
  if b.isFp8 then a.isFp8
  else if b.isMx then a.isMx
  else if b.isPq then a.isFp8 || a.isMx || a == .bf16
  else match b with
    | .bf16 => a == .bf16
    | .fp16 => a == .fp16
    | .int8 => a == .int8
    | .int4 => a == .int4 || a == .int8
    | _ => false

def Fmt.isMxfp8 (f : Fmt) : Bool := f == .mxE4m3 || f == .mxE5m2

/-- The operand pairs of R195. -/
def pair195 (w a : Fmt) : Bool :=
  if w.isFp8 then a.isFp8
  else if w.isMx then a.isMxfp8
  else if w.isPq then a.isFp8 || a.isMxfp8 || a == .bf16
  else match w with
    | .bf16 => a == .bf16
    | .fp16 => a == .fp16
    | .int8 => a == .int8
    | .int4 => a == .int8
    | _ => false

/-- PLANES lies in 2 - n for PQ weights and is 0 otherwise. -/
def planesOk (f : Fmt) (p : Nat) : Bool :=
  if f.isPq then decide (2 ≤ p) && decide (p ≤ f.bits) else p == 0

/-- Bytes of a panel of kk slices (R119 - R122). -/
def panelSize (f : Fmt) (lanes kk planes : Nat) : Nat :=
  if f.isPq then ceilDiv kk 32 * (lanes + planes * 1024)
  else kk * (lanes * f.bits / 8) + (if f.isMx then ceilDiv kk 32 * lanes else 0)

/-! ## Views -/

def vOf (c : List W64) (vs : SMap W64) (i hi lo : Nat) : View := viewOf vs (cf c i hi lo)

/-- The view lies in the scratchpad window of logical tile l (R261, R264, R304). -/
def View.own (v : View) (l : Nat) : Bool :=
  v.spans.all (fun p => decide ((spmBase + l * spmWin : Int) ≤ p.1) && decide (p.2 < (spmBase + (l + 1) * spmWin : Int)))

/-- A LINEAR view with its padding up to a write block of n elements (R131); the padding of the other layouts lies inside
their arrays. -/
def View.padded (v : View) (n : Nat) : View := if v.isLinear then { v with s0 := roundUp (v.s0 + 1) n - 1 } else v

/-- The view, every array of it, lies in the window of a logical tile (R304, R447). -/
def View.inLogical (v : View) : Bool :=
  let l := (v.base - spmBase) / spmWin
  inSpm v.base && decide (l < 192) && v.own l

def View.is32 (v : View) : Bool := v.fmt == .int32 || v.fmt == .int64

/-- An index tensor of R125. -/
def View.isIndex (v : View) : Bool := v.isLinear && v.is32 && s48 v.p0 == 1

/-- A length table of n sequences (R496). -/
def View.isLengths (v : View) (n : Nat) : Bool :=
  v.isLinear && v.fmt == .int64 && s48 v.p0 == 1 && v.dim 0 == 2 * n && v.dim 1 == 1 && v.dim 2 == 1 && v.dim 3 == 1

/-- The view register holds a view. -/
def View.named (v : View) : Bool := v.fmtc != 0

/-- Rules of gather and scatter views (R442): ix indexes dimension dim of v, and w holds a row for each entry. -/
def rule442 (v w ix : View) (dim d : Nat) : Bool :=
  ix.isIndex && w.dim dim == ix.count && decide (d ≤ v.dim dim) &&
    (List.range 4).all (fun i => i == dim || v.dim i == w.dim i)

/-- EXACT 1 goes with add on a floating-point source; EXACT 0 with a format and operation of R205. -/
def exactOk (exact : Bool) (aop : Nat) (src : Fmt) : Bool := !exact || (aop == 0 && src.isWide)

/-! ## Kinds -/

def okMmul (c : List W64) (chain : Bool) : Bool :=
  match Fmt.ofCode (cf c 4 28 24), Fmt.ofCode (cf c 4 23 19), Fmt.ofCode (cf c 4 18 14) with
  | some a, some b, some o =>
    let k := cf c 4 63 44 + 1
    let fits := fun (off n : Nat) => decide (off * 256 + n ≤ spmWin)
    pair66 b a &&
    (if b.isInt then o == .int32 else o.isWide || o.isMx) &&
    planesOk b (cf c 4 13 10) &&
    cf c 4 8 7 != 3 && (cf c 4 8 7 == 2) == chain &&
    fits (cf c 3 63 51) (panelSize a 128 k 0) && fits (cf c 3 50 38) (panelSize b 256 k (cf c 4 13 10)) &&
    (cf c 4 6 6 == 1 || fits (cf c 3 37 25) (panelSize o 128 256 0)) &&
    (cf c 4 8 7 != 1 || fits (cf c 3 24 12) (256 * 128 * 4))
  | _, _, _ => false

/-- Sizes and formats of an attention view (R499). -/
def okAttView (v : View) (dh d1 : Nat) : Bool :=
  v.named && v.fmt.isWide && v.dim 0 == dh && v.dim 1 == d1 && v.dim 3 == 1

/-- Format of a key or value view of an ATT against KVF (R501). -/
def okAttKv (c : List W64) (v : View) : Bool :=
  match v.fmt with
  | .e4m3 => cf c 3 43 42 == 0
  | .e5m2 => cf c 3 43 42 == 1
  | _ => cf c 3 43 42 == 0 && cf c 6 63 48 == 0

def okAttCommon (c : List W64) (vs : SMap W64) (att : Bool) : Bool :=
  let dh := cf c 5 43 36 + 1
  let gq := cf c 5 51 44 + 1
  let needKv := att || cf c 3 41 41 == 1
  cf c 3 40 39 != 3 && !(cf c 3 40 39 == 2 && cf c 6 20 0 == 0) &&
  okAttView (vOf c vs 3 63 60) dh gq && okAttView (vOf c vs 3 59 56) dh gq &&
  (!needKv || (okAttView (vOf c vs 3 55 52) dh 1 && okAttView (vOf c vs 3 51 48) dh 1))

def okAtt (c : List W64) (vs : SMap W64) (l : Nat) : Bool :=
  let lv := vOf c vs 3 47 44
  let kv := vOf c vs 3 55 52
  let vv := vOf c vs 3 51 48
  okAttCommon c vs true && cf c 3 41 41 == 0 && cf c 4 47 0 == 0 && decide (cf c 3 43 42 ≤ 1) &&
  okAttKv c kv && okAttKv c vv &&
  (!lv.named || (lv.isLengths (cf c 3 38 33 + 1) && lv.own l && cf c 6 41 21 == 0)) &&
  (vOf c vs 3 63 60).own l && (vOf c vs 3 59 56).own l && kv.own l && vv.own l

def okVatt (c : List W64) (vs : SMap W64) : Bool :=
  let lv := vOf c vs 3 47 44
  okAttCommon c vs false && lv.named && lv.isLengths (cf c 3 38 33 + 1)

/-- A VKVA's new keys and values are FP views of one row each; its length table is named (R266, R496, R499). -/
def okVkva (c : List W64) (vs : SMap W64) : Bool :=
  let lv := vOf c vs 3 55 52
  let okKv := fun (v : View) => v.named && v.fmt.isWide && v.dim 1 == 1 && v.dim 3 == 1
  lv.named && lv.isLengths (cf c 3 49 44 + 1) && okKv (vOf c vs 3 63 60) && okKv (vOf c vs 3 59 56)

/-- Operands of an operation of R263: whether y and z are read, and whether the result has one value per row. -/
structure VecOp where
  useY : Bool
  useZ : Bool
  red : Bool
  vew : Bool
deriving DecidableEq, Repr

def vecOp (op : Nat) : Option VecOp :=
  if op = 4 then some ⟨true, true, false, true⟩
  else if 1 ≤ op ∧ op ≤ 7 then some ⟨true, false, false, true⟩
  else if op = 0x08 ∨ op = 0x09 then some ⟨false, false, false, true⟩
  else if op = 0x0A then some ⟨true, true, false, true⟩
  else if 0x10 ≤ op ∧ op ≤ 0x1B then some ⟨false, false, false, false⟩
  else if op = 0x20 ∨ op = 0x21 then some ⟨false, false, false, true⟩
  else if op = 0x22 then some ⟨false, false, false, false⟩
  else if op = 0x23 then some ⟨true, false, false, true⟩
  else if op = 0x24 then some ⟨true, true, false, true⟩
  else if op = 0x28 ∨ op = 0x29 then some ⟨false, false, true, true⟩
  else if op = 0x2A then some ⟨true, false, true, true⟩
  else if op = 0x30 then some ⟨true, true, false, true⟩
  else none

def View.sameShape (v w : View) : Bool := v.dims == w.dims

/-- A VOP or VEW (R200, R262 - R264). Padding that a VOP would write outside its own window counts as a view elsewhere
(R781; DESIGN CHOICE, log entry 84). -/
def okVec (c : List W64) (vs : SMap W64) (l : Nat) (vew : Bool) : Bool :=
  match vecOp (cf c 3 63 56) with
  | none => false
  | some o =>
    let x := vOf c vs 3 55 52
    let y := vOf c vs 3 51 48
    let z := vOf c vs 3 47 44
    let r := vOf c vs 3 43 40
    (!vew || o.vew) && x.named && r.named &&
    (!o.useY || (y.named && y.sameShape x)) && (!o.useZ || (z.named && z.sameShape x)) &&
    (if o.red then r.dims == 1 :: x.dims.drop 1 else r.sameShape x) &&
    (vew || (x.own l && r.own l && (!o.useY || y.own l) && (!o.useZ || z.own l) && (cf c 3 37 37 == 0 ||
      ((r.padded 256).own l && (cf c 3 63 56 != 0x30 || ((y.padded 256).own l && (z.padded 256).own l))))))

/-- Shape of a destination or residual of a VMV (R195): n output columns and b batch rows. -/
def okVmvOut (v : View) (n b : Nat) : Bool :=
  if v.isLinear then v.dims == [n, b, 1, 1] else v.dims == [b, n, 1, 1]

def okVmv (c : List W64) (vs : SMap W64) : Bool :=
  let w := vOf c vs 3 63 60
  let a := vOf c vs 3 59 56
  let o := vOf c vs 3 55 52
  let r := vOf c vs 3 51 48
  let kk := w.dim 0
  let n := w.dim 1
  let b := cf c 3 47 42 + 1
  let epi := cf c 3 41 40
  let res := cf c 3 39 39 == 1
  let n' := if epi = 0 then n else n / 2
  let bytes := b * kk * a.fmt.bits / 8 + (if a.fmt.isMx then b * ceilDiv kk 32 else 0)
  w.named && a.named && o.named && (!res || r.named) &&
  (w.isBlocked || w.isPlanar) && a.isLinear && pair195 w.fmt a.fmt &&
  epi != 3 && cf c 3 38 37 != 3 && planesOk w.fmt (cf c 3 36 33) &&
  decide (bytes ≤ 4 * 2 ^ 20) && (epi == 0 || n % 2 == 0) && (!res || epi == 0) &&
  a.dims == [kk, b, 1, 1] && okVmvOut o n' b && (!res || okVmvOut r n' b) &&
  (cf c 3 38 37 != 2 || o.fmt.isAdder)

def okVgs (c : List W64) (vs : SMap W64) : Bool :=
  let ix := vOf c vs 3 59 56
  let sv := vOf c vs 3 55 52
  let dv := vOf c vs 3 51 48
  let g := cf c 3 63 62
  let exact := cf c 3 43 43 == 1
  let dim := cf c 3 47 46
  let d := cf c 4 39 0 + 1
  g != 3 && cf c 3 45 44 != 3 && ix.named && sv.named && dv.named &&
  exactOk exact (cf c 3 45 44) sv.fmt &&
  (g != 2 || exact || (dv.fmt.isAdder && sv.fmt == dv.fmt)) && (g == 2 || sv.fmt == dv.fmt) &&
  (g != 2 || !exact || dv.count == sv.count) &&
  (if g = 0 then rule442 sv dv ix dim d else rule442 dv sv ix dim d)

def okVamo (c : List W64) (vs : SMap W64) : Bool :=
  let t := vOf c vs 3 59 56
  let sv := vOf c vs 3 55 52
  let cv := vOf c vs 3 51 48
  let rv := vOf c vs 3 47 44
  let aop := cf c 3 63 62
  let ret := cf c 3 61 61 == 1
  let exact := cf c 3 60 60 == 1
  t.named && sv.named && (aop != 3 || cv.named) && (!ret || rv.named) &&
  exactOk exact aop sv.fmt && (exact || (t.fmt.isAdder && sv.fmt == t.fmt)) &&
  !((if exact then sv.fmt.isFloat else t.fmt.isFloat) && (aop == 3 || ret)) &&
  t.count == sv.count && (aop != 3 || (cv.count == t.count && cv.fmt == t.fmt)) &&
  (!ret || (rv.count == t.count && rv.fmt == t.fmt))

def okVslot (c : List W64) (vs : SMap W64) : Bool :=
  let sop := cf c 3 63 61
  let m := vOf c vs 3 59 56
  let n := cf c 3 39 23
  decide (sop ≤ 4) && decide (1 ≤ n) && decide (n ≤ 65536) &&
  (if sop = 0 then true
   else if sop = 1 then m.named && m.fmt.isSlot && decide (n ≤ m.count)
   else m.named && m.isLinear && m.fmt == .int8 && m.count == 48 * n)

def okDcopy (c : List W64) (vs : SMap W64) : Bool :=
  let sv := vOf c vs 3 63 60
  let dv := vOf c vs 3 59 56
  let ix := vOf c vs 3 55 52
  let m := cf c 3 51 48
  let aop := cf c 3 45 44
  let exact := cf c 3 43 43 == 1
  let planes := cf c 3 41 38
  let dim := cf c 3 37 36
  let d := cf c 5 39 0 + 1
  let mc := cf c 4 63 0
  decide (m ≤ 6) && aop != 3 &&
  (3 ≤ m || cf c 3 55 52 == 0) && (m != 6 || cf c 3 63 56 == 0) &&
  (m == 6 || (sv.named && dv.named)) && (m < 3 || ix.named) &&
  exactOk exact aop (if m = 6 then .none else sv.fmt) &&
  (mc == 0 || (m == 0 && dv.inLogical)) &&
  (match m with
   | 0 =>
     (sv.fmt == dv.fmt || (sv.fmt.isWide && dv.fmt.isWide)) &&
     (if sv.isPanel != dv.isPanel then
        let p := if sv.isPanel then sv else dv
        let o := if sv.isPanel then dv else sv
        decide (o.dim 1 ≤ p.lanes) && o.dim 2 == 1 && o.dim 3 == 1 && o.dim 0 == p.dim 0
      else sv.sameShape dv) &&
     (!sv.fmt.isPq || planes == 0 || (decide (2 ≤ planes) && decide (planes ≤ sv.fmt.bits))) &&
     (!(sv.isPanel && sv.fmt.isPq) || sv.panelIn (sv.planes planes)) &&
     (!(dv.isPanel && dv.fmt.isPq) || dv.panelIn (dv.planes planes))
   | 1 =>
     (sv.isLinear || sv.isBlocked) && sv.fmt.isSlot && dv.isPlanar && (planes == 0 || planes == dv.fmt.bits) &&
     sv.sameShape dv
   | 2 =>
     sv.isPlanar && (dv.isLinear || dv.isBlocked) && dv.fmt.isWide && sv.sameShape dv &&
     (planes == 0 || (decide (2 ≤ planes) && decide (planes ≤ sv.fmt.bits)))
   | 3 => !sv.isPanel && !dv.isPanel && sv.fmt == dv.fmt && rule442 sv dv ix dim d
   | 4 => !sv.isPanel && !dv.isPanel && sv.fmt == dv.fmt && rule442 dv sv ix dim d
   | 5 =>
     (sv.isLinear || sv.isBlocked) && (dv.isLinear || dv.isBlocked) && rule442 dv sv ix dim d &&
     (if exact then dv.count == sv.count else sv.fmt == dv.fmt && dv.fmt.isAdder)
   | _ => ix.isLinear && ix.fmt == .int64 && s48 ix.p0 == 1 && ix.dim 0 % 2 == 0)

def okFop (c : List W64) (vs : SMap W64) : Bool :=
  let f := cf c 3 63 61
  let lv := vOf c vs 3 60 57
  let aop := cf c 3 41 40
  let exact := cf c 3 39 39 == 1
  let bytes := lv.count * lv.fmt.bits / 8
  decide (f ≤ 4) && aop != 3 &&
  (if f = 3 then cf c 5 41 34 != 0 && !exact
   else
    lv.named && (lv.isLinear || lv.isBlocked) && decide (bytes ≤ 2 ^ 32) &&
    (!exact || (f == 2 && aop == 0 && lv.fmt.isWide)) &&
    (f != 2 || exact || lv.fmt.isAdder) &&
    (f != 4 || (lv.isLinear && lv.fmt == .int8 && lv.count % 48 == 0)))

/-- Bits of a configuration register that are growth (R273). -/
def cfgGrowth : W64 := setFld (setFld (setFld 0#64 63 32 (2 ^ 32 - 1)) 22 16 127) 7 0 255

def okCfg (c : List W64) : Bool := (cw c 4 &&& cfgGrowth) == 0#64

/-- Encodings that a job with DET set may not execute (R279). -/
def detBad (c : List W64) (vs : SMap W64) : Bool :=
  let k := cKind c
  if k = kVMV then cf c 3 38 37 == 2 && (vOf c vs 3 55 52).fmt.isFloat
  else if k = kVGS then cf c 3 63 62 == 2 && cf c 3 43 43 == 0 && (vOf c vs 3 51 48).fmt.isFloat
  else if k = kDCOPY then cf c 3 51 48 == 5 && cf c 3 43 43 == 0 && (vOf c vs 3 59 56).fmt.isFloat
  else if k = kVAMO then cf c 3 60 60 == 0 && (vOf c vs 3 59 56).fmt.isFloat
  else if k = kFOP then cf c 3 63 61 == 2 && cf c 3 39 39 == 0 && (vOf c vs 3 60 57).fmt.isFloat
  else false

/-- The checks of R278 and R279 for a command at its start: q its queue, l its logical tile, vs the view registers as
they stand, chain whether its queue's last MMUL had CHAIN 1, det whether its job has DET set (DEDUCED, log entry 16). -/
def commandOk (c : List W64) (q l : Nat) (vs : SMap W64) (chain det : Bool) : Bool :=
  let k := cKind c
  accepts k q && rzZero c &&
  (if k = kVIEW then (View.ofWords c).legal
   else
    signalsOk c && !(det && detBad c vs) &&
    (if k = kMMUL then okMmul c chain
     else if k = kATT then okAtt c vs l
     else if k = kVATT then okVatt c vs
     else if k = kVKVA then okVkva c vs
     else if k = kVOP then okVec c vs l false
     else if k = kVEW then okVec c vs l true
     else if k = kVMV then okVmv c vs
     else if k = kVGS then okVgs c vs
     else if k = kVAMO then okVamo c vs
     else if k = kVSLOT then okVslot c vs
     else if k = kDCOPY then okDcopy c vs
     else if k = kFOP then okFop c vs
     else if k = kCFG then okCfg c
     else true))

end Sys2Proof.Machine
end

