-- ==== Sys2Proof/Machine/Requests.lean ====
section
/-! DEFINITION. The request table and the result rings of the serving block SRV (chapter 13): entries (R523), result
records (R519 - R522), and the end of requests with their job (R546). -/
namespace Sys2Proof.Machine

/-! ## Entries -/

/-- STATE codes of R523. -/
def qFREE : Nat := 0
def qQUEUED : Nat := 1
def qPREFILL : Nat := 2
def qDECODE : Nat := 3
def qDRAINING : Nat := 4
def qDONE : Nat := 5
def qCANCELLED : Nat := 6
def qEXPIRED : Nat := 7
def qREFUSED : Nat := 8
def qLOST : Nat := 9

/-- The value of DEADLINE_LEFT that means no deadline (R551). -/
def noDeadline : Nat := 2 ^ 32 - 1

def State.req (s : State) (i : Nat) : Req := SMap.get Req.zero s.rqt i

def State.setReq (s : State) (i : Nat) (r : Req) : State := { s with rqt := SMap.put Req.zero s.rqt i r }

/-- The request holds an admitted, unfinished state. -/
def Req.alive (r : Req) : Bool := r.state == qPREFILL || r.state == qDECODE || r.state == qDRAINING

def Req.terminal (r : Req) : Bool := decide (qDONE ≤ r.state)

/-- Word n of an entry (R523). -/
def Req.word (r : Req) (n : Nat) : W64 :=
  let w0 := setFld (setFld (setFld (setFld 0#64 63 60 r.state) 59 56 r.prio) 55 50 r.job) 49 46 r.floor
  let w0 := setFld (setFld (setFld w0 45 42 r.home) 41 40 r.result) 39 37 r.reason
  let w0 := setFld (setFld (setFld (setFld w0 36 36 r.cancel.toNat) 35 35 r.low.toNat) 34 34 r.pfxUse.toNat)
    33 33 r.pfxIns.toNat
  match n with
  | 0 => setFld w0 15 0 r.ns
  | 1 => r.cookie
  | 2 => setFld (setFld 0#64 41 21 r.promptLen) 20 0 r.maxNew
  | 3 => setFld (setFld 0#64 41 21 r.pos) 20 0 r.delivered
  | 4 => setFld (setFld 0#64 63 32 r.left) 31 0 r.qpos
  | 5 => setFld (setFld 0#64 48 32 r.commit) 16 0 r.alloc
  | 6 => setFld (setFld 0#64 63 40 r.node) 20 0 r.matched
  | 7 => BitVec.ofNat 64 r.arrival
  | 8 => setFld 0#64 47 0 r.prompt
  | 9 => setFld 0#64 47 0 r.param
  | 10 => setFld 0#64 47 0 r.ring
  | _ => 0#64

/-- Entries of job j in ascending index. -/
def State.reqsOf (s : State) (j : Nat) : List Nat :=
  (s.rqt.filter (fun p => p.2.job == j && p.2.state != qFREE)).map (·.1)

/-- Entries of job j that are QUEUED. -/
def State.queuedOf (s : State) (j : Nat) : List Nat := (s.reqsOf j).filter (fun i => (s.req i).state == qQUEUED)

def State.queuedAll (s : State) : Nat := (s.rqt.filter (fun p => p.2.state == qQUEUED)).length

def State.srvJob (s : State) (j : Nat) : SrvJob := SMap.get SrvJob.zero s.srv j

def State.setSrvJob (s : State) (j : Nat) (x : SrvJob) : State := { s with srv := SMap.put SrvJob.zero s.srv j x }

/-- Job j is a serving job: its serving registers are set (R556). -/
def State.serving (s : State) (j : Nat) : Bool := s.flag (SRV_JOB_CFG.V j)

/-- Job j is a resident serving job: its load has its result, and its end has not begun (R518, R581, R600). -/
def State.serves (s : State) (j : Nat) : Bool :=
  s.serving j && s.resident j && s.jobState j != jENDING && !s.endAsked.contains j

/-- An entry reaches a terminal state; expiries are counted (R557). -/
def State.endReq (s : State) (i st : Nat) : State :=
  let r := s.req i
  let s := s.setReq i { r with state := st }
  if st = qEXPIRED then s.bumpSat (DSK_JOB_CNT.EXPIRED r.job) 1 else s

/-! ## Memory accesses of SRV and SMP -/

/-- SRV, PXW and SMP on the direct path (R462, R519, R559); SMP acts for the job and SRV for none. -/
def srvWho (j : Option Nat) : Who := ⟨.ldr, j, 255, some 6⟩

/-- Fault of SMP's access outside the job's segments (R420, R559). -/
def smpFault (j : Option Nat) (a : Nat) : ErqRec :=
  ⟨0x13, 3, bSRV, 0, j, a, setFld (setFld (setFld 0#64 63 56 5) 55 48 1) 39 32 0xFF⟩

/-- What stops an access of the serving block becomes a fatal fault (DEDUCED, log entries 30 and 31). -/
def srvTry {α : Type} (j : Option Nat) (x : EM α) : EM α :=
  tryCatch x (fun
    | .bus a => throw (.fatal 2 (smpFault j a))
    | .seg a => throw (.fatal 2 (smpFault j a))
    | .poison a => do
      match j with
      | some j => modify (fun s => s.noteRepair j a)
      | none => pure ()
      throw (.fatal 4 ⟨0x05, 3, bSRV, 0, j, a, 6#64⟩)
    | st => throw st)

/-- Granule accesses of a direct-path read or write; fuel is the number of bytes. -/
def rawSpanRead (w : Who) : Nat → Nat → Nat → EM (List Byte)
  | 0, _, _ => pure []
  | f + 1, a, n =>
    if n = 0 then pure []
    else do
      let k := granuleRoom a n
      let x ← rawRead w a k
      let y ← rawSpanRead w f (a + k) (n - k)
      pure (x ++ y)

def rawSpanWrite (w : Who) : Nat → Nat → List Byte → EM Unit
  | 0, _, _ => pure ()
  | f + 1, a, bs =>
    match bs with
    | [] => pure ()
    | _ => do
      let k := granuleRoom a bs.length
      rawWrite w a (bs.take k)
      rawSpanWrite w f (a + k) (bs.drop k)

/-- A read by SRV or PXW. -/
def srvRd (j a n : Nat) : EM (List Byte) := srvTry (some j) (rawSpanRead (srvWho none) n a n)

def srvWr (j a : Nat) (bs : List Byte) : EM Unit := srvTry (some j) (rawSpanWrite (srvWho none) bs.length a bs)

def srvRdNat (j a n : Nat) : EM Nat := do pure (leNat (← srvRd j a n))

def srvWrNat (j a n v : Nat) : EM Unit := srvWr j a (leBytes n v)

/-- A read by SMP, through the job's segments (R559). -/
def smpRd (j a n : Nat) : EM (List Byte) :=
  srvTry (some j) (do checkSeg (srvWho (some j)) a n false; rawSpanRead (srvWho (some j)) n a n)

def smpWr (j a : Nat) (bs : List Byte) : EM Unit :=
  srvTry (some j) (do checkSeg (srvWho (some j)) a bs.length true; rawSpanWrite (srvWho (some j)) bs.length a bs)

def smpRdNat (j a n : Nat) : EM Nat := do pure (leNat (← smpRd j a n))

def smpWrNat (j a n v : Nat) : EM Unit := smpWr j a (leBytes n v)

/-! ## Result rings (R519 - R522) -/

def State.resBase (s : State) (j : Nat) : Nat := s.f (SRV_JOB_RES.BASE j)

/-- SIZE of job j's result ring (R556). -/
def State.resSize (s : State) (j : Nat) : Nat := 2 ^ (s.f (SRV_JOB_RES.RSZ j) + 8)

/-- Records in the ring, modulo 2^32 (R520). -/
def resUsed (j : Nat) : EM Nat := do
  let s ← get
  let cons ← srvRdNat j (s.resBase j + 8) 8
  pure (((s.srvJob j).prod + 2 ^ 32 - cons % 2 ^ 32) % 2 ^ 32)

/-- EVENT codes of R521. -/
def evADMIT : Nat := 0
def evDEFER : Nat := 1
def evREFUSE : Nat := 2
def evFINAL : Nat := 3
def evTOOLATE : Nat := 4
def evBAD : Nat := 5
def evBULK : Nat := 6

/-- A result record without its STEP word (R521). -/
def resWords (ev reason : Nat) (noent : Bool) (j idx : Nat) (r : Req) (value : Nat) : List W64 :=
  let w0 := setFld (setFld (setFld (setFld 0#64 63 60 r.state) 59 57 ev) 56 54 reason) 53 53 noent.toNat
  [setFld (setFld (setFld w0 52 47 j) 46 32 idx) 31 0 value, r.cookie,
    setFld (setFld 0#64 48 32 r.commit) 20 0 r.matched]

/-- A record written with the job's step count, then PROD (R519, R521); its message follows (R646). A terminal record
frees its entry (R524). -/
def writeResult (j : Nat) (ws : List W64) : EM Unit := do
  let s ← get
  let base := s.resBase j
  let k := (s.srvJob j).prod
  let ws := ws ++ [s.reg (SRV_JOB_STEP.at j)]
  srvWr j (base + 64 + 32 * (k % s.resSize j)) (ws.flatMap (fun w => leBytes 8 w.toNat))
  let p := (k + 1) % 2 ^ 32
  srvWrNat j base 8 p
  modify (fun s =>
    let s := s.setSrvJob j { s.srvJob j with prod := p }
    let w0 := (ws.head?).getD 0#64
    let ev := fld w0 59 57
    let s := if (ev = evFINAL ∨ ev = evREFUSE) ∧ fld w0 53 53 = 0 then s.setReq (fld w0 46 32) Req.zero else s
    s.post 2 (some j) (BitVec.ofNat 64 p) base)

/-- The ring can take an ordinary record now; where it cannot, the action that makes one is held (R520). -/
def resRoom (j : Nat) : EM Bool := do
  let s ← get
  pure (decide ((← resUsed j) < s.resSize j - 1))

/-- Job of a record handed to SRV. -/
def srvInJob (p : Nat × List W64) : Nat := fld ((p.2.head?).getD 0#64) 63 58

/-- RES_WAIT is set while an action of job j is held for want of room: a boundary, or the observation of a record
(R520). -/
def showHold (j : Nat) : EM Unit := do
  let s ← get
  let room ← if (s.srvJob j).bnd || s.srvIn.any (fun p => srvInJob p == j) then resRoom j else pure true
  modify (fun s => s.setFlag (SRV_JOB_STATUS.RES_WAIT j) (!room))

/-! ## Requests that end with their job (R546, R547) -/

/-- Records written one by one while the ring has room for ordinary ones, then one LOST_BULK in the reserved slot for
the LOST requests among the rest, or an SRV_LOST record where that slot is occupied (R546, R547). -/
def lastRecords (j : Nat) : List (List W64) → EM Unit
  | [] => pure ()
  | r :: t => do
    let s ← get
    let used ← resUsed j
    if used < s.resSize j - 1 then do
      writeResult j r
      lastRecords j t
    else
      let n := ((r :: t).filter (fun ws => fld ((ws.head?).getD 0#64) 63 60 == qLOST)).length
      if n = 0 then pure ()
      else if used = s.resSize j - 1 then
        writeResult j (resWords evBULK 0 true j 0 { Req.zero with state := qLOST } n)
      else
        modify (fun s => s.erq ⟨0xE0, 2, bSRV, 0, some j, s.resBase j, BitVec.ofNat 64 n⟩)

/-- Requests of job j that are not terminal end LOST. -/
def State.markLost (s : State) (j : Nat) : State :=
  ((s.reqsOf j).filter (fun i => !(s.req i).terminal)).foldl (fun s i => s.setReq i { s.req i with state := qLOST }) s

/-- An SRV_LOST record for the LOST requests whose FINAL was not written (R547). -/
def State.srvLost (s : State) (j : Nat) : State :=
  let n := ((s.reqsOf j).filter (fun i => (s.req i).state == qLOST)).length
  if n = 0 then s else s.erq ⟨0xE0, 2, bSRV, 0, some j, s.resBase j, BitVec.ofNat 64 n⟩

/-- The requests of job j end LOST, its records are written and its serving state is given up. A write that must wait
is waited for; what else stops one does not stop the end (R546). -/
def endRequests (j : Nat) : EM Unit := do
  let s ← get
  if s.serving j then
    modify (fun s => s.markLost j)
    let s ← get
    tryCatch (lastRecords j ((s.reqsOf j).map (fun i => resWords evFINAL 0 false j i (s.req i) (s.req i).delivered)))
      (fun
        | .wait => throw .wait
        | _ => modify (fun s => s.srvLost j))
    modify (fun s =>
      let s := (s.reqsOf j).foldl (fun s i => s.setReq i Req.zero) s
      let s := { s with srvIn := s.srvIn.filter (fun p => srvInJob p != j) }
      (s.setSrvJob j SrvJob.zero).setFlag (SRV_JOB_CFG.V j) false)

/-- The same at an end that goes on while an access waits: the requests are LOST, and their records follow. -/
def State.endLost (s : State) (j : Nat) : State :=
  match (endRequests j).go s with
  | (.ok _, s') => s'
  | (.error _, _) => if s.serving j then s.markLost j else s

end Sys2Proof.Machine
end

