-- ==== Sys2Proof/Machine/Reset.lean ====
section
/-! DEFINITION. Fatal faults and the compute reset (R422, R602 - R606), Cloudbank under a compute reset (R357), and what
of the registers it keeps (R9, R604). -/
namespace Sys2Proof.Machine

/-! ## Cloudbank and merge buffers (step 5 of R603) -/

/-- Bytes taken for a stack page whatever holds its channel back: into its merge buffer, beyond the sixteenth entry where
the write would have to wait (R378, R403) (DEDUCED, log entry 24). -/
def State.forceStack (s : State) (a : Nat) (bs : List Byte) : State :=
  let gp := a / 4096
  match s.mergeEntry gp with
  | some _ => s.mergeInto gp (a % 4096) bs
  | none =>
    let e := (⟨gp, [], 0, false⟩ : MergeEntry).add (a % 4096) bs
    match s.pushEntry e with
    | some s => s
    | none => s.setMergeBuf (s.gchan gp) (s.mergeBuf (s.gchan gp) ++ [e])

/-- Bytes written without a requester that could wait: by DYL, EQX or a reset. A place that takes none receives none. -/
def State.forceWrite (s : State) (a : Nat) (bs : List Byte) : State :=
  match s.region a with
  | .stack => s.forceStack a bs
  | .far => (farWrite a bs).go s |>.2
  | .scratch => { s with scratch := Bytes.wrList s.scratch (a - scratchBase) bs }
  | _ => s

/-- Dirty granules without an uncorrectable word written back, every line invalid, scratch zero (R357). -/
def State.clbReset (s : State) : State :=
  let s := s.cache.foldl (fun s p =>
    let line := p.1 % 2 ^ 40
    [0, 1, 2, 3].foldl (fun s g =>
      if p.2.dirty.toNat.testBit g && !p.2.bad.toNat.testBit g then
        let s := s.clbCe (some (p.1 / 2 ^ 40)) (s.homeSlice (line * 256)) (line * 256 + 64 * g) (p.2.weakIn (64 * g) 64)
        s.forceWrite (line * 256 + 64 * g) (Bytes.rdList p.2.data (64 * g) 64)
      else s) s) s
  { s with cache := [], scratch := [], scratchBad := [], scratchWeak := [] }

/-- Merge buffers written back; entries of a stack in a write hold stay held (R378, R403) (DEDUCED, log entry 24). -/
def State.mergeReset (s : State) : State :=
  (s.merge.flatMap (·.2)).foldl (fun s e =>
    if s.whold (s.stackOf e.page) then s else s.writeBackEntry e) s

/-! ## Registers (R9, R604) -/

/-- The halt latches of VQs, DMA channels and FQs. -/
def isHaltLatch (off : Nat) : Bool :=
  match regFind off with
  | some (d, _) => d.base == VRG_HALT_INFO.at 0 0 || d.base == VRG_HALT_ADDR.at 0 0 ||
      d.base == ANV_DMA_HALT_INFO.at 0 0 || d.base == ANV_DMA_HALT_ADDR.at 0 0 ||
      d.base == XWF_HALT_INFO.at 0 || d.base == XWF_HALT_ADDR.at 0
  | none => false

def State.clearHaltLatches (s : State) : State := { s with regs := s.regs.filter (fun p => !isHaltLatch p.1) }

/-- Blocks whose registers a compute reset keeps whole: ZEN and the ERQ (R424, R738, R760), PWR and TMD (R714), DYL
(R654), CXP (R363), XWF beside its halt latches (R677), MSC (R377, R427) and TDC (R696). -/
def keptBlock (off : Nat) : Bool :=
  decide (off < 0x100000) || (decide (0x800000 ≤ off) && decide (off < 0x1400000)) ||
  (decide (0x2000000 ≤ off) && decide (off < 0x3000000)) || decide (0x8000000 ≤ off)

/-- Bits that a compute reset keeps of a register outside those blocks, as a mask: EQX_CTL, EQX_FAULT, EQX_RESETS
(R607), the counts since power-up of the loader (R630) and of Cloudbank's corrections (R358), the tile map, EN of the DMA channels and the correction
counts (R175, R180, R458, R604), the engine's MODE and PLAIN (R230, R604), the domain indications, and XWF groups. -/
def keptMask (off : Nat) : W64 :=
  let all : W64 := setFld 0#64 63 0 (2 ^ 64 - 1)
  let bits : FRef → W64 := fun r => setFld 0#64 r.hi r.lo (2 ^ 64 - 1)
  match regFind off with
  | none => 0#64
  | some (d, _) =>
    if d.base = EQX_CTL.at ∨ d.base = EQX_FAULT.at ∨ d.base = EQX_RESETS.at ∨ d.base = ANV_ECC_CE.at 0 ∨
      d.base = VRG_ID.at 0 then all
    else if d.base = LDR_STATUS.at then bits LDR_STATUS.LOADS
    else if d.base = CLB_ERR.at then bits CLB_ERR.CE_COUNT
    else if d.base = ANV_ID.at 0 then ~~~(bits (ANV_ID.JOB_V 0) ||| bits (ANV_ID.JOB 0))
    else if d.base = ANV_STATUS.at 0 then bits (ANV_STATUS.GROUP_OFF 0)
    else if d.base = ANV_DMA_CTL.at 0 0 then bits (ANV_DMA_CTL.EN 0 0)
    else if d.base = VRG_CTL.at 0 then bits (VRG_CTL.PLAIN 0)
    else if d.base = VRG_STATUS.at 0 then bits (VRG_STATUS.DOMAIN_OFF 0)
    else 0#64

/-- MODE RETIRING ends with RETIRE, which a compute reset clears; PLAIN and DEFECTIVE are kept with what they follow
(R9, R229, R230). -/
def keptMode (off : Nat) (w : W64) : W64 :=
  match regFind off with
  | some (d, _) => if d.base = VRG_ID.at 0 ∧ fld w 31 30 = 1 then setFld w 31 30 0 else w
  | none => w

/-- The register after a compute reset (R9). -/
def afterReset (off : Nat) (v : W64) : W64 :=
  let m := keptMask off
  keptMode off ((v &&& m) ||| (regReset off &&& ~~~m))

/-- Every register that is not kept returns to its reset value (R9). -/
def State.resetRegisters (s : State) : State :=
  s.regs.foldl (fun s p => if keptBlock p.1 then s else s.setReg p.1 (afterReset p.1 p.2)) s

/-! ## The compute reset -/

/-- The requests of every serving job have ended with their records (R546); none while one of them waits. -/
def State.endAllLost (s : State) : State := jobList.foldl (fun s j => s.endLost j) s

/-- Steps 3 to 6 of R603: issue stops, requests end LOST, Cloudbank and the merge buffers are written back, job state is
zeroed and halt latches are cleared. A load in progress is refused with reason RESET (R629). COUNT crossings
that carry job state drop what is pending (R695). Frames in flight keep their delivery and lose their FOPs (R676). -/
def State.stopCompute (s : State) : State :=
  let s := s.endAllLost
  let s := (s.clbReset).mergeReset
  let s := s.clearHaltLatches
  { s with tiles := [], saved := [], slots := [], parked := [], demT := [], demV := [], chosen := [], endAsked := [],
           loading := s.loading.map (fun x => { x with job := none, result := 2, reason := 12, detail := 0#64, feat := 0#64 }),
           cross := s.cross.filterMap (fun p =>
             let c := if p.1 % 2 = 1 then { p.2 with applied := p.2.produced } else p.2
             if c = Cross.zero then none else some (p.1, c)),
           txWait := [], txSent := s.txSent.map (fun x => { x with dead := true }), lateWait := [], lateHeld := [] }

/-- A compute reset begins because of record r, which has been written with number seq: EQX_FAULT is latched, the
JOB_FAULT record names the record, and the reset's first steps are done (R603). -/
def State.beginReset (s : State) (cause : Option Nat) (r : ErqRec) (seq : W32) : State :=
    let s := match cause with
      | some c =>
        if s.flag EQX_FAULT.VALID then s
        else
          let w := setFld (setFld (setFld 0#64 63 63 1) 55 48 c) 47 43 r.block
          let w := setFld (setFld w 42 35 r.inst) 31 0 seq.toNat
          s.setReg EQX_FAULT.at (match r.job with
            | some j => setFld (setFld w 62 57 j) 56 56 1
            | none => w)
      | none => s
    let jf := s.erqSeq
    let s := s.erq ⟨0x30, 3, bEQX, 0, r.job, 0, BitVec.ofNat 64 seq.toNat⟩
    { s with resetSeq := some jf }.stopCompute

/-- A fatal fault or a thermal trip starts a compute reset with its record. While one is in progress the record joins it
(R422). -/
def State.startReset (s : State) (cause : Option Nat) (r : ErqRec) : State :=
  match s.resetSeq with
  | some _ => s.erq { r with sev := 3 } true
  | none =>
    let seq := s.erqSeq
    (s.erq { r with sev := 3 }).beginReset cause r seq

/-- A fatal fault of a CAUSE of R602 (DEDUCED, log entry 72). -/
def State.fatalFault (s : State) (cause : Nat) (r : ErqRec) : State := s.startReset (some cause) r

/-- ZEN asks the companion to repair each page whose poison ended jobs, unless it is of class A (step 4 of R412). -/
def State.askRepair (s : State) : State :=
  s.repairDue.foldl (fun s r =>
    if r.2.2.2 = 2 then s
    else
      let d : W64 := BitVec.ofNat 64 r.2.2.1
      (s.erq ⟨0x84, 2, bDYL, 0, some r.2.1, r.1, d⟩).post 6 (some r.2.1) d r.1) { s with repairDue := [] }

/-- ZEN loads the VPC firmware into each engine that is not plain or retired (step 10 of R725, step 7 of R603). -/
def State.loadVpcs (s : State) : State :=
  (List.range 16).foldl (fun s n =>
    if s.plain n then s
    else s.setTile (200 + n) { TileState.zero with imem := Bytes.wrList [] 0 ((Config.vpcImem s.vpcFw).take 0x10000),
                                                   dmem := Bytes.wrList [] 0 ((Config.vpcDmem s.vpcFw).take 0x10000) }) s

/-- The compute reset is over: every job's STATE is NONE, registers return to their reset values, the RESET_DONE record
is written and RESETS counts (steps 7 to 9 of R603). Result records that had to wait come first (R546). XWF groups are zeroed with the jobs (R677). -/
def State.finishReset (s : State) : State :=
  match s.resetSeq with
  | none => s
  | some jf =>
    let s := s.endAllLost
    if jobList.any s.serving then s else
    let s := s.resetRegisters
    let s := (s.resetRegs (jobList.map XWF_JOB_GROUP.at)).loadVpcs
    let s := (s.erq ⟨0x31, 0, bEQX, 0, none, 0, BitVec.ofNat 64 jf.toNat⟩).bump EQX_RESETS.COUNT 1
    { s with resetSeq := none }.askRepair

/-! ## Running work that may stop -/

/-- What work of a unit that cannot halt leaves: a fatal fault that stops it starts a compute reset; a wait undoes it. -/
def State.runs (s : State) (x : EM Unit) : State :=
  match x.go s with
  | (.ok _, s') => s'
  | (.error (.fatal c r), s') => s'.fatalFault c r
  | (.error .wait, _) => s
  | (.error (.bus _), s') => s'
  | (.error (.poison _), s') => s'
  | (.error (.seg _), s') => s'
  | (.error (.halt _), s') => s'

/-- Outcome of a row that runs such work. -/
def rowOf (x : EM Unit) (s : State) : Out := .next (s.runs x)

/-- No compute reset is in progress: issue and starts are allowed (step 3 of R603). -/
def State.up (s : State) : Bool := s.resetSeq.isNone

end Sys2Proof.Machine
end

