-- ==== Sys2Proof/Machine/Eqx.lean ====
section
/-! DEFINITION. The scheduler's balances, demand and rounds (R583 - R586). -/
namespace Sys2Proof.Machine

/-- Balance of a job in the tile pool and in a stack pool. -/
def State.balT (s : State) (j : Nat) : Int := s.signed (EQX_JOB_BAL_T.BAL j)
def State.balV (s : State) (n j : Nat) : Int := s.signed (EQX_JOB_BAL_V.BAL j n)

/-- A balance set with its arrears indication (R586). -/
def State.setBalT (s : State) (j : Nat) (b : Int) : State :=
  (s.setSigned (EQX_JOB_BAL_T.BAL j) b).setFlag (EQX_JOB_STATUS.T_ARREARS j) (decide (b < 0))

def State.setBalV (s : State) (n j : Nat) (b : Int) : State :=
  let s := s.setSigned (EQX_JOB_BAL_V.BAL j n) b
  let m := s.f (EQX_JOB_STATUS.V_ARREARS j)
  s.setF (EQX_JOB_STATUS.V_ARREARS j) (if b < 0 then m ||| 2 ^ n else if m.testBit n then m - 2 ^ n else m)

/-- Work debited as it is done (R584, R607). -/
def State.debitT (s : State) (j beats : Nat) : State :=
  (s.setBalT j (s.balT j - beats)).bump (EQX_JOB_WORK_T.WORK j) beats

def State.debitV (s : State) (n j beats : Nat) : State :=
  (s.setBalV n j (s.balV n j - beats)).bump (EQX_JOB_WORK_V.WORK j) beats

/-- Round lengths (R583). -/
def State.roundT (s : State) : Nat := 2 ^ s.f EQX_CTL.ROUND_T_LOG2
def State.roundV (s : State) : Nat := 2 ^ s.f EQX_CTL.ROUND_V_LOG2

def State.share (s : State) (j : Nat) : Nat := s.f (EQX_JOB_CFG.SHARE j)

/-- Two resident jobs conflict (R579). -/
def State.conflict (s : State) (j k : Nat) : Bool :=
  j != k && (List.range 3).any (fun m => (s.reg (EQX_JOB_TILES.at j m) &&& s.reg (EQX_JOB_TILES.at k m)) != 0#64)

/-- Demand in the tile pool (R583). -/
def State.demandT (s : State) (j : Nat) : Bool :=
  s.jobState j != jNONE && s.jobState j != jENDING && !s.flag (EQX_JOB_CTL.HOLD j) && !s.parked.contains j

/-- Logical tiles of job j with a command held at stack n and not started. -/
def State.heldAt (s : State) (n j : Nat) : List Nat :=
  (s.tileSet j).filter (fun l => !(s.queue j l (10 + n)).held.isEmpty)

/-- Demand in the pool of stack n (R583). -/
def State.demandV (s : State) (n j : Nat) : Bool := s.jobState j == jRUNNING && !(s.heldAt n j).isEmpty

/-- Notes the jobs that have demand now, for the round in progress (R584). -/
def State.noteDemandT (s : State) : State :=
  { s with demT := (jobList.filter s.demandT).foldl addNum s.demT }

def State.noteDemandV (s : State) (n j : Nat) : State :=
  if s.demandV n j then { s with demV := addNum s.demV (64 * n + j) } else s

/-- SHARE in force in the current round (R585). -/
def State.shareInT (s : State) (j : Nat) : Nat := SMap.get 0 s.shareT j
def State.shareInV (s : State) (n j : Nat) : Nat := SMap.get 0 s.shareV (64 * n + j)

/-- Credit of a job (R584): sum 0 gives no credit. -/
def creditOf (len share sum : Nat) : Nat := if sum = 0 then 0 else len * share / sum

/-- End of a round of the tile pool: every job that had demand is credited, and the SHARE values now written come into
force (R584, R585). -/
def State.endRoundT (s : State) : State :=
  let len := s.roundT
  let js := s.demT
  let cr := js.map (fun j =>
    (j, creditOf len (s.shareInT j) (((js.filter (fun k => k == j || s.conflict j k)).map s.shareInT).sum)))
  let s := cr.foldl (fun s p => s.setBalT p.1 (min (s.balT p.1 + p.2) (4 * len))) s
  let sh := jobList.foldl (fun m j => SMap.put 0 m j (s.share j)) []
  { s with shareT := sh, demT := jobList.filter s.demandT }

/-- End of a round of stack n's pool. -/
def State.endRoundV (s : State) (n : Nat) : State :=
  let len := s.roundV
  let js := (s.demV.filter (fun k => k / 64 == n)).map (fun k => k % 64)
  let sum := (js.map (s.shareInV n)).sum
  let cr := js.map (fun j => (j, creditOf len (s.shareInV n j) sum))
  let s := cr.foldl (fun s p => s.setBalV n p.1 (min (s.balV n p.1 + p.2) (4 * len))) s
  let sh := jobList.foldl (fun m j => SMap.put 0 m (64 * n + j) (s.share j)) s.shareV
  let dem := s.demV.filter (fun k => k / 64 != n)
  { s with shareV := sh, demV := ((jobList.filter (s.demandV n)).map (fun j => 64 * n + j)).foldl addNum dem }

/-- The job of a list with the highest balance, and the lowest number on a tie; the list rises (DEDUCED, log entry 29).
-/
def bestJob (bal : Nat → Int) : List Nat → Option Nat
  | [] => none
  | j :: t =>
    match bestJob bal t with
    | none => some j
    | some k => if bal k > bal j then some k else some j

end Sys2Proof.Machine
end

