-- ==== Sys2Proof/Machine/Queues.lean ====
section
/-! DEFINITION. The queues of a tile (chapter 6): waits (R242), start (R245 - R247), view registers (R253, R254),
completion and signals (R243, R244), configuration commands (R272 - R274). -/
namespace Sys2Proof.Machine

/-! ## Waits and signals -/

/-- Wait i of a command holds for the tokens of its tile (R242). -/
def waitHolds (x : TileState) (c : List W64) (i : Nat) : Bool :=
  if (cf c 0 57 54).testBit i then
    let tok := cf c 1 (39 + 8 * i) (32 + 8 * i)
    let v := match i with
      | 0 => cf c 1 15 0
      | 1 => cf c 1 31 16
      | 2 => cf c 2 47 32
      | _ => cf c 2 63 48
    ((SMap.get 0#16 x.tok tok).toNat + 2 ^ 16 - v) % 2 ^ 16 < 2 ^ 15
  else true

/-- The wait condition of a command (R242); a VIEW has none (R254). -/
def waitsHold (x : TileState) (c : List W64) : Bool :=
  cKind c == kVIEW || (List.range 4).all (waitHolds x c)

/-- The active signals of a completed command added to the tile's tokens (R243). -/
def State.signalAll (s : State) (j l : Nat) (c : List W64) : State :=
  let s := if cf c 0 52 52 = 1 then s.signal j l (cf c 0 31 24) (cf c 0 23 16) else s
  if cf c 0 53 53 = 1 then s.signal j l (cf c 0 47 40) (cf c 0 39 32) else s

/-! ## Engines -/

/-- Unit, block and instance of the engine that serves queue q of physical tile t (R277, R420). -/
def engUnit (q : Nat) : Nat := if q = 0 then 0 else if q = 1 then 1 else if isDq q then 2 else if isVq q then 3 else 4
def engBlock (q : Nat) : Nat := if q < 10 then bANV else if isVq q then bVRG else bXWF
def engInst (t q : Nat) : Nat := if isVq q then q - 10 else t

/-- Requester that accesses memory for queue q. -/
def engReq (q : Nat) : Requester := if isVq q then .virga else if q = 26 then .fabric else .tdma

/-- REQ of R179 for queue q's engine; MMUL and ATT name the port of each read. -/
def engPort (q : Nat) : Option Nat := if q = 0 then none else if q = 1 then some 3 else if isDq q then some 5 else some 6

/-- The engine of queue q running command c for logical tile l of job j, in physical tile t. -/
def engOf (j l t q : Nat) (c : List W64) : Eng :=
  ⟨⟨engReq q, some j, if isVq q then 246 + q else l, engPort q⟩, engUnit q, engBlock q, engInst t q, q, cKind c, cTag c⟩

/-- Physical tile of logical tile l, 0 where there is none. -/
def State.phys (s : State) (l : Nat) : Nat := (s.physOf l).getD 0

/-- Configuration register of queue q (R272). -/
def State.cfgOff (s : State) (j l q : Nat) : Nat :=
  if q = 0 then ANV_MXE_CFG.at (s.phys l) else if q = 1 then ANV_VXE_CFG.at (s.phys l) else VRG_JOB_CFG.at (q - 10) j

/-- The queue has a configuration register. -/
def hasCfg (q : Nat) : Bool := q == 0 || q == 1 || isVq q

/-- The command is held under BRK_EN (R273). -/
def State.brkHeld (s : State) (j l q : Nat) (c : List W64) : Bool :=
  hasCfg q && (let w := s.reg (s.cfgOff j l q)
    bitAt w 23 && fld w 31 24 == cTag c % 256 && cKind c != kVIEW)

/-- A started command still runs. -/
def Flight.live (f : Flight) : Bool := f.st == .running

/-- A started command that has neither completed nor halted: its engine holds it. -/
def Flight.held (f : Flight) : Bool := f.st == .running || f.st == .done

/-- Started commands that a queue's engine holds. -/
def Queue.inEngine (q : Queue) : List Flight := q.flight.filter Flight.held

/-- A NOP or CFG takes no place in an engine (R245): the one completes when it starts, the other writes registers. -/
def takesPlace (c : List W64) : Bool := cKind c != kNOP && cKind c != kCFG

/-- Started commands that occupy the engine of a queue (R191, R245, R459). -/
def Queue.busy (q : Queue) : Nat := (q.inEngine.filter (fun f => takesPlace f.cmd)).length

/-- The same for a DMA channel: a command behind a halted one is back in its unstarted state (R451). -/
def Queue.channelBusy (q : Queue) : Nat := if q.halted then 0 else q.busy

/-- Every tile context of a resident job: loaded ones and saved ones. -/
def State.contexts (s : State) : List TileState := s.tiles.map (·.2) ++ s.saved.map (·.2)

/-- Started commands that the Virga engine of stack n holds (R191). -/
def State.virgaBusy (s : State) (n : Nat) : Nat := (s.contexts.map (fun x => (x.queue (10 + n)).busy)).sum

/-- Started commands of job j at stack n (R274). -/
def State.virgaBusyOf (s : State) (n j : Nat) : Nat :=
  ((s.tileSet j).map (fun l => (s.queue j l (10 + n)).busy)).sum

/-- Started FOPs in all, and of job j (R671). -/
def State.fopBusy (s : State) : Nat := (s.contexts.map (fun x => (x.queue 26).busy)).sum
def State.fopBusyOf (s : State) (j : Nat) : Nat := ((s.tileSet j).map (fun l => (s.queue j l 26).busy)).sum

/-- A started DCOPY has issued its last read: here, its work is done (R428). -/
def Queue.readsDone (q : Queue) : Bool := q.flight.all (fun f => !f.live || !takesPlace f.cmd)

/-- The channel of a DMA queue is enabled, without which none of its commands starts (R453). -/
def State.channelOn (s : State) (l q : Nat) : Bool := !isDq q || s.flag (ANV_DMA_CTL.EN (s.phys l) (q - 2))

/-- The queue's engine has room for the command (R245, R428, R671). A kind that the queue does not take is only judged
by R278. -/
def State.room (s : State) (j l q : Nat) (c : List W64) : Bool :=
  let x := s.ctx j l
  let k := cKind c
  let attRuns := (x.queue 0).flight.any (fun f => f.held && cKind f.cmd == kATT)
  if k = kNOP ∨ k = kCFG ∨ k = kVIEW then s.channelOn l q
  else if q = 0 then
    if k = kMMUL then decide ((x.queue 0).busy ≤ 1)
    else k != kATT || ((x.queue 0).busy == 0 && (x.queue 1).busy == 0)
  else if q = 1 then k != kVOP || ((x.queue 1).busy == 0 && !attRuns)
  else if isDq q then
    decide ((x.queue q).busy < 2) && (x.queue q).readsDone && s.channelOn l q
  else if isVq q then decide (s.virgaBusy (q - 10) < 8)
  else
    s.domRuns dXWE && decide (s.fopBusyOf j < 32) && decide (s.fopBusy < 512) &&
      (k != kFOP || cf c 3 63 61 != 0 || decide (s.f (EQX_JOB_STATUS.OUT_READS j) < 4096))

/-! ## Start -/

/-- The oldest command of a queue that has not started and can be judged for its start (R245, R246). -/
def Queue.next (q : Nat) (x : Queue) : Option (List W64) := if isRemoteQ q then x.held.head? else x.entries.head?

/-- Conditions of R245 and R250 that concern the queue itself. -/
def State.mayStart (s : State) (j l q : Nat) (c : List W64) : Bool :=
  let x := s.queue j l q
  s.jobState j == jRUNNING && s.up && !x.halted &&
  (isRemoteQ q || waitsHold (s.ctx j l) c) &&
  (cf c 2 31 31 == 0 || x.flight.isEmpty) &&
  !s.brkHeld j l q c && s.room j l q c && !(q == 1 && (s.queue j l 0).flight.any (fun f => f.held && cKind f.cmd == kATT))

/-- Logical tiles of job j whose next command at stack n can start. -/
def State.readyAt (s : State) (n j : Nat) : List Nat :=
  if s.jobState j = jRUNNING then
    (s.tileSet j).filter (fun l =>
      match (s.queue j l (10 + n)).next (10 + n) with
      | some c => cKind c != kVIEW && s.mayStart j l (10 + n) c
      | none => false)
  else []

/-- Round-robin choice within a job: the first ready logical tile after the one served last (R590). -/
def State.rrPick (s : State) (n j : Nat) : Option Nat :=
  let ls := s.readyAt n j
  let last := SMap.get 256 s.rrLast (64 * n + j)
  if last = 256 then ls.head? else ((ls.find? (fun l => decide (last < l))).or ls.head?)

/-- The job that stack n's engine serves next among those ready, where no job with a negative balance passes one with a
non-negative balance that has demand (R586, R590); none while only the latter's commands cannot start. -/
def State.virgaPick (s : State) (n : Nat) : Option Nat :=
  let ready := jobList.filter (fun j => !s.flag (EQX_JOB_CTL.HOLD j) && !(s.readyAt n j).isEmpty)
  match bestJob (s.balV n) ready with
  | none => none
  | some j =>
    if s.balV n j ≥ 0 then some j
    else if jobList.any (fun k => s.demandV n k && decide (s.balV n k ≥ 0)) then none
    else some j

/-- Only jobs with a negative balance want the engine: the round ends at once (R586). -/
def State.virgaRound (s : State) (n : Nat) : State :=
  let want := jobList.filter (s.demandV n)
  if !want.isEmpty ∧ want.all (fun j => decide (s.balV n j < 0)) then s.endRoundV n else s

/-- EQX grants the engine of queue q to the command: the tile engines belong to the running job, a Virga engine goes to
the job and tile that R590 chooses. -/
def State.granted (s : State) (j l q : Nat) : Bool :=
  if isVq q then
    s.virgaPick (q - 10) == some j && s.rrPick (q - 10) j == some l
  else true

/-- A command moved from its queue to the started ones, with the view registers as they stand (R251, R254). -/
def Queue.start (q : Nat) (x : Queue) (c : List W64) : Queue :=
  let f : Flight := ⟨c, x.views, .running, 0, none, 0⟩
  let x := { x with flight := x.flight ++ [f],
                    chain := if cKind c = kMMUL then cf c 4 6 6 == 1
                      else if cKind c = kATT ∨ cKind c = kVOP then false else x.chain }
  if isRemoteQ q then { x with held := x.held.drop 1 }
  else { x with entries := x.entries.drop 1, started := x.started + 1#16 }

/-- DET in force for job j (R630). -/
def State.det (s : State) (j : Nat) : Bool := s.flag (LDR_JOB_ATTR.DET j)

/-- Record of a command that breaks R278 (R420). -/
def State.illegalRec (s : State) (j l q : Nat) (c : List W64) : ErqRec := (engOf j l (s.phys l) q c).faultRec 3 0

/-- A fatal fault found at physical tile t's engines stops that tile (R176). -/
def State.tileFault (s : State) (t q : Nat) : State :=
  if q < 10 then s.setFlag (ANV_STATUS.HALTED t) true else s

/-- An error of stack n's engine in bit b of VRG_ERR (R232), with the bit set. -/
def State.vrgBit (s : State) (n b : Nat) : State :=
  let s := if fld (s.reg (VRG_ERR.at n)) 7 2 = 0 then s else s.setFlag (VRG_ERR.MULTI n) true
  s.setFlag ⟨VRG_ERR.at n, b, b⟩ true

/-- The VRG_ERR record (R420). -/
def State.vrgErrRec (s : State) (n sev : Nat) : ErqRec := ⟨0x19, sev, bVRG, n, none, 0, s.reg (VRG_ERR.at n)⟩

/-- Milliseconds of 24 hours. -/
def dayMs : Nat := 86400000

/-- A Virga engine fault (R227); the second one of an engine within 24 hours makes its retirement due (R751). -/
def State.vrgFault (s : State) (n : Nat) : State :=
  let last := SMap.get 0 s.vrgFaultAt n
  let s := if last ≠ 0 ∧ (s.ms.toNat + 2 ^ 32 - (last - 1)) % 2 ^ 32 < dayMs then s.due 4 n else s
  let s := { s with vrgFaultAt := SMap.put 0 s.vrgFaultAt n (s.ms.toNat + 1) }
  s.fatalFault 6 (s.vrgErrRec n 3)

/-- What an error found in stack n's engine does: bit 1 is a corrected error, bits 7 to 2 are faults (R227, R232). -/
def State.vrgUe (s : State) (n b : Nat) : State :=
  let s := s.vrgBit n b
  if b = 1 then s.erq (s.vrgErrRec n 1) else s.vrgFault n

/-- COMMAND_START (R245, R278). -/
def State.startCommand (s : State) (j l q : Nat) : State :=
  let s := if isVq q then s.virgaRound (q - 10) else s
  let x := s.queue j l q
  match x.next q with
  | none => s
  | some c =>
    if cKind c ≠ kVIEW ∧ s.mayStart j l q c ∧ s.granted j l q then
      if commandOk c q l x.views x.chain (s.det j) then
        let s := (s.setQueue j l q (x.start q c)).anvEvent (s.phys l) 7 1
        let s := if isVq q then s.vrgEvent (q - 10) 6 1 else s
        if isVq q then { s with rrLast := SMap.put 256 s.rrLast (64 * (q - 10) + j) l }
        else if cKind c = kFOP ∧ cf c 3 63 61 = 0 then s.bump (EQX_JOB_STATUS.OUT_READS j) 1
        else s
      else (s.tileFault (s.phys l) q).fatalFault 5 (s.illegalRec j l q c)
    else s

def execCommandStart (j l q : Nat) (s : State) : Out := .next (s.startCommand j l q)

/-- QUEUE_SEND (R246): VQn or FQ sends its oldest command once its wait condition holds. -/
def execQueueSend (j l q : Nat) (s : State) : Out :=
  let x := s.queue j l q
  match x.entries.head? with
  | some c =>
    if isRemoteQ q ∧ s.jobState j = jRUNNING ∧ s.up ∧ !x.sent ∧ (decide (0 < x.waived) || waitsHold (s.ctx j l) c) then
      .next (s.setQueue j l q { x with sent := true })
    else .next s
  | none => .next s

/-- Domains that a command to queue q's destination crosses into (R679, R687). -/
def destDoms (q : Nat) : List Nat := if isVq q then [dMSC (q - 10), dSIF (q - 10)] else [dXWE]

/-- A command sent to a stack whose interface does not run: it halts with BUS (R246, R686, R692; DEDUCED, log entry 54). -/
def Queue.failSent (x : Queue) : Queue :=
  match x.entries with
  | c :: t => { x with entries := t, sent := false, started := x.started + 1#16, waived := x.waived - 1,
                       flight := x.flight ++ [⟨c, x.views, .running, 0, some ⟨3, 0, 0, 0, 255⟩, 0⟩] }
  | [] => x

/-- DEST_ACCEPT (R246, R247): the destination takes the command sent, or refuses it while it holds two. -/
def execDestAccept (j l q : Nat) (s : State) : Out :=
  let x := s.queue j l q
  match x.entries with
  | c :: t =>
    if isVq q ∧ s.jobState j = jRUNNING ∧ s.up ∧ x.sent ∧ (destDoms q).any s.domRefuses then
      .next (s.setQueue j l q x.failSent)
    else if (destDoms q).any (fun d => !s.domRuns d) then .next s
    else if isRemoteQ q ∧ s.jobState j = jRUNNING ∧ s.up ∧ x.sent ∧ x.held.length < 2 then
      let s := s.setQueue j l q { x with entries := t, sent := false, held := x.held ++ [c], started := x.started + 1#16, waived := x.waived - 1 }
      .next (if isVq q then s.noteDemandV (q - 10) j else s)
    else .next s
  | [] => .next s

/-- LAST_CODE set and CMD_SEQ raised where the queue reports (R277) (DEDUCED, log entry 20). -/
def State.reportCode (s : State) (j l q code : Nat) : State :=
  let t := s.phys l
  let upd := fun (s : State) (seq last : FRef) => (s.bump seq 1).setF last code
  let loaded := decide (s.jobState j = jRUNNING)
  if q = 0 then if loaded then upd s (ANV_MXE_STATUS.CMD_SEQ t) (ANV_MXE_STATUS.LAST_CODE t) else s
  else if q = 1 then if loaded then upd s (ANV_VXE_STATUS.CMD_SEQ t) (ANV_VXE_STATUS.LAST_CODE t) else s
  else if isDq q then
    if loaded then upd s (ANV_DMA_STATUS.CMD_SEQ t (q - 2)) (ANV_DMA_STATUS.LAST_CODE t (q - 2)) else s
  else if isVq q then upd s (VRG_STATUS.CMD_SEQ (q - 10)) (VRG_STATUS.LAST_CODE (q - 10))
  else upd s (XWF_FQSTAT.CMD_SEQ t) (XWF_FQSTAT.LAST_CODE t)

/-- VIEW (R253, R254): the view register loaded when the command reaches the head, which starts and completes it with DONE
(R239, R276), or a fatal fault (R278). -/
def execView (j l q : Nat) (s : State) : Out :=
  let x := s.queue j l q
  match x.next q with
  | none => .next s
  | some c =>
    if cKind c = kVIEW ∧ s.jobState j = jRUNNING ∧ s.up ∧ !x.halted ∧ s.channelOn l q then
      if commandOk c q l x.views x.chain (s.det j) then
        let v := cf c 0 51 48
        let views := (List.range 8).foldl (fun m i => SMap.put 0#64 m (8 * v + i) (cw c i)) x.views
        let x := { x with views := views }
        let s := (s.setQueue j l q
          (if isRemoteQ q then { x with held := x.held.drop 1 }
           else { x with entries := x.entries.drop 1, started := x.started + 1#16 })).anvEvent (s.phys l) 7 1
        let s := if isVq q then s.vrgEvent (q - 10) 6 1 else s
        .next (s.reportCode j l q 0)
      else .next ((s.tileFault (s.phys l) q).fatalFault 5 (s.illegalRec j l q c))
    else .next s

/-! ## Running commands -/

/-- The first started command of a queue that still runs, with its position, where it has met no fault and satisfies p:
an engine takes a queue's commands in order of start (R137, R191). -/
def Queue.running (x : Queue) (p : List W64 → Bool) : Option (Nat × Flight) :=
  match x.flight.zipIdx.find? (fun f => f.1.live) with
  | some f => if f.1.fault.isNone && p f.1.cmd then some (f.2, f.1) else none
  | none => none

def Queue.setFlight (x : Queue) (i : Nat) (f : Flight) : Queue := { x with flight := listSet x.flight i f }

/-- The queue's flight i set. -/
def State.setFlight (s : State) (j l q i : Nat) (f : Flight) : State :=
  s.setQueue j l q ((s.queue j l q).setFlight i f)

/-- Its work is done with a completion code. -/
def Flight.finish (f : Flight) (code : Nat) : Flight := { f with st := .done, code := code }

/-- One engine may act for the job now: tile engines only while it runs, Virga engines and the endpoint also while its
tiles are saved (R591). -/
def State.mayAct (s : State) (j q : Nat) : Bool :=
  s.up && (if isRemoteQ q then s.jobState j != jNONE else s.jobState j == jRUNNING)

/-- Runs the work of the first started command of queue q if it satisfies p; a DMA channel's second command performs no
write until the first has completed (R428). What it writes before a halt stays; a halt
is latched by the queue's halt row (a plain stack halts every command, R222); a fatal fault starts a compute reset; a wait undoes the row (R218, R450). -/
def runCommand (j l q : Nat) (p : List W64 → Bool) (work : Eng → Flight → EM Nat) (s : State) : Out :=
  if s.mayAct j q then
    match ((s.queue j l q).running p).filter (fun r => !isDq q || r.1 == 0) with
    | none => .next s
    | some (i, f) =>
      let e := engOf j l (s.phys l) q f.cmd
      let x := if isVq q && s.plain (q - 10) then throw (.halt ⟨5, 0, 0, 0, 255⟩) else work e f
      match x.go s with
      | (.ok code, s') => .next (s'.setFlight j l q i (f.finish code))
      | (.error (.halt h), s') => .next (s'.setFlight j l q i { f with fault := some h })
      | (.error (.fatal c r), s') => .next ((s'.tileFault (s'.phys l) q).fatalFault c r)
      | (.error (.bus a), s') => .next (s'.setFlight j l q i { f with fault := some ⟨3, 0, 0, a, 255⟩ })
      | (.error (.poison a), s') => .next (s'.setFlight j l q i { f with fault := some ⟨1, 0, 0, a, 255⟩ })
      | (.error (.seg a), s') => .next ((s'.tileFault (s'.phys l) q).fatalFault 2
          ((engOf j l (s'.phys l) q f.cmd).faultRec 1 (a % 2 ^ 48)))
      | (.error .wait, _) => .next s
  else .next s

/-- Runs work on stack n's engine; ue is the bit of VRG_ERR of an error that its lanes, buffers, slots or VPC meet at the
time, none for none. A correction is one of the operand buffer, which event 14 counts; an error needs no command of the
engine (R227, R232, R237). A plain or retired engine is switched off and meets none (R221, R223). -/
def runVirga (j l n : Nat) (p : List W64 → Bool) (ue : Option Nat) (work : Eng → Flight → EM Nat) (s : State) : Out :=
  match ue with
  | none => runCommand j l (10 + n) p work s
  | some b =>
    if s.plain n ∨ b = 0 ∨ 7 < b then runCommand j l (10 + n) p work s
    else if b = 1 then runCommand j l (10 + n) p work ((s.vrgUe n 1).vrgEvent n 14 1)
    else .next (s.vrgUe n b)

/-- NOP (R239): it completes when it starts. -/
def execNop (j l q : Nat) (s : State) : Out := runCommand j l q (fun c => cKind c == kNOP) (fun _ _ => pure 0) s

/-- Bits of a configuration register applied under a mask. -/
def maskBits (old v m : W64) : W64 := (old &&& ~~~m) ||| (v &&& m)

/-- READ_AHEAD clamped to its range (R273). -/
def clampAhead (q : Nat) (w : W64) : W64 :=
  let (lo, hi) := if q = 0 then (8, 32) else if q = 1 then (4, 16) else (2, 16)
  setFld w 15 8 (max lo (min hi (fld w 15 8)))

/-- RWL fields BRK_TAG and BRK_EN, and the RWB field READ_AHEAD (R273). -/
def cfgRwl : W64 := setFld 0#64 31 23 (2 ^ 9 - 1)
def cfgRwb : W64 := setFld 0#64 15 8 255

/-- A write to a configuration register under R274: the new value, and whether RWB fields were discarded. -/
def cfgWrite (q : Nat) (busy : Bool) (old v m : W64) : W64 × Bool :=
  let rejected := busy && (m &&& cfgRwb) != 0#64
  let m := (m &&& cfgRwl) ||| (if busy then 0#64 else m &&& cfgRwb)
  (clampAhead q (maskBits old v m), rejected)

/-- CFG_REJECT of a queue's engine (R177, R231). -/
def State.setReject (s : State) (t q : Nat) : State :=
  if q = 0 then s.setFlag (ANV_MXE_STATUS.CFG_REJECT t) true
  else if q = 1 then s.setFlag (ANV_VXE_STATUS.CFG_REJECT t) true
  else s.setFlag (VRG_STATUS.CFG_REJECT (q - 10)) true

/-- The engine of queue q holds another started command beside a CFG that runs: of job j, for a Virga engine (R274). -/
def State.cfgBusy (s : State) (j l q : Nat) : Bool :=
  let n := fun (k : Nat) => (s.queue j k q).inEngine.length
  if isVq q then decide (((s.tileSet j).map n).sum > 1)
  else
    decide (n l > 1) || (q == 1 && (s.queue j l 0).flight.any (fun f => f.held && cKind f.cmd == kATT))

/-- CFG (R272 - R274). -/
def execCfg (j l q : Nat) (s : State) : Out :=
  runCommand j l q (fun c => cKind c == kCFG) (fun _ f => do
    let s ← get
    let off := s.cfgOff j l q
    let (w, rej) := cfgWrite q (s.cfgBusy j l q) (s.reg off) (cw f.cmd 3) (cw f.cmd 4)
    let s := s.setReg off w
    set (if rej then s.setReject (s.phys l) q else s)
    pure (if rej then 3 else 0)) s

/-! ## Completion -/

/-- Halted commands given up at the front of a queue leave it, with their signals where RESUME asked for them (R220,
R244); fuel is the number of started commands. -/
def State.popReleased (j l q : Nat) : Nat → State → State
  | 0, s => s
  | n + 1, s =>
    let x := s.queue j l q
    match x.flight with
    | f :: t =>
      match f.st with
      | .released sig =>
        let s := s.setQueue j l q { x with flight := t }
        State.popReleased j l q n (if sig then s.signalAll j l f.cmd else s)
      | _ => s
    | [] => s

/-- COMMAND_COMPLETION (R243, R244, R276): the oldest started command of the queue, once its work is done, reports its
code and signals its tokens; the beats its lanes worked are debited to its job (R590). -/
def execCommandCompletion (j l q beats : Nat) (s : State) : Out :=
  let x := s.queue j l q
  match x.flight with
  | f :: t =>
    if f.st = .done ∧ s.mayAct j q then
      let s := s.setQueue j l q { x with flight := t }
      let s := s.reportCode j l q f.code
      let s := if isVq q then s.debitV (q - 10) j beats else s
      .next ((s.signalAll j l f.cmd).popReleased j l q t.length)
    else .next s
  | [] => .next s

end Sys2Proof.Machine
end

