-- ==== Sys2Proof/Machine/Mxe.lean ====
section
/-! DEFINITION. Matrix and vector engine commands of a tile: MMUL (R142 - R147, R258) and VOP (R262 - R264). -/
namespace Sys2Proof.Machine

/-! ## Views of panels -/

/-- A panel in the scratchpad of logical tile l at an offset in units of 256 bytes. -/
def panelView (l layout fmtc off k : Nat) : View :=
  ⟨layout, fmtc, spmBase + l * spmWin + off * 256, k - 1, 0, 0, 0, 0, 0, 0, 0⟩

/-- Elements of a view at a list of indices. -/
def readAll (w : Who) (v : View) (np : Nat) (rc : Recon) : List (List Nat) → EM (List FVal)
  | [] => pure []
  | ix :: t => do
    let x ← readElem w v np rc ix
    let r ← readAll w v np rc t
    pure (x :: r)

/-- Every element of a view in iteration order. -/
def readView (w : Who) (v : View) : EM (List FVal) :=
  readAll w v v.fmt.bits .trunc ((List.range v.count).map v.unravel)

/-- Elements given to positions of a view in iteration order. -/
def viewElems (v : View) (xs : List FVal) : List WElem := xs.zipIdx.map (fun p => ⟨v.unravel p.2, p.1⟩)

/-! ## MMUL -/

/-- Integer value of a finite value. -/
def FVal.toInt (x : FVal) : Int := (x.asInt?).getD 0

/-- Sum of the products of one group, exact (R67, R68, R70). -/
def groupSum (as bs : List FVal) : FVal := exactSum ((as.zip bs).map (fun p => p.1.mul p.2))

/-- FP32 accumulation of an output over groups of g positions (R68). -/
def accumulate (g : Nat) : Nat → FVal → List FVal → List FVal → FVal
  | 0, acc, _, _ => acc
  | f + 1, acc, as, bs =>
    match as with
    | [] => acc
    | _ => accumulate g f ((acc.add (groupSum (as.take g) (bs.take g))).r32) (as.drop g) (bs.drop g)

/-- Group size of an operand pair (R66, R195). -/
def groupSize (b a : Fmt) : Nat :=
  match b, a with
  | .bf16, _ => 1
  | .fp16, _ => 1
  | _, .bf16 => 1
  | _, _ => 32

/-- One output element: its FP32 or INT32 accumulator code, and whether an INT32 sum wrapped (R68, R71). -/
def outputElem (b a : Fmt) (init : W32) (as bs : List FVal) : W32 × Bool :=
  if b.isInt then
    let sum : Int := sext 32 init.toNat + ((as.zip bs).map (fun p => p.1.toInt * p.2.toInt)).sum
    (BitVec.ofNat 32 (twos 32 sum), decide (sum < -(2 ^ 31 : Int)) || decide (sum > 2 ^ 31 - 1))
  else (toBits32 (accumulate (groupSize b a) as.length (ofBits32 init) as bs), false)

/-- Value of an accumulator code. -/
def accValue (b : Fmt) (w : W32) : FVal := if b.isInt then FVal.ofInt (sext 32 w.toNat) else ofBits32 w

/-- Index of an accumulator. -/
def accKey (set row col : Nat) : Nat := set * 32768 + row * 256 + col

/-- A parity error of the tile's accumulators becomes a fatal fault; its OFFSET is 0 (R158, R178, R179). -/
def accUe (l : Nat) : EM Unit := do
  let s ← get
  let t := s.phys l
  let (req, s) := s.reqOf none
  let s := s.anvUe t .acc req 0
  set s
  throw (.fatal 4 (s.anvRec t))

/-- A parity error of the tile's vector engine, which is a fatal fault (R158, R178, R179). -/
def vxeUe (l : Nat) : EM Nat := do
  let s ← get
  let t := s.phys l
  let s := s.anvUe t .vxe 3 0
  set s
  throw (.fatal 4 (s.anvRec t))

/-- Padding positions of an MMUL's block of m rows and n columns: the rest of the MXE's write block (R131). -/
def mmulPads (m n : Nat) : List (List Nat) :=
  (List.range 256).flatMap (fun q => ((List.range 128).filter (fun r =>
    !(decide (q < n) && decide (r < m)))).map (fun r => [q, r]))

/-- MMUL (R142 - R147): 128 rows by 256 columns over K positions, FILL where an operand has no element (R138). -/
def mmulWork (j l : Nat) (e : Eng) (f : Flight) : EM Nat := do
  let c := f.cmd
  let fa := (Fmt.ofCode (cf c 4 28 24)).getD .none
  let fb := (Fmt.ofCode (cf c 4 23 19)).getD .none
  let k := cf c 4 63 44 + 1
  let m := cf c 4 43 37 + 1
  let n := cf c 4 36 29 + 1
  let planes := cf c 4 13 10
  let rc := cRecon (cf c 4 9 9)
  let fillW : W32 := BitVec.ofNat 32 (cf c 5 31 0)
  let fill := accValue fb fillW
  let va := panelView l 3 (cf c 4 28 24) (cf c 3 63 51) k
  let vb := panelView l 4 (cf c 4 23 19) (cf c 3 50 38) k
  let aRow := fun (r : Nat) =>
    e.at_ 0 r (readAll (e.who.at_ 0) va fa.bits .trunc ((List.range k).map (fun p => [p, r])))
  let bCol := fun (q : Nat) =>
    e.at_ 0 q (readAll (e.who.at_ 1) vb planes rc ((List.range k).map (fun p => [p, q])))
  let fills := List.replicate k fill
  let as ← (List.range m).mapM aRow
  let bs ← (List.range n).mapM bCol
  let init := cf c 4 8 7
  let chain := cf c 4 6 6 == 1
  let s0 ← get
  let x0 := s0.ctx j l
  let set0 := x0.accSet
  if init = 2 then
    match x0.accBad.find? (fun i => i / 32768 == set0) with
    | some _ => accUe l
    | none => pure ()
  let vl := panelView l 3 (if fb.isInt then 11 else 1) (cf c 3 24 12) 256
  let initOf := fun (r q : Nat) => (do
    if init = 2 then pure (SMap.get 0#32 x0.acc (accKey set0 r q))
    else if init = 1 then
      if r < m ∧ q < n then
        let code ← e.at_ 0 (q * 128 + r) (readCode (e.who.at_ 2) vl 0 [q, r])
        pure (BitVec.ofNat 32 code.1)
      else pure fillW
    else pure 0#32 : EM W32)
  let rows := if chain then 128 else m
  let cols := if chain then 256 else n
  let outs ← (List.range rows).mapM (fun r => (List.range cols).mapM (fun q => do
    let i ← initOf r q
    pure (outputElem fb fa i ((as[r]?).getD fills) ((bs[q]?).getD fills))))
  let wrapped := (outs.take m).any (fun row => (row.take n).any (·.2))
  if chain then
    modify (fun s =>
      let x := s.ctx j l
      let other := x.acc.filter (fun p => p.1 / 32768 != set0)
      let acc := (outs.zipIdx.flatMap (fun row => row.1.zipIdx.map (fun o => (accKey set0 row.2 o.2, o.1.1)))).foldl
        (fun a p => SMap.put 0#32 a p.1 p.2) other
      s.setCtx j l { x with acc := acc, accBad := x.accBad.filter (fun i => i / 32768 != set0) })
  else
    let vo := panelView l 3 (cf c 4 18 14) (cf c 3 37 25) 256
    let elems := (List.range n).flatMap (fun q => (List.range m).map (fun r =>
      (⟨[q, r], accValue fb ((((outs[r]?).getD [])[q]?).getD (0#32, false)).1⟩ : WElem)))
    let pads := if cf c 4 3 3 = 1 then (mmulPads m n).map (fun ix => (⟨ix, fill⟩ : WElem)) else []
    e.writes vo (cRM (cf c 4 4 4)) (cOvf (cf c 4 5 5)) false elems pads
    modify (fun s =>
      let x := s.ctx j l
      s.setCtx j l { x with accSet := 1 - x.accSet })
  pure (if wrapped then 1 else 0)

def execMmul (j l : Nat) (s : State) : Out :=
  runCommand j l 0 (fun c => cKind c == kMMUL) (mmulWork j l) s

/-! ## Vector operations -/

/-- Exact value of an arithmetic operation of R263, before rounding. -/
def arithExact (op : Nat) (x y z : FVal) : FVal :=
  match op with
  | 1 => x.add y
  | 2 => x.add y.neg
  | 3 => x.mul y
  | 4 => (x.mul y).add z
  | 5 => x.div y
  | _ => x

/-- The primitive functions of R77 by OP. -/
def primOf (op : Nat) (x : FVal) : FVal :=
  match op with
  | 0x10 => x.exp.r32
  | 0x11 => x.exp2.r32
  | 0x12 => x.log.r32
  | 0x13 => x.log2.r32
  | 0x14 => frcp x
  | 0x15 => fsqrt x
  | 0x16 => frsqrt x
  | 0x17 => x.sinpi.r32
  | 0x18 => x.cospi.r32
  | 0x19 => x.tanh.r32
  | 0x1A => fsigmoid x
  | _ => ferf x

/-- The optimizer update of one element (R202): m, v and w, every operation in the command's mode but the square root,
whose bits are those of R77 (R200). -/
def adamw (rm : RM) (sc : Nat → FVal) (g m v w : FVal) : FVal × FVal × FVal :=
  let one := FVal.ofInt 1
  let b1 := sc 0
  let b2 := sc 1
  let m' := ffmaR rm b1 m (fmulR rm (fsubR rm one b1) g)
  let v' := ffmaR rm b2 v (fmulR rm (fmulR rm (fsubR rm one b2) g) g)
  let mh := fmulR rm m' (sc 2)
  let vh := fmulR rm v' (sc 3)
  let q := fdivR rm mh (faddR rm (fsqrt vh) (sc 4))
  let u := ffmaR rm (sc 5) w q
  (m', v', ffmaR rm (sc 6).neg u w)

/-- An operand of a VOP or VEW in FP32 (R264): a block's value beyond FP32's range falls under R63 (R65), and an integer
that FP32 does not hold is rounded under R64, but for a conversion, which takes it whole (DEDUCED, log entry 79). -/
def toFp32 (f : Fmt) (op : Nat) (rm : RM) (ov : Ovf) (x : FVal) : FVal :=
  if f.isBlock || (f.isInt && op != 8) then fp32.decode (encodeKeep .fp32 rm ov true x) else x

/-- The primitive of a BF16 operand is rounded to BF16 whatever the output's format (R78). -/
def primBf (isBf : Bool) (rm : RM) (ov : Ovf) (x : FVal) : FVal :=
  if isBf then Fmt.bf16.decode (Fmt.bf16.encode rm ov x) else x

/-- An element-by-element operation of R263: rm is the command's rounding mode (R62); once leaves the exact value for a
BF16 result (R74). -/
def elemOp (op : Nat) (rm : RM) (once : Bool) (s2 x y z : FVal) : FVal :=
  if 1 ≤ op ∧ op ≤ 5 then
    let v := arithExact op x y z
    if once then v else v.r32m rm
  else if op = 6 then x.minimum y
  else if op = 7 then x.maximum y
  else if op = 8 then x
  else if op = 9 then (x.mul s2).r32m rm
  else if op = 0x0A then (if z.isZero then y else x)
  else if op = 0x20 then silu rm x
  else if op = 0x21 then gelu rm x
  else primOf op x

/-- One row of a row operation of R263. -/
def rowOp (o : RedOrder) (rm : RM) (op : Nat) (s0 s1 : FVal) (xs ys zs : List FVal) : List FVal :=
  if op = 0x22 then softmax o rm xs
  else if op = 0x23 then rmsNorm o rm s1 s0 xs ys
  else if op = 0x24 then layerNorm o rm s1 s0 xs ys zs
  else if op = 0x28 then [redSum o rm xs]
  else if op = 0x29 then [redMax o xs]
  else [redDot o rm xs ys]

/-- The list cut into pieces of n; fuel is its length. -/
def chunks (n : Nat) : Nat → List FVal → List (List FVal)
  | 0, _ => []
  | f + 1, l => match l with
    | [] => []
    | _ => l.take n :: chunks n f (l.drop n)

def isRowOp (op : Nat) : Bool := decide (0x22 ≤ op) && decide (op ≤ 0x2A)

/-- Rows of a row operation, one after the other. -/
def rowsOp (o : RedOrder) (rm : RM) (op n : Nat) (s0 s1 : FVal) (xs ys zs : List FVal) : List FVal :=
  let xr := chunks n xs.length xs
  let yr := chunks n ys.length ys
  let zr := chunks n zs.length zs
  (xr.zipIdx.map (fun p => rowOp o rm op s0 s1 p.1 ((yr[p.2]?).getD []) ((zr[p.2]?).getD []))).flatten

/-- Position at which a view's access is made, for a halt of a Virga engine. -/
def Eng.reads (e : Eng) (v : View) : EM (List FVal) :=
  ((List.range v.count).mapM (fun i => e.at_ 0 i (readElem e.who v v.fmt.bits .trunc (v.unravel i))))

/-- The target format holds every value of the source (R65): infinities are kept. -/
def widens (a b : Fmt) : Bool := a == b || b == .fp32 || (a.isFp8 && (b == .bf16 || b == .fp16))

/-- A VOP or VEW (R262 - R264, R200): blk gives the padding block of a destination, ord the reduction order. -/
def vecWork (ord : RedOrder) (blk : View → Nat) (e : Eng) (f : Flight) : EM Nat := do
  let c := f.cmd
  let op := cf c 3 63 56
  let o := (vecOp op).getD ⟨false, false, false, false⟩
  let vx := vOf c f.views 3 55 52
  let vy := vOf c f.views 3 51 48
  let vz := vOf c f.views 3 47 44
  let vo := vOf c f.views 3 43 40
  let rm := cRM (cf c 3 38 38)
  let ov := cOvf (cf c 3 39 39)
  let pad := cf c 3 37 37 == 1
  let fill := cF32 c 7 31 0
  let sc : Nat → FVal := fun i => cF32 c (4 + i / 2) (if i % 2 = 0 then 63 else 31) (if i % 2 = 0 then 32 else 0)
  let reads := fun (v : View) => (do let l ← e.reads v; pure (l.map (toFp32 v.fmt op rm ov)) : EM (List FVal))
  let xs ← reads vx
  let ys ← if o.useY then reads vy else pure []
  let zs ← if o.useZ then reads vz else pure []
  let get : List FVal → Nat → FVal := fun l i => (l[i]?).getD .zero
  let put := fun (v : View) (m : RM) (w : Ovf) (keep : Bool) (l : List FVal) =>
    e.writes v m w keep (viewElems v l) (fillElems v pad (blk v) fill)
  if op = 0x30 then
    let ws ← reads vo
    let res := xs.zipIdx.map (fun p => adamw rm sc p.1 (get ys p.2) (get zs p.2) (get ws p.2))
    put vy .rne .sat true (res.map (·.1))
    put vz .rne .sat true (res.map (·.2.1))
    put vo rm .sat false (res.map (·.2.2))
  else
    let bf := vo.fmt == .bf16 && vx.fmt == .bf16 && (!o.useY || vy.fmt == .bf16) && (!o.useZ || vz.fmt == .bf16)
    let prim := decide (0x10 ≤ op) && decide (op ≤ 0x1B) && vx.fmt == .bf16
    let res := if isRowOp op then rowsOp ord rm op (vx.dim 0) (sc 0) (sc 1) xs ys zs
      else xs.zipIdx.map (fun p => primBf prim rm ov (elemOp op rm bf (sc 2) p.1 (get ys p.2) (get zs p.2)))
    put vo rm ov (op == 8 && widens vx.fmt vo.fmt) res
  pure 0

/-- VOP; par says that its engine meets a parity error in it. -/
def execVop (j l : Nat) (par : Bool) (s : State) : Out :=
  runCommand j l 1 (fun c => cKind c == kVOP)
    (fun e f => if par then vxeUe l else vecWork .vxe (fun _ => 256) e f) s

end Sys2Proof.Machine
end

