-- ==== Sys2Proof/Machine/Attention.lean ====
section
/-! DEFINITION. Attention and the key-value cache (chapter 12): the KV header, page lists and length tables
(R490 - R498), what attention computes (R499 - R504), appends with quantisation (R93 - R97, R505), and the commands
ATT, VATT and VKVA. -/
namespace Sys2Proof.Machine

/-! ## Placement of a Virga engine's operands (R28, R192) -/

/-- An address that a command of stack n's engine may name: own memory, or for an operand that need not be
stack-resident also Cloudbank scratch and scratchpads. -/
def State.placeOk (s : State) (n : Nat) (resident : Bool) (a : Nat) : Bool :=
  match s.region a with
  | .stack => a / s.stackBytes == n
  | .scratch => !resident
  | .spm => !resident
  | _ => false

/-- Bytes that an element's location touches first. -/
def Loc.addrs (l : Loc) : List Nat := l.parts.map (fun p => p.1 / 8) ++ l.scale.toList

/-- First element of a view, in iteration order, that lies where it may not. -/
def State.misplaced (s : State) (n : Nat) (resident : Bool) (v : View) : Option (Nat × Nat) :=
  (List.range v.count).findSome? (fun i =>
    (((v.loc v.fmt.bits (v.unravel i)).addrs).find? (fun a => !s.placeOk n resident a)).map (fun a => (i, a)))

/-- The check of R192 on a view, made before the first access (DEDUCED, log entry 18). -/
def placeView (n : Nat) (resident : Bool) (dir : Nat) (v : View) : EM Unit := do
  let s ← get
  match s.misplaced n resident v with
  | some (i, a) => throw (.halt ⟨4, dir, i, a, 255⟩)
  | none => pure ()

/-! ## Geometry (R490 - R493) -/

/-- The KV header (R491), with counts and sizes as numbers, not minus 1. -/
structure KvHeader where
  layers : Nat
  heads : Nat
  dh : Nat
  kvf : Nat
  pg64 : Nat
  poolOff : Nat
  listPages : Nat
  poolPages : Nat
  mapOff : Nat
deriving DecidableEq, Repr

def KvHeader.ofWords (w0 w1 w2 w3 : W64) : KvHeader :=
  ⟨fld w0 63 56 + 1, fld w0 55 52 + 1, fld w0 51 44 + 1, fld w0 43 42, fld w0 15 0, fld w1 47 0, fld w2 63 32,
    fld w2 31 0, fld w3 47 0⟩

/-- Bits of an element, bytes of a vector and scale bytes of a vector (R490). -/
def kvBits (kvf : Nat) : Nat := if kvf = 3 then 4 else 8
def KvHeader.vec (h : KvHeader) : Nat := h.dh * kvBits h.kvf / 8
def KvHeader.scales (h : KvHeader) : Nat := if h.kvf = 2 then 1 else if h.kvf = 3 then h.dh / 32 else 0

/-- The header's sizes agree with R490. -/
def KvHeader.sound (h : KvHeader) : Bool :=
  h.dh % 32 == 0 && decide (h.dh ≤ 256) &&
    decide (h.layers * h.heads * 32 * (h.vec + h.scales) ≤ h.pg64 * 65536)

/-- Base of page k of stack n's pool (R493). -/
def KvHeader.pageBase (h : KvHeader) (sb n k : Nat) : Nat := n * sb + h.poolOff + k * h.pg64 * 65536

/-- Address of the vector of position p in its page: x is 0 for keys and 1 for values (R493). -/
def KvHeader.vecAt (h : KvHeader) (base layer kvh x p : Nat) : Nat :=
  base + (layer * h.heads + kvh) * (32 * h.vec) + x * 16 * h.vec + p % 16 * h.vec

/-- Address of its first scale byte. -/
def KvHeader.scaleAt (h : KvHeader) (base layer kvh x p : Nat) : Nat :=
  base + h.layers * h.heads * (32 * h.vec) + ((layer * h.heads + kvh) * 2 + x) * 16 * h.scales + p % 16 * h.scales

/-- Address of entry i of the page list of request r (R492). -/
def KvHeader.listAt (h : KvHeader) (pl r i : Nat) : Nat := pl + 64 + 4 * h.listPages * r + 4 * i

/-- An entry of the length table (R496). -/
structure SeqEnt where
  skip : Bool
  list : Nat
  nq : Nat
  pos : Nat
  krow0 : Nat
  row0 : Nat
deriving DecidableEq, Repr

def SeqEnt.ofWords (w0 w1 : W64) : SeqEnt :=
  ⟨bitAt w0 63, fld w0 62 48, fld w0 41 21, fld w0 20 0, fld w1 63 32, fld w1 31 0⟩

/-! ## Quantisation (R93 - R97) -/

/-- FP8 format of a static KV format. -/
def kvFp8 (kvf : Nat) : Fmt := if kvf = 0 then .e4m3 else .e5m2

/-- Signed value of an 8-bit exponent field; -128, which lies outside R94's range, is taken as it stands (DESIGN CHOICE,
log entry 87). -/
def s8 (v : Nat) : Int := sext 8 v

/-- One element of a static format: its code, and whether it saturated (R94, R95). -/
def kvStatic (kvf : Nat) (sexp : Int) (x : FVal) : Nat × Bool :=
  let f := kvFp8 kvf
  let y := x.scale (-sexp)
  let c := f.encode .rne .sat y
  (c, !x.isNan && c != f.encode .rne .ieee y)

/-- One group of KV_INT8 or KV_INT4: its scale, and per element the code and whether it was clamped (R96). A group of scale
0xFF stores code 0 for every element (DESIGN CHOICE, log entry 88). -/
def kvGroup (lim w : Nat) (xs : List FVal) : Nat × List (Nat × Bool) :=
  if anySpecial xs then (255, xs.map (fun _ => (0, false)))
  else
    let a := amax xs
    let sc := if a.isZero then 0 else pqScale lim a
    (sc, xs.map (fun v =>
      let m := scaledMag v sc
      let q : Int := if v.isNeg then -(min lim m : Nat) else (min lim m : Nat)
      (twos w q, decide (m > lim))))

/-- Groups of a vector, from the first. -/
def kvGroups (lim w n : Nat) : Nat → List FVal → List (Nat × List (Nat × Bool))
  | 0, _ => []
  | f + 1, xs => match xs with
    | [] => []
    | _ => kvGroup lim w (xs.take n) :: kvGroups lim w n f (xs.drop n)

/-- A vector quantised: element codes, scale bytes, and how many elements saturated. -/
def kvQuantise (kvf : Nat) (sexp : Int) (xs : List FVal) : List Nat × List Nat × Nat :=
  if kvf ≤ 1 then
    let r := xs.map (kvStatic kvf sexp)
    (r.map (·.1), [], (r.filter (·.2)).length)
  else
    let gs := if kvf = 2 then kvGroups 127 8 xs.length 1 xs else kvGroups 7 4 32 xs.length xs
    let es := gs.flatMap (·.2)
    (es.map (·.1), gs.map (·.1), (es.filter (·.2)).length)

/-- Codes of w bits packed from the low end (R101). -/
def packCodes (w : Nat) : List Nat → Nat
  | [] => 0
  | c :: cs => c % 2 ^ w + 2 ^ w * packCodes w cs

/-- The values of a stored vector (R97), exact also where one lies beyond FP32's range (DESIGN CHOICE, log entry 89). -/
def kvDequantise (kvf : Nat) (sexp : Int) (dh data : Nat) (scales : List Nat) : List FVal :=
  let w := kvBits kvf
  (List.range dh).map (fun d =>
    let c := data / 2 ^ (w * d) % 2 ^ w
    if kvf ≤ 1 then ((kvFp8 kvf).decode c).scale sexp
    else
      let x := ((scales[if kvf = 2 then 0 else d / 32]?).getD 0)
      if x = 255 then .nan else (FVal.ofInt (sext w c)).scale ((x : Int) - 127))

/-! ## The computation (R500, R502) -/

/-- A key position with its key and value vectors. -/
structure KvPos where
  p : Nat
  k : List FVal
  v : List FVal
deriving DecidableEq, Repr

/-- The mask admits key position kp for a query at qp (R500). -/
def admits (mask window qp kp : Nat) : Bool :=
  if mask = 0 then true
  else if mask = 1 then decide (kp ≤ qp)
  else decide (kp ≤ qp) && decide (qp < kp + window)

/-- Running maximum, sum and weighted values. -/
structure Online where
  m : FVal
  l : FVal
  u : List FVal
deriving DecidableEq, Repr

def dotOf (xs ys : List FVal) : FVal := (exactSum ((xs.zip ys).map (fun p => p.1.mul p.2))).r32

/-- Sum over a block of p_j times element d of its values. -/
def weighted (d : Nat) (ps : List FVal) (b : List KvPos) : FVal :=
  dotOf ps (b.map (fun x => (x.v[d]?).getD .zero))

/-- One block of admitted positions (R502). -/
def attBlock (scale : FVal) (q : List FVal) (dh : Nat) (o : Option Online) (b : List KvPos) : Option Online :=
  match b.map (fun x => fmul scale (dotOf q x.k)) with
  | [] => o
  | s0 :: ss =>
    let mb := ss.foldl FVal.maximum s0
    let ps := (s0 :: ss).map (fun x => fexp (fsub x mb))
    let lb := (exactSum ps).r32
    let ub := (List.range dh).map (fun d => weighted d ps b)
    match o with
    | none => some ⟨mb, lb, ub⟩
    | some o =>
      let mn := o.m.maximum mb
      let a := fexp (fsub o.m mn)
      let c := fexp (fsub mb mn)
      some ⟨mn, ffma o.l a (fmul lb c), (o.u.zip ub).map (fun p => ffma p.1 a (fmul p.2 c))⟩

/-- The output of one query row and head. -/
def attRow (scale : FVal) (mask window dh qp : Nat) (q : List FVal) (kv : List KvPos) : List FVal :=
  let adm := kv.filter (fun x => admits mask window qp x.p)
  let blocks := (List.range ((kv.map (·.p)).foldl max 0 / 16 + 1)).map (fun b => adm.filter (fun x => x.p / 16 == b))
  match blocks.foldl (attBlock scale q dh) none with
  | none => List.replicate dh .zero
  | some o => o.u.map (fun u => fmul u (frcp o.l))

/-! ## Running a sequence -/

/-- Elements of a vector of a view: fixed indices of dimensions 1 and 2. -/
def vecIx (dh i1 i2 : Nat) : List (List Nat) := (List.range dh).map (fun d => [d, i1, i2, 0])

def readVec (e : Eng) (port : Nat) (v : View) (dh i1 i2 : Nat) : EM (List FVal) :=
  (vecIx dh i1 i2).mapM (fun ix => e.at_ 0 (v.ravel ix) (readElem (e.who.at_ port) v v.fmt.bits .trunc ix))

/-- First key position that some query row of a sequence admits. -/
def firstKey (mask window pos : Nat) : Nat := if mask = 2 then pos + 1 - window else 0

/-- The rows of one sequence attended and written (R502, R504). -/
def attendSeq (e : Eng) (qv ov : View) (scale : FVal) (mask window dh gq : Nat) (q : SeqEnt) (kv : List KvPos) :
    EM Unit :=
  (List.range q.nq).forM (fun t => (List.range gq).forM (fun h => do
    let x ← readVec e 0 qv dh h (q.row0 + t)
    let o := attRow scale mask window dh (q.pos + t) x kv
    e.writes ov .rne .sat false ((vecIx dh h (q.row0 + t)).zip o |>.map (fun p => ⟨p.1, p.2⟩)) []))

/-- Words 2i and 2i + 1 of the length table. -/
def readSeq (e : Eng) (v : View) (i : Nat) : EM SeqEnt :=
  e.at_ 0 (2 * i) (do
    let a ← readCode (e.who.at_ 3) v 0 [2 * i, 0, 0, 0]
    let b ← readCode (e.who.at_ 3) v 0 [2 * i + 1, 0, 0, 0]
    pure (SeqEnt.ofWords (BitVec.ofNat 64 a.1) (BitVec.ofNat 64 b.1)))

/-- Conditions of R497 that concern every attention command. -/
def SeqEnt.inRange (q : SeqEnt) : Bool :=
  decide (1 ≤ q.nq) && decide (q.nq ≤ 2 ^ 20) && decide (q.pos + q.nq ≤ 2 ^ 20)

/-- Rows of a sequence lie within dimension 2 of a view. -/
def SeqEnt.rowsIn (q : SeqEnt) (v : View) : Bool := decide (q.row0 + q.nq ≤ v.dim 2)

/-! ## ATT -/

/-- Static exponents of an attention command. -/
def attSk (c : List W64) : Int := s8 (cf c 6 63 56)
def attSv (c : List W64) : Int := s8 (cf c 6 55 48)

/-- ATT (R498 - R504); an entry that breaks R497 halts it with reason INDEX. -/
def attWork (e : Eng) (f : Flight) : EM Nat := do
  let c := f.cmd
  let qv := vOf c f.views 3 63 60
  let ov := vOf c f.views 3 59 56
  let kv := vOf c f.views 3 55 52
  let vv := vOf c f.views 3 51 48
  let lv := vOf c f.views 3 47 44
  let mask := cf c 3 40 39
  let window := cf c 6 20 0
  let dh := cf c 5 43 36 + 1
  let gq := cf c 5 51 44 + 1
  let nseq := if lv.named then cf c 3 38 33 + 1 else 1
  (List.range nseq).forM (fun i => do
    let q ← if lv.named then readSeq e lv i else pure ⟨false, 0, qv.dim 2, cf c 6 41 21, 0, 0⟩
    if q.skip then pure ()
    else
      if !(q.inRange && q.rowsIn qv && q.rowsIn ov && decide (q.krow0 + q.pos + q.nq ≤ kv.dim 2) &&
          decide (q.krow0 + q.pos + q.nq ≤ vv.dim 2)) then throw (.halt ⟨2, 0, i, lv.base + 16 * i, 255⟩)
      let k0 := firstKey mask window q.pos
      let kvs ← (List.range (q.pos + q.nq - k0)).mapM (fun d => do
        let kp := k0 + d
        let k ← readVec e 1 kv dh 0 (q.krow0 + kp)
        let v ← readVec e 1 vv dh 0 (q.krow0 + kp)
        pure (⟨kp, k.map (·.scale (attSk c)), v.map (·.scale (attSv c))⟩ : KvPos))
      attendSeq e qv ov (cF32 c 5 31 0) mask window dh gq q kvs)
  pure 0

/-- A halt of an ATT (R497, R499): MXQ is halted, and LAST_CODE shows the code; no halt register or record belongs to it
(R277), and nothing restarts the queue (DEDUCED, log entry 34). -/
def State.attHalt (s : State) (j l : Nat) : State :=
  let x := s.queue j l 0
  match x.flight.zipIdx.find? (fun f => f.1.live && f.1.fault.isSome && cKind f.1.cmd == kATT) with
  | some (f, i) =>
    (s.setQueue j l 0 { x.setFlight i { f with st := .halted } with halted := true }).setF
      (ANV_MXE_STATUS.LAST_CODE (s.phys l)) (0x10 + (f.fault.map (·.reason)).getD 0)
  | none => s

/-- ATT; par says that the vector engine meets a parity error in it. -/
def execAtt (j l : Nat) (par : Bool) (s : State) : Out :=
  match runCommand j l 0 (fun c => cKind c == kATT) (fun e f => if par then vxeUe l else attWork e f) s with
  | .next s' => .next (s'.attHalt j l)
  | o => o

/-! ## VATT and VKVA -/

/-- What a VATT and a VKVA share: header array, layer, head, formats and views. -/
structure KvCmd where
  n : Nat
  pl : Nat
  layer : Nat
  kvh : Nat
  kvf : Nat
  sk : Int
  sv : Int
  dh : Nat
  kv : View
  vv : View
  append : Bool
  attend : Bool
  mask : Nat
  window : Nat
deriving DecidableEq, Repr

/-- The header read for a command that has some sequence. -/
def readHeader (e : Eng) (pl : Nat) : EM KvHeader :=
  e.at_ 0 0 (do
    let bs ← jobRead e.who pl 32
    let w := fun i => BitVec.ofNat 64 (leNat (bs.drop (8 * i) |>.take 8))
    pure (KvHeader.ofWords (w 0) (w 1) (w 2) (w 3)))

/-- The n bytes at a, an operand that must be resident in the command's own stack, lie there; otherwise PLACE (R28, R192). -/
def KvCmd.place (k : KvCmd) (dir ent a n : Nat) : EM Unit := do
  let s ← get
  if !s.placeOk k.n true a then throw (.halt ⟨4, dir, ent, a, 255⟩)
  if !s.placeOk k.n true (a + n - 1) then throw (.halt ⟨4, dir, ent, a + n - 1, 255⟩)

/-- Pages of the entries that a sequence needs, as (entry, list word). -/
def readList (e : Eng) (h : KvHeader) (k : KvCmd) (q : SeqEnt) : EM (List (Nat × Nat)) := do
  let lo := (if k.attend then firstKey k.mask k.window q.pos else q.pos) / 16
  let hi := (q.pos + q.nq - 1) / 16
  (List.range (hi + 1 - lo)).mapM (fun d => do
    let i := lo + d
    k.place 0 i (h.listAt k.pl q.list i) 4
    let bs ← e.at_ 0 i (jobRead e.who (h.listAt k.pl q.list i) 4)
    pure (i, leNat bs))

/-- Address of a vector of a position, through the pages of its sequence. -/
def KvCmd.at_ (k : KvCmd) (h : KvHeader) (sb : Nat) (pages : List (Nat × Nat)) (x p : Nat) : Nat × Nat :=
  let w := ((pages.find? (fun e => e.1 == p / 16)).map (·.2)).getD 0
  let base := h.pageBase sb (w / 2 ^ 28) (w % 2 ^ 28)
  (h.vecAt base k.layer k.kvh x p, h.scaleAt base k.layer k.kvh x p)

/-- One vector appended; the number of its elements that saturate (R505). -/
def appendVec (e : Eng) (h : KvHeader) (k : KvCmd) (pages : List (Nat × Nat)) (x p : Nat) (xs : List FVal) : EM Nat := do
  let s ← get
  let (a, sa) := k.at_ h s.stackBytes pages x p
  let (codes, scales, sat) := kvQuantise k.kvf (if x = 0 then k.sk else k.sv) xs
  let w := kvBits k.kvf
  k.place 1 (p * k.dh) a h.vec
  if !scales.isEmpty then k.place 1 (p * k.dh) sa scales.length
  writePieces e (codes.zipIdx.map (fun c => ⟨c.2, p * k.dh + c.2, 255, 8 * a + w * c.2, w, c.1⟩) ++
    scales.zipIdx.map (fun c => ⟨codes.length + c.2, p * k.dh + 32 * c.2, 255, 8 * (sa + c.2), 8, c.1⟩))
  pure sat

/-- One stored vector read back (R97). -/
def readKvVec (e : Eng) (h : KvHeader) (k : KvCmd) (pages : List (Nat × Nat)) (x p : Nat) : EM (List FVal) := do
  let s ← get
  let (a, sa) := k.at_ h s.stackBytes pages x p
  k.place 0 (p * k.dh) a h.vec
  if h.scales ≠ 0 then k.place 0 (p * k.dh) sa h.scales
  -- ENTRY is the position of the element that the refused address holds
  let w := kvBits k.kvf
  tryCatch (e.at_ 0 (p * k.dh) (do
    let bs ← jobRead e.who a h.vec
    let sc ← if h.scales = 0 then pure [] else jobRead e.who sa h.scales
    pure (kvDequantise k.kvf (if x = 0 then k.sk else k.sv) k.dh (leNat bs) (sc.map (·.toNat))))) (fun
    | .halt y => throw (.halt { y with entry := p * k.dh + (if a ≤ y.addr ∧ y.addr < a + h.vec then (y.addr - a) * 8 / w
        else 32 * (y.addr - sa)) })
    | st => throw st)

/-- The conditions of R497 for entry q, given the lists named and the query rows counted before it. -/
def KvCmd.entryOk (k : KvCmd) (h : KvHeader) (qv ov : View) (q : SeqEnt) (lists : List Nat) (rows : Nat) : Bool :=
  q.inRange && decide (q.pos + q.nq ≤ 16 * h.listPages) && !lists.contains q.list &&
  h.dh == k.dh && h.kvf == k.kvf && h.sound && decide (k.layer < h.layers) && decide (k.kvh < h.heads) &&
  (!k.attend || decide (rows + q.nq ≤ 64)) &&
  (!k.attend || (q.rowsIn qv && q.rowsIn ov)) && (!k.append || (q.rowsIn k.kv && q.rowsIn k.vv)) &&
  (k.attend || (k.kv.dim 0 == k.dh && k.vv.dim 0 == k.dh))

/-- Saturations counted (R234). -/
def countSat (n j k : Nat) : EM Unit := modify (fun s => (s.bumpSat (VRG_KV_SAT.COUNT n j) k).vrgEvent n 12 k)

/-- What a VATT or a VKVA does for one sequence through its pages: appends, then attention (R505, R506). -/
def kvApply (e : Eng) (h : KvHeader) (k : KvCmd) (qv ov : View) (scale : FVal) (gq : Nat) (q : SeqEnt)
    (pages : List (Nat × Nat)) : EM Nat := do
  let sats ← if k.append then (List.range q.nq).mapM (fun t => do
      let xk ← readVec e 1 k.kv k.dh 0 (q.row0 + t)
      let xv ← readVec e 1 k.vv k.dh 0 (q.row0 + t)
      let a ← appendVec e h k pages 0 (q.pos + t) xk
      let b ← appendVec e h k pages 1 (q.pos + t) xv
      countSat k.n (e.who.job.getD 0) (a + b)
      pure (a + b))
    else pure []
  if k.attend then
    let k0 := firstKey k.mask k.window q.pos
    let kvs ← (List.range (q.pos + q.nq - k0)).mapM (fun d => do
      let a ← readKvVec e h k pages 0 (k0 + d)
      let b ← readKvVec e h k pages 1 (k0 + d)
      pure (⟨k0 + d, a, b⟩ : KvPos))
    attendSeq e qv ov scale k.mask k.window k.dh gq q kvs
  pure sats.sum

/-- One sequence of a VATT or a VKVA: its checks, then its work (R497). -/
def kvSeq (e : Eng) (h : KvHeader) (k : KvCmd) (qv ov lv : View) (scale : FVal) (gq i : Nat) (q : SeqEnt)
    (lists : List Nat) (rows : Nat) : EM Nat := do
  let idx : Stop := .halt ⟨2, 0, i, lv.base + 16 * i, 255⟩
  if !k.entryOk h qv ov q lists rows then throw idx
  let pages ← readList e h k q
  if pages.any (fun p => p.2 == 0xFFFFFFFF || decide (p.2 % 2 ^ 28 ≥ h.poolPages)) then throw idx
  let s ← get
  match pages.find? (fun p => p.2 / 2 ^ 28 != k.n) with
  | some p => throw (.halt ⟨4, 0, p.1, h.pageBase s.stackBytes (p.2 / 2 ^ 28) (p.2 % 2 ^ 28), 255⟩)
  | none => kvApply e h k qv ov scale gq q pages

/-- The sequences of a command in index order; h is the header once some entry has needed it. -/
def kvSeqs (e : Eng) (k : KvCmd) (qv ov lv : View) (scale : FVal) (gq nseq : Nat) :
    Nat → Option KvHeader → List Nat → Nat → Nat → EM Nat
  | 0, _, _, _, sat => pure sat
  | f + 1, h, lists, rows, sat => do
    let i := nseq - (f + 1)
    let q ← readSeq e lv i
    if q.skip then kvSeqs e k qv ov lv scale gq nseq f h lists rows sat
    else
      let s ← get
      let h ← match h with
        | some h => pure h
        | none => do
          if !s.placeOk k.n true k.pl then throw (.halt ⟨4, 0, 0, k.pl, 255⟩)
          readHeader e k.pl
      -- a VKVA names no head dimension: the header's holds
      let k := if k.attend then k else { k with dh := h.dh }
      let n ← kvSeq e h k qv ov lv scale gq i q lists rows
      kvSeqs e k qv ov lv scale gq nseq f (some h) (q.list :: lists) (rows + q.nq) (sat + n)

/-- VATT (R499 - R508). -/
def vattWork (n : Nat) (e : Eng) (f : Flight) : EM Nat := do
  let c := f.cmd
  let qv := vOf c f.views 3 63 60
  let ov := vOf c f.views 3 59 56
  let lv := vOf c f.views 3 47 44
  let app := cf c 3 41 41 == 1
  let k : KvCmd := ⟨n, cf c 4 47 0, cf c 5 63 56, cf c 5 55 52, cf c 3 43 42, attSk c, attSv c, cf c 5 43 36 + 1,
    vOf c f.views 3 55 52, vOf c f.views 3 51 48, app, true, cf c 3 40 39, cf c 6 20 0⟩
  placeView n false 0 lv
  placeView n false 0 qv
  placeView n false 1 ov
  if app then
    placeView n false 0 k.kv
    placeView n false 0 k.vv
  let ns := cf c 3 38 33 + 1
  let sat ← kvSeqs e k qv ov lv (cF32 c 5 31 0) (cf c 5 51 44 + 1) ns ns none [] 0 0
  pure (if sat > 0 then 2 else 0)

def execVatt (j l n : Nat) (ue : Option Nat) (s : State) : Out :=
  runVirga j l n (fun c => cKind c == kVATT) ue (vattWork n) s

/-- VKVA (R505). -/
def vkvaWork (n : Nat) (e : Eng) (f : Flight) : EM Nat := do
  let c := f.cmd
  let lv := vOf c f.views 3 55 52
  let k : KvCmd := ⟨n, cf c 4 47 0, cf c 3 43 36, cf c 3 35 32, cf c 3 51 50, s8 (cf c 3 31 24), s8 (cf c 3 23 16), 0,
    vOf c f.views 3 63 60, vOf c f.views 3 59 56, true, false, 0, 0⟩
  placeView n false 0 lv
  placeView n false 0 k.kv
  placeView n false 0 k.vv
  let ns := cf c 3 49 44 + 1
  let sat ← kvSeqs e k k.kv k.vv lv .zero 0 ns ns none [] 0 0
  pure (if sat > 0 then 2 else 0)

def execVkva (j l n : Nat) (ue : Option Nat) (s : State) : Out :=
  runVirga j l n (fun c => cKind c == kVKVA) ue (vkvaWork n) s

end Sys2Proof.Machine
end

