-- ==== Sys2Proof/Machine/Adders.lean ====
section
/-! DEFINITION. Memory-side adders (R81, R205 - R209) and exact slots (R82 - R87, R210 - R216). -/
namespace Sys2Proof.Machine

/-! ## Memory-side adders -/

/-- Operation codes of AOP (R267, R268). -/
def aADD : Nat := 0
def aMIN : Nat := 1
def aMAX : Nat := 2
def aCAS : Nat := 3

/-- The new code of an element of format f holding code v, after one operation with operand code c; cmp is the compare
value of a compare-and-swap (R81, R205). -/
def adderNew (f : Fmt) (aop v c cmp : Nat) : Nat :=
  if f.isInt then
    let w := f.bits
    let x := sext w v
    let y := sext w c
    if aop = aADD then twos w (x + y)
    else if aop = aMIN then twos w (min x y)
    else if aop = aMAX then twos w (max x y)
    else if v % 2 ^ w = cmp % 2 ^ w then c % 2 ^ w else v % 2 ^ w
  else
    let x := f.decode v
    let y := f.decode c
    let r := if aop = aADD then x.add y else if aop = aMIN then x.minimum y else x.maximum y
    f.encode .rne .ieee r

/-- The operation exists for the format (R205). -/
def adderHas (f : Fmt) (aop : Nat) : Bool :=
  match f with
  | .fp32 | .bf16 | .fp16 => decide (aop ≤ aMAX)
  | .int32 | .int64 => decide (aop ≤ aCAS)
  | _ => false

/-- One atomic operation at the adder of the channel that holds address a; the answer is the old code (R206, R216).
The element is read and written on the direct path (R481). -/
def adderOp (who : Who) (a : Nat) (f : Fmt) (aop c cmp : Nat) : EM Nat := do
  let n := f.bits / 8
  let bs ← directRead who a n
  let v := leNat bs
  rawWrite who a (leBytes n (adderNew f aop v c cmp))
  modify (fun s => s.vrgEvent (a / s.stackBytes) 7 1)
  pure v

/-- An operation of a job's command: the element lies in stack memory, its engine computes, and a segment of the job
permits the write (R222, R343, R443). -/
def jobAdderOp (who : Who) (a : Nat) (f : Fmt) (aop c cmp : Nat) : EM Nat := do
  let s ← get
  let n := f.bits / 8
  if s.region a != .stack then throw (.halt ⟨4, 2, 0, a, 255⟩)
  if s.plain (a / s.stackBytes) then throw (.halt ⟨5, 2, 0, a, 255⟩)
  checkSeg who a n true
  adderOp who a f aop c cmp

/-- ADDER_OPERATION (R205 - R209): an operation from outside the queues of this device, such as a remote ATOMIC,
arrives at the adder that holds its element. It needs an aligned element of stack memory and a computing engine. -/
def execAdderOperation (addr : Nat) (aop : BitVec 2) (fmtc : BitVec 5) (x cmp : W64) (s : State) : Out :=
  match Fmt.ofCode fmtc.toNat with
  | some f =>
    if adderHas f aop.toNat ∧ addr % (f.bits / 8) = 0 ∧ s.region addr = .stack ∧ !s.plain (addr / s.stackBytes) then
      rowOf (do
        let _ ← adderOp ⟨.fabric, none, 255, some 6⟩ addr f aop.toNat x.toNat cmp.toNat
        pure ()) s
    else .next s
  | none => .next s

/-! ## Exact slots -/

def slotKey (n i : Nat) : Nat := 65536 * n + i

def State.slot (s : State) (n i : Nat) : Slot := SMap.get Slot.zero s.slots (slotKey n i)

def State.setSlot (s : State) (n i : Nat) (x : Slot) : State :=
  { s with slots := SMap.put Slot.zero s.slots (slotKey n i) x }

/-- COUNT raised, with OVF at 2^41 and saturation at 2^42 - 1 (R82, R85). -/
def Slot.count' (x : Slot) (k : Nat) : Slot :=
  let c := min (x.count.toNat + k) (2 ^ 42 - 1)
  { x with count := BitVec.ofNat 42 c, ovf := x.ovf || decide (c ≥ 2 ^ 41) }

/-- One contribution (R84). -/
def Slot.add (x : Slot) (v : FVal) : Slot :=
  let x := match v with
    | .nan => { x with nan := true }
    | .inf false => { x with pinf := true }
    | .inf true => { x with ninf := true }
    | v => { x with value := x.value + BitVec.ofInt 320 (v.toScaled (-149)) }
  x.count' 1

/-- Finalisation (R86). -/
def Slot.finalise (x : Slot) (f : Fmt) : Nat :=
  let v : FVal :=
    if x.nan || x.ovf || (x.pinf && x.ninf) then .nan
    else if x.pinf then .inf false
    else if x.ninf then .inf true
    else .fin (decide (x.value.toInt < 0)) x.value.toInt.natAbs (-149)
  f.encode .rne .ieee v

/-- Combination (R87). -/
def Slot.combine (x y : Slot) : Slot :=
  let z : Slot := ⟨x.value + y.value, x.nan || y.nan, x.pinf || y.pinf, x.ninf || y.ninf, x.ovf || y.ovf, x.count⟩
  z.count' y.count.toNat

/-- The second part of an image (R82). -/
def Slot.word (x : Slot) : W64 :=
  setFld (setFld (setFld (setFld (setFld 0#64 63 63 x.nan.toNat) 62 62 x.pinf.toNat) 61 61 x.ninf.toNat)
    60 60 x.ovf.toNat) 41 0 x.count.toNat

/-- The 48-byte image (R82). -/
def Slot.image (x : Slot) : List Byte := leBytes 40 x.value.toNat ++ leBytes 8 x.word.toNat

/-- The slot that an image gives. -/
def Slot.ofImage (bs : List Byte) : Slot :=
  let w : W64 := BitVec.ofNat 64 (leNat (bs.drop 40))
  ⟨BitVec.ofNat 320 (leNat (bs.take 40)), bitAt w 63, bitAt w 62, bitAt w 61, bitAt w 60,
    BitVec.ofNat 42 (fld w 41 0)⟩

/-- Slot number within the stack of a job's slot, where it lies in the job's range (R211). -/
def State.jobSlot (s : State) (j n i : Nat) : Option Nat :=
  if i < s.f (VRG_JOB_SLOTS.COUNT n j) then some (s.f (VRG_JOB_SLOTS.BASE n j) + i) else none

/-- A contribution of a job's command to slot i of its range in stack n (R211, R216, R222). -/
def contribute (e : Eng) (n i : Nat) (v : FVal) : EM Unit := do
  let s ← get
  if s.plain n then throw (.halt ⟨5, 2, 0, i % 65536, 255⟩)
  match s.jobSlot (e.who.job.getD 0) n i with
  | none => throw (.fatal 2 (e.faultRec 2 (i % 65536)))
  | some k => set ((s.setSlot n k ((s.slot n k).add v)).vrgEvent n 9 1)

/-- SLOT_CONTRIBUTION (R84, R212): a contribution from outside the queues of this device arrives at a slot of stack n,
named by its number in the stack. -/
def execSlotContribution (n slot : Nat) (fmtc : BitVec 5) (x : W32) (s : State) : Out :=
  match Fmt.ofCode fmtc.toNat with
  | some f =>
    if f.isWide ∧ n < 16 ∧ slot < 65536 ∧ !s.plain n then
      .next ((s.setSlot n slot ((s.slot n slot).add (f.decode (x.toNat % 2 ^ f.bits)))).vrgEvent n 9 1)
    else .next s
  | none => .next s

/-- A halt takes an entry position of the command. -/
def atEntry {α : Type} (pos : Nat) (x : EM α) : EM α :=
  tryCatch x (fun
    | .halt h => throw (.halt { h with entry := pos })
    | st => throw st)

end Sys2Proof.Machine
end

