-- ==== Sys2Proof/Machine/Dma.lean ====
section
/-! DEFINITION. DMA channels (chapter 10): the modes of DCOPY (R433 - R446) and multicast (R447). Every mode first
reads, position by position, and then writes in the same order, so that a halt leaves every earlier position written
(R127, R451); `lim` is the number of positions that may be written, for a channel that is switched off (R453). -/
namespace Sys2Proof.Machine

/-! ## Data in flight -/

/-- Where a datum comes from: an element of the source, FILL in place of one, a padding position under PAD_FILL, or the
stored block. -/
inductive Origin where
  | source | skip | pad | stored
deriving DecidableEq, Repr

/-- A datum: its value; for a stored element of a source block also its code, its block's scale and the scale's address. -/
structure Datum where
  val : FVal
  raw : Option (Nat × Nat × Nat)
  orig : Origin
deriving DecidableEq, Repr

/-- A datum on its way to an index: its place in the order of the command, and the position that a halt reports. -/
structure WItem where
  pos : Nat
  ent : Nat
  ix : List Nat
  d : Datum
deriving DecidableEq, Repr

def readDatum (who : Who) (v : View) (np : Nat) (ix : List Nat) : EM Datum := do
  let (c, x) ← readCode who v np ix
  pure ⟨codeValue v.fmt np .trunc x c, (v.loc np ix).scale.map (fun a => (c, x, a)), .source⟩

/-- FILL as a datum for a destination. -/
def fillDatum (sv : View) (raw : Nat) (o : Origin) : Datum := ⟨srcFill sv raw, none, o⟩

/-! ## Writing -/

/-- Code of a value under a scale that other elements have chosen (R139); a NaN has no magnitude, and takes 0 under PQ
(DESIGN CHOICE, log entry 85). -/
def codeUnder (f : Fmt) (np x : Nat) (v : FVal) : Nat :=
  if f.isMx then f.elem.encode .rne .sat (v.scale (127 - (x : Int)))
  else
    let n := f.bits
    match v with
    | .nan => 0
    | .inf sg => pqPlanes n np sg (2 ^ (n - 1) - 1)
    | v => pqPlanes n np v.isNeg (min (2 ^ (n - 1) - 1) (scaledMag v x))

/-- Codes of a block's members in order: those that chose its scale x take the codes given, the others theirs under x. -/
def spreadCodes (f : Fmt) (np x : Nat) : List (Bool × FVal) → List Nat → List Nat
  | [], _ => []
  | (true, _) :: t, c :: cs => c :: spreadCodes f np x t cs
  | (true, _) :: t, [] => 0 :: spreadCodes f np x t []
  | (false, v) :: t, cs => codeUnder f np x v :: spreadCodes f np x t cs

/-- The scale that a block keeps: its elements come whole from one source block, beside FILL for skipped entries and lanes
(R139, R437 - R439). -/
def keptScale (ms : List Datum) : Option Nat :=
  let srcs := ms.filter (fun d => d.orig == .source)
  match srcs with
  | [] => none
  | d :: t =>
    match d.raw with
    | none => none
    | some r =>
      if ms.all (fun d => d.orig == .source || d.orig == .skip) && t.all (fun d => d.raw.map (·.2.2) == some r.2.2)
      then some r.2.1 else none

/-- One block of an MX or PQ destination (R135, R139, R779): it keeps its source block's scale and codes, or is encoded from
its values, padding under PAD_FILL and stored values among them; FILL for a skipped entry chooses the scale only where
the block holds no source element, or holds padding (DEDUCED, log entry 17). -/
def moveBlock (e : Eng) (tile : Nat) (v : View) (np pos ent : Nat) (ws : List WItem) (b : List Nat) :
    EM (List Piece) := do
  let f := v.fmt
  let ms ← atTile tile (e.at_ 0 ent ((List.range 32).mapM (fun i => do
    let ix := blockIx b i
    match ws.find? (fun w => w.ix == ix) with
    | some w => pure (some (ix, w.d))
    | none => pure ((← storedElem e.who v ix).map (fun x => (ix, (⟨x, none, .stored⟩ : Datum)))))))
  let ms := ms.filterMap id
  let ds := ms.map (·.2)
  let put := fun (x : Nat) (codes : List Nat) => codePieces pos ent tile v np b x ((ms.map (·.1)).zip codes)
  match keptScale ds with
  | some x => pure (put x (ds.map (fun d => match d.raw with
      | some r => r.1
      | none => codeUnder f np x d.val)))
  | none =>
    let joins := fun (d : Datum) => d.orig != .skip || ds.any (fun d => d.orig == .pad) ||
      ds.all (fun d => d.orig != .source)
    let (x, codes) := blockCodes f np ((ds.filter joins).map (·.val))
    pure (put x (spreadCodes f np x (ds.map (fun d => (joins d, d.val))) codes))

/-- Items written in order to every target: a view, and the tile that a multicast halt names. -/
def putItems (e : Eng) (tg : List (Nat × View)) (np : Nat) (ov : Ovf) (keep : Bool) (ws : List WItem) : EM Unit :=
  match tg with
  | [] => pure ()
  | (_, v0) :: _ =>
    if v0.fmt.isBlock then do
      let late := ws.reverse
      let (ps, h) ← readUntil (fun b =>
        match ws.find? (fun w => blockStart v0 w.ix == b) with
        | some w => do
          let l ← tg.mapM (fun t => moveBlock e t.1 t.2 np w.pos w.ent late b)
          pure l.flatten
        | none => pure []) (blocksOf v0 (ws.map (·.ix)))
      writePieces e ps.flatten
      raise h
    else
      writePieces e (ws.flatMap (fun w => tg.flatMap (fun t => partPieces w.pos w.ent t.1 (t.2.loc 0 w.ix).parts
        (encodeKeep t.2.fmt .rne ov keep w.d.val))))

/-! ## Targets of a multicast (R447) -/

/-- A view moved to the same offset in another tile's window. -/
def View.toWindow (v : View) (l : Nat) : View :=
  let mv := fun (a : Nat) => if inSpm a then spmBase + l * spmWin + (a - spmBase) % spmWin else a
  if v.isLinear || v.isPanel then { v with base := mv v.base }
  else { v with base := mv v.base, p2 := mv v.p2, p3 := mv v.p3 }

/-- The views that receive a COPY; a set member of 192 or above halts with reason BUS. -/
def targets (c : List W64) (v : View) : EM (List (Nat × View)) :=
  let mask := cf c 4 63 0
  if mask = 0 then pure [(255, v)]
  else
    let ls := ((List.range 64).filter (fun i => mask.testBit i)).map (fun i => cf c 6 63 56 + i)
    match ls.find? (fun l => decide (l ≥ 192)) with
    | some l => throw (.halt ⟨3, 1, 0, (v.toWindow l).base, l % 256⟩)
    | none => pure (ls.map (fun l => (l, v.toWindow l)))

/-! ## COPY, PLANE_SPLIT and PLANE_MERGE -/

/-- Source index of a destination index, none for a lane or slice beyond the source (R437). -/
def copyFrom (sv : View) (ix : List Nat) : Option (List Nat) :=
  if (ix.zip sv.dims).all (fun p => decide (p.1 < p.2)) then some ix else none

/-- The modes that move element i to element i: np planes are read and wnp written; raw bits move when mv holds. -/
def moveWork (lim : Nat) (e : Eng) (f : Flight) (np wnp : Nat) (mv : Bool) : EM Nat := do
  let c := f.cmd
  let sv := vOf c f.views 3 63 60
  let dv := vOf c f.views 3 59 56
  let tg ← targets c dv
  let keepRaw := fun (d : Datum) => if mv then d else { d with raw := none }
  let (ws, h) ← readUntil (fun i => do
    let ix := dv.unravel i
    match copyFrom sv ix with
    | some jx => do
      let d ← e.at_ 0 i (readDatum e.who sv np jx)
      pure (⟨i, i, ix, keepRaw d⟩ : WItem)
    | none => pure ⟨i, i, ix, fillDatum sv (cf c 3 31 0) .skip⟩) (List.range (min lim dv.count))
  putItems e tg wnp .sat (widens sv.fmt dv.fmt) ws
  raise h
  pure 0

def copyWork (lim : Nat) (e : Eng) (f : Flight) : EM Nat :=
  let sv := vOf f.cmd f.views 3 63 60
  let np := sv.planes (cf f.cmd 3 41 38)
  moveWork lim e f np np ((vOf f.cmd f.views 3 59 56).fmt == sv.fmt)

def planeSplitWork (lim : Nat) (e : Eng) (f : Flight) : EM Nat :=
  moveWork lim e f 0 (vOf f.cmd f.views 3 59 56).fmt.bits false

def planeMergeWork (lim : Nat) (e : Eng) (f : Flight) : EM Nat :=
  let sv := vOf f.cmd f.views 3 63 60
  moveWork lim e f (sv.planes (cf f.cmd 3 41 38)) 0 false

/-! ## Index entries (R126) -/

/-- What an index entry names: a row, nothing under SKIP, or a fault. -/
inductive Entry where
  | row (i : Nat)
  | skip
  | fault
deriving DecidableEq, Repr

def indexEntry (mode : Nat) (d : Nat) (i : Int) : Entry :=
  let i := if mode = 1 ∧ i < 0 then i + d else i
  if 0 ≤ i ∧ i < d then .row i.toNat
  else if mode = 2 then .row (if i < 0 then 0 else d - 1)
  else if mode = 3 then .skip
  else .fault

/-- Entry p of an index tensor read and judged; a fault halts with reason INDEX. -/
def readEntry (e : Eng) (iv : View) (mode d p : Nat) : EM Entry := do
  let (c, _) ← e.at_ 0 p (readCode e.who iv 0 (iv.unravel p))
  match indexEntry mode d (sext iv.fmt.bits c) with
  | .fault => throw (.halt ⟨2, 0, p, ((iv.loc 0 (iv.unravel p)).parts.headD (0, 0)).1 / 8, 255⟩)
  | r => pure r

/-- Indices of the row e along dimension dim of a view, in iteration order. -/
def rowIndices (v : View) (dim e : Nat) : List (List Nat) :=
  let d : Nat → Nat := fun i => if i = dim then 1 else v.dim i
  (List.range (d 0 * d 1 * d 2 * d 3)).map (fun n =>
    listSet [n % d 0, n / d 0 % d 1, n / d 0 / d 1 % d 2, n / d 0 / d 1 / d 2] dim e)

/-! ## GATHER, SCATTER and SCATTER_ACC -/

/-- Fields that gathers and scatters share. -/
structure IdxCmd where
  sv : View
  dv : View
  iv : View
  mode : Nat
  dim : Nat
  d : Nat
  fill : Nat
  aop : Nat
  exact : Bool
  stack : Nat
  slot : Nat
  byElem : Bool
  pad : Bool
deriving DecidableEq, Repr

/-- ENTRY of an access at index ix of view v for index entry p: a channel reports the entry (R451), a Virga engine the
element position in the operand (R235). -/
def IdxCmd.ent (k : IdxCmd) (v : View) (ix : List Nat) (p : Nat) : Nat := if k.byElem then v.posOf ix else p

/-- Padding of the destination under PAD_FILL, after every entry (R131, R135, R139). -/
def IdxCmd.pads (k : IdxCmd) : List WItem :=
  if k.pad then (padPositions k.dv (granuleElems k.dv)).map (fun ix =>
    ⟨k.iv.count, k.dv.count, ix, fillDatum k.sv k.fill .pad⟩)
  else []

def dmaIdx (f : Flight) : IdxCmd :=
  let c := f.cmd
  ⟨vOf c f.views 3 63 60, vOf c f.views 3 59 56, vOf c f.views 3 55 52, cf c 3 47 46, cf c 3 37 36, cf c 5 39 0 + 1,
    cf c 3 31 0, cf c 3 45 44, cf c 3 43 43 == 1, cf c 5 63 60, cf c 5 59 44, false, false⟩

/-- Rows written, with the padding where no halt was met while reading. -/
def putRows (e : Eng) (k : IdxCmd) (rows : List (List WItem)) (h : Option HaltRec) : EM Nat := do
  putItems e [(255, k.dv)] k.dv.fmt.bits .sat true (rows.flatten ++ (if h.isNone then k.pads else []))
  raise h
  pure 0

/-- GATHER (R126 - R128, R442): row r of the source for entry p goes to row p of the destination. -/
def gatherWork (lim : Nat) (e : Eng) (k : IdxCmd) : EM Nat := do
  let (rows, h) ← readUntil (fun p => do
    let r ← readEntry e k.iv k.mode k.d p
    (rowIndices k.dv k.dim p).mapM (fun ix => do
      match r with
      | .row i => do
        let jx := listSet ix k.dim i
        let d ← e.at_ 0 (k.ent k.sv jx p) (readDatum e.who k.sv k.sv.fmt.bits jx)
        pure (⟨p, k.ent k.dv ix p, ix, d⟩ : WItem)
      | _ => pure ⟨p, k.ent k.dv ix p, ix, fillDatum k.sv k.fill .skip⟩)) (List.range (min lim k.iv.count))
  putRows e k rows h

/-- Row p of a scatter's source, with the destination row it goes to. -/
def scatterRow (e : Eng) (k : IdxCmd) (p : Nat) : EM (List WItem) := do
  match ← readEntry e k.iv k.mode k.d p with
  | .row i => (rowIndices k.sv k.dim p).mapM (fun ix => do
      let d ← e.at_ 0 (k.ent k.sv ix p) (readDatum e.who k.sv k.sv.fmt.bits ix)
      let jx := listSet ix k.dim i
      pure (⟨p, k.ent k.dv jx p, jx, d⟩ : WItem))
  | _ => pure []

/-- SCATTER (R126, R127, R129, R442). -/
def scatterWork (lim : Nat) (e : Eng) (k : IdxCmd) : EM Nat := do
  let (rows, h) ← readUntil (scatterRow e k) (List.range (min lim k.iv.count))
  putRows e k rows h

/-- One contribution of a SCATTER_ACC: an adder operation, or a slot contribution (R443, R444). -/
def contributeItem (e : Eng) (k : IdxCmd) (w : WItem) : EM Unit :=
  if k.exact then e.at_ 2 w.ent (atEntry w.ent (contribute e k.stack (k.slot + k.dv.ravel w.ix) w.d.val))
  else do
    let a := ((k.dv.loc 0 w.ix).parts.headD (0, 0)).1 / 8
    atEntry w.ent (do
      let _ ← e.at_ 2 w.ent (jobAdderOp e.who a k.dv.fmt k.aop (k.dv.fmt.encode .rne .ieee w.d.val) 0)
      pure ())

/-- SCATTER_ACC (R126, R127, R130, R442 - R444): the contributions of an entry are made all or none (R451), and padding
under PAD_FILL follows those to memory. -/
def accWork (lim : Nat) (e : Eng) (k : IdxCmd) : EM Nat := do
  let (rows, h) ← readUntil (scatterRow e k) (List.range (min lim k.iv.count))
  rows.forM (allOrNone (contributeItem e k))
  raise h
  if !k.exact then putItems e [(255, k.dv)] k.dv.fmt.bits .sat true k.pads
  pure 0

/-! ## LIST (R445, R446) -/

/-- Entry i of a LIST. -/
def listEntry (e : Eng) (iv : View) (i : Nat) : EM Unit := do
  let w0 ← e.at_ 0 i (readCode e.who iv 0 (iv.unravel (2 * i)))
  let w1 ← e.at_ 0 i (readCode e.who iv 0 (iv.unravel (2 * i + 1)))
  let a := ((iv.loc 0 (iv.unravel (2 * i))).parts.headD (0, 0)).1 / 8
  if w0.1 / 2 ^ 48 != 0 then throw (.halt ⟨2, 0, i, a, 255⟩)
  let bs ← e.at_ 0 i (jobRead e.who w0.1 (w1.1 / 2 ^ 48 + 1))
  writePieces e [bytePiece i i (w1.1 % 2 ^ 48) bs]

def listWork (lim : Nat) (e : Eng) (f : Flight) : EM Nat := do
  let iv := vOf f.cmd f.views 3 55 52
  (List.range (min lim (iv.count / 2))).forM (listEntry e iv)
  pure 0

/-! ## The commands -/

/-- DMODE of a command. -/
def dMode (c : List W64) : Nat := cf c 3 51 48

/-- The work of a DCOPY on its first lim positions. -/
def dcopyWork (lim : Nat) (e : Eng) (f : Flight) : EM Nat :=
  match dMode f.cmd with
  | 0 => copyWork lim e f
  | 1 => planeSplitWork lim e f
  | 2 => planeMergeWork lim e f
  | 3 => gatherWork lim e (dmaIdx f)
  | 4 => scatterWork lim e (dmaIdx f)
  | 5 => accWork lim e (dmaIdx f)
  | _ => listWork lim e f

/-- Positions of a DCOPY in the order that its halts count (R451). -/
def dcopyCount (f : Flight) : Nat :=
  match dMode f.cmd with
  | 0 | 1 | 2 => (vOf f.cmd f.views 3 59 56).count
  | 6 => (vOf f.cmd f.views 3 55 52).count / 2
  | _ => (vOf f.cmd f.views 3 55 52).count

/-- A started DCOPY of mode m runs on channel ch; a disabled channel issues nothing (R453). -/
def runDcopy (j l ch m : Nat) (work : Eng → Flight → EM Nat) (s : State) : Out :=
  if s.flag (ANV_DMA_CTL.EN (s.phys l) ch) then
    runCommand j l (2 + ch) (fun c => cKind c == kDCOPY && dMode c == m) work s
  else .next s

/-- Larger than the number of positions of any command. -/
def noLimit : Nat := 2 ^ 140

def execCopy (j l ch : Nat) (s : State) : Out := runDcopy j l ch 0 (copyWork noLimit) s
def execPlaneSplit (j l ch : Nat) (s : State) : Out := runDcopy j l ch 1 (planeSplitWork noLimit) s
def execPlaneMerge (j l ch : Nat) (s : State) : Out := runDcopy j l ch 2 (planeMergeWork noLimit) s
def execGather (j l ch : Nat) (s : State) : Out := runDcopy j l ch 3 (fun e f => gatherWork noLimit e (dmaIdx f)) s
def execScatter (j l ch : Nat) (s : State) : Out := runDcopy j l ch 4 (fun e f => scatterWork noLimit e (dmaIdx f)) s
def execScatterAcc (j l ch : Nat) (s : State) : Out :=
  runDcopy j l ch 5 (fun e f => accWork noLimit e (dmaIdx f)) s
def execList (j l ch : Nat) (s : State) : Out := runDcopy j l ch 6 (listWork noLimit) s

end Sys2Proof.Machine
end

