-- ==== Sys2Proof/Machine/Virga.lean ====
section
/-! DEFINITION. Commands of the Virga stack engines (chapter 5): VMV (R195 - R198), VEW (R200 - R202), VGS (R204), VAMO
(R205, R268) and VSLOT (R214, R269). -/
namespace Sys2Proof.Machine

/-! ## VMV -/

/-- Index, in a destination or residual view of a VMV, of an output column and a batch row (R195). -/
def vmvIx (v : View) (col row : Nat) : List Nat := if v.isLinear then [col, row, 0, 0] else [row, col, 0, 0]

/-- The epilogue over the accumulators of one batch row (R197), each step rounded in the command's mode (R62). -/
def vmvGate (epi : Nat) (rm : RM) (acc : List FVal) : List FVal :=
  let h := acc.length / 2
  let act : FVal → FVal := if epi = 1 then silu rm else gelu rm
  if epi = 0 then acc else ((acc.take h).zip (acc.drop h)).map (fun p => fmulR rm (act p.1) p.2)

/-- Value of an accumulator of a pair: an INT32 sum, or FP32. -/
def vmvAcc (fw : Fmt) (w : W32) : FVal := accValue fw w

/-- VMV (R195 - R198): the accumulators start at zero, and each step of the epilogue rounds in FP32. -/
def vmvWork (n : Nat) (e : Eng) (f : Flight) : EM Nat := do
  let c := f.cmd
  let w := vOf c f.views 3 63 60
  let a := vOf c f.views 3 59 56
  let o := vOf c f.views 3 55 52
  let r := vOf c f.views 3 51 48
  let b := cf c 3 47 42 + 1
  let epi := cf c 3 41 40
  let res := cf c 3 39 39 == 1
  let dest := cf c 3 38 37
  let planes := cf c 3 36 33
  let rc := cRecon (cf c 3 32 32)
  let ov := cOvf (cf c 3 31 31)
  let rm := cRM (cf c 3 30 30)
  let kk := w.dim 0
  let cols := w.dim 1
  placeView n true 0 w
  placeView n false 0 a
  if res then placeView n false 0 r
  if dest != 1 then placeView n (dest == 2) (if dest = 2 then 2 else 1) o
  let ws ← (List.range cols).mapM (fun q => (List.range kk).mapM (fun k =>
    e.at_ 0 (w.ravel [k, q]) (readElem e.who w planes rc [k, q])))
  let as ← (List.range b).mapM (fun q => (List.range kk).mapM (fun k =>
    e.at_ 0 (a.ravel [k, q]) (readElem e.who a a.fmt.bits .trunc [k, q, 0, 0])))
  let outs := as.map (fun row => ws.map (fun col => outputElem w.fmt a.fmt 0#32 row col))
  let wrapped := outs.any (fun row => row.any (·.2))
  let ys := outs.map (fun row => vmvGate epi rm (row.map (fun p => vmvAcc w.fmt p.1)))
  let n' := (ys.headD []).length
  let pos := (List.range b).flatMap (fun q => (List.range n').map (fun j => (j, q)))
  let flat := ys.flatten
  let ys' ← if res then (pos.zip flat).mapM (fun p => do
      let ix := vmvIx r p.1.1 p.1.2
      let x ← e.at_ 0 (r.ravel ix) (readElem e.who r r.fmt.bits .trunc ix)
      pure (faddR rm p.2 x))
    else pure flat
  if dest = 1 then
    ys'.zipIdx.forM (fun p => e.at_ 2 p.2 (atEntry p.2 (contribute e (cf c 4 63 60) (cf c 4 59 44 + p.2) p.1.r32)))
  else
    -- written in the iteration order of the destination
    let ws := (List.range o.count).map (fun i =>
      let ix := o.unravel i
      let g : Nat → Nat := fun d => (ix[d]?).getD 0
      let j := if o.isLinear then g 1 * n' + g 0 else g 0 * n' + g 1
      (⟨ix, (ys'[j]?).getD .zero⟩ : WElem))
    let pads := fillElems o (cf c 3 29 29 == 1) (granuleElems o) (cF32 c 5 31 0)
    if dest = 2 then
      ws.zipIdx.forM (fun p => do
        let addr := ((o.loc 0 p.1.ix).parts.headD (0, 0)).1 / 8
        let _ ← e.at_ 2 p.2 (atEntry p.2 (jobAdderOp e.who addr o.fmt aADD (o.fmt.encode rm ov p.1.val) 0))
        pure ())
      e.writes o rm ov false [] pads
    else
      e.writes o rm ov false ws pads
  pure (if wrapped then 1 else 0)

def execVmv (j l n : Nat) (ue : Option Nat) (s : State) : Out := runVirga j l n (fun c => cKind c == kVMV) ue (vmvWork n) s

/-! ## VEW -/

/-- VEW (R200 - R202, R264), in the reduction order of R201, with a padding block of one granule. -/
def vewWork (n : Nat) (e : Eng) (f : Flight) : EM Nat := do
  let c := f.cmd
  let o := (vecOp (cf c 3 63 56)).getD ⟨false, false, false, false⟩
  placeView n false 0 (vOf c f.views 3 55 52)
  if o.useY then placeView n false 0 (vOf c f.views 3 51 48)
  if o.useZ then placeView n false 0 (vOf c f.views 3 47 44)
  placeView n false 1 (vOf c f.views 3 43 40)
  vecWork .virga granuleElems e f

def execVew (j l n : Nat) (ue : Option Nat) (s : State) : Out := runVirga j l n (fun c => cKind c == kVEW) ue (vewWork n) s

/-! ## VGS -/

def vgsIdx (f : Flight) : IdxCmd :=
  let c := f.cmd
  ⟨vOf c f.views 3 55 52, vOf c f.views 3 51 48, vOf c f.views 3 59 56, cf c 3 61 60, cf c 3 47 46, cf c 4 39 0 + 1,
    cf c 5 31 0, cf c 3 45 44, cf c 3 43 43 == 1, cf c 4 63 60, cf c 4 59 44, true, cf c 3 42 42 == 1⟩

/-- VGS with GMODE 0 (R204): the source is stack-resident. -/
def vgsGatherWork (n : Nat) (e : Eng) (f : Flight) : EM Nat := do
  let k := vgsIdx f
  placeView n false 0 k.iv
  placeView n true 0 k.sv
  placeView n false 1 k.dv
  gatherWork noLimit e k

/-- VGS with GMODE 1: the destination is stack-resident. -/
def vgsScatterWork (n : Nat) (e : Eng) (f : Flight) : EM Nat := do
  let k := vgsIdx f
  placeView n false 0 k.iv
  placeView n false 0 k.sv
  placeView n true 1 k.dv
  scatterWork noLimit e k

/-- VGS with GMODE 2: adder operations in the own stack, or slot contributions. -/
def vgsAccWork (n : Nat) (e : Eng) (f : Flight) : EM Nat := do
  let k := vgsIdx f
  placeView n false 0 k.iv
  placeView n false 0 k.sv
  if !k.exact then placeView n true 2 k.dv
  accWork noLimit e k

def vgsMode (m : Nat) (c : List W64) : Bool := cKind c == kVGS && cf c 3 63 62 == m

def execVgsGather (j l n : Nat) (ue : Option Nat) (s : State) : Out := runVirga j l n (vgsMode 0) ue (vgsGatherWork n) s
def execVgsScatter (j l n : Nat) (ue : Option Nat) (s : State) : Out :=
  runVirga j l n (vgsMode 1) ue (vgsScatterWork n) s
def execVgsScatterAcc (j l n : Nat) (ue : Option Nat) (s : State) : Out := runVirga j l n (vgsMode 2) ue (vgsAccWork n) s

/-! ## VAMO -/

/-- VAMO (R205, R213, R268): element i of the operands applies to element i of the targets, in index order. -/
def vamoWork (n : Nat) (e : Eng) (f : Flight) : EM Nat := do
  let c := f.cmd
  let aop := cf c 3 63 62
  let ret := cf c 3 61 61 == 1
  let exact := cf c 3 60 60 == 1
  let tv := vOf c f.views 3 59 56
  let sv := vOf c f.views 3 55 52
  let cv := vOf c f.views 3 51 48
  let rv := vOf c f.views 3 47 44
  placeView n false 0 sv
  if aop = aCAS then placeView n false 0 cv
  if !exact then placeView n true 2 tv
  if ret then placeView n false 1 rv
  let (ps, h) ← readUntil (fun i => do
    if exact then
      let x ← e.at_ 0 i (readElem e.who sv sv.fmt.bits .trunc (sv.unravel i))
      e.at_ 2 i (atEntry i (contribute e (cf c 4 63 60) (cf c 4 59 44 + i) x))
      pure []
    else
      let (x, _) ← e.at_ 0 i (readCode e.who sv 0 (sv.unravel i))
      let (y, _) ← if aop = aCAS then e.at_ 0 i (readCode e.who cv 0 (cv.unravel i)) else pure (0, 0)
      let a := ((tv.loc 0 (tv.unravel i)).parts.headD (0, 0)).1 / 8
      let old ← e.at_ 2 i (atEntry i (jobAdderOp e.who a tv.fmt aop x y))
      pure (if ret then partPieces i i 255 (rv.loc 0 (rv.unravel i)).parts old else [])) (List.range sv.count)
  writePieces e ps.flatten
  raise h
  pure 0

def execVamo (j l n : Nat) (ue : Option Nat) (s : State) : Out :=
  runVirga j l n (fun c => cKind c == kVAMO) ue (vamoWork n) s

/-! ## VSLOT -/

/-- First slot of a VSLOT in the stack, after the check of the whole range (R211, R269). -/
def slotBase (n : Nat) (e : Eng) (c : List W64) : EM Nat := do
  let s ← get
  let j := e.who.job.getD 0
  let b := cf c 3 55 40
  let k := cf c 3 39 23
  let have_ := s.f (VRG_JOB_SLOTS.COUNT n j)
  if b + k > have_ then throw (.fatal 2 (e.faultRec 2 (max b have_ % 65536)))
  pure (s.f (VRG_JOB_SLOTS.BASE n j) + b)

def slotClearWork (n : Nat) (e : Eng) (f : Flight) : EM Nat := do
  let b ← slotBase n e f.cmd
  (List.range (cf f.cmd 3 39 23)).forM (fun i => modify (fun s => s.setSlot n (b + i) Slot.zero))
  pure 0

/-- What is done at a halt, given the position that stopped. -/
def onHalt (x : EM Unit) (act : Nat → EM Unit) : EM Unit :=
  tryCatch x (fun
    | .halt h => do
      act h.entry
      throw (.halt h)
    | st => throw st)

/-- FINALISE (R86, R214): a slot written is cleared with its write under CLEAR_AFTER. -/
def slotFinaliseWork (n : Nat) (e : Eng) (f : Flight) : EM Nat := do
  let c := f.cmd
  let m := vOf c f.views 3 59 56
  placeView n false 1 m
  let b ← slotBase n e c
  let s ← get
  let is := List.range (cf c 3 39 23)
  let clear := fun (k : Nat) => (if cf c 3 60 60 = 1 then
    is.forM (fun i => if i < k then modify (fun s => s.setSlot n (b + i) Slot.zero) else pure ()) else pure () : EM Unit)
  onHalt (writePieces e (is.flatMap (fun i =>
    partPieces i i 255 (m.loc 0 (m.unravel i)).parts ((s.slot n (b + i)).finalise m.fmt)))) clear
  clear (cf c 3 39 23)
  pure 0

/-- The 48 elements of image i in a LINEAR INT8 view. -/
def imageIx (m : View) (i : Nat) : List (List Nat) := (List.range 48).map (fun k => m.unravel (48 * i + k))

def slotSaveWork (n : Nat) (e : Eng) (f : Flight) : EM Nat := do
  let c := f.cmd
  let m := vOf c f.views 3 59 56
  placeView n false 1 m
  let b ← slotBase n e c
  let s ← get
  writePieces e ((List.range (cf c 3 39 23)).flatMap (fun i =>
    (((imageIx m i).zip (s.slot n (b + i)).image).zipIdx).flatMap (fun p =>
      partPieces (48 * i + p.2) (48 * i + p.2) 255 (m.loc 0 p.1.1).parts p.1.2.toNat)))
  pure 0

/-- An image read from a view. -/
def readImage (e : Eng) (m : View) (i : Nat) : EM Slot := do
  let bs ← ((imageIx m i).zipIdx).mapM (fun p => do
    let (x, _) ← e.at_ 0 (48 * i + p.2) (readCode e.who m 0 p.1)
    pure (BitVec.ofNat 8 x))
  pure (Slot.ofImage bs)

def slotLoadWork (n : Nat) (e : Eng) (f : Flight) : EM Nat := do
  let c := f.cmd
  let m := vOf c f.views 3 59 56
  placeView n false 0 m
  let b ← slotBase n e c
  (List.range (cf c 3 39 23)).forM (fun i => do
    let x ← readImage e m i
    modify (fun s => s.setSlot n (b + i) x))
  pure 0

def slotCombineWork (n : Nat) (e : Eng) (f : Flight) : EM Nat := do
  let c := f.cmd
  let m := vOf c f.views 3 59 56
  placeView n false 0 m
  let b ← slotBase n e c
  (List.range (cf c 3 39 23)).forM (fun i => do
    let x ← readImage e m i
    modify (fun s => s.setSlot n (b + i) ((s.slot n (b + i)).combine x)))
  pure 0

def vslotMode (m : Nat) (c : List W64) : Bool := cKind c == kVSLOT && cf c 3 63 61 == m

def execSlotClear (j l n : Nat) (ue : Option Nat) (s : State) : Out := runVirga j l n (vslotMode 0) ue (slotClearWork n) s
def execSlotFinalise (j l n : Nat) (ue : Option Nat) (s : State) : Out := runVirga j l n (vslotMode 1) ue (slotFinaliseWork n) s
def execSlotSave (j l n : Nat) (ue : Option Nat) (s : State) : Out := runVirga j l n (vslotMode 2) ue (slotSaveWork n) s
def execSlotLoad (j l n : Nat) (ue : Option Nat) (s : State) : Out := runVirga j l n (vslotMode 3) ue (slotLoadWork n) s
def execSlotCombine (j l n : Nat) (ue : Option Nat) (s : State) : Out := runVirga j l n (vslotMode 4) ue (slotCombineWork n) s

/-! ## Performance counters -/

/-- The eight counters of an engine, or of a tile, and their OVF bits zeroed. -/
def State.vrgZero (s : State) (n : Nat) : State :=
  (List.range 8).foldl (fun s k => (s.setF (VRG_PERF_CNT.COUNT n k) 0).setF (VRG_PERF_CNT.OVF n k) 0) s
def State.anvZero (s : State) (t : Nat) : State :=
  (List.range 8).foldl (fun s k => (s.setF (ANV_PERF_CNT.COUNT t k) 0).setF (ANV_PERF_CNT.OVF t k) 0) s

/-- VRG_PERF_CLEAR (R181, R237). -/
def execVrgPerfClear (by_ : Agent) (n : Nat) (s : State) : Out :=
  .next (if s.accepts by_ (VRG_PERF_CTL.at n) then s.vrgZero n else s)

/-- ANV_PERF_CLEAR (R181). -/
def execAnvPerfClear (by_ : Agent) (t : Nat) (s : State) : Out :=
  .next (if s.accepts by_ (ANV_PERF_CTL.at t) then s.anvZero t else s)

end Sys2Proof.Machine
end

