-- ==== Sys2Proof/Machine/Halts.lean ====
section
/-! DEFINITION. Halts of Virga queues and DMA channels: latching (R218, R219, R450, R451, R456), RESUME and RETRY (R220,
R455), and switching a channel off (R453, R454). -/
namespace Sys2Proof.Machine

/-! ## Latches of a tile's register set -/

/-- A register of a tile's register set, at the place that holds it: the physical tile, or the saved state (R591). -/
def State.getLatch (s : State) (j l : Nat) (off : Nat → Nat) : W64 :=
  match s.livePhys j l with
  | some t => s.reg (off t)
  | none => SMap.get (regReset (off 0)) (s.ctx j l).savedRegs (off 0)

def State.putLatch (s : State) (j l : Nat) (off : Nat → Nat) (v : W64) : State :=
  match s.livePhys j l with
  | some t => s.setReg (off t) v
  | none =>
    let x := s.ctx j l
    s.setCtx j l { x with savedRegs := SMap.put (regReset (off 0)) x.savedRegs (off 0) v }

/-- First started command of a queue that has met a fault and is not latched yet. -/
def Queue.faulted (x : Queue) : Option (Nat × Flight × HaltRec) :=
  x.flight.zipIdx.findSome? (fun f => match f.1.fault with
    | some h => if f.1.live then some (f.2, f.1, h) else none
    | none => none)

/-- Flight i of a queue halts, and with it the queue (R218, R452). -/
def Queue.halt (x : Queue) (i : Nat) (f : Flight) : Queue :=
  { x.setFlight i { f with st := .halted, fault := none } with halted := true }

/-- The halted command of a queue is given up, and the queue goes on (R220, R455). -/
def Queue.giveUp (x : Queue) (skip : Bool) : Queue :=
  { x with flight := x.flight.map (fun f => if f.st = .halted then { f with st := .released skip } else f),
           halted := false }

/-- The halted command starts again from its first position (R455). -/
def Queue.again (x : Queue) : Queue :=
  { x with flight := x.flight.map (fun f => if f.st = .halted then { f with st := .running } else f), halted := false }

/-- A queue goes on after its halted command, whose tokens are signalled when skip is set (R220, R244). -/
def State.giveUp (s : State) (j l q : Nat) (skip : Bool) : State :=
  let x := (s.queue j l q).giveUp skip
  (s.setQueue j l q x).popReleased j l q x.flight.length

/-- A halt's record is written; a POISON halt is a fatal fault (R410). -/
def State.haltRecord (s : State) (reason : Nat) (r : ErqRec) : State :=
  if reason = 1 then s.fatalFault 4 r else s.erq r

/-- SEV of a halt record. -/
def haltSev (reason : Nat) : Nat := if reason = 1 then 3 else 2

/-! ## Virga queues -/

/-- VRG_HALT_INFO of a halt, without RESUME and SKIP_SIGNAL (R235). -/
def vrgInfo (kind : Nat) (h : HaltRec) : W64 :=
  setFld (setFld (setFld (setFld (setFld 0#64 63 63 1) 55 48 h.reason) 47 46 h.dir) 45 40 kind) 39 0 h.entry

/-- VRG_HALT (R218, R219): a Virga command that met a fault halts its queue. A further one waits for its turn while the
latch is taken (DEDUCED, log entry 35). -/
def execVrgHalt (j l n : Nat) (s : State) : Out :=
  let q := 10 + n
  let info := fun t => VRG_HALT_INFO.at n t
  match (s.queue j l q).faulted with
  | none => .next s
  | some (i, f, h) =>
    if s.mayAct j q ∧ bitAt (s.getLatch j l info) 63 = false then
      let w := vrgInfo (cKind f.cmd) h
      let skip := fld (s.getLatch j l info) 61 61
      let s := s.setQueue j l q ((s.queue j l q).halt i f)
      let s := (s.putLatch j l info (setFld w 61 61 skip)).putLatch j l (fun t => VRG_HALT_ADDR.at n t)
        (setFld 0#64 47 0 h.addr)
      let s := (s.setF (VRG_STATUS.LAST_CODE n) (0x10 + h.reason)).vrgEvent n 11 1
      .next (s.haltRecord h.reason ⟨0x18, haltSev h.reason, bVRG, n, some j, h.addr % 2 ^ 48, w⟩)
    else .next s

/-- The write of VRG_HALT_INFO (R220): SKIP_SIGNAL is stored; RESUME with VALID 1 clears VALID and restarts the queue. -/
def State.vrgResume (s : State) (n t : Nat) (resume skip : Bool) : State :=
  let s := s.setFlag (VRG_HALT_INFO.SKIP_SIGNAL n t) skip
  if resume ∧ s.flag (VRG_HALT_INFO.VALID n t) then
    (s.setFlag (VRG_HALT_INFO.VALID n t) false).giveUp (s.jobOf t) (s.ltile t) (10 + n) skip
  else s

/-- VRG_RESUME (R220), from a requester that the registers of the block accept. -/
def execVrgResume (by_ : Agent) (n t : Nat) (skip : Bool) (s : State) : Out :=
  .next (if s.accepts by_ (VRG_HALT_INFO.at n t) then s.vrgResume n t true skip else s)

/-! ## DMA channels -/

/-- ANV_DMA_HALT_INFO of a halt, without RESUME, RETRY and SKIP_SIGNAL (R460). -/
def dmaInfo (mode : Nat) (h : HaltRec) : W64 :=
  setFld (setFld (setFld (setFld (setFld 0#64 63 63 1) 55 48 h.reason) 47 46 h.dir) 45 42 mode) 39 0 h.entry

/-- DMA_HALT (R450 - R452, R456). -/
def execDmaHalt (j l ch : Nat) (s : State) : Out :=
  let q := 2 + ch
  let t := s.phys l
  match (s.queue j l q).faulted with
  | none => .next s
  | some (i, f, h) =>
    if s.mayAct j q ∧ s.flag (ANV_DMA_HALT_INFO.VALID t ch) = false then
      let w := dmaInfo (dMode f.cmd) h
      let skip := s.f (ANV_DMA_HALT_INFO.SKIP_SIGNAL t ch)
      let s := s.setQueue j l q ((s.queue j l q).halt i f)
      let s := (s.setReg (ANV_DMA_HALT_INFO.at t ch) (setFld w 60 60 skip)).setReg (ANV_DMA_HALT_ADDR.at t ch)
        (setFld (setFld 0#64 63 56 h.tile) 47 0 h.addr)
      let s := s.setF (ANV_DMA_STATUS.LAST_CODE t ch) (0x10 + h.reason)
      .next (s.haltRecord h.reason ⟨0x1A, haltSev h.reason, bANV, t, some j, h.addr % 2 ^ 48, setFld w 58 56 ch⟩)
    else .next s

/-- RESUME and RETRY act: VALID and EN are 1 and REASON is 2 to 6 (R455). -/
def State.dmaReady (s : State) (t ch : Nat) : Bool :=
  s.flag (ANV_DMA_HALT_INFO.VALID t ch) && s.flag (ANV_DMA_CTL.EN t ch) &&
    decide (2 ≤ s.f (ANV_DMA_HALT_INFO.REASON t ch)) && decide (s.f (ANV_DMA_HALT_INFO.REASON t ch) ≤ 6)

/-- The write of ANV_DMA_HALT_INFO (R455). -/
def State.dmaResume (s : State) (t ch : Nat) (resume retry skip : Bool) : State :=
  let s := s.setFlag (ANV_DMA_HALT_INFO.SKIP_SIGNAL t ch) skip
  if resume ≠ retry ∧ s.dmaReady t ch then
    let s := s.setFlag (ANV_DMA_HALT_INFO.VALID t ch) false
    let j := s.jobOf t
    let l := s.ltile t
    if resume then s.giveUp j l (2 + ch) skip
    else s.setQueue j l (2 + ch) (s.queue j l (2 + ch)).again
  else s

/-- DMA_RESUME (R455). -/
def execDmaResume (by_ : Agent) (t ch : Nat) (skip : Bool) (s : State) : Out :=
  .next (if s.accepts by_ (ANV_DMA_HALT_INFO.at t ch) then s.dmaResume t ch true false skip else s)

/-- DMA_RETRY (R455). -/
def execDmaRetry (by_ : Agent) (t ch : Nat) (skip : Bool) (s : State) : Out :=
  .next (if s.accepts by_ (ANV_DMA_HALT_INFO.at t ch) then s.dmaResume t ch false true skip else s)

/-- The oldest started DCOPY of a channel that is still at work. -/
def Queue.oldestDcopy (x : Queue) : Option (Nat × Flight) :=
  (x.flight.zipIdx.find? (fun f => f.1.live && f.1.fault.isNone && cKind f.1.cmd == kDCOPY)).map (fun f => (f.2, f.1))

/-- What a channel that is switched off has written of its oldest started command, and the fault that halts it (R453,
R454): `written` positions, or those up to a fault met earlier. -/
def State.cutDcopy (s : State) (t ch written : Nat) : State :=
  let j := s.jobOf t
  let l := s.ltile t
  let q := 2 + ch
  if s.loaded t ∧ s.mayAct j q then
    match (s.queue j l q).oldestDcopy with
    | none => s
    | some (i, f) =>
      let w := min written (dcopyCount f - 1)
      match (dcopyWork w (engOf j l t q f.cmd) f).go s with
      | (.ok _, s') => s'.setFlight j l q i { f with fault := some ⟨6, 0, w, 0, 255⟩ }
      | (.error (.halt h), s') => s'.setFlight j l q i { f with fault := some h }
      | (.error (.fatal c r), s') => (s'.tileFault t q).fatalFault c r
      | (.error _, _) => s.setFlight j l q i { f with fault := some ⟨6, 0, 0, 0, 255⟩ }
  else s

/-- EN of a channel written (R453, R458): clearing it stops the channel; setting it lets commands start again. -/
def State.dmaEnable (s : State) (t ch : Nat) (en : Bool) (written : Nat) : State :=
  if s.flag (ANV_DMA_CTL.EN t ch) ∧ !en then
    (s.setFlag (ANV_DMA_CTL.EN t ch) false).cutDcopy t ch written
  else if en then (s.setFlag (ANV_DMA_CTL.EN t ch) true).setFlag (ANV_DMA_STATUS.DISABLED t ch) false
  else s

/-- DMA_DISABLE (R453, R458): a write of EN = 0 by the companion or ZEN; `written` positions of the started command had
been written by then. -/
def execDmaDisable (by_ : Agent) (t ch written : Nat) (s : State) : Out :=
  .next (if s.accepts by_ (ANV_DMA_CTL.at t ch) then s.dmaEnable t ch false written else s)

/-- DMA_DISABLED (R453, R459): no access of a disabled channel is outstanding. -/
def execDmaDisabled (t ch : Nat) (s : State) : Out :=
  let x := (s.tile t).queue (2 + ch)
  if s.flag (ANV_DMA_CTL.EN t ch) = false ∧ x.flight.all (fun f => !f.live || f.fault.isSome) then
    .next (s.setFlag (ANV_DMA_STATUS.DISABLED t ch) true)
  else .next s

end Sys2Proof.Machine
end

