-- ==== Sys2Proof/Machine/Fabric.lean ====
section
/-! DEFINITION. The Xiunward fabric (chapter 18): FOP commands, frames and their delivery, halts of FQ, and ports. -/
namespace Sys2Proof
open Sys2Proof.Machine

/-! ## Frames -/

/-- Bytes of a frame on its line. -/
def Frame.bytes (f : Frame) : Nat := 40 + f.payload.length

/-- Address that a halt reports: the remote address of a frame, or its slot. -/
def Frame.haltAddr (f : Frame) : Nat := if f.op = 4 ∨ (f.op = 2 ∧ f.exact) then f.rslot else f.raddr

/-- Who acts for a frame at its destination. -/
def Frame.who (f : Frame) : Who := ⟨.fabric, some f.rjob, 255, some 6⟩

/-- Elements or slot images that a frame carries. -/
def Frame.units (f : Frame) : Nat :=
  if f.op = 4 then f.len / 48 else f.len / max 1 (((Fmt.ofCode f.fmtc).getD .int8).bits / 8)

/-- The frame's local addresses go through a slot and not through memory. -/
def Frame.toSlots (f : Frame) : Bool := f.op == 4 || (f.op == 2 && f.exact)

/-- Element i of a frame's payload, sz bytes each. -/
def Frame.unit (f : Frame) (sz i : Nat) : List Byte := (f.payload.drop (sz * i)).take sz

end Sys2Proof

namespace Sys2Proof.Machine

/-! ## Ports and routes -/

def pDOWN : Nat := 0
def pTRAINING : Nat := 1
def pUP : Nat := 2

def State.node (s : State) : Nat := s.f XWF_ID.NODE
/-- The endpoint carries traffic: EN is 1 and its clock runs (R677, R687). -/
def State.xwfEn (s : State) : Bool := s.flag XWF_CTL.EN && s.domRuns dXWE
def State.portUp (s : State) (p : Nat) : Bool := decide (p < 16) && s.f (XWF_PORT_STATUS.STATE p) == pUP
def State.native (s : State) (p : Nat) : Bool := s.f (XWF_PORT_STATUS.MODE p) == 1
def State.ethernet (s : State) (p : Nat) : Bool := s.f (XWF_PORT_STATUS.MODE p) == 2

/-- UP ports that lead toward node d (R664). -/
def State.routes (s : State) (d : Nat) : List Nat :=
  if s.flag (XWF_ROUTE.V d) then
    (List.range 16).filter (fun p => (s.f (XWF_ROUTE.PMASK d)).testBit p && s.portUp p)
  else []

/-- A frame dropped at a port, counted (R661, R664, R665, R678). -/
def State.drop (s : State) (p : Nat) : State :=
  { s.bumpSat (XWF_PORT_ERR.DROPS p) 1 with dropSince := SMap.put 0 s.dropSince p (SMap.get 0 s.dropSince p + 1) }

/-- Port with the fewest bytes queued, the lowest on a tie (R664); q gives the bytes queued since the lines were last
empty (DEDUCED, log entry 36). -/
def fewest (q : Nat → Nat) : List Nat → Option Nat
  | [] => none
  | p :: t => match fewest q t with
    | none => some p
    | some r => if q r < q p then some r else some p

/-- Payload bytes that a frame to a node may carry (R660, R661). -/
def State.payloadLimit (s : State) (d : Nat) : Nat :=
  if (s.routes d).any (fun p => s.ethernet p && s.f (XWF_PORT_CTL.PAYLOAD_E p) == 0) then 1024 else 2048

/-- A frame given to a port that leads to its destination; none when it is unroutable. -/
def State.sendOn (s : State) (q : Nat → Nat) (f : Frame) : Option (Nat × State) :=
  match fewest q (s.routes f.dst) with
  | some p => some (p, { s with xwfOut := s.xwfOut ++ [(p, f)] })
  | none => none

/-- A frame sent where a port leads to its node, otherwise dropped. -/
def State.sendOrDrop (s : State) (p : Nat) (f : Frame) : State :=
  match s.sendOn (fun _ => 0) f with
  | some (_, s') => s'
  | none => s.drop p

/-! ## Failures of an FOP (R674, R675) -/

/-- XWF_HALT_INFO without RESUME and SKIP_SIGNAL. -/
def xwfInfo (reason code op node : Nat) (late : Bool) : W64 :=
  setFld (setFld (setFld (setFld (setFld (setFld 0#64 63 63 1) 60 60 late.toNat) 55 48 reason) 47 40 code) 39 37 op)
    29 15 node

/-- Position and flight of FOP number n in a queue, while it runs. -/
def Queue.fopAt (x : Queue) (n : Nat) : Option (Nat × Flight) :=
  (x.flight.zipIdx.find? (fun f => f.1.live && f.1.fop == n)).map (fun f => (f.2, f.1))

/-- A READ leaves the outstanding table of its job (R592). -/
def State.readEnded (s : State) (j op : Nat) : State :=
  if op = 0 then s.setF (EQX_JOB_STATUS.OUT_READS j) (s.f (EQX_JOB_STATUS.OUT_READS j) - 1) else s

/-- An FOP fails: none of its waiting frames is sent, its sent ones lose their FOP, and its command halts, or the
failure is late (R674, R675). -/
def State.failFop (s : State) (x : Sent) (reason code : Nat) : State :=
  if x.dead then s
  else
    let s := { s with txWait := s.txWait.filter (fun y => y.fop != x.fop),
                      txSent := s.txSent.map (fun (y : Sent) => if y.fop = x.fop then { y with dead := true } else y) }
    match (s.queue x.job x.lt 26).fopAt x.fop with
    | some (i, f) =>
      (s.setFlight x.job x.lt 26 i { f with fault := some ⟨reason, code, 0, x.frame.haltAddr, 255⟩ }).readEnded
        x.job x.frame.op
    | none =>
      { s with lateWait := s.lateWait ++
          [⟨x.job, x.lt, x.fop, xwfInfo reason code x.frame.op x.frame.dst true, x.frame.haltAddr⟩] }

/-! ## Sending (R664, R666) -/

/-- Payload bytes sent to a node and not acknowledged. -/
def State.unacked (s : State) (d : Nat) : Nat :=
  ((s.txSent.filter (fun x => x.frame.dst == d)).map (fun x => x.frame.payload.length)).sum

def State.window (s : State) (d : Nat) : Nat := SMap.get (2 ^ 21) s.txWin d

/-- Waiting frames toward node d sent while its window has room; each takes the next number of its pair. An
unroutable one fails its FOP. Fuel is the number of waiting frames. -/
def State.pump (d : Nat) : Nat → (Nat → Nat) → State → State
  | 0, _, s => s
  | n + 1, q, s =>
    match s.txWait.find? (fun x => x.frame.dst == d) with
    | none => s
    | some x =>
      if s.unacked d + x.frame.payload.length > s.window d then s
      else
        let seq := SMap.get 0#32 s.txSeq d
        let f := { x.frame with seq := seq }
        match s.sendOn q f with
        | none => State.pump d n q (s.failFop x 3 0)
        | some (p, s) =>
          let rest := s.txWait.eraseP (fun y => y.frame.dst == d)
          let s := { s with txWait := rest, txSent := s.txSent ++ [{ x with frame := f }],
                            txSeq := SMap.put 0#32 s.txSeq d (seq + 1#32) }
          State.pump d n (fun r => q r + (if r = p then f.bytes else 0)) s

/-! ## Applying a request (R668 - R670) -/

/-- Refusal codes of R670. -/
def rRESET : Nat := 1
def rNO_JOB : Nat := 2
def rGROUP : Nat := 3
def rSEGMENT : Nat := 4
def rNO_TILE : Nat := 5
def rSLOTS : Nat := 6
def rPLACE : Nat := 7
def rNO_ENGINE : Nat := 8
def rBUS : Nat := 9

/-- First refusal code that applies to a frame, by the conditions that need no access (R670). -/
def State.refusal (s : State) (f : Frame) : Option Nat :=
  let st := s.jobState f.rjob
  let g := s.f (XWF_JOB_GROUP.GROUP f.rjob)
  let mem := decide (f.op ≤ 2) && !f.toSlots
  if !s.up then some rRESET
  else if f.rjob ≥ 64 ∨ st = jNONE ∨ st = jENDING then some rNO_JOB
  else if g ≠ f.group ∨ g = 0 then some rGROUP
  else if mem && !s.segOk f.rjob f.raddr f.len (f.op != 0) then some rSEGMENT
  else if f.op = 3 ∧ !s.inSet f.rjob f.rtile then some rNO_TILE
  else if f.toSlots ∧ (List.range f.units).any (fun i => (s.jobSlot f.rjob f.rstack (f.rslot + i)).isNone) then some rSLOTS
  else if f.op = 2 ∧ !f.exact ∧ s.region f.raddr ≠ .stack then some rPLACE
  else if f.op = 2 ∧ !f.exact ∧ s.plain (f.raddr / s.stackBytes) then some rNO_ENGINE
  else if f.toSlots ∧ s.plain f.rstack then some rNO_ENGINE
  else none

/-- The slots of a frame, each changed by g. -/
def slotsApply (f : Frame) (g : Nat → Slot → Slot) : EM Unit :=
  (List.range f.units).forM (fun i => modify (fun s =>
    match s.jobSlot f.rjob f.rstack (f.rslot + i) with
    | some k => (s.setSlot f.rstack k (g i (s.slot f.rstack k))).vrgEvent f.rstack 9 1
    | none => s))

/-- The remote side of an FOP (R669); the answer is the bytes that a READ returns. -/
def applyFrame (f : Frame) : EM (List Byte) := do
  let fmt := (Fmt.ofCode f.fmtc).getD .int8
  let sz := max 1 (fmt.bits / 8)
  if f.op = 0 then readSpan f.who f.len f.raddr f.len
  else if f.op = 1 then do
    writeSpan f.who f.payload.length f.raddr f.payload
    pure []
  else if f.op = 2 then do
    if f.exact then slotsApply f (fun i x => x.add (fmt.decode (leNat (f.unit sz i))))
    else allOrNone (fun i => do
      let _ ← adderOp f.who (f.raddr + i * sz) fmt f.aop (leNat (f.unit sz i)) 0
      pure ()) (List.range f.units)
    pure []
  else if f.op = 3 then do
    modify (fun s => s.signal f.rjob f.rtile f.rtok f.rinc)
    pure []
  else do
    slotsApply f (fun i x => x.combine (Slot.ofImage (f.unit 48 i)))
    pure []

/-- What a request comes to at its destination. -/
inductive Answer where
  | done (bs : List Byte)
  | poison
  | refused (code : Nat)
  | later
deriving DecidableEq, Repr

/-- A request served: nothing of a refused frame is applied (R670); a poisoned read affects no job (R672). What an ATOMIC
finds poisoned or uncorrectable stays so, with its records (R408, R409). -/
def State.serve (s : State) (f : Frame) : Answer × State :=
  match s.refusal f with
  | some c => (.refused c, s)
  | none =>
    match (applyFrame f).go s with
    | (.ok bs, s') => (.done bs, s')
    | (.error (.poison _), s') => if f.op = 0 then (.poison, s') else (.refused rBUS, if f.op = 2 then s' else s)
    | (.error (.bus _), _) => (.refused rBUS, s)
    | (.error (.seg _), _) => (.refused rSEGMENT, s)
    | (.error .wait, _) => (.later, s)
    | (.error (.halt _), _) => (.refused rBUS, s)
    | (.error (.fatal c r), s') => (.refused rRESET, s'.fatalFault c r)

/-! ## FOP commands (R669, R671) -/

/-- Codes of a view's elements, in iteration order. -/
def readCodes (e : Eng) (v : View) : EM (List Nat) :=
  (List.range v.count).mapM (fun i => do
    let (c, _) ← e.at_ 0 i (readCode e.who v v.fmt.bits (v.unravel i))
    pure c)

/-- What stops a local access of an FOP: POISON halts with the remote address; an access that R15 refuses is taken as
a violation (DEDUCED, log entry 37). -/
def fopLocal {α : Type} (e : Eng) (raddr : Nat) (x : EM α) : EM α :=
  tryCatch x (fun
    | .halt h => if h.reason = 1 then throw (.halt ⟨1, 0, 0, raddr, 255⟩) else throw (.fatal 2 (e.faultRec 1 h.addr))
    | .poison _ => throw (.halt ⟨1, 0, 0, raddr, 255⟩)
    | .bus a => throw (.fatal 2 (e.faultRec 1 a))
    | .seg a => throw (.fatal 2 (e.faultRec 1 a))
    | st => throw st)

/-- A byte range of a payload cut into frames of at most lim bytes, whole units of u bytes; fuel is the range. -/
def cuts (lim u : Nat) : Nat → Nat → Nat → List (Nat × Nat)
  | 0, _, _ => []
  | fuel + 1, off, n =>
    if n = 0 then []
    else
      let k := min n (max u (lim / u * u))
      (off, k) :: cuts lim u fuel (off + k) (n - k)

/-- The header that every frame of an FOP starts from (R660, R271). -/
def State.fopHeader (s : State) (j : Nat) (c : List W64) (fmtc : Nat) : Frame :=
  ⟨0, cf c 3 63 61, s.f XWF_CTL.MAX_HOPS, false, cf c 3 56 42, s.node, cf c 5 63 58, false, 0#32,
    s.f (XWF_JOB_GROUP.GROUP j), cf c 4 47 0, cf c 5 33 30, cf c 5 29 14, cf c 5 57 50, cf c 5 49 42, cf c 5 41 34,
    fmtc, cf c 3 41 40, cf c 3 39 39 == 1, 0, false, []⟩

/-- Frames of an FOP over n bytes with unit u; data is empty for a READ. -/
def fopFrames (h : Frame) (lim u n : Nat) (data : List Byte) : List Frame :=
  let cs := cuts lim u n 0 n
  cs.zipIdx.map (fun p =>
    let off := p.1.1
    let k := p.1.2
    { h with raddr := h.raddr + off, rslot := h.rslot + off / u, len := k, last := p.2 + 1 == cs.length,
             payload := if data.isEmpty then [] else (data.drop off).take k })

/-- Frames of the FOP that a flight holds, with the local side's read (R669). -/
def fopPrepare (e : Eng) (f : Flight) : EM (List Frame) := do
  let c := f.cmd
  let s ← get
  let lv := vOf c f.views 3 60 57
  let j := e.who.job.getD 0
  let h := s.fopHeader j c lv.fmtc
  if h.dst = 0x7FFF then throw (.halt ⟨2, 0, 0, h.haltAddr, 255⟩)
  if h.dst ≠ s.node ∧ (s.routes h.dst).isEmpty then throw (.halt ⟨3, 0, 0, h.haltAddr, 255⟩)
  let lim := s.payloadLimit h.dst
  let n := (lv.count * lv.fmt.bits + 7) / 8
  let u := if h.op = 4 then 48 else if h.op = 2 then max 1 (lv.fmt.bits / 8) else 1
  if h.op = 3 then pure [{ h with last := true }]
  else if h.op = 0 then pure (fopFrames h lim u n [])
  else do
    let codes ← fopLocal e h.raddr (readCodes e lv)
    pure (fopFrames h lim u n (leBytes n (packCodes lv.fmt.bits codes)))

/-- Pieces of an element's location that hold its bits lo to lo + n - 1. -/
def subParts : List (Nat × Nat) → Nat → Nat → List (Nat × Nat)
  | [], _, _ => []
  | (o, w) :: t, lo, n =>
    if n = 0 then []
    else if lo ≥ w then subParts t (lo - w) n
    else
      let k := min n (w - lo)
      (o + lo, k) :: subParts t 0 (n - k)

/-- Bytes off to off + n - 1 of a READ written into its local view (R669). -/
def writeReturned (e : Eng) (v : View) (off : Nat) (bs : List Byte) : EM Unit := do
  let w := v.fmt.bits
  let b0 := 8 * off
  let b1 := min (8 * (off + bs.length)) (v.count * w)
  let data := leNat bs
  writePieces e ((List.range ((b1 + w - 1) / w - b0 / w)).flatMap (fun d =>
    let i := b0 / w + d
    let lo := max b0 (i * w)
    let hi := min b1 ((i + 1) * w)
    partPieces i i 255 (subParts (v.loc w (v.unravel i)).parts (lo - i * w) (hi - lo)) (data / 2 ^ (lo - b0))))

/-- The frames of an FOP to the own node, served at once with the effects of remote frames (R21); the answer is the
refusal that stops it (DEDUCED, log entry 38). -/
def serveOwn (e : Eng) (lv : View) (base : Nat) : List Frame → EM Unit
  | [] => pure ()
  | f :: t => do
    let s ← get
    match s.serve f with
    | (.done bs, s') => do
      set s'
      if f.op = 0 then fopLocal e f.raddr (writeReturned e lv (f.raddr - base) bs)
      serveOwn e lv base t
    | (.poison, s') => do set s'; throw (.halt ⟨1, 0, 0, f.haltAddr, 255⟩)
    | (.refused c, s') => do set s'; throw (.halt ⟨4, c, 0, f.haltAddr, 255⟩)
    | (.later, _) => throw .wait

/-- First FOP of operation op that has started and not been handed to the endpoint. -/
def Queue.freshFop (x : Queue) (op : Nat) : Option (Nat × Flight) :=
  (x.flight.zipIdx.find? (fun f => f.1.live && f.1.fault.isNone && f.1.fop == 0 && cKind f.1.cmd == kFOP &&
    cf f.1.cmd 3 63 61 == op)).map (fun f => (f.2, f.1))

/-- The frames of an FOP accepted by the endpoint: a READ runs on, any other FOP is done (R671). -/
def State.issueFop (s : State) (j l i : Nat) (f : Flight) (fs : List Frame) : State :=
  let k := s.fopNext
  let s := { s with fopNext := k + 1, txWait := s.txWait ++ fs.map (fun x => (⟨x, j, l, k, 0, false⟩ : Sent)) }
  let op := cf f.cmd 3 63 61
  let s := s.setFlight j l 26 i (if op = 0 then { f with fop := k } else { f with fop := k }.finish 0)
  State.pump (cf f.cmd 3 56 42) s.txWait.length (fun _ => 0) s

/-- One FOP of operation op of job j's tile l: prepared and sent, or served by the own node. It waits while EN is 0. -/
def runFop (j l op : Nat) (s : State) : Out :=
  if s.mayAct j 26 ∧ s.xwfEn then
    match (s.queue j l 26).freshFop op with
    | none => .next s
    | some (i, f) =>
      let e := engOf j l (s.phys l) 26 f.cmd
      let own := cf f.cmd 3 56 42 == s.node
      let work : EM (List Frame) := do
        let fs ← fopPrepare e f
        if own then serveOwn e (vOf f.cmd f.views 3 60 57) (cf f.cmd 4 47 0) fs
        pure fs
      match work.go s with
      | (.ok fs, s') =>
        if own then .next ((s'.setFlight j l 26 i (f.finish 0)).readEnded j op)
        else .next (s'.issueFop j l i f fs)
      | (.error (.halt h), s') => .next ((s'.setFlight j l 26 i { f with fault := some h }).readEnded j op)
      | (.error (.fatal c r), s') => .next (s'.fatalFault c r)
      | (.error _, _) => .next s
  else .next s

def execFopRead (j l : Nat) (s : State) : Out := runFop j l 0 s
def execFopWrite (j l : Nat) (s : State) : Out := runFop j l 1 s
def execFopAtomic (j l : Nat) (s : State) : Out := runFop j l 2 s
def execFopSignal (j l : Nat) (s : State) : Out := runFop j l 3 s
def execFopCombine (j l : Nat) (s : State) : Out := runFop j l 4 s

/-! ## Halts of FQ (R674, R675) -/

/-- A halt of FQ latched: registers, completion code and record; POISON is fatal (R410). -/
def State.latchFq (s : State) (j l reason : Nat) (w : W64) (addr : Nat) : State :=
  let t := s.phys l
  let skip := fld (s.getLatch j l XWF_HALT_INFO.at) 61 61
  let s := (s.putLatch j l XWF_HALT_INFO.at (setFld w 61 61 skip)).putLatch j l XWF_HALT_ADDR.at (setFld 0#64 47 0 addr)
  let s := s.setF (XWF_FQSTAT.LAST_CODE t) (0x10 + reason)
  s.haltRecord reason ⟨0x92, haltSev reason, bXWF, t, some j, addr % 2 ^ 48, w⟩

/-- XWF_HALT (R674, R675): a command of FQ that met a failure halts the queue; a failure of a completed FOP halts it
with LATE 1. -/
def execXwfHalt (j l : Nat) (s : State) : Out :=
  if s.mayAct j 26 ∧ bitAt (s.getLatch j l XWF_HALT_INFO.at) 63 = false then
    match (s.queue j l 26).faulted with
    | some (i, f, h) =>
      let w := xwfInfo h.reason h.dir (cf f.cmd 3 63 61) (cf f.cmd 3 56 42) false
      .next ((s.setQueue j l 26 ((s.queue j l 26).halt i f)).latchFq j l h.reason w h.addr)
    | none =>
      match s.lateWait.find? (fun x => x.job == j && x.lt == l) with
      | some x =>
        let s := s.setQueue j l 26 { s.queue j l 26 with halted := true }
        let s := { s with lateWait := s.lateWait.erase x, lateHeld := s.lateHeld ++ [x] }
        .next (s.latchFq j l (fld x.info 55 48) x.info x.addr)
      | none => .next s
  else .next s

/-- The write of XWF_HALT_INFO (R675). -/
def State.xwfResume (s : State) (t : Nat) (resume skip : Bool) : State :=
  let s := s.setFlag (XWF_HALT_INFO.SKIP_SIGNAL t) skip
  if resume ∧ s.flag (XWF_HALT_INFO.VALID t) then
    let j := s.jobOf t
    let l := s.ltile t
    let late := s.flag (XWF_HALT_INFO.LATE t)
    let s := s.setFlag (XWF_HALT_INFO.VALID t) false
    if late then
      let s := { s with lateHeld := s.lateHeld.filter (fun x => !(x.job == j && x.lt == l)) }
      s.setQueue j l 26 { s.queue j l 26 with halted := false }
    else s.giveUp j l 26 skip
  else s

/-- XWF_RESUME (R675). -/
def execXwfResume (by_ : Agent) (t : Nat) (skip : Bool) (s : State) : Out :=
  .next (if s.accepts by_ (XWF_HALT_INFO.at t) then s.xwfResume t true skip else s)

/-! ## Frames that arrive -/

/-- Receive state of a node. -/
def State.rx (s : State) (n : Nat) : RxNode := SMap.get RxNode.zero s.rxNode n
def State.setRx (s : State) (n : Nat) (x : RxNode) : State := { s with rxNode := SMap.put RxNode.zero s.rxNode n x }

/-- Number seq has been applied already (R666). -/
def RxNode.seen (x : RxNode) (seq : W32) : Bool :=
  decide ((seq - x.next).toNat ≥ 2 ^ 31) || x.ahead.contains seq.toNat

/-- The next number expected, past those applied early; fuel is their number. -/
def RxNode.advance : Nat → RxNode → RxNode
  | 0, x => x
  | n + 1, x =>
    if x.ahead.contains x.next.toNat then
      RxNode.advance n { x with next := x.next + 1#32, ahead := dropNum x.ahead x.next.toNat }
    else x

/-- A number noted as applied. -/
def RxNode.note (x : RxNode) (seq : W32) : RxNode :=
  if seq = x.next then RxNode.advance x.ahead.length { x with next := x.next + 1#32 }
  else { x with ahead := addNum x.ahead seq.toNat }

/-- An answer to a request: the header turned round. -/
def State.answerTo (s : State) (f : Frame) (typ : Nat) : Frame :=
  { f with typ := typ, dst := f.src, src := s.node, hops := s.f XWF_CTL.MAX_HOPS, poison := false, payload := [],
           len := 0, ce := f.ce }

/-- A cumulative ACK (R666). -/
def State.ackTo (s : State) (f : Frame) : Frame :=
  { s.answerTo f 2 with seq := (s.rx f.src).next - 1#32 }

/-- An ETHERNET packet that the endpoint drops (R661). -/
def State.badArrival (s : State) (p : Nat) (badPacket : Bool) (f : Frame) : Bool :=
  s.ethernet p && (badPacket || f.dst != s.node)

/-- FRAME_REQUEST (R661, R666, R668 - R670, R672). -/
def execFrameRequest (p : Nat) (badPacket : Bool) (f : Frame) (s : State) : Out :=
  if s.xwfEn ∧ s.portUp p then
    if s.badArrival p badPacket f then .next (s.drop p)
    else if f.typ = 0 ∧ f.dst = s.node then
      let x := s.rx f.src
      if x.seen f.seq then
        match x.answers.find? (fun a => a.seq == f.seq) with
        | some a => .next (s.sendOrDrop p a)
        | none => .next (s.sendOrDrop p (s.ackTo f))
      else
        match s.serve f with
        | (.later, _) => .next s
        | (.done bs, s) =>
          let s := s.setRx f.src (x.note f.seq)
          if f.op = 0 then
            let a := { s.answerTo f 1 with payload := bs, len := bs.length }
            .next ((s.setRx f.src { s.rx f.src with answers := (s.rx f.src).answers ++ [a] }).sendOrDrop p a)
          else .next (s.sendOrDrop p (s.ackTo f))
        | (.poison, s) =>
          let s := s.setRx f.src (x.note f.seq)
          let a := { s.answerTo f 1 with poison := true }
          .next ((s.setRx f.src { s.rx f.src with answers := (s.rx f.src).answers ++ [a] }).sendOrDrop p a)
        | (.refused c, s) =>
          let s := s.setRx f.src (x.note f.seq)
          let a := { s.answerTo f 3 with len := c }
          .next ((s.setRx f.src { s.rx f.src with answers := (s.rx f.src).answers ++ [a] }).sendOrDrop p a)
    else .next s
  else .next s

/-- A sent frame that an answer names. -/
def State.sentTo (s : State) (src : Nat) (seq : W32) : Option Sent :=
  s.txSent.find? (fun x => x.frame.dst == src && x.frame.seq == seq)

def State.dropSent (s : State) (x : Sent) : State := { s with txSent := s.txSent.erase x }

/-- An FOP is done once none of its frames awaits its answer (R671). -/
def State.readDone (s : State) (x : Sent) : State :=
  if s.txSent.any (fun y => y.fop == x.fop && !y.dead) || s.txWait.any (fun y => y.fop == x.fop) then s
  else match (s.queue x.job x.lt 26).fopAt x.fop with
    | some (i, f) => (s.setFlight x.job x.lt 26 i (f.finish 0)).readEnded x.job 0
    | none => s

/-- An answer that arrives at its port. -/
def State.arrives (s : State) (p typ : Nat) (f : Frame) : Bool :=
  s.xwfEn && s.portUp p && f.typ == typ && f.dst == s.node

/-- FRAME_RESPONSE (R671, R672, R676): its bytes are written locally; POISON halts FQ and nothing is written. -/
def execFrameResponse (p : Nat) (f : Frame) (s : State) : Out :=
  if s.arrives p 1 f then
    match s.sentTo f.src f.seq with
    | none => .next s
    | some x =>
      if x.dead then .next ((s.dropSent x).pump f.src s.txWait.length (fun _ => 0))
      else if f.poison then .next (((s.failFop x 1 0).dropSent { x with dead := true }).pump f.src s.txWait.length (fun _ => 0))
      else
        match (s.queue x.job x.lt 26).fopAt x.fop with
        | none => .next (s.dropSent x)
        | some (_, fl) =>
          let e := engOf x.job x.lt (s.phys x.lt) 26 fl.cmd
          let v := vOf fl.cmd fl.views 3 60 57
          let off := x.frame.raddr - cf fl.cmd 4 47 0
          match (fopLocal e x.frame.raddr (writeReturned e v off (f.payload.take x.frame.len))).go s with
          | (.ok _, s') => .next (((s'.dropSent x).readDone x).pump f.src s'.txWait.length (fun _ => 0))
          | (.error (.fatal c r), s') => .next (s'.fatalFault c r)
          | (.error .wait, _) => .next s
          | (.error _, s') => .next ((s'.dropSent x).readDone x)
  else .next s

/-- The window after an ACK (R666): halved by a congestion mark, otherwise raised by one frame, once per round trip. -/
def State.adjustWindow (s : State) (p : Nat) (f : Frame) (roundTrip : Bool) : State :=
  if s.ethernet p && roundTrip then
    let w := s.window f.src
    let w' := if f.ce then max 8192 (w / 2) else min (2 ^ 21) (w + s.payloadLimit f.src)
    { s with txWin := SMap.put (2 ^ 21) s.txWin f.src w' }
  else s

/-- FRAME_ACK (R666, R671): frames up to the number acknowledged are released, READ requests excepted, which their
responses answer; waiting frames follow. -/
def execFrameAck (p : Nat) (f : Frame) (roundTrip : Bool) (s : State) : Out :=
  if s.arrives p 2 f then
    let acked := fun (x : Sent) => x.frame.dst == f.src && decide ((f.seq - x.frame.seq).toNat < 2 ^ 31) &&
      (x.frame.op != 0 || x.dead)
    let s := { s with txSent := s.txSent.filter (fun x => !acked x) }
    let s := s.adjustWindow p f roundTrip
    .next (s.pump f.src s.txWait.length (fun _ => 0))
  else .next s

/-- FRAME_REFUSE (R670, R674, R675). -/
def execFrameRefuse (p : Nat) (f : Frame) (s : State) : Out :=
  if s.arrives p 3 f then
    match s.sentTo f.src f.seq with
    | none => .next s
    | some x =>
      let s := s.failFop x 4 (f.len % 256)
      let s := { s with txSent := s.txSent.filter (fun y => !(y.frame.dst == f.src && y.frame.seq == f.seq)) }
      .next (s.pump f.src s.txWait.length (fun _ => 0))
  else .next s

/-- TRANSIT_FRAME (R665). -/
def execTransitFrame (p : Nat) (f : Frame) (s : State) : Out :=
  if s.xwfEn ∧ s.portUp p ∧ f.dst ≠ s.node then
    if s.ethernet p ∨ f.hops = 0 then .next (s.drop p)
    else .next (s.sendOrDrop p { f with hops := f.hops - 1 })
  else .next s

/-- RESEND_TIMEOUT (R666): an unacknowledged frame is sent again, and after 8 retries its FOP fails. -/
def execResendTimeout (dst : Nat) (seq : W32) (s : State) : Out :=
  match (if s.xwfEn then s.sentTo dst seq else none) with
  | none => .next s
  | some x =>
    if x.retries < 8 then
      match s.sendOn (fun _ => 0) x.frame with
      | some (p, s) =>
        let s := s.bumpSat (XWF_PORT_ERR.REPLAY p) 1
        .next { s with txSent := s.txSent.map (fun y => if y = x then { y with retries := y.retries + 1 } else y) }
      | none =>
        .next { s with txSent := s.txSent.map (fun y => if y = x then { y with retries := y.retries + 1 } else y) }
    else
      let s := s.failFop x 5 0
      .next { s with txSent := s.txSent.filter (fun y => !(y.frame.dst == dst && y.frame.seq == seq)) }

/-! ## FENCE REMOTE -/

/-- FOPs of a tile that have completed and not yet completed at their remote node (R671, R675). -/
def State.fopsRemote (s : State) (j l : Nat) : List Nat :=
  let live := ((s.queue j l 26).flight.filter Flight.live).map (·.fop)
  let sent := ((s.txSent ++ s.txWait).filter (fun x => x.job == j && x.lt == l && !x.dead)).map (·.fop)
  let late := ((s.lateWait ++ s.lateHeld).filter (fun x => x.job == j && x.lt == l)).map (·.fop)
  ((sent ++ late).foldl addNum []).filter (fun k => !live.contains k)

/-! ## Ports -/

/-- The XWF_LINK record (R678). -/
def State.linkRec (s : State) (p sev : Nat) : State := s.erq ⟨0x90, sev, bXWF, p, none, 0, s.reg (XWF_PORT_STATUS.at p)⟩

/-- A port goes DOWN. -/
def State.portDown (s : State) (p : Nat) : State :=
  let s := ((s.setF (XWF_PORT_STATUS.STATE p) pDOWN).setF (XWF_PORT_STATUS.MODE p) 0).setF (XWF_PORT_STATUS.WAVES p) 0
  { s with xwfEth := dropNum s.xwfEth p }.linkRec p 2

/-- A port starts to train. -/
def State.portTrain (s : State) (p : Nat) : State :=
  { s.setF (XWF_PORT_STATUS.STATE p) pTRAINING with xwfEth := dropNum s.xwfEth p }

/-- A mode that the port's training may reach: NATIVE first, Ethernet by MAX_MODE or after the fall-back (R658, R659). -/
def State.mayTrain (s : State) (p mode : Nat) : Bool :=
  let m := s.f (XWF_PORT_CTL.MAX_MODE p)
  if mode = 1 then m != 2 && !s.xwfEth.contains p
  else mode == 2 && (m == 2 || (m == 0 && s.xwfEth.contains p))

/-- A port emits light only while domain 29 is on (R772). -/
def State.opticsOn (s : State) : Bool := s.f (PWR_DOM_STATUS.STATE 29) == 2

/-- XWF_TRAINING (R658, R659): training ends UP in a mode, or fails (DEDUCED, log entry 39). -/
def execXwfTraining (p mode partner : Nat) (ok : Bool) (s : State) : Out :=
  if p < 16 ∧ s.flag (XWF_PORT_CTL.DISABLE p) = false ∧ s.f (XWF_PORT_STATUS.STATE p) ≠ pUP ∧ s.opticsOn then
    if !ok then .next (s.portDown p)
    else if s.mayTrain p mode then
      let s := (s.setF (XWF_PORT_STATUS.STATE p) pUP).setF (XWF_PORT_STATUS.MODE p) mode
      let s := (s.setF (XWF_PORT_STATUS.WAVES p) 8).setF (XWF_PORT_STATUS.PARTNER p) (if mode = 1 then partner else 0)
      let s := ((s.setF (XWF_PORT_STATUS.SPARE_V p) 0).setF (XWF_PORT_STATUS.SPARE_W p) 0).setF
        (XWF_PORT_STATUS.WAVE_FAIL p) 0
      .next (({ s with xwfEth := dropNum s.xwfEth p }.linkRec p 0).resync (dXWF p))
    else .next s
  else .next s

/-- NATIVE_ANSWER_TIMEOUT (R659): with MAX_MODE 0 the port falls back to Ethernet training. -/
def execNativeAnswerTimeout (p : Nat) (s : State) : Out :=
  if p < 16 ∧ s.flag (XWF_PORT_CTL.DISABLE p) = false ∧ s.f (XWF_PORT_STATUS.STATE p) ≠ pUP ∧
      s.f (XWF_PORT_CTL.MAX_MODE p) = 0 then
    .next { s.setF (XWF_PORT_STATUS.STATE p) pTRAINING with xwfEth := addNum s.xwfEth p }
  else .next s

/-- XWF_RETRAIN (R677): RETRAIN trains the port again. -/
def State.xwfRetrain (s : State) (p : Nat) : State :=
  if p < 16 ∧ s.flag (XWF_PORT_CTL.DISABLE p) = false then s.portTrain p else s

def execXwfRetrain (by_ : Agent) (p : Nat) (s : State) : Out :=
  .next (if s.accepts by_ (XWF_PORT_CTL.at p) then s.xwfRetrain p else s)

/-- DISABLE written (R677): 1 holds the port down. -/
def State.portDisable (s : State) (p : Nat) (d : Bool) : State :=
  let s' := s.setFlag (XWF_PORT_CTL.DISABLE p) d
  if d then (if s.f (XWF_PORT_STATUS.STATE p) = pDOWN then s' else s'.portDown p)
  else if s.flag (XWF_PORT_CTL.DISABLE p) then s'.portTrain p else s'

/-- The XWF_WAVE record (R678). -/
def State.waveRec (s : State) (p w : Nat) (spared : Bool) : State :=
  s.erq ⟨0x91, 1, bXWF, p, none, 0, setFld (setFld 0#64 3 0 w) 8 8 spared.toNat⟩

/-- WAVELENGTH_FAIL (R657): wavelength w, 8 being the spare, of an UP port. -/
def execWavelengthFail (p w : Nat) (s : State) : Out :=
  let fails := s.f (XWF_PORT_STATUS.WAVE_FAIL p)
  if s.portUp p ∧ w < 9 ∧ fails.testBit w = false then
    let s := s.setF (XWF_PORT_STATUS.WAVE_FAIL p) (fails ||| 2 ^ w)
    let spareV := s.flag (XWF_PORT_STATUS.SPARE_V p)
    if s.ethernet p then
      if w = 8 then .next (s.waveRec p w false)
      else .next ((s.waveRec p w false).portTrain p)
    else if w < 8 ∧ spareV = false ∧ fails.testBit 8 = false then
      .next (((s.setF (XWF_PORT_STATUS.SPARE_V p) 1).setF (XWF_PORT_STATUS.SPARE_W p) w).waveRec p w true)
    else if w = 8 ∧ spareV = false then .next (s.waveRec p w false)
    else
      let s := if w = 8 then s.setF (XWF_PORT_STATUS.SPARE_V p) 0 else s
      let n := s.f (XWF_PORT_STATUS.WAVES p) - 1
      let s := (s.setF (XWF_PORT_STATUS.WAVES p) n).waveRec p w false
      .next (if n < 4 then s.portDown p else s)
  else .next s

/-- NEIGHBOUR_SOLICITATION (R661): an ETHERNET port answers for the own address only. -/
def execNeighbourSolicitation (p : Nat) (upper lower : W64) (s : State) : Out :=
  if s.portUp p ∧ s.ethernet p ∧ upper = s.reg XWF_IPV6_PREFIX.at ∧ lower.toNat = s.node then
    .next { s with naOut := s.naOut ++ [p] }
  else .next s

end Sys2Proof.Machine
end

