-- ==== Sys2Proof/Machine/Pileus.lean ====
section
/-! DEFINITION. The Pileus core (chapter 7): instruction words (R289 - R292), legality (R291), issue (R286 - R288),
traps (R324 - R328), and the arithmetic, memory and transfer instructions. -/
namespace Sys2Proof.Machine

/-! ## Words -/

/-- Formats of R289. -/
def encR (op : Nat) (rd rs1 rs2 : BitVec 5) (fn : Nat) : Nat :=
  op * 2 ^ 26 + rd.toNat * 2 ^ 21 + rs1.toNat * 2 ^ 16 + rs2.toNat * 2 ^ 11 + fn
def encI (op : Nat) (rd rs1 : BitVec 5) (imm : BitVec 16) : Nat :=
  op * 2 ^ 26 + rd.toNat * 2 ^ 21 + rs1.toNat * 2 ^ 16 + imm.toNat
def encR4 (op : Nat) (rd rs1 rs2 rs3 : BitVec 5) : Nat := encR op rd rs1 rs2 (rs3.toNat * 2 ^ 6)
def encG (op : Nat) (rd rs1 : BitVec 5) (size : BitVec 2) (sx : Bool) (imm : BitVec 13) : Nat :=
  op * 2 ^ 26 + rd.toNat * 2 ^ 21 + rs1.toNat * 2 ^ 16 + size.toNat * 2 ^ 14 + sx.toNat * 2 ^ 13 + imm.toNat
def encF (rd rs1 : BitVec 5) (pos wm1 : BitVec 6) (ins : Bool) : Nat :=
  0x0A * 2 ^ 26 + rd.toNat * 2 ^ 21 + rs1.toNat * 2 ^ 16 + pos.toNat * 2 ^ 10 + wm1.toNat * 2 ^ 4 + ins.toNat
def encU (op : Nat) (rd : BitVec 5) (off : BitVec 21) : Nat := op * 2 ^ 26 + rd.toNat * 2 ^ 21 + off.toNat
def encP (pd cond : BitVec 3) (rs1 : BitVec 5) (imm : BitVec 15) : Nat :=
  0x0C * 2 ^ 26 + pd.toNat * 2 ^ 23 + cond.toNat * 2 ^ 20 + rs1.toNat * 2 ^ 15 + imm.toNat
def encB (ps : BitVec 3) (neg : Bool) (off : BitVec 22) : Nat :=
  0x20 * 2 ^ 26 + ps.toNat * 2 ^ 23 + neg.toNat * 2 ^ 22 + off.toNat
def encPlog (pd ps1 ps2 : BitVec 3) (n1 n2 : Bool) (f : BitVec 2) : Nat :=
  0x0D * 2 ^ 26 + pd.toNat * 2 ^ 23 + ps1.toNat * 2 ^ 20 + ps2.toNat * 2 ^ 17 + n1.toNat * 2 ^ 16 + n2.toNat * 2 ^ 15 +
    f.toNat * 2 ^ 13
def encPush (rs1 rs2 : BitVec 5) (qr : Bool) (q : BitVec 5) : Nat :=
  0x28 * 2 ^ 26 + rs1.toNat * 2 ^ 21 + rs2.toNat * 2 ^ 16 + qr.toNat * 2 ^ 15 + q.toNat * 2 ^ 10
def encTok (rs : BitVec 5) (fn : Nat) (tok inc : BitVec 8) : Nat :=
  0x29 * 2 ^ 26 + rs.toNat * 2 ^ 21 + fn * 2 ^ 19 + tok.toNat * 2 ^ 11 + inc.toNat * 2 ^ 3
def encFence (kind : Nat) : Nat := 0x2A * 2 ^ 26 + kind * 2 ^ 22
def encClb (rs1 rs2 : BitVec 5) (rel : Bool) (tok : BitVec 8) (sig : Bool) : Nat :=
  0x2B * 2 ^ 26 + rs1.toNat * 2 ^ 21 + rs2.toNat * 2 ^ 16 + rel.toNat * 2 ^ 15 + tok.toNat * 2 ^ 7 + sig.toNat * 2 ^ 6
def encIfill (rs1 rs2 : BitVec 5) : Nat := 0x2C * 2 ^ 26 + rs1.toNat * 2 ^ 21 + rs2.toNat * 2 ^ 16
def encSys (rd rs1 : BitVec 5) (imm : BitVec 8) (fn : Nat) : Nat :=
  0x30 * 2 ^ 26 + rd.toNat * 2 ^ 21 + rs1.toNat * 2 ^ 16 + imm.toNat * 2 ^ 8 + fn

/-- Control registers of R321. -/
def csrListed (n : Nat) : Bool := decide (n ≤ 5) || (decide (8 ≤ n) && decide (n ≤ 0x0E))

/-- R291, for what the word alone shows: OP, enumerated fields, growth fields and fields that must be zero. A queue
number that a register gives is judged at issue. -/
def legalWord (w : Nat) : Bool :=
  let b := bitsOf w
  let op := b 31 26
  let fn := b 10 0
  if op = 0x01 then
    decide (fn ≤ 0x14) || (decide (0x15 ≤ fn) && decide (fn ≤ 0x17) && b 15 11 == 0) ||
      (decide (0x40 ≤ fn) && decide (fn ≤ 0x7F))
  else if op = 0x06 then b 13 6 == 0
  else if op = 0x09 then b 5 0 == 0
  else if op = 0x0A then b 3 1 == 0
  else if op = 0x0B then b 25 24 == 0 && b 10 3 == 0 && decide (b 2 0 ≤ 5)
  else if op = 0x0C then decide (b 22 20 ≤ 5)
  else if op = 0x0D then b 14 13 != 3 && b 12 0 == 0
  else if op = 0x0E then b 7 0 == 0
  else if op = 0x1D then b 13 13 == 0
  else if op = 0x28 then b 9 0 == 0 && (b 15 15 == 1 || decide (b 14 10 ≤ 26))
  else if op = 0x29 then b 2 0 == 0 && (if b 20 19 = 0 then b 10 3 != 0 else b 20 19 == 1 && b 10 3 == 0)
  else if op = 0x2A then decide (b 25 22 ≤ 3) && b 21 0 == 0
  else if op = 0x2B then b 5 0 == 0
  else if op = 0x2C then b 15 0 == 0
  else if op = 0x30 then
    b 7 4 == 0 &&
    (match b 3 0 with
     | 0 => b 25 16 == 0
     | 2 => b 20 16 == 0 && csrListed (b 15 8)
     | 3 => b 25 21 == 0 && csrListed (b 15 8)
     | 1 | 4 | 5 => b 25 8 == 0
     | _ => false)
  else decide (2 ≤ op ∧ op ≤ 8) || decide (0x10 ≤ op ∧ op ≤ 0x16) || decide (0x18 ≤ op ∧ op ≤ 0x1C) ||
    decide (0x20 ≤ op ∧ op ≤ 0x23)

/-! ## The Virga control cores (R225, R335)

Core 200 + n is the VPC of stack n. It acts for no job (log entry 61). -/

def isVpc (t : Nat) : Bool := decide (200 ≤ t)

/-- PUSH, TOK, CLB, IFILL and END, which a VPC does not have (R335). -/
def jobOnly (w : Nat) : Bool :=
  let op := bitsOf w 31 26
  op == 0x28 || op == 0x29 || op == 0x2B || op == 0x2C || (op == 0x30 && bitsOf w 3 0 == 4)

/-- The word is legal on core t (R291, R335). -/
def legalOn (t w : Nat) : Bool := legalWord w && !(isVpc t && jobOnly w)

/-- An instruction of core t retires: event 12 of a tile, event 13 of a stack (R184, R237). -/
def State.countRetired (s : State) (t : Nat) : State := if isVpc t then s.vrgEvent (t - 200) 13 1 else s.anvEvent t 12 1

/-- k single-bit errors of core t's memories corrected (R157, R232). -/
def State.coreCe (s : State) (t k : Nat) : State :=
  if isVpc t then (List.range k).foldl (fun s _ => s.vrgUe (t - 200) 1) s else s.anvCe t k

/-- An uncorrectable word of core t's IMEM or DMEM: recorded for its tile, or in VRG_ERR, where the trap that follows
makes the record (R158, R178, R227). -/
def State.coreUe (s : State) (t : Nat) (u : TUnit) (wd : Nat) : State :=
  if isVpc t then s.vrgBit (t - 200) (if u = .imem then 6 else 5)
  else
    let s := s.anvUe t u 4 (8 * wd)
    s.erq (s.anvRec t)

/-! ## Registers -/

def Core.r (c : Core) (i : BitVec 5) : W64 := SMap.get 0#64 c.sreg i.toNat

/-- A write to s0 is discarded (R282). -/
def Core.w (c : Core) (i : BitVec 5) (v : W64) : Core :=
  if i = 0#5 then c else { c with sreg := SMap.put 0#64 c.sreg i.toNat v }

def Core.p (c : Core) (i : BitVec 3) : Bool := c.preds.toNat.testBit i.toNat

/-- A write to p0 is discarded (R282). -/
def Core.setP (c : Core) (i : BitVec 3) (b : Bool) : Core :=
  if i = 0#3 then c
  else { c with preds := BitVec.ofNat 8 (if b then c.preds.toNat ||| 2 ^ i.toNat else c.preds.toNat &&& (255 - 2 ^ i.toNat)) }

/-- Bit i of v where i has 0; PREDS as a whole (R321). -/
def Core.setPreds (c : Core) (v : W64) : Core := { c with preds := BitVec.ofNat 8 (v.toNat % 256 ||| 1) }

/-- An LDG that has issued still owes this register its value (R286). -/
def Core.owed (c : Core) (i : BitVec 5) : Bool := i != 0#5 && c.out.any (fun o => !o.store && !o.refused && o.rd == i)

/-- ESTATE (R323). -/
def Core.estate (c : Core) : W64 :=
  BitVec.ofNat 64 (8 * c.multiBus.toNat + 4 * c.past.toNat + 2 * c.imprecise.toNat + c.inTrap.toNat)

/-- CSRR (R321, R335). -/
def State.csr (s : State) (t : Nat) (c : Core) (n : Nat) : W64 :=
  match n with
  | 0 => 0x0100#64
  | 1 => if isVpc t then 0#64 else BitVec.ofNat 64 (s.jobOf t)
  | 2 => if isVpc t then 0#64 else BitVec.ofNat 64 (s.ltile t)
  | 3 => if isVpc t then 0#64 else BitVec.ofNat 64 (s.tileSet (s.jobOf t)).length
  | 4 => BitVec.ofNat 64 s.node
  | 5 => if isVpc t then 1#64 else 0#64
  | 8 => c.tvec
  | 9 => c.epc
  | 10 => c.ecause
  | 11 => c.eval
  | 12 => c.estate
  | 13 => BitVec.ofNat 64 c.preds.toNat
  | 14 => c.scratch
  | _ => 0#64

/-- CSRW, under the access of each field (R321, R322); a write to an RO register is discarded. -/
def Core.setCsr (c : Core) (n : Nat) (v : W64) : Core :=
  match n with
  | 8 => { c with tvec := v &&& 0xFFFD#64 }
  | 9 => { c with epc := v &&& 0xFFFF#64 }
  | 10 => { c with ecause := v &&& 0xFF#64 }
  | 11 => { c with eval := v }
  | 13 => c.setPreds v
  | 14 => { c with scratch := v }
  | _ => c

/-! ## Traps -/

def tILLEGAL : Nat := 0x01
def tFETCH_RANGE : Nat := 0x02
def tFETCH_UE : Nat := 0x03
def tDMEM_ALIGN : Nat := 0x04
def tDMEM_RANGE : Nat := 0x05
def tDMEM_UE : Nat := 0x06
def tSEGMENT : Nat := 0x07
def tGLOBAL_ALIGN : Nat := 0x08
def tBUS : Nat := 0x09
def tPOISON : Nat := 0x0A
def tSOFTWARE : Nat := 0x0B
def tDOUBLE : Nat := 0x0C

/-- Traps that are fatal of themselves (R324). -/
def trapFatal (code : Nat) : Bool :=
  code == tILLEGAL || code == tFETCH_UE || code == tDMEM_UE || code == tSEGMENT || code == tPOISON

/-- CAUSE of R602 for a fatal trap. -/
def trapCause (code : Nat) : Nat :=
  if code = tFETCH_UE then 1 else if code = tSEGMENT then 2 else if code = tILLEGAL then 5 else 4

def State.core (s : State) (t : Nat) : Core := (s.tile t).core

def State.setCore (s : State) (t : Nat) (c : Core) : State := s.setTile t { s.tile t with core := c }

/-- A trap as the core meets it. -/
structure Trap where
  code : Nat
  val : W64
  epc : Nat
  imprecise : Bool
  multi : Bool
  past : Bool
deriving DecidableEq, Repr

/-- What PIL_TRAP_INFO latches of a trap (R333). -/
def Trap.info (tr : Trap) (code inner : Nat) : W64 :=
  setFld (setFld (setFld (setFld 0#64 63 63 1) 55 48 code) 47 40 inner) 15 0 tr.epc

/-- The core stops, and the first fatal trap since a compute reset is latched at the offsets of its PIL_TRAP_INFO and
PIL_TRAP_EVAL (R327, R333, R334). -/
def State.stopAt (s : State) (t info eval : Nat) (w val : W64) : State :=
  let s := s.setCore t { s.core t with stopped := true }
  if bitAt (s.reg info) 63 then s else (s.setReg info w).setReg eval val

/-- A fatal trap stops the core, latches PIL_TRAP_INFO and PIL_TRAP_EVAL, and is a fatal fault (R327, R333). -/
def State.fatalTrap (s : State) (t : Nat) (tr : Trap) (code inner cause : Nat) : State :=
  let w := tr.info code inner
  let s := (s.stopAt t (PIL_TRAP_INFO.at t) (PIL_TRAP_EVAL.at t) w tr.val).setFlag (ANV_STATUS.HALTED t) true
  s.fatalFault cause ⟨0x12, 3, bANV, t, some (s.jobOf t), 0, w⟩

/-- Every trap of a VPC is fatal under R227: VPC_TRAP joins the bit of an uncorrectable word that the trap reports
(R232, R335; DEDUCED, log entry 61). -/
def State.vpcTrap (s : State) (n : Nat) (tr : Trap) : State :=
  let s := s.stopAt (200 + n) (VPC_TRAP_INFO.at n) (VPC_TRAP_EVAL.at n) (tr.info tr.code 0) tr.val
  let s := if tr.code = tFETCH_UE ∨ tr.code = tDMEM_UE then s.setFlag (VRG_ERR.VPC_TRAP n) true else s.vrgBit n 7
  s.vrgFault n

/-- The handler of a trap that is not fatal (R325). -/
def Core.enter (c : Core) (tr : Trap) : Core :=
  { c with epc := BitVec.ofNat 64 tr.epc, ecause := BitVec.ofNat 64 tr.code, eval := tr.val, inTrap := true,
           imprecise := tr.imprecise, multiBus := tr.multi, past := tr.past, pc := 4 * fld c.tvec 15 2, stall := 0,
           out := [], dbgHalted := c.dbgHalted || c.dbgStep, dbgStep := false }

/-- A trap taken (R325 - R327, R335): a VPC's, a fatal one, a double one, or the handler. -/
def State.trap (s : State) (t : Nat) (tr : Trap) : State :=
  let c := s.core t
  if isVpc t then s.vpcTrap (t - 200) tr
  else if trapFatal tr.code then s.fatalTrap t tr tr.code 0 (trapCause tr.code)
  else if c.inTrap || !bitAt c.tvec 0 then s.fatalTrap t tr tDOUBLE tr.code 3
  else s.setCore t (c.enter tr)

/-! ## Issue -/

/-- What an instruction does when it issues: it completes issue and leaves this state, with the core as it stands
after it; it does not issue yet, for a reason of R332; or it traps, in the state reached. -/
inductive Issue where
  | done (s : State) (c : Core)
  | stay (why : Nat)
  | trap (s : State) (code : Nat) (val : W64)

/-- Core t has work: its tile's job runs, or its VPC holds its firmware (R225, R335, R725). -/
def State.active (s : State) (t : Nat) : Bool :=
  s.up && (if isVpc t then s.ready && !s.plain (t - 200) else s.loaded t && s.jobState (s.jobOf t) == jRUNNING)

/-- Neither a fatal trap, a debug stop nor an IFILL holds core t. -/
def State.unheld (s : State) (t : Nat) : Bool :=
  s.active t &&
    (let c := s.core t
     !c.dbgHalted && !c.stopped && c.ifill.isNone)

/-- Core t may issue: nothing holds it, and it has not ended (R320). -/
def State.issuing (s : State) (t : Nat) : Bool := s.unheld t && !(s.core t).ended

/-- Instruction word at PC. -/
def State.word (s : State) (t : Nat) : Nat := Bytes.rdNat (s.tile t).imem (s.core t).pc 4

/-- A core after an instruction that completes issue: STALL ends, and a single step halts it again. -/
def Core.retire (c : Core) : Core :=
  { c with stall := 0, dbgHalted := c.dbgHalted || c.dbgStep, dbgStep := false }

/-- The core with PC at the next instruction. -/
def Core.next (c : Core) : Core := { c with pc := c.pc + 4 }

/-- The trap of the current instruction, or of the fetch past 0xFFFC (R299). -/
def Core.trapAt (c : Core) (code : Nat) (val : W64) : Trap := ⟨code, val, c.pc, false, false, false⟩

/-- The fetch past 0xFFFC (R299). -/
def pastTrap : Trap := ⟨tFETCH_RANGE, 0x10000#64, 0xFFFC, false, false, true⟩

/-- An earlier instruction has not completed: an LDG, an STG or a CLB. -/
def Core.draining (c : Core) : Bool := !c.out.isEmpty || !c.clbs.isEmpty

/-- Issue waits, for a reason of R332. -/
def State.stall (s : State) (t why : Nat) : State := s.setCore t { s.core t with stall := why }

/-- A trap waits until every earlier instruction has completed (R325). -/
def State.trapWhenDrained (s : State) (t : Nat) (tr : Trap) : State :=
  if (s.core t).draining then s.stall t 8 else s.trap t tr

/-- What issue does with the instruction at PC once the word there is legal: an instruction whose registers are owed
waits (R286), and none issues behind a refused access (R303). -/
def State.perform (s : State) (t : Nat) (regs : List (BitVec 5)) (f : State → Core → Issue) : State :=
  let c := s.core t
  if c.out.any (·.refused) then s.stall t 8
  else if regs.any c.owed then s.stall t 1
  else match f s c with
    | .done s' c' => (s'.setCore t c'.retire).countRetired t
    | .stay why => s.stall t why
    | .trap s' code val => if c.draining then s.stall t 8 else s'.trap t (c.trapAt code val)

/-- The fetch of R299, R158 and R291: a fetch past 0xFFFC, an uncorrectable word or an illegal word traps; otherwise
the instruction goes on, with a single-bit error corrected. -/
def State.fetch (s : State) (t : Nat) (k : State → State) : State :=
  let x := s.tile t
  let c := x.core
  if c.pc ≥ 0x10000 then s.trapWhenDrained t pastTrap
  else match (x.mem .imem).badIn c.pc 4 with
    | some wd =>
      if c.draining then s.stall t 8
      else (s.coreUe t .imem wd).trap t (c.trapAt tFETCH_UE (BitVec.ofNat 64 c.pc))
    | none =>
      let n := (x.mem .imem).weakIn c.pc 4
      let s := if n = 0 then s else (s.setTile t (x.setMem .imem ((x.mem .imem).heal c.pc 4))).coreCe t n
      k s

/-- Issue of the instruction with encoding w. A row whose word is not the one at PC waits. -/
def State.issueWord (s : State) (t w : Nat) (regs : List (BitVec 5)) (f : State → Core → Issue) : State :=
  if s.issuing t then
    if (s.core t).pc < 0x10000 ∧ s.word t ≠ w then s
    else s.fetch t (fun s =>
      if legalOn t w then s.perform t regs f
      else s.trapWhenDrained t ((s.core t).trapAt tILLEGAL (BitVec.ofNat 64 w)))
  else s

def issue (t w : Nat) (regs : List (BitVec 5)) (f : State → Core → Issue) (s : State) : Out :=
  .next (s.issueWord t w regs f)

/-- An instruction that only computes into a register. -/
def compute (t w : Nat) (regs : List (BitVec 5)) (rd : BitVec 5) (f : Core → W64) (s : State) : Out :=
  issue t w (rd :: regs) (fun s c => .done s (c.w rd (f c)).next) s

/-! ## Arithmetic (R292 - R296) -/

def alu (t fn : Nat) (rd rs1 rs2 : BitVec 5) (f : W64 → W64 → W64) (s : State) : Out :=
  compute t (encR 0x01 rd rs1 rs2 fn) [rs1, rs2] rd (fun c => f (c.r rs1) (c.r rs2)) s

def rotr (a : W64) (n : Nat) : W64 := (a >>> n) ||| (a <<< (64 - n))

/-- Shift amount: modulo 64. -/
def sh6 (b : W64) : Nat := b.toNat % 64

def mulHigh (a b : Int) : W64 := BitVec.ofInt 64 (a * b / 2 ^ 64)

/-- Division does not trap (R295). -/
def divS (a b : W64) : W64 := if b = 0#64 then ~~~(0#64) else BitVec.ofInt 64 (a.toInt.tdiv b.toInt)
def divU (a b : W64) : W64 := if b = 0#64 then ~~~(0#64) else BitVec.ofNat 64 (a.toNat / b.toNat)
def remS (a b : W64) : W64 := if b = 0#64 then a else BitVec.ofInt 64 (a.toInt.tmod b.toInt)
def remU (a b : W64) : W64 := if b = 0#64 then a else BitVec.ofNat 64 (a.toNat % b.toNat)

def leadZeros (a : W64) : Nat := if a = 0#64 then 64 else 63 - Nat.log2 a.toNat

def trailZeros (a : W64) : Nat := ((List.range 64).find? (fun i => a.toNat.testBit i)).getD 64

def popCount (a : W64) : Nat := ((List.range 64).filter (fun i => a.toNat.testBit i)).length

def execAdd (t : Nat) (rd rs1 rs2 : BitVec 5) (s : State) : Out := alu t 0x00 rd rs1 rs2 (fun a b => a + b) s
def execSub (t : Nat) (rd rs1 rs2 : BitVec 5) (s : State) : Out := alu t 0x01 rd rs1 rs2 (fun a b => a - b) s
def execAnd (t : Nat) (rd rs1 rs2 : BitVec 5) (s : State) : Out := alu t 0x02 rd rs1 rs2 (fun a b => a &&& b) s
def execOr (t : Nat) (rd rs1 rs2 : BitVec 5) (s : State) : Out := alu t 0x03 rd rs1 rs2 (fun a b => a ||| b) s
def execXor (t : Nat) (rd rs1 rs2 : BitVec 5) (s : State) : Out := alu t 0x04 rd rs1 rs2 (fun a b => a ^^^ b) s
def execAndn (t : Nat) (rd rs1 rs2 : BitVec 5) (s : State) : Out := alu t 0x05 rd rs1 rs2 (fun a b => a &&& ~~~b) s
def execSll (t : Nat) (rd rs1 rs2 : BitVec 5) (s : State) : Out := alu t 0x06 rd rs1 rs2 (fun a b => a <<< sh6 b) s
def execSrl (t : Nat) (rd rs1 rs2 : BitVec 5) (s : State) : Out := alu t 0x07 rd rs1 rs2 (fun a b => a >>> sh6 b) s
def execSra (t : Nat) (rd rs1 rs2 : BitVec 5) (s : State) : Out :=
  alu t 0x08 rd rs1 rs2 (fun a b => a.sshiftRight (sh6 b)) s
def execRor (t : Nat) (rd rs1 rs2 : BitVec 5) (s : State) : Out := alu t 0x09 rd rs1 rs2 (fun a b => rotr a (sh6 b)) s
def execMul (t : Nat) (rd rs1 rs2 : BitVec 5) (s : State) : Out := alu t 0x0A rd rs1 rs2 (fun a b => a * b) s
def execMulh (t : Nat) (rd rs1 rs2 : BitVec 5) (s : State) : Out :=
  alu t 0x0B rd rs1 rs2 (fun a b => mulHigh a.toInt b.toInt) s
def execMulhu (t : Nat) (rd rs1 rs2 : BitVec 5) (s : State) : Out :=
  alu t 0x0C rd rs1 rs2 (fun a b => mulHigh a.toNat b.toNat) s
def execDiv (t : Nat) (rd rs1 rs2 : BitVec 5) (s : State) : Out := alu t 0x0D rd rs1 rs2 divS s
def execDivu (t : Nat) (rd rs1 rs2 : BitVec 5) (s : State) : Out := alu t 0x0E rd rs1 rs2 divU s
def execRem (t : Nat) (rd rs1 rs2 : BitVec 5) (s : State) : Out := alu t 0x0F rd rs1 rs2 remS s
def execRemu (t : Nat) (rd rs1 rs2 : BitVec 5) (s : State) : Out := alu t 0x10 rd rs1 rs2 remU s
def execMin (t : Nat) (rd rs1 rs2 : BitVec 5) (s : State) : Out :=
  alu t 0x11 rd rs1 rs2 (fun a b => if a.toInt < b.toInt then a else b) s
def execMax (t : Nat) (rd rs1 rs2 : BitVec 5) (s : State) : Out :=
  alu t 0x12 rd rs1 rs2 (fun a b => if a.toInt < b.toInt then b else a) s
def execMinu (t : Nat) (rd rs1 rs2 : BitVec 5) (s : State) : Out :=
  alu t 0x13 rd rs1 rs2 (fun a b => if a.toNat < b.toNat then a else b) s
def execMaxu (t : Nat) (rd rs1 rs2 : BitVec 5) (s : State) : Out :=
  alu t 0x14 rd rs1 rs2 (fun a b => if a.toNat < b.toNat then b else a) s
def execClz (t : Nat) (rd rs1 : BitVec 5) (s : State) : Out :=
  alu t 0x15 rd rs1 0#5 (fun a _ => BitVec.ofNat 64 (leadZeros a)) s
def execCtz (t : Nat) (rd rs1 : BitVec 5) (s : State) : Out :=
  alu t 0x16 rd rs1 0#5 (fun a _ => BitVec.ofNat 64 (trailZeros a)) s
def execPopc (t : Nat) (rd rs1 : BitVec 5) (s : State) : Out :=
  alu t 0x17 rd rs1 0#5 (fun a _ => BitVec.ofNat 64 (popCount a)) s
def execShadd (t : Nat) (rd rs1 rs2 : BitVec 5) (sh : BitVec 6) (s : State) : Out :=
  alu t (0x40 + sh.toNat) rd rs1 rs2 (fun a b => a + (b <<< sh.toNat)) s

/-- Immediates of R290. -/
def sx16 (i : BitVec 16) : W64 := i.signExtend 64
def zx16 (i : BitVec 16) : W64 := i.zeroExtend 64

def aluImm (t op : Nat) (rd rs1 : BitVec 5) (imm : BitVec 16) (f : W64 → W64) (s : State) : Out :=
  compute t (encI op rd rs1 imm) [rs1] rd (fun c => f (c.r rs1)) s

def execAddi (t : Nat) (rd rs1 : BitVec 5) (imm : BitVec 16) (s : State) : Out :=
  aluImm t 0x02 rd rs1 imm (fun a => a + sx16 imm) s
def execAndi (t : Nat) (rd rs1 : BitVec 5) (imm : BitVec 16) (s : State) : Out :=
  aluImm t 0x03 rd rs1 imm (fun a => a &&& zx16 imm) s
def execOri (t : Nat) (rd rs1 : BitVec 5) (imm : BitVec 16) (s : State) : Out :=
  aluImm t 0x04 rd rs1 imm (fun a => a ||| zx16 imm) s
def execXori (t : Nat) (rd rs1 : BitVec 5) (imm : BitVec 16) (s : State) : Out :=
  aluImm t 0x05 rd rs1 imm (fun a => a ^^^ zx16 imm) s

/-- The shift that imm16[15:14] of SHI selects (R292). -/
def shiftBy (op : BitVec 2) (a : W64) (n : Nat) : W64 :=
  match op.toNat with
  | 0 => a <<< n
  | 1 => a >>> n
  | 2 => a.sshiftRight n
  | _ => rotr a n

def execShi (t : Nat) (rd rs1 : BitVec 5) (op : BitVec 2) (sh : BitVec 6) (s : State) : Out :=
  aluImm t 0x06 rd rs1 (BitVec.ofNat 16 (op.toNat * 2 ^ 14 + sh.toNat)) (fun a => shiftBy op a sh.toNat) s
def execCat16 (t : Nat) (rd rs1 : BitVec 5) (imm : BitVec 16) (s : State) : Out :=
  aluImm t 0x07 rd rs1 imm (fun a => (a <<< 16) + zx16 imm) s
def execAddh (t : Nat) (rd rs1 : BitVec 5) (imm : BitVec 16) (s : State) : Out :=
  aluImm t 0x08 rd rs1 imm (fun a => a + (sx16 imm <<< 16)) s
def execMadd (t : Nat) (rd rs1 rs2 rs3 : BitVec 5) (s : State) : Out :=
  compute t (encR4 0x09 rd rs1 rs2 rs3) [rs1, rs2, rs3] rd (fun c => c.r rs1 + c.r rs2 * c.r rs3) s

/-- Field of W bits at POS (R296). -/
def fieldMask (pos w : Nat) : W64 := BitVec.ofNat 64 ((2 ^ w - 1) * 2 ^ pos)

def execFext (t : Nat) (rd rs1 : BitVec 5) (pos wm1 : BitVec 6) (s : State) : Out :=
  compute t (encF rd rs1 pos wm1 false) [rs1] rd
    (fun c => (c.r rs1 >>> pos.toNat) &&& fieldMask 0 (wm1.toNat + 1)) s
def execFins (t : Nat) (rd rs1 : BitVec 5) (pos wm1 : BitVec 6) (s : State) : Out :=
  compute t (encF rd rs1 pos wm1 true) [rs1] rd
    (fun c => let m := fieldMask pos.toNat (wm1.toNat + 1)
      (c.r rd &&& ~~~m) ||| ((c.r rs1 <<< pos.toNat) &&& m)) s

/-- Tests of R294. -/
def testCond (cond : Nat) (a b : W64) : Bool :=
  match cond with
  | 0 => a == b
  | 1 => a != b
  | 2 => decide (a.toInt < b.toInt)
  | 3 => decide (a.toInt ≥ b.toInt)
  | 4 => decide (a.toNat < b.toNat)
  | _ => decide (a.toNat ≥ b.toNat)

def execCmp (t : Nat) (pd cond : BitVec 3) (rs1 rs2 : BitVec 5) (s : State) : Out :=
  issue t (encR 0x0B (BitVec.ofNat 5 pd.toNat) rs1 rs2 cond.toNat) [rs1, rs2]
    (fun s c => .done s (c.setP pd (testCond cond.toNat (c.r rs1) (c.r rs2))).next) s
def execCmpi (t : Nat) (pd cond : BitVec 3) (rs1 : BitVec 5) (imm : BitVec 15) (s : State) : Out :=
  issue t (encP pd cond rs1 imm) [rs1]
    (fun s c => .done s (c.setP pd (testCond cond.toNat (c.r rs1) (imm.signExtend 64))).next) s
def execPlog (t : Nat) (pd ps1 ps2 : BitVec 3) (n1 n2 : Bool) (f : BitVec 2) (s : State) : Out :=
  issue t (encPlog pd ps1 ps2 n1 n2 f) [] (fun s c =>
    let a := (c.p ps1) ^^ n1
    let b := (c.p ps2) ^^ n2
    let v := match f.toNat with | 0 => a && b | 1 => a || b | _ => a ^^ b
    .done s (c.setP pd v).next) s
def execSel (t : Nat) (rd rs1 rs2 : BitVec 5) (p : BitVec 3) (s : State) : Out :=
  compute t (encR 0x0E rd rs1 rs2 (p.toNat * 2 ^ 8)) [rs1, rs2] rd (fun c => if c.p p then c.r rs1 else c.r rs2) s

/-! ## DMEM (R300) -/

/-- Reading order of the checks of an offset: alignment first. -/
def dmemCheck (a : W64) (size : Nat) : Option Nat :=
  if a.toNat % size ≠ 0 then some tDMEM_ALIGN else if a.toNat ≥ 0x10000 then some tDMEM_RANGE else none

/-- An uncorrectable DMEM word met at an access to offset a (R158). -/
def State.dmemUe (s : State) (t wd : Nat) (a : W64) : Issue :=
  .trap (s.coreUe t .dmem wd) tDMEM_UE a

/-- Value of size bytes, sign- or zero-extended. -/
def extendTo (size : Nat) (signed : Bool) (v : Nat) : W64 :=
  if signed ∧ v ≥ 2 ^ (8 * size - 1) then BitVec.ofInt 64 ((v : Int) - 2 ^ (8 * size)) else BitVec.ofNat 64 v

def load (t op size : Nat) (signed : Bool) (rd rs1 : BitVec 5) (imm : BitVec 16) (s : State) : Out :=
  issue t (encI op rd rs1 imm) [rd, rs1] (fun s c =>
    let a := c.r rs1 + sx16 imm
    match dmemCheck a size with
    | some code => .trap s code a
    | none =>
      let x := s.tile t
      let m := x.mem .dmem
      match m.badIn a.toNat size with
      | some wd => s.dmemUe t wd a
      | none =>
        let n := m.weakIn a.toNat size
        let s := if n = 0 then s else (s.setTile t (x.setMem .dmem (m.heal a.toNat size))).coreCe t n
        .done s (c.w rd (extendTo size signed (Bytes.rdNat x.dmem a.toNat size))).next) s

def execLdb (t : Nat) (rd rs1 : BitVec 5) (imm : BitVec 16) (s : State) : Out := load t 0x10 1 true rd rs1 imm s
def execLdh (t : Nat) (rd rs1 : BitVec 5) (imm : BitVec 16) (s : State) : Out := load t 0x11 2 true rd rs1 imm s
def execLdw (t : Nat) (rd rs1 : BitVec 5) (imm : BitVec 16) (s : State) : Out := load t 0x12 4 true rd rs1 imm s
def execLdd (t : Nat) (rd rs1 : BitVec 5) (imm : BitVec 16) (s : State) : Out := load t 0x13 8 false rd rs1 imm s
def execLdbu (t : Nat) (rd rs1 : BitVec 5) (imm : BitVec 16) (s : State) : Out := load t 0x14 1 false rd rs1 imm s
def execLdhu (t : Nat) (rd rs1 : BitVec 5) (imm : BitVec 16) (s : State) : Out := load t 0x15 2 false rd rs1 imm s
def execLdwu (t : Nat) (rd rs1 : BitVec 5) (imm : BitVec 16) (s : State) : Out := load t 0x16 4 false rd rs1 imm s

def store (t op size : Nat) (rs rs1 : BitVec 5) (imm : BitVec 16) (s : State) : Out :=
  issue t (encI op rs rs1 imm) [rs, rs1] (fun s c =>
    let a := c.r rs1 + sx16 imm
    match dmemCheck a size with
    | some code => .trap s code a
    | none =>
      let x := s.tile t
      let m := x.mem .dmem
      match m.badMerge a.toNat size with
      | some wd => s.dmemUe t wd a
      | none =>
        let n := m.weakMerge a.toNat size
        let s := (s.setTile t (x.setMem .dmem (m.write a.toNat (leBytes size (c.r rs).toNat)))).coreCe t n
        .done s c.next) s

def execStb (t : Nat) (rs rs1 : BitVec 5) (imm : BitVec 16) (s : State) : Out := store t 0x18 1 rs rs1 imm s
def execSth (t : Nat) (rs rs1 : BitVec 5) (imm : BitVec 16) (s : State) : Out := store t 0x19 2 rs rs1 imm s
def execStw (t : Nat) (rs rs1 : BitVec 5) (imm : BitVec 16) (s : State) : Out := store t 0x1A 4 rs rs1 imm s
def execStd (t : Nat) (rs rs1 : BitVec 5) (imm : BitVec 16) (s : State) : Out := store t 0x1B 8 rs rs1 imm s

/-! ## Local memory (R301 - R303) -/

/-- Checks at issue: alignment, then the segment. A VPC has no job, and so no segment (DEDUCED, log entry 61). -/
def State.globalCheck (s : State) (t : Nat) (a : W64) (size : Nat) (write : Bool) : Option Nat :=
  if a.toNat % size ≠ 0 then some tGLOBAL_ALIGN
  else if !isVpc t && s.segOk (s.jobOf t) a.toNat size write then none
  else some tSEGMENT

def globalAccess (t w : Nat) (regs : List (BitVec 5)) (rs1 : BitVec 5) (size : BitVec 2) (imm : BitVec 13)
    (acc : Core → OutAcc) (s : State) : Out :=
  issue t w regs (fun s c =>
    let a := c.r rs1 + imm.signExtend 64
    match s.globalCheck t a (2 ^ size.toNat) (acc c).store with
    | some code => .trap s code a
    | none =>
      if c.out.length ≥ 8 then .stay 7
      else .done s { c with out := c.out ++ [{ acc c with pc := c.pc, addr := a.toNat, size := 2 ^ size.toNat }] }.next) s

def execLdg (t : Nat) (rd rs1 : BitVec 5) (size : BitVec 2) (sx : Bool) (imm : BitVec 13) (s : State) : Out :=
  globalAccess t (encG 0x1C rd rs1 size sx imm) [rd, rs1] rs1 size imm
    (fun _ => ⟨false, 0, 0, 0, sx, rd, 0#64, false⟩) s
def execStg (t : Nat) (rs rs1 : BitVec 5) (size : BitVec 2) (imm : BitVec 13) (s : State) : Out :=
  globalAccess t (encG 0x1D rs rs1 size false imm) [rs, rs1] rs1 size imm
    (fun c => ⟨true, 0, 0, 0, false, 0#5, c.r rs, false⟩) s

/-- Outstanding access k of a core, where no earlier one to its granule is still to take effect (R302). -/
def Core.access (c : Core) (k : Nat) (store : Bool) : Option OutAcc :=
  match c.out[k]? with
  | some o =>
    if o.store == store && !o.refused && (c.out.take k).all (fun e => e.refused || e.addr / 64 != o.addr / 64) then some o
    else none
  | none => none

/-- The core's requests act for its job. -/
def State.coreWho (s : State) (t : Nat) : Who := ⟨.ldg, some (s.jobOf t), s.ltile t, some 4⟩

/-- The access of outstanding entry k is made: done with its result, refused (R303), or stopped by a fatal trap or
fault. -/
def State.access {α : Type} (s : State) (t k : Nat) (o : OutAcc) (x : EM α) (done : State → Core → α → Core) : State :=
  match x.go s with
  | (.ok v, s') =>
    let c := s'.core t
    s'.setCore t (done s' { c with out := c.out.eraseIdx k } v)
  | (.error (.bus _), s') =>
    let c := s'.core t
    let c := { c with out := listSet c.out k { o with refused := true } }
    s'.setCore t (if o.store then c else c.w o.rd 0#64)
  | (.error (.poison _), s') => s'.trap t ⟨tPOISON, BitVec.ofNat 64 o.addr, o.pc, false, false, false⟩
  | (.error (.fatal cause r), s') => (s'.tileFault t 0).fatalFault cause r
  | (.error .wait, _) => s
  | (.error (.seg _), s') => s'
  | (.error (.halt _), s') => s'

/-- The data of an outstanding LDG arrives (R287). -/
def execLdgDataArrival (t k : Nat) (s : State) : Out :=
  if s.loaded t ∧ s.up then
    match (s.core t).access k false with
    | some o => .next (s.access t k o (readSpan (s.coreWho t) o.size o.addr o.size)
        (fun _ c bs => c.w o.rd (extendTo o.size o.sx (leNat bs))))
    | none => .next s
  else .next s

/-- An outstanding STG is applied and completes (R475). -/
def execStgApplied (t k : Nat) (s : State) : Out :=
  if s.loaded t ∧ s.up then
    match (s.core t).access k true with
    | some o => .next (s.access t k o (writeSpan (s.coreWho t) o.size o.addr (leBytes o.size o.data.toNat))
        (fun _ c _ => c))
    | none => .next s
  else .next s

/-- The BUS trap of refused accesses, once none is left to complete (R303); END does not hold it back, and keeps its own
effect (R320). -/
def execBusTrap (t : Nat) (s : State) : Out :=
  let c := s.core t
  match c.out with
  | o :: rest =>
    if s.unheld t ∧ c.out.all (·.refused) then
      .next ((s.setCore t { c with out := [] }).trap t
        ⟨tBUS, BitVec.ofNat 64 o.addr, o.pc, true, !rest.isEmpty, false⟩)
    else .next s
  | [] => .next s

/-! ## Transfers (R298, R299) -/

/-- A transfer to a target: the core that it leaves has PC there, or it traps and writes nothing. -/
def transferTo (s : State) (c : Core) (target : W64) : Issue :=
  if target.toNat % 4 ≠ 0 ∨ target.toNat ≥ 0x10000 then .trap s tFETCH_RANGE target
  else .done s { c with pc := target.toNat }

/-- PC + 4 × off (R298). -/
def Core.rel (c : Core) (off : Int) : W64 := BitVec.ofInt 64 (c.pc + 4 * off)

def execBr (t : Nat) (ps : BitVec 3) (neg : Bool) (off : BitVec 22) (s : State) : Out :=
  issue t (encB ps neg off) [] (fun s c =>
    if (c.p ps) ^^ neg then transferTo s c (c.rel off.toInt) else .done s c.next) s
/-- BDEC (R298): the branch tests the new rd, which reads zero where rd is s0 (R282; DEDUCED, log entry 73). -/
def execBdec (t : Nat) (rd : BitVec 5) (off : BitVec 21) (s : State) : Out :=
  issue t (encU 0x21 rd off) [rd] (fun s c =>
    let v := c.r rd - 1#64
    let c' := c.w rd v
    if (if rd = 0#5 then 0#64 else v) ≠ 0#64 then transferTo s c' (c.rel off.toInt) else .done s c'.next) s
def execJal (t : Nat) (rd : BitVec 5) (off : BitVec 21) (s : State) : Out :=
  issue t (encU 0x22 rd off) [rd] (fun s c =>
    transferTo s (c.w rd (BitVec.ofNat 64 (c.pc + 4))) (c.rel off.toInt)) s
def execJalr (t : Nat) (rd rs1 : BitVec 5) (imm : BitVec 16) (s : State) : Out :=
  issue t (encI 0x23 rd rs1 imm) [rd, rs1] (fun s c =>
    transferTo s (c.w rd (BitVec.ofNat 64 (c.pc + 4))) (c.r rs1 + sx16 imm)) s

/-! ## System (R319 - R323, R328 - R331) -/

/-- The job of tile t permits debug (R330). -/
def State.dbgPermit (s : State) (t : Nat) : Bool := s.loaded t && s.flag (LDR_JOB_ATTR.DEBUG (s.jobOf t))

def execTrap (t : Nat) (imm : BitVec 8) (s : State) : Out :=
  issue t (encSys 0#5 0#5 imm 0) [] (fun s _ => .trap s tSOFTWARE (imm.zeroExtend 64)) s

/-- ERET (R328): illegal outside a handler (R324); an EPC that is no multiple of 4 traps. -/
def execEret (t : Nat) (s : State) : Out :=
  issue t (encSys 0#5 0#5 0#8 1) [] (fun s c =>
    if !c.inTrap then .trap s tILLEGAL (BitVec.ofNat 64 (encSys 0#5 0#5 0#8 1))
    else transferTo s { c with inTrap := false, imprecise := false, multiBus := false, past := false } c.epc) s

def execCsrr (t : Nat) (rd : BitVec 5) (num : BitVec 8) (s : State) : Out :=
  issue t (encSys rd 0#5 num 2) [rd] (fun s c => .done s (c.w rd (s.csr t c num.toNat)).next) s

def execCsrw (t : Nat) (rs1 : BitVec 5) (num : BitVec 8) (s : State) : Out :=
  issue t (encSys 0#5 rs1 num 3) [rs1] (fun s c => .done s (c.setCsr num.toNat (c.r rs1)).next) s

/-- END (R320). -/
def execEndTile (t : Nat) (s : State) : Out :=
  issue t (encSys 0#5 0#5 0#8 4) [] (fun s c => .done s { c.next with ended := true }) s

/-- BRK (R330). -/
def execBrk (t : Nat) (s : State) : Out :=
  issue t (encSys 0#5 0#5 0#8 5) [] (fun s c =>
    .done s (if s.dbgPermit t then { c.next with dbgHalted := true } else c.next)) s

/-- Debug control acts on core t: its job permits debug, or it is a VPC, whose window takes ZEN's writes (R336; DEDUCED,
log entry 61). -/
def State.dbgOpen (s : State) (t : Nat) : Bool := isVpc t || s.dbgPermit t

/-- HALT_REQ stops issue at the next instruction boundary (R330, R331): here, at once. -/
def State.haltReq (s : State) (t : Nat) : State :=
  if s.dbgOpen t then s.setCore t { s.core t with dbgHalted := true, dbgStep := false } else s

/-- RESUME clears DBG_HALTED. -/
def State.dbgResume (s : State) (t : Nat) : State :=
  if isVpc t || s.loaded t then s.setCore t { s.core t with dbgHalted := false, dbgStep := false } else s

/-- STEP lets one instruction issue while DBG_HALTED is 1. -/
def State.dbgStep (s : State) (t : Nat) : State :=
  if s.dbgOpen t && (s.core t).dbgHalted then s.setCore t { s.core t with dbgHalted := false, dbgStep := true } else s

/-- Offset of core t's PIL_DBG_CTL. -/
def dbgCtlAt (t : Nat) : Nat := if isVpc t then VPC_DBG_CTL.at (t - 200) else PIL_DBG_CTL.at t

/-- Debug control takes writes from the companion and ZEN (R24), and a VPC's from ZEN alone (R336). -/
def execHaltReq (by_ : Agent) (t : Nat) (s : State) : Out :=
  .next (if s.accepts by_ (dbgCtlAt t) then s.haltReq t else s)
def execDbgStep (by_ : Agent) (t : Nat) (s : State) : Out :=
  .next (if s.accepts by_ (dbgCtlAt t) then s.dbgStep t else s)
def execDbgResume (by_ : Agent) (t : Nat) (s : State) : Out :=
  .next (if s.accepts by_ (dbgCtlAt t) then s.dbgResume t else s)

/-- ILLEGAL_INSTRUCTION (R291): the word at PC is no legal encoding. -/
def execIllegalInstruction (t : Nat) (s : State) : Out :=
  let w := s.word t
  if (s.core t).pc < 0x10000 ∧ legalOn t w then .next s
  else issue t w [] (fun _ _ => .stay 0) s

end Sys2Proof.Machine
end

