-- ==== Sys2Proof/Machine/PileusUnits.lean ====
section
/-! DEFINITION. Pileus instructions that reach other units: PUSH (R305 - R308), tokens (R309, R310), fences (R311,
R312), Cloudbank ranges (R313 - R315) and IFILL (R316 - R318). -/
namespace Sys2Proof.Machine

/-! ## PUSH -/

/-- Entries a command takes in a queue (R240, R306). -/
def cmdEntries (c : List W64) : Nat := if cKind c = kATT ∨ cKind c = kVATT then 2 else 1

/-- Entries occupied in a queue (R240). -/
def Queue.depth (q : Queue) : Nat := (q.entries.map cmdEntries).sum

/-- A byte range lies inside one segment of the job, whatever its permissions (R308). -/
def State.inSeg (s : State) (j : Nat) (p : Int × Int) : Bool :=
  decide (0 ≤ p.1) && decide (p.2 < 2 ^ 48) && (s.segOf j p.1.toNat ((p.2 - p.1).toNat + 1)).isSome

/-- The first range that R308's check of a command finds outside the job's segments. -/
def State.pushBad (s : State) (j : Nat) (c : List W64) : Option Int :=
  if cKind c = kVIEW then
    let v := View.ofWords c
    if v.fmtc ≠ 0 ∧ (Fmt.ofCode v.fmtc).isSome ∧ v.layout ≤ 4 then
      (v.spans.find? (fun p => !s.inSeg j p)).map (·.1)
    else none
  else if cKind c = kVATT ∨ cKind c = kVKVA then
    let a := cf c 4 47 0
    match s.segOf j a 1 with
    | some i => if (s.seg j i).cls = 1 then none else some a
    | none => some a
  else none

/-- The queue number of a PUSH (R305). -/
def pushQ (c : Core) (rs2 : BitVec 5) (qr : Bool) (q : BitVec 5) : Nat :=
  if qr then (c.r rs2).toNat else q.toNat

/-- Words of a command block at a DMEM offset. -/
def TileState.block (x : TileState) (a n : Nat) : List W64 :=
  (List.range (n / 8)).map (fun i => BitVec.ofNat 64 (Bytes.rdNat x.dmem (a + 8 * i) 8))

/-- Bytes of the command block whose first word stands at an offset (R306). -/
def TileState.blockBytes (x : TileState) (a : Nat) : Nat :=
  let k := cKind [BitVec.ofNat 64 (Bytes.rdNat x.dmem a 8)]
  if k = kATT ∨ k = kVATT then 128 else 64

/-- A command entered in a queue. -/
def TileState.enqueue (x : TileState) (q : Nat) (c : List W64) : TileState :=
  let y := x.queue q
  x.setQueue q { y with entries := y.entries ++ [c], pushed := y.pushed + 1#16 }

/-- PUSH (R305 - R308): its checks, then the block copied whole where the queue has room (R248). -/
def pushIssue (t w : Nat) (rs1 rs2 : BitVec 5) (qr : Bool) (qn : BitVec 5) (s : State) (c : Core) : Issue :=
  let q := pushQ c rs2 qr qn
  let a := c.r rs1
  let x := s.tile t
  if q > 26 then .trap s tILLEGAL (BitVec.ofNat 64 w)
  else if a.toNat % 64 ≠ 0 then .trap s tDMEM_ALIGN a
  else if a.toNat ≥ 0x10000 then .trap s tDMEM_RANGE a
  else match (x.mem .dmem).badIn a.toNat 8 with
    | some wd => s.dmemUe t wd a
    | none =>
      let n := x.blockBytes a.toNat
      if a.toNat + n > 0x10000 then .trap s tDMEM_RANGE a
      else match (x.mem .dmem).badIn a.toNat n with
        | some wd => s.dmemUe t wd a
        | none =>
          let b := x.block a.toNat n
          match s.pushBad (s.jobOf t) b with
          | some p => .trap s tSEGMENT (BitVec.ofInt 64 p)
          | none =>
            if (x.queue q).depth + cmdEntries b > 32 then .stay 2
            else
              let k := (x.mem .dmem).weakIn a.toNat n
              let x := if k = 0 then x else x.setMem .dmem ((x.mem .dmem).heal a.toNat n)
              .done ((s.setTile t (x.enqueue q b)).anvCe t k) c.next

/-- A PUSH that stalls is counted once, as it begins to wait (event 13). -/
def countStall (t : Nat) (s s' : State) : State :=
  if (s.core t).stall ≠ 2 ∧ (s'.core t).stall = 2 then s'.anvEvent t 13 1 else s'

def execPush (t : Nat) (rs1 rs2 : BitVec 5) (qr : Bool) (q : BitVec 5) (s : State) : Out :=
  let w := encPush rs1 rs2 qr q
  .next (countStall t s (s.issueWord t w (if qr then [rs1, rs2] else [rs1]) (pushIssue t w rs1 rs2 qr q)))

/-- A stalled PUSH is performed when its queue has room (R248): the PUSH at PC is tried again. -/
def execPushRoomFree (t : Nat) (s : State) : Out :=
  let w := s.word t
  if (s.core t).stall = 2 ∧ bitsOf w 31 26 = 0x28 then
    let rs1 := BitVec.ofNat 5 (bitsOf w 25 21)
    let rs2 := BitVec.ofNat 5 (bitsOf w 20 16)
    issue t w [rs1] (pushIssue t w rs1 rs2 (bitsOf w 15 15 == 1) (BitVec.ofNat 5 (bitsOf w 14 10))) s
  else .next s

/-! ## Tokens -/

/-- An STG has issued and not completed. -/
def Core.storing (c : Core) : Bool := c.out.any (·.store)

/-- TSIG (R309). -/
def execTsig (t : Nat) (rs : BitVec 5) (tok inc : BitVec 8) (s : State) : Out :=
  issue t (encTok rs 0 tok inc) [] (fun s c =>
    if c.storing then .stay 8
    else .done (s.setTile t ((s.tile t).signal tok.toNat inc.toNat)) c.next) s

/-- TWAIT (R310, R242). -/
def execTwait (t : Nat) (rs : BitVec 5) (tok : BitVec 8) (s : State) : Out :=
  issue t (encTok rs 1 tok 0#8) [rs] (fun s c =>
    let v := (c.r rs).toNat % 2 ^ 16
    if ((SMap.get 0#16 (s.tile t).tok tok.toNat).toNat + 2 ^ 16 - v) % 2 ^ 16 < 2 ^ 15 then .done s c.next
    else .stay 3) s

/-! ## Fences (R311, R312) -/

/-- Every command that the core pushed has completed. -/
def TileState.drained (x : TileState) : Bool :=
  x.queues.all (fun p => p.2.entries.isEmpty && p.2.held.isEmpty && p.2.flight.isEmpty)

/-- Every FOP that the core pushed has completed at its remote node; a VPC pushes none (R335). -/
def State.remoteDone (s : State) (t : Nat) : Bool :=
  isVpc t ||
  let q := (s.tile t).queue 26
  let fop := fun c : List W64 => cKind c == kFOP
  (!q.entries.any fop && !q.held.any fop && !q.flight.any (fun f => fop f.cmd && f.st != .done) &&
    (s.fopsRemote (s.jobOf t) (s.ltile t)).isEmpty)

def fence (t kind : Nat) (holds : State → Core → Bool) (s : State) : Out :=
  issue t (encFence kind) [] (fun s c => if holds s c then .done s c.next else .stay 4) s

def execFenceLocal (t : Nat) (s : State) : Out := fence t 0 (fun _ c => c.out.isEmpty) s
def execFenceDrain (t : Nat) (s : State) : Out := fence t 1 (fun s _ => (s.tile t).drained) s
def execFenceRemote (t : Nat) (s : State) : Out := fence t 2 (fun s c => !c.storing && s.remoteDone t) s
def execFenceAll (t : Nat) (s : State) : Out :=
  fence t 3 (fun s c => c.out.isEmpty && (s.tile t).drained && s.remoteDone t) s

/-! ## Cloudbank ranges -/

def clb (t : Nat) (rs1 rs2 : BitVec 5) (rel : Bool) (tok : BitVec 8) (sig : Bool) (s : State) : Out :=
  issue t (encClb rs1 rs2 rel tok sig) [rs1, rs2] (fun s c =>
    let a := c.r rs1
    let n := (c.r rs2).toNat
    if n ≠ 0 ∧ !(decide (a.toNat + n ≤ 2 ^ 48) && s.segOk (s.jobOf t) a.toNat n false) then .trap s tSEGMENT a
    else .done s { c with clbs := c.clbs ++ [(⟨!rel, a.toNat, n, sig, tok⟩ : ClbOp)] }.next) s

def execAcquire (t : Nat) (rs1 rs2 : BitVec 5) (tok : BitVec 8) (sig : Bool) (s : State) : Out :=
  clb t rs1 rs2 false tok sig s
def execRelease (t : Nat) (rs1 rs2 : BitVec 5) (tok : BitVec 8) (sig : Bool) (s : State) : Out :=
  clb t rs1 rs2 true tok sig s

/-- Cached lines of job j that overlap a range. -/
def State.linesIn (s : State) (j a n : Nat) : List Nat :=
  (s.cache.filter (fun p => p.1 / 2 ^ 40 == j && n != 0 && decide (p.1 % 2 ^ 40 * 256 < a + n) &&
    decide (a < p.1 % 2 ^ 40 * 256 + 256))).map (fun p => p.1 % 2 ^ 40)

/-- One line of a CLB (R314): written back, and discarded by an ACQUIRE. An uncorrectable granule met in it is treated
under R356. -/
def clbLine (who : Who) (j line : Nat) (acquire : Bool) : EM Unit := do
  for g in [0, 1, 2, 3] do checkGranule j line g
  writeBackLine who j line
  if acquire then modify (fun s => s.setLine j line CLine.zero)

/-- The oldest CLB of a core completes and signals (R315). -/
def execClbComplete (t : Nat) (s : State) : Out :=
  match (s.core t).clbs with
  | o :: rest =>
    if s.loaded t ∧ s.up then
      rowOf (do
        let j := s.jobOf t
        for line in s.linesIn j o.base o.len do clbLine (s.coreWho t) j line o.acquire
        modify (fun s =>
          let s := s.setCore t { s.core t with clbs := rest }
          if o.sig then s.setTile t ((s.tile t).signal o.tok.toNat 1) else s)) s
    else .next s
  | [] => .next s

/-! ## IFILL -/

/-- IFILL begins its copy, or traps (R316); it holds issue until the copy is complete (DEDUCED, log entry 66). -/
def execIfill (t : Nat) (rs1 rs2 : BitVec 5) (s : State) : Out :=
  issue t (encIfill rs1 rs2) [rs1, rs2] (fun s c =>
    let a := c.r rs1
    let o := c.r rs2
    let okSeg := match s.segOf (s.jobOf t) a.toNat 4096 with
      | some i => (s.seg (s.jobOf t) i).cls == 3 && (s.seg (s.jobOf t) i).pr
      | none => false
    if a.toNat % 4096 ≠ 0 ∨ !okSeg then .trap s tSEGMENT a
    else if o.toNat % 4096 ≠ 0 ∨ o.toNat > 0xF000 then .trap s tFETCH_RANGE o
    else .done s { c with ifill := some (a.toNat, o.toNat) }) s

/-- The copy of an IFILL completes, and issue goes on at PC + 4 (R317); a page that no mirror serves traps (R318). A
source that is refused leaves the copy incomplete. -/
def execIfillCopyDone (t : Nat) (s : State) : Out :=
  match (s.core t).ifill with
  | some (a, o) =>
    if s.loaded t ∧ s.up then
      match (readSpan ⟨.ifill, some (s.jobOf t), s.ltile t, some 4⟩ 4096 a 4096).go s with
      | (.ok bs, s') =>
        let x := s'.tile t
        let x := x.setMem .imem ((x.mem .imem).write o bs)
        .next (s'.setTile t { x with core := { x.core.next with ifill := none } })
      | (.error (.poison _), s') =>
        let c := s'.core t
        .next ((s'.setCore t { c with ifill := none }).trapWhenDrained t
          (c.trapAt tFETCH_UE (BitVec.ofNat 64 a)))
      | (.error (.fatal k r), s') => .next ((s'.tileFault t 0).fatalFault k r)
      | (.error _, _) => .next s
    else .next s
  | none => .next s

end Sys2Proof.Machine
end

