-- ==== Sys2Proof/Machine/Msc.lean ====
section
/-! DEFINITION. Stack memory on its own: reads and writes (R395, R399), the merge buffer's write-backs (R400), far and
cached accesses (R354, R361), retrains (R369 - R371), migration (R372 - R376, R743, R748, R749), write holds (R378,
R380), the scrubber (R413 - R416), and the ERQ's consumption (R418). -/
namespace Sys2Proof.Machine

/-! ## Reads and writes -/

/-- Requesters whose read of a poisoned page is a fatal fault (R409, R410). -/
def reqFatal (k : Requester) : Bool := reqPoisonSev k none == 3

/-- Outcome of a read outside a command: a poisoned result for a job's requester is a fatal fault, whose record has been
written (R409, R410). -/
def readRow (who : Who) (x : EM Unit) (s : State) : Out :=
  match x.go s with
  | (.error (.poison a), s') =>
    if reqFatal who.kind ∧ s'.up then
      .next (s'.beginReset (some 4) ⟨0x05, 3, if s'.region a = .far then bCXP else bMSC,
        (if s'.region a = .far then (s'.farPort a).getD 0 else s'.stackOf (a / 4096)), who.job, a, 0#64⟩ (s'.erqSeq - 1#32))
    else .next s'
  | _ => rowOf x s

/-- The job on whose behalf a requester acts. -/
def reqWho (k : Requester) (j : Nat) : Who := ⟨k, if reqFatal k then some j else none, 255, some 6⟩

/-- STACK_READ (R395): the granule that holds addr is read on the direct path, with the mirror rule and the record of
R409. -/
def execStackRead (who : Requester) (j addr : Nat) (s : State) : Out :=
  if s.region addr = .stack then
    readRow (reqWho who j) (do
      let _ ← directRead (reqWho who j) (addr / 64 * 64) 64
      pure ()) s
  else .next s

/-- STACK_WRITE (R399): bytes of one page taken into the merge buffer. -/
def execStackWrite (who : Requester) (addr : Nat) (bytes : List Byte) (s : State) : Out :=
  if s.region addr = .stack ∧ addr % 4096 + bytes.length ≤ 4096 then rowOf (rawWrite (reqWho who 0) addr bytes) s
  else .next s

/-- MERGE_IDLE_TIMEOUT (R400, R403): 2 us after its last write an entry starts its write-back, but not in a write
hold. -/
def execMergeIdleTimeout (n c page : Nat) (s : State) : Out :=
  let gc := 32 * n + c
  if s.whold n ∨ !s.domRuns (dMSC n) then .next s
  else .next (s.setMergeBuf gc ((s.mergeBuf gc).map (fun e => if e.page = page then { e with wb := true } else e)))

/-- MERGE_WRITEBACK (R400, R404): an entry whose write-back has started, or whose granules are all written. -/
def execMergeWriteback (n c page : Nat) (s : State) : Out :=
  match (s.mergeBuf (32 * n + c)).find? (fun e => e.page == page) with
  | some e =>
    if (e.wb || e.mask == fullMask) && !s.whold n && !s.paused page && s.domRuns (dMSC n) then .next (s.writeBackEntry e) else .next s
  | none => .next s

/-- REFRESH (R366): a refresh of a bank keeps what its rows hold (pagePlace); the four burst slots it takes are
timing. -/
def execRefresh (_n _c _bank : Nat) (s : State) : Out := .next s

/-- FAR_ACCESS (R361, R362): a read of as many bytes, or a write of them, at the port that its decoder gives. -/
def execFarAccess (addr : Nat) (bytes : List Byte) (write : Bool) (s : State) : Out :=
  if s.region addr = .far ∧ addr % 64 + bytes.length ≤ 64 then
    rowOf (if write then farWrite addr bytes else do let _ ← farRead addr bytes.length; pure ()) s
  else .next s

/-- CACHE_ACCESS (R352 - R354): an access of one granule by a core or channel of job j to a segment that Cloudbank
caches. -/
def execCacheAccess (j addr : Nat) (bytes : List Byte) (write : Bool) (s : State) : Out :=
  let who : Who := ⟨.tdma, some j, 255, some 5⟩
  let n := bytes.length
  if n ≠ 0 ∧ addr % 64 + n ≤ 64 ∧ (s.cached who addr n).isSome ∧ s.segOk j addr n write ∧ s.up then
    readRow who (if write then cachedWrite who j addr bytes else do let _ ← cachedRead who j addr n; pure ()) s
  else .next s

/-- FLIT_RECEIVE (R172): a flit whose four attempts fail is an uncorrectable error in job state. It sets NET_UE of the
receiving tile; another receiving block, named by its BLOCK code and instance, writes a record of which the spec leaves
TYPE and DETAIL open (log entry 90). -/
def execFlitReceive (block inst badCrcs : Nat) (s : State) : Out :=
  if badCrcs < 4 then .next s
  else if block = bANV then
    let s := s.anvUe inst .net 7 0
    .next ((s.tileFault inst 0).fatalFault 4 (s.anvRec inst))
  else .next (s.fatalFault 4 ⟨(Config.lostFlitType block).toNat, 3, block, inst, none, 0, Config.lostFlitDetail block⟩)

/-! ## Retraining -/

def State.retrains (s : State) (n : Nat) : List Nat := SMap.get [] s.retrainQ n

def State.setRetrains (s : State) (n : Nat) (l : List Nat) : State :=
  { s with retrainQ := SMap.put [] s.retrainQ n l }

/-- FAILED_ANY shows whether some channel of stack n is FAILED (R383). -/
def State.showFailed (s : State) (n : Nat) : State :=
  s.setFlag (MSC_STATUS.FAILED_ANY n) ((List.range 32).any (fun c => s.f (MSC_CH_STATUS.STATE n c) == 2))

/-- The retrain of a channel begins (R370). -/
def State.beginRetrain (s : State) (n c : Nat) : State :=
  let s := (s.setF (MSC_CH_STATUS.STATE n c) 1).setF (MSC_CH_STATUS.FAILS n c) 0
  ((s.setFlag (MSC_STATUS.RETRAINING n) true).setF (MSC_STATUS.RT_CH n) c).showFailed n

/-- A retrain requested: at once, or waiting in channel order while another channel of the stack retrains (R370). -/
def State.requestRetrain (s : State) (n c : Nat) : State :=
  if s.flag (MSC_STATUS.RETRAINING n) then
    if s.f (MSC_STATUS.RT_CH n) = c then s else s.setRetrains n (addNum (s.retrains n) c)
  else s.beginRetrain n c

/-- The next waiting channel retrains, or none. -/
def State.nextRetrain (s : State) (n : Nat) : State :=
  let s := (s.setFlag (MSC_STATUS.RETRAINING n) false).setF (MSC_STATUS.RT_CH n) 0
  match s.retrains n with
  | c :: t => (s.setRetrains n t).beginRetrain n c
  | [] => s

/-- LINK_CRC_LIMIT (R369, R387): k link CRC errors of a channel since the last such command; LINK_CRC counts them, and a
channel whose count reaches 256 retrains. -/
def execLinkCrcLimit (n c k : Nat) (s : State) : Out :=
  let t := s.bumpSat (MSC_CH_STATUS.LINK_CRC n c) k
  .next (if s.f (MSC_CH_STATUS.LINK_CRC n c) < 256 ∧ 256 ≤ t.f (MSC_CH_STATUS.LINK_CRC n c) then t.requestRetrain n c else t)

/-- The measured DRAM temperature of a channel has moved 15 degrees since its last training (R369). -/
def execDramTemperatureMove (n c : Nat) (s : State) : Out := .next (s.requestRetrain n c)

/-- A write of GO to MSC_RETRAIN, from ZEN or the companion (R385). -/
def execMscRetrainGo (by_ : Agent) (n : Nat) (c : BitVec 5) (s : State) : Out :=
  .next (if s.accepts by_ (MSC_RETRAIN.at n) then s.requestRetrain n c.toNat else s)

/-- RETRAIN_ATTEMPT_END (R370, R371): success, another attempt, or FAILED with its record after three in a row, which
makes a migration due. -/
def execRetrainAttemptEnd (n : Nat) (ok : Bool) (s : State) : Out :=
  if s.flag (MSC_STATUS.RETRAINING n) then
    let c := s.f (MSC_STATUS.RT_CH n)
    if ok then
      let s := (s.setF (MSC_CH_STATUS.STATE n c) 0).setF (MSC_CH_STATUS.FAILS n c) 0
      let s := (s.setF (MSC_CH_STATUS.LINK_CRC n c) 0).bump (MSC_CH_STATUS.TRAINS n c) 1
      .next (((s.bump (MSC_STATUS.RETRAINS n) 1).showFailed n).nextRetrain n)
    else
      let s := s.bump (MSC_CH_STATUS.FAILS n c) 1
      if s.f (MSC_CH_STATUS.FAILS n c) = 3 then
        let s := (s.setF (MSC_CH_STATUS.STATE n c) 2).showFailed n
        let s := s.erq ⟨0x09, 2, bMSC, n, none, 0, BitVec.ofNat 64 (256 + c)⟩
        .next ((s.due 2 (32 * n + c)).nextRetrain n)
      else .next s
  else .next s

/-! ## Redirects and migration -/

/-- A redirect entry (R372). -/
def redirWord (st size srcCh srcJ dstCh dstR : Nat) : W64 :=
  let w := setFld (setFld (setFld 0#64 63 63 1) 62 61 st) 60 57 size
  setFld (setFld (setFld (setFld w 56 52 srcCh) 51 32 srcJ) 31 27 dstCh) 26 12 dstR

/-- Two ranges meet. -/
def meets (a n b m : Nat) : Bool := decide (a < b + m) && decide (b < a + n)

/-- Extents of channel c's pages from j of 2^k pages, cut so that none overlaps an extent in use (R373, R748). -/
def freeExtents (used : List (Nat × Nat)) : Nat → Nat → List (Nat × Nat)
  | 0, j => if used.any (fun u => meets j 1 u.1 u.2) then [] else [(j, 0)]
  | k + 1, j =>
    if used.any (fun u => meets j (2 ^ (k + 1)) u.1 u.2) then
      freeExtents used k j ++ freeExtents used k (j + 2 ^ k)
    else [(j, k + 1)]

/-- First free aligned reserve range of 2^k pages in a list of channels, given the ranges in use. -/
def placeExtent (used : List (Nat × Nat × Nat)) (k : Nat) : List Nat → Option (Nat × Nat)
  | [] => none
  | c :: cs =>
    let own := (used.filter (fun u => u.1 == c)).map (·.2)
    if own.isEmpty then some (c, 0)
    else match (List.range (2 ^ (15 - k))).find? (fun i => !own.any (fun u => meets (i * 2 ^ k) (2 ^ k) u.1 u.2)) with
      | some i => some (c, i * 2 ^ k)
      | none => placeExtent used k cs

/-- Redirect entries for a list of extents of channel c, or none where the reserve is too small (R743). -/
def placeAll (c : Nat) (chans : List Nat) : List (Nat × Nat × Nat) → List (Nat × Nat) → Option (List W64)
  | _, [] => some []
  | used, (j, k) :: t =>
    match placeExtent used k chans with
    | none => none
    | some (dc, r) =>
      match placeAll c chans ((dc, r, 2 ^ k) :: used) t with
      | none => none
      | some ws => some (redirWord 0 k c j dc r :: ws)

/-- Entries that a migration of pages of channel c of stack n would need (R743): its free reserve lies outside the
channel and outside FAILED channels (DEDUCED, log entry 23). -/
def State.planMigration (s : State) (n c : Nat) (exts : List (Nat × Nat)) : Option (List W64) :=
  let es := s.redirs n
  let used := es.map (fun e => (fld e.2 31 27, fld e.2 26 12, 2 ^ fld e.2 60 57))
  let chans := (List.range 32).filter (fun d => d != c && s.f (MSC_CH_STATUS.STATE n d) != 2)
  match placeAll c chans used exts with
  | some ws => if es.length + ws.length ≤ 4096 then some ws else none
  | none => none

/-- Extents in use of channel c's pages. -/
def State.usedExtents (s : State) (n c : Nat) : List (Nat × Nat) :=
  ((s.redirs n).filter (fun e => fld e.2 56 52 == c)).map (fun e => (fld e.2 51 32, 2 ^ fld e.2 60 57))

/-- Extents of a whole channel (R373): runs of 2^15 pages. -/
def State.channelExtents (s : State) (n c : Nat) : List (Nat × Nat) :=
  (List.range (s.stackPages / 32 / 2 ^ 15)).flatMap (fun i => freeExtents (s.usedExtents n c) 15 (i * 2 ^ 15))

/-- Lowest redirect entry that is not valid. -/
def State.freeRedir (s : State) (n : Nat) : Nat :=
  let used := (s.redirs n).map (·.1)
  ((List.range (used.length + 1)).find? (fun i => !used.contains i)).getD 0

/-- Step 1 of R374 for the next extent of a migration of stack n. -/
def State.startExtent (s : State) (n : Nat) : State :=
  match s.migTodo with
  | w :: t =>
    let i := s.freeRedir n
    let s := { s with migTodo := t }.setReg (MSC_REDIR.at n i) w
    ((s.setF (MSC_COPY.ENTRY n) i).setF (MSC_COPY.CP n) 0).setFlag (MSC_COPY.ACTIVE n) true
  | [] => s

/-- The service slot is released with a result (R741, R760). -/
def State.endAction (s : State) (result : Nat) : State :=
  match s.svc with
  | none => s
  | some (a, _) =>
    let s := { s with svc := none, svcHeld := false, migTodo := [] }
    let s := (s.setF ZEN_SVC_STATUS.STATE 0).setF ZEN_SVC_STATUS.RESULT result
    let s := s.setF ZEN_SVC_STATUS.LAST_ACTION a
    s.bump ZEN_SVC_STATUS.ACTIONS 1

/-- Page at index j of channel c, as a page number of its stack (R339, R340). -/
def pageAt (c j : Nat) : Nat :=
  32 * j + (c ^^^ (j % 32) ^^^ (j / 2 ^ 5 % 32) ^^^ (j / 2 ^ 10 % 32) ^^^ (j / 2 ^ 15 % 32))

/-- Bank and row of page index j of a channel, the same in both of its pseudo-channels (R338, R340). -/
def pageBank (j : Nat) : Nat := (j % 16) ^^^ (j / 2 ^ 10 % 16)
def pageRow (j : Nat) : Nat := j / 16

/-- Pseudo-channel, bank, row and burst that hold byte o of a page of a stack (R340): burst o div 256, its lower half in
PC0. -/
def pagePlace (page o : Nat) : Nat × Nat × Nat × Nat :=
  (o % 256 / 128, pageBank (page / 32), pageRow (page / 32), o / 256)

/-- What the copier writes for a page (R374, R376): the page as it is, corrected, its mirror's contents, or a poisoned
page with its records (R408, R409). -/
def State.copyOf (s : State) (gp : Nat) : Page × State :=
  let pg := s.page gp
  let n := s.stackOf gp
  let expect := s.stampOf gp
  match s.judgePage gp with
  | .zero => (pg, s)
  | .ok d k => (encodePage d pg.written pg.tag expect, s.countFixed gp k)
  | r =>
    let s := match r with
      | .bad _ _ => s.bumpSat (MSC_ECC_COUNT.UE n) 1
      | _ => s
    match s.otherRead gp with
    | (some d, s) =>
      let s := if tagPoison pg.tag then s.setF (MSC_POISONED.PAGES n) (s.f (MSC_POISONED.PAGES n) - 1) else s
      (encodePage d (~~~(0#64)) (withPoison pg.tag false) expect,
        s.erq ⟨0x03, 1, bMSC, n, none, gp * 4096, 3#64⟩)
    | (none, s) =>
      let s := s.bump (MSC_POISONED.PAGES n) (if tagPoison pg.tag then 0 else 1)
      let cause := if s.failed gp then 5 else 6
      let s := s.erq ⟨0x04, 2, bMSC, n, none, gp * 4096, BitVec.ofNat 64 (cause * 256 + tagClass pg.tag)⟩
      ({ pg with tag := withPoison pg.tag true, tagErrs := 0, stamp := expect },
        s.erq ⟨0x05, 2, bMSC, n, none, gp * 4096, BitVec.ofNat 64 (reqPoisonNo .copier)⟩)

/-- COPY_PAGE (R374 - R376, R398): the next page of the extent being copied passes through an entry of the target
channel's merge buffer to the reserve (DESIGN CHOICE, log entry 76); after the last one the redirect is ACTIVE, its record is
written, and the migration goes on with its next extent or is done. -/
def execCopyPage (n : Nat) (s : State) : Out :=
  if s.flag (MSC_COPY.ACTIVE n) ∧ !s.whold n ∧ s.domRuns (dMSC n) then
    let i := s.f (MSC_COPY.ENTRY n)
    let w := s.reg (MSC_REDIR.at n i)
    let cp := s.f (MSC_COPY.CP n)
    let gp := s.stackPages * n + pageAt (fld w 56 52) (fld w 51 32 + cp)
    if s.paused gp ∨ s.f (MSC_CH_STATUS.STATE n (fld w 31 27)) = 1 then .next s
    else match s.mergeRoom (32 * n + fld w 31 27) with
    | none => .next s
    | some s =>
      let (pg, s) := s.copyOf gp
      let s := { s with reserve := SMap.put Page.zero s.reserve (reserveKey n (fld w 31 27) (fld w 26 12 + cp)) pg }
      let s := s.setF (MSC_COPY.CP n) (cp + 1)
      if cp + 1 = 2 ^ fld w 60 57 then
        let s := (s.setF (MSC_REDIR.STATE n i) 1).setFlag (MSC_COPY.ACTIVE n) false
        let s := s.erq ⟨0x0A, 0, bMSC, n, none, 0, BitVec.ofNat 64 i⟩
        .next (if s.migTodo.isEmpty then s.endAction 1 else s.startExtent n)
      else .next s
  else .next s

/-! ## Write holds -/

def degC (b : BitVec 8) : Int := b.toInt

def State.winLo (s : State) (n : Nat) : Int := s.signed (MSC_TEMP.WIN_LO n)
def State.winHi (s : State) (n : Nat) : Int := s.signed (MSC_TEMP.WIN_HI n)

/-- WRITE_HOLD_BEGIN (R378, R380): a die measured outside the window. -/
def execWriteHoldBegin (n : Nat) (tmin tmax : BitVec 8) (s : State) : Out :=
  if !s.whold n ∧ (degC tmin < s.winLo n ∨ s.winHi n < degC tmax) then
    .next ((s.setFlag (MSC_TEMP.WHOLD n) true).erq ⟨0x08, 0, bMSC, n, none, 0, 1#64⟩)
  else .next s

/-- WRITE_HOLD_END (R380): every die 3 degrees inside the window. -/
def execWriteHoldEnd (n : Nat) (tmin tmax : BitVec 8) (s : State) : Out :=
  if s.whold n ∧ s.winLo n + 3 ≤ degC tmin ∧ degC tmax ≤ s.winHi n - 3 then
    .next ((s.setFlag (MSC_TEMP.WHOLD n) false).erq ⟨0x08, 0, bMSC, n, none, 0, 0#64⟩)
  else .next s

/-! ## The scrubber -/

/-- One page inspected (R413): what the scrubber leaves, or none while its write-back has no room (R403, R414) (DEDUCED,
log entry 22). -/
def State.scrubOne (s : State) (gp : Nat) : Option State :=
  let n := s.stackOf gp
  match s.judgePage gp with
  | .zero => some s
  | .poisoned => some s
  | .ok d k =>
    if k = 0 then some s
    else
      let w := (s.page gp).written
      let s := { s.countFixed gp k with lapCe := SMap.put 0 s.lapCe n (SMap.get 0 s.lapCe n + 1) }
      s.writeUnder gp d (writtenMask w)
  | .bad c p =>
    let s := { s.poisonPage gp c p with lapUe := SMap.put 0 s.lapUe n (SMap.get 0 s.lapUe n + 1) }
    match s.otherRead gp with
    | (some d, s) => (s.writeUnder gp d fullMask).map (fun s => s.erq ⟨0x03, 1, bMSC, n, none, gp * 4096, 3#64⟩)
    | (none, s) => some s

def State.scrubPos (s : State) (n c : Nat) : Nat := SMap.get 0 s.scrubAt (32 * n + c)

/-- End of a lap of stack n (R416): its results are loaded, and every scrubber starts again at page 0. -/
def State.endLap (s : State) (n lapMs : Nat) : State :=
  let s := (s.setF (MSC_SCRUB_LAP.LAST_MS n) lapMs).bump (MSC_SCRUB_LAP.LAPS n) 1
  let s := s.setF (MSC_SCRUB_RESULT.CE_PAGES n) (SMap.get 0 s.lapCe n)
  let s := s.setF (MSC_SCRUB_RESULT.UE_PAGES n) (SMap.get 0 s.lapUe n)
  let own := fun gp => s.stackOf gp == n
  let s := { s with scrubAt := SMap.dropRange s.scrubAt (32 * n) 32, lapCe := SMap.erase s.lapCe n,
                    lapUe := SMap.erase s.lapUe n, lapLate := dropNum s.lapLate n,
                    heavyPrev := (s.heavyNow.filter own).foldl addNum (s.heavyPrev.filter (fun g => !own g)),
                    heavyNow := s.heavyNow.filter (fun g => !own g) }
  if lapMs > s.f (MSC_SCRUB_CTL.TARGET_MS n) then s.erq ⟨0x07, 0, bMSC, n, none, 0, BitVec.ofNat 64 lapMs⟩ else s

/-- SCRUB_PAGE (R413 - R416): the scrubber of channel c visits its next page; lapMs is the lap's duration so far. The
pass of a channel waits at its end for those of the others. -/
def execScrubPage (n c lapMs : Nat) (s : State) : Out :=
  let pages := s.stackPages / 32
  let j := s.scrubPos n c
  let gp := s.stackPages * n + pageAt c j
  if n < 16 ∧ c < 32 ∧ s.flag (MSC_SCRUB_CTL.EN n) ∧ j < pages ∧ !s.paused gp ∧
      s.f (MSC_CH_STATUS.STATE n c) ≠ 1 ∧ s.domRuns (dMSC n) then
    match s.scrubOne gp with
    | none => .next s
    | some s =>
      let s := { s with scrubAt := SMap.put 0 s.scrubAt (32 * n + c) (j + 1) }
      .next (if (List.range 32).all (fun d => s.scrubPos n d == pages) then s.endLap n lapMs else s)
  else .next s

/-- SCRUB_TARGET_EXPIRY (R415): the lap has lasted longer than TARGET_MS, and the floor share applies until it ends. -/
def execScrubTargetExpiry (n : Nat) (s : State) : Out := .next { s with lapLate := addNum s.lapLate n }

/-! ## The ERQ and the end of a compute reset -/

/-- A write of v to ERQ_CONS (R418). -/
def State.erqConsume (s : State) (v : W32) : State :=
  if (v.toNat + 2 ^ 32 - s.erqCons) % 2 ^ 32 ≤ s.erqCount then s.setF ERQ_CONS.CONS v.toNat else s

/-- ERQ_CONSUME (R418): the companion consumes records, or the management controller while no port is trained. -/
def execErqConsume (by_ : Agent) (v : W32) (s : State) : Out :=
  .next (if s.accepts by_ ERQ_CONS.at ∧ (by_ ≠ .mc ∨ !s.dylUp) then s.erqConsume v else s)

/-- RESET_DONE (R603). The firmware of the VPCs is loaded by ZEN, which a ZEN restart delays. -/
def execResetDone (s : State) : Out := if s.zenUp then .next s.finishReset else .next s

end Sys2Proof.Machine
end

