-- ==== Sys2Proof/Machine/Jobs.lean ====
section
/-! DEFINITION. Scheduling and the life of a job (chapter 15): slices (R587 - R589), pre-emption, save and restore (R591 -
R596), holding and ending (R598 - R601), and the rounds of the pools (R584). -/
namespace Sys2Proof.Machine

/-! ## Choosing -/

/-- Jobs that ZEN holds from new slices while it moves a tile (R744). -/
def State.svcHolds (s : State) (j : Nat) : Bool :=
  s.svcHeld && (match s.svc with
    | some (1, t) => s.inSet j (s.ltile t)
    | _ => false)

/-- A job that waits for a slice. -/
def State.wants (s : State) (j : Nat) : Bool := s.jobState j == jSAVED && s.demandT j && !s.svcHolds j

/-- Chosen jobs that still want their slice (R588). -/
def State.waiting (s : State) : List Nat := s.chosen.filter s.wants

/-- Job a goes before job b: a higher balance, or the lower number on a tie (R586, R587). -/
def State.before (s : State) (a b : Nat) : Bool :=
  decide (s.balT a > s.balT b) || (s.balT a == s.balT b && decide (a < b))

/-- The conflicting job that takes over at the end of job j's slice (R587). -/
def State.rival (s : State) (j : Nat) : Option Nat :=
  bestJob s.balT (jobList.filter (fun k =>
    s.conflict j k && s.wants k && (decide (s.balT k ≥ 0) || decide (s.balT j < 0)) && decide (s.balT k > s.balT j)))

/-- Every tile of the set is free, and the group of each is on (R588, R699). -/
def State.tilesFree (s : State) (j : Nat) : Bool :=
  jobList.all (fun k => !s.conflict j k || (s.jobState k != jRESTORING && s.jobState k != jRUNNING && s.jobState k != jSAVING)) &&
    (s.tileSet j).all (fun l => match s.physOf l with
      | some t => !s.flag (ANV_STATUS.GROUP_OFF t)
      | none => false)

/-- EQX starts job j now: no job chosen earlier conflicts with it, and unless it was chosen itself, no waiting rival goes
before it (R586, R588). -/
def State.mayRestore (s : State) (j : Nat) : Bool :=
  s.up && s.wants j && s.tilesFree j &&
    (let ahead := s.waiting.takeWhile (fun k => k != j)
     !ahead.any (fun k => s.conflict j k)) &&
    (s.waiting.contains j || !jobList.any (fun k => s.conflict j k && s.wants k && s.before k j))

/-! ## Pre-emption -/

/-- Held commands return to the front of their queue, and are sent again without their waits (R591) (DEDUCED, log entry
27). -/
def Queue.withdraw (x : Queue) : Queue :=
  { x with entries := x.held ++ x.entries, held := [], sent := false,
           waived := x.held.length + max x.waived (if x.sent then 1 else 0),
           started := x.started - BitVec.ofNat 16 x.held.length }

def TileState.withdraw (x : TileState) : TileState :=
  { x with queues := x.queues.map (fun p => (p.1, if isRemoteQ p.1 then p.2.withdraw else p.2)),
           core := { x.core with ifill := none } }

/-- The SAVING indication of a job's tiles (R176). -/
def State.showSaving (s : State) (j : Nat) (b : Bool) : State :=
  (s.tileSet j).foldl (fun s l => s.setFlag (ANV_STATUS.SAVING (s.phys l)) b) s

/-- Pre-emption begins (R591). -/
def State.startSave (s : State) (j : Nat) : State :=
  if s.jobState j = jRUNNING then
    let s := (s.tileSet j).foldl (fun s l => s.setCtx j l (s.ctx j l).withdraw) s
    let s := (s.setF (EQX_JOB_STATUS.STATE j) jSAVING).bump (EQX_JOB_STATUS.SWITCHES j) 1
    s.showSaving j true
  else s

/-- SLICE_END (R587, R588, R598): the slice's beats are debited; a held job, or one that a rival or a chosen job
displaces, is pre-empted. -/
def execSliceEnd (j beats : Nat) (s : State) : Out :=
  if s.jobState j = jRUNNING ∧ s.up then
    let s := s.debitT j beats
    if s.flag (EQX_JOB_CTL.HOLD j) || s.svcHolds j || s.waiting.any (fun k => s.conflict j k) then .next (s.startSave j)
    else match s.rival j with
      | some k => .next ({ s with chosen := s.waiting ++ [k] }.startSave j)
      | none => .next s
  else .next s

/-- The core waits in a TWAIT whose condition does not hold, or has ended. -/
def State.coreIdle (s : State) (t : Nat) : Bool :=
  let x := s.tile t
  let c := x.core
  if c.ended then true
  else
    let w := s.word t
    let v := (c.r (BitVec.ofNat 5 (bitsOf w 25 21))).toNat % 2 ^ 16
    !c.dbgHalted && !c.stopped && c.ifill.isNone && decide (c.pc < 0x10000) && legalWord w &&
      bitsOf w 31 26 == 0x29 && bitsOf w 20 19 == 1 &&
      decide (((SMap.get 0#16 x.tok (bitsOf w 18 11)).toNat + 2 ^ 16 - v) % 2 ^ 16 ≥ 2 ^ 15)

/-- A tile set is idle (R589). -/
def State.setIdle (s : State) (j : Nat) : Bool :=
  (s.tileSet j).all (fun l => s.coreIdle (s.phys l) && (s.ctx j l).drained)

/-- IDLE_PREEMPT (R583, R589): an idle set is pre-empted and parked while a conflicting job has demand. -/
def execIdlePreempt (j beats : Nat) (s : State) : Out :=
  if s.jobState j = jRUNNING ∧ s.up ∧ s.setIdle j ∧ jobList.any (fun k => s.conflict j k && s.wants k) then
    let s := (s.debitT j beats).startSave j
    .next { s with parked := addNum s.parked j }
  else .next s

/-! ## Save and restore -/

/-- Registers of a tile that its save moves out (R591). -/
def tileLatches : List (Nat → Nat) :=
  [ANV_MXE_CFG.at, ANV_VXE_CFG.at, XWF_HALT_INFO.at, XWF_HALT_ADDR.at] ++
  (List.range 8).flatMap (fun ch => [fun t => ANV_DMA_HALT_INFO.at t ch, fun t => ANV_DMA_HALT_ADDR.at t ch]) ++
  (List.range 16).flatMap (fun n => [fun t => VRG_HALT_INFO.at n t, fun t => VRG_HALT_ADDR.at n t])

/-- Whether a saved tile holds a halt latch with VALID 1. -/
def TileState.haltSaved (x : TileState) : Bool :=
  ((XWF_HALT_INFO.at 0) :: (List.range 8).map (fun ch => ANV_DMA_HALT_INFO.at 0 ch) ++
    (List.range 16).map (fun n => VRG_HALT_INFO.at n 0)).any (fun o => bitAt (SMap.get 0#64 x.savedRegs o) 63)

/-- What a save leaves in the physical tile: its memories' contents. -/
def TileState.residue (x : TileState) : TileState :=
  { TileState.zero with imem := x.imem, dmem := x.dmem, spm := x.spm, imemBad := x.imemBad, dmemBad := x.dmemBad,
                        spmBad := x.spmBad, imemWeak := x.imemWeak, dmemWeak := x.dmemWeak, spmWeak := x.spmWeak }

/-- A tile's state moved to its save image, with its registers. -/
def State.saveTile (s : State) (j l : Nat) : State :=
  let t := s.phys l
  let x := s.tile t
  let regs := tileLatches.foldl (fun m (off : Nat → Nat) => SMap.put (regReset (off 0)) m (off 0) (s.reg (off t))) []
  let s := { s with saved := SMap.put TileState.zero s.saved (savedKey j l) { x with savedRegs := regs } }
  let s := (s.setTile t x.residue).resetRegs (tileLatches.map (fun (off : Nat → Nat) => off t))
  ((s.setFlag (ANV_ID.JOB_V t) false).setF (ANV_ID.JOB t) 0).setFlag (ANV_STATUS.SAVING t) false

/-- A save image moved into the tile, with its registers. -/
def State.loadTile (s : State) (j l : Nat) : State :=
  let t := s.phys l
  let x := SMap.get TileState.zero s.saved (savedKey j l)
  let s := tileLatches.foldl (fun s (off : Nat → Nat) => s.setReg (off t) (SMap.get (regReset (off 0)) x.savedRegs (off 0))) s
  let s := { s with saved := SMap.erase s.saved (savedKey j l) }
  (s.setTile t { x with savedRegs := [] }).setFlag (ANV_STATUS.SAVING t) false

/-- HALTS_SAVED (R591). -/
def State.showHalts (s : State) (j : Nat) : State :=
  s.setFlag (EQX_JOB_STATUS.HALTS_SAVED j)
    ((s.tileSet j).any (fun l => (SMap.get TileState.zero s.saved (savedKey j l)).haltSaved))

/-- Every core of the job has no access of its own left that could still complete, and no CLB (R591). -/
def State.coresQuiet (s : State) (j : Nat) : Bool :=
  (s.tileSet j).all (fun l => let c := (s.ctx j l).core
    c.out.all (·.refused) && c.clbs.isEmpty)

/-! ## Ending -/

/-- Cached lines of a job written back and dropped (R354, R599). -/
def flushCache (j : Nat) : EM Unit := do
  let s ← get
  for line in s.linesIn j 0 (2 ^ 48) do clbLine ⟨.tdma, some j, 255, some 5⟩ j line true

/-- The started commands that an ending job still waits for: those of Virga engines and the fabric endpoint (R600). -/
def TileState.remains (x : TileState) : TileState :=
  { TileState.zero with queues := (x.queues.map (fun p =>
      (p.1, { Queue.empty with flight := if isRemoteQ p.1 then p.2.flight else [] }))).filter (fun p => p.2 != Queue.empty) }

/-- The job's tile state is discarded but for its started remote commands, and its STATE is ENDING. -/
def State.toEnding (s : State) (j : Nat) : State :=
  let s := (s.tileSet j).foldl (fun s l =>
    let x := (s.ctx j l).remains
    let s := match s.livePhys j l with
      | some t =>
        let s := (s.setTile t (s.tile t).residue).resetRegs (tileLatches.map (fun (off : Nat → Nat) => off t))
        ((s.setFlag (ANV_ID.JOB_V t) false).setF (ANV_ID.JOB t) 0).setFlag (ANV_STATUS.SAVING t) false
      | none => s
    { s with saved := SMap.put TileState.zero s.saved (savedKey j l) x }) s
  let s := (s.setF (EQX_JOB_STATUS.STATE j) jENDING).setFlag (EQX_JOB_STATUS.HALTS_SAVED j) false
  { s with parked := dropNum s.parked j, demT := dropNum s.demT j, chosen := s.chosen.filter (fun k => k != j) }

/-- The end that the companion asked for takes hold once the job is RUNNING or SAVED (R581, R600) (DEDUCED, log entry
28). -/
def State.applyEnd (s : State) (j : Nat) : State :=
  if s.endAsked.contains j ∧ (s.jobState j = jRUNNING ∨ s.jobState j = jSAVED) then s.toEnding j else s

/-- SAVE_DONE (R591, R596, R597). -/
def execSaveDone (j beats : Nat) (s : State) : Out :=
  if s.jobState j = jSAVING ∧ s.coresQuiet j ∧ s.up then
    let s := s.debitT j beats
    let s := (s.tileSet j).foldl (fun s l => s.saveTile j l) s
    let s := (s.setF (EQX_JOB_STATUS.STATE j) jSAVED).showHalts j
    .next (s.applyEnd j)
  else .next s

/-- RESTORE_START (R588). -/
def execRestoreStart (j : Nat) (s : State) : Out :=
  if s.mayRestore j then
    let s := { s with chosen := s.waiting.filter (fun k => k != j) }
    let s := (s.tileSet j).foldl (fun s l =>
      (s.setFlag (ANV_ID.JOB_V (s.phys l)) true).setF (ANV_ID.JOB (s.phys l)) j) s
    .next ((s.setF (EQX_JOB_STATUS.STATE j) jRESTORING).showSaving j true)
  else .next s

/-- RESTORE_DONE (R595, R597). -/
def execRestoreDone (j beats : Nat) (s : State) : Out :=
  if s.jobState j = jRESTORING ∧ s.up then
    let s := s.debitT j beats
    let s := (s.tileSet j).foldl (fun s l => s.loadTile j l) s
    let s := (s.setF (EQX_JOB_STATUS.STATE j) jRUNNING).setFlag (EQX_JOB_STATUS.HALTS_SAVED j) false
    .next (s.applyEnd j)
  else .next s

/-- A write of HOLD to EQX_JOBj_CTL; any write to it ends parking (R583, R598). -/
def State.writeHold (s : State) (j : Nat) (h : Bool) : State :=
  ((s.setFlag (EQX_JOB_CTL.HOLD j) h).unpark j).noteDemandT

/-- JOB_HOLD (R598): the slice in progress runs to its end. -/
def execJobHold (by_ : Agent) (j : Nat) (s : State) : Out :=
  .next (if s.accepts by_ (EQX_JOB_CTL.at j) ∧ j < 64 then s.writeHold j true else s)

/-- END written as 1 (R600): the requests of a serving job end LOST. -/
def State.requestEnd (s : State) (j : Nat) : State :=
  if s.jobState j = jNONE ∨ s.jobState j = jENDING then s
  else ({ s with endAsked := addNum s.endAsked j }.endLost j).applyEnd j

/-- JOB_END_REQUEST (R600): a write to EQX_JOBj_CTL with END 1. -/
def execJobEndRequest (by_ : Agent) (j : Nat) (hold : Bool) (s : State) : Out :=
  .next (if s.accepts by_ (EQX_JOB_CTL.at j) ∧ j < 64 then (s.writeHold j hold).requestEnd j else s)

/-- Every tile has executed END, its commands have completed, and no remote read is outstanding (R599). -/
def State.jobFinished (s : State) (j : Nat) : Bool :=
  (s.tileSet j).all (fun l => (s.ctx j l).core.ended && (s.ctx j l).drained && (s.ctx j l).core.out.isEmpty &&
      (s.ctx j l).core.clbs.isEmpty) &&
    s.f (EQX_JOB_STATUS.OUT_READS j) == 0

/-- JOB_END (R599): the write-backs of its Cloudbank lines complete, its requests end LOST (R546), and it is ENDING. -/
def execJobEnd (j : Nat) (s : State) : Out :=
  if (s.jobState j = jRUNNING ∨ s.jobState j = jSAVED) ∧ s.jobFinished j ∧ s.up then
    rowOf (do
      flushCache j
      endRequests j
      modify (fun s => s.toEnding j)) s
  else .next s

/-- What a job holds is released (R601). -/
def State.release (s : State) (j : Nat) : State :=
  let s := (s.tileSet j).foldl (fun s l => { s with saved := SMap.erase s.saved (savedKey j l) }) s
  let regs := [LDR_JOB_ATTR.at j, EQX_JOB_SAVE.at j, XWF_JOB_GROUP.at j] ++
    (List.range 3).map (EQX_JOB_TILES.at j) ++ (List.range 4).map (CLB_PART.at j) ++
    (List.range 16).flatMap (fun n => [VRG_JOB_SLOTS.at n j, VRG_JOB_CFG.at n j]) ++
    (List.range 16).flatMap (fun g => [LDR_SEG_W0.at j g, LDR_SEG_W1.at j g, LDR_SEG_W2.at j g, LDR_SEG_W3.at j g])
  let s := s.resetRegs regs
  { s with endAsked := dropNum s.endAsked j, demT := dropNum s.demT j,
           demV := s.demV.filter (fun k => k % 64 != j), rrLast := s.rrLast.filter (fun p => p.1 % 64 != j) }

/-- JOB_ENDED (R600, R601): once its started commands, reads and write-backs are done, the record is written and STATE
becomes NONE. -/
def execJobEnded (j : Nat) (s : State) : Out :=
  if s.jobState j = jENDING ∧ s.up ∧
      (s.tileSet j).all (fun l => (s.ctx j l).drained) ∧ s.f (EQX_JOB_STATUS.OUT_READS j) = 0 then
    rowOf (do
      flushCache j
      endRequests j
      modify (fun s =>
        let d : W64 := if s.endAsked.contains j then 1#64 else 0#64
        let s := (s.erq ⟨0xB0, 0, bEQX, 0, some j, 0, d⟩).post 5 (some j) d 0
        (s.release j).setF (EQX_JOB_STATUS.STATE j) jNONE)) s
  else .next s

/-! ## Rounds -/

/-- TILE_ROUND_END (R584, R585): work of the round not debited yet, then the credits. -/
def execTileRoundEnd (debits : List (Nat × Nat)) (s : State) : Out :=
  .next ((debits.foldl (fun s d => if d.1 < 64 then s.debitT d.1 d.2 else s) s).endRoundT)

/-- STACK_ROUND_END (R584, R585, R590). -/
def execStackRoundEnd (n : Nat) (debits : List (Nat × Nat)) (s : State) : Out :=
  if n < 16 then .next ((debits.foldl (fun s d => if d.1 < 64 then s.debitV n d.1 d.2 else s) s).endRoundV n)
  else .next s

end Sys2Proof.Machine
end

