-- ==== Sys2Proof/Machine/Load.lean ====
section
/-! DEFINITION. Loading a job (chapter 16): the image and the placement block (R608 - R613, R622), the checks of
R626 with R614 - R619 and R344 - R347, the claims, and what LDR writes to registers, memory and the save areas. -/
namespace Sys2Proof.Machine

/-! ## Reading -/

/-- REASON codes of R627. -/
def rsFORMAT : Nat := 1
def rsDIGEST : Nat := 2
def rsLEVEL : Nat := 3
def rsFEATURE : Nat := 4
def rsVERIFY : Nat := 5
def rsSEGMENT : Nat := 6
def rsNO_JOB : Nat := 7
def rsCLB : Nat := 8
def rsSLOTS : Nat := 9
def rsSAVE : Nat := 10
def rsENGINE : Nat := 11
def rsOVERLAP : Nat := 13

def ldrWho : Who := ⟨.ldr, none, 255, some 6⟩

def State.inStore (s : State) (a : Nat) : Bool := s.region a == .stack || s.region a == .far

/-- Bytes that LDR reads of the placement block or the image; none where they are unreadable (DEDUCED, log entry 47). -/
def ldrRead (a n : Nat) : EM (Option (List Byte)) := do
  let s ← get
  if a % 4096 != 0 || !s.inStore a || !s.inStore (a + n - 1) then pure none
  else
    tryCatch (do let bs ← readSpan ldrWho n a n; pure (some bs)) (fun e => match e with
      | .poison _ | .bus _ => pure none
      | e => throw e)

/-- 64-bit word k of bytes. -/
def wordAt (bs : List Byte) (k : Nat) : W64 := BitVec.ofNat 64 (leNat ((bs.drop (8 * k)).take 8))

/-- Words 0 to n - 1 of bytes. -/
def wordList (bs : List Byte) (n : Nat) : List W64 := (List.range n).map (wordAt bs)

/-! ## The image (R608 - R613) -/

/-- A directory entry with its section's bytes (R610). -/
structure Section where
  typ : Nat
  crit : Bool
  off : Nat
  arg : Nat
  len : Nat
  dest : Nat
  bytes : List Byte
  growthZero : Bool
deriving DecidableEq, Repr

/-- An image as read: header words, bytes and sections. -/
structure Image where
  hdr : List W64
  bytes : List Byte
  secs : List Section
deriving DecidableEq, Repr

def Image.h (x : Image) (k : Nat) : W64 := (x.hdr[k]?).getD 0#64

def mkSection (img : List Byte) (i : Nat) : Section :=
  let e := wordList ((img.drop (256 + 32 * i)).take 32) 4
  let w := fun (k : Nat) => (e[k]?).getD 0#64
  let off := fld (w 0) 47 0
  let len := fld (w 1) 47 0
  ⟨fld (w 0) 63 56, bitAt (w 0) 55, off, fld (w 1) 63 48, len, fld (w 2) 47 0, (img.drop off).take len,
    fld (w 0) 54 48 == 0 && fld (w 2) 63 48 == 0 && w 3 == 0#64⟩

/-- An image whose LEN and NSECT are known. -/
def mkImage (bs : List Byte) : Image :=
  let hdr := wordList bs 32
  ⟨hdr, bs, (List.range (fld ((hdr[1]?).getD 0#64) 63 48)).map (mkSection bs)⟩

def Image.section? (x : Image) (t : Nat) : Option Section := x.secs.find? (fun c => c.typ == t)

def Image.count (x : Image) (t : Nat) : Nat := (x.secs.filter (fun c => c.typ == t)).length

def Image.words (x : Image) (t n : Nat) : List W64 :=
  match x.section? t with
  | some c => wordList c.bytes n
  | none => List.replicate n 0#64

/-- TILEMAP word of a tile, SEGREQ and SERVE words. -/
def Image.t0 (x : Image) (l : Nat) : W64 := ((x.words 3 384)[2 * l]?).getD 0#64
def Image.t1 (x : Image) (l : Nat) : W64 := ((x.words 3 384)[2 * l + 1]?).getD 0#64
def Image.q0 (x : Image) (i : Nat) : W64 := ((x.words 4 32)[2 * i]?).getD 0#64
def Image.q1 (x : Image) (i : Nat) : W64 := ((x.words 4 32)[2 * i + 1]?).getD 0#64
def Image.sv (x : Image) (k : Nat) : W64 := ((x.words 6 16)[k]?).getD 0#64

def Image.hasTile (x : Image) (l : Nat) : Bool := bitAt (x.h (5 + l / 64)) (l % 64)
def Image.tiles (x : Image) : List Nat := (List.range 192).filter x.hasTile
def Image.serving (x : Image) : Bool := bitAt (x.h 4) 10
def Image.flags (x : Image) : Nat := fld (x.h 4) 4 1
def Image.scount (x : Image) (q : Nat) : Nat := fld (x.h 9) (16 * q + 14) (16 * q + 8)
def Image.ccount (x : Image) (q : Nat) : Nat := fld (x.h 9) (16 * q + 6) (16 * q)
def Image.vrgUse (x : Image) : Nat := fld (x.h 8) 31 16
def Image.entry (x : Image) (l : Nat) : Nat := fld (x.t0 l) 15 0
def Image.segtab (x : Image) (l : Nat) : Nat := fld (x.t0 l) 31 16
def Image.code (x : Image) (l : Nat) : Option Section := x.secs[fld (x.t0 l) 41 32]?
def Image.dmemSec (x : Image) (l : Nat) : Option Section := x.secs[fld (x.t0 l) 51 42]?

/-- Header fields that must be right before the digest (R609, R616). -/
def headerOk (h : List W64) : Bool :=
  let w := fun (k : Nat) => (h[k]?).getD 0#64
  fld (w 0) 31 0 == 0x31495056 && fld (w 0) 47 32 == 0 &&
  decide (0 < fld (w 1) 47 0) && fld (w 1) 47 0 % 4096 == 0 &&
  decide (1 ≤ fld (w 1) 63 48) && decide (fld (w 1) 63 48 ≤ 1024) &&
  decide (256 + 32 * fld (w 1) 63 48 ≤ fld (w 1) 47 0) &&
  fld (w 4) 63 12 == 0 && fld (w 4) 7 5 == 0 && fld (w 8) 63 48 == 0 && fld (w 8) 15 13 == 0 &&
  decide (fld (w 8) 12 0 ≤ 4096) && (w 5 ||| w 6 ||| w 7) != 0#64 &&
  (List.range 4).all (fun q => !bitAt (w 9) (16 * q + 15) && !bitAt (w 9) (16 * q + 7) &&
    decide (fld (w 9) (16 * q + 14) (16 * q + 8) ≤ 64) && decide (fld (w 9) (16 * q + 6) (16 * q) ≤ 64)) &&
  (List.range 18).all (fun i => w (14 + i) == 0#64)

/-- A section's place, length and destination (R610, R611). -/
def Section.ok (len : Nat) (c : Section) : Bool :=
  c.growthZero && c.off % 64 == 0 && decide (c.off + c.len ≤ len) &&
  (c.typ != 3 || c.len == 3072) && (c.typ != 4 || c.len == 256) && (c.typ != 6 || c.len == 128) &&
  ((c.typ != 1 && c.typ != 2) || decide (c.dest + c.len ≤ 0x10000)) &&
  (c.typ != 1 || (c.dest % 4 == 0 && c.len % 4 == 0))

/-- A tile's map entry names a CODE and a DATA section, and its ENTRY is an instruction's offset (R612). -/
def Image.tileOk (x : Image) (l : Nat) : Bool :=
  x.entry l % 4 == 0 && x.segtab l % 64 == 0 &&
  (match x.code l with | some c => c.typ == 1 | none => false) &&
  (match x.dmemSec l with | some c => c.typ == 2 | none => false)

/-- Growth fields of SERVE (R625, R491). -/
def Image.serveGrowth (x : Image) : Bool :=
  let s := x.sv
  fld (s 0) 14 0 == 0 && fld (s 1) 27 0 == 0 && [2, 3, 4].all (fun k => fld (s k) 59 48 == 0) &&
  fld (s 5) 41 16 == 0 && fld (s 8) 63 48 == 0 && fld (s 9) 59 58 == 0 && fld (s 9) 52 48 == 0 &&
  fld (s 10) 63 24 == 0 && fld (s 14) 63 32 == 0 && s 15 == 0#64

/-- The rest of FORMAT at step 1 (R611 - R613, R616). -/
def Image.formatOk (x : Image) : Bool :=
  x.secs.all (Section.ok x.bytes.length) && x.count 3 == 1 && x.count 4 == 1 && decide (x.count 7 ≤ 1) &&
  x.count 6 == (if x.serving then 1 else 0) &&
  (List.range 192).all (fun l => fld (x.t0 l) 63 52 == 0 && x.t1 l == 0#64) &&
  (List.range 16).all (fun i => fld (x.q0 i) 53 0 == 0 && fld (x.q1 i) 63 48 == 0) &&
  x.tiles.all x.tileOk && (!x.serving || x.serveGrowth)

/-- DIGEST (R609): the 32 output bytes stand in order from byte 0 of H10 (DEDUCED, log entry 48). -/
def Image.digestOk (x : Image) : Bool :=
  shake256 (x.bytes.take 80 ++ List.replicate 32 0#8 ++ x.bytes.drop 112) 32 == (x.bytes.drop 80).take 32

/-- R615. -/
def Image.levelOk (x : Image) (major minor : Nat) : Bool :=
  fld (x.h 0) 63 56 == major &&
  (if bitAt (x.h 4) 8 then fld (x.h 0) 55 48 == minor else decide (fld (x.h 0) 55 48 ≤ minor))

def knownSection (t : Nat) : Bool := (decide (1 ≤ t) && decide (t ≤ 7)) || t == 0x7F

/-- R614. -/
def Image.featureOk (x : Image) (features : W64) : Bool :=
  (x.h 2 &&& ~~~features) == 0#64 && x.secs.all (fun c => knownSection c.typ || !c.crit)

/-- Section i is code that the verifier covers (R618). -/
def Image.covered (x : Image) (c : Section) : Bool :=
  c.typ == 1 || (c.typ == 5 && fld (x.q0 (bitsOf c.arg 3 0)) 62 61 == 3)

/-- First illegal instruction of a covered section (R618, first row). -/
def Image.firstIllegal (x : Image) : Option (Nat × Nat) :=
  ((List.range x.secs.length).zip x.secs).findSome? (fun p =>
    if x.covered p.2 then
      (List.range (p.2.len / 4)).findSome? (fun k =>
        if legalWord (leNat ((p.2.bytes.drop (4 * k)).take 4)) then none else some (p.1, 4 * k))
    else none)

/-- The earlier of two findings. -/
def earlier (a b : Option (Nat × Nat)) : Option (Nat × Nat) :=
  match a, b with
  | some p, some q => if q.1 < p.1 ∨ (q.1 = p.1 ∧ q.2 < p.2) then some q else some p
  | some p, none => some p
  | none, q => q

/-- The views that a command writes under PAD_FILL, each with the positions of its padded extent outside it (R131, R135);
none under PAD_SKIP. A VSLOT, a DCOPY, an ATT and a command without a written view have no padding. -/
def padWrites (q l : Nat) (c : List W64) (vs : SMap W64) : List (View × List (List Nat)) :=
  let k := cKind c
  let rows := fun (n : View → Nat) (v : View) => (v, padPositions v (n v))
  if k = kMMUL then
    if cf c 4 3 3 = 1 ∧ cf c 4 6 6 = 0 then
      [(panelView l 3 (cf c 4 18 14) (cf c 3 37 25) 256, mmulPads (cf c 4 43 37 + 1) (cf c 4 36 29 + 1))]
    else []
  else if k = kVOP ∨ k = kVEW then
    let n : View → Nat := if q = 1 then fun _ => 256 else granuleElems
    if cf c 3 37 37 = 0 then []
    else
      let o := vOf c vs 3 43 40
      if cf c 3 63 56 = 0x30 then [o, vOf c vs 3 51 48, vOf c vs 3 47 44].map (rows n) else [rows n o]
  else if k = kVMV then
    if cf c 3 29 29 = 1 ∧ cf c 3 38 37 ≠ 1 then [rows granuleElems (vOf c vs 3 55 52)] else []
  else if k = kVGS then
    if cf c 3 42 42 = 1 ∧ (cf c 3 63 62 ≠ 2 ∨ cf c 3 43 43 = 0) then [rows granuleElems (vOf c vs 3 51 48)] else []
  else []

/-- Some padding position of the command holds a byte of another live tensor (R136). -/
def padMeets (u : PadUse) : Bool :=
  (padWrites u.queue u.tile u.cmd u.views).any (fun w => w.2.any (fun ix =>
    ((w.1.loc w.1.fmt.bits ix).parts).any (fun p =>
      u.live.any (fun r => decide (p.1 / 8 ≤ r.2) && decide (r.1 ≤ (p.1 + p.2 - 1) / 8)))))

/-- The first of these findings (R136, R618). -/
def padFinding (us : List PadUse) : Option (Nat × Nat) :=
  us.foldl (fun f u => if padMeets u then earlier f (some (u.sect, u.off)) else f) none

/-! ## Ranges of segments (R344, R346) -/

/-- Byte ranges of a segment, as first and last byte. -/
def Seg.ranges (sb : Nat) (g : Seg) : List (Nat × Nat) :=
  let lo := g.base * 4096
  let hi := g.limit * 4096 + 4095
  if !g.v then []
  else if g.stkMask = 0 then [(lo, hi)]
  else ((List.range 16).filter (fun n => g.stkMask.testBit n)).map (fun n => (n * sb + lo, n * sb + hi))

/-- A range cut at the boundaries between stacks. -/
def cutStacks (sb : Nat) (r : Nat × Nat) : List (Nat × Nat) :=
  if r.1 < 16 * sb then
    ((List.range 16).filter (fun n => decide (n * sb ≤ r.2) && decide (r.1 < n * sb + sb))).map
      (fun n => (max r.1 (n * sb), min r.2 (n * sb + sb - 1)))
  else [r]

/-- Byte ranges of a segment's mirror. -/
def Seg.mirrors (sb : Nat) (g : Seg) : List (Nat × Nat) :=
  if g.v && g.mirV then
    ((g.ranges sb).flatMap (cutStacks sb)).map (fun r => (g.mirrorOf sb r.1, g.mirrorOf sb r.1 + (r.2 - r.1)))
  else []

def rangesMeet (a b : List (Nat × Nat)) : Bool :=
  a.any (fun p => b.any (fun q => decide (p.1 ≤ q.2) && decide (q.1 ≤ p.2)))

/-- Segments of resident jobs, with their jobs. -/
def State.residentSegs (s : State) : List (Nat × Seg) :=
  (jobList.filter s.resident).flatMap (fun j => (List.range 16).map (fun i => (j, s.seg j i)))

/-- Ranges of resident segments and mirrors (R621). -/
def State.busyRanges (s : State) : List (Nat × Nat) :=
  s.residentSegs.flatMap (fun p => p.2.ranges s.stackBytes ++ p.2.mirrors s.stackBytes)

/-- Equal BASE, LIMIT, STACKS, CLASS, CODE_T and mirror fields (R347). -/
def Seg.same (a b : Seg) : Bool :=
  a.base == b.base && a.limit == b.limit && a.stkMask == b.stkMask && a.cls == b.cls && a.codeT == b.codeT &&
  a.mirV == b.mirV && a.mirFar == b.mirFar && a.mrot == b.mrot && a.mirror == b.mirror

/-- The segment is shared with a resident job (R347, R349, R397). -/
def State.sharedSeg (s : State) (g : Seg) : Bool :=
  s.residentSegs.any (fun p => p.2.v && g.same p.2 && rangesMeet (g.ranges s.stackBytes) (p.2.ranges s.stackBytes))

/-- First byte's region of a segment. -/
def State.segRegion (s : State) (g : Seg) : Region :=
  if g.stkMask = 0 then s.region (g.base * 4096) else .stack

/-! ## The placement block (R622 - R624) -/

/-- Segment i of a placement block, and its KEEP. -/
def placeSeg (pb : List Byte) (i : Nat) : Seg :=
  Seg.ofWords (wordAt pb (8 + 4 * i)) (wordAt pb (9 + 4 * i)) (wordAt pb (10 + 4 * i))

def placeKeep (pb : List Byte) (i : Nat) : Bool := bitAt (wordAt pb (11 + 4 * i)) 0

/-- The range lies in one region of R14, and the far tier's decoders hold it (R16, R344). -/
def State.oneRegion (s : State) (g : Seg) : Bool :=
  let lo := g.base * 4096
  let hi := g.limit * 4096 + 4095
  decide (g.base ≤ g.limit) &&
  (if g.stkMask != 0 then decide (hi < s.stackBytes)
   else s.region lo == s.region hi &&
    (match s.region lo with
     | .stack => true
     | .far => (s.farDecoder lo).isSome && (s.farDecoder hi).isSome
     | .scratch => true
     | .spm => true
     | _ => false))

/-- R624: a scratch segment lies within the job's own blocks of one slice. -/
def Image.scratchFits (x : Image) (g : Seg) : Bool :=
  let q := (g.base * 4096 - scratchBase) / 2 ^ 28
  decide (g.limit * 4096 + 4095 < scratchBase + q * 2 ^ 28 + x.scount q * 0x400000)

/-- R346 for the mirror's own place. -/
def State.mirrorOk (s : State) (g : Seg) : Bool :=
  !g.mirV ||
  (!g.pw && (g.mirFar || (g.mrot != 0 && s.segRegion g == .stack)) &&
   (g.mirrors s.stackBytes).all (fun r =>
     if g.mirFar then s.region r.1 == .far && s.region r.2 == .far && (s.farDecoder r.1).isSome && (s.farDecoder r.2).isSome
     else decide (g.mirror * 4096 + (r.2 - r.1) < s.stackBytes) && decide (r.2 / s.stackBytes = r.1 / s.stackBytes) &&
       s.region r.2 == .stack))

/-- A segment against its requirement, its class and its regions (R622, R623, R344 - R346, R352). -/
def State.segmentOk (s : State) (x : Image) (g : Seg) (keep : Bool) (i : Nat) : Bool :=
  let q := x.q0 i
  if g.v != bitAt q 63 then false
  else if !g.v then true
  else
    let reg := s.segRegion g
    g.cls == fld q 62 61 && g.pr == bitAt q 60 && g.pw == bitAt q 59 && g.cache == bitAt q 56 &&
    decide (fld q 58 57 ≤ g.codeT) && s.oneRegion g &&
    decide (fld (x.q1 i) 47 0 ≤ (g.limit - g.base + 1) * 4096) &&
    (!bitAt q 55 || g.mirV) && (!bitAt q 54 || g.stkMask == 0xFFFF) &&
    (reg == .stack || reg == .far || (g.cls == 2 && !g.cache)) && (g.cls != 2 || !g.mirV) &&
    (!keep || g.cls == 0 || g.cls == 1) && (g.cls != 3 || !g.pw) && s.mirrorOk g &&
    (reg != .scratch || x.scratchFits g)

/-- A segment's ranges that stand where its placement says: a Cloudbank-scratch segment is moved to its job's own blocks
(R624). -/
def State.storeRanges (s : State) (g : Seg) : List (Nat × Nat) :=
  if s.segRegion g == .scratch then [] else g.ranges s.stackBytes

/-- In-stack ranges of resident jobs' save areas, 30 MiB each (R596). -/
def saveLen : Nat := 30 * 2 ^ 20

def State.saveRanges (s : State) : List (Nat × Nat) :=
  (jobList.filter s.resident).flatMap (fun j =>
    let o := s.reg (EQX_JOB_SAVE.at j) |>.toNat
    (List.range 16).map (fun n => (n * s.stackBytes + o, n * s.stackBytes + o + saveLen - 1)))

/-- Overlaps of a segment with resident jobs and with the segments before it (R346, R347, R596). -/
def State.overlapOk (s : State) (before : List Seg) (g : Seg) : Bool :=
  let sb := s.stackBytes
  let own := s.storeRanges g
  let mir := g.mirrors sb
  s.residentSegs.all (fun p =>
    let h := p.2
    let theirs := s.storeRanges h
    !rangesMeet mir theirs && !rangesMeet own (h.mirrors sb) && (!rangesMeet own theirs || g.same h)) &&
  !rangesMeet (own ++ mir) s.saveRanges &&
  !rangesMeet mir own &&
  before.all (fun h => !rangesMeet (g.ranges sb) (h.ranges sb) && !rangesMeet own (h.mirrors sb) &&
    !rangesMeet mir (s.storeRanges h))

/-- First segment that breaks a rule. -/
def State.badSegment (s : State) (x : Image) (pb : List Byte) : Option Nat :=
  (List.range 16).find? (fun i =>
    let g := placeSeg pb i
    !(s.segmentOk x g (placeKeep pb i) i &&
      (!g.v || s.overlapOk (((List.range i).map (placeSeg pb)).filter (·.v)) g)))

/-! ## FORMAT at step 3 (R622 - R625, R628) -/

/-- Bytes of one copy of a segment. -/
def Seg.size (g : Seg) : Nat := if g.v then (g.limit - g.base + 1) * 4096 else 0

/-- The DATA section leaves the 136 bytes at SEGTAB free (R628). -/
def Image.segtabOk (x : Image) (l : Nat) : Bool :=
  decide (x.segtab l + 136 ≤ 0x10000) &&
  (match x.dmemSec l with
   | some c => c.len == 0 || decide (c.dest + c.len ≤ x.segtab l) || decide (x.segtab l + 136 ≤ c.dest)
   | none => false)

/-- An INIT section lies within its segment and names a copy that exists (R611). -/
def initOk (pb : List Byte) (c : Section) : Bool :=
  let g := placeSeg pb (bitsOf c.arg 3 0)
  c.typ != 5 || (g.v && decide (c.dest + c.len ≤ g.size) && (g.stkMask == 0 || g.stkMask.testBit (bitsOf c.arg 7 4)))

/-- The KV geometry of a header word (R490, R491). -/
def kvGeometryOk (w : W64) : Bool :=
  let dh := fld w 51 44 + 1
  let kvf := fld w 43 42
  let e := dh * (if kvf = 3 then 4 else 8) / 8
  let g := if kvf = 2 then 1 else if kvf = 3 then dh / 32 else 0
  let heads := (fld w 63 56 + 1) * (fld w 55 52 + 1)
  dh % 32 == 0 && decide (heads * (32 * e) + heads * 32 * g ≤ fld w 15 0 * 65536) && decide (0 < fld w 15 0)

/-- SERVE against R491, R538, R556, R557 and its segments (R625). -/
def State.serveOk (s : State) (x : Image) (pb : List Byte) : Bool :=
  let sv := x.sv
  let seg := fun (k : Nat) => placeSeg pb (fld (sv k) 63 60)
  let inside := fun (k len : Nat) => (seg k).v && decide (fld (sv k) 47 0 + len ≤ (seg k).size)
  let pool := seg 6
  let listPages := fld (sv 7) 63 32
  let poolPages := fld (sv 7) 31 0
  let pg := fld (sv 5) 15 0
  let full := fld (sv 0) 22 19
  decide (1 ≤ fld (sv 0) 54 39) && x.hasTile (fld (sv 0) 30 23) && decide (fld (sv 0) 30 23 < 192) &&
  decide (2 ≤ full) && decide (full ≤ 8) && decide (fld (sv 1) 31 28 ≤ 8) &&
  inside 2 8384 && (seg 2).cls == 2 && s.segRegion (seg 2) == .scratch && fld (sv 2) 47 0 % 4096 == 0 &&
  inside 3 (64 + 32 * 2 ^ (fld (sv 1) 31 28 + 8)) &&
  inside 4 64 && (seg 4).cls == 1 &&
  kvGeometryOk (sv 5) &&
  pool.v && pool.cls == 1 && pool.stkMask == 0xFFFF && (pool.base * 4096 + fld (sv 6) 47 0) % 65536 == 0 &&
  decide (1 ≤ listPages) && decide (listPages ≤ 65536) && decide (poolPages ≤ 2 ^ 28) &&
  inside 6 (poolPages * pg * 65536) && decide (fld (sv 8) 47 0 + 8 * poolPages ≤ pool.size) &&
  decide (8 ≤ fld (sv 9) 57 53) && decide (fld (sv 9) 57 53 ≤ 24) && (seg 9).cls == 1 &&
  inside 9 (128 * (fld (sv 10) 23 0 + 1) + 4 * 2 ^ fld (sv 9) 57 53)

/-! ## Claims (step 6 of R626) -/

/-- Lowest start of a run of n free numbers below a limit, where `used` says which are taken. -/
def firstRun (used : Nat → Bool) (n limit : Nat) : Option Nat :=
  (List.range (limit + 1 - n)).find? (fun a => (List.range n).all (fun i => !used (a + i)))

/-- Some resident job's cache or scratch run holds block b of slice q (R351). -/
def State.blockUsed (s : State) (q b : Nat) : Bool :=
  (jobList.filter s.resident).any (fun j =>
    (decide (s.f (CLB_PART.CFIRST j q) ≤ b) && decide (b < s.f (CLB_PART.CFIRST j q) + s.f (CLB_PART.CCOUNT j q))) ||
    (decide (s.f (CLB_PART.SFIRST j q) ≤ b) && decide (b < s.f (CLB_PART.SFIRST j q) + s.f (CLB_PART.SCOUNT j q))))

/-- Cache and scratch runs of slice q, the cache run first (DEDUCED, log entry 41). -/
def State.claimSlice (s : State) (cc sc q : Nat) : Option (Nat × Nat) :=
  match firstRun (s.blockUsed q) cc 64 with
  | none => none
  | some c =>
    match firstRun (fun b => s.blockUsed q b || (decide (c ≤ b) && decide (b < c + cc))) sc 64 with
    | none => none
    | some d => some (c, d)

/-- Runs of all four slices. -/
def State.claimClb (s : State) (x : Image) : Option (List (Nat × Nat)) :=
  (List.range 4).foldr (fun q acc => match acc, s.claimSlice (x.ccount q) (x.scount q) q with
    | some l, some p => some (p :: l)
    | _, _ => none) (some [])

/-- Lowest start of n free slots of stack m: it is 0 or the end of a run in use (R211). -/
def State.claimSlots (s : State) (m n : Nat) : Option Nat :=
  let runs := (jobList.filter s.resident).map (fun j => (s.f (VRG_JOB_SLOTS.BASE m j), s.f (VRG_JOB_SLOTS.COUNT m j)))
  let fits := fun (a : Nat) => decide (a + n ≤ 65536) &&
    runs.all (fun r => r.2 == 0 || n == 0 || decide (a + n ≤ r.1) || decide (r.1 + r.2 ≤ a))
  ((0 :: runs.map (fun r => r.1 + r.2)).filter fits).min?

def setList (m : Nat) : List Nat := (List.range 16).filter (fun n => m.testBit n)

def State.claimAllSlots (s : State) (x : Image) : Option (List (Nat × Nat)) :=
  (setList x.vrgUse).foldr (fun m acc => match acc, s.claimSlots m (16 * fld (x.h 8) 12 0) with
    | some l, some a => some ((m, a) :: l)
    | _, _ => none) (some [])

/-- In-stack ranges in use anywhere: segments, mirrors and save areas of resident jobs and the segments of the load. -/
def State.stackUse (s : State) (segs : List Seg) : List (Nat × Nat) :=
  let sb := s.stackBytes
  let all := (segs.flatMap (fun g => s.storeRanges g ++ g.mirrors sb)) ++
    (s.residentSegs.flatMap (fun p => s.storeRanges p.2 ++ p.2.mirrors sb)) ++ s.saveRanges
  ((all.filter (fun r => decide (r.1 < 16 * sb))).flatMap (cutStacks sb)).map (fun r => (r.1 % sb, r.2 % sb))

/-- SAVE_OFF: the lowest multiple of 65,536 with 30 MiB free in every stack (R626): 0, or the first one past a range in
use. -/
def State.claimSave (s : State) (segs : List Seg) : Option Nat :=
  let use := s.stackUse segs
  let fits := fun (o : Nat) => decide (o + saveLen ≤ s.stackBytes) &&
    use.all (fun r => decide (o + saveLen ≤ r.1) || decide (r.2 < o))
  ((0 :: use.map (fun r => roundUp (r.2 + 1) 65536)).filter fits).min?

/-- Every engine of a mask is ACTIVE and not about to retire (R223, R626). -/
def State.enginesOk (s : State) (m : Nat) : Bool :=
  (setList m).all (fun n => s.f (VRG_ID.MODE n) == 0 && s.f (VRG_CTL.RETIRE n) == 0)

/-! ## What a successful load writes -/

/-- What the checks of a load settle. -/
structure LoadPlan where
  job : Nat
  img : Image
  pb : List Byte
  /-- segments with scratch relocated (R624) -/
  segs : List Seg
  keep : List Bool
  clb : List (Nat × Nat)
  slots : List (Nat × Nat)
  saveOff : Nat
  det : Bool
deriving DecidableEq, Repr

def LoadPlan.seg (p : LoadPlan) (i : Nat) : Seg := (p.segs[i]?).getD (Seg.ofWords 0#64 0#64 0#64)

/-- A scratch segment moved to the job's own run (R624). -/
def State.relocate (s : State) (clb : List (Nat × Nat)) (g : Seg) : Seg :=
  if g.v && s.segRegion g == .scratch then
    let q := (g.base * 4096 - scratchBase) / 2 ^ 28
    let d := ((clb[q]?).getD (0, 0)).2 * 0x400
    { g with base := g.base + d, limit := g.limit + d }
  else g

/-- First byte of a segment as R628 gives it: a local address, or the in-stack offset. -/
def Seg.first (g : Seg) : Nat := g.base * 4096

def setAll (l : List (Nat × W64)) (s : State) : State := l.foldl (fun s p => s.setReg p.1 p.2) s

/-- Descriptors with W3 zero (R343): growth bits of the block are not kept. -/
def LoadPlan.descriptors (p : LoadPlan) : List (Nat × W64) :=
  (List.range 16).flatMap (fun i =>
    let g := p.seg i
    let w0 := wordAt p.pb (8 + 4 * i)
    let w0 := setFld (setFld (setFld w0 53 52 0) 11 0 0) 47 12 g.base
    let w1 := setFld (setFld (wordAt p.pb (9 + 4 * i)) 11 0 0) 47 12 g.limit
    let w2 := setFld 0#64 47 12 g.mirror
    if g.v then [(LDR_SEG_W0.at p.job i, w0), (LDR_SEG_W1.at p.job i, w1), (LDR_SEG_W2.at p.job i, w2),
      (LDR_SEG_W3.at p.job i, 0#64)]
    else [(LDR_SEG_W0.at p.job i, 0#64), (LDR_SEG_W1.at p.job i, 0#64), (LDR_SEG_W2.at p.job i, 0#64),
      (LDR_SEG_W3.at p.job i, 0#64)])

def LoadPlan.share (p : LoadPlan) : Nat :=
  if bitAt (wordAt p.pb 1) 16 then fld (wordAt p.pb 1) 15 0 else fld (p.img.h 8) 47 32

/-- Registers of EQX, CLB, VRG and LDR (step 7 of R626). -/
def LoadPlan.baseRegs (p : LoadPlan) : List (Nat × W64) :=
  let j := p.job
  let x := p.img
  [(EQX_JOB_CFG.at j, setFld 0#64 15 0 p.share), (EQX_JOB_CTL.at j, 0#64), (EQX_JOB_STATUS.at j, 0#64),
   (EQX_JOB_SAVE.at j, BitVec.ofNat 64 p.saveOff), (EQX_JOB_BAL_T.at j, 0#64), (EQX_JOB_WORK_T.at j, 0#64),
   (EQX_JOB_WORK_V.at j, 0#64),
   (LDR_JOB_ATTR.at j, BitVec.ofNat 64 (64 * x.serving.toNat + 32 * (bitAt (x.h 4) 9).toNat + 2 * x.flags + p.det.toNat))] ++
  (List.range 3).map (fun m => (EQX_JOB_TILES.at j m, x.h (5 + m))) ++
  (List.range 16).flatMap (fun n => [(EQX_JOB_BAL_V.at j n, 0#64), (VRG_KV_SAT.at n j, 0#64), (VRG_JOB_SLOTS.at n j, 0#64)]) ++
  p.slots.map (fun a => (VRG_JOB_SLOTS.at a.1 j, setFld (setFld 0#64 32 16 (16 * fld (x.h 8) 12 0)) 15 0 a.2)) ++
  ((List.range 4).zip p.clb).map (fun a => (CLB_PART.at j a.1,
    setFld (setFld (setFld (setFld 0#64 30 24 (x.scount a.1)) 21 16 a.2.2) 14 8 (x.ccount a.1)) 5 0 a.2.1))

/-- Registers of SRV, PXW, DSK and SMP for a serving job (R556, R557, R578, R625). -/
def LoadPlan.serveRegs (p : LoadPlan) (s : State) : List (Nat × W64) :=
  let j := p.job
  let sv := p.img.sv
  let at_ := fun (k : Nat) => BitVec.ofNat 64 ((p.seg (fld (sv k) 63 60)).first + fld (sv k) 47 0)
  let full := fld (sv 0) 22 19
  let cfg := setFld (setFld (setFld (setFld (setFld 0#64 63 63 1) 52 44 (fld (sv 0) 63 55)) 43 28 (fld (sv 0) 54 39))
    27 20 (fld (sv 0) 38 31)) 19 12 (fld (sv 0) 30 23)
  let fb := bitsOf p.img.flags 1 1 == 1 && !p.det
  let ctl := setFld (setFld (setFld (s.reg (DSK_JOB_CTL.at j)) 63 63 fb.toNat) 55 52 full) 51 48
    (max 2 (min full (fld (sv 0) 18 15)))
  [(SRV_JOB_CFG.at j, cfg), (SRV_JOB_CTL.at j, setFld (s.reg (SRV_JOB_CTL.at j)) 0 0 1),
   (SRV_JOB_QUOTA.at j, BitVec.ofNat 64 (fld (sv 1) 63 32)), (SRV_JOB_STATUS.at j, 0#64), (SRV_JOB_STEP.at j, 0#64),
   (SRV_JOB_BD.at j, at_ 2), (SRV_JOB_RES.at j, setFld (at_ 3) 63 60 (fld (sv 1) 31 28)),
   (PXW_JOB_CFG.at j, setFld (at_ 9) 57 53 (fld (sv 9) 57 53)), (PXW_JOB_NODES.at j, BitVec.ofNat 64 (fld (sv 10) 23 0)),
   (DSK_JOB_CTL.at j, ctl), (DSK_JOB_CNT.at j, 0#64),
   (SMP_JOB_CTL.at j, BitVec.ofNat 64 (bitAt (p.img.h 4) 11).toNat), (SMP_JOB_STATUS.at j, 0#64),
   (SMP_JOB_SPEC.at j, 0#64), (SMP_JOB_DEAD.at j, 0#64)] ++
  (List.range 7).map (fun k => (DSK_JOB_TP.at j k,
    BitVec.ofNat 64 (if k % 2 = 0 then fld (sv (11 + k / 2)) 31 0 else fld (sv (11 + k / 2)) 63 32)))

/-- What SRV keeps of the job beside its registers (R491, R625). -/
def LoadPlan.srvJob (p : LoadPlan) (sb : Nat) : SrvJob :=
  let sv := p.img.sv
  let g := p.seg (fld (sv 4) 63 60)
  let o := fld (sv 4) 47 0
  let pool := (p.seg (fld (sv 6) 63 60)).first
  { SrvJob.zero with
    kvh := (g.ranges sb).map (fun r => r.1 + o),
    listPages := fld (sv 7) 63 32, poolPages := fld (sv 7) 31 0, poolOff := pool + fld (sv 6) 47 0,
    pg64 := fld (sv 5) 15 0, mapOff := pool + fld (sv 8) 47 0, planes := fld (sv 0) 22 19 }

/-! ## Memory (step 8 of R626) -/

/-- Runs of pages of a byte range, stack by stack: the first page and how many. -/
def State.runsIn (s : State) (r : Nat × Nat) : List (Nat × Nat) :=
  let lo := r.1 / 4096
  let hi := r.2 / 4096
  (List.range 16).filterMap (fun k =>
    let a := max lo (k * s.stackPages)
    let b := min (hi + 1) ((k + 1) * s.stackPages)
    if a < b then some (a, b - a) else none)

/-- A KEEP page re-tagged (R623). -/
def State.retag (s : State) (gp : Nat) (tag : BitVec 24) : State :=
  let pg := s.page gp
  let expect := s.stampOf gp
  let fresh := decide (popcount ((pg.stamp ^^^ expect).toNat) > 4)
  if !fresh && pg.tagErrs ≤ 1 && withPoison pg.tag false == tag then s
  else match s.judgePage gp with
    | .zero => s.setPage gp (Page.blank tag expect)
    | .ok d k => (s.countFixed gp k).setPage gp (encodePage d pg.written tag expect)
    | .poisoned => s.setPage gp { pg with tag := withPoison tag true, tagErrs := 0 }
    | .bad c i =>
      let s := s.poisonPage gp c i
      s.setPage gp { s.page gp with tag := withPoison tag true }

/-- The n pages from lo of one stack re-tagged (R623): the listed ones one by one, and the others at once where no redirect
moves any and no channel is FAILED. -/
def State.retagRun (s : State) (lo n : Nat) (tag : BitVec 24) : State :=
  let k := s.stackOf lo
  if !(s.redirs k).isEmpty || (List.range 32).any (fun c => s.f (MSC_CH_STATUS.STATE k c) == 2) then
    (List.range n).foldl (fun s i => s.retag (lo + i) tag) s
  else
    let keys := (s.pages.filter (fun p => decide (lo ≤ p.1) && decide (p.1 < lo + n))).map (·.1)
    let s := { s with blank := Runs.set none s.blank lo n (some ⟨tag, s.stampOf lo - BitVec.ofNat 64 lo⟩) }
    keys.foldl (fun s gp => s.retag gp tag) s

/-- One range of a segment or mirror prepared: discarded, re-tagged, or zeroed in the far tier (R349, R397, R623). -/
def State.prepareRange (s : State) (keep : Bool) (tag : BitVec 24) (r : Nat × Nat) : State :=
  if s.region r.1 == .stack then
    (s.runsIn r).foldl (fun s a => if keep then s.retagRun a.1 a.2 tag else s.discardRun a.1 a.2 tag) s
  else if s.region r.1 == .far && !keep then
    { s with far := SMap.dropRange s.far r.1 (r.2 - r.1 + 1),
             farPoison := dropNums s.farPoison (r.1 / 64) ((r.2 - r.1 + 1) / 64) }
  else s

/-- A segment and its mirror prepared; one shared with a resident job is left as it is. -/
def State.prepareSeg (s : State) (keep : Bool) (g : Seg) : State :=
  if !g.v || s.sharedSeg g then s
  else
    let s := (g.ranges s.stackBytes).foldl (fun s r => s.prepareRange keep (mkTag g.cls g.codeT false) r) s
    (g.mirrors s.stackBytes).foldl (fun s r => s.prepareRange keep (mkTag g.cls g.codeT true) r) s

/-- Scratch blocks of the partition zeroed (R351). -/
def State.zeroScratch (s : State) (o n : Nat) : State :=
  { s with scratch := SMap.dropRange s.scratch o n, scratchBad := dropNums s.scratchBad (o / 8) (n / 8),
           scratchWeak := dropNums s.scratchWeak (o / 8) (n / 8) }

/-- Save areas discarded as class S with CODE_T 16 (R596, R626). -/
def State.prepareSave (s : State) (off : Nat) : State :=
  (List.range 16).foldl (fun s n =>
    (s.runsIn (n * s.stackBytes + off, n * s.stackBytes + off + saveLen - 1)).foldl
      (fun s a => s.discardRun a.1 a.2 (mkTag 1 2 false)) s) s

/-- Everything of step 8 that moves no data. -/
def State.prepare (s : State) (p : LoadPlan) : State :=
  let s := ((p.segs.zip p.keep)).foldl (fun s a => s.prepareSeg a.2 a.1) s
  let s := ((List.range 4).zip p.clb).foldl (fun s a =>
    s.zeroScratch ((64 * a.1 + a.2.2) * 0x400000) (p.img.scount a.1 * 0x400000)) s
  let s := s.prepareSave p.saveOff
  p.slots.foldl (fun s a =>
    { s with slots := SMap.dropRange s.slots (65536 * a.1 + a.2) (16 * fld (p.img.h 8) 12 0) }) s

/-- LDR's write to stack or far memory; the far tier may refuse it. -/
def ldrWrite (a : Nat) (bs : List Byte) : EM Unit :=
  tryCatch (rawSpanWrite ldrWho bs.length a bs) (fun e => match e with
    | .bus _ | .poison _ => pure ()
    | e => throw e)

/-- An INIT section copied to its segment's copy and to its mirror (R407, R626). In the job's scratchpad windows nothing of
it stays: step 9 writes the initial tile state, whose scratchpads are zero (R141, R582; DEDUCED, log entry 41). -/
def loadInit (p : LoadPlan) (c : Section) : EM Unit := do
  let s ← get
  let g := p.seg (bitsOf c.arg 3 0)
  let sb := s.stackBytes
  let a := (if g.stkMask = 0 then 0 else bitsOf c.arg 7 4 * sb) + g.first + c.dest
  match s.segRegion g with
  | .scratch => set { s with scratch := Bytes.wrList s.scratch (a - scratchBase) c.bytes }
  | .spm => pure ()
  | _ =>
    ldrWrite a c.bytes
    if g.mirV then
      for i in List.range (ceilDiv (c.dest % 64 + c.len) 64) do
        let lo := if i = 0 then 0 else 64 * i - c.dest % 64
        let bs := (c.bytes.drop lo).take (if i = 0 then 64 - c.dest % 64 else 64)
        ldrWrite (g.mirrorOf sb (a + lo)) bs

/-- The KV header written to every copy of its segment and to its mirror (R491). -/
def loadKvHeader (p : LoadPlan) : EM Unit := do
  let s ← get
  let x := p.srvJob s.stackBytes
  let g := p.seg (fld (p.img.sv 4) 63 60)
  let ws : List W64 := [p.img.sv 5, BitVec.ofNat 64 x.poolOff,
    setFld (setFld 0#64 63 32 x.listPages) 31 0 x.poolPages, BitVec.ofNat 64 x.mapOff, 0#64, 0#64, 0#64, 0#64]
  for a in x.kvh do
    ldrWrite a (ws.flatMap (fun w => leBytes 8 w.toNat))
    if g.mirV then ldrWrite (g.mirrorOf s.stackBytes a) (ws.flatMap (fun w => leBytes 8 w.toNat))

/-- Initial state of logical tile l (R285, R582, R628). -/
def LoadPlan.tileInit (p : LoadPlan) (feat : W64) (l : Nat) : TileState :=
  let place := fun (c : Option Section) => match c with
    | some c => Bytes.wrList [] c.dest c.bytes
    | none => []
  let tab := (List.range 16).flatMap (fun i =>
    let g := p.seg i
    leBytes 8 (if g.v then 2 ^ 63 + g.first else 0)) ++ leBytes 8 feat.toNat
  { TileState.zero with
    core := { Core.zero with pc := p.img.entry l },
    imem := place (p.img.code l), dmem := Bytes.wrList (place (p.img.dmemSec l)) (p.img.segtab l) tab }

/-- Steps 7 to 9 of R626. Discards and re-tags are writes: while a stack holds writes the load waits (R378). -/
def applyLoad (p : LoadPlan) (feat : W64) : EM Unit := do
  let s ← get
  if (List.range 16).any s.whold then throw .wait
  modify (fun s => s.prepare p)
  modify (fun s => setAll (p.descriptors ++ p.baseRegs) s)
  modify (fun s => if p.img.serving then
    (setAll (p.serveRegs s) s).setSrvJob p.job (p.srvJob s.stackBytes) else s)
  modify (fun s => { s with
    shareT := SMap.put 0 s.shareT p.job p.share,
    engines := SMap.put 0 s.engines p.job p.img.vrgUse,
    digests := SMap.put [] s.digests p.job ((p.img.bytes.drop 80).take 32),
    shareV := (List.range 16).foldl (fun m n => SMap.put 0 m (64 * n + p.job) p.share) s.shareV })
  for c in p.img.secs do
    if c.typ = 5 then loadInit p c
  if p.img.serving then loadKvHeader p
  modify (fun s => { s with
    saved := p.img.tiles.foldl (fun m l => SMap.put TileState.zero m (savedKey p.job l) (p.tileInit feat l)) s.saved })

/-! ## The checks of R626 -/

/-- What the checks answer: a refusal with REASON and DETAIL, or a plan. -/
inductive Verdict where
  | refuse (reason : Nat) (detail : W64)
  | plan (p : LoadPlan) (result : Nat) (detail : W64)
deriving DecidableEq, Repr

/-- Steps 3 to 6. -/
def State.planLoad (s : State) (x : Image) (pb : List Byte) (det : Bool) (result : Nat) (detail : W64) : Verdict :=
  let no := fun (r : Nat) => Verdict.refuse r 0#64
  match s.badSegment x pb with
  | some i => .refuse rsSEGMENT (BitVec.ofNat 64 i)
  | none =>
    if !(x.tiles.all x.segtabOk && x.secs.all (initOk pb) && (!x.serving || s.serveOk x pb)) then no rsFORMAT
    else match jobList.find? (fun j => s.jobState j == jNONE) with
      | none => no rsNO_JOB
      | some j =>
        if !s.enginesOk x.vrgUse then no rsENGINE
        else
          let raw := (List.range 16).map (placeSeg pb)
          match s.claimClb x with
          | none => no rsCLB
          | some clb => match s.claimAllSlots x with
            | none => no rsSLOTS
            | some sl => match s.claimSave (raw.filter (·.v)) with
              | none => no rsSAVE
              | some off => .plan ⟨j, x, pb, raw.map (s.relocate clb), (List.range 16).map (placeKeep pb), clb, sl, off, det⟩
                  result detail

/-- Steps 1 and 2 after the image has been read, and the rest. -/
def State.judgeImage (s : State) (x : Image) (pb : List Byte) (finding : Option (Nat × Nat)) (pads : List PadUse)
    (raceFree : Bool) : Verdict :=
  let no := fun (r : Nat) => Verdict.refuse r 0#64
  if !x.formatOk then no rsFORMAT
  else if !x.digestOk then no rsDIGEST
  else if !x.levelOk (s.f LDR_ID.MAJOR) (s.f LDR_ID.MINOR) then no rsLEVEL
  else if !x.featureOk (BitVec.ofNat 64 (s.f LDR_ID.FEATURES)) then no rsFEATURE
  else match earlier (earlier x.firstIllegal finding) (padFinding pads) with
    | some f => .refuse rsVERIFY (setFld (setFld 0#64 57 48 f.1) 47 0 f.2)
    | none =>
      let asked := bitAt (x.h 4) 0
      let det := asked && x.flags == 0 && raceFree
      let result := if asked && !det then 1 else 0
      let detail : W64 := if !asked then 0#64 else if x.flags != 0 then BitVec.ofNat 64 x.flags
        else if !raceFree then 16#64 else 0#64
      s.planLoad x pb det result detail

/-- All checks (steps 1 to 6): the placement block and the header are read first, and nothing more of the image before
the overlap check (R621) (DEDUCED, log entry 49). -/
def checkLoad (place : Nat) (finding : Option (Nat × Nat)) (pads : List PadUse) (raceFree : Bool) :
    EM (Verdict × List Byte × W64) := do
  let bad := fun (r : Nat) => (Verdict.refuse r 0#64, ([] : List Byte), 0#64)
  match ← ldrRead place 640 with
  | none => pure (bad rsFORMAT)
  | some pb =>
    let img := fld (wordAt pb 0) 47 0
    match ← ldrRead img 256 with
    | none => pure (bad rsFORMAT)
    | some hb =>
      let h := wordList hb 32
      let len := fld ((h[1]?).getD 0#64) 47 0
      let s ← get
      if rangesMeet [(place, place + 639), (img, img + max len 256 - 1)] s.busyRanges then pure (bad rsOVERLAP)
      else if !headerOk h then pure (bad rsFORMAT)
      else match ← ldrRead img len with
        | none => pure (bad rsFORMAT)
        | some bs =>
          let x := mkImage bs
          let s ← get
          pure (s.judgeImage x pb finding pads raceFree, pb, x.h 3 &&& BitVec.ofNat 64 (s.f LDR_ID.FEATURES))

/-- The load of a record whose payload names place and cookie (R621, R626): steps 1 to 9. -/
def loadRow (place : Nat) (cookie : W64) (finding : Option (Nat × Nat)) (pads : List PadUse) (raceFree : Bool) :
    EM Unit := do
  let (v, pb, feat) ← checkLoad place finding pads raceFree
  match v with
  | .refuse r d => modify (fun s => { s with loading := some ⟨place, cookie, none, 2, r, d, 0#64, false, 0⟩ })
  | .plan p result d =>
    applyLoad p feat
    modify (fun s => { s with loading := some ⟨place, cookie, some p.job, result, 0, d, feat, bitAt (wordAt pb 0) 63,
      p.img.vrgUse⟩ })

/-- LDR starts loads: the boot is over (R726), no trip holds it (R711), and ZEN runs (R718). -/
def State.ldrOpen (s : State) : Bool := s.zenUp && s.ready && !s.flag TMD_STATUS.TRIPPED

/-- LOAD (R621, R626): LDR takes the oldest LOAD record and carries out steps 1 to 9. finding is the first breach that the
verifier proves present beside illegal encodings and padding, pads are the commands with PAD_FILL that it proves issued,
and raceFree says whether it proves races absent (R136, R617, R618). -/
def execLoad (finding : Option (Nat × Nat)) (pads : List PadUse) (raceFree : Bool) (s : State) : Out :=
  match s.ldrIn with
  | p :: t =>
    if s.loading.isNone ∧ s.up ∧ s.ldrOpen then
      rowOf (do
        modify (fun s => { s with ldrIn := t })
        loadRow (fld ((p[0]?).getD 0#64) 47 0) ((p[1]?).getD 0#64) finding pads raceFree) s
    else .next s
  | [] => .next s

/-! ## The result (R627) -/

/-- A load refused at step 10: what it claimed is released (R629). -/
def State.recheckLoad (s : State) (x : Loading) : Loading × State :=
  match x.job with
  | some j =>
    if s.enginesOk x.vrg then (x, s)
    else ({ x with job := none, result := 2, reason := rsENGINE, detail := 0#64, feat := 0#64 },
      ((s.release j).setSrvJob j SrvJob.zero).setFlag (SRV_JOB_CFG.V j) false)
  | none => (x, s)

def Loading.r0 (x : Loading) : W64 :=
  setFld (setFld (setFld (setFld 0#64 63 63 1) 62 61 x.result) 60 56 x.reason) 55 50 (x.job.getD 0)

def Loading.granule (x : Loading) : List Byte :=
  ([x.r0, x.cookie, x.detail, x.feat, 0#64, 0#64, 0#64, 0#64] : List W64).flatMap (fun w => leBytes 8 w.toNat)

/-- LOAD_RESULT (step 10 of R626, R627, R629): engines are checked again, the job becomes SAVED with HOLD, and the result
granule, the record and the message are written. -/
def execLoadResult (s : State) : Out :=
  match s.loading with
  | none => .next s
  | some x =>
    if !s.zenUp then .next s else
    let (x, s1) := s.recheckLoad x
    match (do
      let s ← get
      if s.inStore x.place then ldrWrite (x.place + 576) x.granule
      modify (fun s =>
        let s := match x.job with
          | some j => ((s.setFlag (EQX_JOB_CTL.HOLD j) x.hold).setF (EQX_JOB_STATUS.STATE j) jSAVED).noteDemandT
          | none => s
        let s := s.erq ⟨0xA0, 0, bLDR, 0, x.job, 0, x.r0⟩
        let s := (s.post 4 x.job x.r0 x.place).bump LDR_STATUS.LOADS 1
        { s with loading := none }) : EM Unit).go s1 with
    | (.error .wait, _) => .next s
    | (_, s2) => .next s2

end Sys2Proof.Machine
end

