-- ==== Sys2Proof/Machine/Pool.lean ====
section
/-! DEFINITION. The page pool, page lists and prefix index of a serving job (R491 - R495, R509 - R512, R526 - R531,
R538 - R544). -/
namespace Sys2Proof.Machine

/-! ## Pool map and page lists -/

/-- Address of the map word of page k of stack n (R494). -/
def State.mapAt (s : State) (j n k : Nat) : Nat := n * s.stackBytes + (s.srvJob j).mapOff + 8 * k

def mapWord (j n k : Nat) : EM W64 := do
  let s ← get
  pure (BitVec.ofNat 64 (← srvRdNat j (s.mapAt j n k) 8))

def mapRef (w : W64) : Nat := fld w 63 48
def mapPins (w : W64) : Nat := fld w 47 32

def setMapWord (j n k : Nat) (w : W64) : EM Unit := do
  let s ← get
  srvWrNat j (s.mapAt j n k) 8 w.toNat

/-- A page's name in a list or node (R492). -/
def pageName (n k : Nat) : Nat := 2 ^ 28 * n + k
def nameStack (p : Nat) : Nat := p / 2 ^ 28 % 16
def namePage (p : Nat) : Nat := p % 2 ^ 28
def noPage : Nat := 0xFFFFFFFF

/-- REF raised or lowered (R509). -/
def addRef (j p : Nat) (up : Bool) : EM Unit := do
  let w ← mapWord j (nameStack p) (namePage p)
  setMapWord j (nameStack p) (namePage p) (setFld w 63 48 (if up then mapRef w + 1 else mapRef w - 1))

/-- PINS raised or lowered (R510). -/
def addPin (j p : Nat) (up : Bool) : EM Unit := do
  let w ← mapWord j (nameStack p) (namePage p)
  setMapWord j (nameStack p) (namePage p) (setFld w 47 32 (if up then mapPins w + 1 else mapPins w - 1))

/-- Entry i of request r's page list (R492). -/
def pageEntry (j r i : Nat) : EM Nat := do
  let s ← get
  let x := s.srvJob j
  srvRdNat j ((x.kvh.head?).getD 0 + 64 + 4 * x.listPages * r + 4 * i) 4

/-- An entry written to every copy of the header's lists (DEDUCED, log entry 42). -/
def setPageEntry (j r i v : Nat) : EM Unit := do
  let s ← get
  let x := s.srvJob j
  for a in x.kvh do srvWrNat j (a + 64 + 4 * x.listPages * r + 4 * i) 4 v

/-- Entries that a request's list has (R531). -/
def Req.entries (r : Req) : Nat := ceilDiv (r.promptLen + r.maxNew) 16

/-- Pages named by a request's list. -/
def listPages (j r : Nat) : EM (List Nat) := do
  let s ← get
  let mut out : List Nat := []
  for i in List.range (s.req r).entries do
    let p ← pageEntry j r i
    if p ≠ noPage then out := out ++ [p]
  pure out

/-- Map words of the pool pages of stack n, in page order. -/
def poolWords (j n : Nat) : EM (List W64) := do
  let s ← get
  let mut out : List W64 := []
  for k in List.range (s.srvJob j).poolPages do out := out ++ [← mapWord j n k]
  pure out

/-- A page is free (R494). -/
def mapFree (w : W64) : Bool := mapRef w == 0 && mapPins w == 0

/-! ## Nodes of the prefix index (R538 - R540) -/

/-- A valid node: PARENT, NEXT, NS, HOLDS, PAGE, NCHILD, LAST_USE. -/
structure Node where
  idx : Nat
  v : Bool
  parent : Nat
  next : Nat
  ns : Nat
  holds : Nat
  page : Nat
  nchild : Nat
  lastUse : Nat
deriving DecidableEq, Repr

def State.nodeAt (s : State) (j i : Nat) : Nat := s.f (PXW_JOB_CFG.BASE j) + 128 * i
def State.nodeMax (s : State) (j : Nat) : Nat := s.f (PXW_JOB_NODES.NMAX j)

def readNode (j i : Nat) : EM Node := do
  let s ← get
  let bs ← srvRd j (s.nodeAt j i) 24
  let w := fun (k : Nat) => wordAt bs k
  pure ⟨i, bitAt (w 0) 63, fld (w 0) 47 24, fld (w 0) 23 0, fld (w 1) 63 48, fld (w 1) 47 32, fld (w 1) 31 0,
    fld (w 2) 63 40, fld (w 2) 39 0⟩

def writeNode (j : Nat) (d : Node) : EM Unit := do
  let s ← get
  let w0 := setFld (setFld (setFld 0#64 63 63 d.v.toNat) 47 24 d.parent) 23 0 d.next
  let w1 := setFld (setFld (setFld 0#64 63 48 d.ns) 47 32 d.holds) 31 0 d.page
  let w2 := setFld (setFld 0#64 63 40 d.nchild) 39 0 d.lastUse
  srvWr j (s.nodeAt j d.idx) (([w0, w1, w2] : List W64).flatMap (fun w => leBytes 8 w.toNat))

/-- The 16 tokens of a node. -/
def nodeToks (j i : Nat) : EM (List Nat) := do
  let s ← get
  let bs ← srvRd j (s.nodeAt j i + 32) 64
  pure ((List.range 16).map (fun k => leNat ((bs.drop (4 * k)).take 4)))

/-- Address of the chain head of a bucket (R540). -/
def State.bucketAt (s : State) (j parent ns tok : Nat) : Nat :=
  let h := (parent * 0x9E3779B1 + ns * 0x85EBCA77 + tok * 0xC2B2AE3D) % 2 ^ 32
  s.f (PXW_JOB_CFG.BASE j) + 128 * (s.nodeMax j + 1) + 4 * (h / 2 ^ (32 - s.f (PXW_JOB_CFG.LOG2B j)))

/-- Nodes of a chain from node i, in chain order; fuel bounds a damaged chain. -/
def chainFrom (j : Nat) : Nat → Nat → EM (List Node)
  | 0, _ => pure []
  | f + 1, i => do
    if i = 0 then pure []
    else
      let d ← readNode j i
      pure (d :: (← chainFrom j f d.next))

def chainOf (j parent ns tok : Nat) : EM (List Node) := do
  let s ← get
  chainFrom j (s.nodeMax j) (← srvRdNat j (s.bucketAt j parent ns tok) 4)

/-- Valid nodes. -/
def allNodes (j : Nat) : EM (List Node) := do
  let s ← get
  let mut out : List Node := []
  for i in List.range (s.nodeMax j) do
    let d ← readNode j (i + 1)
    if d.v then out := out ++ [d]
  pure out

/-- Node numbers on the way from node i to the root, i included. -/
def ancestors (ns : List Node) : Nat → Nat → List Nat
  | 0, _ => []
  | f + 1, i =>
    match ns.find? (fun d => d.idx == i) with
    | some d => i :: ancestors ns f d.parent
    | none => []

/-- Nodes that a hold keeps: held ones and their ancestors (R542), with a further hold on node x. -/
def keptNodes (ns : List Node) (x : Nat) : List Nat :=
  (ns.filter (fun d => d.holds != 0 || d.idx == x)).flatMap (fun d => ancestors ns ns.length d.idx)

/-! ## Room (R528) -/

/-- COMMIT less ALLOC over the job's admitted requests homed in stack n. -/
def State.unalloc (s : State) (j n : Nat) : Nat :=
  (((s.srvJob j).order.map s.req).filter (fun r => r.home == n)).foldl (fun a r => a + (r.commit - r.alloc)) 0

/-- FREE_n + EVICT_n − UNALLOC_n, with a further hold on node x (R528, R542). -/
def roomIn (j n x : Nat) : EM Int := do
  let ws ← poolWords j n
  let ns ← allNodes j
  let kept := keptNodes ns x
  let free := (ws.filter mapFree).length
  let evict := (ns.filter (fun d => nameStack d.page == n && !kept.contains d.idx &&
    (match ws[namePage d.page]? with
     | some w => mapRef w == 1 && mapPins w == 0
     | none => false))).length
  let s ← get
  pure ((free : Int) + evict - s.unalloc j n)

/-! ## Walks (R541, R542) -/

/-- Leading tokens that agree. -/
def agree : List Nat → List Nat → Nat
  | a :: as, b :: bs => if a = b then agree as bs + 1 else 0
  | _, _ => 0

/-- Tokens of the prompt from position m, at most n. -/
def promptToks (j : Nat) (r : Req) (m n : Nat) : EM (List Nat) := do
  let k := min n (r.promptLen - m)
  let bs ← srvRd j (r.prompt + 4 * m) (4 * k)
  pure ((List.range k).map (fun i => leNat ((bs.drop (4 * i)).take 4)))

/-- Best node of a chain for the tokens that follow, with the length it matches. -/
def bestChild (j parent ns : Nat) (toks : List Nat) : List Node → Nat × Nat → EM (Nat × Nat)
  | [], b => pure b
  | c :: cs, b => do
    if c.v && c.parent == parent && c.ns == ns then
      let k := agree (← nodeToks j c.idx) toks
      bestChild j parent ns toks cs (if k > b.2 then (c.idx, k) else b)
    else bestChild j parent ns toks cs b

/-- The loop of R541: nodes of the path with the positions matched after each, deepest last. -/
def walkLoop (j : Nat) (r : Req) (step : Nat) : Nat → Nat → Nat → List (Nat × Nat) → EM (List (Nat × Nat))
  | 0, _, _, path => pure path
  | f + 1, parent, m, path => do
    if m + 1 < r.promptLen then
      let toks := (← promptToks j r m 16).take (r.promptLen - 1 - m)
      let (best, k) ← bestChild j parent r.ns toks (← chainOf j parent r.ns ((toks.head?).getD 0)) (0, 0)
      if k = 0 then pure path
      else
        let d ← readNode j best
        writeNode j { d with lastUse := step % 2 ^ 40 }
        let path := path ++ [(best, m + k)]
        if k < 16 then pure path else walkLoop j r step f best (m + k) path
    else pure path

/-- The deepest node of a path whose hold leaves the fit of its stack non-negative, with MATCH (R542). -/
def cutMatch (j : Nat) : List (Nat × Nat) → Bool → EM (Nat × Nat)
  | [], _ => pure (0, 0)
  | (d, m) :: up, first => do
    let n := nameStack (← readNode j d).page
    if (← roomIn j n d) ≥ 0 then pure (d, if first then m else 16 * (up.length + 1))
    else cutMatch j up false

/-- Walk of a request's prompt: NODE, MATCH and HOME (R541, R542). -/
def walk (j : Nat) (r : Req) : EM (Nat × Nat × Nat) := do
  let s ← get
  let path ← walkLoop j r (s.reg (SRV_JOB_STEP.at j)).toNat (r.promptLen / 16 + 1) 0 0 []
  let (node, m) ← cutMatch j path.reverse true
  if node = 0 then pure (0, 0, 0) else pure (node, m, nameStack (← readNode j node).page)

/-- A walk's hold placed or released (R542). -/
def holdNode (j node : Nat) (up : Bool) : EM Unit := do
  if node ≠ 0 then
    let d ← readNode j node
    writeNode j { d with holds := if up then d.holds + 1 else d.holds - 1 }

/-! ## Eviction and insertion (R543, R544) -/

/-- A node before another in order of eviction. -/
def Node.sooner (a b : Node) : Bool :=
  decide (a.lastUse < b.lastUse) || (a.lastUse == b.lastUse && decide (a.idx < b.idx))

/-- The node that is evicted next, of a stack or of all (R543). -/
def victim (ns : List Node) (n : Option Nat) : Option Node :=
  (ns.filter (fun d => d.nchild == 0 && d.holds == 0 &&
    (match n with
     | some n => nameStack d.page == n
     | none => true))).foldl (fun b d => match b with
    | some x => if d.sooner x then some d else some x
    | none => some d) none

/-- A node unlinked from its chain. -/
def unlink (j : Nat) (d : Node) : EM Unit := do
  let s ← get
  let tok := ((← nodeToks j d.idx).head?).getD 0
  let b := s.bucketAt j d.parent d.ns tok
  let first ← srvRdNat j b 4
  if first = d.idx then srvWrNat j b 4 d.next
  else
    match (← chainFrom j (s.nodeMax j) first).find? (fun c => c.next == d.idx) with
    | some c => writeNode j { c with next := d.next }
    | none => pure ()

/-- Eviction of a node (R543). -/
def evictNode (j : Nat) (d : Node) : EM Unit := do
  unlink j d
  let d' ← readNode j d.idx
  writeNode j { d' with v := false }
  if d.parent ≠ 0 then
    let p ← readNode j d.parent
    writeNode j { p with nchild := p.nchild - 1 }
  addRef j d.page false
  modify (fun s => s.setF (PXW_JOB_NODES.USEDN j) (s.f (PXW_JOB_NODES.USEDN j) - 1))

/-- Evictions until a page of stack n is free or no node may go; fuel is the number of nodes. -/
def freePage (j n : Nat) : Nat → EM (Option Nat)
  | 0 => do pure ((← poolWords j n).findIdx? mapFree)
  | f + 1 => do
    match (← poolWords j n).findIdx? mapFree with
    | some k => pure (some k)
    | none =>
      match victim (← allNodes j) (some n) with
      | some d => do
        evictNode j d
        freePage j n f
      | none => pure none

/-- A page allocated from a request's commit (R495, R511, R529). -/
def allocPage (j i : Nat) : EM (Option Nat) := do
  let s ← get
  let n := (s.req i).home
  match ← freePage j n (s.nodeMax j) with
  | some k =>
    let p := pageName n k
    addRef j p true
    modify (fun s => s.setReq i { s.req i with alloc := (s.req i).alloc + 1 })
    pure (some p)
  | none => pure none

/-- A free node, by eviction of another node than the coming parent where none is free (R543, R544). -/
def freeNode (j parent : Nat) : EM (Option Nat) := do
  let s ← get
  let used := (← allNodes j).map (·.idx)
  match (List.range (s.nodeMax j)).find? (fun i => !used.contains (i + 1)) with
  | some i => pure (some (i + 1))
  | none =>
    match victim ((← allNodes j).filter (fun d => d.idx != parent)) none with
    | some d => do
      evictNode j d
      pure (some d.idx)
    | none => pure none

/-- A child of parent with all 16 tokens (R544). -/
def sameChild (j parent ns : Nat) (toks : List Nat) : EM (Option Nat) := do
  let (b, k) ← bestChild j parent ns toks (← chainOf j parent ns ((toks.head?).getD 0)) (0, 0)
  pure (if k = 16 then some b else none)

/-- A new node at the head of its chain (DEDUCED, log entry 43). -/
def addNode (j idx parent ns page : Nat) (toks : List Nat) : EM Unit := do
  let s ← get
  let b := s.bucketAt j parent ns ((toks.head?).getD 0)
  let first ← srvRdNat j b 4
  writeNode j ⟨idx, true, parent, first, ns, 0, page, 0, (s.reg (SRV_JOB_STEP.at j)).toNat % 2 ^ 40⟩
  srvWr j (s.nodeAt j idx + 32) (toks.flatMap (leBytes 4))
  srvWrNat j b 4 idx
  if parent ≠ 0 then
    let p ← readNode j parent
    writeNode j { p with nchild := p.nchild + 1 }
  addRef j page true
  modify (fun s => s.bump (PXW_JOB_NODES.USEDN j) 1)

/-- Pages i, i + 1, … of a request's prompt inserted beneath a node (R544); fuel is their number. -/
def insertPages (j q : Nat) : Nat → Nat → Nat → EM Unit
  | 0, _, _ => pure ()
  | f + 1, i, parent => do
    let s ← get
    let r := s.req q
    let toks ← promptToks j r (16 * i) 16
    match ← sameChild j parent r.ns toks with
    | some d => insertPages j q f (i + 1) d
    | none =>
      match ← freeNode j parent with
      | none => pure ()
      | some d =>
        addNode j d parent r.ns (← pageEntry j q i) toks
        insertPages j q f (i + 1) d

/-- The node of the prompt's first n whole pages, found from the root; none where it is no longer in the index. -/
def pathNode (j : Nat) (r : Req) : Nat → Nat → Nat → EM (Option Nat)
  | 0, _, parent => pure (some parent)
  | f + 1, i, parent => do
    match ← sameChild j parent r.ns (← promptToks j r (16 * i) 16) with
    | some d => pathNode j r f (i + 1) d
    | none => pure none

/-- Insertion of a request's pages when it enters DECODE (R544). -/
def insertPrompt (j q : Nat) : EM Unit := do
  let s ← get
  let r := s.req q
  let i0 := r.matched / 16
  match ← pathNode j r i0 0 0 with
  | some d => insertPages j q (r.promptLen / 16 - i0) i0 d
  | none => pure ()

end Sys2Proof.Machine
end

