-- ==== Sys2Proof/Machine/Sampler.lean ====
section
/-! DEFINITION. The sampler SMP (chapter 14): parameter block, sampler state block and grammar (R558 - R561), the order of
application (R565, R566), draws (R567), drafts (R573), acceptance and residuals (R574, R575), and commit points
(R545, R569, R570). -/
namespace Sys2Proof.Machine

/-! ## What a request names (R558 - R561) -/

/-- The parameter block as its fields read (R558). -/
structure Param where
  temp : FVal
  greedy : Bool
  topP : FVal
  minP : FVal
  topK : Nat
  specD : Nat
  rep : FVal
  pres : FVal
  freq : FVal
  hwin : Nat
  seed : BitVec 128
  ssb : Nat
  gram : Nat
  bias : List (Nat × FVal)
  stops : List Nat
deriving DecidableEq, Repr

def fOne : FVal := FVal.ofInt 1

def f32Of (n : Nat) : FVal := ofBits32 (BitVec.ofNat 32 n)

def isInf (x : FVal) : Bool := match x with
  | .inf _ => true
  | _ => false

/-- 32-bit words of bytes. -/
def words32 (bs : List Byte) (n : Nat) : List Nat := (List.range n).map (fun i => leNat ((bs.drop (4 * i)).take 4))

/-- The block read through the job's segments. -/
def readParam (j a : Nat) : EM Param := do
  let bs ← smpRd j a 128
  let w := fun (k : Nat) => wordAt bs k
  let temp := f32Of (fld (w 0) 63 32)
  let topP := f32Of (fld (w 0) 31 0)
  let minP := f32Of (fld (w 1) 63 32)
  let rep := f32Of (fld (w 2) 63 32)
  let topK := fld (w 1) 31 16
  let nb := min 64 (fld (w 8) 63 56)
  let bl ← smpRd j (fld (w 8) 47 0) (8 * nb)
  let bw := words32 bl (2 * nb)
  pure {
    temp := temp
    greedy := temp.isNan || !FVal.zero.lt temp
    topP := if !topP.isNan && FVal.zero.lt topP && topP.le fOne then topP else fOne
    minP := if !minP.isNan && FVal.zero.le minP && minP.lt fOne then minP else .zero
    topK := if 1 ≤ topK ∧ topK ≤ 4096 then topK else 4096
    specD := min 8 (fld (w 1) 3 0)
    rep := if !rep.isNan && !isInf rep && FVal.zero.lt rep then rep else fOne
    pres := f32Of (fld (w 2) 31 0)
    freq := f32Of (fld (w 3) 63 32)
    hwin := min 4096 (fld (w 3) 12 0)
    seed := BitVec.ofNat 128 ((w 4).toNat + 2 ^ 64 * (w 5).toNat)
    ssb := fld (w 6) 47 0
    gram := fld (w 7) 47 0
    bias := (List.range nb).map (fun i => ((bw[2 * i]?).getD 0, f32Of ((bw[2 * i + 1]?).getD 0)))
    stops := (words32 (bs.drop 72) 8).filter (fun x => x != 0xFFFFFFFF) }

/-- A grammar table: START, NSTATES, MASKS, NEXT (R561). -/
structure Gram where
  start : Nat
  states : Nat
  masks : Nat
  next : Nat
deriving DecidableEq, Repr

def readGram (j : Nat) (p : Param) : EM (Option Gram) := do
  if p.gram = 0 then pure none
  else
    let bs ← smpRd j p.gram 24
    pure (some ⟨fld (wordAt bs 0) 31 16, fld (wordAt bs 0) 15 0 + 1, fld (wordAt bs 1) 47 0, fld (wordAt bs 2) 47 0⟩)

/-- A state of NSTATES or above reads as state 0 (R561). -/
def Gram.state (g : Gram) (s : Nat) : Nat := if s < g.states then s else 0

/-- GSTATE, HCOUNT, HHEAD, VCOUNT of an SSB (R560). -/
structure Ssb where
  gstate : Nat
  hcount : Nat
  hhead : Nat
  vcount : Nat
deriving DecidableEq, Repr

def readSsb (j a : Nat) : EM Ssb := do
  let bs ← smpRd j a 64
  pure ⟨fld (wordAt bs 0) 63 48, fld (wordAt bs 0) 12 0, fld (wordAt bs 1) 11 0, fld (wordAt bs 6) 31 0⟩

def writeSsbHead (j a : Nat) (x : Ssb) : EM Unit := do
  smpWr j a (leBytes 8 (setFld (setFld 0#64 63 48 x.gstate) 12 0 x.hcount).toNat ++ leBytes 8 (x.hhead % 4096))

def writeVcount (j a v : Nat) : EM Unit := smpWrNat j (a + 48) 8 (v % 2 ^ 32)

/-- History tokens, oldest first. -/
def readHistory (j a : Nat) (x : Ssb) : EM (List Nat) := do
  let bs ← smpRd j (a + 64) 16384
  let ws := words32 bs 4096
  pure ((List.range x.hcount).map (fun i => (ws[(x.hhead + i) % 4096]?).getD 0))

/-- SMP's part of an admission (R560, R569). -/
def smpAdmit (j i : Nat) : EM Unit := do
  let s ← get
  let r := s.req i
  let p ← readParam j r.param
  let g ← readGram j p
  let n := min p.hwin r.promptLen
  let toks ← smpRd j (r.prompt + 4 * (r.promptLen - n)) (4 * n)
  let h ← smpRd j (r.ring + 16) 8
  let l := fld (wordAt h 0) 4 0
  modify (fun s => s.setReq i { s.req i with log2n := if 4 ≤ l ∧ l ≤ 20 then l else 20 })
  writeSsbHead j p.ssb ⟨(match g with | some g => g.start | none => 0), n, 0, 0⟩
  writeVcount j p.ssb 0
  smpWr j (p.ssb + 64) toks

/-! ## Choosing a token (R565, R566) -/

/-- A kept candidate: token, e_j and p_j. -/
structure Cand where
  tok : Nat
  e : FVal
  p : FVal
deriving DecidableEq, Repr

/-- What R565 makes of a logit row before the draw. -/
inductive Choice where
  | dead
  | greedy (tok : Nat)
  | dist (cs : List Cand)
deriving DecidableEq, Repr

/-- Step 1: tokens with their logits, without those that are excluded. -/
def admitted (xs : List FVal) (mask : Option (List Byte)) : List (Nat × FVal) :=
  ((List.range xs.length).zip xs).filter (fun p => !p.2.isNan &&
    (match mask with
     | some m => ((m[p.1 / 8]?).getD 0#8).toNat.testBit (p.1 % 8)
     | none => true))

/-- Step 2. -/
def biased (bias : List (Nat × FVal)) (xs : List (Nat × FVal)) : List (Nat × FVal) :=
  xs.map (fun p => (p.1, bias.foldl (fun x b => if b.1 = p.1 then fadd x b.2 else x) p.2))

/-- Step 3 for a token that the history holds c times. -/
def penalised (q : Param) (x : FVal) (c : Nat) : FVal :=
  let x := if FVal.zero.lt x then fdiv x q.rep else fmul x q.rep
  ffma q.freq.neg (FVal.ofInt c) (fsub x q.pres)

def penalties (q : Param) (hist : List Nat) (xs : List (Nat × FVal)) : List (Nat × FVal) :=
  xs.map (fun p =>
    let c := (hist.filter (fun h => h == p.1)).length
    if c = 0 then p else (p.1, penalised q p.2 c))

/-- Step 4: the largest, the lowest token on a tie. -/
def greedyOf : List (Nat × FVal) → Option (Nat × FVal)
  | [] => none
  | p :: ps => some (ps.foldl (fun b x => if b.2.lt x.2 then x else b) p)

/-- Insertion by y descending, then token ascending. -/
def insertCand (c : Nat × FVal) : List (Nat × FVal) → List (Nat × FVal)
  | [] => [c]
  | d :: ds => if d.2.lt c.2 || (!c.2.lt d.2 && decide (c.1 < d.1)) then c :: d :: ds else d :: insertCand c ds

def sortCands (l : List (Nat × FVal)) : List (Nat × FVal) := l.foldr insertCand []

/-- Running sums of a list in order, one RNE addition at a time. -/
def runningSums : FVal → List FVal → List FVal
  | _, [] => []
  | a, x :: xs => fadd a x :: runningSums (fadd a x) xs

def sumInOrder (xs : List FVal) : FVal := ((runningSums .zero xs).getLast?).getD .zero

def isNegInf (x : FVal) : Bool := isInf x && x.isNeg

/-- Steps 5 to 9 and R566. -/
def distOf (q : Param) (xs : List (Nat × FVal)) : Choice :=
  let ys := (xs.map (fun p => (p.1, fdiv p.2 q.temp))).filter (fun p => !p.2.isNan && !isNegInf p.2)
  let cs := (sortCands ys).take q.topK
  match cs with
  | [] => .dead
  | c0 :: _ =>
    let es := cs.map (fun c => (c.1, fexp (fsub c.2 c0.2)))
    let run := runningSums .zero (es.map (·.2))
    let thr := fmul q.topP ((run.getLast?).getD .zero)
    let n := match run.findIdx? (fun r => thr.le r) with
      | some i => i + 1
      | none => es.length
    let kept := (es.take 1) ++ ((es.take n).drop 1).filter (fun c => !c.2.lt q.minP)
    let sum := sumInOrder (kept.map (·.2))
    .dist (kept.map (fun c => ⟨c.1, c.2, fdiv c.2 sum⟩))

/-- Steps 1 to 9 for a row. A value that steps 2 and 3 make NaN is excluded (DEDUCED, log entry 44). -/
def chooseRow (q : Param) (mask : Option (List Byte)) (hist : List Nat) (xs : List FVal) : Choice :=
  let l := (penalties q hist (biased q.bias (admitted xs mask))).filter (fun p => !p.2.isNan)
  if q.greedy then
    match greedyOf l with
    | some p => .greedy p.1
    | none => .dead
  else distOf q l

/-- The uniform of a draw (R567). -/
def draw (q : Param) (t d v : Nat) : FVal := .fin false ((chaCha8Word q.seed t d v).toNat / 256) (-24)

/-- Step 10 over weights in candidate order. -/
def pick (u : FVal) (ws : List (Nat × FVal)) : Option Nat :=
  let run := runningSums .zero (ws.map (·.2))
  let target := fmul u ((run.getLast?).getD .zero)
  match run.findIdx? (fun r => target.lt r) with
  | some i => (ws[i]?).map (·.1)
  | none => (ws.getLast?).map (·.1)

/-- The token of a choice under a draw of kind d; none for a dead row. -/
def Choice.sample (c : Choice) (u : FVal) : Option Nat :=
  match c with
  | .dead => none
  | .greedy t => some t
  | .dist cs => pick u (cs.map (fun x => (x.tok, x.e)))

/-- p of a token in a choice (R566). -/
def Choice.prob (c : Choice) (t : Nat) : FVal :=
  match c with
  | .dist cs => match cs.find? (fun x => x.tok == t) with
    | some x => x.p
    | none => .zero
  | _ => .zero

/-- The residual sample of R575. -/
def residual (c : Choice) (q : List (Nat × FVal)) (u : FVal) : Option Nat :=
  match c with
  | .dist cs =>
    let qOf := fun (t : Nat) => match q.find? (fun x => x.1 == t) with
      | some x => x.2
      | none => FVal.zero
    let rs := cs.map (fun x => (x.tok, FVal.maximum .zero (fsub x.p (qOf x.tok))))
    if (sumInOrder (rs.map (·.2))).isZero then pick u (cs.map (fun x => (x.tok, x.p))) else pick u rs
  | _ => none

/-! ## Rows -/

/-- The handoff's fields (R562). -/
structure Hand where
  lfmt : Nat
  logits : Nat
  v : Nat
  stride : Nat
  didx : Nat
  mode : Nat
  out : Nat
  doneTok : Nat
deriving DecidableEq, Repr

def Hand.ofWords (ws : List W64) : Hand :=
  let w := fun (k : Nat) => (ws[k]?).getD 0#64
  ⟨fld (w 2) 52 48, fld (w 2) 47 0, fld (w 3) 55 32 + 1, fld (w 3) 31 0, fld (w 4) 7 4, fld (w 4) 1 0, fld (w 5) 47 0,
    fld (w 6) 7 0⟩

/-- Logit format; a growth code is taken as FP32 (DEDUCED, log entry 44). -/
def Hand.fmt (h : Hand) : Fmt := if h.lfmt = 2 then .bf16 else if h.lfmt = 3 then .fp16 else .fp32

/-- Logit row k, widened exactly (R563). -/
def readLogits (j : Nat) (h : Hand) (k : Nat) : EM (List FVal) := do
  let b := h.fmt.bits / 8
  let bs ← smpRd j (h.logits + b * (k * h.stride)) (b * h.v)
  pure ((List.range h.v).map (fun i => h.fmt.decode (leNat ((bs.drop (b * i)).take b))))

/-- What a sampled row gives: its choice, the parameters and sampler state used, and whether a NaN was excluded. -/
structure RowView where
  q : Param
  ssb : Ssb
  choice : Choice
  nan : Bool
deriving DecidableEq, Repr

/-- R565 steps 1 to 9 for request i and logit row k. -/
def viewRow (j i : Nat) (h : Hand) (k : Nat) : EM RowView := do
  let s ← get
  let q ← readParam j (s.req i).param
  let x ← readSsb j q.ssb
  let hist ← readHistory j q.ssb x
  let xs ← readLogits j h k
  let mask ← match ← readGram j q with
    | none => pure (none : Option (List Byte))
    | some g => do
      let m ← smpRd j (g.masks + g.state x.gstate * 64 * ceilDiv h.v 512) (ceilDiv h.v 8)
      pure (some m)
  pure ⟨q, x, chooseRow q mask hist xs, xs.any FVal.isNan⟩

/-! ## Commit points (R545, R569, R570) -/

def State.planesNow (s : State) (j : Nat) : Nat := s.f (SRV_JOB_STATUS.STEP_PLANES j)
def State.full (s : State) (j : Nat) : Nat := s.f (DSK_JOB_CTL.FULL j)

/-- An entry written to the output ring, then PROD (R569, R570). -/
def writeEntry (j i : Nat) (w : W64) : EM Unit := do
  let s ← get
  let r := s.req i
  let prod ← smpRdNat j r.ring 8
  smpWrNat j (r.ring + 64 + 8 * (prod % 2 ^ r.log2n)) 8 w.toNat
  smpWrNat j r.ring 8 ((prod + 1) % 2 ^ 64)

/-- The ring entry of a token or dead row. -/
def ringEntry (low nan : Bool) (endc t tok : Nat) : W64 :=
  let w := setFld (setFld (setFld 0#64 63 63 (if endc = 0 then 0 else 1)) 62 62 low.toNat) 61 59 endc
  setFld (setFld (setFld w 58 58 nan.toNat) 52 32 t) 31 0 tok

/-- GSTATE and history after a delivered token (R560, R570). -/
def afterToken (j : Nat) (q : Param) (next : Option Nat) (tok : Nat) : EM Unit := do
  let x ← readSsb j q.ssb
  let gs := next.getD x.gstate
  if q.hwin = 0 then writeSsbHead j q.ssb { x with gstate := gs }
  else
    let slot := (x.hhead + x.hcount) % 4096
    smpWrNat j (q.ssb + 64 + 4 * slot) 4 tok
    if x.hcount ≥ q.hwin then writeSsbHead j q.ssb { x with gstate := gs, hhead := (x.hhead + 1) % 4096 }
    else writeSsbHead j q.ssb { x with gstate := gs, hcount := x.hcount + 1 }

/-- The token delivered, and its effects on the request (R545, R569). The lowest ENDC that holds is written (log
entry 44). -/
def deliver (j i : Nat) (h : Hand) (p : Pend) : EM Unit := do
  let s ← get
  let r := s.req i
  let q ← readParam j r.param
  let low := decide (s.planesNow j < s.full j)
  let x ← readSsb j q.ssb
  let next ← match ← readGram j q with
    | none => pure (none : Option Nat)
    | some g => do
      let n ← smpRdNat j (g.next + 2 * (g.state x.gstate * h.v + p.token)) 2
      pure (some n)
  let endc := if q.stops.contains p.token then 1 else if r.delivered + 1 ≥ r.maxNew then 2
    else if next = some 0xFFFF then 3 else 0
  writeEntry j i (ringEntry low p.nan endc r.delivered p.token)
  afterToken j q next p.token
  let enters := r.state == qPREFILL && endc == 0
  modify (fun s =>
    let r := s.req i
    let r := { r with delivered := r.delivered + 1, low := r.low || low }
    let st := if endc ≠ 0 then qDONE else if enters then qDECODE else r.state
    s.setReq i { r with state := st })
  if enters && r.pfxIns then insertPrompt j i

/-- What a commit point decides first: a cancelled request ends, and so does one whose deadline has passed (R545). -/
def State.judgeEnd (s : State) (i : Nat) : State :=
  let r := s.req i
  if !r.alive then s
  else if r.cancel then s.endReq i qCANCELLED
  else if r.left = 0 then s.endReq i qEXPIRED
  else s

/-- The commit point of row token p of request i: none while it waits for room in the output ring (R570); otherwise
whether the token was delivered (R545) (DEDUCED, log entry 64). -/
def commitPoint (j i : Nat) (h : Hand) (p : Pend) : EM (Option Bool) := do
  let s ← get
  let r := s.req i
  if !((s.judgeEnd i).req i).alive then do
    set (s.judgeEnd i)
    pure (some false)
  else
    let prod ← smpRdNat j r.ring 8
    let cons ← smpRdNat j (r.ring + 8) 8
    if (prod + 2 ^ 64 - cons) % 2 ^ 64 = 2 ^ r.log2n then pure none
    else if p.dead then do
      writeEntry j i (ringEntry (decide (s.planesNow j < s.full j)) p.nan 4 r.delivered 0xFFFFFFFF)
      modify (fun s => (s.endReq i qDONE).bumpSat (SMP_JOB_DEAD.DEAD j) 1)
      pure (some false)
    else do
      deliver j i h p
      pure (some true)

/-! ## Drafts (R573) -/

/-- The distribution of draft d stored in the SSB. -/
def storeDraft (j : Nat) (q : Param) (d : Nat) (cs : List (Nat × FVal)) : EM Unit := do
  smpWrNat j (q.ssb + 16 + 4 * d) 4 cs.length
  smpWr j (q.ssb + 0x5000 + 0x8000 * d) (cs.flatMap (fun c => leBytes 4 c.1 ++ leBytes 4 (toBits32 c.2).toNat))

/-- The stored distribution of draft d. -/
def readDraft (j : Nat) (q : Param) (d : Nat) : EM (List (Nat × FVal)) := do
  let n := (← smpRdNat j (q.ssb + 16 + 4 * d) 4) % 2 ^ 16
  let bs ← smpRd j (q.ssb + 0x5000 + 0x8000 * d) (8 * min 4096 n)
  let ws := words32 bs (2 * min 4096 n)
  pure ((List.range (min 4096 n)).map (fun i => ((ws[2 * i]?).getD 0, f32Of ((ws[2 * i + 1]?).getD 0))))

/-- A token that the spec leaves open, for token index t: of the job's own inputs alone, so that two runs of a DET job
agree on it (R43; DESIGN CHOICE, log entry 1). -/
def freeToken (v : RowView) (t : Nat) : Nat := (Config.freeDraft v.q.seed t v.ssb.vcount).toNat

/-- Draft d of a row: its token, with its distribution stored (R573). -/
def draftRow (j k : Nat) (h : Hand) (row : RowSt) : EM Nat := do
  let v ← viewRow j row.idx h k
  let c := match v.choice with
    | .dist cs => cs.map (fun x => (x.tok, x.p))
    | .greedy t => [(t, fOne)]
    | .dead => []
  storeDraft j v.q h.didx c
  pure ((v.choice.sample (draw v.q (row.t0 + h.didx) 1 v.ssb.vcount)).getD (freeToken v (row.t0 + h.didx)))

/-! ## Verification (R574) -/

/-- The next commit of a verify pass: a draft that is accepted, the token that replaces it, or the token after all
drafts. -/
def verifyNext (j : Nat) (h : Hand) (row : RowSt) : EM (Pend × Bool) := do
  let k := row.next
  let v ← viewRow j row.idx h (row.row0 + k)
  let t := row.t0 + k
  let mk := fun (o : Option Nat) (final : Bool) => (⟨o.getD 0, v.nan, o.isNone, final⟩ : Pend)
  if k < row.drafts then
    let x := ((row.drafted.find? (fun p => p.1 == k)).map (·.2)).getD (freeToken v t)
    if v.q.greedy then
      let c := v.choice.sample .zero
      if c = some x then pure (mk (some x) false, true) else pure (mk c true, false)
    else
      let q ← readDraft j v.q k
      let qx := match q.find? (fun p => p.1 == x) with
        | some p => p.2
        | none => FVal.zero
      let u := draw v.q t 2 v.ssb.vcount
      if ((u.mul qx).le (v.choice.prob x)) then pure (mk (some x) false, true)
      else pure (mk (residual v.choice q (draw v.q t 3 0)) true, false)
  else pure (mk (v.choice.sample (draw v.q t 0 0)) true, false)

/-! ## A row's part of a handoff -/

def rowAt (x : SrvJob) (i : Nat) : RowSt := (x.rows[i]?).getD ⟨0, 0, 0, 0, 0, 0, 0, 0, [], none, none, true⟩

def setRow (j i : Nat) (r : RowSt) : EM Unit :=
  modify (fun s => s.setSrvJob j { s.srvJob j with rows := listSet (s.srvJob j).rows i r })

/-- Row i is passed: its next length is what it committed positions for (R576). -/
def passRow (j i : Nat) (verify : Bool) : EM Unit := do
  let s ← get
  let r := rowAt (s.srvJob j) i
  setRow j i { r with passed := true, wait := none,
                      nq := if verify && r.drafts != 0 then r.accepted + 1 else r.nq }

/-- The row's request is sampled in a SAMPLE handoff (R564). -/
def State.sampled (s : State) (r : RowSt) : Bool :=
  let q := s.req r.idx
  (q.state == qPREFILL && decide (r.pos + r.nq ≥ q.promptLen)) || q.state == qDECODE || q.state == qDRAINING

/-- The token that the row's commit point has or awaits. -/
def nextPend (j : Nat) (h : Hand) (verify : Bool) (r : RowSt) : EM Pend := do
  match r.wait with
  | some p => pure p
  | none =>
    if verify && r.drafts != 0 then
      let (p, acc) ← verifyNext j h r
      if acc then modify (fun s => s.bumpSat (SMP_JOB_SPEC.ACCEPTED j) 1)
      pure p
    else
      let v ← viewRow j r.idx h (r.row0 + r.nq - 1)
      let s ← get
      let o := v.choice.sample (draw v.q (s.req r.idx).delivered 0 0)
      pure ⟨o.getD 0, v.nan, o.isNone, true⟩

/-- Row i handled to its end, or until a commit point waits; fuel bounds the commits of one row. -/
def runRow (j i : Nat) (h : Hand) (verify : Bool) : Nat → EM Bool
  | 0 => do
    passRow j i verify
    pure true
  | f + 1 => do
    let s ← get
    let r := rowAt (s.srvJob j) i
    if r.wait.isNone && !s.sampled r then do
      passRow j i verify
      pure true
    else
      let p ← nextPend j h verify r
      match ← commitPoint j r.idx h p with
      | none => do
        setRow j i { r with wait := some p }
        pure false
      | some ok =>
        let r := { r with wait := none, last := if ok then some p.token else r.last,
                          accepted := if p.final then r.accepted else r.accepted + 1, next := r.next + 1 }
        setRow j i r
        let s ← get
        if p.final || !(s.req r.idx).alive then do
          passRow j i verify
          pure true
        else runRow j i h verify f

/-- Rows from i onward, in batch order; fuel is their number. False while one waits. -/
def runRows (j : Nat) (h : Hand) (verify : Bool) : Nat → Nat → EM Bool
  | 0, _ => pure true
  | f + 1, i => do
    let s ← get
    if (rowAt (s.srvJob j) i).passed then runRows j h verify f (i + 1)
    else if ← runRow j i h verify 10 then runRows j h verify f (i + 1)
    else pure false

/-- The end of a SAMPLE or VERIFY handoff: TOK_OUT of every row, and VCOUNT after a VERIFY (R564, R574). It ends the
step, which is the commit point of the rows that produced no token (R533, R545, R549). -/
def endHandoff (j : Nat) (h : Hand) (verify : Bool) : EM Unit := do
  let s ← get
  let rows := (s.srvJob j).rows
  for p in (List.range rows.length).zip rows do
    smpWrNat j (h.out + 4 * p.1) 4 (p.2.last.getD 0xFFFFFFFF)
    if verify && p.2.drafts != 0 then
      let q ← readParam j (s.req p.2.idx).param
      let x ← readSsb j q.ssb
      writeVcount j q.ssb (x.vcount + 1)
  for r in rows do
    if r.next = 0 then modify (fun s => s.judgeEnd r.idx)
  modify (fun s => s.setSrvJob j { s.srvJob j with handoff := none, handed := true, begun := false })

/-- A SAMPLE or VERIFY handoff begun or continued (R564, R570). -/
def goHandoff (j : Nat) (h : Hand) (verify : Bool) : EM Unit := do
  modify (fun s => s.setSrvJob j { s.srvJob j with begun := true })
  let s ← get
  let done ← runRows j h verify (s.srvJob j).rows.length 0
  if done then endHandoff j h verify
  modify (fun s => s.setFlag (SMP_JOB_STATUS.RING_WAIT j) (!done))

/-- A DRAFT handoff (R564, R573). -/
def goDraft (j : Nat) (h : Hand) : EM Unit := do
  let s ← get
  let rows := (s.srvJob j).rows
  for p in (List.range rows.length).zip rows do
    if p.2.drafts > h.didx then
      let t ← draftRow j p.1 h p.2
      smpWrNat j (h.out + 4 * p.1) 4 t
      setRow j p.1 { p.2 with drafted := p.2.drafted.filter (fun d => d.1 != h.didx) ++ [(h.didx, t)] }
      modify (fun s => s.bumpSat (SMP_JOB_SPEC.DRAFTED j) 1)
  modify (fun s =>
    let s := s.setSrvJob j { s.srvJob j with handoff := none }
    s.signal j (s.f (SRV_JOB_CFG.LEAD j)) h.doneTok 1)

/-! ## The rows SAMPLE, DRAFT, VERIFY and RING_ROOM -/

/-- The handoff that job j's sampler has to begin, in one of the given modes. -/
def State.handoffOf (s : State) (j : Nat) (modes : List Nat) (begun : Bool) : Option Hand :=
  let x := s.srvJob j
  match x.handoff with
  | some ws =>
    let h := Hand.ofWords ws
    if s.serves j && s.up && x.running && x.begun == begun && modes.contains h.mode then some h else none
  | none => none

/-- SAMPLE (R564); MODE 3 is growth and is taken as SAMPLE (DEDUCED, log entry 44). -/
def execSample (j : Nat) (s : State) : Out :=
  match s.handoffOf j [0, 3] false with
  | some h => rowOf (goHandoff j h false) s
  | none => .next s

/-- DRAFT (R564, R573). -/
def execDraft (j : Nat) (s : State) : Out :=
  match s.handoffOf j [1] false with
  | some h => rowOf (goDraft j h) s
  | none => .next s

/-- VERIFY (R564, R574). -/
def execVerify (j : Nat) (s : State) : Out :=
  match s.handoffOf j [2] false with
  | some h => rowOf (goHandoff j h true) s
  | none => .next s

/-- RING_ROOM (R570): a commit point that waited looks again. -/
def execRingRoom (j : Nat) (s : State) : Out :=
  match s.handoffOf j [0, 2, 3] true with
  | some h => rowOf (goHandoff j h (h.mode == 2)) s
  | none => .next s

end Sys2Proof.Machine
end

