-- ==== Sys2Proof/Machine/Serving.lean ====
section
/-! DEFINITION. The serving block's commands (chapter 13): requests and cancels (R516 - R518, R550), admission (R526 -
R532), step boundaries and launches (R533 - R537), deadlines and planes (R551 - R555), and the request window
(R556). -/
namespace Sys2Proof.Machine

/-! ## Results of admission -/

/-- RESULT and REASON codes of R521 and R523. -/
def raADMIT : Nat := 1
def raDEFER : Nat := 2
def raREFUSE : Nat := 3
def rnMEM : Nat := 1
def rnTIME : Nat := 2
def rnQUEUE : Nat := 3
def rnQUOTA : Nat := 4
def rnFORMAT : Nat := 5

def State.quota (s : State) (j : Nat) : Nat := s.f (SRV_JOB_QUOTA.PAGES j)
def State.maxBatch (s : State) (j : Nat) : Nat := s.f (SRV_JOB_CFG.MAXB j) + 1
def State.chunk (s : State) (j : Nat) : Nat := s.f (SRV_JOB_CFG.CHUNK j)

/-- COMMITTED (R532, R556). -/
def State.committed (s : State) (j : Nat) : Nat := (((s.srvJob j).order.map s.req).map (·.commit)).sum

/-- ALLOCATED (R556). -/
def State.allocated (s : State) (j : Nat) : Nat := (((s.srvJob j).order.map s.req).map (·.alloc)).sum

/-- Request a goes before b in admission order (R530). -/
def Req.ahead (a b : Req) : Bool :=
  if a.prio != b.prio then decide (a.prio < b.prio)
  else if a.left != b.left then decide (a.left < b.left)
  else decide (a.arrival < b.arrival)

/-- The job's QUEUED requests in admission order. -/
def State.queueOrder (s : State) (j : Nat) : List Nat :=
  (s.queuedOf j).foldr (fun i l =>
    (l.takeWhile (fun k => (s.req k).ahead (s.req i))) ++ i :: l.dropWhile (fun k => (s.req k).ahead (s.req i))) []

/-- QPOS of a QUEUED request (R523). -/
def State.qposOf (s : State) (j i : Nat) : Nat :=
  1 + ((s.queuedOf j).filter (fun k => (s.req k).ahead (s.req i))).length

/-! ## Observation of a REQUEST (R518) -/

/-- A request as its payload gives it (R516). -/
def reqOf (ws : List W64) : Req :=
  let w := fun (k : Nat) => (ws[k]?).getD 0#64
  { Req.zero with
    job := fld (w 0) 63 58, prio := fld (w 0) 57 54, floor := fld (w 0) 53 50, pfxUse := bitAt (w 0) 49,
    pfxIns := bitAt (w 0) 48, ns := fld (w 0) 15 0, cookie := w 1, promptLen := fld (w 2) 41 21,
    maxNew := fld (w 2) 20 0, left := fld (w 3) 63 32, prompt := fld (w 4) 47 0, param := fld (w 5) 47 0,
    ring := fld (w 6) 47 0 }

/-- Check 1 of R518. -/
def State.requestFormat (s : State) (ws : List W64) (r : Req) : Bool :=
  let w := fun (k : Nat) => (ws[k]?).getD 0#64
  let j := r.job
  fld (w 0) 47 16 == 0 && fld (w 2) 63 42 == 0 && fld (w 3) 31 0 == 0 && w 7 == 0#64 &&
  fld (w 4) 63 48 == 0 && fld (w 5) 63 48 == 0 && fld (w 6) 63 48 == 0 &&
  (r.floor == 0 || (decide (2 ≤ r.floor) && decide (r.floor ≤ s.full j))) &&
  decide (1 ≤ r.promptLen) && decide (r.promptLen ≤ 2 ^ 20) && decide (1 ≤ r.maxNew) && decide (r.maxNew ≤ 2 ^ 20) &&
  decide (r.promptLen + r.maxNew ≤ min (2 ^ 20) (16 * (s.srvJob j).listPages)) &&
  s.segOk j r.prompt (4 * r.promptLen) false && s.segOk j r.ring 64 true

/-- Lowest FREE entry of the 32,768. -/
def State.freeReq (s : State) : Option Nat :=
  (List.range (min 32768 (s.rqt.length + 1))).find? (fun i => (s.req i).state == qFREE)

/-- A result record that its action makes; the caller has found room for it (R520). -/
def result (j : Nat) (ws : List W64) : EM Unit := do
  writeResult j ws
  showHold j

/-- An immediate refusal: no entry is held. -/
def refuseNow (j : Nat) (r : Req) (reason : Nat) : EM Unit :=
  result j (resWords evREFUSE reason true j 0 { r with state := qREFUSED } 0)

/-- R518 for the payload of a REQUEST of a serving job (DEDUCED, log entry 63). -/
def observeRequest (ws : List W64) : EM Unit := do
  let s ← get
  let r := { reqOf ws with arrival := s.arrivals }
  let j := r.job
  set { s with arrivals := s.arrivals + 1 }
  if !s.requestFormat ws r then refuseNow j r rnFORMAT
  else
    match s.freeReq with
    | none => refuseNow j r rnQUEUE
    | some i =>
      if s.queuedAll ≥ 4096 then refuseNow j r rnQUEUE
      else if r.left = 0 then refuseNow j r rnTIME
      else do
        let (node, m, home) ← if r.pfxUse then walk j r else pure (0, 0, 0)
        let r := { r with node := node, matched := m, home := home,
                          commit := ceilDiv (r.promptLen + r.maxNew) 16 - ceilDiv m 16 + 1 }
        if r.commit > s.quota j then refuseNow j r rnQUOTA
        else if r.commit > (s.srvJob j).poolPages then refuseNow j r rnMEM
        else do
          holdNode j node true
          let r := { r with state := qQUEUED, result := raDEFER, reason := rnQUEUE }
          modify (fun s => s.setReq i r)
          modify (fun s => s.setReq i { r with qpos := s.qposOf j i })
          let s ← get
          result j (resWords evDEFER rnQUEUE false j i (s.req i) (s.req i).qpos)

/-! ## Cancels (R550) -/

/-- R550 for the payload of a CANCEL of a serving job. -/
def observeCancel (ws : List W64) : EM Unit := do
  let s ← get
  let c0 := (ws[0]?).getD 0#64
  let cookie := (ws[1]?).getD 0#64
  let j := fld c0 63 58
  let i := fld c0 14 0
  let r := s.req i
  let growth := fld c0 57 15 == 0 && (ws.drop 2).all (fun w => w == 0#64)
  if !growth || r.state == qFREE || r.job != j || r.cookie != cookie then
    result j (resWords evBAD 0 true j 0 { Req.zero with cookie := cookie } 0)
  else if r.state = qQUEUED then do
    holdNode j r.node false
    modify (fun s => s.setReq i { s.req i with state := qCANCELLED, qpos := 0 })
    let s ← get
    result j (resWords evFINAL 0 false j i (s.req i) (s.req i).delivered)
  else if r.state = qPREFILL ∨ r.state = qDECODE then
    set (s.setReq i { r with cancel := true, state := qDRAINING })
  else if r.state = qDRAINING then pure ()
  else result j (resWords evTOOLATE 0 false j i r 0)

/-- The first record of a kind whose job can take its result now, as its place in the list; jobs whose record waits are
marked RES_WAIT (R520), and a boundary that is under way goes first (R534). -/
def firstReady (kind : Nat) : List (Nat × List W64) → Nat → List Nat → EM (Option Nat)
  | [], _, _ => pure none
  | p :: ps, k, seen => do
    let s ← get
    let j := srvInJob p
    if seen.contains j then firstReady kind ps (k + 1) seen
    else if p.1 = kind ∧ !(s.srvJob j).bnd ∧ ¬(kind = 2 ∧ (s.srvJob j).ready) then
      if ← resRoom j then pure (some k)
      else do
        modify (fun s => s.setFlag (SRV_JOB_STATUS.RES_WAIT j) true)
        firstReady kind ps (k + 1) (j :: seen)
    else firstReady kind ps (k + 1) (j :: seen)

/-- One record of a kind taken and handled. -/
def takeRecord (kind : Nat) (work : List W64 → EM Unit) : EM Unit := do
  let s ← get
  match ← firstReady kind s.srvIn 0 [] with
  | some k =>
    let p := (s.srvIn[k]?).getD (0, [])
    modify (fun s => { s with srvIn := s.srvIn.take k ++ s.srvIn.drop (k + 1) })
    work p.2
    showHold (srvInJob p)
  | none => pure ()

/-- REQUEST (R518). -/
def execRequest (s : State) : Out := if s.up then rowOf (takeRecord 1 observeRequest) s else .next s

/-- CANCEL (R550). One observed during a step boundary's sequence is recorded after its launch (R534). -/
def execCancel (s : State) : Out := if s.up then rowOf (takeRecord 2 observeCancel) s else .next s

/-! ## The step boundary (R533, R534) -/

/-- The step's report (R510, R537): its pins are released. -/
def report (j k : Nat) : EM Unit := do
  let s ← get
  match (s.srvJob j).unrep.find? (fun p => p.1 == k) with
  | some p =>
    for pg in p.2 do addPin j pg false
    modify (fun s => s.setSrvJob j { s.srvJob j with unrep := (s.srvJob j).unrep.filter (fun q => q.1 != k) })
  | none => pure ()

/-- T_p after a step of d microseconds (R553). -/
def estimate (t d : Nat) : Nat := if t = 0 then d else if t ≤ d then t + (d - t) / 8 else t - (t - d) / 8

/-- Step 1 of R534, the positions that the step added, and the message of R646. -/
def State.endStep (s : State) (j : Nat) : State :=
  let x := s.srvJob j
  if !x.running then s
  else
    let p := s.planesNow j
    let tp := DSK_JOB_TP.US j (p - 2)
    let s := if 2 ≤ p ∧ p ≤ 8 then s.setF tp (min (2 ^ 32 - 1) (estimate (s.f tp) x.us)) else s
    let s := x.rows.foldl (fun s r => s.setReq r.idx { s.req r.idx with pos := (s.req r.idx).pos + r.nq }) s
    let s := s.setSrvJob j { s.srvJob j with running := false, rows := [], handoff := none }
    s.post 3 (some j) (s.reg (SRV_JOB_STEP.at j)) 0

/-- A request released at a boundary (step 2 of R534): its pages, its commit and its FINAL record. -/
def releaseReq (j i : Nat) : EM Unit := do
  let s ← get
  if (s.req i).state = qDRAINING then set (s.endReq i qCANCELLED)
  for p in ← listPages j i do addRef j p false
  modify (fun s => s.setSrvJob j { s.srvJob j with order := (s.srvJob j).order.filter (fun k => k != i) })
  let s ← get
  result j (resWords evFINAL 0 false j i (s.req i) (s.req i).delivered)

/-- Requests that step 2 releases, in ascending index. -/
def State.toRelease (s : State) (j : Nat) : List Nat :=
  (s.reqsOf j).filter (fun i => (s.srvJob j).order.contains i &&
    ((s.req i).terminal || (s.req i).state == qDRAINING))

/-- The stack that R495 gives a request without a match. -/
def State.homeFor (s : State) (j : Nat) : Nat :=
  let load := fun (n : Nat) => (((s.srvJob j).order.map s.req).filter (fun r => r.home == n)).foldl (fun a r => a + r.commit) 0
  ((List.range 16).foldl (fun b n => if load n < load b then n else b) 0)

/-- A QUEUED request refused at a boundary (R530). -/
def refuseQueued (j i reason : Nat) : EM Unit := do
  let s ← get
  holdNode j (s.req i).node false
  modify (fun s => s.setReq i { s.req i with state := qREFUSED, result := raREFUSE, reason := reason, qpos := 0 })
  let s ← get
  result j (resWords evREFUSE reason false j i (s.req i) 0)

/-- A deferral: a record only when the reason changed (R522). -/
def deferQueued (j i reason : Nat) : EM Unit := do
  let s ← get
  let r := s.req i
  set (s.setReq i { r with result := raDEFER, reason := reason, qpos := s.qposOf j i })
  if r.reason ≠ reason then
    let s ← get
    result j (resWords evDEFER reason false j i (s.req i) (s.req i).qpos)

/-- Pages of the matched path, first position first: those of NODE and its ancestors. -/
def matchedPages (j : Nat) : Nat → Nat → List Nat → EM (List Nat)
  | 0, _, acc => pure acc
  | f + 1, i, acc => do
    if i = 0 then pure acc
    else
      let d ← readNode j i
      matchedPages j f d.parent (d.page :: acc)

/-- An admission (R531), with SMP's part (R560). -/
def admitReq (j i n : Nat) : EM Unit := do
  let s ← get
  let r := s.req i
  let pages ← if r.matched = 0 then pure [] else matchedPages j (ceilDiv r.matched 16) r.node []
  for k in List.range r.entries do
    match pages[k]? with
    | some p => do
      setPageEntry j i k p
      addRef j p true
    | none => setPageEntry j i k noPage
  holdNode j r.node false
  modify (fun s =>
    let s := s.setReq i { s.req i with state := qPREFILL, home := n, pos := r.matched, result := raADMIT, reason := 0, qpos := 0 }
    s.setSrvJob j { s.srvJob j with order := (s.srvJob j).order ++ [i] })
  smpAdmit j i
  let s ← get
  result j (resWords evADMIT 0 false j i (s.req i) 0)

/-- What is left of the admission loop. -/
def State.setLoop (s : State) (j : Nat) (l : Option (List Nat × Bool)) : State :=
  s.setSrvJob j { s.srvJob j with adm := l }

/-- The loop of R530 over the queued requests; false where an action is held for want of room (R520). -/
def admitLoop (j : Nat) : List Nat → Bool → EM Bool
  | [], _ => pure true
  | i :: t, blocked => do
    modify (fun s => s.setLoop j (some (i :: t, blocked)))
    let room ← resRoom j
    let s ← get
    let r := s.req i
    if r.left = 0 ∨ r.commit > s.quota j then
      if room then do
        refuseQueued j i (if r.left = 0 then rnTIME else rnQUOTA)
        admitLoop j t blocked
      else pure false
    else
      let n := if r.matched > 0 then r.home else s.homeFor j
      let reason ←
        if !s.flag (SRV_JOB_CTL.ADM_EN j) || (s.srvJob j).order.length ≥ s.maxBatch j then pure rnQUEUE
        else if s.committed j + r.commit > s.quota j then pure rnQUOTA
        else if (← roomIn j n 0) < (r.commit : Int) then pure rnMEM
        else pure (if blocked then rnQUEUE else 0)
      if !room && (reason == 0 || r.reason != reason) then pure false
      else if reason = 0 then do
        admitReq j i n
        admitLoop j t blocked
      else do
        deferQueued j i reason
        admitLoop j t (blocked || !s.flag (SRV_JOB_CTL.BACKFILL j))

/-- Step 2 of R534 over the requests to release; false where one is held for want of room (R520). -/
def releaseAll (j : Nat) : List Nat → EM Bool
  | [] => pure true
  | i :: t => do
    if ← resRoom j then do
      releaseReq j i
      releaseAll j t
    else pure false

/-- D_r of R571. -/
def draftsOf (j i : Nat) : EM Nat := do
  let s ← get
  let r := s.req i
  if r.state = qDECODE ∧ s.flag (SMP_JOB_CTL.SPEC_EN j) then
    let p ← readParam j r.param
    pure (min p.specD (r.maxNew - r.delivered - 1))
  else pure 0

/-- NQ of a request in the coming step with d drafts (R535, R571). -/
def State.nqOf (s : State) (j i d : Nat) : Nat :=
  let r := s.req i
  if r.state = qPREFILL then min (s.chunk j) (r.promptLen - r.pos) else d + 1

/-- Entry e of a request made private for the coming writes (R511). -/
def prepareEntry (j i e : Nat) : EM Unit := do
  let old ← pageEntry j i e
  if old = noPage then
    match ← allocPage j i with
    | some p => setPageEntry j i e p
    | none => pure ()
  else
    let w ← mapWord j (nameStack old) (namePage old)
    if mapRef w > 1 then
      match ← allocPage j i with
      | some p =>
        let s ← get
        let x := s.srvJob j
        let len := x.pg64 * 65536
        let at_ := fun (q : Nat) => nameStack q * s.stackBytes + x.poolOff + namePage q * len
        srvWr j (at_ p) (← srvRd j (at_ old) len)
        setPageEntry j i e p
        addRef j old false
      | none => pure ()

/-- Step 4 of R534, in ascending request index (R511). -/
def prepareWrites (j : Nat) : List Nat → EM Unit
  | [] => pure ()
  | i :: t => do
    let d ← draftsOf j i
    let s ← get
    let r := s.req i
    let nq := s.nqOf j i d
    if nq > 0 then
      for e in List.range ((r.pos + nq - 1) / 16 - r.pos / 16 + 1) do prepareEntry j i (r.pos / 16 + e)
    prepareWrites j t

/-- N_r of R554. A prompt that is already held needs no further chunk. -/
def State.stepsLeft (s : State) (j : Nat) (r : Req) : Nat :=
  ceilDiv (r.promptLen - r.pos) (s.chunk j) + r.maxNew - r.delivered - (if r.pos < r.promptLen then 1 else 0)

/-- A request is at risk at p planes (R554). -/
def State.atRisk (s : State) (j p i : Nat) : Bool :=
  let r := s.req i
  let t := s.f (DSK_JOB_TP.US j (p - 2))
  r.left != noDeadline && t != 0 && decide (r.left * 64 < s.stepsLeft j r * t * (64 + s.f (DSK_JOB_CTL.MARGIN j)))

/-- STEP_PLANES of the coming step (R554). -/
def State.choosePlanes (s : State) (j p : Nat) (rows : List Nat) : Nat :=
  let full := s.full j
  let floor := rows.foldl (fun a i => max a (if (s.req i).floor = 0 then full else (s.req i).floor)) (s.f (DSK_JOB_CTL.FLOOR_MIN j))
  if !s.flag (DSK_JOB_CTL.FB j) then full
  else
    let p := max p floor
    if p > floor && rows.any (s.atRisk j p) then p - 1
    else if p < full && decide (s.f (DSK_JOB_TP.US j (p - 1)) > 0) && !rows.any (s.atRisk j (p + 1)) then p + 1
    else p

/-- Steps 2 and 3 of R534, begun or gone on with; false while one of their actions is held (R520). -/
def admission (j : Nat) : EM Bool := do
  let s ← get
  match (s.srvJob j).adm with
  | some (rest, blocked) => admitLoop j rest blocked
  | none => do
    if ← releaseAll j (s.toRelease j) then do
      let s ← get
      for i in s.queuedOf j do modify (fun s => s.setReq i { s.req i with qpos := s.qposOf j i })
      admitLoop j (s.queueOrder j) false
    else pure false

/-- Steps 4 and 5 of R534; a batch without rows is not launched (DEDUCED, log entry 45). -/
def comingStep (j : Nat) : EM Unit := do
  let s ← get
  let rows := (s.srvJob j).order
  prepareWrites j ((s.reqsOf j).filter rows.contains)
  modify (fun s =>
    let x := { s.srvJob j with bnd := false, adm := none }
    s.setSrvJob j (if rows.isEmpty then x else { x with planes := s.choosePlanes j x.planes rows, ready := true }))

/-- Steps 1 to 5 of R534, as far as the result ring takes their records (R520). -/
def boundary (j : Nat) : EM Unit := do
  modify (fun s => s.endStep j)
  modify (fun s => s.setSrvJob j { s.srvJob j with bnd := true })
  if ← admission j then comingStep j
  showHold j

/-- The running step has ended (R533). -/
def SrvJob.ended (x : SrvJob) : Bool := x.handed && x.handoff.isNone && x.rows.all (·.passed)

/-- A boundary of job j may begin or go on: no step runs, or the one that runs has ended. -/
def State.mayBound (s : State) (j : Nat) : Bool :=
  s.serves j && !(s.srvJob j).ready && (!(s.srvJob j).running || (s.srvJob j).ended)

/-- The running step of job j has ended, and its boundary is due. -/
def State.boundDue (s : State) (j : Nat) : Bool := s.mayBound j && (s.srvJob j).running

/-- Jobs that a boundary of job j handles, in ascending number: itself, and those whose step has ended as well (R530;
DEDUCED, log entry 12). -/
def State.boundJobs (s : State) (j : Nat) : List Nat :=
  jobList.filter (fun k => s.boundDue k || (k == j && s.mayBound k))

/-- STEP_BOUNDARY (R533, R534, R520): at the end of a step, or while none runs. -/
def execStepBoundary (j : Nat) (s : State) : Out :=
  .next (if s.up then (s.boundJobs j).foldl (fun s k => s.runs (boundary k)) s else s)

/-- RESULT_RING_ROOM (R520): a boundary that was held goes on while the ring has room, and RES_WAIT shows whether a hold
lasts. -/
def execResultRingRoom (j : Nat) (s : State) : Out :=
  if s.serves j ∧ s.up then rowOf (if (s.srvJob j).bnd then boundary j else showHold j) s else .next s

/-! ## The launch -/

/-- Rows of the coming step in batch order (R535). -/
def buildRows (j : Nat) : List Nat → Nat → EM (List RowSt)
  | [], _ => pure []
  | i :: t, row0 => do
    let d ← draftsOf j i
    let s ← get
    let nq := s.nqOf j i d
    let r := s.req i
    pure (⟨i, nq, r.pos, row0, d, r.delivered, 0, 0, [], none, none, false⟩ :: (← buildRows j t (row0 + nq)))

/-- Length-table entry of a row (R496, R535). -/
def RowSt.entry (r : RowSt) : List Byte :=
  leBytes 8 (setFld (setFld (setFld 0#64 62 48 r.idx) 41 21 r.nq) 20 0 r.pos).toNat ++ leBytes 8 (r.row0 % 2 ^ 32)

/-- The registers that a launch of step number `step` writes (R534 step 8, R554, R557). -/
def State.stepSet (s : State) (j step : Nat) : State :=
  let x := s.srvJob j
  let s := s.setReg (SRV_JOB_STEP.at j) (BitVec.ofNat 64 step)
  let s := s.setF (SRV_JOB_STATUS.STEP_PLANES j) x.planes
  if x.planes < s.full j then s.bumpSat (DSK_JOB_CNT.LOW_STEPS j) 1 else s

/-- The launched step of a serving job (R534). -/
def SrvJob.launched (y : SrvJob) (step : Nat) (rows : List RowSt) (pins : List Nat) : SrvJob :=
  { y with rows := rows, running := true, ready := false, us := 0, unrep := y.unrep ++ [(step, pins)], handoff := none,
           handed := false, begun := false }

/-- What a launch leaves beside the bytes it writes: the step, and the token of the lead tile (R534). -/
def State.launched (s : State) (j step : Nat) (rows : List RowSt) (pins : List Nat) : State :=
  let s := s.stepSet j step
  let s := s.setSrvJob j ((s.srvJob j).launched step rows pins)
  s.signal j (s.f (SRV_JOB_CFG.LEAD j)) (s.f (SRV_JOB_CFG.LAUNCH_TOK j)) 1

/-- Steps 7 and 8 of R534. -/
def launch (j : Nat) : EM Unit := do
  let s ← get
  let x := s.srvJob j
  let step := ((s.reg (SRV_JOB_STEP.at j)).toNat + 1) % 2 ^ 64
  let bd := s.f (SRV_JOB_BD.BASE j)
  let rows ← buildRows j x.order 0
  let qrows := (rows.map (·.nq)).sum
  let pins := (← x.order.mapM (listPages j)).flatten
  srvWr j (bd + 192) (rows.flatMap RowSt.entry)
  let w1 := setFld (setFld (setFld 0#64 55 52 x.planes) 47 24 qrows) 9 0 rows.length
  srvWr j bd (leBytes 8 step ++ leBytes 8 w1.toNat ++ List.replicate 48 0#8)
  pins.forM (fun p => addPin j p true)
  modify (fun s => s.launched j step rows pins)

/-- STEP_LAUNCH (R534 steps 6 to 8): once the step before the last is reported; the boundary's
records are written before it is ready. -/
def execStepLaunch (j : Nat) (s : State) : Out :=
  let x := s.srvJob j
  let step := (s.reg (SRV_JOB_STEP.at j)).toNat
  if s.serves j ∧ s.up ∧ x.ready ∧ x.unrep.all (fun p => p.1 == step) then rowOf (launch j) s
  else .next s

/-! ## Handoffs and reports (R537) -/

/-- HANDOFF: BD_HANDOFF holds the current STEP in W0. -/
def execHandoff (j : Nat) (s : State) : Out :=
  let x := s.srvJob j
  if s.serves j ∧ s.up ∧ x.running ∧ x.handoff.isNone ∧ !x.handed then
    rowOf (do
      let bs ← srvRd j (s.f (SRV_JOB_BD.BASE j) + 64) 64
      let step := (s.reg (SRV_JOB_STEP.at j)).toNat
      if (wordAt bs 0).toNat = step then
        modify (fun s => s.setSrvJob j { s.srvJob j with handoff := some (wordList bs 8) })
        if bitAt (wordAt bs 1) 0 then report j step) s
  else .next s

/-- STEP_REPORT: BD_REPORT holds an unreported step in W0. -/
def execStepReport (j : Nat) (s : State) : Out :=
  if s.serves j ∧ s.up then
    rowOf (do
      let k ← srvRdNat j (s.f (SRV_JOB_BD.BASE j) + 128) 8
      report j k) s
  else .next s

/-! ## Time and the request window -/

/-- A countdown that runs (R551). -/
def Req.tick (r : Req) : Req :=
  if r.terminal || r.state == qFREE || r.left == noDeadline then r else { r with left := r.left - 1 }

/-- DEADLINE_TICK (R551, R553): one microsecond of DSK's oscillator. -/
def execDeadlineTick (s : State) : Out :=
  let s := s.rqt.foldl (fun s p => s.setReq p.1 p.2.tick) s
  .next (s.srv.foldl (fun s p => s.setSrvJob p.1 (if p.2.running then { p.2 with us := p.2.us + 1 } else p.2)) s)

/-- Entry IDX copied into SRV_RQT_Wn (R556). -/
def State.copyReq (s : State) (i : Nat) : State :=
  (List.range 16).foldl (fun s n => s.setReg (SRV_RQT_W.at n) ((s.req i).word n)) (s.setF SRV_RQT_IDX.IDX i)

/-- RQT_IDX_WRITE (R556). -/
def execRqtIdxWrite (by_ : Agent) (idx : BitVec 15) (s : State) : Out :=
  .next (if s.accepts by_ SRV_RQT_IDX.at then s.copyReq idx.toNat else s)

end Sys2Proof.Machine
end

