-- ==== Sys2Proof/Machine/Dysiric.lean ====
section
/-! DEFINITION. The companion's link DYL (chapter 17): training and recovery (R631 - R635, R649 - R652, R767), snoops
(R637, R638), job rings (R640 - R644), and messages with their vectors (R645 - R648). -/
namespace Sys2Proof.Machine

/-! ## Ports -/

def lDOWN : Nat := 0
def lTRAINING : Nat := 1
def lL0 : Nat := 2
def lRECOVERY : Nat := 3
def lMISMATCH : Nat := 4

def State.dylState (s : State) (p : Nat) : Nat := s.f (DYL_PORT_STATUS.STATE p)

/-- A port's STATE changes: its LINK message (R646), and on L0, DOWN and MISMATCH its DYL_LINK record (R653). LINK of ZEN_ALERT is
set when the last port leaves L0 (R760). -/
def State.setDyl (s : State) (p st : Nat) : State :=
  if s.dylState p = st then s
  else
    let was := s.dylUp
    let s := s.setF (DYL_PORT_STATUS.STATE p) st
    let w := s.reg (DYL_PORT_STATUS.at p)
    let d := setFld w 63 48 0
    let s := if st = lL0 then s.erq ⟨0x80, 0, bDYL, p, none, 0, d⟩
      else if st = lDOWN ∨ st = lMISMATCH then s.erq ⟨0x80, 2, bDYL, p, none, 0, d⟩
      else s
    let s := s.post 7 none w p
    if was && !s.dylUp then s.setFlag ZEN_ALERT.LINK true else s

/-- A port that is not in L0 or RECOVERY has no mode, rate or width. -/
def State.clearLane (s : State) (p : Nat) : State :=
  let w := s.reg (DYL_PORT_STATUS.at p)
  s.setReg (DYL_PORT_STATUS.at p) (setFld w 43 0 0)

def State.dylDown (s : State) (p : Nat) : State := if s.dylState p = lDOWN then s else (s.clearLane p).setDyl p lDOWN

/-- The port may train (R767). -/
def State.dylReleased (s : State) (p : Nat) : Bool := !s.flag (DYL_PORT_CTL.DISABLE p) && !s.dylPerst.contains p && s.pgood && s.domRuns (dDYL p)

/-- DYL_TRAINING (R635). -/
def execDylTraining (p : Nat) (s : State) : Out :=
  if p < 2 ∧ s.dylState p = lDOWN ∧ s.dylReleased p then .next (s.setDyl p lTRAINING) else .next s

/-- Rates of a mode (R631). -/
def rateOk (mode rate : Nat) : Bool :=
  if mode = 1 then rate == 128 || rate == 64
  else if mode = 2 then rate == 64 || rate == 32
  else rate == 128 || rate == 64 || rate == 32

/-- DYL_L0 (R633 - R635): training ends with the first mode offered that both ends support; `same` says that the companion
identity of the training matches. -/
def execDylL0 (p mode rate width : Nat) (same : Bool) (s : State) : Out :=
  if p < 2 ∧ s.dylState p = lTRAINING ∧ s.dylReleased p ∧ 1 ≤ mode ∧ mode ≤ 3 ∧ s.f (DYL_PORT_CTL.MAX_MODE p) < mode ∧
      rateOk mode rate ∧ 1 ≤ width ∧ width ≤ 3 then
    if (s.dylMode ≠ 0 ∧ s.dylMode ≠ mode) ∨ (mode = 1 ∧ !same) then .next ((s.clearLane p).setDyl p lMISMATCH)
    else
      let s := { s with dylMode := mode }
      let s := ((s.setF (DYL_PORT_STATUS.MODE p) mode).setF (DYL_PORT_STATUS.RATE p) rate).setF (DYL_PORT_STATUS.WIDTH p) width
      .next (s.setDyl p lL0)
  else .next s

/-- DYL_TRAINING_TIMEOUT (R635). -/
def execDylTrainingTimeout (p : Nat) (s : State) : Out :=
  if p < 2 ∧ s.dylState p = lTRAINING then .next (s.dylDown p) else .next s

/-- DYL_PERST (R767): a low level holds the port down; a high one releases it. -/
def execDylPerst (p : Nat) (high : Bool) (s : State) : Out :=
  if p < 2 then
    if high then .next { s with dylPerst := dropNum s.dylPerst p }
    else .next ({ s with dylPerst := addNum s.dylPerst p }.dylDown p)
  else .next s

/-! ## Recovery and lanes (R649, R650) -/

/-- Lanes 0 to 15 that count as failed. -/
def State.failedLanes (s : State) (p : Nat) : List Nat :=
  let m := s.f (DYL_PORT_STATUS.LANE_FAIL p)
  let covered := fun (i : Nat) => s.flag (DYL_PORT_STATUS.SPARE_V p) && s.f (DYL_PORT_STATUS.SPARE_LANE p) == i
  (List.range 16).filter (fun i => m.testBit i && !covered i)

/-- The widest group of R632 without a failed lane: 3 x16, 2 x8, 1 x4, 0 none. -/
def bestWidth (failed : List Nat) : Nat :=
  let free := fun (a n : Nat) => failed.all (fun i => !(decide (a ≤ i) && decide (i < a + n)))
  if free 0 16 then 3
  else if free 0 8 || free 8 8 then 2
  else if free 0 4 || free 4 4 || free 8 4 || free 12 4 then 1
  else 0

/-- The width lowered to what the failed lanes leave. -/
def State.lowerWidth (s : State) (p : Nat) : State :=
  s.setF (DYL_PORT_STATUS.WIDTH p) (min (s.f (DYL_PORT_STATUS.WIDTH p)) (bestWidth (s.failedLanes p)))

def State.laneRecord (s : State) (p lane : Nat) (spared : Bool) : State :=
  s.erq ⟨0x81, 1, bDYL, p, none, 0, BitVec.ofNat 64 (lane + (if spared then 256 else 0))⟩

/-- A lane that did not train (R650). -/
def State.failLane (s : State) (p lane : Nat) : State :=
  let m := s.f (DYL_PORT_STATUS.LANE_FAIL p)
  if m.testBit lane ∨ lane > 16 then s
  else
    let s := s.setF (DYL_PORT_STATUS.LANE_FAIL p) (m + 2 ^ lane)
    if lane = 16 then
      if s.flag (DYL_PORT_STATUS.SPARE_V p) then
        let s := (s.setFlag (DYL_PORT_STATUS.SPARE_V p) false).setF (DYL_PORT_STATUS.SPARE_LANE p) 0
        (s.lowerWidth p).laneRecord p 16 false
      else s.laneRecord p 16 false
    else if s.f (DYL_PORT_STATUS.MODE p) = 1 ∧ !s.flag (DYL_PORT_STATUS.SPARE_V p) ∧ !m.testBit 16 then
      ((s.setFlag (DYL_PORT_STATUS.SPARE_V p) true).setF (DYL_PORT_STATUS.SPARE_LANE p) lane).laneRecord p lane true
    else (s.lowerWidth p).laneRecord p lane false

/-- A port enters recovery (R649). -/
def State.dylRecover (s : State) (p : Nat) : State :=
  if s.dylState p = lL0 then (s.bump (DYL_PORT_ERR.RECOV p) 1).setDyl p lRECOVERY else s

/-- DYL_RECOVERY (R649, R650): lanes names those that do not train in it. -/
def execDylRecovery (p : Nat) (lanes : List Nat) (s : State) : Out :=
  if p < 2 ∧ s.dylState p = lL0 then .next (lanes.foldl (fun s i => s.failLane p i) (s.dylRecover p)) else .next s

/-- RETRAIN written to DYL_PORTn_CTL (R633, R649). -/
def State.dylRetrain (s : State) (p : Nat) : State :=
  if s.dylState p = lL0 then s.dylRecover p
  else if s.dylState p = lMISMATCH ∧ s.dylReleased p then s.setDyl p lTRAINING
  else s

def execDylRetrain (by_ : Agent) (p : Nat) (s : State) : Out :=
  .next (if s.accepts by_ (DYL_PORT_CTL.at p) ∧ p < 2 then s.dylRetrain p else s)

/-- DYL_RECOVERY_END (R649): L0 in the same mode, at the same rate or a lower one, or DOWN. -/
def execDylRecoveryEnd (p : Nat) (ok : Bool) (rate : Nat) (s : State) : Out :=
  if p < 2 ∧ s.dylState p = lRECOVERY then
    let m := s.f (DYL_PORT_STATUS.MODE p)
    let old := s.f (DYL_PORT_STATUS.RATE p)
    if ok ∧ s.f (DYL_PORT_STATUS.WIDTH p) ≠ 0 then
      .next (((s.setF (DYL_PORT_STATUS.RATE p) (if rateOk m rate ∧ rate ≤ old then rate else old)).setDyl p lL0).resync (dDYL p))
    else .next (s.dylDown p)
  else .next s

/-! ## Loss of the link (R652) -/

/-- The link's mode is coherent. -/
def State.coherent (s : State) : Bool := s.dylMode == 1 || s.dylMode == 2

/-- A page that lost companion data is poisoned (R652). -/
def State.losePage (s : State) (gp : Nat) (granules : List Nat) : State :=
  let pg := s.page gp
  let n := s.stackOf gp
  let valid := decide (popcount ((pg.stamp ^^^ s.stampOf gp).toNat) ≤ 4)
  let tag := if valid then pg.tag else mkTag 2 0 false
  let s := s.bump (MSC_POISONED.PAGES n) (if valid ∧ tagPoison pg.tag then 0 else 1)
  let s := s.setPage gp { pg with tag := withPoison tag true, tagErrs := 0, stamp := s.stampOf gp,
                                  written := if valid then pg.written else 0#64 }
  s.erq ⟨0x82, 2, bDYL, 0, none, gp * 4096, BitVec.ofNat 64 ((granules.map (fun g => 2 ^ (g % 64))).sum)⟩

/-- Modified granules of the companion by page, each page once. -/
def State.lostPages (s : State) : List Nat :=
  ((s.filter.filter (fun e => e.2 == 2)).map (fun e => e.1 / 64)).foldl addNum []

/-- LINK_LOSS (R652). -/
def execLinkLoss (s : State) : Out :=
  let gone := if s.dylMode = 3 then [0, 1].all (fun p => s.dylState p == lDOWN) else [0, 1].all (fun p => s.dylState p != lL0)
  if s.dylMode ≠ 0 ∧ gone then
    let s := s.lostPages.foldl (fun t gp =>
      t.losePage gp ((s.filter.filter (fun e => e.2 == 2 && e.1 / 64 == gp)).map (·.1))) s
    .next { s with filter := [], snoops := [], linkCache := [], ringSeen := [], dylMode := 0 }
  else .next s

/-! ## Snoops (R637, R638) -/

/-- Companion address of the header line of ring r's record NEXT (R640). -/
def State.headerAt (s : State) (r : Nat) : Nat :=
  s.f (DYL_RING_BASE.BASE r) * 4096 +
    128 * (s.f (DYL_RING_STATUS.NEXT r) % 2 ^ s.f (DYL_RING_CFG.LOG2N r))

/-- SNOOP (R638): the snoop responder gives up a cached header line. -/
def execSnoop (addr : Nat) (s : State) : Out :=
  if !s.domRuns dDYC then .next s
  else .next { s with linkCache := s.linkCache.filter (fun r => s.headerAt r / 64 != addr / 64) }

/-- DEVICE_SNOOP (R637): an access to a granule that the companion holds in a way that it must give up first. -/
def execDeviceSnoop (addr : Nat) (write : Bool) (s : State) : Out :=
  let g := addr / 64
  if s.dylUp ∧ s.coherent ∧ s.filter.any (fun e => e.1 == g && (write || e.2 == 2)) then
    .next { s with snoops := s.snoops.filter (fun p => p.1 != g) ++ [(g, write || s.snoops.contains (g, true))] }
  else .next s

/-- SNOOP_RESPONSE (R637): modified data comes back to memory; the companion keeps a shared copy unless it was
invalidated. -/
def execSnoopResponse (addr : Nat) (data : List Byte) (s : State) : Out :=
  let g := addr / 64
  match s.snoops.find? (fun p => p.1 == g) with
  | some (_, inval) =>
    rowOf (do
      if s.filter.contains (g, 2) ∧ data.length = 64 then rawWrite ⟨.companion, none, 255, some 6⟩ (64 * g) data
      modify (fun s => { s with snoops := s.snoops.filter (fun p => p.1 != g),
                                filter := if inval then s.filter.filter (fun e => e.1 != g)
                                  else s.filter.map (fun e => if e.1 = g then (g, 1) else e) })) s
  | none => .next s

/-- SNOOP_TIMEOUT (R637). -/
def execSnoopTimeout (p addr : Nat) (s : State) : Out :=
  if p < 2 ∧ s.snoops.any (fun q => q.1 == addr / 64) then .next (s.dylRecover p) else .next s

/-! ## Job rings (R640 - R644) -/

def State.ringOn (s : State) (r : Nat) : Bool := decide (r < 8) && s.flag (DYL_RING_CFG.EN r) && s.dylUp && s.domRuns dDYC

/-- A header line read by DYL: a record is seen when its SEQ is NEXT (R642). -/
def State.readHeader (s : State) (r : Nat) (hdr : List W64) : State :=
  let s := if s.coherent then { s with linkCache := addNum s.linkCache r } else s
  if fld ((hdr[0]?).getD 0#64) 63 32 = s.f (DYL_RING_STATUS.NEXT r) then
    { s with ringSeen := SMap.put none s.ringSeen r (some hdr) }
  else s

def State.ringFree (s : State) (r : Nat) : Bool := (SMap.get none s.ringSeen r).isNone

/-- RING_POLL (R642): hdr is what the read returns. -/
def execRingPoll (r : Nat) (hdr : List W64) (s : State) : Out :=
  if s.ringOn r ∧ s.ringFree r ∧ (s.f (DYL_RING_CFG.POLL_US r) ≠ 0 ∨ s.dylMode = 3) then .next (s.readHeader r hdr) else .next s

/-- RING_SNOOP (R642): the line that the link cache does not hold, before the first read or after a snoop, is read and
cached. -/
def execRingSnoop (r : Nat) (hdr : List W64) (s : State) : Out :=
  if s.ringOn r ∧ s.ringFree r ∧ s.coherent ∧ !s.linkCache.contains r then .next (s.readHeader r hdr) else .next s

/-- Bytes written to companion memory. -/
def State.toComp (s : State) (a : Nat) (bs : List Byte) : State := { s with comp := Bytes.wrList s.comp a bs }

/-- The record's answer: H1, then NEXT; an answer other than ACCEPTED writes a DYL_RING record (R643). -/
def State.answerRing (s : State) (r ans : Nat) : State :=
  let seq := s.f (DYL_RING_STATUS.NEXT r)
  let s := s.toComp (s.headerAt r + 8) (leBytes 8 (setFld (setFld 0#64 63 63 1) 62 56 ans).toNat)
  let s := (s.setF (DYL_RING_STATUS.NEXT r) (seq + 1)).setF (DYL_RING_STATUS.STALL r) 0
  let s := { s with ringSeen := SMap.put none s.ringSeen r none, linkCache := dropNum s.linkCache r }
  if ans = 0 then s
  else s.erq ⟨0x83, 0, bDYL, r, none, 0, setFld (setFld (setFld 0#64 63 32 seq) 10 8 r) 6 0 ans⟩

/-- Header of a record without a growth kind or growth bits (R643). -/
def headerSound (hdr : List W64) : Bool :=
  let h0 := (hdr[0]?).getD 0#64
  decide (1 ≤ fld h0 31 24) && decide (fld h0 31 24 ≤ 3) && fld h0 23 0 == 0 &&
    fld ((hdr[1]?).getD 0#64) 55 0 == 0 && (hdr.drop 2).all (fun w => w == 0#64)

def State.stallRing (s : State) (r why : Nat) : State := s.setF (DYL_RING_STATUS.STALL r) why

/-- The job's SRV holds its further records (R520, R644). -/
def State.srvHolds (s : State) (j : Nat) : Bool := s.flag (SRV_JOB_STATUS.RES_WAIT j)

/-- RING_OBSERVE (R643, R644): payload is what the read of the record's second line returns. -/
def execRingObserve (r : Nat) (payload : List W64) (s : State) : Out :=
  match SMap.get none s.ringSeen r with
  | none => .next s
  | some hdr =>
    if !s.ringOn r then .next s
    else if !headerSound hdr then .next (s.answerRing r 1)
    else
      let kind := fld ((hdr[0]?).getD 0#64) 31 24
      let j := fld ((payload[0]?).getD 0#64) 63 58
      if kind ≠ 3 ∧ !s.serves j then .next (s.answerRing r 2)
      else if !s.up then .next (s.stallRing r 3)
      else if kind = 3 then
        if !s.ready then .next s
        else if s.ldrIn.length ≥ 4 then .next (s.stallRing r 2)
        else .next ({ s with ldrIn := s.ldrIn ++ [payload.take 8] }.answerRing r 0)
      else if s.srvHolds j then .next (s.stallRing r 1)
      else .next ({ s with srvIn := s.srvIn ++ [(kind, payload.take 8)] }.answerRing r 0)

/-! ## Messages (R645 - R648) -/

def State.msgRoom (s : State) : Bool :=
  (s.f DYL_MSG_PROD.MPROD + 2 ^ 64 - s.f DYL_MSG_CONS.MCONS) % 2 ^ 64 != 2 ^ s.f DYL_MSG_CFG.LOG2M

/-- The vector of kind k (R648). -/
def State.vecOf (s : State) (k : Nat) : Nat := fld (s.reg DYL_MSG_CFG.at) (4 * k + 7) (4 * k + 4)

/-- A vector fires: DATA written to ADDR (R648). -/
def State.fireVec (s : State) (v : Nat) : State :=
  let s := s.toComp (s.f (DYL_VEC_ADDR.ADDR v)) (leBytes 4 (s.f (DYL_VEC_CTL.DATA v)))
  { s with vecWait := SMap.put 0 s.vecWait v 0 }.setFlag (DYL_VEC_CTL.PEND v) false

/-- The vector would fire: a masked one records it in PEND. -/
def State.tryFire (s : State) (v : Nat) : State :=
  if s.flag (DYL_VEC_CTL.MASK v) then s.setFlag (DYL_VEC_CTL.PEND v) true else s.fireVec v

/-- A message waits for its vector; COAL_N of them fire it. -/
def State.countVec (s : State) (v : Nat) : State :=
  let n := SMap.get 0 s.vecWait v + 1
  let s := { s with vecWait := SMap.put 0 s.vecWait v n }
  if n ≥ max 1 (s.f (DYL_VEC_CTL.COAL_N v)) then s.tryFire v else s

/-- Words of an entry (R645). -/
def Msg.words (m : Msg) (seq : Nat) : List W64 :=
  let w := setFld (setFld 0#64 63 32 seq) 31 24 m.kind
  let w := match m.job with
    | some j => setFld (setFld w 23 23 1) 22 17 j
    | none => w
  [w, m.value, setFld 0#64 47 0 m.addr, 0#64]

/-- An entry written, then MPROD, and its vector (R645, R648). -/
def State.putMsg (s : State) (m : Msg) : State :=
  let base := s.f DYL_MSG_BASE.BASE * 4096
  let k := s.f DYL_MSG_PROD.MPROD
  let s := s.toComp (base + 64 + 32 * (k % 2 ^ s.f DYL_MSG_CFG.LOG2M)) ((m.words k).flatMap (fun w => leBytes 8 w.toNat))
  let s := s.setF DYL_MSG_PROD.MPROD (k + 1)
  let s := s.toComp base (leBytes 8 (s.f DYL_MSG_PROD.MPROD))
  s.countVec (s.vecOf m.kind)

/-- A message folded into the pending bit of its kind and job (R647). -/
def State.foldMsg (s : State) (m : Msg) : State :=
  let rest := s.msgPend.filter (fun p => !(p.kind == m.kind && p.job == m.job))
  { s with msgPend := rest ++ [m] }.bump DYL_MSG_LOST.COUNT 1

/-- MESSAGE_WRITE (R645, R647, R652): the oldest message is written, or folded while the ring is full or the link is lost;
with room, pending ones are written first. With MEN 0 messages are neither written nor kept (DEDUCED, log entry 46). -/
def execMessageWrite (s : State) : Out :=
  if !s.flag DYL_MSG_CFG.MEN then .next { s with msgs := [], msgPend := [] }
  else if s.dylUp ∧ s.msgRoom then
    match s.msgPend, s.msgs with
    | m :: t, _ => .next ({ s with msgPend := t }.putMsg m)
    | [], m :: t => .next ({ s with msgs := t }.putMsg m)
    | [], [] => .next s
  else
    match s.msgs with
    | m :: t => .next ({ s with msgs := t }.foldMsg m)
    | [] => .next s

/-- A write of v to DYL_MSG_CONS under the rule of R418. -/
def State.msgConsume (s : State) (v : W64) : State :=
  let c := s.f DYL_MSG_CONS.MCONS
  let p := s.f DYL_MSG_PROD.MPROD
  if (v.toNat + 2 ^ 64 - c) % 2 ^ 64 ≤ (p + 2 ^ 64 - c) % 2 ^ 64 then s.setF DYL_MSG_CONS.MCONS v.toNat else s

/-- MSG_CONSUME (R645). -/
def execMsgConsume (by_ : Agent) (v : W64) (s : State) : Out := 
  .next (if s.accepts by_ DYL_MSG_CONS.at then s.msgConsume v else s)

/-- VECTOR_HOLD_EXPIRY (R648): HOLD_US after the first message that the vector has not signalled. -/
def execVectorHoldExpiry (v : Nat) (s : State) : Out :=
  if v < 16 ∧ SMap.get 0 s.vecWait v > 0 ∧ s.domRuns dDYC then .next (s.tryFire v) else .next s

end Sys2Proof.Machine
end

