-- ==== Sys2Proof/Machine/Timing.lean ====
section
/-! DEFINITION. Far ports (R362, R768) and the timing domains (chapter 19): stopped and parked clocks (R684 - R689), COUNT
crossings (R683, R695) and resynchronisation (R690 - R694). -/
namespace Sys2Proof.Machine

/-! ## Far ports -/

/-- A far port loses its link (R362): its decoders are refused until the retrain, before which CXP_PERST_N is driven low
(R768). -/
def State.cxpLoss (s : State) (p : Nat) : State :=
  if s.f (CXP_PORT_STATUS.MODE p) = 0 then s
  else
    let s := ((s.setF (CXP_PORT_STATUS.MODE p) 0).setF (CXP_PORT_STATUS.RATE p) 0).setF (CXP_PORT_STATUS.WIDTH p) 0
    let s := s.setFlag (CXP_PORT_STATUS.LINK_DOWN p) true
    { s with cxpPerst := addNum s.cxpPerst p }.erq ⟨0x21, 2, bCXP, p, none, 0, s.reg (CXP_PORT_STATUS.at p)⟩

/-- CXP_LINK_LOSS (R362). -/
def execCxpLinkLoss (p : Nat) (s : State) : Out := if p < 4 then .next (s.cxpLoss p) else .next s

/-- Rates of a far port's modes (R359, R363). -/
def cxpRateOk (mode rate : Nat) : Bool :=
  (mode == 1 && rate == 64) || (mode == 2 && (rate == 32 || rate == 16))

/-- A port's mode, rate, width and devices as trained. -/
def State.cxpTrained (s : State) (p mode rate width devices : Nat) : State :=
  let s := ((s.setF (CXP_PORT_STATUS.MODE p) mode).setF (CXP_PORT_STATUS.RATE p) rate).setF (CXP_PORT_STATUS.WIDTH p) width
  { s.setF (CXP_PORT_STATUS.DEVICES p) devices with cxpPerst := dropNum s.cxpPerst p }

/-- CXP_RETRAIN_DONE (R362): the one retrain after a link loss ends; width 0 means that it failed, and the port stays
down. -/
def execCxpRetrainDone (p mode rate width devices : Nat) (s : State) : Out :=
  if p < 4 ∧ s.f (CXP_PORT_STATUS.MODE p) = 0 ∧ s.flag (CXP_PORT_STATUS.LINK_DOWN p) ∧ s.cxpPerst.contains p ∧
      s.domRuns (dCXP p) then
    if cxpRateOk mode rate ∧ 1 ≤ width ∧ width ≤ 3 ∧ devices ≤ 4 then
      .next ((s.cxpTrained p mode rate width devices).resync (dCXP p))
    else .next { s with cxpPerst := dropNum s.cxpPerst p }
  else .next s

/-! ## Clocks -/

/-- Oscillator that feeds a domain, by its bit of OSC_FAIL (R679, R696); none for JTG. -/
def oscOf (d : Nat) : Option Nat :=
  if d < 32 then some 2
  else if d < 39 then some 3
  else if d < 55 ∨ d = dXWE then some 4
  else if d = dZEN ∨ d = dSBD then some 0
  else if d = dDSK then some 1
  else none

/-- The oscillator of a domain failed. -/
def State.oscFail (s : State) (d : Nat) : State :=
  match oscOf d with
  | some b => s.setF TDC_OSC.OSC_FAIL (s.f TDC_OSC.OSC_FAIL ||| 2 ^ b)
  | none => s

/-- A domain's clock is stopped by design (R685). -/
def State.byDesign (s : State) (d : Nat) : Bool :=
  if d = 32 ∨ d = 33 then s.flag (DYL_PORT_CTL.DISABLE (d - 32))
  else if 39 ≤ d ∧ d < 55 then s.flag (XWF_PORT_CTL.DISABLE (d - 39)) || !s.opticsOn
  else d == dJTG

/-- What follows for the domain's block when its clock stops, in WAKE mode (R687 - R689). -/
def State.stopBlock (s : State) (d : Nat) : State :=
  if d = 32 ∨ d = 33 then s.dylDown (d - 32)
  else if 35 ≤ d ∧ d < 39 then s.cxpLoss (d - 35)
  else if 39 ≤ d ∧ d < 55 then (if s.f (XWF_PORT_STATUS.STATE (d - 39)) = pDOWN then s else s.portDown (d - 39))
  else s

/-- DOMAIN_STOPPED (R684 - R689): osc says that the clock's oscillator stopped. -/
def execDomainStopped (d : Nat) (osc : Bool) (s : State) : Out :=
  if d < 60 ∧ (s.domRuns d ∨ s.domState d = 3) then
    let s := if osc then s.oscFail d else s
    if s.byDesign d then .next (s.setF (TDC_DOM_STATUS.STATE d) 1)
    else
      let s := (s.setF (TDC_DOM_STATUS.STATE d) 2).bump (TDC_DOM_STATUS.STOPS d) 1
      let s := s.setFlag (TDC_DOM_STATUS.STOP_SEEN d) true
      let s := if d = dZEN then { s with zenLost := true } else if d = dDSK then s.setFlag TDC_OSC.DSK_ON_Z true else s
      if s.flag (TDC_DOM_CTL.SCM d) then .next (s.setFlag (TDC_DOM_STATUS.HELD d) true)
      else .next (s.stopBlock d)
  else .next s

/-- DOMAIN_RUNNING (R684, R685, R690): the clock runs again, and the domain's crossings resynchronise. -/
def execDomainRunning (d : Nat) (s : State) : Out :=
  if d < 60 ∧ (s.domState d = 1 ∨ s.domState d = 2) then
    .next ((s.setF (TDC_DOM_STATUS.STATE d) 3).setFlag (TDC_DOM_STATUS.HELD d) false)
  else .next s

/-- FREQ_OUT_OF_RANGE (R684): osc says that the oscillator itself left its tolerance by more than 1 %. -/
def execFreqOutOfRange (d : Nat) (osc : Bool) (s : State) : Out :=
  if d < 60 ∧ s.domRuns d then
    let s := s.setFlag (TDC_DOM_STATUS.FREQ d) true
    .next (if osc then s.oscFail d else s)
  else .next s

/-! ## COUNT crossings -/

def State.crossing (s : State) (d : Nat) (job : Bool) : Cross := SMap.get Cross.zero s.cross (2 * d + job.toNat)

/-- Events produced and not applied. -/
def Cross.behind (c : Cross) : Nat := (c.produced - c.applied).toNat

/-- The source produces events until it has to stall (R683). -/
def Cross.produce (c : Cross) (events : Nat) : Cross :=
  { c with produced := c.produced + BitVec.ofNat 32 (min events (2 ^ 31 - 1 - c.behind)) }

/-- A sample: PRODUCED - APPLIED is added to the destination, and APPLIED advances by as much (R683). -/
def Cross.sample (c : Cross) : Cross :=
  { c with applied := c.produced, total := c.total + BitVec.ofNat 64 c.behind }

/-- COUNT_SAMPLE (R683, R686): events occur at the source of a crossing into domain d; a domain that runs samples. -/
def execCountSample (d events : Nat) (job : Bool) (s : State) : Out :=
  if d < 60 then
    let c := (s.crossing d job).produce events
    let c := if s.domRuns d then c.sample else c
    .next { s with cross := SMap.put Cross.zero s.cross (2 * d + job.toNat) c }
  else .next s

/-! ## Resynchronisation -/

/-- FORCE_RESYNC written as 1 (R690). While the domain's clock is stopped, the running side alone completes the steps, or
waits (R693), which changes no register. -/
def execForceResync (by_ : Agent) (d : Nat) (s : State) : Out :=
  .next (if s.accepts by_ (TDC_DOM_CTL.at d) ∧ d < 60 then s.resync d else s)

/-- Commands sent to a stack and not accepted are discarded with the crossing's entries, and complete at their queue with
a bus error (R691, R692). -/
def State.discardSent (s : State) (n : Nat) : State :=
  jobList.foldl (fun s j =>
    if s.jobState j = jRUNNING then
      (s.tileSet j).foldl (fun s l =>
        let x := s.queue j l (10 + n)
        if x.sent then s.setQueue j l (10 + n) x.failSent else s) s
    else s) s

/-- RSYNC_ACK (R691, R692). -/
def execRsyncAck (d : Nat) (s : State) : Out :=
  if d < 60 ∧ s.domState d = 3 then
    let s := s.setF (TDC_DOM_STATUS.STATE d) 0
    .next (if 16 ≤ d ∧ d < 32 then s.discardSent (d - 16) else s)
  else .next s

end Sys2Proof.Machine
end

