-- ==== Sys2Proof/Machine/Power.lean ====
section
/-! DEFINITION. Power and temperature (chapter 20) and power phases (R752 - R755): the housekeeping round with the thermal
model, trips, voltages and summaries, samples, and the switched domains. -/
namespace Sys2Proof.Machine

/-! ## Domains (R697 - R700) -/

def State.powState (s : State) (d : Nat) : Nat := s.f (PWR_DOM_STATUS.STATE d)
def State.powOn (s : State) (d : Nat) : Bool := s.powState d == 2

/-- The voltage of a domain: V_C, V_n of its stack, or the fixed 0.75 V of the optical engines (R697). -/
def State.domVolt (s : State) (d : Nat) : Nat :=
  if d < 13 then s.f TMD_STATUS.V_C else if d < 29 then s.f (TMD_STK.V_N (d - 13)) else 750

/-- A domain that is on takes its voltage as target and as present value. -/
def State.setVolt (s : State) (d : Nat) : State :=
  if s.powOn d then (s.setF (PWR_DOM_STATUS.VOLT d) (s.domVolt d)).setF (PWR_DOM_STATUS.TARGET d) (s.domVolt d)
  else if s.powState d = 1 then s.setF (PWR_DOM_STATUS.TARGET d) (s.domVolt d)
  else s

/-- A domain is on. -/
def State.powerOn (s : State) (d : Nat) : State :=
  ((s.setF (PWR_DOM_STATUS.STATE d) 2).setVolt d).showOff d false

/-- A resident job has a logical tile in group g (R697, R700). -/
def State.groupUsed (s : State) (g : Nat) : Bool :=
  jobList.any (fun j => s.resident j && (s.tileSet j).any (fun l => match s.physOf l with
    | some t => t / 25 == g
    | none => false))

/-- The service action moves a tile onto a spare of group g (step 2 of R744). -/
def State.spareGroup (s : State) (g : Nat) : Bool :=
  match s.svc with
  | some (1, t) => s.svcHeld && (match s.spareFor (t / 25) with
    | some sp => sp / 25 == g
    | none => false)
  | _ => false

/-- A domain has to be on (R697). -/
def State.wanted (s : State) (d : Nat) : Bool :=
  if d < 8 then (s.groupUsed d || s.spareGroup d) && !s.flag TMD_STATUS.TRIPPED
  else if d < 13 then s.ready
  else if d < 29 then
    s.ready && decide (s.f (VRG_ID.MODE (d - 13)) < 2) && !s.flag TMD_STATUS.TRIPPED && decide (s.vrgLive (d - 13) ≠ 0)
  else (List.range 16).any (fun p => !s.flag (XWF_PORT_CTL.DISABLE p))

/-- DOMAIN_SWITCH_ON (R699): one domain at a time, the lowest that waits. -/
def execDomainSwitchOn (d : Nat) (s : State) : Out :=
  if d < 30 ∧ s.zenUp ∧ s.powState d = 0 ∧ s.wanted d ∧
      (List.range 30).all (fun e => s.powState e != 1 && (decide (d ≤ e) || s.powState e != 0 || !s.wanted e)) then
    .next ((s.setF (PWR_DOM_STATUS.STATE d) 1).setF (PWR_DOM_STATUS.TARGET d) (s.domVolt d))
  else .next s

/-- DOMAIN_RAMP_DONE (R699): 200 us later, with its crossings resynchronised, the domain is ON. -/
def execDomainRampDone (d : Nat) (s : State) : Out :=
  if d < 30 ∧ s.powState d = 1 then .next (s.powerOn d) else .next s

/-- Started commands of a group's tiles. -/
def State.groupBusy (s : State) (g : Nat) : Bool :=
  (List.range 25).any (fun i => (s.tile (25 * g + i)).queues.any (fun q => q.2.busy != 0))

/-- DOMAIN_SWITCH_OFF (R697, R700): a tile group without use, the compute domain of a stack that is plain or retired, or
the optical engines with every port disabled. -/
def execDomainSwitchOff (d : Nat) (s : State) : Out :=
  if (d < 8 ∨ (13 ≤ d ∧ d ≤ 29)) ∧ s.zenUp ∧ s.powState d ≠ 0 ∧ !s.wanted d ∧ (8 ≤ d ∨ !s.groupBusy d) then
    .next (s.powerOff d)
  else .next s

/-! ## Trips (R711, R752, R753) -/

/-- The record THERMAL_LIMIT with what is set (R715). -/
def State.limitRec (s : State) : State :=
  s.erq ⟨0xC2, 2, bPWR, 0, none, 0, BitVec.ofNat 64 (2 * s.f TMD_STATUS.INLET_HI + s.f TMD_STATUS.STUCK)⟩

/-- A trip: compute reset with a THERM_TRIP record, domains 0 - 7 and 13 - 28 off, TRIPPED. -/
def State.trip (s : State) (inst : Nat) (detail : W64) : State :=
  let s := s.startReset none ⟨0xC3, 3, bPWR, inst, none, 0, detail⟩
  let s := (List.range 8 ++ (List.range 16).map (· + 13)).foldl State.powerOff s
  (s.setFlag TMD_STATUS.TRIPPED true).setFlag ZEN_ALERT.THERMAL true

/-- A trip for want of converters or phases, cleared only by a power-up reset. -/
def State.hardTrip (s : State) : State := if s.tripHard then s else { s.trip 0 0#64 with tripHard := true }

/-! ## The thermal model (R703 - R705) -/

/-- A temperature in 1/16 degC, and one in degC, as FP32 values. -/
def temp16 (t : Int) : FVal := (FVal.fin (decide (t < 0)) t.natAbs (-4)).r32
def tempC (t : Int) : FVal := (FVal.ofInt t).r32

/-- Register form of a node: 1/16 degC, rounded to nearest (DEDUCED, log entry 55). -/
def nodeReg (x : W32) : Nat := Fmt.encode .int64 .rne .ieee ((ofBits32 x).scale 4) % 2 ^ 16

/-- The inlet temperature that the model uses, and whether the reading was bad (R705, R775). -/
def inletOf (t : Option Int) : Int × Bool :=
  match t with
  | some x => if -160 ≤ x ∧ x ≤ 1360 then (x, false) else (720, true)
  | none => (720, true)

/-- Power of a domain in W as FP32. -/
def wattOf (p : Nat) : FVal := fdiv (FVal.ofInt p) (FVal.ofInt 10)

/-- Node i after a round, each operation rounded to FP32 (R704; DEDUCED, log entry 55 for their order). -/
def nodeNext (theta tau nodes : List W32) (ms : Nat) (tin : FVal) (ps : List FVal) (i : Nat) : W32 :=
  let g := fun (l : List W32) (k : Nat) => ofBits32 ((l[k]?).getD 0#32)
  let ti := g nodes i
  let sum := (ps.zipIdx).foldl (fun a p => fadd a (fmul (g theta (30 * i + p.2)) p.1)) FVal.zero
  toBits32 (fadd ti (fmul (fdiv (FVal.ofInt ms) (g tau i)) (fsub (fadd tin sum) ti)))

/-- The hottest of the nodes of a list. -/
def hottest : List W32 → FVal
  | [] => .zero
  | [x] => ofBits32 x
  | x :: t => let m := hottest t; if m.lt (ofBits32 x) then ofBits32 x else m

/-! ## The steps of a round (R702) -/

/-- Step 1: sensors read. -/
def State.readSensors (s : State) (r : Readings) : State :=
  let (tin, bad) := inletOf r.inlet
  let hi := decide (tin > 720)
  let rise := hi && !s.flag TMD_STATUS.INLET_HI
  let s := ((s.setSigned TMD_INLET.INLET tin).setFlag TMD_STATUS.INLET_BAD bad).setFlag TMD_STATUS.INLET_HI hi
  let s := if rise then (s.setFlag ZEN_ALERT.THERMAL true).limitRec else s
  let s := s.setSigned TMD_FLASH.BOARD r.board
  (List.range 16).foldl (fun s n =>
    let hi := (r.tmax[n]?).getD (s.signed (MSC_TEMP.TMAX n))
    let lo := (r.tmin[n]?).getD (s.signed (MSC_TEMP.TMIN n))
    ((s.setSigned (MSC_TEMP.TMAX n) hi).setSigned (MSC_TEMP.TMIN n) lo).setFlag (MSC_TEMP.REF2X n) (decide (hi > 85))) s

/-- Step 2: domains that are on sampled, and the input's averages latched (R701). -/
def State.samplePower (s : State) (r : Readings) : State :=
  let s := (List.range 30).foldl (fun s d =>
    s.setF (PWR_DOM_STATUS.POWER d) (if s.powOn d then (r.power[d]?).getD 0 else 0)) s
  let s := { s with inputMv := 10 * r.vin }
  ((s.setF PWR_IN.P_ROUND r.pin).setF PWR_IN.VIN r.vin).setF PWR_IN.P_10US r.p10

/-- Step 3: the model's step. -/
def State.stepModel (s : State) : State :=
  let tin := temp16 (s.signed TMD_INLET.INLET)
  let old := if s.nodes.isEmpty then List.replicate 30 (toBits32 tin) else s.nodes
  let ps := (List.range 30).map (fun d => wattOf (s.f (PWR_DOM_STATUS.POWER d)))
  let new := (List.range 30).map (nodeNext s.theta s.tau old (s.f TMD_CTL.ROUND_MS) tin ps)
  let s := { s with nodes := new }
  new.zipIdx.foldl (fun s p => s.setF (TMD_NODE.TEMP p.2) (nodeReg p.1)) s

def State.node32 (s : State) (i : Nat) : FVal := ofBits32 ((s.nodes[i]?).getD 0#32)

/-- What trips: the lowest node at TJ_TRIP, or the lowest stack with a die at 105 degC, as INST and DETAIL (R711, R715). -/
def State.tripCause (s : State) : Option (Nat × W64) :=
  let lim := tempC (s.f TMD_CTL.TJ_TRIP)
  match (List.range 30).find? (fun i => lim.le (s.node32 i)) with
  | some i => some (i, BitVec.ofNat 64 (s.f (TMD_NODE.TEMP i)))
  | none =>
    match (List.range 16).find? (fun n => decide (s.signed (MSC_TEMP.TMAX n) ≥ 105)) with
    | some n => some (13 + n, setFld 0#64 31 16 (twos 16 (16 * s.signed (MSC_TEMP.TMAX n))))
    | none => none

/-- Step 4: the trip check. -/
def State.checkTrip (s : State) : State :=
  if s.flag TMD_STATUS.TRIPPED then s
  else match s.tripCause with
    | some (i, d) => s.trip i d
    | none => s

/-- V_C ceiling: 10 mV below VMAX_C for each 4 phases lost (R753). -/
def State.ceilC (s : State) : Nat := max 600 (s.f TMD_CTL.VMAX_C - 10 * ((128 - s.f ZEN_PHASE.VC_LIVE) / 4))

/-- V_n ceiling by VMAX_V and the live phases of the rail (R754). -/
def State.ceilV (s : State) (n : Nat) : Nat :=
  let p := if s.vrgLive n ≤ 1 then 600 else if s.vrgLive n = 2 then 650 else 800
  min (s.f TMD_CTL.VMAX_V) p

/-- V_C set, with the targets of its domains. -/
def State.setVC (s : State) (v : Nat) : State :=
  (List.range 13).foldl State.setVolt (s.setF TMD_STATUS.V_C v)

def State.setVN (s : State) (n v : Nat) : State := (s.setF (TMD_STK.V_N n) v).setVolt (13 + n)

/-- The condition of R706 that lowers V_C. -/
def State.overC (s : State) : Bool :=
  decide (s.f PWR_IN.P_ROUND > min (s.f PWR_CAP.CAP_W) (s.f ZEN_PHASE_CAP.PH_CAP_W)) ||
    (tempC (s.f TMD_CTL.TJ_MAX_C)).lt (hottest (s.nodes.take 13))

/-- V_C that R706 and R753 give. -/
def State.nextVC (s : State) : Nat :=
  let v := s.f TMD_STATUS.V_C
  let cap := min (s.f PWR_CAP.CAP_W) (s.f ZEN_PHASE_CAP.PH_CAP_W)
  let w := if s.overC then max (v - 10) 600
    else if s.f PWR_IN.P_ROUND + 50 < cap ∧ (hottest (s.nodes.take 13)).lt (tempC ((s.f TMD_CTL.TJ_MAX_C : Int) - 2)) ∧ v < s.ceilC
      then v + 10
    else v
  min w s.ceilC

/-- The THROTTLE record (R715). -/
def State.throttleRec (s : State) (inst v duty : Nat) : State :=
  s.erq ⟨0xC0, 0, bPWR, inst, none, 0, setFld (setFld 0#64 41 32 v) 2 0 duty⟩

/-- The compute die's part of step 5 (R706, R707). -/
def State.throttleC (s : State) : State :=
  let s := s.setF ZEN_PHASE_CAP.VMAX_EFF s.ceilC
  let v := s.f TMD_STATUS.V_C
  let w := s.nextVC
  let k := if s.overC ∧ v = 600 then s.stuckFor + 1 else 0
  let s := { s with stuckFor := k }
  let s := if k = 100 then (s.setFlag TMD_STATUS.STUCK true).limitRec else s
  let s := s.setVC w
  if w = 600 ∧ v ≠ 600 then s.throttleRec 0 600 0 else s

/-- A stack's part of step 5 (R708, R754). -/
def State.throttleV (s : State) (n : Nat) : State :=
  let tb := s.node32 (13 + n)
  let tmax := s.signed (MSC_TEMP.TMAX n)
  let mv : Int := s.f TMD_CTL.TJ_MAX_V
  let tgt : Int := s.f TMD_CTL.DRAM_TGT
  let hotT := (tempC mv).lt tb
  let hotD := decide (tmax > tgt)
  let cool := tb.lt (tempC (mv - 2)) && decide (tmax < tgt - 2)
  let v := s.f (TMD_STK.V_N n)
  let duty := s.f (TMD_STK.DUTY n)
  let (v', duty') := if hotT || hotD then (if v > 600 then (v - 10, duty) else (v, min 4 (duty + 1)))
    else if cool then (if duty > 0 then (v, duty - 1) else if v < s.ceilV n then (v + 10, duty) else (v, duty))
    else (v, duty)
  let v' := min v' (s.ceilV n)
  let s := (s.setF (TMD_STK.WHY n) (2 * hotT.toNat + hotD.toNat)).setF (TMD_STK.DUTY n) duty'
  let s := s.setVN n v'
  if duty' ≠ duty then s.throttleRec (13 + n) v' duty' else s

/-- Step 7: the summaries, and the retirements of R746. -/
def State.summaries (s : State) : State :=
  let s := (List.range 200).foldl (fun s t =>
    let c := s.f (ANV_ECC_CE.COUNT t)
    let old := SMap.get 0 s.ceLast t
    if c = old then s
    else
      let s := { s with ceLast := SMap.put 0 s.ceLast t c }
      let s := s.erq ⟨0x11, 1, bANV, t, none, 0, BitVec.ofNat 64 c⟩
      if c > old + 4096 then s.due 1 t else s) s
  let s := (List.range 16).foldl (fun s n =>
    let k := SMap.get 0 s.ceSince n
    if k = 0 then s
    else { s with ceSince := SMap.put 0 s.ceSince n 0 }.erq ⟨0x01, 1, bMSC, n, none, 0, BitVec.ofNat 64 (k % 2 ^ 32)⟩) s
  (List.range 16).foldl (fun s p =>
    let k := SMap.get 0 s.dropSince p
    if k = 0 then s
    else { s with dropSince := SMap.put 0 s.dropSince p 0 }.erq ⟨0x93, 0, bXWF, p, none, 0, BitVec.ofNat 64 (k % 2 ^ 16)⟩) s

/-- HOUSEKEEPING_ROUND (R702). Its write windows of step 6 are the hold rows; the wavelength rates of step 7 are
WAVELENGTH_FAIL (DEDUCED, log entry 56). -/
def State.round (s : State) (r : Readings) : State :=
  let s := { s with ms := s.ms + BitVec.ofNat 32 (s.f TMD_CTL.ROUND_MS) }
  let s := (((s.readSensors r).samplePower r).stepModel).checkTrip
  let s := s.throttleC
  let s := (List.range 16).foldl State.throttleV s
  (s.summaries).bump TMD_STATUS.ROUNDS 1

def execHousekeepingRound (r : Readings) (s : State) : Out :=
  if s.zenUp ∧ s.ready then .next (s.round r) else .next s

/-- CLEAR of TMD_TRIP (R711): every node lies below TJ_MAX_C - 10 degC. -/
def State.clearTrip (s : State) : State :=
  if s.flag TMD_STATUS.TRIPPED ∧ !s.tripHard ∧
      (List.range 30).all (fun i => (s.node32 i).lt (tempC ((s.f TMD_CTL.TJ_MAX_C : Int) - 10))) then
    s.setFlag TMD_STATUS.TRIPPED false
  else s

/-- TRIP_CLEAR (R711). -/
def execTripClear (by_ : Agent) (s : State) : Out := 
  .next (if s.accepts by_ TMD_TRIP.at then s.clearTrip else s)

/-! ## Peaks and samples (R701, R707) -/

/-- PEAK_RESPONSE (R707, R752): PWR acts without ZEN. -/
def execPeakResponse (p10 : Nat) (s : State) : Out :=
  if p10 > s.f ZEN_PHASE_CAP.PH_PEAK_W ∧ s.pgood then
    let s := (s.setF PWR_IN.P_10US p10).bump PWR_CAP.PEAKS 1
    let v := s.f TMD_STATUS.V_C
    let s := s.setVC (max 600 (v - 50))
    let s := if s.f TMD_STATUS.V_C = 600 ∧ v ≠ 600 then s.throttleRec 0 600 0 else s
    .next (s.erq ⟨0xC1, 0, bPWR, 0, none, 0, BitVec.ofNat 64 (p10 % 2 ^ 16)⟩)
  else .next s

/-- A sample asked for: it runs, or waits for the one that runs. -/
def State.askSample (s : State) (d : Nat) : State :=
  { s with sampleQ := s.sampleQ ++ [d] }.setFlag PWR_SAMPLE.BUSY true

/-- PWR_SAMPLE_GO (R701, R714): a write of DOM with GO 1. -/
def execPwrSampleGo (by_ : Agent) (dom : BitVec 5) (s : State) : Out :=
  if !s.accepts by_ PWR_SAMPLE.at then .next s
  else
    let d := min 29 dom.toNat
    .next ((s.setF PWR_SAMPLE.DOM d).askSample d)

/-- SAMPLE_DONE (R701). -/
def execSampleDone (power : Nat) (s : State) : Out :=
  match s.sampleQ with
  | d :: t =>
    let s := s.setF (PWR_DOM_STATUS.POWER d) (if s.powOn d then power else 0)
    .next ({ s with sampleQ := t }.setFlag PWR_SAMPLE.BUSY (!t.isEmpty))
  | [] => .next s

/-! ## Phases (R752 - R755) -/

/-- Limits that L live converters allow (R752). -/
def State.busLimits (s : State) : State :=
  let l := s.f ZEN_PHASE.BUS_LIVE
  (s.setF ZEN_PHASE_CAP.PH_CAP_W (min 3200 (400 * l - 600))).setF ZEN_PHASE_CAP.PH_PEAK_W (min 3800 (400 * l - 200))

/-- PHASE_SHED (R752 - R754). -/
def execPhaseShed (rail : Rail) (s : State) : Out :=
  let told := s.setFlag ZEN_ALERT.PHASE true
  match rail with
  | .bus =>
    let l := s.f ZEN_PHASE.BUS_LIVE
    if l = 0 then .next s
    else
      let s := (told.setF ZEN_PHASE.BUS_LIVE (l - 1)).busLimits
      .next (if l - 1 < 6 then s.hardTrip else s)
  | .vc =>
    let l := s.f ZEN_PHASE.VC_LIVE
    if l = 0 then .next s
    else
      let s := told.setF ZEN_PHASE.VC_LIVE (l - 1)
      let s := s.setF ZEN_PHASE_CAP.VMAX_EFF s.ceilC
      .next (if l - 1 < 80 then s.hardTrip else s)
  | .vrg n =>
    let l := s.vrgLive n
    if n ≥ 16 ∨ l = 0 then .next s
    else
      let s := told.setF ⟨ZEN_PHASE.at, 3 * n + 2, 3 * n⟩ (l - 1)
      let s := s.setVN n (min (s.f (TMD_STK.V_N n)) (s.ceilV n))
      if l - 1 = 1 ∧ s.f (VRG_ID.MODE n) = 0 then .next (s.due 4 n)
      else if l - 1 = 0 ∧ s.f (VRG_ID.MODE n) < 2 then
        let s := ((s.powerOff (13 + n)).setFlag (VRG_CTL.RETIRE n) true).setF (VRG_ID.MODE n) 1
        .next (s.vrgFault n)
      else .next s

/-! ## The flash's write window (R713) -/

/-- An erase or program of the flash may start. -/
def State.flashOpen (s : State) : Bool :=
  decide (0 ≤ s.signed TMD_FLASH.BOARD) && decide (s.signed TMD_FLASH.BOARD ≤ 70 * 16) && decide (s.inputMv ≥ 44000) &&
    s.domRuns dSBD

/-- Records of a hold's start and end (R715). -/
def State.holdRec (s : State) (b : Bool) : State := s.erq ⟨0xC4, 0, bPWR, 0, none, 0, BitVec.ofNat 64 b.toNat⟩

/-- FLASH_HOLD_BEGIN (R713, R735): a write that has not started waits. -/
def execFlashHoldBegin (s : State) : Out :=
  match s.fwu with
  | some u =>
    if !u.started ∧ !s.flashOpen ∧ !s.flag TMD_FLASH.FHOLD then
      .next (((s.setFlag TMD_FLASH.FHOLD true).setF ZEN_FWU_STATUS.STATE 5).holdRec true)
    else .next s
  | none => .next s

/-- FLASH_HOLD_END (R713): the held write starts with its erase. -/
def execFlashHoldEnd (s : State) : Out :=
  match s.fwu with
  | some u =>
    if !u.started ∧ s.flashOpen ∧ s.flag TMD_FLASH.FHOLD then
      .next (({ s with fwu := some { u with started := true } }.setFlag TMD_FLASH.FHOLD false).setF ZEN_FWU_STATUS.STATE 2
        |>.holdRec false)
    else .next s
  | none => .next s

/-! ## The alert pin (R758) -/

/-- SB_ALERT_N is active. -/
def State.alertActive (s : State) : Bool :=
  (fld (s.reg ZEN_ALERT.at) 7 0 &&& s.f ZEN_ALERT.MASK) != 0 || s.zenLost || s.flag TMD_STATUS.INLET_HI ||
    s.flag TMD_STATUS.TRIPPED || s.recovery

end Sys2Proof.Machine
end

