-- ==== Sys2Proof/Machine/Boot.lean ====
section
/-! DEFINITION. Resets, boot and identity (R716 - R731), ZEN restarts (R718), firmware and record update (R734, R735), and
the module's power input (R763, R764). -/
namespace Sys2Proof.Machine

/-! ## Flash objects (R719, R720, R722) -/

/-- Offset of a copy, and the size of its area (R719): kind 0 firmware, 1 record; copy 0 A, 1 B. -/
def copyAt (kind copy : Nat) : Nat :=
  if kind = 0 then 0x1800000 * copy else 0x3000000 + 0x100000 * copy
def copySize (kind : Nat) : Nat := if kind = 0 then 0x1800000 else 0x100000

def magicOf (kind : Nat) : Nat := if kind = 0 then 0x46554D56 else 0x4746434D

/-- Field of an object's bytes, little-endian (R6, R720). -/
def objNum (o : List Byte) (at_ n : Nat) : Nat := leNat ((o.drop at_).take n)

def objSvn (o : List Byte) : Nat := objNum o 8 4
def objVersion (o : List Byte) : Nat := objNum o 4 4
def objBody (o : List Byte) : List Byte := o.drop 8192

/-- Context string "VL16" of a signature. -/
def sigContext : List Byte := [0x56#8, 0x4C#8, 0x31#8, 0x36#8]

/-- The serial that the seed confirms (R730): SHAKE256 of seed and serial matches the record's check value. -/
def serialOk (f : Factory) : Bool :=
  !f.check.isEmpty && shake256 (Config.seed ++ leBytes 8 f.serial.toNat) f.check.length == f.check

/-- Check of an object (R722): 0, or the RESULT of the first group of conditions that fails: 5 form, 3 signer and
identity, 4 SVN. -/
def objCheck (kind floor : Nat) (o : List Byte) : Nat :=
  if objNum o 0 4 ≠ magicOf kind ∨ o.length ≠ 8192 + objNum o 12 4 ∨ ((o.drop 5357).take 2835).any (· != 0#8) ∨
      (kind = 0 ∧ objNum o 16 16 ≠ 0) then 5
  else if shake256 ((o.drop 96).take 1952) (Config.romKey (kind == 1)).length ≠ Config.romKey (kind == 1) ∨
      shake256 (o.take 32 ++ objBody o) 64 ≠ (o.drop 32).take 64 ∨
      !Config.verify ((o.drop 96).take 1952) ((o.drop 32).take 64) sigContext ((o.drop 2048).take 3309) ∨
      (kind = 1 ∧ (let f := (Config.recordBody (objBody o)).1
        objNum o 16 16 ≠ f.serial.toNat ∨ !serialOk f)) then 3
  else if objSvn o < floor then 4
  else 0

/-- The object in a copy's area; none where its MAGIC is wrong or it does not fit. -/
def State.flashObj (s : State) (kind copy : Nat) : Option (List Byte) :=
  let a := copyAt kind copy
  if Bytes.rdNat s.flash a 4 ≠ magicOf kind then none
  else
    let n := 8192 + Bytes.rdNat s.flash (a + 12) 4
    if n ≤ copySize kind then some (Bytes.rdList s.flash a n) else none

/-- The value that most of the sixteen repair areas hold, the lowest on a tie (R724). -/
def majority (vs : List Nat) : Nat :=
  let best := vs.foldl (fun m v => max m (vs.count v)) 0
  ((vs.filter (fun v => vs.count v == best)).min?).getD 0

def State.floorOf (s : State) (kind : Nat) : Nat :=
  majority ((List.range 16).map (fun n => SMap.get 0 (if kind = 0 then s.fwFloor else s.recFloor) n))

/-- RESULT of checking a flash copy. -/
def State.copyCheck (s : State) (kind copy : Nat) : Nat :=
  match s.flashObj kind copy with
  | some o => objCheck kind (s.floorOf kind) o
  | none => 5

/-- Rank of a copy: SVN, then VERSION (R723). -/
def State.copyRank (s : State) (kind copy : Nat) : Nat :=
  match s.flashObj kind copy with
  | some o => objSvn o * 2 ^ 32 + objVersion o
  | none => 0

/-- The copy of a kind that a boot selects (R723): the higher SVN, then the higher VERSION, then A, among those that pass;
the firmware copy that failed to start is passed over where the other one passes. -/
def State.select (s : State) (kind : Nat) : Option Nat :=
  let ok := fun (c : Nat) => s.copyCheck kind c == 0
  let bad := fun (c : Nat) => kind == 0 && s.badCopy == some c
  match ok 0, ok 1 with
  | true, true =>
    if bad 0 then some 1 else if bad 1 then some 0
    else if s.copyRank kind 0 < s.copyRank kind 1 then some 1 else some 0
  | true, false => some 0
  | false, true => some 1
  | false, false => none

/-- The copy of a kind that this boot falls back from: the other one fails its check or has failed to start (R723; log
entry 51). -/
def State.fellBack (s : State) (kind : Nat) : Option Nat :=
  match s.select kind with
  | some c =>
    if (s.flashObj kind (1 - c)).isSome ∧ (s.copyCheck kind (1 - c) ≠ 0 ∨ (kind = 0 ∧ s.badCopy = some (1 - c))) then some (1 - c)
    else none
  | none => none

/-- Copy of a kind that the last boot selected. -/
def State.selected (s : State) (kind : Nat) : Nat := if kind = 0 then s.f ZEN_BOOT.FW_COPY else s.f ZEN_BOOT.REC_COPY

/-- The selected object of a kind. -/
def State.running (s : State) (kind : Nat) : List Byte := (s.flashObj kind (s.selected kind)).getD []

/-! ## Resets (R716, R717) -/

/-- A copy whose write is abandoned fails its check at the next boot (R717). -/
def State.abandoned (s : State) : Bytes :=
  match s.fwu with
  | some u => if u.started then SMap.dropRange s.flash (copyAt u.kind u.copy) 8192 else s.flash
  | none => s.flash

/-- ACTIVE redirect entries, which the repair areas keep (R377). -/
def State.keptRedirs (s : State) : SMap W64 :=
  s.regs.filter (fun p => decide (0x2000000 ≤ p.1) && decide (p.1 < 0x3000000) &&
    decide (0x10000 ≤ p.1 % 0x100000) && decide (p.1 % 0x100000 < 0x18000) && bitAt p.2 63 && fld p.2 62 61 == 1)

/-- What outlives a loss of power or a power-up reset: pins, the flash, the repair areas and the far tier; every register
takes its Reset value (R716). -/
def State.nonvolatile (s : State) : State :=
  let s' := { State.reset with
    pending := s.pending, free := s.free, far := s.far, farPoison := s.farPoison, comp := s.comp,
    flash := s.abandoned, fwFloor := s.fwFloor, recFloor := s.recFloor, retired := s.retired, badCopy := s.badCopy,
    dylPerst := s.dylPerst, pgood := s.pgood, pgPull := s.pgPull, inputOff := s.inputOff, vddSb := s.vddSb,
    inputMv := s.inputMv, tap := s.tap, tapIr := s.tapIr, tapShift := s.tapShift, tdo := s.tdo,
    regs := s.keptRedirs }
  (List.range 16).foldl (fun t n => t.setF (MSC_GEN.GEN n) (s.f (MSC_GEN.GEN n))) s'

/-- The retired tiles that most repair areas list (R745). -/
def State.retiredTiles (s : State) : List Nat :=
  let ls := (List.range 16).map (fun n => SMap.get [] s.retired n)
  let best := ls.foldl (fun m v => max m (ls.count v)) 0
  (ls.find? (fun l => ls.count l == best)).getD []

/-! ## Measurements and keys (R731, R733) -/

/-- A measured object: SHAKE256 with 512 bits. -/
def digest64 (bs : List Byte) : List Byte := shake256 bs 64

def State.measure (s : State) (i : Nat) (bs : List Byte) : State :=
  { s with meas := SMap.put [] s.meas i (digest64 bs) }

def State.stage (s : State) (i : Nat) : List Byte := ((Config.fwStages (objBody (s.running 0)))[i]?).getD []

def asciiDevid : List Byte := [0x44#8, 0x45#8, 0x56#8, 0x49#8, 0x44#8]
def asciiAlias : List Byte := [0x41#8, 0x4C#8, 0x49#8, 0x41#8, 0x53#8]

/-- Measurements 1 - 3 one after the other. -/
def State.layer (s : State) : List Byte := [1, 2, 3].flatMap (fun i => SMap.get [] s.meas i)

/-- The alias key and slot 0's chain (R731); nothing is derived while debug access is open (R736). -/
def State.deriveKeys (s : State) (f : Factory) : State :=
  if s.flag ZEN_BOOT.UNLOCKED then { s with aliasSeed := [], certs := [] }
  else
    let dev := shake256 (Config.seed ++ asciiDevid) 32
    let al := shake256 (Config.seed ++ asciiAlias ++ s.layer) 32
    { s with aliasSeed := al,
             certs := Config.caCerts ++ [f.devCert, Config.aliasCert dev (Config.publicKey al) s.layer] }

/-- Measurement 8: selected copies, their SVNs and the floors. -/
def State.measure8 (s : State) : State :=
  s.measure 8 (leBytes 1 (s.selected 0) ++ leBytes 1 (s.selected 1) ++ leBytes 4 (objSvn (s.running 0)) ++
    leBytes 4 (objSvn (s.running 1)) ++ leBytes 4 (s.floorOf 0) ++ leBytes 4 (s.floorOf 1))

/-! ## The boot, up to INIT (steps 1 - 6 of R725) -/

/-- RECOVERY (R727): the ports are released in PCIE mode, and measurement 2 is absent. -/
def State.enterRecovery (s : State) : State :=
  let s := (s.setF ZEN_BOOT.STATE 3).measure 1 Config.romImage
  (List.range 2).foldl (fun s p => (s.setF (DYL_PORT_CTL.MAX_MODE p) 2).setFlag (DYL_PORT_CTL.DISABLE p) false) s

/-- Registers that the factory section gives (R728). -/
def State.applyFactory (s : State) (f : Factory) : State :=
  let s := ((s.setReg ZEN_SERIAL.at f.serial).setF ZEN_ID.CAP_GIB f.capGib).setF ZEN_ID.PART f.part
  let s := (s.setF TMD_CTL.TJ_TRIP f.tjTrip)
  let s := (List.range 16).foldl (fun s n =>
    let s := s.setF (MSC_ID.CAP_GIB n) f.capGib
    (s.setSigned (MSC_TEMP.WIN_LO n) f.winLo.toInt).setSigned (MSC_TEMP.WIN_HI n) f.winHi.toInt) s
  let s := (List.range 16).foldl (fun s p =>
    s.setF (XWF_PORT_MAC.MAC p) (((f.macs[p]?).map (fun m => m.toNat)).getD 0)) s
  { s with theta := f.theta, tau := f.tau }

/-- The record in use: its factory section, and its site section or the defaults (R728). -/
def State.record (s : State) : Factory × Site :=
  let r := Config.recordBody (objBody (s.running 1))
  (r.1, r.2.getD Site.default_)

/-- Steps 2 to 6 of R725 with both selections made. -/
def State.bootInit (s : State) (fw rc : Nat) : State :=
  let fb := (s.fellBack 0).isSome || (s.fellBack 1).isSome
  let s := ((s.setF ZEN_BOOT.FW_COPY fw).setF ZEN_BOOT.REC_COPY rc).setFlag ZEN_BOOT.FALLBACK fb
  let fwo := s.running 0
  let (f, site) := s.record
  let def_ := (Config.recordBody (objBody (s.running 1))).2.isNone
  let s := (s.setFlag ZEN_BOOT.SITE_DEFAULT def_).applyFactory f
  let s := ((s.setF ZEN_BOOT.SVN (objSvn fwo)).setF ZEN_BOOT.FLOOR (s.floorOf 0)).setF ZEN_ID.FW_VER (objVersion fwo)
  let un := Config.unlocks s.flash (copyAt 0 (1 - fw)) f.serial
  let s := s.setFlag ZEN_BOOT.UNLOCKED un
  let s := (s.measure 1 Config.romImage).measure 2 (s.stage 0)
  let s := s.measure 3 (leBytes 1 un.toNat)
  let s := s.deriveKeys f
  let s := (s.measure 6 (objBody (s.running 1))).measure 7
    (leBytes 1 def_.toNat ++ leBytes 8 site.pfx.toNat ++ leBytes 2 site.node ++ (site.dylOff ++ site.dylMode ++ site.xwfOff).flatMap (leBytes 1))
  let s := (List.range 2).foldl (fun s p =>
    (s.setF (DYL_PORT_CTL.MAX_MODE p) ((site.dylMode[p]?).getD 0)).setFlag (DYL_PORT_CTL.DISABLE p) (site.dylOff.contains p)) s
  s.setF ZEN_BOOT.STATE 1

/-- Steps 1 to 6 of R725, or RECOVERY (R727). -/
def State.bootEarly (s : State) : State :=
  match s.select 0, s.select 1 with
  | some fw, some rc => s.bootInit fw rc
  | _, _ => s.enterRecovery

/-- Every page of the stacks whose GEN[15:0] has become 0 is discarded (R394, R397): no segment covers it, so it is of
class A (R348). -/
def State.discardStacks (s : State) : State :=
  (List.range 16).foldl (fun s n =>
    if s.f (MSC_GEN.GEN n) % 2 ^ 16 = 0 then s.discardRun (n * s.stackPages) s.stackPages (mkTag 2 0 false) else s) s

/-- A power-up reset (R716): GEN advances (R394), what the stacks hold is of an earlier generation, and the boot starts. -/
def State.powerUp (s : State) (cause : Nat) : State :=
  let t := s.nonvolatile
  let t := (List.range 16).foldl (fun t n => t.setF (MSC_GEN.GEN n) (s.f (MSC_GEN.GEN n) + 1)) t
  let t := { t with pages := s.pages, blank := s.blank, reserve := s.reserve }
  (t.setF ZEN_BOOT.CAUSE cause).bootEarly.discardStacks

/-- POWER_UP_RESET (R716, R764): SB_PGOOD rises after having been low, or SB_RESET_N has been low for 1 ms. -/
def execPowerUpReset (longReset : Bool) (s : State) : Out :=
  if longReset then (if s.pgood ∧ s.domRuns dSBD then .next (s.powerUp 1) else .next s)
  else if !s.pgood ∧ !s.pgPull ∧ !s.inputOff then .next ({ s with pgood := true }.powerUp 0)
  else .next s

/-- A keyed write to ZEN_RESET (R738). -/
def zenKey : Nat := 0x5A17

def execDeviceReset (by_ : Agent) (key : BitVec 16) (s : State) : Out :=
  if s.accepts by_ ZEN_RESET.at ∧ key.toNat = zenKey then .next (s.powerUp 2) else .next s

/-! ## The module's input (R763, R764) -/

/-- SB_PGOOD goes low: all activity stops, and stack contents are not preserved. -/
def State.powerLoss (s : State) : State := { s.nonvolatile with pgood := false }

/-- PGOOD_LOW (R764): the input has been below 38 V for 1 ms, or the board pulls the line low. -/
def execPgoodLow (byBoard : Bool) (s : State) : Out :=
  if s.pgood then .next { s.powerLoss with pgPull := !byBoard } else .next s

/-- HOT_SWAP_TRIP (R763). -/
def execHotSwapTrip (s : State) : Out :=
  if s.inputOff then .next s
  else .next { (if s.pgood then s.powerLoss else s) with pgPull := true, inputOff := true }

/-- HOT_SWAP_RETRY (R763). -/
def execHotSwapRetry (s : State) : Out := .next { s with inputOff := false }

/-- SB_PGOOD_RELEASE (R764, R773): standby rails are up and the input stands at mV. -/
def execSbPgoodRelease (mV : Nat) (vdd : Bool) (s : State) : Out :=
  if s.pgPull ∧ !s.inputOff ∧ mV ≥ 40000 then .next { s with pgPull := false, inputMv := mV, vddSb := vdd } else .next s

/-! ## The rest of the boot (steps 7 - 12 of R725) -/

/-- The map of R168: logical tile by physical tile, for the tiles that are not defective. -/
def tileMap (bad : List Nat) : List (Nat × Nat) :=
  let good := fun (g : Nat) => (List.range 25).filterMap (fun i => if bad.contains (25 * g + i) then none else some (25 * g + i))
  let own := (List.range 8).flatMap (fun g => (good g).zip ((List.range 24).map (fun i => 24 * g + i)))
  let spares := fun (g : Nat) => (good g).drop 24
  let orphans := (List.range 192).filter (fun l => !own.any (fun p => p.2 == l))
  (orphans.foldl (fun (m : List (Nat × Nat)) l =>
    match (spareOrder (l / 24)).findSome? (fun g => (spares g).find? (fun t => !m.any (fun p => p.1 == t))) with
    | some t => m ++ [(t, l)]
    | none => m) own)

/-- ANV_ID of every tile (R168, R175, R745). -/
def State.buildMap (s : State) (defects retired : List Nat) : State :=
  let m := tileMap (defects ++ retired)
  let s := (List.range 200).foldl (fun s t =>
    match m.find? (fun p => p.1 == t) with
    | some p => (s.setF (ANV_ID.STATE t) 0).setF (ANV_ID.LOGICAL t) p.2
    | none =>
      (s.setF (ANV_ID.STATE t) (if defects.contains t then 3 else if retired.contains t then 2 else 1)).setF (ANV_ID.LOGICAL t) 255) s
  let n := ((List.range 200).filter (fun t => s.f (ANV_ID.STATE t) == 1)).length
  (s.setF ZEN_SVC_STATUS.SPARES n).setF ZEN_SVC_STATUS.RETIRED retired.length

/-- Engines that the record lists as defective are plain (R229). -/
def State.markEngines (s : State) (bad : List Nat) : State :=
  (List.range 16).foldl (fun s n =>
    let s := s.setF (VRG_ID.FW_VER n) (s.f ZEN_ID.FW_VER)
    if bad.contains n then (s.setF (VRG_ID.MODE n) 3).setFlag (VRG_CTL.PLAIN n) true else s) s

/-- Domains 8 to 28, engines that are not ACTIVE apart (R697, step 9 of R725). -/
def State.switchAll (s : State) : State :=
  (List.range 21).foldl (fun s i =>
    let d := 8 + i
    if d < 13 ∨ s.f (VRG_ID.MODE (d - 13)) = 0 then s.powerOn d else s) s

/-- A decoder's registers: ports as a mask, ways as IW, device, and base and size in units of 256 MiB. -/
def State.setDecoder (s : State) (d ports iw dev base size : Nat) : State :=
  let s := ((s.setF (CXP_HDM_RANGE.BASE d) base).setF (CXP_HDM_RANGE.SIZE d) (size - 1)).setFlag (CXP_HDM_RANGE.V d) true
  ((s.setF (CXP_HDM_TGT.IW d) iw).setF (CXP_HDM_TGT.PORTS d) ports).setF (CXP_HDM_TGT.DEV d) dev

/-- Decoders for devices one after another: port, device and size each (R360); the window ends at 8 TiB. -/
def State.mapDevices (s : State) : Nat → Nat → List (Nat × Nat × Nat) → State
  | _, _, [] => s
  | d, base, (p, v, sz) :: t =>
    let sz := min sz (0xA000 - base)
    if d ≥ 16 ∨ sz = 0 then s else (s.setDecoder d (2 ^ p) 0 v base sz).mapDevices (d + 1) (base + sz) t

/-- Step 11: far ports with their devices' capacities in units of 256 MiB and the rate and width that each port trains at
(R359, R360, R768). -/
def State.bootFar (s : State) (devices : List (List Nat)) (links : List (Nat × Nat)) : State :=
  let dv := fun (p : Nat) => ((devices[p]?).getD []).filter (fun c => c != 0) |>.take 4
  let ports := (List.range 4).filter (fun p => !(dv p).isEmpty)
  let s := { s with cxpPerst := [] }
  let s := ports.foldl (fun s p =>
    let l := (links[p]?).getD (64, 3)
    s.cxpTrained p (if l.1 = 64 then 1 else 2) l.1 l.2 (dv p).length) s
  let caps := ports.map dv
  match caps with
  | [c] :: _ =>
    if caps.all (fun x => x == [c]) ∧ (ports.length = 2 ∨ ports.length = 4) then
      s.setDecoder 0 ((ports.map (fun p => 2 ^ p)).sum) (if ports.length = 2 then 1 else 2) 0 0x2000
        (min (c * ports.length) 0x8000)
    else s.mapDevices 0 0x2000 (ports.flatMap (fun p => (dv p).zipIdx.map (fun x => (p, x.2, x.1))))
  | _ => s.mapDevices 0 0x2000 (ports.flatMap (fun p => (dv p).zipIdx.map (fun x => (p, x.2, x.1))))

/-- Step 12: NODE, PREFIX and the fabric ports (R661, R663, R677). -/
def State.bootFabric (s : State) (site : Site) : State :=
  let s := (s.setF XWF_ID.NODE site.node).setReg XWF_IPV6_PREFIX.at site.pfx
  (List.range 16).foldl (fun s p =>
    if site.xwfOff.contains p then s.setFlag (XWF_PORT_CTL.DISABLE p) true else s.portDisable p false) s

/-- A check of the four copies (R756): OK, CHECKS and the alert. -/
def State.checkFlash (s : State) : State :=
  let ok := fun (k c : Nat) => s.copyCheck k c == 0
  let m := (ok 0 0).toNat + 2 * (ok 0 1).toNat + 4 * (ok 1 0).toNat + 8 * (ok 1 1).toNat
  let s := (s.setF ZEN_FLASH.OK m).bump ZEN_FLASH.CHECKS 1
  if m = 15 then s else s.setFlag ZEN_ALERT.FLASH true

/-- Some copy that the boot did not select fails its check. -/
def State.needsRepair (s : State) (kind : Nat) : Bool := s.copyCheck kind (1 - s.selected kind) != 0

/-- The BOOT_FALLBACK record of a kind (R739). -/
def State.fallbackRec (s : State) (kind : Nat) : State :=
  match s.fellBack kind with
  | some c => s.erq ⟨0xD1, 2, bZEN, 0, none, 0, BitVec.ofNat 64 (kind + 2 * c)⟩
  | none => s

/-- Steps 7 to 12 of R725 (DEDUCED, log entry 52). -/
def State.bootRest (s : State) (devices : List (List Nat)) (links : List (Nat × Nat)) : State :=
  let (f, site) := s.record
  let s := s.buildMap f.defects s.retiredTiles
  let s := (s.markEngines f.badEngines)
  let s := ({ s.setF ZEN_BOOT.STATE 2 with vpcFw := s.stage 2 }.switchAll).loadVpcs
  let s := ((s.measure 4 (s.stage 1 ++ s.stage 2)).measure 5 (s.stage 3)).measure8
  let s := (s.bootFar devices links).bootFabric site
  let s := s.checkFlash
  let s := if s.needsRepair 0 || s.needsRepair 1 then s.due 5 1 else s
  let s := (s.fallbackRec 0).fallbackRec 1
  let s := if s.flag ZEN_BOOT.UNLOCKED then s.erq ⟨0xD4, 2, bZEN, 0, none, 0, s.reg ZEN_SERIAL.at⟩ else s
  { s.erq ⟨0xD0, 0, bZEN, 0, none, 0, s.reg ZEN_BOOT.at⟩ with badCopy := none }

/-- BOOT_DONE (R725): fwOk says that the selected copy's later stages pass; where they fail the next power-up reset
selects the other copy (R723). devices are what the far ports enumerate, and links the rates and widths they train at. -/
def execBootDone (fwOk : Bool) (devices : List (List Nat)) (links : List (Nat × Nat)) (s : State) : Out :=
  if s.f ZEN_BOOT.STATE ≤ 1 ∧ s.zenUp then
    let s := if s.f ZEN_BOOT.STATE = 0 then s.bootEarly else s
    if s.f ZEN_BOOT.STATE = 1 then
      .next (if fwOk then s.bootRest devices links else { s with badCopy := some (s.f ZEN_BOOT.FW_COPY) })
    else .next s
  else .next s

/-! ## ZEN restarts (R718) -/

/-- A restart begins, unless one is in progress. -/
def State.restartZen (s : State) (watchdog : Bool) : State :=
  if s.zenUp ∧ !s.recovery then { s with zenRestart := true, watchdog := watchdog } else s

def execZenRestart (by_ : Agent) (key : BitVec 16) (s : State) : Out :=
  if s.accepts by_ ZEN_RESET.at ∧ key.toNat = zenKey then .next (s.restartZen false) else .next s

/-- ZEN_WATCHDOG (R716). -/
def execZenWatchdog (s : State) : Out := .next (s.restartZen true)

/-- ZEN_RESTART_DONE (R718, R739): the selected copy passes its check again, the records that units hold are queued, and
the ZEN domain's crossings resynchronise. A copy that fails is passed over at the next power-up reset (R723). -/
def execZenRestartDone (s : State) : Out :=
  if s.zenRestart then
    if s.copyCheck 0 (s.f ZEN_BOOT.FW_COPY) = 0 then
      let held := s.heldRecs
      let s := { s with zenRestart := false, heldRecs := [] }
      let s := held.foldl (fun s h => s.erqQueue h.1 h.2.2 h.2.1) s
      .next ((s.erq ⟨0xD3, 2, bZEN, 0, none, 0, BitVec.ofNat 64 s.watchdog.toNat⟩).resync dZEN)
    else .next { s with badCopy := some (s.f ZEN_BOOT.FW_COPY) }
  else .next s

/-! ## Update (R734, R735, R737) -/

/-- The FWU record (R739). -/
def State.fwuRec (s : State) (ok : Bool) : State :=
  s.erq ⟨0xD2, if ok then 0 else 2, bZEN, 0, none, 0, s.reg ZEN_FWU_STATUS.at⟩

/-- An update ends with a RESULT. -/
def State.fwuEnd (s : State) (result : Nat) : State :=
  ({ s with fwu := none, fwStream := none }.setF ZEN_FWU_STATUS.STATE 0).setF ZEN_FWU_STATUS.RESULT result
    |>.fwuRec (result == 1)

/-- The object's write begins, or waits for the flash's window (R713). -/
def State.fwuBegin (s : State) (u : Fwu) : State :=
  let go := s.flashOpen
  let s := { s with fwu := some { u with started := go } }
  ((s.setF ZEN_FWU_STATUS.STATE (if go then 2 else 1)).setF ZEN_FWU_STATUS.RESULT 0).setF ZEN_FWU_STATUS.DONE_KIB 0

/-- The staged object: none where it is not readable stack or far memory; a range that meets a resident segment or its
mirror is found before it is read. -/
def stagedObject (src : Nat) : EM (Nat × List Byte) := do
  let s ← get
  if rangesMeet [(src, src + 8191)] s.busyRanges then pure (7, [])
  else match ← ldrRead src 8192 with
    | none => pure (5, [])
    | some h =>
      let n := 8192 + objNum h 12 4
      if n > copySize 0 then pure (5, [])
      else if rangesMeet [(src, src + n - 1)] s.busyRanges then pure (7, [])
      else match ← ldrRead src n with
        | none => pure (5, [])
        | some o => pure (0, o)

/-- A staged update checked and started (steps 1 to 3 of R734) (DEDUCED, log entry 53). -/
def startUpdate : EM Unit := do
  let s ← get
  let kind := s.f ZEN_FWU_STATUS.KIND
  let (r, o) ← stagedObject (s.f ZEN_FWU_CTL.SRC)
  modify (fun s =>
    if r ≠ 0 then s.fwuEnd r
    else
      let c := objCheck kind (s.floorOf kind) o
      if c ≠ 0 then s.fwuEnd c
      else if o.length > copySize kind then s.fwuEnd 5
      else
        let obj := if kind = 1 then Config.mergeRecord (s.running 1) o else o
        s.fwuBegin ⟨kind, 1 - s.selected kind, obj, false, false⟩)

/-- GO of ZEN_FWU_CTL (R734, R735). -/
def fwuGo (s : State) : Out :=
  if !s.zenUp ∨ !s.ready then .next s
  else if s.fwu.isSome ∨ s.fwStream.isSome ∨ s.f ZEN_FWU_STATUS.STATE ≠ 0 then .next (s.setF ZEN_FWU_STATUS.RESULT 2)
  else rowOf startUpdate s

def execFwuGo (by_ : Agent) (s : State) : Out := if s.accepts by_ ZEN_FWU_CTL.at then fwuGo s else .next s

/-- A copy's area erased. -/
def eraseCopy (fl : Bytes) (kind copy : Nat) : Bytes := SMap.dropRange fl (copyAt kind copy) (copySize kind)

/-- After a repair of R756: the other kind's failing copy is next, or the check is complete. -/
def State.repairNext (s : State) (kind : Nat) : State :=
  match s.flashObj kind (s.selected kind) with
  | some o =>
    if s.needsRepair kind ∧ s.copyCheck kind (s.selected kind) = 0 then
      s.fwuBegin ⟨kind, 1 - s.selected kind, o, false, true⟩
    else if kind = 0 then
      match s.flashObj 1 (s.selected 1) with
      | some r =>
        if s.needsRepair 1 ∧ s.copyCheck 1 (s.selected 1) = 0 then s.fwuBegin ⟨1, 1 - s.selected 1, r, false, true⟩
        else s.endAction 1
      | none => s.endAction 1
    else s.endAction 1
  | none => s.endAction 1

/-- FWU_WRITE_DONE (R734): ok says that the copy read back matches. -/
def execFwuWriteDone (ok : Bool) (s : State) : Out :=
  match s.fwu with
  | some u =>
    if s.zenUp ∧ s.domRuns dSBD ∧ (u.started ∨ (s.flashOpen ∧ !s.flag TMD_FLASH.FHOLD)) then
      let fl := eraseCopy s.flash u.kind u.copy
      let s := if ok then { s with flash := Bytes.wrList fl (copyAt u.kind u.copy) u.obj } else { s with flash := fl }
      let s := if ok then s.setF ZEN_FWU_STATUS.DONE_KIB (ceilDiv u.obj.length 1024) else s
      let s := s.fwuEnd (if ok then 1 else 6)
      .next (if u.repair then (if u.kind = 0 then s.repairNext 1 else s.endAction 1) else s)
    else .next s
  | none => .next s

/-- COMMIT (R724, R734): the floors rise to the SVNs of the running copies; measurement 8 is taken again. -/
def State.fwuCommit (s : State) : State :=
  if s.zenUp ∧ s.ready then
    let up := fun (m : SMap Nat) (v : Nat) => (List.range 16).foldl (fun m n => SMap.put 0 m n (max (SMap.get 0 m n) v)) m
    let s := { s with fwFloor := up s.fwFloor (max (s.floorOf 0) (objSvn (s.running 0))),
                      recFloor := up s.recFloor (max (s.floorOf 1) (objSvn (s.running 1))) }
    (s.setF ZEN_BOOT.FLOOR (s.floorOf 0)).measure8
  else s

def execFwuCommit (by_ : Agent) (s : State) : Out := if s.accepts by_ ZEN_FWU_CTL.at then .next s.fwuCommit else .next s

/-- Copy that a streamed object goes to (R735, R737). -/
def State.streamCopy (s : State) : Nat := if s.recovery then 0 else 1 - s.selected (s.f ZEN_FWU_STATUS.KIND)

/-- FW_CHUNK (R737): 4 KiB at the next offset; offset 0 starts a new object. -/
def execFwChunk (off : Nat) (bytes : List Byte) (s : State) : Out :=
  let kind := s.f ZEN_FWU_STATUS.KIND
  if s.sbUp ∧ s.zenUp ∧ (s.ready ∨ s.recovery) ∧ s.fwu.isNone ∧ bytes.length = 4096 ∧ off + 4096 ≤ copySize kind ∧
      (off = 0 ∨ s.fwStream = some off) ∧ s.flashOpen then
    let c := s.streamCopy
    let fl := if off = 0 then eraseCopy s.flash kind c else s.flash
    let s := { s with flash := Bytes.wrList fl (copyAt kind c + off) bytes, fwStream := some (off + 4096) }
    .next ((s.setF ZEN_FWU_STATUS.STATE 3).setF ZEN_FWU_STATUS.DONE_KIB (off / 1024 + 4))
  else .next s

/-- FW_END (R734, R737): the streamed object is checked from the flash. -/
def execFwEnd (s : State) : Out :=
  if s.sbUp ∧ s.zenUp ∧ s.fwStream.isSome then
    let c := s.copyCheck (s.f ZEN_FWU_STATUS.KIND) s.streamCopy
    .next (s.fwuEnd (if c = 0 then 1 else c))
  else .next s

end Sys2Proof.Machine
end

