-- ==== Sys2Proof/Machine/Service.lean ====
section
/-! DEFINITION. Service actions (R741 - R756): the single slot, the retirement of a tile, migrations, the retirement of an
engine (R223), and the check of the flash copies. -/
namespace Sys2Proof.Machine

/-! ## The slot (R741, R742) -/

/-- TARGET names nothing that the action can act on (R742). -/
def State.badTarget (s : State) (a t : Nat) : Bool :=
  if a = 1 then decide (200 ≤ t) || s.f (ANV_ID.STATE t) != 0
  else if a = 2 then decide (512 ≤ t)
  else if a = 3 then decide (s.region t ≠ .stack)
  else if a = 4 then decide (16 ≤ t) || s.f (VRG_ID.MODE t) != 0
  else a != 5

/-- The action takes the slot; one whose target is bad ends at once. -/
def State.beginAction (s : State) (a t : Nat) : State :=
  let s := { s with svc := some (a, t) }
  let s := (s.setF ZEN_SVC_STATUS.STATE 1).setF ZEN_SVC_STATUS.RESULT 0
  if s.badTarget a t then s.endAction 5 else s

/-- No action starts during a compute reset (R741), nor while ZEN does not run (R718) or has not booted. -/
def State.slotOpen (s : State) : Bool := s.up && s.zenUp && s.ready

/-- GO written to ZEN_SVC_CTL: refused with BUSY while an action runs; a GO that no action may follow yet waits for the
slot with the automatic ones. TARGET of FLASH_CHECK says nothing (DEDUCED, log entry 58). -/
def State.svcGo (s : State) : State :=
  let a := s.f ZEN_SVC_CTL.ACTION
  let t := if a = 5 then 0 else s.f ZEN_SVC_CTL.TARGET
  if s.svc.isSome then s.setF ZEN_SVC_STATUS.RESULT 2
  else if s.slotOpen then s.beginAction a t
  else s.due a t

/-- The state in which a row of the action goes on: the action holds the slot, or it was due and takes it now. -/
def State.claim (s : State) (a t : Nat) : State :=
  if s.svc = none ∧ s.slotOpen ∧ s.svcDue.contains (a, t) then
    { s with svcDue := s.svcDue.erase (a, t) }.beginAction a t
  else s

/-- A row of an action: its work on the state that claim gives. -/
def actionRow (a t : Nat) (s : State) (work : State → State) : Out :=
  let s' := s.claim a t
  if s'.svc = some (a, t) ∧ s'.zenUp then .next (work s') else .next s'

/-! ## Retiring a tile (R744 - R747) -/

/-- Jobs whose tile set holds logical tile l and whose tiles are loaded or moving. -/
def State.onTiles (s : State) (l : Nat) : List Nat :=
  jobList.filter (fun j => s.inSet j l &&
    (s.jobState j == jRESTORING || s.jobState j == jRUNNING || s.jobState j == jSAVING))

/-- Steps 3 to 5 of R744: logical tile l moves from p to the spare sp, and p is stored in every repair area. -/
def State.moveTile (s : State) (p sp l : Nat) : State :=
  let s := (s.setF (ANV_ID.STATE p) 2).setF (ANV_ID.LOGICAL p) 255
  let s := (s.setF (ANV_ID.STATE sp) 0).setF (ANV_ID.LOGICAL sp) l
  let s := { s with retired := (List.range 16).foldl (fun m n =>
    SMap.put [] m n (addNum (SMap.get [] s.retired n) p)) s.retired }
  let s := s.setF ZEN_SVC_STATUS.SPARES (s.f ZEN_SVC_STATUS.SPARES - 1)
  ((s.bump ZEN_SVC_STATUS.RETIRED 1).setFlag ZEN_ALERT.TILE true).endAction 1

/-- RETIRE_TILE (R744, R747): jobs of the tile are held and pre-empted; once none of them is on its tiles and the
spare's group is on, the tile moves. -/
def State.retireTile (s : State) (p : Nat) : State :=
  match s.spareFor (p / 25) with
  | none => s.endAction 3
  | some sp =>
    let l := s.ltile p
    let s := { s with svcHeld := true }
    let s := (s.onTiles l).foldl State.startSave s
    if (s.onTiles l).isEmpty ∧ s.powOn (sp / 25) then s.moveTile p sp l else s

def execRetireTile (t : Nat) (s : State) : Out := actionRow 1 t s (fun s => s.retireTile t)

/-! ## Migrations (R743, R748, R749) -/

/-- A migration of extents of channel c of stack n begins, unless its entries have been made already; the copier's rows
carry it on and end it. -/
def State.migrate (s : State) (n c : Nat) (exts : List (Nat × Nat)) : State :=
  if s.flag (MSC_COPY.ACTIVE n) then s
  else match s.planMigration n c exts with
    | none => s.endAction 4
    | some [] => s.endAction 1
    | some ws => { s with migTodo := ws }.startExtent n

/-- MIGRATE_CHANNEL (R374, R748). -/
def execMigrateChannel (g : Nat) (s : State) : Out :=
  actionRow 2 g s (fun s => s.migrate (g / 32) (g % 32) (s.channelExtents (g / 32) (g % 32)))

/-- The page of a local address within its stack, as channel and index (R339, R340). -/
def State.pageOfAddr (s : State) (addr : Nat) : Nat × Nat :=
  (h512 (s.pageIn (addr / 4096)), s.pageIn (addr / 4096) / 32)

/-- MIGRATE_PAGE (R749): an extent of SIZE 0. -/
def execMigratePage (addr : Nat) (s : State) : Out :=
  actionRow 3 addr s (fun s =>
    let n := s.stackOf (addr / 4096)
    let (c, j) := s.pageOfAddr addr
    s.migrate n c (freeExtents (s.usedExtents n c) 0 j))

/-! ## Retiring an engine (R223) -/

/-- RETIRE_ENGINE: RETIRE is set, and loads that use the engine are refused from then on. -/
def execRetireEngine (n : Nat) (s : State) : Out :=
  actionRow 4 n s (fun s => ((s.setFlag (VRG_CTL.RETIRE n) true).setF (VRG_ID.MODE n) 1).endAction 1)

/-- A resident job, or one being loaded, uses the engine of stack n. -/
def State.engineUsed (s : State) (n : Nat) : Bool :=
  jobList.any (fun j => s.resident j && (SMap.get 0 s.engines j).testBit n) ||
    (match s.loading with
    | some x => x.job.isSome && x.vrg.testBit n
    | none => false)

/-- RETIRE_COMPLETE: PLAIN is set, slots are cleared, and the Virga compute domain goes off. -/
def execRetireComplete (n : Nat) (s : State) : Out :=
  if n < 16 ∧ s.f (VRG_ID.MODE n) = 1 ∧ s.engineUsed n = false ∧ s.virgaBusy n = 0 ∧ s.up ∧ s.zenUp then
    .next ((s.setFlag (VRG_CTL.PLAIN n) true).enterPlain n)
  else .next s

/-! ## Flash copies (R756) -/

/-- The check is not started while an update or a repair is on its way. -/
def State.flashFree (s : State) : Bool :=
  s.fwu.isNone && s.fwStream.isNone && s.f ZEN_FWU_STATUS.STATE == 0

/-- FLASH_CHECK: the four copies are checked, and a failing copy that the boot did not select is rewritten. Target 1 is
the repair that follows the check of the boot. -/
def execFlashCheck (s : State) : Out :=
  let a := s.claim 5 0
  if a.svc = some (5, 0) then
    .next (if a.zenUp ∧ a.flashFree then a.checkFlash.repairNext 0 else a)
  else actionRow 5 1 s (fun s => if s.flashFree then s.repairNext 0 else s)

/-- FLASH_CHECK_TIMER: every 24 h of OSC_Z. -/
def execFlashCheckTimer (s : State) : Out := .next (if s.ready then s.due 5 0 else s)

end Sys2Proof.Machine
end

