-- ==== Sys2Proof/Machine/Attest.lean ====
section
/-! DEFINITION. Attestation (R732, R733) and the test access port (R736). -/
namespace Sys2Proof.Machine

/-! ## The SPDM responder (R732) -/

/-- Error codes of SPDM 1.3 (PRESUMED, log entry 59). -/
def eInvalid : Nat := 1
def eUnexpected : Nat := 4
def eUnspecified : Nat := 5
def eUnsupported : Nat := 7

/-- A request on the transport reaches the responder: MCTP over I3C, or the mailbox of DYL port 0 (R726, R727). -/
def State.spdmUp (s : State) (tr : Nat) : Bool :=
  s.zenUp && (if tr = 0 then s.sbUp else tr == 1 && s.f (DYL_PORT_STATUS.STATE 0) == 2)

/-- Connection state of a transport: 0 none, then one more for each of GET_VERSION, GET_CAPABILITIES and
NEGOTIATE_ALGORITHMS. -/
def State.spdmStage (s : State) (tr : Nat) : Nat := SMap.get 0 s.spdm tr

/-- An answer sent, with the connection state after it. -/
def State.answerSpdm (s : State) (tr stage : Nat) (r : SpdmRsp) : State :=
  { s with spdm := SMap.put 0 s.spdm tr stage, spdmOut := s.spdmOut ++ [(tr, r)] }

/-- A request whose answer needs the connection state `need`; another one is answered UnexpectedRequest. -/
def spdmRow (tr need : Nat) (s : State) (stage : Nat) (r : SpdmRsp) : Out :=
  if s.spdmUp tr then
    .next (if s.spdmStage tr = need then s.answerSpdm tr stage r
      else s.answerSpdm tr (s.spdmStage tr) (.error eUnexpected))
  else .next s

/-- GET_VERSION: SPDM 1.3; it opens the connection anew. -/
def execGetVersion (tr : Nat) (s : State) : Out :=
  if s.spdmUp tr then .next (s.answerSpdm tr 1 (.version [3])) else .next s

/-- GET_CAPABILITIES: certificates, challenge and signed measurements. -/
def execGetCapabilities (tr : Nat) (s : State) : Out := spdmRow tr 1 s 2 (.capabilities true true true)

/-- NEGOTIATE_ALGORITHMS: the requester offers ML-DSA-65 and SHAKE256, or receives ERROR. -/
def execNegotiateAlgorithms (tr : Nat) (mldsa shake : Bool) (s : State) : Out :=
  if mldsa && shake then spdmRow tr 2 s 3 .algorithms else spdmRow tr 2 s 2 (.error eInvalid)

/-- Slot 0's chain: length, the digest of the root certificate, and the certificates; empty where no alias key was
derived. -/
def State.certChain (s : State) : List Byte :=
  match s.certs with
  | [] => []
  | root :: t =>
    let body := root ++ t.flatten
    leBytes 2 (68 + body.length) ++ [0#8, 0#8] ++ digest64 root ++ body

def execGetDigests (tr : Nat) (s : State) : Out :=
  spdmRow tr 3 s 3 (.digests (if s.certs.isEmpty then [] else [(0, digest64 s.certChain)]))

/-- GET_CERTIFICATE: a portion of slot 0's chain; ERROR Unspecified while debug access is open (R736). -/
def execGetCertificate (tr slot off len : Nat) (s : State) : Out :=
  let c := s.certChain
  spdmRow tr 3 s 3 (if s.flag ZEN_BOOT.UNLOCKED ∨ s.certs.isEmpty then .error eUnspecified
    else if slot ≠ 0 ∨ c.length ≤ off then .error eInvalid
    else .certificate 0 ((c.drop off).take len) (c.length - off - min len (c.length - off)))

/-! ## Measurements (R733) -/

/-- Value of measurement 16 + j: DIGEST of the image of resident job j with its LDR_JOBj_ATTR, zero while STATE is
NONE. -/
def State.jobMeasure (s : State) (j : Nat) : List Byte :=
  if s.resident j then SMap.get [] s.digests j ++ leBytes 8 (s.reg (LDR_JOB_ATTR.at j)).toNat
  else List.replicate 72 0#8

/-- Every measurement block there is. -/
def State.blocks (s : State) : List (Nat × List Byte) :=
  ((List.range 8).map (· + 1)).filterMap (fun i =>
    let d := SMap.get [] s.meas i
    if d.isEmpty then none else some (i, d)) ++
  jobList.map (fun j => (16 + j, s.jobMeasure j))

/-- Summary of every measurement, as a challenge answers it. -/
def State.summary (s : State) : List Byte := digest64 (s.blocks.flatMap (·.2))

/-- CHALLENGE: signed with the alias key over the nonce and what the answer says. -/
def execChallenge (tr slot : Nat) (nonce : List Byte) (s : State) : Out :=
  spdmRow tr 3 s 3 (if s.flag ZEN_BOOT.UNLOCKED ∨ s.certs.isEmpty then .error eUnspecified
    else if slot ≠ 0 then .error eInvalid
    else
      let chain := digest64 s.certChain
      .challengeAuth chain s.summary (Config.sign s.aliasSeed (nonce ++ chain ++ s.summary)))

/-- GET_MEASUREMENTS: index 0 asks for the number of blocks, 0xFF for all of them, another one for one block; the answer
is one snapshot. -/
def execGetMeasurements (tr index : Nat) (signed : Bool) (nonce : List Byte) (s : State) : Out :=
  let all := s.blocks
  let bs := if index = 0 then [] else if index = 255 then all else all.filter (fun b => b.1 == index)
  spdmRow tr 3 s 3 (if signed ∧ s.aliasSeed.isEmpty then .error eUnspecified
    else if index ≠ 0 ∧ bs.isEmpty then .error eInvalid
    else .measurements all.length bs
      (if signed then Config.sign s.aliasSeed (nonce ++ bs.flatMap (fun b => leBytes 1 b.1 ++ b.2)) else []))

/-- A request that the responder does not support. -/
def execUnsupportedRequest (tr _code : Nat) (s : State) : Out :=
  if s.spdmUp tr then .next (s.answerSpdm tr (s.spdmStage tr) (.error eUnsupported)) else .next s

/-! ## The test access port (R736, IEEE 1149.1) -/

/-- States of the controller: 0 Test-Logic-Reset, 1 Run-Test/Idle, 2 Select-DR, 3 Capture-DR, 4 Shift-DR, 5 Exit1-DR, 6
Pause-DR, 7 Exit2-DR, 8 Update-DR, and 9 to 15 the same for IR (PRESUMED, log entry 68). -/
def tapNext (st : Nat) (tms : Bool) : Nat :=
  match st, tms with
  | 0, true => 0
  | 0, false => 1
  | 1, true => 2
  | 1, false => 1
  | 2, true => 9
  | 2, false => 3
  | 9, true => 0
  | 9, false => 10
  | 8, true => 2
  | 8, false => 1
  | 15, true => 2
  | 15, false => 1
  | st, tms =>
    let b := if st < 9 then 0 else 7
    match st - b, tms with
    | 3, true => b + 5
    | 3, false => b + 4
    | 4, true => b + 5
    | 4, false => b + 4
    | 5, true => b + 8
    | 5, false => b + 6
    | 6, true => b + 7
    | 6, false => b + 6
    | 7, true => b + 8
    | _, _ => b + 4

/-- BYPASS, which a reset of the port selects. -/
def tapBypass : List Bool := List.replicate Config.irLen true

/-- One rising edge of TCK with TMS and TDI. -/
def State.tapClock (s : State) (b : Bool × Bool) : State :=
  let s := match s.tap with
    | 3 => { s with tapShift := if s.tapIr = tapBypass then [false] else Config.drCapture s.tapIr }
    | 10 => { s with tapShift := true :: List.replicate (Config.irLen - 1) false }
    | 4 => { s with tdo := s.tdo ++ s.tapShift.take 1, tapShift := s.tapShift.drop 1 ++ [b.2] }
    | 11 => { s with tdo := s.tdo ++ s.tapShift.take 1, tapShift := s.tapShift.drop 1 ++ [b.2] }
    | _ => s
  let n := tapNext s.tap b.1
  let s := { s with tap := n }
  if n = 15 then { s with tapIr := s.tapShift } else if n = 0 then { s with tapIr := tapBypass } else s

/-- JTAG_TAP_ACCESS: TRST_N, then clocks with TMS and TDI; TDO holds the bits shifted out. -/
def execJtagTapAccess (trst : Bool) (bits : List (Bool × Bool)) (s : State) : Out :=
  if s.pgood then
    let s := { s with tdo := [] }
    let s := if trst then { s with tap := 0, tapIr := tapBypass } else s
    .next (bits.foldl State.tapClock s)
  else .next s

end Sys2Proof.Machine
end

