-- ==== Sys2Proof/Machine/Ctl.lean ====
section
/-! DEFINITION. The control space: field writes by access code (R8 - R12), what a write starts, the views that a read
computes, the debug windows (R329 - R336), and accesses of the companion and the sideband (R24, R636, R737, R759). -/
namespace Sys2Proof.Machine

/-! ## Field writes (R8, R10 - R12) -/

/-- Ones in bits hi to lo. -/
def onesAt (hi lo : Nat) : W64 := setFld 0#64 hi lo (2 ^ 64 - 1)

/-- The value that a field takes (R11). -/
def Chk.fit (k : Chk) (old v : Nat) : Nat :=
  match k with
  | .any => v
  | .clamp lo hi => max lo (min hi v)
  | .within lo hi => if lo ≤ v ∧ v ≤ hi then v else old

/-- A register being written: its value, the W1S and WO bits written, and whether an RWB field was discarded. -/
structure RegWr where
  val : W64
  act : W64
  rejected : Bool
deriving DecidableEq, Repr

/-- One field's part of a write that covers the bits of m. -/
def Fld.write (f : Fld) (busy : Bool) (m v : W64) (x : RegWr) : RegWr :=
  let c := m &&& onesAt f.hi f.lo
  if c = 0#64 then x
  else
    let old := fld x.val f.hi f.lo
    let new := fld ((x.val &&& ~~~c) ||| (v &&& c)) f.hi f.lo
    let put := fun (w : Nat) => { x with val := setFld x.val f.hi f.lo w }
    match f.acc with
    | .rw => put (f.chk.fit old new)
    | .rwl => put (f.chk.fit old new)
    | .rwb => if busy then { x with rejected := true } else put (f.chk.fit old new)
    | .w1c => { x with val := x.val &&& ~~~(v &&& c) }
    | .w1s => { x with act := x.act ||| (v &&& c) }
    | .wo => { x with act := x.act ||| (v &&& c) }
    | .ro => x
    | .rws => x
    | .rz => x

/-- A write of the bits of m to a register that holds old. -/
def RegDef.write (d : RegDef) (busy : Bool) (old m v : W64) : RegWr :=
  d.flds.foldl (fun x f => f.write busy m v x) ⟨old, 0#64, false⟩

/-- Bits and value that a 32-bit or 64-bit access at an offset covers (R12). -/
def laneMask (off size : Nat) : W64 :=
  if size = 8 then onesAt 63 0 else if off % 8 = 0 then onesAt 31 0 else onesAt 63 32
def laneValue (off size : Nat) (v : W64) : W64 := if size = 4 ∧ off % 8 = 4 then v <<< 32 else v

/-- Sizes and alignments that the control space takes (R12). -/
def ctlShape (off size : Nat) : Bool := (size == 4 && off % 4 == 0) || (size == 8 && off % 8 == 0)

/-! ## Busy units (R273, R274, R654, R677) -/

/-- A started command of queue q of the job loaded in tile t runs. -/
def State.queueRuns (s : State) (t q : Nat) : Bool := s.loaded t && decide (((s.tile t).queue q).busy > 0)

/-- The VXE works: on a VOP, or for an ATT. -/
def State.vxeRuns (s : State) (t : Nat) : Bool :=
  s.queueRuns t 1 || (s.loaded t && ((s.tile t).queue 0).flight.any (fun f => f.held && cKind f.cmd == kATT))

/-- RWB fields of the register are held by a busy unit. -/
def State.rwbBusy (s : State) (b i k : Nat) : Bool :=
  if b = VRG_CTL.at 0 then decide (s.virgaBusy i > 0)
  else if b = VRG_JOB_CFG.at 0 0 then decide (s.virgaBusyOf i k > 0)
  else if b = ANV_MXE_CFG.at 0 then s.queueRuns i 0
  else if b = ANV_VXE_CFG.at 0 then s.vxeRuns i
  else if b = DYL_RING_BASE.at 0 ∨ b = DYL_RING_CFG.at 0 ∨ b = DYL_RING_STATUS.at 0 then s.flag (DYL_RING_CFG.EN i)
  else if b = DYL_MSG_BASE.at ∨ b = DYL_MSG_CFG.at then s.flag DYL_MSG_CFG.MEN
  else s.flag XWF_CTL.EN

/-- CFG_REJECT of the unit (R177, R231, R654, R677). -/
def State.reject (s : State) (b i : Nat) : State :=
  if b = VRG_CTL.at 0 ∨ b = VRG_JOB_CFG.at 0 0 then s.setReject 0 (10 + i)
  else if b = ANV_MXE_CFG.at 0 then s.setReject i 0
  else if b = ANV_VXE_CFG.at 0 then s.setReject i 1
  else if b = DYL_RING_BASE.at 0 ∨ b = DYL_RING_CFG.at 0 ∨ b = DYL_RING_STATUS.at 0 then
    s.setFlag (DYL_RING_STATUS.CFG_REJECT i) true
  else if b = DYL_MSG_BASE.at ∨ b = DYL_MSG_CFG.at then s.setFlag (DYL_RING_STATUS.CFG_REJECT 0) true
  else s.setFlag XWF_CTL.CFG_REJECT true

/-! ## What a write starts -/

/-- FLOOR_MIN clamped to 2 - FULL (R557). -/
def State.clampFloor (s : State) (j : Nat) : State :=
  s.setF (DSK_JOB_CTL.FLOOR_MIN j) (max 2 (min (s.f (DSK_JOB_CTL.FULL j)) (s.f (DSK_JOB_CTL.FLOOR_MIN j))))

/-- DYL gives up what it has read of a ring that is no longer enabled. -/
def State.dropRing (s : State) (r : Nat) : State :=
  if s.flag (DYL_RING_CFG.EN r) then s
  else { s with ringSeen := SMap.put none s.ringSeen r none, linkCache := dropNum s.linkCache r }

/-- MASK of a vector that went from 1 to 0 fires what waits (R648). -/
def State.unmask (s : State) (v : Nat) (was : Bool) : State :=
  if was && !s.flag (DYL_VEC_CTL.MASK v) && decide (SMap.get 0 s.vecWait v > 0) then s.fireVec v else s

/-- MODE follows RETIRE and PLAIN as ZEN writes them (R217, R221, R223, R229). -/
def State.followMode (s : State) (n : Nat) : State :=
  if s.f (VRG_ID.MODE n) = 3 then s
  else if s.flag (VRG_CTL.PLAIN n) then (if s.f (VRG_ID.MODE n) = 2 then s else s.enterPlain n)
  else if s.flag (VRG_CTL.RETIRE n) ∧ s.f (VRG_ID.MODE n) = 0 then s.setF (VRG_ID.MODE n) 1
  else s

/-- The state after a write that leaves a register with value v and starts the actions of act: b is the register's first
offset, i and k its indices (DEDUCED, log entry 62). -/
def regEffect (s : State) (b i k off : Nat) (v act : W64) : Out :=
  let t := s.setReg off v
  if b = ZEN_RESET.at then
    .next (if fld act 63 48 ≠ zenKey then s else if bitAt act 0 then s.powerUp 2 else if bitAt act 1 then s.restartZen false else s)
  else if b = ZEN_FWU_CTL.at then
    let t := if bitAt act 49 then t.fwuCommit else t
    if bitAt act 48 then fwuGo t else .next t
  else if b = ERQ_CONS.at then .next (s.erqConsume (v.truncate 32))
  else if b = ZEN_SVC_CTL.at then .next (if bitAt act 57 then t.svcGo else t)
  else if b = EQX_JOB_CTL.at 0 then
    let t := s.writeHold i (bitAt v 0)
    .next (if bitAt act 1 then t.requestEnd i else t)
  else if b = SRV_RQT_IDX.at then .next (s.copyReq (fld v 14 0))
  else if b = DSK_JOB_CTL.at 0 then .next (if fld act 51 48 = 0 then t else t.clampFloor i)
  else if b = PWR_SAMPLE.at then .next (if bitAt act 7 then t.askSample (fld v 4 0) else t)
  else if b = TMD_TRIP.at then .next (if bitAt act 0 then s.clearTrip else s)
  else if b = DYL_PORT_CTL.at 0 then
    let t := if t.flag (DYL_PORT_CTL.DISABLE i) then t.dylDown i else t
    .next (if bitAt act 3 then t.dylRetrain i else t)
  else if b = DYL_RING_CFG.at 0 then .next (t.dropRing i)
  else if b = DYL_MSG_CONS.at then .next (s.msgConsume v)
  else if b = DYL_VEC_CTL.at 0 then .next (t.unmask i (s.flag (DYL_VEC_CTL.MASK i)))
  else if b = XWF_PORT_CTL.at 0 then
    let d := bitAt v 0
    let t := (t.setFlag (XWF_PORT_CTL.DISABLE i) (s.flag (XWF_PORT_CTL.DISABLE i))).portDisable i d
    .next (if bitAt act 3 then t.xwfRetrain i else t)
  else if b = XWF_HALT_INFO.at 0 then .next (s.xwfResume i (bitAt act 62) (bitAt v 61))
  else if b = MSC_RETRAIN.at 0 then .next (if bitAt act 5 then s.requestRetrain i (fld act 4 0) else s)
  else if b = VRG_CTL.at 0 then .next (t.followMode i)
  else if b = VRG_HALT_INFO.at 0 0 then .next (s.vrgResume i k (bitAt act 62) (bitAt v 61))
  else if b = VRG_PERF_CTL.at 0 then .next (if bitAt act 2 then t.vrgZero i else t)
  else if b = ANV_PERF_CTL.at 0 then .next (if bitAt act 2 then t.anvZero i else t)
  else if b = ANV_DMA_CTL.at 0 0 then .next (s.dmaEnable i k (bitAt v 0) 0)
  else if b = ANV_DMA_HALT_INFO.at 0 0 then .next (s.dmaResume i k (bitAt act 62) (bitAt act 61) (bitAt v 60))
  else if b = PIL_DBG_CTL.at 0 then
    let t := if bitAt act 1 then s.dbgResume i else s
    let t := if bitAt act 2 then t.dbgStep i else t
    .next (if bitAt act 0 then t.haltReq i else t)
  else if b = VPC_DBG_CTL.at 0 then
    let t := if bitAt act 1 then s.dbgResume (200 + i) else s
    let t := if bitAt act 2 then t.dbgStep (200 + i) else t
    .next (if bitAt act 0 then t.haltReq (200 + i) else t)
  else if b = TDC_DOM_CTL.at 0 then .next (if bitAt act 1 then t.resync i else t)
  else .next t

/-! ## Debug windows of a tile (R329, R330) -/

/-- Tile and offset within its window. -/
def tileWin (off : Nat) : Option (Nat × Nat) :=
  if 0x4000000 ≤ off ∧ off < 0x7200000 then some ((off - 0x4000000) / 0x40000, (off - 0x4000000) % 0x40000) else none

/-- Core and offset within its debug window, for a tile or a VPC (R329, R336). -/
def coreWin (off : Nat) : Option (Nat × Nat) :=
  match tileWin off with
  | some p => some p
  | none =>
    if 0x3000000 ≤ off ∧ off < 0x4000000 ∧ 0x10000 ≤ off % 0x100000 ∧ off % 0x100000 < 0x40000 then
      some (200 + (off - 0x3000000) / 0x100000, off % 0x100000)
    else none

/-- A 64-bit value with the bits of m replaced. -/
def mergeBits (old m v : W64) : W64 := (old &&& ~~~m) ||| (v &&& m)

/-- A write to PIL_SREGn, PIL_CSRc or an image: only while debug is open and the core is DBG_HALTED; a VPC's images are
read-only (R228, R330). -/
def State.debugWrite (s : State) (t o off size : Nat) (v : W64) : State :=
  if !s.dbgOpen t || !(s.core t).dbgHalted || (isVpc t && decide (0x20000 ≤ o)) then s
  else
    let c := s.core t
    let m := laneMask off size
    let w := laneValue off size v
    let o8 := o / 8 * 8
    let image := fun (u : TUnit) (a : Nat) =>
      (s.setTile t ((s.tile t).setMem u (((s.tile t).mem u).write a (leBytes size v.toNat)))).anvCe t
        (((s.tile t).mem u).weakMerge a size)
    if 0x10100 ≤ o ∧ o < 0x10200 then
      let n := BitVec.ofNat 5 ((o8 - 0x10100) / 8)
      s.setCore t (c.w n (mergeBits (c.r n) m w))
    else if 0x10200 ≤ o ∧ o < 0x10280 then
      let n := (o8 - 0x10200) / 8
      s.setCore t (c.setCsr n (mergeBits (s.csr t c n) m w))
    else if 0x20000 ≤ o ∧ o < 0x30000 then image .imem (o - 0x20000)
    else if 0x30000 ≤ o then image .dmem (o - 0x30000)
    else s

/-! ## A control-space write -/

/-- The management controller consumes records only while no Dysiric port is in L0 (R418, R737). -/
def State.mcMay (s : State) (by_ : Agent) (b : Nat) : Bool := by_ != .mc || b != ERQ_CONS.at || !s.dylUp

/-- A naturally aligned write of 32 or 64 bits at an offset. -/
def ctlWrite (by_ : Agent) (off size : Nat) (val : W64) (s : State) : Out :=
  if ctlShape off size = false then .next s
  else
    let o := off / 8 * 8
    match regFind o with
    | some (d, ix) =>
      if s.accepts by_ o && s.mcMay by_ d.base then
        let i := ix.headD 0
        let k := (ix.drop 1).headD 0
        let m := laneMask off size
        let v := laneValue off size val
        let r := d.write (s.rwbBusy d.base i k) (s.reg o) m v
        regEffect (if r.rejected then s.reject d.base i else s) d.base i k o
          (if r.rejected ∧ d.base = XWF_CTL.at then setFld r.val 3 3 1
           else if r.rejected ∧ d.base = DYL_RING_STATUS.at 0 then setFld r.val 29 29 1 else r.val)
          -- FLOOR_MIN is clamped by a write that covers it (R12, R557)
          (if d.base = DSK_JOB_CTL.at 0 then m else r.act)
      else .next s
    | none =>
      match coreWin off with
      | some (t, x) => .next (if s.reaches by_ off ∧ s.tileReach off ∧ by_ ≠ .mc ∧ (by_ = .zen ∨ !isVpc t) then
          s.debugWrite t x off size val else s)
      | none => .next s

def State.answerComp (s : State) (r : CRsp) : State := { s with rsp := some r }

/-- REGISTER_WRITE (R8); the companion's bus error for a bad size or alignment is its answer (R12). -/
def execRegisterWrite (by_ : Agent) (off size : Nat) (val : W64) (s : State) : Out :=
  if by_ = .companion ∧ s.dylUp ∧ ctlShape off size = false then .next (s.answerComp .busError)
  else ctlWrite by_ off size val s

/-! ## Views that a read computes -/

def flagBit (w : W64) (i : Nat) (b : Bool) : W64 := setFld w i i b.toNat

/-- A queue's head waits on tokens (R176, R281). -/
def TileState.headWaits (x : TileState) (q : Nat) : Bool :=
  match (x.queue q).entries.head? with
  | some c => !(x.queue q).sent && decide ((x.queue q).waived = 0) && !waitsHold x c
  | none => false

def State.viewAnvStatus (s : State) (t : Nat) (w : W64) : W64 :=
  let x := s.tile t
  let c := x.core
  let on := s.loaded t
  let run := on && s.jobState (s.jobOf t) == jRUNNING && s.up && !c.ended && !c.stopped && !c.dbgHalted && c.stall == 0 && c.ifill.isNone
  let w := flagBit w 12 run
  let w := flagBit (flagBit w 11 (s.queueRuns t 0)) 10 (s.vxeRuns t)
  let w := flagBit w 9 (on && (List.range 27).any x.headWaits)
  (List.range 8).foldl (fun w n => flagBit w n (on && decide ((x.queue (2 + n)).channelBusy > 0))) w

/-- The job state that tile t's registers show: while the job is RESTORING it still stands in the save area (R185, R593). -/
def State.shown (s : State) (t : Nat) : TileState :=
  if s.jobState (s.jobOf t) = jRESTORING then SMap.get TileState.zero s.saved (savedKey (s.jobOf t) (s.ltile t)) else s.tile t

/-- ANV_QSTATq (R281). -/
def State.viewQstat (s : State) (t q : Nat) : W64 :=
  if !s.loaded t then 0#64
  else
    let x := s.shown t
    let y := x.queue q
    let j := s.jobOf t
    let l := s.ltile t
    let order := match y.next q with
      | some c => cf c 2 31 31 == 1 && !y.flight.isEmpty
      | none => false
    let brk := match y.next q with
      | some c => s.brkHeld j l q c
      | none => false
    let w := setFld (setFld 0#64 47 32 y.started.toNat) 31 16 y.pushed.toNat
    let w := flagBit (flagBit w 15 y.halted) 14 brk
    let w := flagBit (flagBit w 13 (x.headWaits q)) 12 order
    let w := flagBit w 11 (isRemoteQ q && decide (y.held.length ≥ 2))
    setFld w 5 0 ((y.entries.map List.length).sum / 8)

/-- Words of a command that a queue's engine holds, as the shadow images show them (R251, R280, R457). -/
def State.viewShadow (s : State) (t q k w : Nat) : W64 :=
  if !s.loaded t then 0#64
  else (((((s.shown t).queue q).inEngine.filter (fun f => takesPlace f.cmd))[k]?).bind (fun f => f.cmd[w]?)).getD 0#64

/-- PIL_DBG_STATUS (R332, R336). -/
def State.viewDbg (s : State) (t : Nat) : W64 :=
  if !isVpc t && !s.loaded t then 0#64
  else
    let c := s.core t
    let why := if c.ifill.isSome then 5 else c.stall
    let w := flagBit (flagBit 0#64 31 c.dbgHalted) 30 (s.dbgPermit t)
    let w := flagBit (flagBit w 29 c.inTrap) 28 (why != 0)
    setFld (setFld w 27 24 (if why < 8 then why else 0)) 15 0 (c.pc % 0x10000)

/-- SRV_JOBj_STATUS (R556). -/
def State.viewSrvStatus (s : State) (j : Nat) (w : W64) : W64 :=
  let x := s.srvJob j
  let w := flagBit w 63 (decide (s.committed j > s.f (SRV_JOB_QUOTA.PAGES j)))
  let w := flagBit w 62 (!x.unrep.isEmpty)
  let w := setFld w 41 32 x.rows.length
  setFld w 28 16 (s.queuedOf j).length

/-- Registers of a serving job in the SRV window, which read zero for another job (R556). -/
def isServingReg (off : Nat) : Bool :=
  (decide (0x201000 ≤ off) && decide (off < 0x202000)) || (decide (0x203000 ≤ off) && decide (off < 0x203400))

/-- A register as a read returns it. -/
def State.viewReg (s : State) (b i k off : Nat) : W64 :=
  let w := s.reg off
  if b = ANV_STATUS.at 0 then s.viewAnvStatus i w
  else if b = ANV_MXE_STATUS.at 0 then
    flagBit (flagBit w 1 (s.loaded i && decide (((s.tile i).queue 0).busy > 1))) 0 (s.queueRuns i 0)
  else if b = ANV_VXE_STATUS.at 0 then flagBit w 0 (s.vxeRuns i)
  else if b = ANV_SCB_TOKEN.at 0 0 then
    (if s.loaded i then BitVec.ofNat 64 (SMap.get 0#16 (s.shown i).tok k).toNat else 0#64)
  else if b = ANV_QSTAT.at 0 0 then s.viewQstat i k
  else if b = ANV_DMA_STATUS.at 0 0 then
    let held := if s.loaded i then ((s.tile i).queue (2 + k)).channelBusy else 0
    flagBit (setFld (flagBit w 7 (s.flag (ANV_DMA_HALT_INFO.VALID i k))) 5 4 held) 0 (held != 0)
  else if b = VRG_STATUS.at 0 then
    let n := s.virgaBusy i
    flagBit (flagBit (setFld w 11 8 n) 0 (n != 0)) 3 ((List.range 200).any (fun t => s.flag (VRG_HALT_INFO.VALID i t)))
  else if b = XWF_FQSTAT.at 0 then
    setFld w 12 0 (if s.loaded i then (s.fopsRemote (s.jobOf i) (s.ltile i)).length else 0)
  else if isServingReg off && !s.serving i then 0#64
  else if b = SRV_STATUS.at then setFld (setFld w 47 32 (s.rqt.filter (fun p => p.2.state != qFREE)).length) 31 16 s.queuedAll
  else if b = SRV_JOB_USE.at 0 then setFld (setFld 0#64 63 32 (s.committed i)) 31 0 (s.allocated i)
  else if b = SRV_JOB_STATUS.at 0 then s.viewSrvStatus i w
  else if b = LDR_STATUS.at then
    let j := s.loading.bind (fun x => x.job)
    setFld (flagBit (flagBit w 7 s.loading.isSome) 6 j.isSome) 5 0 (j.getD 0)
  else if b = PIL_DBG_STATUS.at 0 then s.viewDbg i
  else if b = VPC_DBG_STATUS.at 0 then s.viewDbg (200 + i)
  else if b = DYL_RING_CFG.at 0 then (if s.dylMode = 3 ∧ fld w 31 20 = 0 then setFld w 31 20 2 else w)
  else w

/-- Queue whose view registers stand in block k of the view image (R280). -/
def viewQueue (k : Nat) : Nat := if k < 10 then k else 26

/-- Scalar registers, control registers and memory images of core t (R329, R330, R336). -/
def State.viewCore (s : State) (t o : Nat) : W64 :=
  let c := s.core t
  if !s.dbgOpen t then 0#64
  else if 0x10100 ≤ o ∧ o < 0x10200 then c.r (BitVec.ofNat 5 ((o - 0x10100) / 8))
  else if 0x10200 ≤ o ∧ o < 0x10280 then s.csr t c ((o - 0x10200) / 8)
  else if 0x20000 ≤ o ∧ o < 0x30000 then BitVec.ofNat 64 (Bytes.rdNat (s.tile t).imem (o - 0x20000) 8)
  else if 0x30000 ≤ o then BitVec.ofNat 64 (Bytes.rdNat (s.tile t).dmem (o - 0x30000) 8)
  else 0#64

/-- A read of a tile window where no field table gives a register: shadow images, view registers, scalar registers, and
memory images (R280, R329, R457). -/
def State.viewTile (s : State) (t o : Nat) : W64 :=
  if isVpc t then s.viewCore t o
  else if 0x4400 ≤ o ∧ o < 0x4500 then s.viewShadow t 0 ((o - 0x4400) / 128) ((o - 0x4400) % 128 / 8)
  else if 0x4500 ≤ o ∧ o < 0x4540 then s.viewShadow t 1 0 ((o - 0x4500) / 8)
  else if 0x5000 ≤ o ∧ o < 0x7C00 then
    (if s.loaded t then SMap.get 0#64 ((s.shown t).queue (viewQueue ((o - 0x5000) / 1024))).views ((o - 0x5000) % 1024 / 8) else 0#64)
  else if 0x8000 ≤ o ∧ o < 0xC000 then
    let x := (o - 0x8000) % 0x800
    (if 0x100 ≤ x ∧ x < 0x180 then s.viewShadow t (2 + (o - 0x8000) / 0x800) ((x - 0x100) / 64) ((x - 0x100) % 64 / 8) else 0#64)
  else s.viewCore t o

/-- The register at an offset that is a multiple of 8 (R13, R23). -/
def ctlRead (off : Nat) (s : State) : W64 :=
  match regFind off with
  | some (d, ix) =>
    let i := ix.headD 0
    let k := (ix.drop 1).headD 0
    if s.tileReach off ∨ d.base = ANV_ID.at 0 ∨ d.base = ANV_STATUS.at 0 then s.viewReg d.base i k off else 0#64
  | none =>
    match coreWin off with
    | some (t, o) => if s.tileReach off then s.viewTile t o else 0#64
    | none => 0#64

/-- The bytes of a 32-bit or 64-bit read. -/
def laneBytes (off size : Nat) (w : W64) : List Byte := (leBytes 8 w.toNat).drop (off % 8) |>.take size

/-! ## The companion's window (R636) -/

/-- A control-space access is refused with a bus error, or waits (R12, R15, R686, R726). -/
def State.ctlRefuses (s : State) (off : Nat) : Bool :=
  !s.bootReach off || (match ctlDomain off with
    | some d => s.domRefuses d
    | none => false)
def State.ctlHolds (s : State) (off : Nat) : Bool :=
  match ctlDomain off with
  | some d => s.domWaits d
  | none => false

/-- The companion itself, as a requester of the direct path. -/
def compWho : Who := ⟨.companion, none, 255, some 6⟩

/-- How a row of the companion's ends: with what it read or did, an error, or not yet. -/
def compRow {α : Type} (x : EM α) (ok : State → α → State) (s : State) : Out :=
  match x.go s with
  | (.ok v, s') => .next (ok s' v)
  | (.error .wait, _) => .next s
  | (.error (.poison _), s') => .next (s'.answerComp .poison)
  | (.error (.fatal c r), s') => .next ((s'.fatalFault c r).answerComp .busError)
  | (.error _, s') => .next (s'.answerComp .busError)

/-- Granules that the snoop filter holds (R637). -/
def filterSize : Nat := 262144

/-- The companion is granted a granule, as the one used last: shared, or modified (DEDUCED, log entry 67). -/
def State.grant (s : State) (g hold : Nat) : State :=
  { s with filter := s.filter.filter (fun e => e.1 != g) ++ [(g, hold)] }

/-- COMPANION_READ (R636, R637): hold 0 is an uncached read; 1 and 2 take the granule into the companion's cache, which a
full filter allows only after it has back-invalidated its oldest entry. -/
def execCompanionRead (addr size hold : Nat) (s : State) : Out :=
  if !s.dylUp ∨ size = 0 then .next s
  else if s.region addr = .control then
    let off := addr - ctlBase
    if hold ≠ 0 ∨ !ctlShape off size ∨ s.ctlRefuses off then .next (s.answerComp .busError)
    else if s.ctlHolds off then .next s
    else
      .next (s.answerComp (.data (laneBytes off size (ctlRead (off / 8 * 8) s))))
  else if !s.ready ∨ (hold ≠ 0 ∧ (s.region addr ≠ .stack ∨ !s.coherent ∨ addr % 64 + size > 64)) then .next (s.answerComp .busError)
  else
    let g := addr / 64
    match s.filter.head? with
    | some e =>
      if hold ≠ 0 ∧ filterSize ≤ s.filter.length ∧ !s.filter.any (fun x => x.1 == g) then
        .next { s with snoops := s.snoops.filter (fun p => p.1 != e.1) ++ [(e.1, true)] }
      else compRow (readSpan compWho size addr size) (fun s bs =>
        (if hold = 0 then s else s.grant g (min hold 2)).answerComp (.data bs)) s
    | none => compRow (readSpan compWho size addr size) (fun s bs =>
        (if hold = 0 then s else s.grant g (min hold 2)).answerComp (.data bs)) s

/-- COMPANION_WRITE (R636). -/
def execCompanionWrite (addr : Nat) (bytes : List Byte) (s : State) : Out :=
  if !s.dylUp ∨ bytes = [] then .next s
  else if s.region addr = .control then
    let off := addr - ctlBase
    if !ctlShape off bytes.length ∨ s.ctlRefuses off then .next (s.answerComp .busError)
    else if s.ctlHolds off then .next s
    else ctlWrite .companion off bytes.length (BitVec.ofNat 64 (leNat bytes)) (s.answerComp .done)
  else if !s.ready then .next (s.answerComp .busError)
  else compRow (writeSpan compWho bytes.length addr bytes) (fun s _ => s.answerComp .done) s

/-! ## The sideband (R737, R759) -/

/-- Registers that the register-read function reaches; ERQ records only while no Dysiric port is in L0. -/
def State.mcReads (s : State) (off : Nat) : Bool :=
  match regFind off with
  | none => decide (off < 0x100000) || (decide (0x800000 ≤ off) && decide (off < 0x1000000))
  | some (d, _) =>
    (decide (off < 0x100000) && (d.base != ERQ_REC.at 0 0 || !s.dylUp)) ||
    (decide (0x800000 ≤ off) && decide (off < 0x1000000)) ||
    [DYL_PORT_STATUS.at 0, XWF_PORT_STATUS.at 0, ANV_ID.at 0, ANV_STATUS.at 0, MSC_STATUS.at 0, MSC_TEMP.at 0,
      MSC_SCRUB_LAP.at 0, VRG_ID.at 0].contains d.base

/-- SIDEBAND_REGISTER_READ. -/
def execSidebandRegisterRead (off : Nat) (s : State) : Out :=
  if s.sbUp then
    let runs : Bool := match ctlDomain off with
      | some d => s.domRuns d
      | none => true
    .next { s with mcRsp := if off % 8 = 0 ∧ s.mcReads off ∧ runs then some (ctlRead off s) else none }
  else .next s

end Sys2Proof.Machine
end

