-- ==== Sys2Proof/Machine/Dispatch.lean ====
section
/-! DEFINITION. One arm per command: the meaning of each (exec). A command whose condition does not hold changes nothing
(DESIGN CHOICE, log entry 2), and each command acts whole (DESIGN CHOICE, log entry 4). -/
namespace Sys2Proof.Machine

def exec (i : Instr) (s : State) : Host.Outcome State Fault Refusal :=
  match i with
  | .registerWrite by_ off size val => Sys2Proof.Machine.execRegisterWrite by_ off size val s
  | .commandStart j l q => Sys2Proof.Machine.execCommandStart j l q s
  | .commandCompletion j l q beats => Sys2Proof.Machine.execCommandCompletion j l q beats s
  | .queueSend j l q => Sys2Proof.Machine.execQueueSend j l q s
  | .destAccept j l q => Sys2Proof.Machine.execDestAccept j l q s
  | .view j l q => Sys2Proof.Machine.execView j l q s
  | .cfg j l q => Sys2Proof.Machine.execCfg j l q s
  | .nop j l q => Sys2Proof.Machine.execNop j l q s
  | .mmul j l => Sys2Proof.Machine.execMmul j l s
  | .att j l par => Sys2Proof.Machine.execAtt j l par s
  | .vop j l par => Sys2Proof.Machine.execVop j l par s
  | .copy j l ch => Sys2Proof.Machine.execCopy j l ch s
  | .planeSplit j l ch => Sys2Proof.Machine.execPlaneSplit j l ch s
  | .planeMerge j l ch => Sys2Proof.Machine.execPlaneMerge j l ch s
  | .gather j l ch => Sys2Proof.Machine.execGather j l ch s
  | .scatter j l ch => Sys2Proof.Machine.execScatter j l ch s
  | .scatterAcc j l ch => Sys2Proof.Machine.execScatterAcc j l ch s
  | .list j l ch => Sys2Proof.Machine.execList j l ch s
  | .vmv j l n ue => Sys2Proof.Machine.execVmv j l n ue s
  | .vatt j l n ue => Sys2Proof.Machine.execVatt j l n ue s
  | .vkva j l n ue => Sys2Proof.Machine.execVkva j l n ue s
  | .vew j l n ue => Sys2Proof.Machine.execVew j l n ue s
  | .vgsGather j l n ue => Sys2Proof.Machine.execVgsGather j l n ue s
  | .vgsScatter j l n ue => Sys2Proof.Machine.execVgsScatter j l n ue s
  | .vgsScatterAcc j l n ue => Sys2Proof.Machine.execVgsScatterAcc j l n ue s
  | .vamo j l n ue => Sys2Proof.Machine.execVamo j l n ue s
  | .slotClear j l n ue => Sys2Proof.Machine.execSlotClear j l n ue s
  | .slotFinalise j l n ue => Sys2Proof.Machine.execSlotFinalise j l n ue s
  | .slotSave j l n ue => Sys2Proof.Machine.execSlotSave j l n ue s
  | .slotLoad j l n ue => Sys2Proof.Machine.execSlotLoad j l n ue s
  | .slotCombine j l n ue => Sys2Proof.Machine.execSlotCombine j l n ue s
  | .fopRead j l => Sys2Proof.Machine.execFopRead j l s
  | .fopWrite j l => Sys2Proof.Machine.execFopWrite j l s
  | .fopAtomic j l => Sys2Proof.Machine.execFopAtomic j l s
  | .fopSignal j l => Sys2Proof.Machine.execFopSignal j l s
  | .fopCombine j l => Sys2Proof.Machine.execFopCombine j l s
  | .vrgHalt j l n => Sys2Proof.Machine.execVrgHalt j l n s
  | .dmaHalt j l ch => Sys2Proof.Machine.execDmaHalt j l ch s
  | .xwfHalt j l => Sys2Proof.Machine.execXwfHalt j l s
  | .vrgResume by_ n t skip => Sys2Proof.Machine.execVrgResume by_ n t skip s
  | .dmaResume by_ t ch skip => Sys2Proof.Machine.execDmaResume by_ t ch skip s
  | .dmaRetry by_ t ch skip => Sys2Proof.Machine.execDmaRetry by_ t ch skip s
  | .xwfResume by_ t skip => Sys2Proof.Machine.execXwfResume by_ t skip s
  | .dmaDisable by_ t ch written => Sys2Proof.Machine.execDmaDisable by_ t ch written s
  | .dmaDisabled t ch => Sys2Proof.Machine.execDmaDisabled t ch s
  | .add t rd rs1 rs2 => Sys2Proof.Machine.execAdd t rd rs1 rs2 s
  | .sub t rd rs1 rs2 => Sys2Proof.Machine.execSub t rd rs1 rs2 s
  | .and t rd rs1 rs2 => Sys2Proof.Machine.execAnd t rd rs1 rs2 s
  | .or t rd rs1 rs2 => Sys2Proof.Machine.execOr t rd rs1 rs2 s
  | .xor t rd rs1 rs2 => Sys2Proof.Machine.execXor t rd rs1 rs2 s
  | .andn t rd rs1 rs2 => Sys2Proof.Machine.execAndn t rd rs1 rs2 s
  | .sll t rd rs1 rs2 => Sys2Proof.Machine.execSll t rd rs1 rs2 s
  | .srl t rd rs1 rs2 => Sys2Proof.Machine.execSrl t rd rs1 rs2 s
  | .sra t rd rs1 rs2 => Sys2Proof.Machine.execSra t rd rs1 rs2 s
  | .ror t rd rs1 rs2 => Sys2Proof.Machine.execRor t rd rs1 rs2 s
  | .mul t rd rs1 rs2 => Sys2Proof.Machine.execMul t rd rs1 rs2 s
  | .mulh t rd rs1 rs2 => Sys2Proof.Machine.execMulh t rd rs1 rs2 s
  | .mulhu t rd rs1 rs2 => Sys2Proof.Machine.execMulhu t rd rs1 rs2 s
  | .div t rd rs1 rs2 => Sys2Proof.Machine.execDiv t rd rs1 rs2 s
  | .divu t rd rs1 rs2 => Sys2Proof.Machine.execDivu t rd rs1 rs2 s
  | .rem t rd rs1 rs2 => Sys2Proof.Machine.execRem t rd rs1 rs2 s
  | .remu t rd rs1 rs2 => Sys2Proof.Machine.execRemu t rd rs1 rs2 s
  | .min t rd rs1 rs2 => Sys2Proof.Machine.execMin t rd rs1 rs2 s
  | .max t rd rs1 rs2 => Sys2Proof.Machine.execMax t rd rs1 rs2 s
  | .minu t rd rs1 rs2 => Sys2Proof.Machine.execMinu t rd rs1 rs2 s
  | .maxu t rd rs1 rs2 => Sys2Proof.Machine.execMaxu t rd rs1 rs2 s
  | .clz t rd rs1 => Sys2Proof.Machine.execClz t rd rs1 s
  | .ctz t rd rs1 => Sys2Proof.Machine.execCtz t rd rs1 s
  | .popc t rd rs1 => Sys2Proof.Machine.execPopc t rd rs1 s
  | .shadd t rd rs1 rs2 sh => Sys2Proof.Machine.execShadd t rd rs1 rs2 sh s
  | .addi t rd rs1 imm => Sys2Proof.Machine.execAddi t rd rs1 imm s
  | .andi t rd rs1 imm => Sys2Proof.Machine.execAndi t rd rs1 imm s
  | .ori t rd rs1 imm => Sys2Proof.Machine.execOri t rd rs1 imm s
  | .xori t rd rs1 imm => Sys2Proof.Machine.execXori t rd rs1 imm s
  | .shi t rd rs1 op sh => Sys2Proof.Machine.execShi t rd rs1 op sh s
  | .cat16 t rd rs1 imm => Sys2Proof.Machine.execCat16 t rd rs1 imm s
  | .addh t rd rs1 imm => Sys2Proof.Machine.execAddh t rd rs1 imm s
  | .madd t rd rs1 rs2 rs3 => Sys2Proof.Machine.execMadd t rd rs1 rs2 rs3 s
  | .fext t rd rs1 pos wm1 => Sys2Proof.Machine.execFext t rd rs1 pos wm1 s
  | .fins t rd rs1 pos wm1 => Sys2Proof.Machine.execFins t rd rs1 pos wm1 s
  | .cmp t pd cond rs1 rs2 => Sys2Proof.Machine.execCmp t pd cond rs1 rs2 s
  | .cmpi t pd cond rs1 imm => Sys2Proof.Machine.execCmpi t pd cond rs1 imm s
  | .plog t pd ps1 ps2 n1 n2 f => Sys2Proof.Machine.execPlog t pd ps1 ps2 n1 n2 f s
  | .sel t rd rs1 rs2 p => Sys2Proof.Machine.execSel t rd rs1 rs2 p s
  | .ldb t rd rs1 imm => Sys2Proof.Machine.execLdb t rd rs1 imm s
  | .ldh t rd rs1 imm => Sys2Proof.Machine.execLdh t rd rs1 imm s
  | .ldw t rd rs1 imm => Sys2Proof.Machine.execLdw t rd rs1 imm s
  | .ldd t rd rs1 imm => Sys2Proof.Machine.execLdd t rd rs1 imm s
  | .ldbu t rd rs1 imm => Sys2Proof.Machine.execLdbu t rd rs1 imm s
  | .ldhu t rd rs1 imm => Sys2Proof.Machine.execLdhu t rd rs1 imm s
  | .ldwu t rd rs1 imm => Sys2Proof.Machine.execLdwu t rd rs1 imm s
  | .stb t rs rs1 imm => Sys2Proof.Machine.execStb t rs rs1 imm s
  | .sth t rs rs1 imm => Sys2Proof.Machine.execSth t rs rs1 imm s
  | .stw t rs rs1 imm => Sys2Proof.Machine.execStw t rs rs1 imm s
  | .std t rs rs1 imm => Sys2Proof.Machine.execStd t rs rs1 imm s
  | .ldg t rd rs1 size sx imm => Sys2Proof.Machine.execLdg t rd rs1 size sx imm s
  | .stg t rs rs1 size imm => Sys2Proof.Machine.execStg t rs rs1 size imm s
  | .ldgDataArrival t k => Sys2Proof.Machine.execLdgDataArrival t k s
  | .stgApplied t k => Sys2Proof.Machine.execStgApplied t k s
  | .busTrap t => Sys2Proof.Machine.execBusTrap t s
  | .br t ps neg off => Sys2Proof.Machine.execBr t ps neg off s
  | .bdec t rd off => Sys2Proof.Machine.execBdec t rd off s
  | .jal t rd off => Sys2Proof.Machine.execJal t rd off s
  | .jalr t rd rs1 imm => Sys2Proof.Machine.execJalr t rd rs1 imm s
  | .push t rs1 rs2 qr q => Sys2Proof.Machine.execPush t rs1 rs2 qr q s
  | .pushRoomFree t => Sys2Proof.Machine.execPushRoomFree t s
  | .tsig t rs tok inc => Sys2Proof.Machine.execTsig t rs tok inc s
  | .twait t rs tok => Sys2Proof.Machine.execTwait t rs tok s
  | .fenceLocal t => Sys2Proof.Machine.execFenceLocal t s
  | .fenceDrain t => Sys2Proof.Machine.execFenceDrain t s
  | .fenceRemote t => Sys2Proof.Machine.execFenceRemote t s
  | .fenceAll t => Sys2Proof.Machine.execFenceAll t s
  | .acquire t rs1 rs2 tok sig => Sys2Proof.Machine.execAcquire t rs1 rs2 tok sig s
  | .release t rs1 rs2 tok sig => Sys2Proof.Machine.execRelease t rs1 rs2 tok sig s
  | .clbComplete t => Sys2Proof.Machine.execClbComplete t s
  | .ifill t rs1 rs2 => Sys2Proof.Machine.execIfill t rs1 rs2 s
  | .ifillCopyDone t => Sys2Proof.Machine.execIfillCopyDone t s
  | .trap t imm => Sys2Proof.Machine.execTrap t imm s
  | .eret t => Sys2Proof.Machine.execEret t s
  | .csrr t rd num => Sys2Proof.Machine.execCsrr t rd num s
  | .csrw t rs1 num => Sys2Proof.Machine.execCsrw t rs1 num s
  | .endTile t => Sys2Proof.Machine.execEndTile t s
  | .brk t => Sys2Proof.Machine.execBrk t s
  | .haltReq by_ t => Sys2Proof.Machine.execHaltReq by_ t s
  | .dbgStep by_ t => Sys2Proof.Machine.execDbgStep by_ t s
  | .dbgResume by_ t => Sys2Proof.Machine.execDbgResume by_ t s
  | .anvPerfClear by_ t => Sys2Proof.Machine.execAnvPerfClear by_ t s
  | .vrgPerfClear by_ n => Sys2Proof.Machine.execVrgPerfClear by_ n s
  | .adderOperation addr aop fmtc x cmp => Sys2Proof.Machine.execAdderOperation addr aop fmtc x cmp s
  | .slotContribution n slot fmtc x => Sys2Proof.Machine.execSlotContribution n slot fmtc x s
  | .stackRead who j addr => Sys2Proof.Machine.execStackRead who j addr s
  | .stackWrite who addr bytes => Sys2Proof.Machine.execStackWrite who addr bytes s
  | .mergeIdleTimeout n c page => Sys2Proof.Machine.execMergeIdleTimeout n c page s
  | .mergeWriteback n c page => Sys2Proof.Machine.execMergeWriteback n c page s
  | .refresh n c bank => Sys2Proof.Machine.execRefresh n c bank s
  | .farAccess addr bytes write => Sys2Proof.Machine.execFarAccess addr bytes write s
  | .cacheAccess j addr bytes write => Sys2Proof.Machine.execCacheAccess j addr bytes write s
  | .flitReceive block inst badCrcs => Sys2Proof.Machine.execFlitReceive block inst badCrcs s
  | .linkCrcLimit n c k => Sys2Proof.Machine.execLinkCrcLimit n c k s
  | .mscRetrainGo by_ n c => Sys2Proof.Machine.execMscRetrainGo by_ n c s
  | .retrainAttemptEnd n ok => Sys2Proof.Machine.execRetrainAttemptEnd n ok s
  | .copyPage n => Sys2Proof.Machine.execCopyPage n s
  | .writeHoldBegin n tmin tmax => Sys2Proof.Machine.execWriteHoldBegin n tmin tmax s
  | .writeHoldEnd n tmin tmax => Sys2Proof.Machine.execWriteHoldEnd n tmin tmax s
  | .scrubPage n c lapMs => Sys2Proof.Machine.execScrubPage n c lapMs s
  | .scrubTargetExpiry n => Sys2Proof.Machine.execScrubTargetExpiry n s
  | .erqConsume by_ v => Sys2Proof.Machine.execErqConsume by_ v s
  | .resetDone => Sys2Proof.Machine.execResetDone s
  | .sliceEnd j beats => Sys2Proof.Machine.execSliceEnd j beats s
  | .idlePreempt j beats => Sys2Proof.Machine.execIdlePreempt j beats s
  | .tileRoundEnd debits => Sys2Proof.Machine.execTileRoundEnd debits s
  | .stackRoundEnd n debits => Sys2Proof.Machine.execStackRoundEnd n debits s
  | .saveDone j beats => Sys2Proof.Machine.execSaveDone j beats s
  | .restoreStart j => Sys2Proof.Machine.execRestoreStart j s
  | .restoreDone j beats => Sys2Proof.Machine.execRestoreDone j beats s
  | .jobHold by_ j => Sys2Proof.Machine.execJobHold by_ j s
  | .jobEndRequest by_ j hold => Sys2Proof.Machine.execJobEndRequest by_ j hold s
  | .jobEnd j => Sys2Proof.Machine.execJobEnd j s
  | .jobEnded j => Sys2Proof.Machine.execJobEnded j s
  | .load finding pads raceFree => Sys2Proof.Machine.execLoad finding pads raceFree s
  | .loadResult => Sys2Proof.Machine.execLoadResult s
  | .ringPoll r line => Sys2Proof.Machine.execRingPoll r line s
  | .ringSnoop r line => Sys2Proof.Machine.execRingSnoop r line s
  | .ringObserve r payload => Sys2Proof.Machine.execRingObserve r payload s
  | .request => Sys2Proof.Machine.execRequest s
  | .cancel => Sys2Proof.Machine.execCancel s
  | .resultRingRoom j => Sys2Proof.Machine.execResultRingRoom j s
  | .stepBoundary j => Sys2Proof.Machine.execStepBoundary j s
  | .stepLaunch j => Sys2Proof.Machine.execStepLaunch j s
  | .handoff j => Sys2Proof.Machine.execHandoff j s
  | .stepReport j => Sys2Proof.Machine.execStepReport j s
  | .sample j => Sys2Proof.Machine.execSample j s
  | .draft j => Sys2Proof.Machine.execDraft j s
  | .verify j => Sys2Proof.Machine.execVerify j s
  | .ringRoom j => Sys2Proof.Machine.execRingRoom j s
  | .deadlineTick => Sys2Proof.Machine.execDeadlineTick s
  | .rqtIdxWrite by_ idx => Sys2Proof.Machine.execRqtIdxWrite by_ idx s
  | .companionRead addr size hold => Sys2Proof.Machine.execCompanionRead addr size hold s
  | .companionWrite addr bytes => Sys2Proof.Machine.execCompanionWrite addr bytes s
  | .snoop addr => Sys2Proof.Machine.execSnoop addr s
  | .deviceSnoop addr write => Sys2Proof.Machine.execDeviceSnoop addr write s
  | .snoopResponse addr data => Sys2Proof.Machine.execSnoopResponse addr data s
  | .snoopTimeout p addr => Sys2Proof.Machine.execSnoopTimeout p addr s
  | .dylTraining p => Sys2Proof.Machine.execDylTraining p s
  | .dylL0 p mode rate width same => Sys2Proof.Machine.execDylL0 p mode rate width same s
  | .dylTrainingTimeout p => Sys2Proof.Machine.execDylTrainingTimeout p s
  | .dylPerst p high => Sys2Proof.Machine.execDylPerst p high s
  | .dylRetrain by_ p => Sys2Proof.Machine.execDylRetrain by_ p s
  | .dylRecovery p lanes => Sys2Proof.Machine.execDylRecovery p lanes s
  | .dylRecoveryEnd p ok rate => Sys2Proof.Machine.execDylRecoveryEnd p ok rate s
  | .linkLoss => Sys2Proof.Machine.execLinkLoss s
  | .messageWrite => Sys2Proof.Machine.execMessageWrite s
  | .msgConsume by_ v => Sys2Proof.Machine.execMsgConsume by_ v s
  | .vectorHoldExpiry v => Sys2Proof.Machine.execVectorHoldExpiry v s
  | .frameRequest p badPacket f => Sys2Proof.Machine.execFrameRequest p badPacket f s
  | .frameResponse p f => Sys2Proof.Machine.execFrameResponse p f s
  | .frameAck p f roundTrip => Sys2Proof.Machine.execFrameAck p f roundTrip s
  | .frameRefuse p f => Sys2Proof.Machine.execFrameRefuse p f s
  | .transitFrame p f => Sys2Proof.Machine.execTransitFrame p f s
  | .resendTimeout dst seq => Sys2Proof.Machine.execResendTimeout dst seq s
  | .xwfTraining p mode partner ok => Sys2Proof.Machine.execXwfTraining p mode partner ok s
  | .nativeAnswerTimeout p => Sys2Proof.Machine.execNativeAnswerTimeout p s
  | .xwfRetrain by_ p => Sys2Proof.Machine.execXwfRetrain by_ p s
  | .wavelengthFail p w => Sys2Proof.Machine.execWavelengthFail p w s
  | .cxpLinkLoss p => Sys2Proof.Machine.execCxpLinkLoss p s
  | .cxpRetrainDone p mode rate width devices => Sys2Proof.Machine.execCxpRetrainDone p mode rate width devices s
  | .domainStopped d osc => Sys2Proof.Machine.execDomainStopped d osc s
  | .domainRunning d => Sys2Proof.Machine.execDomainRunning d s
  | .freqOutOfRange d osc => Sys2Proof.Machine.execFreqOutOfRange d osc s
  | .countSample d events job => Sys2Proof.Machine.execCountSample d events job s
  | .forceResync by_ d => Sys2Proof.Machine.execForceResync by_ d s
  | .rsyncAck d => Sys2Proof.Machine.execRsyncAck d s
  | .housekeepingRound r => Sys2Proof.Machine.execHousekeepingRound r s
  | .tripClear by_ => Sys2Proof.Machine.execTripClear by_ s
  | .peakResponse p10 => Sys2Proof.Machine.execPeakResponse p10 s
  | .pwrSampleGo by_ dom => Sys2Proof.Machine.execPwrSampleGo by_ dom s
  | .sampleDone power => Sys2Proof.Machine.execSampleDone power s
  | .domainSwitchOn d => Sys2Proof.Machine.execDomainSwitchOn d s
  | .domainRampDone d => Sys2Proof.Machine.execDomainRampDone d s
  | .domainSwitchOff d => Sys2Proof.Machine.execDomainSwitchOff d s
  | .phaseShed rail => Sys2Proof.Machine.execPhaseShed rail s
  | .flashHoldBegin => Sys2Proof.Machine.execFlashHoldBegin s
  | .flashHoldEnd => Sys2Proof.Machine.execFlashHoldEnd s
  | .powerUpReset longReset => Sys2Proof.Machine.execPowerUpReset longReset s
  | .bootDone fwOk devices links => Sys2Proof.Machine.execBootDone fwOk devices links s
  | .pgoodLow byBoard => Sys2Proof.Machine.execPgoodLow byBoard s
  | .hotSwapTrip => Sys2Proof.Machine.execHotSwapTrip s
  | .deviceReset by_ key => Sys2Proof.Machine.execDeviceReset by_ key s
  | .zenRestart by_ key => Sys2Proof.Machine.execZenRestart by_ key s
  | .zenWatchdog => Sys2Proof.Machine.execZenWatchdog s
  | .zenRestartDone => Sys2Proof.Machine.execZenRestartDone s
  | .fwuGo by_ => Sys2Proof.Machine.execFwuGo by_ s
  | .fwuWriteDone ok => Sys2Proof.Machine.execFwuWriteDone ok s
  | .fwuCommit by_ => Sys2Proof.Machine.execFwuCommit by_ s
  | .retireTile t => Sys2Proof.Machine.execRetireTile t s
  | .migrateChannel g => Sys2Proof.Machine.execMigrateChannel g s
  | .migratePage addr => Sys2Proof.Machine.execMigratePage addr s
  | .retireEngine n => Sys2Proof.Machine.execRetireEngine n s
  | .retireComplete n => Sys2Proof.Machine.execRetireComplete n s
  | .flashCheck => Sys2Proof.Machine.execFlashCheck s
  | .flashCheckTimer => Sys2Proof.Machine.execFlashCheckTimer s
  | .getVersion tr => Sys2Proof.Machine.execGetVersion tr s
  | .getCapabilities tr => Sys2Proof.Machine.execGetCapabilities tr s
  | .negotiateAlgorithms tr mldsa shake => Sys2Proof.Machine.execNegotiateAlgorithms tr mldsa shake s
  | .getDigests tr => Sys2Proof.Machine.execGetDigests tr s
  | .getCertificate tr slot off len => Sys2Proof.Machine.execGetCertificate tr slot off len s
  | .challenge tr slot nonce => Sys2Proof.Machine.execChallenge tr slot nonce s
  | .getMeasurements tr index signed nonce => Sys2Proof.Machine.execGetMeasurements tr index signed nonce s
  | .unsupportedRequest tr code => Sys2Proof.Machine.execUnsupportedRequest tr code s
  | .sidebandRegisterRead off => Sys2Proof.Machine.execSidebandRegisterRead off s
  | .fwChunk off bytes => Sys2Proof.Machine.execFwChunk off bytes s
  | .fwEnd => Sys2Proof.Machine.execFwEnd s
  | .illegalInstruction t => Sys2Proof.Machine.execIllegalInstruction t s
  | .dramTemperatureMove n c => Sys2Proof.Machine.execDramTemperatureMove n c s
  | .neighbourSolicitation p upper lower => Sys2Proof.Machine.execNeighbourSolicitation p upper lower s
  | .jtagTapAccess trst bits => Sys2Proof.Machine.execJtagTapAccess trst bits s
  | .sbPgoodRelease mV vdd => Sys2Proof.Machine.execSbPgoodRelease mV vdd s
  | .hotSwapRetry => Sys2Proof.Machine.execHotSwapRetry s

end Sys2Proof.Machine
end

