-- ==== Sys2Proof/WellFormed.lean ====
section
/-! DEFINITION. What a sender may put into a command: numbers within the device's parts (R14, R25, R280, R679, R697) and
fields within their widths. -/
namespace Sys2Proof

/-- A frame's fields lie within the header's widths (R660). -/
def Frame.wf (f : Frame) : Bool :=
  decide (f.typ < 16) && decide (f.op < 8) && decide (f.hops < 16) && decide (f.dst < 32768) && decide (f.src < 32768) &&
  decide (f.rjob < 64) && decide (f.raddr < 2 ^ 48) && decide (f.rstack < 16) && decide (f.rslot < 65536) &&
  decide (f.rtile < 256) && decide (f.rtok < 256) && decide (f.rinc < 256) && decide (f.fmtc < 32) && decide (f.aop < 4) &&
  decide (f.len < 4096) && decide (f.payload.length ≤ 2048)

/-- A command of a queue of R280 with the words of a command block, named by a directory entry's number and an offset. -/
def PadUse.wf (u : PadUse) : Bool :=
  decide (u.sect < 1024) && decide (u.off < 2 ^ 48) && decide (u.queue < 27) && decide (u.tile < 192) &&
  (u.cmd.length == 8 || u.cmd.length == 16) && u.views.all (fun p => decide (p.1 < 128)) &&
  u.live.all (fun r => decide (r.1 ≤ r.2) && decide (r.2 < 2 ^ 48))

/-- A rail's stack exists. -/
def Rail.wf : Rail → Bool
  | .bus => true
  | .vc => true
  | .vrg n => decide (n < 16)

/-- A round reads sixteen stacks and thirty domains at most (R697, R702). -/
def Readings.wf (r : Readings) : Bool :=
  decide (r.tmax.length ≤ 16) && decide (r.tmin.length ≤ 16) && decide (r.power.length ≤ 30)

/-- The command is one that a sender can form. -/
def Instr.wf : Instr → Bool
  | .registerWrite _ off size _ => decide (off < 2 ^ 28) && decide (size ≤ 4096)
  | .commandStart j l q => decide (j < 64) && decide (l < 192) && decide (q < 27)
  | .commandCompletion j l q _ => decide (j < 64) && decide (l < 192) && decide (q < 27)
  | .queueSend j l q => decide (j < 64) && decide (l < 192) && decide (q < 27)
  | .destAccept j l q => decide (j < 64) && decide (l < 192) && decide (q < 27)
  | .view j l q => decide (j < 64) && decide (l < 192) && decide (q < 27)
  | .cfg j l q => decide (j < 64) && decide (l < 192) && decide (q < 27)
  | .nop j l q => decide (j < 64) && decide (l < 192) && decide (q < 27)
  | .mmul j l => decide (j < 64) && decide (l < 192)
  | .att j l _ => decide (j < 64) && decide (l < 192)
  | .vop j l _ => decide (j < 64) && decide (l < 192)
  | .copy j l ch => decide (j < 64) && decide (l < 192) && decide (ch < 8)
  | .planeSplit j l ch => decide (j < 64) && decide (l < 192) && decide (ch < 8)
  | .planeMerge j l ch => decide (j < 64) && decide (l < 192) && decide (ch < 8)
  | .gather j l ch => decide (j < 64) && decide (l < 192) && decide (ch < 8)
  | .scatter j l ch => decide (j < 64) && decide (l < 192) && decide (ch < 8)
  | .scatterAcc j l ch => decide (j < 64) && decide (l < 192) && decide (ch < 8)
  | .list j l ch => decide (j < 64) && decide (l < 192) && decide (ch < 8)
  | .vmv j l n _ => decide (j < 64) && decide (l < 192) && decide (n < 16)
  | .vatt j l n _ => decide (j < 64) && decide (l < 192) && decide (n < 16)
  | .vkva j l n _ => decide (j < 64) && decide (l < 192) && decide (n < 16)
  | .vew j l n _ => decide (j < 64) && decide (l < 192) && decide (n < 16)
  | .vgsGather j l n _ => decide (j < 64) && decide (l < 192) && decide (n < 16)
  | .vgsScatter j l n _ => decide (j < 64) && decide (l < 192) && decide (n < 16)
  | .vgsScatterAcc j l n _ => decide (j < 64) && decide (l < 192) && decide (n < 16)
  | .vamo j l n _ => decide (j < 64) && decide (l < 192) && decide (n < 16)
  | .slotClear j l n _ => decide (j < 64) && decide (l < 192) && decide (n < 16)
  | .slotFinalise j l n _ => decide (j < 64) && decide (l < 192) && decide (n < 16)
  | .slotSave j l n _ => decide (j < 64) && decide (l < 192) && decide (n < 16)
  | .slotLoad j l n _ => decide (j < 64) && decide (l < 192) && decide (n < 16)
  | .slotCombine j l n _ => decide (j < 64) && decide (l < 192) && decide (n < 16)
  | .fopRead j l => decide (j < 64) && decide (l < 192)
  | .fopWrite j l => decide (j < 64) && decide (l < 192)
  | .fopAtomic j l => decide (j < 64) && decide (l < 192)
  | .fopSignal j l => decide (j < 64) && decide (l < 192)
  | .fopCombine j l => decide (j < 64) && decide (l < 192)
  | .vrgHalt j l n => decide (j < 64) && decide (l < 192) && decide (n < 16)
  | .dmaHalt j l ch => decide (j < 64) && decide (l < 192) && decide (ch < 8)
  | .xwfHalt j l => decide (j < 64) && decide (l < 192)
  | .vrgResume _ n t _ => decide (n < 16) && decide (t < 200)
  | .dmaResume _ t ch _ => decide (t < 200) && decide (ch < 8)
  | .dmaRetry _ t ch _ => decide (t < 200) && decide (ch < 8)
  | .xwfResume _ t _ => decide (t < 200)
  | .dmaDisable _ t ch _ => decide (t < 200) && decide (ch < 8)
  | .dmaDisabled t ch => decide (t < 200) && decide (ch < 8)
  | .add t _ _ _ => decide (t < 216)
  | .sub t _ _ _ => decide (t < 216)
  | .and t _ _ _ => decide (t < 216)
  | .or t _ _ _ => decide (t < 216)
  | .xor t _ _ _ => decide (t < 216)
  | .andn t _ _ _ => decide (t < 216)
  | .sll t _ _ _ => decide (t < 216)
  | .srl t _ _ _ => decide (t < 216)
  | .sra t _ _ _ => decide (t < 216)
  | .ror t _ _ _ => decide (t < 216)
  | .mul t _ _ _ => decide (t < 216)
  | .mulh t _ _ _ => decide (t < 216)
  | .mulhu t _ _ _ => decide (t < 216)
  | .div t _ _ _ => decide (t < 216)
  | .divu t _ _ _ => decide (t < 216)
  | .rem t _ _ _ => decide (t < 216)
  | .remu t _ _ _ => decide (t < 216)
  | .min t _ _ _ => decide (t < 216)
  | .max t _ _ _ => decide (t < 216)
  | .minu t _ _ _ => decide (t < 216)
  | .maxu t _ _ _ => decide (t < 216)
  | .clz t _ _ => decide (t < 216)
  | .ctz t _ _ => decide (t < 216)
  | .popc t _ _ => decide (t < 216)
  | .shadd t _ _ _ _ => decide (t < 216)
  | .addi t _ _ _ => decide (t < 216)
  | .andi t _ _ _ => decide (t < 216)
  | .ori t _ _ _ => decide (t < 216)
  | .xori t _ _ _ => decide (t < 216)
  | .shi t _ _ _ _ => decide (t < 216)
  | .cat16 t _ _ _ => decide (t < 216)
  | .addh t _ _ _ => decide (t < 216)
  | .madd t _ _ _ _ => decide (t < 216)
  | .fext t _ _ _ _ => decide (t < 216)
  | .fins t _ _ _ _ => decide (t < 216)
  | .cmp t _ _ _ _ => decide (t < 216)
  | .cmpi t _ _ _ _ => decide (t < 216)
  | .plog t _ _ _ _ _ _ => decide (t < 216)
  | .sel t _ _ _ _ => decide (t < 216)
  | .ldb t _ _ _ => decide (t < 216)
  | .ldh t _ _ _ => decide (t < 216)
  | .ldw t _ _ _ => decide (t < 216)
  | .ldd t _ _ _ => decide (t < 216)
  | .ldbu t _ _ _ => decide (t < 216)
  | .ldhu t _ _ _ => decide (t < 216)
  | .ldwu t _ _ _ => decide (t < 216)
  | .stb t _ _ _ => decide (t < 216)
  | .sth t _ _ _ => decide (t < 216)
  | .stw t _ _ _ => decide (t < 216)
  | .std t _ _ _ => decide (t < 216)
  | .ldg t _ _ _ _ _ => decide (t < 216)
  | .stg t _ _ _ _ => decide (t < 216)
  | .ldgDataArrival t k => decide (t < 200) && decide (k < 8)
  | .stgApplied t k => decide (t < 200) && decide (k < 8)
  | .busTrap t => decide (t < 200)
  | .br t _ _ _ => decide (t < 216)
  | .bdec t _ _ => decide (t < 216)
  | .jal t _ _ => decide (t < 216)
  | .jalr t _ _ _ => decide (t < 216)
  | .push t _ _ _ _ => decide (t < 216)
  | .pushRoomFree t => decide (t < 200)
  | .tsig t _ _ _ => decide (t < 216)
  | .twait t _ _ => decide (t < 216)
  | .fenceLocal t => decide (t < 216)
  | .fenceDrain t => decide (t < 216)
  | .fenceRemote t => decide (t < 216)
  | .fenceAll t => decide (t < 216)
  | .acquire t _ _ _ _ => decide (t < 216)
  | .release t _ _ _ _ => decide (t < 216)
  | .clbComplete t => decide (t < 200)
  | .ifill t _ _ => decide (t < 216)
  | .ifillCopyDone t => decide (t < 200)
  | .trap t _ => decide (t < 216)
  | .eret t => decide (t < 216)
  | .csrr t _ _ => decide (t < 216)
  | .csrw t _ _ => decide (t < 216)
  | .endTile t => decide (t < 216)
  | .brk t => decide (t < 216)
  | .haltReq _ t => decide (t < 216)
  | .dbgStep _ t => decide (t < 216)
  | .dbgResume _ t => decide (t < 216)
  | .anvPerfClear _ t => decide (t < 200)
  | .vrgPerfClear _ n => decide (n < 16)
  | .adderOperation addr _ _ _ _ => decide (addr < 2 ^ 48)
  | .slotContribution n slot _ _ => decide (n < 16) && decide (slot < 65536)
  | .stackRead _ j addr => decide (j < 64) && decide (addr < 2 ^ 48)
  | .stackWrite _ addr bytes => decide (addr < 2 ^ 48) && decide (bytes.length ≤ 4096)
  | .mergeIdleTimeout n c page => decide (n < 16) && decide (c < 32) && decide (page < 2 ^ 28)
  | .mergeWriteback n c page => decide (n < 16) && decide (c < 32) && decide (page < 2 ^ 28)
  | .refresh n c bank => decide (n < 16) && decide (c < 32) && decide (bank < 64)
  | .farAccess addr bytes _ => decide (addr < 2 ^ 48) && decide (bytes.length ≤ 64)
  | .cacheAccess j addr bytes _ => decide (j < 64) && decide (addr < 2 ^ 48) && decide (bytes.length ≤ 64)
  | .flitReceive b i _ => decide (2 ≤ b) && decide (b ≤ 12) && decide (i < 200)
  | .linkCrcLimit n c k => decide (n < 16) && decide (c < 32) && decide (0 < k)
  | .mscRetrainGo _ n _ => decide (n < 16)
  | .retrainAttemptEnd n _ => decide (n < 16)
  | .copyPage n => decide (n < 16)
  | .writeHoldBegin n _ _ => decide (n < 16)
  | .writeHoldEnd n _ _ => decide (n < 16)
  | .scrubPage n c _ => decide (n < 16) && decide (c < 32)
  | .scrubTargetExpiry n => decide (n < 16)
  | .erqConsume _ _ => true
  | .resetDone => true
  | .sliceEnd j _ => decide (j < 64)
  | .idlePreempt j _ => decide (j < 64)
  | .tileRoundEnd debits => debits.all (fun d => decide (d.1 < 64))
  | .stackRoundEnd n debits => decide (n < 16) && debits.all (fun d => decide (d.1 < 64))
  | .saveDone j _ => decide (j < 64)
  | .restoreStart j => decide (j < 64)
  | .restoreDone j _ => decide (j < 64)
  | .jobHold _ j => decide (j < 64)
  | .jobEndRequest _ j _ => decide (j < 64)
  | .jobEnd j => decide (j < 64)
  | .jobEnded j => decide (j < 64)
  | .load _ pads _ => pads.all PadUse.wf
  | .loadResult => true
  | .ringPoll r line => decide (r < 8) && decide (line.length = 8)
  | .ringSnoop r line => decide (r < 8) && decide (line.length = 8)
  | .ringObserve r payload => decide (r < 8) && decide (payload.length = 8)
  | .request => true
  | .cancel => true
  | .resultRingRoom j => decide (j < 64)
  | .stepBoundary j => decide (j < 64)
  | .stepLaunch j => decide (j < 64)
  | .handoff j => decide (j < 64)
  | .stepReport j => decide (j < 64)
  | .sample j => decide (j < 64)
  | .draft j => decide (j < 64)
  | .verify j => decide (j < 64)
  | .ringRoom j => decide (j < 64)
  | .deadlineTick => true
  | .rqtIdxWrite _ _ => true
  | .companionRead addr size hold => decide (addr < 2 ^ 48) && decide (size ≤ 4096) && decide (hold < 3)
  | .companionWrite addr bytes => decide (addr < 2 ^ 48) && decide (bytes.length ≤ 4096)
  | .snoop addr => decide (addr < 2 ^ 48)
  | .deviceSnoop addr _ => decide (addr < 2 ^ 48)
  | .snoopResponse addr data => decide (addr < 2 ^ 48) && decide (data.length ≤ 64)
  | .snoopTimeout p addr => decide (p < 2) && decide (addr < 2 ^ 48)
  | .dylTraining p => decide (p < 2)
  | .dylL0 p mode rate width _ => decide (p < 2) && decide (mode < 4) && decide (rate < 256) && decide (width < 4)
  | .dylTrainingTimeout p => decide (p < 2)
  | .dylPerst p _ => decide (p < 2)
  | .dylRetrain _ p => decide (p < 2)
  | .dylRecovery p lanes => decide (p < 2) && lanes.all (fun i => decide (i < 17))
  | .dylRecoveryEnd p _ rate => decide (p < 2) && decide (rate < 256)
  | .linkLoss => true
  | .messageWrite => true
  | .msgConsume _ _ => true
  | .vectorHoldExpiry v => decide (v < 16)
  | .frameRequest p _ f => decide (p < 16) && f.wf
  | .frameResponse p f => decide (p < 16) && f.wf
  | .frameAck p f _ => decide (p < 16) && f.wf
  | .frameRefuse p f => decide (p < 16) && f.wf
  | .transitFrame p f => decide (p < 16) && f.wf
  | .resendTimeout dst _ => decide (dst < 32767)
  | .xwfTraining p mode partner _ => decide (p < 16) && decide (mode < 4) && decide (partner < 32767)
  | .nativeAnswerTimeout p => decide (p < 16)
  | .xwfRetrain _ p => decide (p < 16)
  | .wavelengthFail p w => decide (p < 16) && decide (w < 9)
  | .cxpLinkLoss p => decide (p < 4)
  | .cxpRetrainDone p mode rate width devices => decide (p < 4) && decide (mode < 4) && decide (rate < 256) && decide (width < 4) && decide (devices < 5)
  | .domainStopped d _ => decide (d < 60)
  | .domainRunning d => decide (d < 60)
  | .freqOutOfRange d _ => decide (d < 60)
  | .countSample d _ _ => decide (d < 60)
  | .forceResync _ d => decide (d < 60)
  | .rsyncAck d => decide (d < 60)
  | .housekeepingRound r => r.wf
  | .tripClear _ => true
  | .peakResponse _ => true
  | .pwrSampleGo _ _ => true
  | .sampleDone _ => true
  | .domainSwitchOn d => decide (d < 30)
  | .domainRampDone d => decide (d < 30)
  | .domainSwitchOff d => decide (d < 30)
  | .phaseShed rail => rail.wf
  | .flashHoldBegin => true
  | .flashHoldEnd => true
  | .powerUpReset _ => true
  | .bootDone _ devices links => decide (devices.length = 4) && devices.all (fun l => decide (l.length ≤ 4)) &&
    decide (links.length = 4) && links.all (fun l => [64, 32, 16].contains l.1 && decide (1 ≤ l.2) && decide (l.2 ≤ 3))
  | .pgoodLow _ => true
  | .hotSwapTrip => true
  | .deviceReset _ _ => true
  | .zenRestart _ _ => true
  | .zenWatchdog => true
  | .zenRestartDone => true
  | .fwuGo _ => true
  | .fwuWriteDone _ => true
  | .fwuCommit _ => true
  | .retireTile t => decide (t < 200)
  | .migrateChannel g => decide (g < 512)
  | .migratePage addr => decide (addr < 2 ^ 48)
  | .retireEngine n => decide (n < 16)
  | .retireComplete n => decide (n < 16)
  | .flashCheck => true
  | .flashCheckTimer => true
  | .getVersion tr => decide (tr < 2)
  | .getCapabilities tr => decide (tr < 2)
  | .negotiateAlgorithms tr _ _ => decide (tr < 2)
  | .getDigests tr => decide (tr < 2)
  | .getCertificate tr slot _ _ => decide (tr < 2) && decide (slot < 8)
  | .challenge tr slot nonce => decide (tr < 2) && decide (slot < 8) && decide (nonce.length = 32)
  | .getMeasurements tr index _ nonce => decide (tr < 2) && decide (index < 256) && decide (nonce.length = 32)
  | .unsupportedRequest tr code => decide (tr < 2) && decide (code < 256)
  | .sidebandRegisterRead off => decide (off < 2 ^ 28)
  | .fwChunk _ bytes => decide (bytes.length = 4096)
  | .fwEnd => true
  | .illegalInstruction t => decide (t < 200)
  | .dramTemperatureMove n c => decide (n < 16) && decide (c < 32)
  | .neighbourSolicitation p _ _ => decide (p < 16)
  | .jtagTapAccess _ _ => true
  | .sbPgoodRelease _ _ => true
  | .hotSwapRetry => true

end Sys2Proof
end

