-- ==== Sys2Proof/Safety.lean ====
section
/-! DEFINITION. What counts as a safe run, in the terms the statements use: every waiting command is well formed and the
memories keep their canonical form; beside it, the names for "this instruction issues now", for what a core that has
issued leaves behind, and for a command whose work has ended. -/
namespace Sys2Proof.Machine

/-! ## Safe states -/

/-- The byte memories and the sparse stores are in canonical form: keys rise, and no entry equals what an unlisted key
reads as. No register,
entry of the request table or serving job is listed twice. -/
def Memory.wf (s : State) : Bool :=
  Bytes.wf s.far && Bytes.wf s.scratch && Bytes.wf s.comp && Bytes.wf s.flash &&
  decide ((s.regs.map (·.1)).Nodup) && decide ((s.rqt.map (·.1)).Nodup) && decide ((s.srv.map (·.1)).Nodup) && SMap.sorted s.pages && s.pages.all (fun p => !p.2.bare) && Runs.wf none s.blank && SMap.wf Page.zero s.reserve && SMap.wf Slot.zero s.slots

/-- Every waiting command is one that a sender can form. -/
def State.formed (s : State) : Bool := s.pending.all Instr.wf

/-- A safe state. -/
def State.safe (s : State) : Bool := s.formed && Memory.wf s

/-- What no row of a Pileus core touches: everything but the tiles and the control registers. -/
def State.outside (s : State) : State := { s with tiles := [], regs := [] }

/-- What an error record and a performance counter leave alone: everything but the registers, the number of the next
record, the messages that wait, and the records that units hold (R417, R419, R645, R718). -/
def State.noted (s : State) : State := { s with regs := [], erqSeq := 0#32, msgs := [], heldRecs := [] }

/-! ## Pileus -/

/-- The instruction of word w issues now on core t, a tile's or 200 + n for the VPC of stack n: the core may issue and has
the instruction, w stands at PC and can be read, no access was refused, and no register of it is owed by an LDG (R286, R288,
R303, R335). -/
def State.issues (s : State) (t w : Nat) (regs : List (BitVec 5)) : Bool :=
  let c := s.core t
  decide (t < 216) && !(isVpc t && jobOnly w) && s.issuing t && decide (c.pc < 0x10000) && s.word t == w &&
    (((s.tile t).mem .imem).badIn c.pc 4).isNone && !c.out.any (·.refused) && !regs.any c.owed

/-- The state after the fetch: a single-bit error of the word is corrected (R157). -/
def State.fetched (s : State) (t : Nat) : State :=
  let m := (s.tile t).mem .imem
  let pc := (s.core t).pc
  if m.weakIn pc 4 = 0 then s else (s.setTile t ((s.tile t).setMem .imem (m.heal pc 4))).coreCe t (m.weakIn pc 4)

/-- An instruction has issued, and its core is left as c: the stall ends, a single step halts the core again (R331), and
event 12 of a tile or 13 of a stack counts. -/
def State.issued (s : State) (t : Nat) (c : Core) : State := (s.setCore t c.retire).countRetired t

/-- An instruction at PC has written v to rd, and PC has moved to the next one. -/
def State.wrote (s : State) (t : Nat) (rd : BitVec 5) (v : W64) : State :=
  (s.fetched t).issued t { (s.core t).w rd v with pc := (s.core t).pc + 4 }

/-- A trap that is not fatal may enter the handler of tile t's core now: every earlier LDG, STG and CLB has completed, the
handler is enabled and does not run (R325); a VPC has none (R335). -/
def State.handles (s : State) (t : Nat) : Bool :=
  let c := s.core t
  decide (t < 200) && c.out.isEmpty && c.clbs.isEmpty && !c.inTrap && c.tvec.getLsbD 0

/-- The core in its handler after a precise trap: EPC, ECAUSE and EVAL as given, IN_TRAP 1, and PC at 4 x VEC; a single
step has ended (R325, R331). -/
def Core.trapped (c : Core) (code : Nat) (eval : W64) (epc : Nat) : Core :=
  { c with epc := BitVec.ofNat 64 epc, ecause := BitVec.ofNat 64 code, eval := eval, inTrap := true, imprecise := false,
           multiBus := false, past := false, pc := 4 * fld c.tvec 15 2, stall := 0, out := [],
           dbgHalted := c.dbgHalted || c.dbgStep, dbgStep := false }

/-- An instruction that waits shows why and changes nothing else (R286, R332). -/
def State.stalled (s : State) (t why : Nat) : State :=
  (s.fetched t).setCore t { s.core t with stall := why }

/-- DMEM after a read of n bytes at a: single-bit errors among them are corrected (R157). -/
def State.dmemRead (s : State) (t a n : Nat) : State :=
  let x := s.tile t
  let m := x.mem .dmem
  if m.weakIn a n = 0 then s else (s.setTile t (x.setMem .dmem (m.heal a n))).coreCe t (m.weakIn a n)

/-- No byte of DMEM from a to a + n - 1 has an uncorrectable error. -/
def State.dmemGood (s : State) (t a n : Nat) : Bool := (((s.tile t).mem .dmem).badIn a n).isNone

/-! ## Engine commands -/

/-- What the end of the work of started command i of queue q, flight f, makes of the state: a code completes the
command, and a halt, a refused access or a poisoned page is the fault that its queue's halt row latches (R218, R219,
R243, R450). A fatal fault and a wait are none of these. -/
def State.worked (j l q i : Nat) (f : Flight) : Except Stop Nat × State → Option State
  | (.ok code, s) => some (s.setFlight j l q i { f with st := .done, code := code })
  | (.error (.halt h), s) => some (s.setFlight j l q i { f with fault := some h })
  | (.error (.bus a), s) => some (s.setFlight j l q i { f with fault := some ⟨3, 0, 0, a, 255⟩ })
  | (.error (.poison a), s) => some (s.setFlight j l q i { f with fault := some ⟨1, 0, 0, a, 255⟩ })
  | _ => none

/-! ## Accesses that nothing disturbs -/

/-- No performance counter counts (R181, R237). -/
def State.perfOff (s : State) : Bool :=
  (List.range 200).all (fun t => !s.flag (ANV_PERF_CTL.ENABLE t)) &&
    (List.range 16).all (fun n => !s.flag (VRG_PERF_CTL.ENABLE n))

/-- The first segment of job j that meets the bytes lo to hi - 1 covers them all and permits reads and writes; none but it
meets them or is replicated (R118, R344). -/
def State.openSeg (s : State) (j lo hi : Nat) : Bool :=
  (List.range 16).any (fun i =>
    let g := s.seg j i
    g.v && g.pr && g.pw && g.stkMask == 0 && decide (g.base * 4096 ≤ lo) && decide (hi ≤ g.limit * 4096 + 4096) &&
      (List.range i).all (fun k =>
        let h := s.seg j k
        !h.v || (h.stkMask == 0 && (decide (h.limit * 4096 + 4096 ≤ lo) || decide (hi ≤ h.base * 4096)))))

/-- The bytes lo to hi - 1 lie in one scratchpad window, which w reaches and which holds no wrong bit (R14, R157, R304). -/
def State.windowCalm (s : State) (w : Who) (lo hi : Nat) : Bool :=
  let k := (lo - spmBase) / spmWin
  decide (spmBase ≤ lo) && decide (k < 200) && decide (hi ≤ spmBase + (k + 1) * spmWin) &&
    (match s.spmSpot w k with
     | some p => (s.spotTile p).spmBad.isEmpty && (s.spotTile p).spmWeak.isEmpty
     | none => false)

/-- Page gp of stack memory is served, and it is zero or right as it stands (R370, R371, R395); for writes it has an entry
in the merge buffer (R399). -/
def State.pageCalm (s : State) (write : Bool) (gp : Nat) : Bool :=
  !s.paused gp && !s.failed gp && (!write || (s.mergeEntry gp).isSome) &&
    (match judge (s.stampOf gp) (s.page gp) with
     | .zero => true
     | .ok _ k => k == 0
     | _ => false)

/-- The bytes lo to hi - 1 lie in such pages, that clocks let w reach, and the companion holds no granule (R637, R687). -/
def State.stackCalm (s : State) (w : Who) (write : Bool) (lo hi : Nat) : Bool :=
  decide (hi ≤ 16 * s.stackBytes) && s.filter.isEmpty && decide (w.kind ≠ .ldg) && decide (w.kind ≠ .tdma) &&
    (List.range ((hi + 4095) / 4096 - lo / 4096)).all (fun i =>
      s.pageCalm write (lo / 4096 + i) && (s.stackDoms w (4096 * (lo / 4096 + i))).all s.domRuns)

/-- Every access of w inside the granules from lo to hi - 1, a write where write holds, is served at once and leaves no
trace but in what is written: they lie in scratchpad or uncached stack memory where nothing is wrong, held or counted. -/
def State.calm (s : State) (w : Who) (write : Bool) (lo hi : Nat) : Bool :=
  lo % 64 == 0 && hi % 64 == 0 && s.perfOff && decide (16 * s.stackBytes ≤ farBase) && decide (w.lt < 272) &&
    (match w.job with
     | some j => s.openSeg j lo hi
     | none => true) &&
    (s.windowCalm w lo hi || s.stackCalm w write lo hi)

/-- The byte of a scratchpad or stack address that w reads. -/
def State.byteAt (s : State) (w : Who) (a : Nat) : Byte :=
  if s.region a = .spm then
    match s.spmSpot w ((a - spmBase) / spmWin) with
    | some p => Bytes.rd (s.spotTile p).spm ((a - spmBase) % spmWin)
    | none => 0#8
  else s.peekStack a

/-- The n bytes from a upward, and their value. -/
def State.bytesAt (s : State) (w : Who) (a n : Nat) : List Byte := (List.range n).map (fun i => s.byteAt w (a + i))
def State.natAt (s : State) (w : Who) (a n : Nat) : Nat := leNat (s.bytesAt w a n)

/-! ## Operands within a range -/

/-- Every bit of an element, and its scale, lies in the bytes lo to hi - 1. -/
def Loc.within (l : Loc) (lo hi : Nat) : Bool :=
  l.parts.all (fun p => decide (1 ≤ p.2) && decide (8 * lo ≤ p.1) && decide (p.1 + p.2 ≤ 8 * hi)) &&
    l.scale.all (fun a => decide (lo ≤ a) && decide (a < hi))

/-- The elements of a list of indices lie there, with np planes. -/
def View.within (v : View) (np lo hi : Nat) (ixs : List (List Nat)) : Bool :=
  ixs.all (fun ix => (v.loc np ix).within lo hi)

/-- The indices of a view's elements in iteration order. -/
def View.cells (v : View) : List (List Nat) := (List.range v.count).map v.unravel

/-- What a write of the elements of a list of indices touches lies there: the elements, or every position of their blocks
of 32 (R779). -/
def View.writable (v : View) (np lo hi : Nat) (ixs : List (List Nat)) : Bool :=
  if v.fmt.isBlock then
    let all := ixs.flatMap (fun ix => (List.range 32).map (blockIx (blockStart v ix)))
    v.within np lo hi all && v.within v.fmt.bits lo hi all
  else v.within 0 lo hi ixs

/-! ## Commands whose every access is served

Each holds of a started command f of the engine e whose operands lie in calm ranges: lo to hi - 1 may be written, and ro to
rhi - 1 is only read. -/

/-- The value of the bits o to o + n - 1, of an element's pieces, and of an element's code. -/
def State.bitsAt (s : State) (w : Who) (o n : Nat) : Nat :=
  s.natAt w (o / 8) ((o + n - 1) / 8 - o / 8 + 1) / 2 ^ (o % 8) % 2 ^ n
def State.partsAt (s : State) (w : Who) : List (Nat × Nat) → Nat
  | [] => 0
  | (o, n) :: t => s.bitsAt w o n + 2 ^ n * s.partsAt w t
def State.codeAt (s : State) (w : Who) (v : View) (np : Nat) (ix : List Nat) : Nat := s.partsAt w (v.loc np ix).parts

/-- Indices [p, r] with p below k and r below m. -/
def pairs (k m : Nat) : List (List Nat) := (List.range m).flatMap (fun r => (List.range k).map (fun p => [p, r]))

/-- Indices of what a command pads at a view under PAD_FILL, in write blocks of n elements (R131, R135). -/
def padIx (v : View) (pad n : Nat) : List (List Nat) := if pad = 1 then padPositions v n else []

/-- MMUL: its panels lie in the range, and the accumulators that INIT reads hold no error (R142 - R147, R258). -/
def State.mmulReady (s : State) (j l : Nat) (e : Eng) (f : Flight) (lo hi : Nat) : Prop :=
  let c := f.cmd
  let k := cf c 4 63 44 + 1
  let m := cf c 4 43 37 + 1
  let n := cf c 4 36 29 + 1
  let fb := (Fmt.ofCode (cf c 4 23 19)).getD .none
  let va := panelView l 3 (cf c 4 28 24) (cf c 3 63 51) k
  let vb := panelView l 4 (cf c 4 23 19) (cf c 3 50 38) k
  let vl := panelView l 3 (if fb.isInt then 11 else 1) (cf c 3 24 12) 256
  let vo := panelView l 3 (cf c 4 18 14) (cf c 3 37 25) 256
  s.calm e.who true lo hi = true ∧ va.within va.fmt.bits lo hi (pairs k m) = true ∧
    vb.within (cf c 4 13 10) lo hi (pairs k n) = true ∧
    (cf c 4 8 7 = 2 → (s.ctx j l).accBad = []) ∧ (cf c 4 8 7 = 1 → vl.within 0 lo hi (pairs n m) = true) ∧
    (cf c 4 6 6 = 0 → vo.writable 0 lo hi (pairs n m ++ if cf c 4 3 3 = 1 then mmulPads m n else []) = true)

/-- VOP or VEW of an element-by-element operation or ADAMW, with padding in write blocks of blk (R262 - R264). -/
def State.vecReady (s : State) (blk : View → Nat) (e : Eng) (f : Flight) (lo hi : Nat) : Prop :=
  let c := f.cmd
  let op := cf c 3 63 56
  let o := (vecOp op).getD ⟨false, false, false, false⟩
  let vx := vOf c f.views 3 55 52
  let vy := vOf c f.views 3 51 48
  let vz := vOf c f.views 3 47 44
  let vo := vOf c f.views 3 43 40
  let reads (v : View) : Prop := v.within v.fmt.bits lo hi v.cells = true
  let writes (v : View) : Prop :=
    v.writable v.fmt.bits lo hi ((List.range vx.count).map v.unravel ++ padIx v (cf c 3 37 37) (blk v)) = true
  s.calm e.who true lo hi = true ∧ isRowOp op = false ∧ reads vx ∧ (o.useY = true → reads vy) ∧ (o.useZ = true → reads vz) ∧
    writes vo ∧ (op = 0x30 → reads vo ∧ writes vy ∧ writes vz)

/-- Indices of the query vectors of n rows from row r of gq heads, and of the key vectors of n positions from row r. -/
def queryIx (dh gq r n : Nat) : List (List Nat) :=
  (List.range n).flatMap (fun t => (List.range gq).flatMap (fun h => vecIx dh h (r + t)))
def keyIx (dh r n : Nat) : List (List Nat) := (List.range n).flatMap (fun d => vecIx dh 0 (r + d))

/-- ATT of one sequence without a length table (R260, R497 - R504). -/
def State.attReady (s : State) (e : Eng) (f : Flight) (lo hi : Nat) : Prop :=
  let c := f.cmd
  let qv := vOf c f.views 3 63 60
  let ov := vOf c f.views 3 59 56
  let kv := vOf c f.views 3 55 52
  let vv := vOf c f.views 3 51 48
  let dh := cf c 5 43 36 + 1
  let gq := cf c 5 51 44 + 1
  let nq := qv.dim 2
  let pos := cf c 6 41 21
  let k0 := firstKey (cf c 3 40 39) (cf c 6 20 0) pos
  s.calm e.who true lo hi = true ∧ (vOf c f.views 3 47 44).named = false ∧ 1 ≤ nq ∧ nq ≤ 2 ^ 20 ∧ pos + nq ≤ 2 ^ 20 ∧
    nq ≤ ov.dim 2 ∧ pos + nq ≤ kv.dim 2 ∧ pos + nq ≤ vv.dim 2 ∧
    qv.within qv.fmt.bits lo hi (queryIx dh gq 0 nq) = true ∧
    kv.within kv.fmt.bits lo hi (keyIx dh k0 (pos + nq - k0)) = true ∧
    vv.within vv.fmt.bits lo hi (keyIx dh k0 (pos + nq - k0)) = true ∧
    ov.writable ov.fmt.bits lo hi (queryIx dh gq 0 nq) = true

/-- A DCOPY that moves element i to element i of one destination, with np planes read and wnp written (R433 - R439). -/
def State.moveReady (s : State) (e : Eng) (f : Flight) (np wnp lo hi : Nat) : Prop :=
  let sv := vOf f.cmd f.views 3 63 60
  let dv := vOf f.cmd f.views 3 59 56
  s.calm e.who true lo hi = true ∧ cf f.cmd 4 63 0 = 0 ∧
    sv.within np lo hi (dv.cells.filterMap (copyFrom sv)) = true ∧ dv.writable wnp lo hi dv.cells = true

/-- A gather that clamps or skips an index beyond the rows (R126 - R128). -/
def State.gatherReady (s : State) (e : Eng) (k : IdxCmd) (lo hi ro rhi : Nat) : Prop :=
  s.calm e.who true lo hi = true ∧ s.calm e.who false ro rhi = true ∧ (k.mode = 2 ∨ k.mode = 3) ∧ 1 ≤ k.d ∧
    k.iv.within 0 lo hi k.iv.cells = true ∧
    (∀ p < k.iv.count, ∀ ix ∈ rowIndices k.dv k.dim p, ∀ i < k.d,
      (k.sv.loc k.sv.fmt.bits (listSet ix k.dim i)).within ro rhi = true) ∧
    k.dv.writable k.dv.fmt.bits lo hi
      ((List.range k.iv.count).flatMap (rowIndices k.dv k.dim) ++ k.pads.map (·.ix)) = true

/-- The same of a scatter (R129). -/
def State.scatterReady (s : State) (e : Eng) (k : IdxCmd) (lo hi ro rhi : Nat) : Prop :=
  s.calm e.who true lo hi = true ∧ s.calm e.who false ro rhi = true ∧ (k.mode = 2 ∨ k.mode = 3) ∧ 1 ≤ k.d ∧
    k.iv.within 0 ro rhi k.iv.cells = true ∧
    k.sv.within k.sv.fmt.bits ro rhi ((List.range k.iv.count).flatMap (rowIndices k.sv k.dim)) = true ∧
    k.dv.writable k.dv.fmt.bits lo hi (((List.range k.iv.count).flatMap (fun p => (rowIndices k.sv k.dim p).flatMap (fun ix =>
      (List.range k.d).map (listSet ix k.dim)))) ++ k.pads.map (·.ix)) = true

/-- The same of a scatter to exact slots of a stack that is not plain (R130, R211, R444). -/
def State.accReady (s : State) (e : Eng) (k : IdxCmd) (ro rhi : Nat) : Prop :=
  s.calm e.who false ro rhi = true ∧ (k.mode = 2 ∨ k.mode = 3) ∧ 1 ≤ k.d ∧ k.exact = true ∧ k.stack < 16 ∧
    s.plain k.stack = false ∧ k.iv.within 0 ro rhi k.iv.cells = true ∧
    k.sv.within k.sv.fmt.bits ro rhi ((List.range k.iv.count).flatMap (rowIndices k.sv k.dim)) = true ∧
    (∀ p < k.iv.count, ∀ ix ∈ rowIndices k.sv k.dim p, ∀ i < k.d,
      k.slot + k.dv.ravel (listSet ix k.dim i) < s.f (VRG_JOB_SLOTS.COUNT k.stack (e.who.job.getD 0)))

/-- A LIST of one entry: its words, its source and its destination lie in the range (R445, R446). -/
def State.listReady (s : State) (e : Eng) (f : Flight) (lo hi : Nat) : Prop :=
  let iv := vOf f.cmd f.views 3 55 52
  let w0 := s.codeAt e.who iv 0 (iv.unravel 0)
  let w1 := s.codeAt e.who iv 0 (iv.unravel 1)
  let n := w1 / 2 ^ 48 + 1
  let dst := w1 % 2 ^ 48
  s.calm e.who true lo hi = true ∧ iv.count / 2 = 1 ∧ iv.within 0 lo hi [iv.unravel 0, iv.unravel 1] = true ∧
    w0 < 2 ^ 48 ∧ lo ≤ w0 ∧ w0 + n ≤ hi ∧ lo ≤ dst ∧ dst + n ≤ hi

/-- VMV to memory without a residual: its weights in the stack, and the rest, lie where the engine reaches them
(R195 - R198). -/
def State.vmvReady (s : State) (n : Nat) (e : Eng) (f : Flight) (lo hi ro rhi : Nat) : Prop :=
  let c := f.cmd
  let w := vOf c f.views 3 63 60
  let a := vOf c f.views 3 59 56
  let o := vOf c f.views 3 55 52
  s.calm e.who true lo hi = true ∧ s.calm e.who false ro rhi = true ∧ cf c 3 39 39 = 0 ∧ cf c 3 38 37 = 0 ∧
    s.misplaced n true w = none ∧ s.misplaced n false a = none ∧ s.misplaced n false o = none ∧
    w.within (cf c 3 36 33) ro rhi (pairs (w.dim 0) (w.dim 1)) = true ∧
    a.within a.fmt.bits lo hi ((List.range (cf c 3 47 42 + 1)).flatMap (fun q =>
      (List.range (w.dim 0)).map (fun k => [k, q, 0, 0]))) = true ∧
    o.writable o.fmt.bits lo hi (o.cells ++ padIx o (cf c 3 29 29) (granuleElems o)) = true

/-- VEW: its views lie where the engine reaches them. -/
def State.vewPlaced (s : State) (n : Nat) (f : Flight) : Prop :=
  let c := f.cmd
  let o := (vecOp (cf c 3 63 56)).getD ⟨false, false, false, false⟩
  s.misplaced n false (vOf c f.views 3 55 52) = none ∧ (o.useY = true → s.misplaced n false (vOf c f.views 3 51 48) = none) ∧
    (o.useZ = true → s.misplaced n false (vOf c f.views 3 47 44) = none) ∧ s.misplaced n false (vOf c f.views 3 43 40) = none

/-- The header that a KV command finds at pl (R491). -/
def State.kvHeader (s : State) (w : Who) (pl : Nat) : KvHeader :=
  let g := fun i => BitVec.ofNat 64 (s.natAt w (pl + 8 * i) 8)
  KvHeader.ofWords (g 0) (g 1) (g 2) (g 3)

/-- Entry 0 of a length table (R496). -/
def State.seqAt (s : State) (w : Who) (lv : View) : SeqEnt :=
  SeqEnt.ofWords (BitVec.ofNat 64 (s.codeAt w lv 0 [0, 0, 0, 0])) (BitVec.ofNat 64 (s.codeAt w lv 0 [1, 0, 0, 0]))

/-- The header array of a KV command of stack n, entry i of the list of its one sequence q, and the page that entry names,
in the range ro to rhi - 1 of the stack (R491 - R494, R497). -/
def State.kvReady (s : State) (n : Nat) (w : Who) (pl i : Nat) (lv qv ov : View) (k : KvCmd) (ro rhi : Nat) : Prop :=
  let h := s.kvHeader w pl
  let q := s.seqAt w lv
  let at_ := h.listAt pl q.list i
  let p := s.natAt w at_ 4
  s.stackCalm w false ro rhi = true ∧ n * s.stackBytes ≤ ro ∧ rhi ≤ (n + 1) * s.stackBytes ∧
    ro ≤ pl ∧ pl + 32 ≤ rhi ∧ ro ≤ at_ ∧ at_ + 4 ≤ rhi ∧ q.skip = false ∧ k.entryOk h qv ov q [] 0 = true ∧
    p / 2 ^ 28 = n ∧ p ≠ 0xFFFFFFFF ∧ p % 2 ^ 28 < h.poolPages

/-- What a VATT does with keys and values (R499 - R508). -/
def vattCmd (n : Nat) (f : Flight) : KvCmd :=
  let c := f.cmd
  ⟨n, cf c 4 47 0, cf c 5 63 56, cf c 5 55 52, cf c 3 43 42, attSk c, attSv c, cf c 5 43 36 + 1,
    vOf c f.views 3 55 52, vOf c f.views 3 51 48, cf c 3 41 41 == 1, true, cf c 3 40 39, cf c 6 20 0⟩

/-- VATT without append, of one sequence whose positions lie in one page (R499 - R508). -/
def State.vattReady (s : State) (n : Nat) (e : Eng) (f : Flight) (lo hi ro rhi : Nat) : Prop :=
  let c := f.cmd
  let qv := vOf c f.views 3 63 60
  let ov := vOf c f.views 3 59 56
  let lv := vOf c f.views 3 47 44
  let k := vattCmd n f
  let h := s.kvHeader e.who k.pl
  let q := s.seqAt e.who lv
  let base := h.pageBase s.stackBytes n (s.natAt e.who (h.listAt k.pl q.list 0) 4 % 2 ^ 28)
  let gq := cf c 5 51 44 + 1
  s.calm e.who true lo hi = true ∧ s.calm e.who false ro rhi = true ∧ cf c 3 41 41 = 0 ∧ cf c 3 38 33 = 0 ∧
    s.misplaced n false lv = none ∧ s.misplaced n false qv = none ∧ s.misplaced n false ov = none ∧
    lv.within 0 lo hi [[0, 0, 0, 0], [1, 0, 0, 0]] = true ∧ s.kvReady n e.who k.pl 0 lv qv ov k ro rhi ∧
    q.pos + q.nq ≤ 16 ∧ (k.mask = 2 → 1 ≤ k.window) ∧
    (∀ x < 2, ∀ p < q.pos + q.nq, ro ≤ h.vecAt base k.layer k.kvh x p ∧ h.vecAt base k.layer k.kvh x p + h.vec ≤ rhi ∧
      ro ≤ h.scaleAt base k.layer k.kvh x p ∧ h.scaleAt base k.layer k.kvh x p + h.scales ≤ rhi) ∧
    qv.within qv.fmt.bits lo hi (queryIx k.dh gq q.row0 q.nq) = true ∧
    ov.writable ov.fmt.bits lo hi (queryIx k.dh gq q.row0 q.nq) = true

/-- What a VKVA does with keys and values (R505). -/
def vkvaCmd (n : Nat) (f : Flight) : KvCmd :=
  let c := f.cmd
  ⟨n, cf c 4 47 0, cf c 3 43 36, cf c 3 35 32, cf c 3 51 50, s8 (cf c 3 31 24), s8 (cf c 3 23 16), 0,
    vOf c f.views 3 63 60, vOf c f.views 3 59 56, true, false, 0, 0⟩

/-- VKVA of one position of one sequence in a static format (R505). -/
def State.vkvaReady (s : State) (n : Nat) (e : Eng) (f : Flight) (lo hi ro rhi : Nat) : Prop :=
  let c := f.cmd
  let lv := vOf c f.views 3 55 52
  let k := vkvaCmd n f
  let h := s.kvHeader e.who k.pl
  let q := s.seqAt e.who lv
  let base := h.pageBase s.stackBytes n (s.natAt e.who (h.listAt k.pl q.list (q.pos / 16)) 4 % 2 ^ 28)
  s.calm e.who true lo hi = true ∧ s.calm e.who true ro rhi = true ∧ cf c 3 49 44 = 0 ∧ k.kvf ≤ 1 ∧
    s.misplaced n false lv = none ∧ s.misplaced n false k.kv = none ∧ s.misplaced n false k.vv = none ∧
    lv.within 0 lo hi [[0, 0, 0, 0], [1, 0, 0, 0]] = true ∧
    s.kvReady n e.who k.pl (q.pos / 16) lv k.kv k.vv { k with dh := h.dh } ro rhi ∧ q.nq = 1 ∧ 1 ≤ h.dh ∧
    (∀ x < 2, ro ≤ h.vecAt base k.layer k.kvh x q.pos ∧ h.vecAt base k.layer k.kvh x q.pos + h.vec ≤ rhi) ∧
    k.kv.within k.kv.fmt.bits lo hi (vecIx h.dh 0 q.row0) = true ∧ k.vv.within k.vv.fmt.bits lo hi (vecIx h.dh 0 q.row0) = true

/-- VAMO to exact slots (R213, R268). -/
def State.vamoReady (s : State) (n : Nat) (e : Eng) (f : Flight) (ro rhi : Nat) : Prop :=
  let c := f.cmd
  let sv := vOf c f.views 3 55 52
  s.calm e.who false ro rhi = true ∧ cf c 3 60 60 = 1 ∧ cf c 3 61 61 = 0 ∧ cf c 3 63 62 ≠ aCAS ∧
    s.misplaced n false sv = none ∧ sv.within sv.fmt.bits ro rhi sv.cells = true ∧ s.plain (cf c 4 63 60) = false ∧
    cf c 4 59 44 + sv.count ≤ s.f (VRG_JOB_SLOTS.COUNT (cf c 4 63 60) (e.who.job.getD 0))

/-- VSLOT on slots of the job's range (R211, R269), with its view for the operations that use one. -/
def State.slotReady (s : State) (n : Nat) (e : Eng) (f : Flight) : Prop :=
  cf f.cmd 3 55 40 + cf f.cmd 3 39 23 ≤ s.f (VRG_JOB_SLOTS.COUNT n (e.who.job.getD 0))
def State.slotView (s : State) (n : Nat) (e : Eng) (f : Flight) (ixs : List (List Nat)) (lo hi : Nat) : Prop :=
  let m := vOf f.cmd f.views 3 59 56
  s.calm e.who true lo hi = true ∧ s.misplaced n false m = none ∧ m.within 0 lo hi ixs = true
def resultIx (f : Flight) : List (List Nat) := (List.range (cf f.cmd 3 39 23)).map (vOf f.cmd f.views 3 59 56).unravel
def imagesIx (f : Flight) : List (List Nat) :=
  (List.range (cf f.cmd 3 39 23)).flatMap (imageIx (vOf f.cmd f.views 3 59 56))

/-- Lines of job j's cache that hold a byte of a range and neither a write nor a wrong bit (R352, R356). -/
def State.cleanLines (s : State) (j : Nat) (lines : List Nat) : Prop :=
  ∀ k ∈ lines, (s.line j k).dirty = 0#4 ∧ (s.line j k).bad = 0#4

/-- The lines gone from the cache. -/
def State.dropLines (s : State) (j : Nat) (lines : List Nat) : State := lines.foldl (fun r k => r.setLine j k CLine.zero) s

/-! ## Serving commands whose every access is served -/

/-- The result ring of job j lies in a served range and has room for a record, and no other record of the job waits
(R519, R520). -/
def State.resReady (s : State) (j : Nat) (rest : List (Nat × List W64)) (lo hi : Nat) : Prop :=
  s.calm (srvWho none) true lo hi = true ∧ lo ≤ s.resBase j ∧ s.resBase j + 64 + 32 * s.resSize j ≤ hi ∧
    ((s.srvJob j).prod + 2 ^ 32 - s.natAt (srvWho none) (s.resBase j + 8) 8 % 2 ^ 32) % 2 ^ 32 < s.resSize j - 1 ∧
    rest.all (fun p => srvInJob p != j) = true

/-- The result of a sampled row of request i: logit row k gives a token, or none (R565, R567). -/
def State.tokenOf (s : State) (j i : Nat) (h : Hand) (k : Nat) : Option Nat :=
  match ((viewRow j i h k).go s).1 with
  | .ok v => v.choice.sample (draw v.q (s.req i).delivered 0 0)
  | .error _ => none

/-- The parameter block of request i and its bias list lie in a served range of job j (R558, R559). -/
def State.paramIn (s : State) (j i lo hi : Nat) : Prop :=
  let a := (s.req i).param
  let p := s.bytesAt (srvWho (some j)) a 128
  let inside (a n : Nat) : Prop := lo ≤ a ∧ a + n ≤ hi
  s.calm (srvWho (some j)) false lo hi = true ∧ inside a 128 ∧
    inside (fld (wordAt p 8) 47 0) (8 * min 64 (fld (wordAt p 8) 63 56))

/-- What SMP reads and writes for logit row k of request i, which names no grammar, lies in a served range of its job: the
parameter block and its bias list, n bytes of the sampler state, the logit row, the output ring and TOK_OUT (R558 - R563). -/
def State.rowReady (s : State) (j i : Nat) (h : Hand) (k n lo hi : Nat) : Prop :=
  let r := s.req i
  let p := s.bytesAt (srvWho (some j)) r.param 128
  let inside (a n : Nat) : Prop := lo ≤ a ∧ a + n ≤ hi
  let b := h.fmt.bits / 8
  s.calm (srvWho (some j)) true lo hi = true ∧ inside r.param 128 ∧ fld (wordAt p 7) 47 0 = 0 ∧
    inside (fld (wordAt p 8) 47 0) (8 * min 64 (fld (wordAt p 8) 63 56)) ∧ inside (fld (wordAt p 6) 47 0) n ∧
    inside (h.logits + b * (k * h.stride)) (b * h.v) ∧ inside r.ring (64 + 8 * 2 ^ r.log2n) ∧ inside h.out 4

/-- A request whose commit point delivers: it is alive, has time left, and its output ring has room (R545, R570); its prompt
goes into no prefix index. -/
def State.delivers (s : State) (j i : Nat) : Prop :=
  let r := s.req i
  let at_ (a : Nat) : Nat := s.natAt (srvWho (some j)) a 8
  r.alive = true ∧ r.cancel = false ∧ r.left ≠ 0 ∧ r.pfxIns = false ∧
    (at_ r.ring + 2 ^ 64 - at_ (r.ring + 8)) % 2 ^ 64 ≠ 2 ^ r.log2n

end Sys2Proof.Machine
end

