-- ==== Sys2Proof/Certificates/Slice0/Obligations.lean ====
section
/-! DEFINITION. The statements about the device that the provers are asked for: what the spec's rules make of each
command, what a command leaves alone, and what every step keeps. -/
open Sys2Proof Sys2Proof.Machine

/-! ## The block -/

/-- A step runs the command at the front of the queue on the state with the rest of the queue, and idles on an empty one
(the model's own rule, log entry 40). -/
def Obligations.StepRunsFrontCommand : Prop :=
  ∀ (s : State) (c : Instr) (rest : List Instr),
    (s.pending = c :: rest → step s = exec c { s with pending := rest }) ∧
    (s.pending = [] → step s = .next s)

/-- Every step answers a next state, takes just the front command from the queue, and leaves only well-formed ones in
it: no command of the table ends in a fault or a refusal, and none puts a command into the queue. -/
def Obligations.StepAnswersAndKeepsQueue : Prop :=
  ∀ s : State, s.formed = true →
    ∃ t, step s = .next t ∧ t.pending = s.pending.tail ∧ t.formed = true

/-- Every step keeps the memories' canonical form. -/
def Obligations.StepKeepsMemoryForm : Prop :=
  ∀ s t : State, Memory.wf s = true → step s = .next t → Memory.wf t = true

/-- A power-up reset leaves a safe state with nothing waiting, nothing resident and no stored byte (R9, R716). -/
def Obligations.ResetIsSafe : Prop :=
  State.reset.safe = true ∧ State.reset.pending = [] ∧ (∀ j, j < 64 → State.reset.jobState j = jNONE) ∧
    (∀ a, Bytes.rd State.reset.far a = 0#8 ∧ Bytes.rd State.reset.scratch a = 0#8)

/-! ## Pileus: results (R282, R286, R292 - R297) -/

/-- s0 and p0 are constant: a write to either is discarded, any other register and predicate takes what is written, and
its neighbours stay (R282). -/
def Obligations.CoreRegistersHold : Prop :=
  (∀ (c : Core) (i k : BitVec 5) (v : W64), (c.w i v).r k = if k = i ∧ i ≠ 0#5 then v else c.r k) ∧
  (∀ (c : Core) (v : W64), c.w 0#5 v = c) ∧
  (∀ (c : Core) (i k : BitVec 3) (b : Bool), (c.setP i b).p k = if k = i ∧ i ≠ 0#3 then b else c.p k) ∧
  (∀ (c : Core) (b : Bool), c.setP 0#3 b = c)

/-- ALU instructions write their result to rd and go on at PC + 4. CLZ, CTZ and POPC count leading zeros, trailing
zeros and set bits, 0 to 64 (R292, R293). -/
def Obligations.AluWritesResult : Prop :=
  (∀ (s : State) (t : Nat) (rd rs1 rs2 : BitVec 5),
      let a := (s.core t).r rs1
      let b := (s.core t).r rs2
      let n := b.toNat % 64
      let gives (i : Instr) (fn : Nat) (v : W64) : Prop :=
        s.issues t (encR 0x01 rd rs1 rs2 fn) [rd, rs1, rs2] = true → exec i s = .next (s.wrote t rd v)
      gives (.add t rd rs1 rs2) 0x00 (a + b) ∧
      gives (.sub t rd rs1 rs2) 0x01 (a - b) ∧
      gives (.and t rd rs1 rs2) 0x02 (a &&& b) ∧
      gives (.or t rd rs1 rs2) 0x03 (a ||| b) ∧
      gives (.xor t rd rs1 rs2) 0x04 (a ^^^ b) ∧
      gives (.andn t rd rs1 rs2) 0x05 (a &&& ~~~b) ∧
      gives (.sll t rd rs1 rs2) 0x06 (a <<< n) ∧
      gives (.srl t rd rs1 rs2) 0x07 (a >>> n) ∧
      gives (.sra t rd rs1 rs2) 0x08 (a.sshiftRight n) ∧
      gives (.ror t rd rs1 rs2) 0x09 (a.rotateRight n) ∧
      gives (.mul t rd rs1 rs2) 0x0A (BitVec.ofNat 64 (a.toNat * b.toNat)) ∧
      gives (.mulh t rd rs1 rs2) 0x0B (BitVec.ofInt 64 (a.toInt * b.toInt / 2 ^ 64)) ∧
      gives (.mulhu t rd rs1 rs2) 0x0C (BitVec.ofNat 64 (a.toNat * b.toNat / 2 ^ 64)) ∧
      gives (.min t rd rs1 rs2) 0x11 (if a.toInt ≤ b.toInt then a else b) ∧
      gives (.max t rd rs1 rs2) 0x12 (if a.toInt ≤ b.toInt then b else a) ∧
      gives (.minu t rd rs1 rs2) 0x13 (if a.toNat ≤ b.toNat then a else b) ∧
      gives (.maxu t rd rs1 rs2) 0x14 (if a.toNat ≤ b.toNat then b else a) ∧
      (∀ sh : BitVec 6,
        gives (.shadd t rd rs1 rs2 sh) (0x40 + sh.toNat) (a + BitVec.ofNat 64 (b.toNat * 2 ^ sh.toNat)))) ∧
  (∀ (s : State) (t : Nat) (rd rs1 : BitVec 5),
      let a := (s.core t).r rs1
      let counts (i : Instr) (fn : Nat) (good : Nat → Prop) : Prop :=
        s.issues t (encR 0x01 rd rs1 0#5 fn) [rd, rs1] = true →
          ∃ n, n ≤ 64 ∧ good n ∧ exec i s = .next (s.wrote t rd (BitVec.ofNat 64 n))
      counts (.clz t rd rs1) 0x15 (fun n => (∀ i, i < n → a.getMsbD i = false) ∧ (n < 64 → a.getMsbD n = true)) ∧
      counts (.ctz t rd rs1) 0x16 (fun n => (∀ i, i < n → a.getLsbD i = false) ∧ (n < 64 → a.getLsbD n = true)) ∧
      counts (.popc t rd rs1) 0x17 (fun n => n = (List.range 64).countP (fun i => a.getLsbD i)))

/-- Division completes for every divisor: a divisor of zero gives all ones from DIV and DIVU and rs1 from REM and REMU,
DIV of -2^63 by -1 gives -2^63 with remainder 0 (R295), and otherwise the quotient is rounded toward zero and the
remainder has the sign of rs1 (R293). -/
def Obligations.DivisionDoesNotTrap : Prop :=
  ∀ (s : State) (t : Nat) (rd rs1 rs2 : BitVec 5),
    let a := (s.core t).r rs1
    let b := (s.core t).r rs2
    let gives (i : Instr) (fn : Nat) (v : W64) : Prop :=
      s.issues t (encR 0x01 rd rs1 rs2 fn) [rd, rs1, rs2] = true → exec i s = .next (s.wrote t rd v)
    (b = 0#64 →
      gives (.div t rd rs1 rs2) 0x0D (BitVec.allOnes 64) ∧ gives (.divu t rd rs1 rs2) 0x0E (BitVec.allOnes 64) ∧
      gives (.rem t rd rs1 rs2) 0x0F a ∧ gives (.remu t rd rs1 rs2) 0x10 a) ∧
    (a = BitVec.ofNat 64 (2 ^ 63) → b = BitVec.allOnes 64 →
      gives (.div t rd rs1 rs2) 0x0D (BitVec.ofNat 64 (2 ^ 63)) ∧ gives (.rem t rd rs1 rs2) 0x0F 0#64) ∧
    (b ≠ 0#64 → ¬(a = BitVec.ofNat 64 (2 ^ 63) ∧ b = BitVec.allOnes 64) →
      ∃ q r : Int, a.toInt = q * b.toInt + r ∧ r.natAbs < b.toInt.natAbs ∧ 0 ≤ r * a.toInt ∧
        gives (.div t rd rs1 rs2) 0x0D (BitVec.ofInt 64 q) ∧ gives (.rem t rd rs1 rs2) 0x0F (BitVec.ofInt 64 r)) ∧
    (b ≠ 0#64 →
      gives (.divu t rd rs1 rs2) 0x0E (BitVec.ofNat 64 (a.toNat / b.toNat)) ∧
      gives (.remu t rd rs1 rs2) 0x10 (BitVec.ofNat 64 (a.toNat % b.toNat)))

/-- Instructions with an immediate, MADD and SEL write their result to rd (R290, R292). CMP and CMPI set pd to the test that COND names, and PLOG sets it to its function of two predicates, each inverted
where its N bit says so (R294, R297). -/
def Obligations.ImmediateResults : Prop :=
  (∀ (s : State) (t : Nat) (rd rs1 rs2 rs3 : BitVec 5) (imm : BitVec 16) (sh : BitVec 6) (op : BitVec 2) (p : BitVec 3),
      let a := (s.core t).r rs1
      let b := (s.core t).r rs2
      let gives (i : Instr) (w : Nat) (regs : List (BitVec 5)) (v : W64) : Prop :=
        s.issues t w regs = true → exec i s = .next (s.wrote t rd v)
      gives (.addi t rd rs1 imm) (encI 0x02 rd rs1 imm) [rd, rs1] (a + imm.signExtend 64) ∧
      gives (.andi t rd rs1 imm) (encI 0x03 rd rs1 imm) [rd, rs1] (a &&& imm.zeroExtend 64) ∧
      gives (.ori t rd rs1 imm) (encI 0x04 rd rs1 imm) [rd, rs1] (a ||| imm.zeroExtend 64) ∧
      gives (.xori t rd rs1 imm) (encI 0x05 rd rs1 imm) [rd, rs1] (a ^^^ imm.zeroExtend 64) ∧
      gives (.shi t rd rs1 op sh) (encI 0x06 rd rs1 (BitVec.ofNat 16 (op.toNat * 2 ^ 14 + sh.toNat))) [rd, rs1]
        (if op = 0#2 then a <<< sh.toNat else if op = 1#2 then a >>> sh.toNat
          else if op = 2#2 then a.sshiftRight sh.toNat else a.rotateRight sh.toNat) ∧
      gives (.cat16 t rd rs1 imm) (encI 0x07 rd rs1 imm) [rd, rs1] (BitVec.ofNat 64 (a.toNat * 2 ^ 16 + imm.toNat)) ∧
      gives (.addh t rd rs1 imm) (encI 0x08 rd rs1 imm) [rd, rs1] (a + BitVec.ofInt 64 (imm.toInt * 2 ^ 16)) ∧
      gives (.madd t rd rs1 rs2 rs3) (encR4 0x09 rd rs1 rs2 rs3) [rd, rs1, rs2, rs3] (a + b * (s.core t).r rs3) ∧
      gives (.sel t rd rs1 rs2 p) (encR 0x0E rd rs1 rs2 (p.toNat * 2 ^ 8)) [rd, rs1, rs2]
        (if (s.core t).p p then a else b)) ∧
  (∀ (s : State) (t : Nat) (pd cond ps1 ps2 : BitVec 3) (rs1 rs2 : BitVec 5) (imm : BitVec 15) (n1 n2 : Bool)
        (f : BitVec 2),
      let c := s.core t
      let test (a b : W64) : Bool :=
        if cond = 0#3 then a == b else if cond = 1#3 then a != b
        else if cond = 2#3 then a.slt b else if cond = 3#3 then b.sle a
        else if cond = 4#3 then a.ult b else b.ule a
      let sets (i : Instr) (w : Nat) (regs : List (BitVec 5)) (v : Bool) : Prop :=
        s.issues t w regs = true →
          exec i s = .next ((s.fetched t).issued t { c.setP pd v with pc := c.pc + 4 })
      (cond.toNat ≤ 5 →
        sets (.cmp t pd cond rs1 rs2) (encR 0x0B (pd.zeroExtend 5) rs1 rs2 cond.toNat) [rs1, rs2]
          (test (c.r rs1) (c.r rs2)) ∧
        sets (.cmpi t pd cond rs1 imm) (encP pd cond rs1 imm) [rs1] (test (c.r rs1) (imm.signExtend 64))) ∧
      (f ≠ 3#2 →
        sets (.plog t pd ps1 ps2 n1 n2 f) (encPlog pd ps1 ps2 n1 n2 f) []
          (let x := c.p ps1 ^^ n1
           let y := c.p ps2 ^^ n2
           if f = 0#2 then x && y else if f = 1#2 then x || y else x ^^ y)))

/-- FEXT takes the field of W bits at POS, zero-extended, with positions above 63 read as zero; FINS puts the low W bits
of rs1 there and keeps the other bits of rd (R296). -/
def Obligations.FieldExtractAndInsert : Prop :=
  ∀ (s : State) (t : Nat) (rd rs1 : BitVec 5) (pos wm1 : BitVec 6),
    let a := (s.core t).r rs1
    let d := (s.core t).r rd
    let p := pos.toNat
    let w := wm1.toNat + 1
    (s.issues t (encF rd rs1 pos wm1 false) [rd, rs1] = true →
      ∃ v : W64, exec (.fext t rd rs1 pos wm1) s = .next (s.wrote t rd v) ∧
        ∀ i, i < 64 → v.getLsbD i = (decide (i < w) && a.getLsbD (p + i))) ∧
    (s.issues t (encF rd rs1 pos wm1 true) [rd, rs1] = true →
      ∃ v : W64, exec (.fins t rd rs1 pos wm1) s = .next (s.wrote t rd v) ∧
        ∀ i, i < 64 → v.getLsbD i = if p ≤ i ∧ i < p + w then a.getLsbD (i - p) else d.getLsbD i)

/-- An instruction of which a register is owed by an LDG waits, with the reason shown, and changes nothing else (R286,
R332). -/
def Obligations.OwedRegisterWaits : Prop :=
  ∀ (s : State) (t : Nat) (rd rs1 rs2 : BitVec 5) (imm : BitVec 16),
    let c := s.core t
    let waits (i : Instr) (w : Nat) (regs : List (BitVec 5)) : Prop :=
      s.issues t w [] = true → regs.any c.owed = true → exec i s = .next (s.stalled t 1)
    waits (.add t rd rs1 rs2) (encR 0x01 rd rs1 rs2 0x00) [rd, rs1, rs2] ∧
    waits (.div t rd rs1 rs2) (encR 0x01 rd rs1 rs2 0x0D) [rd, rs1, rs2] ∧
    waits (.addi t rd rs1 imm) (encI 0x02 rd rs1 imm) [rd, rs1] ∧
    waits (.ldd t rd rs1 imm) (encI 0x13 rd rs1 imm) [rd, rs1] ∧
    waits (.std t rd rs1 imm) (encI 0x1B rd rs1 imm) [rd, rs1]

/-- An instruction that only computes changes rd, PC and the marks of issue of its own core, and performance counters:
every other register and predicate of the core, the memories and tokens of its tile, every other tile, every register
outside the performance counters and everything outside the tiles stay (R286, R293). -/
def Obligations.ComputingFrame : Prop :=
  ∀ (s s' : State) (t : Nat) (rd rs1 rs2 : BitVec 5) (imm : BitVec 16) (i : Instr) (w : Nat) (regs : List (BitVec 5)),
    (i, w, regs) ∈ [((.add t rd rs1 rs2 : Instr), encR 0x01 rd rs1 rs2 0x00, [rd, rs1, rs2]),
      (.mul t rd rs1 rs2, encR 0x01 rd rs1 rs2 0x0A, [rd, rs1, rs2]),
      (.div t rd rs1 rs2, encR 0x01 rd rs1 rs2 0x0D, [rd, rs1, rs2]),
      (.addi t rd rs1 imm, encI 0x02 rd rs1 imm, [rd, rs1]),
      (.cat16 t rd rs1 imm, encI 0x07 rd rs1 imm, [rd, rs1])] →
    t < 200 → s.issues t w regs = true → ((s.tile t).mem .imem).weakIn (s.core t).pc 4 = 0 → exec i s = .next s' →
      s'.outside = s.outside ∧
      (∀ u, u ≠ t → s'.tile u = s.tile u) ∧
      (∀ k, k ≠ rd → (s'.core t).r k = (s.core t).r k) ∧
      s'.tile t = { s.tile t with core := { s.core t with
        sreg := (s'.core t).sreg, pc := (s.core t).pc + 4, stall := 0,
        dbgHalted := (s.core t).dbgHalted || (s.core t).dbgStep, dbgStep := false } } ∧
      (∀ off, (∀ k, k < 8 → off ≠ ANV_PERF_CNT.at t k) → s'.reg off = s.reg off)

/-! ## Pileus: memory, transfers, commands and traps (R298 - R331) -/

/-- A DMEM load of an aligned offset inside DMEM, whose bytes have no uncorrectable error, puts the little-endian value
of its 1, 2, 4 or 8 bytes in rd, sign- or zero-extended, and corrects single-bit errors on the way (R6, R157, R292, R300). -/
def Obligations.DmemLoads : Prop :=
  ∀ (s : State) (t : Nat) (rd rs1 : BitVec 5) (imm : BitVec 16),
    let a := ((s.core t).r rs1 + imm.signExtend 64).toNat
    let m (n : Nat) : Nat := leNat (Bytes.rdList (s.tile t).dmem a n)
    let gives (i : Instr) (op size : Nat) (v : W64) : Prop :=
      s.issues t (encI op rd rs1 imm) [rd, rs1] = true → a % size = 0 → a < 0x10000 → s.dmemGood t a size = true →
        exec i s = .next (((s.fetched t).dmemRead t a size).issued t
          { (s.core t).w rd v with pc := (s.core t).pc + 4 })
    gives (.ldb t rd rs1 imm) 0x10 1 ((BitVec.ofNat 8 (m 1)).signExtend 64) ∧
    gives (.ldh t rd rs1 imm) 0x11 2 ((BitVec.ofNat 16 (m 2)).signExtend 64) ∧
    gives (.ldw t rd rs1 imm) 0x12 4 ((BitVec.ofNat 32 (m 4)).signExtend 64) ∧
    gives (.ldd t rd rs1 imm) 0x13 8 (BitVec.ofNat 64 (m 8)) ∧
    gives (.ldbu t rd rs1 imm) 0x14 1 (BitVec.ofNat 64 (m 1)) ∧
    gives (.ldhu t rd rs1 imm) 0x15 2 (BitVec.ofNat 64 (m 2)) ∧
    gives (.ldwu t rd rs1 imm) 0x16 4 (BitVec.ofNat 64 (m 4))

/-- A DMEM store of an aligned offset inside DMEM writes the low 1, 2, 4 or 8 bytes of the data register there. Every
other byte of DMEM, the rest of the tile, every other tile, and what no record of a corrected error touches outside the tiles
stay, and the core goes on at PC + 4 with its registers as they were (R292, R300). -/
def Obligations.DmemStores : Prop :=
  ∀ (s : State) (t : Nat) (rs rs1 : BitVec 5) (imm : BitVec 16),
    let c := s.core t
    let a := (c.r rs1 + imm.signExtend 64).toNat
    let stores (i : Instr) (op size : Nat) : Prop :=
      s.issues t (encI op rs rs1 imm) [rs, rs1] = true → a % size = 0 → a < 0x10000 →
      (((s.tile t).mem .dmem).badMerge a size).isNone = true →
        ∃ s', exec i s = .next s' ∧
          (∀ b, Bytes.rd (s'.tile t).dmem b =
            if a ≤ b ∧ b < a + size then BitVec.ofNat 8 ((c.r rs).toNat / 256 ^ (b - a)) else Bytes.rd (s.tile t).dmem b) ∧
          s'.tile t = { s.tile t with
            core := { c with pc := c.pc + 4, stall := 0, dbgHalted := c.dbgHalted || c.dbgStep, dbgStep := false },
            dmem := (s'.tile t).dmem, dmemBad := (s'.tile t).dmemBad, dmemWeak := (s'.tile t).dmemWeak,
            imemWeak := (s'.tile t).imemWeak } ∧
          (∀ u, u ≠ t → s'.tile u = s.tile u) ∧ s'.outside.noted = s.outside.noted
    stores (.stb t rs rs1 imm) 0x18 1 ∧ stores (.sth t rs rs1 imm) 0x19 2 ∧ stores (.stw t rs rs1 imm) 0x1A 4 ∧
    stores (.std t rs rs1 imm) 0x1B 8

/-- A DMEM access whose offset is no multiple of its size traps with DMEM_ALIGN, and an aligned one outside DMEM with
DMEM_RANGE; EVAL holds the offset, and the access has no effect (R300, R325). A transfer whose target is no multiple of 4
or lies outside 0x0000 - 0xFFFC traps with FETCH_RANGE, writes no register, and EVAL holds the target. The fetch after the
instruction at 0xFFFC traps with EPC 0xFFFC, EVAL 0x1_0000 and PAST 1, whichever row is offered (R299). -/
def Obligations.AddressTraps : Prop :=
  (∀ (s : State) (t : Nat) (rd rs1 : BitVec 5) (imm : BitVec 16) (i : Instr) (op size : Nat),
      (i, op, size) ∈ [((.ldb t rd rs1 imm : Instr), 0x10, 1), (.ldh t rd rs1 imm, 0x11, 2), (.ldw t rd rs1 imm, 0x12, 4),
        (.ldd t rd rs1 imm, 0x13, 8), (.ldbu t rd rs1 imm, 0x14, 1), (.ldhu t rd rs1 imm, 0x15, 2),
        (.ldwu t rd rs1 imm, 0x16, 4), (.stb t rd rs1 imm, 0x18, 1), (.sth t rd rs1 imm, 0x19, 2),
        (.stw t rd rs1 imm, 0x1A, 4), (.std t rd rs1 imm, 0x1B, 8)] →
      let c := s.core t
      let a := c.r rs1 + imm.signExtend 64
      let traps (code : Nat) : Prop := exec i s = .next ((s.fetched t).setCore t (c.trapped code a c.pc))
      s.issues t (encI op rd rs1 imm) [rd, rs1] = true → s.handles t = true →
        (a.toNat % size ≠ 0 → traps 0x04) ∧ (a.toNat % size = 0 → 0x10000 ≤ a.toNat → traps 0x05)) ∧
  (∀ (s : State) (t : Nat) (rd rs1 rs2 : BitVec 5) (imm : BitVec 16) (ps : BitVec 3) (neg : Bool) (off22 : BitVec 22)
        (off21 : BitVec 21),
      let c := s.core t
      let bad (x : W64) : Prop := x.toNat % 4 ≠ 0 ∨ 0x10000 ≤ x.toNat
      let traps (i : Instr) (w : Nat) (regs : List (BitVec 5)) (x : W64) : Prop :=
        s.issues t w regs = true → s.handles t = true → bad x →
          exec i s = .next ((s.fetched t).setCore t (c.trapped 0x02 x c.pc))
      let b := BitVec.ofInt 64 (c.pc + 4 * off22.toInt)
      let u := BitVec.ofInt 64 (c.pc + 4 * off21.toInt)
      ((c.p ps ^^ neg) = true → traps (.br t ps neg off22) (encB ps neg off22) [] b) ∧
      (rd ≠ 0#5 → c.r rd ≠ 1#64 → traps (.bdec t rd off21) (encU 0x21 rd off21) [rd] u) ∧
      traps (.jal t rd off21) (encU 0x22 rd off21) [rd] u ∧
      traps (.jalr t rd rs1 imm) (encI 0x23 rd rs1 imm) [rd, rs1] (c.r rs1 + imm.signExtend 64) ∧
      (s.issuing t = true → c.pc = 0x10000 → s.handles t = true →
        exec (.add t rd rs1 rs2) s = .next (s.setCore t { c.trapped 0x02 0x10000#64 0xFFFC with past := true })))

/-- The transfers (R298): BR, BDEC, JAL and JALR set PC to their target, which offsets count from the transfer itself,
and JAL and JALR put PC + 4 in rd after reading rs1. -/
def Obligations.TransfersReachTheirTarget : Prop :=
  ∀ (s : State) (t : Nat) (rd rs1 : BitVec 5) (imm : BitVec 16) (ps : BitVec 3) (neg : Bool) (off22 : BitVec 22)
      (off21 : BitVec 21),
    let c := s.core t
    let good (x : Int) : Prop := 0 ≤ x ∧ x < 0x10000 ∧ x % 4 = 0
    let goes (i : Instr) (w : Nat) (regs : List (BitVec 5)) (c' : Core) (pc : Nat) : Prop :=
      s.issues t w regs = true → exec i s = .next ((s.fetched t).issued t { c' with pc := pc })
    let next := BitVec.ofNat 64 (c.pc + 4)
    let b := c.pc + 4 * off22.toInt
    let u := c.pc + 4 * off21.toInt
    let j := (c.r rs1 + imm.signExtend 64).toNat
    (good b → (c.p ps ^^ neg) = true → goes (.br t ps neg off22) (encB ps neg off22) [] c b.toNat) ∧
    ((c.p ps ^^ neg) = false → goes (.br t ps neg off22) (encB ps neg off22) [] c (c.pc + 4)) ∧
    (good u → rd ≠ 0#5 → c.r rd ≠ 1#64 →
      goes (.bdec t rd off21) (encU 0x21 rd off21) [rd] (c.w rd (c.r rd - 1#64)) u.toNat) ∧
    (rd = 0#5 ∨ c.r rd = 1#64 →
      goes (.bdec t rd off21) (encU 0x21 rd off21) [rd] (c.w rd (c.r rd - 1#64)) (c.pc + 4)) ∧
    (good u → goes (.jal t rd off21) (encU 0x22 rd off21) [rd] (c.w rd next) u.toNat) ∧
    (good j → goes (.jalr t rd rs1 imm) (encI 0x23 rd rs1 imm) [rd, rs1] (c.w rd next) j)

/-- LDG and STG issue with an aligned address inside one segment that permits the access, fewer than eight being
outstanding, and the core goes on at PC + 4; with eight outstanding they wait; a misaligned address traps with
GLOBAL_ALIGN, and an aligned one outside its segments with SEGMENT, which is fatal (R287, R301, R327). -/
def Obligations.LocalAccessesIssue : Prop :=
  ∀ (s : State) (t : Nat) (rd rs1 : BitVec 5) (size : BitVec 2) (sx : Bool) (imm : BitVec 13),
    let c := s.core t
    let f := s.fetched t
    let a := c.r rs1 + imm.signExtend 64
    let n := 2 ^ size.toNat
    let issues (i : Instr) (w : Nat) (write : Bool) (o : OutAcc) : Prop :=
      s.issues t w [rd, rs1] = true →
        (t < 200 → a.toNat % n = 0 → f.segOk (f.jobOf t) a.toNat n write = true → c.out.length < 8 →
          exec i s = .next ((s.fetched t).issued t { c with out := c.out ++ [o], pc := c.pc + 4 })) ∧
        (t < 200 → a.toNat % n = 0 → f.segOk (f.jobOf t) a.toNat n write = true → 8 ≤ c.out.length →
          exec i s = .next (s.stalled t 7)) ∧
        (a.toNat % n ≠ 0 → s.handles t = true →
          exec i s = .next ((s.fetched t).setCore t (c.trapped 0x08 a c.pc))) ∧
        (t < 200 → a.toNat % n = 0 → f.segOk (f.jobOf t) a.toNat n write = false → c.draining = false →
          exec i s = .next ((s.fetched t).fatalTrap t ⟨0x07, a, c.pc, false, false, false⟩ 0x07 0 2))
    issues (.ldg t rd rs1 size sx imm) (encG 0x1C rd rs1 size sx imm) false
      ⟨false, c.pc, a.toNat, n, sx, rd, 0#64, false⟩ ∧
    issues (.stg t rd rs1 size imm) (encG 0x1D rd rs1 size false imm) true
      ⟨true, c.pc, a.toNat, n, false, 0#5, c.r rd, false⟩

/-- The data of an outstanding LDG goes to its rd, extended as SX says, and an outstanding STG is applied, once no
earlier access of the core to the same granule is outstanding. A refused access stays, a refused LDG writes zero to its
rd, and a refused STG writes nothing; when every outstanding access has been refused, the core takes one BUS trap, for
the earliest, with IMPRECISE 1 and MULTI_BUS 1 when it folds in others (R287, R302, R303). An access inside a range whose every
access is served is not refused: it leaves the outstanding ones, and an LDG's data are the bytes that stand there. -/
def Obligations.LocalAccessesComplete : Prop :=
  (∀ (s : State) (t k lo hi : Nat) (o : OutAcc),
      let c := s.core t
      let w := s.coreWho t
      s.loaded t = true → s.up = true → c.out[k]? = some o → o.refused = false →
      (∀ i e, i < k → c.out[i]? = some e → e.refused = true ∨ e.addr / 64 ≠ o.addr / 64) →
      lo ≤ o.addr → o.addr + o.size ≤ hi →
      (o.store = false → s.calm w false lo hi = true →
        ∃ r, exec (.ldgDataArrival t k) s = .next r ∧
          r.core t = { c with out := c.out.eraseIdx k }.w o.rd (extendTo o.size o.sx (s.natAt w o.addr o.size))) ∧
      (o.store = true → s.calm w true lo hi = true →
        ∃ r, (writeSpan w o.size o.addr (leBytes o.size o.data.toNat)).go s = (.ok (), r) ∧
          exec (.stgApplied t k) s = .next (r.setCore t { r.core t with out := c.out.eraseIdx k }))) ∧
  (∀ (s s' : State) (t k : Nat) (o : OutAcc) (bs : List Byte) (e : Nat),
      s.loaded t = true → s.up = true → (s.core t).out[k]? = some o → o.refused = false →
      (∀ i e, i < k → (s.core t).out[i]? = some e → e.refused = true ∨ e.addr / 64 ≠ o.addr / 64) →
      (o.store = false → (readSpan (s.coreWho t) o.size o.addr o.size).go s = (.ok bs, s') →
        exec (.ldgDataArrival t k) s = .next (s'.setCore t
          ({ s'.core t with out := (s'.core t).out.eraseIdx k }.w o.rd (extendTo o.size o.sx (leNat bs))))) ∧
      (o.store = true → (writeSpan (s.coreWho t) o.size o.addr (leBytes o.size o.data.toNat)).go s = (.ok (), s') →
        exec (.stgApplied t k) s = .next (s'.setCore t
          { s'.core t with out := (s'.core t).out.eraseIdx k })) ∧
      (o.store = false → (readSpan (s.coreWho t) o.size o.addr o.size).go s = (.error (.bus e), s') →
        exec (.ldgDataArrival t k) s = .next (s'.setCore t
          ({ s'.core t with out := listSet (s'.core t).out k { o with refused := true } }.w o.rd 0#64))) ∧
      (o.store = true → (writeSpan (s.coreWho t) o.size o.addr (leBytes o.size o.data.toNat)).go s = (.error (.bus e), s') →
        exec (.stgApplied t k) s = .next (s'.setCore t
          { s'.core t with out := listSet (s'.core t).out k { o with refused := true } }))) ∧
  (∀ (s : State) (t : Nat) (o : OutAcc) (rest : List OutAcc),
      let c := s.core t
      t < 200 → s.unheld t = true → c.out = o :: rest → c.out.all (·.refused) = true →
      c.inTrap = false → c.tvec.getLsbD 0 = true →
        ∃ s', exec (.busTrap t) s = .next s' ∧ s'.core t =
          { c.trapped 0x09 (BitVec.ofNat 64 o.addr) o.pc with imprecise := true, multiBus := !rest.isEmpty } ∧
          (∀ u, u ≠ t → s'.tile u = s.tile u) ∧ s'.outside = s.outside ∧ s'.regs = s.regs)

/-- PUSH copies the command block at its DMEM offset to the end of its queue and counts it pushed when the queue has
room, and waits otherwise (R240, R248, R305, R306); a waiting PUSH is performed when there is room. -/
def Obligations.PushEntersCommand : Prop :=
  ∀ (s : State) (t : Nat) (rs1 rs2 : BitVec 5) (qr : Bool) (qn : BitVec 5),
    let c := s.core t
    let f := s.fetched t
    let q := if qr then (c.r rs2).toNat else qn.toNat
    let a := (c.r rs1).toNat
    let x := s.tile t
    let n := x.blockBytes a
    let b := x.block a n
    let y := x.queue q
    let w := encPush rs1 rs2 qr qn
    let fits : Prop := (y.entries.map cmdEntries).sum + cmdEntries b ≤ 32
    let regs := if qr then [rs1, rs2] else [rs1]
    let entered (s' : State) : Prop := (s'.tile t).queue q = { y with entries := y.entries ++ [b], pushed := y.pushed + 1#16 } ∧
      (∀ p, p ≠ q → (s'.tile t).queue p = x.queue p) ∧
      s'.core t = { c with pc := c.pc + 4, stall := 0, dbgHalted := c.dbgHalted || c.dbgStep, dbgStep := false }
    s.issues t w regs = true → q ≤ 26 → (qr = false → qn.toNat ≤ 26) → a % 64 = 0 → a + n ≤ 0x10000 →
    s.dmemGood t a n = true → f.pushBad (f.jobOf t) b = none →
      (fits → ∃ s', exec (.push t rs1 rs2 qr qn) s = .next s' ∧ entered s') ∧
      (¬fits → ∃ s', exec (.push t rs1 rs2 qr qn) s = .next s' ∧ s'.core t = { c with stall := 2 } ∧
        (s'.tile t).queues = x.queues) ∧
      (fits → c.stall = 2 → ∃ s', exec (.pushRoomFree t) s = .next s' ∧ entered s')

/-- TSIG adds INC to a token modulo 2^16 after the core's stores; TWAIT and the four fences go on once what they wait
for holds, and wait until then (R160, R242, R309 - R311). -/
def Obligations.TokensAndFences : Prop :=
  ∀ (s : State) (t : Nat) (rs : BitVec 5) (tok inc : BitVec 8),
    let c := s.core t
    let x := s.tile t
    let after (y : State) : Host.Outcome State Fault Refusal := .next (y.issued t { c with pc := c.pc + 4 })
    let waits (i : Instr) (w : Nat) (regs : List (BitVec 5)) (why : Nat) (holds : Bool) : Prop :=
      s.issues t w regs = true →
        (holds = true → exec i s = after (s.fetched t)) ∧ (holds = false → exec i s = .next (s.stalled t why))
    let stored := !c.out.any (·.store)
    let local_ := c.out.isEmpty
    let drained := ((s.fetched t).tile t).drained
    let remote := (s.fetched t).remoteDone t
    (s.issues t (encTok rs 0 tok inc) [] = true → inc ≠ 0#8 → stored = true →
      exec (.tsig t rs tok inc) s = after ((s.fetched t).setTile t { (s.fetched t).tile t with
        tok := SMap.put 0#16 x.tok tok.toNat (SMap.get 0#16 x.tok tok.toNat + inc.zeroExtend 16) })) ∧
    waits (.twait t rs tok) (encTok rs 1 tok 0#8) [rs] 3
      (decide ((SMap.get 0#16 x.tok tok.toNat - (c.r rs).truncate 16).toNat < 2 ^ 15)) ∧
    waits (.fenceLocal t) (encFence 0) [] 4 local_ ∧
    waits (.fenceDrain t) (encFence 1) [] 4 drained ∧
    waits (.fenceRemote t) (encFence 2) [] 4 (stored && remote) ∧
    waits (.fenceAll t) (encFence 3) [] 4 (local_ && drained && remote)

/-- ACQUIRE and RELEASE of a range inside one readable segment, or of length 0, issue in one beat; the oldest one of the
core completes, when nothing in its lines is uncorrectable and memory takes the write-backs, by writing back the lines
that the cache holds of the range, which an ACQUIRE then discards, and by its signal (R314, R315); with lines that are clean
and right it completes. -/
def Obligations.CloudbankRanges : Prop :=
  ∀ (s s' : State) (t : Nat) (rs1 rs2 : BitVec 5) (tok : BitVec 8) (sig : Bool) (o : ClbOp) (rest : List ClbOp),
    let c := s.core t
    let f := s.fetched t
    let a := (c.r rs1).toNat
    let n := (c.r rs2).toNat
    let ok := n = 0 ∨ (a + n ≤ 2 ^ 48 ∧ f.segOk (f.jobOf t) a n false = true)
    let issues (i : Instr) (w : Nat) (acq : Bool) : Prop :=
      s.issues t w [rs1, rs2] = true → ok → exec i s =
        .next ((s.fetched t).issued t { c with clbs := c.clbs ++ [⟨acq, a, n, sig, tok⟩], pc := c.pc + 4 })
    issues (.acquire t rs1 rs2 tok sig) (encClb rs1 rs2 false tok sig) true ∧
    issues (.release t rs1 rs2 tok sig) (encClb rs1 rs2 true tok sig) false ∧
    let lines := s.linesIn (s.jobOf t) o.base o.len
    let works (s' : State) : Prop := EM.go (do
      for line in lines do
        clbLine (s.coreWho t) (s.jobOf t) line o.acquire) s = (.ok (), s')
    let ends (s' : State) : State :=
      let r := s'.setCore t { s'.core t with clbs := rest }
      if o.sig then r.setTile t ((r.tile t).signal o.tok.toNat 1) else r
    (s.loaded t = true → s.up = true → c.clbs = o :: rest →
      (works s' → exec (.clbComplete t) s = .next (ends s')) ∧
      (s.cleanLines (s.jobOf t) lines →
        exec (.clbComplete t) s = .next (ends (if o.acquire then s.dropLines (s.jobOf t) lines else s))))

/-- IFILL of a page of a readable code segment holds issue, and the copy's end puts the page's 4,096 bytes in IMEM, clears
the error marks there, and lets issue go on at PC + 4 (R316, R317). -/
def Obligations.InstructionFill : Prop :=
  ∀ (s s' : State) (t i lo hi : Nat) (rs1 rs2 : BitVec 5) (bs : List Byte),
    let c := s.core t
    let f := s.fetched t
    let a := (c.r rs1).toNat
    let o := (c.r rs2).toNat
    (s.issues t (encIfill rs1 rs2) [rs1, rs2] = true → a % 4096 = 0 → f.segOf (f.jobOf t) a 4096 = some i →
      (f.seg (f.jobOf t) i).cls = 3 → (f.seg (f.jobOf t) i).pr = true → o % 4096 = 0 → o ≤ 0xF000 →
      exec (.ifill t rs1 rs2) s = .next ((s.fetched t).issued t { c with ifill := some (a, o) })) ∧
    let w : Who := ⟨.ifill, some (s.jobOf t), s.ltile t, some 4⟩
    (s.loaded t = true → s.up = true → c.ifill = some (a, o) →
      ((readSpan w 4096 a 4096).go s = (.ok bs, s') →
      ∃ r, exec (.ifillCopyDone t) s = .next r ∧
        (∀ b, Bytes.rd (r.tile t).imem b =
          if o ≤ b ∧ b < o + bs.length then bs.getD (b - o) 0#8 else Bytes.rd (s'.tile t).imem b) ∧
        r.core t = { s'.core t with pc := (s'.core t).pc + 4, ifill := none }) ∧
      (s.calm w false lo hi = true → lo ≤ a → a + 4096 ≤ hi →
      ∃ r, exec (.ifillCopyDone t) s = .next r ∧
        (∀ b, Bytes.rd (r.tile t).imem b =
          if o ≤ b ∧ b < o + 4096 then s.byteAt w (a + (b - o)) else Bytes.rd (s.tile t).imem b) ∧
        r.core t = { c with pc := c.pc + 4, ifill := none }))

/-- TRAP enters the handler with SOFTWARE and IMM8, ERET returns to EPC and clears what ESTATE shows, CSRR and CSRW
access the listed control registers under the access of each field, END stops issue for the rest of the job, and BRK
stops the core of a job that permits debug and does nothing otherwise. A VPC belongs to no job and reads CORE as 1 (R319 -
R323, R325, R328, R330, R335). -/
def Obligations.SystemInstructions : Prop :=
  ∀ (s : State) (t : Nat) (rd rs1 : BitVec 5) (imm num : BitVec 8),
    let c := s.core t
    let f := s.fetched t
    let v := c.r rs1
    let after (c' : Core) : Host.Outcome State Fault Refusal := .next ((s.fetched t).issued t { c' with pc := c.pc + 4 })
    let reads (k : Nat) (x : W64) : Prop := num.toNat = k → s.issues t (encSys rd 0#5 num 2) [rd] = true →
      exec (.csrr t rd num) s = after (c.w rd x)
    let writes (k : Nat) (c' : Core) : Prop := num.toNat = k → s.issues t (encSys 0#5 rs1 num 3) [rs1] = true →
      exec (.csrw t rs1 num) s = after c'
    (s.issues t (encSys 0#5 0#5 imm 0) [] = true → s.handles t = true →
      exec (.trap t imm) s = .next ((s.fetched t).setCore t (c.trapped 0x0B (imm.zeroExtend 64) c.pc))) ∧
    (s.issues t (encSys 0#5 0#5 0#8 1) [] = true → c.inTrap = true → c.epc.toNat % 4 = 0 → c.epc.toNat < 0x10000 →
      exec (.eret t) s = .next ((s.fetched t).issued t
        { c with pc := c.epc.toNat, inTrap := false, imprecise := false, multiBus := false, past := false })) ∧
    let ofJob (x : Nat) : W64 := if t < 200 then BitVec.ofNat 64 x else 0#64
    reads 0x00 0x0100#64 ∧ reads 0x01 (ofJob (f.jobOf t)) ∧ reads 0x02 (ofJob (f.ltile t)) ∧
    reads 0x03 (ofJob (f.tileSet (f.jobOf t)).length) ∧ reads 0x04 (BitVec.ofNat 64 f.node) ∧
    reads 0x05 (if t < 200 then 0#64 else 1#64) ∧ reads 0x08 c.tvec ∧ reads 0x09 c.epc ∧ reads 0x0A c.ecause ∧ reads 0x0B c.eval ∧
    reads 0x0C (BitVec.ofNat 64 (8 * c.multiBus.toNat + 4 * c.past.toNat + 2 * c.imprecise.toNat + c.inTrap.toNat)) ∧
    reads 0x0D (c.preds.zeroExtend 64) ∧ reads 0x0E c.scratch ∧
    (∀ k, k ∈ [0x00, 0x01, 0x02, 0x03, 0x04, 0x05, 0x0C] → writes k c) ∧
    writes 0x08 { c with tvec := v &&& 0xFFFD#64 } ∧ writes 0x09 { c with epc := v &&& 0xFFFF#64 } ∧
    writes 0x0A { c with ecause := v &&& 0xFF#64 } ∧ writes 0x0B { c with eval := v } ∧
    writes 0x0D { c with preds := v.truncate 8 ||| 1#8 } ∧ writes 0x0E { c with scratch := v } ∧
    (s.issues t (encSys 0#5 0#5 0#8 4) [] = true → exec (.endTile t) s = after { c with ended := true }) ∧
    (s.issues t (encSys 0#5 0#5 0#8 5) [] = true → exec (.brk t) s = after
      (if f.loaded t = true ∧ f.flag (LDR_JOB_ATTR.DEBUG (f.jobOf t)) = true then { c with dbgHalted := true } else c))

/-- The debug controls, of a tile's core from the companion and ZEN and of a VPC from ZEN: HALT_REQ stops issue, RESUME
lets it go on, and STEP lets a stopped core issue one instruction; HALT_REQ and STEP of a tile's core are discarded where the
job does not permit debug (R24, R330, R331, R336; that the VPC's act is the model's reading, log entry 61). A word
that is no legal encoding on the core, to which a VPC counts PUSH, TOK, CLB, IFILL and END, traps with ILLEGAL, which is fatal
(R291, R324, R327, R335). -/
def Obligations.DebugAndIllegal : Prop :=
  ∀ (s : State) (t : Nat) (by_ : Agent),
    let c := s.core t
    let permits : Prop := 200 ≤ t ∨ (s.loaded t = true ∧ s.flag (LDR_JOB_ATTR.DEBUG (s.jobOf t)) = true)
    (s.accepts by_ (if t < 200 then PIL_DBG_CTL.at t else VPC_DBG_CTL.at (t - 200)) = true →
      (permits → exec (.haltReq by_ t) s = .next (s.setCore t { c with dbgHalted := true, dbgStep := false })) ∧
      (permits → c.dbgHalted = true →
        exec (.dbgStep by_ t) s = .next (s.setCore t { c with dbgHalted := false, dbgStep := true })) ∧
      (200 ≤ t ∨ s.loaded t = true →
        exec (.dbgResume by_ t) s = .next (s.setCore t { c with dbgHalted := false, dbgStep := false })) ∧
      (¬permits → exec (.haltReq by_ t) s = .next s ∧ exec (.dbgStep by_ t) s = .next s)) ∧
    (s.issuing t = true → c.pc < 0x10000 → (((s.tile t).mem .imem).badIn c.pc 4).isNone = true → c.draining = false →
      let tr : Trap := ⟨0x01, BitVec.ofNat 64 (s.word t), c.pc, false, false, false⟩
      (t < 200 → legalWord (s.word t) = false →
        exec (.illegalInstruction t) s = .next ((s.fetched t).fatalTrap t tr 0x01 0 5)) ∧
      (200 ≤ t → t < 216 → legalWord (s.word t) = false ∨ jobOnly (s.word t) = true →
        exec (.illegalInstruction t) s = .next ((s.fetched t).vpcTrap (t - 200) tr)))

/-! ## Engine commands (R218 - R220, R239 - R277, R450 - R459, R669 - R675) -/

/-- A command of a tile's queue starts when its job runs, its waits hold, its order and its engine let it, and it is a
legal one: it leaves the entries, becomes the newest started command with the view registers as they stand, and event 7
counts. While its waits do not hold, nothing starts. VQn and FQ send their oldest command once its waits hold, and the
destination takes it while it holds fewer than two, and refuses it otherwise (R242, R245 - R247, R251, R254). A legal
VIEW at the head of its queue loads the eight words of its command into the view register it names, without a wait and
without a signal, no other view register changes, and it counts as started and reports DONE (R239, R253, R254, R276). -/
def Obligations.CommandsStartInOrder : Prop :=
  (∀ (s : State) (j l q : Nat) (c : List W64) (rest : List (List W64)),
      let x := s.queue j l q
      let f : Flight := ⟨c, x.views, .running, 0, none, 0⟩
      let chain := if cKind c = kMMUL then cf c 4 6 6 == 1 else if cKind c = kATT ∨ cKind c = kVOP then false else x.chain
      x.entries = c :: rest →
        (q < 10 → cKind c ≠ kVIEW → s.mayStart j l q c = true →
          commandOk c q l x.views x.chain (s.flag (LDR_JOB_ATTR.DET j)) = true →
          exec (.commandStart j l q) s = .next ((s.setQueue j l q
            { x with entries := rest, flight := x.flight ++ [f], chain := chain, started := x.started + 1#16 }).anvEvent
              ((s.physOf l).getD 0) 7 1)) ∧
        (q < 10 → cKind c ≠ kVIEW → (List.range 4).all (waitHolds (s.ctx j l) c) = false →
          exec (.commandStart j l q) s = .next s) ∧
        (10 ≤ q → q ≤ 26 → s.jobState j = jRUNNING → s.up = true → x.sent = false → x.waived = 0 →
          (waitsHold (s.ctx j l) c = true →
            exec (.queueSend j l q) s = .next (s.setQueue j l q { x with sent := true })) ∧
          (waitsHold (s.ctx j l) c = false → exec (.queueSend j l q) s = .next s)) ∧
        (q = 26 → s.jobState j = jRUNNING → s.up = true → x.sent = true → s.domRuns dXWE = true →
          (x.held.length < 2 → exec (.destAccept j l q) s = .next (s.setQueue j l q
            { x with entries := rest, sent := false, held := x.held ++ [c], started := x.started + 1#16,
                     waived := x.waived - 1 })) ∧
          (2 ≤ x.held.length → exec (.destAccept j l q) s = .next s)) ∧
        (10 ≤ q → q < 26 → s.jobState j = jRUNNING → s.up = true → x.sent = true →
          s.domRuns (dMSC (q - 10)) = true → s.domRuns (dSIF (q - 10)) = true →
          (x.held.length < 2 → exec (.destAccept j l q) s = .next ((s.setQueue j l q
            { x with entries := rest, sent := false, held := x.held ++ [c], started := x.started + 1#16,
                     waived := x.waived - 1 }).noteDemandV (q - 10) j)) ∧
          (2 ≤ x.held.length → exec (.destAccept j l q) s = .next s))) ∧
  (∀ (s : State) (j l q : Nat) (c : List W64) (rest : List (List W64)),
      let x := s.queue j l q
      let v := cf c 0 51 48
      let start (r : State) : State := r.anvEvent ((s.physOf l).getD 0) 7 1
      (if q < 10 then x.entries = c :: rest else x.held = c :: rest) → q ≤ 26 → cKind c = kVIEW →
      s.jobState j = jRUNNING → s.up = true → x.halted = false →
      (2 ≤ q → q < 10 → s.flag (ANV_DMA_CTL.EN ((s.physOf l).getD 0) (q - 2)) = true) →
      commandOk c q l x.views x.chain (s.flag (LDR_JOB_ATTR.DET j)) = true →
        ∃ views, (∀ k, SMap.get 0#64 views k =
            if 8 * v ≤ k ∧ k < 8 * v + 8 then cw c (k - 8 * v) else SMap.get 0#64 x.views k) ∧
          exec (.view j l q) s = .next (
            if q < 10 then (start (s.setQueue j l q
              { x with entries := rest, started := x.started + 1#16, views := views })).reportCode j l q 0
            else if q < 26 then
              ((start (s.setQueue j l q { x with held := rest, views := views })).vrgEvent (q - 10) 6 1).reportCode j l q 0
            else (start (s.setQueue j l q { x with held := rest, views := views })).reportCode j l q 0))

/-- The oldest started command of a queue, once its work is done, leaves it, counts in CMD_SEQ, shows its code in
LAST_CODE, and adds the increments of its active signals to the tokens of its tile, both of them where they name one
token. A command whose work is not done signals nothing (R160, R243, R244, R276, R277). A started NOP completes with DONE. A started CFG writes its RWL fields under its mask always, and READ_AHEAD, held in
its range, only while the engine holds no other started command; otherwise it discards READ_AHEAD, sets CFG_REJECT and
completes with CFG_PARTIAL (R239, R272 - R274, R276). -/
def Obligations.CompletionSignals : Prop :=
  (∀ (s : State) (j l q beats : Nat) (f : Flight) (rest : List Flight),
      let x := s.queue j l q
      (∀ c tok, SMap.get 0#16 ((s.signalAll j l c).ctx j l).tok tok = SMap.get 0#16 (s.ctx j l).tok tok +
        (if cf c 0 52 52 = 1 ∧ cf c 0 31 24 = tok then BitVec.ofNat 16 (cf c 0 23 16) else 0#16) +
        (if cf c 0 53 53 = 1 ∧ cf c 0 47 40 = tok then BitVec.ofNat 16 (cf c 0 39 32) else 0#16)) ∧
      (x.flight = f :: rest → f.st ≠ .done → exec (.commandCompletion j l q beats) s = .next s) ∧
      (x.flight = f :: rest → f.st = .done → rest.all (fun g => g.st == .running || g.st == .done) = true →
        s.mayAct j q = true → s.jobState j = jRUNNING → q < 26 →
          let t := (s.physOf l).getD 0
          let r := s.setQueue j l q { x with flight := rest }
          exec (.commandCompletion j l q beats) s = .next (
            if q = 0 then
              ((r.bump (ANV_MXE_STATUS.CMD_SEQ t) 1).setF (ANV_MXE_STATUS.LAST_CODE t) f.code).signalAll j l f.cmd
            else if q = 1 then
              ((r.bump (ANV_VXE_STATUS.CMD_SEQ t) 1).setF (ANV_VXE_STATUS.LAST_CODE t) f.code).signalAll j l f.cmd
            else if q < 10 then
              ((r.bump (ANV_DMA_STATUS.CMD_SEQ t (q - 2)) 1).setF (ANV_DMA_STATUS.LAST_CODE t (q - 2)) f.code).signalAll
                j l f.cmd
            else
              (((r.bump (VRG_STATUS.CMD_SEQ (q - 10)) 1).setF (VRG_STATUS.LAST_CODE (q - 10)) f.code).debitV
                (q - 10) j beats).signalAll j l f.cmd))) ∧
  (∀ (s : State) (j l q n : Nat) (f : Flight),
      let x := s.queue j l q
      let done (code : Nat) : Flight := { f with st := .done, code := code }
      let may : Prop := s.mayAct j q = true ∧ (10 ≤ q → q < 26 → s.plain (q - 10) = false) ∧ (2 ≤ q → q < 10 → n = 0)
      let off := s.cfgOff j l q
      let mask := cw f.cmd 4
      let merged (m : W64) : W64 :=
        let w := (s.reg off &&& ~~~m) ||| (cw f.cmd 3 &&& m)
        let lo := if q = 0 then 8 else if q = 1 then 4 else 2
        let hi := if q = 0 then 32 else 16
        setFld w 15 8 (max lo (min hi (fld w 15 8)))
      (may → x.running (fun c => cKind c == kNOP) = some (n, f) →
        exec (.nop j l q) s = .next (s.setFlight j l q n (done 0))) ∧
      (may → x.running (fun c => cKind c == kCFG) = some (n, f) →
        (s.cfgBusy j l q = false →
          exec (.cfg j l q) s = .next ((s.setReg off (merged (mask &&& 0xFF80FF00#64))).setFlight j l q n (done 0))) ∧
        (s.cfgBusy j l q = true → mask &&& 0xFF00#64 = 0#64 →
          exec (.cfg j l q) s = .next ((s.setReg off (merged (mask &&& 0xFF800000#64))).setFlight j l q n (done 0))) ∧
        (s.cfgBusy j l q = true → mask &&& 0xFF00#64 ≠ 0#64 →
          let r := s.setReg off (merged (mask &&& 0xFF800000#64))
          exec (.cfg j l q) s = .next ((r.setReject ((r.physOf l).getD 0) q).setFlight j l q n (done 3)))))

/-- Each tile engine runs the first started command of its queue where it is of its kind, a DMA channel only as its
oldest: where the work ends in a code or in a fault
that halts a queue, the command is marked so, and the state is what the work has left; a fatal fault starts a compute
reset, and so does a parity error of the vector engine in a VOP or ATT (R158, R218, R243, R257 - R263, R425 - R451, R602). The
queue of an ATT that R497 halts is halted with it (that nothing restarts it is the model's reading, log entry 34). Where its
operands lie in ranges whose every access is served, the work of each kind ends in a code, and the command is done. -/
def Obligations.TileEnginesRunTheirCommand : Prop :=
  ∀ (s r : State) (j l ch n lo hi ro rhi : Nat) (f : Flight),
    let sv := vOf f.cmd f.views 3 63 60
    let dv := vOf f.cmd f.views 3 59 56
    let planes := cf f.cmd 3 41 38
    let runs (i : Instr) (q : Nat) (p : List W64 → Bool) (work : Eng → Flight → EM Nat) (end_ : State → State)
        (ready : Eng → Prop) : Prop :=
      s.mayAct j q = true → (s.queue j l q).running p = some (n, f) → (2 ≤ q → n = 0) →
        let e := engOf j l ((s.physOf l).getD 0) q f.cmd
        (ready e → ∃ code t, (work e f).go s = (.ok code, t) ∧
          exec i s = .next (end_ (t.setFlight j l q n { f with st := .done, code := code }))) ∧
        (State.worked j l q n f ((work e f).go s) = some r → exec i s = .next (end_ r)) ∧
        (∀ c g s', (work e f).go s = (.error (.fatal c g), s') →
          exec i s = .next (end_ ((s'.tileFault (s'.phys l) q).fatalFault c g)))
    let parity (i : Instr) (q : Nat) (p : List W64 → Bool) (end_ : State → State) : Prop :=
      s.mayAct j q = true → (s.queue j l q).running p = some (n, f) →
        let t := (s.physOf l).getD 0
        let u := s.anvUe t .vxe 3 0
        exec i s = .next (end_ ((u.tileFault (u.phys l) q).fatalFault 4 (u.anvRec t)))
    let copies (i : Instr) (m : Nat) (work : Eng → Flight → EM Nat) (ready : Eng → Prop) : Prop :=
      ch < 8 → s.flag (ANV_DMA_CTL.EN ((s.physOf l).getD 0) ch) = true →
        runs i (2 + ch) (fun c => cKind c == kDCOPY && dMode c == m) work id ready
    runs (.mmul j l) 0 (fun c => cKind c == kMMUL) (mmulWork j l) id (fun e => s.mmulReady j l e f lo hi) ∧
    runs (.att j l false) 0 (fun c => cKind c == kATT) attWork (fun r => r.attHalt j l) (fun e => s.attReady e f lo hi) ∧
    runs (.vop j l false) 1 (fun c => cKind c == kVOP) (vecWork .vxe (fun _ => 256)) id
      (fun e => s.vecReady (fun _ => 256) e f lo hi) ∧
    parity (.att j l true) 0 (fun c => cKind c == kATT) (fun r => r.attHalt j l) ∧
    parity (.vop j l true) 1 (fun c => cKind c == kVOP) id ∧
    copies (.copy j l ch) 0 (copyWork noLimit) (fun e => s.moveReady e f (sv.planes planes) (sv.planes planes) lo hi) ∧
    copies (.planeSplit j l ch) 1 (planeSplitWork noLimit) (fun e => s.moveReady e f 0 dv.fmt.bits lo hi) ∧
    copies (.planeMerge j l ch) 2 (planeMergeWork noLimit) (fun e => s.moveReady e f (sv.planes planes) 0 lo hi) ∧
    copies (.gather j l ch) 3 (fun e f => gatherWork noLimit e (dmaIdx f))
      (fun e => s.gatherReady e (dmaIdx f) lo hi ro rhi) ∧
    copies (.scatter j l ch) 4 (fun e f => scatterWork noLimit e (dmaIdx f))
      (fun e => s.scatterReady e (dmaIdx f) lo hi ro rhi) ∧
    copies (.scatterAcc j l ch) 5 (fun e f => accWork noLimit e (dmaIdx f)) (fun e => s.accReady e (dmaIdx f) ro rhi) ∧
    copies (.list j l ch) 6 (listWork noLimit) (fun e => s.listReady e f lo hi)

/-- Each Virga command runs on its stack's engine, as a tile command on its own; on a plain or retired engine it halts
with NO_ENGINE; an uncorrectable error of the engine is an engine fault, with a command or without one; and a corrected error
of its operand buffer is recorded and counted by event 14 (R191 - R222, R227, R232, R237, R243). Where its operands lie in
ranges whose every access is served, the work of each kind ends in a code, and the command is done. -/
def Obligations.VirgaEnginesRunTheirCommand : Prop :=
  ∀ (s r : State) (j l k n lo hi ro rhi : Nat) (f : Flight),
    let q := 10 + k
    let e := engOf j l ((s.physOf l).getD 0) q f.cmd
    let at_ (stack : Bool) (v : View) : Prop := s.misplaced k stack v = none
    let ix := vgsIdx f
    let runs (row : Option Nat → Instr) (p : List W64 → Bool) (work : Eng → Flight → EM Nat) (ready : Prop) : Prop :=
      let i := row none
      k < 16 →
       (s.plain k = false →
        (∀ ue, 2 ≤ ue → ue ≤ 7 → exec (row (some ue)) s = .next ((s.vrgBit k ue).vrgFault k)) ∧
        exec (row (some 1)) s = exec i ((s.vrgUe k 1).vrgEvent k 14 1)) ∧
       (s.mayAct j q = true → (s.queue j l q).running p = some (n, f) →
        (s.plain k = false → ready → ∃ code t, (work e f).go s = (.ok code, t) ∧
          exec i s = .next (t.setFlight j l q n { f with st := .done, code := code })) ∧
        (s.plain k = false → State.worked j l q n f ((work e f).go s) = some r → exec i s = .next r) ∧
        (s.plain k = true →
          exec i s = .next (s.setFlight j l q n { f with fault := some ⟨5, 0, 0, 0, 255⟩ })) ∧
        (∀ c g s', s.plain k = false → (work e f).go s = (.error (.fatal c g), s') → exec i s = .next (s'.fatalFault c g)))
    runs (.vmv j l k) (fun c => cKind c == kVMV) (vmvWork k) (s.vmvReady k e f lo hi ro rhi) ∧
    runs (.vatt j l k) (fun c => cKind c == kVATT) (vattWork k) (s.vattReady k e f lo hi ro rhi) ∧
    runs (.vkva j l k) (fun c => cKind c == kVKVA) (vkvaWork k) (s.vkvaReady k e f lo hi ro rhi) ∧
    runs (.vew j l k) (fun c => cKind c == kVEW) (vewWork k) (s.vewPlaced k f ∧ s.vecReady granuleElems e f lo hi) ∧
    runs (.vgsGather j l k) (vgsMode 0) (vgsGatherWork k)
      (at_ false ix.iv ∧ at_ true ix.sv ∧ at_ false ix.dv ∧ s.gatherReady e ix lo hi ro rhi) ∧
    runs (.vgsScatter j l k) (vgsMode 1) (vgsScatterWork k)
      (at_ false ix.iv ∧ at_ false ix.sv ∧ at_ true ix.dv ∧ s.scatterReady e ix lo hi ro rhi) ∧
    runs (.vgsScatterAcc j l k) (vgsMode 2) (vgsAccWork k) (at_ false ix.iv ∧ at_ false ix.sv ∧ s.accReady e ix ro rhi) ∧
    runs (.vamo j l k) (fun c => cKind c == kVAMO) (vamoWork k) (s.vamoReady k e f ro rhi) ∧
    runs (.slotClear j l k) (vslotMode 0) (slotClearWork k) (s.slotReady k e f) ∧
    runs (.slotFinalise j l k) (vslotMode 1) (slotFinaliseWork k)
      (s.slotReady k e f ∧ s.slotView k e f (resultIx f) lo hi) ∧
    runs (.slotSave j l k) (vslotMode 2) (slotSaveWork k) (s.slotReady k e f ∧ s.slotView k e f (imagesIx f) lo hi) ∧
    runs (.slotLoad j l k) (vslotMode 3) (slotLoadWork k) (s.slotReady k e f ∧ s.slotView k e f (imagesIx f) lo hi) ∧
    runs (.slotCombine j l k) (vslotMode 4) (slotCombineWork k)
      (s.slotReady k e f ∧ s.slotView k e f (imagesIx f) lo hi)

/-- An FOP whose node is reached hands its frames to the endpoint: a READ runs on until its data has come, and any other
FOP is done; an FOP to the own node has its effect at once; and a failure halts its queue (R21, R669 - R674). A READ or a
SIGNAL to a node that is reached runs, and so does any other FOP whose view lies in a range whose every access is served. -/
def Obligations.FabricCommandsRun : Prop :=
  ∀ (s s1 s2 : State) (j l n op lo hi : Nat) (f : Flight) (fs : List Frame) (h : HaltRec) (i : Instr),
    (op, i) ∈ [(0, (.fopRead j l : Instr)), (1, .fopWrite j l), (2, .fopAtomic j l), (3, .fopSignal j l),
      (4, .fopCombine j l)] →
    let e := engOf j l ((s.physOf l).getD 0) 26 f.cmd
    let own : Prop := cf f.cmd 3 56 42 = s.node
    let lv := vOf f.cmd f.views 3 60 57
    let ready : Prop := op = 0 ∨ op = 3 ∨ (s.calm e.who false lo hi = true ∧ lv.within lv.fmt.bits lo hi lv.cells = true)
    s.mayAct j 26 = true → s.flag XWF_CTL.EN = true → s.domRuns dXWE = true → (s.queue j l 26).freshFop op = some (n, f) →
      (¬own → cf f.cmd 3 56 42 ≠ 0x7FFF → s.routes (cf f.cmd 3 56 42) ≠ [] → ready →
        ∃ fs t, (fopPrepare e f).go s = (.ok fs, t) ∧ exec i s = .next (t.issueFop j l n f fs)) ∧
      (¬own → (fopPrepare e f).go s = (.ok fs, s1) → exec i s = .next (s1.issueFop j l n f fs)) ∧
      (own → (fopPrepare e f).go s = (.ok fs, s1) →
        (serveOwn e (vOf f.cmd f.views 3 60 57) (cf f.cmd 4 47 0) fs).go s1 = (.ok (), s2) →
        exec i s = .next ((s2.setFlight j l 26 n { f with st := .done, code := 0 }).readEnded j op)) ∧
      ((fopPrepare e f).go s = (.error (.halt h), s1) →
        exec i s = .next ((s1.setFlight j l 26 n { f with fault := some h }).readEnded j op))

/-- A command that met a fault halts its queue: the halted command signals nothing and stays, the latch of the pushing
tile holds the halt, LAST_CODE shows 0x10 + REASON, and a record is written (R218, R219, R450 - R452, R674). Here for a
job whose tiles are loaded and a REASON that is not fatal. -/
def Obligations.FaultsHaltTheirQueue : Prop :=
  ∀ (s : State) (j l n ch t i : Nat) (f : Flight) (h : HaltRec),
    let halted (q : Nat) : State := s.setQueue j l q
      { s.queue j l q with flight := listSet (s.queue j l q).flight i { f with st := .halted, fault := none },
                           halted := true }
    let meets (q : Nat) : Prop := s.mayAct j q = true ∧ s.jobState j = jRUNNING ∧ s.physOf l = some t ∧
      (s.queue j l q).faulted = some (i, f, h) ∧ h.reason ≠ 1
    (n < 16 → meets (10 + n) → s.flag (VRG_HALT_INFO.VALID n t) = false →
      let w := setFld (setFld (setFld (setFld (setFld 0#64 63 63 1) 55 48 h.reason) 47 46 h.dir) 45 40 (cKind f.cmd))
        39 0 h.entry
      let r := (((halted (10 + n)).setReg (VRG_HALT_INFO.at n t) (setFld w 61 61 (s.f (VRG_HALT_INFO.SKIP_SIGNAL n t)))).setReg
        (VRG_HALT_ADDR.at n t) (setFld 0#64 47 0 h.addr)).setF (VRG_STATUS.LAST_CODE n) (0x10 + h.reason)
      exec (.vrgHalt j l n) s = .next ((r.vrgEvent n 11 1).erq ⟨0x18, 2, bVRG, n, some j, h.addr % 2 ^ 48, w⟩)) ∧
    (ch < 8 → meets (2 + ch) → s.flag (ANV_DMA_HALT_INFO.VALID t ch) = false →
      let w := setFld (setFld (setFld (setFld (setFld 0#64 63 63 1) 55 48 h.reason) 47 46 h.dir) 45 42 (cf f.cmd 3 51 48))
        39 0 h.entry
      let r := (((halted (2 + ch)).setReg (ANV_DMA_HALT_INFO.at t ch)
        (setFld w 60 60 (s.f (ANV_DMA_HALT_INFO.SKIP_SIGNAL t ch)))).setReg (ANV_DMA_HALT_ADDR.at t ch)
        (setFld (setFld 0#64 63 56 h.tile) 47 0 h.addr)).setF (ANV_DMA_STATUS.LAST_CODE t ch) (0x10 + h.reason)
      exec (.dmaHalt j l ch) s = .next (r.erq ⟨0x1A, 2, bANV, t, some j, h.addr % 2 ^ 48, setFld w 58 56 ch⟩)) ∧
    (meets 26 → s.flag (XWF_HALT_INFO.VALID t) = false →
      let w := xwfInfo h.reason h.dir (cf f.cmd 3 63 61) (cf f.cmd 3 56 42) false
      let r := (((halted 26).setReg (XWF_HALT_INFO.at t) (setFld w 61 61 (s.f (XWF_HALT_INFO.SKIP_SIGNAL t)))).setReg
        (XWF_HALT_ADDR.at t) (setFld 0#64 47 0 h.addr)).setF (XWF_FQSTAT.LAST_CODE t) (0x10 + h.reason)
      exec (.xwfHalt j l) s = .next (r.erq ⟨0x92, 2, bXWF, t, some j, h.addr % 2 ^ 48, w⟩))

/-- RESUME clears VALID and lets the queue go on after the halted command, whose tokens are signalled when SKIP_SIGNAL
holds 1; SKIP_SIGNAL is stored by every write, and RESUME with VALID 0 does nothing else. RETRY starts a halted DMA
command again. Clearing EN of an idle channel stops further starts, and DISABLED is set once nothing is outstanding
(R220, R453, R455, R675). -/
def Obligations.HaltedQueuesGoOn : Prop :=
  ∀ (s : State) (by_ : Agent) (n t ch written : Nat) (skip : Bool),
    let j := s.jobOf t
    let l := s.ltile t
    (n < 16 → t < 200 → s.accepts by_ (VRG_HALT_INFO.at n t) = true →
      let r := s.setFlag (VRG_HALT_INFO.SKIP_SIGNAL n t) skip
      exec (.vrgResume by_ n t skip) s = .next (if s.flag (VRG_HALT_INFO.VALID n t) then
        (r.setFlag (VRG_HALT_INFO.VALID n t) false).giveUp j l (10 + n) skip else r)) ∧
    (t < 200 → s.accepts by_ (XWF_HALT_INFO.at t) = true →
      let r := s.setFlag (XWF_HALT_INFO.SKIP_SIGNAL t) skip
      s.flag (XWF_HALT_INFO.LATE t) = false →
      exec (.xwfResume by_ t skip) s = .next (if s.flag (XWF_HALT_INFO.VALID t) then
        (r.setFlag (XWF_HALT_INFO.VALID t) false).giveUp j l 26 skip else r)) ∧
    (t < 200 → ch < 8 → s.accepts by_ (ANV_DMA_HALT_INFO.at t ch) = true →
      let q := 2 + ch
      let r := s.setFlag (ANV_DMA_HALT_INFO.SKIP_SIGNAL t ch) skip
      let ready : Prop := s.flag (ANV_DMA_HALT_INFO.VALID t ch) = true ∧ s.flag (ANV_DMA_CTL.EN t ch) = true ∧
        2 ≤ s.f (ANV_DMA_HALT_INFO.REASON t ch) ∧ s.f (ANV_DMA_HALT_INFO.REASON t ch) ≤ 6
      let v := r.setFlag (ANV_DMA_HALT_INFO.VALID t ch) false
      (ready → exec (.dmaResume by_ t ch skip) s = .next (v.giveUp j l q skip) ∧
        exec (.dmaRetry by_ t ch skip) s = .next (v.setQueue j l q { v.queue j l q with
          flight := (v.queue j l q).flight.map (fun f => if f.st = .halted then { f with st := .running } else f),
          halted := false })) ∧
      (¬ready → exec (.dmaResume by_ t ch skip) s = .next r ∧ exec (.dmaRetry by_ t ch skip) s = .next r)) ∧
    (t < 200 → ch < 8 → s.accepts by_ (ANV_DMA_CTL.at t ch) = true → s.flag (ANV_DMA_CTL.EN t ch) = true →
      (s.queue j l (2 + ch)).flight = [] →
      exec (.dmaDisable by_ t ch written) s = .next (s.setFlag (ANV_DMA_CTL.EN t ch) false)) ∧
    (t < 200 → ch < 8 → s.flag (ANV_DMA_CTL.EN t ch) = false →
      ((s.tile t).queue (2 + ch)).flight.all (fun f => f.st != .running || f.fault.isSome) = true →
      exec (.dmaDisabled t ch) s = .next (s.setFlag (ANV_DMA_STATUS.DISABLED t ch) true))

/-! ## Adders and slots (R75, R81 - R87, R205 - R216) -/

/-- An operation on an aligned element of stack memory, at an engine that computes, replaces the element by its result in
one step. For INT32 and INT64 the result wraps in the add, is the signed minimum or maximum, and is the operand of a
compare-and-swap only where the element equals the compare value (R81, R205, R206). It does so wherever the element lies in
a range whose every access is served. -/
def Obligations.AddersReplaceTheirElement : Prop :=
  (∀ (s s1 s2 : State) (addr : Nat) (aop : BitVec 2) (fmtc : BitVec 5) (x cmp : W64) (f : Fmt) (bs : List Byte),
    Fmt.ofCode fmtc.toNat = some f → adderHas f aop.toNat = true → addr % (f.bits / 8) = 0 → s.region addr = .stack →
    s.plain (addr / s.stackBytes) = false →
    (directRead ⟨.fabric, none, 255, some 6⟩ addr (f.bits / 8)).go s = (.ok bs, s1) →
    (rawWrite ⟨.fabric, none, 255, some 6⟩ addr
      (leBytes (f.bits / 8) (adderNew f aop.toNat (leNat bs) x.toNat cmp.toNat))).go s1 = (.ok (), s2) →
    exec (.adderOperation addr aop fmtc x cmp) s = .next (s2.vrgEvent (addr / s2.stackBytes) 7 1)) ∧
  (∀ (s : State) (addr lo hi : Nat) (aop : BitVec 2) (fmtc : BitVec 5) (x cmp : W64) (f : Fmt),
    let w : Who := ⟨.fabric, none, 255, some 6⟩
    let n := f.bits / 8
    Fmt.ofCode fmtc.toNat = some f → adderHas f aop.toNat = true → addr % n = 0 → s.region addr = .stack →
    s.plain (addr / s.stackBytes) = false → s.calm w true lo hi = true → lo ≤ addr → addr + n ≤ hi →
    ∃ r, (rawWrite w addr (leBytes n (adderNew f aop.toNat (s.natAt w addr n) x.toNat cmp.toNat))).go s = (.ok (), r) ∧
      exec (.adderOperation addr aop fmtc x cmp) s = .next (r.vrgEvent (addr / r.stackBytes) 7 1)) ∧
  (∀ (w : Nat) (f : Fmt) (v c e : BitVec w), (f, w) ∈ [(.int32, 32), (.int64, 64)] →
    adderNew f 0 v.toNat c.toNat e.toNat = (v + c).toNat ∧
    adderNew f 1 v.toNat c.toNat e.toNat = (if v.sle c then v else c).toNat ∧
    adderNew f 2 v.toNat c.toNat e.toNat = (if v.sle c then c else v).toNat ∧
    adderNew f 3 v.toNat c.toNat e.toNat = (if v = e then c else v).toNat)

/-- A contribution in a format that slots accept changes its slot by one addition and no other slot. Contributions give
one result in either order, and so do combinations; an image holds all of its slot (R82, R84, R85, R87). -/
def Obligations.SlotsAddInAnyOrder : Prop :=
  (∀ (s : State) (n slot : Nat) (fmtc : BitVec 5) (x : W32) (f : Fmt),
    Fmt.ofCode fmtc.toNat = some f → f.isWide = true → n < 16 → slot < 65536 → s.plain n = false →
      ∃ t, exec (.slotContribution n slot fmtc x) s = .next t ∧
        ∀ m k, m < 16 → k < 65536 → t.slot m k =
          if m = n ∧ k = slot then (s.slot n slot).add (f.decode (x.toNat % 2 ^ f.bits)) else s.slot m k) ∧
  (∀ (x : Slot) (u v : FVal), (x.add u).add v = (x.add v).add u) ∧
  (∀ x y z : Slot, x.combine y = y.combine x ∧ (x.combine y).combine z = x.combine (y.combine z)) ∧
  (∀ x : Slot, x.image.length = 48 ∧ Slot.ofImage x.image = x)

/-! ## Memory (chapters 8 and 9) -/

/-- Accesses from outside the commands of a queue end as their path gives them: a read of a stack granule, a write of
bytes of one stack page, an access at the far port of its decoder, and a job's access of a granule that Cloudbank caches
(R352 - R354, R361, R395, R399). They do end where the stack memory serves every access, where the far port is live and its
domains run and nothing is poisoned, and where the line holds the granule and no wrong bit. -/
def Obligations.MemoryAccessesEnd : Prop :=
  ∀ (s t : State) (who : Requester) (j addr lo hi p : Nat) (bytes bs : List Byte),
    let w := reqWho who j
    let g := addr / 64 * 64
    let tdma : Who := ⟨.tdma, some j, 255, some 5⟩
    let line := s.line j (addr / 256)
    let n := bytes.length
    (s.region addr = .stack →
      (s.calm w false lo hi = true → lo ≤ g → g + 64 ≤ hi →
        (directRead w g 64).go s = (.ok (s.bytesAt w g 64), s) ∧ exec (.stackRead who j addr) s = .next s) ∧
      (s.calm (reqWho who 0) true lo hi = true → lo ≤ addr → addr < hi → addr % 4096 + n ≤ 4096 →
        ∃ r, (rawWrite (reqWho who 0) addr bytes).go s = (.ok (), r) ∧ exec (.stackWrite who addr bytes) s = .next r)) ∧
    (s.region addr = .far → addr % 64 + n ≤ 64 → (s.farDoms addr).all s.domRuns = true → s.farLive addr = some p →
      let left := s.farPoison.filter (fun g => !(decide (addr ≤ 64 * g) && decide (64 * g + 64 ≤ addr + n)))
      exec (.farAccess addr bytes true) s = .next { s with far := Bytes.wrList s.far addr bytes, farPoison := left } ∧
      (s.farPoison = [] → exec (.farAccess addr bytes false) s = .next s)) ∧
    (n = 64 ∨ line.valid.toNat.testBit (addr / 64 % 4) = true → bytes ≠ [] → addr % 64 + n ≤ 64 → s.up = true →
      (s.cached tdma addr n).isSome = true → line.valid ≠ 0#4 → line.bad = 0#4 → line.weak = 0#32 →
      (s.segOk j addr n true = true → ∃ r, (cachedWrite tdma j addr bytes).go s = (.ok (), r) ∧
        exec (.cacheAccess j addr bytes true) s = .next r) ∧
      (s.segOk j addr n false = true → line.valid.toNat.testBit (addr / 64 % 4) = true →
        ∃ r, (cachedRead tdma j addr n).go s = (.ok (Bytes.rdList line.data (addr % 256) n), r) ∧
        exec (.cacheAccess j addr bytes false) s = .next r)) ∧
    (s.region addr = .stack →
      (directRead (reqWho who j) (addr / 64 * 64) 64).go s = (.ok bs, t) → exec (.stackRead who j addr) s = .next t) ∧
    (s.region addr = .stack → addr % 4096 + bytes.length ≤ 4096 →
      (rawWrite (reqWho who 0) addr bytes).go s = (.ok (), t) → exec (.stackWrite who addr bytes) s = .next t) ∧
    (s.region addr = .far → addr % 64 + bytes.length ≤ 64 →
      ((farWrite addr bytes).go s = (.ok (), t) → exec (.farAccess addr bytes true) s = .next t) ∧
      ((farRead addr bytes.length).go s = (.ok bs, t) → exec (.farAccess addr bytes false) s = .next t)) ∧
    (bytes ≠ [] → addr % 64 + bytes.length ≤ 64 → s.up = true →
      (s.cached ⟨.tdma, some j, 255, some 5⟩ addr bytes.length).isSome = true →
      (s.segOk j addr bytes.length true = true → (cachedWrite ⟨.tdma, some j, 255, some 5⟩ j addr bytes).go s = (.ok (), t) →
        exec (.cacheAccess j addr bytes true) s = .next t) ∧
      (s.segOk j addr bytes.length false = true →
        (cachedRead ⟨.tdma, some j, 255, some 5⟩ j addr bytes.length).go s = (.ok bs, t) →
        exec (.cacheAccess j addr bytes false) s = .next t))

/-- What the merge buffer takes is read back: a write inside one page of a channel that has room is in the page's entry,
and every byte written reads as written. An idle entry starts its write-back outside a write hold, and an entry whose
write-back has started or that is full is written back (R378, R398 - R401, R403). -/
def Obligations.MergeBufferHoldsWrites : Prop :=
  (∀ (s : State) (gp off : Nat) (bs : List Byte), s.paused gp = false → bs ≠ [] →
    (s.mergeBuf (s.gchan gp)).length < 16 →
      ∃ t, s.writePage gp off bs = some t ∧ (t.readPage gp off bs.length) = (.ok bs, t) ∧
        t.pages = s.pages ∧ t.blank = s.blank ∧ t.reserve = s.reserve ∧ t.regs = s.regs) ∧
  (∀ (s : State) (n c page : Nat) (e : MergeEntry), s.whold n = false → s.domRuns (dMSC n) = true →
    (s.mergeBuf (32 * n + c)).find? (fun e => e.page == page) = some e →
      exec (.mergeIdleTimeout n c page) s = .next (s.setMergeBuf (32 * n + c)
        ((s.mergeBuf (32 * n + c)).map (fun e => if e.page = page then { e with wb := true } else e))) ∧
      (s.paused page = false → e.wb = true ∨ e.mask = 2 ^ 4096 - 1 →
        exec (.mergeWriteback n c page) s = .next (s.writeBackEntry e)))

/-- The page of index j of channel c is the page that H512 sends to channel c, and every page of a stack has one such
place (R339, R340). -/
def Obligations.PagesSpreadOverChannels : Prop :=
  (∀ c j, c < 32 → h512 (pageAt c j) = c ∧ pageAt c j / 32 = j) ∧
  (∀ p, h512 p < 32 ∧ pageAt (h512 p) (p / 32) = p)

/-- Link CRC errors are counted, and a channel whose count reaches 256 since its last training retrains (R369, R387). A
channel retrains at once, or waits in channel order while another channel of its stack retrains; an
attempt that succeeds makes the channel ready, and the third failure in a row makes it FAILED, with its migration due
(R369 - R371, R385). -/
def Obligations.ChannelsRetrain : Prop :=
  ∀ (s : State) (by_ : Agent) (n : Nat) (c : BitVec 5),
    let ch := c.toNat
    let begins (x : State) : Prop := x.f (MSC_CH_STATUS.STATE n ch) = 1 ∧ x.f (MSC_CH_STATUS.FAILS n ch) = 0 ∧
      x.flag (MSC_STATUS.RETRAINING n) = true ∧ x.f (MSC_STATUS.RT_CH n) = ch
    let asks (i : Instr) (r : State) : Prop := ∃ t, exec i s = .next t ∧
      (s.flag (MSC_STATUS.RETRAINING n) = false → begins t) ∧
      (s.flag (MSC_STATUS.RETRAINING n) = true → s.f (MSC_STATUS.RT_CH n) ≠ ch →
        t = r.setRetrains n (addNum (s.retrains n) ch)) ∧
      (s.flag (MSC_STATUS.RETRAINING n) = true → s.f (MSC_STATUS.RT_CH n) = ch → t = r)
    n < 16 →
      (∀ k, let crc := s.f (MSC_CH_STATUS.LINK_CRC n ch)
        let r := s.setF (MSC_CH_STATUS.LINK_CRC n ch) (min (2 ^ 16 - 1) (crc + k))
        (crc < 256 → 256 ≤ crc + k → asks (.linkCrcLimit n ch k) r) ∧
        (256 ≤ crc ∨ crc + k < 256 → exec (.linkCrcLimit n ch k) s = .next r)) ∧
      asks (.dramTemperatureMove n ch) s ∧
      (s.accepts by_ (MSC_RETRAIN.at n) = true → asks (.mscRetrainGo by_ n c) s) ∧
      (s.flag (MSC_STATUS.RETRAINING n) = true → s.f (MSC_STATUS.RT_CH n) = ch → s.retrains n = [] →
        (∃ t, exec (.retrainAttemptEnd n true) s = .next t ∧ t.f (MSC_CH_STATUS.STATE n ch) = 0 ∧
          t.f (MSC_CH_STATUS.FAILS n ch) = 0 ∧ t.f (MSC_CH_STATUS.LINK_CRC n ch) = 0 ∧
          t.f (MSC_CH_STATUS.TRAINS n ch) = (s.f (MSC_CH_STATUS.TRAINS n ch) + 1) % 2 ^ 16 ∧
          t.flag (MSC_STATUS.RETRAINING n) = false) ∧
        (s.f (MSC_CH_STATUS.FAILS n ch) < 2 →
          exec (.retrainAttemptEnd n false) s = .next (s.setF (MSC_CH_STATUS.FAILS n ch)
            (s.f (MSC_CH_STATUS.FAILS n ch) + 1))) ∧
        (s.f (MSC_CH_STATUS.FAILS n ch) = 2 →
          ∃ t, exec (.retrainAttemptEnd n false) s = .next t ∧ t.f (MSC_CH_STATUS.STATE n ch) = 2 ∧
            t.flag (MSC_STATUS.FAILED_ANY n) = true ∧ t.flag (MSC_STATUS.RETRAINING n) = false ∧
            ((2, 32 * n + ch) ∈ t.svcDue ∨ t.svc = some (2, 32 * n + ch))))

/-- A refresh keeps what the bank holds; a die outside its window begins a write hold and one that all dies have left by
3 degrees ends it, each with its record; the scrubber and the copier take the next page of their channel and extent; and
a flit whose four attempts fail is an uncorrectable error of its tile, or of another block that receives it (R172, R366, R374 - R380, R413 - R416). -/
def Obligations.MemoryIsMaintained : Prop :=
  ∀ (s : State) (n c bank lapMs badCrcs t : Nat) (tmin tmax : BitVec 8),
    exec (.refresh n c bank) s = .next s ∧
    (s.whold n = false → tmin.toInt < s.signed (MSC_TEMP.WIN_LO n) ∨ s.signed (MSC_TEMP.WIN_HI n) < tmax.toInt →
      exec (.writeHoldBegin n tmin tmax) s =
        .next ((s.setFlag (MSC_TEMP.WHOLD n) true).erq ⟨0x08, 0, bMSC, n, none, 0, 1#64⟩)) ∧
    (s.whold n = true → s.signed (MSC_TEMP.WIN_LO n) + 3 ≤ tmin.toInt →
      tmax.toInt ≤ s.signed (MSC_TEMP.WIN_HI n) - 3 →
      exec (.writeHoldEnd n tmin tmax) s =
        .next ((s.setFlag (MSC_TEMP.WHOLD n) false).erq ⟨0x08, 0, bMSC, n, none, 0, 0#64⟩)) ∧
    (let j := SMap.get 0 s.scrubAt (32 * n + c)
     let gp := s.stackPages * n + pageAt c j
     let goes (r : State) : Prop :=
       let moved := { r with scrubAt := SMap.put 0 r.scrubAt (32 * n + c) (j + 1) }
       exec (.scrubPage n c lapMs) s = .next
         (if (List.range 32).all (fun d => moved.scrubPos n d == s.stackPages / 32) then moved.endLap n lapMs else moved)
     n < 16 → c < 32 → s.flag (MSC_SCRUB_CTL.EN n) = true → j < s.stackPages / 32 → s.domRuns (dMSC n) = true →
       s.f (MSC_CH_STATUS.STATE n c) ≠ 1 →
       (∀ r, s.paused gp = false → s.scrubOne gp = some r → goes r) ∧ (s.pageCalm false gp = true → goes s)) ∧
    exec (.scrubTargetExpiry n) s = .next { s with lapLate := addNum s.lapLate n } ∧
    (let i := s.f (MSC_COPY.ENTRY n)
     let w := s.reg (MSC_REDIR.at n i)
     let cp := s.f (MSC_COPY.CP n)
     let gp := s.stackPages * n + pageAt (fld w 56 52) (fld w 51 32 + cp)
     s.flag (MSC_COPY.ACTIVE n) = true → s.whold n = false → s.domRuns (dMSC n) = true → s.paused gp = false →
     s.f (MSC_CH_STATUS.STATE n (fld w 31 27)) ≠ 1 → (s.mergeBuf (32 * n + fld w 31 27)).length < 16 →
     cp + 1 ≠ 2 ^ fld w 60 57 →
       let r := (s.copyOf gp).2
       let m := SMap.put Page.zero r.reserve (reserveKey n (fld w 31 27) (fld w 26 12 + cp)) (s.copyOf gp).1
       exec (.copyPage n) s = .next ({ r with reserve := m }.setF (MSC_COPY.CP n) (cp + 1))) ∧
    (∀ block, badCrcs < 4 → exec (.flitReceive block t badCrcs) s = .next s) ∧
    (4 ≤ badCrcs → let u := s.anvUe t .net 7 0
      exec (.flitReceive bANV t badCrcs) s = .next ((u.tileFault t 0).fatalFault 4 (u.anvRec t))) ∧
    (∀ block, 4 ≤ badCrcs → block ≠ bANV → exec (.flitReceive block t badCrcs) s = .next (s.fatalFault 4
      ⟨(Config.lostFlitType block).toNat, 3, block, t, none, 0, Config.lostFlitDetail block⟩))

/-- Every record takes the next SEQ. While the queue has room it goes to slot PROD mod 64 and PROD rises; while the
queue holds 64 records it is counted in ERQ_LOST and the queue stays; a record of SEV 3 is latched in ERQ_FATAL while
FVALID is 0. CONS moves only to values up to PROD (R417 - R419, R423). -/
def Obligations.ErrorRecordQueue : Prop :=
  (∀ (s : State) (r : ErqRec) (joined : Bool), s.zenLost = false → s.zenRestart = false →
    let t := s.erq r joined
    let ws := erqWords s s.erqSeq r joined
    let n := (s.f ERQ_PROD.PROD + 2 ^ 32 - s.f ERQ_CONS.CONS) % 2 ^ 32
    let p := s.f ERQ_PROD.PROD
    t.erqSeq = s.erqSeq + 1#32 ∧ t.f ERQ_CONS.CONS = s.f ERQ_CONS.CONS ∧
    (n ≠ 64 → t.f ERQ_PROD.PROD = (p + 1) % 2 ^ 32 ∧ t.reg ERQ_LOST.at = s.reg ERQ_LOST.at ∧
      ∀ i k, i < 64 → k < 4 → t.reg (ERQ_REC.at i k) = if i = p % 64 then ws.getD k 0#64 else s.reg (ERQ_REC.at i k)) ∧
    (n = 64 → t.f ERQ_PROD.PROD = p ∧ t.reg ERQ_LOST.at = s.reg ERQ_LOST.at + 1#64 ∧
      ∀ i k, i < 64 → k < 4 → t.reg (ERQ_REC.at i k) = s.reg (ERQ_REC.at i k)) ∧
    (∀ k, k < 4 → t.reg (ERQ_FATAL.at k) =
      if r.sev = 3 ∧ s.flag ERQ_FATAL_V.FVALID = false then ws.getD k 0#64 else s.reg (ERQ_FATAL.at k))) ∧
  (∀ (s : State) (by_ : Agent) (v : W32), s.accepts by_ ERQ_CONS.at = true → (by_ = .mc → s.dylUp = false) →
    let ahead (x : Nat) : Nat := (x + 2 ^ 32 - s.f ERQ_CONS.CONS) % 2 ^ 32
    exec (.erqConsume by_ v) s = .next
      (if ahead v.toNat ≤ ahead (s.f ERQ_PROD.PROD) then s.setF ERQ_CONS.CONS v.toNat else s))

/-- A fatal fault begins a compute reset: tiles, saved contexts, slots, cache and Cloudbank scratch are empty, and the
queue of commands stays. During it, further fatal faults only join it with their records. Its end, once the result records
of every serving job are written, leaves no job resident and no tile loaded, and counts in EQX_RESETS (R422, R546, R603,
R604). -/
def Obligations.ComputeReset : Prop :=
  (∀ (s : State) (cause : Nat) (r : ErqRec), s.resetSeq = none →
    let t := s.fatalFault cause r
    t.resetSeq.isSome = true ∧ t.tiles = [] ∧ t.saved = [] ∧ t.slots = [] ∧ t.cache = [] ∧ t.scratch = [] ∧
    t.parked = [] ∧ t.pending = s.pending) ∧
  (∀ (s : State) (cause : Nat) (r : ErqRec), s.resetSeq.isSome = true →
    s.fatalFault cause r = s.erq { r with sev := 3 } true) ∧
  (∀ s : State, Memory.wf s = true → s.zenUp = true → s.resetSeq.isSome = true →
    (jobList.all (fun j => !s.serving j) = true →
      ∃ t, exec .resetDone s = .next t ∧ t.resetSeq = none ∧ (∀ j, j < 64 → t.jobState j = jNONE) ∧
        (∀ k, k < 200 → t.loaded k = false) ∧ t.f EQX_RESETS.COUNT = (s.f EQX_RESETS.COUNT + 1) % 2 ^ 32 ∧
        (∀ k, k < 200 → t.tile k = s.tile k) ∧ t.pages = s.pages ∧ t.blank = s.blank ∧ t.far = s.far) ∧
    (jobList.any s.endAllLost.serving = true → exec .resetDone s = .next s.endAllLost))

/-! ## Scheduling and jobs (chapter 15) -/

/-- At the end of a round every job that had demand in the pool is credited floor(L x SHARE / sum of SHARE), over the jobs
with demand that conflict with it or, in a stack pool, over all with demand there, and its balance is capped at 4 x L; no
other balance moves; and the SHARE values written come into force (R584, R585). Work not debited yet is debited first. -/
def Obligations.RoundsCreditJobs : Prop :=
  ∀ (s : State) (n : Nat) (debits : List (Nat × Nat)),
    let r := debits.foldl (fun s d => if d.1 < 64 then s.debitT d.1 d.2 else s) s
    let v := debits.foldl (fun s d => if d.1 < 64 then s.debitV n d.1 d.2 else s) s
    let jv := (v.demV.filter (fun k => k / 64 == n)).map (fun k => k % 64)
    let fits (b : Int) : Prop := -2 ^ 63 ≤ b ∧ b < 2 ^ 63
    (r.demT.Nodup → (∀ j ∈ r.demT, j < 64) →
      ∃ t, exec (.tileRoundEnd debits) s = .next t ∧ ∀ j, j < 64 →
        let sum := ((r.demT.filter (fun k => k == j || r.conflict j k)).map r.shareInT).sum
        let credit := if sum = 0 then 0 else 2 ^ r.f EQX_CTL.ROUND_T_LOG2 * r.shareInT j / sum
        let new := min (r.balT j + credit) (4 * 2 ^ r.f EQX_CTL.ROUND_T_LOG2)
        (j ∈ r.demT → fits new → t.balT j = new) ∧ (j ∉ r.demT → t.balT j = r.balT j) ∧
        t.shareInT j = s.share j) ∧
    (n < 16 → jv.Nodup →
      ∃ t, exec (.stackRoundEnd n debits) s = .next t ∧ ∀ j, j < 64 →
        let sum := (jv.map (v.shareInV n)).sum
        let credit := if sum = 0 then 0 else 2 ^ v.f EQX_CTL.ROUND_V_LOG2 * v.shareInV n j / sum
        let new := min (v.balV n j + credit) (4 * 2 ^ v.f EQX_CTL.ROUND_V_LOG2)
        (j ∈ jv → fits new → t.balV n j = new) ∧ (j ∉ jv → t.balV n j = v.balV n j) ∧
        t.shareInV n j = s.share j)

/-- The end of a slice debits its beats, and pre-empts a job that is held or that a conflicting job displaces; an idle
set is pre-empted and parked while a conflicting job has demand; HOLD is stored and ends parking (R583, R587, R589,
R598). A job ends when every tile has ended, its commands have completed and its write-backs are done, or on the companion's
request; it is then ENDING until its started remote commands and reads are done, when its record and message are
written and STATE becomes NONE (R599 - R601, R646). The end of a job that serves no requests and left nothing unwritten in
the cache completes. -/
def Obligations.JobsTakeTurnsAndEnd : Prop :=
  (∀ (s : State) (by_ : Agent) (j beats : Nat),
      let r := s.debitT j beats
      (s.jobState j = jRUNNING → s.up = true →
        ((r.flag (EQX_JOB_CTL.HOLD j) || r.svcHolds j || r.waiting.any (fun k => r.conflict j k)) = true →
          exec (.sliceEnd j beats) s = .next (r.startSave j)) ∧
        ((r.flag (EQX_JOB_CTL.HOLD j) || r.svcHolds j || r.waiting.any (fun k => r.conflict j k)) = false →
          (r.rival j = none → exec (.sliceEnd j beats) s = .next r) ∧
          (∀ k, r.rival j = some k →
            exec (.sliceEnd j beats) s = .next ({ r with chosen := r.waiting ++ [k] }.startSave j))) ∧
        (s.setIdle j = true → jobList.any (fun k => s.conflict j k && s.wants k) = true →
          let u := r.startSave j
          exec (.idlePreempt j beats) s = .next { u with parked := addNum u.parked j })) ∧
      (j < 64 → s.jobState j = jRUNNING → (s.startSave j).jobState j = jSAVING) ∧
      (j < 64 → s.accepts by_ (EQX_JOB_CTL.at j) = true →
        exec (.jobHold by_ j) s = .next ((s.setFlag (EQX_JOB_CTL.HOLD j) true).unpark j).noteDemandT)) ∧
  (∀ (s r : State) (by_ : Agent) (j : Nat) (hold : Bool), j < 64 →
      (s.accepts by_ (EQX_JOB_CTL.at j) = true →
        (s.jobState j = jNONE ∨ s.jobState j = jENDING →
          exec (.jobEndRequest by_ j hold) s = .next (s.writeHold j hold)) ∧
        (s.jobState j = jRUNNING ∨ s.jobState j = jSAVED →
          ∃ t, exec (.jobEndRequest by_ j hold) s = .next t ∧ t.jobState j = jENDING)) ∧
      (s.jobState j = jRUNNING ∨ s.jobState j = jSAVED → s.jobFinished j = true → s.up = true →
        EM.go (do
          flushCache j
          endRequests j) s = (.ok (), r) →
        exec (.jobEnd j) s = .next (r.toEnding j) ∧ (r.toEnding j).jobState j = jENDING) ∧
      (s.jobState j = jRUNNING ∨ s.jobState j = jSAVED → s.jobFinished j = true → s.up = true → s.serving j = false →
        s.cleanLines j (s.linesIn j 0 (2 ^ 48)) →
        exec (.jobEnd j) s = .next ((s.dropLines j (s.linesIn j 0 (2 ^ 48))).toEnding j)) ∧
      (s.jobState j = jENDING → s.up = true → (s.tileSet j).all (fun l => (s.ctx j l).drained) = true →
        s.f (EQX_JOB_STATUS.OUT_READS j) = 0 →
        let ends (r : State) : Prop :=
          let d : W64 := if r.endAsked.contains j then 1#64 else 0#64
          exec (.jobEnded j) s = .next (((((r.erq ⟨0xB0, 0, bEQX, 0, some j, 0, d⟩).post 5 (some j) d 0).release j).setF
            (EQX_JOB_STATUS.STATE j) jNONE))
        (EM.go (do
          flushCache j
          endRequests j) s = (.ok (), r) → ends r) ∧
        (s.serving j = false → s.cleanLines j (s.linesIn j 0 (2 ^ 48)) → ends (s.dropLines j (s.linesIn j 0 (2 ^ 48))))))

/-- A save moves each tile's state, but for the registers kept apart with it, to the job's image and empties the tile,
and a restore brings it back: a job resumes in the state it was saved in (R588, R591, R595). -/
def Obligations.SaveAndRestore : Prop :=
  ∀ (s : State) (j beats : Nat), j < 64 → s.up = true → s.endAsked.contains j = false →
    (∀ l, s.inSet j l = true → (s.physOf l).isSome = true) →
    let image (x : State) (l : Nat) : TileState := SMap.get TileState.zero x.saved (savedKey j l)
    let plain (x : TileState) : TileState := { x with savedRegs := [] }
    (s.jobState j = jSAVING → s.coresQuiet j = true →
      ∃ t, exec (.saveDone j beats) s = .next t ∧ t.jobState j = jSAVED ∧
        ∀ l p, s.inSet j l = true → s.physOf l = some p →
          plain (image t l) = plain (s.tile p) ∧ t.tile p = (s.tile p).residue ∧ t.loaded p = false) ∧
    (s.mayRestore j = true →
      ∃ t, exec (.restoreStart j) s = .next t ∧ t.jobState j = jRESTORING ∧
        ∀ l p, s.inSet j l = true → s.physOf l = some p → t.loaded p = true ∧ t.jobOf p = j) ∧
    (s.jobState j = jRESTORING →
      ∃ t, exec (.restoreDone j beats) s = .next t ∧ t.jobState j = jRUNNING ∧
        ∀ l p, s.inSet j l = true → s.physOf l = some p → t.tile p = plain (image s l))

/-! ## Loading (chapter 16) -/

/-- LDR takes the oldest LOAD record while no load is in progress: one whose checks refuse it claims nothing and holds
REASON and DETAIL; one that passes is applied; a placement block that is not aligned is a FORMAT refusal. The result of a
refused load is reported and the slot is free; that of a granted one makes its job SAVED with HOLD as asked (R608,
R621, R626, R627, R629). A placement block and an image in served memory that the checks grant, of a job that serves no
requests and has no INIT section, are applied; and a result whose placement block lies in served memory is reported. -/
def Obligations.LoadsAreAnswered : Prop :=
  ∀ (s r r2 : State) (p : List W64) (rest : List (List W64)) (finding : Option (Nat × Nat)) (pads : List PadUse)
      (raceFree : Bool)
      (reason lo hi : Nat) (d feat : W64) (pb : List Byte) (pl : LoadPlan) (result : Nat) (x : Loading),
    let place := fld (p.getD 0 0#64) 47 0
    let cookie := p.getD 1 0#64
    let s0 : State := { s with ldrIn := rest }
    (s.ldrIn = p :: rest → s.loading = none → s.up = true → s.ldrOpen = true →
      (place % 4096 ≠ 0 → exec (.load finding pads raceFree) s =
        .next { s0 with loading := some ⟨place, cookie, none, 2, 1, 0#64, 0#64, false, 0⟩ }) ∧
      ((checkLoad place finding pads raceFree).go s0 = (.ok (.refuse reason d, pb, feat), r) →
        exec (.load finding pads raceFree) s =
          .next { r with loading := some ⟨place, cookie, none, 2, reason, d, 0#64, false, 0⟩ }) ∧
      ((checkLoad place finding pads raceFree).go s0 = (.ok (.plan pl result d, pb, feat), r) →
        (applyLoad pl feat).go r = (.ok (), r2) →
        exec (.load finding pads raceFree) s = .next { r2 with
          loading := some ⟨place, cookie, some pl.job, result, 0, d, feat, bitAt (wordAt pb 0) 63, pl.img.vrgUse⟩ }) ∧
      (let block := s.bytesAt ldrWho place 640
       let img := fld (wordAt block 0) 47 0
       let header := wordList (s.bytesAt ldrWho img 256) 32
       let len := fld (header.getD 1 0#64) 47 0
       let image := mkImage (s.bytesAt ldrWho img len)
       let there (a n : Nat) : Prop := a % 4096 = 0 ∧ s.inStore a = true ∧ s.inStore (a + n - 1) = true ∧ lo ≤ a ∧ a + n ≤ hi
       s.calm ldrWho false lo hi = true → there place 640 → there img 256 → there img len →
       rangesMeet [(place, place + 639), (img, img + max len 256 - 1)] s.busyRanges = false → headerOk header = true →
       s.judgeImage image block finding pads raceFree = .plan pl result d → (List.range 16).all (fun k => !s.whold k) = true →
       pl.img.serving = false → pl.img.secs.all (fun c => c.typ != 5) = true →
         ∃ t, exec (.load finding pads raceFree) s = .next t ∧ t.ldrIn = rest ∧
           t.loading = some ⟨place, cookie, some pl.job, result, 0, d, image.h 3 &&& BitVec.ofNat 64 (s.f LDR_ID.FEATURES),
             bitAt (wordAt block 0) 63, pl.img.vrgUse⟩)) ∧
    (s.loading = some x → s.zenUp = true →
      let writes (r : State) : Prop :=
        EM.go (if s.inStore x.place then ldrWrite (x.place + 576) x.granule else pure ()) s = (.ok (), r)
      let ends (r : State) : Prop :=
        (x.job = none →
          let u := (((r.erq ⟨0xA0, 0, bLDR, 0, none, 0, x.r0⟩).post 4 none x.r0 x.place).bump LDR_STATUS.LOADS 1)
          exec .loadResult s = .next { u with loading := none }) ∧
        (∀ j, j < 64 → x.job = some j → s.enginesOk x.vrg = true →
          ∃ t, exec .loadResult s = .next t ∧ t.loading = none ∧ t.jobState j = jSAVED ∧
            t.flag (EQX_JOB_CTL.HOLD j) = x.hold)
      (writes r → ends r) ∧
      (s.inStore x.place = false ∨ (s.calm ldrWho true lo hi = true ∧ lo ≤ x.place + 576 ∧ x.place + 640 ≤ hi) →
        ∃ r, writes r ∧ ends r))

/-! ## Job rings and messages (chapter 17) -/

/-- A poll, or the read of a line that a snoop made stale, sees a record whose SEQ is NEXT; the record is answered with
FORMAT where its header is unsound, waits with its reason while LDR holds four, and is otherwise accepted, after which
NEXT rises (R640 - R644). -/
def Obligations.JobRingsAreServed : Prop :=
  ∀ (s : State) (r : Nat) (line : List W64),
    let near : State := if s.dylMode = 1 ∨ s.dylMode = 2 then { s with linkCache := addNum s.linkCache r } else s
    let seen : State := if fld (line.getD 0 0#64) 63 32 = s.f (DYL_RING_STATUS.NEXT r) then
      { near with ringSeen := SMap.put none near.ringSeen r (some line) } else near
    let observes : Prop := s.ringOn r = true ∧ SMap.get none s.ringSeen r = some line
    (s.ringOn r = true → SMap.get none s.ringSeen r = none →
      (s.f (DYL_RING_CFG.POLL_US r) ≠ 0 ∨ s.dylMode = 3 → exec (.ringPoll r line) s = .next seen) ∧
      (s.dylMode = 1 ∨ s.dylMode = 2 → s.linkCache.contains r = false → exec (.ringSnoop r line) s = .next seen)) ∧
    (∀ payload, observes → headerSound line = false → exec (.ringObserve r payload) s = .next (s.answerRing r 1)) ∧
    (∀ payload, observes → headerSound line = true → fld (line.getD 0 0#64) 31 24 = 3 → s.up = true → s.ready = true →
      (4 ≤ s.ldrIn.length → exec (.ringObserve r payload) s = .next (s.setF (DYL_RING_STATUS.STALL r) 2)) ∧
      (s.ldrIn.length < 4 → exec (.ringObserve r payload) s =
        .next ({ s with ldrIn := s.ldrIn ++ [payload.take 8] }.answerRing r 0))) ∧
    (∀ ans, r < 8 → (s.answerRing r ans).f (DYL_RING_STATUS.NEXT r) = (s.f (DYL_RING_STATUS.NEXT r) + 1) % 2 ^ 32 ∧
      SMap.get none (s.answerRing r ans).ringSeen r = none ∧
      Bytes.rdNat (s.answerRing r ans).comp (s.headerAt r + 8) 8 =
        (setFld (setFld 0#64 63 63 1) 62 56 ans).toNat)

/-- The oldest message is written to the message ring and counted while the ring has room and the link is up, and is
folded into the pending bit of its kind and job otherwise; MCONS moves only up to MPROD; a vector fires by writing DATA
to ADDR, or sets PEND while it is masked (R645 - R648). -/
def Obligations.MessagesReachTheCompanion : Prop :=
  ∀ (s : State) (by_ : Agent) (m : Msg) (rest : List Msg) (v : W64) (k : Nat),
    (s.flag DYL_MSG_CFG.MEN = true → s.msgs = m :: rest →
      (s.dylUp = true → s.msgRoom = true → s.msgPend = [] →
        ∃ t, exec .messageWrite s = .next t ∧ t.msgs = rest ∧
          t.f DYL_MSG_PROD.MPROD = (s.f DYL_MSG_PROD.MPROD + 1) % 2 ^ 64) ∧
      (s.dylUp = false ∨ s.msgRoom = false →
        ∃ t, exec .messageWrite s = .next t ∧ t.msgs = rest ∧
          t.msgPend = s.msgPend.filter (fun p => !(p.kind == m.kind && p.job == m.job)) ++ [m] ∧
          t.f DYL_MSG_LOST.COUNT = (s.f DYL_MSG_LOST.COUNT + 1) % 2 ^ 64)) ∧
    (s.accepts by_ DYL_MSG_CONS.at = true →
      let ahead (x : Nat) : Nat := (x + 2 ^ 64 - s.f DYL_MSG_CONS.MCONS) % 2 ^ 64
      exec (.msgConsume by_ v) s = .next
        (if ahead v.toNat ≤ ahead (s.f DYL_MSG_PROD.MPROD) then s.setF DYL_MSG_CONS.MCONS v.toNat else s)) ∧
    (k < 16 → 0 < SMap.get 0 s.vecWait k → s.domRuns dDYC = true →
      (s.flag (DYL_VEC_CTL.MASK k) = true →
        exec (.vectorHoldExpiry k) s = .next (s.setFlag (DYL_VEC_CTL.PEND k) true)) ∧
      (s.flag (DYL_VEC_CTL.MASK k) = false →
        let c := Bytes.wrList s.comp (s.f (DYL_VEC_ADDR.ADDR k)) (leBytes 4 (s.f (DYL_VEC_CTL.DATA k)))
        exec (.vectorHoldExpiry k) s = .next
          ({ s with comp := c, vecWait := SMap.put 0 s.vecWait k 0 }.setFlag (DYL_VEC_CTL.PEND k) false)))

/-- The ports of the companion's link: training, L0 in a mode and rate both ends support, a timeout, PERST, recovery on
RETRAIN or an error, and its end; the loss of every port clears what the companion held (R631 - R635, R649 - R652,
R767). -/
def Obligations.LinkPortsMove : Prop :=
  ∀ (s : State) (by_ : Agent) (p mode rate width : Nat) (same : Bool), p < 2 →
    let st := s.dylState p
    let goes (i : Instr) (z : Nat) : Prop := ∃ t, exec i s = .next t ∧ t.dylState p = z
    let offered : Prop := 1 ≤ mode ∧ mode ≤ 3 ∧ s.f (DYL_PORT_CTL.MAX_MODE p) < mode ∧ rateOk mode rate = true ∧
      1 ≤ width ∧ width ≤ 3
    (st = lDOWN → s.dylReleased p = true → goes (.dylTraining p) lTRAINING) ∧
    (st = lTRAINING → s.dylReleased p = true → offered →
      (s.dylMode = 0 ∨ s.dylMode = mode → (mode = 1 → same = true) →
        ∃ t, exec (.dylL0 p mode rate width same) s = .next t ∧ t.dylState p = lL0 ∧ t.dylMode = mode ∧
          t.f (DYL_PORT_STATUS.MODE p) = mode ∧ t.f (DYL_PORT_STATUS.WIDTH p) = width) ∧
      ((s.dylMode ≠ 0 ∧ s.dylMode ≠ mode) ∨ (mode = 1 ∧ same = false) →
        goes (.dylL0 p mode rate width same) lMISMATCH)) ∧
    (st = lTRAINING → goes (.dylTrainingTimeout p) lDOWN) ∧
    (∃ t, exec (.dylPerst p false) s = .next t ∧ t.dylState p = lDOWN ∧ p ∈ t.dylPerst) ∧
    (exec (.dylPerst p true) s = .next { s with dylPerst := dropNum s.dylPerst p }) ∧
    (s.accepts by_ (DYL_PORT_CTL.at p) = true →
      (st = lL0 → goes (.dylRetrain by_ p) lRECOVERY) ∧
      (st = lMISMATCH → s.dylReleased p = true → goes (.dylRetrain by_ p) lTRAINING)) ∧
    (st = lL0 → goes (.dylRecovery p []) lRECOVERY) ∧
    (st = lRECOVERY → s.f (DYL_PORT_STATUS.WIDTH p) ≠ 0 → goes (.dylRecoveryEnd p true rate) lL0) ∧
    (st = lRECOVERY → goes (.dylRecoveryEnd p false rate) lDOWN) ∧
    (s.dylMode = 3 → s.dylState 0 = lDOWN → s.dylState 1 = lDOWN →
      ∃ t, exec .linkLoss s = .next t ∧ t.filter = [] ∧ t.snoops = [] ∧ t.ringSeen = [] ∧ t.dylMode = 0)

/-- Snoops: the companion's snoop makes a cached header line stale; an access to a granule that the companion holds
snoops it first; its answer ends the snoop and leaves it a shared copy unless it was invalidated; and an answer that
does not come starts a recovery (R637, R638). -/
def Obligations.SnoopsKeepCopiesRight : Prop :=
  ∀ (s : State) (p addr : Nat) (write inval : Bool) (data : List Byte),
    let g := addr / 64
    (s.domRuns dDYC = true → exec (.snoop addr) s =
      .next { s with linkCache := s.linkCache.filter (fun r => s.headerAt r / 64 != g) }) ∧
    (s.dylUp = true → s.coherent = true → s.filter.any (fun e => e.1 == g && (write || e.2 == 2)) = true →
      exec (.deviceSnoop addr write) s = .next { s with
        snoops := s.snoops.filter (fun p => p.1 != g) ++ [(g, write || s.snoops.contains (g, true))] }) ∧
    (s.snoops.find? (fun p => p.1 == g) = some (g, inval) → s.filter.contains (g, 2) = false →
      exec (.snoopResponse addr data) s = .next { s with
        snoops := s.snoops.filter (fun p => p.1 != g),
        filter := if inval then s.filter.filter (fun e => e.1 != g)
          else s.filter.map (fun e => if e.1 = g then (g, 1) else e) }) ∧
    (p < 2 → s.dylState p = lL0 → s.snoops.any (fun q => q.1 == g) = true →
      ∃ t, exec (.snoopTimeout p addr) s = .next t ∧ t.dylState p = lRECOVERY)

/-! ## Requests and tokens (chapters 12 - 14) -/

/-- SRV takes the first REQUEST or CANCEL record whose job can take a result. A cancel of a request in PREFILL or DECODE
marks it DRAINING, one of a DRAINING request does nothing, and a boundary that was held for want of room in the result ring
goes on when there is room (R518, R520, R524, R550). Where the ring lies in a range whose every access is served and has
room, a sound request that uses no prefix is QUEUED with its pages reserved and the record counts in PROD, and a cancel is
taken. -/
def Obligations.RequestsAndCancels : Prop :=
  ∀ (s s1 r : State) (j k lo hi : Nat) (ws : List W64) (rest : List (Nat × List W64)),
    let i := fld (ws.getD 0 0#64) 14 0
    let matches_ : Prop := fld (ws.getD 0 0#64) 57 15 = 0 ∧ (ws.drop 2).all (fun w => w == 0#64) = true ∧
      (s.req i).job = fld (ws.getD 0 0#64) 63 58 ∧ (s.req i).cookie = ws.getD 1 0#64
    let job := fld (ws.headD 0#64) 63 58
    let takes (work : EM Unit) : EM Unit := do
      work
      showHold job
    (let q := reqOf ws
     let pages := ceilDiv (q.promptLen + q.maxNew) 16 + 1
     s.up = true → s.srvIn = (1, ws) :: rest → (s.srvJob job).bnd = false → s.resReady job rest lo hi →
      s.requestFormat ws q = true → s.freeReq = some k → s.queuedAll < 4096 → q.left ≠ 0 → q.pfxUse = false →
      pages ≤ s.quota job → pages ≤ (s.srvJob job).poolPages →
        ∃ t, exec .request s = .next t ∧ t.srvIn = rest ∧
          (∃ pos, t.req k = { q with arrival := s.arrivals, commit := pages, state := qQUEUED, result := 2, reason := 3,
                                     qpos := pos }) ∧
          (t.srvJob job).prod = ((s.srvJob job).prod + 1) % 2 ^ 32) ∧
    (s.up = true → s.srvIn = (2, ws) :: rest → (s.srvJob job).bnd = false → (s.srvJob job).ready = false →
      s.resReady job rest lo hi → matches_ → (s.req i).state = qPREFILL ∨ (s.req i).state = qDECODE →
        exec .cancel s = .next (({ s with srvIn := rest }.setReq i { s.req i with cancel := true, state := qDRAINING }).setFlag
          (SRV_JOB_STATUS.RES_WAIT job) false)) ∧
    (s.up = true → s.srvIn = (1, ws) :: rest → (s.srvJob job).bnd = false → (resRoom job).go s = (.ok true, s1) →
      (takes (observeRequest ws)).go { s1 with srvIn := s1.srvIn.tail } = (.ok (), r) → exec .request s = .next r) ∧
    (s.up = true → s.srvIn = (2, ws) :: rest → (s.srvJob job).bnd = false → (s.srvJob job).ready = false →
      (resRoom job).go s = (.ok true, s1) →
      (takes (observeCancel ws)).go { s1 with srvIn := s1.srvIn.tail } = (.ok (), r) → exec .cancel s = .next r) ∧
    (matches_ → (s.req i).state = qPREFILL ∨ (s.req i).state = qDECODE → (observeCancel ws).go s =
      (.ok (), s.setReq i { s.req i with cancel := true, state := qDRAINING })) ∧
    (matches_ → (s.req i).state = qDRAINING → (observeCancel ws).go s = (.ok (), s)) ∧
    (s.serves j = true → s.up = true →
      (s.srvIn.all (fun p => srvInJob p != j) = true →
        ((s.srvJob j).bnd = false →
          exec (.resultRingRoom j) s = .next (s.setFlag (SRV_JOB_STATUS.RES_WAIT j) false)) ∧
        (∀ b, (s.srvJob j).bnd = true → (s.srvJob j).adm = some ([], b) → (s.srvJob j).order = [] →
          (s.srvJob j).running = false → ∃ t, exec (.resultRingRoom j) s = .next t ∧
            t.srvJob j = { s.srvJob j with bnd := false, adm := none })) ∧
      ((s.srvJob j).bnd = true → (boundary j).go s = (.ok (), r) → exec (.resultRingRoom j) s = .next r) ∧
      ((s.srvJob j).bnd = false → (showHold j).go s = (.ok (), r) → exec (.resultRingRoom j) s = .next r))

/-- The boundary of a step runs when the step has ended, as far as the result ring takes what it records; the launch waits for
the report of the step before the last; a handoff that names the current step reaches SMP; and a report releases what
its step pinned (R510, R520, R533 - R537). A boundary without a request to release or to admit ends; and where what they read
and write lies in ranges whose every access is served, a launch begins the step with a row for each admitted request, a
handoff is taken, and a report is handled. Each microsecond lowers the deadline of every unfinished request that has one, down to 0, and counts in every
running step; a write of SRV_RQT_IDX copies the entry's words (R551, R553, R556). -/
def Obligations.StepsRun : Prop :=
  (∀ (s r r2 : State) (j k lo hi plo phi : Nat) (bs : List Byte),
      let x := s.srvJob j
      let step := (s.reg (SRV_JOB_STEP.at j)).toNat
      let bd := s.f (SRV_JOB_BD.BASE j)
      let inside (a n : Nat) : Prop := lo ≤ a ∧ a + n ≤ hi
      let at_ (a n : Nat) : Nat := s.natAt (srvWho none) a n
      let pinIn (p : Nat) : Prop := inside (s.mapAt j (nameStack p) (namePage p)) 8
      let entry (i e : Nat) : Nat := (x.kvh.head?).getD 0 + 64 + 4 * x.listPages * i + 4 * e
      j < 64 → s.serves j = true → s.up = true →
        (x.ready = false → x.running = false ∨ x.ended = true → jobList.all (fun k => k == j || !s.boundDue k) = true →
          x.adm = none → x.order = [] → (s.endStep j).queuedOf j = [] → s.srvIn.all (fun p => srvInJob p != j) = true →
          ∃ t, exec (.stepBoundary j) s = .next t ∧
            t.srvJob j = { (s.endStep j).srvJob j with bnd := false, adm := none } ∧ t.msgs = (s.endStep j).msgs) ∧
        (x.ready = true → x.unrep.all (fun p => p.1 == step) = true → s.calm (srvWho none) true lo hi = true →
          inside bd (192 + 16 * x.order.length) →
          (∀ i ∈ x.order, (∀ e, e < (s.req i).entries → inside (entry i e) 4 ∧
              (at_ (entry i e) 4 ≠ noPage → pinIn (at_ (entry i e) 4))) ∧
            ((s.req i).state = qDECODE → s.flag (SMP_JOB_CTL.SPEC_EN j) = true → s.paramIn j i plo phi)) →
          ∃ t, exec (.stepLaunch j) s = .next t ∧ (t.srvJob j).running = true ∧ (t.srvJob j).ready = false ∧
            (t.srvJob j).rows.map (·.idx) = x.order ∧ t.reg (SRV_JOB_STEP.at j) = s.reg (SRV_JOB_STEP.at j) + 1#64) ∧
        (x.running = true → x.handoff = none → x.handed = false → s.calm (srvWho none) false lo hi = true →
          inside (bd + 64) 64 → at_ (bd + 64) 8 = step → (at_ (bd + 72) 8).testBit 0 = false →
          exec (.handoff j) s = .next (s.setSrvJob j
            { x with handoff := some (wordList (s.bytesAt (srvWho none) (bd + 64) 64) 8) })) ∧
        (s.calm (srvWho none) true lo hi = true → inside (bd + 128) 8 →
          ((∀ p ∈ x.unrep, p.1 ≠ at_ (bd + 128) 8) → exec (.stepReport j) s = .next s) ∧
          (∀ pins, x.unrep.find? (fun p => p.1 == at_ (bd + 128) 8) = some (at_ (bd + 128) 8, pins) → (∀ p ∈ pins, pinIn p) →
            ∃ t, exec (.stepReport j) s = .next t ∧
              t.srvJob j = { x with unrep := x.unrep.filter (fun p => p.1 != at_ (bd + 128) 8) })) ∧
        (x.ready = false → x.running = false ∨ x.ended = true → jobList.all (fun k => k == j || !s.boundDue k) = true →
          (boundary j).go s = (.ok (), r) → exec (.stepBoundary j) s = .next r) ∧
        (x.ready = true → x.unrep.all (fun p => p.1 == step) = true → (launch j).go s = (.ok (), r) →
          exec (.stepLaunch j) s = .next r) ∧
        (x.ready = true → x.unrep.all (fun p => p.1 == step) = false → exec (.stepLaunch j) s = .next s) ∧
        (x.running = true → x.handoff = none → x.handed = false →
          (srvRd j (s.f (SRV_JOB_BD.BASE j) + 64) 64).go s = (.ok bs, r) →
          (wordAt bs 0).toNat = step → bitAt (wordAt bs 1) 0 = false →
          exec (.handoff j) s = .next (r.setSrvJob j { r.srvJob j with handoff := some (wordList bs 8) })) ∧
        ((srvRdNat j (s.f (SRV_JOB_BD.BASE j) + 128) 8).go s = (.ok k, r) → (report j k).go r = (.ok (), r2) →
          exec (.stepReport j) s = .next r2)) ∧
  ((∀ s : State, Memory.wf s = true →
      ∃ t, exec .deadlineTick s = .next t ∧
        (∀ i, t.req i = if qDONE ≤ (s.req i).state ∨ (s.req i).state = qFREE ∨ (s.req i).left = 2 ^ 32 - 1 then s.req i
          else { s.req i with left := (s.req i).left - 1 }) ∧
        (∀ j, t.srvJob j = if (s.srvJob j).running then { s.srvJob j with us := (s.srvJob j).us + 1 } else s.srvJob j)) ∧
    (∀ (s : State) (by_ : Agent) (idx : BitVec 15), s.accepts by_ SRV_RQT_IDX.at = true →
      ∃ t, exec (.rqtIdxWrite by_ idx) s = .next t ∧ t.f SRV_RQT_IDX.IDX = idx.toNat ∧
        ∀ n, n < 16 → t.reg (SRV_RQT_W.at n) = (s.req idx.toNat).word n))

/-- SMP handles the handoff of the running step in its mode, and continues one that waited for room in an output ring. At
a commit point, a cancelled request ends CANCELLED and one whose deadline has passed ends EXPIRED, and the token is
dropped (R545, R564, R570, R573, R574). For a step of one row, what SMP touches in a range whose every access is served,
and a token to be had: a SAMPLE, a VERIFY of a row without drafts and a handoff that waited for room deliver the token and
hand the step on, and a DRAFT is done. -/
def Obligations.SamplerHandlesHandoffs : Prop :=
  ∀ (s r : State) (j i lo hi : Nat) (h : Hand) (p : Pend) (row : RowSt),
    let x := s.srvJob j
    let last := row.row0 + row.nq - 1
    let delivered (c : Instr) : Prop := ∃ t, exec c s = .next t ∧ (t.req row.idx).delivered = (s.req row.idx).delivered + 1 ∧
      (t.srvJob j).handed = true ∧ (t.srvJob j).handoff = none ∧ t.flag (SMP_JOB_STATUS.RING_WAIT j) = false
    let samples : Prop := row.wait = none ∧ s.sampled row = true ∧ s.rowReady j row.idx h last 16448 lo hi ∧
      s.tokenOf j row.idx h last ≠ none
    (x.rows = [row] → row.passed = false → s.delivers j row.idx →
      (s.handoffOf j [0, 3] false = some h → samples → delivered (.sample j)) ∧
      (s.handoffOf j [2] false = some h → samples → row.drafts = 0 → delivered (.verify j)) ∧
      (s.handoffOf j [0, 2, 3] true = some h → row.wait = some p → p.dead = false → p.final = true →
        h.mode ≠ 2 ∨ row.drafts = 0 → s.rowReady j row.idx h last 16448 lo hi → delivered (.ringRoom j))) ∧
    (x.rows = [row] → h.didx < row.drafts → s.handoffOf j [1] false = some h →
      s.rowReady j row.idx h 0 (0x5000 + 0x8000 * (h.didx + 1)) lo hi →
      ∃ t, exec (.draft j) s = .next t ∧ (t.srvJob j).handoff = none ∧
        ∃ tok, (t.srvJob j).rows =
          [{ row with drafted := row.drafted.filter (fun d => d.1 != h.didx) ++ [(h.didx, tok)] }]) ∧
    (s.handoffOf j [0, 3] false = some h → (goHandoff j h false).go s = (.ok (), r) → exec (.sample j) s = .next r) ∧
    (s.handoffOf j [1] false = some h → (goDraft j h).go s = (.ok (), r) → exec (.draft j) s = .next r) ∧
    (s.handoffOf j [2] false = some h → (goHandoff j h true).go s = (.ok (), r) → exec (.verify j) s = .next r) ∧
    (s.handoffOf j [0, 2, 3] true = some h → (goHandoff j h (h.mode == 2)).go s = (.ok (), r) →
      exec (.ringRoom j) s = .next r) ∧
    ((s.req i).alive = true → (s.req i).cancel = true →
      (commitPoint j i h p).go s = (.ok (some false), s.setReq i { s.req i with state := qCANCELLED })) ∧
    ((s.req i).alive = true → (s.req i).cancel = false → (s.req i).left = 0 →
      ∃ t, (commitPoint j i h p).go s = (.ok (some false), t) ∧ t.req i = { s.req i with state := qEXPIRED }) ∧
    ((s.req i).alive = false → (commitPoint j i h p).go s = (.ok (some false), s))

/-! ## The control space (R8 - R13) and the sideband -/

/-- Each field of a written register follows its own access code, whatever the others do: RO, RZ, W1S and WO fields keep
their bits; the ones written to a W1C field clear it; an RW or RWL field, and an RWB field of a unit that is not busy,
takes what the covered bits make of it, where that value is listed; a busy unit's RWB field keeps its value; and only
W1S and WO bits that the write covers act (R8, R10 - R12). A write of another shape, to no register, or of a sender that
the register does not accept changes nothing, and the companion's of another shape is answered with a bus error (R12, R13); one to a register that starts nothing stores the value; clearing
performance counters zeroes the eight of the tile or engine and nothing else; and the sideband reads what the registers
of ZEN hold (R8, R181, R237, R737). -/
def Obligations.RegisterWritesFollowAccessCodes : Prop :=
  (∀ (d : RegDef) (f : Fld) (off : Nat) (ix : List Nat) (busy : Bool) (old m v : W64),
    regFind off = some (d, ix) → f ∈ d.flds →
    let c := m &&& onesAt f.hi f.lo
    let was := fld old f.hi f.lo
    let new := fld ((old &&& ~~~c) ||| (v &&& c)) f.hi f.lo
    let r := d.write busy old m v
    let now := fld r.val f.hi f.lo
    (f.acc ∈ [Acc.ro, .rz, .w1s, .wo] → now = was) ∧
    (f.acc = .w1c → now = fld (old &&& ~~~(v &&& c)) f.hi f.lo) ∧
    (f.acc = .rw ∨ f.acc = .rwl ∨ (f.acc = .rwb ∧ busy = false) →
      now = if c = 0#64 then was else f.chk.fit was new) ∧
    (f.acc = .rwb → busy = true → now = was ∧ (c ≠ 0#64 → r.rejected = true)) ∧
    r.act &&& onesAt f.hi f.lo = if f.acc = .w1s ∨ f.acc = .wo then v &&& c else 0#64) ∧
  (∀ (s : State) (by_ : Agent) (off size : Nat) (val : W64),
    let o := off / 8 * 8
    let starters := [ZEN_RESET.at, ZEN_FWU_CTL.at, ERQ_CONS.at, ZEN_SVC_CTL.at, EQX_JOB_CTL.at 0, SRV_RQT_IDX.at,
      DSK_JOB_CTL.at 0, PWR_SAMPLE.at, TMD_TRIP.at, DYL_PORT_CTL.at 0, DYL_RING_CFG.at 0, DYL_MSG_CONS.at,
      DYL_VEC_CTL.at 0, XWF_PORT_CTL.at 0, XWF_HALT_INFO.at 0, MSC_RETRAIN.at 0, VRG_CTL.at 0, VRG_HALT_INFO.at 0 0,
      VRG_PERF_CTL.at 0, ANV_PERF_CTL.at 0, ANV_DMA_CTL.at 0 0, ANV_DMA_HALT_INFO.at 0 0, PIL_DBG_CTL.at 0, VPC_DBG_CTL.at 0,
      TDC_DOM_CTL.at 0, XWF_CTL.at, DYL_RING_STATUS.at 0]
    (ctlShape off size = false → exec (.registerWrite by_ off size val) s =
      .next (if by_ = .companion ∧ s.dylUp = true then { s with rsp := some .busError } else s)) ∧
    (ctlShape off size = true → regFind o = none → coreWin off = none →
      exec (.registerWrite by_ off size val) s = .next s) ∧
    (∀ d ix, regFind o = some (d, ix) →
      let i := ix.headD 0
      let r := d.write (s.rwbBusy d.base i ((ix.drop 1).headD 0)) (s.reg o) (laneMask off size) (laneValue off size val)
      (ctlShape off size = true → s.accepts by_ o = false → exec (.registerWrite by_ off size val) s = .next s) ∧
      (ctlShape off size = true → s.accepts by_ o = true → by_ ≠ .mc → starters.contains d.base = false →
        exec (.registerWrite by_ off size val) s =
          .next ((if r.rejected then s.reject d.base i else s).setReg o r.val))) ∧
    (∀ n, n < 200 → s.accepts by_ (ANV_PERF_CTL.at n) = true →
      ∃ t, exec (.anvPerfClear by_ n) s = .next t ∧
        (∀ k, k < 8 → t.f (ANV_PERF_CNT.COUNT n k) = 0 ∧ t.f (ANV_PERF_CNT.OVF n k) = 0) ∧
        (∀ a, (∀ k, k < 8 → a ≠ (ANV_PERF_CNT.COUNT n k).off) → t.reg a = s.reg a)) ∧
    (∀ n, n < 16 → s.accepts by_ (VRG_PERF_CTL.at n) = true →
      ∃ t, exec (.vrgPerfClear by_ n) s = .next t ∧
        (∀ k, k < 8 → t.f (VRG_PERF_CNT.COUNT n k) = 0 ∧ t.f (VRG_PERF_CNT.OVF n k) = 0) ∧
        (∀ a, (∀ k, k < 8 → a ≠ (VRG_PERF_CNT.COUNT n k).off) → t.reg a = s.reg a)) ∧
    (s.sbUp = true → s.domRuns dZEN = true → off % 8 = 0 → off < 0x100000 →
      (regFind off = none → exec (.sidebandRegisterRead off) s = .next { s with mcRsp := some 0#64 }) ∧
      (∀ d ix, regFind off = some (d, ix) → d.base ≠ ERQ_REC.at 0 0 ∨ s.dylUp = false →
        exec (.sidebandRegisterRead off) s = .next { s with mcRsp := some (s.reg off) })))

/-- While a port is in L0 the companion reads and writes device memory through the direct path, and a cached read makes
it a holder of the granule; a full snoop filter first back-invalidates its oldest granule. A control-space access of the
wrong shape, or into a domain that refuses, ends in a bus error, a control read returns the register's bytes, and a
control write is the companion's register write. Before READY memory is refused (R12, R636, R637, R726). In a range whose every
access is served, a read answers the bytes and a write is done. -/
def Obligations.CompanionAccessesEnd : Prop :=
  ∀ (s s' : State) (addr size hold lo hi : Nat) (bytes bs : List Byte),
    let answer (x : State) (r : CRsp) : Host.Outcome State Fault Refusal := .next { x with rsp := some r }
    let g := addr / 64
    let off := addr - ctlBase
    s.dylUp = true →
      (s.region addr ≠ .control → s.ready = true → lo ≤ addr →
        (size ≠ 0 → s.calm compWho false lo hi = true → addr + size ≤ hi →
          ∃ t, exec (.companionRead addr size 0) s = .next t ∧ t.rsp = some (.data (s.bytesAt compWho addr size))) ∧
        (bytes ≠ [] → s.calm compWho true lo hi = true → addr + bytes.length ≤ hi →
          ∃ t, (writeSpan compWho bytes.length addr bytes).go s = (.ok (), t) ∧
            exec (.companionWrite addr bytes) s = answer t .done)) ∧
      (size ≠ 0 → s.region addr ≠ .control → s.ready = true →
        (readSpan compWho size addr size).go s = (.ok bs, s') →
        exec (.companionRead addr size 0) s = answer s' (.data bs) ∧
        (hold = 1 ∨ hold = 2 → s.region addr = .stack → s.coherent = true → addr % 64 + size ≤ 64 →
          s.filter.length < 262144 ∨ s.filter.any (fun e => e.1 == g) = true →
          exec (.companionRead addr size hold) s =
            answer { s' with filter := s'.filter.filter (fun e => e.1 != g) ++ [(g, hold)] } (.data bs))) ∧
      (size ≠ 0 → hold ≠ 0 → s.region addr = .stack → s.ready = true → s.coherent = true → addr % 64 + size ≤ 64 →
        262144 ≤ s.filter.length → s.filter.any (fun e => e.1 == g) = false →
        ∃ o rest, s.filter = o :: rest ∧ exec (.companionRead addr size hold) s =
          .next { s with snoops := s.snoops.filter (fun p => p.1 != o.1) ++ [(o.1, true)] }) ∧
      (bytes ≠ [] → s.region addr ≠ .control → s.ready = true →
        (writeSpan compWho bytes.length addr bytes).go s = (.ok (), s') →
        exec (.companionWrite addr bytes) s = answer s' .done) ∧
      (s.region addr ≠ .control → s.ready = false →
        (size ≠ 0 → exec (.companionRead addr size hold) s = answer s .busError) ∧
        (bytes ≠ [] → exec (.companionWrite addr bytes) s = answer s .busError)) ∧
      (s.region addr = .control →
        (size ≠ 0 → ctlShape off size = false ∨ s.ctlRefuses off = true →
          exec (.companionRead addr size hold) s = answer s .busError) ∧
        (bytes ≠ [] → ctlShape off bytes.length = false ∨ s.ctlRefuses off = true →
          exec (.companionWrite addr bytes) s = answer s .busError) ∧
        (ctlShape off size = true → s.ctlRefuses off = false → s.ctlHolds off = false →
          exec (.companionRead addr size 0) s =
            answer s (.data (((leBytes 8 (ctlRead (off / 8 * 8) s).toNat).drop (off % 8)).take size))) ∧
        (bytes ≠ [] → ctlShape off bytes.length = true → s.ctlRefuses off = false → s.ctlHolds off = false →
          exec (.companionWrite addr bytes) s =
            exec (.registerWrite .companion off bytes.length (BitVec.ofNat 64 (leNat bytes))) { s with rsp := some .done }))

/-! ## Frames and ports of the fabric (chapter 18) -/

/-- A request is applied once: its number counts as applied from then on, and a number that was applied is only answered
again, from the kept answer or with an ACK. A refused frame applies nothing and is answered with its code. A READ's
response is written into its view, a poisoned one halts the FOP, an ACK releases what it acknowledges, a REFUSE fails its
FOP, a frame for another node goes on with HOPS lowered or is dropped and counted, and an unacknowledged frame is sent
again up to eight times, after which its FOP fails with TIMEOUT (R661, R665, R666, R669 - R674). A READ of a range whose
every access is served is answered with its bytes, a SIGNAL is signalled and acknowledged, and a READ's response is written
where its view lies in such a range. -/
def Obligations.FramesAreAppliedOnce : Prop :=
  (∀ (x : RxNode) (n : W32), x.ahead.length < 2 ^ 31 → (x.note n).seen n = true) ∧
  (∀ (s r : State) (p c n i lo hi : Nat) (f : Frame) (bs : List Byte) (bad trip : Bool) (x : Sent) (fl : Flight),
    let rx := s.rx f.src
    let keeps (y : State) (a : Frame) : State :=
      let z := y.setRx f.src (rx.note f.seq)
      z.setRx f.src { z.rx f.src with answers := (z.rx f.src).answers ++ [a] }
    let back (y : State) (typ len : Nat) (bad : Bool) (data : List Byte) : Frame :=
      { f with typ := typ, dst := f.src, src := y.node, hops := y.f XWF_CTL.MAX_HOPS, poison := bad,
               payload := data, len := len }
    let answers (y : State) (a : Frame) : Host.Outcome State Fault Refusal := .next ((keeps y a).sendOrDrop p a)
    let fop := s.queue x.job x.lt 26
    let e := engOf x.job x.lt (s.phys x.lt) 26 fl.cmd
    let sent : Prop := s.sentTo f.src f.seq = some x
    let acks (y : State) : Prop := ∃ a, a.typ = 2 ∧ a.dst = f.src ∧ a.src = y.node ∧ a.seq = (rx.note f.seq).next - 1#32 ∧
      exec (.frameRequest p bad f) s = .next ((y.setRx f.src (rx.note f.seq)).sendOrDrop p a)
    let lv := vOf fl.cmd fl.views 3 60 57
    s.xwfEn = true → s.portUp p = true →
      (s.ethernet p = true → bad = true ∨ f.dst ≠ s.node → exec (.frameRequest p bad f) s = .next (s.drop p)) ∧
      (s.ethernet p = false ∨ bad = false → f.typ = 0 → f.dst = s.node →
        (rx.seen f.seq = true → exec (.frameRequest p bad f) s =
          .next (s.sendOrDrop p ((rx.answers.find? (fun a => a.seq == f.seq)).getD (s.ackTo f)))) ∧
        (rx.seen f.seq = false → s.refusal f = some c → exec (.frameRequest p bad f) s =
          answers s (back s 3 c false [])) ∧
        (rx.seen f.seq = false → s.refusal f = none →
          (f.op = 0 → s.calm f.who false lo hi = true → lo ≤ f.raddr → f.raddr + f.len ≤ hi →
            ∃ g, let y : State := { s with lastGran := g }
              exec (.frameRequest p bad f) s = answers y (back y 1 f.len false (s.bytesAt f.who f.raddr f.len))) ∧
          (f.op = 3 → acks (s.signal f.rjob f.rtile f.rtok f.rinc))) ∧
        (rx.seen f.seq = false → s.refusal f = none → f.op = 0 → (applyFrame f).go s = (.error (.poison n), r) →
          exec (.frameRequest p bad f) s = answers r (back r 1 0 true [])) ∧
        (rx.seen f.seq = false → s.refusal f = none → (applyFrame f).go s = (.ok bs, r) →
          (f.op = 0 → exec (.frameRequest p bad f) s = answers r (back r 1 bs.length false bs)) ∧
          (f.op ≠ 0 → acks r))) ∧
      (f.typ = 1 → f.dst = s.node → sent → x.dead = false →
        (f.poison = true → exec (.frameResponse p f) s = .next
          (((s.failFop x 1 0).dropSent { x with dead := true }).pump f.src s.txWait.length (fun _ => 0))) ∧
        (f.poison = false → fop.fopAt x.fop = some (i, fl) → s.calm e.who true lo hi = true →
          lv.within lv.fmt.bits lo hi lv.cells = true →
          ∃ r, (fopLocal e x.frame.raddr (writeReturned e lv (x.frame.raddr - cf fl.cmd 4 47 0)
              (f.payload.take x.frame.len))).go s = (.ok (), r) ∧
            exec (.frameResponse p f) s = .next (((r.dropSent x).readDone x).pump f.src r.txWait.length (fun _ => 0))) ∧
        (f.poison = false → fop.fopAt x.fop = some (i, fl) →
          (fopLocal e x.frame.raddr (writeReturned e lv (x.frame.raddr - cf fl.cmd 4 47 0)
            (f.payload.take x.frame.len))).go s = (.ok (), r) →
          exec (.frameResponse p f) s =
            .next (((r.dropSent x).readDone x).pump f.src r.txWait.length (fun _ => 0)))) ∧
      (f.typ = 2 → f.dst = s.node →
        let acked (y : Sent) : Bool :=
          y.frame.dst == f.src && decide ((f.seq - y.frame.seq).toNat < 2 ^ 31) && (y.frame.op != 0 || y.dead)
        let u : State := { s with txSent := s.txSent.filter (fun y => !acked y) }
        let w := s.window f.src
        let win := if f.ce then max 8192 (w / 2) else min (2 ^ 21) (w + s.payloadLimit f.src)
        exec (.frameAck p f trip) s = .next
          ((if s.ethernet p && trip then { u with txWin := SMap.put (2 ^ 21) u.txWin f.src win } else u).pump
            f.src s.txWait.length (fun _ => 0))) ∧
      (f.typ = 3 → f.dst = s.node → sent →
        let u := s.failFop x 4 (f.len % 256)
        exec (.frameRefuse p f) s = .next
          (State.pump f.src u.txWait.length (fun _ => 0)
            { u with txSent := u.txSent.filter (fun y => !(y.frame.dst == f.src && y.frame.seq == f.seq)) })) ∧
      (f.dst ≠ s.node →
        (s.ethernet p = true ∨ f.hops = 0 → exec (.transitFrame p f) s = .next (s.drop p)) ∧
        (s.ethernet p = false → f.hops ≠ 0 → exec (.transitFrame p f) s =
          .next (match fewest (fun _ => 0) (s.routes f.dst) with
            | some o => { s with xwfOut := s.xwfOut ++ [(o, { f with hops := f.hops - 1 })] }
            | none => s.drop p))) ∧
      (s.sentTo f.dst f.seq = some x →
        (8 ≤ x.retries →
          let u := s.failFop x 5 0
          exec (.resendTimeout f.dst f.seq) s = .next
            { u with txSent := u.txSent.filter (fun y => !(y.frame.dst == f.dst && y.frame.seq == f.seq)) }) ∧
        (x.retries < 8 → fewest (fun _ => 0) (s.routes x.frame.dst) = some n → n < 16 →
          ∃ t, exec (.resendTimeout f.dst f.seq) s = .next t ∧ t.xwfOut = s.xwfOut ++ [(n, x.frame)] ∧
            t.f (XWF_PORT_ERR.REPLAY n) = min 0xFFFF (s.f (XWF_PORT_ERR.REPLAY n) + 1) ∧
            t.txSent = s.txSent.map (fun y => if y = x then { y with retries := y.retries + 1 } else y))))

/-- A fabric port trains to NATIVE first, and to Ethernet where MAX_MODE asks for it or after 20 ms without an answer; UP
shows the mode, eight wavelengths and the partner, and a failed training leaves it DOWN. The first wavelength that a
NATIVE port loses is spared, each further one narrows it, and fewer than four take it DOWN; an Ethernet port trains again.
A port answers neighbour solicitations for its own address only. A far port that loses its link has no mode until its one
retrain ends (R362, R657 - R661, R677). -/
def Obligations.PortsTrainAndFail : Prop :=
  ∀ (s : State) (p mode partner w rate width devices : Nat) (by_ : Agent) (upper lower : W64),
    let state (t : State) : Nat := t.f (XWF_PORT_STATUS.STATE p)
    let maxMode := s.f (XWF_PORT_CTL.MAX_MODE p)
    (p < 16 → partner < 2 ^ 15 → s.flag (XWF_PORT_CTL.DISABLE p) = false →
      (state s ≠ 2 → s.opticsOn = true →
        (s.mayTrain p mode = true → ∃ t, exec (.xwfTraining p mode partner true) s = .next t ∧ state t = 2 ∧
          t.f (XWF_PORT_STATUS.MODE p) = mode ∧ t.f (XWF_PORT_STATUS.WAVES p) = 8 ∧
          t.f (XWF_PORT_STATUS.PARTNER p) = if mode = 1 then partner else 0) ∧
        (∃ t, exec (.xwfTraining p mode partner false) s = .next t ∧ state t = 0 ∧
          t.f (XWF_PORT_STATUS.MODE p) = 0)) ∧
      (s.mayTrain p 1 = true ↔ maxMode ≠ 2 ∧ p ∉ s.xwfEth) ∧
      (s.mayTrain p 2 = true ↔ maxMode = 2 ∨ (maxMode = 0 ∧ p ∈ s.xwfEth)) ∧
      (state s ≠ 2 → maxMode = 0 →
        ∃ t, exec (.nativeAnswerTimeout p) s = .next t ∧ state t = 1 ∧ t.mayTrain p 2 = true ∧ t.mayTrain p 1 = false) ∧
      (s.accepts by_ (XWF_PORT_CTL.at p) = true →
        ∃ t, exec (.xwfRetrain by_ p) s = .next t ∧ state t = 1 ∧ p ∉ t.xwfEth)) ∧
    (s.portUp p = true → w < 9 → (s.f (XWF_PORT_STATUS.WAVE_FAIL p)).testBit w = false →
      let waves := s.f (XWF_PORT_STATUS.WAVES p)
      let spared := s.flag (XWF_PORT_STATUS.SPARE_V p)
      ∃ t, exec (.wavelengthFail p w) s = .next t ∧
        (s.ethernet p = true → w < 8 → state t = 1) ∧
        (s.ethernet p = true → w = 8 → state t = 2) ∧
        (s.ethernet p = false → w < 8 → spared = false → (s.f (XWF_PORT_STATUS.WAVE_FAIL p)).testBit 8 = false →
          state t = 2 ∧ t.flag (XWF_PORT_STATUS.SPARE_V p) = true ∧ t.f (XWF_PORT_STATUS.SPARE_W p) = w ∧
          t.f (XWF_PORT_STATUS.WAVES p) = waves) ∧
        (s.ethernet p = false → w = 8 → spared = false → state t = 2 ∧ t.f (XWF_PORT_STATUS.WAVES p) = waves) ∧
        (s.ethernet p = false → spared = true ∨ (s.f (XWF_PORT_STATUS.WAVE_FAIL p)).testBit 8 = true →
          (5 ≤ waves → state t = 2 ∧ t.f (XWF_PORT_STATUS.WAVES p) = waves - 1) ∧ (waves ≤ 4 → state t = 0))) ∧
    (s.portUp p = true → s.ethernet p = true →
      (upper = s.reg XWF_IPV6_PREFIX.at → lower.toNat = s.node →
        exec (.neighbourSolicitation p upper lower) s = .next { s with naOut := s.naOut ++ [p] }) ∧
      (upper ≠ s.reg XWF_IPV6_PREFIX.at ∨ lower.toNat ≠ s.node →
        exec (.neighbourSolicitation p upper lower) s = .next s)) ∧
    (p < 4 →
      (s.f (CXP_PORT_STATUS.MODE p) ≠ 0 → ∃ t, exec (.cxpLinkLoss p) s = .next t ∧
        t.f (CXP_PORT_STATUS.MODE p) = 0 ∧ t.f (CXP_PORT_STATUS.WIDTH p) = 0 ∧
        t.flag (CXP_PORT_STATUS.LINK_DOWN p) = true ∧ p ∈ t.cxpPerst) ∧
      (s.f (CXP_PORT_STATUS.MODE p) = 0 → s.flag (CXP_PORT_STATUS.LINK_DOWN p) = true → s.cxpPerst.contains p = true →
        s.domRuns (dCXP p) = true → cxpRateOk mode rate = true → 1 ≤ width → width ≤ 3 → devices ≤ 4 →
        ∃ t, exec (.cxpRetrainDone p mode rate width devices) s = .next t ∧ t.f (CXP_PORT_STATUS.MODE p) = mode ∧
          t.f (CXP_PORT_STATUS.RATE p) = rate ∧ t.f (CXP_PORT_STATUS.WIDTH p) = width ∧
          t.f (CXP_PORT_STATUS.DEVICES p) = devices))

/-! ## Clocks and crossings (chapter 19) -/

/-- A domain whose clock stops is PARKED where that is by design, and STOPPED and counted otherwise; its block is held in
HANG mode and refuses accesses in WAKE mode; it resynchronises when its clock runs again or when asked to, and runs once
the other side acknowledges. A clock out of range sets FREQ and the domain keeps running (R684 - R693). A COUNT crossing delivers every event that its source produced: after a sample what has been applied equals what was
produced, the destination holds as many more, and the source stalls rather than lose one (R683). -/
def Obligations.DomainsStopAndReturn : Prop :=
  (∀ (s : State) (d events : Nat) (job : Bool),
      let c := s.crossing d job
      let n := min events (2 ^ 31 - 1 - c.behind)
      d < 60 → ∃ t, exec (.countSample d events job) s = .next t ∧
        (t.crossing d job).produced = c.produced + BitVec.ofNat 32 n ∧
        (c.behind < 2 ^ 31 → (t.crossing d job).behind < 2 ^ 31 ∧
          (s.domRuns d = true → (t.crossing d job).applied = (t.crossing d job).produced ∧
            (t.crossing d job).total = c.total + BitVec.ofNat 64 (c.behind + n)) ∧
          (s.domRuns d = false → (t.crossing d job).applied = c.applied ∧ (t.crossing d job).total = c.total ∧
            (t.crossing d job).behind = c.behind + n)) ∧
        (∀ e k, 2 * e + k.toNat ≠ 2 * d + job.toNat → t.crossing e k = s.crossing e k)) ∧
  (∀ (s : State) (d : Nat) (osc : Bool) (by_ : Agent),
      let x := if osc then s.oscFail d else s
      d < 60 →
        (s.domRuns d = true ∨ s.domState d = 3 →
          (s.byDesign d = true → osc = false → exec (.domainStopped d osc) s = .next (s.setF (TDC_DOM_STATUS.STATE d) 1)) ∧
          (s.byDesign d = false → x.byDesign d = false ∧
            (x.flag (TDC_DOM_CTL.SCM d) = true → ∃ t, exec (.domainStopped d osc) s = .next t ∧ t.domState d = 2 ∧
              t.f (TDC_DOM_STATUS.STOPS d) = (s.f (TDC_DOM_STATUS.STOPS d) + 1) % 2 ^ 16 ∧
              t.flag (TDC_DOM_STATUS.HELD d) = true ∧ t.domWaits d = true ∧ (d = dZEN → t.zenLost = true)) ∧
            (x.flag (TDC_DOM_CTL.SCM d) = false → ∃ t, exec (.domainStopped d osc) s = .next t ∧ t.domState d = 2 ∧
              t.domRefuses d = true ∧ t.f (TDC_DOM_STATUS.STOPS d) = (s.f (TDC_DOM_STATUS.STOPS d) + 1) % 2 ^ 16 ∧
              (d = dDSK → t.flag TDC_OSC.DSK_ON_Z = true)))) ∧
        (s.domState d = 1 ∨ s.domState d = 2 → ∃ t, exec (.domainRunning d) s = .next t ∧ t.domState d = 3 ∧
          t.flag (TDC_DOM_STATUS.HELD d) = false) ∧
        (s.domRuns d = true → osc = false → ∃ t, exec (.freqOutOfRange d osc) s = .next t ∧ t.domRuns d = true ∧
          t.flag (TDC_DOM_STATUS.FREQ d) = true) ∧
        (s.accepts by_ (TDC_DOM_CTL.at d) = true → s.domRuns d = true →
          ∃ t, exec (.forceResync by_ d) s = .next t ∧ t.domState d = 3 ∧ t.cross = s.cross) ∧
        (s.domState d = 3 → d < 16 ∨ 32 ≤ d →
          exec (.rsyncAck d) s = .next (s.setF (TDC_DOM_STATUS.STATE d) 0)) ∧
        (s.domState d = 3 → 16 ≤ d → d < 32 →
          exec (.rsyncAck d) s = .next ((s.setF (TDC_DOM_STATUS.STATE d) 0).discardSent (d - 16))))

/-! ## Power and temperature (chapter 20, R752 - R755) -/

/-- A housekeeping round sets V_C and each stack's V_n and DUTY by the pseudocode of R706 and R708, held below the
ceilings that VMAX and the live phases set; an input peak lowers V_C by 50 mV at once and is counted and recorded (R702,
R706 - R708, R752 - R754). A trip clears once every node is cool enough and the trip was not for want of phases; samples are taken one after
another, and a domain that is off reads zero. A domain is switched on through RAMP and reads as off when switched off; a
shed converter lowers the two input limits, fewer than six or 80 phases trip for good, and a rail's last phase takes its
engine's domain off (R697 - R701, R711, R752 - R754). -/
def Obligations.PowerIsHeldDown : Prop :=
  (∀ (s : State) (r : Readings) (p10 n : Nat),
      let cap := min (s.f PWR_CAP.CAP_W) (s.f ZEN_PHASE_CAP.PH_CAP_W)
      let tc := hottest (s.nodes.take 13)
      let v := s.f TMD_STATUS.V_C
      let pin := s.f PWR_IN.P_ROUND
      let jc := s.f TMD_CTL.TJ_MAX_C
      let tb := s.node32 (13 + n)
      let jv := s.f TMD_CTL.TJ_MAX_V
      let tmax := s.signed (MSC_TEMP.TMAX n)
      let tgt : Int := s.f TMD_CTL.DRAM_TGT
      let vn := s.f (TMD_STK.V_N n)
      let duty := s.f (TMD_STK.DUTY n)
      let hot := (tempC jv).lt tb || decide (tmax > tgt)
      let cool := tb.lt (tempC ((jv : Int) - 2)) && decide (tmax < tgt - 2)
      (s.zenUp = true → s.ready = true → exec (.housekeepingRound r) s = .next (
        (((List.range 16).foldl State.throttleV
          (State.throttleC (State.checkTrip (State.stepModel (State.samplePower (State.readSensors
            { s with ms := s.ms + BitVec.ofNat 32 (s.f TMD_CTL.ROUND_MS) } r) r)))))
          |>.summaries).bump TMD_STATUS.ROUNDS 1)) ∧
      (s.throttleC.f TMD_STATUS.V_C = min s.ceilC
        (if pin > cap ∨ (tempC jc).lt tc = true then max (v - 10) 600
         else if pin + 50 < cap ∧ tc.lt (tempC ((jc : Int) - 2)) = true ∧ v < s.ceilC then v + 10 else v)) ∧
      (s.f ZEN_PHASE.VC_LIVE = 128 → 600 ≤ s.f TMD_CTL.VMAX_C → s.ceilC = s.f TMD_CTL.VMAX_C) ∧
      (n < 16 → duty ≤ 4 →
        (s.throttleV n).f (TMD_STK.V_N n) = min (s.ceilV n)
          (if hot = true then (if vn > 600 then vn - 10 else vn)
           else if cool = true ∧ duty = 0 ∧ vn < s.ceilV n then vn + 10 else vn) ∧
        (s.throttleV n).f (TMD_STK.DUTY n) =
          (if hot = true then (if vn > 600 then duty else min 4 (duty + 1))
           else if cool = true then duty - 1 else duty) ∧
        (s.vrgLive n = 2 → s.ceilV n ≤ 650) ∧ (s.vrgLive n = 1 → s.ceilV n ≤ 600)) ∧
      (s.pgood = true → p10 > s.f ZEN_PHASE_CAP.PH_PEAK_W → ∃ t, exec (.peakResponse p10) s = .next t ∧
        t.f TMD_STATUS.V_C = max 600 (v - 50) ∧ t.f PWR_CAP.PEAKS = (s.f PWR_CAP.PEAKS + 1) % 2 ^ 16)) ∧
  (∀ (s : State) (by_ : Agent) (dom : BitVec 5) (d n power : Nat) (rest : List Nat),
      let cool := (List.range 30).all (fun i => (s.node32 i).lt (tempC ((s.f TMD_CTL.TJ_MAX_C : Int) - 10)))
      let told := s.setFlag ZEN_ALERT.PHASE true
      let l := s.f ZEN_PHASE.BUS_LIVE
      let vc := s.f ZEN_PHASE.VC_LIVE
      (s.accepts by_ TMD_TRIP.at = true → s.flag TMD_STATUS.TRIPPED = true →
        (cool = true → s.tripHard = false →
          exec (.tripClear by_) s = .next (s.setFlag TMD_STATUS.TRIPPED false)) ∧
        (cool = false ∨ s.tripHard = true → exec (.tripClear by_) s = .next s)) ∧
      (s.accepts by_ PWR_SAMPLE.at = true → dom.toNat ≤ 29 → ∃ t, exec (.pwrSampleGo by_ dom) s = .next t ∧
        t.sampleQ = s.sampleQ ++ [dom.toNat] ∧ t.flag PWR_SAMPLE.BUSY = true ∧ t.f PWR_SAMPLE.DOM = dom.toNat) ∧
      (s.sampleQ = d :: rest → d < 30 → ∃ t, exec (.sampleDone power) s = .next t ∧ t.sampleQ = rest ∧
        t.flag PWR_SAMPLE.BUSY = !rest.isEmpty ∧
        t.f (PWR_DOM_STATUS.POWER d) = if s.f (PWR_DOM_STATUS.STATE d) = 2 then power % 2 ^ 16 else 0) ∧
      (d < 30 →
        (s.zenUp = true → s.powState d = 0 → s.wanted d = true →
          (List.range 30).all (fun e => s.powState e != 1 && (decide (d ≤ e) || s.powState e != 0 || !s.wanted e)) = true →
          ∃ t, exec (.domainSwitchOn d) s = .next t ∧ t.powState d = 1) ∧
        (s.powState d = 1 → ∃ t, exec (.domainRampDone d) s = .next t ∧ t.powState d = 2 ∧
          t.f (PWR_DOM_STATUS.VOLT d) = s.domVolt d ∧ (13 ≤ d → d < 29 → t.flag (VRG_STATUS.DOMAIN_OFF (d - 13)) = false)) ∧
        (d < 8 ∨ (13 ≤ d ∧ d ≤ 29) → s.zenUp = true → s.powState d ≠ 0 → s.wanted d = false → 8 ≤ d ∨ s.groupBusy d = false →
          ∃ t, exec (.domainSwitchOff d) s = .next t ∧ t.powState d = 0 ∧
            ∀ i, d < 8 → i < 25 → t.flag (ANV_STATUS.GROUP_OFF (25 * d + i)) = true)) ∧
      (7 ≤ l → l ≤ 10 → ∃ t, exec (.phaseShed .bus) s = .next t ∧ t.f ZEN_PHASE.BUS_LIVE = l - 1 ∧
        t.f ZEN_PHASE_CAP.PH_CAP_W = min 3200 (400 * (l - 1) - 600) ∧
        t.f ZEN_PHASE_CAP.PH_PEAK_W = min 3800 (400 * (l - 1) - 200)) ∧
      (1 ≤ l → l ≤ 6 → exec (.phaseShed .bus) s = .next ((told.setF ZEN_PHASE.BUS_LIVE (l - 1)).busLimits.hardTrip)) ∧
      (1 ≤ vc → vc ≤ 80 →
        let u := told.setF ZEN_PHASE.VC_LIVE (vc - 1)
        exec (.phaseShed .vc) s = .next (u.setF ZEN_PHASE_CAP.VMAX_EFF u.ceilC).hardTrip) ∧
      (81 ≤ vc → exec (.phaseShed .vc) s =
        .next ((told.setF ZEN_PHASE.VC_LIVE (vc - 1)).setF ZEN_PHASE_CAP.VMAX_EFF (told.setF ZEN_PHASE.VC_LIVE (vc - 1)).ceilC)) ∧
      (n < 16 → s.f (VRG_ID.MODE n) = 0 →
        (s.vrgLive n = 4 ∨ s.vrgLive n = 3 → ∃ t, exec (.phaseShed (.vrg n)) s = .next t ∧
          t.vrgLive n = s.vrgLive n - 1 ∧ (s.vrgLive n = 3 → t.f (TMD_STK.V_N n) ≤ 650)) ∧
        (s.vrgLive n = 2 → ∃ t, exec (.phaseShed (.vrg n)) s = .next t ∧ t.f (TMD_STK.V_N n) ≤ 600 ∧
          ((4, n) ∈ t.svcDue ∨ t.svc = some (4, n))) ∧
        (s.vrgLive n = 1 →
          let u := (told.setF ⟨ZEN_PHASE.at, 3 * n + 2, 3 * n⟩ 0)
          let w := u.setVN n (min (u.f (TMD_STK.V_N n)) (u.ceilV n))
          exec (.phaseShed (.vrg n)) s =
            .next ((((w.powerOff (13 + n)).setFlag (VRG_CTL.RETIRE n) true).setF (VRG_ID.MODE n) 1).vrgFault n))))

/-! ## Resets, boot and service (chapters 21 and 22) -/

/-- SB_PGOOD rising after it was low, a long SB_RESET_N and a keyed write of DEVICE_RESET are power-up resets, which keep
the far tier, the companion's memory and what the flash and the repair areas hold, empty the rest, and take every other
register to its reset value; SB_PGOOD low does the same and stops the module. The boot ends READY where the firmware
starts, and otherwise marks its copy for the next boot. A ZEN restart ends once its copy passes. Defective tiles get no
logical number, and no two tiles or numbers share one (R168, R716 - R718, R723, R725, R738, R763, R764). -/
def Obligations.ResetsAndBoot : Prop :=
  (∀ bad : List Nat, ((tileMap bad).map (·.1)).Nodup ∧ ((tileMap bad).map (·.2)).Nodup ∧
    ∀ x ∈ tileMap bad, x.1 < 200 ∧ x.2 < 192 ∧ bad.contains x.1 = false) ∧
  (∀ (s : State) (by_ : Agent) (key : BitVec 16) (devices : List (List Nat)) (links : List (Nat × Nat))
      (mV : Nat) (vdd byBoard : Bool),
    let t := s.nonvolatile
    let keyed := s.accepts by_ ZEN_RESET.at = true ∧ key = 0x5A17#16
    (t.pending = s.pending ∧ t.far = s.far ∧ t.comp = s.comp ∧ t.fwFloor = s.fwFloor ∧ t.recFloor = s.recFloor ∧
      t.retired = s.retired ∧ t.tiles = [] ∧ t.saved = [] ∧ t.pages = [] ∧ t.blank = [] ∧ t.merge = [] ∧ t.cache = [] ∧ t.scratch = [] ∧
      t.rqt = [] ∧ t.fwu = none ∧
      (∀ off, (∀ n, n < 16 → off ≠ (MSC_GEN.GEN n).off ∧
          ¬(0x2010000 + 0x100000 * n ≤ off ∧ off < 0x2018000 + 0x100000 * n)) → t.reg off = regReset off) ∧
      (∀ n, n < 16 → t.f (MSC_GEN.GEN n) = s.f (MSC_GEN.GEN n))) ∧
    (s.pgood = false → s.pgPull = false → s.inputOff = false →
      exec (.powerUpReset false) s = .next ({ s with pgood := true }.powerUp 0)) ∧
    (s.pgood = true → s.domRuns dSBD = true → exec (.powerUpReset true) s = .next (s.powerUp 1)) ∧
    (keyed → exec (.deviceReset by_ key) s = .next (s.powerUp 2) ∧
      (s.zenUp = true → s.recovery = false →
        exec (.zenRestart by_ key) s = .next { s with zenRestart := true, watchdog := false })) ∧
    (key ≠ 0x5A17#16 → exec (.deviceReset by_ key) s = .next s ∧ exec (.zenRestart by_ key) s = .next s) ∧
    (s.zenUp = true → s.recovery = false →
      exec .zenWatchdog s = .next { s with zenRestart := true, watchdog := true }) ∧
    (s.zenRestart = true →
      (s.copyCheck 0 (s.f ZEN_BOOT.FW_COPY) = 0 → ∃ u, exec .zenRestartDone s = .next u ∧ u.zenRestart = false ∧
        u.heldRecs = []) ∧
      (s.copyCheck 0 (s.f ZEN_BOOT.FW_COPY) ≠ 0 →
        exec .zenRestartDone s = .next { s with badCopy := some (s.f ZEN_BOOT.FW_COPY) })) ∧
    (s.f ZEN_BOOT.STATE = 1 → s.zenUp = true →
      (∃ u, exec (.bootDone true devices links) s = .next u ∧ u.ready = true ∧ u.badCopy = none) ∧
      exec (.bootDone false devices links) s = .next { s with badCopy := some (s.f ZEN_BOOT.FW_COPY) }) ∧
    (s.pgood = true → exec (.pgoodLow byBoard) s = .next { s.nonvolatile with pgood := false, pgPull := !byBoard }) ∧
    (s.inputOff = false →
      (s.pgood = true →
        exec .hotSwapTrip s = .next { s.nonvolatile with pgood := false, pgPull := true, inputOff := true }) ∧
      (s.pgood = false → exec .hotSwapTrip s = .next { s with pgPull := true, inputOff := true })) ∧
    exec .hotSwapRetry s = .next { s with inputOff := false } ∧
    (s.pgPull = true → s.inputOff = false → 40000 ≤ mV →
      exec (.sbPgoodRelease mV vdd) s = .next { s with pgPull := false, inputMv := mV, vddSb := vdd }))

/-- An update is written to the copy that does not run and read back; it ends with OK, or with FLASH where it does not
match; a second GO is BUSY; COMMIT raises the floors to the running SVNs; streamed chunks go to that copy in order, and
the end of the stream checks it. An object staged in a range whose every access is served, free of jobs, is checked, and its
write begins or the check's code is the result. A write that the flash's window holds back waits, and starts when the window opens (R713,
R724, R734 - R737). -/
def Obligations.UpdatesWriteTheOtherCopy : Prop :=
  ∀ (s r : State) (by_ : Agent) (u : Fwu) (off n lo hi : Nat) (bytes : List Byte),
    let kind := s.f ZEN_FWU_STATUS.KIND
    let src := s.f ZEN_FWU_CTL.SRC
    let len := 8192 + objNum (s.bytesAt ldrWho src 8192) 12 4
    let obj := s.bytesAt ldrWho src len
    let c := objCheck kind (s.floorOf kind) obj
    let base := copyAt u.kind u.copy
    let area := copySize u.kind
    (s.accepts by_ ZEN_FWU_CTL.at = true → s.zenUp = true → s.ready = true →
      (s.fwu = some u → exec (.fwuGo by_) s = .next (s.setF ZEN_FWU_STATUS.RESULT 2)) ∧
      (s.fwu = none → s.fwStream = none → s.f ZEN_FWU_STATUS.STATE = 0 → src % 4096 = 0 →
        s.calm ldrWho false lo hi = true → lo ≤ src → src + len ≤ hi → len ≤ copySize 0 →
        s.inStore src = true → s.inStore (src + 8191) = true → s.inStore (src + len - 1) = true →
        rangesMeet [(src, src + len - 1)] s.busyRanges = false →
          ∃ g, let y : State := { s with lastGran := g }
            (c ≠ 0 → exec (.fwuGo by_) s = .next (y.fwuEnd c)) ∧
            (c = 0 → len ≤ copySize kind → exec (.fwuGo by_) s = .next (y.fwuBegin
              ⟨kind, 1 - s.selected kind, if kind = 1 then Config.mergeRecord (s.running 1) obj else obj, false, false⟩))) ∧
      (s.fwu = none → s.fwStream = none → s.f ZEN_FWU_STATUS.STATE = 0 → startUpdate.go s = (.ok (), r) →
        exec (.fwuGo by_) s = .next r) ∧
      (∃ t, exec (.fwuCommit by_) s = .next t ∧ t.flash = s.flash ∧
        (n < 16 → SMap.get 0 t.fwFloor n = max (SMap.get 0 s.fwFloor n) (max (s.floorOf 0) (objSvn (s.running 0))) ∧
          SMap.get 0 t.recFloor n = max (SMap.get 0 s.recFloor n) (max (s.floorOf 1) (objSvn (s.running 1)))))) ∧
    (s.fwu = some u → u.repair = false → s.zenUp = true → s.domRuns dSBD = true → u.started = true →
      u.obj.length ≤ area →
      (∃ t, exec (.fwuWriteDone true) s = .next t ∧ t.f ZEN_FWU_STATUS.RESULT = 1 ∧ t.fwu = none ∧
        Bytes.rdList t.flash base u.obj.length = u.obj ∧
        (∀ a, a < base ∨ base + area ≤ a → Bytes.rd t.flash a = Bytes.rd s.flash a)) ∧
      (∃ t, exec (.fwuWriteDone false) s = .next t ∧ t.f ZEN_FWU_STATUS.RESULT = 6 ∧ t.fwu = none ∧
        (∀ a, a < base ∨ base + area ≤ a → Bytes.rd t.flash a = Bytes.rd s.flash a))) ∧
    (s.fwu = some u → u.started = false →
      (s.flashOpen = false → s.flag TMD_FLASH.FHOLD = false → ∃ t, exec .flashHoldBegin s = .next t ∧
        t.flag TMD_FLASH.FHOLD = true ∧ t.f ZEN_FWU_STATUS.STATE = 5 ∧ t.flash = s.flash) ∧
      (s.flashOpen = true → s.flag TMD_FLASH.FHOLD = true → ∃ t, exec .flashHoldEnd s = .next t ∧
        t.flag TMD_FLASH.FHOLD = false ∧ t.f ZEN_FWU_STATUS.STATE = 2 ∧ t.fwu = some { u with started := true })) ∧
    (s.sbUp = true → s.zenUp = true →
      (s.ready = true ∨ s.recovery = true → s.fwu = none → bytes.length = 4096 → off + 4096 ≤ copySize kind →
        off = 0 ∨ s.fwStream = some off → s.flashOpen = true →
        ∃ t, exec (.fwChunk off bytes) s = .next t ∧ t.fwStream = some (off + 4096) ∧
          Bytes.rdList t.flash (copyAt kind s.streamCopy + off) 4096 = bytes ∧
          (∀ a, a < copyAt kind s.streamCopy ∨ copyAt kind s.streamCopy + copySize kind ≤ a ∨
              (off ≠ 0 ∧ (a < copyAt kind s.streamCopy + off ∨ copyAt kind s.streamCopy + off + 4096 ≤ a)) →
            Bytes.rd t.flash a = Bytes.rd s.flash a)) ∧
      (s.fwStream = some off → exec .fwEnd s = .next (s.fwuEnd
        (if s.copyCheck kind s.streamCopy = 0 then 1 else s.copyCheck kind s.streamCopy))))

/-- An action that holds the slot acts on its target: a tile whose jobs have left it moves to its spare and is marked
retired, and without a spare the action fails; a migration starts at its first extent, or ends where there is none or no
room; an engine is marked RETIRING, and is plain with its domain off once no job uses it; a flash check looks at the four
copies and goes on to repair them, and comes due each day (R223, R741 - R749, R756). -/
def Obligations.ServiceActionsAct : Prop :=
  ∀ (s : State) (p sp g addr n : Nat) (w : W64) (ws : List W64),
    let chan := s.channelExtents (g / 32) (g % 32)
    let st := s.stackOf (addr / 4096)
    let c := (s.pageOfAddr addr).1
    let page := freeExtents (s.usedExtents st c) 0 (s.pageOfAddr addr).2
    let moves (row : Instr) (k ch : Nat) (exts : List (Nat × Nat)) : Prop := s.flag (MSC_COPY.ACTIVE k) = false →
      (s.planMigration k ch exts = none → exec row s = .next (s.endAction 4)) ∧
      (s.planMigration k ch exts = some [] → exec row s = .next (s.endAction 1)) ∧
      (s.planMigration k ch exts = some (w :: ws) → exec row s = .next ({ s with migTodo := w :: ws }.startExtent k))
    (s.zenUp = true →
      (s.svc = some (1, p) →
        (s.spareFor (p / 25) = none → exec (.retireTile p) s = .next (s.endAction 3)) ∧
        (p < 200 → s.f (ANV_ID.STATE p) = 0 → s.spareFor (p / 25) = some sp → s.onTiles (s.ltile p) = [] →
          s.powOn (sp / 25) = true → ∃ t, exec (.retireTile p) s = .next t ∧ t.svc = none ∧
            t.f (ANV_ID.STATE p) = 2 ∧ t.f (ANV_ID.LOGICAL p) = 255 ∧ t.f (ANV_ID.STATE sp) = 0 ∧
            t.f (ANV_ID.LOGICAL sp) = s.ltile p ∧ t.f ZEN_SVC_STATUS.RESULT = 1 ∧
            (∀ m, m < 16 → p ∈ SMap.get [] t.retired m))) ∧
      (s.svc = some (2, g) → moves (.migrateChannel g) (g / 32) (g % 32) chan) ∧
      (s.svc = some (3, addr) → moves (.migratePage addr) st c page) ∧
      (n < 16 → s.svc = some (4, n) → ∃ t, exec (.retireEngine n) s = .next t ∧ t.svc = none ∧
        t.flag (VRG_CTL.RETIRE n) = true ∧ t.f (VRG_ID.MODE n) = 1) ∧
      (s.svc = some (5, 0) → s.flashFree = true → exec .flashCheck s = .next (s.checkFlash.repairNext 0)) ∧
      (s.up = true → n < 16 → s.f (VRG_ID.MODE n) = 1 → s.engineUsed n = false →
        s.virgaBusy n = 0 →
        ∃ t, exec (.retireComplete n) s = .next t ∧ t.f (VRG_ID.MODE n) = 2 ∧ t.flag (VRG_CTL.PLAIN n) = true ∧
          t.powState (13 + n) = 0 ∧ ∀ k, k < 65536 → t.slot n k = Slot.zero)) ∧
    (s.ready = true → ∃ t, exec .flashCheckTimer s = .next t ∧ ((5, 0) ∈ t.svcDue ∨ t.svc = some (5, 0)))

/-! ## Attestation and the test port (chapter 21) -/

/-- The responder answers a request in the connection state that the request needs, and UnexpectedRequest in another one;
it signs challenges and measurements with the alias key, and answers an error where there is none. Test port clocks walk
the controller of IEEE 1149.1: five with TMS high, or TRST, reset it from any state (R731 - R733, R736). -/
def Obligations.RequestsAreAnswered : Prop :=
  ∀ (s : State) (tr slot off len index code : Nat) (nonce : List Byte) (signed : Bool) (bits : List (Bool × Bool)),
    let replies (i : Instr) (stage : Nat) (r : SpdmRsp) : Prop := exec i s = .next
      { s with spdm := SMap.put 0 s.spdm tr stage, spdmOut := s.spdmOut ++ [(tr, r)] }
    let stage := SMap.get 0 s.spdm tr
    let needs (i : Instr) (n next : Nat) (r : SpdmRsp) : Prop :=
      (stage = n → replies i next r) ∧ (stage ≠ n → replies i stage (.error 4))
    let chain := s.certChain
    let key := s.flag ZEN_BOOT.UNLOCKED = false ∧ s.certs ≠ []
    let asked := if index = 0 then [] else if index = 255 then s.blocks else s.blocks.filter (fun b => b.1 == index)
    (s.spdmUp tr = true →
      replies (.getVersion tr) 1 (.version [3]) ∧
      needs (.getCapabilities tr) 1 2 (.capabilities true true true) ∧
      needs (.negotiateAlgorithms tr true true) 2 3 .algorithms ∧
      needs (.negotiateAlgorithms tr false signed) 2 2 (.error 1) ∧
      needs (.negotiateAlgorithms tr signed false) 2 2 (.error 1) ∧
      needs (.getDigests tr) 3 3 (.digests (if s.certs = [] then [] else [(0, digest64 chain)])) ∧
      (key → slot = 0 → off < chain.length → needs (.getCertificate tr slot off len) 3 3
        (.certificate 0 ((chain.drop off).take len) (chain.length - off - min len (chain.length - off)))) ∧
      (key → slot ≠ 0 ∨ chain.length ≤ off → needs (.getCertificate tr slot off len) 3 3 (.error 1)) ∧
      (key → slot ≠ 0 → needs (.challenge tr slot nonce) 3 3 (.error 1)) ∧
      (key → slot = 0 → needs (.challenge tr slot nonce) 3 3 (.challengeAuth (digest64 chain) s.summary
        (Config.sign s.aliasSeed (nonce ++ digest64 chain ++ s.summary)))) ∧
      (s.flag ZEN_BOOT.UNLOCKED = true ∨ s.certs = [] →
        needs (.getCertificate tr slot off len) 3 3 (.error 5) ∧ needs (.challenge tr slot nonce) 3 3 (.error 5)) ∧
      (index = 0 ∨ asked ≠ [] →
        needs (.getMeasurements tr index false nonce) 3 3 (.measurements s.blocks.length asked []) ∧
        (s.aliasSeed ≠ [] → needs (.getMeasurements tr index true nonce) 3 3 (.measurements s.blocks.length asked
          (Config.sign s.aliasSeed (nonce ++ asked.flatMap (fun b => leBytes 1 b.1 ++ b.2)))))) ∧
      (index ≠ 0 → asked = [] → needs (.getMeasurements tr index false nonce) 3 3 (.error 1)) ∧
      (s.aliasSeed = [] → needs (.getMeasurements tr index true nonce) 3 3 (.error 5)) ∧
      replies (.unsupportedRequest tr code) stage (.error 7)) ∧
    (s.pgood = true →
      (∃ t, exec (.jtagTapAccess true []) s = .next t ∧ t.tap = 0 ∧ t.tapIr = tapBypass ∧ t.tdo = []) ∧
      (s.tap < 16 → bits.length = 5 → bits.all (fun b => b.1) = true →
        ∃ t, exec (.jtagTapAccess false bits) s = .next t ∧ t.tap = 0 ∧ t.tapIr = tapBypass) ∧
      (s.tap = 4 → bits.all (fun b => b.1 == false) = true → ∃ t, exec (.jtagTapAccess false bits) s = .next t ∧
        t.tap = 4 ∧ t.tdo ++ t.tapShift = s.tapShift ++ bits.map (fun b => b.2)))
end

