-- ==== Sys2Proof/Laws/Sparse.lean ====
section
/-! SUPPORT. Laws of sparse maps and byte memories: reading after writing, and the canonical form that every operation
keeps. -/
namespace Sys2Proof

variable {α : Type}

/-! ## Reading after writing -/

theorem SMap.get_erase (d : α) (m : SMap α) (k i : Nat) :
    SMap.get d (SMap.erase m k) i = if i = k then d else SMap.get d m i := by
  induction m with
  | nil => simp [SMap.erase, SMap.get]
  | cons p t ih =>
    obtain ⟨a, v⟩ := p
    simp only [SMap.erase]
    by_cases h : a = k
    · subst h
      rw [if_pos rfl, ih]
      by_cases hi : i = a
      · simp [hi]
      · simp [SMap.get, hi, Ne.symm hi]
    · rw [if_neg h]
      by_cases hi : a = i
      · subst hi
        simp [SMap.get, h]
      · simp [SMap.get, hi, ih]

theorem SMap.get_insert (d : α) (m : SMap α) (k i : Nat) (v : α) (hk : ∀ p ∈ m, p.1 ≠ k) :
    SMap.get d (SMap.insert m k v) i = if i = k then v else SMap.get d m i := by
  induction m with
  | nil =>
    by_cases h : k = i
    · simp [SMap.insert, SMap.get, h]
    · simp [SMap.insert, SMap.get, h, Ne.symm h]
  | cons p t ih =>
    obtain ⟨a, w⟩ := p
    have hak : a ≠ k := hk (a, w) (by simp)
    have ht : ∀ p ∈ t, p.1 ≠ k := fun p hp => hk p (by simp [hp])
    simp only [SMap.insert]
    by_cases h : k < a
    · rw [if_pos h]
      by_cases hi : k = i
      · simp [SMap.get, hi]
      · simp [SMap.get, hi, Ne.symm hi]
    · rw [if_neg h]
      by_cases hi : a = i
      · subst hi
        simp [SMap.get, hak]
      · simp [SMap.get, hi, ih ht]

theorem SMap.erase_keys (m : SMap α) (k : Nat) : ∀ p ∈ SMap.erase m k, p.1 ≠ k ∧ p ∈ m := by
  induction m with
  | nil => simp [SMap.erase]
  | cons p t ih =>
    obtain ⟨a, v⟩ := p
    intro q hq
    by_cases h : a = k
    · simp only [SMap.erase, if_pos h] at hq
      exact ⟨(ih q hq).1, List.mem_cons_of_mem _ (ih q hq).2⟩
    · simp only [SMap.erase, if_neg h, List.mem_cons] at hq
      rcases hq with rfl | hq
      · exact ⟨h, List.mem_cons_self⟩
      · exact ⟨(ih q hq).1, List.mem_cons_of_mem _ (ih q hq).2⟩

/-- A read after a write: the value at the key written, what it was elsewhere. -/
theorem SMap.get_put [DecidableEq α] (d : α) (m : SMap α) (k i : Nat) (v : α) :
    SMap.get d (SMap.put d m k v) i = if i = k then v else SMap.get d m i := by
  unfold SMap.put
  by_cases h : v = d
  · rw [if_pos h, SMap.get_erase, h]
  · rw [if_neg h, SMap.get_insert d _ k i v (fun p hp => (SMap.erase_keys m k p hp).1), SMap.get_erase]
    by_cases hi : i = k <;> simp [hi]

@[simp] theorem SMap.get_put_self [DecidableEq α] (d : α) (m : SMap α) (k : Nat) (v : α) :
    SMap.get d (SMap.put d m k v) k = v := by rw [SMap.get_put, if_pos rfl]

theorem SMap.get_put_other [DecidableEq α] (d : α) (m : SMap α) {k i : Nat} (v : α) (h : i ≠ k) :
    SMap.get d (SMap.put d m k v) i = SMap.get d m i := by rw [SMap.get_put, if_neg h]

/-! ## The canonical form -/

theorem SMap.wf_cons [DecidableEq α] (d : α) (a : Nat) (v : α) (t : SMap α) :
    SMap.wf d ((a, v) :: t) = true ↔ v ≠ d ∧ (∀ p ∈ t, a < p.1) ∧ SMap.wf d t = true := by
  simp [SMap.wf, and_assoc]

/-- Removing entries keeps the form. -/
theorem SMap.wf_filter [DecidableEq α] (d : α) (m : SMap α) (f : Nat × α → Bool) (h : SMap.wf d m = true) :
    SMap.wf d (m.filter f) = true := by
  induction m with
  | nil => rfl
  | cons p t ih =>
    obtain ⟨a, v⟩ := p
    obtain ⟨h1, h2, h3⟩ := (SMap.wf_cons d a v t).1 h
    by_cases hf : f (a, v)
    · rw [List.filter_cons_of_pos hf]
      exact (SMap.wf_cons d a v _).2 ⟨h1, fun p hp => h2 p (List.mem_filter.1 hp).1, ih h3⟩
    · rw [List.filter_cons_of_neg hf]
      exact ih h3

theorem SMap.erase_eq_filter (m : SMap α) (k : Nat) : SMap.erase m k = m.filter (fun p => decide (p.1 ≠ k)) := by
  induction m with
  | nil => rfl
  | cons p t ih =>
    obtain ⟨a, v⟩ := p
    by_cases h : a = k <;> simp [SMap.erase, h, ih]

theorem SMap.wf_erase [DecidableEq α] (d : α) (m : SMap α) (k : Nat) (h : SMap.wf d m = true) :
    SMap.wf d (SMap.erase m k) = true := by
  rw [SMap.erase_eq_filter]
  exact SMap.wf_filter d m _ h

theorem SMap.insert_mem (m : SMap α) (k : Nat) (v : α) : ∀ p ∈ SMap.insert m k v, p = (k, v) ∨ p ∈ m := by
  induction m with
  | nil => simp [SMap.insert]
  | cons q t ih =>
    obtain ⟨a, w⟩ := q
    intro p hp
    by_cases h : k < a
    · simp only [SMap.insert, if_pos h, List.mem_cons] at hp
      simpa using hp
    · simp only [SMap.insert, if_neg h, List.mem_cons] at hp
      rcases hp with rfl | hp
      · simp
      · rcases ih p hp with h1 | h1 <;> simp [h1]

theorem SMap.wf_insert [DecidableEq α] (d : α) (m : SMap α) (k : Nat) (v : α) (hv : v ≠ d) (hk : ∀ p ∈ m, p.1 ≠ k)
    (h : SMap.wf d m = true) : SMap.wf d (SMap.insert m k v) = true := by
  induction m with
  | nil => simp [SMap.insert, SMap.wf, hv]
  | cons q t ih =>
    obtain ⟨a, w⟩ := q
    obtain ⟨h1, h2, h3⟩ := (SMap.wf_cons d a w t).1 h
    have hak : a ≠ k := hk (a, w) (by simp)
    have ht : ∀ p ∈ t, p.1 ≠ k := fun p hp => hk p (by simp [hp])
    by_cases hlt : k < a
    · simp only [SMap.insert, if_pos hlt]
      refine (SMap.wf_cons d k v _).2 ⟨hv, ?_, h⟩
      intro p hp
      rcases List.mem_cons.1 hp with rfl | hp
      · exact hlt
      · exact lt_trans hlt (h2 p hp)
    · simp only [SMap.insert, if_neg hlt]
      refine (SMap.wf_cons d a w _).2 ⟨h1, ?_, ih ht h3⟩
      intro p hp
      rcases SMap.insert_mem t k v p hp with rfl | hp
      · exact lt_of_le_of_ne (Nat.le_of_not_lt hlt) hak
      · exact h2 p hp

theorem SMap.wf_put [DecidableEq α] (d : α) (m : SMap α) (k : Nat) (v : α) (h : SMap.wf d m = true) :
    SMap.wf d (SMap.put d m k v) = true := by
  unfold SMap.put
  by_cases hv : v = d
  · rw [if_pos hv]
    exact SMap.wf_erase d m k h
  · rw [if_neg hv]
    exact SMap.wf_insert d _ k v hv (fun p hp => (SMap.erase_keys m k p hp).1) (SMap.wf_erase d m k h)

theorem SMap.wf_dropRange [DecidableEq α] (d : α) (m : SMap α) (lo n : Nat) (h : SMap.wf d m = true) :
    SMap.wf d (SMap.dropRange m lo n) = true := SMap.wf_filter d m _ h

/-- A key before all entries reads as unlisted. -/
theorem SMap.get_head_lt (d : α) (m : SMap α) (k : Nat) (h : ∀ p ∈ m, k < p.1) : SMap.get d m k = d := by
  induction m with
  | nil => rfl
  | cons p t ih =>
    obtain ⟨a, v⟩ := p
    have : a ≠ k := by have := h (a, v) (by simp); simp at this; omega
    simp [SMap.get, this, ih (fun p hp => h p (by simp [hp]))]

/-! ## Byte memories -/

theorem Bytes.rd_wr (m : Bytes) (a i : Nat) (v : Byte) :
    Bytes.rd (Bytes.wr m a v) i = if i = a then v else Bytes.rd m i := SMap.get_put _ _ _ _ _

theorem Bytes.wr_wf (m : Bytes) (a : Nat) (v : Byte) (h : Bytes.wf m = true) : Bytes.wf (Bytes.wr m a v) = true :=
  SMap.wf_put _ _ _ _ h

theorem Bytes.wrList_wf (bs : List Byte) : ∀ (m : Bytes) (a : Nat), Bytes.wf m = true →
    Bytes.wf (Bytes.wrList m a bs) = true := by
  induction bs with
  | nil => intro m a h; exact h
  | cons b t ih => intro m a h; exact ih _ _ (Bytes.wr_wf m a b h)

/-- A run of bytes leaves every other address alone. -/
theorem Bytes.rd_wrList_other (bs : List Byte) : ∀ (m : Bytes) (a i : Nat), (i < a ∨ a + bs.length ≤ i) →
    Bytes.rd (Bytes.wrList m a bs) i = Bytes.rd m i := by
  induction bs with
  | nil => intro m a i _; rfl
  | cons b t ih =>
    intro m a i h
    simp only [List.length_cons] at h
    rw [Bytes.wrList, ih _ _ _ (by omega), Bytes.rd_wr, if_neg (by omega)]

/-- A byte of a run reads as written. -/
theorem Bytes.rd_wrList_in (bs : List Byte) : ∀ (m : Bytes) (a k : Nat) (h : k < bs.length),
    Bytes.rd (Bytes.wrList m a bs) (a + k) = bs[k] := by
  induction bs with
  | nil => intro m a k h; simp at h
  | cons b t ih =>
    intro m a k h
    match k with
    | 0 =>
      rw [Bytes.wrList, Bytes.rd_wrList_other _ _ _ _ (by omega), Bytes.rd_wr, if_pos (Nat.add_zero a)]
      rfl
    | k + 1 =>
      have := ih (Bytes.wr m a b) (a + 1) k (by simpa using h)
      rw [Bytes.wrList, show a + (k + 1) = a + 1 + k by omega, this]
      rfl

/-- The run read back. -/
theorem Bytes.rdList_wrList (bs : List Byte) (m : Bytes) (a : Nat) :
    Bytes.rdList (Bytes.wrList m a bs) a bs.length = bs := by
  have key : ∀ (n : Nat) (m' : Bytes) (b : Nat) (l : List Byte), l.length = n →
      (∀ k (h : k < l.length), Bytes.rd m' (b + k) = l[k]) → Bytes.rdList m' b n = l := by
    intro n
    induction n with
    | zero => intro m' b l hl _; rw [List.length_eq_zero_iff.1 hl]; rfl
    | succ n ih =>
      intro m' b l hl h
      match l, hl with
      | x :: t, hl =>
        rw [Bytes.rdList]
        have h0 := h 0 (by simp)
        simp only [Nat.add_zero, List.getElem_cons_zero] at h0
        rw [h0, ih m' (b + 1) t (by simpa using hl) (fun k hk => by
          have := h (k + 1) (by simpa using hk)
          rw [show b + 1 + k = b + (k + 1) by omega, this]
          rfl)]
  exact key _ _ _ _ rfl (fun k h => Bytes.rd_wrList_in bs m a k h)

/-! ## Little-endian numbers (R6) -/

theorem leBytes_length (n : Nat) : ∀ v, (leBytes n v).length = n := by
  induction n with
  | zero => intro v; rfl
  | succ n ih => intro v; simp [leBytes, ih]

/-- n bytes of a number give it back modulo 2^(8 n). -/
theorem leNat_leBytes (n : Nat) : ∀ v, leNat (leBytes n v) = v % 2 ^ (8 * n) := by
  induction n with
  | zero => intro v; simp [leBytes, leNat, Nat.mod_one]
  | succ n ih =>
    intro v
    simp only [leBytes, leNat, ih, BitVec.toNat_ofNat]
    rw [show 8 * (n + 1) = 8 + 8 * n by omega, Nat.pow_add, Nat.mod_mul]

/-! ## Runs -/

theorem SMap.sorted_cons (a : Nat) (v : α) (t : SMap α) :
    SMap.sorted ((a, v) :: t) = true ↔ (∀ p ∈ t, a < p.1) ∧ SMap.sorted t = true := by
  simp [SMap.sorted]

/-- Below its first entry a run map gives d. -/
theorem Runs.get_below (d : α) (m : SMap α) (k : Nat) (h : ∀ p ∈ m, k < p.1) : Runs.get d m k = d := by
  cases m with
  | nil => rfl
  | cons p t => simp [Runs.get, h p (by simp)]

theorem Runs.get_norm [DecidableEq α] (d : α) (m : SMap α) (k : Nat) (h : SMap.sorted m = true) :
    Runs.get d (Runs.norm d m) k = Runs.get d m k := by
  induction m generalizing d with
  | nil => rfl
  | cons p t ih =>
    obtain ⟨a, v⟩ := p
    obtain ⟨h1, h2⟩ := (SMap.sorted_cons a v t).1 h
    by_cases hv : v = d
    · subst hv
      rw [Runs.norm, if_pos rfl, ih _ h2, Runs.get]
      by_cases hk : k < a
      · rw [if_pos hk, Runs.get_below _ _ _ (fun p hp => Nat.lt_trans hk (h1 p hp))]
      · rw [if_neg hk]
    · rw [Runs.norm, if_neg hv, Runs.get, Runs.get, ih _ h2]

theorem Runs.norm_keys [DecidableEq α] (d : α) (m : SMap α) : ∀ p ∈ Runs.norm d m, p ∈ m := by
  induction m generalizing d with
  | nil => simp [Runs.norm]
  | cons q t ih =>
    obtain ⟨a, v⟩ := q
    intro p hp
    by_cases hv : v = d
    · rw [Runs.norm, if_pos hv] at hp
      exact List.mem_cons_of_mem _ (ih _ p hp)
    · rw [Runs.norm, if_neg hv, List.mem_cons] at hp
      rcases hp with rfl | hp
      · exact List.mem_cons_self
      · exact List.mem_cons_of_mem _ (ih _ p hp)

theorem Runs.wf_norm [DecidableEq α] (d : α) (m : SMap α) (h : SMap.sorted m = true) : Runs.wf d (Runs.norm d m) = true := by
  induction m generalizing d with
  | nil => rfl
  | cons p t ih =>
    obtain ⟨a, v⟩ := p
    obtain ⟨h1, h2⟩ := (SMap.sorted_cons a v t).1 h
    by_cases hv : v = d
    · rw [Runs.norm, if_pos hv]
      exact ih _ h2
    · rw [Runs.norm, if_neg hv, Runs.wf]
      simp only [Bool.and_eq_true, decide_eq_true_eq, List.all_eq_true]
      exact ⟨⟨hv, fun p hp => h1 p (Runs.norm_keys _ _ p hp)⟩, ih _ h2⟩

theorem Runs.wf_sorted [DecidableEq α] (d : α) (m : SMap α) (h : Runs.wf d m = true) : SMap.sorted m = true := by
  induction m generalizing d with
  | nil => rfl
  | cons p t ih =>
    simp only [Runs.wf, Bool.and_eq_true] at h
    simp [SMap.sorted, h.1.2, ih _ h.2]

theorem SMap.sorted_filter (m : SMap α) (f : Nat × α → Bool) (h : SMap.sorted m = true) : SMap.sorted (m.filter f) = true := by
  induction m with
  | nil => rfl
  | cons p t ih =>
    obtain ⟨a, v⟩ := p
    obtain ⟨h1, h2⟩ := (SMap.sorted_cons a v t).1 h
    by_cases hf : f (a, v)
    · rw [List.filter_cons_of_pos hf]
      exact (SMap.sorted_cons a v _).2 ⟨fun p hp => h1 p (List.mem_filter.1 hp).1, ih h2⟩
    · rw [List.filter_cons_of_neg hf]
      exact ih h2

theorem SMap.sorted_append (l r : SMap α) (hl : SMap.sorted l = true) (hr : SMap.sorted r = true)
    (h : ∀ p ∈ l, ∀ q ∈ r, p.1 < q.1) : SMap.sorted (l ++ r) = true := by
  induction l with
  | nil => exact hr
  | cons p t ih =>
    obtain ⟨a, v⟩ := p
    obtain ⟨h1, h2⟩ := (SMap.sorted_cons a v t).1 hl
    refine (SMap.sorted_cons a v _).2 ⟨fun q hq => ?_, ih h2 (fun p hp => h p (List.mem_cons_of_mem _ hp))⟩
    rcases List.mem_append.1 hq with hq | hq
    · exact h1 q hq
    · exact h (a, v) List.mem_cons_self q hq

/-- What Runs.set normalises is sorted. -/
theorem Runs.set_sorted [DecidableEq α] (d : α) (m : SMap α) (lo n : Nat) (v : α) (hn : n ≠ 0) (h : SMap.sorted m = true) :
    SMap.sorted (m.filter (fun p => decide (p.1 < lo)) ++ [(lo, v), (lo + n, Runs.get d m (lo + n))] ++
      m.filter (fun p => decide (lo + n < p.1))) = true := by
  rw [List.append_assoc]
  refine SMap.sorted_append _ _ (SMap.sorted_filter _ _ h)
    (SMap.sorted_append _ _ ?_ (SMap.sorted_filter _ _ h) ?_) ?_
  · simp [SMap.sorted]; omega
  · intro p hp q hq
    have h2 := (List.mem_filter.1 hq).2
    simp only [List.mem_cons, List.not_mem_nil, or_false] at hp
    simp only [decide_eq_true_eq] at h2
    rcases hp with rfl | rfl <;> simp only <;> omega
  · intro p hp q hq
    have h1 := (List.mem_filter.1 hp).2
    simp only [decide_eq_true_eq] at h1
    rcases List.mem_append.1 hq with hq | hq
    · simp only [List.mem_cons, List.not_mem_nil, or_false] at hq
      rcases hq with rfl | rfl <;> simp only <;> omega
    · have h2 := (List.mem_filter.1 hq).2
      simp only [decide_eq_true_eq] at h2
      omega

/-- A run set keeps the form. -/
theorem Runs.wf_set [DecidableEq α] (d : α) (m : SMap α) (lo n : Nat) (v : α) (h : Runs.wf d m = true) :
    Runs.wf d (Runs.set d m lo n v) = true := by
  unfold Runs.set
  by_cases hn : n = 0
  · rw [if_pos hn]; exact h
  · rw [if_neg hn]
    exact Runs.wf_norm _ _ (Runs.set_sorted d m lo n v hn (Runs.wf_sorted d m h))

/-- From an entry on, what stands before it does not matter. -/
theorem Runs.get_after (d : α) (l r : SMap α) (a k : Nat) (v : α) (hl : ∀ p ∈ l, p.1 ≤ k) (ha : a ≤ k) :
    Runs.get d (l ++ (a, v) :: r) k = Runs.get v r k := by
  induction l generalizing d with
  | nil => simp [Runs.get, Nat.not_lt.2 ha]
  | cons p t ih =>
    have hp : p.1 ≤ k := hl p List.mem_cons_self
    rw [List.cons_append, Runs.get, if_neg (Nat.not_lt.2 hp)]
    exact ih _ (fun q hq => hl q (List.mem_cons_of_mem _ hq))

theorem Runs.get_before (d : α) (m r : SMap α) (lo k : Nat) (hk : k < lo) (h : SMap.sorted m = true)
    (hr : ∀ p ∈ r, lo ≤ p.1) :
    Runs.get d (m.filter (fun p => decide (p.1 < lo)) ++ r) k = Runs.get d m k := by
  induction m generalizing d with
  | nil => exact Runs.get_below _ _ _ (fun p hp => Nat.lt_of_lt_of_le hk (hr p (by simpa using hp)))
  | cons q t ih =>
    obtain ⟨b, w⟩ := q
    obtain ⟨h1, h2⟩ := (SMap.sorted_cons b w t).1 h
    by_cases hb : b < lo
    · rw [List.filter_cons_of_pos (by simpa using hb), List.cons_append, Runs.get, Runs.get, ih _ h2]
    · rw [Runs.get_below d ((b, w) :: t) k (fun p hp => by
        rcases List.mem_cons.1 hp with rfl | hp
        · simp only; omega
        · have := h1 p hp; omega)]
      refine Runs.get_below _ _ _ (fun p hp => ?_)
      rcases List.mem_append.1 hp with hp | hp
      · obtain ⟨hm, hlt⟩ := List.mem_filter.1 hp
        simp only [decide_eq_true_eq] at hlt
        rcases List.mem_cons.1 hm with rfl | hm
        · simp only at hlt; omega
        · have := h1 p hm; omega
      · have := hr p hp; omega

theorem Runs.get_beyond (d : α) (m : SMap α) (e k : Nat) (hk : e ≤ k) (h : SMap.sorted m = true) :
    Runs.get (Runs.get d m e) (m.filter (fun p => decide (e < p.1))) k = Runs.get d m k := by
  induction m generalizing d with
  | nil => rfl
  | cons q t ih =>
    obtain ⟨b, w⟩ := q
    obtain ⟨h1, h2⟩ := (SMap.sorted_cons b w t).1 h
    by_cases hb : e < b
    · have hall : ((b, w) :: t).filter (fun p => decide (e < p.1)) = (b, w) :: t := by
        refine List.filter_eq_self.2 (fun p hp => ?_)
        rcases List.mem_cons.1 hp with rfl | hp
        · simpa using hb
        · have := h1 p hp; simp; omega
      rw [hall, Runs.get_below d ((b, w) :: t) e (fun p hp => by
        rcases List.mem_cons.1 hp with rfl | hp
        · exact hb
        · have := h1 p hp; omega)]
    · rw [List.filter_cons_of_neg (by simpa using hb), Runs.get, if_neg hb, Runs.get, if_neg (by omega), ih _ h2]

/-- A read after a run was set: v inside it, what it was elsewhere. -/
theorem Runs.get_set [DecidableEq α] (d : α) (m : SMap α) (lo n k : Nat) (v : α) (h : SMap.sorted m = true) :
    Runs.get d (Runs.set d m lo n v) k = if lo ≤ k ∧ k < lo + n then v else Runs.get d m k := by
  unfold Runs.set
  by_cases hn : n = 0
  · rw [if_pos hn, if_neg (by omega)]
  · rw [if_neg hn, Runs.get_norm _ _ _ (Runs.set_sorted d m lo n v hn h), List.append_assoc]
    have hf : ∀ p ∈ m.filter (fun p => decide (p.1 < lo)), p.1 < lo := fun p hp => by
      simpa using (List.mem_filter.1 hp).2
    by_cases hlo : k < lo
    · rw [if_neg (by omega)]
      refine Runs.get_before d m _ lo k hlo h (fun p hp => ?_)
      simp only [List.cons_append, List.nil_append, List.mem_cons, List.mem_filter, decide_eq_true_eq] at hp
      rcases hp with rfl | rfl | ⟨-, hp⟩ <;> (try simp only) <;> omega
    · rw [List.cons_append, Runs.get_after d _ _ lo k v (fun p hp => by have := hf p hp; omega) (by omega)]
      by_cases hhi : k < lo + n
      · rw [if_pos (by omega)]
        refine Runs.get_below _ _ _ (fun p hp => ?_)
        simp only [List.cons_append, List.nil_append, List.mem_cons, List.mem_filter, decide_eq_true_eq] at hp
        rcases hp with rfl | ⟨-, hp⟩ <;> (try simp only) <;> omega
      · rw [if_neg (by omega), List.cons_append, List.nil_append, Runs.get, if_neg hhi,
          Runs.get_beyond d m (lo + n) k (by omega) h]

end Sys2Proof
end

