-- ==== Sys2Proof/Laws/Fields.lean ====
section
/-! SUPPORT. Laws of register fields: a field set reads back, and its neighbours and other registers stay. -/
namespace Sys2Proof

/-- Replacing the middle of a number cut at lo and lo + k. -/
theorem fieldCut (n lo k x : Nat) :
    n - n / 2 ^ lo % 2 ^ k * 2 ^ lo + x * 2 ^ lo = n % 2 ^ lo + 2 ^ lo * (x + 2 ^ k * (n / 2 ^ lo / 2 ^ k)) := by
  have h1 : n = n % 2 ^ lo + 2 ^ lo * (n / 2 ^ lo % 2 ^ k + 2 ^ k * (n / 2 ^ lo / 2 ^ k)) := by
    rw [Nat.mod_add_div (n / 2 ^ lo), Nat.mod_add_div]
  have h2 : n - n / 2 ^ lo % 2 ^ k * 2 ^ lo = n % 2 ^ lo + 2 ^ lo * (2 ^ k * (n / 2 ^ lo / 2 ^ k)) := by
    rw [Nat.mul_add] at h1
    have := Nat.mul_comm (n / 2 ^ lo % 2 ^ k) (2 ^ lo)
    omega
  rw [h2, Nat.mul_add, Nat.mul_comm x]
  omega

theorem setFld_toNat (w : W64) (hi lo v : Nat) (h : hi < 64) (hl : lo ≤ hi) :
    (setFld w hi lo v).toNat =
      w.toNat % 2 ^ lo + 2 ^ lo * (v % 2 ^ (hi + 1 - lo) + 2 ^ (hi + 1 - lo) * (w.toNat / 2 ^ lo / 2 ^ (hi + 1 - lo))) := by
  unfold setFld
  simp only [BitVec.toNat_ofNat, fieldCut]
  refine Nat.mod_eq_of_lt ?_
  have hw := w.isLt
  have h64 : 2 ^ 64 = 2 ^ lo * (2 ^ (hi + 1 - lo) * 2 ^ (63 - hi)) := by
    rw [← Nat.pow_add, ← Nat.pow_add]
    congr 1
    omega
  have h1 : w.toNat / 2 ^ lo / 2 ^ (hi + 1 - lo) < 2 ^ (63 - hi) := by
    rw [Nat.div_lt_iff_lt_mul (by positivity), Nat.div_lt_iff_lt_mul (by positivity)]
    calc w.toNat < 2 ^ 64 := hw
      _ = _ := by rw [h64]; ring
  have h2 : v % 2 ^ (hi + 1 - lo) < 2 ^ (hi + 1 - lo) := Nat.mod_lt _ (by positivity)
  have h3 : w.toNat % 2 ^ lo < 2 ^ lo := Nat.mod_lt _ (by positivity)
  rw [h64]
  generalize 2 ^ (hi + 1 - lo) = m at *
  generalize 2 ^ (63 - hi) = u at *
  generalize 2 ^ lo = q at *
  generalize w.toNat / q / m = c at *
  have hx : v % m + m * c < m * u := by
    calc v % m + m * c < m + m * c := by omega
      _ = m * (c + 1) := by ring
      _ ≤ m * u := Nat.mul_le_mul_left _ h1
  calc w.toNat % q + q * (v % m + m * c) < q + q * (v % m + m * c) := by omega
    _ = q * (v % m + m * c + 1) := by ring
    _ ≤ q * (m * u) := Nat.mul_le_mul_left _ hx

/-- A field set reads as the value's low bits. -/
theorem fld_setFld_self (w : W64) (hi lo v : Nat) (h : hi < 64) (hl : lo ≤ hi) :
    fld (setFld w hi lo v) hi lo = v % 2 ^ (hi + 1 - lo) := by
  unfold fld bitsOf
  rw [setFld_toNat w hi lo v h hl, Nat.add_mul_div_left _ _ (by positivity), Nat.div_eq_of_lt (Nat.mod_lt _ (by positivity)),
    Nat.zero_add, Nat.add_mul_mod_self_left, Nat.mod_mod]

/-- A field set leaves a disjoint field alone. -/
theorem fld_setFld_other (w : W64) (hi lo v h2 l2 : Nat) (h : hi < 64) (hl : lo ≤ hi) (hd : h2 < lo ∨ hi < l2) :
    fld (setFld w hi lo v) h2 l2 = fld w h2 l2 := by
  unfold fld bitsOf
  rw [setFld_toNat w hi lo v h hl]
  rcases hd with hd | hd
  · by_cases hle : l2 ≤ h2
    · have key : ∀ n : Nat, n / 2 ^ l2 % 2 ^ (h2 + 1 - l2) = n % 2 ^ lo % 2 ^ (h2 + 1) / 2 ^ l2 := by
        intro n
        rw [Nat.mod_mod_of_dvd _ (Nat.pow_dvd_pow 2 (by omega)), show h2 + 1 = l2 + (h2 + 1 - l2) by omega,
          Nat.pow_add, Nat.mod_mul_right_div_self]
        congr 2
        omega
      rw [key, key, Nat.add_mul_mod_self_left, Nat.mod_mod]
    · rw [show h2 + 1 - l2 = 0 by omega]
      simp [Nat.mod_one]
  · have hs : 2 ^ l2 = 2 ^ lo * 2 ^ (hi + 1 - lo) * 2 ^ (l2 - (hi + 1)) := by
      rw [← Nat.pow_add, ← Nat.pow_add]
      congr 1
      omega
    rw [hs, ← Nat.div_div_eq_div_mul, ← Nat.div_div_eq_div_mul, ← Nat.div_div_eq_div_mul, ← Nat.div_div_eq_div_mul,
      Nat.add_mul_div_left _ _ (by positivity), Nat.div_eq_of_lt (Nat.mod_lt _ (by positivity)), Nat.zero_add,
      Nat.add_mul_div_left _ _ (by positivity), Nat.div_eq_of_lt (Nat.mod_lt _ (by positivity)), Nat.zero_add]

end Sys2Proof

namespace Sys2Proof.Machine

/-! ## Registers -/

theorem State.reg_setReg (s : State) (a b : Nat) (v : W64) :
    (s.setReg a v).reg b = if b = a then v else s.reg b := by
  unfold State.setReg State.reg
  by_cases h : b = a
  · subst h
    simp
  · simp only [if_neg h]
    have key : ∀ d : W64, SMap.get (regReset b) (SMap.put d s.regs a v) b = SMap.get (regReset b) s.regs b := by
      intro d
      unfold SMap.put
      by_cases hv : v = d
      · rw [if_pos hv, SMap.get_erase, if_neg h]
      · rw [if_neg hv, SMap.get_insert _ _ _ _ _ (fun p hp => (SMap.erase_keys s.regs a p hp).1), SMap.get_erase]
        simp [h]
    exact key _

@[simp] theorem State.reg_setReg_self (s : State) (a : Nat) (v : W64) : (s.setReg a v).reg a = v := by
  rw [State.reg_setReg, if_pos rfl]

/-- A field set reads back. -/
theorem State.f_setF_self (s : State) (r : FRef) (v : Nat) (h : r.hi < 64) (hl : r.lo ≤ r.hi) :
    (s.setF r v).f r = v % 2 ^ (r.hi + 1 - r.lo) := by
  unfold State.setF State.f
  rw [State.reg_setReg_self, fld_setFld_self _ _ _ _ h hl]

/-- A field set leaves fields of other registers, and disjoint fields of its own, alone. -/
theorem State.f_setF_other (s : State) (r q : FRef) (v : Nat) (h : r.hi < 64) (hl : r.lo ≤ r.hi)
    (hd : q.off ≠ r.off ∨ q.hi < r.lo ∨ r.hi < q.lo) : (s.setF r v).f q = s.f q := by
  unfold State.setF State.f
  rw [State.reg_setReg]
  by_cases ho : q.off = r.off
  · rw [if_pos ho, fld_setFld_other _ _ _ _ _ _ h hl (by tauto), ho]
  · rw [if_neg ho]

end Sys2Proof.Machine
end

