-- ==== Sys2Proof/Laws/State.lean ====
section
/-! SUPPORT. What each named update of State leaves alone, one lemma per field. -/
namespace Sys2Proof.Machine

variable (s : State)

/-! ## setReg changes regs -/

@[simp] theorem State.pending_setReg (a : Nat) (v : W64) : (s.setReg a v).pending = s.pending := rfl
@[simp] theorem State.free_setReg (a : Nat) (v : W64) : (s.setReg a v).free = s.free := rfl
@[simp] theorem State.tiles_setReg (a : Nat) (v : W64) : (s.setReg a v).tiles = s.tiles := rfl
@[simp] theorem State.saved_setReg (a : Nat) (v : W64) : (s.setReg a v).saved = s.saved := rfl
@[simp] theorem State.tileUe_setReg (a : Nat) (v : W64) : (s.setReg a v).tileUe = s.tileUe := rfl
@[simp] theorem State.slots_setReg (a : Nat) (v : W64) : (s.setReg a v).slots = s.slots := rfl
@[simp] theorem State.pages_setReg (a : Nat) (v : W64) : (s.setReg a v).pages = s.pages := rfl
@[simp] theorem State.blank_setReg (a : Nat) (v : W64) : (s.setReg a v).blank = s.blank := rfl
@[simp] theorem State.reserve_setReg (a : Nat) (v : W64) : (s.setReg a v).reserve = s.reserve := rfl
@[simp] theorem State.merge_setReg (a : Nat) (v : W64) : (s.setReg a v).merge = s.merge := rfl
@[simp] theorem State.retrainQ_setReg (a : Nat) (v : W64) : (s.setReg a v).retrainQ = s.retrainQ := rfl
@[simp] theorem State.scrubAt_setReg (a : Nat) (v : W64) : (s.setReg a v).scrubAt = s.scrubAt := rfl
@[simp] theorem State.lapCe_setReg (a : Nat) (v : W64) : (s.setReg a v).lapCe = s.lapCe := rfl
@[simp] theorem State.lapUe_setReg (a : Nat) (v : W64) : (s.setReg a v).lapUe = s.lapUe := rfl
@[simp] theorem State.lapLate_setReg (a : Nat) (v : W64) : (s.setReg a v).lapLate = s.lapLate := rfl
@[simp] theorem State.ceSince_setReg (a : Nat) (v : W64) : (s.setReg a v).ceSince = s.ceSince := rfl
@[simp] theorem State.cache_setReg (a : Nat) (v : W64) : (s.setReg a v).cache = s.cache := rfl
@[simp] theorem State.scratch_setReg (a : Nat) (v : W64) : (s.setReg a v).scratch = s.scratch := rfl
@[simp] theorem State.scratchBad_setReg (a : Nat) (v : W64) : (s.setReg a v).scratchBad = s.scratchBad := rfl
@[simp] theorem State.scratchWeak_setReg (a : Nat) (v : W64) : (s.setReg a v).scratchWeak = s.scratchWeak := rfl
@[simp] theorem State.lastGran_setReg (a : Nat) (v : W64) : (s.setReg a v).lastGran = s.lastGran := rfl
@[simp] theorem State.far_setReg (a : Nat) (v : W64) : (s.setReg a v).far = s.far := rfl
@[simp] theorem State.farPoison_setReg (a : Nat) (v : W64) : (s.setReg a v).farPoison = s.farPoison := rfl
@[simp] theorem State.comp_setReg (a : Nat) (v : W64) : (s.setReg a v).comp = s.comp := rfl
@[simp] theorem State.erqSeq_setReg (a : Nat) (v : W64) : (s.setReg a v).erqSeq = s.erqSeq := rfl
@[simp] theorem State.ms_setReg (a : Nat) (v : W64) : (s.setReg a v).ms = s.ms := rfl
@[simp] theorem State.resetSeq_setReg (a : Nat) (v : W64) : (s.setReg a v).resetSeq = s.resetSeq := rfl
@[simp] theorem State.parked_setReg (a : Nat) (v : W64) : (s.setReg a v).parked = s.parked := rfl
@[simp] theorem State.demT_setReg (a : Nat) (v : W64) : (s.setReg a v).demT = s.demT := rfl
@[simp] theorem State.demV_setReg (a : Nat) (v : W64) : (s.setReg a v).demV = s.demV := rfl
@[simp] theorem State.shareT_setReg (a : Nat) (v : W64) : (s.setReg a v).shareT = s.shareT := rfl
@[simp] theorem State.shareV_setReg (a : Nat) (v : W64) : (s.setReg a v).shareV = s.shareV := rfl
@[simp] theorem State.rrLast_setReg (a : Nat) (v : W64) : (s.setReg a v).rrLast = s.rrLast := rfl
@[simp] theorem State.msgs_setReg (a : Nat) (v : W64) : (s.setReg a v).msgs = s.msgs := rfl
@[simp] theorem State.msgPend_setReg (a : Nat) (v : W64) : (s.setReg a v).msgPend = s.msgPend := rfl
@[simp] theorem State.vecWait_setReg (a : Nat) (v : W64) : (s.setReg a v).vecWait = s.vecWait := rfl
@[simp] theorem State.zenRestart_setReg (a : Nat) (v : W64) : (s.setReg a v).zenRestart = s.zenRestart := rfl
@[simp] theorem State.heldRecs_setReg (a : Nat) (v : W64) : (s.setReg a v).heldRecs = s.heldRecs := rfl
@[simp] theorem State.filter_setReg (a : Nat) (v : W64) : (s.setReg a v).filter = s.filter := rfl
@[simp] theorem State.snoops_setReg (a : Nat) (v : W64) : (s.setReg a v).snoops = s.snoops := rfl
@[simp] theorem State.dylMode_setReg (a : Nat) (v : W64) : (s.setReg a v).dylMode = s.dylMode := rfl
@[simp] theorem State.dylPerst_setReg (a : Nat) (v : W64) : (s.setReg a v).dylPerst = s.dylPerst := rfl
@[simp] theorem State.cxpPerst_setReg (a : Nat) (v : W64) : (s.setReg a v).cxpPerst = s.cxpPerst := rfl
@[simp] theorem State.repairDue_setReg (a : Nat) (v : W64) : (s.setReg a v).repairDue = s.repairDue := rfl
@[simp] theorem State.rqt_setReg (a : Nat) (v : W64) : (s.setReg a v).rqt = s.rqt := rfl
@[simp] theorem State.arrivals_setReg (a : Nat) (v : W64) : (s.setReg a v).arrivals = s.arrivals := rfl
@[simp] theorem State.srv_setReg (a : Nat) (v : W64) : (s.setReg a v).srv = s.srv := rfl
@[simp] theorem State.srvIn_setReg (a : Nat) (v : W64) : (s.setReg a v).srvIn = s.srvIn := rfl
@[simp] theorem State.ldrIn_setReg (a : Nat) (v : W64) : (s.setReg a v).ldrIn = s.ldrIn := rfl
@[simp] theorem State.ringSeen_setReg (a : Nat) (v : W64) : (s.setReg a v).ringSeen = s.ringSeen := rfl
@[simp] theorem State.linkCache_setReg (a : Nat) (v : W64) : (s.setReg a v).linkCache = s.linkCache := rfl
@[simp] theorem State.txWait_setReg (a : Nat) (v : W64) : (s.setReg a v).txWait = s.txWait := rfl
@[simp] theorem State.txSent_setReg (a : Nat) (v : W64) : (s.setReg a v).txSent = s.txSent := rfl
@[simp] theorem State.txSeq_setReg (a : Nat) (v : W64) : (s.setReg a v).txSeq = s.txSeq := rfl
@[simp] theorem State.txWin_setReg (a : Nat) (v : W64) : (s.setReg a v).txWin = s.txWin := rfl
@[simp] theorem State.fopNext_setReg (a : Nat) (v : W64) : (s.setReg a v).fopNext = s.fopNext := rfl
@[simp] theorem State.lateWait_setReg (a : Nat) (v : W64) : (s.setReg a v).lateWait = s.lateWait := rfl
@[simp] theorem State.lateHeld_setReg (a : Nat) (v : W64) : (s.setReg a v).lateHeld = s.lateHeld := rfl
@[simp] theorem State.rxNode_setReg (a : Nat) (v : W64) : (s.setReg a v).rxNode = s.rxNode := rfl
@[simp] theorem State.xwfOut_setReg (a : Nat) (v : W64) : (s.setReg a v).xwfOut = s.xwfOut := rfl
@[simp] theorem State.naOut_setReg (a : Nat) (v : W64) : (s.setReg a v).naOut = s.naOut := rfl
@[simp] theorem State.xwfEth_setReg (a : Nat) (v : W64) : (s.setReg a v).xwfEth = s.xwfEth := rfl
@[simp] theorem State.dropSince_setReg (a : Nat) (v : W64) : (s.setReg a v).dropSince = s.dropSince := rfl
@[simp] theorem State.svc_setReg (a : Nat) (v : W64) : (s.setReg a v).svc = s.svc := rfl
@[simp] theorem State.svcHeld_setReg (a : Nat) (v : W64) : (s.setReg a v).svcHeld = s.svcHeld := rfl
@[simp] theorem State.svcDue_setReg (a : Nat) (v : W64) : (s.setReg a v).svcDue = s.svcDue := rfl
@[simp] theorem State.migTodo_setReg (a : Nat) (v : W64) : (s.setReg a v).migTodo = s.migTodo := rfl
@[simp] theorem State.heavyNow_setReg (a : Nat) (v : W64) : (s.setReg a v).heavyNow = s.heavyNow := rfl
@[simp] theorem State.heavyPrev_setReg (a : Nat) (v : W64) : (s.setReg a v).heavyPrev = s.heavyPrev := rfl
@[simp] theorem State.chosen_setReg (a : Nat) (v : W64) : (s.setReg a v).chosen = s.chosen := rfl
@[simp] theorem State.endAsked_setReg (a : Nat) (v : W64) : (s.setReg a v).endAsked = s.endAsked := rfl
@[simp] theorem State.loading_setReg (a : Nat) (v : W64) : (s.setReg a v).loading = s.loading := rfl
@[simp] theorem State.cross_setReg (a : Nat) (v : W64) : (s.setReg a v).cross = s.cross := rfl
@[simp] theorem State.zenLost_setReg (a : Nat) (v : W64) : (s.setReg a v).zenLost = s.zenLost := rfl
@[simp] theorem State.nodes_setReg (a : Nat) (v : W64) : (s.setReg a v).nodes = s.nodes := rfl
@[simp] theorem State.theta_setReg (a : Nat) (v : W64) : (s.setReg a v).theta = s.theta := rfl
@[simp] theorem State.tau_setReg (a : Nat) (v : W64) : (s.setReg a v).tau = s.tau := rfl
@[simp] theorem State.stuckFor_setReg (a : Nat) (v : W64) : (s.setReg a v).stuckFor = s.stuckFor := rfl
@[simp] theorem State.ceLast_setReg (a : Nat) (v : W64) : (s.setReg a v).ceLast = s.ceLast := rfl
@[simp] theorem State.tripHard_setReg (a : Nat) (v : W64) : (s.setReg a v).tripHard = s.tripHard := rfl
@[simp] theorem State.sampleQ_setReg (a : Nat) (v : W64) : (s.setReg a v).sampleQ = s.sampleQ := rfl
@[simp] theorem State.vrgFaultAt_setReg (a : Nat) (v : W64) : (s.setReg a v).vrgFaultAt = s.vrgFaultAt := rfl
@[simp] theorem State.flash_setReg (a : Nat) (v : W64) : (s.setReg a v).flash = s.flash := rfl
@[simp] theorem State.fwFloor_setReg (a : Nat) (v : W64) : (s.setReg a v).fwFloor = s.fwFloor := rfl
@[simp] theorem State.recFloor_setReg (a : Nat) (v : W64) : (s.setReg a v).recFloor = s.recFloor := rfl
@[simp] theorem State.retired_setReg (a : Nat) (v : W64) : (s.setReg a v).retired = s.retired := rfl
@[simp] theorem State.fwu_setReg (a : Nat) (v : W64) : (s.setReg a v).fwu = s.fwu := rfl
@[simp] theorem State.fwStream_setReg (a : Nat) (v : W64) : (s.setReg a v).fwStream = s.fwStream := rfl
@[simp] theorem State.badCopy_setReg (a : Nat) (v : W64) : (s.setReg a v).badCopy = s.badCopy := rfl
@[simp] theorem State.watchdog_setReg (a : Nat) (v : W64) : (s.setReg a v).watchdog = s.watchdog := rfl
@[simp] theorem State.vpcFw_setReg (a : Nat) (v : W64) : (s.setReg a v).vpcFw = s.vpcFw := rfl
@[simp] theorem State.meas_setReg (a : Nat) (v : W64) : (s.setReg a v).meas = s.meas := rfl
@[simp] theorem State.aliasSeed_setReg (a : Nat) (v : W64) : (s.setReg a v).aliasSeed = s.aliasSeed := rfl
@[simp] theorem State.certs_setReg (a : Nat) (v : W64) : (s.setReg a v).certs = s.certs := rfl
@[simp] theorem State.spdm_setReg (a : Nat) (v : W64) : (s.setReg a v).spdm = s.spdm := rfl
@[simp] theorem State.spdmOut_setReg (a : Nat) (v : W64) : (s.setReg a v).spdmOut = s.spdmOut := rfl
@[simp] theorem State.pgood_setReg (a : Nat) (v : W64) : (s.setReg a v).pgood = s.pgood := rfl
@[simp] theorem State.pgPull_setReg (a : Nat) (v : W64) : (s.setReg a v).pgPull = s.pgPull := rfl
@[simp] theorem State.inputOff_setReg (a : Nat) (v : W64) : (s.setReg a v).inputOff = s.inputOff := rfl
@[simp] theorem State.vddSb_setReg (a : Nat) (v : W64) : (s.setReg a v).vddSb = s.vddSb := rfl
@[simp] theorem State.inputMv_setReg (a : Nat) (v : W64) : (s.setReg a v).inputMv = s.inputMv := rfl
@[simp] theorem State.tap_setReg (a : Nat) (v : W64) : (s.setReg a v).tap = s.tap := rfl
@[simp] theorem State.tapIr_setReg (a : Nat) (v : W64) : (s.setReg a v).tapIr = s.tapIr := rfl
@[simp] theorem State.tapShift_setReg (a : Nat) (v : W64) : (s.setReg a v).tapShift = s.tapShift := rfl
@[simp] theorem State.tdo_setReg (a : Nat) (v : W64) : (s.setReg a v).tdo = s.tdo := rfl
@[simp] theorem State.digests_setReg (a : Nat) (v : W64) : (s.setReg a v).digests = s.digests := rfl
@[simp] theorem State.engines_setReg (a : Nat) (v : W64) : (s.setReg a v).engines = s.engines := rfl
@[simp] theorem State.rsp_setReg (a : Nat) (v : W64) : (s.setReg a v).rsp = s.rsp := rfl
@[simp] theorem State.mcRsp_setReg (a : Nat) (v : W64) : (s.setReg a v).mcRsp = s.mcRsp := rfl

/-! ## setF changes regs -/

@[simp] theorem State.pending_setF (r : FRef) (v : Nat) : (s.setF r v).pending = s.pending := rfl
@[simp] theorem State.free_setF (r : FRef) (v : Nat) : (s.setF r v).free = s.free := rfl
@[simp] theorem State.tiles_setF (r : FRef) (v : Nat) : (s.setF r v).tiles = s.tiles := rfl
@[simp] theorem State.saved_setF (r : FRef) (v : Nat) : (s.setF r v).saved = s.saved := rfl
@[simp] theorem State.tileUe_setF (r : FRef) (v : Nat) : (s.setF r v).tileUe = s.tileUe := rfl
@[simp] theorem State.slots_setF (r : FRef) (v : Nat) : (s.setF r v).slots = s.slots := rfl
@[simp] theorem State.pages_setF (r : FRef) (v : Nat) : (s.setF r v).pages = s.pages := rfl
@[simp] theorem State.blank_setF (r : FRef) (v : Nat) : (s.setF r v).blank = s.blank := rfl
@[simp] theorem State.reserve_setF (r : FRef) (v : Nat) : (s.setF r v).reserve = s.reserve := rfl
@[simp] theorem State.merge_setF (r : FRef) (v : Nat) : (s.setF r v).merge = s.merge := rfl
@[simp] theorem State.retrainQ_setF (r : FRef) (v : Nat) : (s.setF r v).retrainQ = s.retrainQ := rfl
@[simp] theorem State.scrubAt_setF (r : FRef) (v : Nat) : (s.setF r v).scrubAt = s.scrubAt := rfl
@[simp] theorem State.lapCe_setF (r : FRef) (v : Nat) : (s.setF r v).lapCe = s.lapCe := rfl
@[simp] theorem State.lapUe_setF (r : FRef) (v : Nat) : (s.setF r v).lapUe = s.lapUe := rfl
@[simp] theorem State.lapLate_setF (r : FRef) (v : Nat) : (s.setF r v).lapLate = s.lapLate := rfl
@[simp] theorem State.ceSince_setF (r : FRef) (v : Nat) : (s.setF r v).ceSince = s.ceSince := rfl
@[simp] theorem State.cache_setF (r : FRef) (v : Nat) : (s.setF r v).cache = s.cache := rfl
@[simp] theorem State.scratch_setF (r : FRef) (v : Nat) : (s.setF r v).scratch = s.scratch := rfl
@[simp] theorem State.scratchBad_setF (r : FRef) (v : Nat) : (s.setF r v).scratchBad = s.scratchBad := rfl
@[simp] theorem State.scratchWeak_setF (r : FRef) (v : Nat) : (s.setF r v).scratchWeak = s.scratchWeak := rfl
@[simp] theorem State.lastGran_setF (r : FRef) (v : Nat) : (s.setF r v).lastGran = s.lastGran := rfl
@[simp] theorem State.far_setF (r : FRef) (v : Nat) : (s.setF r v).far = s.far := rfl
@[simp] theorem State.farPoison_setF (r : FRef) (v : Nat) : (s.setF r v).farPoison = s.farPoison := rfl
@[simp] theorem State.comp_setF (r : FRef) (v : Nat) : (s.setF r v).comp = s.comp := rfl
@[simp] theorem State.erqSeq_setF (r : FRef) (v : Nat) : (s.setF r v).erqSeq = s.erqSeq := rfl
@[simp] theorem State.ms_setF (r : FRef) (v : Nat) : (s.setF r v).ms = s.ms := rfl
@[simp] theorem State.resetSeq_setF (r : FRef) (v : Nat) : (s.setF r v).resetSeq = s.resetSeq := rfl
@[simp] theorem State.parked_setF (r : FRef) (v : Nat) : (s.setF r v).parked = s.parked := rfl
@[simp] theorem State.demT_setF (r : FRef) (v : Nat) : (s.setF r v).demT = s.demT := rfl
@[simp] theorem State.demV_setF (r : FRef) (v : Nat) : (s.setF r v).demV = s.demV := rfl
@[simp] theorem State.shareT_setF (r : FRef) (v : Nat) : (s.setF r v).shareT = s.shareT := rfl
@[simp] theorem State.shareV_setF (r : FRef) (v : Nat) : (s.setF r v).shareV = s.shareV := rfl
@[simp] theorem State.rrLast_setF (r : FRef) (v : Nat) : (s.setF r v).rrLast = s.rrLast := rfl
@[simp] theorem State.msgs_setF (r : FRef) (v : Nat) : (s.setF r v).msgs = s.msgs := rfl
@[simp] theorem State.msgPend_setF (r : FRef) (v : Nat) : (s.setF r v).msgPend = s.msgPend := rfl
@[simp] theorem State.vecWait_setF (r : FRef) (v : Nat) : (s.setF r v).vecWait = s.vecWait := rfl
@[simp] theorem State.zenRestart_setF (r : FRef) (v : Nat) : (s.setF r v).zenRestart = s.zenRestart := rfl
@[simp] theorem State.heldRecs_setF (r : FRef) (v : Nat) : (s.setF r v).heldRecs = s.heldRecs := rfl
@[simp] theorem State.filter_setF (r : FRef) (v : Nat) : (s.setF r v).filter = s.filter := rfl
@[simp] theorem State.snoops_setF (r : FRef) (v : Nat) : (s.setF r v).snoops = s.snoops := rfl
@[simp] theorem State.dylMode_setF (r : FRef) (v : Nat) : (s.setF r v).dylMode = s.dylMode := rfl
@[simp] theorem State.dylPerst_setF (r : FRef) (v : Nat) : (s.setF r v).dylPerst = s.dylPerst := rfl
@[simp] theorem State.cxpPerst_setF (r : FRef) (v : Nat) : (s.setF r v).cxpPerst = s.cxpPerst := rfl
@[simp] theorem State.repairDue_setF (r : FRef) (v : Nat) : (s.setF r v).repairDue = s.repairDue := rfl
@[simp] theorem State.rqt_setF (r : FRef) (v : Nat) : (s.setF r v).rqt = s.rqt := rfl
@[simp] theorem State.arrivals_setF (r : FRef) (v : Nat) : (s.setF r v).arrivals = s.arrivals := rfl
@[simp] theorem State.srv_setF (r : FRef) (v : Nat) : (s.setF r v).srv = s.srv := rfl
@[simp] theorem State.srvIn_setF (r : FRef) (v : Nat) : (s.setF r v).srvIn = s.srvIn := rfl
@[simp] theorem State.ldrIn_setF (r : FRef) (v : Nat) : (s.setF r v).ldrIn = s.ldrIn := rfl
@[simp] theorem State.ringSeen_setF (r : FRef) (v : Nat) : (s.setF r v).ringSeen = s.ringSeen := rfl
@[simp] theorem State.linkCache_setF (r : FRef) (v : Nat) : (s.setF r v).linkCache = s.linkCache := rfl
@[simp] theorem State.txWait_setF (r : FRef) (v : Nat) : (s.setF r v).txWait = s.txWait := rfl
@[simp] theorem State.txSent_setF (r : FRef) (v : Nat) : (s.setF r v).txSent = s.txSent := rfl
@[simp] theorem State.txSeq_setF (r : FRef) (v : Nat) : (s.setF r v).txSeq = s.txSeq := rfl
@[simp] theorem State.txWin_setF (r : FRef) (v : Nat) : (s.setF r v).txWin = s.txWin := rfl
@[simp] theorem State.fopNext_setF (r : FRef) (v : Nat) : (s.setF r v).fopNext = s.fopNext := rfl
@[simp] theorem State.lateWait_setF (r : FRef) (v : Nat) : (s.setF r v).lateWait = s.lateWait := rfl
@[simp] theorem State.lateHeld_setF (r : FRef) (v : Nat) : (s.setF r v).lateHeld = s.lateHeld := rfl
@[simp] theorem State.rxNode_setF (r : FRef) (v : Nat) : (s.setF r v).rxNode = s.rxNode := rfl
@[simp] theorem State.xwfOut_setF (r : FRef) (v : Nat) : (s.setF r v).xwfOut = s.xwfOut := rfl
@[simp] theorem State.naOut_setF (r : FRef) (v : Nat) : (s.setF r v).naOut = s.naOut := rfl
@[simp] theorem State.xwfEth_setF (r : FRef) (v : Nat) : (s.setF r v).xwfEth = s.xwfEth := rfl
@[simp] theorem State.dropSince_setF (r : FRef) (v : Nat) : (s.setF r v).dropSince = s.dropSince := rfl
@[simp] theorem State.svc_setF (r : FRef) (v : Nat) : (s.setF r v).svc = s.svc := rfl
@[simp] theorem State.svcHeld_setF (r : FRef) (v : Nat) : (s.setF r v).svcHeld = s.svcHeld := rfl
@[simp] theorem State.svcDue_setF (r : FRef) (v : Nat) : (s.setF r v).svcDue = s.svcDue := rfl
@[simp] theorem State.migTodo_setF (r : FRef) (v : Nat) : (s.setF r v).migTodo = s.migTodo := rfl
@[simp] theorem State.heavyNow_setF (r : FRef) (v : Nat) : (s.setF r v).heavyNow = s.heavyNow := rfl
@[simp] theorem State.heavyPrev_setF (r : FRef) (v : Nat) : (s.setF r v).heavyPrev = s.heavyPrev := rfl
@[simp] theorem State.chosen_setF (r : FRef) (v : Nat) : (s.setF r v).chosen = s.chosen := rfl
@[simp] theorem State.endAsked_setF (r : FRef) (v : Nat) : (s.setF r v).endAsked = s.endAsked := rfl
@[simp] theorem State.loading_setF (r : FRef) (v : Nat) : (s.setF r v).loading = s.loading := rfl
@[simp] theorem State.cross_setF (r : FRef) (v : Nat) : (s.setF r v).cross = s.cross := rfl
@[simp] theorem State.zenLost_setF (r : FRef) (v : Nat) : (s.setF r v).zenLost = s.zenLost := rfl
@[simp] theorem State.nodes_setF (r : FRef) (v : Nat) : (s.setF r v).nodes = s.nodes := rfl
@[simp] theorem State.theta_setF (r : FRef) (v : Nat) : (s.setF r v).theta = s.theta := rfl
@[simp] theorem State.tau_setF (r : FRef) (v : Nat) : (s.setF r v).tau = s.tau := rfl
@[simp] theorem State.stuckFor_setF (r : FRef) (v : Nat) : (s.setF r v).stuckFor = s.stuckFor := rfl
@[simp] theorem State.ceLast_setF (r : FRef) (v : Nat) : (s.setF r v).ceLast = s.ceLast := rfl
@[simp] theorem State.tripHard_setF (r : FRef) (v : Nat) : (s.setF r v).tripHard = s.tripHard := rfl
@[simp] theorem State.sampleQ_setF (r : FRef) (v : Nat) : (s.setF r v).sampleQ = s.sampleQ := rfl
@[simp] theorem State.vrgFaultAt_setF (r : FRef) (v : Nat) : (s.setF r v).vrgFaultAt = s.vrgFaultAt := rfl
@[simp] theorem State.flash_setF (r : FRef) (v : Nat) : (s.setF r v).flash = s.flash := rfl
@[simp] theorem State.fwFloor_setF (r : FRef) (v : Nat) : (s.setF r v).fwFloor = s.fwFloor := rfl
@[simp] theorem State.recFloor_setF (r : FRef) (v : Nat) : (s.setF r v).recFloor = s.recFloor := rfl
@[simp] theorem State.retired_setF (r : FRef) (v : Nat) : (s.setF r v).retired = s.retired := rfl
@[simp] theorem State.fwu_setF (r : FRef) (v : Nat) : (s.setF r v).fwu = s.fwu := rfl
@[simp] theorem State.fwStream_setF (r : FRef) (v : Nat) : (s.setF r v).fwStream = s.fwStream := rfl
@[simp] theorem State.badCopy_setF (r : FRef) (v : Nat) : (s.setF r v).badCopy = s.badCopy := rfl
@[simp] theorem State.watchdog_setF (r : FRef) (v : Nat) : (s.setF r v).watchdog = s.watchdog := rfl
@[simp] theorem State.vpcFw_setF (r : FRef) (v : Nat) : (s.setF r v).vpcFw = s.vpcFw := rfl
@[simp] theorem State.meas_setF (r : FRef) (v : Nat) : (s.setF r v).meas = s.meas := rfl
@[simp] theorem State.aliasSeed_setF (r : FRef) (v : Nat) : (s.setF r v).aliasSeed = s.aliasSeed := rfl
@[simp] theorem State.certs_setF (r : FRef) (v : Nat) : (s.setF r v).certs = s.certs := rfl
@[simp] theorem State.spdm_setF (r : FRef) (v : Nat) : (s.setF r v).spdm = s.spdm := rfl
@[simp] theorem State.spdmOut_setF (r : FRef) (v : Nat) : (s.setF r v).spdmOut = s.spdmOut := rfl
@[simp] theorem State.pgood_setF (r : FRef) (v : Nat) : (s.setF r v).pgood = s.pgood := rfl
@[simp] theorem State.pgPull_setF (r : FRef) (v : Nat) : (s.setF r v).pgPull = s.pgPull := rfl
@[simp] theorem State.inputOff_setF (r : FRef) (v : Nat) : (s.setF r v).inputOff = s.inputOff := rfl
@[simp] theorem State.vddSb_setF (r : FRef) (v : Nat) : (s.setF r v).vddSb = s.vddSb := rfl
@[simp] theorem State.inputMv_setF (r : FRef) (v : Nat) : (s.setF r v).inputMv = s.inputMv := rfl
@[simp] theorem State.tap_setF (r : FRef) (v : Nat) : (s.setF r v).tap = s.tap := rfl
@[simp] theorem State.tapIr_setF (r : FRef) (v : Nat) : (s.setF r v).tapIr = s.tapIr := rfl
@[simp] theorem State.tapShift_setF (r : FRef) (v : Nat) : (s.setF r v).tapShift = s.tapShift := rfl
@[simp] theorem State.tdo_setF (r : FRef) (v : Nat) : (s.setF r v).tdo = s.tdo := rfl
@[simp] theorem State.digests_setF (r : FRef) (v : Nat) : (s.setF r v).digests = s.digests := rfl
@[simp] theorem State.engines_setF (r : FRef) (v : Nat) : (s.setF r v).engines = s.engines := rfl
@[simp] theorem State.rsp_setF (r : FRef) (v : Nat) : (s.setF r v).rsp = s.rsp := rfl
@[simp] theorem State.mcRsp_setF (r : FRef) (v : Nat) : (s.setF r v).mcRsp = s.mcRsp := rfl

/-! ## setFlag changes regs -/

@[simp] theorem State.pending_setFlag (r : FRef) (b : Bool) : (s.setFlag r b).pending = s.pending := rfl
@[simp] theorem State.free_setFlag (r : FRef) (b : Bool) : (s.setFlag r b).free = s.free := rfl
@[simp] theorem State.tiles_setFlag (r : FRef) (b : Bool) : (s.setFlag r b).tiles = s.tiles := rfl
@[simp] theorem State.saved_setFlag (r : FRef) (b : Bool) : (s.setFlag r b).saved = s.saved := rfl
@[simp] theorem State.tileUe_setFlag (r : FRef) (b : Bool) : (s.setFlag r b).tileUe = s.tileUe := rfl
@[simp] theorem State.slots_setFlag (r : FRef) (b : Bool) : (s.setFlag r b).slots = s.slots := rfl
@[simp] theorem State.pages_setFlag (r : FRef) (b : Bool) : (s.setFlag r b).pages = s.pages := rfl
@[simp] theorem State.blank_setFlag (r : FRef) (b : Bool) : (s.setFlag r b).blank = s.blank := rfl
@[simp] theorem State.reserve_setFlag (r : FRef) (b : Bool) : (s.setFlag r b).reserve = s.reserve := rfl
@[simp] theorem State.merge_setFlag (r : FRef) (b : Bool) : (s.setFlag r b).merge = s.merge := rfl
@[simp] theorem State.retrainQ_setFlag (r : FRef) (b : Bool) : (s.setFlag r b).retrainQ = s.retrainQ := rfl
@[simp] theorem State.scrubAt_setFlag (r : FRef) (b : Bool) : (s.setFlag r b).scrubAt = s.scrubAt := rfl
@[simp] theorem State.lapCe_setFlag (r : FRef) (b : Bool) : (s.setFlag r b).lapCe = s.lapCe := rfl
@[simp] theorem State.lapUe_setFlag (r : FRef) (b : Bool) : (s.setFlag r b).lapUe = s.lapUe := rfl
@[simp] theorem State.lapLate_setFlag (r : FRef) (b : Bool) : (s.setFlag r b).lapLate = s.lapLate := rfl
@[simp] theorem State.ceSince_setFlag (r : FRef) (b : Bool) : (s.setFlag r b).ceSince = s.ceSince := rfl
@[simp] theorem State.cache_setFlag (r : FRef) (b : Bool) : (s.setFlag r b).cache = s.cache := rfl
@[simp] theorem State.scratch_setFlag (r : FRef) (b : Bool) : (s.setFlag r b).scratch = s.scratch := rfl
@[simp] theorem State.scratchBad_setFlag (r : FRef) (b : Bool) : (s.setFlag r b).scratchBad = s.scratchBad := rfl
@[simp] theorem State.scratchWeak_setFlag (r : FRef) (b : Bool) : (s.setFlag r b).scratchWeak = s.scratchWeak := rfl
@[simp] theorem State.lastGran_setFlag (r : FRef) (b : Bool) : (s.setFlag r b).lastGran = s.lastGran := rfl
@[simp] theorem State.far_setFlag (r : FRef) (b : Bool) : (s.setFlag r b).far = s.far := rfl
@[simp] theorem State.farPoison_setFlag (r : FRef) (b : Bool) : (s.setFlag r b).farPoison = s.farPoison := rfl
@[simp] theorem State.comp_setFlag (r : FRef) (b : Bool) : (s.setFlag r b).comp = s.comp := rfl
@[simp] theorem State.erqSeq_setFlag (r : FRef) (b : Bool) : (s.setFlag r b).erqSeq = s.erqSeq := rfl
@[simp] theorem State.ms_setFlag (r : FRef) (b : Bool) : (s.setFlag r b).ms = s.ms := rfl
@[simp] theorem State.resetSeq_setFlag (r : FRef) (b : Bool) : (s.setFlag r b).resetSeq = s.resetSeq := rfl
@[simp] theorem State.parked_setFlag (r : FRef) (b : Bool) : (s.setFlag r b).parked = s.parked := rfl
@[simp] theorem State.demT_setFlag (r : FRef) (b : Bool) : (s.setFlag r b).demT = s.demT := rfl
@[simp] theorem State.demV_setFlag (r : FRef) (b : Bool) : (s.setFlag r b).demV = s.demV := rfl
@[simp] theorem State.shareT_setFlag (r : FRef) (b : Bool) : (s.setFlag r b).shareT = s.shareT := rfl
@[simp] theorem State.shareV_setFlag (r : FRef) (b : Bool) : (s.setFlag r b).shareV = s.shareV := rfl
@[simp] theorem State.rrLast_setFlag (r : FRef) (b : Bool) : (s.setFlag r b).rrLast = s.rrLast := rfl
@[simp] theorem State.msgs_setFlag (r : FRef) (b : Bool) : (s.setFlag r b).msgs = s.msgs := rfl
@[simp] theorem State.msgPend_setFlag (r : FRef) (b : Bool) : (s.setFlag r b).msgPend = s.msgPend := rfl
@[simp] theorem State.vecWait_setFlag (r : FRef) (b : Bool) : (s.setFlag r b).vecWait = s.vecWait := rfl
@[simp] theorem State.zenRestart_setFlag (r : FRef) (b : Bool) : (s.setFlag r b).zenRestart = s.zenRestart := rfl
@[simp] theorem State.heldRecs_setFlag (r : FRef) (b : Bool) : (s.setFlag r b).heldRecs = s.heldRecs := rfl
@[simp] theorem State.filter_setFlag (r : FRef) (b : Bool) : (s.setFlag r b).filter = s.filter := rfl
@[simp] theorem State.snoops_setFlag (r : FRef) (b : Bool) : (s.setFlag r b).snoops = s.snoops := rfl
@[simp] theorem State.dylMode_setFlag (r : FRef) (b : Bool) : (s.setFlag r b).dylMode = s.dylMode := rfl
@[simp] theorem State.dylPerst_setFlag (r : FRef) (b : Bool) : (s.setFlag r b).dylPerst = s.dylPerst := rfl
@[simp] theorem State.cxpPerst_setFlag (r : FRef) (b : Bool) : (s.setFlag r b).cxpPerst = s.cxpPerst := rfl
@[simp] theorem State.repairDue_setFlag (r : FRef) (b : Bool) : (s.setFlag r b).repairDue = s.repairDue := rfl
@[simp] theorem State.rqt_setFlag (r : FRef) (b : Bool) : (s.setFlag r b).rqt = s.rqt := rfl
@[simp] theorem State.arrivals_setFlag (r : FRef) (b : Bool) : (s.setFlag r b).arrivals = s.arrivals := rfl
@[simp] theorem State.srv_setFlag (r : FRef) (b : Bool) : (s.setFlag r b).srv = s.srv := rfl
@[simp] theorem State.srvIn_setFlag (r : FRef) (b : Bool) : (s.setFlag r b).srvIn = s.srvIn := rfl
@[simp] theorem State.ldrIn_setFlag (r : FRef) (b : Bool) : (s.setFlag r b).ldrIn = s.ldrIn := rfl
@[simp] theorem State.ringSeen_setFlag (r : FRef) (b : Bool) : (s.setFlag r b).ringSeen = s.ringSeen := rfl
@[simp] theorem State.linkCache_setFlag (r : FRef) (b : Bool) : (s.setFlag r b).linkCache = s.linkCache := rfl
@[simp] theorem State.txWait_setFlag (r : FRef) (b : Bool) : (s.setFlag r b).txWait = s.txWait := rfl
@[simp] theorem State.txSent_setFlag (r : FRef) (b : Bool) : (s.setFlag r b).txSent = s.txSent := rfl
@[simp] theorem State.txSeq_setFlag (r : FRef) (b : Bool) : (s.setFlag r b).txSeq = s.txSeq := rfl
@[simp] theorem State.txWin_setFlag (r : FRef) (b : Bool) : (s.setFlag r b).txWin = s.txWin := rfl
@[simp] theorem State.fopNext_setFlag (r : FRef) (b : Bool) : (s.setFlag r b).fopNext = s.fopNext := rfl
@[simp] theorem State.lateWait_setFlag (r : FRef) (b : Bool) : (s.setFlag r b).lateWait = s.lateWait := rfl
@[simp] theorem State.lateHeld_setFlag (r : FRef) (b : Bool) : (s.setFlag r b).lateHeld = s.lateHeld := rfl
@[simp] theorem State.rxNode_setFlag (r : FRef) (b : Bool) : (s.setFlag r b).rxNode = s.rxNode := rfl
@[simp] theorem State.xwfOut_setFlag (r : FRef) (b : Bool) : (s.setFlag r b).xwfOut = s.xwfOut := rfl
@[simp] theorem State.naOut_setFlag (r : FRef) (b : Bool) : (s.setFlag r b).naOut = s.naOut := rfl
@[simp] theorem State.xwfEth_setFlag (r : FRef) (b : Bool) : (s.setFlag r b).xwfEth = s.xwfEth := rfl
@[simp] theorem State.dropSince_setFlag (r : FRef) (b : Bool) : (s.setFlag r b).dropSince = s.dropSince := rfl
@[simp] theorem State.svc_setFlag (r : FRef) (b : Bool) : (s.setFlag r b).svc = s.svc := rfl
@[simp] theorem State.svcHeld_setFlag (r : FRef) (b : Bool) : (s.setFlag r b).svcHeld = s.svcHeld := rfl
@[simp] theorem State.svcDue_setFlag (r : FRef) (b : Bool) : (s.setFlag r b).svcDue = s.svcDue := rfl
@[simp] theorem State.migTodo_setFlag (r : FRef) (b : Bool) : (s.setFlag r b).migTodo = s.migTodo := rfl
@[simp] theorem State.heavyNow_setFlag (r : FRef) (b : Bool) : (s.setFlag r b).heavyNow = s.heavyNow := rfl
@[simp] theorem State.heavyPrev_setFlag (r : FRef) (b : Bool) : (s.setFlag r b).heavyPrev = s.heavyPrev := rfl
@[simp] theorem State.chosen_setFlag (r : FRef) (b : Bool) : (s.setFlag r b).chosen = s.chosen := rfl
@[simp] theorem State.endAsked_setFlag (r : FRef) (b : Bool) : (s.setFlag r b).endAsked = s.endAsked := rfl
@[simp] theorem State.loading_setFlag (r : FRef) (b : Bool) : (s.setFlag r b).loading = s.loading := rfl
@[simp] theorem State.cross_setFlag (r : FRef) (b : Bool) : (s.setFlag r b).cross = s.cross := rfl
@[simp] theorem State.zenLost_setFlag (r : FRef) (b : Bool) : (s.setFlag r b).zenLost = s.zenLost := rfl
@[simp] theorem State.nodes_setFlag (r : FRef) (b : Bool) : (s.setFlag r b).nodes = s.nodes := rfl
@[simp] theorem State.theta_setFlag (r : FRef) (b : Bool) : (s.setFlag r b).theta = s.theta := rfl
@[simp] theorem State.tau_setFlag (r : FRef) (b : Bool) : (s.setFlag r b).tau = s.tau := rfl
@[simp] theorem State.stuckFor_setFlag (r : FRef) (b : Bool) : (s.setFlag r b).stuckFor = s.stuckFor := rfl
@[simp] theorem State.ceLast_setFlag (r : FRef) (b : Bool) : (s.setFlag r b).ceLast = s.ceLast := rfl
@[simp] theorem State.tripHard_setFlag (r : FRef) (b : Bool) : (s.setFlag r b).tripHard = s.tripHard := rfl
@[simp] theorem State.sampleQ_setFlag (r : FRef) (b : Bool) : (s.setFlag r b).sampleQ = s.sampleQ := rfl
@[simp] theorem State.vrgFaultAt_setFlag (r : FRef) (b : Bool) : (s.setFlag r b).vrgFaultAt = s.vrgFaultAt := rfl
@[simp] theorem State.flash_setFlag (r : FRef) (b : Bool) : (s.setFlag r b).flash = s.flash := rfl
@[simp] theorem State.fwFloor_setFlag (r : FRef) (b : Bool) : (s.setFlag r b).fwFloor = s.fwFloor := rfl
@[simp] theorem State.recFloor_setFlag (r : FRef) (b : Bool) : (s.setFlag r b).recFloor = s.recFloor := rfl
@[simp] theorem State.retired_setFlag (r : FRef) (b : Bool) : (s.setFlag r b).retired = s.retired := rfl
@[simp] theorem State.fwu_setFlag (r : FRef) (b : Bool) : (s.setFlag r b).fwu = s.fwu := rfl
@[simp] theorem State.fwStream_setFlag (r : FRef) (b : Bool) : (s.setFlag r b).fwStream = s.fwStream := rfl
@[simp] theorem State.badCopy_setFlag (r : FRef) (b : Bool) : (s.setFlag r b).badCopy = s.badCopy := rfl
@[simp] theorem State.watchdog_setFlag (r : FRef) (b : Bool) : (s.setFlag r b).watchdog = s.watchdog := rfl
@[simp] theorem State.vpcFw_setFlag (r : FRef) (b : Bool) : (s.setFlag r b).vpcFw = s.vpcFw := rfl
@[simp] theorem State.meas_setFlag (r : FRef) (b : Bool) : (s.setFlag r b).meas = s.meas := rfl
@[simp] theorem State.aliasSeed_setFlag (r : FRef) (b : Bool) : (s.setFlag r b).aliasSeed = s.aliasSeed := rfl
@[simp] theorem State.certs_setFlag (r : FRef) (b : Bool) : (s.setFlag r b).certs = s.certs := rfl
@[simp] theorem State.spdm_setFlag (r : FRef) (b : Bool) : (s.setFlag r b).spdm = s.spdm := rfl
@[simp] theorem State.spdmOut_setFlag (r : FRef) (b : Bool) : (s.setFlag r b).spdmOut = s.spdmOut := rfl
@[simp] theorem State.pgood_setFlag (r : FRef) (b : Bool) : (s.setFlag r b).pgood = s.pgood := rfl
@[simp] theorem State.pgPull_setFlag (r : FRef) (b : Bool) : (s.setFlag r b).pgPull = s.pgPull := rfl
@[simp] theorem State.inputOff_setFlag (r : FRef) (b : Bool) : (s.setFlag r b).inputOff = s.inputOff := rfl
@[simp] theorem State.vddSb_setFlag (r : FRef) (b : Bool) : (s.setFlag r b).vddSb = s.vddSb := rfl
@[simp] theorem State.inputMv_setFlag (r : FRef) (b : Bool) : (s.setFlag r b).inputMv = s.inputMv := rfl
@[simp] theorem State.tap_setFlag (r : FRef) (b : Bool) : (s.setFlag r b).tap = s.tap := rfl
@[simp] theorem State.tapIr_setFlag (r : FRef) (b : Bool) : (s.setFlag r b).tapIr = s.tapIr := rfl
@[simp] theorem State.tapShift_setFlag (r : FRef) (b : Bool) : (s.setFlag r b).tapShift = s.tapShift := rfl
@[simp] theorem State.tdo_setFlag (r : FRef) (b : Bool) : (s.setFlag r b).tdo = s.tdo := rfl
@[simp] theorem State.digests_setFlag (r : FRef) (b : Bool) : (s.setFlag r b).digests = s.digests := rfl
@[simp] theorem State.engines_setFlag (r : FRef) (b : Bool) : (s.setFlag r b).engines = s.engines := rfl
@[simp] theorem State.rsp_setFlag (r : FRef) (b : Bool) : (s.setFlag r b).rsp = s.rsp := rfl
@[simp] theorem State.mcRsp_setFlag (r : FRef) (b : Bool) : (s.setFlag r b).mcRsp = s.mcRsp := rfl

/-! ## bump changes regs -/

@[simp] theorem State.pending_bump (r : FRef) (n : Nat) : (s.bump r n).pending = s.pending := rfl
@[simp] theorem State.free_bump (r : FRef) (n : Nat) : (s.bump r n).free = s.free := rfl
@[simp] theorem State.tiles_bump (r : FRef) (n : Nat) : (s.bump r n).tiles = s.tiles := rfl
@[simp] theorem State.saved_bump (r : FRef) (n : Nat) : (s.bump r n).saved = s.saved := rfl
@[simp] theorem State.tileUe_bump (r : FRef) (n : Nat) : (s.bump r n).tileUe = s.tileUe := rfl
@[simp] theorem State.slots_bump (r : FRef) (n : Nat) : (s.bump r n).slots = s.slots := rfl
@[simp] theorem State.pages_bump (r : FRef) (n : Nat) : (s.bump r n).pages = s.pages := rfl
@[simp] theorem State.blank_bump (r : FRef) (n : Nat) : (s.bump r n).blank = s.blank := rfl
@[simp] theorem State.reserve_bump (r : FRef) (n : Nat) : (s.bump r n).reserve = s.reserve := rfl
@[simp] theorem State.merge_bump (r : FRef) (n : Nat) : (s.bump r n).merge = s.merge := rfl
@[simp] theorem State.retrainQ_bump (r : FRef) (n : Nat) : (s.bump r n).retrainQ = s.retrainQ := rfl
@[simp] theorem State.scrubAt_bump (r : FRef) (n : Nat) : (s.bump r n).scrubAt = s.scrubAt := rfl
@[simp] theorem State.lapCe_bump (r : FRef) (n : Nat) : (s.bump r n).lapCe = s.lapCe := rfl
@[simp] theorem State.lapUe_bump (r : FRef) (n : Nat) : (s.bump r n).lapUe = s.lapUe := rfl
@[simp] theorem State.lapLate_bump (r : FRef) (n : Nat) : (s.bump r n).lapLate = s.lapLate := rfl
@[simp] theorem State.ceSince_bump (r : FRef) (n : Nat) : (s.bump r n).ceSince = s.ceSince := rfl
@[simp] theorem State.cache_bump (r : FRef) (n : Nat) : (s.bump r n).cache = s.cache := rfl
@[simp] theorem State.scratch_bump (r : FRef) (n : Nat) : (s.bump r n).scratch = s.scratch := rfl
@[simp] theorem State.scratchBad_bump (r : FRef) (n : Nat) : (s.bump r n).scratchBad = s.scratchBad := rfl
@[simp] theorem State.scratchWeak_bump (r : FRef) (n : Nat) : (s.bump r n).scratchWeak = s.scratchWeak := rfl
@[simp] theorem State.lastGran_bump (r : FRef) (n : Nat) : (s.bump r n).lastGran = s.lastGran := rfl
@[simp] theorem State.far_bump (r : FRef) (n : Nat) : (s.bump r n).far = s.far := rfl
@[simp] theorem State.farPoison_bump (r : FRef) (n : Nat) : (s.bump r n).farPoison = s.farPoison := rfl
@[simp] theorem State.comp_bump (r : FRef) (n : Nat) : (s.bump r n).comp = s.comp := rfl
@[simp] theorem State.erqSeq_bump (r : FRef) (n : Nat) : (s.bump r n).erqSeq = s.erqSeq := rfl
@[simp] theorem State.ms_bump (r : FRef) (n : Nat) : (s.bump r n).ms = s.ms := rfl
@[simp] theorem State.resetSeq_bump (r : FRef) (n : Nat) : (s.bump r n).resetSeq = s.resetSeq := rfl
@[simp] theorem State.parked_bump (r : FRef) (n : Nat) : (s.bump r n).parked = s.parked := rfl
@[simp] theorem State.demT_bump (r : FRef) (n : Nat) : (s.bump r n).demT = s.demT := rfl
@[simp] theorem State.demV_bump (r : FRef) (n : Nat) : (s.bump r n).demV = s.demV := rfl
@[simp] theorem State.shareT_bump (r : FRef) (n : Nat) : (s.bump r n).shareT = s.shareT := rfl
@[simp] theorem State.shareV_bump (r : FRef) (n : Nat) : (s.bump r n).shareV = s.shareV := rfl
@[simp] theorem State.rrLast_bump (r : FRef) (n : Nat) : (s.bump r n).rrLast = s.rrLast := rfl
@[simp] theorem State.msgs_bump (r : FRef) (n : Nat) : (s.bump r n).msgs = s.msgs := rfl
@[simp] theorem State.msgPend_bump (r : FRef) (n : Nat) : (s.bump r n).msgPend = s.msgPend := rfl
@[simp] theorem State.vecWait_bump (r : FRef) (n : Nat) : (s.bump r n).vecWait = s.vecWait := rfl
@[simp] theorem State.zenRestart_bump (r : FRef) (n : Nat) : (s.bump r n).zenRestart = s.zenRestart := rfl
@[simp] theorem State.heldRecs_bump (r : FRef) (n : Nat) : (s.bump r n).heldRecs = s.heldRecs := rfl
@[simp] theorem State.filter_bump (r : FRef) (n : Nat) : (s.bump r n).filter = s.filter := rfl
@[simp] theorem State.snoops_bump (r : FRef) (n : Nat) : (s.bump r n).snoops = s.snoops := rfl
@[simp] theorem State.dylMode_bump (r : FRef) (n : Nat) : (s.bump r n).dylMode = s.dylMode := rfl
@[simp] theorem State.dylPerst_bump (r : FRef) (n : Nat) : (s.bump r n).dylPerst = s.dylPerst := rfl
@[simp] theorem State.cxpPerst_bump (r : FRef) (n : Nat) : (s.bump r n).cxpPerst = s.cxpPerst := rfl
@[simp] theorem State.repairDue_bump (r : FRef) (n : Nat) : (s.bump r n).repairDue = s.repairDue := rfl
@[simp] theorem State.rqt_bump (r : FRef) (n : Nat) : (s.bump r n).rqt = s.rqt := rfl
@[simp] theorem State.arrivals_bump (r : FRef) (n : Nat) : (s.bump r n).arrivals = s.arrivals := rfl
@[simp] theorem State.srv_bump (r : FRef) (n : Nat) : (s.bump r n).srv = s.srv := rfl
@[simp] theorem State.srvIn_bump (r : FRef) (n : Nat) : (s.bump r n).srvIn = s.srvIn := rfl
@[simp] theorem State.ldrIn_bump (r : FRef) (n : Nat) : (s.bump r n).ldrIn = s.ldrIn := rfl
@[simp] theorem State.ringSeen_bump (r : FRef) (n : Nat) : (s.bump r n).ringSeen = s.ringSeen := rfl
@[simp] theorem State.linkCache_bump (r : FRef) (n : Nat) : (s.bump r n).linkCache = s.linkCache := rfl
@[simp] theorem State.txWait_bump (r : FRef) (n : Nat) : (s.bump r n).txWait = s.txWait := rfl
@[simp] theorem State.txSent_bump (r : FRef) (n : Nat) : (s.bump r n).txSent = s.txSent := rfl
@[simp] theorem State.txSeq_bump (r : FRef) (n : Nat) : (s.bump r n).txSeq = s.txSeq := rfl
@[simp] theorem State.txWin_bump (r : FRef) (n : Nat) : (s.bump r n).txWin = s.txWin := rfl
@[simp] theorem State.fopNext_bump (r : FRef) (n : Nat) : (s.bump r n).fopNext = s.fopNext := rfl
@[simp] theorem State.lateWait_bump (r : FRef) (n : Nat) : (s.bump r n).lateWait = s.lateWait := rfl
@[simp] theorem State.lateHeld_bump (r : FRef) (n : Nat) : (s.bump r n).lateHeld = s.lateHeld := rfl
@[simp] theorem State.rxNode_bump (r : FRef) (n : Nat) : (s.bump r n).rxNode = s.rxNode := rfl
@[simp] theorem State.xwfOut_bump (r : FRef) (n : Nat) : (s.bump r n).xwfOut = s.xwfOut := rfl
@[simp] theorem State.naOut_bump (r : FRef) (n : Nat) : (s.bump r n).naOut = s.naOut := rfl
@[simp] theorem State.xwfEth_bump (r : FRef) (n : Nat) : (s.bump r n).xwfEth = s.xwfEth := rfl
@[simp] theorem State.dropSince_bump (r : FRef) (n : Nat) : (s.bump r n).dropSince = s.dropSince := rfl
@[simp] theorem State.svc_bump (r : FRef) (n : Nat) : (s.bump r n).svc = s.svc := rfl
@[simp] theorem State.svcHeld_bump (r : FRef) (n : Nat) : (s.bump r n).svcHeld = s.svcHeld := rfl
@[simp] theorem State.svcDue_bump (r : FRef) (n : Nat) : (s.bump r n).svcDue = s.svcDue := rfl
@[simp] theorem State.migTodo_bump (r : FRef) (n : Nat) : (s.bump r n).migTodo = s.migTodo := rfl
@[simp] theorem State.heavyNow_bump (r : FRef) (n : Nat) : (s.bump r n).heavyNow = s.heavyNow := rfl
@[simp] theorem State.heavyPrev_bump (r : FRef) (n : Nat) : (s.bump r n).heavyPrev = s.heavyPrev := rfl
@[simp] theorem State.chosen_bump (r : FRef) (n : Nat) : (s.bump r n).chosen = s.chosen := rfl
@[simp] theorem State.endAsked_bump (r : FRef) (n : Nat) : (s.bump r n).endAsked = s.endAsked := rfl
@[simp] theorem State.loading_bump (r : FRef) (n : Nat) : (s.bump r n).loading = s.loading := rfl
@[simp] theorem State.cross_bump (r : FRef) (n : Nat) : (s.bump r n).cross = s.cross := rfl
@[simp] theorem State.zenLost_bump (r : FRef) (n : Nat) : (s.bump r n).zenLost = s.zenLost := rfl
@[simp] theorem State.nodes_bump (r : FRef) (n : Nat) : (s.bump r n).nodes = s.nodes := rfl
@[simp] theorem State.theta_bump (r : FRef) (n : Nat) : (s.bump r n).theta = s.theta := rfl
@[simp] theorem State.tau_bump (r : FRef) (n : Nat) : (s.bump r n).tau = s.tau := rfl
@[simp] theorem State.stuckFor_bump (r : FRef) (n : Nat) : (s.bump r n).stuckFor = s.stuckFor := rfl
@[simp] theorem State.ceLast_bump (r : FRef) (n : Nat) : (s.bump r n).ceLast = s.ceLast := rfl
@[simp] theorem State.tripHard_bump (r : FRef) (n : Nat) : (s.bump r n).tripHard = s.tripHard := rfl
@[simp] theorem State.sampleQ_bump (r : FRef) (n : Nat) : (s.bump r n).sampleQ = s.sampleQ := rfl
@[simp] theorem State.vrgFaultAt_bump (r : FRef) (n : Nat) : (s.bump r n).vrgFaultAt = s.vrgFaultAt := rfl
@[simp] theorem State.flash_bump (r : FRef) (n : Nat) : (s.bump r n).flash = s.flash := rfl
@[simp] theorem State.fwFloor_bump (r : FRef) (n : Nat) : (s.bump r n).fwFloor = s.fwFloor := rfl
@[simp] theorem State.recFloor_bump (r : FRef) (n : Nat) : (s.bump r n).recFloor = s.recFloor := rfl
@[simp] theorem State.retired_bump (r : FRef) (n : Nat) : (s.bump r n).retired = s.retired := rfl
@[simp] theorem State.fwu_bump (r : FRef) (n : Nat) : (s.bump r n).fwu = s.fwu := rfl
@[simp] theorem State.fwStream_bump (r : FRef) (n : Nat) : (s.bump r n).fwStream = s.fwStream := rfl
@[simp] theorem State.badCopy_bump (r : FRef) (n : Nat) : (s.bump r n).badCopy = s.badCopy := rfl
@[simp] theorem State.watchdog_bump (r : FRef) (n : Nat) : (s.bump r n).watchdog = s.watchdog := rfl
@[simp] theorem State.vpcFw_bump (r : FRef) (n : Nat) : (s.bump r n).vpcFw = s.vpcFw := rfl
@[simp] theorem State.meas_bump (r : FRef) (n : Nat) : (s.bump r n).meas = s.meas := rfl
@[simp] theorem State.aliasSeed_bump (r : FRef) (n : Nat) : (s.bump r n).aliasSeed = s.aliasSeed := rfl
@[simp] theorem State.certs_bump (r : FRef) (n : Nat) : (s.bump r n).certs = s.certs := rfl
@[simp] theorem State.spdm_bump (r : FRef) (n : Nat) : (s.bump r n).spdm = s.spdm := rfl
@[simp] theorem State.spdmOut_bump (r : FRef) (n : Nat) : (s.bump r n).spdmOut = s.spdmOut := rfl
@[simp] theorem State.pgood_bump (r : FRef) (n : Nat) : (s.bump r n).pgood = s.pgood := rfl
@[simp] theorem State.pgPull_bump (r : FRef) (n : Nat) : (s.bump r n).pgPull = s.pgPull := rfl
@[simp] theorem State.inputOff_bump (r : FRef) (n : Nat) : (s.bump r n).inputOff = s.inputOff := rfl
@[simp] theorem State.vddSb_bump (r : FRef) (n : Nat) : (s.bump r n).vddSb = s.vddSb := rfl
@[simp] theorem State.inputMv_bump (r : FRef) (n : Nat) : (s.bump r n).inputMv = s.inputMv := rfl
@[simp] theorem State.tap_bump (r : FRef) (n : Nat) : (s.bump r n).tap = s.tap := rfl
@[simp] theorem State.tapIr_bump (r : FRef) (n : Nat) : (s.bump r n).tapIr = s.tapIr := rfl
@[simp] theorem State.tapShift_bump (r : FRef) (n : Nat) : (s.bump r n).tapShift = s.tapShift := rfl
@[simp] theorem State.tdo_bump (r : FRef) (n : Nat) : (s.bump r n).tdo = s.tdo := rfl
@[simp] theorem State.digests_bump (r : FRef) (n : Nat) : (s.bump r n).digests = s.digests := rfl
@[simp] theorem State.engines_bump (r : FRef) (n : Nat) : (s.bump r n).engines = s.engines := rfl
@[simp] theorem State.rsp_bump (r : FRef) (n : Nat) : (s.bump r n).rsp = s.rsp := rfl
@[simp] theorem State.mcRsp_bump (r : FRef) (n : Nat) : (s.bump r n).mcRsp = s.mcRsp := rfl

/-! ## setTile changes tiles -/

@[simp] theorem State.pending_setTile (t : Nat) (x : TileState) : (s.setTile t x).pending = s.pending := rfl
@[simp] theorem State.regs_setTile (t : Nat) (x : TileState) : (s.setTile t x).regs = s.regs := rfl
@[simp] theorem State.free_setTile (t : Nat) (x : TileState) : (s.setTile t x).free = s.free := rfl
@[simp] theorem State.saved_setTile (t : Nat) (x : TileState) : (s.setTile t x).saved = s.saved := rfl
@[simp] theorem State.tileUe_setTile (t : Nat) (x : TileState) : (s.setTile t x).tileUe = s.tileUe := rfl
@[simp] theorem State.slots_setTile (t : Nat) (x : TileState) : (s.setTile t x).slots = s.slots := rfl
@[simp] theorem State.pages_setTile (t : Nat) (x : TileState) : (s.setTile t x).pages = s.pages := rfl
@[simp] theorem State.blank_setTile (t : Nat) (x : TileState) : (s.setTile t x).blank = s.blank := rfl
@[simp] theorem State.reserve_setTile (t : Nat) (x : TileState) : (s.setTile t x).reserve = s.reserve := rfl
@[simp] theorem State.merge_setTile (t : Nat) (x : TileState) : (s.setTile t x).merge = s.merge := rfl
@[simp] theorem State.retrainQ_setTile (t : Nat) (x : TileState) : (s.setTile t x).retrainQ = s.retrainQ := rfl
@[simp] theorem State.scrubAt_setTile (t : Nat) (x : TileState) : (s.setTile t x).scrubAt = s.scrubAt := rfl
@[simp] theorem State.lapCe_setTile (t : Nat) (x : TileState) : (s.setTile t x).lapCe = s.lapCe := rfl
@[simp] theorem State.lapUe_setTile (t : Nat) (x : TileState) : (s.setTile t x).lapUe = s.lapUe := rfl
@[simp] theorem State.lapLate_setTile (t : Nat) (x : TileState) : (s.setTile t x).lapLate = s.lapLate := rfl
@[simp] theorem State.ceSince_setTile (t : Nat) (x : TileState) : (s.setTile t x).ceSince = s.ceSince := rfl
@[simp] theorem State.cache_setTile (t : Nat) (x : TileState) : (s.setTile t x).cache = s.cache := rfl
@[simp] theorem State.scratch_setTile (t : Nat) (x : TileState) : (s.setTile t x).scratch = s.scratch := rfl
@[simp] theorem State.scratchBad_setTile (t : Nat) (x : TileState) : (s.setTile t x).scratchBad = s.scratchBad := rfl
@[simp] theorem State.scratchWeak_setTile (t : Nat) (x : TileState) : (s.setTile t x).scratchWeak = s.scratchWeak := rfl
@[simp] theorem State.lastGran_setTile (t : Nat) (x : TileState) : (s.setTile t x).lastGran = s.lastGran := rfl
@[simp] theorem State.far_setTile (t : Nat) (x : TileState) : (s.setTile t x).far = s.far := rfl
@[simp] theorem State.farPoison_setTile (t : Nat) (x : TileState) : (s.setTile t x).farPoison = s.farPoison := rfl
@[simp] theorem State.comp_setTile (t : Nat) (x : TileState) : (s.setTile t x).comp = s.comp := rfl
@[simp] theorem State.erqSeq_setTile (t : Nat) (x : TileState) : (s.setTile t x).erqSeq = s.erqSeq := rfl
@[simp] theorem State.ms_setTile (t : Nat) (x : TileState) : (s.setTile t x).ms = s.ms := rfl
@[simp] theorem State.resetSeq_setTile (t : Nat) (x : TileState) : (s.setTile t x).resetSeq = s.resetSeq := rfl
@[simp] theorem State.parked_setTile (t : Nat) (x : TileState) : (s.setTile t x).parked = s.parked := rfl
@[simp] theorem State.demT_setTile (t : Nat) (x : TileState) : (s.setTile t x).demT = s.demT := rfl
@[simp] theorem State.demV_setTile (t : Nat) (x : TileState) : (s.setTile t x).demV = s.demV := rfl
@[simp] theorem State.shareT_setTile (t : Nat) (x : TileState) : (s.setTile t x).shareT = s.shareT := rfl
@[simp] theorem State.shareV_setTile (t : Nat) (x : TileState) : (s.setTile t x).shareV = s.shareV := rfl
@[simp] theorem State.rrLast_setTile (t : Nat) (x : TileState) : (s.setTile t x).rrLast = s.rrLast := rfl
@[simp] theorem State.msgs_setTile (t : Nat) (x : TileState) : (s.setTile t x).msgs = s.msgs := rfl
@[simp] theorem State.msgPend_setTile (t : Nat) (x : TileState) : (s.setTile t x).msgPend = s.msgPend := rfl
@[simp] theorem State.vecWait_setTile (t : Nat) (x : TileState) : (s.setTile t x).vecWait = s.vecWait := rfl
@[simp] theorem State.zenRestart_setTile (t : Nat) (x : TileState) : (s.setTile t x).zenRestart = s.zenRestart := rfl
@[simp] theorem State.heldRecs_setTile (t : Nat) (x : TileState) : (s.setTile t x).heldRecs = s.heldRecs := rfl
@[simp] theorem State.filter_setTile (t : Nat) (x : TileState) : (s.setTile t x).filter = s.filter := rfl
@[simp] theorem State.snoops_setTile (t : Nat) (x : TileState) : (s.setTile t x).snoops = s.snoops := rfl
@[simp] theorem State.dylMode_setTile (t : Nat) (x : TileState) : (s.setTile t x).dylMode = s.dylMode := rfl
@[simp] theorem State.dylPerst_setTile (t : Nat) (x : TileState) : (s.setTile t x).dylPerst = s.dylPerst := rfl
@[simp] theorem State.cxpPerst_setTile (t : Nat) (x : TileState) : (s.setTile t x).cxpPerst = s.cxpPerst := rfl
@[simp] theorem State.repairDue_setTile (t : Nat) (x : TileState) : (s.setTile t x).repairDue = s.repairDue := rfl
@[simp] theorem State.rqt_setTile (t : Nat) (x : TileState) : (s.setTile t x).rqt = s.rqt := rfl
@[simp] theorem State.arrivals_setTile (t : Nat) (x : TileState) : (s.setTile t x).arrivals = s.arrivals := rfl
@[simp] theorem State.srv_setTile (t : Nat) (x : TileState) : (s.setTile t x).srv = s.srv := rfl
@[simp] theorem State.srvIn_setTile (t : Nat) (x : TileState) : (s.setTile t x).srvIn = s.srvIn := rfl
@[simp] theorem State.ldrIn_setTile (t : Nat) (x : TileState) : (s.setTile t x).ldrIn = s.ldrIn := rfl
@[simp] theorem State.ringSeen_setTile (t : Nat) (x : TileState) : (s.setTile t x).ringSeen = s.ringSeen := rfl
@[simp] theorem State.linkCache_setTile (t : Nat) (x : TileState) : (s.setTile t x).linkCache = s.linkCache := rfl
@[simp] theorem State.txWait_setTile (t : Nat) (x : TileState) : (s.setTile t x).txWait = s.txWait := rfl
@[simp] theorem State.txSent_setTile (t : Nat) (x : TileState) : (s.setTile t x).txSent = s.txSent := rfl
@[simp] theorem State.txSeq_setTile (t : Nat) (x : TileState) : (s.setTile t x).txSeq = s.txSeq := rfl
@[simp] theorem State.txWin_setTile (t : Nat) (x : TileState) : (s.setTile t x).txWin = s.txWin := rfl
@[simp] theorem State.fopNext_setTile (t : Nat) (x : TileState) : (s.setTile t x).fopNext = s.fopNext := rfl
@[simp] theorem State.lateWait_setTile (t : Nat) (x : TileState) : (s.setTile t x).lateWait = s.lateWait := rfl
@[simp] theorem State.lateHeld_setTile (t : Nat) (x : TileState) : (s.setTile t x).lateHeld = s.lateHeld := rfl
@[simp] theorem State.rxNode_setTile (t : Nat) (x : TileState) : (s.setTile t x).rxNode = s.rxNode := rfl
@[simp] theorem State.xwfOut_setTile (t : Nat) (x : TileState) : (s.setTile t x).xwfOut = s.xwfOut := rfl
@[simp] theorem State.naOut_setTile (t : Nat) (x : TileState) : (s.setTile t x).naOut = s.naOut := rfl
@[simp] theorem State.xwfEth_setTile (t : Nat) (x : TileState) : (s.setTile t x).xwfEth = s.xwfEth := rfl
@[simp] theorem State.dropSince_setTile (t : Nat) (x : TileState) : (s.setTile t x).dropSince = s.dropSince := rfl
@[simp] theorem State.svc_setTile (t : Nat) (x : TileState) : (s.setTile t x).svc = s.svc := rfl
@[simp] theorem State.svcHeld_setTile (t : Nat) (x : TileState) : (s.setTile t x).svcHeld = s.svcHeld := rfl
@[simp] theorem State.svcDue_setTile (t : Nat) (x : TileState) : (s.setTile t x).svcDue = s.svcDue := rfl
@[simp] theorem State.migTodo_setTile (t : Nat) (x : TileState) : (s.setTile t x).migTodo = s.migTodo := rfl
@[simp] theorem State.heavyNow_setTile (t : Nat) (x : TileState) : (s.setTile t x).heavyNow = s.heavyNow := rfl
@[simp] theorem State.heavyPrev_setTile (t : Nat) (x : TileState) : (s.setTile t x).heavyPrev = s.heavyPrev := rfl
@[simp] theorem State.chosen_setTile (t : Nat) (x : TileState) : (s.setTile t x).chosen = s.chosen := rfl
@[simp] theorem State.endAsked_setTile (t : Nat) (x : TileState) : (s.setTile t x).endAsked = s.endAsked := rfl
@[simp] theorem State.loading_setTile (t : Nat) (x : TileState) : (s.setTile t x).loading = s.loading := rfl
@[simp] theorem State.cross_setTile (t : Nat) (x : TileState) : (s.setTile t x).cross = s.cross := rfl
@[simp] theorem State.zenLost_setTile (t : Nat) (x : TileState) : (s.setTile t x).zenLost = s.zenLost := rfl
@[simp] theorem State.nodes_setTile (t : Nat) (x : TileState) : (s.setTile t x).nodes = s.nodes := rfl
@[simp] theorem State.theta_setTile (t : Nat) (x : TileState) : (s.setTile t x).theta = s.theta := rfl
@[simp] theorem State.tau_setTile (t : Nat) (x : TileState) : (s.setTile t x).tau = s.tau := rfl
@[simp] theorem State.stuckFor_setTile (t : Nat) (x : TileState) : (s.setTile t x).stuckFor = s.stuckFor := rfl
@[simp] theorem State.ceLast_setTile (t : Nat) (x : TileState) : (s.setTile t x).ceLast = s.ceLast := rfl
@[simp] theorem State.tripHard_setTile (t : Nat) (x : TileState) : (s.setTile t x).tripHard = s.tripHard := rfl
@[simp] theorem State.sampleQ_setTile (t : Nat) (x : TileState) : (s.setTile t x).sampleQ = s.sampleQ := rfl
@[simp] theorem State.vrgFaultAt_setTile (t : Nat) (x : TileState) : (s.setTile t x).vrgFaultAt = s.vrgFaultAt := rfl
@[simp] theorem State.flash_setTile (t : Nat) (x : TileState) : (s.setTile t x).flash = s.flash := rfl
@[simp] theorem State.fwFloor_setTile (t : Nat) (x : TileState) : (s.setTile t x).fwFloor = s.fwFloor := rfl
@[simp] theorem State.recFloor_setTile (t : Nat) (x : TileState) : (s.setTile t x).recFloor = s.recFloor := rfl
@[simp] theorem State.retired_setTile (t : Nat) (x : TileState) : (s.setTile t x).retired = s.retired := rfl
@[simp] theorem State.fwu_setTile (t : Nat) (x : TileState) : (s.setTile t x).fwu = s.fwu := rfl
@[simp] theorem State.fwStream_setTile (t : Nat) (x : TileState) : (s.setTile t x).fwStream = s.fwStream := rfl
@[simp] theorem State.badCopy_setTile (t : Nat) (x : TileState) : (s.setTile t x).badCopy = s.badCopy := rfl
@[simp] theorem State.watchdog_setTile (t : Nat) (x : TileState) : (s.setTile t x).watchdog = s.watchdog := rfl
@[simp] theorem State.vpcFw_setTile (t : Nat) (x : TileState) : (s.setTile t x).vpcFw = s.vpcFw := rfl
@[simp] theorem State.meas_setTile (t : Nat) (x : TileState) : (s.setTile t x).meas = s.meas := rfl
@[simp] theorem State.aliasSeed_setTile (t : Nat) (x : TileState) : (s.setTile t x).aliasSeed = s.aliasSeed := rfl
@[simp] theorem State.certs_setTile (t : Nat) (x : TileState) : (s.setTile t x).certs = s.certs := rfl
@[simp] theorem State.spdm_setTile (t : Nat) (x : TileState) : (s.setTile t x).spdm = s.spdm := rfl
@[simp] theorem State.spdmOut_setTile (t : Nat) (x : TileState) : (s.setTile t x).spdmOut = s.spdmOut := rfl
@[simp] theorem State.pgood_setTile (t : Nat) (x : TileState) : (s.setTile t x).pgood = s.pgood := rfl
@[simp] theorem State.pgPull_setTile (t : Nat) (x : TileState) : (s.setTile t x).pgPull = s.pgPull := rfl
@[simp] theorem State.inputOff_setTile (t : Nat) (x : TileState) : (s.setTile t x).inputOff = s.inputOff := rfl
@[simp] theorem State.vddSb_setTile (t : Nat) (x : TileState) : (s.setTile t x).vddSb = s.vddSb := rfl
@[simp] theorem State.inputMv_setTile (t : Nat) (x : TileState) : (s.setTile t x).inputMv = s.inputMv := rfl
@[simp] theorem State.tap_setTile (t : Nat) (x : TileState) : (s.setTile t x).tap = s.tap := rfl
@[simp] theorem State.tapIr_setTile (t : Nat) (x : TileState) : (s.setTile t x).tapIr = s.tapIr := rfl
@[simp] theorem State.tapShift_setTile (t : Nat) (x : TileState) : (s.setTile t x).tapShift = s.tapShift := rfl
@[simp] theorem State.tdo_setTile (t : Nat) (x : TileState) : (s.setTile t x).tdo = s.tdo := rfl
@[simp] theorem State.digests_setTile (t : Nat) (x : TileState) : (s.setTile t x).digests = s.digests := rfl
@[simp] theorem State.engines_setTile (t : Nat) (x : TileState) : (s.setTile t x).engines = s.engines := rfl
@[simp] theorem State.rsp_setTile (t : Nat) (x : TileState) : (s.setTile t x).rsp = s.rsp := rfl
@[simp] theorem State.mcRsp_setTile (t : Nat) (x : TileState) : (s.setTile t x).mcRsp = s.mcRsp := rfl

/-! ## setSlot changes slots -/

@[simp] theorem State.pending_setSlot (n i : Nat) (x : Slot) : (s.setSlot n i x).pending = s.pending := rfl
@[simp] theorem State.regs_setSlot (n i : Nat) (x : Slot) : (s.setSlot n i x).regs = s.regs := rfl
@[simp] theorem State.free_setSlot (n i : Nat) (x : Slot) : (s.setSlot n i x).free = s.free := rfl
@[simp] theorem State.tiles_setSlot (n i : Nat) (x : Slot) : (s.setSlot n i x).tiles = s.tiles := rfl
@[simp] theorem State.saved_setSlot (n i : Nat) (x : Slot) : (s.setSlot n i x).saved = s.saved := rfl
@[simp] theorem State.tileUe_setSlot (n i : Nat) (x : Slot) : (s.setSlot n i x).tileUe = s.tileUe := rfl
@[simp] theorem State.pages_setSlot (n i : Nat) (x : Slot) : (s.setSlot n i x).pages = s.pages := rfl
@[simp] theorem State.blank_setSlot (n i : Nat) (x : Slot) : (s.setSlot n i x).blank = s.blank := rfl
@[simp] theorem State.reserve_setSlot (n i : Nat) (x : Slot) : (s.setSlot n i x).reserve = s.reserve := rfl
@[simp] theorem State.merge_setSlot (n i : Nat) (x : Slot) : (s.setSlot n i x).merge = s.merge := rfl
@[simp] theorem State.retrainQ_setSlot (n i : Nat) (x : Slot) : (s.setSlot n i x).retrainQ = s.retrainQ := rfl
@[simp] theorem State.scrubAt_setSlot (n i : Nat) (x : Slot) : (s.setSlot n i x).scrubAt = s.scrubAt := rfl
@[simp] theorem State.lapCe_setSlot (n i : Nat) (x : Slot) : (s.setSlot n i x).lapCe = s.lapCe := rfl
@[simp] theorem State.lapUe_setSlot (n i : Nat) (x : Slot) : (s.setSlot n i x).lapUe = s.lapUe := rfl
@[simp] theorem State.lapLate_setSlot (n i : Nat) (x : Slot) : (s.setSlot n i x).lapLate = s.lapLate := rfl
@[simp] theorem State.ceSince_setSlot (n i : Nat) (x : Slot) : (s.setSlot n i x).ceSince = s.ceSince := rfl
@[simp] theorem State.cache_setSlot (n i : Nat) (x : Slot) : (s.setSlot n i x).cache = s.cache := rfl
@[simp] theorem State.scratch_setSlot (n i : Nat) (x : Slot) : (s.setSlot n i x).scratch = s.scratch := rfl
@[simp] theorem State.scratchBad_setSlot (n i : Nat) (x : Slot) : (s.setSlot n i x).scratchBad = s.scratchBad := rfl
@[simp] theorem State.scratchWeak_setSlot (n i : Nat) (x : Slot) : (s.setSlot n i x).scratchWeak = s.scratchWeak := rfl
@[simp] theorem State.lastGran_setSlot (n i : Nat) (x : Slot) : (s.setSlot n i x).lastGran = s.lastGran := rfl
@[simp] theorem State.far_setSlot (n i : Nat) (x : Slot) : (s.setSlot n i x).far = s.far := rfl
@[simp] theorem State.farPoison_setSlot (n i : Nat) (x : Slot) : (s.setSlot n i x).farPoison = s.farPoison := rfl
@[simp] theorem State.comp_setSlot (n i : Nat) (x : Slot) : (s.setSlot n i x).comp = s.comp := rfl
@[simp] theorem State.erqSeq_setSlot (n i : Nat) (x : Slot) : (s.setSlot n i x).erqSeq = s.erqSeq := rfl
@[simp] theorem State.ms_setSlot (n i : Nat) (x : Slot) : (s.setSlot n i x).ms = s.ms := rfl
@[simp] theorem State.resetSeq_setSlot (n i : Nat) (x : Slot) : (s.setSlot n i x).resetSeq = s.resetSeq := rfl
@[simp] theorem State.parked_setSlot (n i : Nat) (x : Slot) : (s.setSlot n i x).parked = s.parked := rfl
@[simp] theorem State.demT_setSlot (n i : Nat) (x : Slot) : (s.setSlot n i x).demT = s.demT := rfl
@[simp] theorem State.demV_setSlot (n i : Nat) (x : Slot) : (s.setSlot n i x).demV = s.demV := rfl
@[simp] theorem State.shareT_setSlot (n i : Nat) (x : Slot) : (s.setSlot n i x).shareT = s.shareT := rfl
@[simp] theorem State.shareV_setSlot (n i : Nat) (x : Slot) : (s.setSlot n i x).shareV = s.shareV := rfl
@[simp] theorem State.rrLast_setSlot (n i : Nat) (x : Slot) : (s.setSlot n i x).rrLast = s.rrLast := rfl
@[simp] theorem State.msgs_setSlot (n i : Nat) (x : Slot) : (s.setSlot n i x).msgs = s.msgs := rfl
@[simp] theorem State.msgPend_setSlot (n i : Nat) (x : Slot) : (s.setSlot n i x).msgPend = s.msgPend := rfl
@[simp] theorem State.vecWait_setSlot (n i : Nat) (x : Slot) : (s.setSlot n i x).vecWait = s.vecWait := rfl
@[simp] theorem State.zenRestart_setSlot (n i : Nat) (x : Slot) : (s.setSlot n i x).zenRestart = s.zenRestart := rfl
@[simp] theorem State.heldRecs_setSlot (n i : Nat) (x : Slot) : (s.setSlot n i x).heldRecs = s.heldRecs := rfl
@[simp] theorem State.filter_setSlot (n i : Nat) (x : Slot) : (s.setSlot n i x).filter = s.filter := rfl
@[simp] theorem State.snoops_setSlot (n i : Nat) (x : Slot) : (s.setSlot n i x).snoops = s.snoops := rfl
@[simp] theorem State.dylMode_setSlot (n i : Nat) (x : Slot) : (s.setSlot n i x).dylMode = s.dylMode := rfl
@[simp] theorem State.dylPerst_setSlot (n i : Nat) (x : Slot) : (s.setSlot n i x).dylPerst = s.dylPerst := rfl
@[simp] theorem State.cxpPerst_setSlot (n i : Nat) (x : Slot) : (s.setSlot n i x).cxpPerst = s.cxpPerst := rfl
@[simp] theorem State.repairDue_setSlot (n i : Nat) (x : Slot) : (s.setSlot n i x).repairDue = s.repairDue := rfl
@[simp] theorem State.rqt_setSlot (n i : Nat) (x : Slot) : (s.setSlot n i x).rqt = s.rqt := rfl
@[simp] theorem State.arrivals_setSlot (n i : Nat) (x : Slot) : (s.setSlot n i x).arrivals = s.arrivals := rfl
@[simp] theorem State.srv_setSlot (n i : Nat) (x : Slot) : (s.setSlot n i x).srv = s.srv := rfl
@[simp] theorem State.srvIn_setSlot (n i : Nat) (x : Slot) : (s.setSlot n i x).srvIn = s.srvIn := rfl
@[simp] theorem State.ldrIn_setSlot (n i : Nat) (x : Slot) : (s.setSlot n i x).ldrIn = s.ldrIn := rfl
@[simp] theorem State.ringSeen_setSlot (n i : Nat) (x : Slot) : (s.setSlot n i x).ringSeen = s.ringSeen := rfl
@[simp] theorem State.linkCache_setSlot (n i : Nat) (x : Slot) : (s.setSlot n i x).linkCache = s.linkCache := rfl
@[simp] theorem State.txWait_setSlot (n i : Nat) (x : Slot) : (s.setSlot n i x).txWait = s.txWait := rfl
@[simp] theorem State.txSent_setSlot (n i : Nat) (x : Slot) : (s.setSlot n i x).txSent = s.txSent := rfl
@[simp] theorem State.txSeq_setSlot (n i : Nat) (x : Slot) : (s.setSlot n i x).txSeq = s.txSeq := rfl
@[simp] theorem State.txWin_setSlot (n i : Nat) (x : Slot) : (s.setSlot n i x).txWin = s.txWin := rfl
@[simp] theorem State.fopNext_setSlot (n i : Nat) (x : Slot) : (s.setSlot n i x).fopNext = s.fopNext := rfl
@[simp] theorem State.lateWait_setSlot (n i : Nat) (x : Slot) : (s.setSlot n i x).lateWait = s.lateWait := rfl
@[simp] theorem State.lateHeld_setSlot (n i : Nat) (x : Slot) : (s.setSlot n i x).lateHeld = s.lateHeld := rfl
@[simp] theorem State.rxNode_setSlot (n i : Nat) (x : Slot) : (s.setSlot n i x).rxNode = s.rxNode := rfl
@[simp] theorem State.xwfOut_setSlot (n i : Nat) (x : Slot) : (s.setSlot n i x).xwfOut = s.xwfOut := rfl
@[simp] theorem State.naOut_setSlot (n i : Nat) (x : Slot) : (s.setSlot n i x).naOut = s.naOut := rfl
@[simp] theorem State.xwfEth_setSlot (n i : Nat) (x : Slot) : (s.setSlot n i x).xwfEth = s.xwfEth := rfl
@[simp] theorem State.dropSince_setSlot (n i : Nat) (x : Slot) : (s.setSlot n i x).dropSince = s.dropSince := rfl
@[simp] theorem State.svc_setSlot (n i : Nat) (x : Slot) : (s.setSlot n i x).svc = s.svc := rfl
@[simp] theorem State.svcHeld_setSlot (n i : Nat) (x : Slot) : (s.setSlot n i x).svcHeld = s.svcHeld := rfl
@[simp] theorem State.svcDue_setSlot (n i : Nat) (x : Slot) : (s.setSlot n i x).svcDue = s.svcDue := rfl
@[simp] theorem State.migTodo_setSlot (n i : Nat) (x : Slot) : (s.setSlot n i x).migTodo = s.migTodo := rfl
@[simp] theorem State.heavyNow_setSlot (n i : Nat) (x : Slot) : (s.setSlot n i x).heavyNow = s.heavyNow := rfl
@[simp] theorem State.heavyPrev_setSlot (n i : Nat) (x : Slot) : (s.setSlot n i x).heavyPrev = s.heavyPrev := rfl
@[simp] theorem State.chosen_setSlot (n i : Nat) (x : Slot) : (s.setSlot n i x).chosen = s.chosen := rfl
@[simp] theorem State.endAsked_setSlot (n i : Nat) (x : Slot) : (s.setSlot n i x).endAsked = s.endAsked := rfl
@[simp] theorem State.loading_setSlot (n i : Nat) (x : Slot) : (s.setSlot n i x).loading = s.loading := rfl
@[simp] theorem State.cross_setSlot (n i : Nat) (x : Slot) : (s.setSlot n i x).cross = s.cross := rfl
@[simp] theorem State.zenLost_setSlot (n i : Nat) (x : Slot) : (s.setSlot n i x).zenLost = s.zenLost := rfl
@[simp] theorem State.nodes_setSlot (n i : Nat) (x : Slot) : (s.setSlot n i x).nodes = s.nodes := rfl
@[simp] theorem State.theta_setSlot (n i : Nat) (x : Slot) : (s.setSlot n i x).theta = s.theta := rfl
@[simp] theorem State.tau_setSlot (n i : Nat) (x : Slot) : (s.setSlot n i x).tau = s.tau := rfl
@[simp] theorem State.stuckFor_setSlot (n i : Nat) (x : Slot) : (s.setSlot n i x).stuckFor = s.stuckFor := rfl
@[simp] theorem State.ceLast_setSlot (n i : Nat) (x : Slot) : (s.setSlot n i x).ceLast = s.ceLast := rfl
@[simp] theorem State.tripHard_setSlot (n i : Nat) (x : Slot) : (s.setSlot n i x).tripHard = s.tripHard := rfl
@[simp] theorem State.sampleQ_setSlot (n i : Nat) (x : Slot) : (s.setSlot n i x).sampleQ = s.sampleQ := rfl
@[simp] theorem State.vrgFaultAt_setSlot (n i : Nat) (x : Slot) : (s.setSlot n i x).vrgFaultAt = s.vrgFaultAt := rfl
@[simp] theorem State.flash_setSlot (n i : Nat) (x : Slot) : (s.setSlot n i x).flash = s.flash := rfl
@[simp] theorem State.fwFloor_setSlot (n i : Nat) (x : Slot) : (s.setSlot n i x).fwFloor = s.fwFloor := rfl
@[simp] theorem State.recFloor_setSlot (n i : Nat) (x : Slot) : (s.setSlot n i x).recFloor = s.recFloor := rfl
@[simp] theorem State.retired_setSlot (n i : Nat) (x : Slot) : (s.setSlot n i x).retired = s.retired := rfl
@[simp] theorem State.fwu_setSlot (n i : Nat) (x : Slot) : (s.setSlot n i x).fwu = s.fwu := rfl
@[simp] theorem State.fwStream_setSlot (n i : Nat) (x : Slot) : (s.setSlot n i x).fwStream = s.fwStream := rfl
@[simp] theorem State.badCopy_setSlot (n i : Nat) (x : Slot) : (s.setSlot n i x).badCopy = s.badCopy := rfl
@[simp] theorem State.watchdog_setSlot (n i : Nat) (x : Slot) : (s.setSlot n i x).watchdog = s.watchdog := rfl
@[simp] theorem State.vpcFw_setSlot (n i : Nat) (x : Slot) : (s.setSlot n i x).vpcFw = s.vpcFw := rfl
@[simp] theorem State.meas_setSlot (n i : Nat) (x : Slot) : (s.setSlot n i x).meas = s.meas := rfl
@[simp] theorem State.aliasSeed_setSlot (n i : Nat) (x : Slot) : (s.setSlot n i x).aliasSeed = s.aliasSeed := rfl
@[simp] theorem State.certs_setSlot (n i : Nat) (x : Slot) : (s.setSlot n i x).certs = s.certs := rfl
@[simp] theorem State.spdm_setSlot (n i : Nat) (x : Slot) : (s.setSlot n i x).spdm = s.spdm := rfl
@[simp] theorem State.spdmOut_setSlot (n i : Nat) (x : Slot) : (s.setSlot n i x).spdmOut = s.spdmOut := rfl
@[simp] theorem State.pgood_setSlot (n i : Nat) (x : Slot) : (s.setSlot n i x).pgood = s.pgood := rfl
@[simp] theorem State.pgPull_setSlot (n i : Nat) (x : Slot) : (s.setSlot n i x).pgPull = s.pgPull := rfl
@[simp] theorem State.inputOff_setSlot (n i : Nat) (x : Slot) : (s.setSlot n i x).inputOff = s.inputOff := rfl
@[simp] theorem State.vddSb_setSlot (n i : Nat) (x : Slot) : (s.setSlot n i x).vddSb = s.vddSb := rfl
@[simp] theorem State.inputMv_setSlot (n i : Nat) (x : Slot) : (s.setSlot n i x).inputMv = s.inputMv := rfl
@[simp] theorem State.tap_setSlot (n i : Nat) (x : Slot) : (s.setSlot n i x).tap = s.tap := rfl
@[simp] theorem State.tapIr_setSlot (n i : Nat) (x : Slot) : (s.setSlot n i x).tapIr = s.tapIr := rfl
@[simp] theorem State.tapShift_setSlot (n i : Nat) (x : Slot) : (s.setSlot n i x).tapShift = s.tapShift := rfl
@[simp] theorem State.tdo_setSlot (n i : Nat) (x : Slot) : (s.setSlot n i x).tdo = s.tdo := rfl
@[simp] theorem State.digests_setSlot (n i : Nat) (x : Slot) : (s.setSlot n i x).digests = s.digests := rfl
@[simp] theorem State.engines_setSlot (n i : Nat) (x : Slot) : (s.setSlot n i x).engines = s.engines := rfl
@[simp] theorem State.rsp_setSlot (n i : Nat) (x : Slot) : (s.setSlot n i x).rsp = s.rsp := rfl
@[simp] theorem State.mcRsp_setSlot (n i : Nat) (x : Slot) : (s.setSlot n i x).mcRsp = s.mcRsp := rfl

/-! ## setLine changes cache -/

@[simp] theorem State.pending_setLine (j n : Nat) (x : CLine) : (s.setLine j n x).pending = s.pending := rfl
@[simp] theorem State.regs_setLine (j n : Nat) (x : CLine) : (s.setLine j n x).regs = s.regs := rfl
@[simp] theorem State.free_setLine (j n : Nat) (x : CLine) : (s.setLine j n x).free = s.free := rfl
@[simp] theorem State.tiles_setLine (j n : Nat) (x : CLine) : (s.setLine j n x).tiles = s.tiles := rfl
@[simp] theorem State.saved_setLine (j n : Nat) (x : CLine) : (s.setLine j n x).saved = s.saved := rfl
@[simp] theorem State.tileUe_setLine (j n : Nat) (x : CLine) : (s.setLine j n x).tileUe = s.tileUe := rfl
@[simp] theorem State.slots_setLine (j n : Nat) (x : CLine) : (s.setLine j n x).slots = s.slots := rfl
@[simp] theorem State.pages_setLine (j n : Nat) (x : CLine) : (s.setLine j n x).pages = s.pages := rfl
@[simp] theorem State.blank_setLine (j n : Nat) (x : CLine) : (s.setLine j n x).blank = s.blank := rfl
@[simp] theorem State.reserve_setLine (j n : Nat) (x : CLine) : (s.setLine j n x).reserve = s.reserve := rfl
@[simp] theorem State.merge_setLine (j n : Nat) (x : CLine) : (s.setLine j n x).merge = s.merge := rfl
@[simp] theorem State.retrainQ_setLine (j n : Nat) (x : CLine) : (s.setLine j n x).retrainQ = s.retrainQ := rfl
@[simp] theorem State.scrubAt_setLine (j n : Nat) (x : CLine) : (s.setLine j n x).scrubAt = s.scrubAt := rfl
@[simp] theorem State.lapCe_setLine (j n : Nat) (x : CLine) : (s.setLine j n x).lapCe = s.lapCe := rfl
@[simp] theorem State.lapUe_setLine (j n : Nat) (x : CLine) : (s.setLine j n x).lapUe = s.lapUe := rfl
@[simp] theorem State.lapLate_setLine (j n : Nat) (x : CLine) : (s.setLine j n x).lapLate = s.lapLate := rfl
@[simp] theorem State.ceSince_setLine (j n : Nat) (x : CLine) : (s.setLine j n x).ceSince = s.ceSince := rfl
@[simp] theorem State.scratch_setLine (j n : Nat) (x : CLine) : (s.setLine j n x).scratch = s.scratch := rfl
@[simp] theorem State.scratchBad_setLine (j n : Nat) (x : CLine) : (s.setLine j n x).scratchBad = s.scratchBad := rfl
@[simp] theorem State.scratchWeak_setLine (j n : Nat) (x : CLine) : (s.setLine j n x).scratchWeak = s.scratchWeak := rfl
@[simp] theorem State.lastGran_setLine (j n : Nat) (x : CLine) : (s.setLine j n x).lastGran = s.lastGran := rfl
@[simp] theorem State.far_setLine (j n : Nat) (x : CLine) : (s.setLine j n x).far = s.far := rfl
@[simp] theorem State.farPoison_setLine (j n : Nat) (x : CLine) : (s.setLine j n x).farPoison = s.farPoison := rfl
@[simp] theorem State.comp_setLine (j n : Nat) (x : CLine) : (s.setLine j n x).comp = s.comp := rfl
@[simp] theorem State.erqSeq_setLine (j n : Nat) (x : CLine) : (s.setLine j n x).erqSeq = s.erqSeq := rfl
@[simp] theorem State.ms_setLine (j n : Nat) (x : CLine) : (s.setLine j n x).ms = s.ms := rfl
@[simp] theorem State.resetSeq_setLine (j n : Nat) (x : CLine) : (s.setLine j n x).resetSeq = s.resetSeq := rfl
@[simp] theorem State.parked_setLine (j n : Nat) (x : CLine) : (s.setLine j n x).parked = s.parked := rfl
@[simp] theorem State.demT_setLine (j n : Nat) (x : CLine) : (s.setLine j n x).demT = s.demT := rfl
@[simp] theorem State.demV_setLine (j n : Nat) (x : CLine) : (s.setLine j n x).demV = s.demV := rfl
@[simp] theorem State.shareT_setLine (j n : Nat) (x : CLine) : (s.setLine j n x).shareT = s.shareT := rfl
@[simp] theorem State.shareV_setLine (j n : Nat) (x : CLine) : (s.setLine j n x).shareV = s.shareV := rfl
@[simp] theorem State.rrLast_setLine (j n : Nat) (x : CLine) : (s.setLine j n x).rrLast = s.rrLast := rfl
@[simp] theorem State.msgs_setLine (j n : Nat) (x : CLine) : (s.setLine j n x).msgs = s.msgs := rfl
@[simp] theorem State.msgPend_setLine (j n : Nat) (x : CLine) : (s.setLine j n x).msgPend = s.msgPend := rfl
@[simp] theorem State.vecWait_setLine (j n : Nat) (x : CLine) : (s.setLine j n x).vecWait = s.vecWait := rfl
@[simp] theorem State.zenRestart_setLine (j n : Nat) (x : CLine) : (s.setLine j n x).zenRestart = s.zenRestart := rfl
@[simp] theorem State.heldRecs_setLine (j n : Nat) (x : CLine) : (s.setLine j n x).heldRecs = s.heldRecs := rfl
@[simp] theorem State.filter_setLine (j n : Nat) (x : CLine) : (s.setLine j n x).filter = s.filter := rfl
@[simp] theorem State.snoops_setLine (j n : Nat) (x : CLine) : (s.setLine j n x).snoops = s.snoops := rfl
@[simp] theorem State.dylMode_setLine (j n : Nat) (x : CLine) : (s.setLine j n x).dylMode = s.dylMode := rfl
@[simp] theorem State.dylPerst_setLine (j n : Nat) (x : CLine) : (s.setLine j n x).dylPerst = s.dylPerst := rfl
@[simp] theorem State.cxpPerst_setLine (j n : Nat) (x : CLine) : (s.setLine j n x).cxpPerst = s.cxpPerst := rfl
@[simp] theorem State.repairDue_setLine (j n : Nat) (x : CLine) : (s.setLine j n x).repairDue = s.repairDue := rfl
@[simp] theorem State.rqt_setLine (j n : Nat) (x : CLine) : (s.setLine j n x).rqt = s.rqt := rfl
@[simp] theorem State.arrivals_setLine (j n : Nat) (x : CLine) : (s.setLine j n x).arrivals = s.arrivals := rfl
@[simp] theorem State.srv_setLine (j n : Nat) (x : CLine) : (s.setLine j n x).srv = s.srv := rfl
@[simp] theorem State.srvIn_setLine (j n : Nat) (x : CLine) : (s.setLine j n x).srvIn = s.srvIn := rfl
@[simp] theorem State.ldrIn_setLine (j n : Nat) (x : CLine) : (s.setLine j n x).ldrIn = s.ldrIn := rfl
@[simp] theorem State.ringSeen_setLine (j n : Nat) (x : CLine) : (s.setLine j n x).ringSeen = s.ringSeen := rfl
@[simp] theorem State.linkCache_setLine (j n : Nat) (x : CLine) : (s.setLine j n x).linkCache = s.linkCache := rfl
@[simp] theorem State.txWait_setLine (j n : Nat) (x : CLine) : (s.setLine j n x).txWait = s.txWait := rfl
@[simp] theorem State.txSent_setLine (j n : Nat) (x : CLine) : (s.setLine j n x).txSent = s.txSent := rfl
@[simp] theorem State.txSeq_setLine (j n : Nat) (x : CLine) : (s.setLine j n x).txSeq = s.txSeq := rfl
@[simp] theorem State.txWin_setLine (j n : Nat) (x : CLine) : (s.setLine j n x).txWin = s.txWin := rfl
@[simp] theorem State.fopNext_setLine (j n : Nat) (x : CLine) : (s.setLine j n x).fopNext = s.fopNext := rfl
@[simp] theorem State.lateWait_setLine (j n : Nat) (x : CLine) : (s.setLine j n x).lateWait = s.lateWait := rfl
@[simp] theorem State.lateHeld_setLine (j n : Nat) (x : CLine) : (s.setLine j n x).lateHeld = s.lateHeld := rfl
@[simp] theorem State.rxNode_setLine (j n : Nat) (x : CLine) : (s.setLine j n x).rxNode = s.rxNode := rfl
@[simp] theorem State.xwfOut_setLine (j n : Nat) (x : CLine) : (s.setLine j n x).xwfOut = s.xwfOut := rfl
@[simp] theorem State.naOut_setLine (j n : Nat) (x : CLine) : (s.setLine j n x).naOut = s.naOut := rfl
@[simp] theorem State.xwfEth_setLine (j n : Nat) (x : CLine) : (s.setLine j n x).xwfEth = s.xwfEth := rfl
@[simp] theorem State.dropSince_setLine (j n : Nat) (x : CLine) : (s.setLine j n x).dropSince = s.dropSince := rfl
@[simp] theorem State.svc_setLine (j n : Nat) (x : CLine) : (s.setLine j n x).svc = s.svc := rfl
@[simp] theorem State.svcHeld_setLine (j n : Nat) (x : CLine) : (s.setLine j n x).svcHeld = s.svcHeld := rfl
@[simp] theorem State.svcDue_setLine (j n : Nat) (x : CLine) : (s.setLine j n x).svcDue = s.svcDue := rfl
@[simp] theorem State.migTodo_setLine (j n : Nat) (x : CLine) : (s.setLine j n x).migTodo = s.migTodo := rfl
@[simp] theorem State.heavyNow_setLine (j n : Nat) (x : CLine) : (s.setLine j n x).heavyNow = s.heavyNow := rfl
@[simp] theorem State.heavyPrev_setLine (j n : Nat) (x : CLine) : (s.setLine j n x).heavyPrev = s.heavyPrev := rfl
@[simp] theorem State.chosen_setLine (j n : Nat) (x : CLine) : (s.setLine j n x).chosen = s.chosen := rfl
@[simp] theorem State.endAsked_setLine (j n : Nat) (x : CLine) : (s.setLine j n x).endAsked = s.endAsked := rfl
@[simp] theorem State.loading_setLine (j n : Nat) (x : CLine) : (s.setLine j n x).loading = s.loading := rfl
@[simp] theorem State.cross_setLine (j n : Nat) (x : CLine) : (s.setLine j n x).cross = s.cross := rfl
@[simp] theorem State.zenLost_setLine (j n : Nat) (x : CLine) : (s.setLine j n x).zenLost = s.zenLost := rfl
@[simp] theorem State.nodes_setLine (j n : Nat) (x : CLine) : (s.setLine j n x).nodes = s.nodes := rfl
@[simp] theorem State.theta_setLine (j n : Nat) (x : CLine) : (s.setLine j n x).theta = s.theta := rfl
@[simp] theorem State.tau_setLine (j n : Nat) (x : CLine) : (s.setLine j n x).tau = s.tau := rfl
@[simp] theorem State.stuckFor_setLine (j n : Nat) (x : CLine) : (s.setLine j n x).stuckFor = s.stuckFor := rfl
@[simp] theorem State.ceLast_setLine (j n : Nat) (x : CLine) : (s.setLine j n x).ceLast = s.ceLast := rfl
@[simp] theorem State.tripHard_setLine (j n : Nat) (x : CLine) : (s.setLine j n x).tripHard = s.tripHard := rfl
@[simp] theorem State.sampleQ_setLine (j n : Nat) (x : CLine) : (s.setLine j n x).sampleQ = s.sampleQ := rfl
@[simp] theorem State.vrgFaultAt_setLine (j n : Nat) (x : CLine) : (s.setLine j n x).vrgFaultAt = s.vrgFaultAt := rfl
@[simp] theorem State.flash_setLine (j n : Nat) (x : CLine) : (s.setLine j n x).flash = s.flash := rfl
@[simp] theorem State.fwFloor_setLine (j n : Nat) (x : CLine) : (s.setLine j n x).fwFloor = s.fwFloor := rfl
@[simp] theorem State.recFloor_setLine (j n : Nat) (x : CLine) : (s.setLine j n x).recFloor = s.recFloor := rfl
@[simp] theorem State.retired_setLine (j n : Nat) (x : CLine) : (s.setLine j n x).retired = s.retired := rfl
@[simp] theorem State.fwu_setLine (j n : Nat) (x : CLine) : (s.setLine j n x).fwu = s.fwu := rfl
@[simp] theorem State.fwStream_setLine (j n : Nat) (x : CLine) : (s.setLine j n x).fwStream = s.fwStream := rfl
@[simp] theorem State.badCopy_setLine (j n : Nat) (x : CLine) : (s.setLine j n x).badCopy = s.badCopy := rfl
@[simp] theorem State.watchdog_setLine (j n : Nat) (x : CLine) : (s.setLine j n x).watchdog = s.watchdog := rfl
@[simp] theorem State.vpcFw_setLine (j n : Nat) (x : CLine) : (s.setLine j n x).vpcFw = s.vpcFw := rfl
@[simp] theorem State.meas_setLine (j n : Nat) (x : CLine) : (s.setLine j n x).meas = s.meas := rfl
@[simp] theorem State.aliasSeed_setLine (j n : Nat) (x : CLine) : (s.setLine j n x).aliasSeed = s.aliasSeed := rfl
@[simp] theorem State.certs_setLine (j n : Nat) (x : CLine) : (s.setLine j n x).certs = s.certs := rfl
@[simp] theorem State.spdm_setLine (j n : Nat) (x : CLine) : (s.setLine j n x).spdm = s.spdm := rfl
@[simp] theorem State.spdmOut_setLine (j n : Nat) (x : CLine) : (s.setLine j n x).spdmOut = s.spdmOut := rfl
@[simp] theorem State.pgood_setLine (j n : Nat) (x : CLine) : (s.setLine j n x).pgood = s.pgood := rfl
@[simp] theorem State.pgPull_setLine (j n : Nat) (x : CLine) : (s.setLine j n x).pgPull = s.pgPull := rfl
@[simp] theorem State.inputOff_setLine (j n : Nat) (x : CLine) : (s.setLine j n x).inputOff = s.inputOff := rfl
@[simp] theorem State.vddSb_setLine (j n : Nat) (x : CLine) : (s.setLine j n x).vddSb = s.vddSb := rfl
@[simp] theorem State.inputMv_setLine (j n : Nat) (x : CLine) : (s.setLine j n x).inputMv = s.inputMv := rfl
@[simp] theorem State.tap_setLine (j n : Nat) (x : CLine) : (s.setLine j n x).tap = s.tap := rfl
@[simp] theorem State.tapIr_setLine (j n : Nat) (x : CLine) : (s.setLine j n x).tapIr = s.tapIr := rfl
@[simp] theorem State.tapShift_setLine (j n : Nat) (x : CLine) : (s.setLine j n x).tapShift = s.tapShift := rfl
@[simp] theorem State.tdo_setLine (j n : Nat) (x : CLine) : (s.setLine j n x).tdo = s.tdo := rfl
@[simp] theorem State.digests_setLine (j n : Nat) (x : CLine) : (s.setLine j n x).digests = s.digests := rfl
@[simp] theorem State.engines_setLine (j n : Nat) (x : CLine) : (s.setLine j n x).engines = s.engines := rfl
@[simp] theorem State.rsp_setLine (j n : Nat) (x : CLine) : (s.setLine j n x).rsp = s.rsp := rfl
@[simp] theorem State.mcRsp_setLine (j n : Nat) (x : CLine) : (s.setLine j n x).mcRsp = s.mcRsp := rfl

/-! ## setMergeBuf changes merge -/

@[simp] theorem State.pending_setMergeBuf (c : Nat) (l : List MergeEntry) : (s.setMergeBuf c l).pending = s.pending := rfl
@[simp] theorem State.regs_setMergeBuf (c : Nat) (l : List MergeEntry) : (s.setMergeBuf c l).regs = s.regs := rfl
@[simp] theorem State.free_setMergeBuf (c : Nat) (l : List MergeEntry) : (s.setMergeBuf c l).free = s.free := rfl
@[simp] theorem State.tiles_setMergeBuf (c : Nat) (l : List MergeEntry) : (s.setMergeBuf c l).tiles = s.tiles := rfl
@[simp] theorem State.saved_setMergeBuf (c : Nat) (l : List MergeEntry) : (s.setMergeBuf c l).saved = s.saved := rfl
@[simp] theorem State.tileUe_setMergeBuf (c : Nat) (l : List MergeEntry) : (s.setMergeBuf c l).tileUe = s.tileUe := rfl
@[simp] theorem State.slots_setMergeBuf (c : Nat) (l : List MergeEntry) : (s.setMergeBuf c l).slots = s.slots := rfl
@[simp] theorem State.pages_setMergeBuf (c : Nat) (l : List MergeEntry) : (s.setMergeBuf c l).pages = s.pages := rfl
@[simp] theorem State.blank_setMergeBuf (c : Nat) (l : List MergeEntry) : (s.setMergeBuf c l).blank = s.blank := rfl
@[simp] theorem State.reserve_setMergeBuf (c : Nat) (l : List MergeEntry) : (s.setMergeBuf c l).reserve = s.reserve := rfl
@[simp] theorem State.retrainQ_setMergeBuf (c : Nat) (l : List MergeEntry) : (s.setMergeBuf c l).retrainQ = s.retrainQ := rfl
@[simp] theorem State.scrubAt_setMergeBuf (c : Nat) (l : List MergeEntry) : (s.setMergeBuf c l).scrubAt = s.scrubAt := rfl
@[simp] theorem State.lapCe_setMergeBuf (c : Nat) (l : List MergeEntry) : (s.setMergeBuf c l).lapCe = s.lapCe := rfl
@[simp] theorem State.lapUe_setMergeBuf (c : Nat) (l : List MergeEntry) : (s.setMergeBuf c l).lapUe = s.lapUe := rfl
@[simp] theorem State.lapLate_setMergeBuf (c : Nat) (l : List MergeEntry) : (s.setMergeBuf c l).lapLate = s.lapLate := rfl
@[simp] theorem State.ceSince_setMergeBuf (c : Nat) (l : List MergeEntry) : (s.setMergeBuf c l).ceSince = s.ceSince := rfl
@[simp] theorem State.cache_setMergeBuf (c : Nat) (l : List MergeEntry) : (s.setMergeBuf c l).cache = s.cache := rfl
@[simp] theorem State.scratch_setMergeBuf (c : Nat) (l : List MergeEntry) : (s.setMergeBuf c l).scratch = s.scratch := rfl
@[simp] theorem State.scratchBad_setMergeBuf (c : Nat) (l : List MergeEntry) : (s.setMergeBuf c l).scratchBad = s.scratchBad := rfl
@[simp] theorem State.scratchWeak_setMergeBuf (c : Nat) (l : List MergeEntry) : (s.setMergeBuf c l).scratchWeak = s.scratchWeak := rfl
@[simp] theorem State.lastGran_setMergeBuf (c : Nat) (l : List MergeEntry) : (s.setMergeBuf c l).lastGran = s.lastGran := rfl
@[simp] theorem State.far_setMergeBuf (c : Nat) (l : List MergeEntry) : (s.setMergeBuf c l).far = s.far := rfl
@[simp] theorem State.farPoison_setMergeBuf (c : Nat) (l : List MergeEntry) : (s.setMergeBuf c l).farPoison = s.farPoison := rfl
@[simp] theorem State.comp_setMergeBuf (c : Nat) (l : List MergeEntry) : (s.setMergeBuf c l).comp = s.comp := rfl
@[simp] theorem State.erqSeq_setMergeBuf (c : Nat) (l : List MergeEntry) : (s.setMergeBuf c l).erqSeq = s.erqSeq := rfl
@[simp] theorem State.ms_setMergeBuf (c : Nat) (l : List MergeEntry) : (s.setMergeBuf c l).ms = s.ms := rfl
@[simp] theorem State.resetSeq_setMergeBuf (c : Nat) (l : List MergeEntry) : (s.setMergeBuf c l).resetSeq = s.resetSeq := rfl
@[simp] theorem State.parked_setMergeBuf (c : Nat) (l : List MergeEntry) : (s.setMergeBuf c l).parked = s.parked := rfl
@[simp] theorem State.demT_setMergeBuf (c : Nat) (l : List MergeEntry) : (s.setMergeBuf c l).demT = s.demT := rfl
@[simp] theorem State.demV_setMergeBuf (c : Nat) (l : List MergeEntry) : (s.setMergeBuf c l).demV = s.demV := rfl
@[simp] theorem State.shareT_setMergeBuf (c : Nat) (l : List MergeEntry) : (s.setMergeBuf c l).shareT = s.shareT := rfl
@[simp] theorem State.shareV_setMergeBuf (c : Nat) (l : List MergeEntry) : (s.setMergeBuf c l).shareV = s.shareV := rfl
@[simp] theorem State.rrLast_setMergeBuf (c : Nat) (l : List MergeEntry) : (s.setMergeBuf c l).rrLast = s.rrLast := rfl
@[simp] theorem State.msgs_setMergeBuf (c : Nat) (l : List MergeEntry) : (s.setMergeBuf c l).msgs = s.msgs := rfl
@[simp] theorem State.msgPend_setMergeBuf (c : Nat) (l : List MergeEntry) : (s.setMergeBuf c l).msgPend = s.msgPend := rfl
@[simp] theorem State.vecWait_setMergeBuf (c : Nat) (l : List MergeEntry) : (s.setMergeBuf c l).vecWait = s.vecWait := rfl
@[simp] theorem State.zenRestart_setMergeBuf (c : Nat) (l : List MergeEntry) : (s.setMergeBuf c l).zenRestart = s.zenRestart := rfl
@[simp] theorem State.heldRecs_setMergeBuf (c : Nat) (l : List MergeEntry) : (s.setMergeBuf c l).heldRecs = s.heldRecs := rfl
@[simp] theorem State.filter_setMergeBuf (c : Nat) (l : List MergeEntry) : (s.setMergeBuf c l).filter = s.filter := rfl
@[simp] theorem State.snoops_setMergeBuf (c : Nat) (l : List MergeEntry) : (s.setMergeBuf c l).snoops = s.snoops := rfl
@[simp] theorem State.dylMode_setMergeBuf (c : Nat) (l : List MergeEntry) : (s.setMergeBuf c l).dylMode = s.dylMode := rfl
@[simp] theorem State.dylPerst_setMergeBuf (c : Nat) (l : List MergeEntry) : (s.setMergeBuf c l).dylPerst = s.dylPerst := rfl
@[simp] theorem State.cxpPerst_setMergeBuf (c : Nat) (l : List MergeEntry) : (s.setMergeBuf c l).cxpPerst = s.cxpPerst := rfl
@[simp] theorem State.repairDue_setMergeBuf (c : Nat) (l : List MergeEntry) : (s.setMergeBuf c l).repairDue = s.repairDue := rfl
@[simp] theorem State.rqt_setMergeBuf (c : Nat) (l : List MergeEntry) : (s.setMergeBuf c l).rqt = s.rqt := rfl
@[simp] theorem State.arrivals_setMergeBuf (c : Nat) (l : List MergeEntry) : (s.setMergeBuf c l).arrivals = s.arrivals := rfl
@[simp] theorem State.srv_setMergeBuf (c : Nat) (l : List MergeEntry) : (s.setMergeBuf c l).srv = s.srv := rfl
@[simp] theorem State.srvIn_setMergeBuf (c : Nat) (l : List MergeEntry) : (s.setMergeBuf c l).srvIn = s.srvIn := rfl
@[simp] theorem State.ldrIn_setMergeBuf (c : Nat) (l : List MergeEntry) : (s.setMergeBuf c l).ldrIn = s.ldrIn := rfl
@[simp] theorem State.ringSeen_setMergeBuf (c : Nat) (l : List MergeEntry) : (s.setMergeBuf c l).ringSeen = s.ringSeen := rfl
@[simp] theorem State.linkCache_setMergeBuf (c : Nat) (l : List MergeEntry) : (s.setMergeBuf c l).linkCache = s.linkCache := rfl
@[simp] theorem State.txWait_setMergeBuf (c : Nat) (l : List MergeEntry) : (s.setMergeBuf c l).txWait = s.txWait := rfl
@[simp] theorem State.txSent_setMergeBuf (c : Nat) (l : List MergeEntry) : (s.setMergeBuf c l).txSent = s.txSent := rfl
@[simp] theorem State.txSeq_setMergeBuf (c : Nat) (l : List MergeEntry) : (s.setMergeBuf c l).txSeq = s.txSeq := rfl
@[simp] theorem State.txWin_setMergeBuf (c : Nat) (l : List MergeEntry) : (s.setMergeBuf c l).txWin = s.txWin := rfl
@[simp] theorem State.fopNext_setMergeBuf (c : Nat) (l : List MergeEntry) : (s.setMergeBuf c l).fopNext = s.fopNext := rfl
@[simp] theorem State.lateWait_setMergeBuf (c : Nat) (l : List MergeEntry) : (s.setMergeBuf c l).lateWait = s.lateWait := rfl
@[simp] theorem State.lateHeld_setMergeBuf (c : Nat) (l : List MergeEntry) : (s.setMergeBuf c l).lateHeld = s.lateHeld := rfl
@[simp] theorem State.rxNode_setMergeBuf (c : Nat) (l : List MergeEntry) : (s.setMergeBuf c l).rxNode = s.rxNode := rfl
@[simp] theorem State.xwfOut_setMergeBuf (c : Nat) (l : List MergeEntry) : (s.setMergeBuf c l).xwfOut = s.xwfOut := rfl
@[simp] theorem State.naOut_setMergeBuf (c : Nat) (l : List MergeEntry) : (s.setMergeBuf c l).naOut = s.naOut := rfl
@[simp] theorem State.xwfEth_setMergeBuf (c : Nat) (l : List MergeEntry) : (s.setMergeBuf c l).xwfEth = s.xwfEth := rfl
@[simp] theorem State.dropSince_setMergeBuf (c : Nat) (l : List MergeEntry) : (s.setMergeBuf c l).dropSince = s.dropSince := rfl
@[simp] theorem State.svc_setMergeBuf (c : Nat) (l : List MergeEntry) : (s.setMergeBuf c l).svc = s.svc := rfl
@[simp] theorem State.svcHeld_setMergeBuf (c : Nat) (l : List MergeEntry) : (s.setMergeBuf c l).svcHeld = s.svcHeld := rfl
@[simp] theorem State.svcDue_setMergeBuf (c : Nat) (l : List MergeEntry) : (s.setMergeBuf c l).svcDue = s.svcDue := rfl
@[simp] theorem State.migTodo_setMergeBuf (c : Nat) (l : List MergeEntry) : (s.setMergeBuf c l).migTodo = s.migTodo := rfl
@[simp] theorem State.heavyNow_setMergeBuf (c : Nat) (l : List MergeEntry) : (s.setMergeBuf c l).heavyNow = s.heavyNow := rfl
@[simp] theorem State.heavyPrev_setMergeBuf (c : Nat) (l : List MergeEntry) : (s.setMergeBuf c l).heavyPrev = s.heavyPrev := rfl
@[simp] theorem State.chosen_setMergeBuf (c : Nat) (l : List MergeEntry) : (s.setMergeBuf c l).chosen = s.chosen := rfl
@[simp] theorem State.endAsked_setMergeBuf (c : Nat) (l : List MergeEntry) : (s.setMergeBuf c l).endAsked = s.endAsked := rfl
@[simp] theorem State.loading_setMergeBuf (c : Nat) (l : List MergeEntry) : (s.setMergeBuf c l).loading = s.loading := rfl
@[simp] theorem State.cross_setMergeBuf (c : Nat) (l : List MergeEntry) : (s.setMergeBuf c l).cross = s.cross := rfl
@[simp] theorem State.zenLost_setMergeBuf (c : Nat) (l : List MergeEntry) : (s.setMergeBuf c l).zenLost = s.zenLost := rfl
@[simp] theorem State.nodes_setMergeBuf (c : Nat) (l : List MergeEntry) : (s.setMergeBuf c l).nodes = s.nodes := rfl
@[simp] theorem State.theta_setMergeBuf (c : Nat) (l : List MergeEntry) : (s.setMergeBuf c l).theta = s.theta := rfl
@[simp] theorem State.tau_setMergeBuf (c : Nat) (l : List MergeEntry) : (s.setMergeBuf c l).tau = s.tau := rfl
@[simp] theorem State.stuckFor_setMergeBuf (c : Nat) (l : List MergeEntry) : (s.setMergeBuf c l).stuckFor = s.stuckFor := rfl
@[simp] theorem State.ceLast_setMergeBuf (c : Nat) (l : List MergeEntry) : (s.setMergeBuf c l).ceLast = s.ceLast := rfl
@[simp] theorem State.tripHard_setMergeBuf (c : Nat) (l : List MergeEntry) : (s.setMergeBuf c l).tripHard = s.tripHard := rfl
@[simp] theorem State.sampleQ_setMergeBuf (c : Nat) (l : List MergeEntry) : (s.setMergeBuf c l).sampleQ = s.sampleQ := rfl
@[simp] theorem State.vrgFaultAt_setMergeBuf (c : Nat) (l : List MergeEntry) : (s.setMergeBuf c l).vrgFaultAt = s.vrgFaultAt := rfl
@[simp] theorem State.flash_setMergeBuf (c : Nat) (l : List MergeEntry) : (s.setMergeBuf c l).flash = s.flash := rfl
@[simp] theorem State.fwFloor_setMergeBuf (c : Nat) (l : List MergeEntry) : (s.setMergeBuf c l).fwFloor = s.fwFloor := rfl
@[simp] theorem State.recFloor_setMergeBuf (c : Nat) (l : List MergeEntry) : (s.setMergeBuf c l).recFloor = s.recFloor := rfl
@[simp] theorem State.retired_setMergeBuf (c : Nat) (l : List MergeEntry) : (s.setMergeBuf c l).retired = s.retired := rfl
@[simp] theorem State.fwu_setMergeBuf (c : Nat) (l : List MergeEntry) : (s.setMergeBuf c l).fwu = s.fwu := rfl
@[simp] theorem State.fwStream_setMergeBuf (c : Nat) (l : List MergeEntry) : (s.setMergeBuf c l).fwStream = s.fwStream := rfl
@[simp] theorem State.badCopy_setMergeBuf (c : Nat) (l : List MergeEntry) : (s.setMergeBuf c l).badCopy = s.badCopy := rfl
@[simp] theorem State.watchdog_setMergeBuf (c : Nat) (l : List MergeEntry) : (s.setMergeBuf c l).watchdog = s.watchdog := rfl
@[simp] theorem State.vpcFw_setMergeBuf (c : Nat) (l : List MergeEntry) : (s.setMergeBuf c l).vpcFw = s.vpcFw := rfl
@[simp] theorem State.meas_setMergeBuf (c : Nat) (l : List MergeEntry) : (s.setMergeBuf c l).meas = s.meas := rfl
@[simp] theorem State.aliasSeed_setMergeBuf (c : Nat) (l : List MergeEntry) : (s.setMergeBuf c l).aliasSeed = s.aliasSeed := rfl
@[simp] theorem State.certs_setMergeBuf (c : Nat) (l : List MergeEntry) : (s.setMergeBuf c l).certs = s.certs := rfl
@[simp] theorem State.spdm_setMergeBuf (c : Nat) (l : List MergeEntry) : (s.setMergeBuf c l).spdm = s.spdm := rfl
@[simp] theorem State.spdmOut_setMergeBuf (c : Nat) (l : List MergeEntry) : (s.setMergeBuf c l).spdmOut = s.spdmOut := rfl
@[simp] theorem State.pgood_setMergeBuf (c : Nat) (l : List MergeEntry) : (s.setMergeBuf c l).pgood = s.pgood := rfl
@[simp] theorem State.pgPull_setMergeBuf (c : Nat) (l : List MergeEntry) : (s.setMergeBuf c l).pgPull = s.pgPull := rfl
@[simp] theorem State.inputOff_setMergeBuf (c : Nat) (l : List MergeEntry) : (s.setMergeBuf c l).inputOff = s.inputOff := rfl
@[simp] theorem State.vddSb_setMergeBuf (c : Nat) (l : List MergeEntry) : (s.setMergeBuf c l).vddSb = s.vddSb := rfl
@[simp] theorem State.inputMv_setMergeBuf (c : Nat) (l : List MergeEntry) : (s.setMergeBuf c l).inputMv = s.inputMv := rfl
@[simp] theorem State.tap_setMergeBuf (c : Nat) (l : List MergeEntry) : (s.setMergeBuf c l).tap = s.tap := rfl
@[simp] theorem State.tapIr_setMergeBuf (c : Nat) (l : List MergeEntry) : (s.setMergeBuf c l).tapIr = s.tapIr := rfl
@[simp] theorem State.tapShift_setMergeBuf (c : Nat) (l : List MergeEntry) : (s.setMergeBuf c l).tapShift = s.tapShift := rfl
@[simp] theorem State.tdo_setMergeBuf (c : Nat) (l : List MergeEntry) : (s.setMergeBuf c l).tdo = s.tdo := rfl
@[simp] theorem State.digests_setMergeBuf (c : Nat) (l : List MergeEntry) : (s.setMergeBuf c l).digests = s.digests := rfl
@[simp] theorem State.engines_setMergeBuf (c : Nat) (l : List MergeEntry) : (s.setMergeBuf c l).engines = s.engines := rfl
@[simp] theorem State.rsp_setMergeBuf (c : Nat) (l : List MergeEntry) : (s.setMergeBuf c l).rsp = s.rsp := rfl
@[simp] theorem State.mcRsp_setMergeBuf (c : Nat) (l : List MergeEntry) : (s.setMergeBuf c l).mcRsp = s.mcRsp := rfl

/-! ## setReq changes rqt -/

@[simp] theorem State.pending_setReq (i : Nat) (x : Req) : (s.setReq i x).pending = s.pending := rfl
@[simp] theorem State.regs_setReq (i : Nat) (x : Req) : (s.setReq i x).regs = s.regs := rfl
@[simp] theorem State.free_setReq (i : Nat) (x : Req) : (s.setReq i x).free = s.free := rfl
@[simp] theorem State.tiles_setReq (i : Nat) (x : Req) : (s.setReq i x).tiles = s.tiles := rfl
@[simp] theorem State.saved_setReq (i : Nat) (x : Req) : (s.setReq i x).saved = s.saved := rfl
@[simp] theorem State.tileUe_setReq (i : Nat) (x : Req) : (s.setReq i x).tileUe = s.tileUe := rfl
@[simp] theorem State.slots_setReq (i : Nat) (x : Req) : (s.setReq i x).slots = s.slots := rfl
@[simp] theorem State.pages_setReq (i : Nat) (x : Req) : (s.setReq i x).pages = s.pages := rfl
@[simp] theorem State.blank_setReq (i : Nat) (x : Req) : (s.setReq i x).blank = s.blank := rfl
@[simp] theorem State.reserve_setReq (i : Nat) (x : Req) : (s.setReq i x).reserve = s.reserve := rfl
@[simp] theorem State.merge_setReq (i : Nat) (x : Req) : (s.setReq i x).merge = s.merge := rfl
@[simp] theorem State.retrainQ_setReq (i : Nat) (x : Req) : (s.setReq i x).retrainQ = s.retrainQ := rfl
@[simp] theorem State.scrubAt_setReq (i : Nat) (x : Req) : (s.setReq i x).scrubAt = s.scrubAt := rfl
@[simp] theorem State.lapCe_setReq (i : Nat) (x : Req) : (s.setReq i x).lapCe = s.lapCe := rfl
@[simp] theorem State.lapUe_setReq (i : Nat) (x : Req) : (s.setReq i x).lapUe = s.lapUe := rfl
@[simp] theorem State.lapLate_setReq (i : Nat) (x : Req) : (s.setReq i x).lapLate = s.lapLate := rfl
@[simp] theorem State.ceSince_setReq (i : Nat) (x : Req) : (s.setReq i x).ceSince = s.ceSince := rfl
@[simp] theorem State.cache_setReq (i : Nat) (x : Req) : (s.setReq i x).cache = s.cache := rfl
@[simp] theorem State.scratch_setReq (i : Nat) (x : Req) : (s.setReq i x).scratch = s.scratch := rfl
@[simp] theorem State.scratchBad_setReq (i : Nat) (x : Req) : (s.setReq i x).scratchBad = s.scratchBad := rfl
@[simp] theorem State.scratchWeak_setReq (i : Nat) (x : Req) : (s.setReq i x).scratchWeak = s.scratchWeak := rfl
@[simp] theorem State.lastGran_setReq (i : Nat) (x : Req) : (s.setReq i x).lastGran = s.lastGran := rfl
@[simp] theorem State.far_setReq (i : Nat) (x : Req) : (s.setReq i x).far = s.far := rfl
@[simp] theorem State.farPoison_setReq (i : Nat) (x : Req) : (s.setReq i x).farPoison = s.farPoison := rfl
@[simp] theorem State.comp_setReq (i : Nat) (x : Req) : (s.setReq i x).comp = s.comp := rfl
@[simp] theorem State.erqSeq_setReq (i : Nat) (x : Req) : (s.setReq i x).erqSeq = s.erqSeq := rfl
@[simp] theorem State.ms_setReq (i : Nat) (x : Req) : (s.setReq i x).ms = s.ms := rfl
@[simp] theorem State.resetSeq_setReq (i : Nat) (x : Req) : (s.setReq i x).resetSeq = s.resetSeq := rfl
@[simp] theorem State.parked_setReq (i : Nat) (x : Req) : (s.setReq i x).parked = s.parked := rfl
@[simp] theorem State.demT_setReq (i : Nat) (x : Req) : (s.setReq i x).demT = s.demT := rfl
@[simp] theorem State.demV_setReq (i : Nat) (x : Req) : (s.setReq i x).demV = s.demV := rfl
@[simp] theorem State.shareT_setReq (i : Nat) (x : Req) : (s.setReq i x).shareT = s.shareT := rfl
@[simp] theorem State.shareV_setReq (i : Nat) (x : Req) : (s.setReq i x).shareV = s.shareV := rfl
@[simp] theorem State.rrLast_setReq (i : Nat) (x : Req) : (s.setReq i x).rrLast = s.rrLast := rfl
@[simp] theorem State.msgs_setReq (i : Nat) (x : Req) : (s.setReq i x).msgs = s.msgs := rfl
@[simp] theorem State.msgPend_setReq (i : Nat) (x : Req) : (s.setReq i x).msgPend = s.msgPend := rfl
@[simp] theorem State.vecWait_setReq (i : Nat) (x : Req) : (s.setReq i x).vecWait = s.vecWait := rfl
@[simp] theorem State.zenRestart_setReq (i : Nat) (x : Req) : (s.setReq i x).zenRestart = s.zenRestart := rfl
@[simp] theorem State.heldRecs_setReq (i : Nat) (x : Req) : (s.setReq i x).heldRecs = s.heldRecs := rfl
@[simp] theorem State.filter_setReq (i : Nat) (x : Req) : (s.setReq i x).filter = s.filter := rfl
@[simp] theorem State.snoops_setReq (i : Nat) (x : Req) : (s.setReq i x).snoops = s.snoops := rfl
@[simp] theorem State.dylMode_setReq (i : Nat) (x : Req) : (s.setReq i x).dylMode = s.dylMode := rfl
@[simp] theorem State.dylPerst_setReq (i : Nat) (x : Req) : (s.setReq i x).dylPerst = s.dylPerst := rfl
@[simp] theorem State.cxpPerst_setReq (i : Nat) (x : Req) : (s.setReq i x).cxpPerst = s.cxpPerst := rfl
@[simp] theorem State.repairDue_setReq (i : Nat) (x : Req) : (s.setReq i x).repairDue = s.repairDue := rfl
@[simp] theorem State.arrivals_setReq (i : Nat) (x : Req) : (s.setReq i x).arrivals = s.arrivals := rfl
@[simp] theorem State.srv_setReq (i : Nat) (x : Req) : (s.setReq i x).srv = s.srv := rfl
@[simp] theorem State.srvIn_setReq (i : Nat) (x : Req) : (s.setReq i x).srvIn = s.srvIn := rfl
@[simp] theorem State.ldrIn_setReq (i : Nat) (x : Req) : (s.setReq i x).ldrIn = s.ldrIn := rfl
@[simp] theorem State.ringSeen_setReq (i : Nat) (x : Req) : (s.setReq i x).ringSeen = s.ringSeen := rfl
@[simp] theorem State.linkCache_setReq (i : Nat) (x : Req) : (s.setReq i x).linkCache = s.linkCache := rfl
@[simp] theorem State.txWait_setReq (i : Nat) (x : Req) : (s.setReq i x).txWait = s.txWait := rfl
@[simp] theorem State.txSent_setReq (i : Nat) (x : Req) : (s.setReq i x).txSent = s.txSent := rfl
@[simp] theorem State.txSeq_setReq (i : Nat) (x : Req) : (s.setReq i x).txSeq = s.txSeq := rfl
@[simp] theorem State.txWin_setReq (i : Nat) (x : Req) : (s.setReq i x).txWin = s.txWin := rfl
@[simp] theorem State.fopNext_setReq (i : Nat) (x : Req) : (s.setReq i x).fopNext = s.fopNext := rfl
@[simp] theorem State.lateWait_setReq (i : Nat) (x : Req) : (s.setReq i x).lateWait = s.lateWait := rfl
@[simp] theorem State.lateHeld_setReq (i : Nat) (x : Req) : (s.setReq i x).lateHeld = s.lateHeld := rfl
@[simp] theorem State.rxNode_setReq (i : Nat) (x : Req) : (s.setReq i x).rxNode = s.rxNode := rfl
@[simp] theorem State.xwfOut_setReq (i : Nat) (x : Req) : (s.setReq i x).xwfOut = s.xwfOut := rfl
@[simp] theorem State.naOut_setReq (i : Nat) (x : Req) : (s.setReq i x).naOut = s.naOut := rfl
@[simp] theorem State.xwfEth_setReq (i : Nat) (x : Req) : (s.setReq i x).xwfEth = s.xwfEth := rfl
@[simp] theorem State.dropSince_setReq (i : Nat) (x : Req) : (s.setReq i x).dropSince = s.dropSince := rfl
@[simp] theorem State.svc_setReq (i : Nat) (x : Req) : (s.setReq i x).svc = s.svc := rfl
@[simp] theorem State.svcHeld_setReq (i : Nat) (x : Req) : (s.setReq i x).svcHeld = s.svcHeld := rfl
@[simp] theorem State.svcDue_setReq (i : Nat) (x : Req) : (s.setReq i x).svcDue = s.svcDue := rfl
@[simp] theorem State.migTodo_setReq (i : Nat) (x : Req) : (s.setReq i x).migTodo = s.migTodo := rfl
@[simp] theorem State.heavyNow_setReq (i : Nat) (x : Req) : (s.setReq i x).heavyNow = s.heavyNow := rfl
@[simp] theorem State.heavyPrev_setReq (i : Nat) (x : Req) : (s.setReq i x).heavyPrev = s.heavyPrev := rfl
@[simp] theorem State.chosen_setReq (i : Nat) (x : Req) : (s.setReq i x).chosen = s.chosen := rfl
@[simp] theorem State.endAsked_setReq (i : Nat) (x : Req) : (s.setReq i x).endAsked = s.endAsked := rfl
@[simp] theorem State.loading_setReq (i : Nat) (x : Req) : (s.setReq i x).loading = s.loading := rfl
@[simp] theorem State.cross_setReq (i : Nat) (x : Req) : (s.setReq i x).cross = s.cross := rfl
@[simp] theorem State.zenLost_setReq (i : Nat) (x : Req) : (s.setReq i x).zenLost = s.zenLost := rfl
@[simp] theorem State.nodes_setReq (i : Nat) (x : Req) : (s.setReq i x).nodes = s.nodes := rfl
@[simp] theorem State.theta_setReq (i : Nat) (x : Req) : (s.setReq i x).theta = s.theta := rfl
@[simp] theorem State.tau_setReq (i : Nat) (x : Req) : (s.setReq i x).tau = s.tau := rfl
@[simp] theorem State.stuckFor_setReq (i : Nat) (x : Req) : (s.setReq i x).stuckFor = s.stuckFor := rfl
@[simp] theorem State.ceLast_setReq (i : Nat) (x : Req) : (s.setReq i x).ceLast = s.ceLast := rfl
@[simp] theorem State.tripHard_setReq (i : Nat) (x : Req) : (s.setReq i x).tripHard = s.tripHard := rfl
@[simp] theorem State.sampleQ_setReq (i : Nat) (x : Req) : (s.setReq i x).sampleQ = s.sampleQ := rfl
@[simp] theorem State.vrgFaultAt_setReq (i : Nat) (x : Req) : (s.setReq i x).vrgFaultAt = s.vrgFaultAt := rfl
@[simp] theorem State.flash_setReq (i : Nat) (x : Req) : (s.setReq i x).flash = s.flash := rfl
@[simp] theorem State.fwFloor_setReq (i : Nat) (x : Req) : (s.setReq i x).fwFloor = s.fwFloor := rfl
@[simp] theorem State.recFloor_setReq (i : Nat) (x : Req) : (s.setReq i x).recFloor = s.recFloor := rfl
@[simp] theorem State.retired_setReq (i : Nat) (x : Req) : (s.setReq i x).retired = s.retired := rfl
@[simp] theorem State.fwu_setReq (i : Nat) (x : Req) : (s.setReq i x).fwu = s.fwu := rfl
@[simp] theorem State.fwStream_setReq (i : Nat) (x : Req) : (s.setReq i x).fwStream = s.fwStream := rfl
@[simp] theorem State.badCopy_setReq (i : Nat) (x : Req) : (s.setReq i x).badCopy = s.badCopy := rfl
@[simp] theorem State.watchdog_setReq (i : Nat) (x : Req) : (s.setReq i x).watchdog = s.watchdog := rfl
@[simp] theorem State.vpcFw_setReq (i : Nat) (x : Req) : (s.setReq i x).vpcFw = s.vpcFw := rfl
@[simp] theorem State.meas_setReq (i : Nat) (x : Req) : (s.setReq i x).meas = s.meas := rfl
@[simp] theorem State.aliasSeed_setReq (i : Nat) (x : Req) : (s.setReq i x).aliasSeed = s.aliasSeed := rfl
@[simp] theorem State.certs_setReq (i : Nat) (x : Req) : (s.setReq i x).certs = s.certs := rfl
@[simp] theorem State.spdm_setReq (i : Nat) (x : Req) : (s.setReq i x).spdm = s.spdm := rfl
@[simp] theorem State.spdmOut_setReq (i : Nat) (x : Req) : (s.setReq i x).spdmOut = s.spdmOut := rfl
@[simp] theorem State.pgood_setReq (i : Nat) (x : Req) : (s.setReq i x).pgood = s.pgood := rfl
@[simp] theorem State.pgPull_setReq (i : Nat) (x : Req) : (s.setReq i x).pgPull = s.pgPull := rfl
@[simp] theorem State.inputOff_setReq (i : Nat) (x : Req) : (s.setReq i x).inputOff = s.inputOff := rfl
@[simp] theorem State.vddSb_setReq (i : Nat) (x : Req) : (s.setReq i x).vddSb = s.vddSb := rfl
@[simp] theorem State.inputMv_setReq (i : Nat) (x : Req) : (s.setReq i x).inputMv = s.inputMv := rfl
@[simp] theorem State.tap_setReq (i : Nat) (x : Req) : (s.setReq i x).tap = s.tap := rfl
@[simp] theorem State.tapIr_setReq (i : Nat) (x : Req) : (s.setReq i x).tapIr = s.tapIr := rfl
@[simp] theorem State.tapShift_setReq (i : Nat) (x : Req) : (s.setReq i x).tapShift = s.tapShift := rfl
@[simp] theorem State.tdo_setReq (i : Nat) (x : Req) : (s.setReq i x).tdo = s.tdo := rfl
@[simp] theorem State.digests_setReq (i : Nat) (x : Req) : (s.setReq i x).digests = s.digests := rfl
@[simp] theorem State.engines_setReq (i : Nat) (x : Req) : (s.setReq i x).engines = s.engines := rfl
@[simp] theorem State.rsp_setReq (i : Nat) (x : Req) : (s.setReq i x).rsp = s.rsp := rfl
@[simp] theorem State.mcRsp_setReq (i : Nat) (x : Req) : (s.setReq i x).mcRsp = s.mcRsp := rfl

/-! ## setSrvJob changes srv -/

@[simp] theorem State.pending_setSrvJob (j : Nat) (x : SrvJob) : (s.setSrvJob j x).pending = s.pending := rfl
@[simp] theorem State.regs_setSrvJob (j : Nat) (x : SrvJob) : (s.setSrvJob j x).regs = s.regs := rfl
@[simp] theorem State.free_setSrvJob (j : Nat) (x : SrvJob) : (s.setSrvJob j x).free = s.free := rfl
@[simp] theorem State.tiles_setSrvJob (j : Nat) (x : SrvJob) : (s.setSrvJob j x).tiles = s.tiles := rfl
@[simp] theorem State.saved_setSrvJob (j : Nat) (x : SrvJob) : (s.setSrvJob j x).saved = s.saved := rfl
@[simp] theorem State.tileUe_setSrvJob (j : Nat) (x : SrvJob) : (s.setSrvJob j x).tileUe = s.tileUe := rfl
@[simp] theorem State.slots_setSrvJob (j : Nat) (x : SrvJob) : (s.setSrvJob j x).slots = s.slots := rfl
@[simp] theorem State.pages_setSrvJob (j : Nat) (x : SrvJob) : (s.setSrvJob j x).pages = s.pages := rfl
@[simp] theorem State.blank_setSrvJob (j : Nat) (x : SrvJob) : (s.setSrvJob j x).blank = s.blank := rfl
@[simp] theorem State.reserve_setSrvJob (j : Nat) (x : SrvJob) : (s.setSrvJob j x).reserve = s.reserve := rfl
@[simp] theorem State.merge_setSrvJob (j : Nat) (x : SrvJob) : (s.setSrvJob j x).merge = s.merge := rfl
@[simp] theorem State.retrainQ_setSrvJob (j : Nat) (x : SrvJob) : (s.setSrvJob j x).retrainQ = s.retrainQ := rfl
@[simp] theorem State.scrubAt_setSrvJob (j : Nat) (x : SrvJob) : (s.setSrvJob j x).scrubAt = s.scrubAt := rfl
@[simp] theorem State.lapCe_setSrvJob (j : Nat) (x : SrvJob) : (s.setSrvJob j x).lapCe = s.lapCe := rfl
@[simp] theorem State.lapUe_setSrvJob (j : Nat) (x : SrvJob) : (s.setSrvJob j x).lapUe = s.lapUe := rfl
@[simp] theorem State.lapLate_setSrvJob (j : Nat) (x : SrvJob) : (s.setSrvJob j x).lapLate = s.lapLate := rfl
@[simp] theorem State.ceSince_setSrvJob (j : Nat) (x : SrvJob) : (s.setSrvJob j x).ceSince = s.ceSince := rfl
@[simp] theorem State.cache_setSrvJob (j : Nat) (x : SrvJob) : (s.setSrvJob j x).cache = s.cache := rfl
@[simp] theorem State.scratch_setSrvJob (j : Nat) (x : SrvJob) : (s.setSrvJob j x).scratch = s.scratch := rfl
@[simp] theorem State.scratchBad_setSrvJob (j : Nat) (x : SrvJob) : (s.setSrvJob j x).scratchBad = s.scratchBad := rfl
@[simp] theorem State.scratchWeak_setSrvJob (j : Nat) (x : SrvJob) : (s.setSrvJob j x).scratchWeak = s.scratchWeak := rfl
@[simp] theorem State.lastGran_setSrvJob (j : Nat) (x : SrvJob) : (s.setSrvJob j x).lastGran = s.lastGran := rfl
@[simp] theorem State.far_setSrvJob (j : Nat) (x : SrvJob) : (s.setSrvJob j x).far = s.far := rfl
@[simp] theorem State.farPoison_setSrvJob (j : Nat) (x : SrvJob) : (s.setSrvJob j x).farPoison = s.farPoison := rfl
@[simp] theorem State.comp_setSrvJob (j : Nat) (x : SrvJob) : (s.setSrvJob j x).comp = s.comp := rfl
@[simp] theorem State.erqSeq_setSrvJob (j : Nat) (x : SrvJob) : (s.setSrvJob j x).erqSeq = s.erqSeq := rfl
@[simp] theorem State.ms_setSrvJob (j : Nat) (x : SrvJob) : (s.setSrvJob j x).ms = s.ms := rfl
@[simp] theorem State.resetSeq_setSrvJob (j : Nat) (x : SrvJob) : (s.setSrvJob j x).resetSeq = s.resetSeq := rfl
@[simp] theorem State.parked_setSrvJob (j : Nat) (x : SrvJob) : (s.setSrvJob j x).parked = s.parked := rfl
@[simp] theorem State.demT_setSrvJob (j : Nat) (x : SrvJob) : (s.setSrvJob j x).demT = s.demT := rfl
@[simp] theorem State.demV_setSrvJob (j : Nat) (x : SrvJob) : (s.setSrvJob j x).demV = s.demV := rfl
@[simp] theorem State.shareT_setSrvJob (j : Nat) (x : SrvJob) : (s.setSrvJob j x).shareT = s.shareT := rfl
@[simp] theorem State.shareV_setSrvJob (j : Nat) (x : SrvJob) : (s.setSrvJob j x).shareV = s.shareV := rfl
@[simp] theorem State.rrLast_setSrvJob (j : Nat) (x : SrvJob) : (s.setSrvJob j x).rrLast = s.rrLast := rfl
@[simp] theorem State.msgs_setSrvJob (j : Nat) (x : SrvJob) : (s.setSrvJob j x).msgs = s.msgs := rfl
@[simp] theorem State.msgPend_setSrvJob (j : Nat) (x : SrvJob) : (s.setSrvJob j x).msgPend = s.msgPend := rfl
@[simp] theorem State.vecWait_setSrvJob (j : Nat) (x : SrvJob) : (s.setSrvJob j x).vecWait = s.vecWait := rfl
@[simp] theorem State.zenRestart_setSrvJob (j : Nat) (x : SrvJob) : (s.setSrvJob j x).zenRestart = s.zenRestart := rfl
@[simp] theorem State.heldRecs_setSrvJob (j : Nat) (x : SrvJob) : (s.setSrvJob j x).heldRecs = s.heldRecs := rfl
@[simp] theorem State.filter_setSrvJob (j : Nat) (x : SrvJob) : (s.setSrvJob j x).filter = s.filter := rfl
@[simp] theorem State.snoops_setSrvJob (j : Nat) (x : SrvJob) : (s.setSrvJob j x).snoops = s.snoops := rfl
@[simp] theorem State.dylMode_setSrvJob (j : Nat) (x : SrvJob) : (s.setSrvJob j x).dylMode = s.dylMode := rfl
@[simp] theorem State.dylPerst_setSrvJob (j : Nat) (x : SrvJob) : (s.setSrvJob j x).dylPerst = s.dylPerst := rfl
@[simp] theorem State.cxpPerst_setSrvJob (j : Nat) (x : SrvJob) : (s.setSrvJob j x).cxpPerst = s.cxpPerst := rfl
@[simp] theorem State.repairDue_setSrvJob (j : Nat) (x : SrvJob) : (s.setSrvJob j x).repairDue = s.repairDue := rfl
@[simp] theorem State.rqt_setSrvJob (j : Nat) (x : SrvJob) : (s.setSrvJob j x).rqt = s.rqt := rfl
@[simp] theorem State.arrivals_setSrvJob (j : Nat) (x : SrvJob) : (s.setSrvJob j x).arrivals = s.arrivals := rfl
@[simp] theorem State.srvIn_setSrvJob (j : Nat) (x : SrvJob) : (s.setSrvJob j x).srvIn = s.srvIn := rfl
@[simp] theorem State.ldrIn_setSrvJob (j : Nat) (x : SrvJob) : (s.setSrvJob j x).ldrIn = s.ldrIn := rfl
@[simp] theorem State.ringSeen_setSrvJob (j : Nat) (x : SrvJob) : (s.setSrvJob j x).ringSeen = s.ringSeen := rfl
@[simp] theorem State.linkCache_setSrvJob (j : Nat) (x : SrvJob) : (s.setSrvJob j x).linkCache = s.linkCache := rfl
@[simp] theorem State.txWait_setSrvJob (j : Nat) (x : SrvJob) : (s.setSrvJob j x).txWait = s.txWait := rfl
@[simp] theorem State.txSent_setSrvJob (j : Nat) (x : SrvJob) : (s.setSrvJob j x).txSent = s.txSent := rfl
@[simp] theorem State.txSeq_setSrvJob (j : Nat) (x : SrvJob) : (s.setSrvJob j x).txSeq = s.txSeq := rfl
@[simp] theorem State.txWin_setSrvJob (j : Nat) (x : SrvJob) : (s.setSrvJob j x).txWin = s.txWin := rfl
@[simp] theorem State.fopNext_setSrvJob (j : Nat) (x : SrvJob) : (s.setSrvJob j x).fopNext = s.fopNext := rfl
@[simp] theorem State.lateWait_setSrvJob (j : Nat) (x : SrvJob) : (s.setSrvJob j x).lateWait = s.lateWait := rfl
@[simp] theorem State.lateHeld_setSrvJob (j : Nat) (x : SrvJob) : (s.setSrvJob j x).lateHeld = s.lateHeld := rfl
@[simp] theorem State.rxNode_setSrvJob (j : Nat) (x : SrvJob) : (s.setSrvJob j x).rxNode = s.rxNode := rfl
@[simp] theorem State.xwfOut_setSrvJob (j : Nat) (x : SrvJob) : (s.setSrvJob j x).xwfOut = s.xwfOut := rfl
@[simp] theorem State.naOut_setSrvJob (j : Nat) (x : SrvJob) : (s.setSrvJob j x).naOut = s.naOut := rfl
@[simp] theorem State.xwfEth_setSrvJob (j : Nat) (x : SrvJob) : (s.setSrvJob j x).xwfEth = s.xwfEth := rfl
@[simp] theorem State.dropSince_setSrvJob (j : Nat) (x : SrvJob) : (s.setSrvJob j x).dropSince = s.dropSince := rfl
@[simp] theorem State.svc_setSrvJob (j : Nat) (x : SrvJob) : (s.setSrvJob j x).svc = s.svc := rfl
@[simp] theorem State.svcHeld_setSrvJob (j : Nat) (x : SrvJob) : (s.setSrvJob j x).svcHeld = s.svcHeld := rfl
@[simp] theorem State.svcDue_setSrvJob (j : Nat) (x : SrvJob) : (s.setSrvJob j x).svcDue = s.svcDue := rfl
@[simp] theorem State.migTodo_setSrvJob (j : Nat) (x : SrvJob) : (s.setSrvJob j x).migTodo = s.migTodo := rfl
@[simp] theorem State.heavyNow_setSrvJob (j : Nat) (x : SrvJob) : (s.setSrvJob j x).heavyNow = s.heavyNow := rfl
@[simp] theorem State.heavyPrev_setSrvJob (j : Nat) (x : SrvJob) : (s.setSrvJob j x).heavyPrev = s.heavyPrev := rfl
@[simp] theorem State.chosen_setSrvJob (j : Nat) (x : SrvJob) : (s.setSrvJob j x).chosen = s.chosen := rfl
@[simp] theorem State.endAsked_setSrvJob (j : Nat) (x : SrvJob) : (s.setSrvJob j x).endAsked = s.endAsked := rfl
@[simp] theorem State.loading_setSrvJob (j : Nat) (x : SrvJob) : (s.setSrvJob j x).loading = s.loading := rfl
@[simp] theorem State.cross_setSrvJob (j : Nat) (x : SrvJob) : (s.setSrvJob j x).cross = s.cross := rfl
@[simp] theorem State.zenLost_setSrvJob (j : Nat) (x : SrvJob) : (s.setSrvJob j x).zenLost = s.zenLost := rfl
@[simp] theorem State.nodes_setSrvJob (j : Nat) (x : SrvJob) : (s.setSrvJob j x).nodes = s.nodes := rfl
@[simp] theorem State.theta_setSrvJob (j : Nat) (x : SrvJob) : (s.setSrvJob j x).theta = s.theta := rfl
@[simp] theorem State.tau_setSrvJob (j : Nat) (x : SrvJob) : (s.setSrvJob j x).tau = s.tau := rfl
@[simp] theorem State.stuckFor_setSrvJob (j : Nat) (x : SrvJob) : (s.setSrvJob j x).stuckFor = s.stuckFor := rfl
@[simp] theorem State.ceLast_setSrvJob (j : Nat) (x : SrvJob) : (s.setSrvJob j x).ceLast = s.ceLast := rfl
@[simp] theorem State.tripHard_setSrvJob (j : Nat) (x : SrvJob) : (s.setSrvJob j x).tripHard = s.tripHard := rfl
@[simp] theorem State.sampleQ_setSrvJob (j : Nat) (x : SrvJob) : (s.setSrvJob j x).sampleQ = s.sampleQ := rfl
@[simp] theorem State.vrgFaultAt_setSrvJob (j : Nat) (x : SrvJob) : (s.setSrvJob j x).vrgFaultAt = s.vrgFaultAt := rfl
@[simp] theorem State.flash_setSrvJob (j : Nat) (x : SrvJob) : (s.setSrvJob j x).flash = s.flash := rfl
@[simp] theorem State.fwFloor_setSrvJob (j : Nat) (x : SrvJob) : (s.setSrvJob j x).fwFloor = s.fwFloor := rfl
@[simp] theorem State.recFloor_setSrvJob (j : Nat) (x : SrvJob) : (s.setSrvJob j x).recFloor = s.recFloor := rfl
@[simp] theorem State.retired_setSrvJob (j : Nat) (x : SrvJob) : (s.setSrvJob j x).retired = s.retired := rfl
@[simp] theorem State.fwu_setSrvJob (j : Nat) (x : SrvJob) : (s.setSrvJob j x).fwu = s.fwu := rfl
@[simp] theorem State.fwStream_setSrvJob (j : Nat) (x : SrvJob) : (s.setSrvJob j x).fwStream = s.fwStream := rfl
@[simp] theorem State.badCopy_setSrvJob (j : Nat) (x : SrvJob) : (s.setSrvJob j x).badCopy = s.badCopy := rfl
@[simp] theorem State.watchdog_setSrvJob (j : Nat) (x : SrvJob) : (s.setSrvJob j x).watchdog = s.watchdog := rfl
@[simp] theorem State.vpcFw_setSrvJob (j : Nat) (x : SrvJob) : (s.setSrvJob j x).vpcFw = s.vpcFw := rfl
@[simp] theorem State.meas_setSrvJob (j : Nat) (x : SrvJob) : (s.setSrvJob j x).meas = s.meas := rfl
@[simp] theorem State.aliasSeed_setSrvJob (j : Nat) (x : SrvJob) : (s.setSrvJob j x).aliasSeed = s.aliasSeed := rfl
@[simp] theorem State.certs_setSrvJob (j : Nat) (x : SrvJob) : (s.setSrvJob j x).certs = s.certs := rfl
@[simp] theorem State.spdm_setSrvJob (j : Nat) (x : SrvJob) : (s.setSrvJob j x).spdm = s.spdm := rfl
@[simp] theorem State.spdmOut_setSrvJob (j : Nat) (x : SrvJob) : (s.setSrvJob j x).spdmOut = s.spdmOut := rfl
@[simp] theorem State.pgood_setSrvJob (j : Nat) (x : SrvJob) : (s.setSrvJob j x).pgood = s.pgood := rfl
@[simp] theorem State.pgPull_setSrvJob (j : Nat) (x : SrvJob) : (s.setSrvJob j x).pgPull = s.pgPull := rfl
@[simp] theorem State.inputOff_setSrvJob (j : Nat) (x : SrvJob) : (s.setSrvJob j x).inputOff = s.inputOff := rfl
@[simp] theorem State.vddSb_setSrvJob (j : Nat) (x : SrvJob) : (s.setSrvJob j x).vddSb = s.vddSb := rfl
@[simp] theorem State.inputMv_setSrvJob (j : Nat) (x : SrvJob) : (s.setSrvJob j x).inputMv = s.inputMv := rfl
@[simp] theorem State.tap_setSrvJob (j : Nat) (x : SrvJob) : (s.setSrvJob j x).tap = s.tap := rfl
@[simp] theorem State.tapIr_setSrvJob (j : Nat) (x : SrvJob) : (s.setSrvJob j x).tapIr = s.tapIr := rfl
@[simp] theorem State.tapShift_setSrvJob (j : Nat) (x : SrvJob) : (s.setSrvJob j x).tapShift = s.tapShift := rfl
@[simp] theorem State.tdo_setSrvJob (j : Nat) (x : SrvJob) : (s.setSrvJob j x).tdo = s.tdo := rfl
@[simp] theorem State.digests_setSrvJob (j : Nat) (x : SrvJob) : (s.setSrvJob j x).digests = s.digests := rfl
@[simp] theorem State.engines_setSrvJob (j : Nat) (x : SrvJob) : (s.setSrvJob j x).engines = s.engines := rfl
@[simp] theorem State.rsp_setSrvJob (j : Nat) (x : SrvJob) : (s.setSrvJob j x).rsp = s.rsp := rfl
@[simp] theorem State.mcRsp_setSrvJob (j : Nat) (x : SrvJob) : (s.setSrvJob j x).mcRsp = s.mcRsp := rfl

end Sys2Proof.Machine
end

