-- ==== Sys2Proof/Laws/Issue.lean ====
section
/-! SUPPORT. What issue does: an instruction that issues runs its effect on the state after the fetch, and the encodings
of the instruction formats are legal words. -/
namespace Sys2Proof.Machine

/-! ## Tiles -/

theorem State.tile_setTile (s : State) (t u : Nat) (x : TileState) :
    (s.setTile t x).tile u = if u = t then x else s.tile u := SMap.get_put _ _ _ _ _

@[simp] theorem State.tile_setTile_self (s : State) (t : Nat) (x : TileState) : (s.setTile t x).tile t = x := by
  rw [State.tile_setTile, if_pos rfl]

@[simp] theorem State.core_setCore (s : State) (t : Nat) (c : Core) : (s.setCore t c).core t = c := by
  simp [State.setCore, State.core]

@[simp] theorem TileState.core_setMem (x : TileState) (u : TUnit) (m : TMem) : (x.setMem u m).core = x.core := by
  cases u <;> rfl

@[simp] theorem State.tiles_perfAdd (s : State) (c o : FRef) (n : Nat) : (s.perfAdd c o n).tiles = s.tiles := by
  unfold State.perfAdd
  simp only [apply_ite State.tiles, State.tiles_setFlag, State.tiles_setF, ite_self]

/-- A counted event changes no tile. -/
@[simp] theorem State.tiles_anvEvent (s : State) (t ev n : Nat) : (s.anvEvent t ev n).tiles = s.tiles := by
  have key : ∀ (l : List Nat) (s : State), (l.foldl (fun s k =>
      if s.f (ANV_PERF_SEL.EVENT t k) = ev then s.perfAdd (ANV_PERF_CNT.COUNT t k) (ANV_PERF_CNT.OVF t k) n else s) s).tiles
        = s.tiles := by
    intro l
    induction l with
    | nil => intro s; rfl
    | cons a l ih =>
      intro s
      rw [List.foldl_cons, ih, apply_ite State.tiles, State.tiles_perfAdd, ite_self]
  unfold State.anvEvent
  rw [apply_ite State.tiles, key, ite_self]

@[simp] theorem State.tile_anvEvent (s : State) (t ev n u : Nat) : (s.anvEvent t ev n).tile u = s.tile u := by
  unfold State.tile
  rw [State.tiles_anvEvent]

@[simp] theorem State.core_anvEvent (s : State) (t ev n u : Nat) : (s.anvEvent t ev n).core u = s.core u := by
  unfold State.core
  rw [State.tile_anvEvent]

/-! ## Records -/

@[simp] theorem State.noted_setReg (s : State) (a : Nat) (v : W64) : (s.setReg a v).noted = s.noted := rfl
@[simp] theorem State.noted_setF (s : State) (r : FRef) (v : Nat) : (s.setF r v).noted = s.noted := rfl
@[simp] theorem State.noted_setFlag (s : State) (r : FRef) (b : Bool) : (s.setFlag r b).noted = s.noted := rfl
@[simp] theorem State.noted_bump (s : State) (r : FRef) (n : Nat) : (s.bump r n).noted = s.noted := rfl
@[simp] theorem State.noted_bumpSat (s : State) (r : FRef) (n : Nat) : (s.bumpSat r n).noted = s.noted := rfl
@[simp] theorem State.noted_post (s : State) (k : Nat) (j : Option Nat) (v : W64) (a : Nat) :
    (s.post k j v a).noted = s.noted := rfl
@[simp] theorem State.noted_erqLose (s : State) : s.erqLose.noted = s.noted :=
  (State.noted_setFlag (s.bump ERQ_LOST.COUNT 1) ZEN_ALERT.LOST true).trans (State.noted_bump s ERQ_LOST.COUNT 1)

@[simp] theorem State.noted_storeWords (ws : List W64) : ∀ (s : State) (a : Nat), (s.storeWords a ws).noted = s.noted := by
  induction ws with
  | nil => intro s a; rfl
  | cons w ws ih =>
    intro s a
    rw [State.storeWords, ih, State.noted_setReg]

@[simp] theorem State.noted_alertFor (s : State) (k : Nat) : (s.alertFor k).noted = s.noted := by
  unfold State.alertFor
  simp only [apply_ite State.noted, State.noted_setFlag, ite_self]

@[simp] theorem State.noted_erqLatch (s : State) (r : ErqRec) (ws : List W64) : (s.erqLatch r ws).noted = s.noted := by
  unfold State.erqLatch
  simp only [apply_ite State.noted, State.noted_setFlag, State.noted_storeWords, ite_self]

@[simp] theorem State.noted_erqQueue (s : State) (n : W32) (r : ErqRec) (j : Bool) : (s.erqQueue n r j).noted = s.noted := by
  unfold State.erqQueue
  extract_lets ws u p v
  have hu : u.noted = s.noted := (State.noted_erqLatch _ _ _).trans (State.noted_alertFor _ _)
  have hv : v.noted = s.noted := (State.noted_setF _ _ _).trans ((State.noted_storeWords _ _ _).trans hu)
  split
  · exact (State.noted_erqLose u).trans hu
  · exact (State.noted_post v _ _ _ _).trans hv

/-- A record changes the registers, the number of the next record, the messages and the records that units hold, and
nothing else (R417, R718). -/
@[simp] theorem State.noted_erq (s : State) (r : ErqRec) (j : Bool) : (s.erq r j).noted = s.noted := by
  have h2 : ∀ (n : W32) (l : List (W32 × Bool × ErqRec)), State.noted { s with erqSeq := n, heldRecs := l } = s.noted :=
    fun _ _ => rfl
  unfold State.erq
  simp only [apply_ite State.noted, State.noted_erqLose, State.noted_erqLatch, State.noted_erqQueue, h2, ite_self]

theorem State.tiles_of_noted {s t : State} (h : s.noted = t.noted) : s.tiles = t.tiles := by
  have h1 : ∀ x : State, x.noted.tiles = x.tiles := fun _ => rfl
  rw [← h1 s, h, h1]

@[simp] theorem State.noted_perfAdd (s : State) (c o : FRef) (n : Nat) : (s.perfAdd c o n).noted = s.noted := by
  unfold State.perfAdd
  simp only [apply_ite State.noted, State.noted_setFlag, State.noted_setF, ite_self]

theorem State.noted_foldl {α : Type} (f : State → α → State) (h : ∀ s a, (f s a).noted = s.noted) (l : List α) :
    ∀ s : State, (l.foldl f s).noted = s.noted := by
  induction l with
  | nil => intro s; rfl
  | cons a l ih => intro s; rw [List.foldl_cons, ih, h]

@[simp] theorem State.noted_anvEvent (s : State) (t ev n : Nat) : (s.anvEvent t ev n).noted = s.noted := by
  unfold State.anvEvent
  rw [apply_ite State.noted, State.noted_foldl _ (fun s k => by rw [apply_ite State.noted, State.noted_perfAdd, ite_self]),
    ite_self]

@[simp] theorem State.noted_vrgEvent (s : State) (t ev n : Nat) : (s.vrgEvent t ev n).noted = s.noted := by
  unfold State.vrgEvent
  rw [apply_ite State.noted, State.noted_foldl _ (fun s k => by rw [apply_ite State.noted, State.noted_perfAdd, ite_self]),
    ite_self]

@[simp] theorem State.noted_countRetired (s : State) (t : Nat) : (s.countRetired t).noted = s.noted := by
  unfold State.countRetired
  rw [apply_ite State.noted, State.noted_vrgEvent, State.noted_anvEvent, ite_self]

/-- Corrected errors of a tile are counted and recorded (R157, R178). -/
@[simp] theorem State.noted_anvCe (s : State) (t n : Nat) : (s.anvCe t n).noted = s.noted := by
  unfold State.anvCe
  dsimp only
  rw [apply_ite State.noted, State.noted_foldl _ (fun s k => State.noted_erq s _ _), State.noted_anvEvent,
    State.noted_setFlag, State.noted_bumpSat, ite_self]

@[simp] theorem State.noted_vrgBit (s : State) (n b : Nat) : (s.vrgBit n b).noted = s.noted := by
  unfold State.vrgBit
  dsimp only
  rw [State.noted_setFlag, apply_ite State.noted, State.noted_setFlag, ite_self]

@[simp] theorem State.noted_coreCe (s : State) (t n : Nat) : (s.coreCe t n).noted = s.noted := by
  unfold State.coreCe
  rw [apply_ite State.noted, State.noted_anvCe, State.noted_foldl _ (fun s k => by
    unfold State.vrgUe
    dsimp only
    rw [if_pos rfl, State.noted_erq, State.noted_vrgBit]), ite_self]

@[simp] theorem State.core_coreCe (s : State) (t n u : Nat) : (s.coreCe t n).core u = s.core u := by
  unfold State.core State.tile
  rw [State.tiles_of_noted (State.noted_coreCe s t n)]

/-- A fetch leaves the core as it was. -/
@[simp] theorem State.core_fetched (s : State) (t : Nat) : (s.fetched t).core t = s.core t := by
  unfold State.fetched
  dsimp only
  split
  · rfl
  · rw [State.core_coreCe]
    simp [State.core]

/-! ## Issue -/

/-- An instruction that issues runs its effect on the state after the fetch. -/
theorem State.issueWord_issues (s : State) (t w : Nat) (regs : List (BitVec 5)) (f : State → Core → Issue)
    (h : s.issues t w regs = true) (hw : legalWord w = true) :
    s.issueWord t w regs f = match f (s.fetched t) (s.core t) with
      | .done s' c' => s'.issued t c'
      | .stay why => (s.fetched t).stall t why
      | .trap s' code val => if (s.core t).draining then (s.fetched t).stall t 8
          else s'.trap t ((s.core t).trapAt code val) := by
  simp only [State.issues, Bool.and_eq_true, decide_eq_true_eq, beq_iff_eq, Bool.not_eq_true', Option.isNone_iff_eq_none] at h
  obtain ⟨⟨⟨⟨⟨⟨⟨-, h0⟩, h1⟩, h2⟩, h3⟩, h4⟩, h5⟩, h6⟩ := h
  have hl : legalOn t w = true := by
    unfold legalOn
    rw [hw, h0]
    rfl
  have hf : s.fetch t (fun s => if legalOn t w then s.perform t regs f
      else s.trapWhenDrained t ((s.core t).trapAt tILLEGAL (BitVec.ofNat 64 w))) = (s.fetched t).perform t regs f := by
    unfold State.fetch State.fetched
    have hc : (s.tile t).core = s.core t := rfl
    simp only [hc, ge_iff_le, Nat.not_le.2 h2, if_false, h4, hl, if_true]
  have ho : (s.core t).out.any (·.refused) = false := h5
  have hr : regs.any (s.core t).owed = false := h6
  unfold State.issueWord
  rw [if_pos h1, if_neg (by rw [h3]; simp), hf]
  unfold State.perform
  simp only [State.core_fetched, ho, hr, Bool.false_eq_true, if_false]
  split <;> rename_i heq <;> simp only [heq, State.issued]

/-- An instruction that only computes into rd leaves it written. -/
theorem compute_issues (t w : Nat) (regs : List (BitVec 5)) (rd : BitVec 5) (f : Core → W64) (s : State)
    (h : s.issues t w (rd :: regs) = true) (hw : legalWord w = true) :
    compute t w regs rd f s = .next (s.wrote t rd (f (s.core t))) := by
  unfold compute issue
  rw [State.issueWord_issues s t w _ _ h hw]
  simp only [State.wrote, Core.next]
  congr 3
  unfold Core.w
  split <;> rfl

/-! ## Legal words (R289 - R293) -/

theorem bits_encR (op : Nat) (rd rs1 rs2 : BitVec 5) (fn : Nat) (ho : op < 64) (hf : fn < 2048) :
    bitsOf (encR op rd rs1 rs2 fn) 31 26 = op ∧ bitsOf (encR op rd rs1 rs2 fn) 10 0 = fn ∧
      bitsOf (encR op rd rs1 rs2 fn) 15 11 = rs2.toNat ∧ bitsOf (encR op rd rs1 rs2 fn) 5 0 = fn % 64 ∧
      bitsOf (encR op rd rs1 rs2 fn) 25 24 = rd.toNat / 8 ∧ bitsOf (encR op rd rs1 rs2 fn) 10 3 = fn / 8 ∧
      bitsOf (encR op rd rs1 rs2 fn) 2 0 = fn % 8 ∧ bitsOf (encR op rd rs1 rs2 fn) 7 0 = fn % 256 := by
  have h1 := rd.isLt
  have h2 := rs1.isLt
  have h3 := rs2.isLt
  simp only [bitsOf, encR, Nat.reduceAdd, Nat.reduceSub, Nat.reducePow]
  refine ⟨?_, ?_, ?_, ?_, ?_, ?_, ?_, ?_⟩ <;> omega

theorem bits_encI (op : Nat) (rd rs1 : BitVec 5) (imm : BitVec 16) (ho : op < 64) :
    bitsOf (encI op rd rs1 imm) 31 26 = op ∧ bitsOf (encI op rd rs1 imm) 13 6 = imm.toNat / 64 % 256 := by
  have h1 := rd.isLt
  have h2 := rs1.isLt
  have h3 := imm.isLt
  simp only [bitsOf, encI, Nat.reduceAdd, Nat.reduceSub, Nat.reducePow]
  omega

/-- The listed functions of ALU are legal (R293). -/
theorem legal_alu (rd rs1 rs2 : BitVec 5) (fn : Nat) (h : fn ≤ 0x14 ∨ (0x40 ≤ fn ∧ fn ≤ 0x7F)) :
    legalWord (encR 0x01 rd rs1 rs2 fn) = true := by
  obtain ⟨h1, h2, -⟩ := bits_encR 0x01 rd rs1 rs2 fn (by omega) (by omega)
  simp only [legalWord, h1, h2, if_true, Bool.or_eq_true, decide_eq_true_eq, Bool.and_eq_true]
  omega

/-- CLZ, CTZ and POPC are legal with rs2 zero (R293). -/
theorem legal_count (rd rs1 : BitVec 5) (fn : Nat) (h : 0x15 ≤ fn ∧ fn ≤ 0x17) :
    legalWord (encR 0x01 rd rs1 0#5 fn) = true := by
  obtain ⟨h1, h2, h3, -⟩ := bits_encR 0x01 rd rs1 0#5 fn (by omega) (by omega)
  simp only [legalWord, h1, h2, h3, if_true, Bool.or_eq_true, decide_eq_true_eq, Bool.and_eq_true, beq_iff_eq]
  left; right
  exact ⟨h, rfl⟩

/-- Instructions of the format I whose immediate is free are legal (R292). -/
theorem legal_encI (op : Nat) (rd rs1 : BitVec 5) (imm : BitVec 16)
    (h : op ∈ [0x02, 0x03, 0x04, 0x05, 0x07, 0x08, 0x10, 0x11, 0x12, 0x13, 0x14, 0x15, 0x16, 0x18, 0x19, 0x1A, 0x1B,
      0x23]) : legalWord (encI op rd rs1 imm) = true := by
  have ho : op < 64 := by simp only [List.mem_cons, List.not_mem_nil, or_false] at h; omega
  obtain ⟨h1, -⟩ := bits_encI op rd rs1 imm ho
  simp only [legalWord, h1]
  simp only [List.mem_cons, List.not_mem_nil, or_false] at h
  rcases h with rfl | rfl | rfl | rfl | rfl | rfl | rfl | rfl | rfl | rfl | rfl | rfl | rfl | rfl | rfl | rfl | rfl | rfl <;>
    simp

end Sys2Proof.Machine
end

