-- ==== Sys2Proof/Laws/Calm.lean ====
section
/-! SUPPORT. Accesses of calm memory end: what work leaves when every access it makes is served, and the rules that put
such work together. -/
namespace Sys2Proof.Machine

/-! ## Runs of work -/

section go
variable {α β : Type}

@[simp] theorem EM.go_pure (a : α) (s : State) : (pure a : EM α).go s = (.ok a, s) := rfl
@[simp] theorem EM.go_throw (e : Stop) (s : State) : (throw e : EM α).go s = (.error e, s) := rfl
@[simp] theorem EM.go_get (s : State) : (get : EM State).go s = (.ok s, s) := rfl
@[simp] theorem EM.go_set (t s : State) : (set t : EM PUnit).go s = (.ok ⟨⟩, t) := rfl
@[simp] theorem EM.go_modify (f : State → State) (s : State) : (modify f : EM PUnit).go s = (.ok ⟨⟩, f s) := rfl

theorem EM.go_bind (x : EM α) (f : α → EM β) (s : State) :
    (x >>= f).go s = match x.go s with
      | (.ok a, s') => (f a).go s'
      | (.error e, s') => (.error e, s') := by
  show (StateT.run (ExceptT.bindCont f =<< x.run) s) = _
  show (match StateT.run x.run s with | (a, s') => StateT.run (ExceptT.bindCont f a) s') = _
  unfold EM.go
  rcases h : StateT.run (ExceptT.run x) s with ⟨a, s'⟩
  cases a <;> rfl

theorem EM.go_tryCatch (x : EM α) (h : Stop → EM α) (s : State) :
    (tryCatch x h).go s = match x.go s with
      | (.error e, s') => (h e).go s'
      | r => r := by
  unfold EM.go
  simp only [tryCatch, tryCatchThe, MonadExceptOf.tryCatch, ExceptT.tryCatch, ExceptT.run, ExceptT.mk, StateT.run, bind,
    StateT.bind]
  rcases x s with ⟨a, s'⟩
  cases a <;> rfl

theorem EM.go_tryCatch_ok {x : EM α} {h : Stop → EM α} {s s' : State} {a : α} (e : x.go s = (.ok a, s')) :
    (tryCatch x h).go s = (.ok a, s') := (EM.go_tryCatch x h s).trans (by rw [e])

theorem EM.go_bind_ok {x : EM α} {f : α → EM β} {s s' : State} {a : α} {r : Except Stop β × State} (e : x.go s = (.ok a, s'))
    (k : (f a).go s' = r) : (x >>= f).go s = r := by rw [EM.go_bind, e]; exact k

end go

/-- From every state that P holds of, x ends with an answer that Q holds of, in a state that P holds of. -/
def EM.Ends {α : Type} (P : State → Prop) (x : EM α) (Q : α → Prop) : Prop :=
  ∀ s, P s → ∃ a s', x.go s = (.ok a, s') ∧ P s' ∧ Q a

section ends
variable {α β : Type} {P : State → Prop}

theorem EM.Ends.weaken {x : EM α} {Q R : α → Prop} (h : x.Ends P Q) (k : ∀ a, Q a → R a) : x.Ends P R := fun s hs => by
  obtain ⟨a, s', e, p, q⟩ := h s hs
  exact ⟨a, s', e, p, k a q⟩

theorem EM.ends_pure {a : α} {Q : α → Prop} (h : Q a) : (pure a : EM α).Ends P Q := fun s hs => ⟨a, s, rfl, hs, h⟩

theorem EM.ends_get : (get : EM State).Ends P P := fun s hs => ⟨s, s, rfl, hs, hs⟩

theorem EM.ends_modify {f : State → State} (h : ∀ s, P s → P (f s)) : (modify f : EM PUnit).Ends P (fun _ => True) :=
  fun s hs => ⟨⟨⟩, f s, rfl, h s hs, trivial⟩

theorem EM.ends_set {t : State} (h : P t) : (set t : EM PUnit).Ends P (fun _ => True) := fun _ _ => ⟨⟨⟩, t, rfl, h, trivial⟩

theorem EM.Ends.bind {x : EM α} {f : α → EM β} {Q : α → Prop} {R : β → Prop} (h : x.Ends P Q)
    (k : ∀ a, Q a → (f a).Ends P R) : (x >>= f).Ends P R := fun s hs => by
  obtain ⟨a, s', e, p, q⟩ := h s hs
  obtain ⟨b, s'', e', p', q'⟩ := k a q s' p
  exact ⟨b, s'', by rw [EM.go_bind, e]; exact e', p', q'⟩

theorem EM.Ends.tryCatch {x : EM α} {h : Stop → EM α} {Q : α → Prop} (k : x.Ends P Q) :
    (MonadExcept.tryCatch x h).Ends P Q := fun s hs => by
  obtain ⟨a, s', e, p, q⟩ := k s hs
  exact ⟨a, s', (EM.go_tryCatch x h s).trans (by rw [e]), p, q⟩

theorem EM.ends_mapM {f : α → EM β} {Q : β → Prop} : ∀ (l : List α), (∀ a ∈ l, (f a).Ends P Q) →
    (l.mapM f).Ends P (fun r => r.length = l.length ∧ ∀ b ∈ r, Q b)
  | [], _ => by rw [List.mapM_nil]; exact EM.ends_pure ⟨rfl, by simp⟩
  | a :: l, h => by
    rw [List.mapM_cons]
    refine (h a (by simp)).bind fun b hb => (EM.ends_mapM l (fun c hc => h c (by simp [hc]))).bind fun r hr => EM.ends_pure ?_
    simp only [List.length_cons, List.mem_cons]
    exact ⟨by rw [hr.1], fun c hc => by rcases hc with rfl | hc; exacts [hb, hr.2 c hc]⟩

theorem EM.ends_forM {f : α → EM PUnit} : ∀ (l : List α), (∀ a ∈ l, (f a).Ends P (fun _ => True)) →
    (l.forM f).Ends P (fun _ => True)
  | [], _ => EM.ends_pure trivial
  | a :: l, h => by
    show (f a >>= fun _ => l.forM f).Ends P _
    exact (h a (by simp)).bind fun _ _ => EM.ends_forM l (fun c hc => h c (by simp [hc]))

theorem EM.ends_foldlM {f : β → α → EM β} : ∀ (l : List α) (b : β), (∀ b, ∀ a ∈ l, (f b a).Ends P (fun _ => True)) →
    (l.foldlM f b).Ends P (fun _ => True)
  | [], _, _ => EM.ends_pure trivial
  | a :: l, b, h => by
    rw [List.foldlM_cons]
    exact (h b a (by simp)).bind fun c _ => EM.ends_foldlM l c (fun b c hc => h b c (by simp [hc]))

theorem readUntil_ends {f : α → EM β} {Q : β → Prop} : ∀ (l : List α), (∀ a ∈ l, (f a).Ends P Q) →
    (readUntil f l).Ends P (fun r => r.2 = none ∧ r.1.length = l.length ∧ ∀ b ∈ r.1, Q b)
  | [], _ => EM.ends_pure ⟨rfl, rfl, by simp⟩
  | a :: l, h => by
    unfold readUntil
    refine EM.Ends.bind (Q := fun r => ∃ b, r = .inl b ∧ Q b)
      (EM.Ends.tryCatch ((h a (by simp)).bind fun b hb => EM.ends_pure ⟨b, rfl, hb⟩)) ?_
    rintro _ ⟨b, rfl, hb⟩
    refine (readUntil_ends l (fun c hc => h c (by simp [hc]))).bind ?_
    rintro ⟨bs, o⟩ ⟨rfl, hl, hq⟩
    refine EM.ends_pure ⟨rfl, ?_, ?_⟩
    · simpa using hl
    · simp only [List.mem_cons]
      exact fun c hc => by rcases hc with rfl | hc; exacts [hb, hq c hc]

theorem untilStop_ends {f : α → EM Unit} : ∀ (l : List α), (∀ a ∈ l, (f a).Ends P (fun _ => True)) →
    (untilStop f l).Ends P (fun r => r = [])
  | [], _ => EM.ends_pure rfl
  | a :: l, h => fun s hs => by
    obtain ⟨x, s', e, p, -⟩ := h a (by simp) s hs
    obtain ⟨r, t, e2, p2, hr⟩ := untilStop_ends l (fun c hc => h c (by simp [hc])) s' p
    refine ⟨r, t, ?_, p2, hr⟩
    unfold untilStop
    rw [EM.go_bind, EM.go_get]
    dsimp only
    rw [e]
    dsimp only
    rw [EM.go_bind, EM.go_set]
    exact e2

theorem allOrNone_ends {f : α → EM Unit} (l : List α) (h : ∀ a ∈ l, (f a).Ends P (fun _ => True)) :
    (allOrNone f l).Ends P (fun _ => True) := by
  unfold allOrNone
  refine EM.ends_get.bind fun s _ => (untilStop_ends l h).bind ?_
  rintro _ rfl
  exact EM.ends_pure trivial

theorem Eng.at_ends (e : Eng) (dir pos : Nat) {x : EM α} {Q : α → Prop} (h : x.Ends P Q) : (e.at_ dir pos x).Ends P Q :=
  EM.Ends.tryCatch h

theorem atTile_ends (t : Nat) {x : EM α} {Q : α → Prop} (h : x.Ends P Q) : (atTile t x).Ends P Q := EM.Ends.tryCatch h

theorem atEntry_ends (t : Nat) {x : EM α} {Q : α → Prop} (h : x.Ends P Q) : (atEntry t x).Ends P Q := EM.Ends.tryCatch h

theorem undoBus_ends {x : EM α} {Q : α → Prop} (h : x.Ends P Q) : (undoBus x).Ends P Q :=
  EM.ends_get.bind fun _ _ => EM.Ends.tryCatch h

theorem raise_ends : (raise none).Ends P (fun _ => True) := EM.ends_pure trivial

end ends

/-! ## What calm accesses leave -/

/-- The bytes of a tile's scratchpad put aside. -/
def TileState.bare (x : TileState) : TileState := { x with spm := [] }

/-- What no calm access touches. -/
def State.rest (s : State) : State := { s with tiles := [], saved := [], merge := [], lastGran := [], slots := [] }

/-- s is as s0 but for the bytes of scratchpads, slots, what entries of merge buffers hold and the granules last counted. -/
structure Kept (s0 s : State) : Prop where
  rest : s.rest = s0.rest
  tile : ∀ t, (s.tile t).bare = (s0.tile t).bare
  saved : ∀ k, (SMap.get TileState.zero s.saved k).bare = (SMap.get TileState.zero s0.saved k).bare
  entry : ∀ gp, (s.mergeEntry gp).isSome = (s0.mergeEntry gp).isSome

theorem Kept.refl (s : State) : Kept s s := ⟨rfl, fun _ => rfl, fun _ => rfl, fun _ => rfl⟩

theorem Kept.trans {s t u : State} (h : Kept s t) (k : Kept t u) : Kept s u :=
  ⟨k.rest.trans h.rest, fun i => (k.tile i).trans (h.tile i), fun i => (k.saved i).trans (h.saved i),
    fun i => (k.entry i).trans (h.entry i)⟩

section kept
variable {s0 s : State}

/-- A function of what calm accesses leave alone. -/
theorem Kept.same {α : Type} (h : Kept s0 s) (f : State → α) (hf : ∀ x : State, f x = f x.rest) : f s = f s0 := by
  rw [hf s, h.rest, ← hf]

theorem Kept.reg (h : Kept s0 s) (a : Nat) : s.reg a = s0.reg a := h.same (fun x => x.reg a) (fun _ => rfl)
theorem Kept.f (h : Kept s0 s) (r : FRef) : s.f r = s0.f r := h.same (fun x => x.f r) (fun _ => rfl)
theorem Kept.flag (h : Kept s0 s) (r : FRef) : s.flag r = s0.flag r := h.same (fun x => x.flag r) (fun _ => rfl)
theorem Kept.region (h : Kept s0 s) (a : Nat) : s.region a = s0.region a := h.same (fun x => x.region a) (fun _ => rfl)
theorem Kept.stackBytes (h : Kept s0 s) : s.stackBytes = s0.stackBytes := h.same State.stackBytes (fun _ => rfl)
theorem Kept.segOk (h : Kept s0 s) (j a n : Nat) (w : Bool) : s.segOk j a n w = s0.segOk j a n w :=
  h.same (fun x => x.segOk j a n w) (fun _ => rfl)
theorem Kept.spmSpot (h : Kept s0 s) (w : Who) (k : Nat) : s.spmSpot w k = s0.spmSpot w k :=
  h.same (fun x => x.spmSpot w k) (fun _ => rfl)
theorem Kept.livePhys (h : Kept s0 s) (j l : Nat) : s.livePhys j l = s0.livePhys j l :=
  h.same (fun x => x.livePhys j l) (fun _ => rfl)

theorem Kept.ctx (h : Kept s0 s) (j l : Nat) : (s.ctx j l).bare = (s0.ctx j l).bare := by
  unfold State.ctx
  rw [h.livePhys]
  split
  · exact h.tile _
  · exact h.saved _

theorem Kept.spotTile (h : Kept s0 s) (p : SpmSpot) : (s.spotTile p).bare = (s0.spotTile p).bare := by
  cases p with
  | ctx j l => exact h.ctx j l
  | phys t => exact h.tile t

theorem Kept.perfOff (h : Kept s0 s) : s.perfOff = s0.perfOff := h.same State.perfOff (fun _ => rfl)

theorem Kept.windowCalm (h : Kept s0 s) (w : Who) (lo hi : Nat) : s.windowCalm w lo hi = s0.windowCalm w lo hi := by
  unfold State.windowCalm
  simp only [h.spmSpot]
  cases s0.spmSpot w ((lo - spmBase) / spmWin) with
  | none => rfl
  | some p =>
    have hb := congrArg TileState.spmBad (h.spotTile p)
    have hw := congrArg TileState.spmWeak (h.spotTile p)
    simp only [TileState.bare] at hb hw
    simp only [hb, hw]

theorem Kept.pageCalm (h : Kept s0 s) (wr : Bool) (gp : Nat) : s.pageCalm wr gp = s0.pageCalm wr gp := by
  have h1 := h.same (fun x => x.paused gp) (fun _ => rfl)
  have h2 := h.same (fun x => x.failed gp) (fun _ => rfl)
  have h3 := h.same (fun x => judge (x.stampOf gp) (x.page gp)) (fun _ => rfl)
  unfold State.pageCalm
  rw [h1, h2, h3, h.entry]

theorem Kept.stackCalm (h : Kept s0 s) (w : Who) (wr : Bool) (lo hi : Nat) :
    s.stackCalm w wr lo hi = s0.stackCalm w wr lo hi := by
  have h1 := h.same State.filter (fun _ => rfl)
  have h2 := fun a => h.same (fun x => (x.stackDoms w a).all x.domRuns) (fun _ => rfl)
  unfold State.stackCalm
  simp only [h.stackBytes, h1, h2, h.pageCalm]

theorem Kept.calm (h : Kept s0 s) (w : Who) (wr : Bool) (lo hi : Nat) : s.calm w wr lo hi = s0.calm w wr lo hi := by
  have h1 := fun j => h.same (fun x => x.openSeg j lo hi) (fun _ => rfl)
  unfold State.calm
  simp only [h.perfOff, h.stackBytes, h1, h.windowCalm, h.stackCalm]

end kept

/-! ## What calm says -/

section calm
variable {s : State} {w : Who} {wr : Bool} {lo hi : Nat}

theorem State.calm_perf (h : s.calm w wr lo hi = true) : s.perfOff = true ∧ w.lt < 272 := by
  simp only [State.calm, Bool.and_eq_true, decide_eq_true_eq] at h
  exact ⟨h.1.1.1.1.2, h.1.1.2⟩

theorem State.calm_aligned (h : s.calm w wr lo hi = true) : lo % 64 = 0 ∧ hi % 64 = 0 := by
  simp only [State.calm, Bool.and_eq_true, decide_eq_true_eq, beq_iff_eq] at h
  exact ⟨h.1.1.1.1.1.1, h.1.1.1.1.1.2⟩

/-- Every access of the job inside the range is permitted. -/
theorem State.openSeg_ok {j a n : Nat} (h : s.openSeg j lo hi = true) (h1 : lo ≤ a) (hn : 0 < n) (h2 : a + n ≤ hi) :
    s.segOk j a n wr = true := by
  simp only [State.openSeg, List.any_eq_true, List.mem_range, Bool.and_eq_true, decide_eq_true_eq, beq_iff_eq,
    List.all_eq_true, Bool.or_eq_true, Bool.not_eq_true'] at h
  obtain ⟨i, hi16, ⟨⟨⟨⟨⟨⟨hv, hr⟩, hw⟩, hm⟩, hb⟩, hl⟩, hb4⟩⟩ := h
  have hc : ∀ (g : Seg) (x : Nat), g.stkMask = 0 → g.v = true → g.covers s.stackBytes x =
      (decide (g.base * 4096 ≤ x) && decide (x < g.limit * 4096 + 4096)) := by
    intro g x h0 h1
    simp only [Seg.covers, h0, h1, if_true, Bool.true_and]
  have hs : s.segOf j a n = some i := by
    unfold State.segOf
    rw [List.find?_range_eq_some]
    refine ⟨?_, by simpa using hi16, fun k hk => ?_⟩
    · simp only [hc _ _ hm hv, hm, beq_self_eq_true, Bool.true_or, Bool.and_true, Bool.and_eq_true, decide_eq_true_eq]
      omega
    · rcases hb4 k hk with h0 | ⟨h0, h1⟩
      · simp [Seg.covers, h0]
      · by_cases hv' : (s.seg j k).v = true
        · simp only [hc _ _ h0 hv', Bool.not_eq_true', Bool.and_eq_false_iff, decide_eq_false_iff_not]
          omega
        · simp [Seg.covers, hv']
  unfold State.segOk
  rw [hs]
  dsimp only
  cases wr <;> simp [hr, hw]

theorem checkSeg_calm (h : s.calm w wr lo hi = true) (wt : Bool) {a n : Nat} (h1 : lo ≤ a) (h2 : a + n ≤ hi) :
    (checkSeg w a n wt).go s = (.ok ⟨⟩, s) := by
  simp only [State.calm, Bool.and_eq_true, decide_eq_true_eq] at h
  have hj := h.1.2
  unfold checkSeg
  rw [EM.go_bind, EM.go_get]
  dsimp only
  split
  · rename_i j hj'
    rw [hj'] at hj
    by_cases hn : n = 0
    · simp [hn]
    · simp only [State.openSeg_ok (wr := wt) hj h1 (Nat.pos_of_ne_zero hn) h2, Bool.not_true, Bool.false_eq_true, and_false,
        if_false]
      rfl
  · rfl

theorem State.anvEvent_off (h : s.perfOff = true) {t : Nat} (ht : t < 200) (ev n : Nat) : s.anvEvent t ev n = s := by
  simp only [State.perfOff, Bool.and_eq_true, List.all_eq_true, List.mem_range, Bool.not_eq_true'] at h
  simp [State.anvEvent, h.1 t ht]

theorem State.vrgEvent_off (h : s.perfOff = true) {t : Nat} (ht : t < 16) (ev n : Nat) : s.vrgEvent t ev n = s := by
  simp only [State.perfOff, Bool.and_eq_true, List.all_eq_true, List.mem_range, Bool.not_eq_true'] at h
  simp [State.vrgEvent, h.2 t ht]

theorem State.physOf_lt {l t : Nat} (h : s.physOf l = some t) : t < 200 := by
  simpa using List.mem_of_find?_eq_some h

theorem State.livePhys_lt {j l t : Nat} (h : s.livePhys j l = some t) : t < 200 := by
  unfold State.livePhys at h
  split at h
  · exact State.physOf_lt h
  · cases h

theorem State.spotPhys_lt {a : Nat} {p : SpmSpot} (hs : s.region a = .spm)
    (h : s.spmSpot w ((a - spmBase) / spmWin) = some p) : s.spotPhys p < 200 := by
  have ha : (a - spmBase) / spmWin < 200 := by
    unfold State.region at hs
    split at hs <;> try cases hs
    split at hs <;> try cases hs
    split at hs <;> try cases hs
    split at hs
    · rename_i h4
      unfold inSpm at h4
      rw [Bool.and_eq_true, decide_eq_true_eq, decide_eq_true_eq] at h4
      unfold spmBase spmWin at *
      omega
    · split at hs <;> cases hs
  have hp : ∀ l, (s.physOf l).getD 0 < 200 := fun l => by
    cases hl : s.physOf l with
    | none => decide
    | some t => exact State.physOf_lt hl
  unfold State.spmSpot at h
  split at h
  · split at h
    · cases h
      exact hp _
    · split at h
      · cases hk : s.physOf ((a - spmBase) / spmWin) with
        | none => rw [hk] at h; cases h
        | some t =>
          rw [hk] at h
          cases h
          exact State.physOf_lt hk
      · cases h
  · split at h
    · cases h
      exact ha
    · cases h

/-- The granules last counted replaced. -/
def State.gran (s : State) (g : SMap Nat) : State := { s with lastGran := g }

@[simp] theorem State.gran_gran (s : State) (g h : SMap Nat) : (s.gran g).gran h = s.gran h := rfl
theorem State.gran_self (s : State) : s.gran s.lastGran = s := rfl

theorem State.perfOff_gran (h : s.perfOff = true) (g : SMap Nat) : State.perfOff (s.gran g) = true := by
  unfold State.perfOff State.flag State.f State.reg at h ⊢
  exact h

theorem State.whoTile_lt {t : Nat} (ht : s.whoTile w = some t) : t < 200 := by
  unfold State.whoTile at ht
  split at ht <;> try cases ht
  all_goals
    split at ht
    · exact State.livePhys_lt ht
    · cases ht

theorem State.spmTile_lt {a t : Nat} (ht : s.spmTile w a = some t) : t < 200 := by
  unfold State.spmTile at ht
  split at ht
  · rename_i hr
    cases hk : s.spmSpot w ((a - spmBase) / spmWin) with
    | none => rw [hk] at ht; cases ht
    | some p =>
      rw [hk] at ht
      cases ht
      exact State.spotPhys_lt hr hk
  · cases ht

theorem State.onNewGranule_off (k a : Nat) (b : Bool) (ev : State → State)
    (he : ∀ g, ev (s.gran g) = (s.gran g)) :
    ∃ g, s.onNewGranule k a b ev = (s.gran g) := by
  unfold State.onNewGranule
  dsimp only
  split
  · exact ⟨s.lastGran, rfl⟩
  · exact ⟨_, he _⟩

theorem State.portEvents_off {x : State} (h : x.perfOff = true) {o1 o2 : Option Nat} (b : Bool)
    (h1 : ∀ t, o1 = some t → t < 200) (h2 : ∀ t, o2 = some t → t < 200) : x.portEvents o1 o2 b = x := by
  unfold State.portEvents
  split
  · rfl
  cases o1 with
  | none =>
    cases o2 with
    | none => rfl
    | some t => exact State.anvEvent_off h (h2 t rfl) _ _
  | some u =>
    dsimp only
    rw [State.anvEvent_off h (h1 u rfl)]
    cases o2 with
    | none => rfl
    | some t => exact State.anvEvent_off h (h2 t rfl) _ _

/-- While no counter counts, an access leaves just the granule last counted (R184, R237). -/
theorem State.countGranule_off (h : s.perfOff = true) (hl : w.lt < 272) (a : Nat) (b : Bool) :
    ∃ g, s.countGranule w a b = (s.gran g) := by
  have h1 : ∀ t, s.whoTile w = some t → t < 200 := fun t => State.whoTile_lt
  have h2 : ∀ t, s.spmTile w a = some t → t < 200 := fun t => State.spmTile_lt
  have key : ∀ x : State, x.perfOff = true → x.portEvents (s.whoTile w) (s.spmTile w a) b = x := fun x hx =>
    State.portEvents_off hx b h1 h2
  unfold State.countGranule
  generalize s.whoTile w = o1 at *
  generalize s.spmTile w a = o2 at *
  dsimp only
  split
  · refine State.onNewGranule_off _ _ _ _ fun g => ?_
    have hv : (if b = true then (s.gran g) else State.vrgEvent (s.gran g) (w.lt - 256) 3 1)
        = (s.gran g) := by
      split
      · rfl
      · exact State.vrgEvent_off (State.perfOff_gran h g) (by omega) _ _
    rw [hv]
    exact key _ (State.perfOff_gran h g)
  · split
    · exact State.onNewGranule_off _ _ _ _ fun g => key _ (State.perfOff_gran h g)
    · exact ⟨s.lastGran, rfl⟩

end calm

/-! ## Values read -/

theorem Bytes.rdList_eq (m : Bytes) : ∀ (n a : Nat), Bytes.rdList m a n = (List.range n).map (fun i => Bytes.rd m (a + i))
  | 0, _ => rfl
  | n + 1, a => by
    rw [Bytes.rdList, Bytes.rdList_eq m n (a + 1), List.range_succ_eq_map, List.map_cons, List.map_map]
    refine congrArg₂ _ rfl (List.map_congr_left fun i _ => ?_)
    simp only [Function.comp]
    congr 1
    omega

theorem overlay_get (mask : Nat) (new old : Bytes) (k : Nat) (h : mask.testBit k = true) :
    Bytes.rd (overlay mask new old) k = Bytes.rd (overlay mask new []) k := by
  have h1 : ∀ (new : Bytes) (m1 m2 : Bytes), SMap.get 0#8 m1 k = SMap.get 0#8 m2 k →
      SMap.get 0#8 (new.foldl (fun m p => SMap.put 0#8 m p.1 p.2) m1) k =
        SMap.get 0#8 (new.foldl (fun m p => SMap.put 0#8 m p.1 p.2) m2) k := by
    intro new
    induction new with
    | nil => intro m1 m2 h; exact h
    | cons p t ih =>
      intro m1 m2 h
      rw [List.foldl_cons, List.foldl_cons]
      refine ih _ _ ?_
      rw [SMap.get_put, SMap.get_put]
      split
      · rfl
      · exact h
  have h2 : ∀ m : Bytes, SMap.get 0#8 (m.filter (fun p => !(mask.testBit p.1))) k = 0#8 := by
    intro m
    induction m with
    | nil => rfl
    | cons p t ih =>
      rw [List.filter_cons]
      split
      · rename_i hp
        have : p.1 ≠ k := fun hk => by rw [hk, h] at hp; simp at hp
        show (if p.1 = k then p.2 else _) = _
        rw [if_neg this]
        exact ih
      · exact ih
  unfold Bytes.rd overlay
  exact h1 new _ _ (by rw [h2, h2])

theorem runMask_bit {mask off n i : Nat} (h : mask &&& runMask off n = runMask off n) (hi : i < n) :
    mask.testBit (off + i) = true := by
  have h1 : (runMask off n).testBit (off + i) = true := by
    unfold runMask
    rw [Nat.testBit_mul_two_pow, Nat.testBit_two_pow_sub_one]
    simp only [Bool.and_eq_true, decide_eq_true_eq]
    omega
  have h2 := congrArg (fun x => Nat.testBit x (off + i)) h
  simp only [Nat.testBit_and, h1, Bool.and_true] at h2
  exact h2

section reads
variable {s : State} {w : Who} {wr : Bool} {lo hi : Nat}

theorem State.windowCalm_at (h : s.windowCalm w lo hi = true) (hs : 16 * s.stackBytes ≤ farBase) {a : Nat} (h1 : lo ≤ a)
    (h2 : a < hi) : s.region a = .spm ∧ (a - spmBase) / spmWin = (lo - spmBase) / spmWin ∧
      (a - spmBase) % spmWin = a - spmBase - (lo - spmBase) / spmWin * spmWin := by
  simp only [State.windowCalm, Bool.and_eq_true, decide_eq_true_eq] at h
  obtain ⟨⟨⟨h3, h4⟩, h5⟩, -⟩ := h
  have hd : (a - spmBase) / spmWin = (lo - spmBase) / spmWin := by
    unfold spmBase spmWin at *
    omega
  refine ⟨?_, hd, ?_⟩
  · unfold State.region
    unfold farBase at hs
    simp only [spmBase, spmWin] at h3 h4 h5 hd
    rw [if_neg (by omega), if_neg (by omega), if_neg (by unfold scratchBase; omega), if_pos]
    unfold inSpm spmBase spmWin
    simp only [Bool.and_eq_true, decide_eq_true_eq]
    omega
  · rw [Nat.mod_eq_sub_mul_div, hd, Nat.mul_comm]

theorem State.windowCalm_spot (h : s.windowCalm w lo hi = true) : ∃ p, s.spmSpot w ((lo - spmBase) / spmWin) = some p ∧
    (s.spotTile p).spmBad = [] ∧ (s.spotTile p).spmWeak = [] := by
  simp only [State.windowCalm, Bool.and_eq_true] at h
  have h := h.2
  cases hp : s.spmSpot w ((lo - spmBase) / spmWin) with
  | none => rw [hp] at h; cases h
  | some p =>
    rw [hp] at h
    simp only [Bool.and_eq_true, List.isEmpty_iff] at h
    exact ⟨p, rfl, h⟩

theorem badIn_nil (d : Bytes) (wk : List Nat) (off n : Nat) : TMem.badIn ⟨d, [], wk⟩ off n = none := by
  unfold TMem.badIn
  rw [List.find?_eq_none]
  simp

theorem badMerge_nil (d : Bytes) (wk : List Nat) (off n : Nat) : TMem.badMerge ⟨d, [], wk⟩ off n = none := by
  unfold TMem.badMerge
  rw [List.find?_eq_none]
  simp

theorem weakIn_nil (d : Bytes) (b : List Nat) (off n : Nat) : TMem.weakIn ⟨d, b, []⟩ off n = 0 := by
  unfold TMem.weakIn
  simp

theorem weakMerge_nil (d : Bytes) (b : List Nat) (off n : Nat) : TMem.weakMerge ⟨d, b, []⟩ off n = 0 := by
  unfold TMem.weakMerge
  simp

theorem spmRead_calm (h : s.windowCalm w lo hi = true) (hs : 16 * s.stackBytes ≤ farBase) {a n : Nat} (h1 : lo ≤ a)
    (hn : 0 < n) (h2 : a + n ≤ hi) : (spmRead w a n).go s = (.ok (s.bytesAt w a n), s) := by
  obtain ⟨p, hp, hb, hw⟩ := s.windowCalm_spot h
  obtain ⟨-, hd, hm⟩ := s.windowCalm_at h hs h1 (show a < hi by omega)
  have hv : Bytes.rdList (s.spotTile p).spm ((a - spmBase) % spmWin) n = s.bytesAt w a n := by
    rw [Bytes.rdList_eq]
    refine List.map_congr_left fun i hi' => ?_
    obtain ⟨r, hd', hm'⟩ := s.windowCalm_at h hs (show lo ≤ a + i by omega) (show a + i < hi by
      have := List.mem_range.1 hi'
      omega)
    unfold State.byteAt
    rw [if_pos r, hd', hp]
    dsimp only
    have hk : ∀ b q : Nat, b ≤ lo → q ≤ lo - b → a - b - q + i = a + i - b - q := by omega
    simp only [State.windowCalm, Bool.and_eq_true, decide_eq_true_eq] at h
    rw [hm, hm', hk _ _ h.1.1.1 (Nat.div_mul_le_self _ _)]
  unfold spmRead
  rw [EM.go_bind, EM.go_get]
  dsimp only
  rw [hd, hp]
  have hM : (s.spotTile p).mem .spm = ⟨(s.spotTile p).spm, [], []⟩ := by
    show TMem.mk _ _ _ = _
    rw [hb, hw]
  simp only [hM, badIn_nil, weakIn_nil, hv, gt_iff_lt, Nat.lt_irrefl, if_false]
  rfl

theorem State.stackCalm_at (h : s.stackCalm w wr lo hi = true) {a : Nat} (h1 : lo ≤ a) (h2 : a < hi) :
    s.region a = .stack ∧ s.pageCalm wr (a / 4096) = true ∧ (s.stackDoms w a).all s.domRuns = true := by
  simp only [State.stackCalm, Bool.and_eq_true, decide_eq_true_eq, List.all_eq_true, List.mem_range] at h
  obtain ⟨⟨⟨⟨h3, -⟩, -⟩, -⟩, h4⟩ := h
  have h5 := h4 (a / 4096 - lo / 4096) (by omega)
  have h6 : lo / 4096 + (a / 4096 - lo / 4096) = a / 4096 := by omega
  rw [h6] at h5
  refine ⟨?_, h5.1, ?_⟩
  · unfold State.region
    rw [if_pos (by omega)]
  · have h7 : s.stackDoms w (4096 * (a / 4096)) = s.stackDoms w a := by
      unfold State.stackDoms
      rw [Nat.mul_div_cancel_left _ (by decide)]
    rw [← h7]
    simpa using h5.2

theorem crossInto_runs {ds : List Nat} (h : ds.all s.domRuns = true) (a : Nat) : (crossInto ds a).go s = (.ok ⟨⟩, s) := by
  have h1 : ∀ d ∈ ds, s.domRuns d = true := by simpa using h
  have h2 : ds.any s.domRefuses = false := by
    rw [List.any_eq_false]
    intro d hd
    have := h1 d hd
    unfold State.domRuns at this
    unfold State.domRefuses
    simp_all
  have h3 : ds.any s.domWaits = false := by
    rw [List.any_eq_false]
    intro d hd
    have := h1 d hd
    unfold State.domRuns at this
    unfold State.domWaits
    simp_all
  unfold crossInto
  rw [EM.go_bind, EM.go_get]
  simp only [h2, h3]
  rfl

theorem mergedBytes_eq (e : Option MergeEntry) (d : Bytes) (off n : Nat) :
    mergedBytes e d off n = (List.range n).map (fun i => ((mergedBytes e d (off + i) 1).head?).getD 0#8) := by
  cases e <;> simp only [mergedBytes, Bytes.rdList_eq, List.range_one, List.map_cons, List.map_nil, Nat.add_zero,
    List.head?_cons, Option.getD_some]

/-- Bytes that an entry has written do not depend on what memory holds. -/
theorem mergedBytes_entry {e : MergeEntry} (d : Bytes) {off n : Nat} (h : e.mask &&& runMask off n = runMask off n) :
    mergedBytes (some e) [] off n = mergedBytes (some e) d off n := by
  simp only [mergedBytes, Bytes.rdList_eq]
  exact List.map_congr_left fun i hi => (overlay_get _ _ _ _ (runMask_bit h (List.mem_range.1 hi))).symm

/-- A read of a calm page gives its bytes and changes nothing (R395, R401). -/
theorem State.readPage_calm {gp off n : Nat} (h : s.pageCalm wr gp = true) (hn : off + n ≤ 4096) :
    s.readPage gp off n = (.ok ((List.range n).map (fun i => s.peekStack (4096 * gp + off + i))), s) := by
  simp only [State.pageCalm, Bool.and_eq_true, Bool.not_eq_true'] at h
  obtain ⟨⟨⟨h1, h2⟩, -⟩, h3⟩ := h
  have hp : ∀ i ∈ List.range n, s.peekStack (4096 * gp + off + i) =
      ((mergedBytes (s.mergeEntry gp) (match s.judgePage gp with
        | .ok d _ => d
        | _ => []) (off + i) 1).head?).getD 0#8 := by
    intro i hi
    have := List.mem_range.1 hi
    unfold State.peekStack
    rw [show (4096 * gp + off + i) / 4096 = gp by omega, show (4096 * gp + off + i) % 4096 = off + i by omega] <;> rfl
  rw [List.map_congr_left hp, ← mergedBytes_eq]
  have hj : s.judgePage gp = judge (s.stampOf gp) (s.page gp) := by
    unfold State.judgePage
    rw [h2]
    rfl
  unfold State.readPage
  rw [h1, hj]
  dsimp only
  rw [if_neg (by decide)]
  cases hm : s.mergeEntry gp with
  | none =>
    rw [if_neg (by simp)]
    split at h3
    · rename_i hz
      rw [hz]
    · rename_i d k hz
      rw [hz]
      have hk : k = 0 := by simpa using h3
      subst hk
      rfl
    · cases h3
  | some e =>
    dsimp only
    split
    · rename_i he
      rw [mergedBytes_entry _ (by simpa using he)]
    · split at h3
      · rename_i hz
        rw [hz]
      · rename_i d k hz
        rw [hz]
        have hk : k = 0 := by simpa using h3
        subst hk
        rfl
      · cases h3

theorem snoopFirst_none {a n : Nat} {b : Bool} (h : s.filter = []) : s.snoopFirst a n b = false := by
  unfold State.snoopFirst
  rw [h]
  simp

theorem rawRead_spm {a n : Nat} (h : s.region a = .spm) : (rawRead w a n).go s = (spmRead w a n).go s := by
  unfold rawRead
  refine EM.go_bind_ok (EM.go_get s) ?_
  rw [h]

theorem rawRead_stack {a n : Nat} {bs : List Byte} (h : s.region a = .stack) (hd : (s.stackDoms w a).all s.domRuns = true)
    (hf : s.filter = []) (hr : s.readPage (a / 4096) (a % 4096) n = (.ok bs, s)) : (rawRead w a n).go s = (.ok bs, s) := by
  unfold rawRead
  refine EM.go_bind_ok (EM.go_get s) ?_
  rw [h]
  refine EM.go_bind_ok (crossInto_runs hd a) ?_
  rw [snoopFirst_none hf, Bool.and_false, hr]
  rfl

theorem State.stackCalm_bytes (h : s.stackCalm w wr lo hi = true) {a n : Nat} (h1 : lo ≤ a) (h2 : a + n ≤ hi) :
    (List.range n).map (fun i => s.peekStack (4096 * (a / 4096) + a % 4096 + i)) = s.bytesAt w a n := by
  rw [Nat.div_add_mod]
  refine List.map_congr_left fun i hi' => ?_
  have := List.mem_range.1 hi'
  have hr := (s.stackCalm_at h (show lo ≤ a + i by omega) (show a + i < hi by omega)).1
  generalize a + i = b at *
  unfold State.byteAt
  rw [hr]
  rfl

/-- An access inside one granule of a calm range gives its bytes and changes nothing. -/
theorem rawRead_calm (h : s.calm w wr lo hi = true) {a n : Nat} (h1 : lo ≤ a) (hn : 0 < n) (h2 : a + n ≤ hi)
    (hg : a % 64 + n ≤ 64) : (rawRead w a n).go s = (.ok (s.bytesAt w a n), s) := by
  simp only [State.calm, Bool.and_eq_true, decide_eq_true_eq, Bool.or_eq_true] at h
  obtain ⟨⟨⟨⟨-, hs⟩, -⟩, -⟩, h⟩ := h
  rcases h with h | h
  · rw [rawRead_spm (s.windowCalm_at h hs h1 (by omega)).1]
    exact spmRead_calm h hs h1 hn h2
  · obtain ⟨r, hp, hd⟩ := s.stackCalm_at h h1 (show a < hi by omega)
    have hf : s.filter = [] := by
      simp only [State.stackCalm, Bool.and_eq_true, List.isEmpty_iff] at h
      exact h.1.1.1.2
    refine rawRead_stack r hd hf ?_
    rw [s.readPage_calm hp (show a % 4096 + n ≤ 4096 by omega), s.stackCalm_bytes h h1 h2]

theorem State.calm_cached (h : s.calm w wr lo hi = true) {a n : Nat} (h1 : lo ≤ a) (h2 : a < hi) : s.cached w a n = none := by
  simp only [State.calm, Bool.and_eq_true, decide_eq_true_eq, Bool.or_eq_true] at h
  obtain ⟨⟨⟨⟨-, hs⟩, -⟩, -⟩, h⟩ := h
  unfold State.cached
  split
  · rfl
  rcases h with h | h
  · rw [if_neg]
    rw [(s.windowCalm_at h hs h1 h2).1]
    simp
  · rw [if_neg]
    simp only [State.stackCalm, Bool.and_eq_true, decide_eq_true_eq] at h
    simp [h.1.2, h.1.1.2]

theorem directRead_ok {a n : Nat} {bs : List Byte} {s' : State} (h : (rawRead w a n).go s = (.ok bs, s')) :
    (directRead w a n).go s = (.ok bs, s') := by
  unfold directRead
  exact EM.go_tryCatch_ok h

theorem readIn_calm (h : s.calm w wr lo hi = true) {a n : Nat} (h1 : lo ≤ a) (hn : 0 < n) (h2 : a + n ≤ hi)
    (hg : a % 64 + n ≤ 64) : ∃ g, (readIn w a n).go s = (.ok (s.bytesAt w a n), (s.gran g)) := by
  obtain ⟨hp, hl⟩ := s.calm_perf h
  obtain ⟨g, e⟩ := s.countGranule_off hp hl a false
  refine ⟨g, ?_⟩
  have hr := directRead_ok (rawRead_calm h h1 hn h2 hg)
  generalize s.bytesAt w a n = bs at *
  unfold readIn
  refine EM.go_bind_ok (EM.go_get s) ?_
  rw [State.calm_cached h h1 (by omega)]
  refine EM.go_bind_ok hr (EM.go_bind_ok (EM.go_modify _ s) ?_)
  rw [e]
  exact EM.go_pure _ _

theorem Kept.gran (s : State) (g : SMap Nat) : Kept s (s.gran g) :=
  ⟨rfl, fun _ => rfl, fun _ => rfl, fun _ => rfl⟩

theorem bytesAt_append (s : State) (w : Who) (a k n : Nat) : s.bytesAt w a k ++ s.bytesAt w (a + k) n = s.bytesAt w a (k + n) := by
  have key : ∀ f : Nat → Byte, (List.range k).map (fun i => f (a + i)) ++ (List.range n).map (fun i => f (a + k + i)) =
      (List.range (k + n)).map (fun i => f (a + i)) := by
    intro f
    rw [List.range_add, List.map_append, List.map_map]
    refine congrArg _ (List.map_congr_left fun i _ => ?_)
    simp only [Function.comp]
    congr 1
    omega
  exact key (s.byteAt w)

/-- A read of a calm range gives its bytes, and changes nothing but the granule last counted. -/
theorem readSpan_calm : ∀ (f : Nat) {s : State} {a n : Nat}, s.calm w wr lo hi = true → lo ≤ a → a + n ≤ hi → n ≤ f →
    ∃ g, (readSpan w f a n).go s = (.ok (s.bytesAt w a n), (s.gran g))
  | 0, s, a, n, h, h1, h2, hf => ⟨s.lastGran, by
      obtain rfl : n = 0 := by omega
      rfl⟩
  | f + 1, s, a, n, h, h1, h2, hf => by
    unfold readSpan
    split
    · rename_i hn
      subst hn
      exact ⟨s.lastGran, rfl⟩
    · rename_i hn
      have hk : granuleRoom a n = min n (64 - a % 64) := rfl
      have hm := Nat.mod_lt a (show 0 < 64 by decide)
      obtain ⟨g, e⟩ := readIn_calm h h1 (n := granuleRoom a n) (by omega) (by omega) (by omega)
      obtain ⟨g', e'⟩ := readSpan_calm f (s := (s.gran g)) (a := a + granuleRoom a n) (n := n - granuleRoom a n)
        (((Kept.gran s g).calm w wr lo hi).trans h) (by omega) (by omega) (by omega)
      refine ⟨g', ?_⟩
      rw [EM.go_bind, e]
      dsimp only
      rw [EM.go_bind, e']
      dsimp only
      rw [EM.go_pure]
      refine congrArg₂ Prod.mk (congrArg _ ?_) rfl
      have := bytesAt_append s w a (granuleRoom a n) (n - granuleRoom a n)
      rw [show granuleRoom a n + (n - granuleRoom a n) = n by omega] at this
      exact this

theorem jobRead_calm (h : s.calm w wr lo hi = true) {a n : Nat} (h1 : lo ≤ a) (h2 : a + n ≤ hi) :
    ∃ g, (jobRead w a n).go s = (.ok (s.bytesAt w a n), (s.gran g)) := by
  obtain ⟨g, e⟩ := readSpan_calm n h h1 h2 (Nat.le_refl n)
  refine ⟨g, ?_⟩
  unfold jobRead
  rw [EM.go_bind, checkSeg_calm h false h1 h2]
  exact e

end reads

/-! ## Values written -/

section writes
variable {s s0 : State} {w : Who} {wr : Bool} {lo hi : Nat}

theorem Kept.setTile {t : Nat} {x : TileState} (h : x.bare = (s.tile t).bare) : Kept s (s.setTile t x) := by
  refine ⟨rfl, fun u => ?_, fun _ => rfl, fun _ => rfl⟩
  rw [State.tile_setTile]
  split
  · rename_i hu
    rw [hu, h]
  · rfl

theorem Kept.setSaved {k : Nat} {x : TileState} (h : x.bare = (SMap.get TileState.zero s.saved k).bare) :
    Kept s { s with saved := SMap.put TileState.zero s.saved k x } := by
  refine ⟨rfl, fun _ => rfl, fun u => ?_, fun _ => rfl⟩
  dsimp only
  rw [SMap.get_put]
  split
  · rename_i hu
    rw [hu, h]
  · rfl

theorem Kept.setSpot {p : SpmSpot} {x : TileState} (h : x.bare = (s.spotTile p).bare) : Kept s (s.setSpot p x) := by
  cases p with
  | phys t => exact Kept.setTile h
  | ctx j l =>
    show Kept s (s.setCtx j l x)
    replace h : x.bare = (s.ctx j l).bare := h
    unfold State.ctx at h
    unfold State.setCtx
    split at h
    · exact Kept.setTile h
    · exact Kept.setSaved h

theorem spmWrite_calm (h : s.windowCalm w lo hi = true) (hs : 16 * s.stackBytes ≤ farBase) {a : Nat} (bs : List Byte)
    (h1 : lo ≤ a) (h2 : a < hi) : ∃ s', (spmWrite w a bs).go s = (.ok ⟨⟩, s') ∧ Kept s s' := by
  obtain ⟨p, hp, hb, hw⟩ := s.windowCalm_spot h
  obtain ⟨-, hd, -⟩ := s.windowCalm_at h hs h1 h2
  have hM : (s.spotTile p).mem .spm = ⟨(s.spotTile p).spm, [], []⟩ := by
    show TMem.mk _ _ _ = _
    rw [hb, hw]
  refine ⟨s.setSpot p ((s.spotTile p).setMem .spm (TMem.write ⟨(s.spotTile p).spm, [], []⟩ ((a - spmBase) % spmWin) bs)), ?_,
    Kept.setSpot ?_⟩
  · unfold spmWrite
    refine EM.go_bind_ok (EM.go_get s) ?_
    rw [hd, hp]
    dsimp only
    rw [hM, badMerge_nil]
    dsimp only
    rw [weakMerge_nil]
    exact EM.go_set _ _
  · unfold TileState.bare TileState.setMem TMem.write
    dsimp only
    rw [hb, hw]
    rfl

theorem State.mergeInto_some (gp g2 off : Nat) (bs : List Byte) :
    ((s.mergeInto gp off bs).mergeEntry g2).isSome = (s.mergeEntry g2).isSome := by
  have key : ∀ l : List MergeEntry, ((l.map (fun e => if e.page = gp then e.add off bs else e)).find?
      (fun e => e.page == g2)).isSome = (l.find? (fun e => e.page == g2)).isSome := by
    intro l
    rw [List.find?_map, Option.isSome_map]
    congr 1
    refine congrArg (fun f => List.find? f l) (funext fun e => ?_)
    simp only [Function.comp]
    split <;> rfl
  have hg : (s.mergeInto gp off bs).gchan g2 = s.gchan g2 := rfl
  have hb : ∀ gc, (s.mergeInto gp off bs).mergeBuf gc = if gc = s.gchan gp then
      (s.mergeBuf (s.gchan gp)).map (fun e => if e.page = gp then e.add off bs else e) else s.mergeBuf gc :=
    fun gc => SMap.get_put _ _ _ _ _
  unfold State.mergeEntry
  rw [hg, hb]
  split
  · rename_i hgc
    rw [key, hgc]
  · rfl

theorem Kept.mergeInto (gp off : Nat) (bs : List Byte) : Kept s (s.mergeInto gp off bs) :=
  ⟨rfl, fun _ => rfl, fun _ => rfl, fun _ => State.mergeInto_some _ _ _ _⟩

theorem rawWrite_spm {a : Nat} {bs : List Byte} (h : s.region a = .spm) :
    (rawWrite w a bs).go s = (spmWrite w a bs).go s := by
  unfold rawWrite
  refine EM.go_bind_ok (EM.go_get s) ?_
  rw [h]

theorem rawWrite_stack {a : Nat} {bs : List Byte} {s' : State} (h : s.region a = .stack)
    (hd : (s.stackDoms w a).all s.domRuns = true) (hf : s.filter = []) (hl : s.failed (a / 4096) = false)
    (hr : s.writePage (a / 4096) (a % 4096) bs = some s') : (rawWrite w a bs).go s = (.ok ⟨⟩, s') := by
  unfold rawWrite
  refine EM.go_bind_ok (EM.go_get s) ?_
  rw [h]
  refine EM.go_bind_ok (crossInto_runs hd a) ?_
  rw [snoopFirst_none hf, Bool.and_false, hl, hr]
  rfl

/-- A write inside one granule of a calm range ends, and changes the bytes it writes alone. -/
theorem rawWrite_calm (h : s.calm w true lo hi = true) {a : Nat} (bs : List Byte) (h1 : lo ≤ a) (h2 : a < hi) :
    ∃ s', (rawWrite w a bs).go s = (.ok ⟨⟩, s') ∧ Kept s s' := by
  simp only [State.calm, Bool.and_eq_true, decide_eq_true_eq, Bool.or_eq_true] at h
  obtain ⟨⟨⟨⟨-, hs⟩, -⟩, -⟩, h⟩ := h
  rcases h with h | h
  · rw [rawWrite_spm (s.windowCalm_at h hs h1 h2).1]
    exact spmWrite_calm h hs bs h1 h2
  · obtain ⟨r, hp, hd⟩ := s.stackCalm_at h h1 h2
    have hf : s.filter = [] := by
      simp only [State.stackCalm, Bool.and_eq_true, List.isEmpty_iff] at h
      exact h.1.1.1.2
    simp only [State.pageCalm, Bool.and_eq_true, Bool.not_eq_true', Bool.not_true, Bool.false_or] at hp
    obtain ⟨⟨⟨h3, h4⟩, h5⟩, -⟩ := hp
    refine ⟨_, rawWrite_stack r hd hf h4 (s' := s.mergeInto (a / 4096) (a % 4096) bs) ?_, Kept.mergeInto _ _ _⟩
    unfold State.writePage
    rw [h3]
    cases hm : s.mergeEntry (a / 4096) with
    | none => rw [hm] at h5; cases h5
    | some e => rfl

theorem writeIn_calm (h : s.calm w true lo hi = true) {a : Nat} (bs : List Byte) (h1 : lo ≤ a) (h2 : a < hi) :
    ∃ s', (writeIn w a bs).go s = (.ok ⟨⟩, s') ∧ Kept s s' := by
  obtain ⟨s', e, k⟩ := rawWrite_calm h bs h1 h2
  have h' := (k.calm w true lo hi).trans h
  obtain ⟨hp, hl⟩ := s'.calm_perf h'
  obtain ⟨g, e'⟩ := s'.countGranule_off hp hl a true
  refine ⟨(s'.gran g), ?_, k.trans (Kept.gran s' g)⟩
  unfold writeIn
  refine EM.go_bind_ok (EM.go_get s) ?_
  rw [State.calm_cached h h1 h2]
  refine EM.go_bind_ok e ?_
  rw [EM.go_modify, e']

/-- A write of a calm range ends, and changes the bytes it writes alone. -/
theorem writeSpan_ends (h : s0.calm w true lo hi = true) : ∀ (f : Nat) {a : Nat} (bs : List Byte), lo ≤ a →
    a + bs.length ≤ hi → (writeSpan w f a bs).Ends (Kept s0) (fun _ => True)
  | 0, _, _, _, _ => EM.ends_pure trivial
  | f + 1, a, [], _, _ => EM.ends_pure trivial
  | f + 1, a, b :: bs, h1, h2 => by
    have hk : granuleRoom a (b :: bs).length = min (bs.length + 1) (64 - a % 64) := rfl
    have hk2 : granuleRoom a (bs.length + 1) = min (bs.length + 1) (64 - a % 64) := rfl
    have hm := Nat.mod_lt a (show 0 < 64 by decide)
    rw [List.length_cons] at h2
    show ((writeIn w a ((b :: bs).take (granuleRoom a (b :: bs).length))) >>= fun _ => _).Ends _ _
    refine EM.Ends.bind (Q := fun _ => True) ?_ fun _ _ => writeSpan_ends h f _ (by omega) (by
      rw [List.length_drop, List.length_cons]
      omega)
    intro s hs
    obtain ⟨s', e, k⟩ := writeIn_calm ((hs.calm w true lo hi).trans h) (a := a)
      ((b :: bs).take (granuleRoom a (b :: bs).length)) h1 (by omega)
    exact ⟨_, s', e, hs.trans k, trivial⟩

theorem checkSeg_ends (h : s0.calm w wr lo hi = true) (wt : Bool) {a n : Nat} (h1 : lo ≤ a) (h2 : a + n ≤ hi) :
    (checkSeg w a n wt).Ends (Kept s0) (fun _ => True) := fun s hs =>
  ⟨_, s, checkSeg_calm ((hs.calm w wr lo hi).trans h) wt h1 h2, hs, trivial⟩

theorem jobWrite_ends (h : s0.calm w true lo hi = true) {a : Nat} (bs : List Byte) (h1 : lo ≤ a) (h2 : a + bs.length ≤ hi) :
    (jobWrite w a bs).Ends (Kept s0) (fun _ => True) :=
  (checkSeg_ends h true h1 h2).bind fun _ _ => writeSpan_ends h _ _ h1 h2

theorem readSpan_ends (h : s0.calm w wr lo hi = true) : ∀ (f : Nat) {a n : Nat}, lo ≤ a → a + n ≤ hi →
    (readSpan w f a n).Ends (Kept s0) (fun _ => True)
  | 0, _, _, _, _ => EM.ends_pure trivial
  | f + 1, a, n, h1, h2 => by
    unfold readSpan
    split
    · exact EM.ends_pure trivial
    · rename_i hn
      have hk : granuleRoom a n = min n (64 - a % 64) := rfl
      have hm := Nat.mod_lt a (show 0 < 64 by decide)
      refine EM.Ends.bind (Q := fun _ => True) (fun s hs => ?_) fun _ _ =>
        (readSpan_ends h f (by omega) (by omega)).bind fun _ _ => EM.ends_pure trivial
      obtain ⟨g, e⟩ := readIn_calm ((hs.calm w wr lo hi).trans h) h1 (n := granuleRoom a n) (by omega) (by omega) (by omega)
      exact ⟨_, _, e, hs.trans (Kept.gran s g), trivial⟩

theorem jobRead_ends (h : s0.calm w wr lo hi = true) {a n : Nat} (h1 : lo ≤ a) (h2 : a + n ≤ hi) :
    (jobRead w a n).Ends (Kept s0) (fun _ => True) :=
  (checkSeg_ends h false h1 h2).bind fun _ _ => readSpan_ends h _ h1 h2

end writes

/-! ## Elements -/

section elems
variable {s s0 : State} {w : Who} {wr : Bool} {lo hi : Nat}

theorem readBits_ends (h : s0.calm w wr lo hi = true) {o n : Nat} (h0 : 1 ≤ n) (h1 : 8 * lo ≤ o) (h2 : o + n ≤ 8 * hi) :
    (readBits w o n).Ends (Kept s0) (fun _ => True) :=
  (jobRead_ends h (by omega) (by omega)).bind fun _ _ => EM.ends_pure trivial

theorem readParts_ends (h : s0.calm w wr lo hi = true) : ∀ (l : List (Nat × Nat)),
    (∀ p ∈ l, 1 ≤ p.2 ∧ 8 * lo ≤ p.1 ∧ p.1 + p.2 ≤ 8 * hi) → (readParts w l).Ends (Kept s0) (fun _ => True)
  | [], _ => EM.ends_pure trivial
  | (o, n) :: t, hl => by
    obtain ⟨h0, h1, h2⟩ := hl (o, n) (by simp)
    exact (readBits_ends h h0 h1 h2).bind fun _ _ =>
      (readParts_ends h t (fun p hp => hl p (by simp [hp]))).bind fun _ _ => EM.ends_pure trivial

theorem Loc.within_iff (l : Loc) : l.within lo hi = true ↔
    (∀ p ∈ l.parts, 1 ≤ p.2 ∧ 8 * lo ≤ p.1 ∧ p.1 + p.2 ≤ 8 * hi) ∧ (∀ a, l.scale = some a → lo ≤ a ∧ a < hi) := by
  unfold Loc.within
  cases l.scale <;> simp [and_assoc]

theorem readCode_ends (h : s0.calm w wr lo hi = true) {v : View} {np : Nat} {ix : List Nat}
    (hl : (v.loc np ix).within lo hi = true) : (readCode w v np ix).Ends (Kept s0) (fun _ => True) := by
  rw [Loc.within_iff] at hl
  unfold readCode
  dsimp only
  have hc : ∀ x, (readParts w (v.loc np ix).parts >>= fun c => pure (c, x) : EM (Nat × Nat)).Ends (Kept s0) (fun _ => True) :=
    fun _ => (readParts_ends h _ hl.1).bind fun _ _ => EM.ends_pure trivial
  cases hs : (v.loc np ix).scale with
  | none => exact (EM.ends_pure (Q := fun _ => True) trivial).bind fun _ _ => hc _
  | some a =>
    obtain ⟨h1, h2⟩ := hl.2 a hs
    exact (jobRead_ends h h1 (by omega)).bind fun _ _ => (EM.ends_pure (Q := fun _ => True) trivial).bind fun _ _ => hc _

theorem readElem_ends (h : s0.calm w wr lo hi = true) {v : View} {np : Nat} {rc : Recon} {ix : List Nat}
    (hl : (v.loc np ix).within lo hi = true) : (readElem w v np rc ix).Ends (Kept s0) (fun _ => True) :=
  (readCode_ends h hl).bind fun _ _ => EM.ends_pure trivial

theorem Fmt.bits_pos {f : Fmt} (h : f.isPq = true) : 0 < f.bits := by cases f <;> simp_all [Fmt.isPq, Fmt.bits]

theorem View.loc_parts (v : View) (ix : List Nat) : (v.loc v.fmt.bits ix).parts ≠ [] := by
  unfold View.loc
  dsimp only
  split
  · simp
  · split
    · split
      · rename_i hp
        have := Fmt.bits_pos hp
        simp only [planeBits, ne_eq, List.map_eq_nil_iff, List.reverse_eq_nil_iff, List.range_eq_nil]
        omega
      · simp
    · split
      · rename_i hp
        have := Fmt.bits_pos hp
        simp only [planeBits, ne_eq, List.map_eq_nil_iff, List.reverse_eq_nil_iff, List.range_eq_nil]
        omega
      · dsimp only
        split <;> simp

theorem storedElem_ends (h : s0.calm w wr lo hi = true) {v : View} {ix : List Nat}
    (hl : (v.loc v.fmt.bits ix).within lo hi = true) : (storedElem w v ix).Ends (Kept s0) (fun _ => True) := by
  rw [Loc.within_iff] at hl
  unfold storedElem
  dsimp only
  split
  · have hh : ∀ l : List (Nat × Nat), l ≠ [] → (∀ p ∈ l, 1 ≤ p.2 ∧ 8 * lo ≤ p.1 ∧ p.1 + p.2 ≤ 8 * hi) →
        lo ≤ (l.headD (0, 1)).1 / 8 ∧ (l.headD (0, 1)).1 / 8 + 1 ≤ hi := by
      intro l hn hp
      cases l with
      | nil => exact absurd rfl hn
      | cons p t =>
        have := hp p (by simp)
        simp only [List.headD_cons]
        omega
    obtain ⟨h1, h2⟩ := hh _ (v.loc_parts ix) hl.1
    have hc : ((v.loc v.fmt.bits ix).parts.reverse.foldlM (fun acc p => do
        let y ← readSpan w 2 (p.1 / 8) ((p.1 + p.2 - 1) / 8 - p.1 / 8 + 1)
        pure (acc * 2 ^ p.2 + leNat y / 2 ^ (p.1 % 8) % 2 ^ p.2)) 0 : EM Nat).Ends (Kept s0) (fun _ => True) := by
      refine EM.ends_foldlM _ _ fun acc p hp => ?_
      obtain ⟨h0, h1, h2⟩ := hl.1 p (by simpa using hp)
      exact (readSpan_ends h 2 (by omega) (by omega)).bind fun _ _ => EM.ends_pure trivial
    refine (checkSeg_ends h true h1 h2).bind fun _ _ => ?_
    cases hs : (v.loc v.fmt.bits ix).scale with
    | none => exact (EM.ends_pure (Q := fun _ => True) trivial).bind fun _ _ => hc.bind fun _ _ => EM.ends_pure trivial
    | some a =>
      obtain ⟨h1, h2⟩ := hl.2 a hs
      exact (readSpan_ends h 1 h1 (by omega)).bind fun _ _ =>
        (EM.ends_pure (Q := fun _ => True) trivial).bind fun _ _ => hc.bind fun _ _ => EM.ends_pure trivial
  · exact EM.ends_pure trivial

/-! ## Granules written -/

/-- A piece lies in the bytes lo to hi - 1. -/
def Piece.inside (lo hi : Nat) (p : Piece) : Prop := 8 * lo ≤ p.off ∧ p.off + p.w ≤ 8 * hi

theorem putGran_num (p : Piece) (n l k v : Nat) : ∀ (gs : List Gran), ∀ g ∈ putGran p n l k v gs, g.num = n ∨ ∃ x ∈ gs, x.num = g.num
  | [], g, hg => by
    simp only [putGran, List.mem_singleton] at hg
    exact .inl (by rw [hg]; rfl)
  | x :: t, g, hg => by
    unfold putGran at hg
    split at hg
    · rename_i hx
      rcases List.mem_cons.1 hg with rfl | hg
      · exact .inl (show x.num = n by simpa using hx)
      · exact .inr ⟨g, by simp [hg], rfl⟩
    · rcases List.mem_cons.1 hg with rfl | hg
      · exact .inr ⟨g, by simp, rfl⟩
      · rcases putGran_num p n l k v t g hg with h | ⟨y, hy, h⟩
        · exact .inl h
        · exact .inr ⟨y, by simp [hy], h⟩

theorem putPiece_num (p : Piece) {lo hi : Nat} : ∀ (f o k v : Nat) (gs : List Gran), 8 * lo ≤ o → o + k ≤ 8 * hi →
    lo % 64 = 0 → hi % 64 = 0 → (∀ g ∈ gs, lo ≤ 64 * g.num ∧ 64 * g.num + 64 ≤ hi) →
    ∀ g ∈ putPiece p f o k v gs, lo ≤ 64 * g.num ∧ 64 * g.num + 64 ≤ hi
  | 0, _, _, _, _, _, _, _, _, hg => hg
  | f + 1, o, k, v, gs, h1, h2, h3, h4, hg => by
    unfold putPiece
    split
    · exact hg
    · rename_i hk
      refine putPiece_num p f _ _ _ _ (by omega) (by omega) h3 h4 fun g hm => ?_
      rcases putGran_num _ _ _ _ _ _ g hm with e | ⟨x, hx, e⟩
      · rw [e]
        omega
      · rw [← e]
        exact hg x hx

theorem granules_inside {lo hi : Nat} (h3 : lo % 64 = 0) (h4 : hi % 64 = 0) (ps : List Piece)
    (hp : ∀ p ∈ ps, p.inside lo hi) : ∀ g ∈ granules ps, lo ≤ 64 * g.num ∧ 64 * g.num + 64 ≤ hi := by
  have key : ∀ (ps : List Piece) (gs : List Gran), (∀ p ∈ ps, p.inside lo hi) →
      (∀ g ∈ gs, lo ≤ 64 * g.num ∧ 64 * g.num + 64 ≤ hi) →
      ∀ g ∈ ps.foldl (fun gs p => putPiece p (p.w / 512 + 2) p.off p.w p.val gs) gs, lo ≤ 64 * g.num ∧ 64 * g.num + 64 ≤ hi := by
    intro ps
    induction ps with
    | nil => intro gs _ hg; exact hg
    | cons p t ih =>
      intro gs hp hg
      rw [List.foldl_cons]
      obtain ⟨h1, h2⟩ := hp p (by simp)
      exact ih _ (fun q hq => hp q (by simp [hq])) (putPiece_num p _ _ _ _ _ h1 h2 h3 h4 hg)
  exact key ps [] hp (by simp)

theorem runsOf_le (p : Nat → Bool) : ∀ (f k : Nat), ∀ r ∈ runsOf p f k, k ≤ r.1 ∧ r.1 + r.2 ≤ k + f
  | 0, _, _, h => by simp [runsOf] at h
  | f + 1, k, r, h => by
    unfold runsOf at h
    split at h
    · have ih := runsOf_le p f (k + 1)
      split at h
      · rename_i a n t heq
        rw [heq] at ih
        have ha := ih (a, n) (by simp)
        split at h
        · rcases List.mem_cons.1 h with rfl | h
          · dsimp only at ha ⊢
            omega
          · have := ih r (by simp [h])
            omega
        · rcases List.mem_cons.1 h with rfl | h
          · dsimp only
            omega
          · have := ih r h
            omega
      · simp only [List.mem_singleton] at h
        subst h
        dsimp only
        omega
    · have := runsOf_le p f (k + 1) r h
      omega

theorem leBytes_len (n v : Nat) : (leBytes n v).length = n := leBytes_length n v

theorem writeGran_ends {e : Eng} (h : s0.calm e.who true lo hi = true) {g : Gran} (h1 : lo ≤ 64 * g.num)
    (h2 : 64 * g.num + 64 ≤ hi) : (writeGran e g).Ends (Kept s0) (fun _ => True) := by
  have hr : ∀ r ∈ g.runs, lo ≤ 64 * g.num + r.1 ∧ 64 * g.num + r.1 + r.2 ≤ hi := by
    intro r hr
    have := runsOf_le _ _ _ r hr
    omega
  unfold writeGran
  dsimp only
  refine atTile_ends _ (EM.Ends.bind (Q := fun _ => True) (e.at_ends 1 _ (EM.ends_forM _ fun r hm => ?_)) fun _ _ => ?_)
  · exact checkSeg_ends h true (hr r hm).1 (hr r hm).2
  · split
    · refine e.at_ends 1 _ (undoBus_ends (EM.ends_forM _ fun r hm => writeSpan_ends h _ _ (hr r hm).1 ?_))
      rw [leBytes_len]
      exact (hr r hm).2
    · refine EM.Ends.bind (e.at_ends 0 _ (readSpan_ends h 64 h1 h2)) fun _ _ => e.at_ends 1 _ (writeSpan_ends h _ _ h1 ?_)
      rw [leBytes_len]
      exact h2

/-- Pieces that lie in a calm range are written. -/
theorem writePieces_ends {e : Eng} (h : s0.calm e.who true lo hi = true) (ps : List Piece)
    (hp : ∀ p ∈ ps, p.inside lo hi) : (writePieces e ps).Ends (Kept s0) (fun _ => True) := by
  have hg := granules_inside (s0.calm_aligned h).1 (s0.calm_aligned h).2 ps hp
  unfold writePieces
  refine EM.ends_get.bind fun s _ => (untilStop_ends _ fun g hm => writeGran_ends h (hg g hm).1 (hg g hm).2).bind ?_
  rintro _ rfl
  exact EM.ends_pure trivial

theorem partPieces_inside (pos ent tile : Nat) : ∀ (l : List (Nat × Nat)) (v : Nat),
    (∀ p ∈ l, 1 ≤ p.2 ∧ 8 * lo ≤ p.1 ∧ p.1 + p.2 ≤ 8 * hi) → ∀ p ∈ partPieces pos ent tile l v, p.inside lo hi
  | [], _, _, _, hp => by simp [partPieces] at hp
  | (o, n) :: t, v, hl, p, hp => by
    unfold partPieces at hp
    rcases List.mem_cons.1 hp with rfl | hp
    · exact (hl (o, n) (by simp)).2
    · exact partPieces_inside pos ent tile t _ (fun q hq => hl q (by simp [hq])) p hp

theorem codePieces_inside (pos ent tile : Nat) (v : View) (np : Nat) (b : List Nat) (x : Nat) (codes : List (List Nat × Nat))
    (hb : (v.loc np b).within lo hi = true) (hc : ∀ c ∈ codes, (v.loc np c.1).within lo hi = true) :
    ∀ p ∈ codePieces pos ent tile v np b x codes, p.inside lo hi := by
  intro p hp
  unfold codePieces at hp
  rcases List.mem_append.1 hp with hp | hp
  · rw [Loc.within_iff] at hb
    split at hp
    · rename_i a ha
      simp only [List.mem_singleton] at hp
      have := hb.2 a ha
      rw [hp]
      unfold Piece.inside
      dsimp only
      omega
    · simp at hp
  · obtain ⟨c, hcm, hp⟩ := List.mem_flatMap.1 hp
    exact partPieces_inside _ _ _ _ _ ((Loc.within_iff _).1 (hc c hcm)).1 p hp

theorem blocksOf_mem (v : View) : ∀ (l : List (List Nat)), ∀ b ∈ blocksOf v l, ∃ ix ∈ l, b = blockStart v ix
  | [], b, h => by simp [blocksOf] at h
  | ix :: t, b, h => by
    unfold blocksOf at h
    rcases List.mem_cons.1 h with rfl | h
    · exact ⟨ix, by simp, rfl⟩
    · obtain ⟨j, hj, e⟩ := blocksOf_mem v t b (List.mem_filter.1 h).1
      exact ⟨j, by simp [hj], e⟩

theorem blockIx_zero (b : List Nat) : blockIx b 0 = b := by
  unfold blockIx
  cases b <;> rfl

/-- A block whose positions all lie in a calm range is encoded again into pieces that lie there. -/
theorem blockPieces_ends {e : Eng} (h : s0.calm e.who true lo hi = true) {v : View} (pos : Nat) (ws : List WElem) {b : List Nat}
    (hb : ∀ i < 32, (v.loc v.fmt.bits (blockIx b i)).within lo hi = true) :
    (blockPieces e v pos ws b).Ends (Kept s0) (fun ps => ∀ p ∈ ps, p.inside lo hi) := by
  unfold blockPieces
  dsimp only
  refine EM.Ends.bind (Q := fun vals : List (Option (List Nat × FVal)) => ∀ x ∈ vals, ∀ y, x = some y →
    (v.loc v.fmt.bits y.1).within lo hi = true) (e.at_ends 0 _ ?_) fun vals hv => ?_
  · refine (EM.ends_mapM (Q := fun x : Option (List Nat × FVal) => ∀ y, x = some y →
      (v.loc v.fmt.bits y.1).within lo hi = true) _ fun i hi' => ?_).weaken fun _ r => r.2
    have hi := hb i (List.mem_range.1 hi')
    split
    · refine EM.ends_pure fun y hy => ?_
      rw [← Option.some.inj hy]
      exact hi
    · refine (storedElem_ends h hi).bind fun o _ => EM.ends_pure ?_
      intro y hy
      obtain ⟨x, -, rfl⟩ := Option.map_eq_some_iff.1 hy
      exact hi
  · refine EM.ends_pure (codePieces_inside _ _ _ _ _ _ _ _ ?_ ?_)
    · have := hb 0 (by decide)
      rwa [blockIx_zero] at this
    · intro c hc
      obtain ⟨y, hy, e⟩ := List.mem_map.1 (List.of_mem_zip hc).1
      obtain ⟨x, hx, e2⟩ := List.mem_filterMap.1 hy
      rw [← e]
      exact hv x hx y e2

theorem View.writable_block {v : View} {np : Nat} {ixs : List (List Nat)} (h : v.writable np lo hi ixs = true)
    (hb : v.fmt.isBlock = true) {ix : List Nat} (hi' : ix ∈ ixs) :
    ∀ i < 32, (v.loc np (blockIx (blockStart v ix) i)).within lo hi = true ∧
      (v.loc v.fmt.bits (blockIx (blockStart v ix) i)).within lo hi = true := by
  unfold View.writable at h
  rw [if_pos hb] at h
  simp only [View.within, Bool.and_eq_true, List.all_eq_true, List.mem_flatMap, List.mem_map, List.mem_range] at h
  intro i hi32
  exact ⟨h.1 _ ⟨ix, hi', i, hi32, rfl⟩, h.2 _ ⟨ix, hi', i, hi32, rfl⟩⟩

theorem View.writable_plain {v : View} {np : Nat} {ixs : List (List Nat)} (h : v.writable np lo hi ixs = true)
    (hb : v.fmt.isBlock = false) {ix : List Nat} (hi' : ix ∈ ixs) : (v.loc 0 ix).within lo hi = true := by
  unfold View.writable at h
  rw [if_neg (by rw [hb]; simp)] at h
  simp only [View.within, List.all_eq_true] at h
  exact h ix hi'

/-- Elements and padding of a view are written where all that the write touches lies in a calm range (R133 - R135, R779). -/
theorem Eng.writes_ends {e : Eng} (h : s0.calm e.who true lo hi = true) {v : View} (rm : RM) (ov : Ovf) (keep : Bool)
    (ws pads : List WElem) {np : Nat} (hv : v.writable np lo hi ((ws ++ pads).map (·.ix)) = true) :
    (e.writes v rm ov keep ws pads).Ends (Kept s0) (fun _ => True) := by
  unfold Eng.writes
  dsimp only
  split
  · rename_i hb
    refine EM.Ends.bind (readUntil_ends (Q := fun ps : List Piece => ∀ p ∈ ps, p.inside lo hi) _ fun b hbm => ?_)
      (fun r hr => ?_)
    · obtain ⟨ix, hix, rfl⟩ := blocksOf_mem v _ b hbm
      exact blockPieces_ends h _ _ fun i hi32 => (View.writable_block hv hb hix i hi32).2
    · obtain ⟨ps, o⟩ := r
      obtain ⟨rfl, -, hq⟩ := hr
      refine (writePieces_ends h _ ?_).bind fun _ _ => raise_ends
      intro p hp
      obtain ⟨l, hl, hpl⟩ := List.mem_flatten.1 hp
      exact hq l hl p hpl
  · rename_i hb
    refine writePieces_ends h _ fun p hp => ?_
    obtain ⟨x, hx, hp⟩ := List.mem_flatMap.1 hp
    exact partPieces_inside _ _ _ _ _ ((Loc.within_iff _).1 (View.writable_plain hv (by simpa using hb)
      (List.mem_map_of_mem hx))).1 p hp

end elems

end Sys2Proof.Machine
end

