-- ==== Sys2Proof/Laws/Runs.lean ====
section
/-! SUPPORT. The work of an engine's command ends where every access it makes is served. -/
namespace Sys2Proof.Machine

/-- x ends with an answer from state s. -/
def EM.Done {α : Type} (x : EM α) (s : State) : Prop := ∃ a r, x.go s = (.ok a, r)

section done
variable {α β : Type} {P : State → Prop} {s : State}

theorem EM.Ends.done {x : EM α} {Q : α → Prop} (h : x.Ends P Q) (hs : P s) : x.Done s := by
  obtain ⟨a, r, e, -⟩ := h s hs
  exact ⟨a, r, e⟩

theorem EM.Ends.bindDone {x : EM α} {f : α → EM β} {Q : α → Prop} (h : x.Ends P Q) (hs : P s)
    (k : ∀ a r, P r → Q a → (f a).Done r) : (x >>= f).Done s := by
  obtain ⟨a, r, e, p, q⟩ := h s hs
  obtain ⟨b, t, e'⟩ := k a r p q
  exact ⟨b, t, EM.go_bind_ok e e'⟩

theorem EM.done_pure (a : α) : (pure a : EM α).Done s := ⟨a, s, rfl⟩

theorem EM.done_modify (f : State → State) : (modify f : EM PUnit).Done s := ⟨⟨⟩, f s, rfl⟩

theorem EM.Done.of_bind {x : EM α} {f : α → EM β} {a : α} {r : State} (e : x.go s = (.ok a, r)) (h : (f a).Done r) :
    (x >>= f).Done s := by
  obtain ⟨b, t, e'⟩ := h
  exact ⟨b, t, EM.go_bind_ok e e'⟩

theorem EM.Done.map {x : EM α} (h : x.Done s) (f : α → β) : (x >>= fun a => pure (f a)).Done s := by
  obtain ⟨a, r, e⟩ := h
  exact ⟨f a, r, EM.go_bind_ok e rfl⟩

end done

section common
variable {s s0 : State} {w : Who} {wr : Bool} {lo hi : Nat}

theorem State.calm_port (s : State) (w : Who) (p : Nat) (wr : Bool) (lo hi : Nat) : s.calm (w.at_ p) wr lo hi = s.calm w wr lo hi := rfl

theorem View.within_at {v : View} {np : Nat} {ixs : List (List Nat)} (h : v.within np lo hi ixs = true) {ix : List Nat}
    (hi' : ix ∈ ixs) : (v.loc np ix).within lo hi = true := by
  simp only [View.within, List.all_eq_true] at h
  exact h ix hi'

theorem View.within_sub {v : View} {np : Nat} {a b : List (List Nat)} (h : v.within np lo hi a = true) (hs : ∀ ix ∈ b, ix ∈ a) :
    v.within np lo hi b = true := by
  simp only [View.within, List.all_eq_true] at h ⊢
  exact fun ix hx => h ix (hs ix hx)

theorem View.writable_sub {v : View} {np : Nat} {a b : List (List Nat)} (h : v.writable np lo hi a = true)
    (hs : ∀ ix ∈ b, ix ∈ a) : v.writable np lo hi b = true := by
  unfold View.writable at h ⊢
  have hb : ∀ ix ∈ b.flatMap (fun ix => (List.range 32).map (blockIx (blockStart v ix))),
      ix ∈ a.flatMap (fun ix => (List.range 32).map (blockIx (blockStart v ix))) := by
    intro ix hx
    obtain ⟨y, hy, hx⟩ := List.mem_flatMap.1 hx
    exact List.mem_flatMap.2 ⟨y, hs y hy, hx⟩
  split at h
  · rename_i hf
    rw [if_pos hf]
    rw [Bool.and_eq_true] at h
    exact (Bool.and_eq_true _ _).mpr ⟨View.within_sub h.1 hb, View.within_sub h.2 hb⟩
  · rename_i hf
    rw [if_neg hf]
    exact View.within_sub h hs

theorem mem_pairs {k m p r : Nat} (hp : p < k) (hr : r < m) : [p, r] ∈ pairs k m :=
  List.mem_flatMap.2 ⟨r, List.mem_range.2 hr, List.mem_map.2 ⟨p, List.mem_range.2 hp, rfl⟩⟩

theorem mem_cells {v : View} {i : Nat} (h : i < v.count) : v.unravel i ∈ v.cells := List.mem_map.2 ⟨i, List.mem_range.2 h, rfl⟩

theorem readAll_ends (h : s0.calm w wr lo hi = true) {v : View} {np : Nat} {rc : Recon} : ∀ (l : List (List Nat)),
    v.within np lo hi l = true → (readAll w v np rc l).Ends (Kept s0) (fun _ => True)
  | [], _ => EM.ends_pure trivial
  | ix :: t, hl =>
    (readElem_ends h (View.within_at hl (by simp))).bind fun _ _ =>
      (readAll_ends h t (View.within_sub hl (by simp +contextual))).bind fun _ _ => EM.ends_pure trivial

end common

/-! ## MMUL -/

/-- Writes of the accumulators end. -/
theorem mmulWork_done {s : State} {j l : Nat} {e : Eng} {f : Flight} {lo hi : Nat} (h : s.mmulReady j l e f lo hi) :
    (mmulWork j l e f).Done s := by
  obtain ⟨hc, ha, hb, h2, h1, ho⟩ := h
  unfold mmulWork
  extract_lets c fa fb k m n planes rc fillW fill va vb aRow bCol fills init chain vl rows cols vo pads
  refine EM.Ends.bindDone (P := Kept s) (EM.ends_mapM (Q := fun _ => True) _ fun r hr => ?_) (Kept.refl s) fun as r1 k1 _ =>
    EM.Ends.bindDone (P := Kept s) (EM.ends_mapM (Q := fun _ => True) _ fun q hq => ?_) k1 fun bs r2 k2 _ => ?_
  · exact e.at_ends 0 r (readAll_ends (w := e.who.at_ 0) hc _ (View.within_sub ha fun ix hx => by
      obtain ⟨p, hp, rfl⟩ := List.mem_map.1 hx
      exact mem_pairs (List.mem_range.1 hp) (List.mem_range.1 hr)))
  · exact e.at_ends 0 q (readAll_ends (w := e.who.at_ 1) hc _ (View.within_sub hb fun ix hx => by
      obtain ⟨p, hp, rfl⟩ := List.mem_map.1 hx
      exact mem_pairs (List.mem_range.1 hp) (List.mem_range.1 hq)))
  refine EM.Ends.bindDone (P := Kept s) EM.ends_get k2 fun s0 r3 k3 hs0 => ?_
  extract_lets x0 set0 initOf rest
  have hn : init = 2 → x0.accBad.find? (fun i => i / 32768 == set0) = none := by
    intro hi
    have hx : x0.bare.accBad = (s.ctx j l).bare.accBad := congrArg TileState.accBad (hs0.ctx j l)
    rw [show x0.accBad = [] from hx.trans (h2 hi)]
    rfl
  have hr : (rest ()).Done r3 := by
    have hinit : ∀ r q, r < rows → q < cols → (initOf r q).Ends (Kept s) (fun _ => True) := by
      intro r q hr hq
      simp only [initOf]
      split
      · exact EM.ends_pure trivial
      · split
        · rename_i h1'
          split
          · rename_i hrq
            exact (e.at_ends 0 _ (readCode_ends (w := e.who.at_ 2) hc (View.within_at (h1 h1') (mem_pairs hrq.2 hrq.1)))).bind
              fun _ _ => EM.ends_pure trivial
          · exact EM.ends_pure trivial
        · exact EM.ends_pure trivial
    simp only [rest]
    refine EM.Ends.bindDone (P := Kept s) (EM.ends_mapM (Q := fun _ => True) _ fun r hr =>
      (EM.ends_mapM (Q := fun _ => True) _ fun q hq => (hinit r q (List.mem_range.1 hr) (List.mem_range.1 hq)).bind
        fun _ _ => EM.ends_pure trivial).weaken fun _ _ => trivial) k3 fun outs r4 k4 _ => ?_
    split
    · exact (EM.done_modify _).map _
    · rename_i hch
      have hz : cf f.cmd 4 6 6 = 0 := by
        have h1 : cf f.cmd 4 6 6 < 2 := Nat.mod_lt _ (by decide)
        have h2 : ¬ cf f.cmd 4 6 6 = 1 := by simpa [chain] using hch
        omega
      refine EM.Ends.bindDone (P := Kept s) (Eng.writes_ends hc _ _ _ _ _ (np := 0) (View.writable_sub (ho hz) ?_)) k4
        fun _ r5 _ _ => (EM.done_modify _).map _
      intro ix hx
      rw [List.map_append] at hx
      rcases List.mem_append.1 hx with hx | hx
      · refine List.mem_append_left _ ?_
        obtain ⟨x, hx2, rfl⟩ := List.mem_map.1 hx
        obtain ⟨q, hq, hx3⟩ := List.mem_flatMap.1 hx2
        obtain ⟨r, hr, rfl⟩ := List.mem_map.1 hx3
        exact mem_pairs (List.mem_range.1 hq) (List.mem_range.1 hr)
      · refine List.mem_append_right _ ?_
        simp only [pads] at hx
        split at hx
        · rename_i h3
          rw [if_pos h3]
          simpa using hx
        · simp at hx
  split
  · rename_i hi
    rw [hn hi]
    exact hr
  · exact hr

/-! ## Vector operations -/

section vec
variable {s0 : State} {e : Eng} {lo hi : Nat}

theorem Eng.reads_ends (h : s0.calm e.who true lo hi = true) {v : View} (hv : v.within v.fmt.bits lo hi v.cells = true) :
    (e.reads v).Ends (Kept s0) (fun l => l.length = v.count) :=
  (EM.ends_mapM (Q := fun _ => True) _ fun i hi' => e.at_ends 0 i (readElem_ends h
    (View.within_at hv (mem_cells (List.mem_range.1 hi'))))).weaken fun l hl => by rw [hl.1, List.length_range]

theorem viewElems_ix (v : View) (xs : List FVal) : ∀ x ∈ viewElems v xs, ∃ i < xs.length, x.ix = v.unravel i := by
  intro x hx
  obtain ⟨p, hp, rfl⟩ := List.mem_map.1 hx
  have := List.snd_lt_of_mem_zipIdx hp
  exact ⟨p.2, by omega, rfl⟩

theorem fillElems_ix (v : View) (pad n : Nat) (fill : FVal) :
    (fillElems v (pad == 1) n fill).map (·.ix) = padIx v pad n := by
  unfold fillElems padIx
  by_cases h : pad = 1
  · simp [h, Function.comp_def]
  · simp [h]

/-- A result of as many elements as n, with its padding, is written. -/
theorem putVec_ends (h : s0.calm e.who true lo hi = true) {v : View} {n pad blk np : Nat} {fill : FVal} (rm : RM) (ov : Ovf)
    (keep : Bool) {xs : List FVal} (hx : xs.length ≤ n)
    (hv : v.writable np lo hi ((List.range n).map v.unravel ++ padIx v pad blk) = true) :
    (e.writes v rm ov keep (viewElems v xs) (fillElems v (pad == 1) blk fill)).Ends (Kept s0) (fun _ => True) := by
  refine Eng.writes_ends h _ _ _ _ _ (View.writable_sub hv fun ix hi' => ?_)
  rw [List.map_append, fillElems_ix] at hi'
  rcases List.mem_append.1 hi' with hi' | hi'
  · obtain ⟨x, hx', rfl⟩ := List.mem_map.1 hi'
    obtain ⟨i, hl, e⟩ := viewElems_ix v xs x hx'
    rw [e]
    exact List.mem_append_left _ (List.mem_map.2 ⟨i, List.mem_range.2 (by omega), rfl⟩)
  · exact List.mem_append_right _ hi'

theorem vecWork_ends {s : State} {ord : RedOrder} {blk : View → Nat} {f : Flight} (h : s.vecReady blk e f lo hi) :
    (vecWork ord blk e f).Ends (Kept s) (fun _ => True) := by
  obtain ⟨hc, hr, hx, hy, hz, ho, hw⟩ := h
  unfold vecWork
  extract_lets c op o vx vy vz vo rm ov pad fill sc reads get put last bf prim
  have hreads : ∀ v : View, v.within v.fmt.bits lo hi v.cells = true → (reads v).Ends (Kept s) (fun l => l.length = v.count) :=
    fun v hv => (Eng.reads_ends hc hv).bind fun l hl => EM.ends_pure (by rw [List.length_map, hl])
  refine (hreads vx hx).bind fun xs hxs => ?_
  extract_lets jy
  have hjy : ∀ ys, (jy ys).Ends (Kept s) (fun _ => True) := by
    intro ys
    unfold jy
    extract_lets jz
    have hjz : ∀ zs, (jz zs).Ends (Kept s) (fun _ => True) := by
      intro zs
      simp only [jz]
      split
      · rename_i h30
        obtain ⟨h1, h2, h3⟩ := hw h30
        refine (hreads vo h1).bind fun ws _ => ?_
        have hl : ∀ g : FVal × FVal × FVal → FVal, (List.map g (xs.zipIdx.map (fun p =>
            adamw rm sc p.1 (get ys p.2) (get zs p.2) (get ws p.2)))).length ≤ vx.count := fun g => by simp [hxs]
        exact (putVec_ends hc _ _ _ (hl _) h2).bind fun _ _ => (putVec_ends hc _ _ _ (hl _) h3).bind fun _ _ =>
          (putVec_ends hc _ _ _ (hl _) ho).bind fun _ _ => EM.ends_pure trivial
      · refine (putVec_ends hc _ _ _ ?_ ho).bind fun _ _ => EM.ends_pure trivial
        rw [if_neg (by rw [hr]; simp), List.length_map, List.length_zipIdx, hxs]
    split
    · exact (hreads vz (hz (by assumption))).bind fun zs _ => hjz zs
    · exact (EM.ends_pure (Q := fun _ => True) trivial).bind fun zs _ => hjz zs
  split
  · exact (hreads vy (hy (by assumption))).bind fun ys _ => hjy ys
  · exact (EM.ends_pure (Q := fun _ => True) trivial).bind fun ys _ => hjy ys

end vec

/-! ## DMA -/

section dma
variable {s s0 : State} {e : Eng} {lo hi ro rhi : Nat}

theorem readDatum_ends {w : Who} {wr : Bool} (h : s0.calm w wr lo hi = true) {v : View} {np : Nat} {ix : List Nat}
    (hl : (v.loc np ix).within lo hi = true) : (readDatum w v np ix).Ends (Kept s0) (fun _ => True) :=
  (readCode_ends h hl).bind fun _ _ => EM.ends_pure trivial

/-- A block that is moved gives pieces in the range where all its positions lie there. -/
theorem moveBlock_ends (h : s0.calm e.who true lo hi = true) (tile : Nat) {v : View} {np : Nat} (pos ent : Nat)
    (ws : List WItem) {b : List Nat}
    (hb : ∀ i < 32, (v.loc np (blockIx b i)).within lo hi = true ∧ (v.loc v.fmt.bits (blockIx b i)).within lo hi = true) :
    (moveBlock e tile v np pos ent ws b).Ends (Kept s0) (fun ps => ∀ p ∈ ps, p.inside lo hi) := by
  unfold moveBlock
  extract_lets f
  refine EM.Ends.bind (Q := fun vals : List (Option (List Nat × Datum)) => ∀ x ∈ vals, ∀ y, x = some y →
    (v.loc np y.1).within lo hi = true) (atTile_ends _ (e.at_ends 0 _ ?_)) fun vals hv => ?_
  · refine (EM.ends_mapM (Q := fun x : Option (List Nat × Datum) => ∀ y, x = some y →
      (v.loc np y.1).within lo hi = true) _ fun i hi' => ?_).weaken fun _ r => r.2
    obtain ⟨h1, h2⟩ := hb i (List.mem_range.1 hi')
    extract_lets ix
    split
    · refine EM.ends_pure fun y hy => ?_
      rw [← Option.some.inj hy]
      exact h1
    · refine (storedElem_ends h h2).bind fun o _ => EM.ends_pure ?_
      intro y hy
      obtain ⟨x, -, rfl⟩ := Option.map_eq_some_iff.1 hy
      exact h1
  · extract_lets ms ds put
    have hput : ∀ x codes, ∀ p ∈ put x codes, p.inside lo hi := by
      intro x codes
      refine codePieces_inside _ _ _ _ _ _ _ _ ?_ ?_
      · have := (hb 0 (by decide)).1
        rwa [blockIx_zero] at this
      · intro c hc
        obtain ⟨y, hy, e⟩ := List.mem_map.1 (List.of_mem_zip hc).1
        obtain ⟨x, hx, e2⟩ := List.mem_filterMap.1 hy
        rw [← e]
        exact hv x hx y e2
    split
    · exact EM.ends_pure (hput _ _)
    · exact EM.ends_pure (hput _ _)

/-- Items that go to one destination in the range are written. -/
theorem putItems_ends (h : s0.calm e.who true lo hi = true) {t np : Nat} {v : View} (ov : Ovf) (keep : Bool) (ws : List WItem)
    (hv : v.writable np lo hi (ws.map (·.ix)) = true) : (putItems e [(t, v)] np ov keep ws).Ends (Kept s0) (fun _ => True) := by
  unfold putItems
  dsimp only
  split
  · rename_i hb
    refine EM.Ends.bind (readUntil_ends (Q := fun ps : List Piece => ∀ p ∈ ps, p.inside lo hi) _ fun b hbm => ?_)
      (fun r hr => ?_)
    · split
      · refine EM.Ends.bind (EM.ends_mapM (Q := fun ps : List Piece => ∀ p ∈ ps, p.inside lo hi) _ fun t ht => ?_)
          fun l hl => EM.ends_pure ?_
        · rw [List.mem_singleton] at ht
          subst ht
          obtain ⟨ix, hix, rfl⟩ := blocksOf_mem v _ b hbm
          exact moveBlock_ends h _ _ _ _ fun i hi32 => View.writable_block hv hb hix i hi32
        · intro p hp
          obtain ⟨ps, h1, h2⟩ := List.mem_flatten.1 hp
          exact hl.2 ps h1 p h2
      · exact EM.ends_pure (by simp)
    · obtain ⟨ps, o⟩ := r
      obtain ⟨rfl, -, hq⟩ := hr
      refine (writePieces_ends h _ ?_).bind fun _ _ => raise_ends
      intro p hp
      obtain ⟨l, hl, hpl⟩ := List.mem_flatten.1 hp
      exact hq l hl p hpl
  · rename_i hb
    refine writePieces_ends h _ fun p hp => ?_
    obtain ⟨x, hx, hp⟩ := List.mem_flatMap.1 hp
    obtain ⟨t, ht, hp⟩ := List.mem_flatMap.1 hp
    rw [List.mem_singleton] at ht
    subst ht
    exact partPieces_inside _ _ _ _ _ ((Loc.within_iff _).1 (View.writable_plain hv (by simpa using hb)
      (List.mem_map_of_mem hx))).1 p hp

theorem moveWork_ends {f : Flight} {np wnp : Nat} {mv : Bool} (h : s.moveReady e f np wnp lo hi) :
    (moveWork noLimit e f np wnp mv).Ends (Kept s) (fun _ => True) := by
  obtain ⟨hc, hm, hs, hd⟩ := h
  unfold moveWork
  extract_lets c sv dv keepRaw
  refine EM.Ends.bind (Q := fun tg => tg = [(255, dv)]) ?_ ?_
  · unfold targets
    dsimp only
    rw [if_pos (show cf c 4 63 0 = 0 from hm)]
    exact EM.ends_pure rfl
  rintro _ rfl
  refine EM.Ends.bind (readUntil_ends (Q := fun x : WItem => x.ix ∈ dv.cells) _ fun i hi' => ?_) fun r hr => ?_
  · have hi2 : dv.unravel i ∈ dv.cells := mem_cells (by have := List.mem_range.1 hi'; omega)
    extract_lets ix
    split
    · rename_i jx hj
      exact (e.at_ends 0 i (readDatum_ends hc (View.within_at hs (List.mem_filterMap.2 ⟨_, hi2, hj⟩)))).bind fun d _ =>
        EM.ends_pure hi2
    · exact EM.ends_pure hi2
  · obtain ⟨ws, o⟩ := r
    obtain ⟨rfl, -, hq⟩ := hr
    refine (putItems_ends hc _ _ _ (View.writable_sub hd fun ix hx => ?_)).bind fun _ _ => raise_ends.bind fun _ _ =>
      EM.ends_pure trivial
    obtain ⟨x, hx2, rfl⟩ := List.mem_map.1 hx
    exact hq x hx2

/-- An index that is clamped or skipped beyond the rows names one of them, or none. -/
theorem indexEntry_row {mode d : Nat} {i : Int} (hm : mode = 2 ∨ mode = 3) (hd : 1 ≤ d) :
    (∃ k < d, indexEntry mode d i = .row k) ∨ indexEntry mode d i = .skip := by
  have h1 : ¬ (mode = 1 ∧ i < 0) := by omega
  unfold indexEntry
  rw [if_neg h1]
  dsimp only
  split
  · rename_i hi
    exact .inl ⟨i.toNat, by omega, rfl⟩
  · split
    · refine .inl ⟨_, ?_, rfl⟩
      split <;> omega
    · rw [if_pos (by omega)]
      exact .inr rfl

theorem readEntry_ends {w : Bool} (h : s0.calm e.who w lo hi = true) {iv : View} {mode d p : Nat} (hm : mode = 2 ∨ mode = 3)
    (hd : 1 ≤ d) (hv : iv.within 0 lo hi iv.cells = true) (hp : p < iv.count) :
    (readEntry e iv mode d p).Ends (Kept s0) (fun r => (∃ k < d, r = .row k) ∨ r = .skip) := by
  refine (e.at_ends 0 p (readCode_ends h (View.within_at hv (mem_cells hp)))).bind fun r _ => ?_
  obtain ⟨c, x⟩ := r
  dsimp only
  rcases indexEntry_row (i := sext iv.fmt.bits c) hm hd with ⟨k, hk, e⟩ | e
  · rw [e]
    exact EM.ends_pure (.inl ⟨k, hk, rfl⟩)
  · rw [e]
    exact EM.ends_pure (.inr rfl)

/-- Rows that go to places in the range are written, with their padding. -/
theorem putRows_ends (h : s0.calm e.who true lo hi = true) {k : IdxCmd} {rows : List (List WItem)}
    {ixs : List (List Nat)} (hr : ∀ r ∈ rows, ∀ x ∈ r, x.ix ∈ ixs)
    (hv : k.dv.writable k.dv.fmt.bits lo hi (ixs ++ k.pads.map (·.ix)) = true) :
    (putRows e k rows none).Ends (Kept s0) (fun _ => True) := by
  refine (putItems_ends h _ _ _ (View.writable_sub hv fun ix hx => ?_)).bind fun _ _ => raise_ends.bind fun _ _ =>
    EM.ends_pure trivial
  rw [List.map_append] at hx
  rcases List.mem_append.1 hx with hx | hx
  · obtain ⟨x, hx2, rfl⟩ := List.mem_map.1 hx
    obtain ⟨r, hr1, hr2⟩ := List.mem_flatten.1 hx2
    exact List.mem_append_left _ (hr r hr1 x hr2)
  · exact List.mem_append_right _ hx

theorem gatherWork_ends {k : IdxCmd} (h : s.gatherReady e k lo hi ro rhi) :
    (gatherWork noLimit e k).Ends (Kept s) (fun _ => True) := by
  obtain ⟨hc, hr, hm, hd, hi, hs, hv⟩ := h
  unfold gatherWork
  refine EM.Ends.bind (readUntil_ends (Q := fun r : List WItem => ∀ x ∈ r, x.ix ∈
    (List.range k.iv.count).flatMap (rowIndices k.dv k.dim)) _ fun p hp => ?_) fun r hr => ?_
  · have hp : p < k.iv.count := by have := List.mem_range.1 hp; omega
    refine (readEntry_ends hc hm hd hi hp).bind fun r hrow => ?_
    refine (EM.ends_mapM (Q := fun x : WItem => x.ix ∈ rowIndices k.dv k.dim p) _ fun ix hx => ?_).weaken
      fun l hl x hx => List.mem_flatMap.2 ⟨p, List.mem_range.2 hp, hl.2 x hx⟩
    rcases hrow with ⟨i, hik, rfl⟩ | rfl
    · exact (e.at_ends 0 _ (readDatum_ends hr (hs p hp ix hx i hik))).bind fun d _ => EM.ends_pure hx
    · exact EM.ends_pure hx
  · obtain ⟨rows, o⟩ := r
    obtain ⟨rfl, -, hq⟩ := hr
    exact putRows_ends hc hq hv

/-- The rows of a scatter's source are read, and their items go to rows of the destination. -/
theorem scatterRow_ends {w : Bool} (h : s0.calm e.who w ro rhi = true) {k : IdxCmd} (hm : k.mode = 2 ∨ k.mode = 3) (hd : 1 ≤ k.d)
    (hi : k.iv.within 0 ro rhi k.iv.cells = true)
    (hs : k.sv.within k.sv.fmt.bits ro rhi ((List.range k.iv.count).flatMap (rowIndices k.sv k.dim)) = true) {p : Nat}
    (hp : p < k.iv.count) : (scatterRow e k p).Ends (Kept s0) (fun r => ∀ x ∈ r,
      ∃ ix ∈ rowIndices k.sv k.dim p, ∃ i < k.d, x.ix = listSet ix k.dim i) := by
  refine (readEntry_ends h hm hd hi hp).bind fun r hrow => ?_
  rcases hrow with ⟨i, hik, rfl⟩ | rfl
  · refine (EM.ends_mapM (Q := fun x : WItem => ∃ ix ∈ rowIndices k.sv k.dim p, ∃ i < k.d, x.ix = listSet ix k.dim i) _
      fun ix hx => ?_).weaken fun l hl => hl.2
    exact (e.at_ends 0 _ (readDatum_ends h (View.within_at hs (List.mem_flatMap.2 ⟨p, List.mem_range.2 hp, hx⟩)))).bind
      fun d _ => EM.ends_pure ⟨ix, hx, i, hik, rfl⟩
  · exact EM.ends_pure (by simp)

theorem scatterWork_ends {k : IdxCmd} (h : s.scatterReady e k lo hi ro rhi) :
    (scatterWork noLimit e k).Ends (Kept s) (fun _ => True) := by
  obtain ⟨hc, hr, hm, hd, hi, hs, hv⟩ := h
  unfold scatterWork
  refine EM.Ends.bind (readUntil_ends (Q := fun r : List WItem => ∀ x ∈ r, x.ix ∈
    (List.range k.iv.count).flatMap (fun p => (rowIndices k.sv k.dim p).flatMap (fun ix =>
      (List.range k.d).map (listSet ix k.dim)))) _ fun p hp => ?_) fun r hr => ?_
  · have hp : p < k.iv.count := by have := List.mem_range.1 hp; omega
    refine (scatterRow_ends hr hm hd hi hs hp).weaken fun l hl x hx => ?_
    obtain ⟨ix, hix, i, hik, e⟩ := hl x hx
    rw [e]
    exact List.mem_flatMap.2 ⟨p, List.mem_range.2 hp, List.mem_flatMap.2 ⟨ix, hix, List.mem_map.2 ⟨i, List.mem_range.2 hik, rfl⟩⟩⟩
  · obtain ⟨rows, o⟩ := r
    obtain ⟨rfl, -, hq⟩ := hr
    exact putRows_ends hc hq hv

theorem Kept.slots (s : State) (x : SMap Slot) : Kept s { s with slots := x } := ⟨rfl, fun _ => rfl, fun _ => rfl, fun _ => rfl⟩

/-- A contribution to a slot of the job's range in a stack that is not plain is made (R211, R216). -/
theorem contribute_ends {n i : Nat} (hp : s0.perfOff = true) (hn : n < 16) (hpl : s0.plain n = false)
    (hi : i < s0.f (VRG_JOB_SLOTS.COUNT n (e.who.job.getD 0))) (v : FVal) :
    (contribute e n i v).Ends (Kept s0) (fun _ => True) := by
  intro s hs
  have h1 : s.plain n = false := (hs.same (fun x => x.plain n) (fun _ => rfl)).trans hpl
  have h2 : s.jobSlot (e.who.job.getD 0) n i = some (s.f (VRG_JOB_SLOTS.BASE n (e.who.job.getD 0)) + i) := by
    unfold State.jobSlot
    rw [if_pos (by rw [hs.f]; exact hi)]
  have h3 : ∀ k x, (s.setSlot n k x).perfOff = true := fun k x => (hs.trans (Kept.slots s _)).perfOff.trans hp
  refine ⟨⟨⟩, s.setSlot n (s.f (VRG_JOB_SLOTS.BASE n (e.who.job.getD 0)) + i)
    ((s.slot n (s.f (VRG_JOB_SLOTS.BASE n (e.who.job.getD 0)) + i)).add v), ?_, hs.trans (Kept.slots s _), trivial⟩
  unfold contribute
  refine EM.go_bind_ok (EM.go_get s) ?_
  rw [h1, h2]
  dsimp only
  rw [State.vrgEvent_off (h3 _ _) hn]
  rfl

theorem accWork_ends {k : IdxCmd} (h : s.accReady e k ro rhi) : (accWork noLimit e k).Ends (Kept s) (fun _ => True) := by
  obtain ⟨hc, hm, hd, hx, hn, hpl, hi, hs, hsl⟩ := h
  unfold accWork
  refine EM.Ends.bind (readUntil_ends (Q := fun r : List WItem => ∀ x ∈ r,
    k.slot + k.dv.ravel x.ix < s.f (VRG_JOB_SLOTS.COUNT k.stack (e.who.job.getD 0))) _ fun p hp => ?_) fun r hr => ?_
  · have hp : p < k.iv.count := by have := List.mem_range.1 hp; omega
    refine (scatterRow_ends hc hm hd hi hs hp).weaken fun l hl x hx => ?_
    obtain ⟨ix, hix, i, hik, e⟩ := hl x hx
    rw [e]
    exact hsl p hp ix hix i hik
  · obtain ⟨rows, o⟩ := r
    obtain ⟨rfl, -, hq⟩ := hr
    refine (EM.ends_forM _ fun r hr => allOrNone_ends _ fun x hxr => ?_).bind fun _ _ => raise_ends.bind fun _ _ => ?_
    · unfold contributeItem
      rw [if_pos hx]
      exact e.at_ends 2 _ (atEntry_ends _ (contribute_ends (s.calm_perf hc).1 hn hpl (hq r hr x hxr) _))
    · simp only [hx, Bool.not_true, Bool.false_eq_true, if_false]
      exact EM.ends_pure trivial

end dma

/-! ## Values that steer -/

section vals
variable {s : State} {w : Who} {wr : Bool} {lo hi : Nat}

theorem State.byteAt_gran (s : State) (g : SMap Nat) (w : Who) (a : Nat) :
    State.byteAt (s.gran g) w a = s.byteAt w a := rfl

theorem State.natAt_gran (s : State) (g : SMap Nat) (w : Who) (a n : Nat) :
    State.natAt (s.gran g) w a n = s.natAt w a n := rfl

theorem State.partsAt_gran (s : State) (g : SMap Nat) (w : Who) : ∀ l : List (Nat × Nat),
    State.partsAt (s.gran g) w l = s.partsAt w l
  | [] => rfl
  | (o, n) :: t => by
    unfold State.partsAt State.bitsAt
    rw [State.natAt_gran, State.partsAt_gran s g w t]

theorem State.codeAt_gran (s : State) (g : SMap Nat) (w : Who) (v : View) (np : Nat) (ix : List Nat) :
    State.codeAt (s.gran g) w v np ix = s.codeAt w v np ix := State.partsAt_gran s g w _

theorem readBits_calm (h : s.calm w wr lo hi = true) {o n : Nat} (h0 : 1 ≤ n) (h1 : 8 * lo ≤ o) (h2 : o + n ≤ 8 * hi) :
    ∃ g, (readBits w o n).go s = (.ok (s.bitsAt w o n), (s.gran g)) := by
  obtain ⟨g, e⟩ := jobRead_calm h (a := o / 8) (n := (o + n - 1) / 8 - o / 8 + 1) (by omega) (by omega)
  refine ⟨g, ?_⟩
  unfold readBits
  exact EM.go_bind_ok e rfl

theorem readParts_calm : ∀ (l : List (Nat × Nat)) {s : State}, s.calm w wr lo hi = true →
    (∀ p ∈ l, 1 ≤ p.2 ∧ 8 * lo ≤ p.1 ∧ p.1 + p.2 ≤ 8 * hi) →
    ∃ g, (readParts w l).go s = (.ok (s.partsAt w l), (s.gran g))
  | [], s, _, _ => ⟨s.lastGran, rfl⟩
  | (o, n) :: t, s, h, hl => by
    obtain ⟨h0, h1, h2⟩ := hl (o, n) (by simp)
    obtain ⟨g, e⟩ := readBits_calm h h0 h1 h2
    obtain ⟨g', e'⟩ := readParts_calm t (((Kept.gran s g).calm w wr lo hi).trans h) (fun p hp => hl p (by simp [hp]))
    rw [State.partsAt_gran] at e'
    refine ⟨g', ?_⟩
    unfold readParts
    exact EM.go_bind_ok e (EM.go_bind_ok e' rfl)

/-- The code of an element without a scale is read as it stands in memory. -/
theorem readCode_calm (h : s.calm w wr lo hi = true) {v : View} {np : Nat} {ix : List Nat}
    (hl : (v.loc np ix).within lo hi = true) :
    ∃ x g, (readCode w v np ix).go s = (.ok (s.codeAt w v np ix, x), (s.gran g)) := by
  rw [Loc.within_iff] at hl
  unfold readCode
  dsimp only
  cases hs : (v.loc np ix).scale with
  | none =>
    obtain ⟨g, e⟩ := readParts_calm _ h hl.1
    exact ⟨0, g, EM.go_bind_ok rfl (EM.go_bind_ok e rfl)⟩
  | some a =>
    obtain ⟨h1, h2⟩ := hl.2 a hs
    obtain ⟨g, e⟩ := jobRead_calm h (n := 1) h1 (by omega)
    obtain ⟨g', e'⟩ := readParts_calm _ (((Kept.gran s g).calm w wr lo hi).trans h) hl.1
    rw [State.partsAt_gran] at e'
    exact ⟨_, g', EM.go_bind_ok e (EM.go_bind_ok rfl (EM.go_bind_ok e' rfl))⟩

theorem Eng.go_at {α : Type} (e : Eng) (dir pos : Nat) {x : EM α} {a : α} {s r : State} (h : x.go s = (.ok a, r)) :
    (e.at_ dir pos x).go s = (.ok a, r) := EM.go_tryCatch_ok h

theorem listWork_done {e : Eng} {f : Flight} (h : s.listReady e f lo hi) : (listWork noLimit e f).Done s := by
  unfold listWork
  extract_lets iv
  obtain ⟨hc, hn, hv, hw, h1, h2, h3, h4⟩ := h
  obtain ⟨x0, g0, e0⟩ := readCode_calm hc (View.within_at hv (ix := iv.unravel (2 * 0)) (by simp [iv]))
  obtain ⟨x1, g1, e1⟩ := readCode_calm (((Kept.gran s g0).calm e.who true lo hi).trans hc)
    (View.within_at hv (ix := iv.unravel (2 * 0 + 1)) (by simp [iv]))
  rw [State.codeAt_gran] at e1
  have k1 : Kept s (s.gran g1) := Kept.gran s g1
  obtain ⟨g2, e2⟩ := jobRead_calm (((Kept.gran s g1).calm e.who true lo hi).trans hc)
    (a := s.codeAt e.who iv 0 (iv.unravel (2 * 0)))
    (n := s.codeAt e.who iv 0 (iv.unravel (2 * 0 + 1)) / 2 ^ 48 + 1) h1 h2
  have hp := writePieces_ends (((Kept.gran s g2).calm e.who true lo hi).trans hc)
    [bytePiece 0 0 (s.codeAt e.who iv 0 (iv.unravel (2 * 0 + 1)) % 2 ^ 48) (State.bytesAt (s.gran g1) e.who
      (s.codeAt e.who iv 0 (iv.unravel (2 * 0))) (s.codeAt e.who iv 0 (iv.unravel (2 * 0 + 1)) / 2 ^ 48 + 1))] (by
      intro p hp
      rw [List.mem_singleton] at hp
      subst hp
      unfold Piece.inside bytePiece State.bytesAt
      dsimp only
      rw [List.length_map, List.length_range]
      change lo ≤ s.codeAt e.who iv 0 (iv.unravel (2 * 0 + 1)) % 2 ^ 48 at h3
      change s.codeAt e.who iv 0 (iv.unravel (2 * 0 + 1)) % 2 ^ 48 + (s.codeAt e.who iv 0 (iv.unravel (2 * 0 + 1)) / 2 ^ 48 + 1) ≤ hi at h4
      omega)
  obtain ⟨a, r, e3⟩ := hp.done (Kept.refl _)
  rw [show iv.count / 2 = 1 from hn, show List.range (min noLimit 1) = [0] from rfl]
  refine EM.Done.map ⟨⟨⟩, r, ?_⟩ _
  refine EM.go_bind_ok (a := ⟨⟩) ?_ rfl
  unfold listEntry
  refine EM.go_bind_ok (e.go_at 0 0 e0) (EM.go_bind_ok (e.go_at 0 0 e1) ?_)
  extract_lets a'
  have hz : (s.codeAt e.who iv 0 (iv.unravel (2 * 0)) / 2 ^ 48 != 0) = false := by
    rw [Nat.div_eq_of_lt (show s.codeAt e.who iv 0 (iv.unravel (2 * 0)) < 2 ^ 48 from hw)]
    rfl
  dsimp only
  rw [hz]
  exact EM.go_bind_ok (e.go_at 0 0 e2) e3

end vals

/-! ## Attention -/

section att
variable {s s0 : State} {e : Eng} {wr : Bool} {lo hi ro rhi : Nat}

theorem readVec_ends (h : s0.calm e.who wr lo hi = true) (port : Nat) {v : View} {dh i1 i2 : Nat}
    (hv : v.within v.fmt.bits lo hi (vecIx dh i1 i2) = true) :
    (readVec e port v dh i1 i2).Ends (Kept s0) (fun l => l.length = dh) :=
  (EM.ends_mapM (Q := fun _ => True) _ fun _ hx => e.at_ends 0 _ (readElem_ends (w := e.who.at_ port) h
    (View.within_at hv hx))).weaken fun l hl => by rw [hl.1]; simp [vecIx]

theorem mem_queryIx {dh gq r n t h : Nat} {ix : List Nat} (ht : t < n) (hh : h < gq) (hx : ix ∈ vecIx dh h (r + t)) :
    ix ∈ queryIx dh gq r n :=
  List.mem_flatMap.2 ⟨t, List.mem_range.2 ht, List.mem_flatMap.2 ⟨h, List.mem_range.2 hh, hx⟩⟩

theorem mem_keyIx {dh r n d : Nat} {ix : List Nat} (hd : d < n) (hx : ix ∈ vecIx dh 0 (r + d)) : ix ∈ keyIx dh r n :=
  List.mem_flatMap.2 ⟨d, List.mem_range.2 hd, hx⟩

theorem attendSeq_ends (h : s0.calm e.who true lo hi = true) {qv ov : View} {scale : FVal} {mask window dh gq : Nat}
    {q : SeqEnt} {kv : List KvPos} (hq : qv.within qv.fmt.bits lo hi (queryIx dh gq q.row0 q.nq) = true)
    (ho : ov.writable ov.fmt.bits lo hi (queryIx dh gq q.row0 q.nq) = true) :
    (attendSeq e qv ov scale mask window dh gq q kv).Ends (Kept s0) (fun _ => True) := by
  unfold attendSeq
  refine EM.ends_forM _ fun t ht => EM.ends_forM _ fun g hg => ?_
  have ht := List.mem_range.1 ht
  have hg := List.mem_range.1 hg
  refine (readVec_ends h 0 (View.within_sub hq fun ix hx => mem_queryIx ht hg hx)).bind fun x _ => ?_
  refine Eng.writes_ends h _ _ _ _ _ (View.writable_sub ho fun ix hx => ?_)
  rw [List.append_nil, List.map_map] at hx
  obtain ⟨p, hp, rfl⟩ := List.mem_map.1 hx
  exact mem_queryIx ht hg (List.of_mem_zip hp).1

theorem attWork_ends {f : Flight} (h : s.attReady e f lo hi) : (attWork e f).Ends (Kept s) (fun _ => True) := by
  obtain ⟨hc, hl, h1, h2, h3, h4, h5, h6, hq, hk, hv, ho⟩ := h
  unfold attWork
  extract_lets c qv ov kv vv lv mask window dh gq nseq
  have hn : nseq = 1 := if_neg (by rw [show lv.named = false from hl]; simp)
  rw [hn]
  refine EM.Ends.bind (Q := fun _ => True) (EM.ends_forM _ fun i _ => ?_) fun _ _ => EM.ends_pure trivial
  rw [if_neg (by rw [show lv.named = false from hl]; simp)]
  refine EM.Ends.bind (Q := fun q => q = ⟨false, 0, qv.dim 2, cf c 6 41 21, 0, 0⟩) (EM.ends_pure rfl) ?_
  rintro _ rfl
  dsimp only
  rw [if_neg (by simp), if_neg]
  · refine EM.Ends.bind (EM.ends_mapM (Q := fun _ => True) _ fun d hd => ?_) fun kvs _ => attendSeq_ends hc hq ho
    have hd := List.mem_range.1 hd
    have hx : ∀ ix ∈ vecIx dh 0 (0 + (firstKey mask window (cf c 6 41 21) + d)), ix ∈ keyIx dh
        (firstKey mask window (cf c 6 41 21)) (cf c 6 41 21 + qv.dim 2 - firstKey mask window (cf c 6 41 21)) := fun ix hx =>
      mem_keyIx hd (by rwa [Nat.zero_add] at hx)
    exact (readVec_ends hc 1 (View.within_sub hk hx)).bind fun _ _ => (readVec_ends hc 1 (View.within_sub hv hx)).bind
      fun _ _ => EM.ends_pure trivial
  · simp only [SeqEnt.inRange, SeqEnt.rowsIn, Nat.zero_add]
    have a1 : decide (1 ≤ qv.dim 2) = true := decide_eq_true h1
    have a2 : decide (qv.dim 2 ≤ 2 ^ 20) = true := decide_eq_true h2
    have a3 : decide (cf c 6 41 21 + qv.dim 2 ≤ 2 ^ 20) = true := decide_eq_true h3
    have a4 : decide (qv.dim 2 ≤ ov.dim 2) = true := decide_eq_true h4
    have a5 : decide (cf c 6 41 21 + qv.dim 2 ≤ kv.dim 2) = true := decide_eq_true h5
    have a6 : decide (cf c 6 41 21 + qv.dim 2 ≤ vv.dim 2) = true := decide_eq_true h6
    simp only [a1, a2, a3, a4, a5, a6, Nat.le_refl, decide_true, Bool.and_self, Bool.not_true, Bool.false_eq_true,
      not_false_eq_true]

/-! ## Virga commands -/

theorem Kept.placeOk (h : Kept s0 s) (n : Nat) (res : Bool) (a : Nat) : s.placeOk n res a = s0.placeOk n res a := by
  unfold State.placeOk
  rw [h.region, h.stackBytes]

theorem Kept.misplaced (h : Kept s0 s) (n : Nat) (res : Bool) (v : View) : s.misplaced n res v = s0.misplaced n res v := by
  unfold State.misplaced
  simp only [h.placeOk]

theorem placeView_go {n : Nat} {res : Bool} (dir : Nat) {v : View} (h : s.misplaced n res v = none) :
    (placeView n res dir v).go s = (.ok ⟨⟩, s) := by
  unfold placeView
  refine EM.go_bind_ok (EM.go_get s) ?_
  rw [h]
  rfl

theorem placeView_ends {n : Nat} {res : Bool} (dir : Nat) {v : View} (h : s0.misplaced n res v = none) :
    (placeView n res dir v).Ends (Kept s0) (fun _ => True) := fun s hs => by
  exact ⟨⟨⟩, s, placeView_go dir ((hs.misplaced n res v).trans h), hs, trivial⟩

theorem vmvWork_ends {n : Nat} {f : Flight} (h : s.vmvReady n e f lo hi ro rhi) :
    (vmvWork n e f).Ends (Kept s) (fun _ => True) := by
  obtain ⟨hc, hr, hres, hdest, hpw, hpa, hpo, hw, ha, ho⟩ := h
  unfold vmvWork
  extract_lets c w a o r b epi res dest planes rc ov rm kk cols pads body place
  have hr0 : res = false := by rw [show res = (cf c 3 39 39 == 1) from rfl, show cf c 3 39 39 = 0 from hres]; rfl
  have hd0 : dest = 0 := hdest
  have hbody : (body ()).Ends (Kept s) (fun _ => True) := by
    unfold body
    refine EM.Ends.bind (EM.ends_mapM (Q := fun _ => True) _ fun q hq => (EM.ends_mapM (Q := fun _ => True) _ fun k hk =>
      e.at_ends 0 _ (readElem_ends hr (View.within_at hw (mem_pairs (List.mem_range.1 hk) (List.mem_range.1 hq))))).weaken
        fun _ _ => trivial) fun ws _ => ?_
    refine EM.Ends.bind (EM.ends_mapM (Q := fun _ => True) _ fun q hq => (EM.ends_mapM (Q := fun _ => True) _ fun k hk =>
      e.at_ends 0 _ (readElem_ends hc (View.within_at ha (List.mem_flatMap.2 ⟨q, hq, List.mem_map.2 ⟨k, hk, rfl⟩⟩)))).weaken
        fun _ _ => trivial) fun as _ => ?_
    extract_lets outs wrapped ys n' pos flat last fin
    rw [if_neg (by rw [hr0]; simp)]
    refine EM.Ends.bind (Q := fun _ => True) (EM.ends_pure trivial) fun ys' _ => ?_
    unfold fin
    rw [if_neg (by rw [hd0]; decide)]
    extract_lets ws'
    rw [if_neg (by rw [hd0]; decide)]
    refine (Eng.writes_ends hc _ _ _ _ _ (View.writable_sub ho fun ix hx => ?_)).bind fun _ _ => EM.ends_pure trivial
    rw [List.map_append, fillElems_ix] at hx
    rcases List.mem_append.1 hx with hx | hx
    · obtain ⟨x, hx2, rfl⟩ := List.mem_map.1 hx
      obtain ⟨i, hi', rfl⟩ := List.mem_map.1 hx2
      exact List.mem_append_left _ (mem_cells (List.mem_range.1 hi'))
    · exact List.mem_append_right _ hx
  refine (placeView_ends 0 hpw).bind fun _ _ => (placeView_ends 0 hpa).bind fun _ _ => ?_
  rw [if_neg (by rw [hr0]; simp)]
  unfold place
  rw [if_pos (by rw [hd0]; rfl)]
  have h2 : (dest == 2) = false := by rw [hd0]; rfl
  rw [h2]
  exact (placeView_ends _ hpo).bind fun _ _ => hbody

theorem vewWork_ends {n : Nat} {f : Flight} (hp : s.vewPlaced n f) (h : s.vecReady granuleElems e f lo hi) :
    (vewWork n e f).Ends (Kept s) (fun _ => True) := by
  obtain ⟨hx, hy, hz, ho⟩ := hp
  unfold vewWork
  extract_lets c o j2 j1
  have hj2 : (j2 ()).Ends (Kept s) (fun _ => True) := (placeView_ends 1 ho).bind fun _ _ => vecWork_ends h
  have hj1 : (j1 ()).Ends (Kept s) (fun _ => True) := by
    unfold j1
    split
    · exact (placeView_ends 0 (hz (by assumption))).bind fun _ _ => hj2
    · exact hj2
  refine (placeView_ends 0 hx).bind fun _ _ => ?_
  split
  · exact (placeView_ends 0 (hy (by assumption))).bind fun _ _ => hj1
  · exact hj1

theorem vgsGatherWork_ends {n : Nat} {f : Flight} (h1 : s.misplaced n false (vgsIdx f).iv = none)
    (h2 : s.misplaced n true (vgsIdx f).sv = none) (h3 : s.misplaced n false (vgsIdx f).dv = none)
    (h : s.gatherReady e (vgsIdx f) lo hi ro rhi) : (vgsGatherWork n e f).Ends (Kept s) (fun _ => True) :=
  (placeView_ends 0 h1).bind fun _ _ => (placeView_ends 0 h2).bind fun _ _ => (placeView_ends 1 h3).bind fun _ _ =>
    gatherWork_ends h

theorem vgsScatterWork_ends {n : Nat} {f : Flight} (h1 : s.misplaced n false (vgsIdx f).iv = none)
    (h2 : s.misplaced n false (vgsIdx f).sv = none) (h3 : s.misplaced n true (vgsIdx f).dv = none)
    (h : s.scatterReady e (vgsIdx f) lo hi ro rhi) : (vgsScatterWork n e f).Ends (Kept s) (fun _ => True) :=
  (placeView_ends 0 h1).bind fun _ _ => (placeView_ends 0 h2).bind fun _ _ => (placeView_ends 1 h3).bind fun _ _ =>
    scatterWork_ends h

theorem vgsAccWork_ends {n : Nat} {f : Flight} (h1 : s.misplaced n false (vgsIdx f).iv = none)
    (h2 : s.misplaced n false (vgsIdx f).sv = none) (h : s.accReady e (vgsIdx f) ro rhi) :
    (vgsAccWork n e f).Ends (Kept s) (fun _ => True) := by
  unfold vgsAccWork
  extract_lets k
  refine (placeView_ends 0 h1).bind fun _ _ => (placeView_ends 0 h2).bind fun _ _ => ?_
  have hx : k.exact = true := h.2.2.2.1
  rw [hx]
  exact accWork_ends h

theorem writePieces_nil : (writePieces e []).Ends (Kept s0) (fun _ => True) := fun s hs => ⟨⟨⟩, s, rfl, hs, trivial⟩

theorem vamoWork_ends {n : Nat} {f : Flight} (h : s.vamoReady n e f ro rhi) : (vamoWork n e f).Ends (Kept s) (fun _ => True) := by
  obtain ⟨hr, hx, hret, hcas, hp, hv, hpl, hs⟩ := h
  unfold vamoWork
  extract_lets c aop ret exact tv sv cv rv j1 j2 j3
  have hx' : exact = true := by rw [show exact = (cf c 3 60 60 == 1) from rfl, show cf c 3 60 60 = 1 from hx]; rfl
  have hret' : ret = false := by rw [show ret = (cf c 3 61 61 == 1) from rfl, show cf c 3 61 61 = 0 from hret]; rfl
  have hj1 : (j1 ()).Ends (Kept s) (fun _ => True) := by
    unfold j1
    refine EM.Ends.bind (readUntil_ends (Q := fun ps : List Piece => ps = []) _ fun i hi => ?_) fun r hr => ?_
    · rw [if_pos hx']
      have hi := List.mem_range.1 hi
      refine (e.at_ends 0 i (readElem_ends hr (View.within_at hv (mem_cells hi)))).bind fun x _ => ?_
      exact (e.at_ends 2 i (atEntry_ends _ (contribute_ends (s.calm_perf hr).1 (Nat.mod_lt _ (by decide)) hpl
        (Nat.lt_of_lt_of_le (Nat.add_lt_add_left hi _) hs) x))).bind fun _ _ => EM.ends_pure rfl
    · obtain ⟨ps, o⟩ := r
      obtain ⟨rfl, -, hq⟩ := hr
      have hz : ps.flatten = [] := List.flatten_eq_nil_iff.2 hq
      dsimp only
      rw [hz]
      exact writePieces_nil.bind fun _ _ => raise_ends.bind fun _ _ => EM.ends_pure trivial
  refine (placeView_ends 0 hp).bind fun _ _ => ?_
  rw [if_neg (show ¬ aop = aCAS from hcas)]
  unfold j3
  rw [if_neg (by rw [hx']; simp)]
  unfold j2
  rw [if_neg (by rw [hret']; simp)]
  exact hj1

/-! ## Slots -/

theorem slotBase_ends {n : Nat} {f : Flight} (h : s.slotReady n e f) : (slotBase n e f.cmd).Ends (Kept s) (fun _ => True) := by
  refine EM.Ends.bind EM.ends_get fun r hr => ?_
  extract_lets j b k have_ j1
  rw [if_neg (Nat.not_lt.2 ?_)]
  · exact EM.ends_pure trivial
  · rw [show have_ = s.f (VRG_JOB_SLOTS.COUNT n j) from hr.f _]
    exact h

theorem setSlot_ends {n k : Nat} (g : State → Slot) : (modify (fun s => s.setSlot n k (g s)) : EM PUnit).Ends (Kept s0) (fun _ => True) :=
  EM.ends_modify fun _ h => h.trans (Kept.slots _ _)

theorem slotClearWork_ends {n : Nat} {f : Flight} (h : s.slotReady n e f) :
    (slotClearWork n e f).Ends (Kept s) (fun _ => True) :=
  (slotBase_ends h).bind fun _ _ => (EM.ends_forM _ fun _ _ => setSlot_ends _).bind fun _ _ => EM.ends_pure trivial

/-- Pieces of one element for each index of a list lie in the range. -/
theorem partPieces_within {v : View} {np : Nat} {ixs : List (List Nat)} (hv : v.within np lo hi ixs = true) {ix : List Nat}
    (hx : ix ∈ ixs) (pos ent tile val : Nat) : ∀ p ∈ partPieces pos ent tile (v.loc np ix).parts val, p.inside lo hi :=
  partPieces_inside _ _ _ _ _ ((Loc.within_iff _).1 (View.within_at hv hx)).1

theorem onHalt_ends {x : EM Unit} {act : Nat → EM Unit} {Q : Unit → Prop} {P : State → Prop} (h : x.Ends P Q) :
    (onHalt x act).Ends P Q := EM.Ends.tryCatch h

theorem slotFinaliseWork_ends {n : Nat} {f : Flight} (h : s.slotReady n e f) (hv : s.slotView n e f (resultIx f) lo hi) :
    (slotFinaliseWork n e f).Ends (Kept s) (fun _ => True) := by
  obtain ⟨hc, hp, hv⟩ := hv
  unfold slotFinaliseWork
  extract_lets c m is
  refine (placeView_ends 1 hp).bind fun _ _ => (slotBase_ends h).bind fun b _ => EM.ends_get.bind fun r _ => ?_
  extract_lets clear
  have hcl : ∀ k, (clear k).Ends (Kept s) (fun _ => True) := by
    intro k
    simp only [clear]
    split
    · refine EM.ends_forM _ fun i _ => ?_
      split
      · exact setSlot_ends _
      · exact EM.ends_pure trivial
    · exact EM.ends_pure trivial
  refine (onHalt_ends (writePieces_ends hc _ fun p hp => ?_)).bind fun _ _ => (hcl _).bind fun _ _ => EM.ends_pure trivial
  obtain ⟨i, hi, hp⟩ := List.mem_flatMap.1 hp
  exact partPieces_within hv (List.mem_map.2 ⟨i, hi, rfl⟩) _ _ _ _ p hp

theorem slotSaveWork_ends {n : Nat} {f : Flight} (h : s.slotReady n e f) (hv : s.slotView n e f (imagesIx f) lo hi) :
    (slotSaveWork n e f).Ends (Kept s) (fun _ => True) := by
  obtain ⟨hc, hp, hv⟩ := hv
  unfold slotSaveWork
  extract_lets c m
  refine (placeView_ends 1 hp).bind fun _ _ => (slotBase_ends h).bind fun b _ => EM.ends_get.bind fun r _ =>
    (writePieces_ends hc _ fun p hp => ?_).bind fun _ _ => EM.ends_pure trivial
  obtain ⟨i, hi, hp⟩ := List.mem_flatMap.1 hp
  obtain ⟨x, hx, hp⟩ := List.mem_flatMap.1 hp
  exact partPieces_within hv (List.mem_flatMap.2 ⟨i, hi, (List.of_mem_zip (List.fst_mem_of_mem_zipIdx hx)).1⟩) _ _ _ _ p hp

theorem readImage_ends (hc : s0.calm e.who wr lo hi = true) {m : View} {i : Nat} (hv : m.within 0 lo hi (imageIx m i) = true) :
    (readImage e m i).Ends (Kept s0) (fun _ => True) :=
  (EM.ends_mapM (Q := fun _ => True) _ fun _ hp => (e.at_ends 0 _ (readCode_ends hc (View.within_at hv
    (List.fst_mem_of_mem_zipIdx hp)))).bind fun _ _ => EM.ends_pure trivial).bind fun _ _ => EM.ends_pure trivial

theorem slotImages_ends {n : Nat} {f : Flight} (h : s.slotReady n e f) (hv : s.slotView n e f (imagesIx f) lo hi)
    (g : Slot → State → Nat → Slot) : (do
      placeView n false 0 (vOf f.cmd f.views 3 59 56)
      let b ← slotBase n e f.cmd
      (List.range (cf f.cmd 3 39 23)).forM (fun i => do
        let x ← readImage e (vOf f.cmd f.views 3 59 56) i
        modify (fun s => s.setSlot n (b + i) (g x s (b + i))))
      pure 0 : EM Nat).Ends (Kept s) (fun _ => True) := by
  obtain ⟨hc, hp, hv⟩ := hv
  refine (placeView_ends 0 hp).bind fun _ _ => (slotBase_ends h).bind fun b _ => (EM.ends_forM _ fun i hi => ?_).bind
    fun _ _ => EM.ends_pure trivial
  exact (readImage_ends hc (View.within_sub hv fun ix hx => List.mem_flatMap.2 ⟨i, hi, hx⟩)).bind fun x _ => setSlot_ends _

theorem slotLoadWork_ends {n : Nat} {f : Flight} (h : s.slotReady n e f) (hv : s.slotView n e f (imagesIx f) lo hi) :
    (slotLoadWork n e f).Ends (Kept s) (fun _ => True) := slotImages_ends h hv fun x _ _ => x

theorem slotCombineWork_ends {n : Nat} {f : Flight} (h : s.slotReady n e f) (hv : s.slotView n e f (imagesIx f) lo hi) :
    (slotCombineWork n e f).Ends (Kept s) (fun _ => True) := slotImages_ends h hv fun x s i => (s.slot n i).combine x

end att

end Sys2Proof.Machine
end

