-- ==== Sys2Proof/Laws/RunsKv.lean ====
section
/-! SUPPORT. A VATT and a VKVA of one sequence end where every access they make is served. -/
namespace Sys2Proof.Machine

section kv
variable {s s0 : State} {e : Eng} {wr : Bool} {lo hi ro rhi : Nat}

theorem bytesAt_cut (s : State) (w : Who) (a n k m : Nat) (h : k + m ≤ n) :
    ((s.bytesAt w a n).drop k).take m = s.bytesAt w (a + k) m := by
  have key : ∀ f : Nat → Byte, (((List.range n).map (fun i => f (a + i))).drop k).take m =
      (List.range m).map (fun i => f (a + k + i)) := by
    intro f
    refine List.ext_getElem (by simp; omega) fun i h1 h2 => ?_
    simp [Nat.add_assoc]
  exact key (s.byteAt w)

theorem State.byteAt_port (s : State) (w : Who) (p a : Nat) : s.byteAt (w.at_ p) a = s.byteAt w a := rfl
theorem State.natAt_port (s : State) (w : Who) (p a n : Nat) : s.natAt (w.at_ p) a n = s.natAt w a n := rfl
theorem State.partsAt_port (s : State) (w : Who) (p : Nat) : ∀ l : List (Nat × Nat), s.partsAt (w.at_ p) l = s.partsAt w l
  | [] => rfl
  | (o, n) :: t => by
    unfold State.partsAt State.bitsAt
    rw [State.natAt_port, State.partsAt_port s w p t]

/-- A table entry is read as it stands in memory. -/
theorem readSeq_calm (hc : s.calm e.who wr lo hi = true) {lv : View} (hl : lv.within 0 lo hi [[0, 0, 0, 0], [1, 0, 0, 0]] = true) :
    ∃ g, (readSeq e lv 0).go s = (.ok (s.seqAt e.who lv), s.gran g) := by
  obtain ⟨x0, g0, e0⟩ := readCode_calm (w := e.who.at_ 3) hc (View.within_at hl (ix := [0, 0, 0, 0]) (by simp))
  obtain ⟨x1, g1, e1⟩ := readCode_calm (w := e.who.at_ 3) (((Kept.gran s g0).calm e.who wr lo hi).trans hc)
    (View.within_at hl (ix := [1, 0, 0, 0]) (by simp))
  rw [State.codeAt_gran] at e1
  refine ⟨g1, e.go_at 0 _ (EM.go_bind_ok e0 (EM.go_bind_ok e1 ?_))⟩
  rw [EM.go_pure]
  unfold State.seqAt State.codeAt
  rw [State.partsAt_port, State.partsAt_port]
  rfl

/-- The header is read as it stands in memory. -/
theorem readHeader_calm (hc : s.calm e.who wr ro rhi = true) {pl : Nat} (h1 : ro ≤ pl) (h2 : pl + 32 ≤ rhi) :
    ∃ g, (readHeader e pl).go s = (.ok (s.kvHeader e.who pl), s.gran g) := by
  obtain ⟨g, e1⟩ := jobRead_calm hc h1 h2
  refine ⟨g, e.go_at 0 0 (EM.go_bind_ok e1 ?_)⟩
  have hw : ∀ i < 4, ((s.bytesAt e.who pl 32).drop (8 * i)).take 8 = s.bytesAt e.who (pl + 8 * i) 8 := fun i hi =>
    bytesAt_cut s e.who pl 32 (8 * i) 8 (by omega)
  dsimp only
  rw [hw 0 (by decide), hw 1 (by decide), hw 2 (by decide), hw 3 (by decide)]
  rfl

/-- An address of the range is one that a command of stack n may name. -/
theorem placeOk_in {n a : Nat} (h : s.stackCalm e.who false ro rhi = true) (h1 : n * s.stackBytes ≤ ro)
    (h2 : rhi ≤ (n + 1) * s.stackBytes) (h3 : ro ≤ a) (h4 : a < rhi) : s.placeOk n true a = true := by
  unfold State.placeOk
  rw [(State.stackCalm_at h h3 h4).1]
  simp only [beq_iff_eq]
  exact Nat.div_eq_of_lt_le (by omega) (by omega)

theorem place_ends {k : KvCmd} (h : s.stackCalm e.who false ro rhi = true) (h1 : k.n * s.stackBytes ≤ ro)
    (h2 : rhi ≤ (k.n + 1) * s.stackBytes) (dir ent : Nat) {a m : Nat} (hm : 0 < m) (h3 : ro ≤ a) (h4 : a + m ≤ rhi) :
    (k.place dir ent a m).Ends (fun r => Kept s r) (fun _ => True) := by
  refine EM.Ends.bind EM.ends_get fun r hr => ?_
  have p1 : r.placeOk k.n true a = true := (hr.placeOk _ _ _).trans (placeOk_in h h1 h2 h3 (by omega))
  have p2 : r.placeOk k.n true (a + m - 1) = true := (hr.placeOk _ _ _).trans (placeOk_in h h1 h2 (by omega) (by omega))
  rw [p1, p2]
  exact EM.ends_pure trivial

theorem place_go {k : KvCmd} (h : s.stackCalm e.who false ro rhi = true) (h1 : k.n * s.stackBytes ≤ ro)
    (h2 : rhi ≤ (k.n + 1) * s.stackBytes) (dir ent : Nat) {a m : Nat} (hm : 0 < m) (h3 : ro ≤ a) (h4 : a + m ≤ rhi)
    (g : SMap Nat) : (k.place dir ent a m).go (s.gran g) = (.ok ⟨⟩, s.gran g) := by
  have p1 : (s.gran g).placeOk k.n true a = true := ((Kept.gran s g).placeOk _ _ _).trans (placeOk_in h h1 h2 h3 (by omega))
  have p2 : (s.gran g).placeOk k.n true (a + m - 1) = true :=
    ((Kept.gran s g).placeOk _ _ _).trans (placeOk_in h h1 h2 (by omega) (by omega))
  unfold KvCmd.place
  refine EM.go_bind_ok (EM.go_get _) ?_
  rw [p1, p2]
  rfl

theorem State.kvHeader_gran (s : State) (g : SMap Nat) (w : Who) (pl : Nat) : (s.gran g).kvHeader w pl = s.kvHeader w pl := rfl

/-- The one page of a sequence is read from its list. -/
theorem readList_calm (hc : s.calm e.who wr ro rhi = true) {k : KvCmd} {h : KvHeader} {q : SeqEnt} {i : Nat}
    (hs : s.stackCalm e.who false ro rhi = true) (h1 : k.n * s.stackBytes ≤ ro) (h2 : rhi ≤ (k.n + 1) * s.stackBytes)
    (hlo : (if k.attend then firstKey k.mask k.window q.pos else q.pos) / 16 = i) (hhi : (q.pos + q.nq - 1) / 16 = i)
    (h3 : ro ≤ h.listAt k.pl q.list i) (h4 : h.listAt k.pl q.list i + 4 ≤ rhi) (g : SMap Nat) :
    ∃ g', (readList e h k q).go (s.gran g) = (.ok [(i, s.natAt e.who (h.listAt k.pl q.list i) 4)], s.gran g') := by
  obtain ⟨g', e1⟩ := jobRead_calm (((Kept.gran s g).calm e.who wr ro rhi).trans hc) h3 h4
  refine ⟨g', ?_⟩
  unfold readList
  extract_lets lo hi
  have hl : lo = i := hlo
  have hh : hi = i := hhi
  rw [hl, hh, show i + 1 - i = 1 by omega, show List.range 1 = [0] from rfl, List.mapM_cons, List.mapM_nil]
  refine EM.go_bind_ok (a := (i, s.natAt e.who (h.listAt k.pl q.list i) 4)) ?_ (EM.go_bind_ok rfl rfl)
  refine EM.go_bind_ok (place_go hs h1 h2 0 _ (by decide) h3 h4 g) (EM.go_bind_ok (e.go_at 0 _ e1) ?_)
  rfl

/-- A KV command of one sequence does what its sequence asks for, through the page that its list names. -/
theorem kvSeqs_done {n i : Nat} (hc : s.calm e.who true lo hi = true) (hr : s.calm e.who wr ro rhi = true) {k : KvCmd}
    {qv ov lv : View} {scale : FVal} {gq : Nat} (hn : k.n = n)
    (hl : lv.within 0 lo hi [[0, 0, 0, 0], [1, 0, 0, 0]] = true)
    (hk : s.kvReady n e.who k.pl i lv qv ov (if k.attend then k else { k with dh := (s.kvHeader e.who k.pl).dh }) ro rhi)
    (hlo : (if k.attend then firstKey k.mask k.window (s.seqAt e.who lv).pos else (s.seqAt e.who lv).pos) / 16 = i)
    (hhi : ((s.seqAt e.who lv).pos + (s.seqAt e.who lv).nq - 1) / 16 = i)
    (ha : ∀ g, (kvApply e (s.kvHeader e.who k.pl) (if k.attend then k else { k with dh := (s.kvHeader e.who k.pl).dh }) qv ov
      scale gq (s.seqAt e.who lv) [(i, s.natAt e.who ((s.kvHeader e.who k.pl).listAt k.pl (s.seqAt e.who lv).list i) 4)]).Done
        (s.gran g)) : (kvSeqs e k qv ov lv scale gq 1 1 none [] 0 0).Done s := by
  obtain ⟨hs, h1, h2, h3, h4, h5, h6, hskip, hent, hp1, hp2, hp3⟩ := hk
  subst hn
  obtain ⟨g0, e0⟩ := readSeq_calm hc hl
  obtain ⟨g1, e1⟩ := readHeader_calm (((Kept.gran s g0).calm e.who wr ro rhi).trans hr) h3 h4
  rw [State.kvHeader_gran] at e1
  generalize hkk : (if k.attend then k else { k with dh := (s.kvHeader e.who k.pl).dh }) = kk at *
  have hkn : kk.n = k.n := by rw [← hkk]; split <;> rfl
  have hkp : kk.pl = k.pl := by rw [← hkk]; split <;> rfl
  have hka : kk.attend = k.attend := by rw [← hkk]; split <;> rfl
  have hkm : kk.mask = k.mask := by rw [← hkk]; split <;> rfl
  have hkw : kk.window = k.window := by rw [← hkk]; split <;> rfl
  obtain ⟨g2, e2⟩ := readList_calm hr (k := kk) (h := s.kvHeader e.who k.pl) (q := s.seqAt e.who lv) (i := i) hs
    (by rw [hkn]; exact h1) (by rw [hkn]; exact h2) (by rw [hka, hkm, hkw]; exact hlo) hhi (by rw [hkp]; exact h5)
    (by rw [hkp]; exact h6) g1
  rw [hkp] at e2
  obtain ⟨v, r, e3⟩ := ha g2
  have e4 : (kvSeq e (s.kvHeader e.who k.pl) kk qv ov lv scale gq 0 (s.seqAt e.who lv) [] 0).go (s.gran g1) = (.ok v, r) := by
    unfold kvSeq
    extract_lets idx j1
    rw [hent]
    refine EM.go_bind_ok e2 ?_
    extract_lets j2
    have hno : (List.any [(i, s.natAt e.who ((s.kvHeader e.who k.pl).listAt k.pl (s.seqAt e.who lv).list i) 4)] fun p =>
        p.2 == 0xFFFFFFFF || decide (p.2 % 2 ^ 28 ≥ (s.kvHeader e.who k.pl).poolPages)) = false := by
      simp only [List.any_cons, List.any_nil, Bool.or_false, Bool.or_eq_false_iff, beq_eq_false_iff_ne, decide_eq_false_iff_not,
        ge_iff_le, Nat.not_le]
      exact ⟨hp2, hp3⟩
    have hfi : List.find? (fun p => p.2 / 2 ^ 28 != kk.n)
        [(i, s.natAt e.who ((s.kvHeader e.who k.pl).listAt k.pl (s.seqAt e.who lv).list i) 4)] = none := by
      rw [List.find?_cons_of_neg (by
        rw [hkn]
        simpa using hp1)]
      rfl
    rw [hno]
    refine EM.go_bind_ok (EM.go_get _) ?_
    rw [hfi]
    exact e3
  refine ⟨0 + v, r, ?_⟩
  unfold kvSeqs
  refine EM.go_bind_ok e0 ?_
  rw [hskip]
  refine EM.go_bind_ok (EM.go_get _) ?_
  have hpl : (s.gran g0).placeOk k.n true k.pl = true :=
    ((Kept.gran s g0).placeOk _ _ _).trans (placeOk_in hs h1 h2 h3 (by omega))
  dsimp only
  rw [hpl, if_neg (by simp)]
  refine EM.go_bind_ok e1 ?_
  rw [hkk]
  exact EM.go_bind_ok e4 rfl

/-- A stored vector in the range is read. -/
theorem readKvVec_ends (hr : s.calm e.who wr ro rhi = true) {k : KvCmd} {h : KvHeader} {pages : List (Nat × Nat)} {x p : Nat}
    (hs : s.stackCalm e.who false ro rhi = true) (h1 : k.n * s.stackBytes ≤ ro) (h2 : rhi ≤ (k.n + 1) * s.stackBytes)
    (hv : 0 < h.vec) (h3 : ro ≤ (k.at_ h s.stackBytes pages x p).1) (h4 : (k.at_ h s.stackBytes pages x p).1 + h.vec ≤ rhi)
    (h5 : ro ≤ (k.at_ h s.stackBytes pages x p).2) (h6 : (k.at_ h s.stackBytes pages x p).2 + h.scales ≤ rhi) :
    (readKvVec e h k pages x p).Ends (Kept s) (fun _ => True) := by
  refine EM.Ends.bind EM.ends_get fun r hr' => ?_
  rw [hr'.stackBytes]
  generalize k.at_ h s.stackBytes pages x p = y at *
  obtain ⟨a, sa⟩ := y
  dsimp only at h3 h4 h5 h6 ⊢
  refine (place_ends hs h1 h2 0 _ hv h3 h4).bind fun _ _ => ?_
  by_cases hz : h.scales = 0
  · simp only [hz, ne_eq, not_true_eq_false, if_false, if_true]
    exact EM.Ends.tryCatch (e.at_ends 0 _ ((jobRead_ends hr h3 h4).bind fun _ _ =>
      (EM.ends_pure (Q := fun _ => True) trivial).bind fun _ _ => EM.ends_pure trivial))
  · simp only [hz, ne_eq, not_false_eq_true, if_false, if_true]
    exact (place_ends hs h1 h2 0 _ (Nat.pos_of_ne_zero hz) h5 h6).bind fun _ _ => EM.Ends.tryCatch (e.at_ends 0 _
      ((jobRead_ends hr h3 h4).bind fun _ _ => (jobRead_ends hr h5 h6).bind fun _ _ => EM.ends_pure trivial))

/-- The vectors of a sound header hold bytes. -/
theorem KvHeader.vec_pos {h : KvHeader} (hs : h.sound = true) (hd : 1 ≤ h.dh) : 0 < h.vec := by
  simp only [KvHeader.sound, Bool.and_eq_true, beq_iff_eq] at hs
  unfold KvHeader.vec kvBits
  split <;> omega

theorem KvCmd.entryOk_sound {k : KvCmd} {h : KvHeader} {qv ov : View} {q : SeqEnt} {ls : List Nat} {r : Nat}
    (he : k.entryOk h qv ov q ls r = true) : h.sound = true ∧ h.dh = k.dh ∧ h.kvf = k.kvf ∧ 1 ≤ q.nq := by
  simp only [KvCmd.entryOk, Bool.and_eq_true, beq_iff_eq, SeqEnt.inRange, decide_eq_true_eq] at he
  tauto

/-- Attention over the stored vectors of one page ends. -/
theorem kvApply_attend (hc : s.calm e.who true lo hi = true) (hr : s.calm e.who wr ro rhi = true) {k : KvCmd} {h : KvHeader}
    {qv ov : View} {scale : FVal} {gq v : Nat} {q : SeqEnt} (hap : k.append = false) (hatt : k.attend = true)
    (hs : s.stackCalm e.who false ro rhi = true) (h1 : k.n * s.stackBytes ≤ ro) (h2 : rhi ≤ (k.n + 1) * s.stackBytes)
    (hv : 0 < h.vec) (hpos : q.pos + q.nq ≤ 16) (hw : v / 2 ^ 28 = k.n)
    (hvec : ∀ x < 2, ∀ p < q.pos + q.nq,
      ro ≤ h.vecAt (h.pageBase s.stackBytes k.n (v % 2 ^ 28)) k.layer k.kvh x p ∧
      h.vecAt (h.pageBase s.stackBytes k.n (v % 2 ^ 28)) k.layer k.kvh x p + h.vec ≤ rhi ∧
      ro ≤ h.scaleAt (h.pageBase s.stackBytes k.n (v % 2 ^ 28)) k.layer k.kvh x p ∧
      h.scaleAt (h.pageBase s.stackBytes k.n (v % 2 ^ 28)) k.layer k.kvh x p + h.scales ≤ rhi)
    (hq : qv.within qv.fmt.bits lo hi (queryIx k.dh gq q.row0 q.nq) = true)
    (ho : ov.writable ov.fmt.bits lo hi (queryIx k.dh gq q.row0 q.nq) = true) :
    (kvApply e h k qv ov scale gq q [(0, v)]).Ends (Kept s) (fun _ => True) := by
  have hat : ∀ x p, p < 16 → k.at_ h s.stackBytes [(0, v)] x p =
      (h.vecAt (h.pageBase s.stackBytes k.n (v % 2 ^ 28)) k.layer k.kvh x p,
        h.scaleAt (h.pageBase s.stackBytes k.n (v % 2 ^ 28)) k.layer k.kvh x p) := by
    intro x p hp
    unfold KvCmd.at_
    have h0 : List.find? (fun e : Nat × Nat => e.1 == p / 16) [(0, v)] = some (0, v) := by
      rw [show p / 16 = 0 by omega]; rfl
    rw [h0, Option.map_some, Option.getD_some]
    dsimp only
    rw [hw]
  have hvec' : ∀ x < 2, ∀ p < q.pos + q.nq, (readKvVec e h k [(0, v)] x p).Ends (Kept s) (fun _ => True) := by
    intro x hx p hp
    obtain ⟨a1, a2, a3, a4⟩ := hvec x hx p hp
    have ha := hat x p (by omega)
    exact readKvVec_ends hr hs h1 h2 hv (by rw [ha]; exact a1) (by rw [ha]; exact a2) (by rw [ha]; exact a3) (by rw [ha]; exact a4)
  unfold kvApply
  rw [hap, hatt]
  refine EM.Ends.bind (Q := fun _ => True) (EM.ends_pure trivial) fun sats _ => ?_
  dsimp only [if_true]
  refine EM.Ends.bind (EM.ends_mapM (Q := fun _ => True) _ fun d hd => ?_) fun kvs _ => (attendSeq_ends hc hq ho).bind
    fun _ _ => EM.ends_pure trivial
  have hd := List.mem_range.1 hd
  exact (hvec' 0 (by decide) _ (by omega)).bind fun _ _ => (hvec' 1 (by decide) _ (by omega)).bind fun _ _ => EM.ends_pure trivial

theorem vattWork_done {n : Nat} {f : Flight} (h : s.vattReady n e f lo hi ro rhi) : (vattWork n e f).Done s := by
  obtain ⟨hc, hr, happ, hns, hpl, hpq, hpo, hl, hk, hpos, hwin, hvec, hq, ho⟩ := h
  have hk' := hk
  obtain ⟨hs, h1, h2, -, -, -, -, -, hent, hw, -, -⟩ := hk'
  obtain ⟨hsnd, hdh, -, hnq⟩ := KvCmd.entryOk_sound hent
  have hd1 : 1 ≤ (s.kvHeader e.who (vattCmd n f).pl).dh := by rw [hdh]; exact Nat.le_add_left 1 _
  unfold vattWork
  extract_lets c qv ov lv app k ns fin
  have ha : app = false := by rw [show app = (cf c 3 41 41 == 1) from rfl, show cf c 3 41 41 = 0 from happ]; rfl
  have hkk : k = vattCmd n f := rfl
  have hka : k.append = false := ha
  refine EM.Done.of_bind (placeView_go 0 hpl) (EM.Done.of_bind (placeView_go 0 hpq) (EM.Done.of_bind (placeView_go 1 hpo) ?_))
  rw [if_neg (by rw [ha]; simp)]
  unfold fin
  have hn1 : ns = 1 := by rw [show ns = cf c 3 38 33 + 1 from rfl, show cf c 3 38 33 = 0 from hns]
  rw [hn1]
  refine EM.Done.map (kvSeqs_done hc hr (n := n) (i := 0) rfl hl hk ?_ (by omega) fun g => ?_) _
  · show firstKey k.mask k.window _ / 16 = 0
    unfold firstKey
    split
    · rename_i hm
      have : 1 ≤ k.window := hwin hm
      omega
    · rfl
  · have key := kvApply_attend (scale := cF32 c 5 31 0) (k := vattCmd n f) hc hr ha rfl hs h1 h2
      (KvHeader.vec_pos hsnd hd1) hpos hw hvec hq ho
    exact key.done (Kept.gran s g)

/-- A vector in a static format is appended where it lies in the range. -/
theorem appendVec_ends (hc : s.calm e.who true ro rhi = true) {k : KvCmd} {h : KvHeader} {pages : List (Nat × Nat)}
    {x p : Nat} {xs : List FVal} (hs : s.stackCalm e.who false ro rhi = true) (h1 : k.n * s.stackBytes ≤ ro)
    (h2 : rhi ≤ (k.n + 1) * s.stackBytes) (hf : k.kvf ≤ 1) (hv : 0 < h.vec) (hlen : xs.length = h.vec)
    (h3 : ro ≤ (k.at_ h s.stackBytes pages x p).1) (h4 : (k.at_ h s.stackBytes pages x p).1 + h.vec ≤ rhi) :
    (appendVec e h k pages x p xs).Ends (Kept s) (fun _ => True) := by
  refine EM.Ends.bind EM.ends_get fun r hr' => ?_
  rw [hr'.stackBytes]
  generalize k.at_ h s.stackBytes pages x p = y at *
  obtain ⟨a, sa⟩ := y
  dsimp only at h3 h4 ⊢
  generalize (if x = 0 then k.sk else k.sv) = sx
  rw [kvQuantise, if_pos hf]
  dsimp only
  have hb : kvBits k.kvf = 8 := if_neg (by omega)
  rw [hb]
  refine (place_ends hs h1 h2 1 _ hv h3 h4).bind fun _ _ => ?_
  rw [show (!([] : List Nat).isEmpty) = false from rfl, show ∀ f : Nat × Nat → Piece, List.map f (List.zipIdx []) = [] from fun _ => rfl,
    List.append_nil]
  refine EM.Ends.bind (writePieces_ends hc _ fun c hm => ?_) fun _ _ => EM.ends_pure trivial
  rw [List.mem_map] at hm
  obtain ⟨⟨c', i⟩, hc', rfl⟩ := hm
  have hi := (List.mem_zipIdx hc').2.1
  simp only [List.length_map, Nat.zero_add] at hi
  unfold Piece.inside
  dsimp only
  omega

/-- One position is appended to its page. -/
theorem kvApply_append (hc : s.calm e.who true lo hi = true) (hr : s.calm e.who true ro rhi = true) {k : KvCmd} {h : KvHeader}
    {qv ov : View} {scale : FVal} {gq v : Nat} {q : SeqEnt} (hap : k.append = true) (hatt : k.attend = false)
    (hs : s.stackCalm e.who false ro rhi = true) (h1 : k.n * s.stackBytes ≤ ro) (h2 : rhi ≤ (k.n + 1) * s.stackBytes)
    (hf : k.kvf ≤ 1) (hv : 0 < h.vec) (hd : k.dh = h.vec) (hw : v / 2 ^ 28 = k.n) (hn : q.nq = 1)
    (hvec : ∀ x < 2, ro ≤ h.vecAt (h.pageBase s.stackBytes k.n (v % 2 ^ 28)) k.layer k.kvh x q.pos ∧
      h.vecAt (h.pageBase s.stackBytes k.n (v % 2 ^ 28)) k.layer k.kvh x q.pos + h.vec ≤ rhi)
    (hk : k.kv.within k.kv.fmt.bits lo hi (vecIx k.dh 0 q.row0) = true)
    (hv' : k.vv.within k.vv.fmt.bits lo hi (vecIx k.dh 0 q.row0) = true) :
    (kvApply e h k qv ov scale gq q [(q.pos / 16, v)]).Done s := by
  have hat : ∀ x, (k.at_ h s.stackBytes [(q.pos / 16, v)] x q.pos).1 =
      h.vecAt (h.pageBase s.stackBytes k.n (v % 2 ^ 28)) k.layer k.kvh x q.pos := by
    intro x
    unfold KvCmd.at_
    have h0 : List.find? (fun e : Nat × Nat => e.1 == q.pos / 16) [(q.pos / 16, v)] = some (q.pos / 16, v) :=
      List.find?_cons_of_pos (by simp)
    rw [h0, Option.map_some, Option.getD_some]
    dsimp only
    rw [hw]
  have happ : ∀ x < 2, ∀ xs : List FVal, xs.length = k.dh →
      (appendVec e h k [(q.pos / 16, v)] x q.pos xs).Ends (Kept s) (fun _ => True) := fun x hx xs hl =>
    appendVec_ends hr hs h1 h2 hf hv (hl.trans hd) (by rw [hat]; exact (hvec x hx).1) (by rw [hat]; exact (hvec x hx).2)
  unfold kvApply
  rw [hap, hatt, hn, show List.range 1 = [0] from rfl, List.mapM_cons, List.mapM_nil, Nat.add_zero, Nat.add_zero]
  simp only [if_true, Bool.false_eq_true, if_false]
  refine EM.Done.map (EM.Done.map (EM.Ends.bindDone (readVec_ends hc 1 hk) (Kept.refl s) fun xk r1 k1 hx1 =>
    EM.Ends.bindDone (readVec_ends hc 1 hv') k1 fun xv r2 k2 hx2 =>
    EM.Ends.bindDone (happ 0 (by decide) _ hx1) k2 fun a r3 k3 _ =>
    EM.Ends.bindDone (happ 1 (by decide) _ hx2) k3 fun b r4 k4 _ => ?_) _) _
  exact EM.Done.of_bind rfl (EM.done_pure _)

theorem vkvaWork_done {n : Nat} {f : Flight} (h : s.vkvaReady n e f lo hi ro rhi) : (vkvaWork n e f).Done s := by
  obtain ⟨hc, hr, hns, hf, hpl, hpk, hpv, hl, hk, hq, hd1, hvec, hkv, hvv⟩ := h
  have hk' := hk
  obtain ⟨hs, h1, h2, -, -, -, -, -, hent, hw, -, -⟩ := hk'
  obtain ⟨hsnd, -, hkf, -⟩ := KvCmd.entryOk_sound hent
  have hv8 : (s.kvHeader e.who (vkvaCmd n f).pl).dh = (s.kvHeader e.who (vkvaCmd n f).pl).vec := by
    unfold KvHeader.vec
    rw [hkf, show kvBits ({ vkvaCmd n f with dh := (s.kvHeader e.who (vkvaCmd n f).pl).dh } : KvCmd).kvf = 8 from if_neg (by
      have : (vkvaCmd n f).kvf ≤ 1 := hf
      dsimp only
      omega)]
    omega
  unfold vkvaWork
  extract_lets c lv k ns
  refine EM.Done.of_bind (placeView_go 0 hpl) (EM.Done.of_bind (placeView_go 0 hpk) (EM.Done.of_bind (placeView_go 0 hpv) ?_))
  have hn1 : ns = 1 := by rw [show ns = cf c 3 49 44 + 1 from rfl, show cf c 3 49 44 = 0 from hns]
  rw [hn1]
  refine EM.Done.map (kvSeqs_done hc hr (n := n) (i := (s.seqAt e.who lv).pos / 16) rfl hl hk rfl (by
    rw [show (s.seqAt e.who lv).nq = 1 from hq, Nat.add_sub_cancel]) fun g => ?_) _
  have hkg := Kept.gran s g
  refine kvApply_append (s := s.gran g) (k := { vkvaCmd n f with dh := (s.kvHeader e.who (vkvaCmd n f).pl).dh })
    ((hkg.calm e.who true lo hi).trans hc) ((hkg.calm e.who true ro rhi).trans hr) rfl rfl
    hs h1 h2 hf (KvHeader.vec_pos hsnd hd1) hv8 hw hq hvec hkv hvv

end kv

end Sys2Proof.Machine
end

