-- ==== Sys2Proof/Laws/Completes.lean ====
section
/-! SUPPORT. Commands whose work ends complete: the lemmas that turn the end of a work into the next state of its row. -/
namespace Sys2Proof.Machine

/-- A started command whose work ends in a code is done. -/
theorem runCommand_done {s : State} {j l q n : Nat} {f : Flight} {p : List W64 → Bool} {work : Eng → Flight → EM Nat}
    (hm : s.mayAct j q = true) (hr : (s.queue j l q).running p = some (n, f)) (hn : isDq q = true → n = 0)
    (hp : (isVq q && s.plain (q - 10)) = false) (hd : (work (engOf j l ((s.physOf l).getD 0) q f.cmd) f).Done s) :
    ∃ code t, (work (engOf j l ((s.physOf l).getD 0) q f.cmd) f).go s = (.ok code, t) ∧
      runCommand j l q p work s = .next (t.setFlight j l q n { f with st := .done, code := code }) := by
  obtain ⟨code, t, e⟩ := hd
  refine ⟨code, t, e, ?_⟩
  have hf : Option.filter (fun r : Nat × Flight => !isDq q || r.1 == 0) (some (n, f)) = some (n, f) := by
    rw [Option.filter_some]
    refine if_pos ?_
    cases hq : isDq q with
    | false => rfl
    | true => rw [hn hq]; rfl
  unfold runCommand
  simp only [hm, hr, hf, hp, if_true, Bool.false_eq_true, if_false, State.phys, e, Flight.finish]

/-- A row whose work ends answers what the work leaves. -/
theorem readRow_ok {w : Who} {x : EM Unit} {s r : State} (e : x.go s = (.ok (), r)) : readRow w x s = .next r := by
  unfold readRow rowOf State.runs; rw [e]

theorem rowOf_ok {x : EM Unit} {s r : State} (e : x.go s = (.ok (), r)) : rowOf x s = .next r := by
  unfold rowOf State.runs; rw [e]

/-! ## Lines of Cloudbank without a wrong bit -/

theorem line_setLine (s : State) (j a b : Nat) (c : CLine) : (s.setLine j a c).line j b = if b = a then c else s.line j b := by
  unfold State.line State.setLine
  dsimp only
  rw [SMap.get_put]
  have : (lineKey j b = lineKey j a) ↔ b = a := by unfold lineKey; omega
  by_cases h : b = a
  · rw [if_pos h, if_pos (this.2 h)]
  · rw [if_neg h, if_neg (mt this.1 h)]

theorem checkGranule_clean {s : State} {j k g : Nat} (h : (s.line j k).bad = 0#4) : (checkGranule j k g).go s = (.ok ⟨⟩, s) := by
  unfold checkGranule
  refine EM.go_bind_ok (EM.go_get _) ?_
  dsimp only
  rw [h, if_neg (by simp)]
  rfl

theorem writeBackLine_clean {s : State} {w : Who} {j k : Nat} (h : (s.line j k).dirty = 0#4) : (writeBackLine w j k).go s = (.ok ⟨⟩, s) := by
  unfold writeBackLine
  have e : ∀ g : Nat, (0#4).toNat.testBit g = false := by intro g; simp [Nat.zero_testBit]
  have one : ∀ (l : List Nat), (forIn l PUnit.unit fun g (_ : PUnit) => (do
    let s ← get
    let c := s.line j k
    if c.dirty.toNat.testBit g then
      checkGranule j k g
      healLine j k (64 * g) 64
      rawWrite { w with kind := .tdma } (k * 256 + 64 * g) (Bytes.rdList c.data (64 * g) 64)
      modify (fun s => s.setLine j k { s.line j k with
        dirty := BitVec.ofNat 4 ((s.line j k).dirty.toNat &&& (15 - 2 ^ g)) })
      pure (ForInStep.yield PUnit.unit)
    else pure (ForInStep.yield PUnit.unit) : EM (ForInStep PUnit))).go s = (.ok ⟨⟩, s) := by
    intro l
    induction l with
    | nil => rfl
    | cons a t ih =>
      rw [List.forIn_cons]
      refine EM.go_bind_ok (a := ForInStep.yield PUnit.unit) (s' := s) ?_ ih
      refine EM.go_bind_ok (EM.go_get _) ?_
      dsimp only
      rw [h, if_neg (by rw [e]; simp)]
      rfl
  exact EM.go_bind_ok (one _) rfl

theorem clbLine_clean {s : State} {w : Who} {j k : Nat} {acq : Bool} (hd : (s.line j k).dirty = 0#4) (hb : (s.line j k).bad = 0#4) :
    (clbLine w j k acq).go s = (.ok ⟨⟩, if acq then s.setLine j k CLine.zero else s) := by
  have one : ∀ (l : List Nat), (forIn l PUnit.unit fun g (_ : PUnit) => (do
    checkGranule j k g
    pure (ForInStep.yield PUnit.unit) : EM (ForInStep PUnit))).go s = (.ok ⟨⟩, s) := by
    intro l
    induction l with
    | nil => rfl
    | cons a t ih =>
      rw [List.forIn_cons]
      exact EM.go_bind_ok (a := ForInStep.yield PUnit.unit) (s' := s) (EM.go_bind_ok (checkGranule_clean hb) rfl) ih
  unfold clbLine
  refine EM.go_bind_ok (one _) (EM.go_bind_ok (writeBackLine_clean hd) ?_)
  cases acq <;> rfl

theorem clbLines_clean {w : Who} {j : Nat} {acq : Bool} : ∀ (l : List Nat) {s : State},
    (∀ k ∈ l, (s.line j k).dirty = 0#4 ∧ (s.line j k).bad = 0#4) →
    (forIn l PUnit.unit fun k (_ : PUnit) => (do
      clbLine w j k acq
      pure (ForInStep.yield PUnit.unit) : EM (ForInStep PUnit))).go s = (.ok ⟨⟩, if acq then l.foldl (fun r k => r.setLine j k CLine.zero) s else s)
  | [], s, _ => by cases acq <;> rfl
  | k :: t, s, h => by
    obtain ⟨h1, h2⟩ := h k (by simp)
    have e := clbLine_clean (w := w) (acq := acq) h1 h2
    have ih := clbLines_clean (w := w) (acq := acq) t (s := if acq then s.setLine j k CLine.zero else s) (by
      intro m hm
      cases acq with
      | false => exact h m (by simp [hm])
      | true =>
        simp only [if_true, line_setLine]
        split
        · exact ⟨rfl, rfl⟩
        · exact h m (by simp [hm]))
    rw [List.forIn_cons]
    refine EM.go_bind_ok (a := ForInStep.yield PUnit.unit) (EM.go_bind_ok e (EM.go_pure _ _)) ?_
    refine Eq.trans ih ?_
    cases acq <;> rfl

theorem healLine_calm {s : State} {j k off n : Nat} (h : (s.line j k).weak = 0#32) : (healLine j k off n).go s = (.ok ⟨⟩, s.setLine j k (s.line j k)) := by
  unfold healLine
  rw [EM.go_modify]
  have h0 : (s.line j k).weakIn off n = 0 := by
    unfold CLine.weakIn
    rw [h]
    simp
  have h1 : ∀ l : List Nat, l.foldl (fun m w => m &&& ~~~(1#32 <<< w)) (0#32) = 0#32 := by
    intro l; induction l with
    | nil => rfl
    | cons a t ih => simpa using ih
  have h2 : (s.line j k).heal (wordsOf off n) = s.line j k := by
    unfold CLine.heal
    rw [h, h1, ← h]
  dsimp only
  rw [h0, h2]
  rfl

/-! ## Code copied into a core -/

theorem ifillCopyDone_ok {s s' : State} {t a o : Nat} {bs : List Byte} (hl : s.loaded t = true) (hu : s.up = true)
    (hi : (s.core t).ifill = some (a, o))
    (e : (readSpan ⟨.ifill, some (s.jobOf t), s.ltile t, some 4⟩ 4096 a 4096).go s = (.ok bs, s')) :
    ∃ r, exec (.ifillCopyDone t) s = .next r ∧
        (∀ b, Bytes.rd (r.tile t).imem b =
          if o ≤ b ∧ b < o + bs.length then bs.getD (b - o) 0#8 else Bytes.rd (s'.tile t).imem b) ∧
        r.core t = { s'.core t with pc := (s'.core t).pc + 4, ifill := none } := by
  let x := ((s'.tile t).setMem .imem (((s'.tile t).mem .imem).write o bs))
  refine ⟨s'.setTile t { x with core := { x.core.next with ifill := none } }, ?_, ?_, ?_⟩
  · show execIfillCopyDone t s = _
    unfold execIfillCopyDone
    rw [hi]
    dsimp only
    rw [if_pos ⟨hl, hu⟩, e]
  · intro b
    rw [State.tile_setTile_self]
    show Bytes.rd (Bytes.wrList (s'.tile t).imem o bs) b = _
    by_cases hb : o ≤ b ∧ b < o + bs.length
    · rw [if_pos hb]
      have := Bytes.rd_wrList_in bs (s'.tile t).imem o (b - o) (by omega)
      rw [show o + (b - o) = b by omega] at this
      rw [this, List.getD_eq_getElem]
    · rw [if_neg hb]
      exact Bytes.rd_wrList_other _ _ _ _ (by omega)
  · unfold State.core
    rw [State.tile_setTile_self]
    rfl

theorem bytesAt_getD (s : State) (w : Who) (a n k : Nat) (h : k < n) : (s.bytesAt w a n).getD k 0#8 = s.byteAt w (a + k) := by
  rw [List.getD_eq_getElem _ _ (by simpa [State.bytesAt] using h)]
  simp [State.bytesAt]

end Sys2Proof.Machine
end

