-- ==== Sys2Proof/Laws/RunsSrv.lean ====
section
/-! SUPPORT. Work of the serving block and the sampler whose every access is served ends: accesses of the direct path, the
result ring, page lists, launches and sampled rows. -/
namespace Sys2Proof.Machine

section reads
variable {s : State} {w : Who} {wr : Bool} {lo hi : Nat}

/-- A read on the direct path of a calm range gives its bytes and changes nothing. -/
theorem rawSpanRead_calm : ∀ (f : Nat) {a n : Nat}, s.calm w wr lo hi = true → lo ≤ a → a + n ≤ hi → n ≤ f →
    (rawSpanRead w f a n).go s = (.ok (s.bytesAt w a n), s)
  | 0, a, n, _, _, _, hf => by
    obtain rfl : n = 0 := by omega
    rfl
  | f + 1, a, n, h, h1, h2, hf => by
    unfold rawSpanRead
    split
    · rename_i hn
      subst hn
      rfl
    · rename_i hn
      have hk : granuleRoom a n = min n (64 - a % 64) := rfl
      have hm := Nat.mod_lt a (show 0 < 64 by decide)
      refine EM.go_bind_ok (rawRead_calm h h1 (by omega) (by omega) (by omega))
        (EM.go_bind_ok (rawSpanRead_calm f h (by omega) (by omega) (by omega)) ?_)
      have := bytesAt_append s w a (granuleRoom a n) (n - granuleRoom a n)
      rw [show granuleRoom a n + (n - granuleRoom a n) = n by omega] at this
      rw [this]
      rfl

theorem srvTry_ok {α : Type} {j : Option Nat} {x : EM α} {a : α} {r : State} (h : x.go s = (.ok a, r)) :
    (srvTry j x).go s = (.ok a, r) := EM.go_tryCatch_ok h

theorem srvRd_calm (h : s.calm (srvWho none) wr lo hi = true) (j : Nat) {a n : Nat} (h1 : lo ≤ a) (h2 : a + n ≤ hi) :
    (srvRd j a n).go s = (.ok (s.bytesAt (srvWho none) a n), s) :=
  srvTry_ok (rawSpanRead_calm n h h1 h2 (Nat.le_refl n))

theorem srvRdNat_calm (h : s.calm (srvWho none) wr lo hi = true) (j : Nat) {a n : Nat} (h1 : lo ≤ a) (h2 : a + n ≤ hi) :
    (srvRdNat j a n).go s = (.ok (s.natAt (srvWho none) a n), s) := EM.go_bind_ok (srvRd_calm h j h1 h2) rfl

theorem smpRd_calm {j : Nat} (h : s.calm (srvWho (some j)) wr lo hi = true) {a n : Nat} (h1 : lo ≤ a) (h2 : a + n ≤ hi) :
    (smpRd j a n).go s = (.ok (s.bytesAt (srvWho (some j)) a n), s) :=
  srvTry_ok (EM.go_bind_ok (checkSeg_calm h false h1 h2) (rawSpanRead_calm n h h1 h2 (Nat.le_refl n)))

theorem smpRdNat_calm {j : Nat} (h : s.calm (srvWho (some j)) wr lo hi = true) {a n : Nat} (h1 : lo ≤ a) (h2 : a + n ≤ hi) :
    (smpRdNat j a n).go s = (.ok (s.natAt (srvWho (some j)) a n), s) := EM.go_bind_ok (smpRd_calm h h1 h2) rfl

end reads

/-! ## Writes

What a write of a calm range leaves is as before but for bytes, so what holds of every such state holds after it. -/

/-- P says nothing of bytes that calm writes change, and lets w write the bytes lo to hi - 1. -/
structure Serves (P : State → Prop) (w : Who) (lo hi : Nat) : Prop where
  calm : ∀ s, P s → s.calm w true lo hi = true
  kept : ∀ s t, P s → Kept s t → P t

section writes
variable {P : State → Prop} {w : Who} {lo hi j : Nat}

theorem rawSpanWrite_ends (h : Serves P w lo hi) : ∀ (f : Nat) {a : Nat} (bs : List Byte), lo ≤ a → a + bs.length ≤ hi →
    (rawSpanWrite w f a bs).Ends P (fun _ => True)
  | 0, _, _, _, _ => EM.ends_pure trivial
  | f + 1, a, [], _, _ => EM.ends_pure trivial
  | f + 1, a, b :: bs, h1, h2 => by
    unfold rawSpanWrite
    have hl : (b :: bs).length = bs.length + 1 := rfl
    refine EM.Ends.bind (Q := fun _ => True) (fun s hs => ?_) fun _ _ => rawSpanWrite_ends h f _ (by omega) ?_
    · obtain ⟨r, e, k⟩ := rawWrite_calm (h.calm s hs) ((b :: bs).take (granuleRoom a (b :: bs).length)) h1 (by omega)
      exact ⟨_, r, e, h.kept s r hs k, trivial⟩
    · have hk : granuleRoom a (b :: bs).length = min (b :: bs).length (64 - a % 64) := rfl
      rw [List.length_drop]
      omega

theorem srvWr_ends (h : Serves P (srvWho none) lo hi) {a : Nat} {bs : List Byte} (h1 : lo ≤ a) (h2 : a + bs.length ≤ hi) :
    (srvWr j a bs).Ends P (fun _ => True) := EM.Ends.tryCatch (rawSpanWrite_ends h _ _ h1 h2)

theorem srvWrNat_ends (h : Serves P (srvWho none) lo hi) {a n : Nat} (v : Nat) (h1 : lo ≤ a) (h2 : a + n ≤ hi) :
    (srvWrNat j a n v).Ends P (fun _ => True) := srvWr_ends h h1 (by rw [leBytes_len]; exact h2)

theorem srvRd_ends (h : Serves P (srvWho none) lo hi) {a n : Nat} (h1 : lo ≤ a) (h2 : a + n ≤ hi) :
    (srvRd j a n).Ends P (fun bs => bs.length = n) := fun s hs =>
  ⟨_, s, srvRd_calm (h.calm s hs) j h1 h2, hs, by simp [State.bytesAt]⟩

theorem srvRdNat_ends (h : Serves P (srvWho none) lo hi) {a n : Nat} (h1 : lo ≤ a) (h2 : a + n ≤ hi) :
    (srvRdNat j a n).Ends P (fun _ => True) := (srvRd_ends h h1 h2).bind fun _ _ => EM.ends_pure trivial

theorem smpWr_ends (h : Serves P (srvWho (some j)) lo hi) {a : Nat} {bs : List Byte} (h1 : lo ≤ a) (h2 : a + bs.length ≤ hi) :
    (smpWr j a bs).Ends P (fun _ => True) := EM.Ends.tryCatch
  (EM.Ends.bind (Q := fun _ => True) (fun s hs => ⟨_, s, checkSeg_calm (h.calm s hs) true h1 h2, hs, trivial⟩)
    fun _ _ => rawSpanWrite_ends h _ _ h1 h2)

theorem smpWrNat_ends (h : Serves P (srvWho (some j)) lo hi) {a n : Nat} (v : Nat) (h1 : lo ≤ a) (h2 : a + n ≤ hi) :
    (smpWrNat j a n v).Ends P (fun _ => True) := smpWr_ends h h1 (by rw [leBytes_len]; exact h2)

theorem smpRd_ends (h : Serves P (srvWho (some j)) lo hi) {a n : Nat} (h1 : lo ≤ a) (h2 : a + n ≤ hi) :
    (smpRd j a n).Ends P (fun bs => bs.length = n) := fun s hs =>
  ⟨_, s, smpRd_calm (h.calm s hs) h1 h2, hs, by simp [State.bytesAt]⟩

theorem smpRdNat_ends (h : Serves P (srvWho (some j)) lo hi) {a n : Nat} (h1 : lo ≤ a) (h2 : a + n ≤ hi) :
    (smpRdNat j a n).Ends P (fun _ => True) := (smpRd_ends h h1 h2).bind fun _ _ => EM.ends_pure trivial

end writes

/-! ## Entries and serving jobs -/

@[simp] theorem State.req_setReq_self (s : State) (i : Nat) (r : Req) : (s.setReq i r).req i = r := SMap.get_put_self _ _ _ _

theorem State.req_setReq_other (s : State) {i k : Nat} (r : Req) (h : k ≠ i) : (s.setReq i r).req k = s.req k :=
  SMap.get_put_other _ _ _ h

@[simp] theorem State.srvJob_setSrvJob_self (s : State) (j : Nat) (x : SrvJob) : (s.setSrvJob j x).srvJob j = x :=
  SMap.get_put_self _ _ _ _

theorem State.srvJob_setSrvJob_other (s : State) {j k : Nat} (x : SrvJob) (h : k ≠ j) :
    (s.setSrvJob j x).srvJob k = s.srvJob k := SMap.get_put_other _ _ _ h

@[simp] theorem State.req_setSrvJob (s : State) (j i : Nat) (x : SrvJob) : (s.setSrvJob j x).req i = s.req i := rfl
@[simp] theorem State.srvJob_setReq (s : State) (j i : Nat) (r : Req) : (s.setReq i r).srvJob j = s.srvJob j := rfl
@[simp] theorem State.req_setFlag (s : State) (i : Nat) (r : FRef) (b : Bool) : (s.setFlag r b).req i = s.req i := rfl
@[simp] theorem State.srvJob_setFlag (s : State) (j : Nat) (r : FRef) (b : Bool) : (s.setFlag r b).srvJob j = s.srvJob j := rfl

/-- Entries, serving jobs and waiting records put in place of others. -/
def State.serve' (s : State) (a : SMap Req) (b : SMap SrvJob) (c : List (Nat × List W64)) (d : Nat) : State :=
  { s with rqt := a, srv := b, srvIn := c, arrivals := d }

theorem State.calm_serve' (s : State) (a : SMap Req) (b : SMap SrvJob) (c : List (Nat × List W64)) (d : Nat) (w : Who)
    (wr : Bool) (lo hi : Nat) : (s.serve' a b c d).calm w wr lo hi = s.calm w wr lo hi := rfl

section kept
variable {s0 s : State}
theorem Kept.req (h : Kept s0 s) (i : Nat) : s.req i = s0.req i := h.same (fun x => x.req i) (fun _ => rfl)
theorem Kept.srvJob (h : Kept s0 s) (j : Nat) : s.srvJob j = s0.srvJob j := h.same (fun x => x.srvJob j) (fun _ => rfl)
end kept

theorem serves_kept {s : State} {w : Who} {lo hi : Nat} (k : s.calm w true lo hi = true) : Serves (Kept s) w lo hi :=
  ⟨fun _ hs => (hs.calm w true lo hi).trans k, fun _ _ hs ht => hs.trans ht⟩

/-! ## The result ring -/

/-- There is room for a record while the ring holds fewer than its size less one (R520). -/
theorem resRoom_calm {s : State} {lo hi wr j : _} (h : s.calm (srvWho none) wr lo hi = true) (h1 : lo ≤ s.resBase j + 8)
    (h2 : s.resBase j + 16 ≤ hi) : (resRoom j).go s = (.ok (decide (((s.srvJob j).prod + 2 ^ 32 -
      s.natAt (srvWho none) (s.resBase j + 8) 8 % 2 ^ 32) % 2 ^ 32 < s.resSize j - 1)), s) := by
  unfold resRoom
  refine EM.go_bind_ok (EM.go_get s) (EM.go_bind_ok ?_ rfl)
  unfold resUsed
  exact EM.go_bind_ok (EM.go_get s) (EM.go_bind_ok (srvRdNat_calm h j h1 h2) rfl)

theorem evOf_resWords (ev reason : Nat) (noent : Bool) (j idx : Nat) (r : Req) (v : Nat) :
    fld (((resWords ev reason noent j idx r v).head?).getD 0#64) 59 57 = ev % 8 := by
  show fld (setFld (setFld (setFld (setFld (setFld (setFld (setFld 0#64 63 60 r.state) 59 57 ev) 56 54 reason) 53 53
    noent.toNat) 52 47 j) 46 32 idx) 31 0 v) 59 57 = _
  rw [fld_setFld_other _ _ _ _ _ _ (by decide) (by decide) (by decide), fld_setFld_other _ _ _ _ _ _ (by decide) (by decide)
    (by decide), fld_setFld_other _ _ _ _ _ _ (by decide) (by decide) (by decide), fld_setFld_other _ _ _ _ _ _ (by decide)
    (by decide) (by decide), fld_setFld_other _ _ _ _ _ _ (by decide) (by decide) (by decide),
    fld_setFld_self _ _ _ _ (by decide) (by decide)]
  rfl

theorem flatMap_bytes8 : ∀ (ws : List W64), (ws.flatMap (fun w => leBytes 8 w.toNat)).length = 8 * ws.length
  | [] => rfl
  | w :: t => by
    rw [List.flatMap_cons, List.length_append, leBytes_len, flatMap_bytes8 t, List.length_cons]
    omega

/-- What a record leaves beside its bytes: PROD counts it, its message is posted, and a terminal record frees its entry. -/
def State.recorded (s : State) (j : Nat) (ws : List W64) : State :=
  let p := ((s.srvJob j).prod + 1) % 2 ^ 32
  let w0 := (ws.head?).getD 0#64
  let s := s.setSrvJob j { s.srvJob j with prod := p }
  let s := if (fld w0 59 57 = evFINAL ∨ fld w0 59 57 = evREFUSE) ∧ fld w0 53 53 = 0 then s.setReq (fld w0 46 32) Req.zero else s
  s.post 2 (some j) (BitVec.ofNat 64 p) (s.resBase j)

theorem resSize_pos (s : State) (j : Nat) : 0 < s.resSize j := Nat.pos_of_ne_zero (by unfold State.resSize; positivity)

/-- A record is written where its ring lies in a calm range. -/
theorem writeResult_calm {s : State} {lo hi j : Nat} {ws : List W64} (h : s.calm (srvWho none) true lo hi = true)
    (h1 : lo ≤ s.resBase j) (h2 : s.resBase j + 64 + 32 * s.resSize j ≤ hi) (hw : ws.length = 3) :
    ∃ r, Kept s r ∧ (writeResult j ws).go s = (.ok ⟨⟩, r.recorded j ws) := by
  have hp := Nat.mod_lt (s.srvJob j).prod (resSize_pos s j)
  obtain ⟨_, r1, e1, k1, -⟩ := srvWr_ends (j := j) (serves_kept h) (a := s.resBase j + 64 + 32 * ((s.srvJob j).prod % s.resSize j))
    (bs := (ws ++ [s.reg (SRV_JOB_STEP.at j)]).flatMap (fun w => leBytes 8 w.toNat)) (by omega)
    (by rw [flatMap_bytes8, List.length_append, hw, List.length_singleton]; omega) s (Kept.refl s)
  obtain ⟨_, r2, e2, k2, -⟩ := srvWrNat_ends (j := j) (serves_kept h) (a := s.resBase j) (n := 8)
    (((s.srvJob j).prod + 1) % 2 ^ 32) (by omega) (by omega) r1 k1
  refine ⟨r2, k2, ?_⟩
  unfold writeResult
  refine EM.go_bind_ok (EM.go_get s) (EM.go_bind_ok e1 (EM.go_bind_ok e2 ?_))
  rw [EM.go_modify]
  have hb : r2.resBase j = s.resBase j := k2.f _
  have hc : ((ws ++ [s.reg (SRV_JOB_STEP.at j)]).head?).getD 0#64 = (ws.head?).getD 0#64 := by
    cases ws with
    | nil => simp at hw
    | cons a t => rfl
  refine congrArg (Prod.mk _) ?_
  unfold State.recorded
  dsimp only
  rw [hc, k2.srvJob j]
  split
  · exact congrArg _ hb.symm
  · exact congrArg _ hb.symm

/-- RES_WAIT is off where no boundary and no record of the job waits. -/
theorem showHold_none {s : State} {j : Nat} (h : (s.srvJob j).bnd = false)
    (k : s.srvIn.all (fun p => srvInJob p != j) = true) :
    (showHold j).go s = (.ok ⟨⟩, s.setFlag (SRV_JOB_STATUS.RES_WAIT j) false) := by
  have e : s.srvIn.any (fun p => srvInJob p == j) = false := by
    rw [List.any_eq_false]
    intro p hp
    have := (List.all_eq_true.1 k) p hp
    simpa using this
  unfold showHold
  refine EM.go_bind_ok (EM.go_get s) ?_
  rw [h, e]
  exact EM.go_bind_ok (EM.go_pure _ _) (EM.go_modify _ _)

theorem takeRecord_first {s r : State} {kind : Nat} {work : List W64 → EM Unit} {ws : List W64} {rest : List (Nat × List W64)}
    {lo hi : Nat} (hs : s.srvIn = (kind, ws) :: rest) (hb : (s.srvJob (fld (ws.headD 0#64) 63 58)).bnd = false)
    (hk : kind = 2 → (s.srvJob (fld (ws.headD 0#64) 63 58)).ready = false)
    (h : s.resReady (fld (ws.headD 0#64) 63 58) rest lo hi)
    (e : (do work ws; showHold (fld (ws.headD 0#64) 63 58)).go { s with srvIn := rest } = (.ok ⟨⟩, r)) :
    (takeRecord kind work).go s = (.ok ⟨⟩, r) := by
  have hj : srvInJob (kind, ws) = fld (ws.headD 0#64) 63 58 := by unfold srvInJob; cases ws <;> rfl
  obtain ⟨hc, h1, h2, h3, -⟩ := h
  unfold takeRecord
  refine EM.go_bind_ok (EM.go_get s) (EM.go_bind_ok (a := some 0) (s' := s) ?_ ?_)
  · rw [hs]
    unfold firstReady
    refine EM.go_bind_ok (EM.go_get s) ?_
    dsimp only
    rw [hj, if_neg (by simp), if_pos ⟨rfl, by rw [hb]; rfl, fun hh => by rw [hk hh.1] at hh; cases hh.2⟩]
    refine EM.go_bind_ok (resRoom_calm hc (by omega) (by omega)) ?_
    rw [decide_eq_true h3]
    rfl
  · dsimp only
    refine EM.go_bind_ok (EM.go_modify _ _) ?_
    rw [hs]
    dsimp only [List.take, List.drop, List.nil_append, Nat.zero_add]
    have e0 : (((kind, ws) :: rest)[0]?).getD (0, []) = (kind, ws) := rfl
    rw [e0, hj]
    exact e

/-! ## Requests -/

/-- A request as an accepted REQUEST leaves it in entry k of x, before its record. -/
def queuedReq (x : State) (ws : List W64) : Req :=
  let q := reqOf ws
  { q with arrival := x.arrivals, node := 0, matched := 0, home := 0,
           commit := ceilDiv (q.promptLen + q.maxNew) 16 - ceilDiv 0 16 + 1, state := qQUEUED, result := raDEFER, reason := rnQUEUE }

/-- The table with that request in entry k and its place in the queue. -/
def queuedIn (x : State) (k : Nat) (ws : List W64) : State :=
  let s0 : State := { x with arrivals := x.arrivals + 1 }
  let s1 := s0.setReq k (queuedReq x ws)
  s1.setReq k { queuedReq x ws with qpos := s1.qposOf (reqOf ws).job k }

/-- A sound request without a prefix is queued where an entry, the quota and the pool allow it (R518). -/
theorem observeRequest_ok {x out : State} {ws : List W64} {k : Nat} (hf : x.requestFormat ws (reqOf ws) = true)
    (hk : x.freeReq = some k) (hn : x.queuedAll < 4096) (hl : (reqOf ws).left ≠ 0) (hp : (reqOf ws).pfxUse = false)
    (hq : (queuedReq x ws).commit ≤ x.quota (reqOf ws).job)
    (hpp : (queuedReq x ws).commit ≤ (x.srvJob (reqOf ws).job).poolPages)
    (e : (result (reqOf ws).job (resWords evDEFER rnQUEUE false (reqOf ws).job k ((queuedIn x k ws).req k)
      ((queuedIn x k ws).req k).qpos)).go (queuedIn x k ws) = (.ok ⟨⟩, out)) :
    (observeRequest ws).go x = (.ok ⟨⟩, out) := by
  unfold observeRequest
  refine EM.go_bind_ok (EM.go_get _) ?_
  extract_lets src rr jj
  refine EM.go_bind_ok (EM.go_set _ _) ?_
  have hff : State.requestFormat x ws rr = true := hf
  rw [hff, hk]
  rw [if_neg (show ¬ ((!true) = true) by decide)]
  dsimp only
  rw [if_neg (show ¬ x.queuedAll ≥ 4096 by omega), if_neg (show ¬ rr.left = 0 from hl)]
  have hpu : rr.pfxUse = false := hp
  rw [if_neg (show ¬ rr.pfxUse = true by rw [hpu]; decide)]
  refine EM.go_bind_ok (EM.go_pure _ _) ?_
  show EM.go (if (queuedReq x ws).commit > x.quota (reqOf ws).job then _
    else if (queuedReq x ws).commit > (x.srvJob (reqOf ws).job).poolPages then _ else _) _ = _
  rw [if_neg (by omega), if_neg (by omega)]
  refine EM.go_bind_ok (a := ⟨⟩) rfl ?_
  refine EM.go_bind_ok (EM.go_modify _ _) (EM.go_bind_ok (s' := queuedIn x k ws) (EM.go_modify _ _)
    (EM.go_bind_ok (EM.go_get _) ?_))
  exact e

/-! ## Pins, launches and reports -/

section pins
variable {s : State} {lo hi plo phi j : Nat}

/-- A page whose map word lies in the range. -/
def State.mapIn (s : State) (j p lo hi : Nat) : Prop :=
  lo ≤ s.mapAt j (nameStack p) (namePage p) ∧ s.mapAt j (nameStack p) (namePage p) + 8 ≤ hi

theorem Kept.mapAt {s0 s : State} (h : Kept s0 s) (j n k : Nat) : s.mapAt j n k = s0.mapAt j n k :=
  h.same (fun x => x.mapAt j n k) (fun _ => rfl)

theorem addPin_ends (h : s.calm (srvWho none) true lo hi = true) {p : Nat} (up : Bool) (hp : s.mapIn j p lo hi) :
    (addPin j p up).Ends (Kept s) (fun _ => True) := by
  unfold addPin mapWord setMapWord
  refine EM.Ends.bind (Q := fun _ => True) (EM.Ends.bind EM.ends_get fun x hx => ?_) fun w _ => EM.Ends.bind EM.ends_get fun x hx => ?_
  · rw [Kept.mapAt hx]
    exact (srvRdNat_ends (serves_kept h) hp.1 hp.2).bind fun _ _ => EM.ends_pure trivial
  · rw [Kept.mapAt hx]
    exact srvWrNat_ends (serves_kept h) _ hp.1 hp.2

theorem addPins_ends (h : s.calm (srvWho none) true lo hi = true) {ps : List Nat} (up : Bool)
    (hp : ∀ p ∈ ps, s.mapIn j p lo hi) : (ps.forM (fun p => addPin j p up)).Ends (Kept s) (fun _ => True) :=
  EM.ends_forM ps fun p hm => addPin_ends h up (hp p hm)

/-- The page list of request i, in a calm range: the names that it holds. -/
theorem listPages_calm {wr : Bool} (h : s.calm (srvWho none) wr lo hi = true) {i : Nat}
    (hi' : ∀ e < (s.req i).entries, lo ≤ ((s.srvJob j).kvh.head?).getD 0 + 64 + 4 * (s.srvJob j).listPages * i + 4 * e ∧
      ((s.srvJob j).kvh.head?).getD 0 + 64 + 4 * (s.srvJob j).listPages * i + 4 * e + 4 ≤ hi) :
    ∃ l, (listPages j i).go s = (.ok l, s) ∧ ∀ p ∈ l, p ≠ noPage ∧ ∃ e < (s.req i).entries,
      p = s.natAt (srvWho none) (((s.srvJob j).kvh.head?).getD 0 + 64 + 4 * (s.srvJob j).listPages * i + 4 * e) 4 := by
  have one : ∀ (es : List Nat) (out : List Nat), (∀ e ∈ es, e < (s.req i).entries) →
      (∀ p ∈ out, p ≠ noPage ∧ ∃ e < (s.req i).entries,
        p = s.natAt (srvWho none) (((s.srvJob j).kvh.head?).getD 0 + 64 + 4 * (s.srvJob j).listPages * i + 4 * e) 4) →
      ∃ l, (forIn es out fun e (out : List Nat) => (do
        let p ← pageEntry j i e
        if p ≠ noPage then pure (ForInStep.yield (out ++ [p])) else pure (ForInStep.yield out) : EM (ForInStep (List Nat)))).go s =
          (.ok l, s) ∧ ∀ p ∈ l, p ≠ noPage ∧ ∃ e < (s.req i).entries,
        p = s.natAt (srvWho none) (((s.srvJob j).kvh.head?).getD 0 + 64 + 4 * (s.srvJob j).listPages * i + 4 * e) 4 := by
    intro es
    induction es with
    | nil => exact fun out _ ho => ⟨out, rfl, ho⟩
    | cons e t ih =>
      intro out he ho
      obtain ⟨h1, h2⟩ := hi' e (he e (by simp))
      have hr : (pageEntry j i e).go s = (.ok (s.natAt (srvWho none) (((s.srvJob j).kvh.head?).getD 0 + 64 +
          4 * (s.srvJob j).listPages * i + 4 * e) 4), s) :=
        EM.go_bind_ok (EM.go_get s) (srvRdNat_calm h j h1 h2)
      by_cases hn : s.natAt (srvWho none) (((s.srvJob j).kvh.head?).getD 0 + 64 + 4 * (s.srvJob j).listPages * i + 4 * e) 4 = noPage
      · obtain ⟨l, e1, e2⟩ := ih out (fun x hx => he x (by simp [hx])) ho
        refine ⟨l, ?_, e2⟩
        rw [List.forIn_cons]
        refine EM.go_bind_ok (a := ForInStep.yield out) (s' := s) (EM.go_bind_ok hr ?_) e1
        rw [if_neg (by rw [hn]; simp)]
        rfl
      · obtain ⟨l, e1, e2⟩ := ih (out ++ [_]) (fun x hx => he x (by simp [hx])) (by
          intro p hp
          rcases List.mem_append.1 hp with hp | hp
          · exact ho p hp
          · rw [List.mem_singleton.1 hp]
            exact ⟨hn, e, he e (by simp), rfl⟩)
        refine ⟨l, ?_, e2⟩
        rw [List.forIn_cons]
        refine EM.go_bind_ok (a := ForInStep.yield _) (s' := s) (EM.go_bind_ok hr ?_) e1
        rw [if_pos hn]
        rfl
  obtain ⟨l, e1, e2⟩ := one (List.range (s.req i).entries) [] (fun e he => List.mem_range.1 he) (by simp)
  refine ⟨l, ?_, e2⟩
  unfold listPages
  exact EM.go_bind_ok (EM.go_get s) (EM.go_bind_ok e1 (EM.go_pure _ _))

/-- A report releases the pins of its step. -/
theorem report_ends (h : s.calm (srvWho none) true lo hi = true) {k : Nat} {pins : List Nat}
    (hf : (s.srvJob j).unrep.find? (fun p => p.1 == k) = some (k, pins)) (hp : ∀ p ∈ pins, s.mapIn j p lo hi) :
    ∃ t, (report j k).go s = (.ok ⟨⟩, t) ∧
      t.srvJob j = { s.srvJob j with unrep := (s.srvJob j).unrep.filter (fun p => p.1 != k) } := by
  have one : ∀ (l : List Nat) (x : State), Kept s x → (∀ p ∈ l, s.mapIn j p lo hi) →
      ∃ t, Kept s t ∧ (forIn l PUnit.unit fun pg (_ : PUnit) => (do
        addPin j pg false
        pure (ForInStep.yield PUnit.unit) : EM (ForInStep PUnit))).go x = (.ok ⟨⟩, t) := by
    intro l
    induction l with
    | nil => exact fun x hx _ => ⟨x, hx, rfl⟩
    | cons a t ih =>
      intro x hx hm
      obtain ⟨_, y, e1, ky, -⟩ := addPin_ends (s := s) h false (hm a (by simp)) x hx
      obtain ⟨z, kz, e2⟩ := ih y ky (fun p hp => hm p (by simp [hp]))
      refine ⟨z, kz, ?_⟩
      rw [List.forIn_cons]
      exact EM.go_bind_ok (EM.go_bind_ok e1 (EM.go_pure _ _)) e2
  obtain ⟨t, kt, e⟩ := one pins s (Kept.refl s) hp
  refine ⟨_, ?_, State.srvJob_setSrvJob_self t j { s.srvJob j with unrep := (s.srvJob j).unrep.filter (fun p => p.1 != k) }⟩
  unfold report
  refine EM.go_bind_ok (EM.go_get s) ?_
  rw [hf]
  refine EM.go_bind_ok e ?_
  rw [EM.go_modify, kt.srvJob]

end pins

/-! ## Launches -/

section launch
variable {s : State} {lo hi plo phi j : Nat}

/-- A parameter block in a calm range is read (R558). -/
theorem readParam_calm {wr : Bool} (h : s.calm (srvWho (some j)) wr lo hi = true) {a : Nat} (h1 : lo ≤ a) (h2 : a + 128 ≤ hi)
    (h3 : lo ≤ fld (wordAt (s.bytesAt (srvWho (some j)) a 128) 8) 47 0)
    (h4 : fld (wordAt (s.bytesAt (srvWho (some j)) a 128) 8) 47 0 +
      8 * min 64 (fld (wordAt (s.bytesAt (srvWho (some j)) a 128) 8) 63 56) ≤ hi) :
    ∃ q, (readParam j a).go s = (.ok q, s) ∧ q.ssb = fld (wordAt (s.bytesAt (srvWho (some j)) a 128) 6) 47 0 ∧
      q.gram = fld (wordAt (s.bytesAt (srvWho (some j)) a 128) 7) 47 0 ∧ q.topK ≤ 4096 := by
  refine ⟨_, EM.go_bind_ok (smpRd_calm h h1 h2) (EM.go_bind_ok (smpRd_calm h h3 h4) (EM.go_pure _ _)), rfl, rfl, ?_⟩
  dsimp only
  split
  · rename_i hh
    exact hh.2
  · exact Nat.le_refl _

theorem draftsOf_calm {i : Nat}
    (h : (s.req i).state = qDECODE → s.flag (SMP_JOB_CTL.SPEC_EN j) = true → s.paramIn j i lo hi) :
    ∃ d, (draftsOf j i).go s = (.ok d, s) := by
  unfold draftsOf
  by_cases hs : (s.req i).state = qDECODE ∧ s.flag (SMP_JOB_CTL.SPEC_EN j) = true
  · obtain ⟨hc, ⟨h1, h2⟩, h3, h4⟩ := h hs.1 hs.2
    obtain ⟨q, e, -⟩ := readParam_calm hc h1 h2 h3 h4
    refine ⟨min q.specD ((s.req i).maxNew - (s.req i).delivered - 1), EM.go_bind_ok (EM.go_get s) ?_⟩
    dsimp only
    rw [if_pos hs]
    exact EM.go_bind_ok e (EM.go_pure _ _)
  · refine ⟨0, EM.go_bind_ok (EM.go_get s) ?_⟩
    dsimp only
    rw [if_neg hs]
    rfl

theorem buildRows_calm : ∀ (l : List Nat) (r0 : Nat),
    (∀ i ∈ l, (s.req i).state = qDECODE → s.flag (SMP_JOB_CTL.SPEC_EN j) = true → s.paramIn j i lo hi) →
    ∃ rows, (buildRows j l r0).go s = (.ok rows, s) ∧ rows.map (·.idx) = l
  | [], _, _ => ⟨[], rfl, rfl⟩
  | i :: t, r0, h => by
    obtain ⟨d, e⟩ := draftsOf_calm (h i (by simp))
    obtain ⟨rows, e2, h2⟩ := buildRows_calm t (r0 + s.nqOf j i d) (fun k hk => h k (by simp [hk]))
    refine ⟨⟨i, s.nqOf j i d, (s.req i).pos, r0, d, (s.req i).delivered, 0, 0, [], none, none, false⟩ :: rows, ?_, ?_⟩
    · unfold buildRows
      exact EM.go_bind_ok e (EM.go_bind_ok (EM.go_get s) (EM.go_bind_ok e2 (EM.go_pure _ _)))
    · rw [List.map_cons, h2]

theorem mapM_calm {α β : Type} {f : α → EM β} {Q : α → β → Prop} : ∀ (l : List α),
    (∀ a ∈ l, ∃ b, (f a).go s = (.ok b, s) ∧ Q a b) →
    ∃ bs, (l.mapM f).go s = (.ok bs, s) ∧ ∀ b ∈ bs, ∃ a ∈ l, Q a b
  | [], _ => ⟨[], by rw [List.mapM_nil]; rfl, by simp⟩
  | a :: t, h => by
    obtain ⟨b, e, hq⟩ := h a (by simp)
    obtain ⟨bs, e2, h2⟩ := mapM_calm t (fun c hc => h c (by simp [hc]))
    refine ⟨b :: bs, ?_, ?_⟩
    · rw [List.mapM_cons]
      exact EM.go_bind_ok e (EM.go_bind_ok e2 (EM.go_pure _ _))
    · intro c hc
      rcases List.mem_cons.1 hc with rfl | hc
      · exact ⟨a, by simp, hq⟩
      · obtain ⟨x, hx, hh⟩ := h2 c hc
        exact ⟨x, by simp [hx], hh⟩

theorem entries_length : ∀ rows : List RowSt, (rows.flatMap RowSt.entry).length = 16 * rows.length
  | [] => rfl
  | r :: t => by
    rw [List.flatMap_cons, List.length_append, entries_length t, List.length_cons]
    unfold RowSt.entry
    rw [List.length_append, leBytes_len, leBytes_len]
    omega

/-- A launch whose descriptor, page lists and map words lie in calm ranges. -/
theorem launch_calm (h : s.calm (srvWho none) true lo hi = true) (h1 : lo ≤ s.f (SRV_JOB_BD.BASE j))
    (h2 : s.f (SRV_JOB_BD.BASE j) + (192 + 16 * (s.srvJob j).order.length) ≤ hi)
    (hp : ∀ i ∈ (s.srvJob j).order, (s.req i).state = qDECODE → s.flag (SMP_JOB_CTL.SPEC_EN j) = true → s.paramIn j i plo phi)
    (hl : ∀ i ∈ (s.srvJob j).order, ∀ e < (s.req i).entries,
      (lo ≤ ((s.srvJob j).kvh.head?).getD 0 + 64 + 4 * (s.srvJob j).listPages * i + 4 * e ∧
        ((s.srvJob j).kvh.head?).getD 0 + 64 + 4 * (s.srvJob j).listPages * i + 4 * e + 4 ≤ hi) ∧
      (s.natAt (srvWho none) (((s.srvJob j).kvh.head?).getD 0 + 64 + 4 * (s.srvJob j).listPages * i + 4 * e) 4 ≠ noPage →
        s.mapIn j (s.natAt (srvWho none) (((s.srvJob j).kvh.head?).getD 0 + 64 + 4 * (s.srvJob j).listPages * i + 4 * e) 4) lo hi)) :
    ∃ r rows pins, Kept s r ∧ rows.map (·.idx) = (s.srvJob j).order ∧
      (launch j).go s = (.ok ⟨⟩, r.launched j (((s.reg (SRV_JOB_STEP.at j)).toNat + 1) % 2 ^ 64) rows pins) := by
  obtain ⟨rows, e1, hr⟩ := buildRows_calm (s.srvJob j).order 0 hp
  obtain ⟨ls, e2, hls⟩ := mapM_calm (f := listPages j) (Q := fun _ l => ∀ p ∈ l, s.mapIn j p lo hi) (s.srvJob j).order fun i hi' => by
    obtain ⟨l, e, hq⟩ := listPages_calm h (fun x hx => (hl i hi' x hx).1)
    refine ⟨l, e, fun p hpm => ?_⟩
    obtain ⟨hn, x, hx, rfl⟩ := hq p hpm
    exact (hl i hi' x hx).2 hn
  have hrl : rows.length = (s.srvJob j).order.length := by rw [← hr, List.length_map]
  obtain ⟨_, r1, e3, k1, -⟩ := srvWr_ends (j := j) (serves_kept h) (a := s.f (SRV_JOB_BD.BASE j) + 192)
    (bs := rows.flatMap RowSt.entry) (by omega) (by rw [entries_length]; omega) s (Kept.refl s)
  obtain ⟨_, r2, e4, k2, -⟩ := srvWr_ends (j := j) (serves_kept h) (a := s.f (SRV_JOB_BD.BASE j))
    (bs := leBytes 8 (((s.reg (SRV_JOB_STEP.at j)).toNat + 1) % 2 ^ 64) ++
      leBytes 8 (setFld (setFld (setFld 0#64 55 52 (s.srvJob j).planes) 47 24 (rows.map (·.nq)).sum) 9 0 rows.length).toNat ++
      List.replicate 48 0#8) (by omega)
    (by rw [List.length_append, List.length_append, leBytes_len, leBytes_len, List.length_replicate]; omega) r1 k1
  obtain ⟨_, r3, e5, k3, -⟩ := addPins_ends (j := j) h (ps := ls.flatten) true (fun p hpm => by
    obtain ⟨l, hlm, hpl⟩ := List.mem_flatten.1 hpm
    obtain ⟨_, _, hq⟩ := hls l hlm
    exact hq p hpl) r2 k2
  refine ⟨r3, rows, ls.flatten, k3, hr, ?_⟩
  unfold launch
  refine EM.go_bind_ok (EM.go_get s) (EM.go_bind_ok e1 (EM.go_bind_ok e2 (EM.go_bind_ok e3 (EM.go_bind_ok e4
    (EM.go_bind_ok e5 ?_)))))
  exact EM.go_modify _ _

theorem State.setCtx_srv (s : State) (j l : Nat) (x : TileState) : (s.setCtx j l x).srv = s.srv ∧ (s.setCtx j l x).regs = s.regs := by
  unfold State.setCtx
  split <;> exact ⟨rfl, rfl⟩

theorem State.signal_srv (s : State) (j l tok inc : Nat) :
    (s.signal j l tok inc).srv = s.srv ∧ (s.signal j l tok inc).regs = s.regs := by
  have h := s.setCtx_srv j l ((s.ctx j l).signal tok inc)
  unfold State.signal State.unpark
  split <;> exact h

theorem State.reg_setF_at (s : State) (r : FRef) (v a : Nat) (h : a ≠ r.off) : (s.setF r v).reg a = s.reg a := by
  unfold State.setF
  rw [State.reg_setReg, if_neg h]

theorem State.stepSet_step (s : State) {j : Nat} (hj : j < 64) (step : Nat) :
    (s.stepSet j step).reg (SRV_JOB_STEP.at j) = BitVec.ofNat 64 step := by
  have h1 : SRV_JOB_STEP.at j ≠ (SRV_JOB_STATUS.STEP_PLANES j).off := by
    show 0x201028 + 0x40 * j ≠ 0x201020 + 0x40 * j
    omega
  have h2 : SRV_JOB_STEP.at j ≠ (DSK_JOB_CNT.LOW_STEPS j).off := by
    show 0x201028 + 0x40 * j ≠ 0x300008 + 0x80 * j
    omega
  have h3 := ((s.setReg (SRV_JOB_STEP.at j) (BitVec.ofNat 64 step)).reg_setF_at (SRV_JOB_STATUS.STEP_PLANES j)
    (s.srvJob j).planes _ h1).trans (State.reg_setReg_self _ _ _)
  unfold State.stepSet
  dsimp only
  split
  · exact (State.reg_setF_at _ _ _ _ h2).trans h3
  · exact h3

theorem State.signal_setSrvJob (s : State) (j : Nat) (x : SrvJob) (l tok n a : Nat) :
    ((s.setSrvJob j x).signal j l tok n).srvJob j = x ∧ ((s.setSrvJob j x).signal j l tok n).reg a = s.reg a := by
  obtain ⟨e1, e2⟩ := (s.setSrvJob j x).signal_srv j l tok n
  constructor
  · unfold State.srvJob
    rw [e1]
    exact State.srvJob_setSrvJob_self _ _ _
  · unfold State.reg
    rw [e2]
    rfl

/-- A launch begins the step with its rows, and STEP counts it. -/
theorem launched_next (s : State) {j : Nat} (hj : j < 64) (step : Nat) (rows : List RowSt) (pins : List Nat) :
    ((s.launched j step rows pins).srvJob j).running = true ∧ ((s.launched j step rows pins).srvJob j).ready = false ∧
      ((s.launched j step rows pins).srvJob j).rows = rows ∧
      (s.launched j step rows pins).reg (SRV_JOB_STEP.at j) = BitVec.ofNat 64 step := by
  have h3 := s.stepSet_step hj step
  unfold State.launched
  generalize s.stepSet j step = s3 at h3 ⊢
  dsimp only
  obtain ⟨e1, e2⟩ := s3.signal_setSrvJob j ((s3.srvJob j).launched step rows pins)
    ((s3.setSrvJob j ((s3.srvJob j).launched step rows pins)).f (SRV_JOB_CFG.LEAD j))
    ((s3.setSrvJob j ((s3.srvJob j).launched step rows pins)).f (SRV_JOB_CFG.LAUNCH_TOK j)) 1 (SRV_JOB_STEP.at j)
  rw [e1, e2]
  exact ⟨rfl, rfl, rfl, h3⟩

end launch

/-! ## Sampled rows -/

/-- The range lo to hi - 1 is calm for SMP of job j, and b are the bytes that it reads. -/
structure Sees (j lo hi : Nat) (b : Nat → Nat → List Byte) (t : State) : Prop where
  calm : t.calm (srvWho (some j)) true lo hi = true
  bytes : ∀ a n, t.bytesAt (srvWho (some j)) a n = b a n

section sample
variable {s : State} {lo hi j i k n : Nat} {h : Hand} {b : Nat → Nat → List Byte}

theorem smpRd_sees {a n : Nat} (h1 : lo ≤ a) (h2 : a + n ≤ hi) (t : State) (h : Sees j lo hi b t) :
    (smpRd j a n).go t = (.ok (b a n), t) := by
  rw [← h.bytes]
  exact smpRd_calm h.calm h1 h2

theorem readParam_sees {a : Nat} (h1 : lo ≤ a) (h2 : a + 128 ≤ hi) (h3 : lo ≤ fld (wordAt (b a 128) 8) 47 0)
    (h4 : fld (wordAt (b a 128) 8) 47 0 + 8 * min 64 (fld (wordAt (b a 128) 8) 63 56) ≤ hi) :
    ∃ q : Param, q.ssb = fld (wordAt (b a 128) 6) 47 0 ∧ q.gram = fld (wordAt (b a 128) 7) 47 0 ∧ q.topK ≤ 4096 ∧
      ∀ t, Sees j lo hi b t → (readParam j a).go t = (.ok q, t) := by
  refine ⟨_, ?_, ?_, ?_, fun t ht => EM.go_bind_ok (smpRd_sees h1 h2 t ht) (EM.go_bind_ok (smpRd_sees h3 h4 t ht)
    (EM.go_pure _ _))⟩
  · rfl
  · rfl
  · dsimp only
    split
    · rename_i hh
      exact hh.2
    · exact Nat.le_refl _

theorem readSsb_sees {a : Nat} (h1 : lo ≤ a) (h2 : a + 64 ≤ hi) :
    ∃ x : Ssb, ∀ t, Sees j lo hi b t → (readSsb j a).go t = (.ok x, t) :=
  ⟨_, fun t ht => EM.go_bind_ok (smpRd_sees h1 h2 t ht) (EM.go_pure _ _)⟩

theorem readThen_sees {α : Type} {a n : Nat} (f : List Byte → α) (h1 : lo ≤ a) (h2 : a + n ≤ hi) (t : State)
    (ht : Sees j lo hi b t) : ((do let bs ← smpRd j a n; pure (f bs) : EM α)).go t = (.ok (f (b a n)), t) :=
  EM.go_bind_ok (smpRd_sees h1 h2 t ht) (EM.go_pure _ _)

theorem readHistory_sees {a : Nat} (x : Ssb) (h1 : lo ≤ a + 64) (h2 : a + 64 + 16384 ≤ hi) :
    ∃ l : List Nat, ∀ t, Sees j lo hi b t → (readHistory j a x).go t = (.ok l, t) :=
  ⟨_, readThen_sees (fun bs => (List.range x.hcount).map (fun i => ((words32 bs 4096)[(x.hhead + i) % 4096]?).getD 0)) h1 h2⟩

theorem readLogits_sees (h1 : lo ≤ h.logits + h.fmt.bits / 8 * (k * h.stride))
    (h2 : h.logits + h.fmt.bits / 8 * (k * h.stride) + h.fmt.bits / 8 * h.v ≤ hi) :
    ∃ l : List FVal, ∀ t, Sees j lo hi b t → (readLogits j h k).go t = (.ok l, t) :=
  ⟨_, fun t ht => EM.go_bind_ok (smpRd_sees h1 h2 t ht) (EM.go_pure _ _)⟩

/-- A row of a step is viewed where its parameters, sampler state and logits lie in a calm range and it names no grammar. The
view depends on the request and the bytes alone. -/
theorem viewRow_sees (hr : s.rowReady j i h k n lo hi) (hn : 16448 ≤ n) :
    ∃ v : RowView, v.q.ssb = fld (wordAt (s.bytesAt (srvWho (some j)) (s.req i).param 128) 6) 47 0 ∧ v.q.gram = 0 ∧
      v.q.topK ≤ 4096 ∧ (∃ m l xs, v.choice = chooseRow v.q m l xs) ∧
      ∀ t : State, t.req i = s.req i → Sees j lo hi (s.bytesAt (srvWho (some j))) t →
        (readParam j (s.req i).param).go t = (.ok v.q, t) ∧ (viewRow j i h k).go t = (.ok v, t) := by
  obtain ⟨hc, ⟨p1, p2⟩, hg, ⟨b1, b2⟩, ⟨s1, s2⟩, ⟨l1, l2⟩, -, -⟩ := hr
  obtain ⟨q, q1, q2, q3, hq⟩ := readParam_sees (j := j) (b := s.bytesAt (srvWho (some j))) p1 p2 b1 b2
  rw [← q1] at s1 s2
  obtain ⟨x, hx⟩ := readSsb_sees (j := j) (b := s.bytesAt (srvWho (some j))) s1 (by omega : q.ssb + 64 ≤ hi)
  have s3 : q.ssb + 64 + 16384 ≤ hi := by omega
  obtain ⟨l, hl⟩ := readHistory_sees (j := j) (b := s.bytesAt (srvWho (some j))) (a := q.ssb) x (by omega : lo ≤ q.ssb + 64) s3
  obtain ⟨xs, hxs⟩ := readLogits_sees (j := j) (b := s.bytesAt (srvWho (some j))) l1 l2
  have hgr : q.gram = 0 := q2.trans hg
  refine ⟨⟨q, x, chooseRow q none l xs, xs.any FVal.isNan⟩, q1, hgr, q3, ⟨none, l, xs, rfl⟩, fun t hr ht => ⟨hq t ht, ?_⟩⟩
  unfold viewRow
  refine EM.go_bind_ok (EM.go_get t) ?_
  rw [hr]
  refine EM.go_bind_ok (hq t ht) (EM.go_bind_ok (hx t ht) (EM.go_bind_ok (hl t ht) (EM.go_bind_ok (hxs t ht) ?_)))
  refine EM.go_bind_ok (a := none) (s' := t) ?_ ?_
  · unfold readGram
    rw [if_pos hgr]
    rfl
  · exact EM.go_bind_ok (EM.go_pure _ _) (EM.go_pure _ _)

/-- An entry of the output ring is written where the ring lies in a calm range. -/
theorem writeEntry_ends (hc : s.calm (srvWho (some j)) true lo hi = true) (h1 : lo ≤ (s.req i).ring)
    (h2 : (s.req i).ring + (64 + 8 * 2 ^ (s.req i).log2n) ≤ hi) (w : W64) :
    (writeEntry j i w).Ends (Kept s) (fun _ => True) := by
  unfold writeEntry
  refine EM.ends_get.bind fun x hx => ?_
  rw [Kept.req hx]
  have hm := fun m : Nat => Nat.mod_lt m (show 0 < 2 ^ (s.req i).log2n by positivity)
  exact (smpRdNat_ends (serves_kept hc) h1 (by omega)).bind fun m _ =>
    (smpWrNat_ends (serves_kept hc) _ (by omega) (by have := hm m; omega)).bind fun _ _ =>
      smpWrNat_ends (serves_kept hc) _ h1 (by omega)

theorem writeSsbHead_ends (hc : s.calm (srvWho (some j)) true lo hi = true) {a : Nat} (x : Ssb) (h1 : lo ≤ a)
    (h2 : a + 16 ≤ hi) : (writeSsbHead j a x).Ends (Kept s) (fun _ => True) :=
  smpWr_ends (serves_kept hc) h1 (by rw [List.length_append, leBytes_len, leBytes_len]; omega)

/-- The sampler state after a token (R560, R570). -/
theorem afterToken_ends (hc : s.calm (srvWho (some j)) true lo hi = true) {q : Param} (o : Option Nat) (tok : Nat)
    (h1 : lo ≤ q.ssb) (h2 : q.ssb + 16448 ≤ hi) : (afterToken j q o tok).Ends (Kept s) (fun _ => True) := by
  have hs := fun x : Ssb => Nat.mod_lt (x.hhead + x.hcount) (show 0 < 4096 by decide)
  unfold afterToken readSsb
  refine EM.Ends.bind (Q := fun _ => True) ((smpRd_ends (serves_kept hc) h1 (by omega)).bind fun _ _ => EM.ends_pure trivial)
    fun x _ => ?_
  have hx := hs x
  split
  · exact writeSsbHead_ends hc _ h1 (by omega)
  · refine (smpWrNat_ends (serves_kept hc) _ (by omega) (by omega)).bind fun _ _ => ?_
    split <;> exact writeSsbHead_ends hc _ h1 (by omega)

/-- A token is delivered to a request that names no grammar and puts nothing into the prefix index. -/
theorem deliver_calm (hr : s.rowReady j i h k n lo hi) (hn : 16448 ≤ n) (hp : (s.req i).pfxIns = false) (p : Pend) :
    ∃ r low st, Kept s r ∧ (deliver j i h p).go s = (.ok ⟨⟩, r.setReq i { s.req i with
      delivered := (s.req i).delivered + 1, low := low, state := st }) := by
  obtain ⟨v, hv, hg, -, -, hall⟩ := viewRow_sees hr hn
  obtain ⟨hq, -⟩ := hall s rfl ⟨hr.1, fun _ _ => rfl⟩
  obtain ⟨hc, -, -, -, hs, -, hring, -⟩ := hr
  rw [← hv] at hs
  obtain ⟨x, hx⟩ := readSsb_sees (j := j) (b := s.bytesAt (srvWho (some j))) hs.1 (by omega : v.q.ssb + 64 ≤ hi)
  have hx := hx s ⟨hc, fun _ _ => rfl⟩
  have hgr : (readGram j v.q).go s = (.ok none, s) := by
    unfold readGram
    rw [if_pos hg]
    rfl
  have hw : ∀ w, ∃ r, Kept s r ∧ (writeEntry j i w).go s = (.ok ⟨⟩, r) := fun w => by
    obtain ⟨_, r, e, kr, -⟩ := writeEntry_ends hc hring.1 hring.2 w s (Kept.refl s)
    exact ⟨r, kr, e⟩
  have ha : ∀ r o tok, Kept s r → ∃ r', Kept s r' ∧ (afterToken j v.q o tok).go r = (.ok ⟨⟩, r') := fun r o tok kr => by
    obtain ⟨_, r', e, kr', -⟩ := afterToken_ends hc o tok hs.1 (by omega) r kr
    exact ⟨r', kr', e⟩
  obtain ⟨endc, he⟩ : ∃ e : Nat, e = (if v.q.stops.contains p.token then 1 else if (s.req i).delivered + 1 ≥ (s.req i).maxNew then 2
    else if (none : Option Nat) = some 0xFFFF then 3 else 0) := ⟨_, rfl⟩
  obtain ⟨r1, k1, e1⟩ := hw (ringEntry (decide (s.planesNow j < s.full j)) p.nan endc (s.req i).delivered p.token)
  obtain ⟨r2, k2, e2⟩ := ha r1 none p.token k1
  refine ⟨r2, (s.req i).low || decide (s.planesNow j < s.full j), (if endc ≠ 0 then qDONE
    else if ((s.req i).state == qPREFILL && endc == 0) = true then qDECODE else (s.req i).state), k2, ?_⟩
  unfold deliver
  refine EM.go_bind_ok (EM.go_get s) (EM.go_bind_ok hq (EM.go_bind_ok hx (EM.go_bind_ok hgr (EM.go_bind_ok (EM.go_pure _ _) ?_))))
  dsimp only
  rw [← he]
  refine EM.go_bind_ok e1 (EM.go_bind_ok e2 (EM.go_bind_ok (EM.go_modify _ _) ?_))
  rw [if_neg (by rw [hp, Bool.and_false]; decide), k2.req]
  rfl

/-- A commit point that delivers (R545, R569). -/
theorem commitPoint_delivers (hr : s.rowReady j i h k n lo hi) (hn : 16448 ≤ n) (hd : s.delivers j i) {p : Pend}
    (hp : p.dead = false) : ∃ r low st, Kept s r ∧ (commitPoint j i h p).go s = (.ok (some true), r.setReq i { s.req i with
      delivered := (s.req i).delivered + 1, low := low, state := st }) := by
  obtain ⟨ha, hcan, hl, hpi, hroom⟩ := hd
  obtain ⟨r, low, st, kr, e⟩ := deliver_calm hr hn hpi p
  obtain ⟨hc, -, -, -, -, -, hring, -⟩ := hr
  have hj : s.judgeEnd i = s := by
    unfold State.judgeEnd
    dsimp only
    rw [ha, hcan, if_neg (by decide), if_neg (by decide), if_neg hl]
  refine ⟨r, low, st, kr, ?_⟩
  unfold commitPoint
  refine EM.go_bind_ok (EM.go_get s) ?_
  dsimp only
  rw [hj, if_neg (by rw [ha]; decide)]
  refine EM.go_bind_ok (smpRdNat_calm hc hring.1 (by omega)) (EM.go_bind_ok (smpRdNat_calm hc (by omega) (by omega)) ?_)
  rw [if_neg hroom, if_neg (by rw [hp]; decide)]
  exact EM.go_bind_ok e (EM.go_pure _ _)

theorem State.bytesAt_serve' (s : State) (x : SMap Req) (y : SMap SrvJob) (c : List (Nat × List W64)) (d : Nat) (w : Who)
    (a n : Nat) : (s.serve' x y c d).bytesAt w a n = s.bytesAt w a n := rfl

theorem State.natAt_serve' (s : State) (x : SMap Req) (y : SMap SrvJob) (c : List (Nat × List W64)) (d : Nat) (w : Who)
    (a n : Nat) : (s.serve' x y c d).natAt w a n = s.natAt w a n := rfl

theorem State.req_serve' (s : State) (y : SMap SrvJob) (c : List (Nat × List W64)) (d i : Nat) :
    (s.serve' s.rqt y c d).req i = s.req i := rfl

theorem State.rowReady_srv (hr : s.rowReady j i h k n lo hi) (y : SMap SrvJob) :
    (s.serve' s.rqt y s.srvIn s.arrivals).rowReady j i h k n lo hi := by
  obtain ⟨h1, h2, h3, h4, h5, h6, h7, h8⟩ := hr
  have e := State.bytesAt_serve' s s.rqt y s.srvIn s.arrivals (srvWho (some j)) (s.req i).param 128
  refine ⟨(State.calm_serve' _ _ _ _ _ _ _ _ _).trans h1, h2, ?_, ?_, ?_, h6, h7, h8⟩
  · exact (congrArg (fun p => fld (wordAt p 7) 47 0) e).trans h3
  · exact e.symm ▸ h4
  · exact e.symm ▸ h5

theorem State.delivers_srv (hr : s.delivers j i) (y : SMap SrvJob) :
    (s.serve' s.rqt y s.srvIn s.arrivals).delivers j i := by
  obtain ⟨h1, h2, h3, h4, h5⟩ := hr
  refine ⟨h1, h2, h3, h4, ?_⟩
  have e1 := State.natAt_serve' s s.rqt y s.srvIn s.arrivals (srvWho (some j)) (s.req i).ring 8
  have e2 := State.natAt_serve' s s.rqt y s.srvIn s.arrivals (srvWho (some j)) ((s.req i).ring + 8) 8
  beta_reduce at h5 ⊢
  rw [State.req_serve', e1, e2]
  exact h5


theorem rowAt_one {x : SrvJob} {row : RowSt} (h : x.rows = [row]) : rowAt x 0 = row := by
  unfold rowAt
  rw [h]
  rfl

/-- The row after its token is committed. -/
def RowSt.committed (row : RowSt) (tok : Nat) : RowSt :=
  { row with wait := none, last := some tok, next := row.next + 1 }

/-- A row whose token is at hand commits it and is passed. -/
theorem runRow_commits {row : RowSt} {p : Pend} {verify : Bool} {f : Nat} (hrow : (s.srvJob j).rows = [row])
    (hw : row.wait.isNone = true → s.sampled row = true) (hn : (nextPend j h verify row).go s = (.ok p, s))
    (hr : s.rowReady j row.idx h k n lo hi) (h16 : 16448 ≤ n) (hd : s.delivers j row.idx) (hp : p.dead = false)
    (hf : p.final = true) (hv : verify = false ∨ row.drafts = 0) :
    ∃ t, (runRow j 0 h verify (f + 1)).go s = (.ok true, t) ∧ t.calm (srvWho (some j)) true lo hi = true ∧
      t.srvJob j = { s.srvJob j with rows := [{ row.committed p.token with passed := true }] } ∧
      (t.req row.idx).delivered = (s.req row.idx).delivered + 1 := by
  obtain ⟨r, low, st, kr, e⟩ := commitPoint_delivers hr h16 hd hp
  obtain ⟨r1, hr1⟩ : ∃ r1, r1 = r.setReq row.idx { s.req row.idx with
    delivered := (s.req row.idx).delivered + 1, low := low, state := st } := ⟨_, rfl⟩
  have hj1 : r1.srvJob j = s.srvJob j := by rw [hr1]; exact kr.srvJob j
  have hq1 : (r1.req row.idx).delivered = (s.req row.idx).delivered + 1 := by rw [hr1, State.req_setReq_self]
  have hc1 : r1.calm (srvWho (some j)) true lo hi = true := by
    rw [hr1]
    exact (State.calm_serve' r _ r.srv r.srvIn r.arrivals _ _ _ _).trans ((kr.calm _ _ _ _).trans hr.1)
  obtain ⟨r2, hr2⟩ : ∃ r2, r2 = r1.setSrvJob j { r1.srvJob j with rows := listSet (r1.srvJob j).rows 0 (row.committed p.token) } :=
    ⟨_, rfl⟩
  have hj2 : r2.srvJob j = { s.srvJob j with rows := [row.committed p.token] } := by
    rw [hr2, State.srvJob_setSrvJob_self, hj1, hrow]
    rfl
  have hrow2 : rowAt (r2.srvJob j) 0 = row.committed p.token := rowAt_one (by rw [hj2])
  have hnq : (if (verify && (row.committed p.token).drafts != 0) = true then (row.committed p.token).accepted + 1
      else (row.committed p.token).nq) = (row.committed p.token).nq := by
    rcases hv with h | h
    · rw [h]
      rfl
    · rw [if_neg]
      show ¬ (verify && row.drafts != 0) = true
      rw [h]
      simp
  refine ⟨r2.setSrvJob j { r2.srvJob j with rows := [{ row.committed p.token with passed := true }] }, ?_, ?_, ?_, ?_⟩
  · unfold runRow
    refine EM.go_bind_ok (EM.go_get s) ?_
    rw [rowAt_one hrow]
    dsimp only
    rw [if_neg (by
      cases hh : row.wait.isNone with
      | false => simp
      | true => rw [hw hh]; simp)]
    refine EM.go_bind_ok hn (EM.go_bind_ok e ?_)
    rw [← hr1]
    dsimp only
    rw [if_pos rfl, if_pos hf]
    refine EM.go_bind_ok (s' := r2) (a := ⟨⟩) ?_ ?_
    · unfold setRow
      rw [EM.go_modify, hr2]
      rfl
    · refine EM.go_bind_ok (EM.go_get r2) ?_
      rw [if_pos (by rw [hf]; rfl)]
      refine EM.go_bind_ok (a := ⟨⟩) ?_ (EM.go_pure _ _)
      unfold passRow
      refine EM.go_bind_ok (EM.go_get r2) ?_
      rw [hrow2]
      unfold setRow
      rw [EM.go_modify]
      dsimp only
      rw [hnq, hj2]
      rfl
  · rw [hr2]
    exact (State.calm_serve' r1 r1.rqt _ r1.srvIn r1.arrivals _ _ _ _).trans hc1
  · rw [State.srvJob_setSrvJob_self, hj2]
  · rw [hr2]
    exact hq1

/-- A handoff of a step of one row whose token is at hand delivers the token and ends the handoff. -/
theorem goHandoff_one {row : RowSt} {p : Pend} {verify : Bool} (hrow : (s.srvJob j).rows = [row]) (hpass : row.passed = false)
    (hw : row.wait.isNone = true → s.sampled row = true)
    (hn : (nextPend j h verify row).go (s.setSrvJob j { s.srvJob j with begun := true }) =
      (.ok p, s.setSrvJob j { s.srvJob j with begun := true }))
    (hr : s.rowReady j row.idx h k n lo hi) (h16 : 16448 ≤ n) (hd : s.delivers j row.idx) (hp : p.dead = false)
    (hf : p.final = true) (hv : verify = false ∨ row.drafts = 0) :
    ∃ t, (goHandoff j h verify).go s = (.ok ⟨⟩, t) ∧ (t.req row.idx).delivered = (s.req row.idx).delivered + 1 ∧
      (t.srvJob j).handed = true ∧ (t.srvJob j).handoff = none ∧ t.flag (SMP_JOB_STATUS.RING_WAIT j) = false := by
  obtain ⟨s1, hs1⟩ : ∃ s1, s1 = s.setSrvJob j { s.srvJob j with begun := true } := ⟨_, rfl⟩
  rw [← hs1] at hn
  have hj1 : s1.srvJob j = { s.srvJob j with begun := true } := by rw [hs1, State.srvJob_setSrvJob_self]
  have hrow1 : (s1.srvJob j).rows = [row] := by rw [hj1]; exact hrow
  have hr1 : s1.rowReady j row.idx h k n lo hi := by rw [hs1]; exact State.rowReady_srv hr _
  have hd1 : s1.delivers j row.idx := by rw [hs1]; exact State.delivers_srv hd _
  have hw1 : row.wait.isNone = true → s1.sampled row = true := by rw [hs1]; exact hw
  have hq1 : s1.req row.idx = s.req row.idx := by rw [hs1]; rfl
  obtain ⟨t, e, hc, hjt, hqt⟩ := runRow_commits (f := 9) hrow1 hw1 hn hr1 h16 hd1 hp hf hv
  have hrows : (runRows j h verify 1 0).go s1 = (.ok true, t) := by
    unfold runRows
    refine EM.go_bind_ok (EM.go_get s1) ?_
    rw [rowAt_one hrow1, if_neg (by rw [hpass]; decide)]
    exact EM.go_bind_ok e rfl
  have hrt : (t.srvJob j).rows = [{ row.committed p.token with passed := true }] := by rw [hjt]
  obtain ⟨-, -, -, -, -, -, -, hout⟩ := hr
  obtain ⟨_, r, e2, kr, -⟩ := smpWrNat_ends (j := j) (serves_kept hc) (a := h.out + 4 * 0) (n := 4) (some p.token |>.getD 0xFFFFFFFF)
    (by omega) (by omega) t (Kept.refl t)
  have hjr : r.srvJob j = t.srvJob j := kr.srvJob j
  have hend : (endHandoff j h verify).go t =
      (.ok ⟨⟩, r.setSrvJob j { r.srvJob j with handoff := none, handed := true, begun := false }) := by
    unfold endHandoff
    refine EM.go_bind_ok (EM.go_get t) ?_
    dsimp only
    rw [hrt]
    refine EM.go_bind_ok (s' := r) (a := ⟨⟩) ?_ (EM.go_bind_ok (s' := r) (a := ⟨⟩) ?_ (EM.go_modify _ _))
    · show (forIn [(0, { row.committed p.token with passed := true })] _ _ : EM PUnit).go t = _
      rw [List.forIn_cons]
      refine EM.go_bind_ok (a := ForInStep.yield ⟨⟩) (s' := r) (EM.go_bind_ok e2 ?_) rfl
      rw [if_neg]
      · rfl
      · show ¬ (verify && row.drafts != 0) = true
        rcases hv with h | h <;> simp [h]
    · rw [List.forIn_cons]
      refine EM.go_bind_ok (a := ForInStep.yield ⟨⟩) (s' := r) ?_ rfl
      rw [if_neg]
      · rfl
      · show ¬ row.next + 1 = 0
        omega
  refine ⟨(r.setSrvJob j { r.srvJob j with handoff := none, handed := true, begun := false }).setFlag
    (SMP_JOB_STATUS.RING_WAIT j) false, ?_, ?_, ?_, ?_, ?_⟩
  · unfold goHandoff
    refine EM.go_bind_ok (EM.go_modify _ _) ?_
    rw [← hs1]
    refine EM.go_bind_ok (EM.go_get s1) ?_
    rw [hrow1]
    refine EM.go_bind_ok hrows ?_
    rw [if_pos rfl]
    exact EM.go_bind_ok hend (EM.go_modify _ _)
  · rw [State.req_setFlag, State.req_setSrvJob, kr.req, hqt, hq1]
  · rw [State.srvJob_setFlag, State.srvJob_setSrvJob_self]
  · rw [State.srvJob_setFlag, State.srvJob_setSrvJob_self]
  · unfold State.flag State.setFlag
    rw [State.f_setF_self _ _ _ (by show 0 < 64; decide) (by show 0 ≤ 0; decide)]
    rfl

end sample

/-! ## Boundaries without requests -/

theorem admission_over {s : State} {j : Nat} {b : Bool} (h : (s.srvJob j).adm = some ([], b)) :
    (admission j).go s = (.ok true, s) := by
  unfold admission
  refine EM.go_bind_ok (EM.go_get _) ?_
  rw [h]
  rfl

theorem admission_empty {s : State} {j : Nat} (h : (s.srvJob j).adm = none) (ho : (s.srvJob j).order = [])
    (hq : s.queuedOf j = []) : (admission j).go s = (.ok true, s) := by
  have hr : s.toRelease j = [] := by
    unfold State.toRelease
    rw [ho]
    simp
  unfold admission
  refine EM.go_bind_ok (EM.go_get _) ?_
  rw [h]
  dsimp only
  rw [hr]
  refine EM.go_bind_ok (a := true) (s' := s) rfl ?_
  refine EM.go_bind_ok (EM.go_get _) ?_
  rw [hq]
  refine EM.go_bind_ok (EM.go_pure _ _) ?_
  unfold State.queueOrder
  rw [hq]
  rfl

theorem comingStep_empty {s : State} {j : Nat} (ho : (s.srvJob j).order = []) :
    (comingStep j).go s = (.ok ⟨⟩, s.setSrvJob j { s.srvJob j with bnd := false, adm := none }) := by
  unfold comingStep
  refine EM.go_bind_ok (EM.go_get _) ?_
  have : (s.reqsOf j).filter (s.srvJob j).order.contains = [] := by rw [ho]; simp [List.filter_eq_nil_iff]
  dsimp only
  rw [this]
  refine EM.go_bind_ok (EM.go_pure _ _) ?_
  rw [EM.go_modify, ho]
  rfl

/-- A boundary with no request to release or to admit: its step ends, and no step is launched. -/
theorem boundary_empty {s : State} {j : Nat} (ho : ((s.endStep j).srvJob j).order = [])
    (ha : (∃ b, ((s.endStep j).srvJob j).adm = some ([], b)) ∨
      (((s.endStep j).srvJob j).adm = none ∧ (s.endStep j).queuedOf j = []))
    (hn : (s.endStep j).srvIn.all (fun p => srvInJob p != j) = true) :
    ∃ t, (boundary j).go s = (.ok ⟨⟩, t) ∧ t.srvJob j = { (s.endStep j).srvJob j with bnd := false, adm := none } ∧
      t.msgs = (s.endStep j).msgs := by
  generalize hx : s.endStep j = x at ho ha hn ⊢
  obtain ⟨s1, h1⟩ : ∃ s1, s1 = x.setSrvJob j { x.srvJob j with bnd := true } := ⟨_, rfl⟩
  have h2 : s1.srvJob j = { x.srvJob j with bnd := true } := by rw [h1, State.srvJob_setSrvJob_self]
  have h3 : (admission j).go s1 = (.ok true, s1) := by
    rcases ha with ⟨b, ha⟩ | ⟨ha, hq⟩
    · exact admission_over (b := b) (by rw [h2]; exact ha)
    · exact admission_empty (by rw [h2]; exact ha) (by rw [h2]; exact ho) (by rw [h1]; exact hq)
  have h4 := comingStep_empty (s := s1) (j := j) (by rw [h2]; exact ho)
  refine ⟨(s1.setSrvJob j { s1.srvJob j with bnd := false, adm := none }).setFlag (SRV_JOB_STATUS.RES_WAIT j) false, ?_, ?_, ?_⟩
  · unfold boundary
    refine EM.go_bind_ok (EM.go_modify _ _) (EM.go_bind_ok (EM.go_modify _ _) ?_)
    rw [hx, ← h1]
    refine EM.go_bind_ok h3 (EM.go_bind_ok h4 (showHold_none ?_ ?_))
    · rw [State.srvJob_setSrvJob_self]
    · rw [h1]
      exact hn
  · rw [State.srvJob_setFlag, State.srvJob_setSrvJob_self, h2]
  · have h5 : s1.msgs = x.msgs := by rw [h1]; rfl
    rw [State.msgs_setFlag]
    exact h5

theorem endStep_idle {s : State} {j : Nat} (h : (s.srvJob j).running = false) : s.endStep j = s := by
  unfold State.endStep
  dsimp only
  rw [h]
  rfl

/-- Ending a step leaves the requests in the batch and the loop as they were. -/
theorem endStep_srvJob (s : State) (j : Nat) : ((s.endStep j).srvJob j).order = (s.srvJob j).order ∧
    ((s.endStep j).srvJob j).adm = (s.srvJob j).adm ∧ (s.endStep j).srvIn = s.srvIn := by
  have key : ∀ (rows : List RowSt) (s : State),
      (rows.foldl (fun s r => s.setReq r.idx { s.req r.idx with pos := (s.req r.idx).pos + r.nq }) s).srvJob j = s.srvJob j ∧
      (rows.foldl (fun s r => s.setReq r.idx { s.req r.idx with pos := (s.req r.idx).pos + r.nq }) s).srvIn = s.srvIn := by
    intro rows
    induction rows with
    | nil => exact fun s => ⟨rfl, rfl⟩
    | cons a t ih => exact fun s => ih _
  unfold State.endStep
  extract_lets x p tp s1 s2 src s3
  split
  · exact ⟨rfl, rfl, rfl⟩
  · have h1 : s1.srvJob j = s.srvJob j ∧ s1.srvIn = s.srvIn := by
      show State.srvJob (if _ then _ else _) j = _ ∧ State.srvIn (if _ then _ else _) = _
      split <;> exact ⟨rfl, rfl⟩
    have h2 := key x.rows s1
    have h3 : s3.srvJob j = { s2.srvJob j with running := false, rows := [], handoff := none } :=
      State.srvJob_setSrvJob_self _ _ _
    have h4 : s2.srvJob j = s.srvJob j := h2.1.trans h1.1
    refine ⟨?_, ?_, h2.2.trans h1.2⟩
    · show (s3.srvJob j).order = _
      rw [h3, h4]
    · show (s3.srvJob j).adm = _
      rw [h3, h4]

end Sys2Proof.Machine
end

