-- ==== Sys2Proof/Tests/Slice0.lean ====
section
/-! SUPPORT. Tests: ill-formed commands that the check refuses; for each statement with hypotheses a state and operands
that meet them, clause by clause (witness_ and the statement's name); and small tests of single commands, whose expected
values come from the rules named beside them. -/
set_option Elab.async false

namespace Sys2Proof.Machine.Tests
open Sys2Proof

/-! ## Helpers -/

/-- s with fields of registers set, the other bits of a register as they were. -/
def withF (l : List (FRef × Nat)) (s : State) : State :=
  { s with regs := l.foldl (fun m p => SMap.insert (SMap.erase m p.1.off) p.1.off
      (setFld (SMap.get (regReset p.1.off) m p.1.off) p.1.hi p.1.lo p.2)) s.regs }

/-- Job 0 runs on tile 0 of a booted device; it may read and write 16 pages of stack 0 and its scratchpad. -/
def up0 : State :=
  withF [(ZEN_BOOT.STATE, 2), (ANV_ID.JOB_V 0, 1), (EQX_JOB_STATUS.STATE 0, 3), (⟨EQX_JOB_TILES.at 0 0, 0, 0⟩, 1),
    (⟨LDR_SEG_W0.at 0 0, 63, 56⟩, 0x98), (⟨LDR_SEG_W1.at 0 0, 47, 12⟩, 15), (⟨LDR_SEG_W0.at 0 1, 63, 56⟩, 0x98),
    (⟨LDR_SEG_W0.at 0 1, 47, 12⟩, 0x0F8000000), (⟨LDR_SEG_W1.at 0 1, 47, 12⟩, 0x0F80001FF)] State.reset

/-- A core with registers as listed, and a handler at 0x100 that may be entered. -/
def coreWith (l : List (Nat × W64)) : Core := { Core.zero with sreg := l, tvec := 0x101#64 }

/-- s with core c in tile 0 and word w at its PC. -/
def atPc (w : Nat) (c : Core) (s : State := up0) : State :=
  s.setTile 0 { s.tile 0 with core := c, imem := Bytes.wrNat [] c.pc 4 w }

/-- s with port 0 of the companion's link in L0, in a mode. -/
def linked (mode : Nat) (s : State := up0) : State :=
  { withF [(DYL_PORT_STATUS.STATE 0, 2), (DYL_PORT_STATUS.MODE 0, mode), (DYL_PORT_STATUS.WIDTH 0, 3)] s with dylMode := mode }

/-- The row w with registers regs issues on tile 0 with core c. -/
def canIssue (w : Nat) (regs : List (BitVec 5)) (c : Core) (s : State := up0) : Bool := (atPc w c s).issues 0 w regs

def ok {α : Type} (x : EM α) (s : State) : Bool := match x.go s with
  | (.ok _, _) => true
  | _ => false

/-- The state that x leaves. -/
def after {α : Type} (x : EM α) (s : State) : State := (x.go s).2

/-- A command of kind k: bits of its first word, and the words that follow. -/
def cmdOf (k w0 : Nat) (ws : List W64) : List W64 := setFld (BitVec.ofNat 64 w0) 63 58 k :: ws

/-- s with queue q of tile 0 as given. -/
def withQ (q : Nat) (x : Queue) (s : State := up0) : State := s.setQueue 0 0 q x

/-- s with one started command in queue q of tile 0. -/
def started (q : Nat) (c : List W64) (s : State := up0) : State :=
  withQ q { Queue.empty with flight := [⟨c, [], .running, 0, none, 0⟩] } s

/-- The engine of queue q runs its started command of the named kind to an end that is not fatal. -/
def ends (q : Nat) (p : List W64 → Bool) (work : Eng → Flight → EM Nat) (s : State) : Bool :=
  s.mayAct 0 q && match (s.queue 0 0 q).running p with
    | some (n, f) => (State.worked 0 0 q n f ((work (engOf 0 0 ((s.physOf 0).getD 0) q f.cmd) f).go s)).isSome
    | none => false

/-- The state that a step answers. -/
def next (s : State) (o : Out) : State := match o with
  | .next t => t
  | _ => s

/-! ## Ill-formed commands are refused -/

theorem test_ill_formed_jobs : ([.commandStart 64 0 0, .commandStart 0 192 0, .commandStart 0 0 27, .mmul 64 0, .mmul 0 192,
    .copy 0 0 8, .vmv 0 0 16 none, .fopRead 0 192, .vrgHalt 0 0 16, .dmaHalt 0 0 8, .xwfHalt 64 0, .vrgResume .zen 16 0 true,
    .vrgResume .zen 0 200 true, .dmaResume .zen 0 8 true, .xwfResume .zen 200 true, .dmaDisabled 200 0, .sliceEnd 64 0,
    .idlePreempt 64 0, .tileRoundEnd [(64, 0)], .stackRoundEnd 16 [], .saveDone 64 0, .jobHold .zen 64, .jobEnd 64,
    .resultRingRoom 64, .sample 64] : List Instr).all (fun i => !i.wf) = true := by decide

theorem test_ill_formed_cores : ([.add 216 0 0 0, .addi 216 0 0 0, .ldb 216 0 0 0, .std 216 0 0 0, .ldg 216 0 0 0 false 0,
    .ldgDataArrival 0 8, .stgApplied 0 8, .br 216 0 false 0, .push 216 0 0 false 0, .tsig 216 0 0 0, .fenceAll 216,
    .acquire 216 0 0 0 false, .ifill 216 0 0, .trap 216 0, .csrr 216 0 0, .brk 216, .haltReq .zen 216, .anvPerfClear .zen 200,
    .vrgPerfClear .zen 16, .illegalInstruction 200] : List Instr).all (fun i => !i.wf) = true := by decide

theorem test_ill_formed_memory : ([.registerWrite .zen (2 ^ 28) 8 0, .registerWrite .zen 0 4097 0, .adderOperation (2 ^ 48) 0 0 0 0,
    .slotContribution 16 0 0 0, .slotContribution 0 65536 0 0, .stackRead .zen 0 (2 ^ 48), .mergeIdleTimeout 0 32 0,
    .mergeWriteback 0 0 (2 ^ 28), .refresh 0 0 64, .farAccess 0 (List.replicate 65 0#8) true, .cacheAccess 64 0 [] true,
    .flitReceive 2 200 0, .flitReceive 1 0 0, .linkCrcLimit 16 0 1, .linkCrcLimit 0 0 0, .scrubPage 0 32 0, .copyPage 16, .migrateChannel 512, .ringPoll 8 (List.replicate 8 0#64),
    .ringPoll 0 []] : List Instr).all (fun i => !i.wf) = true := by decide +kernel

/-- A frame header with every field zero. -/
def frame0 : Frame := ⟨0, 0, 0, false, 0, 0, 0, false, 0#32, 0, 0, 0, 0, 0, 0, 0, 0, 0, false, 0, false, []⟩

theorem test_ill_formed_outside : ([.frameRequest 16 false frame0, .frameRequest 0 false { frame0 with dst := 32768 },
    .frameAck 0 { frame0 with raddr := 2 ^ 48 } false, .xwfTraining 16 1 0 true, .wavelengthFail 0 9, .cxpLinkLoss 4,
    .domainStopped 60 false, .countSample 60 0 false, .phaseShed (.vrg 16), .domainSwitchOn 30,
    .housekeepingRound ⟨none, 0, [], [], List.replicate 31 0, 0, 0, 0⟩, .retireTile 200, .retireEngine 16] : List Instr).all
    (fun i => !i.wf) = true := by decide +kernel

/-! ## Witnesses: the block and the core -/

theorem witness_StepRunsFrontCommand :
    ({ State.reset with pending := [.refresh 0 0 0] } : State).pending = [.refresh 0 0 0] ∧ State.reset.pending = [] := by
  decide

theorem witness_StepAnswersAndKeepsQueue :
    ({ State.reset with pending := [.refresh 15 31 63] } : State).formed = true := by decide

theorem witness_StepKeepsMemoryForm : Memory.wf State.reset = true ∧
    step { State.reset with pending := [.refresh 0 0 0] } = .next State.reset := ⟨by decide +kernel, rfl⟩

theorem witness_AluWritesResult :
    ((List.range 0x15 ++ List.range' 0x40 64).all (fun fn => fn == 0x0D || fn == 0x0E || fn == 0x0F || fn == 0x10 ||
      canIssue (encR 0x01 3 1 2 fn) [3, 1, 2] (coreWith [(1, 7#64), (2, 70#64)]))) = true ∧
    ([0x15, 0x16, 0x17].all (fun fn => canIssue (encR 0x01 31 31 0 fn) [31, 31] (coreWith [(31, 0#64)]))) = true := by
  decide +kernel

/-- A core with 2^63 in s1 and all ones in s2. -/
def divCore : Core := coreWith [(1, BitVec.ofNat 64 (2 ^ 63)), (2, BitVec.allOnes 64)]

theorem witness_DivisionDoesNotTrap :
    ([0x0D, 0x0E, 0x0F, 0x10].all (fun fn => canIssue (encR 0x01 3 1 0 fn) [3, 1, 0] divCore &&
      canIssue (encR 0x01 3 1 2 fn) [3, 1, 2] divCore && canIssue (encR 0x01 3 2 1 fn) [3, 2, 1] divCore)) = true ∧
    divCore.r 0 = 0#64 ∧ divCore.r 1 = BitVec.ofNat 64 (2 ^ 63) ∧ divCore.r 2 = BitVec.allOnes 64 := by decide +kernel

theorem witness_ImmediateResults :
    ([2, 3, 4, 5, 7, 8].all (fun op => canIssue (encI op 3 1 0x8000) [3, 1] (coreWith []))) = true ∧
    ([0, 1, 2, 3].all (fun op => canIssue (encI 6 3 1 (BitVec.ofNat 16 (op * 2 ^ 14 + 63))) [3, 1] (coreWith []))) = true ∧
    canIssue (encR4 0x09 3 1 2 31) [3, 1, 2, 31] (coreWith []) = true ∧
    canIssue (encR 0x0E 3 1 2 (7 * 2 ^ 8)) [3, 1, 2] (coreWith []) = true ∧
    ((List.range 6).all (fun k => canIssue (encR 0x0B 7 1 2 k) [1, 2] (coreWith []) &&
      canIssue (encP 7 (BitVec.ofNat 3 k) 1 0x4000) [1] (coreWith []))) = true ∧
    ([0, 1, 2].all (fun f => canIssue (encPlog 1 2 0 true false (BitVec.ofNat 2 f)) [] (coreWith []))) = true := by
  decide +kernel

theorem witness_FieldExtractAndInsert : canIssue (encF 3 1 63 63 false) [3, 1] (coreWith []) = true ∧
    canIssue (encF 3 1 0 0 true) [3, 1] (coreWith []) = true := by decide +kernel

/-- A load of 8 bytes at 64 into s3 that is outstanding. -/
def load3 : OutAcc := ⟨false, 0, 64, 8, false, 3, 0#64, false⟩

theorem witness_OwedRegisterWaits : let c := { coreWith [] with out := [load3] }
    ([3].any c.owed) = true ∧ ([encR 0x01 3 1 2 0, encR 0x01 3 1 2 0x0D, encI 0x02 3 1 0, encI 0x13 3 1 0, encI 0x1B 3 1 0].all
      (fun w => canIssue w [] c)) = true := by decide +kernel

theorem witness_ComputingFrame : let s := atPc (encR 0x01 3 1 2 0) (coreWith [])
    s.issues 0 (encR 0x01 3 1 2 0) [3, 1, 2] = true ∧ ((s.tile 0).mem .imem).weakIn (s.core 0).pc 4 = 0 ∧
    (∃ t, exec (.add 0 3 1 2) s = .next t) ∧
    canIssue (encR 0x01 3 1 2 0x0A) [3, 1, 2] (coreWith []) = true ∧
    canIssue (encR 0x01 3 1 2 0x0D) [3, 1, 2] (coreWith []) = true ∧ canIssue (encI 0x02 3 1 1) [3, 1] (coreWith []) = true ∧
    canIssue (encI 0x07 3 1 1) [3, 1] (coreWith []) = true :=
  ⟨by decide +kernel, by decide +kernel, ⟨_, rfl⟩, by decide +kernel, by decide +kernel, by decide +kernel,
    by decide +kernel⟩

/-- Row, opcode and size of the DMEM loads and stores. -/
def dmemRows : List (Nat × Nat) :=
  [(0x10, 1), (0x11, 2), (0x12, 4), (0x13, 8), (0x14, 1), (0x15, 2), (0x16, 4), (0x18, 1), (0x19, 2), (0x1A, 4), (0x1B, 8)]

theorem witness_DmemLoads : (dmemRows.all (fun p =>
    let c := coreWith [(1, BitVec.ofNat 64 (0x10000 - p.2))]
    canIssue (encI p.1 3 1 0) [3, 1] c && (0x10000 - p.2) % p.2 == 0 &&
      (atPc (encI p.1 3 1 0) c).dmemGood 0 (0x10000 - p.2) p.2)) = true := by decide +kernel

theorem witness_DmemStores : (dmemRows.all (fun p =>
    (((atPc (encI p.1 3 1 0) (coreWith [])).tile 0).mem .dmem |>.badMerge (0x10000 - p.2) p.2).isNone)) = true := by
  decide +kernel

theorem witness_AddressTraps : (atPc 0 (coreWith [])).handles 0 = true ∧
    (dmemRows.all (fun p =>
      canIssue (encI p.1 3 1 0) [3, 1] (coreWith [(1, 1#64)]) && canIssue (encI p.1 3 1 0) [3, 1] (coreWith [(1, 0x10000#64)]))) = true ∧
    canIssue (encB 0 false 0x3FFFFF) [] (coreWith []) = true ∧ (coreWith []).p 0 = true ∧
    canIssue (encU 0x21 3 0x1FFFFF) [3] (coreWith [(3, 2#64)]) = true ∧
    canIssue (encU 0x22 3 0x1FFFFF) [3] (coreWith []) = true ∧
    canIssue (encI 0x23 3 1 2) [3, 1] (coreWith []) = true ∧
    (let c := { coreWith [] with pc := 0x10000 }
     (atPc 0 c).issuing 0 = true ∧ (atPc 0 c).handles 0 = true) := by decide +kernel

theorem witness_TransfersReachTheirTarget :
    canIssue (encB 0 false 1) [] (coreWith []) = true ∧ canIssue (encB 1 false 1) [] (coreWith []) = true ∧
    canIssue (encU 0x21 3 1) [3] (coreWith [(3, 2#64)]) = true ∧ canIssue (encU 0x21 3 1) [3] (coreWith [(3, 1#64)]) = true ∧
    canIssue (encU 0x22 3 0) [3] (coreWith []) = true ∧ canIssue (encI 0x23 3 1 0) [3, 1] (coreWith [(1, 0xFFFC#64)]) = true := by
  decide +kernel

theorem witness_LocalAccessesIssue :
    let ld := encG 0x1C 3 1 3 false 0
    let st := encG 0x1D 3 1 3 false 0
    let full := { coreWith [(1, 64#64)] with out := List.replicate 8 { load3 with rd := 9 } }
    ([ld, st].all (fun w => canIssue w [3, 1] (coreWith [(1, 0xFFF8#64)]) && canIssue w [3, 1] full &&
      canIssue w [3, 1] (coreWith [(1, 1#64)]) && canIssue w [3, 1] (coreWith [(1, 0x10000#64)]))) = true ∧
    up0.segOk 0 0xFFF8 8 false = true ∧ up0.segOk 0 0xFFF8 8 true = true ∧ up0.segOk 0 0x10000 8 false = false ∧
    up0.segOk 0 0x10000 8 true = false := by decide +kernel

/-- Stores and loads that are outstanding at address a. -/
def accAt (store : Bool) (a : Nat) : OutAcc := ⟨store, 0, a, 8, false, 3, 5#64, false⟩

theorem witness_LocalAccessesComplete :
    let s (store : Bool) (a : Nat) := atPc 0 { coreWith [] with out := [accAt store a] }
    let r := { coreWith [] with out := [{ accAt true 0 with refused := true }] }
    (s true 64).loaded 0 = true ∧ (s true 64).up = true ∧ ((s true 64).core 0).out[0]? = some (accAt true 64) ∧
    ok (readSpan ((s false 64).coreWho 0) 8 64 8) (s false 64) = true ∧
    ok (writeSpan ((s true 64).coreWho 0) 8 64 (leBytes 8 5)) (s true 64) = true ∧
    (∃ e t, (readSpan ((s false (2 ^ 47)).coreWho 0) 8 (2 ^ 47) 8).go (s false (2 ^ 47)) = (.error (.bus e), t)) ∧
    (∃ e t, (writeSpan ((s true (2 ^ 47)).coreWho 0) 8 (2 ^ 47) (leBytes 8 5)).go (s true (2 ^ 47)) = (.error (.bus e), t)) ∧
    (atPc 0 r).issuing 0 = true ∧ r.out.all (·.refused) = true ∧ r.inTrap = false ∧ r.tvec.getLsbD 0 = true :=
  ⟨by decide +kernel, by decide +kernel, by decide +kernel, by decide +kernel, by decide +kernel, ⟨_, _, rfl⟩, ⟨_, _, rfl⟩,
    by decide +kernel, by decide +kernel, by decide +kernel, by decide +kernel⟩

/-! ## Witnesses: commands of the core -/

/-- A NOP command of eight words, without waits and signals. -/
def nop : List W64 := cmdOf kNOP 0 (List.replicate 7 0#64)

/-- Tile 0 about to PUSH a NOP from DMEM offset 64 to queue q, whose entries hold n NOPs. -/
def pushing (q n : Nat) (c : Core) : State :=
  let s := atPc (encPush 1 0 false (BitVec.ofNat 5 q)) c
  withQ q { Queue.empty with entries := List.replicate n nop }
    (s.setTile 0 { s.tile 0 with dmem := Bytes.wrNat [] 64 8 (nop.headD 0#64).toNat })

theorem witness_PushEntersCommand : let c := coreWith [(1, 64#64)]
    ([(0, c), (31, c), (32, c), (0, { c with stall := 2 })].all (fun p =>
      let s := pushing 26 p.1 p.2
      s.issues 0 (encPush 1 0 false 26) [1] && (s.tile 0).blockBytes 64 == 64 && s.dmemGood 0 64 64 &&
        ((s.fetched 0).pushBad ((s.fetched 0).jobOf 0) ((s.tile 0).block 64 64)).isNone)) = true ∧
    ((List.replicate 31 nop).map cmdEntries).sum + cmdEntries nop ≤ 32 ∧
    ¬((List.replicate 32 nop).map cmdEntries).sum + cmdEntries nop ≤ 32 := by decide +kernel

theorem witness_TokensAndFences :
    canIssue (encTok 0 0 255 1) [] (coreWith []) = true ∧ (coreWith []).out = [] ∧
    canIssue (encTok 1 1 255 0) [1] (coreWith [(1, 0x7FFF#64)]) = true ∧
    ([0, 1, 2, 3].all (fun k => canIssue (encFence k) [] (coreWith []))) = true := by decide +kernel

/-- A range operation of the core on two lines of the readable segment. -/
def clb0 : ClbOp := ⟨true, 0x100, 0x200, true, 255⟩

theorem witness_CloudbankRanges : let c := coreWith [(1, 0x100#64), (2, 0x200#64)]
    canIssue (encClb 1 2 false 255 true) [1, 2] c = true ∧ canIssue (encClb 1 2 true 0 false) [1, 2] c = true ∧
    up0.segOk 0 0x100 0x200 false = true ∧
    (let s := atPc 0 { c with clbs := [clb0] }
     s.loaded 0 = true ∧ s.up = true ∧ ok (do
        for line in s.linesIn (s.jobOf 0) clb0.base clb0.len do
          clbLine (s.coreWho 0) (s.jobOf 0) line clb0.acquire) s = true) := by decide +kernel

/-- up0 with its first segment of class CODE. -/
def code0 : State := withF [(⟨LDR_SEG_W0.at 0 0, 62, 61⟩, 3)] up0

theorem witness_InstructionFill : let c := coreWith [(1, 0xF000#64), (2, 0xF000#64)]
    canIssue (encIfill 1 2) [1, 2] c code0 = true ∧
    (code0.segOf 0 0xF000 4096 = some 0 ∧ (code0.seg 0 0).cls = 3 ∧ (code0.seg 0 0).pr = true) ∧
    (let s := atPc 0 { c with ifill := some (0xF000, 0xF000) } code0
     s.loaded 0 = true ∧ s.up = true ∧
      ok (readSpan ⟨.ifill, some (s.jobOf 0), s.ltile 0, some 4⟩ 4096 0xF000 4096) s = true) := by decide +kernel

theorem witness_SystemInstructions :
    ([encSys 0 0 255 0, encSys 0 0 0 4, encSys 0 0 0 5].all (fun w => canIssue w [] (coreWith []))) = true ∧
    (atPc 0 (coreWith [])).handles 0 = true ∧
    canIssue (encSys 0 0 0 1) [] { coreWith [] with inTrap := true, epc := 0xFFFC#64 } = true ∧
    ([0, 1, 2, 3, 4, 5, 8, 9, 10, 11, 12, 13, 14].all (fun n =>
      canIssue (encSys 3 0 (BitVec.ofNat 8 n) 2) [3] (coreWith []) &&
      canIssue (encSys 0 1 (BitVec.ofNat 8 n) 3) [1] (coreWith []))) = true := by decide +kernel

/-- up0 with a job that permits debug. -/
def debug0 : State := withF [(LDR_JOB_ATTR.DEBUG 0, 1)] up0

theorem witness_DebugAndIllegal :
    ([linked 3, linked 3 debug0].all (fun s => s.accepts .companion (PIL_DBG_CTL.at 0) && s.loaded 0)) = true ∧
    up0.accepts .zen (VPC_DBG_CTL.at 15) = true ∧
    debug0.flag (LDR_JOB_ATTR.DEBUG (debug0.jobOf 0)) = true ∧ up0.flag (LDR_JOB_ATTR.DEBUG (up0.jobOf 0)) = false ∧
    (let s := atPc 0xFFFFFFFF (coreWith [])
     s.issuing 0 = true ∧ (((s.tile 0).mem .imem).badIn 0 4).isNone = true ∧ legalWord (s.word 0) = false ∧
      (s.core 0).out = []) := by decide +kernel

/-! ## Witnesses: engine commands -/

/-- A NOP that waits for token 1 to reach 1. -/
def waiting : List W64 := cmdOf kNOP (2 ^ 54) (setFld (setFld 0#64 39 32 1) 15 0 1 :: List.replicate 6 0#64)

/-- A legal VIEW command for view register 15. -/
def view15 : List W64 := cmdOf kVIEW (15 * 2 ^ 48) (List.replicate 7 0#64)

theorem witness_CommandsStartInOrder :
    (let s := withQ 9 { Queue.empty with entries := [nop] }
     (s.mayStart 0 0 9 nop = true ∧ commandOk nop 9 0 [] false (s.flag (LDR_JOB_ATTR.DET 0)) = true)) ∧
    up0.jobState 0 = jRUNNING ∧ up0.up = true ∧ waitsHold (up0.ctx 0 0) nop = true ∧ up0.domRuns dXWE = true ∧
    up0.domRuns (dMSC 15) = true ∧ up0.domRuns (dSIF 15) = true ∧
    commandOk view15 0 0 [] false (up0.flag (LDR_JOB_ATTR.DET 0)) = true ∧
    commandOk view15 26 0 [] false (up0.flag (LDR_JOB_ATTR.DET 0)) = true ∧ waitsHold (up0.ctx 0 0) waiting = false ∧
    (List.range 4).all (waitHolds (up0.ctx 0 0) waiting) = false := by decide +kernel

/-- The same field of the i-th word of a command set. -/
def inWord (c : List W64) (i hi lo v : Nat) : List W64 := listSet c i (setFld (cw c i) hi lo v)

/-- A command of kind k whose words are otherwise zero. -/
def bare (k : Nat) : List W64 := cmdOf k 0 (List.replicate 7 0#64)

/-- A completed NOP that signals 5 on token 9 twice. -/
def signaller : Flight :=
  ⟨cmdOf kNOP (2 ^ 52 + 2 ^ 53 + 9 * 2 ^ 40 + 5 * 2 ^ 32 + 9 * 2 ^ 24 + 5 * 2 ^ 16) [], [], .done, 0, none, 0⟩

/-- A CFG command that sets READ_AHEAD to 4 and BRK_EN. -/
def cfg4 : List W64 := inWord (inWord (bare kCFG) 3 63 0 (4 * 2 ^ 8 + 2 ^ 23)) 4 63 0 (0xFF00 + 2 ^ 23)

theorem witness_CompletionSignals :
    ([0, 1, 2, 9, 10, 25].all (fun q =>
      let s := withQ q { Queue.empty with flight := [signaller] }
      s.mayAct 0 q && s.jobState 0 == jRUNNING && ([] : List Flight).all (fun g => g.st == .running || g.st == .done))) = true ∧
    (started 0 nop).mayAct 0 0 = true ∧ ((started 0 nop).queue 0 0 0).flight ≠ [] ∧
    ([(0, nop), (9, nop), (10, nop), (0, cfg4), (1, cfg4), (10, cfg4)].all (fun p =>
      let s := started p.1 p.2
      s.mayAct 0 p.1 && s.plain (p.1 - 10) == false && ((s.queue 0 0 p.1).running (fun c => cKind c == cKind p.2)).isSome &&
        s.cfgBusy 0 0 p.1 == false)) = true ∧
    ([0, 1, 10].all (fun q =>
      let s := withQ q { Queue.empty with flight := [⟨cfg4, [], .running, 0, none, 0⟩, ⟨cfg4, [], .running, 0, none, 0⟩] }
      s.cfgBusy 0 0 q && cw cfg4 4 &&& 0xFF00#64 != 0#64 && cw (bare kCFG) 4 &&& 0xFF00#64 == 0#64)) = true := by
  decide +kernel

/-- An MMUL of 16-bit operands into FP32. -/
def mmul0 : List W64 := inWord (inWord (inWord (bare kMMUL) 4 28 24 10) 4 23 19 10) 4 18 14 11

theorem witness_TileEnginesRunTheirCommand :
    ends 0 (fun c => cKind c == kMMUL) (mmulWork 0 0) (started 0 mmul0) = true ∧
    ends 0 (fun c => cKind c == kATT) attWork (started 0 (bare kATT)) = true ∧
    ends 1 (fun c => cKind c == kVOP) (vecWork .vxe (fun _ => 256)) (started 1 (bare kVOP)) = true ∧
    up0.flag (ANV_DMA_CTL.EN 0 0) = true ∧ up0.physOf 0 = some 0 ∧
    ([(0, copyWork noLimit), (1, planeSplitWork noLimit), (2, planeMergeWork noLimit),
      (3, fun e f => gatherWork noLimit e (dmaIdx f)), (4, fun e f => scatterWork noLimit e (dmaIdx f)),
      (5, fun e f => accWork noLimit e (dmaIdx f)), (6, listWork noLimit)].all (fun p =>
        ends 2 (fun c => cKind c == kDCOPY && dMode c == p.1) p.2 (started 2 (inWord (bare kDCOPY) 3 51 48 p.1)))) = true := by
  decide +kernel

/-- The engine of stack 0 of s is plain. -/
def plain0 (s : State) : State := withF [(VRG_CTL.PLAIN 0, 1)] s

theorem witness_VirgaEnginesRunTheirCommand :
    ([(kVMV, vmvWork 0), (kVATT, vattWork 0), (kVKVA, vkvaWork 0), (kVEW, vewWork 0), (kVAMO, vamoWork 0)].all (fun p =>
      ends 10 (fun c => cKind c == p.1) p.2 (started 10 (bare p.1)) && (started 10 (bare p.1)).plain 0 == false &&
        (plain0 (started 10 (bare p.1))).plain 0)) = true ∧
    ([(0, vgsGatherWork 0), (1, vgsScatterWork 0), (2, vgsAccWork 0)].all (fun p =>
      ends 10 (vgsMode p.1) p.2 (started 10 (inWord (bare kVGS) 3 63 62 p.1)))) = true ∧
    ([(0, slotClearWork 0), (1, slotFinaliseWork 0), (2, slotSaveWork 0), (3, slotLoadWork 0), (4, slotCombineWork 0)].all
      (fun p => ends 10 (vslotMode p.1) p.2 (started 10 (inWord (bare kVSLOT) 3 63 61 p.1)))) = true := by decide +kernel

/-- An FOP of operation op to node d. -/
def fop (op d : Nat) : List W64 := inWord (inWord (bare kFOP) 3 63 61 op) 3 56 42 d

/-- s as node 1 of a fabric whose port 0 leads to node 2, with its endpoint on. -/
def fab (s : State := up0) : State :=
  withF [(XWF_CTL.EN, 1), (XWF_ID.NODE, 1), (XWF_PORT_STATUS.STATE 0, 2), (XWF_PORT_STATUS.MODE 0, 1),
    (XWF_ROUTE.V 2, 1), (XWF_ROUTE.PMASK 2, 1), (XWF_JOB_GROUP.GROUP 0, 7)] s

theorem witness_FabricCommandsRun :
    ([0, 1, 2, 3, 4].all (fun op =>
      let c := cmdOf kFOP 0 (fop op 2).tail
      let s := fab (started 26 c)
      let e := engOf 0 0 ((s.physOf 0).getD 0) 26 c
      s.mayAct 0 26 && s.flag XWF_CTL.EN && s.domRuns dXWE && ((s.queue 0 0 26).freshFop op).isSome && s.node == 1 &&
        ok (fopPrepare e ⟨c, [], .running, 0, none, 0⟩) s)) = true ∧
    ([0, 1, 2, 3, 4].all (fun op =>
      let c := fop op 1
      let f : Flight := ⟨c, [], .running, 0, none, 0⟩
      let s := fab (started 26 c)
      let e := engOf 0 0 ((s.physOf 0).getD 0) 26 c
      ((s.queue 0 0 26).freshFop op).isSome && cf c 3 56 42 == s.node &&
        ok (do let fs ← fopPrepare e f; serveOwn e (vOf c [] 3 60 57) (cf c 4 47 0) fs) s)) = true ∧
    (∃ h t, (fopPrepare (engOf 0 0 0 26 (fop 3 0x7FFF)) ⟨fop 3 0x7FFF, [], .running, 0, none, 0⟩).go
      (fab (started 26 (fop 3 0x7FFF))) = (.error (.halt h), t)) :=
  ⟨by decide +kernel, by decide +kernel, ⟨_, _, rfl⟩⟩

/-- s with a command of queue q of tile 0 that met a fault of REASON 3. -/
def faulted (q : Nat) (c : List W64) (s : State := up0) : State :=
  withQ q { Queue.empty with flight := [⟨c, [], .running, 0, some ⟨3, 0, 0, 64, 255⟩, 0⟩] } s

theorem witness_FaultsHaltTheirQueue :
    ([(10, kVEW), (25, kVEW), (2, kDCOPY), (9, kDCOPY), (26, kFOP)].all (fun p =>
      let s := faulted p.1 (bare p.2)
      s.mayAct 0 p.1 && s.jobState 0 == jRUNNING && s.physOf 0 == some 0 &&
        (s.queue 0 0 p.1).faulted.any (fun x => x.2.2.reason != 1))) = true ∧
    ([0, 15].all (fun n => up0.flag (VRG_HALT_INFO.VALID n 0) == false)) = true ∧
    ([0, 7].all (fun ch => up0.flag (ANV_DMA_HALT_INFO.VALID 0 ch) == false)) = true ∧
    up0.flag (XWF_HALT_INFO.VALID 0) = false := by decide +kernel

theorem witness_HaltedQueuesGoOn :
    ([0, 15].all (fun n => up0.accepts .zen (VRG_HALT_INFO.at n 0))) = true ∧
    (linked 3).accepts .companion (XWF_HALT_INFO.at 199) = true ∧ up0.flag (XWF_HALT_INFO.LATE 199) = false ∧
    (let s := withF [(ANV_DMA_HALT_INFO.VALID 0 0, 1), (ANV_DMA_HALT_INFO.REASON 0 0, 2)] up0
     s.accepts .zen (ANV_DMA_HALT_INFO.at 0 0) = true ∧ s.flag (ANV_DMA_HALT_INFO.VALID 0 0) = true ∧
       s.flag (ANV_DMA_CTL.EN 0 0) = true ∧ 2 ≤ s.f (ANV_DMA_HALT_INFO.REASON 0 0) ∧
       s.f (ANV_DMA_HALT_INFO.REASON 0 0) ≤ 6 ∧ up0.flag (ANV_DMA_HALT_INFO.VALID 0 0) = false) ∧
    up0.accepts .zen (ANV_DMA_CTL.at 0 7) = true ∧ up0.flag (ANV_DMA_CTL.EN 0 7) = true ∧
    (up0.queue 0 0 9).flight = [] ∧
    (let s := withF [(ANV_DMA_CTL.EN 0 7, 0)] up0
     s.flag (ANV_DMA_CTL.EN 0 7) = false ∧
       ((s.tile 0).queue 9).flight.all (fun f => f.st != .running || f.fault.isSome) = true) := by decide +kernel

/-! ## Witnesses: memory -/

/-- up0 with a cached first segment and one Cloudbank block of slice 0. -/
def cached0 : State := withF [(⟨LDR_SEG_W0.at 0 0, 63, 56⟩, 0x99), (CLB_PART.CCOUNT 0 0, 1)] up0

/-- up0 with the far tier's first 256 MiB at port 0, whose link is up. -/
def far0 : State := withF [(CXP_HDM_RANGE.V 0, 1), (CXP_HDM_RANGE.BASE 0, farBase / 2 ^ 28), (CXP_HDM_TGT.PORTS 0, 1),
  (CXP_PORT_STATUS.MODE 0, 1)] up0

theorem witness_AddersReplaceTheirElement :
    ([(1, [0, 1, 2]), (2, [0]), (3, [0, 2]), (11, [0, 1, 2, 3]), (12, [0, 3])].all (fun p => p.2.all (fun aop =>
      match Fmt.ofCode p.1 with
      | some f => adderHas f aop && 4096 % (f.bits / 8) == 0 && ok (do
          let bs ← directRead ⟨.fabric, none, 255, some 6⟩ 4096 (f.bits / 8)
          rawWrite ⟨.fabric, none, 255, some 6⟩ 4096 (leBytes (f.bits / 8) (adderNew f aop (leNat bs) 1 0))) up0
      | none => false))) = true ∧
    up0.region 4096 = .stack ∧ up0.plain (4096 / up0.stackBytes) = false := by decide +kernel

theorem witness_SlotsAddInAnyOrder :
    ([1, 2, 3, 4, 5].all (fun n => match Fmt.ofCode n with
      | some f => f.isWide
      | none => false)) = true ∧ up0.plain 15 = false := by decide +kernel

theorem witness_MemoryAccessesEnd :
    up0.region 0xFFC0 = .stack ∧ ok (directRead (reqWho .ldg 0) 0xFFC0 64) up0 = true ∧
    ok (rawWrite (reqWho .zen 0) 0xFFC0 [1#8, 2#8]) up0 = true ∧ 0xFFC0 % 4096 + 2 ≤ 4096 ∧
    far0.region farBase = .far ∧ ok (farWrite farBase (List.replicate 64 7#8)) far0 = true ∧
    ok (farRead farBase 64) far0 = true ∧
    (cached0.cached ⟨.tdma, some 0, 255, some 5⟩ 64 4).isSome = true ∧ cached0.up = true ∧ cached0.segOk 0 64 4 true = true ∧
    cached0.segOk 0 64 4 false = true ∧ ok (cachedWrite ⟨.tdma, some 0, 255, some 5⟩ 0 64 (List.replicate 4 1#8)) cached0 = true ∧
    ok (cachedRead ⟨.tdma, some 0, 255, some 5⟩ 0 64 4) cached0 = true := by decide +kernel

/-- An entry of page 3 of stack 0, whose channel is 3, with its first byte written. -/
def entry3 : MergeEntry := ⟨3, [(0, 7#8)], 1, true⟩

theorem witness_MergeBufferHoldsWrites :
    up0.paused 3 = false ∧ (up0.mergeBuf (up0.gchan 3)).length < 16 ∧
    (let s := up0.setMergeBuf 3 [entry3]
     s.whold 0 = false ∧ s.domRuns (dMSC 0) = true ∧ (s.mergeBuf (32 * 0 + 3)).find? (fun e => e.page == 3) = some entry3 ∧
       s.paused 3 = false ∧ entry3.wb = true) := by decide +kernel

/-- up0 while channel 5 of stack 15 retrains after n failures. -/
def retraining (n : Nat) : State :=
  withF [(MSC_STATUS.RETRAINING 15, 1), (MSC_STATUS.RT_CH 15, 5), (MSC_CH_STATUS.STATE 15 5, 1), (MSC_CH_STATUS.FAILS 15 5, n)] up0

theorem witness_ChannelsRetrain :
    up0.flag (MSC_STATUS.RETRAINING 15) = false ∧ up0.accepts .zen (MSC_RETRAIN.at 15) = true ∧
    ([0, 1, 2].all (fun n => (retraining n).flag (MSC_STATUS.RETRAINING 15) && (retraining n).f (MSC_STATUS.RT_CH 15) == 5 &&
      (retraining n).retrains 15 == [] && (retraining n).f (MSC_CH_STATUS.FAILS 15 5) == n)) = true := by decide +kernel

theorem witness_MemoryIsMaintained :
    up0.whold 0 = false ∧ up0.signed (MSC_TEMP.WIN_HI 0) < (127#8 : BitVec 8).toInt ∧
    (128#8 : BitVec 8).toInt < up0.signed (MSC_TEMP.WIN_LO 0) ∧
    (let s := withF [(MSC_TEMP.WHOLD 0, 1)] up0
     s.whold 0 = true ∧ s.signed (MSC_TEMP.WIN_LO 0) + 3 ≤ (40#8 : BitVec 8).toInt ∧
       (40#8 : BitVec 8).toInt ≤ s.signed (MSC_TEMP.WIN_HI 0) - 3) ∧
    (up0.flag (MSC_SCRUB_CTL.EN 15) = true ∧ SMap.get 0 up0.scrubAt (32 * 15 + 31) < up0.stackPages / 32 ∧
      up0.paused (up0.stackPages * 15 + pageAt 31 0) = false ∧ up0.domRuns (dMSC 15) = true ∧
      (up0.scrubOne (up0.stackPages * 15 + pageAt 31 0)).isSome = true) ∧
    (let s := withF [(MSC_COPY.ACTIVE 0, 1), (⟨MSC_REDIR.at 0 0, 63, 63⟩, 1), (⟨MSC_REDIR.at 0 0, 60, 57⟩, 1),
       (⟨MSC_REDIR.at 0 0, 31, 27⟩, 4)] up0
     s.flag (MSC_COPY.ACTIVE 0) = true ∧ s.whold 0 = false ∧ s.domRuns (dMSC 0) = true ∧
       s.paused (s.stackPages * 0 + pageAt 0 0) = false ∧ s.f (MSC_CH_STATUS.STATE 0 4) ≠ 1 ∧
       s.f (MSC_COPY.CP 0) + 1 ≠ 2 ^ fld (s.reg (MSC_REDIR.at 0 (s.f (MSC_COPY.ENTRY 0)))) 60 57) := by decide +kernel

theorem witness_ErrorRecordQueue :
    up0.zenLost = false ∧ up0.zenRestart = false ∧ (linked 3).accepts .companion ERQ_CONS.at = true ∧
    (up0.f ERQ_PROD.PROD + 2 ^ 32 - up0.f ERQ_CONS.CONS) % 2 ^ 32 ≠ 64 ∧
    (let s := withF [(ERQ_PROD.PROD, 63), (ERQ_CONS.CONS, 2 ^ 32 - 1)] up0
     (s.f ERQ_PROD.PROD + 2 ^ 32 - s.f ERQ_CONS.CONS) % 2 ^ 32 = 64) := by decide +kernel

theorem witness_ComputeReset :
    up0.resetSeq = none ∧ (let s : State := { up0 with resetSeq := some 3#32 }
      Memory.wf s = true ∧ s.zenUp = true ∧ s.resetSeq.isSome = true) := by decide +kernel

/-! ## Witnesses: jobs -/

/-- Two jobs that share tile 0: job 0 runs, job 1 is SAVED with SHARE 3; both have demand in the round. -/
def pair : State :=
  withF [(EQX_JOB_STATUS.STATE 1, 1), (⟨EQX_JOB_TILES.at 1 0, 0, 0⟩, 1), (EQX_JOB_CFG.SHARE 1, 3), (EQX_JOB_BAL_T.BAL 1, 5)]
    { up0 with demT := [0, 1], demV := [64 * 15 + 0, 64 * 15 + 63], shareT := [(0, 1), (1, 3)],
               shareV := [(64 * 15, 1), (64 * 15 + 63, 2)] }

theorem witness_RoundsCreditJobs :
    pair.demT.Nodup ∧ (∀ j ∈ pair.demT, j < 64) ∧ pair.conflict 0 1 = true ∧ pair.shareInT 1 = 3 ∧
    ((pair.demV.filter (fun k => k / 64 == 15)).map (fun k => k % 64)).Nodup ∧
    (let new := min (pair.balT 1 + (2 ^ pair.f EQX_CTL.ROUND_T_LOG2 * 3 / 4 : Nat)) (4 * 2 ^ pair.f EQX_CTL.ROUND_T_LOG2)
     new < 2 ^ 63 ∧ (-2 ^ 63 : Int) ≤ new) := by decide +kernel

/-- Job 0 after END on its tile. -/
def ended0 : State := atPc 0 { coreWith [] with ended := true }

theorem witness_JobsTakeTurnsAndEnd :
    (up0.jobState 0 = jRUNNING ∧ up0.up = true) ∧
    (let r := (withF [(EQX_JOB_CTL.HOLD 0, 1)] up0).debitT 0 9
     (r.flag (EQX_JOB_CTL.HOLD 0) || r.svcHolds 0 || r.waiting.any (fun k => r.conflict 0 k)) = true) ∧
    ((up0.debitT 0 9).rival 0 = none) ∧
    (let r := pair.debitT 0 9
     (r.flag (EQX_JOB_CTL.HOLD 0) || r.svcHolds 0 || r.waiting.any (fun k => r.conflict 0 k)) = false ∧
       r.rival 0 = some 1) ∧
    (let s := { pair with tiles := ended0.tiles }
     s.setIdle 0 = true ∧ jobList.any (fun k => s.conflict 0 k && s.wants k) = true) ∧
    (linked 3).accepts .companion (EQX_JOB_CTL.at 63) = true ∧ up0.jobState 63 = jNONE ∧ pair.jobState 1 = jSAVED ∧
    (ended0.jobState 0 = jRUNNING ∧ ended0.jobFinished 0 = true ∧ ended0.up = true ∧ ok (flushCache 0) ended0 = true) ∧
    (let s := withF [(EQX_JOB_STATUS.STATE 0, 5)] up0
     s.jobState 0 = jENDING ∧ s.up = true ∧ (s.tileSet 0).all (fun l => (s.ctx 0 l).drained) = true ∧
       s.f (EQX_JOB_STATUS.OUT_READS 0) = 0 ∧ ok (flushCache 0) s = true) := by decide +kernel

theorem witness_SaveAndRestore :
    up0.up = true ∧ up0.endAsked.contains 0 = false ∧
    (∀ l, up0.inSet 0 l = true → (up0.physOf l).isSome = true) ∧
    (let s := withF [(EQX_JOB_STATUS.STATE 0, 4)] up0
     s.jobState 0 = jSAVING ∧ s.coresQuiet 0 = true) ∧
    (withF [(EQX_JOB_STATUS.STATE 0, 1), (ANV_ID.JOB_V 0, 0), (ANV_STATUS.GROUP_OFF 0, 0)] up0).mayRestore 0 = true ∧
    (withF [(EQX_JOB_STATUS.STATE 0, 2)] up0).jobState 0 = jRESTORING := by
  refine ⟨by decide +kernel, by decide +kernel, fun l h => ?_, by decide +kernel, by decide +kernel, by decide +kernel⟩
  have small : l < 192 := by
    unfold State.inSet at h
    simp at h
    exact h.1
  have all : ∀ l, l < 192 → up0.inSet 0 l = true → (up0.physOf l).isSome = true := by decide +kernel
  exact all l small h

/-! ## Witnesses: loads and the companion's link -/

/-- up0 with a load due whose placement block is at a. -/
def loading0 (a : Nat) : State := { up0 with ldrIn := [[BitVec.ofNat 64 a]] }

/-- The REASON with which the checks of a load refuse it. -/
def refusal (x : Except Stop (Verdict × List Byte × W64) × State) : Option Nat := match x with
  | (.ok (.refuse reason _, _, _), _) => some reason
  | _ => none

theorem witness_LoadsAreAnswered :
    ([1, 0x2000].all (fun a => let s := loading0 a
      s.loading.isNone && s.up && s.ldrOpen && fld (([BitVec.ofNat 64 a] : List W64).getD 0 0#64) 47 0 == a)) = true ∧
    refusal ((checkLoad 0x2000 none [] true).go { loading0 0x2000 with ldrIn := [] }) = some rsOVERLAP ∧
    ok (ldrWrite (0x2000 + 576) (⟨0x2000, 0#64, none, 2, 1, 0#64, 0#64, false, 0⟩ : Loading).granule) up0 = true ∧
    up0.zenUp = true ∧ up0.inStore 0x2000 = true ∧ up0.enginesOk 0xFFFF = true := by
  decide +kernel

/-- Ring r is enabled and polled. -/
def ring (r : Nat) (mode : Nat := 3) : State :=
  withF [(DYL_RING_CFG.EN r, 1), (DYL_RING_CFG.POLL_US r, 1), (DYL_RING_CFG.LOG2N r, 4)] (linked mode)

/-- The header line of a LOAD record with SEQ 0, and one of a kind that is growth. -/
def loadHeader : List W64 := setFld 0#64 31 24 3 :: List.replicate 7 0#64
def badHeader : List W64 := setFld 0#64 31 24 9 :: List.replicate 7 0#64

theorem witness_JobRingsAreServed :
    ([0, 7].all (fun r => (ring r).ringOn r && (SMap.get none (ring r).ringSeen r).isNone &&
      (ring r).f (DYL_RING_CFG.POLL_US r) != 0 && (ring r 1).dylMode == 1 && (ring r 1).linkCache.contains r == false &&
      fld (loadHeader.getD 0 0#64) 63 32 == (ring r).f (DYL_RING_STATUS.NEXT r))) = true ∧
    ([loadHeader, badHeader].all (fun h => let s := { ring 7 with ringSeen := [(7, some h)] }
      s.ringOn 7 && SMap.get none s.ringSeen 7 == some h && s.up && s.ready)) = true ∧
    headerSound badHeader = false ∧ headerSound loadHeader = true ∧ fld (loadHeader.getD 0 0#64) 31 24 = 3 := by
  decide +kernel

/-- Two messages wait and the message ring is enabled. -/
def messages (s : State) : State := { withF [(DYL_MSG_CFG.MEN, 1)] s with msgs := [⟨1, none, 5#64, 0⟩, ⟨2, some 0, 6#64, 0⟩] }

theorem witness_MessagesReachTheCompanion :
    (let s := messages (linked 3)
     s.flag DYL_MSG_CFG.MEN = true ∧ s.msgs ≠ [] ∧ s.dylUp = true ∧ s.msgRoom = true ∧ s.msgPend = []) ∧
    (messages up0).dylUp = false ∧ (messages up0).flag DYL_MSG_CFG.MEN = true ∧
    (linked 3).accepts .companion DYL_MSG_CONS.at = true ∧
    (let s : State := { withF [(DYL_VEC_CTL.MASK 15, 1)] (linked 3) with vecWait := [(15, 1)] }
     let u : State := { withF [(DYL_VEC_CTL.MASK 15, 0)] (linked 3) with vecWait := [(15, 1)] }
     0 < SMap.get 0 s.vecWait 15 ∧ s.domRuns dDYC = true ∧ s.flag (DYL_VEC_CTL.MASK 15) = true ∧
       u.flag (DYL_VEC_CTL.MASK 15) = false) := by decide +kernel

/-- Port 1 of the companion's link in a state. -/
def port1 (st : Nat) : State := withF [(DYL_PORT_STATUS.STATE 1, st), (DYL_PORT_STATUS.WIDTH 1, 3)] up0

theorem witness_LinkPortsMove :
    (port1 0).dylReleased 1 = true ∧ ([0, 1, 2, 3, 4].all (fun st => (port1 st).dylState 1 == st)) = true ∧
    ([(1, 128), (2, 64), (3, 32)].all (fun p => (port1 1).f (DYL_PORT_CTL.MAX_MODE 1) < p.1 && rateOk p.1 p.2)) = true ∧
    (port1 1).dylMode = 0 ∧ ({ port1 1 with dylMode := 2 } : State).dylMode ≠ 1 ∧
    (linked 3).accepts .companion (DYL_PORT_CTL.at 1) = true ∧ (port1 4).dylReleased 1 = true ∧
    (port1 3).f (DYL_PORT_STATUS.WIDTH 1) ≠ 0 ∧
    (let s : State := { up0 with dylMode := 3 }
     s.dylMode = 3 ∧ s.dylState 0 = lDOWN ∧ s.dylState 1 = lDOWN) := by decide +kernel

theorem witness_SnoopsKeepCopiesRight :
    up0.domRuns dDYC = true ∧
    (let s : State := { linked 1 with filter := [(7, 2)], snoops := [(7, true)] }
     s.dylUp = true ∧ s.coherent = true ∧ s.filter.any (fun e => e.1 == 7 && (false || e.2 == 2)) = true ∧
       s.dylState 0 = lL0 ∧ s.snoops.any (fun q => q.1 == 7) = true) ∧
    (let s : State := { linked 1 with filter := [(7, 1)], snoops := [(7, true)] }
     s.snoops.find? (fun p => p.1 == 7) = some (7, true) ∧ s.filter.contains (7, 2) = false) := by decide +kernel

/-! ## Witnesses: requests and tokens -/

/-- Job 0 serves: its result ring and its descriptor block are in stack 0, and x is its serving state. -/
def serving0 (x : SrvJob) (s : State := up0) : State :=
  { withF [(SRV_JOB_CFG.V 0, 1), (SRV_JOB_RES.BASE 0, 0x8000), (SRV_JOB_BD.BASE 0, 0x4000)] s with srv := [(0, x)] }

/-- A request of job 0. -/
def reqIn (st : Nat) : Req := { Req.zero with state := st, left := 0, ring := 0x6000, log2n := 4 }

theorem witness_RequestsAndCancels :
    ([(1, observeRequest []), (2, observeCancel [])].all (fun p =>
      let s : State := { serving0 SrvJob.zero with srvIn := [(p.1, [])] }
      s.up && (s.srvJob 0).bnd == false && (s.srvJob 0).ready == false &&
      (match (resRoom 0).go s with
        | (.ok b, s1) => b && ok (do p.2; showHold 0) { s1 with srvIn := s1.srvIn.tail }
        | _ => false))) = true ∧
    ([qPREFILL, qDECODE, qDRAINING].all (fun q => let s : State := { serving0 SrvJob.zero with rqt := [(0, reqIn q)] }
      (s.req 0).state == q && (s.req 0).job == 0 && (s.req 0).cookie == 0#64)) = true ∧
    ([true, false].all (fun b => let s := serving0 { SrvJob.zero with bnd := b }
      s.serves 0 && s.up && (s.srvJob 0).bnd == b && ok (if b then boundary 0 else showHold 0) s)) = true := by decide +kernel

theorem witness_StepsRun :
    (let s := serving0 SrvJob.zero
     s.serves 0 = true ∧ s.up = true ∧ (s.srvJob 0).ready = false ∧ (s.srvJob 0).running = false ∧
       jobList.all (fun k => k == 0 || !s.boundDue k) = true ∧ ok (boundary 0) s = true) ∧
    (let s := serving0 { SrvJob.zero with ready := true, planes := 8, unrep := [(0, [])] }
     (s.srvJob 0).ready = true ∧
       (s.srvJob 0).unrep.all (fun p => p.1 == (s.reg (SRV_JOB_STEP.at 0)).toNat) = true ∧ ok (launch 0) s = true) ∧
    (let s := serving0 { SrvJob.zero with ready := true, unrep := [(7, [])] }
     (s.srvJob 0).unrep.all (fun p => p.1 == (s.reg (SRV_JOB_STEP.at 0)).toNat) = false) ∧
    (let s := serving0 { SrvJob.zero with running := true }
     (s.srvJob 0).running = true ∧ (s.srvJob 0).handoff = none ∧ (s.srvJob 0).handed = false ∧
       ok (do
         let bs ← srvRd 0 (s.f (SRV_JOB_BD.BASE 0) + 64) 64
         if (wordAt bs 0).toNat ≠ (s.reg (SRV_JOB_STEP.at 0)).toNat ∨ bitAt (wordAt bs 1) 0 then throw .wait) s = true ∧
       ok (do report 0 (← srvRdNat 0 (s.f (SRV_JOB_BD.BASE 0) + 128) 8)) s = true) ∧
    Memory.wf (serving0 { SrvJob.zero with running := true }) = true ∧ (linked 3).accepts .companion SRV_RQT_IDX.at = true := by
  decide +kernel

/-- A handoff of a mode for the step that runs, begun or not. -/
def handed (mode : Nat) (begun : Bool) : State :=
  let ws := listSet (List.replicate 8 0#64) 4 (setFld 0#64 1 0 mode)
  serving0 { SrvJob.zero with running := true, begun := begun, handoff := some ws }

theorem witness_SamplerHandlesHandoffs :
    ([(0, [0, 3], false), (1, [1], false), (2, [2], false), (0, [0, 2, 3], true), (2, [0, 2, 3], true), (3, [0, 3], false)].all
      (fun p => let s := handed p.1 p.2.2
        match s.handoffOf 0 p.2.1 p.2.2 with
        | some h => h.mode == p.1 && ok (if h.mode = 1 then goDraft 0 h else goHandoff 0 h (h.mode == 2)) s
        | none => false)) = true ∧
    ([qPREFILL, qDECODE, qDRAINING].all (fun q => (reqIn q).alive && (reqIn q).cancel == false && (reqIn q).left == 0)) = true ∧
    Req.zero.alive = false := by decide +kernel

/-! ## Witnesses: the control space -/

/-- Access codes of the fields of the register at an offset. -/
def accsAt (off : Nat) : List Acc := ((regFind off).map (fun p => p.1.flds.map (·.acc))).getD []

theorem witness_RegisterWritesFollowAccessCodes :
    ([(ZEN_ID.at, Acc.rz), (ANV_ID.at 0, .ro), (ZEN_SVC_CTL.at, .w1s), (ZEN_RESET.at, .wo), (ERQ_FATAL_V.at, .w1c),
      (XWF_CTL.at, .rwb), (ANV_MXE_CFG.at 0, .rwl), (EQX_CTL.at, .rw)].all (fun p => (accsAt p.1).contains p.2)) = true ∧
    ctlShape 2 4 = false ∧ regFind 0x0FFFFF8 = none ∧ tileWin 0x0FFFFF8 = none ∧
    (up0.accepts .mc EQX_CTL.at = false ∧ (regFind EQX_CTL.at).isSome = true) ∧
    (ctlShape EQX_CTL.at 8 = true ∧ (linked 3).accepts .companion EQX_CTL.at = true ∧ (linked 3).dylUp = true) ∧
    coreWin 0x0FFFFF8 = none ∧ up0.accepts .zen (ANV_PERF_CTL.at 198) = true ∧ (linked 3).accepts .companion (VRG_PERF_CTL.at 15) = true ∧
    up0.sbUp = true ∧ up0.domRuns dZEN = true ∧ regFind 0x0FFFF8 = none ∧ (regFind ZEN_ID.at).isSome = true ∧
    up0.dylUp = false := by decide +kernel

/-- linked 1 with a full snoop filter of which no entry is granule 1. -/
def fullFilter : State := { linked 1 with filter := List.replicate 262144 (7, 1) }

theorem witness_CompanionAccessesEnd :
    (linked 1).dylUp = true ∧ (linked 1).region 64 = .stack ∧ (linked 1).ready = true ∧
    ok (readSpan compWho 64 64 64) (linked 1) = true ∧ (linked 1).coherent = true ∧ 64 % 64 + 64 ≤ 64 ∧
    (linked 1).filter.length < 262144 ∧
    (fullFilter.filter.length = 262144 ∧ fullFilter.filter.any (fun e => e.1 == 1) = false) ∧
    ok (writeSpan compWho 2 64 [1#8, 2#8]) (linked 1) = true ∧
    (withF [(ZEN_BOOT.STATE, 1)] (linked 1)).ready = false ∧
    (linked 1).region (ctlBase + 8) = .control ∧ ctlShape 8 4 = true ∧ ctlShape 9 4 = false ∧
    (linked 1).ctlRefuses 8 = false ∧ (linked 1).ctlHolds 8 = false ∧
    (withF [(TDC_DOM_STATUS.STATE 0, 1)] (linked 1)).ctlRefuses 0x2000000 = true := by
  refine ⟨by decide +kernel, by decide +kernel, by decide +kernel, by decide +kernel, by decide +kernel, by decide +kernel,
    by decide +kernel, ⟨List.length_replicate, ?_⟩, by decide +kernel, by decide +kernel, by decide +kernel, by decide +kernel,
    by decide +kernel, by decide +kernel, by decide +kernel, by decide +kernel⟩
  have h : ∀ e ∈ (List.replicate 262144 ((7, 1) : Nat × Nat)), ¬((e.1 == 1) = true) := fun e h => by
    rw [List.eq_of_mem_replicate h]
    decide
  exact List.any_eq_false.2 h

/-! ## Witnesses: the fabric's frames and ports -/

/-- A request of node 2 for node 1, by group 7. -/
def req2 : Frame := { frame0 with dst := 1, src := 2, group := 7 }

/-- fab with frame x sent to node 2 for FOP 1 of job 0, whose queue runs it. -/
def fabSent (retries : Nat) (dead : Bool := false) : State :=
  let c := fop 0 2
  { fab (withQ 26 { Queue.empty with flight := [⟨c, [], .running, 0, none, 1⟩] }) with
    txSent := [⟨{ frame0 with dst := 2, src := 1 }, 0, 0, 1, retries, dead⟩] }

theorem witness_FramesAreAppliedOnce :
    RxNode.zero.ahead.length < 2 ^ 31 ∧ (fab.xwfEn = true ∧ fab.portUp 0 = true) ∧
    (withF [(XWF_PORT_STATUS.MODE 0, 2)] fab).ethernet 0 = true ∧ fab.ethernet 0 = false ∧
    req2.typ = 0 ∧ req2.dst = fab.node ∧ (RxNode.zero.note 0#32).seen 0#32 = true ∧ (fab.rx 2).seen 0#32 = false ∧
    up0.refusal req2 = some rGROUP ∧
    ([0, 1, 2, 3, 4].all (fun op => let f := { req2 with op := op, fmtc := 11, exact := op == 4 }
      fab.refusal { f with len := if op ≤ 2 then 4 else 0, payload := if op = 1 ∨ op = 2 then [1#8, 0#8, 0#8, 0#8] else [] } == none &&
        ok (applyFrame { f with len := if op ≤ 2 then 4 else 0, payload := if op = 1 ∨ op = 2 then [1#8, 0#8, 0#8, 0#8] else [] })
          fab)) = true ∧
    ((fabSent 0).sentTo 2 0#32).isSome = true ∧ ((fabSent 0).sentTo 2 0#32).any (fun x => !x.dead) = true ∧
    (((fabSent 0).queue 0 0 26).fopAt 1).isSome = true ∧
    ok (fopLocal (engOf 0 0 0 26 (fop 0 2)) 0 (writeReturned (engOf 0 0 0 26 (fop 0 2)) (vOf (fop 0 2) [] 3 60 57) 0 []))
      (fabSent 0) = true ∧
    (2 : Nat) ≠ fab.node ∧ ((fabSent 8).sentTo 2 0#32).any (fun x => 8 ≤ x.retries) = true ∧
    fewest (fun _ => 0) (fab.routes 2) = some 0 := by decide +kernel

/-- Port 15 may train: it is not disabled, and the optical engines are on. -/
def optics : State := withF [(XWF_PORT_CTL.DISABLE 15, 0), (PWR_DOM_STATUS.STATE 29, 2)] up0

/-- Port 15 is UP in a mode. -/
def port15 (mode waves : Nat) : State :=
  withF [(XWF_PORT_STATUS.STATE 15, 2), (XWF_PORT_STATUS.MODE 15, mode), (XWF_PORT_STATUS.WAVES 15, waves)] optics

theorem witness_PortsTrainAndFail :
    optics.flag (XWF_PORT_CTL.DISABLE 15) = false ∧ optics.f (XWF_PORT_STATUS.STATE 15) ≠ 2 ∧ optics.opticsOn = true ∧
    optics.mayTrain 15 1 = true ∧ ({ optics with xwfEth := [15] } : State).mayTrain 15 2 = true ∧
    optics.f (XWF_PORT_CTL.MAX_MODE 15) = 0 ∧ optics.accepts .zen (XWF_PORT_CTL.at 15) = true ∧
    ([(1, 8), (1, 4), (2, 8)].all (fun p => (port15 p.1 p.2).portUp 15 && (port15 p.1 p.2).ethernet 15 == (p.1 == 2) &&
      !((port15 p.1 p.2).f (XWF_PORT_STATUS.WAVE_FAIL 15)).testBit 8 && !(port15 p.1 p.2).flag (XWF_PORT_STATUS.SPARE_V 15))) = true ∧
    (withF [(XWF_PORT_STATUS.SPARE_V 15, 1)] (port15 1 4)).flag (XWF_PORT_STATUS.SPARE_V 15) = true ∧
    far0.f (CXP_PORT_STATUS.MODE 0) ≠ 0 ∧
    (let s := withF [(CXP_PORT_STATUS.LINK_DOWN 3, 1)] up0
     s.f (CXP_PORT_STATUS.MODE 3) = 0 ∧ s.flag (CXP_PORT_STATUS.LINK_DOWN 3) = true ∧ s.cxpPerst.contains 3 = true ∧
       s.domRuns (dCXP 3) = true ∧ cxpRateOk 1 64 = true) := by decide +kernel

theorem witness_DomainsStopAndReturn :
    ([0, 59].all (fun d => up0.domRuns d && (up0.crossing d true).behind == 0)) = true ∧
    (up0.byDesign dJTG = true ∧ up0.byDesign 0 = false) ∧
    ([0, dZEN, dDSK].all (fun d => ((withF [(TDC_DOM_CTL.SCM d, 1)] up0).oscFail d).flag (TDC_DOM_CTL.SCM d) &&
      !((withF [(TDC_DOM_CTL.SCM d, 0)] up0).flag (TDC_DOM_CTL.SCM d)))) = true ∧
    ([1, 2, 3].all (fun st => (withF [(TDC_DOM_STATUS.STATE 17, st)] up0).domState 17 == st)) = true ∧
    up0.accepts .zen (TDC_DOM_CTL.at 59) = true := by decide +kernel

/-! ## Witnesses: power, resets, boot and service -/

theorem witness_PowerIsHeldDown :
    up0.zenUp = true ∧ up0.ready = true ∧ up0.f ZEN_PHASE.VC_LIVE = 128 ∧ 600 ≤ up0.f TMD_CTL.VMAX_C ∧
    up0.f (TMD_STK.DUTY 15) ≤ 4 ∧ (withF [(⟨ZEN_PHASE.at, 47, 45⟩, 2)] up0).vrgLive 15 = 2 ∧ up0.pgood = true ∧
    5000 > up0.f ZEN_PHASE_CAP.PH_PEAK_W ∧
    (let s : State := { linked 3 (withF [(TMD_STATUS.TRIPPED, 1)] up0) with nodes := List.replicate 30 0#32 }
     s.accepts .companion TMD_TRIP.at = true ∧ s.flag TMD_STATUS.TRIPPED = true ∧ s.tripHard = false ∧
       (List.range 30).all (fun i => (s.node32 i).lt (tempC ((s.f TMD_CTL.TJ_MAX_C : Int) - 10))) = true) ∧
    (linked 3).accepts .companion PWR_SAMPLE.at = true ∧ ({ up0 with sampleQ := [29, 0] } : State).sampleQ = 29 :: [0] ∧
    (up0.powState 8 = 0 ∧ up0.wanted 8 = true ∧
      (let s := withF ((List.range 8).map (fun d => (PWR_DOM_STATUS.STATE d, 2))) up0
       (List.range 30).all (fun e => s.powState e != 1 && (decide (8 ≤ e) || s.powState e != 0 || !s.wanted e)) = true)) ∧
    (withF [(PWR_DOM_STATUS.STATE 20, 1)] up0).powState 20 = 1 ∧
    (let s := withF [(PWR_DOM_STATUS.STATE 3, 2), (TMD_STATUS.TRIPPED, 1)] up0
     s.powState 3 ≠ 0 ∧ s.wanted 3 = false ∧ s.groupBusy 3 = false) ∧
    up0.f ZEN_PHASE.BUS_LIVE = 10 ∧ up0.f (VRG_ID.MODE 15) = 0 ∧ up0.vrgLive 15 = 4 := by decide +kernel

theorem witness_ResetsAndBoot :
    (let s : State := { up0 with pgood := false }
     s.pgood = false ∧ s.pgPull = false ∧ s.inputOff = false) ∧
    up0.pgood = true ∧ up0.domRuns dSBD = true ∧ (linked 3).accepts .companion ZEN_RESET.at = true ∧ up0.zenUp = true ∧
    up0.recovery = false ∧ (0 : BitVec 16) ≠ 0x5A17#16 ∧
    (let s : State := { up0 with zenRestart := true }
     s.zenRestart = true ∧ s.copyCheck 0 (s.f ZEN_BOOT.FW_COPY) ≠ 0) ∧
    (let s := withF [(ZEN_BOOT.STATE, 1)] up0
     s.f ZEN_BOOT.STATE = 1 ∧ s.zenUp = true) ∧
    (let s : State := { up0 with pgood := false, pgPull := true }
     s.pgPull = true ∧ s.inputOff = false) := by decide +kernel

/-- An update of the firmware's copy B with a short object. -/
def update (begun : Bool) : Fwu := ⟨0, 1, [1#8, 2#8], begun, false⟩

theorem witness_UpdatesWriteTheOtherCopy :
    (linked 3).accepts .companion ZEN_FWU_CTL.at = true ∧ (linked 3).zenUp = true ∧ (linked 3).ready = true ∧ up0.zenUp = true ∧ up0.ready = true ∧
    (up0.fwu = none ∧ up0.fwStream = none ∧ up0.f ZEN_FWU_STATUS.STATE = 0 ∧ ok startUpdate up0 = true) ∧
    (let s : State := { up0 with fwu := some (update true) }
     s.fwu = some (update true) ∧ (update true).repair = false ∧ s.domRuns dSBD = true ∧ (update true).started = true ∧
       (update true).obj.length ≤ copySize 0) ∧
    (let s : State := { withF [(TMD_FLASH.BOARD, 3000)] up0 with fwu := some (update false) }
     (update false).started = false ∧ s.flashOpen = false ∧ s.flag TMD_FLASH.FHOLD = false) ∧
    (let s : State := { withF [(TMD_FLASH.FHOLD, 1)] up0 with fwu := some (update false) }
     s.flashOpen = true ∧ s.flag TMD_FLASH.FHOLD = true) ∧
    up0.sbUp = true ∧ (List.replicate 4096 0#8 : List Byte).length = 4096 ∧ 0 + 4096 ≤ copySize (up0.f ZEN_FWU_STATUS.KIND) ∧
    up0.flashOpen = true ∧ ({ up0 with fwStream := some 4096 } : State).fwStream = some 4096 := by decide +kernel

/-- up0 while ZEN runs a service action. -/
def action (a t : Nat) : State := { up0 with svc := some (a, t) }

theorem witness_ServiceActionsAct :
    up0.zenUp = true ∧
    (withF ((List.range 8).map (fun g => (ANV_ID.STATE (25 * g + 24), 3))) (action 1 30)).spareFor 1 = none ∧
    (let s := withF [(PWR_DOM_STATUS.STATE 1, 2)] (action 1 30)
     s.f (ANV_ID.STATE 30) = 0 ∧ s.spareFor 1 = some 49 ∧ s.onTiles (s.ltile 30) = [] ∧ s.powOn (49 / 25) = true) ∧
    (action 2 511).flag (MSC_COPY.ACTIVE 15) = false ∧ (action 3 4096).flag (MSC_COPY.ACTIVE 0) = false ∧
    ((action 3 4096).planMigration 0 1 [(0, 0)]).any (fun l => l.length == 1) = true ∧
    (action 3 4096).planMigration 0 1 [] = some [] ∧ (action 4 15).svc = some (4, 15) ∧ (action 5 0).flashFree = true ∧
    (let s := withF [(VRG_ID.MODE 15, 1)] up0
     s.up = true ∧ s.f (VRG_ID.MODE 15) = 1 ∧ s.engineUsed 15 = false ∧ s.virgaBusy 15 = 0) ∧ up0.ready = true := by
  decide +kernel

/-- up0 with an alias key and a short certificate chain, whose connection on the sideband is at a stage. -/
def spdmAt (stage : Nat) : State := { up0 with spdm := [(0, stage)], certs := [[1#8], [2#8]], aliasSeed := [9#8] }

theorem witness_RequestsAreAnswered :
    ([0, 1, 2, 3].all (fun n => (spdmAt n).spdmUp 0 && SMap.get 0 (spdmAt n).spdm 0 == n)) = true ∧
    (spdmAt 3).flag ZEN_BOOT.UNLOCKED = false ∧ (spdmAt 3).certs ≠ [] ∧ up0.certs = [] ∧ up0.aliasSeed = [] ∧
    (spdmAt 3).aliasSeed ≠ [] ∧
    (let s : State := { spdmAt 3 with meas := [(1, [7#8])] }
     s.blocks.filter (fun b => b.1 == 1) ≠ [] ∧ s.blocks.filter (fun b => b.1 == 200) = []) ∧
    0 < (spdmAt 3).certChain.length ∧ up0.pgood = true ∧ up0.tap < 16 ∧ ({ up0 with tap := 4 } : State).tap = 4 := by
  decide +kernel

/-! ## Witnesses: commands whose every access is served

Each names the clauses of a statement that hold of operands in calm ranges, and shows a state, operands and a range. -/

/-- View register n: a LINEAR view of count elements of format code k that follow each other from addr. -/
def vw (n k count addr : Nat) : SMap W64 :=
  [(8 * n, setFld 0#64 43 39 k), (8 * n + 1, BitVec.ofNat 64 addr), (8 * n + 2, BitVec.ofNat 64 (count - 1)), (8 * n + 4, 1#64)]

/-- The started command c with view registers v, and the engine of queue q that runs it. -/
def fl (c : List W64) (v : SMap W64) : Flight := ⟨c, v, .running, 0, none, 0⟩
def eng (q : Nat) (c : List W64) : Eng := engOf 0 0 0 q c

/-- A command of kind k with fields of word 3. -/
def cmd3 (k : Nat) (l : List (Nat × Nat × Nat)) : List W64 := l.foldl (fun c p => inWord c 3 p.1 p.2.1 p.2.2) (bare k)

/-- The first 64 KiB of tile 0's scratchpad. -/
def lo0 : Nat := spmBase
def hi0 : Nat := spmBase + 0x10000

theorem witness_TileEnginesRunTheirCommand_panels :
    up0.mmulReady 0 0 (eng 0 mmul0) (fl mmul0 []) lo0 hi0 := by
  unfold State.mmulReady
  decide +kernel

/-- An ATT of one position, with Q, O, K and V in view registers 0 to 3 and no length table. -/
def att0 : List W64 := cmd3 kATT [(59, 56, 1), (55, 52, 2), (51, 48, 3), (47, 44, 4)]

/-- An ADD of view register 0 to itself into view register 1, and a DCOPY of mode m between the two. -/
def vop0 (k : Nat) : List W64 := cmd3 k [(63, 56, 1), (43, 40, 1)]
def copy0 (m : Nat) : List W64 := cmd3 kDCOPY [(59, 56, 1), (51, 48, m)]
def views0 (a : Nat) : SMap W64 := vw 0 1 4 a ++ vw 1 1 4 (a + 64)

theorem witness_TileEnginesRunTheirCommand_vectors :
    up0.attReady (eng 0 att0) (fl att0 (vw 0 1 1 lo0 ++ vw 1 1 1 (lo0 + 64) ++ vw 2 1 1 (lo0 + 128) ++ vw 3 1 1 (lo0 + 192))) lo0 hi0 ∧
    up0.vecReady (fun _ => 256) (eng 1 (vop0 kVOP)) (fl (vop0 kVOP) (views0 lo0)) lo0 hi0 ∧
    (∀ m < 3, up0.moveReady (eng 2 (copy0 m)) (fl (copy0 m) (views0 lo0)) 0 0 lo0 hi0 ∧
      up0.moveReady (eng 2 (copy0 m)) (fl (copy0 m) (views0 lo0)) 0 32 lo0 hi0) := by
  unfold State.attReady State.vecReady State.moveReady
  decide +kernel

/-- An indexed DCOPY of mode m and an indexed VGS of operation m over 4 rows, whose two indices clamp: source, destination
and index in view registers 0, 1 and 2. -/
def idx0 (m : Nat) : List W64 :=
  inWord (cmd3 kDCOPY [(59, 56, 1), (51, 48, m), (55, 52, 2), (47, 46, 2), (43, 43, if m = 5 then 1 else 0)]) 5 39 0 3
def vgs0 (m : Nat) : List W64 :=
  inWord (cmd3 kVGS [(63, 62, m), (61, 60, 2), (59, 56, 2), (51, 48, 1), (43, 43, m / 2)]) 4 39 0 3

/-- Their views from a: src elements, dst elements and two indices. -/
def idxViews (src dst a : Nat) : SMap W64 := vw 0 1 src a ++ vw 1 1 dst (a + 64) ++ vw 2 11 2 (a + 128)

/-- up0 with 16 slots of job 0 at stack 0, whose pages 0 and 4 are in the merge buffer. -/
def merged0 : State :=
  after (do rawWrite (reqWho .zen 0) 0 [1#8]; rawWrite (reqWho .zen 0) 0x4000 [1#8])
    (withF [(VRG_JOB_SLOTS.COUNT 0 0, 16)] up0)

/-- up0 whose tile 0 holds a list of one entry: 64 bytes from lo0 + 64 to lo0 + 128. -/
def list0 : State :=
  up0.setTile 0 { up0.tile 0 with spm := Bytes.wrNat (Bytes.wrNat [] 0 8 (lo0 + 64)) 8 8 (63 * 2 ^ 48 + lo0 + 128) }

theorem witness_TileEnginesRunTheirCommand_indexed :
    up0.gatherReady (eng 2 (idx0 3)) (dmaIdx (fl (idx0 3) (idxViews 4 2 lo0))) lo0 hi0 lo0 hi0 ∧
    up0.scatterReady (eng 2 (idx0 4)) (dmaIdx (fl (idx0 4) (idxViews 2 4 lo0))) lo0 hi0 lo0 hi0 ∧
    merged0.accReady (eng 2 (idx0 5)) (dmaIdx (fl (idx0 5) (idxViews 2 4 lo0))) lo0 hi0 ∧
    list0.listReady (eng 2 (cmd3 kDCOPY [(51, 48, 6)])) (fl (cmd3 kDCOPY [(51, 48, 6)]) (vw 0 12 2 lo0)) lo0 hi0 := by
  unfold State.gatherReady State.scatterReady State.accReady State.listReady
  decide +kernel

/-- A VMV of one weight, activation and result in view registers 0, 1 and 2. -/
def vmv0 : List W64 := cmd3 kVMV [(59, 56, 1), (55, 52, 2), (36, 33, 8)]

/-- A VAMO to exact slots, and a VSLOT of operation m on two slots with view register 1. -/
def vamo0 : List W64 := cmd3 kVAMO [(60, 60, 1)]
def vslot0 (m : Nat) : List W64 := cmd3 kVSLOT [(63, 61, m), (59, 56, 1), (39, 23, 2)]

theorem witness_VirgaEnginesRunTheirCommand_vectors :
    merged0.vmvReady 0 (eng 10 vmv0) (fl vmv0 (vw 0 1 1 0x4000 ++ vw 1 1 1 0x4040 ++ vw 2 1 1 0x4080)) 0x4000 0x5000 0x4000 0x5000 ∧
    merged0.vewPlaced 0 (fl (vop0 kVEW) (views0 0x4000)) ∧
    merged0.vecReady granuleElems (eng 10 (vop0 kVEW)) (fl (vop0 kVEW) (views0 0x4000)) 0x4000 0x5000 := by
  unfold State.vmvReady State.vewPlaced State.vecReady
  decide +kernel

theorem witness_VirgaEnginesRunTheirCommand_indexed :
    (let k := vgsIdx (fl (vgs0 0) (idxViews 4 2 0x4000))
     merged0.misplaced 0 false k.iv = none ∧ merged0.misplaced 0 true k.sv = none ∧ merged0.misplaced 0 false k.dv = none ∧
       merged0.gatherReady (eng 10 (vgs0 0)) k 0x4000 0x5000 0x4000 0x5000) ∧
    (let k := vgsIdx (fl (vgs0 1) (idxViews 2 4 0x4000))
     merged0.misplaced 0 false k.iv = none ∧ merged0.misplaced 0 false k.sv = none ∧ merged0.misplaced 0 true k.dv = none ∧
       merged0.scatterReady (eng 10 (vgs0 1)) k 0x4000 0x5000 0x4000 0x5000) ∧
    (let k := vgsIdx (fl (vgs0 2) (idxViews 2 4 0x4000))
     merged0.misplaced 0 false k.iv = none ∧ merged0.misplaced 0 false k.sv = none ∧
       merged0.accReady (eng 10 (vgs0 2)) k 0x4000 0x5000) := by
  unfold State.gatherReady State.scatterReady State.accReady
  decide +kernel

theorem witness_VirgaEnginesRunTheirCommand_slots :
    merged0.vamoReady 0 (eng 10 vamo0) (fl vamo0 (vw 0 1 2 0x4000)) 0x4000 0x5000 ∧
    (∀ m < 5, merged0.slotReady 0 (eng 10 (vslot0 m)) (fl (vslot0 m) [])) ∧
    (let f := fl (vslot0 1) (vw 1 1 2 0x4000)
     merged0.slotView 0 (eng 10 (vslot0 1)) f (resultIx f) 0x4000 0x5000) ∧
    (∀ m < 5, let f := fl (vslot0 m) (vw 1 10 96 0x4000)
      1 < m → merged0.slotView 0 (eng 10 (vslot0 m)) f (imagesIx f) 0x4000 0x5000) := by
  unfold State.vamoReady State.slotReady State.slotView
  decide +kernel

/-- up0 whose page 0 of stack 0 is a pool page for one layer and one head of dimension 32, with its KV header at 0x800 and a
page list of zeros; page 4 holds a length table of one position of one sequence. -/
def kv0 : State := after (do
  rawWrite (reqWho .zen 0) 0x800 (leBytes 8 (31 * 2 ^ 44 + 1) ++ leBytes 8 0 ++ leBytes 8 (2 ^ 32 + 1) ++ leBytes 8 0)
  rawWrite (reqWho .zen 0) 0x4000 (leBytes 8 (2 ^ 21))) up0
def kvViews : SMap W64 := vw 0 1 32 0x4040 ++ vw 1 1 32 0x4100 ++ vw 2 12 4 0x4000
def vatt0 : List W64 := inWord (inWord (cmd3 kVATT [(59, 56, 1), (47, 44, 2)]) 5 43 36 31) 4 47 0 0x800
def vkva0 : List W64 := inWord (cmd3 kVKVA [(59, 56, 1), (55, 52, 2)]) 4 47 0 0x800

theorem witness_VirgaEnginesRunTheirCommand_attention :
    kv0.vattReady 0 (eng 10 vatt0) (fl vatt0 kvViews) 0x4000 0x5000 0 0x1000 := by
  unfold State.vattReady State.kvReady
  decide +kernel

theorem witness_VirgaEnginesRunTheirCommand_append :
    kv0.vkvaReady 0 (eng 10 vkva0) (fl vkva0 kvViews) 0x4000 0x5000 0 0x1000 := by
  unfold State.vkvaReady State.kvReady
  decide +kernel

theorem witness_VirgaEnginesRunTheirCommand_errors :
    ([0, 15].all (fun k => !up0.plain k)) = true ∧ (∃ ue, 2 ≤ ue ∧ ue ≤ 7) := ⟨by decide +kernel, 7, by decide, by decide⟩

/-- The view of one element that the FOPs below name. -/
def fopView : SMap W64 := vw 0 1 1 lo0

theorem witness_FabricCommandsRun_served :
    ([0, 1, 2, 3, 4].all (fun op =>
      let c := fop op 2
      let s := fab (withQ 26 { Queue.empty with flight := [fl c fopView] })
      let lv := vOf c fopView 3 60 57
      ((s.queue 0 0 26).freshFop op).isSome && s.calm (eng 26 c).who false lo0 (lo0 + 64) &&
        lv.within lv.fmt.bits lo0 (lo0 + 64) lv.cells && cf c 3 56 42 != s.node && cf c 3 56 42 != 0x7FFF &&
        !(s.routes (cf c 3 56 42)).isEmpty)) = true := by decide +kernel

/-! ## Witnesses: accesses that are served -/

theorem witness_AddersReplaceTheirElement_served :
    merged0.region 0x4FF8 = .stack ∧ merged0.calm ⟨.fabric, none, 255, some 6⟩ true 0x4000 0x5000 = true ∧
    merged0.plain (0x4FF8 / merged0.stackBytes) = false ∧ adderHas .int64 3 = true ∧ 0x4FF8 + 8 ≤ 0x5000 := by decide +kernel

theorem witness_MemoryAccessesEnd_served :
    merged0.calm (reqWho .zen 0) true 0x4000 0x5000 = true ∧ merged0.calm (reqWho .zen 0) false 0x4000 0x5000 = true ∧
    merged0.region 0x4FFE = .stack ∧ 0x4FFE % 4096 + 2 ≤ 4096 ∧
    (far0.region farBase = .far ∧ (far0.farDoms farBase).all far0.domRuns = true ∧ far0.farLive farBase = some 0 ∧
      far0.farPoison = []) ∧
    (let s := cached0.setLine 0 0 { CLine.zero with valid := 1#4 }
     (s.line 0 0).valid.toNat.testBit 0 = true ∧ s.up = true ∧ (s.cached ⟨.tdma, some 0, 255, some 5⟩ 0 4).isSome = true ∧
       (s.cached ⟨.tdma, some 0, 255, some 5⟩ 64 64).isSome = true ∧ (s.line 0 0).valid ≠ 0#4 ∧ (s.line 0 0).bad = 0#4 ∧
       (s.line 0 0).weak = 0#32 ∧ s.segOk 0 0 4 true = true ∧ s.segOk 0 0 4 false = true) := by decide +kernel

theorem witness_LocalAccessesComplete_served :
    ([false, true].all (fun b => let s := atPc 0 { coreWith [] with out := [accAt b (spmBase + 120)] }
      s.loaded 0 && s.up && s.calm (s.coreWho 0) b spmBase (spmBase + 128))) = true := by decide +kernel

theorem witness_CloudbankRanges_served :
    (let s := (atPc 0 { coreWith [] with clbs := [clb0] } cached0).setLine 0 1 { CLine.zero with valid := 15#4 }
     s.linesIn (s.jobOf 0) clb0.base clb0.len = [1] ∧ s.cleanLines (s.jobOf 0) [1]) := by
  unfold State.cleanLines
  decide +kernel

theorem witness_InstructionFill_served :
    (let s := atPc 0 { coreWith [] with ifill := some (0xF000, 0xF000) } code0
     s.calm ⟨.ifill, some (s.jobOf 0), s.ltile 0, some 4⟩ false 0xF000 0x10000) = true := by decide +kernel

theorem witness_CompanionAccessesEnd_served :
    (let s := linked 3 merged0
     s.dylUp = true ∧ s.region 0x4FF0 = .stack ∧ s.ready = true ∧ s.calm compWho false 0x4000 0x5000 = true ∧
       s.calm compWho true 0x4000 0x5000 = true ∧ 0x4FF0 + 16 ≤ 0x5000) := by decide +kernel

/-- A READ of 64 bytes at 0x4000 by node 2. -/
def read2 : Frame := { req2 with raddr := 0x4000, len := 64 }

/-- up0 that awaits the data of a READ of 4 bytes. -/
def awaits : State :=
  { fab (withQ 26 { Queue.empty with flight := [{ fl (fop 0 2) fopView with fop := 1 }] }) with
    txSent := [⟨{ frame0 with dst := 2, src := 1, len := 4 }, 0, 0, 1, 0, false⟩] }

theorem witness_FramesAreAppliedOnce_served :
    (let s := fab merged0
     s.xwfEn = true ∧ s.portUp 0 = true ∧ s.ethernet 0 = false ∧ (s.rx 2).seen 0#32 = false ∧ s.refusal read2 = none ∧
       s.calm read2.who false 0x4000 0x5000 = true ∧ s.refusal { req2 with op := 3 } = none) ∧
    (awaits.sentTo 2 0#32).isSome = true ∧ ((awaits.queue 0 0 26).fopAt 1).isSome = true ∧
    (let lv := vOf (fop 0 2) fopView 3 60 57
     awaits.calm (engOf 0 0 (awaits.phys 0) 26 (fop 0 2)).who true lo0 (lo0 + 64) = true ∧
       lv.within lv.fmt.bits lo0 (lo0 + 64) lv.cells = true) := by decide +kernel

theorem witness_ChannelsRetrain_counts :
    ([255, 256].all (fun n => (withF [(MSC_CH_STATUS.LINK_CRC 15 5, n)] up0).f (MSC_CH_STATUS.LINK_CRC 15 5) == n)) = true := by
  decide +kernel

theorem witness_MemoryIsMaintained_served :
    up0.pageCalm false (up0.stackPages * 15 + pageAt 31 0) = true ∧ up0.f (MSC_CH_STATUS.STATE 15 31) ≠ 1 ∧
    (up0.mergeBuf (32 * 0 + 4)).length < 16 := by decide +kernel

theorem witness_UpdatesWriteTheOtherCopy_served :
    (let s := withF [(ZEN_FWU_CTL.SRC, 0x20000)] up0
     s.calm ldrWho false 0x20000 0x22000 = true ∧ objNum (s.bytesAt ldrWho 0x20000 8192) 12 4 = 0 ∧
       s.inStore 0x20000 = true ∧ s.inStore 0x21FFF = true ∧ rangesMeet [(0x20000, 0x21FFF)] s.busyRanges = false ∧
       objCheck 0 (s.floorOf 0) (s.bytesAt ldrWho 0x20000 8192) ≠ 0) := by decide +kernel

theorem witness_LoadsAreAnswered_served :
    merged0.calm ldrWho true 0x4000 0x5000 = true ∧ merged0.zenUp = true ∧ 0x4000 + 640 ≤ 0x5000 ∧
    up0.inStore (2 ^ 47) = false := by decide +kernel

/-! ## Witnesses: serving commands whose every access is served -/

/-- Job 0 serves, with its lists, pins and ring in the 16 pages of its first segment, all in the merge buffer. -/
def srv0 (x : SrvJob) : State :=
  serving0 { x with listPages := 1, poolPages := 16, mapOff := 0x7000, kvh := [0x6000] } (withF [(SRV_JOB_QUOTA.PAGES 0, 16)]
    (after ((List.range 16).forM (fun i => rawWrite (reqWho .zen 0) (4096 * i) [1#8])) up0))

/-- A REQUEST record: 2 prompt tokens at 64, at most 2 new ones, a deadline, and an output ring at 0x400. -/
def reqWords : List W64 :=
  [0#64, 7#64, BitVec.ofNat 64 (2 * 2 ^ 21 + 2), BitVec.ofNat 64 (9 * 2 ^ 32), 64#64, 0x1000#64, 0x400#64, 0#64]

theorem witness_RequestsAndCancels_served :
    (let s : State := { srv0 SrvJob.zero with srvIn := [(1, reqWords)] }
     let q := reqOf reqWords
     let pages := ceilDiv (q.promptLen + q.maxNew) 16 + 1
     s.up = true ∧ (s.srvJob 0).bnd = false ∧ s.resReady 0 [] 0x8000 0xB000 ∧ s.requestFormat reqWords q = true ∧
       s.freeReq = some 0 ∧ s.queuedAll < 4096 ∧ q.left ≠ 0 ∧ q.pfxUse = false ∧ pages ≤ s.quota 0 ∧
       pages ≤ (s.srvJob 0).poolPages) ∧
    ([qPREFILL, qDECODE].all (fun q =>
      let s : State := { srv0 SrvJob.zero with srvIn := [(2, List.replicate 8 0#64)], rqt := [(0, reqIn q)] }
      (s.req 0).state == q && (s.req 0).job == 0 && (s.req 0).cookie == 0#64 && (s.srvJob 0).ready == false)) = true ∧
    (let s := srv0 { SrvJob.zero with bnd := true, adm := some ([], false) }
     (s.srvJob 0).bnd = true ∧ (s.srvJob 0).adm = some ([], false) ∧ (s.srvJob 0).order = [] ∧
       (s.srvJob 0).running = false ∧ s.srvIn = []) := by
  unfold State.resReady
  decide +kernel

/-- A step of job 0 that may be launched with request 0, which decodes and may take drafts. -/
def launch0 : State :=
  { withF [(SMP_JOB_CTL.SPEC_EN 0, 1)] (srv0 { SrvJob.zero with ready := true, unrep := [(0, [0])], order := [0] }) with
    rqt := [(0, { reqIn qDECODE with promptLen := 2, maxNew := 2, param := 0x1000 })] }

theorem witness_StepsRun_served :
    (let s := srv0 SrvJob.zero
     (s.srvJob 0).adm = none ∧ (s.srvJob 0).order = [] ∧ (s.endStep 0).queuedOf 0 = [] ∧ s.srvIn = []) ∧
    (let s := launch0
     let e := s.natAt (srvWho none) 0x6040 4
     s.calm (srvWho none) true 0 0x10000 = true ∧ s.f (SRV_JOB_BD.BASE 0) + (192 + 16 * 1) ≤ 0x10000 ∧ (s.req 0).entries = 1 ∧
       e ≠ noPage ∧ s.mapAt 0 (nameStack e) (namePage e) = 0x7000 ∧ (s.req 0).state = qDECODE ∧
       s.flag (SMP_JOB_CTL.SPEC_EN 0) = true ∧ s.paramIn 0 0 0 0x2000) ∧
    (let s := srv0 { SrvJob.zero with running := true, unrep := [(0, [0])] }
     let bd := s.f (SRV_JOB_BD.BASE 0)
     s.calm (srvWho none) true 0x4000 0x8000 = true ∧ s.calm (srvWho none) false 0x4000 0x8000 = true ∧ bd = 0x4000 ∧
       s.natAt (srvWho none) (bd + 64) 8 = (s.reg (SRV_JOB_STEP.at 0)).toNat ∧
       (s.natAt (srvWho none) (bd + 72) 8).testBit 0 = false ∧ s.natAt (srvWho none) (bd + 128) 8 = 0 ∧
       (s.srvJob 0).unrep.find? (fun p => p.1 == 0) = some (0, [0]) ∧ s.mapAt 0 (nameStack 0) (namePage 0) = 0x7000) := by
  unfold State.paramIn
  decide +kernel

/-- A handoff of a mode whose one logit stands at 0x800 of tile 0's scratchpad and whose token goes to 0xC00 there. -/
def hand0 (mode : Nat) : List W64 :=
  [0#64, 0#64, setFld (BitVec.ofNat 64 (spmBase + 0x800)) 52 48 2, 0#64, BitVec.ofNat 64 mode,
    BitVec.ofNat 64 (spmBase + 0xC00), 0#64, 0#64]

/-- The one row of a step, of request 0, with a number of drafts. -/
def row0 (drafts : Nat) (w : Option Pend) : RowSt := ⟨0, 1, 1, 0, drafts, 0, 0, 0, [], w, none, false⟩

/-- Such a step, whose request's parameter block at 0x100 names the sampler state at 0x1000 and no grammar. -/
def step0 (mode : Nat) (begun : Bool) (r : RowSt) : State :=
  let s := serving0 { SrvJob.zero with running := true, begun := begun, handoff := some (hand0 mode), rows := [r] }
  { s.setTile 0 { s.tile 0 with spm := Bytes.wrNat (Bytes.wrNat [] 0x130 8 (spmBase + 0x1000)) 0x140 8 spmBase } with
    rqt := [(0, { reqIn qDECODE with param := spmBase + 0x100, ring := spmBase + 0x400, left := 9 })] }

theorem witness_SamplerHandlesHandoffs_served :
    ([(0, false, none), (2, false, none), (0, true, some ⟨5, false, false, true⟩)].all (fun p =>
      let s := step0 p.1 p.2.1 (row0 0 p.2.2)
      s.handoffOf 0 [0, 2, 3] p.2.1 == some (Hand.ofWords (hand0 p.1)) && s.sampled (row0 0 p.2.2))) = true ∧
    (let s := step0 0 false (row0 0 none)
     let h := Hand.ofWords (hand0 0)
     s.rowReady 0 0 h 0 16448 lo0 hi0 ∧ s.tokenOf 0 0 h 0 ≠ none ∧ s.delivers 0 0) ∧
    (let s := step0 1 false (row0 1 none)
     let h := Hand.ofWords (hand0 1)
     s.handoffOf 0 [1] false = some h ∧ h.didx < (row0 1 none).drafts ∧
       s.rowReady 0 0 h 0 (0x5000 + 0x8000) lo0 hi0) := by
  unfold State.rowReady State.delivers
  decide +kernel

/-! ## Numbers and encodings of the spec's worked examples -/

theorem test_fp8_rounding :
    Fmt.encode .e4m3 .rne .sat (.fin false 0x9999999A (-33)) = 0x2A ∧
    Fmt.encode .e4m3 .rne .ieee (.fin false 500 0) = 0x7F ∧
    Fmt.encode .e4m3 .rne .sat (.fin false 500 0) = 0x7E ∧
    Fmt.encode .e4m3 .rne .ieee (.fin false 464 0) = 0x7E ∧
    Fmt.decode .e4m3 0x2A = .fin false 10 (-5) := by decide +kernel

theorem test_bf16_ties_to_even :
    Fmt.encode .bf16 .rne .ieee (Fmt.decode .fp32 0x3F808000) = 0x3F80 ∧
    Fmt.encode .bf16 .rne .ieee (Fmt.decode .fp32 0x3F818000) = 0x3F82 := by decide +kernel

/-- The worked example of R96: 1.23 is read at FP32 precision, 3.7 gives the scale. -/
theorem test_kv_int8_scale :
    pqScale 127 (Fmt.decode .fp32 0x406CCCCD) = 122 ∧ scaledMag (Fmt.decode .fp32 0x3F9D70A4) 122 = 39 := by
  decide +kernel

theorem test_pq8_read_with_four_planes :
    pqDecode 8 4 .trunc 117 true 91 = .fin true 80 (-10) ∧ pqDecode 8 8 .trunc 117 true 91 = .fin true 91 (-10) := by
  decide +kernel

/-- A slot keeps the +1 that FP32 would lose (R84, R86). -/
theorem test_slot_sum_is_exact :
    (((Slot.zero.add (.fin false 100000000 0)).add (.fin false 1 0)).add (.fin true 100000000 0)).finalise .fp32
      = 0x3F800000 := by decide +kernel

theorem test_gather_index_modes :
    indexEntry 1 10 (-3) = .row 7 ∧ indexEntry 2 10 (-3) = .row 0 ∧ indexEntry 0 10 (-3) = .fault ∧
    indexEntry 1 10 12 = .fault ∧ indexEntry 2 10 12 = .row 9 ∧ indexEntry 1 10 (-15) = .fault ∧
    indexEntry 2 10 (-15) = .row 0 ∧ indexEntry 3 10 12 = .skip := by decide +kernel

/-- The command of R265's worked example: its wait on T12 at 0x0041, and the modulo comparison of R242. -/
theorem test_wait_is_modulo :
    let w := fun v => { TileState.zero with tok := [(12, v)] }
    let c : List W64 := [0x405000000D010A05#64, 0x0000000C00000041#64, 0#64]
    waitHolds (w 0x40#16) c 0 = false ∧ waitHolds (w 0x41#16) c 0 = true ∧ waitHolds (w 0x8041#16) c 0 = false ∧
    cKind c = 0x10 := by decide +kernel

theorem test_blocked_element :
    brickCount 9216 576 = 1440 ∧ blockedBit 0 8 9216 576 1000 300 = 8 * 0x27E42C ∧
    planeSize 9216 576 = 737280 ∧ scaleSize 9216 576 = 184320 := by decide +kernel

theorem test_channel_hash : h512 0x12340 = 16 ∧ 0x12340 / 32 = 0x91A ∧ pageAt 16 0x91A = 0x12340 := by decide +kernel

theorem test_window_addresses :
    0x0FFF00000000 + ANV_ID.at 37 = 0x0FFF04940000 ∧ spmBase + 37 * spmWin = 0x0F8004A00000 := by decide +kernel

/-- The program of "one command to sixteen stacks". -/
theorem test_program_words :
    encI 0x07 5 0 10 = 0x1CA0000A ∧ encI 0x07 6 0 16 = 0x1CC00010 ∧ encI 0x02 7 0 0x400 = 0x08E00400 ∧
    encPush 7 5 true 0 = 0xA0E58000 ∧ encI 0x02 5 5 1 = 0x08A50001 ∧ encU 0x21 6 0x1FFFFE = 0x84DFFFFE := by
  decide +kernel

/-- CRC-32C of the nine digits, and SHAKE256 of the empty string (R392, R721). -/
theorem test_standard_codes :
    crc32c [0x31, 0x32, 0x33, 0x34, 0x35, 0x36, 0x37, 0x38, 0x39] = 0xE3069283 ∧
    shake256 [] 8 = [0x46, 0xb9, 0xdd, 0x2b, 0x0b, 0xa8, 0x8d, 0x13] := by decide +kernel

/-! ## Single commands -/

/-- ADDI s7, s0, 0x0400 at PC 0x108. -/
theorem test_addi_writes_and_advances :
    let s := next up0 (execAddi 0 7 0 0x400 (atPc 0x08E00400 { Core.zero with pc := 0x108 }))
    ((s.tile 0).core.r 7).toNat = 0x400 ∧ (s.tile 0).core.pc = 0x10C := by decide +kernel

/-- BDEC s6, -2 at 0x0114 goes to 0x010C while s6 is above 1, and falls through at 1. -/
theorem test_bdec_loops :
    (let s := next up0 (execBdec 0 6 0x1FFFFE (atPc 0x84DFFFFE { coreWith [(6, 16#64)] with pc := 0x114 }))
     (s.tile 0).core.pc = 0x10C ∧ (s.tile 0).core.r 6 = 15#64) ∧
    (let s := next up0 (execBdec 0 6 0x1FFFFE (atPc 0x84DFFFFE { coreWith [(6, 1#64)] with pc := 0x114 }))
     (s.tile 0).core.pc = 0x118 ∧ (s.tile 0).core.r 6 = 0#64) := by decide +kernel

/-- A write to s0 is discarded. -/
theorem test_s0_reads_zero :
    let s := next up0 (execAddi 0 0 0 0x400 (atPc 0x08000400 Core.zero))
    (s.tile 0).core.r 0 = 0#64 ∧ (s.tile 0).core.pc = 4 := by decide +kernel

end Sys2Proof.Machine.Tests
end

/-! PROOFS. Registers written field by field, and the register accesses built on them (R8 - R13, R181, R237, R737). -/

/-! ## Words bit by bit -/

namespace Sys2Proof

theorem testBit_fld (w : W64) (hi lo i : Nat) :
    (fld w hi lo).testBit i = (decide (i < hi + 1 - lo) && w.getLsbD (lo + i)) := by
  unfold fld bitsOf
  rw [Nat.testBit_mod_two_pow, Nat.testBit_div_two_pow, Nat.add_comm i lo, BitVec.getLsbD]

theorem fld_lt (w : W64) (hi lo : Nat) : fld w hi lo < 2 ^ (hi + 1 - lo) := Nat.mod_lt _ (by positivity)

/-- Words that agree on the bits of a field read alike there. -/
theorem fld_congr {a b : W64} {hi lo : Nat} (h : ∀ i, lo ≤ i → i ≤ hi → a.getLsbD i = b.getLsbD i) :
    fld a hi lo = fld b hi lo := by
  refine Nat.eq_of_testBit_eq fun i => ?_
  rw [testBit_fld, testBit_fld]
  by_cases hi' : i < hi + 1 - lo
  · rw [h (lo + i) (by omega) (by omega)]
  · simp [hi']

theorem getLsbD_setFld (w : W64) {hi lo : Nat} (v i : Nat) (h : hi < 64) (hl : lo ≤ hi) :
    (setFld w hi lo v).getLsbD i = if lo ≤ i ∧ i ≤ hi then v.testBit (i - lo) else w.getLsbD i := by
  by_cases hin : lo ≤ i ∧ i ≤ hi
  · have hb := testBit_fld (setFld w hi lo v) hi lo (i - lo)
    rw [fld_setFld_self w hi lo v h hl, Nat.testBit_mod_two_pow, Nat.add_sub_cancel' hin.1] at hb
    have hw : i - lo < hi + 1 - lo := by omega
    simpa [hin, hw] using hb.symm
  · have hb := congrArg (Nat.testBit · 0) (fld_setFld_other w hi lo v i i h hl (by omega))
    simp only [testBit_fld, Nat.add_zero, show 0 < i + 1 - i by omega, decide_true, Bool.true_and] at hb
    rw [if_neg hin, hb]

end Sys2Proof

namespace Sys2Proof.Machine

theorem getLsbD_onesAt {hi lo : Nat} (i : Nat) (h : hi < 64) (hl : lo ≤ hi) :
    (onesAt hi lo).getLsbD i = decide (lo ≤ i ∧ i ≤ hi) := by
  unfold onesAt
  rw [getLsbD_setFld _ _ _ h hl, Nat.testBit_two_pow_sub_one]
  by_cases hin : lo ≤ i ∧ i ≤ hi
  · simp [hin]
    omega
  · simp [hin]

/-! ## One field of a written register (R8, R10 - R12) -/

/-- The field lies in the register, and a value clamped to its range fits its width. -/
def Fld.sound (f : Fld) : Bool :=
  decide (f.hi < 64) && decide (f.lo ≤ f.hi) &&
    (match f.chk with
     | .clamp lo _ => decide (lo < 2 ^ (f.hi + 1 - f.lo))
     | _ => true)

/-- Two fields share no bit. -/
def Fld.apart (f g : Fld) : Bool := decide (f.hi < g.lo) || decide (g.hi < f.lo)

theorem Fld.apart_iff {f g : Fld} : f.apart g = true ↔ f.hi < g.lo ∨ g.hi < f.lo := by simp [Fld.apart]

theorem Fld.apart_symm {f g : Fld} (h : f.apart g = true) : g.apart f = true := Fld.apart_iff.2 (Fld.apart_iff.1 h).symm

theorem Fld.sound_range {f : Fld} (h : f.sound = true) : f.hi < 64 ∧ f.lo ≤ f.hi := by
  unfold Fld.sound at h
  simp only [Bool.and_eq_true, decide_eq_true_eq] at h
  exact h.1

/-- Two words agree on the bits of a field. -/
def Fld.Same (f : Fld) (a b : W64) : Prop := ∀ i, f.lo ≤ i → i ≤ f.hi → a.getLsbD i = b.getLsbD i

theorem Fld.Same.refl (f : Fld) (a : W64) : f.Same a a := fun _ _ _ => rfl

theorem Fld.Same.trans {f : Fld} {a b c : W64} (h : f.Same a b) (k : f.Same b c) : f.Same a c :=
  fun i h1 h2 => (h i h1 h2).trans (k i h1 h2)

theorem Fld.Same.fld_eq {f : Fld} {a b : W64} (h : f.Same a b) : fld a f.hi f.lo = fld b f.hi f.lo := fld_congr h

theorem Fld.Same.and {f : Fld} {a b : W64} (h : f.Same a b) (c : W64) : f.Same (a &&& c) (b &&& c) := fun i h1 h2 => by
  simp [h i h1 h2]

theorem Fld.Same.or {f : Fld} {a b : W64} (h : f.Same a b) (c : W64) : f.Same (a ||| c) (b ||| c) := fun i h1 h2 => by
  simp [h i h1 h2]

theorem Fld.Same.masked {f : Fld} (hf : f.sound = true) {a b : W64} (h : f.Same a b) :
    a &&& onesAt f.hi f.lo = b &&& onesAt f.hi f.lo := by
  obtain ⟨h64, hle⟩ := Fld.sound_range hf
  refine BitVec.eq_of_getLsbD_eq fun i _ => ?_
  rw [BitVec.getLsbD_and, BitVec.getLsbD_and, getLsbD_onesAt _ h64 hle]
  by_cases hin : f.lo ≤ i ∧ i ≤ f.hi
  · rw [h i hin.1 hin.2]
  · simp [hin]

/-- A field set leaves the bits of a field apart from it. -/
theorem Fld.Same.setFld {f g : Fld} (hg : g.sound = true) (h : g.apart f = true) (w : W64) (v : Nat) :
    f.Same (setFld w g.hi g.lo v) w := fun i h1 h2 => by
  obtain ⟨h64, hle⟩ := Fld.sound_range hg
  have hd := Fld.apart_iff.1 h
  rw [getLsbD_setFld _ _ _ h64 hle, if_neg (by omega)]

/-- The bits of field g that a write covers lie outside a field apart from g. -/
theorem Fld.Same.cover_zero {f g : Fld} (hg : g.sound = true) (h : g.apart f = true) (m : W64) :
    f.Same (m &&& onesAt g.hi g.lo) 0#64 := fun i h1 h2 => by
  obtain ⟨h64, hle⟩ := Fld.sound_range hg
  have hd := Fld.apart_iff.1 h
  have hout : ¬ (g.lo ≤ i ∧ i ≤ g.hi) := by omega
  rw [BitVec.getLsbD_and, getLsbD_onesAt _ h64 hle, decide_eq_false hout, Bool.and_false, BitVec.getLsbD_zero]

/-- Bits cleared outside a field leave its own. -/
theorem Fld.Same.clear {f : Fld} (hf : f.sound = true) {c : W64} (hc : f.Same c 0#64) (w v : W64) :
    f.Same (w &&& ~~~(v &&& c)) w := fun i h1 h2 => by
  have h64 : i < 64 := h2.trans_lt (Fld.sound_range hf).1
  rw [BitVec.getLsbD_and, BitVec.getLsbD_not, BitVec.getLsbD_and, hc i h1 h2]
  simp [h64]

/-- Bits set outside a field leave its own. -/
theorem Fld.Same.set {f : Fld} {c : W64} (hc : f.Same c 0#64) (w v : W64) : f.Same (w ||| (v &&& c)) w := fun i h1 h2 => by
  simp [hc i h1 h2]

/-- What a write to one field leaves of another: its value, its actions, and the discarding of a busy field. -/
theorem Fld.write_frame {f g : Fld} (hf : f.sound = true) (hg : g.sound = true) (h : g.apart f = true) (busy : Bool)
    (m v : W64) (x : RegWr) :
    f.Same (g.write busy m v x).val x.val ∧ f.Same (g.write busy m v x).act x.act ∧
      (x.rejected = true → (g.write busy m v x).rejected = true) := by
  have hc := Fld.Same.cover_zero hg h m
  have hput (w : Nat) : f.Same (setFld x.val g.hi g.lo w) x.val := .setFld hg h _ _
  unfold Fld.write
  by_cases h0 : m &&& onesAt g.hi g.lo = 0#64
  · simp only [h0, if_true]
    exact ⟨.refl _ _, .refl _ _, id⟩
  · simp only [h0, if_false]
    cases g.acc with
    | rw | rwl => exact ⟨hput _, .refl _ _, id⟩
    | rwb =>
      cases busy
      · exact ⟨hput _, .refl _ _, id⟩
      · exact ⟨.refl _ _, .refl _ _, fun _ => rfl⟩
    | w1c => exact ⟨.clear hf hc _ _, .refl _ _, id⟩
    | w1s | wo => exact ⟨.refl _ _, .set hc _ _, id⟩
    | ro | rws | rz => exact ⟨.refl _ _, .refl _ _, id⟩

/-- What writes to fields apart from f leave of f. -/
theorem Fld.writes_frame {f : Fld} (hf : f.sound = true) (busy : Bool) (m v : W64) : ∀ (l : List Fld) (x : RegWr),
    (∀ g ∈ l, g.sound = true ∧ g.apart f = true) →
    let y := l.foldl (fun x g => g.write busy m v x) x
    f.Same y.val x.val ∧ f.Same y.act x.act ∧ (x.rejected = true → y.rejected = true)
  | [], _, _ => ⟨.refl _ _, .refl _ _, id⟩
  | g :: l, x, h => by
    obtain ⟨hval, hact, hrej⟩ := Fld.write_frame hf (h g (by simp)).1 (h g (by simp)).2 busy m v x
    obtain ⟨hval', hact', hrej'⟩ := Fld.writes_frame hf busy m v l (g.write busy m v x) fun k hk => h k (by simp [hk])
    exact ⟨hval'.trans hval, hact'.trans hact, hrej' ∘ hrej⟩

/-- A checked value fits the width of a sound field. -/
theorem Fld.fit_lt {f : Fld} (hf : f.sound = true) {was new : Nat} (hw : was < 2 ^ (f.hi + 1 - f.lo))
    (hn : new < 2 ^ (f.hi + 1 - f.lo)) : f.chk.fit was new < 2 ^ (f.hi + 1 - f.lo) := by
  unfold Fld.sound at hf
  cases hk : f.chk with
  | any => exact hn
  | clamp lo hi =>
    simp only [hk, Bool.and_eq_true, decide_eq_true_eq] at hf
    exact max_lt hf.2 ((min_le_right _ _).trans_lt hn)
  | within lo hi =>
    show (if lo ≤ new ∧ new ≤ hi then new else was) < _
    split
    · exact hn
    · exact hw

section
variable (f : Fld) {busy : Bool} {m v : W64} {x : RegWr}

/-- A write that covers no bit of the field. -/
theorem Fld.write_uncovered (h0 : m &&& onesAt f.hi f.lo = 0#64) : f.write busy m v x = x := if_pos h0

theorem Fld.write_val_kept (h : f.acc ∈ [Acc.ro, .rz, .w1s, .wo]) : (f.write busy m v x).val = x.val := by
  by_cases h0 : m &&& onesAt f.hi f.lo = 0#64
  · rw [f.write_uncovered h0]
  · simp only [List.mem_cons, List.not_mem_nil, or_false] at h
    rcases h with h | h | h | h <;> simp [Fld.write, h0, h]

theorem Fld.write_val_cleared (h : f.acc = .w1c) :
    (f.write busy m v x).val = x.val &&& ~~~(v &&& (m &&& onesAt f.hi f.lo)) := by
  by_cases h0 : m &&& onesAt f.hi f.lo = 0#64
  · have hones : ~~~(0#64) = BitVec.allOnes 64 := rfl
    rw [f.write_uncovered h0, h0, BitVec.and_zero, hones, BitVec.and_allOnes]
  · simp [Fld.write, h0, h]

theorem Fld.write_val_taken (h : f.acc = .rw ∨ f.acc = .rwl ∨ (f.acc = .rwb ∧ busy = false)) :
    (f.write busy m v x).val =
      if m &&& onesAt f.hi f.lo = 0#64 then x.val
      else setFld x.val f.hi f.lo (f.chk.fit (fld x.val f.hi f.lo)
        (fld ((x.val &&& ~~~(m &&& onesAt f.hi f.lo)) ||| (v &&& (m &&& onesAt f.hi f.lo))) f.hi f.lo)) := by
  by_cases h0 : m &&& onesAt f.hi f.lo = 0#64
  · rw [f.write_uncovered h0, if_pos h0]
  · rcases h with h | h | ⟨h, rfl⟩ <;> simp [Fld.write, h0, h]

theorem Fld.write_busy_val (h : f.acc = .rwb) : (f.write true m v x).val = x.val := by
  by_cases h0 : m &&& onesAt f.hi f.lo = 0#64
  · rw [f.write_uncovered h0]
  · simp [Fld.write, h0, h]

theorem Fld.write_busy_rejected (h : f.acc = .rwb) (h0 : m &&& onesAt f.hi f.lo ≠ 0#64) :
    (f.write true m v x).rejected = true := by simp [Fld.write, h0, h]

theorem Fld.write_act :
    (f.write busy m v x).act =
      if f.acc = .w1s ∨ f.acc = .wo then x.act ||| (v &&& (m &&& onesAt f.hi f.lo)) else x.act := by
  by_cases h0 : m &&& onesAt f.hi f.lo = 0#64
  · simp [f.write_uncovered h0, h0]
  · cases hacc : f.acc with
    | rwb => cases busy <;> simp [Fld.write, h0, hacc]
    | ro | rw | rws | rwl | w1c | w1s | wo | rz => simp [Fld.write, h0, hacc]

end

/-- How field f of a register that held old stands after a write of the bits m of v that left r, code by code. -/
structure Fld.Follows (f : Fld) (busy : Bool) (old m v : W64) (r : RegWr) : Prop where
  kept : f.acc ∈ [Acc.ro, .rz, .w1s, .wo] → fld r.val f.hi f.lo = fld old f.hi f.lo
  cleared : f.acc = .w1c → fld r.val f.hi f.lo = fld (old &&& ~~~(v &&& (m &&& onesAt f.hi f.lo))) f.hi f.lo
  taken : f.acc = .rw ∨ f.acc = .rwl ∨ (f.acc = .rwb ∧ busy = false) →
    fld r.val f.hi f.lo =
      if m &&& onesAt f.hi f.lo = 0#64 then fld old f.hi f.lo
      else f.chk.fit (fld old f.hi f.lo)
        (fld ((old &&& ~~~(m &&& onesAt f.hi f.lo)) ||| (v &&& (m &&& onesAt f.hi f.lo))) f.hi f.lo)
  refused : f.acc = .rwb → busy = true →
    fld r.val f.hi f.lo = fld old f.hi f.lo ∧ (m &&& onesAt f.hi f.lo ≠ 0#64 → r.rejected = true)
  acts : r.act &&& onesAt f.hi f.lo =
    if f.acc = .w1s ∨ f.acc = .wo then v &&& (m &&& onesAt f.hi f.lo) else 0#64

/-- Writes to other fields before or after the write to f do not matter to f. -/
theorem Fld.Follows.congr {f : Fld} (hf : f.sound = true) {busy : Bool} {old old' m v : W64} {r r' : RegWr}
    (h : f.Follows busy old' m v r') (ho : f.Same old' old) (hv : f.Same r.val r'.val) (ha : f.Same r.act r'.act)
    (hr : r'.rejected = true → r.rejected = true) : f.Follows busy old m v r := by
  have hnew : ∀ c d : W64, fld ((old' &&& c) ||| d) f.hi f.lo = fld ((old &&& c) ||| d) f.hi f.lo :=
    fun c d => ((ho.and c).or d).fld_eq
  constructor
  case kept => exact fun hacc => hv.fld_eq.trans ((h.kept hacc).trans ho.fld_eq)
  case cleared => exact fun hacc => hv.fld_eq.trans ((h.cleared hacc).trans (ho.and _).fld_eq)
  case taken => exact fun hacc => by rw [hv.fld_eq, h.taken hacc, ho.fld_eq, hnew]
  case refused =>
    exact fun hacc hb => ⟨hv.fld_eq.trans ((h.refused hacc hb).1.trans ho.fld_eq), hr ∘ (h.refused hacc hb).2⟩
  case acts => exact (ha.masked hf).trans h.acts

/-- A field's own part of the write follows its access code. -/
theorem Fld.write_follows {f : Fld} (hf : f.sound = true) (busy : Bool) (m v : W64) (x : RegWr)
    (hx : f.Same x.act 0#64) : f.Follows busy x.val m v (f.write busy m v x) := by
  obtain ⟨h64, hle⟩ := Fld.sound_range hf
  have hnone : x.act &&& onesAt f.hi f.lo = 0#64 := by simpa using hx.masked hf
  have hset : (x.act ||| (v &&& (m &&& onesAt f.hi f.lo))) &&& onesAt f.hi f.lo = v &&& (m &&& onesAt f.hi f.lo) := by
    rw [BitVec.and_comm, BitVec.and_or_distrib_left, BitVec.and_comm _ x.act, hnone, BitVec.zero_or]
    ext i
    simp only [BitVec.getElem_and]
    grind
  have hput : ∀ new, new < 2 ^ (f.hi + 1 - f.lo) →
      fld (setFld x.val f.hi f.lo (f.chk.fit (fld x.val f.hi f.lo) new)) f.hi f.lo = f.chk.fit (fld x.val f.hi f.lo) new :=
    fun new hn => by rw [fld_setFld_self _ _ _ _ h64 hle, Nat.mod_eq_of_lt (Fld.fit_lt hf (fld_lt _ _ _) hn)]
  constructor
  case kept => exact fun hacc => by rw [f.write_val_kept hacc]
  case cleared => exact fun hacc => by rw [f.write_val_cleared hacc]
  case taken =>
    intro hacc
    rw [f.write_val_taken hacc]
    split
    · rfl
    · exact hput _ (fld_lt _ _ _)
  case refused =>
    rintro hacc rfl
    exact ⟨by rw [f.write_busy_val hacc], f.write_busy_rejected hacc⟩
  case acts =>
    rw [f.write_act]
    split
    · exact hset
    · exact hnone

/-! ## A register written (R10) -/

/-- Every field lies in the register, and no two share a bit. -/
def RegDef.sound (d : RegDef) : Bool :=
  d.flds.all Fld.sound && decide (d.flds.Pairwise fun f g => f.apart g = true)

theorem RegDef.write_follows {d : RegDef} (hd : d.sound = true) {f : Fld} (hf : f ∈ d.flds) (busy : Bool) (old m v : W64) :
    f.Follows busy old m v (d.write busy old m v) := by
  obtain ⟨before, after, hl⟩ := List.append_of_mem hf
  unfold RegDef.sound at hd
  rw [hl, Bool.and_eq_true, List.all_eq_true, decide_eq_true_eq] at hd
  obtain ⟨hs, hp⟩ := hd
  obtain ⟨-, hafter, hbefore⟩ := List.pairwise_append.1 hp
  have hfs := hs f (by simp)
  obtain ⟨hval, hact, -⟩ := Fld.writes_frame hfs busy m v before ⟨old, 0#64, false⟩ fun g hg =>
    ⟨hs g (by simp [hg]), hbefore g hg f (by simp)⟩
  set x := before.foldl (fun x g => g.write busy m v x) ⟨old, 0#64, false⟩
  obtain ⟨hval', hact', hrej'⟩ := Fld.writes_frame hfs busy m v after (f.write busy m v x) fun g hg =>
    ⟨hs g (by simp [hg]), Fld.apart_symm ((List.pairwise_cons.1 hafter).1 g hg)⟩
  have hwrite : d.write busy old m v = after.foldl (fun x g => g.write busy m v x) (f.write busy m v x) := by
    rw [RegDef.write, hl, List.foldl_append, List.foldl_cons]
  rw [hwrite]
  exact (Fld.write_follows hfs busy m v x hact).congr hfs hval hval' hact' hrej'

/-! ## The register map -/

theorem regSearch_mem : ∀ {l : List RegDef} {off : Nat} {d : RegDef} {ix : List Nat},
    regSearch l off = some (d, ix) → d ∈ l
  | e :: l, off, d, ix, h => by
    unfold regSearch at h
    split at h
    · obtain ⟨rfl, -⟩ := Prod.mk.inj (Option.some.inj h)
      exact List.mem_cons_self
    · exact List.mem_cons_of_mem _ (regSearch_mem h)

theorem regFind_mem_window {off : Nat} {d : RegDef} {ix : List Nat} (h : regFind off = some (d, ix)) :
    d ∈ regWindow off := by
  unfold regFind at h
  split at h
  · exact regSearch_mem h
  · cases h

theorem all_ite {α : Type} {c : Prop} [Decidable c] {p : α → Bool} {l r : List α} (hl : l.all p = true)
    (hr : r.all p = true) : (if c then l else r).all p = true := by
  split
  · exact hl
  · exact hr

/-- Window by window, no register has overlapping fields, or a field whose clamp exceeds its width. -/
theorem regWindow_sound (off : Nat) : (regWindow off).all RegDef.sound = true := by
  unfold regWindow
  iterate 14 refine all_ite (by decide +kernel) ?_
  rfl

theorem regFind_sound {off : Nat} {d : RegDef} {ix : List Nat} (h : regFind off = some (d, ix)) : d.sound = true :=
  List.all_eq_true.1 (regWindow_sound off) d (regFind_mem_window h)

/-! ## A write to the control space (R8, R12, R13) -/

/-- Registers whose write starts something beyond the fields' own codes. -/
def startingRegs : List Nat :=
  [ZEN_RESET.at, ZEN_FWU_CTL.at, ERQ_CONS.at, ZEN_SVC_CTL.at, EQX_JOB_CTL.at 0, SRV_RQT_IDX.at, DSK_JOB_CTL.at 0,
   PWR_SAMPLE.at, TMD_TRIP.at, DYL_PORT_CTL.at 0, DYL_RING_CFG.at 0, DYL_MSG_CONS.at, DYL_VEC_CTL.at 0,
   XWF_PORT_CTL.at 0, XWF_HALT_INFO.at 0, MSC_RETRAIN.at 0, VRG_CTL.at 0, VRG_HALT_INFO.at 0 0, VRG_PERF_CTL.at 0,
   ANV_PERF_CTL.at 0, ANV_DMA_CTL.at 0 0, ANV_DMA_HALT_INFO.at 0 0, PIL_DBG_CTL.at 0, VPC_DBG_CTL.at 0,
   TDC_DOM_CTL.at 0, XWF_CTL.at, DYL_RING_STATUS.at 0]

theorem regEffect_plain {b : Nat} (h : startingRegs.contains b = false) (s : State) (i k off : Nat) (v act : W64) :
    regEffect s b i k off v act = .next (s.setReg off v) := by
  simp only [startingRegs, List.contains_cons, List.contains_nil, Bool.or_false, Bool.or_eq_false_iff, beq_eq_false_iff_ne] at h
  simp only [regEffect, h, if_false]

section
variable {s : State} {by_ : Agent} {off size : Nat} {val : W64}

theorem execRegisterWrite_badShape (h : ctlShape off size = false) :
    execRegisterWrite by_ off size val s =
      .next (if by_ = .companion ∧ s.dylUp = true then { s with rsp := some .busError } else s) := by
  unfold execRegisterWrite
  by_cases hc : by_ = .companion ∧ s.dylUp = true
  · rw [if_pos ⟨hc.1, hc.2, h⟩, if_pos hc]
    rfl
  · rw [if_neg fun hx => hc ⟨hx.1, hx.2.1⟩, if_neg hc, ctlWrite, if_pos h]

theorem execRegisterWrite_shape (h : ctlShape off size = true) :
    execRegisterWrite by_ off size val s = ctlWrite by_ off size val s :=
  if_neg fun hx => by simp [h] at hx

theorem ctlWrite_noRegister (h : ctlShape off size = true) (hr : regFind (off / 8 * 8) = none) (hw : coreWin off = none) :
    ctlWrite by_ off size val s = .next s := by
  simp [ctlWrite, h, hr, hw]

variable {d : RegDef} {ix : List Nat}

theorem ctlWrite_notAccepted (h : ctlShape off size = true) (hr : regFind (off / 8 * 8) = some (d, ix))
    (ha : s.accepts by_ (off / 8 * 8) = false) : ctlWrite by_ off size val s = .next s := by
  simp [ctlWrite, h, hr, ha]

/-- An accepted write to a register that starts nothing stores what its fields make of it. -/
theorem ctlWrite_plain (h : ctlShape off size = true) (hr : regFind (off / 8 * 8) = some (d, ix))
    (ha : s.accepts by_ (off / 8 * 8) = true) (hm : by_ ≠ .mc) (hs : startingRegs.contains d.base = false) :
    let i := ix.headD 0
    let r := d.write (s.rwbBusy d.base i ((ix.drop 1).headD 0)) (s.reg (off / 8 * 8)) (laneMask off size)
      (laneValue off size val)
    ctlWrite by_ off size val s = .next ((if r.rejected then s.reject d.base i else s).setReg (off / 8 * 8) r.val) := by
  have hmay : s.mcMay by_ d.base = true := by simp [State.mcMay, hm]
  have hx : d.base ≠ XWF_CTL.at ∧ d.base ≠ DYL_RING_STATUS.at 0 := by
    constructor <;> intro hb <;> rw [hb] at hs <;> exact absurd hs (by decide)
  simp only [ctlWrite, h, hr, ha, hmay, hx, and_false, if_false, Bool.and_self, if_true, Bool.true_eq_false, regEffect_plain hs]

end

/-! ## Performance counters (R181, R237) -/

/-- A field that reads zero keeps doing so while any field is zeroed. -/
theorem State.f_setF_zero {s : State} {q r : FRef} (hr : r.hi < 64) (hl : r.lo ≤ r.hi) (h : s.f q = 0) :
    (s.setF r 0).f q = 0 := by
  refine Nat.eq_of_testBit_eq fun i => ?_
  have hq := congrArg (Nat.testBit · i) h
  unfold State.f State.setF at *
  rw [State.reg_setReg]
  split
  · next ho =>
    rw [ho] at hq
    simp only [testBit_fld, getLsbD_setFld _ _ _ hr hl, Nat.zero_testBit] at hq ⊢
    split
    · simp
    · exact hq
  · exact hq

/-- The counters cnt k, and their OVF bits ovf k, zeroed for each k of a list. -/
def State.zeroCounters (s : State) (cnt ovf : Nat → FRef) (l : List Nat) : State :=
  l.foldl (fun s k => (s.setF (cnt k) 0).setF (ovf k) 0) s

theorem State.anvZero_eq (s : State) (n : Nat) :
    s.anvZero n = s.zeroCounters (ANV_PERF_CNT.COUNT n) (ANV_PERF_CNT.OVF n) (List.range 8) := rfl

theorem State.vrgZero_eq (s : State) (n : Nat) :
    s.vrgZero n = s.zeroCounters (VRG_PERF_CNT.COUNT n) (VRG_PERF_CNT.OVF n) (List.range 8) := rfl

section
variable {cnt ovf : Nat → FRef} {a : Nat → Nat} (hcnt : ∀ k, cnt k = ⟨a k, 47, 0⟩) (hovf : ∀ k, ovf k = ⟨a k, 63, 63⟩)
include hcnt hovf

/-- Zeroing counters keeps a field that reads zero. -/
theorem zeroCounters_keeps {q : FRef} : ∀ (l : List Nat) (s : State), s.f q = 0 →
    (s.zeroCounters cnt ovf l).f q = 0
  | [], _, h => h
  | k :: l, s, h => zeroCounters_keeps l _
    (State.f_setF_zero (by simp [hovf]) (by simp [hovf]) (State.f_setF_zero (by simp [hcnt]) (by simp [hcnt]) h))

/-- Each of the counters zeroed, and its OVF bit, reads zero. -/
theorem zeroCounters_zero {k : Nat} (l : List Nat) (s : State) (h : k ∈ l) :
    (s.zeroCounters cnt ovf l).f (cnt k) = 0 ∧
    (s.zeroCounters cnt ovf l).f (ovf k) = 0 := by
  induction l generalizing s with
  | nil => cases h
  | cons j l ih =>
    rcases List.mem_cons.1 h with rfl | h
    · have hc : (s.setF (cnt k) 0).f (cnt k) = 0 := by
        rw [State.f_setF_self _ _ _ (by simp [hcnt]) (by simp [hcnt]), Nat.zero_mod]
      have ho : ((s.setF (cnt k) 0).setF (ovf k) 0).f (ovf k) = 0 := by
        rw [State.f_setF_self _ _ _ (by simp [hovf]) (by simp [hovf]), Nat.zero_mod]
      exact ⟨zeroCounters_keeps hcnt hovf l _ (State.f_setF_zero (by simp [hovf]) (by simp [hovf]) hc),
        zeroCounters_keeps hcnt hovf l _ ho⟩
    · exact ih _ h

theorem zeroCounters_reg {b : Nat} : ∀ (l : List Nat) (s : State), (∀ k ∈ l, b ≠ a k) →
    (s.zeroCounters cnt ovf l).reg b = s.reg b
  | [], _, _ => rfl
  | k :: l, s, h => by
    have hk : b ≠ a k := h k List.mem_cons_self
    rw [State.zeroCounters, List.foldl_cons, ← State.zeroCounters, zeroCounters_reg l _ fun j hj => h j (List.mem_cons_of_mem _ hj),
      State.reg_setF_at _ _ _ _ (by rw [hovf]; exact hk), State.reg_setF_at _ _ _ _ (by rw [hcnt]; exact hk)]

/-- Counters 0 to 7 zeroed, and nothing else. -/
theorem zeroCounters_spec (s : State) :
    (∀ k, k < 8 → (s.zeroCounters cnt ovf (List.range 8)).f (cnt k) = 0 ∧
      (s.zeroCounters cnt ovf (List.range 8)).f (ovf k) = 0) ∧
    (∀ b, (∀ k, k < 8 → b ≠ (cnt k).off) → (s.zeroCounters cnt ovf (List.range 8)).reg b = s.reg b) :=
  ⟨fun _ hk => zeroCounters_zero hcnt hovf _ s (List.mem_range.2 hk),
    fun b hb => zeroCounters_reg hcnt hovf _ s fun k hk => by simpa [hcnt] using hb k (List.mem_range.1 hk)⟩

end

/-- The counters of a tile are zeroed, and no other register changes. -/
theorem State.anvZero_spec (s : State) (n : Nat) :
    (∀ k, k < 8 → (s.anvZero n).f (ANV_PERF_CNT.COUNT n k) = 0 ∧ (s.anvZero n).f (ANV_PERF_CNT.OVF n k) = 0) ∧
    (∀ b, (∀ k, k < 8 → b ≠ (ANV_PERF_CNT.COUNT n k).off) → (s.anvZero n).reg b = s.reg b) :=
  s.anvZero_eq n ▸ zeroCounters_spec (fun _ => rfl) (fun _ => rfl) s

/-- The counters of a stack's engine are zeroed, and no other register changes. -/
theorem State.vrgZero_spec (s : State) (n : Nat) :
    (∀ k, k < 8 → (s.vrgZero n).f (VRG_PERF_CNT.COUNT n k) = 0 ∧ (s.vrgZero n).f (VRG_PERF_CNT.OVF n k) = 0) ∧
    (∀ b, (∀ k, k < 8 → b ≠ (VRG_PERF_CNT.COUNT n k).off) → (s.vrgZero n).reg b = s.reg b) :=
  s.vrgZero_eq n ▸ zeroCounters_spec (fun _ => rfl) (fun _ => rfl) s

theorem execAnvPerfClear_accepted {s : State} {by_ : Agent} {n : Nat} (h : s.accepts by_ (ANV_PERF_CTL.at n) = true) :
    execAnvPerfClear by_ n s = .next (s.anvZero n) := by rw [execAnvPerfClear, if_pos h]

theorem execVrgPerfClear_accepted {s : State} {by_ : Agent} {n : Nat} (h : s.accepts by_ (VRG_PERF_CTL.at n) = true) :
    execVrgPerfClear by_ n s = .next (s.vrgZero n) := by rw [execVrgPerfClear, if_pos h]

/-! ## Reads by the sideband (R737) -/

/-- Registers that a read computes, in part or whole, from other state. -/
def viewedRegs : List Nat :=
  [ANV_STATUS.at 0, ANV_MXE_STATUS.at 0, ANV_VXE_STATUS.at 0, ANV_SCB_TOKEN.at 0 0, ANV_QSTAT.at 0 0,
   ANV_DMA_STATUS.at 0 0, VRG_STATUS.at 0, XWF_FQSTAT.at 0, SRV_STATUS.at, SRV_JOB_USE.at 0, SRV_JOB_STATUS.at 0,
   LDR_STATUS.at, PIL_DBG_STATUS.at 0, VPC_DBG_STATUS.at 0, DYL_RING_CFG.at 0]

theorem viewReg_plain {b off : Nat} (h : viewedRegs.contains b = false) (ho : isServingReg off = false) (s : State)
    (i k : Nat) : s.viewReg b i k off = s.reg off := by
  simp only [viewedRegs, List.contains_cons, List.contains_nil, Bool.or_false, Bool.or_eq_false_iff, beq_eq_false_iff_ne] at h
  simp only [State.viewReg, h, ho, if_false, Bool.false_and, Bool.false_eq_true]

/-- No register of ZEN's window is computed. -/
theorem regsZen_plain : ∀ d ∈ regsZen, viewedRegs.contains d.base = false := by
  decide +kernel

section
variable {off : Nat} (hlt : off < 0x100000) (s : State)
include hlt

theorem ctlRead_zen_none (h : regFind off = none) : ctlRead off s = 0#64 := by
  have hw : coreWin off = none := by
    unfold coreWin tileWin
    rw [if_neg (by omega)]
    exact if_neg (by omega)
  simp [ctlRead, h, hw]

theorem ctlRead_zen {d : RegDef} {ix : List Nat} (h : regFind off = some (d, ix)) : ctlRead off s = s.reg off := by
  have hd : d ∈ regsZen := by simpa [regWindow, hlt] using regFind_mem_window h
  have hreach : s.tileReach off = true := by simp [State.tileReach, show off < 0x4000000 by omega]
  have hserv : isServingReg off = false := by
    simp [isServingReg]
    omega
  simp only [ctlRead, h, hreach, true_or, if_true]
  exact viewReg_plain (regsZen_plain d hd) hserv s _ _

theorem mcReads_zen (h : ∀ d ix, regFind off = some (d, ix) → d.base ≠ ERQ_REC.at 0 0 ∨ s.dylUp = false) :
    s.mcReads off = true := by
  unfold State.mcReads
  split
  · simp [hlt]
  · next d ix hr => rcases h d ix hr with h | h <;> simp [hlt, h]

theorem execSidebandRegisterRead_zen (hs : s.sbUp = true) (hz : s.domRuns dZEN = true) (h8 : off % 8 = 0)
    (h : ∀ d ix, regFind off = some (d, ix) → d.base ≠ ERQ_REC.at 0 0 ∨ s.dylUp = false) :
    execSidebandRegisterRead off s = .next { s with mcRsp := some (ctlRead off s) } := by
  have hdom : ctlDomain off = some dZEN := if_pos hlt
  simp [execSidebandRegisterRead, hs, hz, hdom, h8, mcReads_zen hlt s h]

end

/-! ## The obligation -/

/-- Settles O51: writes to other fields neither reach a field's bits nor read them, so the field stands as its own write
leaves it; the rest is read off the few forms of a control-space access. -/
theorem registerWritesFollowAccessCodes : Obligations.RegisterWritesFollowAccessCodes := by
  refine ⟨fun d f off ix busy old m v hr hf => ?_, fun s by_ off size val => ⟨?_, ?_, ?_, ?_, ?_, ?_⟩⟩
  · obtain ⟨kept, cleared, taken, refused, acts⟩ := RegDef.write_follows (regFind_sound hr) hf busy old m v
    exact ⟨kept, cleared, taken, refused, acts⟩
  · exact execRegisterWrite_badShape
  · exact fun hsh hr hw => (execRegisterWrite_shape hsh).trans (ctlWrite_noRegister hsh hr hw)
  · exact fun d ix hr => ⟨fun hsh ha => (execRegisterWrite_shape hsh).trans (ctlWrite_notAccepted hsh hr ha),
      fun hsh ha hm hp => (execRegisterWrite_shape hsh).trans (ctlWrite_plain hsh hr ha hm hp)⟩
  · exact fun n _ ha => ⟨s.anvZero n, execAnvPerfClear_accepted ha, s.anvZero_spec n⟩
  · exact fun n _ ha => ⟨s.vrgZero n, execVrgPerfClear_accepted ha, s.vrgZero_spec n⟩
  · refine fun hs hz h8 hlt => ⟨fun hr => ?_, fun d ix hr hd => ?_⟩
    · have hread := execSidebandRegisterRead_zen hlt s hs hz h8 fun d ix h => by simp [hr] at h
      rwa [ctlRead_zen_none hlt s hr] at hread
    · have hread := execSidebandRegisterRead_zen hlt s hs hz h8 fun d' ix' h => by
        obtain ⟨rfl, -⟩ := Prod.mk.inj (Option.some.inj (hr.symm.trans h))
        exact hd
      rwa [ctlRead_zen hlt s hr] at hread

end Sys2Proof.Machine

/-! PROOFS. The core's own instructions: division, bit fields and transfers (R293, R295, R296, R298). -/

namespace Sys2Proof.Machine

/-! ## What an instruction that issues leaves -/

/-- An instruction that issues and completes leaves its core as its effect does. -/
theorem issue_done {t w : Nat} {regs : List (BitVec 5)} {f : State → Core → Issue} {s : State} {c : Core}
    (h : s.issues t w regs = true) (hw : legalWord w = true) (hf : f (s.fetched t) (s.core t) = .done (s.fetched t) c) :
    issue t w regs f s = .next ((s.fetched t).issued t c) := by
  rw [issue, State.issueWord_issues s t w regs f h hw, hf]

/-- A listed function of ALU writes its value to rd. -/
theorem alu_issues {t fn : Nat} {rd rs1 rs2 : BitVec 5} {f : W64 → W64 → W64} {s : State} {v : W64} (hfn : fn ≤ 0x14)
    (hv : f ((s.core t).r rs1) ((s.core t).r rs2) = v) (h : s.issues t (encR 0x01 rd rs1 rs2 fn) [rd, rs1, rs2] = true) :
    alu t fn rd rs1 rs2 f s = .next (s.wrote t rd v) := by
  rw [alu, compute_issues _ _ _ _ _ _ h (legal_alu rd rs1 rs2 fn (.inl hfn)), hv]

section
variable {t : Nat} {rd rs1 rs2 : BitVec 5} {s : State} {v : W64}

theorem exec_div (hv : divS ((s.core t).r rs1) ((s.core t).r rs2) = v) :
    s.issues t (encR 0x01 rd rs1 rs2 0x0D) [rd, rs1, rs2] = true →
      exec (.div t rd rs1 rs2) s = .next (s.wrote t rd v) := alu_issues (by decide) hv

theorem exec_divu (hv : divU ((s.core t).r rs1) ((s.core t).r rs2) = v) :
    s.issues t (encR 0x01 rd rs1 rs2 0x0E) [rd, rs1, rs2] = true →
      exec (.divu t rd rs1 rs2) s = .next (s.wrote t rd v) := alu_issues (by decide) hv

theorem exec_rem (hv : remS ((s.core t).r rs1) ((s.core t).r rs2) = v) :
    s.issues t (encR 0x01 rd rs1 rs2 0x0F) [rd, rs1, rs2] = true →
      exec (.rem t rd rs1 rs2) s = .next (s.wrote t rd v) := alu_issues (by decide) hv

theorem exec_remu (hv : remU ((s.core t).r rs1) ((s.core t).r rs2) = v) :
    s.issues t (encR 0x01 rd rs1 rs2 0x10) [rd, rs1, rs2] = true →
      exec (.remu t rd rs1 rs2) s = .next (s.wrote t rd v) := alu_issues (by decide) hv

end

/-! ## Division (R293, R295) -/

/-- The remainder of a division rounded toward zero has the sign of the dividend. -/
theorem tmod_mul_self_nonneg (a b : Int) : 0 ≤ a.tmod b * a := by
  rcases Int.le_total 0 a with ha | ha
  · exact Int.mul_nonneg (Int.tmod_nonneg b ha) ha
  · have hr : 0 ≤ (-a).tmod b := Int.tmod_nonneg b (by omega)
    rw [Int.neg_tmod] at hr
    exact Int.mul_nonneg_of_nonpos_of_nonpos (by omega) ha

theorem natAbs_tmod_lt (a : Int) {b : Int} (hb : b ≠ 0) : (a.tmod b).natAbs < b.natAbs := by
  rw [Int.natAbs_tmod]
  exact Nat.mod_lt _ (Int.natAbs_pos.2 hb)

/-- The one quotient of two signed words that no signed word holds wraps (R295). -/
theorem divS_min_neg_one : divS (BitVec.ofNat 64 (2 ^ 63)) (BitVec.allOnes 64) = BitVec.ofNat 64 (2 ^ 63) := by decide

theorem remS_min_neg_one : remS (BitVec.ofNat 64 (2 ^ 63)) (BitVec.allOnes 64) = 0#64 := by decide

/-- Settles O7: each row is its function of rs1 and rs2, whose cases are the divisor zero, the quotient 2^63 that wraps,
and the division rounded toward zero. -/
theorem divisionDoesNotTrap : Obligations.DivisionDoesNotTrap := by
  intro s t rd rs1 rs2 a b gives
  refine ⟨fun hb => ?zero, fun ha hb => ?wraps, fun hb _ => ?signed, fun hb => ?unsigned⟩
  case zero => exact ⟨exec_div (if_pos hb), exec_divu (if_pos hb), exec_rem (if_pos hb), exec_remu (if_pos hb)⟩
  case wraps =>
    exact ⟨exec_div ((congrArg₂ divS ha hb).trans divS_min_neg_one),
      exec_rem ((congrArg₂ remS ha hb).trans remS_min_neg_one)⟩
  case signed =>
    have hb0 : b.toInt ≠ 0 := fun h => hb (BitVec.eq_of_toInt_eq h)
    exact ⟨a.toInt.tdiv b.toInt, a.toInt.tmod b.toInt, (Int.tdiv_mul_add_tmod _ _).symm, natAbs_tmod_lt _ hb0,
      tmod_mul_self_nonneg _ _, exec_div (if_neg hb), exec_rem (if_neg hb)⟩
  case unsigned => exact ⟨exec_divu (if_neg hb), exec_remu (if_neg hb)⟩

/-! ## Bit fields (R296) -/

/-- FEXT and FINS are legal with any operands (R291). -/
theorem legal_encF (rd rs1 : BitVec 5) (pos wm1 : BitVec 6) (ins : Bool) :
    legalWord (encF rd rs1 pos wm1 ins) = true := by
  have hrd := rd.isLt
  have hrs := rs1.isLt
  have hp := pos.isLt
  have hw := wm1.isLt
  have hi := ins.toNat_le
  have hop : bitsOf (encF rd rs1 pos wm1 ins) 31 26 = 0x0A := by
    simp only [bitsOf, encF]
    omega
  have hz : bitsOf (encF rd rs1 pos wm1 ins) 3 1 = 0 := by
    simp only [bitsOf, encF]
    omega
  simp [legalWord, hop, hz]

theorem getLsbD_fieldMask (pos w : Nat) {i : Nat} (hi : i < 64) :
    (fieldMask pos w).getLsbD i = decide (pos ≤ i ∧ i < pos + w) := by
  rw [fieldMask, BitVec.getLsbD_ofNat, Nat.testBit_mul_two_pow, Nat.testBit_two_pow_sub_one]
  by_cases hp : pos ≤ i
  · simp [hi, hp]
    omega
  · simp [hp]

/-- Shifted down and masked from bit 0 up, a word shows its field. -/
theorem getLsbD_extract (a : W64) (p w : Nat) {i : Nat} (hi : i < 64) :
    ((a >>> p) &&& fieldMask 0 w).getLsbD i = (decide (i < w) && a.getLsbD (p + i)) := by
  rw [BitVec.getLsbD_and, BitVec.getLsbD_ushiftRight, getLsbD_fieldMask 0 w hi, Bool.and_comm]
  simp

/-- A word shifted up shows inside the mask, and the other word outside it. -/
theorem getLsbD_insert (a d : W64) (p w : Nat) {i : Nat} (hi : i < 64) :
    ((d &&& ~~~fieldMask p w) ||| ((a <<< p) &&& fieldMask p w)).getLsbD i =
      if p ≤ i ∧ i < p + w then a.getLsbD (i - p) else d.getLsbD i := by
  rw [BitVec.getLsbD_or, BitVec.getLsbD_and, BitVec.getLsbD_and, BitVec.getLsbD_not, BitVec.getLsbD_shiftLeft,
    getLsbD_fieldMask p w hi]
  by_cases hin : p ≤ i ∧ i < p + w
  · simp [hi, hin]
  · simp [hi, hin]

/-- Settles O9: the result is the field masked out of rs1, or masked into rd, and is read bit by bit. -/
theorem fieldExtractAndInsert : Obligations.FieldExtractAndInsert := by
  intro s t rd rs1 pos wm1 a d p w
  constructor
  case left =>
    exact fun h => ⟨_, compute_issues _ _ _ _ _ _ h (legal_encF rd rs1 pos wm1 false), fun _ => getLsbD_extract a p w⟩
  case right =>
    exact fun h => ⟨_, compute_issues _ _ _ _ _ _ h (legal_encF rd rs1 pos wm1 true), fun _ => getLsbD_insert a d p w⟩

/-! ## Transfers (R298) -/

/-- A word whose OP is that of a transfer is legal (R291). -/
theorem legal_transfer {w : Nat} (h : 0x20 ≤ bitsOf w 31 26 ∧ bitsOf w 31 26 ≤ 0x23) : legalWord w = true := by
  generalize hop : bitsOf w 31 26 = op at h
  have hc : op = 0x20 ∨ op = 0x21 ∨ op = 0x22 ∨ op = 0x23 := by omega
  rcases hc with rfl | rfl | rfl | rfl <;> simp [legalWord, hop]

theorem legal_encB (ps : BitVec 3) (neg : Bool) (off : BitVec 22) : legalWord (encB ps neg off) = true := by
  have hp := ps.isLt
  have hn := neg.toNat_le
  have ho := off.isLt
  apply legal_transfer
  simp only [bitsOf, encB]
  omega

/-- BDEC and JAL are legal with any operands. -/
theorem legal_encU {op : Nat} (rd : BitVec 5) (off : BitVec 21) (h : 0x20 ≤ op ∧ op ≤ 0x23) :
    legalWord (encU op rd off) = true := by
  have hr := rd.isLt
  have ho := off.isLt
  apply legal_transfer
  simp only [bitsOf, encU]
  omega

@[simp] theorem Core.pc_w (c : Core) (i : BitVec 5) (v : W64) : (c.w i v).pc = c.pc := by
  unfold Core.w
  split <;> rfl

/-- A transfer to an aligned target inside IMEM completes there. -/
theorem transferTo_inside (s : State) (c : Core) {x : W64} {n : Nat} (hx : x.toNat = n) (h4 : n % 4 = 0)
    (hn : n < 0x10000) : transferTo s c x = .done s { c with pc := n } := by
  subst hx
  exact if_neg (by omega)

/-- A target counted from the transfer itself, inside IMEM and aligned, is reached. -/
theorem transferTo_rel (s : State) (c c' : Core) {off : Int}
    (h : 0 ≤ c.pc + 4 * off ∧ c.pc + 4 * off < 0x10000 ∧ (c.pc + 4 * off) % 4 = 0) :
    transferTo s c' (c.rel off) = .done s { c' with pc := (c.pc + 4 * off).toNat } := by
  obtain ⟨h0, hlt, h4⟩ := h
  refine transferTo_inside s c' ?_ (by omega) (by omega)
  rw [Core.rel, BitVec.toNat_ofInt]
  omega

/-- Settles O15: each transfer is its effect on the fetched state; a BDEC with rd = s0 falls through, since the new s0 reads
zero (the model's choice, log entry 73). -/
theorem transfersReachTheirTarget : Obligations.TransfersReachTheirTarget := by
  intro s t rd rs1 imm ps neg off22 off21 c good goes next b u j
  refine ⟨fun hb hp h => ?br, fun hp h => ?brFalls, fun hu hrd h1 h => ?bdec, fun hz h => ?bdecFalls, fun hu h => ?jal,
    fun hj h => ?jalr⟩
  case br =>
    exact issue_done h (legal_encB ps neg off22) ((if_pos hp).trans (transferTo_rel _ c c hb))
  case brFalls =>
    exact issue_done h (legal_encB ps neg off22) (if_neg (by simp [c, hp]))
  case bdec =>
    have hv : c.r rd - 1#64 ≠ 0#64 := sub_ne_zero.2 h1
    exact issue_done h (legal_encU rd off21 (by decide)) ((if_pos (by rwa [if_neg hrd])).trans (transferTo_rel _ c _ hu))
  case bdecFalls =>
    have hv : (if rd = 0#5 then 0#64 else c.r rd - 1#64) = 0#64 := by
      rcases hz with rfl | h1
      · exact if_pos rfl
      · rw [h1]; exact ite_self _
    refine issue_done h (legal_encU rd off21 (by decide)) ((if_neg (not_not.2 hv)).trans ?_)
    rw [Core.next, Core.pc_w]
  case jal =>
    exact issue_done h (legal_encU rd off21 (by decide)) (transferTo_rel _ c _ hu)
  case jalr =>
    obtain ⟨-, hlt, h4⟩ := hj
    exact issue_done h (legal_encI 0x23 rd rs1 imm (by simp)) (transferTo_inside _ _ rfl (by omega) (by omega))

end Sys2Proof.Machine

/-! PROOFS. The error record queue: numbering, queueing, loss, latching and consumption (R417 - R419, R423). -/

namespace Sys2Proof

theorem setFld_whole (w : W64) (v : Nat) : setFld w 63 0 v = BitVec.ofNat 64 v := by
  have hw := w.isLt
  refine BitVec.eq_of_toNat_eq ?_
  rw [setFld_toNat w 63 0 v (by decide) (by decide), BitVec.toNat_ofNat]
  omega

theorem fld_whole (w : W64) : fld w 63 0 = w.toNat := by
  have hw := w.isLt
  unfold fld bitsOf
  omega

end Sys2Proof

namespace Sys2Proof.Machine

/-! ## Registers a record leaves alone -/

/-- A field reads alike where its register does. -/
theorem State.f_of_reg {s t : State} {q : FRef} (h : t.reg q.off = s.reg q.off) : t.f q = s.f q := by
  rw [State.f, State.f, h]

theorem State.reg_setFlag_at (s : State) (q : FRef) (x : Bool) {b : Nat} (h : b ≠ q.off) :
    (s.setFlag q x).reg b = s.reg b := State.reg_setF_at _ _ _ _ h

theorem State.reg_bump_at (s : State) (q : FRef) (n : Nat) {b : Nat} (h : b ≠ q.off) :
    (s.bump q n).reg b = s.reg b := State.reg_setF_at _ _ _ _ h

/-- A counter of all 64 bits raised by n. -/
theorem State.reg_bump_whole (s : State) (a n : Nat) :
    (s.bump ⟨a, 63, 0⟩ n).reg a = s.reg a + BitVec.ofNat 64 n := by
  rw [State.bump, State.setF, State.reg_setReg_self, setFld_whole, State.f, fld_whole, BitVec.ofNat_add, BitVec.ofNat_toNat,
    BitVec.setWidth_eq]

theorem State.reg_storeWords_outside (ws : List W64) : ∀ (s : State) {a b : Nat}, b < a ∨ a + 8 * ws.length ≤ b →
    (s.storeWords a ws).reg b = s.reg b := by
  induction ws with
  | nil => intros; rfl
  | cons w ws ih =>
    intro s a b h
    rw [List.length_cons] at h
    rw [State.storeWords, ih _ (by omega), State.reg_setReg, if_neg (by omega)]

theorem State.reg_storeWords_word (ws : List W64) : ∀ (s : State) (a : Nat) {k : Nat}, k < ws.length →
    (s.storeWords a ws).reg (a + 8 * k) = ws.getD k 0#64 := by
  induction ws with
  | nil => intro _ _ k h; cases h
  | cons w ws ih =>
    intro s a k h
    cases k with
    | zero =>
      rw [State.storeWords, State.reg_storeWords_outside _ _ (by omega)]
      exact State.reg_setReg_self s a w
    | succ k =>
      have hk := ih (s.setReg a w) (a + 8) (Nat.lt_of_succ_lt_succ h)
      rwa [show a + 8 + 8 * k = a + 8 * (k + 1) by omega] at hk

@[simp] theorem State.erqSeq_storeWords (ws : List W64) : ∀ (s : State) (a : Nat), (s.storeWords a ws).erqSeq = s.erqSeq := by
  induction ws with
  | nil => intros; rfl
  | cons w ws ih => exact fun s a => ih (s.setReg a w) (a + 8)

/-! ## The alert and the latch (R423, R758) -/

theorem State.reg_alertFor (s : State) (sev : Nat) {b : Nat} (h : b ≠ ZEN_ALERT.at) : (s.alertFor sev).reg b = s.reg b := by
  unfold State.alertFor
  split
  · exact State.reg_setFlag_at _ _ _ h
  · split
    · exact State.reg_setFlag_at _ _ _ h
    · rfl

@[simp] theorem State.erqSeq_alertFor (s : State) (sev : Nat) : (s.alertFor sev).erqSeq = s.erqSeq := by
  simp only [State.alertFor, apply_ite State.erqSeq, State.erqSeq_setFlag, ite_self]

@[simp] theorem State.erqSeq_erqLatch (s : State) (r : ErqRec) (ws : List W64) : (s.erqLatch r ws).erqSeq = s.erqSeq := by
  simp only [State.erqLatch, apply_ite State.erqSeq, State.erqSeq_setFlag, State.erqSeq_storeWords, ite_self]

section
variable {r : ErqRec} {ws : List W64} (hws : ws.length = 4) (s : State)
include hws

theorem State.reg_erqLatch_outside {b : Nat} (h : b < ERQ_FATAL_V.at ∨ ERQ_FATAL.at 4 ≤ b) :
    (s.erqLatch r ws).reg b = s.reg b := by
  unfold ERQ_FATAL_V.at ERQ_FATAL.at at h
  unfold State.erqLatch
  split
  · rw [State.reg_setFlag_at _ _ _ (by simp only [ERQ_FATAL_V.FVALID, ERQ_FATAL_V.at]; omega),
      State.reg_storeWords_outside _ _ (by unfold ERQ_FATAL.at; omega)]
  · rfl

theorem State.reg_erqLatch_fatal {k : Nat} (hk : k < 4) :
    (s.erqLatch r ws).reg (ERQ_FATAL.at k) =
      if r.sev = 3 ∧ s.flag ERQ_FATAL_V.FVALID = false then ws.getD k 0#64 else s.reg (ERQ_FATAL.at k) := by
  unfold State.erqLatch
  split
  · rw [State.reg_setFlag_at _ _ _ (by simp only [ERQ_FATAL.at, ERQ_FATAL_V.FVALID, ERQ_FATAL_V.at]; omega)]
    exact State.reg_storeWords_word ws s (ERQ_FATAL.at 0) (hws ▸ hk)
  · rfl

end

/-- The alert raised by a record and the record latched, from which its queueing or its loss starts. -/
def State.erqEntered (s : State) (r : ErqRec) (ws : List W64) : State := (s.alertFor r.sev).erqLatch r ws

@[simp] theorem State.erqSeq_erqEntered (s : State) (r : ErqRec) (ws : List W64) : (s.erqEntered r ws).erqSeq = s.erqSeq := by
  rw [State.erqEntered, State.erqSeq_erqLatch, State.erqSeq_alertFor]

section
variable {r : ErqRec} {ws : List W64} (hws : ws.length = 4) (s : State)
include hws

theorem State.reg_erqEntered_outside {b : Nat} (h : b < ERQ_FATAL_V.at ∨ ERQ_FATAL.at 4 ≤ b) (ha : b ≠ ZEN_ALERT.at) :
    (s.erqEntered r ws).reg b = s.reg b :=
  (State.reg_erqLatch_outside hws _ h).trans (State.reg_alertFor s _ ha)

theorem State.reg_erqEntered_slot {i k : Nat} (hi : i < 64) (hk : k < 4) :
    (s.erqEntered r ws).reg (ERQ_REC.at i k) = s.reg (ERQ_REC.at i k) := by
  refine State.reg_erqEntered_outside hws s ?_ ?_ <;> simp only [ERQ_REC.at, ERQ_FATAL.at, ZEN_ALERT.at] <;> omega

theorem State.reg_erqEntered_fatal {k : Nat} (hk : k < 4) :
    (s.erqEntered r ws).reg (ERQ_FATAL.at k) =
      if r.sev = 3 ∧ s.flag ERQ_FATAL_V.FVALID = false then ws.getD k 0#64 else s.reg (ERQ_FATAL.at k) := by
  have hv : (s.alertFor r.sev).flag ERQ_FATAL_V.FVALID = s.flag ERQ_FATAL_V.FVALID :=
    congrArg (· == 1) (State.f_of_reg (State.reg_alertFor s _ (by decide)))
  rw [State.erqEntered, State.reg_erqLatch_fatal hws _ hk, hv,
    State.reg_alertFor s _ (by unfold ERQ_FATAL.at ZEN_ALERT.at; omega)]

theorem State.f_erqEntered_prod : (s.erqEntered r ws).f ERQ_PROD.PROD = s.f ERQ_PROD.PROD :=
  State.f_of_reg (State.reg_erqEntered_outside hws s (by decide) (by decide))

theorem State.f_erqEntered_cons : (s.erqEntered r ws).f ERQ_CONS.CONS = s.f ERQ_CONS.CONS :=
  State.f_of_reg (State.reg_erqEntered_outside hws s (by decide) (by decide))

theorem State.erqCount_erqEntered : (s.erqEntered r ws).erqCount = s.erqCount := by
  simp only [State.erqCount, State.erqProd, State.erqCons, State.f_erqEntered_prod hws, State.f_erqEntered_cons hws]

end

/-! ## A record lost, and a record queued -/

theorem State.reg_erqLose (s : State) {b : Nat} (h : b ≠ ERQ_LOST.at) (ha : b ≠ ZEN_ALERT.at) : s.erqLose.reg b = s.reg b :=
  (State.reg_setFlag_at _ _ _ ha).trans (State.reg_bump_at _ _ _ h)

theorem State.reg_erqLose_lost (s : State) : s.erqLose.reg ERQ_LOST.at = s.reg ERQ_LOST.at + 1#64 :=
  (State.reg_setFlag_at _ _ _ (by decide)).trans (State.reg_bump_whole s ERQ_LOST.at 1)

@[simp] theorem State.erqSeq_erqLose (s : State) : s.erqLose.erqSeq = s.erqSeq := rfl

/-- The words of a record put into slot PROD mod 64, PROD raised, and the message of the new PROD raised (R417). -/
def State.erqPut (s : State) (ws : List W64) : State :=
  let s' := (s.storeWords (ERQ_REC.at (s.erqProd % 64) 0) ws).setF ERQ_PROD.PROD (s.erqProd + 1)
  s'.post 1 none (BitVec.ofNat 64 s'.erqProd) 0

@[simp] theorem State.erqSeq_erqPut (s : State) (ws : List W64) : (s.erqPut ws).erqSeq = s.erqSeq :=
  State.erqSeq_storeWords ws s _

theorem State.f_erqPut_prod (s : State) (ws : List W64) :
    (s.erqPut ws).f ERQ_PROD.PROD = (s.f ERQ_PROD.PROD + 1) % 2 ^ 32 :=
  State.f_setF_self _ ERQ_PROD.PROD _ (by decide) (by decide)

section
variable {ws : List W64} (hws : ws.length = 4) (s : State)
include hws

theorem State.reg_erqPut_outside {b : Nat} (h : b < ERQ_REC.at 0 0 ∨ ERQ_REC.at 64 0 ≤ b) (hp : b ≠ ERQ_PROD.at) :
    (s.erqPut ws).reg b = s.reg b := by
  unfold ERQ_REC.at at h
  exact (State.reg_setF_at _ ERQ_PROD.PROD _ _ hp).trans
    (State.reg_storeWords_outside _ _ (by unfold ERQ_REC.at; omega))

theorem State.reg_erqPut_slot {i k : Nat} (hi : i < 64) (hk : k < 4) :
    (s.erqPut ws).reg (ERQ_REC.at i k) =
      if i = s.f ERQ_PROD.PROD % 64 then ws.getD k 0#64 else s.reg (ERQ_REC.at i k) := by
  have hp : ERQ_REC.at i k ≠ ERQ_PROD.PROD.off := by simp only [ERQ_REC.at, ERQ_PROD.PROD, ERQ_PROD.at]; omega
  refine (State.reg_setF_at _ _ _ _ hp).trans ?_
  split
  · next h => exact h ▸ State.reg_storeWords_word ws s (ERQ_REC.at i 0) (hws ▸ hk)
  · next h => exact State.reg_storeWords_outside _ _ (by unfold State.erqProd ERQ_REC.at; omega)

end

/-! ## A record enters the queue (R417, R423) -/

section
variable {s : State} {r : ErqRec} {joined : Bool}

/-- Neither hold-back of records, the ZEN domain's loss (R688) nor a ZEN restart (R718), stands. -/
theorem State.erq_running (hz : s.zenLost = false) (hr : s.zenRestart = false) :
    s.erq r joined = State.erqQueue { s with erqSeq := s.erqSeq + 1#32 } s.erqSeq r joined := by
  simp only [State.erq, hz, hr, Bool.false_eq_true, if_false]

variable {seq : W32}

theorem State.erqQueue_full (h : s.erqCount = 64) :
    s.erqQueue seq r joined = (s.erqEntered r (erqWords s seq r joined)).erqLose :=
  if_pos ((State.erqCount_erqEntered rfl s).trans h)

theorem State.erqQueue_room (h : s.erqCount ≠ 64) :
    s.erqQueue seq r joined = (s.erqEntered r (erqWords s seq r joined)).erqPut (erqWords s seq r joined) :=
  if_neg fun hc => h ((State.erqCount_erqEntered rfl s).symm.trans hc)

@[simp] theorem State.erqSeq_erqQueue : (s.erqQueue seq r joined).erqSeq = s.erqSeq := by
  by_cases h : s.erqCount = 64
  · rw [State.erqQueue_full h, State.erqSeq_erqLose, State.erqSeq_erqEntered]
  · rw [State.erqQueue_room h, State.erqSeq_erqPut, State.erqSeq_erqEntered]

theorem State.f_erqQueue_cons : (s.erqQueue seq r joined).f ERQ_CONS.CONS = s.f ERQ_CONS.CONS := by
  refine Eq.trans ?_ (State.f_erqEntered_cons (r := r) (ws := erqWords s seq r joined) rfl s)
  by_cases h : s.erqCount = 64
  · rw [State.erqQueue_full h]
    exact State.f_of_reg (State.reg_erqLose _ (by decide) (by decide))
  · rw [State.erqQueue_room h]
    exact State.f_of_reg (State.reg_erqPut_outside rfl _ (by decide) (by decide))

theorem State.reg_erqQueue_fatal {k : Nat} (hk : k < 4) :
    (s.erqQueue seq r joined).reg (ERQ_FATAL.at k) =
      if r.sev = 3 ∧ s.flag ERQ_FATAL_V.FVALID = false then (erqWords s seq r joined).getD k 0#64
      else s.reg (ERQ_FATAL.at k) := by
  refine Eq.trans ?_ (State.reg_erqEntered_fatal rfl s hk)
  have hat : ERQ_FATAL.at k < ERQ_REC.at 0 0 := by unfold ERQ_FATAL.at ERQ_REC.at; omega
  by_cases h : s.erqCount = 64
  · rw [State.erqQueue_full h]
    exact State.reg_erqLose _ (by unfold ERQ_FATAL.at ERQ_LOST.at; omega) (by unfold ERQ_FATAL.at ZEN_ALERT.at; omega)
  · rw [State.erqQueue_room h]
    exact State.reg_erqPut_outside rfl _ (.inl hat) (by unfold ERQ_FATAL.at ERQ_PROD.at; omega)

theorem State.erqQueue_queues (h : s.erqCount ≠ 64) :
    let t := s.erqQueue seq r joined
    t.f ERQ_PROD.PROD = (s.f ERQ_PROD.PROD + 1) % 2 ^ 32 ∧ t.reg ERQ_LOST.at = s.reg ERQ_LOST.at ∧
    ∀ i k, i < 64 → k < 4 → t.reg (ERQ_REC.at i k) =
      if i = s.f ERQ_PROD.PROD % 64 then (erqWords s seq r joined).getD k 0#64 else s.reg (ERQ_REC.at i k) := by
  intro t
  rw [show t = _ from State.erqQueue_room h]
  refine ⟨?_, ?_, fun i k hi hk => ?_⟩
  · rw [State.f_erqPut_prod, State.f_erqEntered_prod rfl]
  · rw [State.reg_erqPut_outside rfl _ (by decide) (by decide), State.reg_erqEntered_outside rfl _ (by decide) (by decide)]
  · rw [State.reg_erqPut_slot rfl _ hi hk, State.f_erqEntered_prod rfl, State.reg_erqEntered_slot rfl _ hi hk]

theorem State.erqQueue_loses (h : s.erqCount = 64) :
    let t := s.erqQueue seq r joined
    t.f ERQ_PROD.PROD = s.f ERQ_PROD.PROD ∧ t.reg ERQ_LOST.at = s.reg ERQ_LOST.at + 1#64 ∧
    ∀ i k, i < 64 → k < 4 → t.reg (ERQ_REC.at i k) = s.reg (ERQ_REC.at i k) := by
  intro t
  rw [show t = _ from State.erqQueue_full h]
  refine ⟨?_, ?_, fun i k hi hk => ?_⟩
  · rw [State.f_of_reg (State.reg_erqLose _ (by decide) (by decide)), State.f_erqEntered_prod rfl]
  · rw [State.reg_erqLose_lost, State.reg_erqEntered_outside rfl _ (by decide) (by decide)]
  · rw [State.reg_erqLose _ (by unfold ERQ_REC.at ERQ_LOST.at; omega) (by unfold ERQ_REC.at ZEN_ALERT.at; omega),
      State.reg_erqEntered_slot rfl _ hi hk]

end

/-! ## Consumption (R418) -/

theorem execErqConsume_accepted {s : State} {by_ : Agent} {v : W32} (ha : s.accepts by_ ERQ_CONS.at = true)
    (hl : by_ = .mc → s.dylUp = false) : execErqConsume by_ v s = .next (s.erqConsume v) := by
  have hmay : by_ ≠ .mc ∨ (!s.dylUp) = true := by
    by_cases hm : by_ = .mc
    · exact .inr (by simp [hl hm])
    · exact .inl hm
  rw [execErqConsume, if_pos ⟨ha, hmay⟩]

/-! ## The obligation -/

/-- Settles O38: a record only takes its SEQ before it enters the queue, where both ways out start from the same alert and
latch, which touch neither the queue nor its counts. -/
theorem errorRecordQueue : Obligations.ErrorRecordQueue := by
  refine ⟨fun s r joined hz hr => ?_, fun s by_ v ha hl => execErqConsume_accepted ha hl⟩
  rw [State.erq_running hz hr]
  let u : State := { s with erqSeq := s.erqSeq + 1#32 }
  exact ⟨State.erqSeq_erqQueue, State.f_erqQueue_cons, State.erqQueue_queues (s := u), State.erqQueue_loses (s := u),
    fun k => State.reg_erqQueue_fatal⟩

end Sys2Proof.Machine

/-! PROOFS. The block, the core's registers, and the results of the instructions that only compute (R282, R290 - R297). -/

namespace Sys2Proof.Machine

/-! ## The block -/

/-- Settles O1: step looks at nothing but the front of the queue. -/
theorem stepRunsFrontCommand : Obligations.StepRunsFrontCommand := by
  intro s c rest
  constructor
  case left =>
    intro h
    rw [step, h]
  case right =>
    intro h
    rw [step, h]

/-- No job is resident after a reset: STATE of every job shows its reset value. -/
theorem jobState_reset {j : Nat} (h : j < 64) : State.reset.jobState j = jNONE := by
  have key : ∀ j < 64, State.reset.jobState j = jNONE := by decide +kernel
  exact key j h

/-- Settles O4: the reset state is canonical because every memory of it is the empty map. That it reads zero, and what the
board drives, are the model's choice (log entries 8 and 10). -/
theorem resetIsSafe : Obligations.ResetIsSafe :=
  ⟨by decide, rfl, fun _ => jobState_reset, fun _ => ⟨rfl, rfl⟩⟩

/-! ## Registers and predicates (R282) -/

theorem Core.r_w (c : Core) (i k : BitVec 5) (v : W64) : (c.w i v).r k = if k = i ∧ i ≠ 0#5 then v else c.r k := by
  unfold Core.w Core.r
  by_cases hi : i = 0#5
  · simp [hi]
  · rw [if_neg hi, SMap.get_put]
    simp [hi, BitVec.toNat_inj]

theorem Core.p_setP (c : Core) (i k : BitVec 3) (b : Bool) :
    (c.setP i b).p k = if k = i ∧ i ≠ 0#3 then b else c.p k := by
  unfold Core.setP Core.p
  by_cases hi : i = 0#3
  · simp [hi]
  · have hk := k.isLt
    have hlt := i.isLt
    have hki : k = i ↔ k.toNat = i.toNat := BitVec.toNat_inj.symm
    have hmask : (255 - 2 ^ i.toNat).testBit k.toNat = !decide (k.toNat = i.toNat) := by
      have hp : 2 ^ i.toNat < 2 ^ 8 := Nat.pow_lt_pow_right (by decide) (by omega)
      rw [show 255 - 2 ^ i.toNat = 2 ^ 8 - (2 ^ i.toNat + 1) by omega, Nat.testBit_two_pow_sub_succ hp,
        Nat.testBit_two_pow]
      simp [show k.toNat < 8 by omega, eq_comm]
    rw [if_neg hi]
    simp only [BitVec.toNat_ofNat, Nat.testBit_mod_two_pow, show k.toNat < 8 by omega, decide_true, Bool.true_and]
    cases b
    · simp only [Bool.false_eq_true, if_false, Nat.testBit_and, hmask, hki]
      by_cases h : k.toNat = i.toNat <;> simp [h, hi]
    · simp only [if_true, Nat.testBit_or, Nat.testBit_two_pow, hki]
      by_cases h : k.toNat = i.toNat
      · simp [h, hi]
      · simp [h, Ne.symm h]

/-- Settles O5. -/
theorem coreRegistersHold : Obligations.CoreRegistersHold :=
  ⟨Core.r_w, fun _ _ => if_pos rfl, Core.p_setP, fun _ _ => if_pos rfl⟩

/-! ## Counts (R293) -/

theorem leadZeros_spec (a : W64) : leadZeros a ≤ 64 ∧ (∀ i, i < leadZeros a → a.getMsbD i = false) ∧
    (leadZeros a < 64 → a.getMsbD (leadZeros a) = true) := by
  unfold leadZeros
  by_cases h : a = 0#64
  · simp [h]
  · have hn : a.toNat ≠ 0 := fun h0 => h (BitVec.eq_of_toNat_eq (by simpa using h0))
    have hl : a.toNat.log2 < 64 := (Nat.log2_lt hn).2 a.isLt
    rw [if_neg h]
    refine ⟨by omega, fun i hi => ?_, fun _ => ?_⟩
    · rw [BitVec.getMsbD, BitVec.getLsbD,
        Nat.testBit_lt_two_pow (lt_of_lt_of_le Nat.lt_log2_self (Nat.pow_le_pow_right (by decide) (by omega))),
        Bool.and_false]
    · rw [BitVec.getMsbD, BitVec.getLsbD, show 64 - 1 - (63 - a.toNat.log2) = a.toNat.log2 by omega, Nat.testBit_log2 hn]
      simp
      omega

theorem trailZeros_spec (a : W64) : trailZeros a ≤ 64 ∧ (∀ i, i < trailZeros a → a.getLsbD i = false) ∧
    (trailZeros a < 64 → a.getLsbD (trailZeros a) = true) := by
  unfold trailZeros
  cases hf : (List.range 64).find? (fun i => a.toNat.testBit i) with
  | none =>
    have hall : ∀ i, i < 64 → a.toNat.testBit i = false := by simpa using hf
    exact ⟨le_refl _, hall, fun h => absurd h (by simp)⟩
  | some k =>
    obtain ⟨hk, hlt, hbelow⟩ := List.find?_range_eq_some.1 hf
    rw [List.mem_range] at hlt
    exact ⟨le_of_lt hlt, fun i hi => show a.toNat.testBit i = false by simpa using hbelow i hi, fun _ => hk⟩

theorem popCount_eq (a : W64) : popCount a = (List.range 64).countP (fun i => a.getLsbD i) := by
  rw [List.countP_eq_length_filter]
  rfl

theorem popCount_le (a : W64) : popCount a ≤ 64 := by
  rw [popCount_eq]
  exact le_of_le_of_eq List.countP_le_length List.length_range

/-! ## Values that the model writes in another form -/

theorem ofNat_toNat_mul (a b : W64) : a * b = BitVec.ofNat 64 (a.toNat * b.toNat) := by
  apply BitVec.eq_of_toNat_eq
  simp

theorem rotr_eq (a : W64) {n : Nat} (hn : n < 64) : rotr a n = a.rotateRight n := by
  rw [rotr, BitVec.rotateRight, Nat.mod_eq_of_lt hn]
  rfl

theorem shift_add_eq (a : W64) (n : Nat) : a <<< n = BitVec.ofNat 64 (a.toNat * 2 ^ n) := by
  apply BitVec.eq_of_toNat_eq
  simp [Nat.shiftLeft_eq]

end Sys2Proof.Machine

namespace Sys2Proof.Machine

/-! ## ALU (R293) -/

/-- A listed function of ALU, a shift-and-add among them, writes its value to rd. -/
theorem alu_wrote {t fn : Nat} {rd rs1 rs2 : BitVec 5} {f : W64 → W64 → W64} {s : State} {v : W64}
    (hfn : fn ≤ 0x14 ∨ (0x40 ≤ fn ∧ fn ≤ 0x7F)) (hv : f ((s.core t).r rs1) ((s.core t).r rs2) = v)
    (h : s.issues t (encR 0x01 rd rs1 rs2 fn) [rd, rs1, rs2] = true) :
    alu t fn rd rs1 rs2 f s = .next (s.wrote t rd v) := by
  rw [alu, compute_issues _ _ _ _ _ _ h (legal_alu rd rs1 rs2 fn hfn), hv]

/-- MIN and MAX choose alike whichever operand a tie gives. -/
theorem ite_lt_eq_ite_le {α : Type} (x y : Int) (a b : α) (h : x = y → a = b) :
    (if x < y then a else b) = if x ≤ y then a else b := by
  rcases lt_trichotomy x y with hlt | heq | hgt
  · rw [if_pos hlt, if_pos hlt.le]
  · rw [h heq, ite_self, ite_self]
  · rw [if_neg (by omega), if_neg (by omega)]

/-- A count of bits of rs1 is written to rd (R293). -/
theorem count_wrote {s : State} {t fn : Nat} {rd rs1 : BitVec 5} {k : W64 → Nat} {good : Nat → Prop}
    (hfn : 0x15 ≤ fn ∧ fn ≤ 0x17) (hk : k ((s.core t).r rs1) ≤ 64) (hg : good (k ((s.core t).r rs1)))
    (h : s.issues t (encR 0x01 rd rs1 0#5 fn) [rd, rs1] = true) :
    ∃ n, n ≤ 64 ∧ good n ∧
      alu t fn rd rs1 0#5 (fun a _ => BitVec.ofNat 64 (k a)) s = .next (s.wrote t rd (BitVec.ofNat 64 n)) := by
  refine ⟨_, hk, hg, ?_⟩
  have ho : s.issues t (encR 0x01 rd rs1 0#5 fn) [rd, rs1, 0#5] = true := by
    simpa [State.issues, Core.owed] using h
  rw [alu, compute_issues _ _ _ _ _ _ ho (legal_count rd rs1 fn hfn)]

/-- Settles O6: each row is its function of rs1 and rs2. -/
theorem aluWritesResult : Obligations.AluWritesResult := by
  constructor
  case left =>
    intro s t rd rs1 rs2 a b n gives
    have low (f : W64 → W64 → W64) {fn : Nat} {i : Instr} {v : W64} (hi : exec i s = alu t fn rd rs1 rs2 f s)
        (hfn : fn ≤ 0x14) (hv : f a b = v) : gives i fn v := fun h => hi.trans (alu_wrote (.inl hfn) hv h)
    refine ⟨low (· + ·) rfl (by decide) rfl, low (· - ·) rfl (by decide) rfl, low (· &&& ·) rfl (by decide) rfl,
      low (· ||| ·) rfl (by decide) rfl, low (· ^^^ ·) rfl (by decide) rfl, low (fun a b => a &&& ~~~b) rfl (by decide) rfl,
      low (fun a b => a <<< sh6 b) rfl (by decide) rfl, low (fun a b => a >>> sh6 b) rfl (by decide) rfl,
      low (fun a b => a.sshiftRight (sh6 b)) rfl (by decide) rfl,
      low (fun a b => rotr a (sh6 b)) rfl (by decide) (rotr_eq a (Nat.mod_lt _ (by decide))),
      low (· * ·) rfl (by decide) (ofNat_toNat_mul a b), low (fun a b => mulHigh a.toInt b.toInt) rfl (by decide) rfl,
      low (fun a b => mulHigh a.toNat b.toNat) rfl (by decide) ?mulhu,
      low (fun a b => if a.toInt < b.toInt then a else b) rfl (by decide) ?min,
      low (fun a b => if a.toInt < b.toInt then b else a) rfl (by decide) ?max,
      low (fun a b => if a.toNat < b.toNat then a else b) rfl (by decide) ?minu,
      low (fun a b => if a.toNat < b.toNat then b else a) rfl (by decide) ?maxu, fun sh h => ?shadd⟩
    case mulhu =>
      rw [mulHigh, ← BitVec.ofInt_natCast]
      norm_cast
    case min => exact ite_lt_eq_ite_le _ _ _ _ fun h => BitVec.eq_of_toInt_eq h
    case max => exact ite_lt_eq_ite_le _ _ _ _ fun h => (BitVec.eq_of_toInt_eq h).symm
    case minu =>
      have := ite_lt_eq_ite_le (a.toNat : Int) b.toNat a b fun h => BitVec.eq_of_toNat_eq (by omega)
      simpa using this
    case maxu =>
      have := ite_lt_eq_ite_le (a.toNat : Int) b.toNat b a fun h => BitVec.eq_of_toNat_eq (by omega)
      simpa using this
    case shadd =>
      have hsh := sh.isLt
      refine alu_wrote (f := fun a b => a + (b <<< sh.toNat)) (.inr (by omega)) ?_ h
      exact congrArg (a + ·) (shift_add_eq b sh.toNat)
  case right =>
    intro s t rd rs1 a counts
    refine ⟨fun h => count_wrote (k := leadZeros) (by decide) (leadZeros_spec a).1 (leadZeros_spec a).2 h,
      fun h => count_wrote (k := trailZeros) (by decide) (trailZeros_spec a).1 (trailZeros_spec a).2 h,
      fun h => count_wrote (k := popCount) (by decide) (popCount_le a) (popCount_eq a) h⟩

/-! ## Immediates, tests and predicates (R290, R292, R294, R297) -/

/-- An instruction with an immediate writes its function of rs1 to rd. -/
theorem imm_wrote {s : State} {t op : Nat} {rd rs1 : BitVec 5} {imm : BitVec 16} {f : W64 → W64} {v : W64}
    (hl : legalWord (encI op rd rs1 imm) = true) (hv : f ((s.core t).r rs1) = v)
    (h : s.issues t (encI op rd rs1 imm) [rd, rs1] = true) :
    aluImm t op rd rs1 imm f s = .next (s.wrote t rd v) := by
  rw [aluImm, compute_issues _ _ _ _ _ _ h hl, hv]

theorem legal_shi (rd rs1 : BitVec 5) (op : BitVec 2) (sh : BitVec 6) :
    legalWord (encI 0x06 rd rs1 (BitVec.ofNat 16 (op.toNat * 2 ^ 14 + sh.toNat))) = true := by
  have ho := op.isLt
  have hs := sh.isLt
  obtain ⟨h1, h2⟩ := bits_encI 0x06 rd rs1 (BitVec.ofNat 16 (op.toNat * 2 ^ 14 + sh.toNat)) (by decide)
  have hz : bitsOf (encI 0x06 rd rs1 (BitVec.ofNat 16 (op.toNat * 2 ^ 14 + sh.toNat))) 13 6 = 0 := by
    rw [h2, BitVec.toNat_ofNat]
    omega
  simp only [legalWord, h1, hz]
  simp

theorem shiftBy_eq (op : BitVec 2) (a : W64) {n : Nat} (hn : n < 64) :
    shiftBy op a n = if op = 0#2 then a <<< n else if op = 1#2 then a >>> n
      else if op = 2#2 then a.sshiftRight n else a.rotateRight n := by
  rw [← rotr_eq a hn]
  have hop : op = 0#2 ∨ op = 1#2 ∨ op = 2#2 ∨ op = 3#2 := by revert op; decide
  rcases hop with rfl | rfl | rfl | rfl <;> rfl

theorem legal_encR4 (rd rs1 rs2 rs3 : BitVec 5) : legalWord (encR4 0x09 rd rs1 rs2 rs3) = true := by
  have h3 := rs3.isLt
  obtain ⟨h1, -, -, h5, -⟩ := bits_encR 0x09 rd rs1 rs2 (rs3.toNat * 2 ^ 6) (by decide) (by omega)
  have hz : bitsOf (encR 0x09 rd rs1 rs2 (rs3.toNat * 2 ^ 6)) 5 0 = 0 := by rw [h5]; omega
  simp only [legalWord, encR4, h1, hz]
  simp

theorem legal_sel (rd rs1 rs2 : BitVec 5) (p : BitVec 3) :
    legalWord (encR 0x0E rd rs1 rs2 (p.toNat * 2 ^ 8)) = true := by
  have hp := p.isLt
  obtain ⟨h1, -, -, -, -, -, -, h8⟩ := bits_encR 0x0E rd rs1 rs2 (p.toNat * 2 ^ 8) (by decide) (by omega)
  have hz : bitsOf (encR 0x0E rd rs1 rs2 (p.toNat * 2 ^ 8)) 7 0 = 0 := by rw [h8]; omega
  simp only [legalWord, h1, hz]
  simp

theorem legal_cmp (pd cond : BitVec 3) (rs1 rs2 : BitVec 5) (hc : cond.toNat ≤ 5) :
    legalWord (encR 0x0B (pd.zeroExtend 5) rs1 rs2 cond.toNat) = true := by
  have hp := pd.isLt
  obtain ⟨h1, -, -, -, h5, h6, h7, -⟩ := bits_encR 0x0B (pd.zeroExtend 5) rs1 rs2 cond.toNat (by decide) (by omega)
  have hr : (pd.zeroExtend 5).toNat = pd.toNat := by
    rw [BitVec.toNat_setWidth]
    omega
  rw [hr, show pd.toNat / 8 = 0 by omega] at h5
  rw [show cond.toNat / 8 = 0 by omega] at h6
  rw [show cond.toNat % 8 = cond.toNat by omega] at h7
  simp only [legalWord, h1, h5, h6, h7]
  simp [hc]

theorem legal_cmpi (pd cond : BitVec 3) (rs1 : BitVec 5) (imm : BitVec 15) (hc : cond.toNat ≤ 5) :
    legalWord (encP pd cond rs1 imm) = true := by
  have hp := pd.isLt
  have hr := rs1.isLt
  have hi := imm.isLt
  have h1 : bitsOf (encP pd cond rs1 imm) 31 26 = 0x0C := by
    simp only [bitsOf, encP]
    omega
  have h2 : bitsOf (encP pd cond rs1 imm) 22 20 = cond.toNat := by
    simp only [bitsOf, encP]
    omega
  simp only [legalWord, h1, h2]
  simp [hc]

theorem legal_plog (pd ps1 ps2 : BitVec 3) (n1 n2 : Bool) (f : BitVec 2) (hf : f ≠ 3#2) :
    legalWord (encPlog pd ps1 ps2 n1 n2 f) = true := by
  have hp := pd.isLt
  have h1 := ps1.isLt
  have h2 := ps2.isLt
  have hn1 := n1.toNat_le
  have hn2 := n2.toNat_le
  have hlt := f.isLt
  have hf' : f.toNat ≠ 3 := fun h => hf (BitVec.eq_of_toNat_eq h)
  have hop : bitsOf (encPlog pd ps1 ps2 n1 n2 f) 31 26 = 0x0D := by
    simp only [bitsOf, encPlog]
    omega
  have hfn : bitsOf (encPlog pd ps1 ps2 n1 n2 f) 14 13 = f.toNat := by
    simp only [bitsOf, encPlog]
    omega
  have hz : bitsOf (encPlog pd ps1 ps2 n1 n2 f) 12 0 = 0 := by
    simp only [bitsOf, encPlog]
    omega
  simp only [legalWord, hop, hfn, hz]
  simp [hf']

theorem testCond_eq (cond : BitVec 3) (a b : W64) (hc : cond.toNat ≤ 5) :
    testCond cond.toNat a b =
      if cond = 0#3 then a == b else if cond = 1#3 then a != b
      else if cond = 2#3 then a.slt b else if cond = 3#3 then b.sle a
      else if cond = 4#3 then a.ult b else b.ule a := by
  have hcase : cond = 0#3 ∨ cond = 1#3 ∨ cond = 2#3 ∨ cond = 3#3 ∨ cond = 4#3 ∨ cond = 5#3 := by
    revert hc; revert cond; decide
  rcases hcase with rfl | rfl | rfl | rfl | rfl | rfl <;> rfl

/-- A row that sets a predicate leaves it set, with PC at the next instruction. -/
theorem issue_setP {s : State} {t w : Nat} {regs : List (BitVec 5)} {pd : BitVec 3} {f : State → Core → Bool} {v : Bool}
    (hl : legalWord w = true) (hv : f (s.fetched t) (s.core t) = v) (h : s.issues t w regs = true) :
    issue t w regs (fun s c => .done s (c.setP pd (f s c)).next) s =
      .next ((s.fetched t).issued t { (s.core t).setP pd v with pc := (s.core t).pc + 4 }) := by
  refine issue_done h hl ?_
  have hpc : ∀ b, ((s.core t).setP pd b).pc = (s.core t).pc := fun b => by
    unfold Core.setP
    split <;> rfl
  rw [hv, Core.next, hpc]

theorem shift_add_zx16 (a : W64) (imm : BitVec 16) :
    (a <<< 16) + zx16 imm = BitVec.ofNat 64 (a.toNat * 2 ^ 16 + imm.toNat) := by
  refine BitVec.eq_of_toNat_eq ?_
  rw [shift_add_eq]
  simp [zx16]

theorem sx16_shift (imm : BitVec 16) : sx16 imm <<< 16 = BitVec.ofInt 64 (imm.toInt * 2 ^ 16) := by
  rw [BitVec.ofInt_mul, BitVec.shiftLeft_eq_mul_twoPow]
  rfl

/-- Settles O8. -/
theorem immediateResults : Obligations.ImmediateResults := by
  constructor
  case left =>
    intro s t rd rs1 rs2 rs3 imm sh op p a b gives
    have imms (f : W64 → W64) {op : Nat} {imm : BitVec 16} {i : Instr} {v : W64} (hi : exec i s = aluImm t op rd rs1 imm f s)
        (hl : legalWord (encI op rd rs1 imm) = true) (hv : f a = v) : gives i (encI op rd rs1 imm) [rd, rs1] v :=
      fun h => hi.trans (imm_wrote hl hv h)
    have legal {op : Nat} (h : op ∈ [0x02, 0x03, 0x04, 0x05, 0x07, 0x08]) : legalWord (encI op rd rs1 imm) = true :=
      legal_encI op rd rs1 imm (by simp only [List.mem_cons, List.not_mem_nil, or_false] at h ⊢; omega)
    refine ⟨imms (· + sx16 imm) rfl (legal (by decide)) rfl, imms (· &&& zx16 imm) rfl (legal (by decide)) rfl,
      imms (· ||| zx16 imm) rfl (legal (by decide)) rfl, imms (· ^^^ zx16 imm) rfl (legal (by decide)) rfl,
      imms (fun a => shiftBy op a sh.toNat) rfl (legal_shi rd rs1 op sh) (shiftBy_eq op a sh.isLt),
      imms (fun a => (a <<< 16) + zx16 imm) rfl (legal (by decide)) (shift_add_zx16 a imm),
      imms (fun a => a + (sx16 imm <<< 16)) rfl (legal (by decide)) (congrArg (a + ·) (sx16_shift imm)),
      fun h => compute_issues _ _ [rs1, rs2, rs3] rd (fun c => c.r rs1 + c.r rs2 * c.r rs3) _ h (legal_encR4 rd rs1 rs2 rs3),
      fun h => compute_issues _ _ [rs1, rs2] rd (fun c => if c.p p then c.r rs1 else c.r rs2) _ h (legal_sel rd rs1 rs2 p)⟩
  case right =>
    intro s t pd cond ps1 ps2 rs1 rs2 imm n1 n2 f c test sets
    refine ⟨fun hc => ⟨fun h => ?cmp, fun h => ?cmpi⟩, fun hf h => ?plog⟩
    case cmp =>
      have he : exec (.cmp t pd cond rs1 rs2) s = issue t (encR 0x0B (pd.zeroExtend 5) rs1 rs2 cond.toNat) [rs1, rs2]
          (fun s c => .done s (c.setP pd (testCond cond.toNat (c.r rs1) (c.r rs2))).next) s := by
        rw [BitVec.zeroExtend, ← BitVec.ofNat_toNat]
        rfl
      rw [he]
      exact issue_setP (f := fun _ c => testCond cond.toNat (c.r rs1) (c.r rs2)) (legal_cmp pd cond rs1 rs2 hc)
        (testCond_eq cond _ _ hc) h
    case cmpi =>
      exact issue_setP (f := fun _ c => testCond cond.toNat (c.r rs1) (imm.signExtend 64)) (legal_cmpi pd cond rs1 imm hc)
        (testCond_eq cond _ _ hc) h
    case plog =>
      refine issue_setP (f := fun _ c => match f.toNat with
        | 0 => (c.p ps1 ^^ n1) && (c.p ps2 ^^ n2)
        | 1 => (c.p ps1 ^^ n1) || (c.p ps2 ^^ n2)
        | _ => (c.p ps1 ^^ n1) ^^ (c.p ps2 ^^ n2)) (legal_plog pd ps1 ps2 n1 n2 f hf) ?_ h
      have hcase : f = 0#2 ∨ f = 1#2 ∨ f = 2#2 := by revert hf; clear h; revert f; decide
      rcases hcase with rfl | rfl | rfl <;> rfl

end Sys2Proof.Machine

/-! PROOFS. Instructions that wait, the frame of the ones that only compute, and DMEM loads and stores (R286, R293, R300). -/

namespace Sys2Proof.Machine

/-! ## An instruction reaches its own work (R291, R299, R303) -/

/-- A legal instruction that may issue does what perform does with it, on the state after the fetch. -/
theorem State.issueWord_performs {s : State} {t w : Nat} (regs : List (BitVec 5)) (f : State → Core → Issue)
    (h : s.issues t w [] = true) (hw : legalWord w = true) :
    s.issueWord t w regs f = (s.fetched t).perform t regs f := by
  simp only [State.issues, Bool.and_eq_true, decide_eq_true_eq, beq_iff_eq, Bool.not_eq_true',
    Option.isNone_iff_eq_none] at h
  obtain ⟨⟨⟨⟨⟨⟨⟨-, hvpc⟩, hmay⟩, hpc⟩, hword⟩, hgood⟩, -⟩, -⟩ := h
  have hl : legalOn t w = true := by
    rw [legalOn, hw, hvpc]
    rfl
  have hc : (s.tile t).core = s.core t := rfl
  rw [State.issueWord, if_pos hmay, if_neg (by simp [hword])]
  simp only [State.fetch, State.fetched, hc, ge_iff_le, Nat.not_le.2 hpc, if_false, hgood, hl, if_true]

/-- A register that an LDG owes holds the instruction back (R286). -/
theorem issue_owed {s : State} {t w : Nat} {regs : List (BitVec 5)} (f : State → Core → Issue)
    (h : s.issues t w [] = true) (ho : regs.any (s.core t).owed = true) (hw : legalWord w = true) :
    issue t w regs f s = .next (s.stalled t 1) := by
  have hr : (s.core t).out.any (·.refused) = false := by
    simp only [State.issues, Bool.and_eq_true, Bool.not_eq_true'] at h
    exact h.1.2
  rw [issue, State.issueWord_performs regs f h hw, State.perform]
  simp only [State.core_fetched, hr, ho, Bool.false_eq_true, if_false, if_true, State.stall, State.stalled]

/-- Settles O10. -/
theorem owedRegisterWaits : Obligations.OwedRegisterWaits := by
  intro s t rd rs1 rs2 imm c waits
  exact ⟨fun h ho => issue_owed _ h ho (legal_alu rd rs1 rs2 _ (by decide)),
    fun h ho => issue_owed _ h ho (legal_alu rd rs1 rs2 _ (by decide)),
    fun h ho => issue_owed _ h ho (legal_encI _ rd rs1 imm (by simp)),
    fun h ho => issue_owed _ h ho (legal_encI _ rd rs1 imm (by simp)),
    fun h ho => issue_owed _ h ho (legal_encI _ rd rs1 imm (by simp))⟩

/-! ## What a retired instruction leaves alone -/

/-- A counted event of a tile changes nothing that a register write leaves alone. -/
theorem State.same_anvEvent {α : Type} (p : State → α) (hp : ∀ s a v, p (s.setReg a v) = p s) (s : State) (t ev n : Nat) :
    p (s.anvEvent t ev n) = p s := by
  have hadd : ∀ (s : State) (c o : FRef), p (s.perfAdd c o n) = p s := fun s c o => by
    unfold State.perfAdd
    simp only [apply_ite p, State.setFlag, State.setF, hp, ite_self]
  have hfold : ∀ (l : List Nat) (s : State), p (l.foldl (fun s k =>
      if s.f (ANV_PERF_SEL.EVENT t k) = ev then s.perfAdd (ANV_PERF_CNT.COUNT t k) (ANV_PERF_CNT.OVF t k) n else s) s) =
        p s := fun l => by
    induction l with
    | nil => exact fun _ => rfl
    | cons k l ih =>
      intro s
      rw [List.foldl_cons, ih, apply_ite p, hadd, ite_self]
  rw [State.anvEvent, apply_ite p, hfold, ite_self]

/-- A counted event of a tile changes its counters alone. -/
theorem State.reg_anvEvent (s : State) (t ev n : Nat) {off : Nat} (h : ∀ k, k < 8 → off ≠ ANV_PERF_CNT.at t k) :
    (s.anvEvent t ev n).reg off = s.reg off := by
  have hadd : ∀ (s : State) (k : Nat), k < 8 →
      (s.perfAdd (ANV_PERF_CNT.COUNT t k) (ANV_PERF_CNT.OVF t k) n).reg off = s.reg off := fun s k hk => by
    have hc : off ≠ (ANV_PERF_CNT.COUNT t k).off := h k hk
    have ho : off ≠ (ANV_PERF_CNT.OVF t k).off := h k hk
    unfold State.perfAdd
    simp only [apply_ite (fun s : State => s.reg off), State.reg_setFlag_at _ _ _ ho, State.reg_setF_at _ _ _ _ hc, ite_self]
  have hfold : ∀ (l : List Nat), (∀ k ∈ l, k < 8) → ∀ s : State, (l.foldl (fun s k =>
      if s.f (ANV_PERF_SEL.EVENT t k) = ev then s.perfAdd (ANV_PERF_CNT.COUNT t k) (ANV_PERF_CNT.OVF t k) n else s)
        s).reg off = s.reg off := fun l => by
    induction l with
    | nil => exact fun _ _ => rfl
    | cons k l ih =>
      intro hl s
      rw [List.foldl_cons, ih (fun k hk => hl k (List.mem_cons_of_mem _ hk)), apply_ite (fun s : State => s.reg off),
        hadd s k (hl k List.mem_cons_self), ite_self]
  rw [State.anvEvent, apply_ite (fun s : State => s.reg off), hfold _ (fun k hk => List.mem_range.1 hk), ite_self]

theorem Core.w_eq (c : Core) (i : BitVec 5) (v : W64) : c.w i v = { c with sreg := (c.w i v).sreg } := by
  unfold Core.w
  split <;> rfl

theorem State.fetched_strong {s : State} {t : Nat} (h : ((s.tile t).mem .imem).weakIn (s.core t).pc 4 = 0) :
    s.fetched t = s := if_pos h

/-- A computing instruction of a tile's core, whose word holds no wrong bit, leaves rd written and an event counted. -/
theorem State.wrote_tile {s : State} {t : Nat} (ht : t < 200)
    (hs : ((s.tile t).mem .imem).weakIn (s.core t).pc 4 = 0) (rd : BitVec 5) (v : W64) :
    s.wrote t rd v =
      (s.setCore t ({ (s.core t).w rd v with pc := (s.core t).pc + 4 } : Core).retire).anvEvent t 12 1 := by
  have hv : isVpc t = false := by simpa [isVpc] using ht
  rw [State.wrote, State.issued, State.fetched_strong hs, State.countRetired, hv]
  rfl

/-- What a computing instruction leaves, part by part (R286, R293). -/
theorem wrote_frame {s : State} {t : Nat} {rd : BitVec 5} {v : W64} (ht : t < 200)
    (hs : ((s.tile t).mem .imem).weakIn (s.core t).pc 4 = 0) {s' : State} (he : s' = s.wrote t rd v) :
    s'.outside = s.outside ∧ (∀ u, u ≠ t → s'.tile u = s.tile u) ∧
      (∀ k, k ≠ rd → (s'.core t).r k = (s.core t).r k) ∧
      s'.tile t = { s.tile t with core := { s.core t with
        sreg := (s'.core t).sreg, pc := (s.core t).pc + 4, stall := 0,
        dbgHalted := (s.core t).dbgHalted || (s.core t).dbgStep, dbgStep := false } } ∧
      (∀ off, (∀ k, k < 8 → off ≠ ANV_PERF_CNT.at t k) → s'.reg off = s.reg off) := by
  rw [State.wrote_tile ht hs] at he
  subst he
  have hcore : ((s.setCore t ({ (s.core t).w rd v with pc := (s.core t).pc + 4 } : Core).retire).anvEvent t 12 1).core t =
      ({ (s.core t).w rd v with pc := (s.core t).pc + 4 } : Core).retire := by
    rw [State.core_anvEvent, State.core_setCore]
  refine ⟨State.same_anvEvent State.outside (fun _ _ _ => rfl) _ _ _ _, fun u hu => ?others, fun k hk => ?regs, ?tile,
    fun off h => State.reg_anvEvent _ _ _ _ h⟩
  case others => rw [State.tile_anvEvent, State.setCore, State.tile_setTile, if_neg hu]
  case regs =>
    rw [hcore]
    exact (Core.r_w (s.core t) rd k v).trans (if_neg (by simp [hk]))
  case tile =>
    rw [hcore, State.tile_anvEvent, State.setCore, State.tile_setTile_self, Core.w_eq]
    rfl

/-- Settles O11. -/
theorem computingFrame : Obligations.ComputingFrame := by
  intro s s' t rd rs1 rs2 imm i w regs hi ht h hs he
  have frame : ∀ v, exec i s = .next (s.wrote t rd v) → _ := fun v hv =>
    wrote_frame (v := v) ht hs (Host.Outcome.next.inj (he.symm.trans hv))
  simp only [List.mem_cons, Prod.mk.injEq, List.not_mem_nil, or_false] at hi
  rcases hi with ⟨rfl, rfl, rfl⟩ | ⟨rfl, rfl, rfl⟩ | ⟨rfl, rfl, rfl⟩ | ⟨rfl, rfl, rfl⟩ | ⟨rfl, rfl, rfl⟩
  · exact frame _ (Eq.trans (b := alu t 0x00 rd rs1 rs2 (· + ·) s) rfl (alu_issues (by decide) rfl h))
  · exact frame _ (Eq.trans (b := alu t 0x0A rd rs1 rs2 (· * ·) s) rfl (alu_issues (by decide) rfl h))
  · exact frame _ (Eq.trans (b := alu t 0x0D rd rs1 rs2 divS s) rfl (alu_issues (by decide) rfl h))
  · exact frame _ (Eq.trans (b := aluImm t 0x02 rd rs1 imm (· + sx16 imm) s) rfl (imm_wrote (legal_encI _ rd rs1 imm (by simp)) rfl h))
  · exact frame _ (Eq.trans (b := aluImm t 0x07 rd rs1 imm (fun a => (a <<< 16) + zx16 imm) s) rfl
      (imm_wrote (legal_encI _ rd rs1 imm (by simp)) rfl h))

end Sys2Proof.Machine

/-! PROOFS. Instructions that wait or trap, DMEM loads and stores, and LDG and STG at issue (R286, R299 - R303, R325). -/

namespace Sys2Proof.Machine

/-! ## Ways in which an instruction ends -/

section
variable {s s' : State} {t w : Nat} {regs : List (BitVec 5)} {f : State → Core → Issue}

theorem issue_ends {s' : State} {c : Core} (h : s.issues t w regs = true) (hw : legalWord w = true)
    (hf : f (s.fetched t) (s.core t) = .done s' c) : issue t w regs f s = .next (s'.issued t c) := by
  rw [issue, State.issueWord_issues s t w regs f h hw, hf]

theorem issue_stays {why : Nat} (h : s.issues t w regs = true) (hw : legalWord w = true)
    (hf : f (s.fetched t) (s.core t) = .stay why) : issue t w regs f s = .next (s.stalled t why) := by
  rw [issue, State.issueWord_issues s t w regs f h hw, hf]
  simp only [State.stall, State.stalled, State.core_fetched]

theorem issue_traps {code : Nat} {val : W64} (h : s.issues t w regs = true) (hw : legalWord w = true)
    (hd : (s.core t).draining = false) (hf : f (s.fetched t) (s.core t) = .trap s' code val) :
    issue t w regs f s = .next (s'.trap t ((s.core t).trapAt code val)) := by
  rw [issue, State.issueWord_issues s t w regs f h hw, hf]
  simp only [hd, Bool.false_eq_true, if_false]

/-- A handler that may take a trap has nothing outstanding. -/
theorem State.handles_iff : s.handles t = true ↔ t < 200 ∧ (s.core t).out = [] ∧ (s.core t).clbs = [] ∧
    (s.core t).inTrap = false ∧ (s.core t).tvec.getLsbD 0 = true := by
  simp [State.handles, and_assoc]

theorem State.handles_draining (hh : s.handles t = true) : (s.core t).draining = false := by
  obtain ⟨-, hout, hclbs, -⟩ := State.handles_iff.1 hh
  simp [Core.draining, hout, hclbs]

/-- A trap that is not fatal enters the handler (R325), of a state whose core stands as s has it. -/
theorem State.trap_handled (hh : s.handles t = true) (hc : s'.core t = s.core t) {tr : Trap}
    (hf : trapFatal tr.code = false) : s'.trap t tr = s'.setCore t ((s.core t).enter tr) := by
  obtain ⟨ht, -, -, hin, hvec⟩ := State.handles_iff.1 hh
  have hv : isVpc t = false := by simpa [isVpc] using ht
  have hb : bitAt (s.core t).tvec 0 = true := hvec
  simp [State.trap, hv, hf, hc, hin, hb]

/-- An instruction that meets a trap which is not fatal enters the handler. -/
theorem issue_handled {code : Nat} {val : W64} (h : s.issues t w regs = true) (hw : legalWord w = true)
    (hh : s.handles t = true) (hc : trapFatal code = false)
    (hf : f (s.fetched t) (s.core t) = .trap (s.fetched t) code val) :
    issue t w regs f s = .next ((s.fetched t).setCore t ((s.core t).trapped code val (s.core t).pc)) := by
  rw [issue_traps h hw (State.handles_draining hh) hf,
    State.trap_handled hh (State.core_fetched s t) (tr := (s.core t).trapAt code val) hc]
  rfl

end

/-! ## Tiles after a fetch and after corrections -/

@[simp] theorem State.tile_coreCe (s : State) (t n u : Nat) : (s.coreCe t n).tile u = s.tile u := by
  unfold State.tile
  rw [State.tiles_of_noted (State.noted_coreCe s t n)]

@[simp] theorem State.tile_countRetired (s : State) (t u : Nat) : (s.countRetired t).tile u = s.tile u := by
  unfold State.tile
  rw [State.tiles_of_noted (State.noted_countRetired s t)]

/-- A fetch changes the marks of IMEM's single-bit errors, and what corrections touch. -/
theorem State.fetched_tile (s : State) (t : Nat) :
    (s.fetched t).tile t = { s.tile t with imemWeak := ((s.fetched t).tile t).imemWeak } := by
  unfold State.fetched
  dsimp only
  split
  · rfl
  · rw [State.tile_coreCe, State.tile_setTile_self]
    rfl

theorem State.fetched_tile_other (s : State) {t u : Nat} (h : u ≠ t) : (s.fetched t).tile u = s.tile u := by
  unfold State.fetched
  dsimp only
  split
  · rfl
  · rw [State.tile_coreCe, State.tile_setTile, if_neg h]

theorem State.fetched_mem_dmem (s : State) (t : Nat) : ((s.fetched t).tile t).mem .dmem = (s.tile t).mem .dmem := by
  rw [State.fetched_tile]
  rfl

/-- What lies outside the tiles, but for what records and counters touch. -/
theorem State.outside_noted_of {s t : State} (h : s.noted = t.noted) : s.outside.noted = t.outside.noted :=
  congrArg State.outside h

theorem State.fetched_outside (s : State) (t : Nat) : (s.fetched t).outside.noted = s.outside.noted := by
  unfold State.fetched
  dsimp only
  split
  · rfl
  · exact (State.outside_noted_of (State.noted_coreCe _ t _)).trans rfl

theorem State.issued_tile (s : State) (t : Nat) (c : Core) :
    (s.issued t c).tile t = { s.tile t with core := c.retire } := by
  rw [State.issued, State.tile_countRetired, State.setCore, State.tile_setTile_self]

theorem State.issued_tile_other (s : State) {t u : Nat} (c : Core) (h : u ≠ t) : (s.issued t c).tile u = s.tile u := by
  rw [State.issued, State.tile_countRetired, State.setCore, State.tile_setTile, if_neg h]

theorem State.issued_outside (s : State) (t : Nat) (c : Core) : (s.issued t c).outside.noted = s.outside.noted :=
  (State.outside_noted_of (State.noted_countRetired _ t)).trans rfl

/-! ## DMEM loads (R300) -/

theorem dmemCheck_ok {a : W64} {size : Nat} (h : a.toNat % size = 0) (hlt : a.toNat < 0x10000) : dmemCheck a size = none := by
  rw [dmemCheck, if_neg (by simpa using h), if_neg (by omega)]

theorem dmemCheck_align {a : W64} {size : Nat} (h : a.toNat % size ≠ 0) : dmemCheck a size = some 0x04 := if_pos h

theorem dmemCheck_range {a : W64} {size : Nat} (h : a.toNat % size = 0) (hge : 0x10000 ≤ a.toNat) :
    dmemCheck a size = some 0x05 := by
  rw [dmemCheck, if_neg (by simpa using h), if_pos hge]
  rfl

/-- A load whose check passes and whose bytes are right puts their extended value in rd. -/
theorem load_reads {s : State} {t op size : Nat} {signed : Bool} {rd rs1 : BitVec 5} {imm : BitVec 16} {v : W64}
    (hop : op ∈ [0x10, 0x11, 0x12, 0x13, 0x14, 0x15, 0x16])
    (hv : extendTo size signed (Bytes.rdNat (s.tile t).dmem ((s.core t).r rs1 + imm.signExtend 64).toNat size) = v)
    (h : s.issues t (encI op rd rs1 imm) [rd, rs1] = true)
    (ha : ((s.core t).r rs1 + imm.signExtend 64).toNat % size = 0)
    (hlt : ((s.core t).r rs1 + imm.signExtend 64).toNat < 0x10000)
    (hg : s.dmemGood t ((s.core t).r rs1 + imm.signExtend 64).toNat size = true) :
    load t op size signed rd rs1 imm s =
      .next (((s.fetched t).dmemRead t ((s.core t).r rs1 + imm.signExtend 64).toNat size).issued t
        { (s.core t).w rd v with pc := (s.core t).pc + 4 }) := by
  have hl : legalWord (encI op rd rs1 imm) = true :=
    legal_encI op rd rs1 imm (by simp only [List.mem_cons, List.not_mem_nil, or_false] at hop ⊢; omega)
  have hbad : ((s.tile t).mem .dmem).badIn ((s.core t).r rs1 + imm.signExtend 64).toNat size = none :=
    Option.isNone_iff_eq_none.1 hg
  have hd : ((s.fetched t).tile t).dmem = (s.tile t).dmem := congrArg TMem.data (State.fetched_mem_dmem s t)
  refine issue_ends h hl ?_
  simp only [sx16, dmemCheck_ok ha hlt, State.fetched_mem_dmem, hbad, hd, hv, Core.next, Core.pc_w]
  rw [State.dmemRead, State.fetched_mem_dmem]

theorem Bytes.rdList_length (m : Bytes) (n : Nat) : ∀ a, (Bytes.rdList m a n).length = n := by
  induction n with
  | zero => exact fun _ => rfl
  | succ n ih => exact fun a => congrArg (· + 1) (ih (a + 1))

theorem leNat_lt (bs : List Byte) : leNat bs < 2 ^ (8 * bs.length) := by
  induction bs with
  | nil => decide
  | cons b bs ih =>
    have hb := b.isLt
    rw [leNat, List.length_cons, Nat.mul_add, Nat.pow_add]
    omega

theorem bmod_double {v p q : Nat} (hp : p = 2 * q) (hv : v < p) : Int.bmod v p = if v ≥ q then (v : Int) - p else v := by
  rw [Int.bmod_def, Int.emod_eq_of_lt (by omega) (by omega)]
  split <;> split <;> omega

/-- The extension of a load is the sign extension of its bytes. -/
theorem extendTo_signed {n : Nat} (v : Nat) (hn : 0 < n) (hv : v < 2 ^ (8 * n)) :
    extendTo n true v = (BitVec.ofNat (8 * n) v).signExtend 64 := by
  have hp : 2 ^ (8 * n) = 2 * 2 ^ (8 * n - 1) := by
    rw [← Nat.pow_succ']
    congr 1
    omega
  rw [BitVec.signExtend, BitVec.toInt_eq_toNat_bmod, BitVec.toNat_ofNat, Nat.mod_eq_of_lt hv, bmod_double hp hv, extendTo]
  by_cases hge : v ≥ 2 ^ (8 * n - 1)
  · rw [if_pos ⟨rfl, hge⟩, if_pos hge]
    push_cast
    rfl
  · rw [if_neg (fun h => hge h.2), if_neg hge]
    rfl

theorem rdNat_lt (m : Bytes) (a n : Nat) : Bytes.rdNat m a n < 2 ^ (8 * n) := by
  have h := leNat_lt (Bytes.rdList m a n)
  rwa [Bytes.rdList_length] at h

/-- Settles O12. -/
theorem dmemLoads : Obligations.DmemLoads := by
  intro s t rd rs1 imm a m gives
  have signed {n : Nat} (h0 : 0 < n) := extendTo_signed (m n) h0 (rdNat_lt _ _ _)
  exact ⟨load_reads (by simp) (signed (by decide)), load_reads (by simp) (signed (by decide)),
    load_reads (by simp) (signed (by decide)), load_reads (by simp) rfl, load_reads (by simp) rfl,
    load_reads (by simp) rfl, load_reads (by simp) rfl⟩

/-! ## DMEM stores (R300) -/

theorem leBytes_getElem (n : Nat) : ∀ (v k : Nat) (h : k < (leBytes n v).length),
    (leBytes n v)[k] = BitVec.ofNat 8 (v / 256 ^ k) := by
  induction n with
  | zero => exact fun v k h => absurd h (by simp [leBytes])
  | succ n ih =>
    intro v k h
    cases k with
    | zero => simp [leBytes]
    | succ k =>
      simp only [leBytes, List.getElem_cons_succ, ih]
      rw [Nat.div_div_eq_div_mul, Nat.pow_succ']

theorem rd_wrList_leBytes (m : Bytes) (a n v b : Nat) : Bytes.rd (Bytes.wrList m a (leBytes n v)) b =
    if a ≤ b ∧ b < a + n then BitVec.ofNat 8 (v / 256 ^ (b - a)) else Bytes.rd m b := by
  by_cases hb : a ≤ b ∧ b < a + n
  · have hk : b - a < (leBytes n v).length := by rw [leBytes_length]; omega
    have h := Bytes.rd_wrList_in (leBytes n v) m a (b - a) hk
    rw [show a + (b - a) = b by omega, leBytes_getElem] at h
    rw [if_pos hb, h]
  · rw [if_neg hb]
    exact Bytes.rd_wrList_other _ _ _ _ (by rw [leBytes_length]; omega)

/-- The state that a store leaves, before its instruction retires. -/
def State.stored (s : State) (t a n v : Nat) : State :=
  let x := s.tile t
  let m := x.mem .dmem
  (s.setTile t (x.setMem .dmem (m.write a (leBytes n v)))).coreCe t (m.weakMerge a n)

theorem store_writes {s : State} {t op size : Nat} {rs rs1 : BitVec 5} {imm : BitVec 16} (hop : op ∈ [0x18, 0x19, 0x1A, 0x1B])
    (h : s.issues t (encI op rs rs1 imm) [rs, rs1] = true)
    (ha : ((s.core t).r rs1 + imm.signExtend 64).toNat % size = 0)
    (hlt : ((s.core t).r rs1 + imm.signExtend 64).toNat < 0x10000)
    (hg : (((s.tile t).mem .dmem).badMerge ((s.core t).r rs1 + imm.signExtend 64).toNat size).isNone = true) :
    store t op size rs rs1 imm s =
      .next (((s.fetched t).stored t ((s.core t).r rs1 + imm.signExtend 64).toNat size ((s.core t).r rs).toNat).issued t
        (s.core t).next) := by
  have hl : legalWord (encI op rs rs1 imm) = true :=
    legal_encI op rs rs1 imm (by simp only [List.mem_cons, List.not_mem_nil, or_false] at hop ⊢; omega)
  refine issue_ends h hl ?_
  simp only [sx16, dmemCheck_ok ha hlt, State.fetched_mem_dmem, Option.isNone_iff_eq_none.1 hg]
  rw [State.stored, State.fetched_mem_dmem]

theorem State.stored_tile (s : State) (t a n v : Nat) : (s.stored t a n v).tile t =
    (s.tile t).setMem .dmem (((s.tile t).mem .dmem).write a (leBytes n v)) := by
  rw [State.stored, State.tile_coreCe, State.tile_setTile_self]

theorem State.stored_tile_other (s : State) {t u : Nat} (a n v : Nat) (h : u ≠ t) : (s.stored t a n v).tile u = s.tile u := by
  rw [State.stored, State.tile_coreCe, State.tile_setTile, if_neg h]

theorem State.stored_outside (s : State) (t a n v : Nat) : (s.stored t a n v).outside.noted = s.outside.noted :=
  (State.outside_noted_of (State.noted_coreCe _ t _)).trans rfl

/-- Settles O13. -/
theorem dmemStores : Obligations.DmemStores := by
  intro s t rs rs1 imm c a stores
  have row {i : Instr} {op size : Nat} (hi : exec i s = store t op size rs rs1 imm s) (hop : op ∈ [0x18, 0x19, 0x1A, 0x1B]) :
      stores i op size := by
    intro h ha hlt hg
    refine ⟨_, hi.trans (store_writes hop h ha hlt hg), fun b => ?bytes, ?tile, fun u hu => ?others, ?outside⟩
    case bytes =>
      rw [State.issued_tile, State.stored_tile, State.fetched_tile]
      exact rd_wrList_leBytes _ _ _ _ b
    case tile =>
      rw [State.issued_tile, State.stored_tile, State.fetched_tile]
      rfl
    case others =>
      rw [State.issued_tile_other _ _ hu, State.stored_tile_other _ _ _ _ hu, State.fetched_tile_other s hu]
    case outside =>
      rw [State.issued_outside, State.stored_outside, State.fetched_outside]
  exact ⟨row rfl (by simp), row rfl (by simp), row rfl (by simp), row rfl (by simp)⟩

end Sys2Proof.Machine

namespace Sys2Proof.Machine

/-! ## Address traps (R299, R300) -/

/-- A DMEM access whose check fails traps before it touches anything. -/
theorem load_checked {s : State} {t op size code : Nat} {signed : Bool} {rd rs1 : BitVec 5} {imm : BitVec 16}
    (hl : legalWord (encI op rd rs1 imm) = true) (hc : dmemCheck ((s.core t).r rs1 + imm.signExtend 64) size = some code)
    (hn : trapFatal code = false) (h : s.issues t (encI op rd rs1 imm) [rd, rs1] = true) (hh : s.handles t = true) :
    load t op size signed rd rs1 imm s = .next ((s.fetched t).setCore t
      ((s.core t).trapped code ((s.core t).r rs1 + imm.signExtend 64) (s.core t).pc)) := by
  refine issue_handled h hl hh hn ?_
  simp only [sx16, hc]

theorem store_checked {s : State} {t op size code : Nat} {rs rs1 : BitVec 5} {imm : BitVec 16}
    (hl : legalWord (encI op rs rs1 imm) = true) (hc : dmemCheck ((s.core t).r rs1 + imm.signExtend 64) size = some code)
    (hn : trapFatal code = false) (h : s.issues t (encI op rs rs1 imm) [rs, rs1] = true) (hh : s.handles t = true) :
    store t op size rs rs1 imm s = .next ((s.fetched t).setCore t
      ((s.core t).trapped code ((s.core t).r rs1 + imm.signExtend 64) (s.core t).pc)) := by
  refine issue_handled h hl hh hn ?_
  simp only [sx16, hc]

theorem transferTo_outside (s : State) (c : Core) {x : W64} (h : x.toNat % 4 ≠ 0 ∨ 0x10000 ≤ x.toNat) :
    transferTo s c x = .trap s 0x02 x := if_pos h

/-- The fetch past 0xFFFC traps, whatever row is offered (R299). -/
theorem issue_past {s : State} {t : Nat} (w : Nat) (regs : List (BitVec 5)) (f : State → Core → Issue)
    (hi : s.issuing t = true) (hpc : (s.core t).pc = 0x10000) (hh : s.handles t = true) :
    issue t w regs f s = .next (s.setCore t { (s.core t).trapped 0x02 0x10000#64 0xFFFC with past := true }) := by
  have hc : (s.tile t).core = s.core t := rfl
  rw [issue, State.issueWord, if_pos hi, if_neg (by simp [hpc])]
  simp only [State.fetch, hc, hpc, ge_iff_le, le_refl, if_true]
  rw [State.trapWhenDrained, if_neg (by simp [State.handles_draining hh]),
    State.trap_handled hh rfl (tr := pastTrap) (by decide)]
  rfl

/-- Settles O14. -/
theorem addressTraps : Obligations.AddressTraps := by
  constructor
  case left =>
    intro s t rd rs1 imm i op size hi c a traps h hh
    have row (hop : op ∈ [0x10, 0x11, 0x12, 0x13, 0x14, 0x15, 0x16, 0x18, 0x19, 0x1A, 0x1B])
        (hx : ∀ code, legalWord (encI op rd rs1 imm) = true → dmemCheck a size = some code → trapFatal code = false →
          traps code) :
        (a.toNat % size ≠ 0 → traps 0x04) ∧ (a.toNat % size = 0 → 0x10000 ≤ a.toNat → traps 0x05) := by
      have hl : legalWord (encI op rd rs1 imm) = true :=
        legal_encI op rd rs1 imm (by simp only [List.mem_cons, List.not_mem_nil, or_false] at hop ⊢; omega)
      exact ⟨fun ha => hx 0x04 hl (dmemCheck_align ha) (by decide), fun ha hge => hx 0x05 hl (dmemCheck_range ha hge) (by decide)⟩
    have ldRow {signed : Bool} (he : exec i s = load t op size signed rd rs1 imm s) (code : Nat)
        (hl : legalWord (encI op rd rs1 imm) = true) (hc : dmemCheck a size = some code) (hn : trapFatal code = false) :
        traps code := he.trans (load_checked hl hc hn h hh)
    have stRow (he : exec i s = store t op size rd rs1 imm s) (code : Nat)
        (hl : legalWord (encI op rd rs1 imm) = true) (hc : dmemCheck a size = some code) (hn : trapFatal code = false) :
        traps code := he.trans (store_checked hl hc hn h hh)
    simp only [List.mem_cons, Prod.mk.injEq, List.not_mem_nil, or_false] at hi
    rcases hi with ⟨rfl, rfl, rfl⟩ | ⟨rfl, rfl, rfl⟩ | ⟨rfl, rfl, rfl⟩ | ⟨rfl, rfl, rfl⟩ | ⟨rfl, rfl, rfl⟩ | ⟨rfl, rfl, rfl⟩ |
      ⟨rfl, rfl, rfl⟩ | ⟨rfl, rfl, rfl⟩ | ⟨rfl, rfl, rfl⟩ | ⟨rfl, rfl, rfl⟩ | ⟨rfl, rfl, rfl⟩
    · exact row (by simp) (ldRow (signed := true) rfl)
    · exact row (by simp) (ldRow (signed := true) rfl)
    · exact row (by simp) (ldRow (signed := true) rfl)
    · exact row (by simp) (ldRow (signed := false) rfl)
    · exact row (by simp) (ldRow (signed := false) rfl)
    · exact row (by simp) (ldRow (signed := false) rfl)
    · exact row (by simp) (ldRow (signed := false) rfl)
    · exact row (by simp) (stRow rfl)
    · exact row (by simp) (stRow rfl)
    · exact row (by simp) (stRow rfl)
    · exact row (by simp) (stRow rfl)
  case right =>
    intro s t rd rs1 rs2 imm ps neg off22 off21 c bad traps b u
    refine ⟨fun hp h hh hx => ?br, fun hrd h1 h hh hx => ?bdec, fun h hh hx => ?jal, fun h hh hx => ?jalr,
      fun hi hpc hh => issue_past _ _ _ hi hpc hh⟩
    case br =>
      exact issue_handled h (legal_encB ps neg off22) hh (by decide) ((if_pos hp).trans (transferTo_outside _ c hx))
    case bdec =>
      have hv : c.r rd - 1#64 ≠ 0#64 := sub_ne_zero.2 h1
      exact issue_handled h (legal_encU rd off21 (by decide)) hh (by decide)
        ((if_pos (by rwa [if_neg hrd])).trans (transferTo_outside _ _ hx))
    case jal => exact issue_handled h (legal_encU rd off21 (by decide)) hh (by decide) (transferTo_outside _ _ hx)
    case jalr =>
      exact issue_handled h (legal_encI 0x23 rd rs1 imm (by simp)) hh (by decide) (transferTo_outside _ _ hx)

/-! ## LDG and STG at issue (R301) -/

theorem legal_encG {op : Nat} (rd rs1 : BitVec 5) (size : BitVec 2) (sx : Bool) (imm : BitVec 13)
    (h : op = 0x1C ∨ (op = 0x1D ∧ sx = false)) : legalWord (encG op rd rs1 size sx imm) = true := by
  have h1 := rd.isLt
  have h2 := rs1.isLt
  have h3 := size.isLt
  have h4 := sx.toNat_le
  have h5 := imm.isLt
  have hop : bitsOf (encG op rd rs1 size sx imm) 31 26 = op := by
    simp only [bitsOf, encG]
    omega
  rcases h with rfl | ⟨rfl, rfl⟩
  · simp only [legalWord, hop]
    simp
  · have hz : bitsOf (encG 0x1D rd rs1 size false imm) 13 13 = 0 := by
      simp only [bitsOf, encG, Bool.toNat_false]
      omega
    simp only [legalWord, hop, hz]
    simp

section
variable {s : State} {t w : Nat} {rd rs1 : BitVec 5} {size : BitVec 2} {imm : BitVec 13} {acc : Core → OutAcc}

/-- An access of memory at issue: entered, waiting, or trapped, by its address and by what is outstanding. -/
theorem globalAccess_issues {o : OutAcc} {write : Bool} (hl : legalWord w = true) (hw : (acc (s.core t)).store = write)
    (ho : { acc (s.core t) with pc := (s.core t).pc, addr := ((s.core t).r rs1 + imm.signExtend 64).toNat,
                                size := 2 ^ size.toNat } = o)
    (h : s.issues t w [rd, rs1] = true) :
    let c := s.core t
    let f := s.fetched t
    let a := c.r rs1 + imm.signExtend 64
    let n := 2 ^ size.toNat
    let i := globalAccess t w [rd, rs1] rs1 size imm acc s
    (t < 200 → a.toNat % n = 0 → f.segOk (f.jobOf t) a.toNat n write = true → c.out.length < 8 →
      i = .next ((s.fetched t).issued t { c with out := c.out ++ [o], pc := c.pc + 4 })) ∧
    (t < 200 → a.toNat % n = 0 → f.segOk (f.jobOf t) a.toNat n write = true → 8 ≤ c.out.length →
      i = .next (s.stalled t 7)) ∧
    (a.toNat % n ≠ 0 → s.handles t = true → i = .next ((s.fetched t).setCore t (c.trapped 0x08 a c.pc))) ∧
    (t < 200 → a.toNat % n = 0 → f.segOk (f.jobOf t) a.toNat n write = false → c.draining = false →
      i = .next ((s.fetched t).fatalTrap t ⟨0x07, a, c.pc, false, false, false⟩ 0x07 0 2)) := by
  intro c f a n i
  have hv (ht : t < 200) : isVpc t = false := by simpa [isVpc] using ht
  have good (ht : t < 200) (ha : a.toNat % n = 0) (hs : f.segOk (f.jobOf t) a.toNat n write = true) :
      f.globalCheck t a n write = none := by
    rw [State.globalCheck, if_neg (by simpa using ha), if_pos (by simp [hv ht, hs])]
  refine ⟨fun ht ha hs hn => ?enters, fun ht ha hs hn => ?waits, fun ha hh => ?misaligned, fun ht ha hs hd => ?outside⟩
  case enters =>
    refine issue_ends h hl ?_
    subst hw ho
    simp only [show (s.fetched t).globalCheck t ((s.core t).r rs1 + imm.signExtend 64) (2 ^ size.toNat) _ = none from
      good ht ha hs]
    exact if_neg (Nat.not_le.2 hn)
  case waits =>
    refine issue_stays h hl ?_
    simp only [hw, show (s.fetched t).globalCheck t ((s.core t).r rs1 + imm.signExtend 64) (2 ^ size.toNat) write = none from
      good ht ha hs, if_pos (show (s.core t).out.length ≥ 8 from hn)]
  case misaligned =>
    have hc : f.globalCheck t a n write = some 0x08 := if_pos ha
    refine issue_handled h hl hh (by decide) ?_
    simp only [hw, show (s.fetched t).globalCheck t ((s.core t).r rs1 + imm.signExtend 64) (2 ^ size.toNat) write = _ from hc]
    rfl
  case outside =>
    have hc : f.globalCheck t a n write = some 0x07 := by
      rw [State.globalCheck, if_neg (by simpa using ha), if_neg (by simp [hs])]
      rfl
    have hi : i = .next ((s.fetched t).trap t (c.trapAt 0x07 a)) := by
      refine issue_traps h hl hd ?_
      simp only [hw, show (s.fetched t).globalCheck t ((s.core t).r rs1 + imm.signExtend 64) (2 ^ size.toNat) write = _ from hc]
      rfl
    rw [hi, State.trap, if_neg (by simp [hv ht]), if_pos (by rfl)]
    rfl

end

/-- Settles O16. -/
theorem localAccessesIssue : Obligations.LocalAccessesIssue := by
  intro s t rd rs1 size sx imm c f a n issues
  constructor
  case left =>
    exact fun h => globalAccess_issues (acc := fun _ => ⟨false, 0, 0, 0, sx, rd, 0#64, false⟩)
      (legal_encG rd rs1 size sx imm (.inl rfl)) rfl rfl h
  case right =>
    exact fun h => globalAccess_issues (acc := fun c => ⟨true, 0, 0, 0, false, 0#5, c.r rd, false⟩)
      (legal_encG rd rs1 size false imm (.inr ⟨rfl, rfl⟩)) rfl rfl h

end Sys2Proof.Machine

/-! PROOFS. Outstanding accesses, tokens, fences, Cloudbank ranges and code copies of a Pileus core (R287, R302, R303,
R309 - R317). -/

namespace Sys2Proof.Machine

/-! ## Outstanding accesses complete (R287, R302, R303) -/

theorem Core.access_some {c : Core} {k : Nat} {o : OutAcc} (ho : c.out[k]? = some o) (hr : o.refused = false)
    (hearlier : ∀ i e, i < k → c.out[i]? = some e → e.refused = true ∨ e.addr / 64 ≠ o.addr / 64) :
    c.access k o.store = some o := by
  have hall : (c.out.take k).all (fun e => e.refused || e.addr / 64 != o.addr / 64) = true := by
    rw [List.all_eq_true]
    intro e he
    obtain ⟨i, hi⟩ := List.mem_iff_getElem?.1 he
    rw [List.getElem?_take] at hi
    split at hi
    case isTrue hik => simpa using hearlier i e hik hi
    case isFalse => simp at hi
  rw [Core.access, ho]
  simp [hr, hall]

section
variable {s s' : State} {t k : Nat} {o : OutAcc} (hl : s.loaded t = true) (hu : s.up = true)
include hl hu

theorem ldgDataArrival_at (ho : (s.core t).access k false = some o) :
    exec (.ldgDataArrival t k) s = .next (s.access t k o (readSpan (s.coreWho t) o.size o.addr o.size)
      (fun _ c bs => c.w o.rd (extendTo o.size o.sx (leNat bs)))) := by
  show execLdgDataArrival t k s = _
  rw [execLdgDataArrival, if_pos ⟨hl, hu⟩, ho]

theorem stgApplied_at (ho : (s.core t).access k true = some o) :
    exec (.stgApplied t k) s = .next (s.access t k o (writeSpan (s.coreWho t) o.size o.addr (leBytes o.size o.data.toNat))
      (fun _ c _ => c)) := by
  show execStgApplied t k s = _
  rw [execStgApplied, if_pos ⟨hl, hu⟩, ho]

end

section
variable {α : Type} {s s' : State} {t k : Nat} {o : OutAcc} {x : EM α} {done : State → Core → α → Core}

theorem State.access_ok {v : α} (e : x.go s = (.ok v, s')) : s.access t k o x done =
    s'.setCore t (done s' { s'.core t with out := (s'.core t).out.eraseIdx k } v) := by
  rw [State.access, e]

theorem State.access_bus {a : Nat} (e : x.go s = (.error (.bus a), s')) : s.access t k o x done =
    s'.setCore t (if o.store then { s'.core t with out := listSet (s'.core t).out k { o with refused := true } }
      else { s'.core t with out := listSet (s'.core t).out k { o with refused := true } }.w o.rd 0#64) := by
  rw [State.access, e]

end

/-- What a calm access leaves of a core. -/
theorem Kept.core {s0 s : State} (h : Kept s0 s) (t : Nat) : s.core t = s0.core t :=
  show (s.tile t).bare.core = (s0.tile t).bare.core from congrArg TileState.core (h.tile t)

/-- Refused accesses end in one imprecise BUS trap (R303). -/
theorem busTrap_taken {s : State} {t : Nat} {o : OutAcc} {rest : List OutAcc} (ht : t < 200) (hu : s.unheld t = true)
    (ho : (s.core t).out = o :: rest) (hr : (s.core t).out.all (·.refused) = true) (hin : (s.core t).inTrap = false)
    (hv : (s.core t).tvec.getLsbD 0 = true) :
    exec (.busTrap t) s = .next ((s.setCore t { s.core t with out := [] }).setCore t
      { (s.core t).trapped 0x09 (BitVec.ofNat 64 o.addr) o.pc with imprecise := true, multiBus := !rest.isEmpty }) := by
  have hvpc : isVpc t = false := by simpa [isVpc] using ht
  have hbit : bitAt (s.core t).tvec 0 = true := hv
  show execBusTrap t s = _
  rw [execBusTrap]
  simp only [ho] at hr ⊢
  rw [if_pos ⟨hu, hr⟩]
  rw [State.trap, hvpc]
  simp only [State.core_setCore, hin, hbit, Bool.false_eq_true, if_false, Bool.not_true, Bool.or_self]
  rfl

/-- Settles O17. -/
theorem localAccessesComplete : Obligations.LocalAccessesComplete := by
  refine ⟨?calm, ?ends, ?trap⟩
  case calm =>
    intro s t k lo hi o c w hl hu ho hr he h1 h2
    have hacc := Core.access_some ho hr he
    refine ⟨fun hs hcalm => ?_, fun hs hcalm => ?_⟩
    · rw [hs] at hacc
      obtain ⟨g, hg⟩ := readSpan_calm o.size hcalm h1 h2 (le_refl _)
      refine ⟨_, (ldgDataArrival_at hl hu hacc).trans (congrArg _ (State.access_ok hg)), ?_⟩
      rw [State.core_setCore]
      rfl
    · rw [hs] at hacc
      obtain ⟨_, r, hgo, hkept, -⟩ := writeSpan_ends hcalm o.size (leBytes o.size o.data.toNat) h1
        (by rwa [leBytes_length]) s (Kept.refl s)
      refine ⟨r, hgo, (stgApplied_at hl hu hacc).trans (congrArg _ ((State.access_ok hgo).trans ?_))⟩
      rw [hkept.core]
  case ends =>
    intro s s' t k o bs e hl hu ho hr he
    have hacc := Core.access_some ho hr he
    refine ⟨fun hs hgo => ?_, fun hs hgo => ?_, fun hs hgo => ?_, fun hs hgo => ?_⟩
    · rw [hs] at hacc
      exact (ldgDataArrival_at hl hu hacc).trans (congrArg _ (State.access_ok hgo))
    · rw [hs] at hacc
      exact (stgApplied_at hl hu hacc).trans (congrArg _ (State.access_ok hgo))
    · rw [hs] at hacc
      exact (ldgDataArrival_at hl hu hacc).trans (congrArg _ ((State.access_bus hgo).trans (by rw [hs]; rfl)))
    · rw [hs] at hacc
      exact (stgApplied_at hl hu hacc).trans (congrArg _ ((State.access_bus hgo).trans (by rw [hs]; rfl)))
  case trap =>
    intro s t o rest c ht hu ho hr hin hv
    refine ⟨_, busTrap_taken ht hu ho hr hin hv, State.core_setCore _ _ _, fun u hne => ?_, rfl, rfl⟩
    rw [State.setCore, State.tile_setTile, if_neg hne, State.setCore, State.tile_setTile, if_neg hne]

/-! ## Tokens and fences (R309 - R312) -/

theorem legal_tok {fn : Nat} (rs : BitVec 5) (tok inc : BitVec 8) (h : (fn = 0 ∧ inc ≠ 0#8) ∨ (fn = 1 ∧ inc = 0#8)) :
    legalWord (encTok rs fn tok inc) = true := by
  have h1 := rs.isLt
  have h2 := tok.isLt
  have h3 := inc.isLt
  have hz : inc = 0#8 ↔ inc.toNat = 0 := BitVec.toNat_inj.symm
  have hop : bitsOf (encTok rs fn tok inc) 31 26 = 0x29 := by
    simp only [bitsOf, encTok]
    omega
  have hlow : bitsOf (encTok rs fn tok inc) 2 0 = 0 := by
    simp only [bitsOf, encTok]
    omega
  have hfn : bitsOf (encTok rs fn tok inc) 20 19 = fn := by
    simp only [bitsOf, encTok]
    omega
  have hinc : bitsOf (encTok rs fn tok inc) 10 3 = inc.toNat := by
    simp only [bitsOf, encTok]
    omega
  simp only [legalWord, hop, hlow, hfn, hinc]
  rcases h with ⟨rfl, hi⟩ | ⟨rfl, hi⟩ <;> simpa [hz] using hi

theorem legal_fence {kind : Nat} (h : kind ≤ 3) : legalWord (encFence kind) = true := by
  have hk : kind = 0 ∨ kind = 1 ∨ kind = 2 ∨ kind = 3 := by omega
  rcases hk with rfl | rfl | rfl | rfl <;> decide

/-- A fence goes on where what it waits for holds, and waits otherwise. -/
theorem fence_waits {s : State} {t kind : Nat} {holds : State → Core → Bool} (hk : kind ≤ 3)
    (h : s.issues t (encFence kind) [] = true) :
    (holds (s.fetched t) (s.core t) = true →
      fence t kind holds s = .next ((s.fetched t).issued t { s.core t with pc := (s.core t).pc + 4 })) ∧
    (holds (s.fetched t) (s.core t) = false → fence t kind holds s = .next (s.stalled t 4)) :=
  ⟨fun hh => issue_ends h (legal_fence hk) (if_pos hh),
    fun hh => issue_stays h (legal_fence hk) (if_neg (by simp [hh]))⟩

theorem tokenReached_iff (x : W16) (v : W64) :
    (x.toNat + 2 ^ 16 - v.toNat % 2 ^ 16) % 2 ^ 16 < 2 ^ 15 ↔ (x - v.truncate 16).toNat < 2 ^ 15 := by
  have hx := x.isLt
  rw [BitVec.toNat_sub, BitVec.truncate, BitVec.toNat_setWidth]
  omega

/-- Settles O19. -/
theorem tokensAndFences : Obligations.TokensAndFences := by
  intro s t rs tok inc c x after waits stored local_ drained remote
  have htok : ((s.fetched t).tile t).tok = x.tok := by rw [State.fetched_tile]
  refine ⟨fun h hinc hst => ?tsig, fun h => ?twait, fun h => fence_waits (holds := fun _ c => c.out.isEmpty) (by decide) h,
    fun h => fence_waits (holds := fun s _ => (s.tile t).drained) (by decide) h,
    fun h => fence_waits (holds := fun s c => !c.storing && s.remoteDone t) (by decide) h,
    fun h => fence_waits (holds := fun s c => c.out.isEmpty && (s.tile t).drained && s.remoteDone t) (by decide) h⟩
  case tsig =>
    refine (issue_ends h (legal_tok rs tok inc (.inl ⟨rfl, hinc⟩)) (if_neg ?_)).trans ?_
    · simpa [Core.storing, stored] using hst
    · rw [TileState.signal, htok, BitVec.ofNat_toNat]
      rfl
  case twait =>
    have hreach := tokenReached_iff (SMap.get 0#16 ((s.fetched t).tile t).tok tok.toNat) (c.r rs)
    rw [htok] at hreach
    refine ⟨fun hh => issue_ends h (legal_tok rs tok 0#8 (.inr ⟨rfl, rfl⟩)) (if_pos ?_),
      fun hh => issue_stays h (legal_tok rs tok 0#8 (.inr ⟨rfl, rfl⟩)) (if_neg ?_)⟩
    · rw [htok]
      exact hreach.2 (by simpa using hh)
    · rw [htok]
      exact fun hc => absurd (hreach.1 hc) (by simpa using hh)

/-! ## Cloudbank ranges (R314, R315) -/

theorem legal_clb (rs1 rs2 : BitVec 5) (rel : Bool) (tok : BitVec 8) (sig : Bool) :
    legalWord (encClb rs1 rs2 rel tok sig) = true := by
  have h1 := rs1.isLt
  have h2 := rs2.isLt
  have h3 := rel.toNat_le
  have h4 := tok.isLt
  have h5 := sig.toNat_le
  have hop : bitsOf (encClb rs1 rs2 rel tok sig) 31 26 = 0x2B := by
    simp only [bitsOf, encClb]
    omega
  have hz : bitsOf (encClb rs1 rs2 rel tok sig) 5 0 = 0 := by
    simp only [bitsOf, encClb]
    omega
  simp only [legalWord, hop, hz]
  simp

theorem clb_issues {s : State} {t : Nat} {rs1 rs2 : BitVec 5} {rel sig : Bool} {tok : BitVec 8}
    (h : s.issues t (encClb rs1 rs2 rel tok sig) [rs1, rs2] = true)
    (ok : ((s.core t).r rs2).toNat = 0 ∨ (((s.core t).r rs1).toNat + ((s.core t).r rs2).toNat ≤ 2 ^ 48 ∧
      (s.fetched t).segOk ((s.fetched t).jobOf t) ((s.core t).r rs1).toNat ((s.core t).r rs2).toNat false = true)) :
    clb t rs1 rs2 rel tok sig s = .next ((s.fetched t).issued t { s.core t with
      clbs := (s.core t).clbs ++ [⟨!rel, ((s.core t).r rs1).toNat, ((s.core t).r rs2).toNat, sig, tok⟩],
      pc := (s.core t).pc + 4 }) := by
  refine issue_ends h (legal_clb rs1 rs2 rel tok sig) ((if_neg ?_).trans rfl)
  rcases ok with h0 | ⟨hle, hseg⟩
  · simp [h0]
  · simp [hseg]
    omega

/-- A loop that ends a do block adds nothing to it. -/
theorem EM.go_bind_pure_unit (x : EM PUnit) (s : State) : (x >>= fun _ => pure PUnit.unit).go s = x.go s := by
  rw [EM.go_bind]
  rcases x.go s with ⟨_ | _, _⟩ <;> rfl

/-- The oldest Cloudbank operation completes by the work of its lines, and signals. -/
theorem clbComplete_ends {s s' : State} {t : Nat} {o : ClbOp} {rest : List ClbOp} (hl : s.loaded t = true) (hu : s.up = true)
    (hc : (s.core t).clbs = o :: rest)
    (e : EM.go (forIn (s.linesIn (s.jobOf t) o.base o.len) PUnit.unit fun line _ => do
      clbLine (s.coreWho t) (s.jobOf t) line o.acquire
      pure (ForInStep.yield PUnit.unit)) s = (.ok ⟨⟩, s')) :
    exec (.clbComplete t) s = .next
      (let r := s'.setCore t { s'.core t with clbs := rest }
       if o.sig then r.setTile t ((r.tile t).signal o.tok.toNat 1) else r) := by
  show execClbComplete t s = _
  rw [execClbComplete, hc]
  dsimp only
  rw [if_pos ⟨hl, hu⟩]
  exact rowOf_ok (EM.go_bind_ok e rfl)

/-- Settles O20; that a length of 0 makes no check of a segment is the model's choice (log entry 66). -/
theorem cloudbankRanges : Obligations.CloudbankRanges := by
  intro s s' t rs1 rs2 tok sig o rest c f a n ok issues
  refine ⟨fun h hok => clb_issues (rel := false) h hok, fun h hok => clb_issues (rel := true) h hok, ?_⟩
  intro lines works ends hl hu hc
  constructor
  case left =>
    intro hw
    exact clbComplete_ends hl hu hc ((EM.go_bind_pure_unit _ s).symm.trans hw)
  case right =>
    intro hclean
    exact clbComplete_ends hl hu hc (clbLines_clean lines hclean)

/-! ## Code copies (R316, R317) -/

theorem legal_ifill (rs1 rs2 : BitVec 5) : legalWord (encIfill rs1 rs2) = true := by
  have h1 := rs1.isLt
  have h2 := rs2.isLt
  have hop : bitsOf (encIfill rs1 rs2) 31 26 = 0x2C := by
    simp only [bitsOf, encIfill]
    omega
  have hz : bitsOf (encIfill rs1 rs2) 15 0 = 0 := by
    simp only [bitsOf, encIfill]
    omega
  simp only [legalWord, hop, hz]
  simp

/-- Settles O21. -/
theorem instructionFill : Obligations.InstructionFill := by
  intro s s' t i lo hi rs1 rs2 bs c f a o
  constructor
  case left =>
    intro h ha hseg hcls hpr ho hle
    refine issue_ends h (legal_ifill rs1 rs2) ?_
    simp only [show (s.fetched t).segOf ((s.fetched t).jobOf t) ((s.core t).r rs1).toNat 4096 = some i from hseg]
    rw [if_neg, if_neg]
    · exact not_or.2 ⟨not_not.2 ho, Nat.not_lt.2 hle⟩
    · refine not_or.2 ⟨not_not.2 ha, ?_⟩
      have h3 : ((s.fetched t).seg ((s.fetched t).jobOf t) i).cls = 3 := hcls
      have hp : ((s.fetched t).seg ((s.fetched t).jobOf t) i).pr = true := hpr
      simp [h3, hp]
  case right =>
    intro w hl hu hi'
    refine ⟨fun e => ifillCopyDone_ok hl hu hi' e, fun hcalm h1 h2 => ?_⟩
    obtain ⟨g, hg⟩ := readSpan_calm 4096 hcalm h1 h2 (le_refl _)
    obtain ⟨r, hr, hbytes, hcore⟩ := ifillCopyDone_ok hl hu hi' hg
    have hlen : (s.bytesAt w a 4096).length = 4096 := by simp [State.bytesAt]
    refine ⟨r, hr, fun b => ?_, hcore⟩
    rw [hbytes b, hlen]
    by_cases hb : o ≤ b ∧ b < o + 4096
    · rw [if_pos hb, if_pos hb, bytesAt_getD s w a 4096 (b - o) (by omega)]
    · rw [if_neg hb, if_neg hb]
      rfl

end Sys2Proof.Machine

/-! PROOFS. PUSH, system instructions, debug control and illegal words of a Pileus core (R291, R305 - R308, R319 - R336). -/

namespace Sys2Proof.Machine

/-! ## PUSH (R305 - R308) -/

theorem legal_push (rs1 rs2 : BitVec 5) {qr : Bool} {q : BitVec 5} (h : qr = false → q.toNat ≤ 26) :
    legalWord (encPush rs1 rs2 qr q) = true := by
  have h1 := rs1.isLt
  have h2 := rs2.isLt
  have h3 := qr.toNat_le
  have h4 := q.isLt
  have hop : bitsOf (encPush rs1 rs2 qr q) 31 26 = 0x28 := by
    simp only [bitsOf, encPush]
    omega
  have hlow : bitsOf (encPush rs1 rs2 qr q) 9 0 = 0 := by
    simp only [bitsOf, encPush]
    omega
  have hqr : bitsOf (encPush rs1 rs2 qr q) 15 15 = qr.toNat := by
    simp only [bitsOf, encPush]
    omega
  have hq : bitsOf (encPush rs1 rs2 qr q) 14 10 = q.toNat := by
    simp only [bitsOf, encPush]
    omega
  simp only [legalWord, hop, hlow, hqr, hq]
  cases qr
  · simpa using h rfl
  · simp

/-- The fields of a PUSH that PUSH_ROOM_FREE reads back from the word at PC. -/
theorem push_fields (rs1 rs2 : BitVec 5) (qr : Bool) (q : BitVec 5) :
    bitsOf (encPush rs1 rs2 qr q) 31 26 = 0x28 ∧ BitVec.ofNat 5 (bitsOf (encPush rs1 rs2 qr q) 25 21) = rs1 ∧
      BitVec.ofNat 5 (bitsOf (encPush rs1 rs2 qr q) 20 16) = rs2 ∧ (bitsOf (encPush rs1 rs2 qr q) 15 15 == 1) = qr ∧
      BitVec.ofNat 5 (bitsOf (encPush rs1 rs2 qr q) 14 10) = q := by
  have h1 := rs1.isLt
  have h2 := rs2.isLt
  have h3 := qr.toNat_le
  have h4 := q.isLt
  have hqr : bitsOf (encPush rs1 rs2 qr q) 15 15 = qr.toNat := by
    simp only [bitsOf, encPush]
    omega
  refine ⟨?_, BitVec.eq_of_toNat_eq ?_, BitVec.eq_of_toNat_eq ?_, ?_, BitVec.eq_of_toNat_eq ?_⟩
  · simp only [bitsOf, encPush]
    omega
  · simp only [bitsOf, encPush, BitVec.toNat_ofNat]
    omega
  · simp only [bitsOf, encPush, BitVec.toNat_ofNat]
    omega
  · rw [hqr]
    cases qr <;> rfl
  · simp only [bitsOf, encPush, BitVec.toNat_ofNat]
    omega

theorem badIn_prefix {m : TMem} {a n k : Nat} (hk : k ≤ n) (h : m.badIn a n = none) : m.badIn a k = none := by
  simp only [TMem.badIn, List.find?_eq_none] at h ⊢
  intro w hw
  refine h w ?_
  unfold wordsOf at hw ⊢
  by_cases hk0 : k = 0
  · simp [hk0] at hw
  · rw [if_neg hk0] at hw
    rw [if_neg (by omega)]
    simp only [List.mem_map, List.mem_range] at hw ⊢
    obtain ⟨i, hi, rfl⟩ := hw
    exact ⟨i, by omega, rfl⟩

theorem TileState.blockBytes_pos (x : TileState) (a : Nat) : 64 ≤ x.blockBytes a := by
  unfold TileState.blockBytes
  dsimp only
  split <;> omega

/-- The tile that a PUSH leaves: single-bit errors of the block corrected, and the block at the end of its queue. -/
def TileState.pushed (x : TileState) (q a : Nat) : TileState :=
  let n := x.blockBytes a
  let y := if (x.mem .dmem).weakIn a n = 0 then x else x.setMem .dmem ((x.mem .dmem).heal a n)
  y.enqueue q (x.block a n)

section
variable {s : State} {c : Core} {t w : Nat} {rs1 rs2 : BitVec 5} {qr : Bool} {qn : BitVec 5}

/-- A PUSH whose checks pass enters its block where the queue has room, and waits otherwise. -/
theorem pushIssue_checked {q a : Nat} {x : TileState} (hx : s.tile t = x) (hqv : pushQ c rs2 qr qn = q)
    (hav : (c.r rs1).toNat = a) (hq : q ≤ 26) (ha : a % 64 = 0) (hn : a + x.blockBytes a ≤ 0x10000)
    (hg : (x.mem .dmem).badIn a (x.blockBytes a) = none)
    (hb : s.pushBad (s.jobOf t) (x.block a (x.blockBytes a)) = none) :
    pushIssue t w rs1 rs2 qr qn s c =
      if (x.queue q).depth + cmdEntries (x.block a (x.blockBytes a)) > 32 then .stay 2
      else .done ((s.setTile t (x.pushed q a)).anvCe t ((x.mem .dmem).weakIn a (x.blockBytes a))) c.next := by
  have hpos := TileState.blockBytes_pos x a
  simp only [pushIssue, hx, hqv, hav, hb, hg, badIn_prefix (show 8 ≤ x.blockBytes a by omega) hg]
  rw [if_neg (by omega), if_neg (by omega), if_neg (by omega), if_neg (by omega)]
  rfl

end

@[simp] theorem State.tile_anvCe (s : State) (t n u : Nat) : (s.anvCe t n).tile u = s.tile u := by
  unfold State.tile
  rw [State.tiles_of_noted (State.noted_anvCe s t n)]

@[simp] theorem State.tile_countStall (s s' : State) (t u : Nat) : (countStall t s s').tile u = s'.tile u := by
  unfold countStall
  split
  · exact State.tile_anvEvent _ _ _ _ _
  · rfl

theorem TileState.queue_enqueue (x : TileState) (q p : Nat) (b : List W64) : (x.enqueue q b).queue p =
    if p = q then { x.queue q with entries := (x.queue q).entries ++ [b], pushed := (x.queue q).pushed + 1#16 }
    else x.queue p := SMap.get_put _ _ _ _ _

theorem TileState.queue_pushed (x : TileState) (q a p : Nat) : (x.pushed q a).queue p =
    if p = q then { x.queue q with entries := (x.queue q).entries ++ [x.block a (x.blockBytes a)],
                                   pushed := (x.queue q).pushed + 1#16 }
    else x.queue p := by
  have hkept (n : Nat) : (if n = 0 then x else x.setMem .dmem ((x.mem .dmem).heal a (x.blockBytes a))).queues = x.queues := by
    split <;> rfl
  rw [TileState.pushed, TileState.queue_enqueue, TileState.queue, TileState.queue, hkept]
  rfl

/-- Fewer registers owed let an instruction issue as well. -/
theorem State.issues_sub {s : State} {t w : Nat} {regs regs' : List (BitVec 5)} (hsub : ∀ r ∈ regs', r ∈ regs)
    (h : s.issues t w regs = true) : s.issues t w regs' = true := by
  simp only [State.issues, Bool.and_eq_true, Bool.not_eq_true', List.any_eq_false] at h ⊢
  exact ⟨h.1, fun r hr => h.2 r (hsub r hr)⟩

theorem State.issues_word {s : State} {t w : Nat} {regs : List (BitVec 5)} (h : s.issues t w regs = true) : s.word t = w := by
  simp only [State.issues, Bool.and_eq_true, beq_iff_eq] at h
  exact h.1.1.1.2

/-- Settles O18. -/
theorem pushEntersCommand : Obligations.PushEntersCommand := by
  intro s t rs1 rs2 qr qn c f q a x n b y w fits regs entered h hq hqn ha hn hg hb
  have hl : legalWord w = true := legal_push rs1 rs2 hqn
  have hx : (s.fetched t).tile t = { x with imemWeak := ((s.fetched t).tile t).imemWeak } := State.fetched_tile s t
  generalize hz : (s.fetched t).tile t = z at hx
  have hblock : z.block a (z.blockBytes a) = b ∧ z.queue q = y ∧ z.blockBytes a = n := by
    rw [hx]
    exact ⟨rfl, rfl, rfl⟩
  obtain ⟨hzb, hzy, hzn⟩ := hblock
  have hissue : pushIssue t w rs1 rs2 qr qn (s.fetched t) (s.core t) =
      if y.depth + cmdEntries b > 32 then .stay 2
      else .done (((s.fetched t).setTile t (z.pushed q a)).anvCe t ((z.mem .dmem).weakIn a n)) c.next := by
    have := pushIssue_checked (s := s.fetched t) (c := s.core t) (t := t) (w := w) (rs1 := rs1) (rs2 := rs2) (qr := qr)
      (qn := qn) (q := q) (a := a) (x := z) hz rfl rfl hq ha (by rw [hzn]; exact hn)
      (by
        rw [hzn]
        rw [hx]
        exact Option.isNone_iff_eq_none.1 hg)
      (by rw [hzb]; exact hb)
    rw [this, hzb, hzy, hzn]
  have hentered (hf : fits) : entered
      ((((s.fetched t).setTile t (z.pushed q a)).anvCe t ((z.mem .dmem).weakIn a n)).issued t c.next) := by
    have htile : ((((s.fetched t).setTile t (z.pushed q a)).anvCe t ((z.mem .dmem).weakIn a n)).issued t c.next).tile t =
        { z.pushed q a with core := c.next.retire } := by
      rw [State.issued_tile, State.tile_anvCe, State.tile_setTile_self]
    refine ⟨?_, fun p hp => ?_, ?_⟩
    · rw [htile]
      refine (TileState.queue_pushed z q a q).trans ?_
      rw [if_pos rfl, hzb, hzy]
    · rw [htile]
      refine (TileState.queue_pushed z q a p).trans ?_
      rw [if_neg hp, hx]
      rfl
    · rw [State.core, htile]
      rfl
  have hroom : fits ↔ ¬ y.depth + cmdEntries b > 32 := Nat.not_lt.symm
  refine ⟨fun hf => ?enters, fun hf => ?waits, fun hf hst => ?performed⟩
  case enters =>
    have hi := issue_ends h hl (hissue.trans (if_neg (hroom.1 hf)))
    refine ⟨_, congrArg Host.Outcome.next (congrArg (countStall t s) (Host.Outcome.next.inj hi)), ?_⟩
    obtain ⟨h1, h2, h3⟩ := hentered hf
    refine ⟨?_, fun p hp => ?_, ?_⟩
    · rw [State.tile_countStall]
      exact h1
    · rw [State.tile_countStall]
      exact h2 p hp
    · rw [State.core, State.tile_countStall]
      exact h3
  case waits =>
    have hi := issue_stays h hl (hissue.trans (if_pos (not_not.1 (mt hroom.2 hf))))
    refine ⟨_, congrArg Host.Outcome.next (congrArg (countStall t s) (Host.Outcome.next.inj hi)), ?_, ?_⟩
    · rw [State.core, State.tile_countStall]
      exact State.core_setCore _ _ _
    · rw [State.tile_countStall, State.stalled, State.setCore, State.tile_setTile_self, hz, hx]
  case performed =>
    have h' : s.issues t w [rs1] = true := by
      refine State.issues_sub (fun r hr => ?_) h
      rw [List.mem_singleton.1 hr]
      show rs1 ∈ if qr = true then [rs1, rs2] else [rs1]
      split <;> exact List.mem_cons_self
    obtain ⟨hop, h1, h2, h3, h4⟩ := push_fields rs1 rs2 qr qn
    refine ⟨_, ?_, hentered hf⟩
    show execPushRoomFree t s = _
    rw [execPushRoomFree]
    simp only [State.issues_word h]
    rw [if_pos ⟨hst, hop⟩]
    simp only [w, h1, h2, h3, h4]
    exact issue_ends h' hl (hissue.trans (if_neg (hroom.1 hf)))

/-! ## System instructions (R319 - R323, R325, R328, R330) -/

theorem bits_encSys (rd rs1 : BitVec 5) (imm : BitVec 8) {fn : Nat} (h : fn < 16) :
    bitsOf (encSys rd rs1 imm fn) 31 26 = 0x30 ∧ bitsOf (encSys rd rs1 imm fn) 7 4 = 0 ∧
      bitsOf (encSys rd rs1 imm fn) 3 0 = fn ∧ bitsOf (encSys rd rs1 imm fn) 15 8 = imm.toNat ∧
      bitsOf (encSys rd rs1 imm fn) 20 16 = rs1.toNat ∧ bitsOf (encSys rd rs1 imm fn) 25 21 = rd.toNat ∧
      bitsOf (encSys rd rs1 imm fn) 25 16 = 32 * rd.toNat + rs1.toNat ∧
      bitsOf (encSys rd rs1 imm fn) 25 8 = 8192 * rd.toNat + 256 * rs1.toNat + imm.toNat := by
  have h1 := rd.isLt
  have h2 := rs1.isLt
  have h3 := imm.isLt
  simp only [bitsOf, encSys, Nat.reduceAdd, Nat.reduceSub, Nat.reducePow]
  refine ⟨?_, ?_, ?_, ?_, ?_, ?_, ?_, ?_⟩ <;> omega

theorem legal_trap (imm : BitVec 8) : legalWord (encSys 0#5 0#5 imm 0) = true := by
  obtain ⟨h1, h2, h3, -, -, -, h7, -⟩ := bits_encSys 0#5 0#5 imm (fn := 0) (by decide)
  simp only [legalWord, h1, h2, h3, h7]
  simp

theorem legal_csrr (rd : BitVec 5) {num : BitVec 8} (h : csrListed num.toNat = true) :
    legalWord (encSys rd 0#5 num 2) = true := by
  obtain ⟨h1, h2, h3, h4, h5, -⟩ := bits_encSys rd 0#5 num (fn := 2) (by decide)
  simp only [legalWord, h1, h2, h3, h4, h5, h]
  simp

theorem legal_csrw (rs1 : BitVec 5) {num : BitVec 8} (h : csrListed num.toNat = true) :
    legalWord (encSys 0#5 rs1 num 3) = true := by
  obtain ⟨h1, h2, h3, h4, -, h6, -⟩ := bits_encSys 0#5 rs1 num (fn := 3) (by decide)
  simp only [legalWord, h1, h2, h3, h4, h6, h]
  simp

theorem Core.setPreds_eq (c : Core) (v : W64) : c.setPreds v = { c with preds := v.truncate 8 ||| 1#8 } := by
  have : BitVec.ofNat 8 (v.toNat % 256 ||| 1) = v.truncate 8 ||| 1#8 := by
    apply BitVec.eq_of_toNat_eq
    simp [BitVec.truncate]
  rw [Core.setPreds, this]

@[simp] theorem Core.pc_setCsr (c : Core) (n : Nat) (v : W64) : (c.setCsr n v).pc = c.pc := by
  unfold Core.setCsr Core.setPreds
  split <;> rfl

/-- Settles O22; that BRK does nothing on a VPC is the model's choice (log entry 61). -/
theorem systemInstructions : Obligations.SystemInstructions := by
  intro s t rd rs1 imm num c f v after reads writes
  have hvpc : isVpc t = !decide (t < 200) := by simp [isVpc, ← decide_not]
  have hread {k : Nat} {x : W64} (hl : csrListed k = true) (hx : f.csr t c k = x) : reads k x := fun hk h => by
    have hi := issue_ends (f := fun s c => .done s (c.w rd (s.csr t c num.toNat)).next) h (legal_csrr rd (hk ▸ hl)) rfl
    refine hi.trans ?_
    rw [hk, hx, Core.next, Core.pc_w]
  have hwrite {k : Nat} {c' : Core} (hl : csrListed k = true) (hx : c.setCsr k v = c') : writes k c' := fun hk h => by
    have hi := issue_ends (f := fun s c => .done s (c.setCsr num.toNat (c.r rs1)).next) h (legal_csrw rs1 (hk ▸ hl)) rfl
    refine hi.trans ?_
    rw [hk, hx, Core.next, ← hx, Core.pc_setCsr]
  refine ⟨fun h hh => ?trap, fun h hin h4 hlt => ?eret, ?_⟩
  case trap => exact issue_handled h (legal_trap imm) hh (by decide) rfl
  case eret =>
    refine issue_ends h (by decide) ((if_neg ?_).trans (transferTo_inside _ _ rfl h4 hlt))
    simp [show (s.core t).inTrap = true from hin]
  intro ofJob
  have hjob (x : Nat) : (if isVpc t = true then 0#64 else BitVec.ofNat 64 x) = ofJob x := by
    simp only [ofJob, hvpc]
    by_cases ht : t < 200 <;> simp [ht]
  have hcore : (if isVpc t = true then 1#64 else 0#64) = if t < 200 then 0#64 else 1#64 := by
    rw [hvpc]
    by_cases ht : t < 200 <;> simp [ht]
  have hpreds : BitVec.ofNat 64 c.preds.toNat = c.preds.zeroExtend 64 := BitVec.ofNat_toNat _ _
  refine ⟨hread (by decide) rfl, hread (by decide) (hjob _), hread (by decide) (hjob _), hread (by decide) (hjob _),
    hread (by decide) rfl, hread (by decide) hcore, hread (by decide) rfl, hread (by decide) rfl, hread (by decide) rfl,
    hread (by decide) rfl, hread (by decide) rfl, hread (by decide) hpreds, hread (by decide) rfl, fun k hk => ?ro,
    hwrite (by decide) rfl, hwrite (by decide) rfl, hwrite (by decide) rfl, hwrite (by decide) rfl,
    hwrite (by decide) (Core.setPreds_eq c v), hwrite (by decide) rfl, fun h => issue_ends h (by decide) rfl,
    fun h => ?brk⟩
  case ro =>
    simp only [List.mem_cons, List.not_mem_nil, or_false] at hk
    rcases hk with rfl | rfl | rfl | rfl | rfl | rfl | rfl <;> exact hwrite (by decide) rfl
  case brk =>
    have hi := issue_ends (f := fun s c =>
      .done s (if s.dbgPermit t then { c.next with dbgHalted := true } else c.next)) h (by decide) rfl
    refine hi.trans ?_
    by_cases hp : f.loaded t = true ∧ f.flag (LDR_JOB_ATTR.DEBUG (f.jobOf t)) = true
    · have hd : (s.fetched t).dbgPermit t = true := by simpa [State.dbgPermit] using hp
      simp only [hd, if_pos hp, if_true]
      rfl
    · have hd : ¬ (s.fetched t).dbgPermit t = true := by simpa [State.dbgPermit] using hp
      rw [if_neg hd, if_neg hp]
      rfl

/-! ## Debug control and illegal words (R291, R330 - R336) -/

theorem dbgCtlAt_eq (t : Nat) : dbgCtlAt t = if t < 200 then PIL_DBG_CTL.at t else VPC_DBG_CTL.at (t - 200) := by
  unfold dbgCtlAt isVpc
  by_cases ht : t < 200
  · simp [ht]
  · simp [ht, Nat.not_lt.1 ht]

theorem State.dbgOpen_iff (s : State) (t : Nat) : s.dbgOpen t = true ↔
    200 ≤ t ∨ (s.loaded t = true ∧ s.flag (LDR_JOB_ATTR.DEBUG (s.jobOf t)) = true) := by
  simp [State.dbgOpen, State.dbgPermit, isVpc]

/-- The row of an illegal word traps, on the state after the fetch (R291). -/
theorem illegal_traps {s : State} {t : Nat} (hi : s.issuing t = true) (hpc : (s.core t).pc < 0x10000)
    (hg : (((s.tile t).mem .imem).badIn (s.core t).pc 4).isNone = true) (hd : (s.core t).draining = false)
    (hl : legalOn t (s.word t) = false) :
    exec (.illegalInstruction t) s =
      .next ((s.fetched t).trap t ((s.core t).trapAt 0x01 (BitVec.ofNat 64 (s.word t)))) := by
  have hc : (s.tile t).core = s.core t := rfl
  show execIllegalInstruction t s = _
  simp only [execIllegalInstruction, hl]
  rw [if_neg (by simp), issue, State.issueWord, if_pos hi, if_neg (by simp)]
  simp only [State.fetch, hc, ge_iff_le, Nat.not_le.2 hpc, if_false, Option.isNone_iff_eq_none.1 hg, hl,
    Bool.false_eq_true]
  show Host.Outcome.next ((s.fetched t).trapWhenDrained t _) = _
  rw [State.trapWhenDrained, State.core_fetched, hd, if_neg (by simp)]
  show _ = Host.Outcome.next ((s.fetched t).trap t _)
  congr 2
  exact congrArg (fun c : Core => c.trapAt 0x01 (BitVec.ofNat 64 (s.word t))) (State.core_fetched s t)

/-- Settles O23; that a VPC's debug controls act for ZEN is the model's choice (log entry 61). -/
theorem debugAndIllegal : Obligations.DebugAndIllegal := by
  intro s t by_ c permits
  constructor
  case left =>
    intro ha
    rw [← dbgCtlAt_eq] at ha
    have hopen : s.dbgOpen t = true ↔ permits := State.dbgOpen_iff s t
    have halt : exec (.haltReq by_ t) s = .next (s.haltReq t) := congrArg _ (if_pos ha)
    have dstep : exec (.dbgStep by_ t) s = .next (s.dbgStep t) := congrArg _ (if_pos ha)
    have resume : exec (.dbgResume by_ t) s = .next (s.dbgResume t) := congrArg _ (if_pos ha)
    refine ⟨fun hp => halt.trans (congrArg _ (if_pos (hopen.2 hp))),
      fun hp hh => dstep.trans (congrArg _ (if_pos ?_)), fun hp => resume.trans (congrArg _ (if_pos ?_)),
      fun hp => ⟨halt.trans (congrArg _ (if_neg (mt hopen.1 hp))), dstep.trans (congrArg _ (if_neg ?_))⟩⟩
    · rw [hopen.2 hp]
      exact hh
    · simpa [isVpc] using hp
    · rw [Bool.and_eq_true]
      exact fun hx => hp (hopen.1 hx.1)
  case right =>
    intro hi hpc hg hd tr
    refine ⟨fun ht hw => ?tile, fun hge _ hw => ?vpc⟩
    case tile =>
      have hv : isVpc t = false := by simpa [isVpc] using ht
      rw [illegal_traps hi hpc hg hd (by rw [legalOn, hw]; rfl), State.trap, hv]
      rfl
    case vpc =>
      have hv : isVpc t = true := by simpa [isVpc] using hge
      have hl : legalOn t (s.word t) = false := by
        rw [legalOn, hv]
        rcases hw with hw | hw <;> simp [hw]
      rw [illegal_traps hi hpc hg hd hl, State.trap, hv]
      rfl

end Sys2Proof.Machine

/-! PROOFS. Commands of the queues: start, send, acceptance, views (R242 - R254) and completion (R243, R244, R272 - R277). -/

namespace Sys2Proof.Machine

/-! ## Kinds of queue -/

theorem isVq_of_lt {q : Nat} (h : q < 10) : isVq q = false := by
  simp [isVq, Nat.not_le.2 h]

theorem isVq_of {q : Nat} (h : 10 ≤ q) (h' : q < 26) : isVq q = true := by
  simp [isVq, h, h']

theorem isRemoteQ_of_lt {q : Nat} (h : q < 10) : isRemoteQ q = false := by
  simp only [isRemoteQ, isVq_of_lt h, Bool.false_or, beq_eq_false_iff_ne]
  omega

theorem isRemoteQ_of {q : Nat} (h : 10 ≤ q) (h' : q ≤ 26) : isRemoteQ q = true := by
  simp only [isRemoteQ, isVq, Bool.or_eq_true, Bool.and_eq_true, decide_eq_true_eq, beq_iff_eq]
  omega

theorem isDq_of {q : Nat} (h : 2 ≤ q) (h' : q < 10) : isDq q = true := by
  simp [isDq, h, h']

theorem isDq_of_lt {q : Nat} (h : q < 2) : isDq q = false := by
  simp [isDq, Nat.not_le.2 h]

theorem isDq_of_ge {q : Nat} (h : 10 ≤ q) : isDq q = false := by
  simp [isDq, Nat.not_lt.2 h]

/-! ## What a queue's write leaves -/

@[simp] theorem State.jobState_setTile (s : State) (t j : Nat) (x : TileState) : (s.setTile t x).jobState j = s.jobState j := rfl
@[simp] theorem State.physOf_setTile (s : State) (t l : Nat) (x : TileState) : (s.setTile t x).physOf l = s.physOf l := rfl
@[simp] theorem State.livePhys_setTile (s : State) (t j l : Nat) (x : TileState) :
    (s.setTile t x).livePhys j l = s.livePhys j l := rfl

/-- A context's write changes tiles and saved contexts and nothing else, so what reads neither stays. -/
theorem State.same_setCtx {α : Type} (p : State → α) (ht : ∀ s t x, p (State.setTile s t x) = p s)
    (hs : ∀ (s : State) m, p { s with saved := m } = p s) (s : State) (j l : Nat) (x : TileState) :
    p (s.setCtx j l x) = p s := by
  unfold State.setCtx
  split
  · exact ht s _ x
  · exact hs s _

@[simp] theorem State.reg_setCtx (s : State) (j l : Nat) (x : TileState) (a : Nat) : (s.setCtx j l x).reg a = s.reg a :=
  State.same_setCtx (fun s => s.reg a) (fun _ _ _ => rfl) (fun _ _ => rfl) s j l x

theorem State.livePhys_setCtx (s : State) (j l k m : Nat) (x : TileState) : (s.setCtx j l x).livePhys k m = s.livePhys k m :=
  State.same_setCtx (fun s => s.livePhys k m) (fun _ _ _ => rfl) (fun _ _ => rfl) s j l x

@[simp] theorem State.ctx_setCtx (s : State) (j l : Nat) (x : TileState) : (s.setCtx j l x).ctx j l = x := by
  rw [State.ctx, State.livePhys_setCtx]
  unfold State.setCtx
  cases s.livePhys j l with
  | none => exact SMap.get_put_self _ _ _ _
  | some t => exact State.tile_setTile_self _ _ _

@[simp] theorem State.queue_setQueue (s : State) (j l q : Nat) (x : Queue) : (s.setQueue j l q x).queue j l q = x := by
  rw [State.queue, State.setQueue, State.ctx_setCtx]
  exact SMap.get_put_self _ _ _ _

@[simp] theorem State.reg_setQueue (s : State) (j l q : Nat) (x : Queue) (a : Nat) : (s.setQueue j l q x).reg a = s.reg a :=
  State.reg_setCtx s j l _ a

theorem State.same_setQueue {α : Type} (p : State → α) (ht : ∀ s t x, p (State.setTile s t x) = p s)
    (hs : ∀ (s : State) m, p { s with saved := m } = p s) (s : State) (j l q : Nat) (x : Queue) :
    p (s.setQueue j l q x) = p s := State.same_setCtx p ht hs s j l _

@[simp] theorem State.jobState_setQueue (s : State) (j l q k : Nat) (x : Queue) :
    (s.setQueue j l q x).jobState k = s.jobState k :=
  State.same_setQueue (fun s => s.jobState k) (fun _ _ _ => rfl) (fun _ _ => rfl) s j l q x

@[simp] theorem State.phys_setQueue (s : State) (j l q k : Nat) (x : Queue) : (s.setQueue j l q x).phys k = s.phys k :=
  State.same_setQueue (fun s => s.phys k) (fun _ _ _ => rfl) (fun _ _ => rfl) s j l q x

/-! ## Start, send and acceptance -/

theorem commandOk_accepts {c : List W64} {q l : Nat} {vs : SMap W64} {ch det : Bool} (h : commandOk c q l vs ch det = true) :
    accepts (cKind c) q = true := by
  simp only [commandOk, Bool.and_eq_true] at h
  exact h.1.1

theorem ne_kFOP_of_accepts {k q : Nat} (hq : q < 10) (h : accepts k q = true) : k ≠ kFOP := by
  rintro rfl
  have : accepts kFOP q = (q == 26) := by rfl
  rw [this, beq_iff_eq] at h
  omega

theorem State.not_domRefuses {s : State} {d : Nat} (h : s.domRuns d = true) : s.domRefuses d = false := by
  simp only [State.domRuns, beq_iff_eq] at h
  simp [State.domRefuses, h]

theorem State.mayStart_waits {s : State} {j l q : Nat} {c : List W64} (hq : q < 10) (hk : cKind c ≠ kVIEW)
    (h : (List.range 4).all (waitHolds (s.ctx j l) c) = false) : s.mayStart j l q c = false := by
  have hw : waitsHold (s.ctx j l) c = false := by simp [waitsHold, hk, h]
  simp [State.mayStart, isRemoteQ_of_lt hq, hw]

/-- The eight words of a VIEW stand in the view register it names, and no other view register changes. -/
theorem get_foldl_put (c : List W64) (m : SMap W64) (a k : Nat) : ∀ n,
    SMap.get 0#64 ((List.range n).foldl (fun m i => SMap.put 0#64 m (a + i) (cw c i)) m) k =
      if a ≤ k ∧ k < a + n then cw c (k - a) else SMap.get 0#64 m k
  | 0 => by rw [if_neg (by omega)]; rfl
  | n + 1 => by
    rw [List.range_succ, List.foldl_append, List.foldl_cons, List.foldl_nil, SMap.get_put, get_foldl_put c m a k n]
    by_cases hk : k = a + n
    · rw [if_pos hk, if_pos (by omega), hk, Nat.add_sub_cancel_left]
    · rw [if_neg hk]
      congr 1
      exact propext (by omega)

section
variable {s : State} {j l q : Nat} {c : List W64} {rest : List (List W64)}

theorem commandStart_tile (hx : (s.queue j l q).entries = c :: rest) (hq : q < 10) :
    s.startCommand j l q =
      if cKind c ≠ kVIEW ∧ s.mayStart j l q c = true then
        if commandOk c q l (s.queue j l q).views (s.queue j l q).chain (s.det j) = true then
          let r := (s.setQueue j l q ((s.queue j l q).start q c)).anvEvent (s.phys l) 7 1
          if cKind c = kFOP ∧ cf c 3 63 61 = 0 then r.bump (EQX_JOB_STATUS.OUT_READS j) 1 else r
        else (s.tileFault (s.phys l) q).fatalFault 5 (s.illegalRec j l q c)
      else s := by
  have hn : (s.queue j l q).next q = some c := by simp [Queue.next, isRemoteQ_of_lt hq, hx]
  simp [State.startCommand, isVq_of_lt hq, hn, State.granted]

theorem Queue.start_tile {x : Queue} (hx : x.entries = c :: rest) (hq : q < 10) : x.start q c =
    { x with entries := rest, flight := x.flight ++ [⟨c, x.views, .running, 0, none, 0⟩],
             chain := if cKind c = kMMUL then cf c 4 6 6 == 1 else if cKind c = kATT ∨ cKind c = kVOP then false else x.chain,
             started := x.started + 1#16 } := by
  simp [Queue.start, isRemoteQ_of_lt hq, hx]

theorem queueSend_runs (hx : (s.queue j l q).entries = c :: rest) (hq : isRemoteQ q = true) (hj : s.jobState j = jRUNNING)
    (hu : s.up = true) (hs : (s.queue j l q).sent = false) (hw : (s.queue j l q).waived = 0) :
    execQueueSend j l q s = if waitsHold (s.ctx j l) c = true then .next (s.setQueue j l q { s.queue j l q with sent := true })
      else .next s := by
  simp [execQueueSend, hx, hq, hj, hu, hs, hw]

theorem destAccept_runs (hx : (s.queue j l q).entries = c :: rest) (hq : isRemoteQ q = true) (hj : s.jobState j = jRUNNING)
    (hu : s.up = true) (hs : (s.queue j l q).sent = true) (hd : ∀ d ∈ destDoms q, s.domRuns d = true) :
    execDestAccept j l q s = if (s.queue j l q).held.length < 2 then
        let r := s.setQueue j l q { s.queue j l q with
          entries := rest, sent := false, held := (s.queue j l q).held ++ [c], started := (s.queue j l q).started + 1#16,
          waived := (s.queue j l q).waived - 1 }
        .next (if isVq q = true then r.noteDemandV (q - 10) j else r)
      else .next s := by
  have hr : (destDoms q).any s.domRefuses = false := by
    rw [List.any_eq_false]
    intro d hm
    rw [State.not_domRefuses (hd d hm)]
    exact Bool.false_ne_true
  have hw : (destDoms q).any (fun d => !s.domRuns d) = false := by
    rw [List.any_eq_false]
    intro d hm
    rw [hd d hm]
    exact Bool.false_ne_true
  simp [execDestAccept, hx, hq, hj, hu, hs, hr, hw]

/-- A legal VIEW at the head of its queue loads its register and reports DONE. -/
theorem view_loads (hn : (s.queue j l q).next q = some c) (hk : cKind c = kVIEW) (hj : s.jobState j = jRUNNING)
    (hu : s.up = true) (hh : (s.queue j l q).halted = false) (hc : s.channelOn l q = true)
    (hok : commandOk c q l (s.queue j l q).views (s.queue j l q).chain (s.det j) = true) :
    execView j l q s =
      let x := s.queue j l q
      let views := (List.range 8).foldl (fun m i => SMap.put 0#64 m (8 * cf c 0 51 48 + i) (cw c i)) x.views
      let r := (s.setQueue j l q (if isRemoteQ q = true then { x with held := x.held.drop 1, views := views }
        else { x with entries := x.entries.drop 1, started := x.started + 1#16, views := views })).anvEvent (s.phys l) 7 1
      .next ((if isVq q = true then r.vrgEvent (q - 10) 6 1 else r).reportCode j l q 0) := by
  simp only [execView, hn]
  rw [if_pos ⟨hk, hj, hu, by rw [hh]; rfl, hc⟩, if_pos hok]

end

/-- Settles O24. -/
theorem commandsStartInOrder : Obligations.CommandsStartInOrder := by
  constructor
  case left =>
    intro s j l q c rest x f chain hx
    refine ⟨fun hq hk hm hok => ?starts, fun hq hk hw => ?waits, fun h10 h26 hj hu hs hw => ?sends,
      fun hq hj hu hs hd => ?fabric, fun h10 h26 hj hu hs hm hi => ?stack⟩
    case starts =>
      have hfop : ¬ (cKind c = kFOP ∧ cf c 3 63 61 = 0) := fun h => ne_kFOP_of_accepts hq (commandOk_accepts hok) h.1
      refine congrArg Host.Outcome.next ((commandStart_tile hx hq).trans ?_)
      rw [if_pos ⟨hk, hm⟩, Queue.start_tile hx hq]
      exact (if_pos hok).trans (if_neg hfop)
    case waits =>
      refine congrArg Host.Outcome.next ((commandStart_tile hx hq).trans (if_neg fun h => ?_))
      rw [State.mayStart_waits hq hk hw] at h
      exact Bool.false_ne_true h.2
    case sends =>
      have he := queueSend_runs hx (isRemoteQ_of h10 h26) hj hu hs hw
      exact ⟨fun h => he.trans (if_pos h), fun h => he.trans (if_neg (by rw [h]; exact Bool.false_ne_true))⟩
    case fabric =>
      subst hq
      have he := destAccept_runs hx (by decide) hj hu hs (fun d hm => by
        rw [show destDoms 26 = [dXWE] from rfl, List.mem_singleton] at hm
        rw [hm]
        exact hd)
      exact ⟨fun h => he.trans (if_pos h), fun h => he.trans (if_neg (Nat.not_lt.2 h))⟩
    case stack =>
      have he := destAccept_runs hx (isRemoteQ_of h10 (by omega)) hj hu hs (fun d hd => by
        rw [destDoms, isVq_of h10 h26, if_pos rfl, List.mem_cons, List.mem_singleton] at hd
        rcases hd with rfl | rfl
        · exact hm
        · exact hi)
      simp only [isVq_of h10 h26, if_true] at he
      exact ⟨fun h => he.trans (if_pos h), fun h => he.trans (if_neg (Nat.not_lt.2 h))⟩
  case right =>
    intro s j l q c rest x v start hx h26 hk hj hu hh hen hok
    have hnext : (s.queue j l q).next q = some c := by
      by_cases hq : q < 10
      · rw [if_pos hq] at hx
        rw [Queue.next, isRemoteQ_of_lt hq, if_neg Bool.false_ne_true, hx]
        rfl
      · rw [if_neg hq] at hx
        rw [Queue.next, isRemoteQ_of (Nat.not_lt.1 hq) h26, if_pos rfl, hx]
        rfl
    have hon : s.channelOn l q = true := by
      rw [State.channelOn]
      by_cases hd : 2 ≤ q ∧ q < 10
      · rw [show s.flag (ANV_DMA_CTL.EN (s.phys l) (q - 2)) = true from hen hd.1 hd.2, Bool.or_true]
      · have : isDq q = false := by simpa [isDq] using hd
        rw [this]
        rfl
    refine ⟨_, fun k => get_foldl_put c x.views (8 * v) k 8, (view_loads hnext hk hj hu hh hon hok).trans ?_⟩
    by_cases hq : q < 10
    · rw [if_pos hq] at hx
      have hx : (s.queue j l q).entries = c :: rest := hx
      simp only [isRemoteQ_of_lt hq, isVq_of_lt hq, if_pos hq, hx, List.drop_one, List.tail_cons, if_false,
        Bool.false_eq_true]
      rfl
    · rw [if_neg hq] at hx
      have hx : (s.queue j l q).held = c :: rest := hx
      simp only [isRemoteQ_of (Nat.not_lt.1 hq) h26, if_neg hq, hx, List.drop_one, List.tail_cons, if_true]
      by_cases h : q < 26
      · rw [isVq_of (Nat.not_lt.1 hq) h, if_pos rfl, if_pos h]
        rfl
      · have : isVq q = false := by simp [isVq, h]
        rw [this, if_neg Bool.false_ne_true, if_neg h]
        rfl

end Sys2Proof.Machine

/-! PROOFS. Completion of commands, NOP and CFG (R243, R244, R272 - R277). -/

namespace Sys2Proof.Machine

/-! ## Contexts after register writes -/

/-- A tile context is found by the jobs' states and the tiles' numbers; what keeps these, the tiles and the saved contexts
keeps every context. -/
theorem State.ctx_congr {s t : State} {j l : Nat} (ht : t.tiles = s.tiles) (hv : t.saved = s.saved)
    (hj : t.jobState j = s.jobState j) (hp : t.physOf l = s.physOf l) : t.ctx j l = s.ctx j l := by
  unfold State.ctx State.livePhys State.tile
  rw [hj, hp, ht, hv]

/-- A field that lies neither in an identity register of a tile nor over STATE of a job's status. -/
def FRef.offPlace (r : FRef) : Prop :=
  r.hi < 64 ∧ r.lo ≤ r.hi ∧ r.off % 0x40000 ≠ 0 ∧ (r.off % 256 = 0x10 → r.hi < 61)

theorem State.jobState_setF_off (s : State) {r : FRef} (v : Nat) (h : r.offPlace) (j : Nat) :
    (s.setF r v).jobState j = s.jobState j := by
  obtain ⟨h1, h2, -, h4⟩ := h
  refine State.f_setF_other s r (EQX_JOB_STATUS.STATE j) v h1 h2 ?_
  simp only [EQX_JOB_STATUS.STATE, EQX_JOB_STATUS.at]
  omega

theorem State.physOf_setF_off (s : State) {r : FRef} (v : Nat) (h : r.offPlace) (l : Nat) :
    (s.setF r v).physOf l = s.physOf l := by
  obtain ⟨h1, h2, h3, -⟩ := h
  have hf (t : Nat) : (s.setF r v).f (ANV_ID.STATE t) = s.f (ANV_ID.STATE t) ∧
      (s.setF r v).f (ANV_ID.LOGICAL t) = s.f (ANV_ID.LOGICAL t) := by
    constructor <;> refine State.f_setF_other s r _ v h1 h2 (Or.inl ?_) <;>
      simp only [ANV_ID.STATE, ANV_ID.LOGICAL, ANV_ID.at] <;> omega
  unfold State.physOf
  simp only [hf]

theorem State.ctx_setF_off (s : State) {r : FRef} (v : Nat) (h : r.offPlace) (j l : Nat) :
    (s.setF r v).ctx j l = s.ctx j l :=
  State.ctx_congr rfl rfl (s.jobState_setF_off v h j) (s.physOf_setF_off v h l)

theorem State.queue_setF_off (s : State) {r : FRef} (v : Nat) (h : r.offPlace) (j l q : Nat) :
    (s.setF r v).queue j l q = s.queue j l q := by
  rw [State.queue, State.ctx_setF_off s v h, State.queue]

theorem State.queue_reported (s : State) {seq last : FRef} (code : Nat) (hs : seq.offPlace) (hl : last.offPlace) (j l q : Nat) :
    ((s.bump seq 1).setF last code).queue j l q = s.queue j l q := by
  rw [State.queue_setF_off _ _ hl, State.bump, State.queue_setF_off _ _ hs]

theorem State.queue_debitV (s : State) {n : Nat} (hn : n < 16) (j k l q beats : Nat) :
    (s.debitV n j beats).queue k l q = s.queue k l q := by
  have h1 : (EQX_JOB_WORK_V.WORK j).offPlace := by
    simp only [FRef.offPlace, EQX_JOB_WORK_V.WORK, EQX_JOB_WORK_V.at]
    omega
  have h2 : (EQX_JOB_BAL_V.BAL j n).offPlace := by
    simp only [FRef.offPlace, EQX_JOB_BAL_V.BAL, EQX_JOB_BAL_V.at]
    omega
  have h3 : (EQX_JOB_STATUS.V_ARREARS j).offPlace := by
    simp only [FRef.offPlace, EQX_JOB_STATUS.V_ARREARS, EQX_JOB_STATUS.at]
    omega
  unfold State.debitV
  rw [State.bump, State.queue_setF_off _ _ h1]
  unfold State.setBalV State.setSigned
  dsimp only
  rw [State.queue_setF_off _ _ h3, State.queue_setF_off _ _ h2]

/-- What a queue's engine reports with a command's code, for a running job (R277). -/
theorem State.reportCode_running {s : State} {j q : Nat} (l code : Nat) (hj : s.jobState j = jRUNNING) (hq : q < 26) :
    s.reportCode j l q code =
      if q = 0 then (s.bump (ANV_MXE_STATUS.CMD_SEQ (s.phys l)) 1).setF (ANV_MXE_STATUS.LAST_CODE (s.phys l)) code
      else if q = 1 then (s.bump (ANV_VXE_STATUS.CMD_SEQ (s.phys l)) 1).setF (ANV_VXE_STATUS.LAST_CODE (s.phys l)) code
      else if q < 10 then
        (s.bump (ANV_DMA_STATUS.CMD_SEQ (s.phys l) (q - 2)) 1).setF (ANV_DMA_STATUS.LAST_CODE (s.phys l) (q - 2)) code
      else (s.bump (VRG_STATUS.CMD_SEQ (q - 10)) 1).setF (VRG_STATUS.LAST_CODE (q - 10)) code := by
  have hl : decide (s.jobState j = jRUNNING) = true := decide_eq_true hj
  unfold State.reportCode
  dsimp only
  rw [hl]
  by_cases h0 : q = 0
  · rw [if_pos h0, if_pos h0, if_pos rfl]
  rw [if_neg h0, if_neg h0]
  by_cases h1 : q = 1
  · rw [if_pos h1, if_pos h1, if_pos rfl]
  rw [if_neg h1, if_neg h1]
  by_cases h10 : q < 10
  · rw [isDq_of (by omega) h10, if_pos rfl, if_pos rfl, if_pos h10]
  · rw [isDq_of_ge (Nat.not_lt.1 h10), if_neg Bool.false_ne_true, isVq_of (Nat.not_lt.1 h10) hq, if_pos rfl, if_neg h10]

/-- The report of a command changes no queue. -/
theorem State.queue_reportCode {s : State} {j q : Nat} (l code : Nat) (hj : s.jobState j = jRUNNING) (hq : q < 26) (k m p : Nat) :
    (s.reportCode j l q code).queue k m p = s.queue k m p := by
  have hplace {seq last : FRef} (hs : seq.offPlace) (hl : last.offPlace) :
      ((s.bump seq 1).setF last code).queue k m p = s.queue k m p := State.queue_reported s code hs hl k m p
  rw [State.reportCode_running l code hj hq]
  split
  · refine hplace ?_ ?_ <;> simp only [FRef.offPlace, ANV_MXE_STATUS.CMD_SEQ, ANV_MXE_STATUS.LAST_CODE, ANV_MXE_STATUS.at] <;> omega
  · split
    · refine hplace ?_ ?_ <;>
        simp only [FRef.offPlace, ANV_VXE_STATUS.CMD_SEQ, ANV_VXE_STATUS.LAST_CODE, ANV_VXE_STATUS.at] <;> omega
    · split
      · refine hplace ?_ ?_ <;>
          simp only [FRef.offPlace, ANV_DMA_STATUS.CMD_SEQ, ANV_DMA_STATUS.LAST_CODE, ANV_DMA_STATUS.at] <;> omega
      · refine hplace ?_ ?_ <;> simp only [FRef.offPlace, VRG_STATUS.CMD_SEQ, VRG_STATUS.LAST_CODE, VRG_STATUS.at] <;> omega

/-! ## Signals -/

theorem State.ctx_unpark (s : State) (i j l : Nat) : (s.unpark i).ctx j l = s.ctx j l := by
  unfold State.unpark
  split <;> rfl

theorem State.ctx_signal (s : State) (j l tok inc : Nat) : (s.signal j l tok inc).ctx j l = (s.ctx j l).signal tok inc := by
  rw [State.signal, State.ctx_unpark, State.ctx_setCtx]

/-- The increment of an active signal for a token, 0 where the signal is off or names another one. -/
def sigInc (on : Bool) (dst inc tok : Nat) : BitVec 16 := if on = true ∧ dst = tok then BitVec.ofNat 16 inc else 0#16

theorem State.tok_signal_if (s : State) (b : Bool) (j l dst inc tok : Nat) :
    SMap.get 0#16 ((if b = true then s.signal j l dst inc else s).ctx j l).tok tok =
      SMap.get 0#16 (s.ctx j l).tok tok + sigInc b dst inc tok := by
  cases b with
  | false => exact (BitVec.add_zero _).symm
  | true =>
    rw [if_pos rfl, State.ctx_signal, TileState.signal, SMap.get_put]
    by_cases h : dst = tok
    · rw [if_pos h.symm, sigInc, if_pos ⟨rfl, h⟩, h]
    · rw [if_neg (Ne.symm h), sigInc, if_neg (fun x => h x.2), BitVec.add_zero]

theorem State.queue_signal_if (s : State) (b : Bool) (j l dst inc q : Nat) :
    (if b = true then s.signal j l dst inc else s).queue j l q = s.queue j l q := by
  cases b with
  | false => rfl
  | true =>
    rw [if_pos rfl, State.queue, State.ctx_signal]
    rfl

theorem State.signalAll_eq (s : State) (j l : Nat) (c : List W64) : s.signalAll j l c =
    let r := if (cf c 0 52 52 == 1) = true then s.signal j l (cf c 0 31 24) (cf c 0 23 16) else s
    if (cf c 0 53 53 == 1) = true then r.signal j l (cf c 0 47 40) (cf c 0 39 32) else r := by
  simp only [State.signalAll, beq_iff_eq]

theorem State.tok_signalAll (s : State) (j l : Nat) (c : List W64) (tok : Nat) :
    SMap.get 0#16 ((s.signalAll j l c).ctx j l).tok tok = SMap.get 0#16 (s.ctx j l).tok tok +
      sigInc (cf c 0 52 52 == 1) (cf c 0 31 24) (cf c 0 23 16) tok +
      sigInc (cf c 0 53 53 == 1) (cf c 0 47 40) (cf c 0 39 32) tok := by
  rw [State.signalAll_eq]
  dsimp only
  rw [State.tok_signal_if, State.tok_signal_if]

theorem State.queue_signalAll (s : State) (j l : Nat) (c : List W64) (q : Nat) :
    (s.signalAll j l c).queue j l q = s.queue j l q := by
  rw [State.signalAll_eq]
  dsimp only
  rw [State.queue_signal_if, State.queue_signal_if]

/-! ## Completion -/

/-- Where the front of a queue was not given up, nothing is released. -/
theorem State.popReleased_held (s : State) (j l q n : Nat)
    (h : (s.queue j l q).flight.all (fun g => g.st == .running || g.st == .done) = true) : s.popReleased j l q n = s := by
  cases n with
  | zero => rfl
  | succ n =>
    unfold State.popReleased
    dsimp only
    cases hf : (s.queue j l q).flight with
    | nil => rfl
    | cons g rest =>
      rw [hf, List.all_cons, Bool.and_eq_true] at h
      dsimp only
      cases hg : g.st with
      | released sig => simp [hg] at h
      | _ => rfl

/-- A done command leaves its queue, is reported, and signals. -/
theorem commandCompletion_done {s : State} {j l q beats : Nat} {f : Flight} {rest : List Flight}
    (hx : (s.queue j l q).flight = f :: rest) (hd : f.st = .done) (hm : s.mayAct j q = true) :
    execCommandCompletion j l q beats s =
      let r := (s.setQueue j l q { s.queue j l q with flight := rest }).reportCode j l q f.code
      let r := if isVq q = true then r.debitV (q - 10) j beats else r
      .next ((r.signalAll j l f.cmd).popReleased j l q rest.length) := by
  unfold execCommandCompletion
  dsimp only
  rw [hx]
  dsimp only
  rw [if_pos ⟨hd, hm⟩]

theorem signals_held {r : State} {j l q : Nat} {c : List W64} {fs : List Flight} (n : Nat) (hq : (r.queue j l q).flight = fs)
    (h : fs.all (fun g => g.st == .running || g.st == .done) = true) :
    (r.signalAll j l c).popReleased j l q n = r.signalAll j l c :=
  State.popReleased_held _ j l q n (by rw [State.queue_signalAll, hq]; exact h)

/-! ## A running command's work -/

/-- A running command whose work ends is done, with the code and in the state that the work gives. -/
theorem runCommand_ok {s t : State} {j l q n code : Nat} {f : Flight} {p : List W64 → Bool} {work : Eng → Flight → EM Nat}
    (hm : s.mayAct j q = true) (hr : (s.queue j l q).running p = some (n, f)) (hn : isDq q = true → n = 0)
    (hp : (isVq q && s.plain (q - 10)) = false) (e : (work (engOf j l (s.phys l) q f.cmd) f).go s = (.ok code, t)) :
    runCommand j l q p work s = .next (t.setFlight j l q n { f with st := .done, code := code }) := by
  obtain ⟨c, u, h1, h2⟩ := runCommand_done (work := work) hm hr hn hp ⟨code, t, e⟩
  obtain ⟨h3, h4⟩ := Prod.mk.inj (h1.symm.trans e)
  rw [h2, Except.ok.inj h3, h4]

theorem cfgWrite_free (q : Nat) (old v m : W64) :
    cfgWrite q false old v m = (clampAhead q (maskBits old v (m &&& 0xFF80FF00#64)), false) := by
  have : m &&& cfgRwl ||| m &&& cfgRwb = m &&& 0xFF80FF00#64 := by
    rw [show cfgRwl = 0xFF800000#64 from rfl, show cfgRwb = 0xFF00#64 from rfl, ← BitVec.and_or_distrib_left]
    rfl
  simp [cfgWrite, this]

theorem cfgWrite_busy (q : Nat) (old v m : W64) :
    cfgWrite q true old v m = (clampAhead q (maskBits old v (m &&& 0xFF800000#64)), m &&& 0xFF00#64 != 0#64) := by
  simp [cfgWrite, show cfgRwl = 0xFF800000#64 from rfl, show cfgRwb = 0xFF00#64 from rfl]

theorem clampAhead_eq (q : Nat) (w : W64) : clampAhead q w =
    setFld w 15 8 (max (if q = 0 then 8 else if q = 1 then 4 else 2) (min (if q = 0 then 32 else 16) (fld w 15 8))) := by
  unfold clampAhead
  by_cases h0 : q = 0
  · simp [h0]
  · by_cases h1 : q = 1 <;> simp [h0, h1]

/-- A started CFG writes its register as cfgWrite gives it, and shows what it discarded (R272 - R274). -/
theorem cfg_runs {s : State} {j l q n : Nat} {f : Flight} {w : W64} {rej : Bool} (hm : s.mayAct j q = true)
    (hr : (s.queue j l q).running (fun c => cKind c == kCFG) = some (n, f)) (hn : isDq q = true → n = 0)
    (hp : (isVq q && s.plain (q - 10)) = false)
    (hw : cfgWrite q (s.cfgBusy j l q) (s.reg (s.cfgOff j l q)) (cw f.cmd 3) (cw f.cmd 4) = (w, rej)) :
    let r := s.setReg (s.cfgOff j l q) w
    execCfg j l q s = .next ((if rej = true then r.setReject (r.phys l) q else r).setFlight j l q n
      { f with st := .done, code := if rej = true then 3 else 0 }) := by
  refine runCommand_ok hm hr hn hp (EM.go_bind_ok (EM.go_get s) ?_)
  dsimp only
  rw [hw]
  rfl

/-- Settles O25. -/
theorem completionSignals : Obligations.CompletionSignals := by
  constructor
  case left =>
    intro s j l q beats f rest x
    refine ⟨fun c tok => ?tokens, fun hx hd => ?undone, fun hx hd hall hm hj hq => ?done⟩
    case tokens => simpa [sigInc] using State.tok_signalAll s j l c tok
    case undone =>
      show execCommandCompletion j l q beats s = _
      unfold execCommandCompletion
      dsimp only
      rw [show (s.queue j l q).flight = f :: rest from hx]
      exact if_neg fun h => hd h.1
    case done =>
      refine (commandCompletion_done hx hd hm).trans ?_
      let r := s.setQueue j l q { x with flight := rest }
      have hj' : r.jobState j = jRUNNING := (State.jobState_setQueue s j l q j _).trans hj
      have hr : (r.reportCode j l q f.code).queue j l q = { x with flight := rest } := by
        rw [State.queue_reportCode l f.code hj' hq]
        exact State.queue_setQueue s j l q _
      have hp : r.phys l = s.phys l := State.phys_setQueue s j l q l _
      refine congrArg Host.Outcome.next ?_
      by_cases h10 : q < 10
      · rw [isVq_of_lt h10, if_neg Bool.false_ne_true]
        refine (signals_held rest.length (congrArg Queue.flight hr) hall).trans ?_
        rw [State.reportCode_running l f.code hj' hq, hp]
        simp only [if_pos h10]
        by_cases h0 : q = 0
        · simp only [if_pos h0]
          rfl
        · by_cases h1 : q = 1
          · simp only [if_neg h0, if_pos h1]
            rfl
          · simp only [if_neg h0, if_neg h1]
            rfl
      · rw [isVq_of (Nat.not_lt.1 h10) hq, if_pos rfl]
        refine (signals_held rest.length ?_ hall).trans ?_
        · rw [State.queue_debitV _ (by omega), hr]
        · rw [State.reportCode_running l f.code hj' hq, if_neg (by omega), if_neg (by omega), if_neg h10,
            if_neg (by omega), if_neg (by omega), if_neg h10]
  case right =>
    intro s j l q n f x done may off mask merged
    have plain (hmay : may) : (isVq q && s.plain (q - 10)) = false := by
      by_cases h : isVq q = true
      · simp only [isVq, Bool.and_eq_true, decide_eq_true_eq] at h
        rw [hmay.2.1 h.1 h.2, Bool.and_false]
      · rw [Bool.not_eq_true] at h
        rw [h, Bool.false_and]
    have oldest (hmay : may) : isDq q = true → n = 0 := fun h => by
      simp only [isDq, Bool.and_eq_true, decide_eq_true_eq] at h
      exact hmay.2.2 h.1 h.2
    have hmerged (m : W64) : clampAhead q (maskBits (s.reg off) (cw f.cmd 3) m) = merged m := clampAhead_eq q _
    refine ⟨fun hmay hr => runCommand_ok (work := fun _ _ => pure 0) hmay.1 hr (oldest hmay)
      (plain hmay) (EM.go_pure 0 s), fun hmay hr =>
      ⟨fun hb => ?free, fun hb hz => ?busy, fun hb hz => ?rejects⟩⟩
    case free =>
      have hw : cfgWrite q (s.cfgBusy j l q) (s.reg off) (cw f.cmd 3) mask = (merged (mask &&& 0xFF80FF00#64), false) := by
        rw [hb, cfgWrite_free, hmerged]
      refine (cfg_runs hmay.1 hr (oldest hmay) (plain hmay) hw).trans ?_
      simp only [Bool.false_eq_true, if_false]
      rfl
    case busy =>
      have hw : cfgWrite q (s.cfgBusy j l q) (s.reg off) (cw f.cmd 3) mask = (merged (mask &&& 0xFF800000#64), false) := by
        rw [hb, cfgWrite_busy, hmerged, hz]
        rfl
      refine (cfg_runs hmay.1 hr (oldest hmay) (plain hmay) hw).trans ?_
      simp only [Bool.false_eq_true, if_false]
      rfl
    case rejects =>
      have hw : cfgWrite q (s.cfgBusy j l q) (s.reg off) (cw f.cmd 3) mask = (merged (mask &&& 0xFF800000#64), true) := by
        rw [hb, cfgWrite_busy, hmerged, bne_iff_ne.2 hz]
      exact cfg_runs hmay.1 hr (oldest hmay) (plain hmay) hw

end Sys2Proof.Machine

/-! PROOFS. The engines of the tiles and the stacks run their commands (R158, R191 - R222, R227, R232, R237, R243, R257 - R263). -/

namespace Sys2Proof.Machine

/-! ## The row of an engine's command -/

section
variable {s : State} {j l q n : Nat} {f : Flight} {p : List W64 → Bool} {work : Eng → Flight → EM Nat}

/-- runCommand where the engine acts on a running command: its work runs, and how it ends says what becomes of it. -/
theorem runCommand_runs (hm : s.mayAct j q = true) (hr : (s.queue j l q).running p = some (n, f))
    (hn : isDq q = true → n = 0) :
    runCommand j l q p work s =
      match (if (isVq q && s.plain (q - 10)) = true then throw (.halt ⟨5, 0, 0, 0, 255⟩)
        else work (engOf j l (s.phys l) q f.cmd) f : EM Nat).go s with
      | (.ok code, s') => .next (s'.setFlight j l q n (f.finish code))
      | (.error (.halt h), s') => .next (s'.setFlight j l q n { f with fault := some h })
      | (.error (.fatal c r), s') => .next ((s'.tileFault (s'.phys l) q).fatalFault c r)
      | (.error (.bus a), s') => .next (s'.setFlight j l q n { f with fault := some ⟨3, 0, 0, a, 255⟩ })
      | (.error (.poison a), s') => .next (s'.setFlight j l q n { f with fault := some ⟨1, 0, 0, a, 255⟩ })
      | (.error (.seg a), s') => .next ((s'.tileFault (s'.phys l) q).fatalFault 2
          ((engOf j l (s'.phys l) q f.cmd).faultRec 1 (a % 2 ^ 48)))
      | (.error .wait, _) => .next s := by
  have hf : Option.filter (fun r : Nat × Flight => !isDq q || r.1 == 0) (some (n, f)) = some (n, f) := by
    rw [Option.filter_some]
    refine if_pos ?_
    cases hq : isDq q with
    | false => rfl
    | true => rw [hn hq]; rfl
  unfold runCommand
  rw [if_pos hm, hr, hf] <;> rfl

variable (hm : s.mayAct j q = true) (hr : (s.queue j l q).running p = some (n, f)) (hn : isDq q = true → n = 0)
  (hp : (isVq q && s.plain (q - 10)) = false)
include hm hr hn hp

/-- A command whose work ends in a code or in a fault that halts is marked so, in the state that the work has left. -/
theorem runCommand_worked {r : State}
    (h : State.worked j l q n f ((work (engOf j l (s.phys l) q f.cmd) f).go s) = some r) :
    runCommand j l q p work s = .next r := by
  rw [runCommand_runs hm hr hn, hp, if_neg Bool.false_ne_true]
  rcases e : (work (engOf j l (s.phys l) q f.cmd) f).go s with ⟨x, t⟩
  rw [e] at h
  cases x with
  | ok code => exact congrArg Host.Outcome.next (Option.some.inj h)
  | error stop =>
    cases stop with
    | halt | bus | poison => exact congrArg Host.Outcome.next (Option.some.inj h)
    | fatal | seg | wait => exact absurd h (Option.some_ne_none r).symm

/-- A command whose work ends in a fatal fault starts a compute reset. -/
theorem runCommand_fatal {c : Nat} {g : ErqRec} {t : State}
    (h : (work (engOf j l (s.phys l) q f.cmd) f).go s = (.error (.fatal c g), t)) :
    runCommand j l q p work s = .next ((t.tileFault (t.phys l) q).fatalFault c g) := by
  rw [runCommand_runs hm hr hn, hp, if_neg Bool.false_ne_true, h]

/-- What an engine's row does with its command, for a row that ends what runCommand leaves. -/
theorem row_runs {i : Instr} {after : State → State} {ready : Prop}
    (hi : ∀ t, runCommand j l q p work s = .next t → exec i s = .next (after t))
    (hd : ready → (work (engOf j l (s.phys l) q f.cmd) f).Done s) (r : State) :
    let e := engOf j l (s.phys l) q f.cmd
    (ready → ∃ code t, (work e f).go s = (.ok code, t) ∧
      exec i s = .next (after (t.setFlight j l q n { f with st := .done, code := code }))) ∧
    (State.worked j l q n f ((work e f).go s) = some r → exec i s = .next (after r)) ∧
    (∀ c g s', (work e f).go s = (.error (.fatal c g), s') →
      exec i s = .next (after ((s'.tileFault (s'.phys l) q).fatalFault c g))) := by
  refine ⟨fun h => ?_, fun h => hi _ (runCommand_worked hm hr hn hp h), fun c g t h => hi _ (runCommand_fatal hm hr hn hp h)⟩
  obtain ⟨code, t, e, he⟩ := runCommand_done hm hr hn hp (hd h)
  exact ⟨code, t, e, hi _ he⟩

end

/-! ## The engines of a tile -/

/-- A parity error of the vector engine is a fatal fault of its tile (R158). -/
theorem parity_fatal {s : State} {j l q n : Nat} {f : Flight} {p : List W64 → Bool} {work : Eng → Flight → EM Nat}
    {i : Instr} {after : State → State} (hq : q < 2)
    (hi : ∀ t, runCommand j l q p (fun e f => if true then vxeUe l else work e f) s = .next t → exec i s = .next (after t))
    (hm : s.mayAct j q = true) (hr : (s.queue j l q).running p = some (n, f)) :
    let u := s.anvUe (s.phys l) .vxe 3 0
    exec i s = .next (after ((u.tileFault (u.phys l) q).fatalFault 4 (u.anvRec (s.phys l)))) :=
  hi _ (runCommand_fatal hm hr (fun h => by rw [isDq_of_lt hq] at h; exact absurd h Bool.false_ne_true)
    (by rw [isVq_of_lt (by omega), Bool.false_and]) rfl)

theorem execAtt_next {s t : State} {j l : Nat} {par : Bool}
    (h : runCommand j l 0 (fun c => cKind c == kATT) (fun e f => if par then vxeUe l else attWork e f) s = .next t) :
    exec (.att j l par) s = .next (t.attHalt j l) := by
  show execAtt j l par s = _
  rw [execAtt, h]

/-- Settles O26; that the queue of an ATT that R497 halts is halted with it is the model's choice (log entry 34). -/
theorem tileEnginesRunTheirCommand : Obligations.TileEnginesRunTheirCommand := by
  intro s r j l ch n lo hi ro rhi f sv dv planes runs parity copies
  have tile {q : Nat} (h : q < 2) : isDq q = true → n = 0 := fun hd => by
    rw [isDq_of_lt h] at hd
    exact absurd hd Bool.false_ne_true
  have calm {q : Nat} (h : q < 10) : (isVq q && s.plain (q - 10)) = false := by rw [isVq_of_lt h, Bool.false_and]
  have copy {i : Instr} {m : Nat} {work : Eng → Flight → EM Nat} {ready : Eng → Prop}
      (hi : exec i s = runDcopy j l ch m work s) (hd : ∀ e, ready e → (work e f).Done s) : copies i m work ready :=
    fun hch hen hm hr hn => row_runs hm hr (fun _ => hn (by omega)) (calm (by omega))
      (fun t h => hi.trans ((if_pos hen).trans h)) (hd _) r
  refine ⟨?mmul, ?att, ?vop, ?attParity, ?vopParity, ?copy, ?planeSplit, ?planeMerge, ?gather, ?scatter, ?scatterAcc, ?list⟩
  case mmul =>
    exact fun hm hr hn => row_runs (i := .mmul j l) (work := mmulWork j l) (after := id) hm hr (tile (by decide))
      (calm (by decide)) (fun _ h => h) mmulWork_done r
  case att =>
    exact fun hm hr hn => row_runs (i := .att j l false) (work := attWork) hm hr (tile (by decide)) (calm (by decide))
      (fun _ h => execAtt_next h) (fun h => (attWork_ends h).done (Kept.refl s)) r
  case vop =>
    exact fun hm hr hn => row_runs (i := .vop j l false) (work := vecWork .vxe (fun _ => 256)) (after := id) hm hr
      (tile (by decide)) (calm (by decide)) (fun _ h => h) (fun h => (vecWork_ends h).done (Kept.refl s)) r
  case attParity => exact parity_fatal (i := .att j l true) (work := attWork) (by decide) (fun _ h => execAtt_next h)
  case vopParity =>
    exact parity_fatal (i := .vop j l true) (work := vecWork .vxe (fun _ => 256)) (after := id) (by decide) (fun _ h => h)
  case copy => exact copy (work := copyWork noLimit) rfl fun e h => (moveWork_ends h).done (Kept.refl s)
  case planeSplit => exact copy (work := planeSplitWork noLimit) rfl fun e h => (moveWork_ends h).done (Kept.refl s)
  case planeMerge => exact copy (work := planeMergeWork noLimit) rfl fun e h => (moveWork_ends h).done (Kept.refl s)
  case gather =>
    exact copy (work := fun e f => gatherWork noLimit e (dmaIdx f)) rfl fun e h => (gatherWork_ends h).done (Kept.refl s)
  case scatter =>
    exact copy (work := fun e f => scatterWork noLimit e (dmaIdx f)) rfl fun e h => (scatterWork_ends h).done (Kept.refl s)
  case scatterAcc =>
    exact copy (work := fun e f => accWork noLimit e (dmaIdx f)) rfl fun e h => (accWork_ends h).done (Kept.refl s)
  case list => exact copy (work := listWork noLimit) rfl fun e h => listWork_done h

/-! ## The engine of a stack -/

/-- A plain or retired engine halts every command with NO_ENGINE (R222). -/
theorem runCommand_plain {s : State} {j l q n : Nat} {f : Flight} {p : List W64 → Bool} {work : Eng → Flight → EM Nat}
    (hm : s.mayAct j q = true) (hr : (s.queue j l q).running p = some (n, f)) (hn : isDq q = true → n = 0)
    (hp : (isVq q && s.plain (q - 10)) = true) :
    runCommand j l q p work s = .next (s.setFlight j l q n { f with fault := some ⟨5, 0, 0, 0, 255⟩ }) := by
  rw [runCommand_runs hm hr hn, if_pos hp]
  rfl

section
variable {s : State} {j l k n : Nat} {f : Flight} {p : List W64 → Bool} {work : Eng → Flight → EM Nat}

theorem runVirga_error (hp : s.plain k = false) {ue : Nat} (h2 : 2 ≤ ue) (h7 : ue ≤ 7) :
    runVirga j l k p (some ue) work s = .next ((s.vrgBit k ue).vrgFault k) := by
  unfold runVirga
  dsimp only
  rw [if_neg (by rw [hp]; simp; omega), if_neg (by omega), State.vrgUe, if_neg (by omega)]

theorem runVirga_corrected (hp : s.plain k = false) :
    runVirga j l k p (some 1) work s = runVirga j l k p none work ((s.vrgUe k 1).vrgEvent k 14 1) := by
  unfold runVirga
  dsimp only
  rw [if_neg (by rw [hp]; simp), if_pos rfl]

/-- A row of a stack's engine: errors of the engine, and its command where none occurs. -/
theorem virga_runs {row : Option Nat → Instr} {ready : Prop} (r : State)
    (hi : ∀ ue s, exec (row ue) s = runVirga j l k p ue work s)
    (hd : ready → (work (engOf j l (s.phys l) (10 + k) f.cmd) f).Done s) (hk : k < 16) :
    let q := 10 + k
    let e := engOf j l (s.phys l) q f.cmd
    let i := row none
    (s.plain k = false →
      (∀ ue, 2 ≤ ue → ue ≤ 7 → exec (row (some ue)) s = .next ((s.vrgBit k ue).vrgFault k)) ∧
      exec (row (some 1)) s = exec i ((s.vrgUe k 1).vrgEvent k 14 1)) ∧
    (s.mayAct j q = true → (s.queue j l q).running p = some (n, f) →
      (s.plain k = false → ready → ∃ code t, (work e f).go s = (.ok code, t) ∧
        exec i s = .next (t.setFlight j l q n { f with st := .done, code := code })) ∧
      (s.plain k = false → State.worked j l q n f ((work e f).go s) = some r → exec i s = .next r) ∧
      (s.plain k = true → exec i s = .next (s.setFlight j l q n { f with fault := some ⟨5, 0, 0, 0, 255⟩ })) ∧
      (∀ c g s', s.plain k = false → (work e f).go s = (.error (.fatal c g), s') → exec i s = .next (s'.fatalFault c g))) := by
  have hq : isVq (10 + k) = true := isVq_of (by omega) (by omega)
  have hn : isDq (10 + k) = true → n = 0 := fun h => by
    rw [isDq_of_ge (by omega)] at h
    exact absurd h Bool.false_ne_true
  have hplain : (isVq (10 + k) && s.plain (10 + k - 10)) = s.plain k := by
    rw [hq, Bool.true_and, Nat.add_sub_cancel_left]
  refine ⟨fun hp => ⟨fun ue h2 h7 => (hi _ _).trans (runVirga_error hp h2 h7),
    (hi _ _).trans ((runVirga_corrected hp).trans (hi _ _).symm)⟩, fun hm hr => ?_⟩
  have runs (hp : s.plain k = false) := row_runs (after := id) hm hr hn (hplain.trans hp)
    (fun t h => (hi none s).trans h) hd r
  refine ⟨fun hp => (runs hp).1, fun hp => (runs hp).2.1,
    fun hp => (hi none s).trans (runCommand_plain hm hr hn (hplain.trans hp)), fun c g t hp h => ?_⟩
  refine ((runs hp).2.2 c g t h).trans ?_
  rw [State.tileFault, if_neg (by omega)]
  rfl

end

/-- Settles O27. -/
theorem virgaEnginesRunTheirCommand : Obligations.VirgaEnginesRunTheirCommand := by
  intro s r j l k n lo hi ro rhi f q e at_ ix runs
  have z := Kept.refl s
  refine ⟨?vmv, ?vatt, ?vkva, ?vew, ?gather, ?scatter, ?scatterAcc, ?vamo, ?clear, ?finalise, ?save, ?load, ?combine⟩
  case vmv => exact virga_runs (work := vmvWork k) r (fun _ _ => rfl) fun h => (vmvWork_ends h).done z
  case vatt => exact virga_runs (work := vattWork k) r (fun _ _ => rfl) vattWork_done
  case vkva => exact virga_runs (work := vkvaWork k) r (fun _ _ => rfl) vkvaWork_done
  case vew => exact virga_runs (work := vewWork k) r (fun _ _ => rfl) fun h => (vewWork_ends h.1 h.2).done z
  case gather =>
    exact virga_runs (work := vgsGatherWork k) r (fun _ _ => rfl) fun ⟨h1, h2, h3, h⟩ => (vgsGatherWork_ends h1 h2 h3 h).done z
  case scatter =>
    exact virga_runs (work := vgsScatterWork k) r (fun _ _ => rfl) fun ⟨h1, h2, h3, h⟩ => (vgsScatterWork_ends h1 h2 h3 h).done z
  case scatterAcc =>
    exact virga_runs (work := vgsAccWork k) r (fun _ _ => rfl) fun ⟨h1, h2, h⟩ => (vgsAccWork_ends h1 h2 h).done z
  case vamo => exact virga_runs (work := vamoWork k) r (fun _ _ => rfl) fun h => (vamoWork_ends h).done z
  case clear => exact virga_runs (work := slotClearWork k) r (fun _ _ => rfl) fun h => (slotClearWork_ends h).done z
  case finalise =>
    exact virga_runs (work := slotFinaliseWork k) r (fun _ _ => rfl) fun h => (slotFinaliseWork_ends h.1 h.2).done z
  case save => exact virga_runs (work := slotSaveWork k) r (fun _ _ => rfl) fun h => (slotSaveWork_ends h.1 h.2).done z
  case load => exact virga_runs (work := slotLoadWork k) r (fun _ _ => rfl) fun h => (slotLoadWork_ends h.1 h.2).done z
  case combine =>
    exact virga_runs (work := slotCombineWork k) r (fun _ _ => rfl) fun h => (slotCombineWork_ends h.1 h.2).done z

end Sys2Proof.Machine

/-! PROOFS. FOPs (R21, R669 - R674), halts of queues, RESUME and RETRY (R218 - R220, R450 - R455, R674, R675). -/

namespace Sys2Proof.Machine

/-! ## Preparing and running an FOP -/

theorem Queue.freshFop_op {x : Queue} {op n : Nat} {f : Flight} (h : x.freshFop op = some (n, f)) :
    cf f.cmd 3 63 61 = op := by
  simp only [Queue.freshFop, Option.map_eq_some_iff, Prod.mk.injEq] at h
  obtain ⟨a, ha, -, rfl⟩ := h
  have := List.find?_some ha
  simp only [Bool.and_eq_true, beq_iff_eq] at this
  exact this.2

theorem readCodes_ends {s : State} {e : Eng} {v : View} {lo hi : Nat} (hc : s.calm e.who false lo hi = true)
    (hw : v.within v.fmt.bits lo hi v.cells = true) : (readCodes e v).Ends (Kept s) (fun _ => True) :=
  (EM.ends_mapM (Q := fun _ => True) _ fun _ hi => (e.at_ends 0 _ (readCode_ends hc
    (View.within_at hw (mem_cells (List.mem_range.1 hi))))).bind fun _ _ => EM.ends_pure trivial).weaken fun _ _ => trivial

/-- An FOP to a node that is reached is prepared: a READ or a SIGNAL always, any other where its view can be read. -/
theorem fopPrepare_done {s : State} {e : Eng} {f : Flight} {lo hi : Nat} (hd : cf f.cmd 3 56 42 ≠ 0x7FFF)
    (hn : s.routes (cf f.cmd 3 56 42) ≠ [])
    (hr : cf f.cmd 3 63 61 = 0 ∨ cf f.cmd 3 63 61 = 3 ∨ (s.calm e.who false lo hi = true ∧
      (vOf f.cmd f.views 3 60 57).within (vOf f.cmd f.views 3 60 57).fmt.bits lo hi (vOf f.cmd f.views 3 60 57).cells = true)) :
    (fopPrepare e f).Done s := by
  refine EM.Done.of_bind (EM.go_get s) ?_
  dsimp only
  rw [if_neg (show ¬ (s.fopHeader _ f.cmd _).dst = 0x7FFF from hd), if_neg fun h => hn (List.isEmpty_iff.1 h.2)]
  by_cases h3 : cf f.cmd 3 63 61 = 3
  · rw [if_pos (show (s.fopHeader _ f.cmd _).op = 3 from h3)]
    exact EM.done_pure _
  rw [if_neg (show ¬ (s.fopHeader _ f.cmd _).op = 3 from h3)]
  by_cases h0 : cf f.cmd 3 63 61 = 0
  · rw [if_pos (show (s.fopHeader _ f.cmd _).op = 0 from h0)]
    exact EM.done_pure _
  rw [if_neg (show ¬ (s.fopHeader _ f.cmd _).op = 0 from h0)]
  obtain ⟨hc, hw⟩ := (hr.resolve_left h0).resolve_left h3
  obtain ⟨codes, t, e', -⟩ := readCodes_ends hc hw s (Kept.refl s)
  exact EM.Done.of_bind (EM.go_tryCatch_ok e') (EM.done_pure _)

section
variable {s s1 s2 : State} {j l n op : Nat} {f : Flight} {fs : List Frame} (hm : s.mayAct j 26 = true) (hx : s.xwfEn = true)
  (hf : (s.queue j l 26).freshFop op = some (n, f))
include hm hx hf

/-- A prepared FOP to another node hands its frames to the endpoint. -/
theorem runFop_issues (ho : cf f.cmd 3 56 42 ≠ s.node) (hp : (fopPrepare (engOf j l (s.phys l) 26 f.cmd) f).go s = (.ok fs, s1)) :
    runFop j l op s = .next (s1.issueFop j l n f fs) := by
  unfold runFop
  rw [if_pos ⟨hm, hx⟩, hf]
  simp only [beq_eq_false_iff_ne.2 ho, Bool.false_eq_true, if_false]
  rw [EM.go_bind_ok hp (EM.go_pure fs s1)]

/-- An FOP to the own node is served at once (R21). -/
theorem runFop_serves (ho : cf f.cmd 3 56 42 = s.node) (hp : (fopPrepare (engOf j l (s.phys l) 26 f.cmd) f).go s = (.ok fs, s1))
    (hs : (serveOwn (engOf j l (s.phys l) 26 f.cmd) (vOf f.cmd f.views 3 60 57) (cf f.cmd 4 47 0) fs).go s1 = (.ok (), s2)) :
    runFop j l op s = .next ((s2.setFlight j l 26 n (f.finish 0)).readEnded j op) := by
  unfold runFop
  rw [if_pos ⟨hm, hx⟩, hf]
  simp only [beq_iff_eq.2 ho, if_true]
  rw [EM.go_bind_ok hp (EM.go_bind_ok hs (EM.go_pure fs s2))]

/-- An FOP that cannot be prepared meets its fault. -/
theorem runFop_halts {h : HaltRec} (hp : (fopPrepare (engOf j l (s.phys l) 26 f.cmd) f).go s = (.error (.halt h), s1)) :
    runFop j l op s = .next ((s1.setFlight j l 26 n { f with fault := some h }).readEnded j op) := by
  unfold runFop
  rw [if_pos ⟨hm, hx⟩, hf]
  dsimp only
  rw [EM.go_bind, hp]

end

/-- Settles O28; that an FOP to the own node has its effect at once is the model's choice (log entry 38). -/
theorem fabricCommandsRun : Obligations.FabricCommandsRun := by
  intro s s1 s2 j l n op lo hi f fs h i hi' e own lv ready hm hen hdom hf
  have hrow : exec i s = runFop j l op s := by
    simp only [List.mem_cons, Prod.mk.injEq, List.not_mem_nil, or_false] at hi'
    rcases hi' with ⟨rfl, rfl⟩ | ⟨rfl, rfl⟩ | ⟨rfl, rfl⟩ | ⟨rfl, rfl⟩ | ⟨rfl, rfl⟩ <;> rfl
  have hx : s.xwfEn = true := by rw [State.xwfEn, hen, hdom]; rfl
  refine ⟨fun ho hd hr hready => ?reached, fun ho hp => hrow.trans (runFop_issues hm hx hf ho hp),
    fun ho hp hs => hrow.trans (runFop_serves hm hx hf ho hp hs), fun hp => hrow.trans (runFop_halts hm hx hf hp)⟩
  obtain ⟨gs, t, hp⟩ := fopPrepare_done (e := e) hd hr (by rw [Queue.freshFop_op hf]; exact hready)
  exact ⟨gs, t, hp, hrow.trans (runFop_issues hm hx hf ho hp)⟩

/-! ## Halts -/

/-- A job number, no job of the model's 64, whose status register is the halt latch of tile 1 at stack 0: its offset,
0x101010 + 0x100 j, is that of VRG_HALT_INFO. -/
def farJob : Nat := 0x2F030

/-- A command of stack 0 that met a fault at address 8. -/
def faultedFlight : Flight := ⟨[], [], .running, 0, some ⟨2, 0, 0, 8, 255⟩, 0⟩

/-- Job farJob reads as running, by bits that are SKIP_SIGNAL and RESUME of the halt latch of tile 1 at stack 0; its logical
tile 1 is physical tile 1, and its queue 10 holds a faulted command. -/
def clashState : State :=
  let s := (State.reset.setF (EQX_JOB_STATUS.STATE farJob) jRUNNING).setReg (ANV_ID.at 1) (setFld 0#64 15 8 1)
  s.setTile 1 (TileState.zero.setQueue 10 { Queue.empty with flight := [faultedFlight] })

/-- VRG_HALT_ADDR of tile 1 at stack 0 in the state that a step answers. -/
def haltAddrOf : Host.Outcome State Fault Refusal → W64
  | .next s => s.reg (VRG_HALT_ADDR.at 0 1)
  | _ => 0#64

theorem clash_meets : clashState.mayAct farJob 10 = true ∧ clashState.jobState farJob = jRUNNING ∧ clashState.physOf 1 = some 1 ∧
    (clashState.queue farJob 1 10).faulted = some (0, faultedFlight, ⟨2, 0, 0, 8, 255⟩) ∧
    clashState.flag (VRG_HALT_INFO.VALID 0 1) = false := by decide +kernel

theorem clash_halts : haltAddrOf (exec (.vrgHalt farJob 1 0) clashState) = 0#64 := by decide +kernel

/-- Refutes O29: nothing bounds the job, and the status register of job 0x2F030 has the offset of the halt latch of tile 1
at stack 0. Latching the halt then takes the job out of RUNNING before the halt's address is latched, so the address goes to
the saved state and not to VRG_HALT_ADDR. -/
theorem not_faultsHaltTheirQueue : ¬ Obligations.FaultsHaltTheirQueue := by
  intro h
  obtain ⟨hm, hj, hp, hf, hv⟩ := clash_meets
  have h1 := (h clashState farJob 1 0 0 1 0 faultedFlight ⟨2, 0, 0, 8, 255⟩).1 (by decide) ⟨hm, hj, hp, hf, by decide⟩ hv
  have h2 := clash_halts.symm.trans (congrArg haltAddrOf h1)
  revert h2
  decide +kernel

/-! ## RESUME, RETRY and DISABLED -/

/-- A flag written changes no field of other bits, whichever register holds it. -/
theorem State.f_setFlag_apart (s : State) {a h1 l1 c h2 l2 : Nat} (b : Bool) (h : h1 < 64 ∧ l1 ≤ h1 ∧ (h2 < l1 ∨ h1 < l2)) :
    (s.setFlag ⟨a, h1, l1⟩ b).f ⟨c, h2, l2⟩ = s.f ⟨c, h2, l2⟩ :=
  State.f_setF_other s _ _ _ h.1 h.2.1 (Or.inr h.2.2)

theorem State.flag_setFlag_apart (s : State) {a h1 l1 c h2 l2 : Nat} (b : Bool) (h : h1 < 64 ∧ l1 ≤ h1 ∧ (h2 < l1 ∨ h1 < l2)) :
    (s.setFlag ⟨a, h1, l1⟩ b).flag ⟨c, h2, l2⟩ = s.flag ⟨c, h2, l2⟩ := by
  rw [State.flag, State.f_setFlag_apart s b h, State.flag]

/-- A flag written in another register changes no field. -/
theorem State.f_setFlag_away (s : State) {r q : FRef} (b : Bool) (h : q.off ≠ r.off) : (s.setFlag r b).f q = s.f q := by
  rw [State.f, State.setFlag, State.setF, State.reg_setReg, if_neg h, State.f]

theorem State.flag_setFlag_away (s : State) {r q : FRef} (b : Bool) (h : q.off ≠ r.off) : (s.setFlag r b).flag q = s.flag q := by
  rw [State.flag, State.f_setFlag_away s b h, State.flag]

/-- A tile's job and logical number are read from its identity register. -/
theorem State.owner_setFlag (s : State) {r : FRef} (b : Bool) (t : Nat) (h : r.off % 0x40000 ≠ 0) :
    (s.setFlag r b).jobOf t = s.jobOf t ∧ (s.setFlag r b).ltile t = s.ltile t := by
  have ho : ANV_ID.at t ≠ r.off := by
    simp only [ANV_ID.at]
    omega
  exact ⟨State.f_setFlag_away s b ho, State.f_setFlag_away s b ho⟩

section
variable (s : State) {n t ch : Nat} (skip : Bool)

theorem vrgResume_eq (hn : n < 16) (ht : t < 200) :
    s.vrgResume n t true skip =
      let r := s.setFlag (VRG_HALT_INFO.SKIP_SIGNAL n t) skip
      if s.flag (VRG_HALT_INFO.VALID n t) = true then
        (r.setFlag (VRG_HALT_INFO.VALID n t) false).giveUp (s.jobOf t) (s.ltile t) (10 + n) skip else r := by
  have hv : (s.setFlag (VRG_HALT_INFO.SKIP_SIGNAL n t) skip).flag (VRG_HALT_INFO.VALID n t) = s.flag (VRG_HALT_INFO.VALID n t) :=
    State.flag_setFlag_apart s skip (by decide)
  obtain ⟨hj, hl⟩ := s.owner_setFlag (r := VRG_HALT_INFO.SKIP_SIGNAL n t) skip t (by
    simp only [VRG_HALT_INFO.SKIP_SIGNAL, VRG_HALT_INFO.at]
    omega)
  unfold State.vrgResume
  dsimp only
  rw [hv, hj, hl]
  simp only [true_and]

theorem xwfResume_eq (hlate : s.flag (XWF_HALT_INFO.LATE t) = false) :
    s.xwfResume t true skip =
      let r := s.setFlag (XWF_HALT_INFO.SKIP_SIGNAL t) skip
      if s.flag (XWF_HALT_INFO.VALID t) = true then
        (r.setFlag (XWF_HALT_INFO.VALID t) false).giveUp (s.jobOf t) (s.ltile t) 26 skip else r := by
  have hv : (s.setFlag (XWF_HALT_INFO.SKIP_SIGNAL t) skip).flag (XWF_HALT_INFO.VALID t) = s.flag (XWF_HALT_INFO.VALID t) :=
    State.flag_setFlag_apart s skip (by decide)
  have hlate' : (s.setFlag (XWF_HALT_INFO.SKIP_SIGNAL t) skip).flag (XWF_HALT_INFO.LATE t) = false :=
    (State.flag_setFlag_apart s skip (by decide)).trans hlate
  obtain ⟨hj, hl⟩ := s.owner_setFlag (r := XWF_HALT_INFO.SKIP_SIGNAL t) skip t (by
    simp only [XWF_HALT_INFO.SKIP_SIGNAL, XWF_HALT_INFO.at]
    omega)
  unfold State.xwfResume
  dsimp only
  rw [hv, hj, hl, hlate']
  simp only [true_and, Bool.false_eq_true, if_false]

/-- RESUME and RETRY of a DMA channel, whose conditions a write of SKIP_SIGNAL does not change. -/
theorem dmaResume_eq (hch : ch < 8) {resume retry : Bool} (h : resume ≠ retry) :
    s.dmaResume t ch resume retry skip =
      let r := s.setFlag (ANV_DMA_HALT_INFO.SKIP_SIGNAL t ch) skip
      let v := r.setFlag (ANV_DMA_HALT_INFO.VALID t ch) false
      if s.dmaReady t ch = true then
        if resume = true then v.giveUp (s.jobOf t) (s.ltile t) (2 + ch) skip
        else v.setQueue (s.jobOf t) (s.ltile t) (2 + ch) (v.queue (s.jobOf t) (s.ltile t) (2 + ch)).again
      else r := by
  have hoff : ANV_DMA_HALT_INFO.at t ch % 0x40000 ≠ 0 := by
    simp only [ANV_DMA_HALT_INFO.at]
    omega
  have hready : (s.setFlag (ANV_DMA_HALT_INFO.SKIP_SIGNAL t ch) skip).dmaReady t ch = s.dmaReady t ch := by
    have h1 : (s.setFlag (ANV_DMA_HALT_INFO.SKIP_SIGNAL t ch) skip).flag (ANV_DMA_HALT_INFO.VALID t ch) =
        s.flag (ANV_DMA_HALT_INFO.VALID t ch) := State.flag_setFlag_apart s skip (by decide)
    have h2 : (s.setFlag (ANV_DMA_HALT_INFO.SKIP_SIGNAL t ch) skip).flag (ANV_DMA_CTL.EN t ch) = s.flag (ANV_DMA_CTL.EN t ch) :=
      State.flag_setFlag_apart s skip (by decide)
    have h3 : (s.setFlag (ANV_DMA_HALT_INFO.SKIP_SIGNAL t ch) skip).f (ANV_DMA_HALT_INFO.REASON t ch) =
        s.f (ANV_DMA_HALT_INFO.REASON t ch) := State.f_setFlag_apart s skip (by decide)
    simp only [State.dmaReady, h1, h2, h3]
  obtain ⟨hj1, hl1⟩ := s.owner_setFlag (r := ANV_DMA_HALT_INFO.SKIP_SIGNAL t ch) skip t hoff
  obtain ⟨hj2, hl2⟩ := (s.setFlag (ANV_DMA_HALT_INFO.SKIP_SIGNAL t ch) skip).owner_setFlag
    (r := ANV_DMA_HALT_INFO.VALID t ch) false t hoff
  unfold State.dmaResume
  dsimp only
  rw [hready, hj2, hl2, hj1, hl1]
  simp only [h, ne_eq, not_false_eq_true, true_and]

theorem State.dmaReady_iff : s.dmaReady t ch = true ↔ s.flag (ANV_DMA_HALT_INFO.VALID t ch) = true ∧
    s.flag (ANV_DMA_CTL.EN t ch) = true ∧ 2 ≤ s.f (ANV_DMA_HALT_INFO.REASON t ch) ∧
    s.f (ANV_DMA_HALT_INFO.REASON t ch) ≤ 6 := by
  simp only [State.dmaReady, Bool.and_eq_true, decide_eq_true_eq, and_assoc]

/-- Switching an idle channel off cuts no command short. -/
theorem cutDcopy_idle {written : Nat} (h : (s.queue (s.jobOf t) (s.ltile t) (2 + ch)).flight = []) :
    s.cutDcopy t ch written = s := by
  have ho : (s.queue (s.jobOf t) (s.ltile t) (2 + ch)).oldestDcopy = none := by rw [Queue.oldestDcopy, h]; rfl
  unfold State.cutDcopy
  dsimp only
  rw [ho]
  exact ite_self s

end

/-- Settles O30. -/
theorem haltedQueuesGoOn : Obligations.HaltedQueuesGoOn := by
  intro s by_ n t ch written skip j l
  refine ⟨?virga, ?fabric, ?dma, fun ht hch ha hen hf => ?disable, fun ht hch hen hall => ?disabled⟩
  case virga =>
    intro hn ht ha r
    exact congrArg Host.Outcome.next ((if_pos ha).trans (vrgResume_eq s skip hn ht))
  case fabric =>
    intro ht ha r hl
    exact congrArg Host.Outcome.next ((if_pos ha).trans (xwfResume_eq s skip hl))
  case dma =>
    intro ht hch ha q r ready v
    have hr : s.dmaReady t ch = true ↔ ready := State.dmaReady_iff s
    have resume : exec (.dmaResume by_ t ch skip) s = .next (s.dmaResume t ch true false skip) := congrArg _ (if_pos ha)
    have retry : exec (.dmaRetry by_ t ch skip) s = .next (s.dmaResume t ch false true skip) := congrArg _ (if_pos ha)
    rw [resume, retry, dmaResume_eq s skip hch (by decide), dmaResume_eq s skip hch (by decide)]
    simp only [Bool.false_eq_true, if_false, if_true]
    exact ⟨fun h => ⟨congrArg _ (if_pos (hr.2 h)), congrArg _ (if_pos (hr.2 h))⟩,
      fun h => ⟨congrArg _ (if_neg (mt hr.1 h)), congrArg _ (if_neg (mt hr.1 h))⟩⟩
  case disable =>
    refine (congrArg Host.Outcome.next ((if_pos ha).trans ?_))
    have hoff : (ANV_DMA_CTL.EN t ch).offPlace := by
      simp only [FRef.offPlace, ANV_DMA_CTL.EN, ANV_DMA_CTL.at]
      omega
    obtain ⟨hj, hl⟩ := s.owner_setFlag (r := ANV_DMA_CTL.EN t ch) false t hoff.2.2.1
    rw [State.dmaEnable, if_pos ⟨hen, rfl⟩]
    refine cutDcopy_idle _ ?_
    rw [hj, hl, State.setFlag, State.queue_setF_off s _ hoff]
    exact hf
  case disabled =>
    refine if_pos ⟨hen, ?_⟩
    refine Eq.trans (congrArg (List.all _) (funext fun f => ?_)) hall
    rw [Flight.live]
    rfl

end Sys2Proof.Machine

/-! PROOFS. Memory-side adders (R81, R205, R206), exact slots (R82 - R87) and the spread of pages over channels (R339, R340). -/

namespace Sys2Proof.Machine

/-! ## Codes of integers -/

theorem sext_toNat {w : Nat} (v : BitVec w) : sext w v.toNat = v.toInt := by
  have hv := v.isLt
  unfold sext
  rw [Nat.mod_eq_of_lt hv, BitVec.toInt_eq_toNat_cond]
  by_cases hw : w = 0
  · subst hw
    have : v.toNat = 0 := by omega
    simp [this]
  · have h2 : 2 ^ w = 2 * 2 ^ (w - 1) := by rw [← pow_succ']; congr 1; omega
    by_cases h : 2 * v.toNat < 2 ^ w
    · rw [if_neg (by omega), if_pos h]
    · rw [if_pos (by omega), if_neg h]

theorem twos_toInt {w : Nat} (v : BitVec w) : twos w v.toInt = v.toNat := by
  have h := congrArg BitVec.toNat (BitVec.ofInt_toInt (x := v))
  rwa [BitVec.toNat_ofInt] at h

theorem twos_add {w : Nat} (u v : BitVec w) : twos w (u.toInt + v.toInt) = (u + v).toNat := by
  have h := congrArg BitVec.toNat (BitVec.ofInt_add (n := w) u.toInt v.toInt)
  rwa [BitVec.ofInt_toInt, BitVec.ofInt_toInt, BitVec.toNat_ofInt] at h

theorem twos_min {w : Nat} (u v : BitVec w) : twos w (min u.toInt v.toInt) = (if u.sle v then u else v).toNat := by
  by_cases h : u.toInt ≤ v.toInt
  · rw [min_eq_left h, twos_toInt, if_pos (by rw [BitVec.sle]; exact decide_eq_true h)]
  · rw [min_eq_right (Int.le_of_not_le h), twos_toInt, if_neg (by rw [BitVec.sle, decide_eq_true_eq]; exact h)]

theorem twos_max {w : Nat} (u v : BitVec w) : twos w (max u.toInt v.toInt) = (if u.sle v then v else u).toNat := by
  by_cases h : u.toInt ≤ v.toInt
  · rw [max_eq_right h, twos_toInt, if_pos (by rw [BitVec.sle]; exact decide_eq_true h)]
  · rw [max_eq_left (Int.le_of_not_le h), twos_toInt, if_neg (by rw [BitVec.sle, decide_eq_true_eq]; exact h)]

/-! ## The operation at an adder -/

/-- The formats of the adders have 2, 4 or 8 bytes. -/
theorem adderHas_bytes {f : Fmt} {aop : Nat} (h : adderHas f aop = true) :
    f.bits / 8 = 2 ∨ f.bits / 8 = 4 ∨ f.bits / 8 = 8 := by
  cases f <;> first | exact absurd h Bool.false_ne_true | decide

theorem aligned_in_granule {a n : Nat} (h : a % n = 0) (hn : n = 2 ∨ n = 4 ∨ n = 8) : a % 64 + n ≤ 64 := by
  rcases hn with rfl | rfl | rfl <;> omega

section
variable {s s1 s2 : State} {addr : Nat} {aop : BitVec 2} {fmtc : BitVec 5} {x cmp : W64} {f : Fmt} {bs : List Byte}

theorem adderOperation_ends (hf : Fmt.ofCode fmtc.toNat = some f) (hh : adderHas f aop.toNat = true)
    (ha : addr % (f.bits / 8) = 0) (hr : s.region addr = .stack) (hp : s.plain (addr / s.stackBytes) = false)
    (hread : (directRead ⟨.fabric, none, 255, some 6⟩ addr (f.bits / 8)).go s = (.ok bs, s1))
    (hwrite : (rawWrite ⟨.fabric, none, 255, some 6⟩ addr
      (leBytes (f.bits / 8) (adderNew f aop.toNat (leNat bs) x.toNat cmp.toNat))).go s1 = (.ok (), s2)) :
    exec (.adderOperation addr aop fmtc x cmp) s = .next (s2.vrgEvent (addr / s2.stackBytes) 7 1) := by
  show execAdderOperation addr aop fmtc x cmp s = _
  unfold execAdderOperation
  rw [hf]
  refine (if_pos ⟨hh, ha, hr, by rw [hp]; rfl⟩).trans (rowOf_ok (EM.go_bind_ok (s' := s2.vrgEvent (addr / s2.stackBytes) 7 1)
    (a := leNat bs) ?_ rfl))
  exact EM.go_bind_ok hread (EM.go_bind_ok hwrite rfl)

end

/-- Settles O31. -/
theorem addersReplaceTheirElement : Obligations.AddersReplaceTheirElement := by
  refine ⟨?ends, ?served, ?integers⟩
  case ends =>
    intro s s1 s2 addr aop fmtc x cmp f bs hf hh ha hr hp h1 h2
    exact adderOperation_ends hf hh ha hr hp h1 h2
  case served =>
    intro s addr lo hi aop fmtc x cmp f w n hf hh ha hr hp hc h1 h2
    have hn := adderHas_bytes hh
    have hpos : 0 < n := by
      rcases hn with h | h | h <;> exact Nat.lt_of_lt_of_eq (by decide) h.symm
    have hread := directRead_ok (rawRead_calm hc h1 hpos h2 (aligned_in_granule ha hn))
    obtain ⟨r, hw, -⟩ := rawWrite_calm hc (leBytes n (adderNew f aop.toNat (s.natAt w addr n) x.toNat cmp.toNat)) h1
      (Nat.lt_of_lt_of_le (Nat.lt_add_of_pos_right hpos) h2)
    exact ⟨r, hw, adderOperation_ends hf hh ha hr hp hread hw⟩
  case integers =>
    intro w f v c e hfw
    have hw : f.isInt = true ∧ f.bits = w := by
      simp only [List.mem_cons, Prod.mk.injEq, List.not_mem_nil, or_false] at hfw
      rcases hfw with ⟨rfl, rfl⟩ | ⟨rfl, rfl⟩ <;> exact ⟨rfl, rfl⟩
    obtain ⟨hint, rfl⟩ := hw
    simp only [adderNew, hint, if_true, sext_toNat, aADD, aMIN, aMAX]
    refine ⟨twos_add v c, twos_min v c, twos_max v c, ?_⟩
    simp only [Nat.mod_eq_of_lt v.isLt, Nat.mod_eq_of_lt c.isLt, Nat.mod_eq_of_lt e.isLt, OfNat.ofNat_ne_zero,
      OfNat.ofNat_ne_one, Nat.reduceEqDiff, if_false, BitVec.toNat_inj]
    split <;> rfl

/-! ## Slots -/

theorem Slot.count'_eq (x : Slot) (k : Nat) : x.count' k = ⟨x.value, x.nan, x.pinf, x.ninf,
    x.ovf || decide (min (x.count.toNat + k) (2 ^ 42 - 1) ≥ 2 ^ 41), BitVec.ofNat 42 (min (x.count.toNat + k) (2 ^ 42 - 1))⟩ := rfl

/-- What a contribution adds to VALUE; special values add nothing. -/
def FVal.share : FVal → BitVec 320
  | .nan => 0#320
  | .inf _ => 0#320
  | v => BitVec.ofInt 320 (v.toScaled (-149))

/-- A contribution adds its share to VALUE, keeps its kind in a flag, and counts. -/
theorem Slot.add_eq (x : Slot) (v : FVal) : x.add v =
    (⟨x.value + FVal.share v, x.nan || decide (v = .nan), x.pinf || decide (v = .inf false), x.ninf || decide (v = .inf true),
      x.ovf, x.count⟩ :
      Slot).count' 1 := by
  unfold Slot.add
  match v with
  | .nan => simp [FVal.share]
  | .inf false => simp [FVal.share]
  | .inf true => simp [FVal.share]
  | .fin a b c => simp [FVal.share]

theorem Slot.add_comm (x : Slot) (u v : FVal) : (x.add u).add v = (x.add v).add u := by
  simp only [Slot.add_eq, Slot.count'_eq, Slot.mk.injEq, and_true]
  exact ⟨add_right_comm _ _ _, Bool.or_right_comm _ _ _, Bool.or_right_comm _ _ _, Bool.or_right_comm _ _ _⟩

theorem Slot.combine_comm (x y : Slot) : x.combine y = y.combine x := by
  simp only [Slot.combine, Slot.count'_eq, BitVec.add_comm x.value, Bool.or_comm x.nan, Bool.or_comm x.pinf,
    Bool.or_comm x.ninf, Bool.or_comm x.ovf, Nat.add_comm x.count.toNat]

theorem or_absorbs {a b c p q r : Prop} (hp : p → r) (hq : q → r) : (a ∨ b ∨ p ∨ c ∨ r) ↔ (a ∨ b ∨ c ∨ q ∨ r) := by
  tauto

/-- Saturating sums of three counts do not depend on the order, and a sum that overflows on the way makes the whole do so. -/
theorem Slot.combine_assoc (x y z : Slot) : (x.combine y).combine z = x.combine (y.combine z) := by
  have hc (n : Nat) : (BitVec.ofNat 42 (min n (2 ^ 42 - 1))).toNat = min n (2 ^ 42 - 1) := by
    rw [BitVec.toNat_ofNat]
    omega
  have hsum : min (min (x.count.toNat + y.count.toNat) (2 ^ 42 - 1) + z.count.toNat) (2 ^ 42 - 1) =
      min (x.count.toNat + min (y.count.toNat + z.count.toNat) (2 ^ 42 - 1)) (2 ^ 42 - 1) := by omega
  simp only [Slot.combine, Slot.count'_eq, hc, hsum, BitVec.add_assoc, Bool.or_assoc, Slot.mk.injEq, true_and, and_true]
  have hxy : min (x.count.toNat + y.count.toNat) (2 ^ 42 - 1) ≥ 2 ^ 41 →
      min (x.count.toNat + min (y.count.toNat + z.count.toNat) (2 ^ 42 - 1)) (2 ^ 42 - 1) ≥ 2 ^ 41 := by omega
  have hyz : min (y.count.toNat + z.count.toNat) (2 ^ 42 - 1) ≥ 2 ^ 41 →
      min (x.count.toNat + min (y.count.toNat + z.count.toNat) (2 ^ 42 - 1)) (2 ^ 42 - 1) ≥ 2 ^ 41 := by omega
  rw [Bool.eq_iff_iff]
  simp only [Bool.or_eq_true, decide_eq_true_eq]
  exact or_absorbs hxy hyz

theorem Slot.word_bits (x : Slot) : bitAt x.word 63 = x.nan ∧ bitAt x.word 62 = x.pinf ∧ bitAt x.word 61 = x.ninf ∧
    bitAt x.word 60 = x.ovf ∧ fld x.word 41 0 = x.count.toNat := by
  have hb (w : W64) (i : Nat) : bitAt w i = w.getLsbD i := rfl
  have hbool (b : Bool) : b.toNat.testBit 0 = b := by cases b <;> rfl
  refine ⟨?_, ?_, ?_, ?_, ?_⟩
  case refine_5 =>
    rw [Slot.word, fld_setFld_self _ _ _ _ (by decide) (by decide)]
    exact Nat.mod_eq_of_lt x.count.isLt
  all_goals
    rw [hb, Slot.word]
    simp only [getLsbD_setFld _ _ _ (show 63 < 64 by decide) (le_refl 63), getLsbD_setFld _ _ _ (show 62 < 64 by decide) (le_refl 62),
      getLsbD_setFld _ _ _ (show 61 < 64 by decide) (le_refl 61), getLsbD_setFld _ _ _ (show 60 < 64 by decide) (le_refl 60),
      getLsbD_setFld _ _ _ (show 41 < 64 by decide) (Nat.zero_le 41)]
    simp [hbool]

theorem Slot.ofImage_image (x : Slot) : Slot.ofImage x.image = x := by
  have hv : leNat (x.image.take 40) = x.value.toNat := by
    rw [Slot.image, List.take_left' (leBytes_length 40 _), leNat_leBytes, show 8 * 40 = 320 from rfl]
    exact BitVec.toNat_mod_cancel x.value
  have hw : leNat (x.image.drop 40) = x.word.toNat := by
    rw [Slot.image, List.drop_left' (leBytes_length 40 _), leNat_leBytes, show 8 * 8 = 64 from rfl]
    exact BitVec.toNat_mod_cancel x.word
  obtain ⟨h1, h2, h3, h4, h5⟩ := Slot.word_bits x
  simp only [Slot.ofImage, hv, hw, BitVec.ofNat_toNat, BitVec.setWidth_eq, h1, h2, h3, h4, h5]

/-- Settles O32. -/
theorem slotsAddInAnyOrder : Obligations.SlotsAddInAnyOrder := by
  refine ⟨?contribution, Slot.add_comm, fun x y z => ⟨Slot.combine_comm x y, Slot.combine_assoc x y z⟩,
    fun x => ⟨?length, Slot.ofImage_image x⟩⟩
  case contribution =>
    intro s n slot fmtc x f hf hwide hn hslot hp
    refine ⟨((s.setSlot n slot ((s.slot n slot).add (f.decode (x.toNat % 2 ^ f.bits)))).vrgEvent n 9 1), ?_, fun m k _ hk => ?_⟩
    · show execSlotContribution n slot fmtc x s = _
      unfold execSlotContribution
      rw [hf]
      exact if_pos ⟨hwide, hn, hslot, by rw [hp]; rfl⟩
    · have hs (u : State) : (u.vrgEvent n 9 1).slots = u.slots := by
        show (u.vrgEvent n 9 1).noted.slots = u.noted.slots
        rw [State.noted_vrgEvent]
      rw [State.slot, hs, State.setSlot, SMap.get_put]
      have hkey : slotKey m k = slotKey n slot ↔ m = n ∧ k = slot := by
        unfold slotKey
        omega
      exact ite_congr (propext hkey) (fun _ => rfl) (fun _ => rfl)
  case length => rw [Slot.image, List.length_append, leBytes_length, leBytes_length]

/-! ## Channels of pages -/

/-- The part of H512 that the page's index in its channel gives. -/
def indexHash (j : Nat) : Nat := j % 32 ^^^ j / 2 ^ 5 % 32 ^^^ j / 2 ^ 10 % 32 ^^^ j / 2 ^ 15 % 32

theorem indexHash_lt (j : Nat) : indexHash j < 32 := by
  have h (n : Nat) : n % 32 < 2 ^ 5 := Nat.mod_lt n (by decide)
  exact Nat.xor_lt_two_pow (Nat.xor_lt_two_pow (Nat.xor_lt_two_pow (h _) (h _)) (h _)) (h _)

theorem h512_eq (p : Nat) : h512 p = p % 32 ^^^ indexHash (p / 32) := by
  simp only [h512, indexHash, Nat.div_div_eq_div_mul, Nat.xor_assoc, Nat.reducePow, Nat.reduceMul]

theorem pageAt_eq (c j : Nat) : pageAt c j = 32 * j + (c ^^^ indexHash j) := by
  simp only [pageAt, indexHash, Nat.xor_assoc]

/-- Settles O35: the hash is an exclusive or with what the index gives, which undoes itself. -/
theorem pagesSpreadOverChannels : Obligations.PagesSpreadOverChannels := by
  constructor
  case left =>
    intro c j hc
    have hx : c ^^^ indexHash j < 32 := Nat.xor_lt_two_pow (n := 5) hc (indexHash_lt j)
    have hj : pageAt c j / 32 = j := by rw [pageAt_eq]; omega
    have hm : pageAt c j % 32 = c ^^^ indexHash j := by rw [pageAt_eq]; omega
    exact ⟨by rw [h512_eq, hj, hm, Nat.xor_assoc, Nat.xor_self, Nat.xor_zero], hj⟩
  case right =>
    intro p
    refine ⟨?_, ?_⟩
    · rw [h512_eq]
      exact Nat.xor_lt_two_pow (n := 5) (Nat.mod_lt p (by decide)) (indexHash_lt _)
    · rw [pageAt_eq, h512_eq, Nat.xor_assoc, Nat.xor_self, Nat.xor_zero]
      omega

end Sys2Proof.Machine

/-! PROOFS. Accesses of memory from outside the commands (R352 - R354, R361, R395, R399) and the merge buffer (R398 - R403). -/

namespace Sys2Proof.Machine

/-! ## Far tier -/

theorem farWrite_live {s : State} {a p : Nat} (bs : List Byte) (hd : (s.farDoms a).all s.domRuns = true)
    (hp : s.farLive a = some p) :
    (farWrite a bs).go s = (.ok ⟨⟩, { s with
      far := Bytes.wrList s.far a bs,
      farPoison := s.farPoison.filter (fun g => !(decide (a ≤ 64 * g) && decide (64 * g + 64 ≤ a + bs.length))) }) := by
  refine EM.go_bind_ok (EM.go_get s) (EM.go_bind_ok (crossInto_runs hd a) ?_)
  rw [hp]
  rfl

theorem farRead_live {s : State} {a p : Nat} (n : Nat) (hd : (s.farDoms a).all s.domRuns = true) (hp : s.farLive a = some p)
    (hc : s.farPoison = []) : (farRead a n).go s = (.ok (Bytes.rdList s.far a n), s) := by
  refine EM.go_bind_ok (EM.go_get s) (EM.go_bind_ok (crossInto_runs hd a) ?_)
  rw [hp, hc]
  dsimp only
  rw [if_neg (by simp)]
  rfl

/-! ## Cached accesses -/

/-- A line that holds something needs no room. -/
theorem makeRoom_held {s : State} {w : Who} {j k : Nat} (h : (s.line j k).valid ≠ 0#4) : (makeRoom w j k).go s = (.ok ⟨⟩, s) := by
  refine EM.go_bind_ok (EM.go_get s) ?_
  dsimp only
  rw [if_neg fun x => h x.1]
  rfl

theorem healLine_done (j k off n : Nat) (s : State) : (healLine j k off n).Done s := EM.done_modify _

/-- Errors healed word by word end. -/
theorem healLines_done {j k : Nat} (c : Nat → Prop) [DecidablePred c] : ∀ (l : List Nat) (s : State),
    (forIn l PUnit.unit fun w (_ : PUnit) => (do
      if c w then healLine j k (8 * w) 8
      pure (ForInStep.yield PUnit.unit) : EM (ForInStep PUnit))).Done s
  | [], s => ⟨⟨⟩, s, rfl⟩
  | w :: t, s => by
    rw [List.forIn_cons]
    by_cases h : c w
    · obtain ⟨x, r, e⟩ := healLine_done j k (8 * w) 8 s
      refine EM.Done.of_bind (a := ForInStep.yield PUnit.unit) (r := r) ?_ (healLines_done c t r)
      rw [if_pos h]
      exact EM.go_bind_ok e rfl
    · refine EM.Done.of_bind (a := ForInStep.yield PUnit.unit) (r := s) ?_ (healLines_done c t s)
      rw [if_neg h]
      rfl

theorem cachedWrite_done {s : State} {w : Who} {j a : Nat} {bs : List Byte} (hv : (s.line j (a / 256)).valid ≠ 0#4)
    (hb : (s.line j (a / 256)).bad = 0#4)
    (hh : bs.length = 64 ∨ (s.line j (a / 256)).valid.toNat.testBit (a / 64 % 4) = true) :
    (cachedWrite w j a bs).Done s := by
  unfold cachedWrite
  dsimp only
  by_cases hn : bs.length = 64
  · rw [if_pos hn]
    exact EM.Done.of_bind (makeRoom_held hv) (EM.done_modify _)
  · rw [if_neg hn]
    have hg := hh.resolve_left hn
    refine EM.Done.of_bind (checkGranule_clean hb) (EM.Done.of_bind (EM.go_get s) ?_)
    rw [hg]
    obtain ⟨x, r, e⟩ := healLines_done (j := j) (k := a / 256) (fun w => (!wordWhole (a % 256) bs.length w) = true)
      (wordsOf (a % 256) bs.length) s
    exact EM.Done.of_bind e (EM.done_modify _)

theorem cachedRead_clean {s : State} {w : Who} {j a n : Nat} (hb : (s.line j (a / 256)).bad = 0#4)
    (hk : (s.line j (a / 256)).weak = 0#32) (hg : (s.line j (a / 256)).valid.toNat.testBit (a / 64 % 4) = true) :
    ∃ r, (cachedRead w j a n).go s = (.ok (Bytes.rdList (s.line j (a / 256)).data (a % 256) n), r) := by
  refine ⟨s.setLine j (a / 256) (s.line j (a / 256)), EM.go_bind_ok (checkGranule_clean hb) (EM.go_bind_ok (EM.go_get s) ?_)⟩
  rw [hg]
  refine EM.go_bind_ok (healLine_calm hk) (EM.go_bind_ok (EM.go_get _) ?_)
  rw [line_setLine, if_pos rfl]
  rfl

/-! ## The rows -/

section
variable {s t : State} {who : Requester} {j addr : Nat} {bytes bs : List Byte}

theorem stackRead_ends (hr : s.region addr = .stack)
    (e : (directRead (reqWho who j) (addr / 64 * 64) 64).go s = (.ok bs, t)) : exec (.stackRead who j addr) s = .next t :=
  (if_pos hr).trans (readRow_ok (EM.go_bind_ok e (EM.go_pure _ t)))

theorem stackWrite_ends (hr : s.region addr = .stack) (hn : addr % 4096 + bytes.length ≤ 4096)
    (e : (rawWrite (reqWho who 0) addr bytes).go s = (.ok (), t)) : exec (.stackWrite who addr bytes) s = .next t :=
  (if_pos ⟨hr, hn⟩).trans (rowOf_ok e)

theorem farAccess_writes (hr : s.region addr = .far) (hn : addr % 64 + bytes.length ≤ 64)
    (e : (farWrite addr bytes).go s = (.ok (), t)) : exec (.farAccess addr bytes true) s = .next t :=
  (if_pos ⟨hr, hn⟩).trans (rowOf_ok e)

theorem farAccess_reads (hr : s.region addr = .far) (hn : addr % 64 + bytes.length ≤ 64)
    (e : (farRead addr bytes.length).go s = (.ok bs, t)) : exec (.farAccess addr bytes false) s = .next t :=
  (if_pos ⟨hr, hn⟩).trans (rowOf_ok (EM.go_bind_ok e (EM.go_pure _ t)))

variable (hn : bytes ≠ []) (hg : addr % 64 + bytes.length ≤ 64) (hu : s.up = true)
  (hc : (s.cached ⟨.tdma, some j, 255, some 5⟩ addr bytes.length).isSome = true)
include hn hg hu hc

theorem cacheAccess_writes (hk : s.segOk j addr bytes.length true = true)
    (e : (cachedWrite ⟨.tdma, some j, 255, some 5⟩ j addr bytes).go s = (.ok (), t)) :
    exec (.cacheAccess j addr bytes true) s = .next t :=
  (if_pos ⟨mt List.length_eq_zero_iff.1 hn, hg, hc, hk, hu⟩).trans (readRow_ok e)

theorem cacheAccess_reads (hk : s.segOk j addr bytes.length false = true)
    (e : (cachedRead ⟨.tdma, some j, 255, some 5⟩ j addr bytes.length).go s = (.ok bs, t)) :
    exec (.cacheAccess j addr bytes false) s = .next t :=
  (if_pos ⟨mt List.length_eq_zero_iff.1 hn, hg, hc, hk, hu⟩).trans (readRow_ok (EM.go_bind_ok e (EM.go_pure _ t)))

end

/-- Settles O33. -/
theorem memoryAccessesEnd : Obligations.MemoryAccessesEnd := by
  intro s t who j addr lo hi p bytes bs w g tdma line n
  refine ⟨fun hr => ⟨fun hc h1 h2 => ?read, fun hc h1 h2 hn => ?write⟩, ?far, fun hv hb hg hu hc hl hbad hw => ⟨fun hk => ?cacheWrite, fun hk hv => ?cacheRead⟩,
    stackRead_ends, stackWrite_ends, fun hr hn => ⟨farAccess_writes hr hn, farAccess_reads hr hn⟩,
    fun hb hg hu hc => ⟨cacheAccess_writes hb hg hu hc, cacheAccess_reads hb hg hu hc⟩⟩
  case read =>
    have e := directRead_ok (rawRead_calm hc h1 (by decide) h2 (by omega))
    exact ⟨e, stackRead_ends hr e⟩
  case write =>
    obtain ⟨r, e, -⟩ := rawWrite_calm hc bytes h1 h2
    exact ⟨r, e, stackWrite_ends hr hn e⟩
  case far =>
    intro hr hn hd hp left
    exact ⟨farAccess_writes hr hn (farWrite_live bytes hd hp), fun hz => farAccess_reads hr hn (farRead_live n hd hp hz)⟩
  case cacheWrite =>
    obtain ⟨⟨⟩, r, e⟩ := cachedWrite_done (w := tdma) (bs := bytes) hl hbad hv
    exact ⟨r, e, cacheAccess_writes hb hg hu hc hk e⟩
  case cacheRead =>
    obtain ⟨r, e⟩ := cachedRead_clean (w := tdma) (n := n) hbad hw hv
    exact ⟨r, e, cacheAccess_reads hb hg hu hc hk e⟩

/-! ## The merge buffer -/

/-- Every entry that a map lists for key k holds v. -/
def SMap.AllAt {α : Type} (m : SMap α) (k : Nat) (v : α) : Prop := ∀ p ∈ m, p.1 = k → p.2 = v

theorem SMap.AllAt.put {m : SMap Byte} {k : Nat} {v : Byte} (a : Nat) (x : Byte) (h : a = k ∧ x = v ∨ a ≠ k ∧ SMap.AllAt m k v) :
    SMap.AllAt (SMap.put 0#8 m a x) k v := by
  intro p hp hk
  have hmem : p = (a, x) ∨ p ∈ SMap.erase m a := by
    unfold SMap.put at hp
    split at hp
    · exact Or.inr hp
    · exact SMap.insert_mem _ _ _ p hp
  rcases hmem with rfl | hmem
  · rcases h with ⟨-, rfl⟩ | ⟨ha, -⟩
    · rfl
    · exact absurd hk ha
  · obtain ⟨hne, hm⟩ := SMap.erase_keys m a p hmem
    rcases h with ⟨rfl, -⟩ | ⟨-, h⟩
    · exact absurd hk hne
    · exact h p hm hk

theorem allAt_wrList_other : ∀ (bs : List Byte) (m : Bytes) (a k : Nat) (v : Byte), k < a → SMap.AllAt m k v →
    SMap.AllAt (Bytes.wrList m a bs) k v
  | [], _, _, _, _, _, h => h
  | _ :: t, _, a, k, v, hk, h =>
    allAt_wrList_other t _ (a + 1) k v (by omega) (SMap.AllAt.put _ _ (Or.inr ⟨by omega, h⟩))

/-- A byte written is the only one that the memory lists at its address. -/
theorem allAt_wrList : ∀ (bs : List Byte) (m : Bytes) (a i : Nat) (h : i < bs.length),
    SMap.AllAt (Bytes.wrList m a bs) (a + i) bs[i]
  | b :: t, m, a, 0, _ => allAt_wrList_other t _ (a + 1) a b (by omega) (SMap.AllAt.put _ _ (Or.inl ⟨rfl, rfl⟩))
  | b :: t, m, a, i + 1, h => by
    have := allAt_wrList t (Bytes.wr m a b) (a + 1) i (by simpa using h)
    rwa [show a + 1 + i = a + (i + 1) by omega] at this

/-- Entries put one after another leave at key k what every one of them for k holds, where one does or the map did. -/
theorem rd_foldl_put {k : Nat} {v : Byte} : ∀ (new m : Bytes), SMap.AllAt new k v →
    (Bytes.rd m k = v ∨ ∃ p ∈ new, p.1 = k) → Bytes.rd (new.foldl (fun m p => SMap.put 0#8 m p.1 p.2) m) k = v
  | [], m, _, h => by simpa using h
  | q :: t, m, ha, h => by
    refine rd_foldl_put t _ (fun p hp => ha p (List.mem_cons_of_mem _ hp)) ?_
    have hput : Bytes.rd (SMap.put 0#8 m q.1 q.2) k = if k = q.1 then q.2 else Bytes.rd m k := SMap.get_put _ _ _ _ _
    by_cases hq : k = q.1
    · left
      rw [hput, if_pos hq]
      exact ha q List.mem_cons_self hq.symm
    · rw [hput, if_neg hq]
      rcases h with h | ⟨p, hp, hk⟩
      · exact Or.inl h
      · rcases List.mem_cons.1 hp with rfl | hp
        · exact absurd hk.symm hq
        · exact Or.inr ⟨p, hp, hk⟩

theorem mem_of_get {m : SMap Byte} {k : Nat} (h : SMap.get 0#8 m k ≠ 0#8) : ∃ p ∈ m, p.1 = k := by
  induction m with
  | nil => exact absurd rfl h
  | cons q t ih =>
    by_cases hq : q.1 = k
    · exact ⟨q, List.mem_cons_self, hq⟩
    · rw [SMap.get, if_neg hq] at h
      obtain ⟨p, hp, hk⟩ := ih h
      exact ⟨p, List.mem_cons_of_mem _ hp, hk⟩

/-- What an entry has taken is read from it, whatever else it holds. -/
theorem rdList_overlay_wrList (d : Bytes) (mask off : Nat) (bs : List Byte) :
    Bytes.rdList (overlay mask (Bytes.wrList d off bs) []) off bs.length = bs := by
  rw [Bytes.rdList_eq]
  refine List.ext_getElem (by simp) fun i _ hi => ?_
  rw [List.getElem_map, List.getElem_range]
  refine rd_foldl_put _ _ (allAt_wrList bs d off i hi) ?_
  by_cases h0 : bs[i] = 0#8
  · exact Or.inl h0.symm
  · refine Or.inr (mem_of_get ?_)
    have := Bytes.rd_wrList_in bs d off i hi
    rw [Bytes.rd] at this
    rwa [this]

theorem or_and_runMask (m off n : Nat) : (m ||| runMask off n) &&& runMask off n = runMask off n := by
  refine Nat.eq_of_testBit_eq fun i => ?_
  rw [Nat.testBit_and, Nat.testBit_or]
  cases m.testBit i <;> cases (runMask off n).testBit i <;> rfl

/-- A page whose entry has taken a write reads back what was written. -/
theorem State.readPage_taken {t : State} {gp off : Nat} {bs : List Byte} {e : MergeEntry} (hp : t.paused gp = false)
    (he : t.mergeEntry gp = some (e.add off bs)) : t.readPage gp off bs.length = (.ok bs, t) := by
  have hm : ((e.add off bs).mask &&& runMask off bs.length == runMask off bs.length) = true := by
    rw [beq_iff_eq]
    exact or_and_runMask _ _ _
  unfold State.readPage
  rw [if_neg (by rw [hp]; exact Bool.false_ne_true), he]
  refine (if_pos hm).trans ?_
  exact congrArg (fun b => (RdRes.ok b, t)) (rdList_overlay_wrList e.data (e.add off bs).mask off bs)

theorem State.mergeEntry_mergeInto {s : State} {gp off : Nat} {bs : List Byte} {e : MergeEntry} (he : s.mergeEntry gp = some e) :
    (s.mergeInto gp off bs).mergeEntry gp = some (e.add off bs) := by
  have hpage : e.page = gp := by simpa using List.find?_some he
  have hf : ((fun x => x.page == gp) ∘ fun x : MergeEntry => if x.page = gp then x.add off bs else x) = fun x => x.page == gp := by
    funext x
    simp only [Function.comp]
    split <;> rfl
  have hbuf : (s.mergeInto gp off bs).mergeBuf (s.gchan gp) =
      (s.mergeBuf (s.gchan gp)).map (fun x => if x.page = gp then x.add off bs else x) := SMap.get_put_self _ _ _ _
  show ((s.mergeInto gp off bs).mergeBuf (s.gchan gp)).find? (fun x => x.page == gp) = _
  rw [hbuf, List.find?_map, hf, show (s.mergeBuf (s.gchan gp)).find? (fun x => x.page == gp) = some e from he,
    Option.map_some, if_pos hpage]

/-- A page without an entry gets a new one where its channel has room. -/
theorem State.mergeEntry_push {s : State} {gp : Nat} {e : MergeEntry} (hpage : e.page = gp) (he : s.mergeEntry gp = none) :
    (s.setMergeBuf (s.gchan gp) (s.mergeBuf (s.gchan gp) ++ [e])).mergeEntry gp = some e := by
  have hbuf : (s.setMergeBuf (s.gchan gp) (s.mergeBuf (s.gchan gp) ++ [e])).mergeBuf (s.gchan gp) =
      s.mergeBuf (s.gchan gp) ++ [e] := SMap.get_put_self _ _ _ _
  show ((s.setMergeBuf (s.gchan gp) (s.mergeBuf (s.gchan gp) ++ [e])).mergeBuf (s.gchan gp)).find? (fun x => x.page == gp) = _
  rw [hbuf, List.find?_append, show (s.mergeBuf (s.gchan gp)).find? (fun x => x.page == gp) = none from he]
  simp [hpage]

/-- Settles O34. -/
theorem mergeBufferHoldsWrites : Obligations.MergeBufferHoldsWrites := by
  constructor
  case left =>
    intro s gp off bs hp _ hroom
    cases he : s.mergeEntry gp with
    | some e =>
      have hw : s.writePage gp off bs = some (s.mergeInto gp off bs) := by
        rw [State.writePage, if_neg (by rw [hp]; exact Bool.false_ne_true), he]
      exact ⟨_, hw, State.readPage_taken (t := s.mergeInto gp off bs) hp (State.mergeEntry_mergeInto he), rfl, rfl, rfl, rfl⟩
    | none =>
      let e := (⟨gp, [], 0, false⟩ : MergeEntry).add off bs
      let t := s.setMergeBuf (s.gchan gp) (s.mergeBuf (s.gchan gp) ++ [e])
      have hw : s.writePage gp off bs = some t := by
        rw [State.writePage, if_neg (by rw [hp]; exact Bool.false_ne_true), he]
        show (s.mergeRoom (s.gchan gp)).map _ = _
        rw [State.mergeRoom, if_pos hroom, Option.map_some]
        rfl
      exact ⟨t, hw, State.readPage_taken (t := t) hp (State.mergeEntry_push rfl he), rfl, rfl, rfl, rfl⟩
  case right =>
    intro s n c page e hh hd he
    refine ⟨if_neg (by rw [hh, hd]; decide), fun hp hfull => ?_⟩
    have hleaves : (e.wb || e.mask == fullMask) = true := by
      rw [Bool.or_eq_true, beq_iff_eq]
      exact hfull
    show execMergeWriteback n c page s = _
    unfold execMergeWriteback
    rw [he]
    dsimp only
    rw [hleaves, hh, hp, hd]
    rfl

end Sys2Proof.Machine

/-! PROOFS. Retraining of channels (R369 - R371, R385, R387) and what keeps memory up (R172, R366, R374 - R380, R413 - R416). -/

namespace Sys2Proof.Machine

/-! ## Registers that a record leaves alone -/

/-- Where no record is written: outside the error queue and ZEN's alerts. -/
def offErq (b : Nat) : Prop := (b < ERQ_PROD.at ∨ ERQ_REC.at 64 0 ≤ b) ∧ b ≠ ZEN_ALERT.at

/-- A record changes registers of the error queue and of ZEN's alerts alone. -/
theorem State.reg_erq_outside (s : State) (r : ErqRec) (joined : Bool) {b : Nat} (h : offErq b) :
    (s.erq r joined).reg b = s.reg b := by
  obtain ⟨h, ha⟩ := h
  simp only [ERQ_PROD.at, ERQ_REC.at] at h
  have hf (k : Nat) (hk : 0x1000 ≤ k ∧ k < 0x2800) : b ≠ k := by omega
  have hl : b < ERQ_FATAL_V.at ∨ ERQ_FATAL.at 4 ≤ b := by simp only [ERQ_FATAL_V.at, ERQ_FATAL.at]; omega
  have hlose (u : State) : u.erqLose.reg b = u.reg b := State.reg_erqLose u (hf _ (by decide)) ha
  unfold State.erq
  split
  · rfl
  dsimp only
  split
  · split
    · exact (hlose _).trans (State.reg_erqLatch_outside rfl _ hl)
    · rfl
  · let u : State := { s with erqSeq := s.erqSeq + 1#32 }
    have henter : (u.erqEntered r (erqWords u s.erqSeq r joined)).reg b = u.reg b :=
      State.reg_erqEntered_outside rfl u hl ha
    by_cases hc : u.erqCount = 64
    · rw [State.erqQueue_full hc]
      exact (hlose _).trans henter
    · rw [State.erqQueue_room hc]
      refine (State.reg_erqPut_outside (ws := erqWords u s.erqSeq r joined) rfl _ ?_ (hf _ (by decide))).trans henter
      unfold ERQ_REC.at
      omega

theorem State.reg_erq (s : State) (r : ErqRec) (joined : Bool) {b : Nat} (h : 0x5000 ≤ b) : (s.erq r joined).reg b = s.reg b :=
  State.reg_erq_outside s r joined ⟨.inr (by unfold ERQ_REC.at; omega), by unfold ZEN_ALERT.at; omega⟩

theorem State.f_erq (s : State) (r : ErqRec) (joined : Bool) {q : FRef} (h : 0x5000 ≤ q.off) : (s.erq r joined).f q = s.f q :=
  State.f_of_reg (State.reg_erq s r joined h)

/-! ## Retraining -/

section
variable (s : State) (n ch : Nat)

/-- What the start of a channel's retrain shows. -/
def State.Retrains (s : State) (n ch : Nat) : Prop :=
  s.f (MSC_CH_STATUS.STATE n ch) = 1 ∧ s.f (MSC_CH_STATUS.FAILS n ch) = 0 ∧
    s.flag (MSC_STATUS.RETRAINING n) = true ∧ s.f (MSC_STATUS.RT_CH n) = ch

theorem State.beginRetrain_begins (hc : ch < 32) : (s.beginRetrain n ch).Retrains n ch := by
  have hm : ch % 32 = ch := Nat.mod_eq_of_lt hc
  unfold State.beginRetrain State.showFailed State.Retrains State.flag State.setFlag
  refine ⟨?_, ?_, ?_, ?_⟩ <;>
    simp (disch := (simp only [MSC_CH_STATUS.STATE, MSC_CH_STATUS.FAILS, MSC_STATUS.RETRAINING, MSC_STATUS.RT_CH,
      MSC_STATUS.FAILED_ANY, MSC_CH_STATUS.at, MSC_STATUS.at]; omega)) only [State.f_setF_other, State.f_setF_self] <;>
    simp [MSC_CH_STATUS.STATE, MSC_CH_STATUS.FAILS, MSC_STATUS.RETRAINING, MSC_STATUS.RT_CH, hm]

/-- A retrain requested begins, or waits for the one that runs. -/
theorem State.requestRetrain_asks (hc : ch < 32) :
    (s.flag (MSC_STATUS.RETRAINING n) = false → (s.requestRetrain n ch).Retrains n ch) ∧
    (s.flag (MSC_STATUS.RETRAINING n) = true → s.f (MSC_STATUS.RT_CH n) ≠ ch →
      s.requestRetrain n ch = s.setRetrains n (addNum (s.retrains n) ch)) ∧
    (s.flag (MSC_STATUS.RETRAINING n) = true → s.f (MSC_STATUS.RT_CH n) = ch → s.requestRetrain n ch = s) := by
  unfold State.requestRetrain
  refine ⟨fun h => ?_, fun h hr => ?_, fun h hr => ?_⟩
  · rw [if_neg (by rw [h]; exact Bool.false_ne_true)]
    exact State.beginRetrain_begins s n ch hc
  · rw [if_pos h, if_neg hr]
  · rw [if_pos h, if_pos hr]

/-- The end of a retrain with no channel waiting. -/
theorem State.nextRetrain_none (h : s.retrains n = []) :
    s.nextRetrain n = (s.setFlag (MSC_STATUS.RETRAINING n) false).setF (MSC_STATUS.RT_CH n) 0 := by
  unfold State.nextRetrain
  dsimp only
  rw [show ((s.setFlag (MSC_STATUS.RETRAINING n) false).setF (MSC_STATUS.RT_CH n) 0).retrains n = [] from h]

/-- What the end of a retrain with no channel waiting leaves of the fields of a channel. -/
theorem State.f_nextRetrain {n k hi lo : Nat} (h : s.retrains n = []) : (s.nextRetrain n).f ⟨MSC_CH_STATUS.at n k, hi, lo⟩ = s.f ⟨MSC_CH_STATUS.at n k, hi, lo⟩ := by
  have ho : MSC_CH_STATUS.at n k ≠ MSC_STATUS.at n := by
    simp only [MSC_CH_STATUS.at, MSC_STATUS.at]
    omega
  rw [State.nextRetrain_none s n h]
  exact (State.f_of_reg (State.reg_setF_at _ _ _ _ ho)).trans (State.f_of_reg (State.reg_setF_at _ _ _ _ ho))

theorem State.retraining_nextRetrain (h : s.retrains n = []) : (s.nextRetrain n).flag (MSC_STATUS.RETRAINING n) = false := by
  rw [State.nextRetrain_none s n h]
  unfold State.flag State.setFlag
  simp (disch := (simp only [MSC_STATUS.RETRAINING, MSC_STATUS.RT_CH]; omega)) only [State.f_setF_other, State.f_setF_self]
  simp

end

/-- The state that a retrain that succeeds leaves before the next one. -/
def State.retrained (s : State) (n c : Nat) : State :=
  let s := (s.setF (MSC_CH_STATUS.STATE n c) 0).setF (MSC_CH_STATUS.FAILS n c) 0
  let s := (s.setF (MSC_CH_STATUS.LINK_CRC n c) 0).bump (MSC_CH_STATUS.TRAINS n c) 1
  (s.bump (MSC_STATUS.RETRAINS n) 1).showFailed n

theorem State.retrained_fields (s : State) (n c : Nat) :
    (s.retrained n c).f (MSC_CH_STATUS.STATE n c) = 0 ∧ (s.retrained n c).f (MSC_CH_STATUS.FAILS n c) = 0 ∧
      (s.retrained n c).f (MSC_CH_STATUS.LINK_CRC n c) = 0 ∧
      (s.retrained n c).f (MSC_CH_STATUS.TRAINS n c) = (s.f (MSC_CH_STATUS.TRAINS n c) + 1) % 2 ^ 16 := by
  unfold State.retrained State.showFailed State.setFlag State.bump
  refine ⟨?_, ?_, ?_, ?_⟩ <;>
    simp (disch := (simp only [MSC_CH_STATUS.STATE, MSC_CH_STATUS.FAILS, MSC_CH_STATUS.LINK_CRC, MSC_CH_STATUS.TRAINS,
      MSC_STATUS.RETRAINS, MSC_STATUS.FAILED_ANY, MSC_CH_STATUS.at, MSC_STATUS.at]; omega))
      only [State.f_setF_other, State.f_setF_self] <;>
    simp [MSC_CH_STATUS.STATE, MSC_CH_STATUS.FAILS, MSC_CH_STATUS.LINK_CRC, MSC_CH_STATUS.TRAINS]

/-- The state that the third failed attempt of a channel leaves before the next retrain. -/
def State.gaveUp (s : State) (n c : Nat) : State :=
  let s := ((s.bump (MSC_CH_STATUS.FAILS n c) 1).setF (MSC_CH_STATUS.STATE n c) 2).showFailed n
  (s.erq ⟨0x09, 2, bMSC, n, none, 0, BitVec.ofNat 64 (256 + c)⟩).due 2 (32 * n + c)

theorem State.mem_due (s : State) (a t : Nat) : (a, t) ∈ (s.due a t).svcDue ∨ (s.due a t).svc = some (a, t) := by
  unfold State.due
  split
  case isTrue h =>
    rcases h with h | h
    · exact Or.inl (by simpa using h)
    · exact Or.inr h
  case isFalse => exact Or.inl (by simp)

@[simp] theorem State.regs_due (s : State) (a t : Nat) : (s.due a t).regs = s.regs := by
  unfold State.due
  split <;> rfl

theorem State.reg_due (s : State) (a t b : Nat) : (s.due a t).reg b = s.reg b := by
  rw [State.reg, State.regs_due, State.reg]

theorem State.gaveUp_fields (s : State) {n c : Nat} (hc : c < 32) :
    (s.gaveUp n c).f (MSC_CH_STATUS.STATE n c) = 2 ∧ (s.gaveUp n c).flag (MSC_STATUS.FAILED_ANY n) = true := by
  have hstate (u : State) : (u.setF (MSC_CH_STATUS.STATE n c) 2).f (MSC_CH_STATUS.STATE n c) = 2 :=
    State.f_setF_self u _ 2 (by simp [MSC_CH_STATUS.STATE]) (by simp [MSC_CH_STATUS.STATE])
  have hany (u : State) (h : u.f (MSC_CH_STATUS.STATE n c) = 2) :
      (u.showFailed n).f (MSC_CH_STATUS.STATE n c) = 2 ∧ (u.showFailed n).flag (MSC_STATUS.FAILED_ANY n) = true := by
    have : (List.range 32).any (fun k => u.f (MSC_CH_STATUS.STATE n k) == 2) = true :=
      List.any_eq_true.2 ⟨c, List.mem_range.2 hc, by rw [h]; rfl⟩
    unfold State.showFailed
    rw [this]
    refine ⟨(State.f_setFlag_apart u true (by decide)).trans h, ?_⟩
    rw [State.flag, State.setFlag, State.f_setF_self _ _ _ (by simp [MSC_STATUS.FAILED_ANY]) (by simp [MSC_STATUS.FAILED_ANY])]
    rfl
  obtain ⟨h1, h2⟩ := hany _ (hstate (s.bump (MSC_CH_STATUS.FAILS n c) 1))
  have hkept (u : State) (r : ErqRec) {b : Nat} (hb : 0x5000 ≤ b) : ((u.erq r).due 2 (32 * n + c)).reg b = u.reg b :=
    (State.reg_due _ _ _ _).trans (State.reg_erq u r false hb)
  refine ⟨(State.f_of_reg (hkept _ _ ?_)).trans h1, ?_⟩
  · simp only [MSC_CH_STATUS.STATE, MSC_CH_STATUS.at]
    omega
  · rw [State.flag] at h2 ⊢
    refine (congrArg (· == 1) (State.f_of_reg (hkept _ _ ?_))).trans h2
    simp only [MSC_STATUS.FAILED_ANY, MSC_STATUS.at]
    omega

theorem State.retrains_due (s : State) (a t n : Nat) : (s.due a t).retrains n = s.retrains n := by
  unfold State.due
  split <;> rfl

theorem State.retrains_erq (s : State) (r : ErqRec) (joined : Bool) (n : Nat) : (s.erq r joined).retrains n = s.retrains n := by
  have h : (s.erq r joined).noted.retrains n = s.noted.retrains n := by rw [State.noted_erq]
  exact h

theorem State.retrains_retrained (s : State) (n c m : Nat) : (s.retrained n c).retrains m = s.retrains m := by
  rw [State.retrains, State.retrained, State.showFailed, State.retrainQ_setFlag, State.retrainQ_bump, State.retrainQ_bump,
    State.retrainQ_setF, State.retrainQ_setF, State.retrainQ_setF, State.retrains]

theorem State.retrains_gaveUp (s : State) (n c m : Nat) : (s.gaveUp n c).retrains m = s.retrains m := by
  rw [State.gaveUp, State.retrains_due, State.retrains_erq, State.retrains, State.showFailed, State.retrainQ_setFlag,
    State.retrainQ_setF, State.retrainQ_bump, State.retrains]

theorem retrainAttemptEnd_succeeds {s : State} {n : Nat} (h : s.flag (MSC_STATUS.RETRAINING n) = true) :
    exec (.retrainAttemptEnd n true) s = .next ((s.retrained n (s.f (MSC_STATUS.RT_CH n))).nextRetrain n) :=
  (if_pos h).trans (if_pos rfl)

/-- FAILS counts a failed attempt. -/
theorem State.fails_bump {s : State} {n c : Nat} (h : s.f (MSC_CH_STATUS.FAILS n c) ≤ 2) :
    (s.bump (MSC_CH_STATUS.FAILS n c) 1).f (MSC_CH_STATUS.FAILS n c) = s.f (MSC_CH_STATUS.FAILS n c) + 1 := by
  rw [State.bump, State.f_setF_self _ _ _ (by simp [MSC_CH_STATUS.FAILS]) (by simp [MSC_CH_STATUS.FAILS])]
  simp only [MSC_CH_STATUS.FAILS] at h ⊢
  omega

/-- Settles O36. -/
theorem channelsRetrain : Obligations.ChannelsRetrain := by
  intro s by_ n c ch begins asks hn
  have hc : ch < 32 := c.isLt
  have hasks {i : Instr} (r : State) (hf : r.flag (MSC_STATUS.RETRAINING n) = s.flag (MSC_STATUS.RETRAINING n))
      (hr : r.f (MSC_STATUS.RT_CH n) = s.f (MSC_STATUS.RT_CH n)) (hq : r.retrains n = s.retrains n)
      (hi : exec i s = .next (r.requestRetrain n ch)) : asks i r := by
    obtain ⟨h1, h2, h3⟩ := State.requestRetrain_asks r n ch hc
    rw [hf, hr, hq] at h2
    rw [hf, hr] at h3
    rw [hf] at h1
    exact ⟨_, hi, h1, h2, h3⟩
  refine ⟨fun k => ?crc, hasks s rfl rfl rfl rfl, fun ha => hasks s rfl rfl rfl (congrArg Host.Outcome.next (if_pos ha)),
    fun hr hch hq => ⟨?succeeds, fun hf => ?again, fun hf => ?fails⟩⟩
  case crc =>
    intro crc r
    have hcrc : r.f (MSC_CH_STATUS.LINK_CRC n ch) = min (2 ^ 16 - 1) (crc + k) := by
      refine (State.f_setF_self s _ _ (by simp [MSC_CH_STATUS.LINK_CRC]) (by simp [MSC_CH_STATUS.LINK_CRC])).trans ?_
      simp only [MSC_CH_STATUS.LINK_CRC]
      omega
    have hrow : exec (.linkCrcLimit n ch k) s = .next
        (if crc < 256 ∧ 256 ≤ r.f (MSC_CH_STATUS.LINK_CRC n ch) then r.requestRetrain n ch else r) := rfl
    have hreg : r.reg (MSC_STATUS.at n) = s.reg (MSC_STATUS.at n) := State.reg_setF_at _ _ _ _ (by
      simp only [MSC_STATUS.at, MSC_CH_STATUS.LINK_CRC, MSC_CH_STATUS.at]
      omega)
    have hflag : r.flag (MSC_STATUS.RETRAINING n) = s.flag (MSC_STATUS.RETRAINING n) := by
      rw [State.flag, State.f_of_reg (q := MSC_STATUS.RETRAINING n) hreg, State.flag]
    have hq : r.retrains n = s.retrains n := by rw [State.retrains, State.retrainQ_setF, State.retrains]
    refine ⟨fun h1 h2 => hasks r hflag (State.f_of_reg (q := MSC_STATUS.RT_CH n) hreg) hq (hrow.trans ?_), fun h => hrow.trans ?_⟩
    · rw [if_pos ⟨h1, by rw [hcrc]; omega⟩]
    · rw [if_neg (by rw [hcrc]; omega)]
  case succeeds =>
    have hrow := retrainAttemptEnd_succeeds hr
    rw [hch] at hrow
    obtain ⟨h1, h2, h3, h4⟩ := s.retrained_fields n ch
    have hq' : (s.retrained n ch).retrains n = [] := (State.retrains_retrained s n ch n).trans hq
    exact ⟨_, hrow, (State.f_nextRetrain _ hq').trans h1, (State.f_nextRetrain _ hq').trans h2,
      (State.f_nextRetrain _ hq').trans h3, (State.f_nextRetrain _ hq').trans h4, State.retraining_nextRetrain _ n hq'⟩
  case again =>
    refine (if_pos hr).trans ?_
    rw [hch]
    refine (if_neg Bool.false_ne_true).trans (if_neg ?_)
    rw [State.fails_bump (by omega)]
    omega
  case fails =>
    have hrow : exec (.retrainAttemptEnd n false) s = .next ((s.gaveUp n ch).nextRetrain n) := by
      refine (if_pos hr).trans ?_
      rw [hch]
      refine (if_neg Bool.false_ne_true).trans (if_pos ?_)
      rw [State.fails_bump (by omega)]
      omega
    obtain ⟨h1, h2⟩ := s.gaveUp_fields (n := n) hc
    have hq' : (s.gaveUp n ch).retrains n = [] := (State.retrains_gaveUp s n ch n).trans hq
    refine ⟨_, hrow, (State.f_nextRetrain _ hq').trans h1, ?_, State.retraining_nextRetrain _ n hq', ?_⟩
    · rw [State.nextRetrain_none _ n hq', State.flag,
        State.f_setF_other _ _ _ _ (by simp [MSC_STATUS.RT_CH]) (by simp [MSC_STATUS.RT_CH])
          (by simp [MSC_STATUS.RT_CH, MSC_STATUS.FAILED_ANY]), State.setFlag,
        State.f_setF_other _ _ _ _ (by simp [MSC_STATUS.RETRAINING]) (by simp [MSC_STATUS.RETRAINING])
          (by simp [MSC_STATUS.RETRAINING, MSC_STATUS.FAILED_ANY])]
      exact h2
    · rw [State.nextRetrain_none _ n hq']
      exact State.mem_due _ 2 (32 * n + ch)

/-! ## What keeps memory up -/

/-- A page that reads right needs nothing of the scrubber. -/
theorem State.scrubOne_calm {s : State} {gp : Nat} (h : s.pageCalm false gp = true) : s.scrubOne gp = some s := by
  simp only [State.pageCalm, Bool.and_eq_true, Bool.not_eq_true'] at h
  obtain ⟨⟨⟨-, hf⟩, -⟩, hj⟩ := h
  unfold State.scrubOne State.judgePage
  rw [hf, if_neg Bool.false_ne_true]
  dsimp only
  cases hd : judge (s.stampOf gp) (s.page gp) with
  | zero => rfl
  | ok d k =>
    rw [hd] at hj
    exact if_pos (by simpa using hj)
  | bad c p => simp [hd] at hj
  | poisoned => simp [hd] at hj

theorem State.paused_of_calm {s : State} {gp : Nat} {w : Bool} (h : s.pageCalm w gp = true) : s.paused gp = false := by
  simp only [State.pageCalm, Bool.and_eq_true, Bool.not_eq_true'] at h
  exact h.1.1.1

theorem scrubPage_goes {s r : State} {n c lapMs : Nat} (hn : n < 16) (hc : c < 32) (he : s.flag (MSC_SCRUB_CTL.EN n) = true)
    (hj : s.scrubPos n c < s.stackPages / 32) (hd : s.domRuns (dMSC n) = true) (hs : s.f (MSC_CH_STATUS.STATE n c) ≠ 1)
    (hp : s.paused (s.stackPages * n + pageAt c (s.scrubPos n c)) = false)
    (hr : s.scrubOne (s.stackPages * n + pageAt c (s.scrubPos n c)) = some r) :
    exec (.scrubPage n c lapMs) s =
      let moved := { r with scrubAt := SMap.put 0 r.scrubAt (32 * n + c) (s.scrubPos n c + 1) }
      .next (if (List.range 32).all (fun d => moved.scrubPos n d == s.stackPages / 32) then moved.endLap n lapMs else moved) := by
  refine (if_pos ⟨hn, hc, he, hj, by rw [hp]; rfl, hs, hd⟩).trans ?_
  rw [hr]

/-- A page copied into the reserve, not the last one of its extent (R374). -/
theorem copyPage_copies {s : State} {n : Nat} (ha : s.flag (MSC_COPY.ACTIVE n) = true) (hh : s.whold n = false)
    (hd : s.domRuns (dMSC n) = true) :
    let w := s.reg (MSC_REDIR.at n (s.f (MSC_COPY.ENTRY n)))
    let cp := s.f (MSC_COPY.CP n)
    let gp := s.stackPages * n + pageAt (fld w 56 52) (fld w 51 32 + cp)
    s.paused gp = false → s.f (MSC_CH_STATUS.STATE n (fld w 31 27)) ≠ 1 → (s.mergeBuf (32 * n + fld w 31 27)).length < 16 →
    cp + 1 ≠ 2 ^ fld w 60 57 →
      let r := (s.copyOf gp).2
      let m := SMap.put Page.zero r.reserve (reserveKey n (fld w 31 27) (fld w 26 12 + cp)) (s.copyOf gp).1
      exec (.copyPage n) s = .next ({ r with reserve := m }.setF (MSC_COPY.CP n) (cp + 1)) := by
  intro w cp gp hp hs hroom hcp r m
  refine (if_pos ⟨ha, by rw [hh]; rfl, hd⟩).trans ((if_neg ?_).trans ?_)
  · rintro (h | h)
    · exact Bool.false_ne_true (hp.symm.trans h)
    · exact hs h
  · have hm : s.mergeRoom (32 * n + fld w 31 27) = some s := if_pos hroom
    rw [hm]
    exact if_neg hcp

/-- Settles O37; that the scrubber's write-back waits for room, that the copier passes through an entry of the merge buffer,
and the TYPE and DETAIL of a lost flit's record are the model's choice (log entries 22, 76 and 90). -/
theorem memoryIsMaintained : Obligations.MemoryIsMaintained := by
  intro s n c bank lapMs badCrcs t tmin tmax
  refine ⟨rfl, fun hh ht => if_pos ⟨by rw [hh]; rfl, ht⟩, fun hh h1 h2 => if_pos ⟨hh, h1, h2⟩, ?scrub, rfl, ?copy,
    fun block h => if_pos h, fun h => (if_neg (Nat.not_lt.2 h)).trans (if_pos rfl),
    fun block h hb => (if_neg (Nat.not_lt.2 h)).trans (if_neg hb)⟩
  case scrub =>
    intro j gp goes hn hc he hj hd hs
    exact ⟨fun r hp hr => scrubPage_goes hn hc he hj hd hs hp hr,
      fun h => scrubPage_goes hn hc he hj hd hs (State.paused_of_calm h) (State.scrubOne_calm h)⟩
  case copy =>
    intro i w cp gp ha hh hd hp hs hroom hcp r m
    exact copyPage_copies ha hh hd hp hs hroom hcp

end Sys2Proof.Machine

/-! PROOFS. Rounds credit the jobs that had demand (R583 - R586). -/
namespace Sys2Proof.Machine

/-! ## Balances read back -/

/-- A 64-bit code of a signed number reads back as the number, where it fits. -/
theorem sfld_of_twos {w : W64} {b : Int} (h : fld w 63 0 = twos 64 b % 2 ^ 64) (hb : -2 ^ 63 ≤ b ∧ b < 2 ^ 63) :
    sfld w 63 0 = b := by
  obtain ⟨hl, hu⟩ := hb
  simp only [sfld, h, twos]
  split <;> omega

theorem State.signed_setSigned_self (s : State) {a : Nat} {b : Int} (hb : -2 ^ 63 ≤ b ∧ b < 2 ^ 63) :
    (s.setSigned ⟨a, 63, 0⟩ b).signed ⟨a, 63, 0⟩ = b :=
  sfld_of_twos (State.f_setF_self s ⟨a, 63, 0⟩ _ (by show 63 < 64; decide) (by show 0 ≤ 63; decide)) hb

theorem State.signed_of_reg {s t : State} {r : FRef} (h : t.reg r.off = s.reg r.off) : t.signed r = s.signed r := by
  rw [State.signed, h, State.signed]

theorem State.reg_setSigned_at (s : State) (r : FRef) (v : Int) {a : Nat} (h : a ≠ r.off) :
    (s.setSigned r v).reg a = s.reg a := State.reg_setF_at _ _ _ _ h

/-- What a balance of the tile pool changes. -/
theorem State.reg_setBalT (s : State) (j : Nat) (b : Int) {a : Nat} (h : a ≠ EQX_JOB_BAL_T.at j)
    (h2 : a ≠ EQX_JOB_STATUS.at j) : (s.setBalT j b).reg a = s.reg a :=
  (State.reg_setFlag_at _ _ _ h2).trans (State.reg_setSigned_at _ _ _ h)

/-- What a balance of a stack pool changes. -/
theorem State.reg_setBalV (s : State) (n j : Nat) (b : Int) {a : Nat} (h : a ≠ EQX_JOB_BAL_V.at j n)
    (h2 : a ≠ EQX_JOB_STATUS.at j) : (s.setBalV n j b).reg a = s.reg a :=
  (State.reg_setF_at _ _ _ _ h2).trans (State.reg_setSigned_at _ _ _ h)

theorem State.balT_setBalT_self (s : State) (j : Nat) {b : Int} (hb : -2 ^ 63 ≤ b ∧ b < 2 ^ 63) :
    (s.setBalT j b).balT j = b :=
  (State.signed_of_reg (State.reg_setFlag_at _ _ _ (by
    simp only [EQX_JOB_BAL_T.BAL, EQX_JOB_BAL_T.at, EQX_JOB_STATUS.T_ARREARS, EQX_JOB_STATUS.at]; omega))).trans
    (State.signed_setSigned_self s hb)

theorem State.balV_setBalV_self (s : State) (n j : Nat) {b : Int} (hb : -2 ^ 63 ≤ b ∧ b < 2 ^ 63) :
    (s.setBalV n j b).balV n j = b :=
  (State.signed_of_reg (State.reg_setF_at _ _ _ _ (by
    simp only [EQX_JOB_BAL_V.BAL, EQX_JOB_BAL_V.at, EQX_JOB_STATUS.V_ARREARS, EQX_JOB_STATUS.at]; omega))).trans
    (State.signed_setSigned_self s hb)

theorem State.balT_setBalT_other (s : State) {j k : Nat} (b : Int) (h : j ≠ k) : (s.setBalT k b).balT j = s.balT j :=
  State.signed_of_reg (State.reg_setBalT s k b
    (by simp only [EQX_JOB_BAL_T.BAL, EQX_JOB_BAL_T.at]; omega)
    (by simp only [EQX_JOB_BAL_T.BAL, EQX_JOB_BAL_T.at, EQX_JOB_STATUS.at]; omega))

theorem State.balV_setBalV_other (s : State) {n j k : Nat} (b : Int) (hn : n < 16) (h : j ≠ k) :
    (s.setBalV n k b).balV n j = s.balV n j :=
  State.signed_of_reg (State.reg_setBalV s n k b
    (by simp only [EQX_JOB_BAL_V.BAL, EQX_JOB_BAL_V.at]; omega)
    (by simp only [EQX_JOB_BAL_V.BAL, EQX_JOB_BAL_V.at, EQX_JOB_STATUS.at]; omega))

/-- Balances change no SHARE. -/
theorem State.share_setBalT (s : State) (j k : Nat) (b : Int) : (s.setBalT k b).share j = s.share j :=
  State.f_of_reg (State.reg_setBalT s k b
    (by simp only [EQX_JOB_CFG.SHARE, EQX_JOB_CFG.at, EQX_JOB_BAL_T.at]; omega)
    (by simp only [EQX_JOB_CFG.SHARE, EQX_JOB_CFG.at, EQX_JOB_STATUS.at]; omega))

theorem State.share_setBalV (s : State) {n : Nat} (j k : Nat) (b : Int) (hn : n < 16) :
    (s.setBalV n k b).share j = s.share j :=
  State.f_of_reg (State.reg_setBalV s n k b
    (by simp only [EQX_JOB_CFG.SHARE, EQX_JOB_CFG.at, EQX_JOB_BAL_V.at]; omega)
    (by simp only [EQX_JOB_CFG.SHARE, EQX_JOB_CFG.at, EQX_JOB_STATUS.at]; omega))

theorem State.share_debitT (s : State) (j k b : Nat) : (s.debitT k b).share j = s.share j :=
  (State.f_of_reg (State.reg_bump_at _ _ _ (by
    simp only [EQX_JOB_CFG.SHARE, EQX_JOB_CFG.at, EQX_JOB_WORK_T.WORK, EQX_JOB_WORK_T.at]; omega))).trans
    (State.share_setBalT s j k _)

theorem State.share_debitV (s : State) {n : Nat} (j k b : Nat) (hn : n < 16) : (s.debitV n k b).share j = s.share j :=
  (State.f_of_reg (State.reg_bump_at _ _ _ (by
    simp only [EQX_JOB_CFG.SHARE, EQX_JOB_CFG.at, EQX_JOB_WORK_V.WORK, EQX_JOB_WORK_V.at]; omega))).trans
    (State.share_setBalV s j k _ hn)

/-! ## Folds over jobs -/

/-- What each step of a fold keeps, the fold keeps. -/
theorem foldl_keeps {α β γ : Type} (g : β → γ) (f : β → α → β) (h : ∀ b a, g (f b a) = g b) (l : List α) :
    ∀ b, g (l.foldl f b) = g b := by
  induction l with
  | nil => exact fun _ => rfl
  | cons a l ih => exact fun b => (ih _).trans (h b a)

section
variable (bal : State → Nat → Int) (set : State → Nat → Int → State) (c : Nat → Nat) (cap : Int)
  (hself : ∀ s j b, -2 ^ 63 ≤ b ∧ b < 2 ^ 63 → bal (set s j b) j = b)
  (hother : ∀ s j k b, j ≠ k → bal (set s k b) j = bal s j)
include hother

theorem credits_others (js : List Nat) (j : Nat) (h : j ∉ js) : ∀ s : State,
    bal ((js.map (fun k => (k, c k))).foldl (fun s p => set s p.1 (min (bal s p.1 + p.2) cap)) s) j = bal s j := by
  induction js with
  | nil => exact fun _ => rfl
  | cons k js ih =>
    intro s
    obtain ⟨hk, hj⟩ := not_or.1 (fun x => h (List.mem_cons.2 x))
    exact (ih hj _).trans (hother s j k _ hk)

include hself

/-- Each job of a list without repetition is credited once. -/
theorem credits_each (js : List Nat) (hn : js.Nodup) (j : Nat) (h : j ∈ js) : ∀ s : State,
    (-2 ^ 63 ≤ min (bal s j + c j) cap ∧ min (bal s j + c j) cap < 2 ^ 63) →
    bal ((js.map (fun k => (k, c k))).foldl (fun s p => set s p.1 (min (bal s p.1 + p.2) cap)) s) j =
      min (bal s j + c j) cap := by
  induction js with
  | nil => exact absurd h List.not_mem_nil
  | cons k js ih =>
    intro s hfit
    obtain ⟨hk, hn⟩ := List.nodup_cons.1 hn
    rcases List.mem_cons.1 h with rfl | hj
    · exact (credits_others bal set c cap hother js j hk _).trans (hself s j _ hfit)
    · have hne : j ≠ k := fun e => hk (e ▸ hj)
      have hb : bal (set s k (min (bal s k + c k) cap)) j = bal s j := hother s j k _ hne
      have := ih hn hj (set s k (min (bal s k + c k) cap)) (by rw [hb]; exact hfit)
      rw [hb] at this
      exact this

end

/-- A map filled for every job holds each job's value. -/
theorem get_foldl_shares (g key : Nat → Nat) (hkey : ∀ a b, key a = key b → a = b) (js : List Nat) :
    ∀ (m : SMap Nat) (j : Nat),
    SMap.get 0 (js.foldl (fun m j => SMap.put 0 m (key j) (g j)) m) (key j) =
      if j ∈ js then g j else SMap.get 0 m (key j) := by
  induction js with
  | nil => exact fun _ _ => rfl
  | cons k js ih =>
    intro m j
    rw [List.foldl_cons, ih, SMap.get_put]
    by_cases hj : j ∈ js
    · rw [if_pos hj, if_pos (List.mem_cons_of_mem _ hj)]
    · rw [if_neg hj]
      by_cases hk : j = k
      · rw [if_pos (congrArg key hk), hk, if_pos List.mem_cons_self]
      · rw [if_neg (fun e => hk (hkey _ _ e)), if_neg (by simp [hk, hj])]

theorem mem_jobList {j : Nat} (h : j < 64) : j ∈ jobList := List.mem_range.2 h

/-- The shares in force after a round are those written. -/
theorem State.shareInT_endRoundT (s : State) {j : Nat} (h : j < 64) : s.endRoundT.shareInT j = s.share j := by
  have hs : ∀ (len : Nat) (l : List (Nat × Nat)) (x : State),
      (l.foldl (fun s p => s.setBalT p.1 (min (s.balT p.1 + p.2) (4 * len))) x).share j = x.share j :=
    fun len l => foldl_keeps (State.share · j) _ (by intro x p; exact x.share_setBalT j p.1 _) l
  unfold State.endRoundT State.shareInT
  exact (get_foldl_shares _ (fun j => j) (fun _ _ h => h) jobList _ j).trans
    ((if_pos (mem_jobList h)).trans (hs _ _ _))

theorem State.shareInV_endRoundV (s : State) {n j : Nat} (hn : n < 16) (h : j < 64) :
    (s.endRoundV n).shareInV n j = s.share j := by
  have hs : ∀ (len : Nat) (l : List (Nat × Nat)) (x : State),
      (l.foldl (fun s p => s.setBalV n p.1 (min (s.balV n p.1 + p.2) (4 * len))) x).share j = x.share j :=
    fun len l => foldl_keeps (State.share · j) _ (by intro x p; exact x.share_setBalV j p.1 _ hn) l
  unfold State.endRoundV State.shareInV
  exact (get_foldl_shares _ (fun j => 64 * n + j) (fun _ _ h => by omega) jobList _ j).trans
    ((if_pos (mem_jobList h)).trans (hs _ _ _))

/-- Debits of the round change no SHARE. -/
theorem State.share_debitsT (debits : List (Nat × Nat)) (s : State) (j : Nat) :
    (debits.foldl (fun s d => if d.1 < 64 then s.debitT d.1 d.2 else s) s).share j = s.share j :=
  foldl_keeps (State.share · j) _ (by
    intro x d
    split
    · exact x.share_debitT j _ _
    · rfl) debits s

theorem State.share_debitsV (debits : List (Nat × Nat)) (s : State) {n : Nat} (j : Nat) (hn : n < 16) :
    (debits.foldl (fun s d => if d.1 < 64 then s.debitV n d.1 d.2 else s) s).share j = s.share j :=
  foldl_keeps (State.share · j) _ (by
    intro x d
    split
    · exact x.share_debitV j _ _ hn
    · rfl) debits s

/-- Settles O40: a round credits each job that had demand once, and the written shares come into force. -/
theorem roundsCreditJobs : Obligations.RoundsCreditJobs := by
  unfold Obligations.RoundsCreditJobs
  intro s n debits r v jv fits
  refine ⟨fun hn _ => ⟨r.endRoundT, rfl, fun j hj => ⟨fun hin hfit => ?_, fun hout => ?_, ?_⟩⟩,
    fun hn16 hn => ⟨v.endRoundV n, if_pos hn16, fun j hj => ⟨fun hin hfit => ?_, fun hout => ?_, ?_⟩⟩⟩
  · exact credits_each State.balT State.setBalT _ _ (fun s j _ h => s.balT_setBalT_self j h)
      (fun s _ _ b h => s.balT_setBalT_other b h) r.demT hn j hin r hfit
  · exact credits_others State.balT State.setBalT _ _ (fun s _ _ b h => s.balT_setBalT_other b h) r.demT j hout r
  · exact (r.shareInT_endRoundT hj).trans (s.share_debitsT debits j)
  · exact credits_each (fun s => s.balV n) (fun s => s.setBalV n) _ _ (fun s j _ h => s.balV_setBalV_self n j h)
      (fun s _ _ b h => s.balV_setBalV_other b hn16 h) jv hn j hin v hfit
  · exact credits_others (fun s => s.balV n) (fun s => s.setBalV n) _ _
      (fun s _ _ b h => s.balV_setBalV_other b hn16 h) jv j hout v
  · exact (v.shareInV_endRoundV hn16 hj).trans (s.share_debitsV debits j hn16)

end Sys2Proof.Machine

/-! PROOFS. What the accesses of the device's requesters leave alone: a predicate that survives the updates they are made
of survives each of them, however it ends. -/
namespace Sys2Proof.Machine

/-! ## Predicates that survive -/

/-- Registers outside the block of EQX. -/
def Calm (a : Nat) : Prop := a < 0x100000 ∨ 0x106000 ≤ a

theorem calm_add {c n : Nat} (h : 0x106000 ≤ c) : Calm (c + n) := Or.inr (by omega)

theorem calm_add2 {c n m : Nat} (h : 0x106000 ≤ c) : Calm (c + n + m) := Or.inr (by omega)

theorem calm_lit {c : Nat} (h : (decide (c < 0x100000) || decide (0x106000 ≤ c)) = true) : Calm c := by
  simpa [Calm] using h

/-- What the accesses below touch beside registers and memories: counters, notes and buffers, the tiles and their images. -/
def State.untouched (s : State) : State :=
  { s with erqSeq := 0#32, msgs := [], heldRecs := [], svcDue := [], free := 0, ceSince := [], heavyNow := [], merge := [],
           scratchWeak := [], tiles := [], saved := [], tileUe := [], repairDue := [], lastGran := [], srvIn := [] }

/-- P survives what a memory page's write-back does: page writes, counts and records. -/
structure PageSteady (P : State → Prop) : Prop where
  apart : ∀ {s t : State}, P s → t.untouched = s.untouched → P t
  setReg : ∀ {s : State} {a : Nat} (v : W64), P s → Calm a → P (s.setReg a v)
  setPage : ∀ {s : State} (gp : Nat) (pg : Page), P s → P (s.setPage gp pg)

/-- P survives what an access does. -/
structure Steady (P : State → Prop) : Prop extends PageSteady P where
  far : ∀ {s : State} (a : Nat) (bs : List Byte) (g : List Nat), P s →
    P { s with far := Bytes.wrList s.far a bs, farPoison := g }
  scratch : ∀ {s : State} (a : Nat) (bs : List Byte) (g k : List Nat), P s →
    P { s with scratch := Bytes.wrList s.scratch a bs, scratchBad := g, scratchWeak := k }
  setLine : ∀ {s : State} (j l : Nat) (c : CLine), P s → P (s.setLine j l c)
  setReq : ∀ {s : State} (i : Nat) (r : Req), P s → P (s.setReq i r)
  setSrvJob : ∀ {s : State} (j : Nat) (x : SrvJob), P s → P (s.setSrvJob j x)

/-- What each step of a fold keeps, the fold keeps. -/
theorem foldl_inv {α β : Type} {P : β → Prop} {f : β → α → β} {l : List α} {b : β} (hb : P b)
    (h : ∀ b, ∀ a ∈ l, P b → P (f b a)) : P (l.foldl f b) := by
  induction l generalizing b with
  | nil => exact hb
  | cons a l ih =>
    exact ih (h b a List.mem_cons_self hb) fun b a ha => h b a (List.mem_cons_of_mem _ ha)

/-! ## Registers and records -/

section
variable {P : State → Prop} (hP : PageSteady P) {s : State} (h : P s)
include hP h

theorem PageSteady.setF {r : FRef} (v : Nat) (c : Calm r.off) : P (s.setF r v) := hP.setReg _ h c

theorem PageSteady.setFlag {r : FRef} (b : Bool) (c : Calm r.off) : P (s.setFlag r b) := hP.setReg _ h c

theorem PageSteady.bump {r : FRef} (n : Nat) (c : Calm r.off) : P (s.bump r n) := hP.setReg _ h c

theorem PageSteady.bumpSat {r : FRef} (n : Nat) (c : Calm r.off) : P (s.bumpSat r n) := hP.setReg _ h c

theorem PageSteady.perfAdd {c o : FRef} (n : Nat) (hc : Calm c.off) (ho : Calm o.off) : P (s.perfAdd c o n) := by
  unfold State.perfAdd
  dsimp only
  split
  · exact hP.setFlag (hP.setF h _ hc) _ ho
  · exact hP.setF h _ hc

theorem PageSteady.anvEvent (t ev n : Nat) : P (s.anvEvent t ev n) := by
  unfold State.anvEvent
  split
  · refine foldl_inv h fun s k _ h => ?_
    split
    · exact hP.perfAdd h _ (calm_add2 (by decide)) (calm_add2 (by decide))
    · exact h
  · exact h

theorem PageSteady.vrgEvent (n ev k : Nat) : P (s.vrgEvent n ev k) := by
  unfold State.vrgEvent
  split
  · refine foldl_inv h fun s k _ h => ?_
    split
    · exact hP.perfAdd h _ (calm_add2 (by decide)) (calm_add2 (by decide))
    · exact h
  · exact h

theorem PageSteady.due (a t : Nat) : P (s.due a t) := by
  unfold State.due
  split
  · exact h
  · exact hP.apart h rfl

theorem PageSteady.post (k : Nat) (j : Option Nat) (v : W64) (a : Nat) : P (s.post k j v a) := hP.apart h rfl

theorem PageSteady.takeFree : P s.takeFree := hP.apart h rfl

theorem PageSteady.alertFor (sev : Nat) : P (s.alertFor sev) := by
  unfold State.alertFor
  split
  · exact hP.setFlag h _ (calm_lit rfl)
  · split
    · exact hP.setFlag h _ (calm_lit rfl)
    · exact h

theorem PageSteady.erqLose : P s.erqLose := hP.setFlag (hP.bump h _ (calm_lit rfl)) _ (calm_lit rfl)

omit h in
theorem PageSteady.storeWords (ws : List W64) : ∀ {s : State} (a : Nat), P s → a + 8 * ws.length ≤ 0x100000 →
    P (s.storeWords a ws) := by
  induction ws with
  | nil => exact fun _ h _ => h
  | cons w ws ih =>
    intro s a h ha
    rw [List.length_cons] at ha
    exact ih _ (hP.setReg w h (Or.inl (by omega))) (by omega)

theorem PageSteady.erqLatch (r : ErqRec) {ws : List W64} (hw : ws.length = 4) : P (s.erqLatch r ws) := by
  unfold State.erqLatch
  split
  · exact hP.setFlag (hP.storeWords ws _ h (by rw [hw]; decide)) _ (calm_lit rfl)
  · exact h

theorem PageSteady.erqQueue (seq : W32) (r : ErqRec) (joined : Bool) : P (s.erqQueue seq r joined) := by
  have hl := hP.erqLatch (hP.alertFor h r.sev) r (ws := erqWords s seq r joined) rfl
  unfold State.erqQueue
  dsimp only
  split
  · exact hP.erqLose hl
  · refine hP.post (hP.setF (hP.storeWords _ _ hl ?_) _ (calm_lit rfl)) _ _ _ _
    show ERQ_REC.at (_ % 64) 0 + 8 * 4 ≤ _
    unfold ERQ_REC.at
    omega

theorem PageSteady.erq (r : ErqRec) (joined : Bool) : P (s.erq r joined) := by
  have h1 : P { s with erqSeq := s.erqSeq + 1#32 } := hP.apart h rfl
  unfold State.erq
  split
  · exact h
  · dsimp only
    split
    · split
      · exact hP.erqLose (hP.erqLatch h1 _ rfl)
      · exact hP.apart h rfl
    · exact hP.erqQueue h1 _ _ _

/-! ## Pages of stack memory -/

theorem PageSteady.scratchWeak (l : List Nat) : P { s with scratchWeak := l } := hP.apart h rfl

theorem PageSteady.ceSince (m : SMap Nat) : P { s with ceSince := m } := hP.apart h rfl

theorem PageSteady.heavyNow (l : List Nat) : P { s with heavyNow := l } := hP.apart h rfl

theorem PageSteady.setMergeBuf (gc : Nat) (l : List MergeEntry) : P (s.setMergeBuf gc l) := hP.apart h rfl

theorem PageSteady.poisonPage (gp c k : Nat) : P (s.poisonPage gp c k) :=
  hP.erq (hP.bumpSat (hP.bump (hP.setPage _ _ h) _ (calm_add (by decide))) _ (calm_add (by decide))) _ _

theorem PageSteady.countFixed (gp k : Nat) : P (s.countFixed gp k) := by
  unfold State.countFixed
  split
  · exact h
  · have h1 := hP.bumpSat h (r := MSC_ECC_COUNT.CE (s.stackOf gp)) 1 (calm_add (by decide))
    dsimp only
    split
    · refine hP.erq ?_ _ _
      split
      · exact hP.heavyNow (hP.due (hP.ceSince h1 _) _ _) _
      · exact hP.heavyNow (hP.ceSince h1 _) _
    · exact hP.ceSince h1 _

theorem PageSteady.otherRead (gp : Nat) : P (s.otherRead gp).2 := by
  unfold State.otherRead
  split
  · exact h
  · split
    · split
      · exact h
      · split
        · exact hP.erq (hP.setFlag h _ (calm_add (by decide))) _ _
        · exact h
    · dsimp only
      split
      · exact h
      · split
        · exact hP.countFixed h _ _
        · exact h
        · exact hP.poisonPage h _ _ _
        · exact h

theorem PageSteady.writeBackEntry (e : MergeEntry) : P (s.writeBackEntry e) := by
  have h1 := hP.setMergeBuf h (s.gchan e.page) ((s.mergeBuf (s.gchan e.page)).filter (fun x => x.page != e.page))
  have hun {t : State} (ht : P t) (n v : Nat) : P (t.setF (MSC_POISONED.PAGES n) v) := hP.setF ht _ (calm_add (by decide))
  have hbad {u : State} (hu : P u) (r : PageRes) : P (match r with
      | .bad c p => u.poisonPage e.page c p
      | _ => u) := by
    cases r with
    | bad c p => exact hP.poisonPage hu _ _ _
    | _ => exact hu
  unfold State.writeBackEntry
  dsimp only
  split
  · exact hP.erq h1 _ _
  split
  · refine hP.setPage _ _ ?_
    split
    · exact hun h1 _ _
    · exact h1
  split
  · exact hP.setPage _ _ (hP.countFixed h1 _ _)
  · exact hP.setPage _ _ h1
  · split
    · next heq =>
      have h3 := heq ▸ hP.otherRead (hbad h1 _) e.page
      exact hP.erq (hun (hP.setPage _ _ h3) _ _) _ _
    · next heq =>
      have h3 := heq ▸ hP.otherRead (hbad h1 _) e.page
      exact hP.erq h3 _ _

theorem PageSteady.mergeInto (gp off : Nat) (bs : List Byte) : P (s.mergeInto gp off bs) := hP.setMergeBuf h _ _

theorem PageSteady.mergeRoom {gc : Nat} {t : State} (e : s.mergeRoom gc = some t) : P t := by
  unfold State.mergeRoom at e
  split at e
  · exact Option.some.inj e ▸ h
  · split at e
    · cases e
    · split at e
      · split at e
        · cases e
        · exact Option.some.inj e ▸ hP.writeBackEntry h _
      · cases e

theorem PageSteady.pushEntry {e : MergeEntry} {t : State} (he : s.pushEntry e = some t) : P t := by
  obtain ⟨u, hu, rfl⟩ := Option.map_eq_some_iff.1 he
  exact hP.setMergeBuf (hP.mergeRoom h hu) _ _

theorem PageSteady.writePage {gp off : Nat} {bs : List Byte} {t : State} (e : s.writePage gp off bs = some t) : P t := by
  unfold State.writePage at e
  split at e
  · cases e
  · split at e
    · exact Option.some.inj e ▸ hP.mergeInto h _ _ _
    · exact hP.pushEntry h e

theorem PageSteady.writeUnder {gp mask : Nat} {d : Bytes} {t : State} (e : s.writeUnder gp d mask = some t) : P t := by
  unfold State.writeUnder at e
  split at e
  · exact Option.some.inj e ▸ hP.setMergeBuf h _ _
  · exact hP.pushEntry h e

theorem PageSteady.readPage (gp off n : Nat) : P (s.readPage gp off n).2 := by
  have hj (e : Option MergeEntry) : P (match s.judgePage gp with
      | .zero => (RdRes.ok (mergedBytes e [] off n), s)
      | .ok d k => (.ok (mergedBytes e d off n), s.countFixed gp k)
      | .bad c p => (.poison, s.poisonPage gp c p)
      | .poisoned => (.poison, s)).2 := by
    split
    · exact h
    · exact hP.countFixed h _ _
    · exact hP.poisonPage h _ _ _
    · exact h
  unfold State.readPage
  split
  · exact h
  · dsimp only
    split <;> split
    · exact h
    · exact hj _
    · exact h
    · exact hj _

/-! ## Tiles -/

theorem PageSteady.setTile (t : Nat) (x : TileState) : P (s.setTile t x) := hP.apart h rfl

theorem PageSteady.setCtx (j l : Nat) (x : TileState) : P (s.setCtx j l x) := by
  unfold State.setCtx
  split
  · exact hP.setTile h _ _
  · exact hP.apart h rfl

theorem PageSteady.setSpot (p : SpmSpot) (x : TileState) : P (s.setSpot p x) := by
  cases p with
  | ctx j l => exact hP.setCtx h j l x
  | phys t => exact hP.setTile h t x

theorem PageSteady.anvUe (t : Nat) (u : TUnit) (req off : Nat) : P (s.anvUe t u req off) := by
  unfold State.anvUe
  extract_lets first u1 u2 k u3
  have h1 : P u1 := by
    unfold u1
    split
    · exact hP.setReg _ h (calm_add (by decide))
    · exact hP.setFlag h _ (calm_add (by decide))
  have h2 : P u2 := by cases u <;> exact hP.setFlag h1 _ (calm_add (by decide))
  have h3 : P u3 := hP.apart h2 rfl
  split
  · exact hP.due h3 _ _
  · exact h3

theorem PageSteady.anvCe (t n : Nat) : P (s.anvCe t n) := by
  unfold State.anvCe
  split
  · exact h
  · dsimp only
    exact foldl_inv (hP.anvEvent (hP.setFlag (hP.bumpSat h _ (calm_add (by decide))) _ (calm_add (by decide))) _ _ _)
      fun s _ _ h => hP.erq h _ _

theorem PageSteady.reqOf (port : Option Nat) : P (s.reqOf port).2 := by
  cases port with
  | some q => exact h
  | none => exact hP.takeFree h

theorem PageSteady.clbCe (j : Option Nat) (q a k : Nat) : P (s.clbCe j q a k) := by
  unfold State.clbCe
  exact foldl_inv h fun s _ _ h => hP.erq (hP.bumpSat h _ (calm_lit rfl)) _ _

theorem PageSteady.noteRepair (j a : Nat) : P (s.noteRepair j a) := by
  unfold State.noteRepair
  split
  · dsimp only
    split
    · exact h
    · exact hP.apart h rfl
  · exact h

theorem PageSteady.poisonRec (who : Who) (a : Nat) : P (s.poisonRec who a) := by
  unfold State.poisonRec
  dsimp only
  refine hP.erq ?_ _ _
  split
  · split
    · exact hP.noteRepair h _ _
    · exact h
  · exact h

theorem PageSteady.onNewGranule {ev : State → State} (key a : Nat) (w : Bool) (he : ∀ s, P s → P (ev s)) :
    P (s.onNewGranule key a w ev) := by
  unfold State.onNewGranule
  dsimp only
  split
  · exact h
  · exact he _ (hP.apart h rfl)

theorem PageSteady.portEvents (own far : Option Nat) (w : Bool) : P (s.portEvents own far w) := by
  unfold State.portEvents
  split
  · exact h
  extract_lets u
  have hu : P u := by
    cases own with
    | none => exact h
    | some t => exact hP.anvEvent h _ _ _
  cases far with
  | none => exact hu
  | some t => exact hP.anvEvent hu _ _ _

theorem PageSteady.countGranule (who : Who) (a : Nat) (w : Bool) : P (s.countGranule who a w) := by
  unfold State.countGranule
  dsimp only
  split
  · refine hP.onNewGranule h _ _ _ (fun s h => hP.portEvents ?_ _ _ _)
    split
    · exact h
    · exact hP.vrgEvent h _ _ _
  · split
    · exact hP.onNewGranule h _ _ _ (fun s h => hP.portEvents h _ _ _)
    · exact h

end

/-! ## Work that keeps a predicate -/

/-- The work keeps P, however it ends. -/
def EM.Keeps {α : Type} (P : State → Prop) (x : EM α) : Prop := ∀ s, P s → P (x.go s).2

section
variable {α β : Type} {P : State → Prop}

theorem EM.Keeps.pure {a : α} : EM.Keeps P (Pure.pure a) := fun _ h => h

theorem EM.Keeps.throw {e : Stop} : EM.Keeps P (MonadExcept.throw e : EM α) := fun _ h => h

theorem EM.Keeps.get : EM.Keeps P (MonadState.get : EM State) := fun _ h => h

theorem EM.Keeps.set {t : State} (h : P t) : EM.Keeps P (MonadStateOf.set t : EM PUnit) := fun _ _ => h

theorem EM.Keeps.modify {f : State → State} (h : ∀ s, P s → P (f s)) : EM.Keeps P (modify f : EM PUnit) := h

theorem EM.Keeps.bind {x : EM α} {f : α → EM β} (h : x.Keeps P) (k : ∀ a, (f a).Keeps P) : EM.Keeps P (x >>= f) := by
  intro s hs
  have h1 := h s hs
  rw [EM.go_bind]
  rcases hx : x.go s with ⟨a | a, t⟩
  · rw [hx] at h1
    exact h1
  · rw [hx] at h1
    exact k a t h1

/-- What the work reads of the state is a state that P holds of. -/
theorem EM.Keeps.read {f : State → EM β} (k : ∀ s, P s → (f s).Keeps P) : EM.Keeps P (MonadState.get >>= f) :=
  fun s hs => k s hs s hs

theorem EM.Keeps.tryCatch {x : EM α} {f : Stop → EM α} (h : x.Keeps P) (k : ∀ e, (f e).Keeps P) :
    EM.Keeps P (MonadExcept.tryCatch x f) := by
  intro s hs
  have h1 := h s hs
  rw [EM.go_tryCatch]
  rcases hx : x.go s with ⟨a | a, t⟩
  · rw [hx] at h1
    exact k a t h1
  · rw [hx] at h1
    exact h1

theorem EM.Keeps.ite {c : Prop} [Decidable c] {x y : EM α} (h : c → x.Keeps P) (k : ¬c → y.Keeps P) :
    EM.Keeps P (if c then x else y) := by
  split
  · exact h ‹_›
  · exact k ‹_›

/-- Work that is stopped at once where c holds. -/
theorem EM.Keeps.guard {c : Prop} [Decidable c] {e : Stop} {x : PUnit → EM α} (h : ¬c → (x ⟨⟩).Keeps P) :
    EM.Keeps P (if c then MonadExcept.throw e >>= x else x ⟨⟩) :=
  .ite (fun _ _ hs => hs) h

theorem EM.Keeps.mapM {f : α → EM β} (h : ∀ a, (f a).Keeps P) : ∀ l : List α, (l.mapM f).Keeps P
  | [] => by rw [List.mapM_nil]; exact .pure
  | a :: l => by
    rw [List.mapM_cons]
    exact .bind (h a) fun _ => .bind (EM.Keeps.mapM h l) fun _ => .pure

theorem EM.Keeps.forM {f : α → EM PUnit} (h : ∀ a, (f a).Keeps P) : ∀ l : List α, (l.forM f).Keeps P
  | [] => .pure
  | a :: l => .bind (h a) fun _ => EM.Keeps.forM h l

theorem EM.Keeps.foldlM {f : β → α → EM β} (h : ∀ b a, (f b a).Keeps P) : ∀ (l : List α) (b : β), (l.foldlM f b).Keeps P
  | [], _ => .pure
  | a :: l, b => by
    rw [List.foldlM_cons]
    exact .bind (h b a) fun c => EM.Keeps.foldlM h l c

theorem EM.Keeps.forIn {f : α → β → EM (ForInStep β)} (h : ∀ a b, (f a b).Keeps P) :
    ∀ (l : List α) (b : β), (ForIn.forIn l b f).Keeps P
  | [], _ => .pure
  | a :: l, b => by
    rw [List.forIn_cons]
    refine .bind (h a b) fun r => ?_
    cases r with
    | done c => exact .pure
    | yield c => exact EM.Keeps.forIn h l c

/-- A loop that goes through all of a list, with nothing carried along. -/
theorem EM.Keeps.loop {f : α → PUnit → EM (ForInStep PUnit)} {l : List α} {b c : PUnit} (h : ∀ a b, (f a b).Keeps P) :
    EM.Keeps P (ForIn.forIn l b f >>= fun _ => Pure.pure c) :=
  .bind (.forIn h l b) fun _ => .pure

end

/-! ## Accesses -/

section
variable {P : State → Prop} (hP : Steady P)
include hP

theorem spmUe_keeps (w : Who) (p : SpmSpot) (a wd : Nat) : (spmUe w p a wd).Keeps P := by
  refine .read fun s h => .ite (fun _ => ?_) fun _ => .throw
  have h1 := hP.reqOf h w.port
  exact .bind (.set (hP.anvUe h1 _ _ _ _)) fun _ => .throw

theorem spmRead_keeps (w : Who) (a n : Nat) : (spmRead w a n).Keeps P := by
  refine .read fun s h => ?_
  split
  · exact .throw
  · dsimp only
    split
    · exact .bind (spmUe_keeps hP _ _ _ _) fun _ => .pure
    · refine .ite (fun _ => .bind (.set (hP.anvCe (hP.setSpot h _ _) _ _)) fun _ => .pure) fun _ => .pure

theorem spmWrite_keeps (w : Who) (a : Nat) (bs : List Byte) : (spmWrite w a bs).Keeps P := by
  refine .read fun s h => ?_
  split
  · exact .throw
  · dsimp only
    split
    · exact spmUe_keeps hP _ _ _ _
    · exact .set (hP.anvCe (hP.setSpot h _ _) _ _)

theorem scratchUe_keeps (w : Who) (a : Nat) : (scratchUe w a).Keeps P :=
  .read fun _ h => .bind (.set (hP.setF h _ (calm_lit rfl))) fun _ => .throw

theorem scratchHeal_keeps (w : Who) (a : Nat) (ws : List Nat) : (scratchHeal w a ws).Keeps P :=
  .read fun _ h => .set (hP.clbCe (hP.scratchWeak h _) _ _ _ _)

theorem scratchRead_keeps (w : Who) (a n : Nat) : (scratchRead w a n).Keeps P := by
  refine .read fun s h => .guard fun _ => ?_
  split
  · exact .bind (scratchUe_keeps hP _ _) fun _ => .pure
  · exact .bind (scratchHeal_keeps hP _ _ _) fun _ => .pure

theorem scratchWrite_keeps (w : Who) (a : Nat) (bs : List Byte) : (scratchWrite w a bs).Keeps P := by
  refine .read fun s h => .guard fun _ => ?_
  split
  · exact scratchUe_keeps hP _ _
  · exact .bind (scratchHeal_keeps hP _ _ _) fun _ => .modify fun s h => hP.scratch _ _ _ _ h

omit hP in
theorem crossInto_keeps (ds : List Nat) (a : Nat) : (crossInto ds a).Keeps P :=
  .read fun _ _ => .guard fun _ => .ite (fun _ => .throw) fun _ => .pure

theorem farRead_keeps (a n : Nat) : (farRead a n).Keeps P := by
  refine .read fun s h => .bind (crossInto_keeps _ _) fun _ => ?_
  split
  · exact .throw
  · exact .ite (fun _ => .bind (.set (hP.erq (hP.setFlag h _ (calm_add (by decide))) _ _)) fun _ => .throw) fun _ => .pure

theorem farWrite_keeps (a : Nat) (bs : List Byte) : (farWrite a bs).Keeps P := by
  refine .read fun s h => .bind (crossInto_keeps _ _) fun _ => ?_
  split
  · exact .throw
  · exact .set (hP.far _ _ _ h)

theorem rawRead_keeps (who : Who) (a n : Nat) : (rawRead who a n).Keeps P := by
  refine .read fun s h => ?_
  split
  · refine .bind (crossInto_keeps _ _) fun _ => .guard fun _ => ?_
    have h1 := hP.readPage h (a / 4096) (a % 4096) n
    refine .bind (.set h1) fun _ => ?_
    split
    · exact .pure
    · exact .throw
    · exact .throw
  · exact farRead_keeps hP _ _
  · exact scratchRead_keeps hP _ _ _
  · exact spmRead_keeps hP _ _ _
  · exact .throw

theorem rawWrite_keeps (who : Who) (a : Nat) (bs : List Byte) : (rawWrite who a bs).Keeps P := by
  refine .read fun s h => ?_
  split
  · refine .bind (crossInto_keeps _ _) fun _ => .guard fun _ => .ite (fun _ => .set (hP.erq h _ _)) fun _ => ?_
    split
    · next e => exact .set (hP.writePage h e)
    · exact .throw
  · exact farWrite_keeps hP _ _
  · exact scratchWrite_keeps hP _ _ _
  · exact spmWrite_keeps hP _ _ _
  · exact .throw

theorem poisonRecord_keeps (who : Who) (a : Nat) : (poisonRecord who a).Keeps P := by
  refine .modify fun s h => ?_
  split
  · exact h
  · exact hP.poisonRec h _ _

theorem mirrorRepair_keeps (who : Who) (p m : Nat) : (mirrorRepair who p m).Keeps P :=
  .bind (rawRead_keeps hP _ _ _) fun _ => .bind (rawWrite_keeps hP _ _ _) fun _ => .modify fun _ h => hP.erq h _ _

theorem directRead_keeps (who : Who) (a n : Nat) : (directRead who a n).Keeps P := by
  refine .tryCatch (rawRead_keeps hP _ _ _) fun e => ?_
  cases e with
  | poison b =>
    have hb : EM.Keeps P (do poisonRecord who b; throw (.poison b) : EM (List Byte)) :=
      .bind (poisonRecord_keeps hP _ _) fun _ => .throw
    refine .read fun s h => ?_
    dsimp only
    split
    · refine .ite (fun _ => .tryCatch (.bind (crossInto_keeps _ _) fun _ => .bind (rawRead_keeps hP _ _ _) fun _ =>
        .bind (mirrorRepair_keeps hP _ _ _) fun _ => .pure) fun e2 => ?_) fun _ => hb
      cases e2 with
      | poison _ => exact hb
      | _ => exact .throw
    · exact hb
  | _ => exact .throw

/-! ## The cached path -/

theorem healLine_keeps (j line off n : Nat) : (healLine j line off n).Keeps P :=
  .modify fun _ h => hP.clbCe (hP.setLine _ _ _ h) _ _ _ _

theorem checkGranule_keeps (j line g : Nat) : (checkGranule j line g).Keeps P :=
  .read fun _ h => .ite
    (fun _ => .ite (fun _ => .bind (.set (hP.setF h _ (calm_lit rfl))) fun _ => .throw)
      fun _ => .set (hP.erq (hP.setF (hP.setLine _ _ _ h) _ (calm_lit rfl)) _ _))
    fun _ => .pure

theorem writeBackLine_keeps (who : Who) (j line : Nat) : (writeBackLine who j line).Keeps P :=
  .loop fun _ _ => .read fun _ _ => .ite (fun _ => .bind (checkGranule_keeps hP _ _ _) fun _ =>
    .bind (healLine_keeps hP _ _ _ _) fun _ => .bind (rawWrite_keeps hP _ _ _) fun _ =>
    .bind (.modify fun _ h => hP.setLine _ _ _ h) fun _ => .pure) fun _ => .pure

theorem makeRoom_keeps (who : Who) (j line : Nat) : (makeRoom who j line).Keeps P := by
  refine .read fun s h => .ite (fun _ => ?_) fun _ => .pure
  split
  · exact .bind (writeBackLine_keeps hP _ _ _) fun _ => .modify fun _ h => hP.setLine _ _ _ h
  · exact .pure

theorem fillLine_keeps (who : Who) (j line : Nat) : (fillLine who j line).Keeps P :=
  .bind (makeRoom_keeps hP _ _ _) fun _ => .loop fun _ _ => .read fun _ _ => .ite (fun _ =>
    .bind (directRead_keeps hP _ _ _) fun _ => .bind (.modify fun _ h => hP.setLine _ _ _ h) fun _ => .pure)
    fun _ => .pure

theorem cachedRead_keeps (who : Who) (j a n : Nat) : (cachedRead who j a n).Keeps P := by
  have hend : ∀ r : PUnit, EM.Keeps P (do
      healLine j (a / 256) (a % 256) n
      let s ← get
      pure (Bytes.rdList (s.line j (a / 256)).data (a % 256) n) : EM (List Byte)) := fun _ =>
    .bind (healLine_keeps hP _ _ _ _) fun _ => .read fun _ _ => .pure
  exact .bind (checkGranule_keeps hP _ _ _) fun _ => .read fun _ _ =>
    .ite (fun _ => .bind (fillLine_keeps hP _ _ _) hend) fun _ => hend ⟨⟩

theorem cachedWrite_keeps (who : Who) (j a : Nat) (bs : List Byte) : (cachedWrite who j a bs).Keeps P := by
  have hend : EM.Keeps P (modify (fun s =>
      let c := s.line j (a / 256)
      s.setLine j (a / 256) { c.heal (wordsOf (a % 256) bs.length) with
                              data := Bytes.wrList c.data (a % 256) bs,
                              valid := BitVec.ofNat 4 (c.valid.toNat ||| 2 ^ (a / 64 % 4)),
                              dirty := BitVec.ofNat 4 (c.dirty.toNat ||| 2 ^ (a / 64 % 4)),
                              bad := BitVec.ofNat 4 (c.bad.toNat &&& (15 - 2 ^ (a / 64 % 4))) }) : EM PUnit) :=
    .modify fun _ h => hP.setLine _ _ _ h
  refine .ite (fun _ => .bind (makeRoom_keeps hP _ _ _) fun _ => hend) fun _ =>
    .bind (checkGranule_keeps hP _ _ _) fun _ => .read fun _ _ => ?_
  have hheal : EM.Keeps P (do
      for w in wordsOf (a % 256) bs.length do
        if !wordWhole (a % 256) bs.length w then healLine j (a / 256) (8 * w) 8
      modify (fun s =>
        let c := s.line j (a / 256)
        s.setLine j (a / 256) { c.heal (wordsOf (a % 256) bs.length) with
                              data := Bytes.wrList c.data (a % 256) bs,
                              valid := BitVec.ofNat 4 (c.valid.toNat ||| 2 ^ (a / 64 % 4)),
                              dirty := BitVec.ofNat 4 (c.dirty.toNat ||| 2 ^ (a / 64 % 4)),
                              bad := BitVec.ofNat 4 (c.bad.toNat &&& (15 - 2 ^ (a / 64 % 4))) }) : EM PUnit) :=
    .bind (.forIn (fun _ _ => .ite (fun _ => .bind (healLine_keeps hP _ _ _ _) fun _ => .pure) fun _ => .pure) _ _)
      fun _ => hend
  exact .ite (fun _ => .bind (fillLine_keeps hP _ _ _) fun _ => hheal) fun _ => hheal

/-! ## Whole accesses -/

theorem readIn_keeps (who : Who) (a n : Nat) : (readIn who a n).Keeps P := by
  have hend (bs : List Byte) : EM.Keeps P (do modify (fun s => s.countGranule who a false); pure bs : EM (List Byte)) :=
    .bind (.modify fun _ h => hP.countGranule h _ _ _) fun _ => .pure
  refine .read fun _ _ => ?_
  dsimp only
  split
  · exact .bind (cachedRead_keeps hP _ _ _ _) hend
  · exact .bind (directRead_keeps hP _ _ _) hend

theorem writeIn_keeps (who : Who) (a : Nat) (bs : List Byte) : (writeIn who a bs).Keeps P := by
  have hend : EM.Keeps P (modify (fun s => s.countGranule who a true) : EM PUnit) :=
    .modify fun _ h => hP.countGranule h _ _ _
  refine .read fun s h => ?_
  dsimp only
  split
  · exact .bind (cachedWrite_keeps hP _ _ _ _) fun _ => hend
  · exact .bind (rawWrite_keeps hP _ _ _) fun _ => hend

theorem readSpan_keeps (who : Who) : ∀ f a n, (readSpan who f a n).Keeps P
  | 0, _, _ => .pure
  | f + 1, _, _ => .ite (fun _ => .pure) fun _ => .bind (readIn_keeps hP _ _ _) fun _ =>
    .bind (readSpan_keeps who f _ _) fun _ => .pure

theorem writeSpan_keeps (who : Who) : ∀ f a bs, (writeSpan who f a bs).Keeps P
  | 0, _, _ => .pure
  | _ + 1, _, [] => .pure
  | f + 1, _, _ :: _ => .bind (writeIn_keeps hP _ _ _) fun _ => writeSpan_keeps who f _ _

omit hP in
theorem checkSeg_keeps (who : Who) (a n : Nat) (w : Bool) : (checkSeg who a n w).Keeps P := by
  refine .read fun s h => ?_
  split
  · exact .ite (fun _ => .throw) fun _ => .pure
  · exact .pure

theorem jobRead_keeps (who : Who) (a n : Nat) : (jobRead who a n).Keeps P :=
  .bind (checkSeg_keeps _ _ _ _) fun _ => readSpan_keeps hP _ _ _ _

theorem jobWrite_keeps (who : Who) (a : Nat) (bs : List Byte) : (jobWrite who a bs).Keeps P :=
  .bind (checkSeg_keeps _ _ _ _) fun _ => writeSpan_keeps hP _ _ _ _

theorem rawSpanRead_keeps (w : Who) : ∀ f a n, (rawSpanRead w f a n).Keeps P
  | 0, _, _ => .pure
  | f + 1, _, _ => .ite (fun _ => .pure) fun _ => .bind (rawRead_keeps hP _ _ _) fun _ =>
    .bind (rawSpanRead_keeps w f _ _) fun _ => .pure

theorem rawSpanWrite_keeps (w : Who) : ∀ f a bs, (rawSpanWrite w f a bs).Keeps P
  | 0, _, _ => .pure
  | _ + 1, _, [] => .pure
  | f + 1, _, _ :: _ => .bind (rawWrite_keeps hP _ _ _) fun _ => rawSpanWrite_keeps w f _ _

/-! ## Requests and their records -/

theorem srvTry_keeps {α : Type} (j : Option Nat) {x : EM α} (h : x.Keeps P) : (srvTry j x).Keeps P := by
  refine .tryCatch h fun e => ?_
  cases e with
  | poison a =>
    cases j with
    | none => exact fun _ h => h
    | some j => exact .bind (.modify fun _ h => hP.noteRepair h _ _) fun _ => .throw
  | _ => exact .throw

theorem srvRd_keeps (j a n : Nat) : (srvRd j a n).Keeps P := srvTry_keeps hP _ (rawSpanRead_keeps hP _ _ _ _)

theorem srvWr_keeps (j a : Nat) (bs : List Byte) : (srvWr j a bs).Keeps P := srvTry_keeps hP _ (rawSpanWrite_keeps hP _ _ _ _)

theorem srvRdNat_keeps (j a n : Nat) : (srvRdNat j a n).Keeps P := .bind (srvRd_keeps hP _ _ _) fun _ => .pure

theorem srvWrNat_keeps (j a n v : Nat) : (srvWrNat j a n v).Keeps P := srvWr_keeps hP _ _ _

theorem smpRd_keeps (j a n : Nat) : (smpRd j a n).Keeps P :=
  srvTry_keeps hP _ (.bind (checkSeg_keeps _ _ _ _) fun _ => rawSpanRead_keeps hP _ _ _ _)

theorem smpWr_keeps (j a : Nat) (bs : List Byte) : (smpWr j a bs).Keeps P :=
  srvTry_keeps hP _ (.bind (checkSeg_keeps _ _ _ _) fun _ => rawSpanWrite_keeps hP _ _ _ _)

theorem smpRdNat_keeps (j a n : Nat) : (smpRdNat j a n).Keeps P := .bind (smpRd_keeps hP _ _ _) fun _ => .pure

theorem smpWrNat_keeps (j a n v : Nat) : (smpWrNat j a n v).Keeps P := smpWr_keeps hP _ _ _

theorem resUsed_keeps (j : Nat) : (resUsed j).Keeps P := .read fun _ _ => .bind (srvRdNat_keeps hP _ _ _) fun _ => .pure

theorem writeResult_keeps (j : Nat) (ws : List W64) : (writeResult j ws).Keeps P := by
  refine .read fun _ _ => .bind (srvWr_keeps hP _ _ _) fun _ => .bind (srvWrNat_keeps hP _ _ _ _) fun _ =>
    .modify fun s h => ?_
  have hu (x : SrvJob) : P (s.setSrvJob j x) := hP.setSrvJob _ _ h
  dsimp only
  refine hP.post ?_ _ _ _ _
  split
  · exact hP.setReq _ _ (hu _)
  · exact hu _

theorem resRoom_keeps (j : Nat) : (resRoom j).Keeps P := .read fun _ _ => .bind (resUsed_keeps hP _) fun _ => .pure

theorem showHold_keeps (j : Nat) : (showHold j).Keeps P :=
  have hend (b : Bool) : EM.Keeps P (modify (fun s => s.setFlag (SRV_JOB_STATUS.RES_WAIT j) (!b)) : EM PUnit) :=
    .modify fun _ h => hP.setFlag h _ (calm_add (by decide))
  .read fun _ _ => .ite (fun _ => .bind (resRoom_keeps hP _) hend) fun _ => hend true

theorem lastRecords_keeps (j : Nat) : ∀ l, (lastRecords j l).Keeps P
  | [] => .pure
  | _ :: t => .read fun _ _ => .bind (resUsed_keeps hP _) fun _ => .ite
    (fun _ => .bind (writeResult_keeps hP _ _) fun _ => lastRecords_keeps j t)
    fun _ => .ite (fun _ => .pure) fun _ => .ite (fun _ => writeResult_keeps hP _ _)
      fun _ => .modify fun _ h => hP.erq h _ _

theorem Steady.markLost {s : State} (h : P s) (j : Nat) : P (s.markLost j) :=
  foldl_inv h fun _ _ _ h => hP.setReq _ _ h

theorem Steady.srvLost {s : State} (h : P s) (j : Nat) : P (s.srvLost j) := by
  unfold State.srvLost
  dsimp only
  split
  · exact h
  · exact hP.erq h _ _

theorem Steady.srvIn {s : State} (h : P s) (l : List (Nat × List W64)) : P { s with srvIn := l } := hP.apart h rfl

theorem endRequests_keeps (j : Nat) : (endRequests j).Keeps P := by
  refine .read fun _ _ => .ite (fun _ => .bind (.modify fun _ h => hP.markLost h _) fun _ => .read fun _ _ =>
    .bind (.tryCatch (lastRecords_keeps hP _ _) fun e => ?_) fun _ => .modify fun s h => ?_) fun _ => .pure
  · cases e with
    | wait => exact .throw
    | _ => exact .modify fun _ h => hP.srvLost h _
  · extract_lets u v
    have hu : P u := foldl_inv h fun _ _ _ h => hP.setReq _ _ h
    exact hP.setFlag (hP.setSrvJob _ _ (hP.srvIn hu _)) _ (calm_add (by decide))

theorem Steady.endLost {s : State} (h : P s) (j : Nat) : P (s.endLost j) := by
  have hk := endRequests_keeps hP j s h
  unfold State.endLost
  split
  · next e =>
    rw [e] at hk
    exact hk
  · split
    · exact hP.markLost h _
    · exact h

theorem Steady.endAllLost {s : State} (h : P s) : P s.endAllLost := foldl_inv h fun _ _ _ h => hP.endLost h _

end

end Sys2Proof.Machine

/-! PROOFS. Slices and the end of a job (R587 - R601). -/
namespace Sys2Proof.Machine

/-! ## The STATE of a job -/

/-- Job j is in state v, and the ends that the companion asked for are l. -/
def State.JobAt (j v : Nat) (l : List Nat) (s : State) : Prop := s.jobState j = v ∧ s.endAsked = l

theorem untouched_regs {s t : State} (h : t.untouched = s.untouched) : t.regs = s.regs :=
  show t.untouched.regs = s.untouched.regs from congrArg State.regs h

theorem untouched_endAsked {s t : State} (h : t.untouched = s.untouched) : t.endAsked = s.endAsked :=
  show t.untouched.endAsked = s.untouched.endAsked from congrArg State.endAsked h

theorem State.reg_of_regs {s t : State} (h : t.regs = s.regs) (a : Nat) : t.reg a = s.reg a := by
  rw [State.reg, h, State.reg]

theorem State.reg_setPage (s : State) (gp : Nat) (pg : Page) (a : Nat) : (s.setPage gp pg).reg a = s.reg a := by
  unfold State.setPage
  split
  · rfl
  · split <;> rfl

theorem State.endAsked_setPage (s : State) (gp : Nat) (pg : Page) : (s.setPage gp pg).endAsked = s.endAsked := by
  unfold State.setPage
  split
  · rfl
  · split <;> rfl

/-- A register outside EQX is not the STATE of one of the 64 jobs. -/
theorem jobState_setReg {s : State} {j a : Nat} (v : W64) (hj : j < 64) (c : Calm a) : (s.setReg a v).jobState j = s.jobState j := by
  refine State.f_of_reg ?_
  rw [State.reg_setReg, if_neg]
  unfold Calm at c
  simp only [EQX_JOB_STATUS.STATE, EQX_JOB_STATUS.at]
  omega

theorem jobAt_steady {j : Nat} (hj : j < 64) (v : Nat) (l : List Nat) : Steady (State.JobAt j v l) where
  apart h e := ⟨(State.f_of_reg (State.reg_of_regs (untouched_regs e) _)).trans h.1, (untouched_endAsked e).trans h.2⟩
  setReg v h c := ⟨(jobState_setReg v hj c).trans h.1, h.2⟩
  setPage gp pg h := ⟨(State.f_of_reg (State.reg_setPage _ gp pg _)).trans h.1, (State.endAsked_setPage _ gp pg).trans h.2⟩
  far _ _ _ h := h
  scratch _ _ _ _ h := h
  setLine _ _ _ h := h
  setReq _ _ h := h
  setSrvJob _ _ h := h

/-- A STATE of a job reads back, and another field of its register does not move it. -/
theorem State.jobState_setF_state (s : State) (j : Nat) {v : Nat} (h : v < 8) :
    (s.setF (EQX_JOB_STATUS.STATE j) v).jobState j = v := by
  rw [State.jobState, State.f_setF_self _ _ _ (by show 63 < 64; decide) (by show 61 ≤ 63; decide)]
  exact Nat.mod_eq_of_lt h

theorem State.jobState_setF_below (s : State) (j : Nat) {hi lo : Nat} (v : Nat) (h : hi < 61 ∧ lo ≤ hi) :
    (s.setF ⟨EQX_JOB_STATUS.at j, hi, lo⟩ v).jobState j = s.jobState j :=
  State.f_setF_other _ _ _ _ (Nat.lt_trans h.1 (by decide)) h.2 (Or.inr (Or.inr h.1))

theorem State.jobAt_switch (s : State) (j : Nat) : State.JobAt j jSAVING s.endAsked
    ((s.setF (EQX_JOB_STATUS.STATE j) jSAVING).bump (EQX_JOB_STATUS.SWITCHES j) 1) :=
  ⟨(State.jobState_setF_below _ j _ (by decide)).trans (State.jobState_setF_state s j (by decide)),
    by rw [State.bump, State.endAsked_setF, State.endAsked_setF]⟩

/-- Pre-emption of a running job makes it SAVING. -/
theorem State.jobState_startSave {s : State} {j : Nat} (hj : j < 64) (h : s.jobState j = jRUNNING) :
    (s.startSave j).jobState j = jSAVING := by
  unfold State.startSave
  rw [if_pos h]
  extract_lets u v
  have hv : v.JobAt j jSAVING u.endAsked := u.jobAt_switch j
  clear_value v
  unfold State.showSaving
  exact (foldl_inv (P := State.JobAt j jSAVING u.endAsked) hv fun _ _ _ h =>
    (jobAt_steady hj _ _).setFlag h _ (calm_add (by decide))).1

theorem State.jobState_ending (s : State) (j : Nat) :
    ((s.setF (EQX_JOB_STATUS.STATE j) jENDING).setFlag (EQX_JOB_STATUS.HALTS_SAVED j) false).jobState j = jENDING :=
  (State.jobState_setF_below _ j _ (by decide)).trans (State.jobState_setF_state _ j (by decide))

theorem State.jobState_unpicked {s : State} {j v : Nat} (h : s.jobState j = v) :
    State.jobState { s with parked := dropNum s.parked j, demT := dropNum s.demT j,
                            chosen := s.chosen.filter (fun k => k != j) } j = v := h

/-- A job whose end has begun is ENDING. -/
theorem State.jobState_toEnding (s : State) (j : Nat) : (s.toEnding j).jobState j = jENDING := by
  unfold State.toEnding
  exact State.jobState_unpicked (State.jobState_ending _ _)

/-! ## HOLD and END -/

theorem State.reg_unpark (s : State) (j a : Nat) : (s.unpark j).reg a = s.reg a := by
  unfold State.unpark
  split <;> rfl

theorem State.endAsked_unpark (s : State) (j : Nat) : (s.unpark j).endAsked = s.endAsked := by
  unfold State.unpark
  split <;> rfl

theorem State.jobState_writeHold (s : State) (j : Nat) (b : Bool) : (s.writeHold j b).jobState j = s.jobState j :=
  State.f_of_reg ((State.reg_unpark _ j _).trans (State.reg_setFlag_at _ _ _ (by
    simp only [EQX_JOB_STATUS.STATE, EQX_JOB_STATUS.at, EQX_JOB_CTL.HOLD, EQX_JOB_CTL.at]; omega)))

theorem contains_addNum (l : List Nat) (n : Nat) : (addNum l n).contains n = true := by
  induction l with
  | nil => simp [addNum]
  | cons a l ih =>
    unfold addNum
    split
    · simp
    · split
      · next h => simp [h]
      · rw [List.contains_cons, ih, Bool.or_true]

/-- The end that the companion asks for of a job that runs or is saved takes hold at once. -/
theorem State.jobState_requestEnd {s : State} {j : Nat} (hj : j < 64) (h : s.jobState j = jRUNNING ∨ s.jobState j = jSAVED) :
    (s.requestEnd j).jobState j = jENDING := by
  have hno : ¬(s.jobState j = jNONE ∨ s.jobState j = jENDING) := by
    rcases h with h | h <;> rw [h] <;> decide
  obtain ⟨hs, ha⟩ := (jobAt_steady hj (s.jobState j) (addNum s.endAsked j)).endLost
    (s := { s with endAsked := addNum s.endAsked j }) ⟨rfl, rfl⟩ j
  rw [State.requestEnd, if_neg hno, State.applyEnd, if_pos]
  · exact State.jobState_toEnding _ j
  · rw [hs, ha]
    exact ⟨contains_addNum _ _, h⟩

/-! ## The end of a job that is finished -/

/-- Work of two parts followed by a change of the state. -/
theorem EM.go_two_modify {x y : EM PUnit} {f : State → State} {s r : State}
    (h : EM.go (do x; y) s = (.ok ⟨⟩, r)) : EM.go (do x; y; modify f) s = (.ok ⟨⟩, f r) := by
  rw [EM.go_bind] at h ⊢
  rcases hx : x.go s with ⟨_ | _, t⟩
  · rw [hx] at h
    cases h
  · rw [hx] at h
    exact EM.go_bind_ok h (EM.go_modify f r)

theorem flushCache_clean {s : State} {j : Nat} (h : s.cleanLines j (s.linesIn j 0 (2 ^ 48))) :
    (flushCache j).go s = (.ok ⟨⟩, s.dropLines j (s.linesIn j 0 (2 ^ 48))) :=
  EM.go_bind_ok (EM.go_get s) ((EM.go_bind_pure_unit _ s).trans (clbLines_clean (acq := true) _ h))

theorem endRequests_none {s : State} {j : Nat} (h : s.serving j = false) : (endRequests j).go s = (.ok ⟨⟩, s) := by
  refine EM.go_bind_ok (EM.go_get s) ?_
  rw [h]
  rfl

theorem State.serving_dropLines (s : State) (j : Nat) (l : List Nat) : (s.dropLines j l).serving j = s.serving j :=
  foldl_keeps (State.serving · j) (fun r k => r.setLine j k CLine.zero) (fun _ _ => rfl) l s

theorem endWork_clean {s : State} {j : Nat} (hs : s.serving j = false) (h : s.cleanLines j (s.linesIn j 0 (2 ^ 48))) :
    EM.go (do flushCache j; endRequests j) s = (.ok ⟨⟩, s.dropLines j (s.linesIn j 0 (2 ^ 48))) :=
  EM.go_bind_ok (flushCache_clean h) (endRequests_none ((s.serving_dropLines j _).trans hs))

/-- Settles O41; that JOB_END and JOB_ENDED write back and drop the lines themselves is the model's choice (log entry
28). -/
theorem jobsTakeTurnsAndEnd : Obligations.JobsTakeTurnsAndEnd := by
  unfold Obligations.JobsTakeTurnsAndEnd
  constructor
  case left =>
    intro s by_ j beats r
    refine ⟨fun hr hu => ⟨?displaced, ?undisturbed, ?idle⟩, fun hj hr => State.jobState_startSave hj hr, ?hold⟩
    case displaced =>
      intro hd
      exact (if_pos ⟨hr, hu⟩).trans (if_pos hd)
    case undisturbed =>
      intro hd
      have hrun : exec (.sliceEnd j beats) s = match r.rival j with
          | some k => .next ({ r with chosen := r.waiting ++ [k] }.startSave j)
          | none => .next r :=
        (if_pos ⟨hr, hu⟩).trans (if_neg (by rw [hd]; exact Bool.false_ne_true))
      refine ⟨fun h => ?_, fun k h => ?_⟩ <;> rw [hrun, h]
    case idle => exact fun hi ha => if_pos ⟨hr, hu, hi, ha⟩
    case hold => exact fun hj ha => congrArg Host.Outcome.next (if_pos ⟨ha, hj⟩)
  case right =>
    intro s r by_ j hold hj
    refine ⟨fun ha => ⟨fun h => ?unasked, fun h => ?asked⟩, fun hs hf hu he => ?finished, fun hs hf hu hv hc => ?clean,
      fun hs hu hd ho => ?ended⟩
    case unasked =>
      exact congrArg Host.Outcome.next ((if_pos ⟨ha, hj⟩).trans (if_pos (by rwa [State.jobState_writeHold])))
    case asked =>
      exact ⟨_, congrArg Host.Outcome.next (if_pos ⟨ha, hj⟩), State.jobState_requestEnd hj (by rwa [State.jobState_writeHold])⟩
    case finished =>
      exact ⟨(if_pos ⟨hs, hf, hu⟩).trans (rowOf_ok (EM.go_two_modify he)), State.jobState_toEnding r j⟩
    case clean =>
      exact (if_pos ⟨hs, hf, hu⟩).trans (rowOf_ok (EM.go_two_modify (endWork_clean hv hc)))
    case ended =>
      intro ends
      have hends (r : State) (he : EM.go (do flushCache j; endRequests j) s = (.ok (), r)) : ends r :=
        (if_pos ⟨hs, hu, hd, ho⟩).trans (rowOf_ok (EM.go_two_modify he))
      exact ⟨hends r, fun hv hc => hends _ (endWork_clean hv hc)⟩

end Sys2Proof.Machine

/-! PROOFS. The save and the restore of a job (R588, R591, R595). -/
namespace Sys2Proof.Machine

/-! ## Registers that a save moves -/

theorem tileLatches_not_id {off : Nat → Nat} (h : off ∈ tileLatches) {t : Nat} (ht : t < 200) (q : Nat) : ANV_ID.at q ≠ off t := by
  unfold tileLatches at h
  simp only [List.mem_append, List.mem_flatMap, List.mem_range, List.mem_cons, List.not_mem_nil, or_false] at h
  rcases h with (((rfl | rfl | rfl | rfl) | ⟨ch, hch, rfl | rfl⟩) | ⟨n, hn, rfl | rfl⟩) <;>
    simp only [ANV_ID.at, ANV_MXE_CFG.at, ANV_VXE_CFG.at, XWF_HALT_INFO.at, XWF_HALT_ADDR.at, ANV_DMA_HALT_INFO.at,
      ANV_DMA_HALT_ADDR.at, VRG_HALT_INFO.at, VRG_HALT_ADDR.at] <;> omega

theorem tileLatches_not_status {off : Nat → Nat} (h : off ∈ tileLatches) {t : Nat} (ht : t < 200) {j : Nat} (hj : j < 64) :
    EQX_JOB_STATUS.at j ≠ off t := by
  unfold tileLatches at h
  simp only [List.mem_append, List.mem_flatMap, List.mem_range, List.mem_cons, List.not_mem_nil, or_false] at h
  rcases h with (((rfl | rfl | rfl | rfl) | ⟨ch, hch, rfl | rfl⟩) | ⟨n, hn, rfl | rfl⟩) <;>
    simp only [EQX_JOB_STATUS.at, ANV_MXE_CFG.at, ANV_VXE_CFG.at, XWF_HALT_INFO.at, XWF_HALT_ADDR.at, ANV_DMA_HALT_INFO.at,
      ANV_DMA_HALT_ADDR.at, VRG_HALT_INFO.at, VRG_HALT_ADDR.at] <;> omega

/-- A register whose offset is not listed is not dropped. -/
theorem State.reg_resetRegs (s : State) {offs : List Nat} {a : Nat} (h : a ∉ offs) : (s.resetRegs offs).reg a = s.reg a := by
  have : ∀ (offs : List Nat) (m : SMap W64), a ∉ offs →
      SMap.get (regReset a) (offs.foldl SMap.erase m) a = SMap.get (regReset a) m a := by
    intro offs
    induction offs with
    | nil => exact fun _ _ => rfl
    | cons o offs ih =>
      intro m h
      obtain ⟨h1, h2⟩ := not_or.1 (fun x => h (List.mem_cons.2 x))
      exact (ih _ h2).trans ((SMap.get_erase _ _ _ _).trans (if_neg h1))
  exact this offs s.regs h

/-- The placement of the logical tiles: the fields of ANV_ID that physOf reads. -/
def State.sameMap (s t : State) : Prop :=
  ∀ q, t.f (ANV_ID.STATE q) = s.f (ANV_ID.STATE q) ∧ t.f (ANV_ID.LOGICAL q) = s.f (ANV_ID.LOGICAL q)

theorem State.sameMap.physOf {s t : State} (h : s.sameMap t) (l : Nat) : t.physOf l = s.physOf l := by
  unfold State.physOf
  exact congrArg (List.find? · _) (funext fun q => by rw [(h q).1, (h q).2])

theorem State.sameMap.trans {s t u : State} (h : s.sameMap t) (k : t.sameMap u) : s.sameMap u := fun q =>
  ⟨(k q).1.trans (h q).1, (k q).2.trans (h q).2⟩

theorem State.sameMap_of_reg {s t : State} (h : ∀ q, t.reg (ANV_ID.at q) = s.reg (ANV_ID.at q)) : s.sameMap t := fun q =>
  ⟨State.f_of_reg (h q), State.f_of_reg (h q)⟩

/-- A physical tile of a logical tile is one of the 200, and carries its number. -/
theorem State.physOf_found {s : State} {l p : Nat} (h : s.physOf l = some p) : p < 200 ∧ s.f (ANV_ID.LOGICAL p) = l := by
  have h1 := List.mem_of_find?_eq_some h
  have h2 := List.find?_some h
  simp only [Bool.and_eq_true, beq_iff_eq] at h2
  exact ⟨List.mem_range.1 h1, h2.2⟩

theorem State.physOf_inj {s : State} {l k p : Nat} (h : s.physOf l = some p) (h2 : s.physOf k = some p) : l = k :=
  (State.physOf_found h).2.symm.trans (State.physOf_found h2).2

theorem State.phys_of {s : State} {l p : Nat} (h : s.physOf l = some p) : s.phys l = p := by
  rw [State.phys, h]
  rfl

theorem savedKey_inj {j l k : Nat} (h : savedKey j l = savedKey j k) : l = k := by
  unfold savedKey at h
  omega

/-- The image of a logical tile of job j, and the image without the registers kept apart with it. -/
def State.image (s : State) (j l : Nat) : TileState := SMap.get TileState.zero s.saved (savedKey j l)

def TileState.plain (x : TileState) : TileState := { x with savedRegs := [] }

/-! ## One tile saved -/

section
variable {s : State} {j l p : Nat}

/-- The last steps of a save of tile p, on its registers. -/
def State.vacate (s : State) (p : Nat) : State :=
  ((s.setFlag (ANV_ID.JOB_V p) false).setF (ANV_ID.JOB p) 0).setFlag (ANV_STATUS.SAVING p) false

theorem State.vacate_loaded (s : State) (p q : Nat) : (s.vacate p).loaded q = if q = p then false else s.loaded q := by
  have h1 : (s.vacate p).loaded q = (s.setFlag (ANV_ID.JOB_V p) false).loaded q := by
    unfold State.vacate State.loaded
    rw [State.flag_setFlag_away _ _ (by simp only [ANV_ID.JOB_V, ANV_ID.at, ANV_STATUS.SAVING, ANV_STATUS.at]; omega)]
    unfold State.flag
    rw [State.f_setF_other _ _ _ _ (by show 28 < 64; decide) (by show 23 ≤ 28; decide)
      (Or.inr (Or.inr (by show 28 < 29; decide)))]
  rw [h1]
  by_cases hq : q = p
  · rw [if_pos hq, hq, State.loaded, State.flag, State.setFlag,
      State.f_setF_self _ _ _ (by show 29 < 64; decide) (by show 29 ≤ 29; decide)]
    rfl
  · rw [if_neg hq]
    exact State.flag_setFlag_away _ _ (by simp only [ANV_ID.JOB_V, ANV_ID.at]; omega)

theorem State.vacate_map (s : State) (p : Nat) : s.sameMap (s.vacate p) := by
  intro q
  unfold State.vacate State.setFlag
  constructor <;>
    simp (disch := (simp only [ANV_ID.STATE, ANV_ID.LOGICAL, ANV_ID.JOB_V, ANV_ID.JOB, ANV_STATUS.SAVING, ANV_ID.at,
      ANV_STATUS.at]; omega)) only [State.f_setF_other]

theorem State.vacate_fields (s : State) (p : Nat) :
    (s.vacate p).tiles = s.tiles ∧ (s.vacate p).saved = s.saved ∧ (s.vacate p).endAsked = s.endAsked := by
  refine ⟨?_, ?_, ?_⟩ <;> rw [State.vacate]
  · rw [State.tiles_setFlag, State.tiles_setF, State.tiles_setFlag]
  · rw [State.saved_setFlag, State.saved_setF, State.saved_setFlag]
  · rw [State.endAsked_setFlag, State.endAsked_setF, State.endAsked_setFlag]

theorem State.tile_of_tiles {s t : State} (h : t.tiles = s.tiles) (q : Nat) : t.tile q = s.tile q := by
  rw [State.tile, h, State.tile]

theorem State.image_of_saved {s t : State} (h : t.saved = s.saved) (j k : Nat) : t.image j k = s.image j k := by
  rw [State.image, h, State.image]

/-- A save image stored. -/
def State.putImage (s : State) (j l : Nat) (x : TileState) : State :=
  { s with saved := SMap.put TileState.zero s.saved (savedKey j l) x }

theorem State.image_putImage (s : State) (j l k : Nat) (x : TileState) :
    (s.putImage j l x).image j k = if k = l then x else s.image j k := by
  refine (SMap.get_put _ _ _ _ _).trans ?_
  by_cases hk : k = l
  · rw [if_pos (congrArg _ hk), if_pos hk]
  · rw [if_neg (fun e => hk (savedKey_inj e)), if_neg hk]
    rfl

theorem State.endAsked_resetRegs (s : State) (l : List Nat) : (s.resetRegs l).endAsked = s.endAsked := rfl
theorem State.tiles_resetRegs (s : State) (l : List Nat) : (s.resetRegs l).tiles = s.tiles := rfl
theorem State.saved_resetRegs (s : State) (l : List Nat) : (s.resetRegs l).saved = s.saved := rfl
theorem State.endAsked_putImage (s : State) (j l : Nat) (x : TileState) : (s.putImage j l x).endAsked = s.endAsked := rfl
theorem State.tiles_putImage (s : State) (j l : Nat) (x : TileState) : (s.putImage j l x).tiles = s.tiles := rfl

/-- What the save of one tile does. -/
theorem State.saveTile_does (h : s.physOf l = some p) :
    s.sameMap (s.saveTile j l) ∧ (s.saveTile j l).endAsked = s.endAsked ∧
    (∀ q, (s.saveTile j l).tile q = if q = p then (s.tile p).residue else s.tile q) ∧
    (∀ k, ((s.saveTile j l).image j k).plain = if k = l then (s.tile p).plain else (s.image j k).plain) ∧
    (∀ q, (s.saveTile j l).loaded q = if q = p then false else s.loaded q) := by
  have hp := (State.physOf_found h).1
  have hid (u : State) (q : Nat) : (u.resetRegs (tileLatches.map (fun (off : Nat → Nat) => off p))).reg (ANV_ID.at q) =
      u.reg (ANV_ID.at q) := State.reg_resetRegs _ (by
    intro hm
    obtain ⟨off, ho, e⟩ := List.mem_map.1 hm
    exact tileLatches_not_id ho hp q e.symm)
  obtain ⟨x, hx, e⟩ : ∃ x : TileState, x.plain = (s.tile p).plain ∧ s.saveTile j l =
      (((s.putImage j l x).setTile p (s.tile p).residue).resetRegs
        (tileLatches.map (fun (off : Nat → Nat) => off p))).vacate p := by
    unfold State.saveTile
    rw [State.phys_of h]
    exact ⟨{ s.tile p with savedRegs := tileLatches.foldl (fun m (off : Nat → Nat) =>
      SMap.put (regReset (off 0)) m (off 0) (s.reg (off p))) [] }, rfl, rfl⟩
  generalize hu : (s.putImage j l x).setTile p (s.tile p).residue = u at e
  have hreg (q : Nat) : u.reg (ANV_ID.at q) = s.reg (ANV_ID.at q) := hu ▸ rfl
  rw [e]
  clear e
  generalize hv : u.resetRegs (tileLatches.map (fun (off : Nat → Nat) => off p)) = v
  have hvreg (q : Nat) : v.reg (ANV_ID.at q) = s.reg (ANV_ID.at q) := hv ▸ (hid u q).trans (hreg q)
  obtain ⟨ht, hs, ha⟩ := v.vacate_fields p
  refine ⟨?map, ?asked, ?tile, ?image, ?loaded⟩
  case map => exact (State.sameMap_of_reg hvreg).trans (State.vacate_map v p)
  case asked => rw [ha, ← hv, State.endAsked_resetRegs, ← hu, State.endAsked_setTile, State.endAsked_putImage]
  case tile =>
    intro q
    rw [State.tile_of_tiles (s := u) (by rw [ht, ← hv, State.tiles_resetRegs]), ← hu, State.tile_setTile,
      State.tile_of_tiles (State.tiles_putImage s j l x)]
  case image =>
    intro k
    rw [State.image_of_saved (s := s.putImage j l x) (by rw [hs, ← hv, State.saved_resetRegs, ← hu, State.saved_setTile]),
      State.image_putImage]
    split
    · exact hx
    · rfl
  case loaded =>
    intro q
    refine (State.vacate_loaded v p q).trans ?_
    split
    · rfl
    · exact congrArg (fun w => fld w 29 29 == 1) (hvreg q)

/-- What the restore of one tile does. -/
theorem State.loadTile_does (h : s.physOf l = some p) :
    s.sameMap (s.loadTile j l) ∧ (s.loadTile j l).endAsked = s.endAsked ∧
    (∀ q, (s.loadTile j l).tile q = if q = p then (s.image j l).plain else s.tile q) ∧
    (∀ k, (s.loadTile j l).image j k = if k = l then TileState.zero else s.image j k) := by
  have hp := (State.physOf_found h).1
  let P (u : State) : Prop := (∀ q, u.reg (ANV_ID.at q) = s.reg (ANV_ID.at q)) ∧ u.endAsked = s.endAsked ∧ u.tiles = s.tiles ∧
    u.saved = s.saved
  obtain ⟨u, ⟨hreg, ha, ht, hs⟩, e⟩ : ∃ u : State, P u ∧ s.loadTile j l =
      (State.setTile { u with saved := SMap.erase u.saved (savedKey j l) } p (s.image j l).plain).setFlag
        (ANV_STATUS.SAVING p) false := by
    unfold State.loadTile
    rw [State.phys_of h]
    refine ⟨tileLatches.foldl (fun v (off : Nat → Nat) =>
      v.setReg (off p) (SMap.get (regReset (off 0)) (s.image j l).savedRegs (off 0))) s, ?_, rfl⟩
    refine foldl_inv (P := P) ⟨fun _ => rfl, rfl, rfl, rfl⟩ fun v off ho hv => ?_
    obtain ⟨h1, h2, h3, h4⟩ := hv
    exact ⟨fun q => by rw [State.reg_setReg, if_neg (tileLatches_not_id ho hp q), h1 q], by rw [State.endAsked_setReg, h2],
      by rw [State.tiles_setReg, h3], by rw [State.saved_setReg, h4]⟩
  rw [e]
  clear e
  refine ⟨?map, ?asked, ?tile, ?image⟩
  case map =>
    exact State.sameMap_of_reg fun q => (State.reg_setFlag_at _ _ _ (by
      simp only [ANV_ID.at, ANV_STATUS.SAVING, ANV_STATUS.at]; omega)).trans (hreg q)
  case asked => exact (State.endAsked_setFlag _ _ _).trans ha
  case tile =>
    intro q
    rw [State.tile_of_tiles (State.tiles_setFlag _ _ _), State.tile_setTile]
    exact congrArg (fun x => if q = p then _ else x) (State.tile_of_tiles ht q)
  case image =>
    intro k
    rw [State.image_of_saved (State.saved_setFlag _ _ _), State.image_of_saved (State.saved_setTile _ _ _)]
    refine (SMap.get_erase _ _ _ _).trans ?_
    by_cases hk : k = l
    · rw [if_pos hk, if_pos (congrArg _ hk)]
    · rw [if_neg hk, if_neg (fun e => hk (savedKey_inj e))]
      exact State.image_of_saved hs j k

/-- A tile given to job j. -/
def State.assign (s : State) (j l : Nat) : State :=
  (s.setFlag (ANV_ID.JOB_V (s.phys l)) true).setF (ANV_ID.JOB (s.phys l)) j

theorem State.assign_does (hj : j < 64) (h : s.physOf l = some p) :
    s.sameMap (s.assign j l) ∧ (s.assign j l).endAsked = s.endAsked ∧
    (∀ q, (s.assign j l).loaded q = if q = p then true else s.loaded q) ∧
    (∀ q, (s.assign j l).jobOf q = if q = p then j else s.jobOf q) := by
  unfold State.assign
  rw [State.phys_of h]
  refine ⟨?map, ?asked, ?loaded, ?job⟩
  case map =>
    intro q
    unfold State.setFlag
    constructor <;>
      simp (disch := (simp only [ANV_ID.STATE, ANV_ID.LOGICAL, ANV_ID.JOB_V, ANV_ID.JOB, ANV_ID.at]; omega)) only
        [State.f_setF_other]
  case asked => rw [State.endAsked_setF, State.endAsked_setFlag]
  case loaded =>
    intro q
    unfold State.loaded State.flag State.setFlag
    rw [State.f_setF_other _ _ _ _ (by show 28 < 64; decide) (by show 23 ≤ 28; decide)
      (Or.inr (Or.inr (by show 28 < 29; decide)))]
    by_cases hq : q = p
    · rw [if_pos hq, hq, State.f_setF_self _ _ _ (by show 29 < 64; decide) (by show 29 ≤ 29; decide)]
      rfl
    · rw [if_neg hq, State.f_setF_other _ _ _ _ (by show 29 < 64; decide) (by show 29 ≤ 29; decide)
        (Or.inl (by simp only [ANV_ID.JOB_V, ANV_ID.at]; omega))]
  case job =>
    intro q
    unfold State.jobOf
    by_cases hq : q = p
    · rw [if_pos hq, hq, State.f_setF_self _ _ _ (by show 28 < 64; decide) (by show 23 ≤ 28; decide)]
      exact Nat.mod_eq_of_lt hj
    · rw [if_neg hq, State.f_of_reg (State.reg_setF_at _ _ _ _ (by simp only [ANV_ID.JOB, ANV_ID.at]; omega)),
        State.f_of_reg (State.reg_setFlag_at _ _ _ (by simp only [ANV_ID.JOB, ANV_ID.JOB_V, ANV_ID.at]; omega))]

end

/-! ## All tiles of a job -/

section
variable {V : Type} (view : State → Nat → Nat → V) (g : Nat → V → V) (f : State → Nat → State)
  (hf : ∀ (s : State) (l p : Nat), s.physOf l = some p → s.sameMap (f s l) ∧ (f s l).endAsked = s.endAsked ∧
    ∀ k q, s.physOf k = some q → view (f s l) k q = if k = l then g k (view s k q) else view s k q)
include hf

/-- What an update of one tile does, the update of each tile of a list does to each of them. -/
theorem foldl_tiles (ls : List Nat) : ∀ s : State, ls.Nodup → (∀ l ∈ ls, (s.physOf l).isSome = true) →
    s.sameMap (ls.foldl f s) ∧ (ls.foldl f s).endAsked = s.endAsked ∧
    ∀ k q, s.physOf k = some q → view (ls.foldl f s) k q = if k ∈ ls then g k (view s k q) else view s k q := by
  induction ls with
  | nil => exact fun s _ _ => ⟨fun _ => ⟨rfl, rfl⟩, rfl, fun _ _ _ => (if_neg List.not_mem_nil).symm⟩
  | cons l ls ih =>
    intro s hn hs
    obtain ⟨hl, hn⟩ := List.nodup_cons.1 hn
    obtain ⟨p, hp⟩ := Option.isSome_iff_exists.1 (hs l List.mem_cons_self)
    obtain ⟨m1, a1, v1⟩ := hf s l p hp
    obtain ⟨m2, a2, v2⟩ := ih (f s l) hn fun k hk => by
      rw [m1.physOf]
      exact hs k (List.mem_cons_of_mem _ hk)
    refine ⟨m1.trans m2, a2.trans a1, fun k q hq => ?_⟩
    rw [List.foldl_cons, v2 k q (by rw [m1.physOf]; exact hq), v1 k q hq]
    by_cases hk : k = l
    · subst hk
      rw [if_neg hl, if_pos rfl, if_pos List.mem_cons_self]
    · rw [if_neg hk]
      by_cases hm : k ∈ ls
      · rw [if_pos hm, if_pos (List.mem_cons_of_mem _ hm)]
      · rw [if_neg hm, if_neg (by simp [hk, hm])]

end

theorem State.tileSet_nodup (s : State) (j : Nat) : (s.tileSet j).Nodup := List.nodup_range.filter _

theorem State.mem_tileSet {s : State} {j l : Nat} : l ∈ s.tileSet j ↔ s.inSet j l = true := by
  unfold State.tileSet
  rw [List.mem_filter, List.mem_range]
  refine ⟨fun h => h.2, fun h => ⟨?_, h⟩⟩
  unfold State.inSet at h
  simp only [Bool.and_eq_true, decide_eq_true_eq] at h
  exact h.1

section
variable {j : Nat} {s : State} (hs : ∀ l, s.inSet j l = true → (s.physOf l).isSome = true)
include hs

theorem State.saveTiles_does : s.sameMap ((s.tileSet j).foldl (fun s l => s.saveTile j l) s) ∧
    ((s.tileSet j).foldl (fun s l => s.saveTile j l) s).endAsked = s.endAsked ∧
    ∀ l p, s.physOf l = some p → s.inSet j l = true →
      ((((s.tileSet j).foldl (fun s l => s.saveTile j l) s).image j l).plain,
        ((s.tileSet j).foldl (fun s l => s.saveTile j l) s).tile p,
        ((s.tileSet j).foldl (fun s l => s.saveTile j l) s).loaded p) = ((s.tile p).plain, (s.tile p).residue, false) := by
  obtain ⟨hm, ha, hv⟩ := foldl_tiles (fun s l p => ((s.image j l).plain, s.tile p, s.loaded p))
    (fun _ v => (v.2.1.plain, v.2.1.residue, false)) (fun s l => s.saveTile j l) (fun s l p hp => by
      obtain ⟨m, a, t, i, o⟩ := State.saveTile_does (j := j) hp
      refine ⟨m, a, fun k q hq => ?_⟩
      rw [t, i, o]
      by_cases hk : k = l
      · obtain rfl : q = p := Option.some.inj (hq.symm.trans (hk ▸ hp))
        simp only [if_pos hk, if_pos]
      · simp only [if_neg hk, if_neg (fun e : q = p => hk (State.physOf_inj (e ▸ hq) hp))])
    (s.tileSet j) s (s.tileSet_nodup j) fun l hl => hs l (State.mem_tileSet.1 hl)
  exact ⟨hm, ha, fun l p hp hl => (hv l p hp).trans (if_pos (State.mem_tileSet.2 hl))⟩

theorem State.loadTiles_does : s.sameMap ((s.tileSet j).foldl (fun s l => s.loadTile j l) s) ∧
    ((s.tileSet j).foldl (fun s l => s.loadTile j l) s).endAsked = s.endAsked ∧
    ∀ l p, s.physOf l = some p → s.inSet j l = true →
      ((s.tileSet j).foldl (fun s l => s.loadTile j l) s).tile p = (s.image j l).plain := by
  obtain ⟨hm, ha, hv⟩ := foldl_tiles (fun s l p => (s.image j l, s.tile p)) (fun _ v => (TileState.zero, v.1.plain))
    (fun s l => s.loadTile j l) (fun s l p hp => by
      obtain ⟨m, a, t, i⟩ := State.loadTile_does (j := j) hp
      refine ⟨m, a, fun k q hq => ?_⟩
      rw [t, i]
      by_cases hk : k = l
      · obtain rfl : q = p := Option.some.inj (hq.symm.trans (hk ▸ hp))
        simp only [if_pos, hk]
      · simp only [if_neg hk, if_neg (fun e : q = p => hk (State.physOf_inj (e ▸ hq) hp))])
    (s.tileSet j) s (s.tileSet_nodup j) fun l hl => hs l (State.mem_tileSet.1 hl)
  exact ⟨hm, ha, fun l p hp hl => congrArg Prod.snd ((hv l p hp).trans (if_pos (State.mem_tileSet.2 hl)))⟩

theorem State.assigns_does (hj : j < 64) : s.sameMap ((s.tileSet j).foldl (fun s l => s.assign j l) s) ∧
    ((s.tileSet j).foldl (fun s l => s.assign j l) s).endAsked = s.endAsked ∧
    ∀ l p, s.physOf l = some p → s.inSet j l = true →
      (((s.tileSet j).foldl (fun s l => s.assign j l) s).loaded p, ((s.tileSet j).foldl (fun s l => s.assign j l) s).jobOf p) =
        (true, j) := by
  obtain ⟨hm, ha, hv⟩ := foldl_tiles (fun s _ p => (s.loaded p, s.jobOf p)) (fun _ _ => (true, j)) (fun s l => s.assign j l)
    (fun s l p hp => by
      obtain ⟨m, a, o, b⟩ := State.assign_does hj hp
      refine ⟨m, a, fun k q hq => ?_⟩
      rw [o, b]
      by_cases hk : k = l
      · obtain rfl : q = p := Option.some.inj (hq.symm.trans (hk ▸ hp))
        simp only [if_pos hk, if_pos]
      · simp only [if_neg hk, if_neg (fun e : q = p => hk (State.physOf_inj (e ▸ hq) hp))])
    (s.tileSet j) s (s.tileSet_nodup j) fun l hl => hs l (State.mem_tileSet.1 hl)
  exact ⟨hm, ha, fun l p hp hl => (hv l p hp).trans (if_pos (State.mem_tileSet.2 hl))⟩

end

/-! ## The debit before a save and a restore -/

theorem State.reg_debitT (s : State) (j b : Nat) {a : Nat} (h : a ≠ EQX_JOB_BAL_T.at j) (h2 : a ≠ EQX_JOB_STATUS.at j)
    (h3 : a ≠ EQX_JOB_WORK_T.at j) : (s.debitT j b).reg a = s.reg a :=
  (State.reg_bump_at _ _ _ h3).trans (State.reg_setBalT s j _ h h2)

theorem State.fields_debitT (s : State) (j b : Nat) :
    (s.debitT j b).tiles = s.tiles ∧ (s.debitT j b).saved = s.saved ∧ (s.debitT j b).endAsked = s.endAsked := by
  refine ⟨?_, ?_, ?_⟩ <;> rw [State.debitT, State.setBalT, State.setSigned]
  · rw [State.tiles_bump, State.tiles_setFlag, State.tiles_setF]
  · rw [State.saved_bump, State.saved_setFlag, State.saved_setF]
  · rw [State.endAsked_bump, State.endAsked_setFlag, State.endAsked_setF]

theorem State.sameMap_debitT (s : State) {j : Nat} (b : Nat) (hj : j < 64) : s.sameMap (s.debitT j b) :=
  State.sameMap_of_reg fun q => s.reg_debitT j b (by simp only [ANV_ID.at, EQX_JOB_BAL_T.at]; omega)
    (by simp only [ANV_ID.at, EQX_JOB_STATUS.at]; omega) (by simp only [ANV_ID.at, EQX_JOB_WORK_T.at]; omega)

theorem State.inSet_debitT (s : State) (j b l : Nat) : (s.debitT j b).inSet j l = s.inSet j l := by
  unfold State.inSet
  by_cases hl : l < 192
  · rw [s.reg_debitT j b (by simp only [EQX_JOB_TILES.at, EQX_JOB_BAL_T.at]; omega)
      (by simp only [EQX_JOB_TILES.at, EQX_JOB_STATUS.at]; omega) (by simp only [EQX_JOB_TILES.at, EQX_JOB_WORK_T.at]; omega)]
  · simp [hl]

theorem State.applyEnd_unasked {s : State} {j : Nat} (h : s.endAsked.contains j = false) : s.applyEnd j = s :=
  if_neg fun hc => Bool.false_ne_true (h.symm.trans hc.1)

/-! ## Save and restore -/

section
variable {s : State} {j : Nat} (beats : Nat) (hj : j < 64) (hu : s.up = true) (ha : s.endAsked.contains j = false)
  (hs : ∀ l, s.inSet j l = true → (s.physOf l).isSome = true)
include hj hu ha hs

theorem saveDone_saves (h : s.jobState j = jSAVING) (hq : s.coresQuiet j = true) :
    ∃ t, exec (.saveDone j beats) s = .next t ∧ t.jobState j = jSAVED ∧ ∀ l p, s.inSet j l = true → s.physOf l = some p →
      (t.image j l).plain = (s.tile p).plain ∧ t.tile p = (s.tile p).residue ∧ t.loaded p = false := by
  obtain ⟨ht, _, hd⟩ := s.fields_debitT j beats
  have hmap := s.sameMap_debitT beats hj
  obtain ⟨-, h2, h3⟩ := State.saveTiles_does (j := j) (s := s.debitT j beats) fun l hl => by
    rw [hmap.physOf]
    exact hs l ((s.inSet_debitT j beats l).symm.trans hl)
  refine ⟨_, if_pos ⟨h, hq, hu⟩, ?_⟩
  generalize (List.foldl (fun s l => s.saveTile j l) (s.debitT j beats) ((s.debitT j beats).tileSet j)) = u at h2 h3 ⊢
  rw [State.applyEnd_unasked ?asked]
  case asked => rw [State.showHalts, State.endAsked_setFlag, State.endAsked_setF, h2, hd, ha]
  refine ⟨(State.jobState_setF_below _ j _ (by decide)).trans (State.jobState_setF_state u j (by decide)), fun l p hl hp => ?_⟩
  obtain ⟨hi, hti, hlo⟩ : _ ∧ _ ∧ _ := by
    have := h3 l p (by rw [hmap.physOf]; exact hp) ((s.inSet_debitT j beats l).trans hl)
    simp only [Prod.mk.injEq] at this
    exact this
  rw [State.tile_of_tiles ht] at hi hti
  have haway : ∀ r : FRef, r.off = EQX_JOB_STATUS.at j → (ANV_ID.JOB_V p).off ≠ r.off := by
    intro r hr
    rw [hr]
    simp only [ANV_ID.JOB_V, ANV_ID.at, EQX_JOB_STATUS.at]
    omega
  refine ⟨?_, ?_, ?_⟩
  · rw [State.showHalts, State.image_of_saved (State.saved_setFlag _ _ _), State.image_of_saved (State.saved_setF _ _ _), hi]
  · rw [State.showHalts, State.tile_of_tiles (State.tiles_setFlag _ _ _), State.tile_of_tiles (State.tiles_setF _ _ _), hti]
  · rw [State.showHalts, State.loaded, State.flag_setFlag_away _ _ (haway _ rfl), State.flag,
      State.f_of_reg (State.reg_setF_at _ _ _ _ (haway _ rfl))]
    exact hlo

theorem restoreDone_restores (h : s.jobState j = jRESTORING) :
    ∃ t, exec (.restoreDone j beats) s = .next t ∧ t.jobState j = jRUNNING ∧
      ∀ l p, s.inSet j l = true → s.physOf l = some p → t.tile p = (s.image j l).plain := by
  obtain ⟨_, hsv, hd⟩ := s.fields_debitT j beats
  have hmap := s.sameMap_debitT beats hj
  obtain ⟨-, h2, h3⟩ := State.loadTiles_does (j := j) (s := s.debitT j beats) fun l hl => by
    rw [hmap.physOf]
    exact hs l ((s.inSet_debitT j beats l).symm.trans hl)
  refine ⟨_, if_pos ⟨h, hu⟩, ?_⟩
  generalize (List.foldl (fun s l => s.loadTile j l) (s.debitT j beats) ((s.debitT j beats).tileSet j)) = u at h2 h3 ⊢
  rw [State.applyEnd_unasked ?asked]
  case asked => rw [State.endAsked_setFlag, State.endAsked_setF, h2, hd, ha]
  refine ⟨(State.jobState_setF_below _ j _ (by decide)).trans (State.jobState_setF_state u j (by decide)), fun l p hl hp => ?_⟩
  rw [State.tile_of_tiles (State.tiles_setFlag _ _ _), State.tile_of_tiles (State.tiles_setF _ _ _),
    h3 l p (by rw [hmap.physOf]; exact hp) ((s.inSet_debitT j beats l).trans hl), State.image_of_saved hsv]

omit hu ha in
theorem restoreStart_assigns (h : s.mayRestore j = true) :
    ∃ t, exec (.restoreStart j) s = .next t ∧ t.jobState j = jRESTORING ∧
      ∀ l p, s.inSet j l = true → s.physOf l = some p → t.loaded p = true ∧ t.jobOf p = j := by
  obtain ⟨-, -, h3⟩ := State.assigns_does (j := j) (s := { s with chosen := s.waiting.filter (fun k => k != j) }) hs hj
  refine ⟨_, if_pos h, ?_⟩
  generalize hu : State.setF _ (EQX_JOB_STATUS.STATE j) jRESTORING = u
  have hid (v : State) (q : Nat) : (v.setF (EQX_JOB_STATUS.STATE j) jRESTORING).reg (ANV_ID.at q) = v.reg (ANV_ID.at q) :=
    State.reg_setF_at _ _ _ _ (by simp only [ANV_ID.at, EQX_JOB_STATUS.STATE, EQX_JOB_STATUS.at]; omega)
  have hshow (q : Nat) : (u.showSaving j true).reg (ANV_ID.at q) = u.reg (ANV_ID.at q) := by
    unfold State.showSaving
    exact foldl_keeps (State.reg · (ANV_ID.at q)) _ (fun v l => State.reg_setFlag_at _ _ _ (by
      simp only [ANV_ID.at, ANV_STATUS.SAVING, ANV_STATUS.at]; omega)) _ u
  refine ⟨?_, fun l p hl hp => ?_⟩
  · have hv : u.JobAt j jRESTORING u.endAsked := ⟨hu ▸ State.jobState_setF_state _ j (by decide), rfl⟩
    exact (foldl_inv (P := State.JobAt j jRESTORING u.endAsked) hv fun _ _ _ h =>
      (jobAt_steady hj _ _).setFlag h _ (calm_add (by decide))).1
  · have := h3 l p hp hl
    simp only [Prod.mk.injEq] at this
    obtain ⟨hlo, hjo⟩ := this
    refine ⟨?_, ?_⟩
    · exact (congrArg (fun w => fld w 29 29 == 1) ((hshow p).trans (hu ▸ hid _ p))).trans hlo
    · exact (congrArg (fun w => fld w 28 23) ((hshow p).trans (hu ▸ hid _ p))).trans hjo

end

/-- Settles O42; that a saved context is typed data, so that a restore always succeeds, is the model's choice (log entry
6). -/
theorem saveAndRestore : Obligations.SaveAndRestore := by
  unfold Obligations.SaveAndRestore
  intro s j beats hj hu ha hs image plain
  exact ⟨saveDone_saves beats hj hu ha hs, restoreStart_assigns hj hs, restoreDone_restores beats hj hu ha hs⟩

end Sys2Proof.Machine

/-! PROOFS. Loads and their results (R608 - R629). -/
namespace Sys2Proof.Machine

/-! ## What the preparation of a load's memory leaves alone -/

/-- P survives what the preparation of memory does. -/
structure Loads (P : State → Prop) : Prop extends PageSteady P where
  setBlank : ∀ {s : State} (lo n : Nat) (b : Option Blank), P s → P (s.setBlank lo n b)
  blankRun : ∀ {s : State} (lo n : Nat) (b : Option Blank), P s → P { s with blank := Runs.set none s.blank lo n b }
  farDrop : ∀ {s : State} (a n : Nat) (g : List Nat), P s → P { s with far := SMap.dropRange s.far a n, farPoison := g }
  scratchDrop : ∀ {s : State} (a n : Nat) (g k : List Nat), P s →
    P { s with scratch := SMap.dropRange s.scratch a n, scratchBad := g, scratchWeak := k }
  slotsDrop : ∀ {s : State} (a n : Nat), P s → P { s with slots := SMap.dropRange s.slots a n }

section
variable {P : State → Prop} (hP : Loads P) {s : State} (h : P s)
include hP h

theorem Loads.discardPage (gp : Nat) (tag : BitVec 24) : P (s.discardPage gp tag) := by
  unfold State.discardPage
  extract_lets gc u pg n was v
  have hu : P u := hP.setMergeBuf h _ _
  have hv : P v := by
    unfold v
    split
    · exact hP.setF hu _ (calm_add (by decide))
    · exact hu
  exact hP.setPage _ _ hv

theorem Loads.merge (m : SMap (List MergeEntry)) : P { s with merge := m } := hP.apart h rfl

theorem Loads.discardRun (lo n : Nat) (tag : BitVec 24) : P (s.discardRun lo n tag) := by
  unfold State.discardRun
  extract_lets k hit bad t u
  split
  · exact foldl_inv h fun _ _ _ h => hP.discardPage h _ _
  · have hu : P u := hP.setBlank _ _ _ (hP.merge h _)
    clear_value u
    split
    · exact hu
    · exact hP.setF hu _ (calm_add (by decide))

theorem Loads.retag (gp : Nat) (tag : BitVec 24) : P (s.retag gp tag) := by
  unfold State.retag
  dsimp only
  split
  · exact h
  · split
    · exact hP.setPage _ _ h
    · exact hP.setPage _ _ (hP.countFixed h _ _)
    · exact hP.setPage _ _ h
    · exact hP.setPage _ _ (hP.poisonPage h _ _ _)

theorem Loads.retagRun (lo n : Nat) (tag : BitVec 24) : P (s.retagRun lo n tag) := by
  unfold State.retagRun
  dsimp only
  split
  · exact foldl_inv h fun _ _ _ h => hP.retag h _ _
  · exact foldl_inv (hP.blankRun _ _ _ h) fun _ _ _ h => hP.retag h _ _

theorem Loads.prepareRange (keep : Bool) (tag : BitVec 24) (r : Nat × Nat) : P (s.prepareRange keep tag r) := by
  unfold State.prepareRange
  split
  · refine foldl_inv h fun _ _ _ h => ?_
    split
    · exact hP.retagRun h _ _ _
    · exact hP.discardRun h _ _ _
  · split
    · exact hP.farDrop _ _ _ h
    · exact h

theorem Loads.prepareSeg (keep : Bool) (g : Seg) : P (s.prepareSeg keep g) := by
  unfold State.prepareSeg
  split
  · exact h
  · exact foldl_inv (foldl_inv h fun _ _ _ h => hP.prepareRange h _ _ _) fun _ _ _ h => hP.prepareRange h _ _ _

theorem Loads.prepareSave (off : Nat) : P (s.prepareSave off) :=
  foldl_inv h fun _ _ _ h => foldl_inv h fun _ _ _ h => hP.discardRun h _ _ _

theorem Loads.prepare (p : LoadPlan) : P (s.prepare p) := by
  unfold State.prepare
  exact foldl_inv (hP.prepareSave (foldl_inv (foldl_inv h fun _ _ _ h => hP.prepareSeg h _ _)
    fun _ _ _ h => hP.scratchDrop _ _ _ _ h) _) fun _ _ _ h => hP.slotsDrop _ _ h

end

/-- The loads that wait are those of a list. -/
def State.LoadsWait (l : List (List W64)) (s : State) : Prop := s.ldrIn = l

theorem State.ldrIn_setPage (s : State) (gp : Nat) (pg : Page) : (s.setPage gp pg).ldrIn = s.ldrIn := by
  unfold State.setPage
  split
  · rfl
  · split <;> rfl

theorem loadsWait_loads (l : List (List W64)) : Loads (State.LoadsWait l) where
  apart {s t} h e := (show t.untouched.ldrIn = s.untouched.ldrIn from congrArg State.ldrIn e).trans h
  setReg _ h _ := h
  setPage gp pg h := (State.ldrIn_setPage _ gp pg).trans h
  setBlank _ _ _ h := h
  blankRun _ _ _ h := h
  farDrop _ _ _ h := h
  scratchDrop _ _ _ _ h := h
  slotsDrop _ _ h := h

/-! ## A load's record -/

section
variable {s r r2 : State} {p : List W64} {rest : List (List W64)} {finding : Option (Nat × Nat)} {pads : List PadUse}
  {raceFree : Bool}

/-- A LOAD record taken runs on the state without it. -/
theorem load_runs {t : State} (hin : s.ldrIn = p :: rest) (hl : s.loading = none) (hu : s.up = true) (ho : s.ldrOpen = true)
    (e : (loadRow (fld (p.getD 0 0#64) 47 0) (p.getD 1 0#64) finding pads raceFree).go { s with ldrIn := rest } = (.ok (), t)) :
    exec (.load finding pads raceFree) s = .next t := by
  show execLoad finding pads raceFree s = _
  unfold execLoad
  rw [hin]
  exact (if_pos ⟨by rw [hl]; rfl, hu, ho⟩).trans (rowOf_ok (EM.go_bind_ok (EM.go_modify _ s) e))

variable {place : Nat} {cookie d feat : W64} {pb : List Byte} {reason result : Nat} {pl : LoadPlan}

theorem loadRow_refuses (e : (checkLoad place finding pads raceFree).go s = (.ok (.refuse reason d, pb, feat), r)) :
    (loadRow place cookie finding pads raceFree).go s =
      (.ok (), { r with loading := some ⟨place, cookie, none, 2, reason, d, 0#64, false, 0⟩ }) :=
  EM.go_bind_ok e (EM.go_modify _ r)

theorem loadRow_applies (e : (checkLoad place finding pads raceFree).go s = (.ok (.plan pl result d, pb, feat), r))
    (e2 : (applyLoad pl feat).go r = (.ok (), r2)) :
    (loadRow place cookie finding pads raceFree).go s = (.ok (), { r2 with
      loading := some ⟨place, cookie, some pl.job, result, 0, d, feat, bitAt (wordAt pb 0) 63, pl.img.vrgUse⟩ }) :=
  EM.go_bind_ok e (EM.go_bind_ok e2 (EM.go_modify _ r2))

theorem ldrRead_unaligned {a n : Nat} (h : a % 4096 ≠ 0) : (ldrRead a n).go s = (.ok none, s) := by
  refine EM.go_bind_ok (EM.go_get s) ?_
  rw [if_pos (by simp [h])]
  rfl

theorem checkLoad_unaligned (h : place % 4096 ≠ 0) :
    (checkLoad place finding pads raceFree).go s = (.ok (.refuse rsFORMAT 0#64, [], 0#64), s) :=
  EM.go_bind_ok (ldrRead_unaligned h) (EM.go_pure _ s)

/-! ## A load in served memory -/

variable {lo hi : Nat}

theorem ldrRead_calm {a n : Nat} (hc : s.calm ldrWho false lo hi = true) (h0 : a % 4096 = 0) (h1 : s.inStore a = true)
    (h2 : s.inStore (a + n - 1) = true) (h3 : lo ≤ a) (h4 : a + n ≤ hi) :
    ∃ g, (ldrRead a n).go s = (.ok (some (s.bytesAt ldrWho a n)), s.gran g) := by
  obtain ⟨g, e⟩ := readSpan_calm n hc h3 h4 le_rfl
  refine ⟨g, EM.go_bind_ok (EM.go_get s) ?_⟩
  rw [if_neg (by simp [h0, h1, h2])]
  exact EM.go_tryCatch_ok (EM.go_bind_ok e (EM.go_pure _ _))

/-- Three reads end in what the checks say of the state. -/
theorem checkLoad_calm {img len : Nat} (hc : s.calm ldrWho false lo hi = true)
    (there : ∀ a n, (a, n) ∈ [(place, 640), (img, 256), (img, len)] →
      a % 4096 = 0 ∧ s.inStore a = true ∧ s.inStore (a + n - 1) = true ∧ lo ≤ a ∧ a + n ≤ hi)
    (himg : fld (wordAt (s.bytesAt ldrWho place 640) 0) 47 0 = img)
    (hlen : fld ((wordList (s.bytesAt ldrWho img 256) 32).getD 1 0#64) 47 0 = len)
    (hfree : rangesMeet [(place, place + 639), (img, img + max len 256 - 1)] s.busyRanges = false)
    (hhead : headerOk (wordList (s.bytesAt ldrWho img 256) 32) = true) :
    ∃ g, (checkLoad place finding pads raceFree).go s =
      (.ok (s.judgeImage (mkImage (s.bytesAt ldrWho img len)) (s.bytesAt ldrWho place 640) finding pads raceFree,
        s.bytesAt ldrWho place 640,
        (mkImage (s.bytesAt ldrWho img len)).h 3 &&& BitVec.ofNat 64 (s.f LDR_ID.FEATURES)), s.gran g) := by
  obtain ⟨p0, p1, p2, p3, p4⟩ := there place 640 (by simp)
  obtain ⟨i0, i1, i2, i3, i4⟩ := there img 256 (by simp)
  obtain ⟨l0, l1, l2, l3, l4⟩ := there img len (by simp)
  obtain ⟨g1, e1⟩ := ldrRead_calm hc p0 p1 p2 p3 p4
  obtain ⟨g2, e2⟩ := ldrRead_calm (s := s.gran g1) hc i0 i1 i2 i3 i4
  obtain ⟨g3, e3⟩ := ldrRead_calm (s := s.gran g2) hc l0 l1 l2 l3 l4
  refine ⟨g3, EM.go_bind_ok e1 ?_⟩
  dsimp only
  rw [himg]
  refine EM.go_bind_ok e2 ?_
  dsimp only
  refine EM.go_bind_ok (EM.go_get _) ?_
  have hlen' : fld (((wordList ((s.gran g1).bytesAt ldrWho img 256) 32)[1]?).getD 0#64) 47 0 = len := hlen
  rw [hlen', if_neg (by rw [show rangesMeet _ (State.busyRanges ((s.gran g1).gran g2)) = false from hfree]; simp),
    if_neg (by rw [show headerOk (wordList ((s.gran g1).bytesAt ldrWho img 256) 32) = true from hhead]; simp)]
  exact EM.go_bind_ok e3 (EM.go_bind_ok (EM.go_get _) (EM.go_pure _ _))

/-- What a load without INIT sections of a job that serves no requests leaves. -/
def LoadPlan.applied (p : LoadPlan) (feat : W64) (s : State) : State :=
  let s := setAll (p.descriptors ++ p.baseRegs) (s.prepare p)
  let s := { s with
    shareT := SMap.put 0 s.shareT p.job p.share,
    engines := SMap.put 0 s.engines p.job p.img.vrgUse,
    digests := SMap.put [] s.digests p.job ((p.img.bytes.drop 80).take 32),
    shareV := (List.range 16).foldl (fun m n => SMap.put 0 m (64 * n + p.job) p.share) s.shareV }
  { s with
    saved := p.img.tiles.foldl (fun m l => SMap.put TileState.zero m (savedKey p.job l) (p.tileInit feat l)) s.saved }

theorem loop_nothing {α : Type} {l : List α} {f : α → PUnit → EM (ForInStep PUnit)}
    (h : ∀ a ∈ l, ∀ s, (f a ⟨⟩).go s = (.ok (.yield ⟨⟩), s)) (s : State) : (ForIn.forIn l PUnit.unit f).go s = (.ok ⟨⟩, s) := by
  induction l with
  | nil => rfl
  | cons a l ih =>
    rw [List.forIn_cons]
    exact EM.go_bind_ok (h a List.mem_cons_self s) (ih fun a ha => h a (List.mem_cons_of_mem _ ha))

theorem applyLoad_plain (hw : (List.range 16).all (fun k => !s.whold k) = true) (hs : pl.img.serving = false)
    (hi : pl.img.secs.all (fun c => c.typ != 5) = true) : (applyLoad pl feat).go s = (.ok (), pl.applied feat s) := by
  have hw' : (List.range 16).any s.whold = false := by
    rw [List.any_eq_false]
    intro k hk
    simpa using List.all_eq_true.1 hw k hk
  refine EM.go_bind_ok (EM.go_get s) ?_
  rw [hw', if_neg Bool.false_ne_true]
  refine EM.go_bind_ok (EM.go_modify _ _) (EM.go_bind_ok (EM.go_modify _ _) (EM.go_bind_ok (EM.go_modify _ _)
    (EM.go_bind_ok (EM.go_modify _ _) (EM.go_bind_ok (loop_nothing (fun c hc u => ?_) _) ?_))))
  · have : c.typ ≠ 5 := by simpa using List.all_eq_true.1 hi c hc
    rw [if_neg this]
    rfl
  · rw [hs, if_neg Bool.false_ne_true]
    rfl

theorem State.ldrIn_setAll (l : List (Nat × W64)) (s : State) : (setAll l s).ldrIn = s.ldrIn :=
  foldl_keeps State.ldrIn (fun (s : State) (p : Nat × W64) => s.setReg p.1 p.2) (fun _ _ => rfl) l s

theorem LoadPlan.applied_ldrIn (h : s.ldrIn = rest) : (pl.applied feat s).ldrIn = rest :=
  (State.ldrIn_setAll _ _).trans ((loadsWait_loads rest).prepare h pl)

end

/-! ## The result of a load -/

section
variable {s r : State} {x : Loading}

/-- The record and the message of a result, and the slot that is free again. -/
def Loading.told (x : Loading) (s : State) : State :=
  { ((s.erq ⟨0xA0, 0, bLDR, 0, x.job, 0, x.r0⟩).post 4 x.job x.r0 x.place).bump LDR_STATUS.LOADS 1 with loading := none }

/-- What a granted job becomes. -/
def State.grantJob (s : State) (j : Nat) (hold : Bool) : State :=
  ((s.setFlag (EQX_JOB_CTL.HOLD j) hold).setF (EQX_JOB_STATUS.STATE j) jSAVED).noteDemandT

theorem loadResult_tells (hl : s.loading = some x) (hz : s.zenUp = true) (hx : s.recheckLoad x = (x, s))
    (hw : EM.go (if s.inStore x.place then ldrWrite (x.place + 576) x.granule else pure ()) s = (.ok (), r)) :
    exec .loadResult s = .next (x.told (match x.job with
      | some j => r.grantJob j x.hold
      | none => r)) := by
  show execLoadResult s = _
  unfold execLoadResult
  rw [hl]
  dsimp only
  rw [hz, if_neg (by simp), hx]
  dsimp only
  rw [EM.go_bind_ok (EM.go_get s) (r := (.ok (), x.told (match x.job with
      | some j => r.grantJob j x.hold
      | none => r)))]
  by_cases hs : s.inStore x.place = true
  · rw [if_pos hs] at hw ⊢
    exact EM.go_bind_ok hw (EM.go_modify _ r)
  · rw [if_neg hs] at hw ⊢
    obtain rfl : s = r := congrArg Prod.snd hw
    exact EM.go_modify _ s

theorem ldrWrite_calm {a lo hi : Nat} {bs : List Byte} (hc : s.calm ldrWho true lo hi = true) (h1 : lo ≤ a)
    (h2 : a + bs.length ≤ hi) : ∃ r, (ldrWrite a bs).go s = (.ok (), r) := by
  obtain ⟨_, r, e, -, -⟩ := rawSpanWrite_ends (serves_kept hc) bs.length bs h1 h2 s (Kept.refl s)
  exact ⟨r, EM.go_tryCatch_ok e⟩

theorem Loading.granule_length (x : Loading) : x.granule.length = 64 := by
  simp [Loading.granule, leBytes]

/-- The register at a of EQX holds w. -/
def State.RegAt (a : Nat) (w : W64) (s : State) : Prop := s.reg a = w

theorem regAt_steady {a : Nat} (ha : 0x100000 ≤ a ∧ a < 0x106000) (w : W64) : PageSteady (State.RegAt a w) where
  apart h e := (State.reg_of_regs (untouched_regs e) a).trans h
  setReg v h c := by
    refine (State.reg_setReg _ _ _ _).trans ((if_neg ?_).trans h)
    unfold Calm at c
    omega
  setPage gp pg h := (State.reg_setPage _ gp pg a).trans h

theorem Loading.reg_told (x : Loading) (s : State) {a : Nat} (ha : 0x100000 ≤ a ∧ a < 0x106000) :
    (x.told s).reg a = s.reg a := by
  have hP := regAt_steady ha (s.reg a)
  have h0 : State.RegAt a (s.reg a) s := Eq.refl (s.reg a)
  have h1 := hP.erq h0 ⟨0xA0, 0, bLDR, 0, x.job, 0, x.r0⟩ false
  unfold Loading.told
  generalize s.erq ⟨0xA0, 0, bLDR, 0, x.job, 0, x.r0⟩ = u at h1 ⊢
  have h2 := hP.bump (hP.post h1 4 x.job x.r0 x.place) (r := LDR_STATUS.LOADS) 1 (calm_lit rfl)
  generalize (u.post 4 x.job x.r0 x.place).bump LDR_STATUS.LOADS 1 = v at h2 ⊢
  exact h2

theorem State.reg_noteDemandT (s : State) (a : Nat) : s.noteDemandT.reg a = s.reg a := rfl

theorem State.grantJob_grants (s : State) {j : Nat} (hold : Bool) :
    (s.grantJob j hold).jobState j = jSAVED ∧ (s.grantJob j hold).flag (EQX_JOB_CTL.HOLD j) = hold := by
  unfold State.grantJob
  refine ⟨(State.f_of_reg (State.reg_noteDemandT _ _)).trans (State.jobState_setF_state _ j (by decide)), ?_⟩
  rw [State.flag, State.f_of_reg (State.reg_noteDemandT _ _), State.f_of_reg (State.reg_setF_at _ _ _ _ (by
    simp only [EQX_JOB_CTL.HOLD, EQX_JOB_CTL.at, EQX_JOB_STATUS.STATE, EQX_JOB_STATUS.at]; omega)), State.setFlag,
    State.f_setF_self _ _ _ (by show 0 < 64; decide) (by show 0 ≤ 0; decide)]
  cases hold <;> rfl

end

/-- Settles O43; that a placement block which is not aligned answers FORMAT and that the verifier's findings are operands
are the model's choices (log entries 47 and 49). -/
theorem loadsAreAnswered : Obligations.LoadsAreAnswered := by
  unfold Obligations.LoadsAreAnswered
  intro s r r2 p rest finding pads raceFree reason lo hi d feat pb pl result x place cookie s0
  refine ⟨fun hin hl hu ho => ⟨fun ha => ?unaligned, fun e => ?refused, fun e e2 => ?applied, ?served⟩, fun hl hz => ?result⟩
  case unaligned => exact load_runs hin hl hu ho (loadRow_refuses (checkLoad_unaligned ha))
  case refused => exact load_runs hin hl hu ho (loadRow_refuses e)
  case applied => exact load_runs hin hl hu ho (loadRow_applies e e2)
  case served =>
    intro block img header len image there hc h1 h2 h3 hfree hhead hj hw hs hsec
    obtain ⟨g, e⟩ := checkLoad_calm (s := s0) (finding := finding) (pads := pads) (raceFree := raceFree)
      (place := place) (img := img) (len := len) hc (by
        intro a n hm
        simp only [List.mem_cons, List.not_mem_nil, or_false, Prod.mk.injEq] at hm
        rcases hm with ⟨rfl, rfl⟩ | ⟨rfl, rfl⟩ | ⟨rfl, rfl⟩
        exacts [h1, h2, h3]) rfl rfl hfree hhead
    have e' : (checkLoad place finding pads raceFree).go s0 = (.ok (.plan pl result d, block,
        image.h 3 &&& BitVec.ofNat 64 (s.f LDR_ID.FEATURES)), s0.gran g) := by
      rw [e]
      exact congrArg (fun v => (Except.ok (v, _), _)) hj
    exact ⟨_, load_runs hin hl hu ho (loadRow_applies e' (applyLoad_plain hw hs hsec)),
      LoadPlan.applied_ldrIn (s := s0.gran g) (feat := image.h 3 &&& BitVec.ofNat 64 (s.f LDR_ID.FEATURES)) rfl, rfl⟩
  case result =>
    intro writes ends
    have hends (r : State) (hw : writes r) : ends r := by
      constructor
      case left =>
        intro hx u
        have := loadResult_tells hl hz (by rw [State.recheckLoad, hx]) hw
        rw [hx] at this
        refine this.trans ?_
        rw [Loading.told, hx]
      case right =>
        intro j hj hx he
        have := loadResult_tells hl hz (by rw [State.recheckLoad, hx]; exact if_pos he) hw
        rw [hx] at this
        obtain ⟨h1, h2⟩ := r.grantJob_grants (j := j) x.hold
        refine ⟨_, this, rfl, ?_, ?_⟩
        · exact (State.f_of_reg (x.reg_told _ (by simp only [EQX_JOB_STATUS.STATE, EQX_JOB_STATUS.at]; omega))).trans h1
        · refine (congrArg (· == 1) (State.f_of_reg (x.reg_told _ ?_))).trans h2
          simp only [EQX_JOB_CTL.HOLD, EQX_JOB_CTL.at]
          omega
    refine ⟨hends r, fun h => ?_⟩
    have hw : ∃ r, writes r := by
      by_cases hs : s.inStore x.place = true
      · obtain ⟨hc, h1, h2⟩ := h.resolve_left (by rw [hs]; decide)
        obtain ⟨r, e⟩ := ldrWrite_calm (bs := x.granule) hc h1 (by rw [x.granule_length]; exact h2)
        exact ⟨r, (congrArg (fun y => EM.go y s) (if_pos hs)).trans e⟩
      · exact ⟨s, congrArg (fun y => EM.go y s) (if_neg hs)⟩
    obtain ⟨r, hr⟩ := hw
    exact ⟨r, hr, hends r hr⟩

end Sys2Proof.Machine

/-! PROOFS. Job rings, messages, ports and snoops of the companion link (R631 - R652). -/
namespace Sys2Proof.Machine

/-! ## Ports -/

theorem State.noted_setDyl (s : State) (p st : Nat) : (s.setDyl p st).noted = s.noted := by
  unfold State.setDyl
  split
  · rfl
  extract_lets was u w d v x
  have hv : v.noted = u.noted := by
    unfold v
    split
    · exact State.noted_erq _ _ _
    · split
      · exact State.noted_erq _ _ _
      · rfl
  clear_value v
  have hx : x.noted = s.noted := (State.noted_post _ _ _ _ _).trans (hv.trans (State.noted_setF _ _ _))
  clear_value x
  split
  · exact (State.noted_setFlag _ _ _).trans hx
  · exact hx

/-- A change of STATE changes that field and registers of the error queue and the alerts. -/
theorem State.reg_setDyl (s : State) {p st : Nat} (h : s.dylState p ≠ st) {a : Nat} (ha : 0x5000 ≤ a) :
    (s.setDyl p st).reg a = (s.setF (DYL_PORT_STATUS.STATE p) st).reg a := by
  unfold State.setDyl
  rw [if_neg h]
  extract_lets was u w d v x
  have hv : v.reg a = u.reg a := by
    unfold v
    split
    · exact State.reg_erq _ _ _ ha
    · split
      · exact State.reg_erq _ _ _ ha
      · rfl
  clear_value v
  have hx : x.reg a = u.reg a := hv
  clear_value x
  split
  · refine (State.reg_setFlag_at _ _ _ ?_).trans hx
    simp only [ZEN_ALERT.LINK, ZEN_ALERT.at]
    omega
  · exact hx

section
variable (s : State) (p : Nat) {st : Nat}

theorem State.dylState_setDyl (h : st < 16) : (s.setDyl p st).dylState p = st := by
  by_cases hs : s.dylState p = st
  · rw [State.setDyl, if_pos hs, hs]
  · rw [State.dylState, State.f_of_reg (State.reg_setDyl s hs (by simp only [DYL_PORT_STATUS.STATE, DYL_PORT_STATUS.at]; omega)),
      State.f_setF_self _ _ _ (by show 47 < 64; decide) (by show 44 ≤ 47; decide)]
    exact Nat.mod_eq_of_lt h

/-- A field of the port's status other than STATE keeps its value while STATE changes. -/
theorem State.f_setDyl_apart {hi lo : Nat} (h : hi < 44) :
    (s.setDyl p st).f ⟨DYL_PORT_STATUS.at p, hi, lo⟩ = s.f ⟨DYL_PORT_STATUS.at p, hi, lo⟩ := by
  by_cases hs : s.dylState p = st
  · rw [State.setDyl, if_pos hs]
  · rw [State.f_of_reg (State.reg_setDyl s hs (by simp only [DYL_PORT_STATUS.at]; omega)),
      State.f_setF_other _ _ _ _ (by show 47 < 64; decide) (by show 44 ≤ 47; decide) (Or.inr (Or.inl h))]

theorem State.dylMode_setDyl : (s.setDyl p st).dylMode = s.dylMode :=
  show (s.setDyl p st).noted.dylMode = s.noted.dylMode from congrArg State.dylMode (s.noted_setDyl p st)

theorem State.dylPerst_setDyl : (s.setDyl p st).dylPerst = s.dylPerst :=
  show (s.setDyl p st).noted.dylPerst = s.noted.dylPerst from congrArg State.dylPerst (s.noted_setDyl p st)

theorem State.dylState_dylDown : (s.dylDown p).dylState p = lDOWN := by
  unfold State.dylDown
  split
  · assumption
  · exact State.dylState_setDyl _ p (by decide)

theorem State.dylPerst_dylDown : (s.dylDown p).dylPerst = s.dylPerst := by
  unfold State.dylDown
  split
  · rfl
  · exact State.dylPerst_setDyl _ p

theorem State.dylState_dylRecover {s : State} {p : Nat} (h : s.dylState p = lL0) : (s.dylRecover p).dylState p = lRECOVERY := by
  rw [State.dylRecover, if_pos h]
  exact State.dylState_setDyl _ p (by decide)

theorem State.dylState_resync (hp : p < 2) (d : Nat) : (s.resync d).dylState p = s.dylState p := by
  unfold State.resync
  split
  · refine State.f_of_reg (State.reg_setF_at _ _ _ _ ?_)
    simp only [DYL_PORT_STATUS.STATE, DYL_PORT_STATUS.at, TDC_DOM_STATUS.STATE, TDC_DOM_STATUS.at]
    omega
  · rfl

end

theorem mem_addNum (l : List Nat) (n : Nat) : n ∈ addNum l n := List.contains_iff_mem.1 (contains_addNum l n)

/-- The state with the mode, rate and width that a training ends in. -/
def State.trained (s : State) (p mode rate width : Nat) : State :=
  (((State.setF { s with dylMode := mode } (DYL_PORT_STATUS.MODE p) mode).setF (DYL_PORT_STATUS.RATE p) rate).setF
    (DYL_PORT_STATUS.WIDTH p) width)

theorem State.trained_fields (s : State) (p rate : Nat) {mode width : Nat} (hm : mode < 4) (hw : width < 4) :
    (s.trained p mode rate width).f (DYL_PORT_STATUS.MODE p) = mode ∧
      (s.trained p mode rate width).f (DYL_PORT_STATUS.WIDTH p) = width := by
  unfold State.trained
  constructor <;>
    simp (disch := (simp only [DYL_PORT_STATUS.MODE, DYL_PORT_STATUS.RATE, DYL_PORT_STATUS.WIDTH]; omega)) only
      [State.f_setF_other, State.f_setF_self]
  · exact Nat.mod_eq_of_lt hm
  · exact Nat.mod_eq_of_lt hw

theorem State.dylMode_trained (s : State) (p mode rate width : Nat) : (s.trained p mode rate width).dylMode = mode := by
  rw [State.trained, State.dylMode_setF, State.dylMode_setF, State.dylMode_setF]

/-- Settles O46. -/
theorem linkPortsMove : Obligations.LinkPortsMove := by
  unfold Obligations.LinkPortsMove
  intro s by_ p mode rate width same hp st goes offered
  refine ⟨fun hs hr => ?training, fun hs hr ho => ⟨fun hm hsame => ?l0, fun hm => ?mismatch⟩, fun hs => ?timeout,
    ?perst, ?release, fun ha => ⟨fun hs => ?retrain, fun hs hr => ?again⟩, fun hs => ?recovery, fun hs hw => ?recovered,
    fun hs => ?lost, fun hm h0 h1 => ?loss⟩
  case training => exact ⟨_, if_pos ⟨hp, hs, hr⟩, State.dylState_setDyl s p (by decide)⟩
  case l0 =>
    obtain ⟨o1, o2, o3, o4, o5, o6⟩ := ho
    have hno : ¬((s.dylMode ≠ 0 ∧ s.dylMode ≠ mode) ∨ (mode = 1 ∧ (!same) = true)) := by
      rintro (⟨h1, h2⟩ | ⟨h1, h2⟩)
      · exact hm.elim h1 h2
      · rw [hsame h1] at h2
        cases h2
    obtain ⟨hmode, hwidth⟩ := s.trained_fields p rate (mode := mode) (width := width) (by omega) (by omega)
    refine ⟨(s.trained p mode rate width).setDyl p lL0,
      (if_pos ⟨hp, hs, hr, o1, o2, o3, o4, o5, o6⟩).trans (if_neg hno), State.dylState_setDyl _ p (by decide), ?_, ?_, ?_⟩
    · exact (State.dylMode_setDyl _ p).trans (s.dylMode_trained p mode rate width)
    · exact (State.f_setDyl_apart _ p (by decide)).trans hmode
    · exact (State.f_setDyl_apart _ p (by decide)).trans hwidth
  case mismatch =>
    obtain ⟨o1, o2, o3, o4, o5, o6⟩ := ho
    refine ⟨_, (if_pos ⟨hp, hs, hr, o1, o2, o3, o4, o5, o6⟩).trans (if_pos ?_), State.dylState_setDyl _ p (by decide)⟩
    exact hm.imp_right fun h => ⟨h.1, by rw [h.2]; rfl⟩
  case timeout => exact ⟨_, if_pos ⟨hp, hs⟩, State.dylState_dylDown s p⟩
  case perst =>
    exact ⟨_, (if_pos hp).trans (if_neg Bool.false_ne_true), State.dylState_dylDown _ p,
      (State.dylPerst_dylDown _ p).symm ▸ mem_addNum s.dylPerst p⟩
  case release => exact (if_pos hp).trans (if_pos rfl)
  case retrain =>
    exact ⟨_, congrArg Host.Outcome.next ((if_pos ⟨ha, hp⟩).trans (if_pos hs)), State.dylState_dylRecover hs⟩
  case again =>
    have hno : ¬s.dylState p = lL0 := by rw [show s.dylState p = lMISMATCH from hs]; decide
    exact ⟨_, congrArg Host.Outcome.next ((if_pos ⟨ha, hp⟩).trans ((if_neg hno).trans (if_pos ⟨hs, hr⟩))),
      State.dylState_setDyl s p (by decide)⟩
  case recovery => exact ⟨_, if_pos ⟨hp, hs⟩, State.dylState_dylRecover hs⟩
  case recovered =>
    exact ⟨_, (if_pos ⟨hp, hs⟩).trans (if_pos ⟨rfl, hw⟩),
      (State.dylState_resync _ p hp _).trans (State.dylState_setDyl _ p (by decide))⟩
  case lost =>
    exact ⟨_, (if_pos ⟨hp, hs⟩).trans (if_neg fun h => Bool.false_ne_true h.1), State.dylState_dylDown s p⟩
  case loss =>
    refine ⟨_, if_pos ⟨by rw [hm]; decide, ?_⟩, rfl, rfl, rfl, rfl⟩
    rw [if_pos hm]
    simp [h0, h1]

/-- Settles O47. -/
theorem snoopsKeepCopiesRight : Obligations.SnoopsKeepCopiesRight := by
  unfold Obligations.SnoopsKeepCopiesRight
  intro s p addr write inval data g
  refine ⟨fun hd => ?snoop, fun hu hc hf => if_pos ⟨hu, hc, hf⟩, fun hf hm => ?response, fun hp hs ha => ?timeout⟩
  case snoop => exact if_neg (by rw [hd]; exact Bool.false_ne_true)
  case response =>
    show execSnoopResponse addr data s = _
    unfold execSnoopResponse
    dsimp only
    rw [hf]
    refine rowOf_ok ?_
    rw [if_neg fun h => Bool.false_ne_true (hm.symm.trans h.1)]
    exact EM.go_modify _ s
  case timeout => exact ⟨_, if_pos ⟨hp, ha⟩, State.dylState_dylRecover hs⟩

/-! ## Job rings -/

theorem State.reg_toComp (s : State) (a : Nat) (bs : List Byte) (b : Nat) : (s.toComp a bs).reg b = s.reg b := rfl

theorem rdNat_wrList (m : Bytes) (a v : Nat) {n : Nat} (h : v < 2 ^ (8 * n)) :
    Bytes.rdNat (Bytes.wrList m a (leBytes n v)) a n = v := by
  have := Bytes.rdList_wrList (leBytes n v) m a
  rw [leBytes_length] at this
  rw [Bytes.rdNat, this, leNat_leBytes, Nat.mod_eq_of_lt h]

theorem State.unseen_does (s : State) (r : Nat) :
    let t : State := { s with ringSeen := SMap.put none s.ringSeen r none, linkCache := dropNum s.linkCache r }
    (∀ q, t.f q = s.f q) ∧ SMap.get none t.ringSeen r = none ∧ t.comp = s.comp := by
  refine ⟨fun _ => rfl, ?_, rfl⟩
  show SMap.get none (SMap.put none s.ringSeen r none) r = none
  rw [SMap.get_put_self]

/-- An answered record: NEXT rises, no record is seen, and the answer stands in the header. -/
theorem State.answerRing_does (s : State) (r ans : Nat) :
    (s.answerRing r ans).f (DYL_RING_STATUS.NEXT r) = (s.f (DYL_RING_STATUS.NEXT r) + 1) % 2 ^ 32 ∧
    SMap.get none (s.answerRing r ans).ringSeen r = none ∧
    (s.answerRing r ans).comp =
      Bytes.wrList s.comp (s.headerAt r + 8) (leBytes 8 (setFld (setFld 0#64 63 63 1) 62 56 ans).toNat) := by
  unfold State.answerRing
  extract_lets seq u v w
  have hvf : v.f (DYL_RING_STATUS.NEXT r) = (s.f (DYL_RING_STATUS.NEXT r) + 1) % 2 ^ 32 := by
    unfold v
    rw [State.f_setF_other _ _ _ _ (by show 31 < 64; decide) (by show 30 ≤ 31; decide) (Or.inr (Or.inr (by show 31 < 32; decide))),
      State.f_setF_self _ _ _ (by show 63 < 64; decide) (by show 32 ≤ 63; decide)]
    rfl
  have hvc : v.comp = u.comp := by
    unfold v
    rw [State.comp_setF, State.comp_setF]
  clear_value v
  have hw : w.f (DYL_RING_STATUS.NEXT r) = (s.f (DYL_RING_STATUS.NEXT r) + 1) % 2 ^ 32 ∧
      SMap.get none w.ringSeen r = none ∧ w.comp = u.comp := by
    obtain ⟨h1, h2, h3⟩ := v.unseen_does r
    exact ⟨(h1 _).trans hvf, h2, h3.trans hvc⟩
  clear_value w
  obtain ⟨h1, h2, h3⟩ := hw
  split
  · exact ⟨h1, h2, h3⟩
  · refine ⟨(State.f_erq _ _ _ ?_).trans h1, ?_, ?_⟩
    · simp only [DYL_RING_STATUS.NEXT, DYL_RING_STATUS.at]
      omega
    · rw [show ∀ q : ErqRec, (w.erq q).ringSeen = w.ringSeen from fun q =>
        show (w.erq q).noted.ringSeen = w.noted.ringSeen from congrArg State.ringSeen (State.noted_erq w q false), h2]
    · rw [show ∀ q : ErqRec, (w.erq q).comp = w.comp from fun q =>
        show (w.erq q).noted.comp = w.noted.comp from congrArg State.comp (State.noted_erq w q false), h3]
      rfl

/-- Settles O44. -/
theorem jobRingsAreServed : Obligations.JobRingsAreServed := by
  unfold Obligations.JobRingsAreServed
  intro s r line near seen observes
  have hcoh : (s.coherent = true) = (s.dylMode = 1 ∨ s.dylMode = 2) := by simp [State.coherent]
  have hread : s.readHeader r line = seen := by
    unfold State.readHeader seen near
    simp only [hcoh]
    split <;> rfl
  refine ⟨fun hon hfree => ⟨fun hp => ?poll, fun hc hl => ?snoop⟩, fun payload ho hh => ?unsound,
    fun payload ho hh hk hu hr => ⟨fun hl => ?full, fun hl => ?accepted⟩, fun ans _ => ?answer⟩
  case poll => exact (if_pos ⟨hon, by rw [State.ringFree, hfree]; rfl, hp⟩).trans (congrArg _ hread)
  case snoop =>
    exact (if_pos ⟨hon, by rw [State.ringFree, hfree]; rfl, hcoh.mpr hc, by rw [hl]; rfl⟩).trans (congrArg _ hread)
  case unsound =>
    show execRingObserve r payload s = _
    unfold execRingObserve
    rw [ho.2]
    exact (if_neg (by rw [ho.1]; exact Bool.false_ne_true)).trans (if_pos (by rw [hh]; rfl))
  case full =>
    show execRingObserve r payload s = _
    unfold execRingObserve
    rw [ho.2]
    refine (if_neg (by rw [ho.1]; exact Bool.false_ne_true)).trans ((if_neg (by rw [hh]; exact Bool.false_ne_true)).trans ?_)
    exact (if_neg fun h => h.1 hk).trans ((if_neg (by rw [hu]; exact Bool.false_ne_true)).trans ((if_pos hk).trans
      ((if_neg (by rw [hr]; exact Bool.false_ne_true)).trans (if_pos hl))))
  case accepted =>
    show execRingObserve r payload s = _
    unfold execRingObserve
    rw [ho.2]
    refine (if_neg (by rw [ho.1]; exact Bool.false_ne_true)).trans ((if_neg (by rw [hh]; exact Bool.false_ne_true)).trans ?_)
    exact (if_neg fun h => h.1 hk).trans ((if_neg (by rw [hu]; exact Bool.false_ne_true)).trans ((if_pos hk).trans
      ((if_neg (by rw [hr]; exact Bool.false_ne_true)).trans (if_neg (Nat.not_le.2 hl)))))
  case answer =>
    obtain ⟨h1, h2, h3⟩ := s.answerRing_does r ans
    exact ⟨h1, h2, h3 ▸ rdNat_wrList _ _ _ (BitVec.isLt _)⟩

/-! ## Messages -/

/-- The vector of a message changes none of the message ring's registers, and no message that waits. -/
theorem State.countVec_keeps (s : State) (v : Nat) :
    (s.countVec v).msgs = s.msgs ∧ (s.countVec v).f DYL_MSG_PROD.MPROD = s.f DYL_MSG_PROD.MPROD := by
  have hpend (u : State) (b : Bool) : (u.setFlag (DYL_VEC_CTL.PEND v) b).msgs = u.msgs ∧
      (u.setFlag (DYL_VEC_CTL.PEND v) b).f DYL_MSG_PROD.MPROD = u.f DYL_MSG_PROD.MPROD :=
    ⟨State.msgs_setFlag _ _ _, State.f_of_reg (State.reg_setFlag_at _ _ _ (by
      simp only [DYL_MSG_PROD.MPROD, DYL_MSG_PROD.at, DYL_VEC_CTL.PEND, DYL_VEC_CTL.at]; omega))⟩
  unfold State.countVec
  dsimp only
  split
  · unfold State.tryFire
    split
    · exact hpend _ _
    · exact hpend _ _
  · exact ⟨rfl, rfl⟩

/-- A message written leaves the others waiting, and counts. -/
theorem State.putMsg_does (s : State) (m : Msg) :
    (s.putMsg m).msgs = s.msgs ∧ (s.putMsg m).f DYL_MSG_PROD.MPROD = (s.f DYL_MSG_PROD.MPROD + 1) % 2 ^ 64 := by
  unfold State.putMsg
  extract_lets base k u v w
  obtain ⟨h1, h2⟩ := w.countVec_keeps (w.vecOf m.kind)
  have hv : v.f DYL_MSG_PROD.MPROD = (s.f DYL_MSG_PROD.MPROD + 1) % 2 ^ 64 :=
    State.f_setF_self _ _ _ (by decide) (by decide)
  have hm : v.msgs = s.msgs := State.msgs_setF _ _ _
  clear_value v
  exact ⟨h1.trans hm, h2.trans hv⟩

/-- Settles O45; that messages are folded, and lines of MPROD and LOST count, while the link is down is the model's choice
(log entry 67). -/
theorem messagesReachTheCompanion : Obligations.MessagesReachTheCompanion := by
  unfold Obligations.MessagesReachTheCompanion
  intro s by_ m rest v k
  refine ⟨fun hen hm => ⟨fun hu hr hp => ?written, fun hno => ?folded⟩, fun ha => ?consume,
    fun hk hw hd => ⟨fun hmask => ?masked, fun hmask => ?fires⟩⟩
  case written =>
    obtain ⟨h1, h2⟩ := State.putMsg_does { s with msgs := rest } m
    refine ⟨_, ?_, h1, h2⟩
    show execMessageWrite s = _
    unfold execMessageWrite
    rw [hp, hm]
    exact (if_neg (by rw [hen]; exact Bool.false_ne_true)).trans (if_pos ⟨hu, hr⟩)
  case folded =>
    refine ⟨State.foldMsg { s with msgs := rest } m, ?_, State.msgs_bump _ _ _, State.msgPend_bump _ _ _,
      State.f_setF_self _ _ _ (by decide) (by decide)⟩
    show execMessageWrite s = _
    unfold execMessageWrite
    rw [hm]
    refine (if_neg (by rw [hen]; exact Bool.false_ne_true)).trans (if_neg ?_)
    rintro ⟨h1, h2⟩
    rcases hno with h | h
    · exact Bool.false_ne_true (h.symm.trans h1)
    · exact Bool.false_ne_true (h.symm.trans h2)
  case consume => exact congrArg Host.Outcome.next (if_pos ha)
  case masked => exact (if_pos ⟨hk, hw, hd⟩).trans (congrArg Host.Outcome.next (if_pos hmask))
  case fires =>
    exact (if_pos ⟨hk, hw, hd⟩).trans (congrArg Host.Outcome.next (if_neg (by rw [hmask]; exact Bool.false_ne_true)))

end Sys2Proof.Machine

/-! PROOFS. Requests, cancels and the serving step (R516 - R556). -/
namespace Sys2Proof.Machine

/-! ## Records -/

theorem reqOf_job (ws : List W64) : (reqOf ws).job = fld (ws.headD 0#64) 63 58 := by
  cases ws <;> rfl

theorem State.srvJob_recorded (s : State) (j : Nat) (ws : List W64) :
    (s.recorded j ws).srvJob j = { s.srvJob j with prod := ((s.srvJob j).prod + 1) % 2 ^ 32 } := by
  unfold State.recorded
  extract_lets p w src u v
  have hu : u.srvJob j = { s.srvJob j with prod := p } := State.srvJob_setSrvJob_self _ _ _
  have hv : v.srvJob j = u.srvJob j := by
    unfold v
    split <;> rfl
  exact hv.trans hu

theorem State.srvIn_recorded (s : State) (j : Nat) (ws : List W64) : (s.recorded j ws).srvIn = s.srvIn := by
  unfold State.recorded
  extract_lets p w src u v
  show v.srvIn = _
  unfold v
  split <;> rfl

/-- A record that is neither FINAL nor a refusal leaves every entry as it was (R524). -/
theorem State.req_recorded (s : State) (j i : Nat) {ws : List W64} (h1 : fld ((ws.head?).getD 0#64) 59 57 ≠ evFINAL)
    (h2 : fld ((ws.head?).getD 0#64) 59 57 ≠ evREFUSE) : (s.recorded j ws).req i = s.req i := by
  unfold State.recorded
  extract_lets p w src u v
  have hv : v = u := if_neg fun h => h.1.elim h1 h2
  show v.req i = _
  rw [hv]
  rfl

/-- A result record is written where its ring lies in a calm range and no record of the job waits. -/
theorem result_calm {s : State} {lo hi j : Nat} {ws : List W64} (h : s.calm (srvWho none) true lo hi = true)
    (h1 : lo ≤ s.resBase j) (h2 : s.resBase j + 64 + 32 * s.resSize j ≤ hi) (hw : ws.length = 3)
    (hb : (s.srvJob j).bnd = false) (hn : s.srvIn.all (fun p => srvInJob p != j) = true) :
    ∃ r, Kept s r ∧ (result j ws).go s = (.ok ⟨⟩, (r.recorded j ws).setFlag (SRV_JOB_STATUS.RES_WAIT j) false) := by
  obtain ⟨r, k, e⟩ := writeResult_calm h h1 h2 hw
  refine ⟨r, k, EM.go_bind_ok e (showHold_none ?_ ?_)⟩
  · rw [State.srvJob_recorded, k.srvJob]
    exact hb
  · rw [State.srvIn_recorded, k.same State.srvIn fun _ => rfl]
    exact hn

/-! ## Requests and cancels -/

section
variable {s : State} {ws : List W64} {i : Nat}

/-- A CANCEL record whose growth bits are 0 and that names entry i by its job and cookie (R550). -/
def State.named (s : State) (ws : List W64) (i : Nat) : Prop :=
  fld (ws.getD 0 0#64) 57 15 = 0 ∧ (ws.drop 2).all (fun w => w == 0#64) = true ∧
    (s.req i).job = fld (ws.getD 0 0#64) 63 58 ∧ (s.req i).cookie = ws.getD 1 0#64

/-- A sound cancel of a request in use passes the check of its record. -/
theorem State.named.sound (h : s.named ws i) (hs : (s.req i).state ≠ qFREE) :
    (!(fld (ws.getD 0 0#64) 57 15 == 0 && (ws.drop 2).all (fun w => w == 0#64)) || (s.req i).state == qFREE ||
      (s.req i).job != fld (ws.getD 0 0#64) 63 58 || (s.req i).cookie != ws.getD 1 0#64) = false := by
  obtain ⟨h1, h2, h3, h4⟩ := h
  rw [h1, h2, h3, h4]
  simp [hs]

/-- A cancel of a request that is being served marks it DRAINING (R550). -/
theorem observeCancel_drains (hm : s.named ws (fld (ws.getD 0 0#64) 14 0))
    (hs : (s.req (fld (ws.getD 0 0#64) 14 0)).state = qPREFILL ∨ (s.req (fld (ws.getD 0 0#64) 14 0)).state = qDECODE) :
    (observeCancel ws).go s = (.ok (), s.setReq (fld (ws.getD 0 0#64) 14 0)
      { s.req (fld (ws.getD 0 0#64) 14 0) with cancel := true, state := qDRAINING }) := by
  unfold observeCancel
  refine EM.go_bind_ok (EM.go_get s) ?_
  refine (congrArg (EM.go · s) ((if_neg (ne_true_of_eq_false (hm.sound ?_))).trans ((if_neg ?_).trans (if_pos hs)))).trans
    (EM.go_set _ _)
  · rcases hs with h | h <;> rw [h] <;> decide
  · rcases hs with h | h <;> exact h.symm ▸ (by decide)

/-- A second cancel does nothing (R550). -/
theorem observeCancel_draining (hm : s.named ws (fld (ws.getD 0 0#64) 14 0))
    (hs : (s.req (fld (ws.getD 0 0#64) 14 0)).state = qDRAINING) : (observeCancel ws).go s = (.ok (), s) := by
  unfold observeCancel
  refine EM.go_bind_ok (EM.go_get s) ?_
  refine (congrArg (EM.go · s) ((if_neg (ne_true_of_eq_false (hm.sound ?_))).trans ((if_neg ?_).trans
    ((if_neg ?_).trans (if_pos hs))))).trans (EM.go_pure _ _)
  · rw [hs]
    decide
  · exact hs.symm ▸ (by decide)
  · exact hs.symm ▸ (by decide)

end

/-- The first record of a kind is taken and handled where its job can take a result (R520). -/
theorem takeRecord_room {s s1 r : State} {kind : Nat} {work : List W64 → EM Unit} {ws : List W64}
    {rest : List (Nat × List W64)} (hs : s.srvIn = (kind, ws) :: rest)
    (hb : (s.srvJob (fld (ws.headD 0#64) 63 58)).bnd = false)
    (hk : kind = 2 → (s.srvJob (fld (ws.headD 0#64) 63 58)).ready = false)
    (h : (resRoom (fld (ws.headD 0#64) 63 58)).go s = (.ok true, s1))
    (e : (do work ws; showHold (fld (ws.headD 0#64) 63 58)).go { s1 with srvIn := s1.srvIn.tail } = (.ok ⟨⟩, r)) :
    (takeRecord kind work).go s = (.ok ⟨⟩, r) := by
  have hj : srvInJob (kind, ws) = fld (ws.headD 0#64) 63 58 := by unfold srvInJob; cases ws <;> rfl
  unfold takeRecord
  refine EM.go_bind_ok (EM.go_get s) (EM.go_bind_ok (a := some 0) (s' := s1) ?_ ?_)
  · rw [hs]
    unfold firstReady
    refine EM.go_bind_ok (EM.go_get s) ?_
    dsimp only
    rw [hj, if_neg (by simp), if_pos ⟨rfl, by rw [hb]; rfl, fun hh => by rw [hk hh.1] at hh; cases hh.2⟩]
    exact EM.go_bind_ok h rfl
  · dsimp only
    refine EM.go_bind_ok (EM.go_modify _ _) ?_
    rw [hs]
    have e0 : (((kind, ws) :: rest)[0]?).getD (0, []) = (kind, ws) := rfl
    rw [e0, hj]
    have e1 : s1.srvIn.take 0 ++ s1.srvIn.drop (0 + 1) = s1.srvIn.tail := by simp
    rw [e1]
    exact e

/-- A boundary of a job without requests ends (R534). -/
theorem boundary_over {s : State} {j : Nat} {b : Bool} (ho : (s.srvJob j).order = []) (hr : (s.srvJob j).running = false)
    (ha : (s.srvJob j).adm = some ([], b)) (hn : s.srvIn.all (fun p => srvInJob p != j) = true) :
    ∃ t, (boundary j).go s = (.ok ⟨⟩, t) ∧ t.srvJob j = { s.srvJob j with bnd := false, adm := none } := by
  have he := endStep_idle hr
  obtain ⟨t, e, ht, -⟩ := boundary_empty (s := s) (j := j) (by rw [he]; exact ho) (.inl ⟨b, by rw [he]; exact ha⟩)
    (by rw [he]; exact hn)
  exact ⟨t, e, by rw [ht, he]⟩

section
variable (s : State) (rest : List (Nat × List W64)) (k : Nat) (ws : List W64)

/-- The table with the request of a record taken from the list (R518). -/
def State.queues : State := queuedIn { s with srvIn := rest } k ws

theorem State.calm_queues (w : Who) (wr : Bool) (lo hi : Nat) :
    (s.queues rest k ws).calm w wr lo hi = s.calm w wr lo hi := State.calm_serve' s _ s.srv rest (s.arrivals + 1) w wr lo hi

theorem State.f_queues (q : FRef) : (s.queues rest k ws).f q = s.f q := rfl
theorem State.srvJob_queues (j : Nat) : (s.queues rest k ws).srvJob j = s.srvJob j := rfl
theorem State.srvIn_queues : (s.queues rest k ws).srvIn = rest := rfl

theorem State.req_queues : ∃ pos, (s.queues rest k ws).req k = { queuedReq s ws with qpos := pos } :=
  ⟨_, State.req_setReq_self _ _ _⟩

end

/-- A sound request that shares no pages is QUEUED, with its record (R518). -/
theorem request_queued {s : State} {ws : List W64} {rest : List (Nat × List W64)} {k lo hi : Nat} (hu : s.up = true)
    (hs : s.srvIn = (1, ws) :: rest) (hb : (s.srvJob (fld (ws.headD 0#64) 63 58)).bnd = false)
    (h : s.resReady (fld (ws.headD 0#64) 63 58) rest lo hi) (hf : s.requestFormat ws (reqOf ws) = true)
    (hk : s.freeReq = some k) (hn : s.queuedAll < 4096) (hl : (reqOf ws).left ≠ 0) (hp : (reqOf ws).pfxUse = false)
    (hq : (queuedReq s ws).commit ≤ s.quota (reqOf ws).job)
    (hpp : (queuedReq s ws).commit ≤ (s.srvJob (reqOf ws).job).poolPages) :
    ∃ t, exec .request s = .next t ∧ t.srvIn = rest ∧ (∃ pos, t.req k = { queuedReq s ws with qpos := pos }) ∧
      (t.srvJob (fld (ws.headD 0#64) 63 58)).prod = ((s.srvJob (fld (ws.headD 0#64) 63 58)).prod + 1) % 2 ^ 32 := by
  have h0 := h
  obtain ⟨hc, h1, h2, -, hr⟩ := h
  obtain ⟨pos, hpos⟩ := s.req_queues rest k ws
  have hq2 := s.calm_queues rest k ws (srvWho none) true lo hi
  have hq3 := s.f_queues rest k ws
  have hq4 := s.srvJob_queues rest k ws
  have hq5 := s.srvIn_queues rest k ws
  have ho : ∀ out, (result (reqOf ws).job (resWords evDEFER rnQUEUE false (reqOf ws).job k ((s.queues rest k ws).req k)
      ((s.queues rest k ws).req k).qpos)).go (s.queues rest k ws) = (.ok ⟨⟩, out) →
      (observeRequest ws).go { s with srvIn := rest } = (.ok ⟨⟩, out) := fun out e =>
    observeRequest_ok (x := { s with srvIn := rest }) hf hk hn hl hp hq hpp e
  generalize s.queues rest k ws = y at *
  have hev : fld (((resWords evDEFER rnQUEUE false (reqOf ws).job k (y.req k) (y.req k).qpos).head?).getD 0#64) 59 57 = 1 :=
    evOf_resWords _ _ _ _ _ _ _
  have hlen : (resWords evDEFER rnQUEUE false (reqOf ws).job k (y.req k) (y.req k).qpos).length = 3 := rfl
  generalize resWords evDEFER rnQUEUE false (reqOf ws).job k (y.req k) (y.req k).qpos = rec at ho hev hlen
  rw [reqOf_job] at ho
  obtain ⟨r, kr, e⟩ := result_calm (s := y) (j := fld (ws.headD 0#64) 63 58) (ws := rec) (hq2.trans hc)
    (by rw [State.resBase, hq3]; exact h1) (by rw [State.resBase, State.resSize, hq3, hq3]; exact h2) hlen (by rw [hq4]; exact hb) (by rw [hq5]; exact hr)
  have hri : (r.recorded (fld (ws.headD 0#64) 63 58) rec).srvIn = rest :=
    (r.srvIn_recorded (fld (ws.headD 0#64) 63 58) rec).trans ((kr.same State.srvIn fun _ => rfl).trans hq5)
  have hrj : (r.recorded (fld (ws.headD 0#64) 63 58) rec).srvJob (fld (ws.headD 0#64) 63 58) =
      { s.srvJob (fld (ws.headD 0#64) 63 58) with prod := ((s.srvJob (fld (ws.headD 0#64) 63 58)).prod + 1) % 2 ^ 32 } := by
    rw [State.srvJob_recorded, kr.srvJob, hq4]
  have hrk : (r.recorded (fld (ws.headD 0#64) 63 58) rec).req k = { queuedReq s ws with qpos := pos } := by
    rw [State.req_recorded r _ k (by rw [hev]; decide) (by rw [hev]; decide), kr.req, hpos]
  have hhold := showHold_none (s := (r.recorded (fld (ws.headD 0#64) 63 58) rec).setFlag
    (SRV_JOB_STATUS.RES_WAIT (fld (ws.headD 0#64) 63 58)) false) (j := fld (ws.headD 0#64) 63 58)
    (by rw [State.srvJob_setFlag, hrj]; exact hb) (by rw [State.srvIn_setFlag, hri]; exact hr)
  have ht := takeRecord_first hs hb (fun h => absurd h (by decide)) h0 (EM.go_bind_ok (ho _ e) hhold)
  refine ⟨_, (if_pos hu).trans (rowOf_ok ht), ?_, ⟨pos, ?_⟩, ?_⟩
  · rw [State.srvIn_setFlag, State.srvIn_setFlag, hri]
  · rw [State.req_setFlag, State.req_setFlag, hrk]
  · rw [State.srvJob_setFlag, State.srvJob_setFlag, hrj]

/-- Settles O48: a record is taken where its job has room for the result; a request that shares no pages is queued in the
free entry, and a cancel drains a request that is being served. -/
theorem requestsAndCancels : Obligations.RequestsAndCancels := by
  unfold Obligations.RequestsAndCancels
  intro s s1 r j k lo hi ws rest i matches_ job takes
  refine ⟨?_, ?_, ?_, ?_, ?_, ?_, ?_⟩
  · intro q pages hu hs hb h hf hk hn hl hp hq hpp
    obtain ⟨t, e, h1, ⟨pos, h2⟩, h3⟩ := request_queued hu hs hb h hf hk hn hl hp
      (by rw [reqOf_job]; exact hq) (by rw [reqOf_job]; exact hpp)
    exact ⟨t, e, h1, ⟨pos, h2⟩, h3⟩
  · intro hu hs hb hrd h hm hst
    refine (if_pos hu).trans (rowOf_ok (takeRecord_first hs hb (fun _ => hrd) h ?_))
    exact EM.go_bind_ok (observeCancel_drains (s := { s with srvIn := rest }) hm hst) (showHold_none hb h.2.2.2.2)
  · intro hu hs hb hro e
    exact (if_pos hu).trans (rowOf_ok (takeRecord_room hs hb (fun h => absurd h (by decide)) hro e))
  · intro hu hs hb hrd hro e
    exact (if_pos hu).trans (rowOf_ok (takeRecord_room hs hb (fun _ => hrd) hro e))
  · exact fun hm hst => observeCancel_drains hm hst
  · exact fun hm hst => observeCancel_draining hm hst
  · intro hsv hu
    refine ⟨fun hn => ⟨fun hb => ?_, fun b hb ha ho hr => ?_⟩, fun hb e => ?_, fun hb e => ?_⟩
    · refine (if_pos ⟨hsv, hu⟩).trans (rowOf_ok ?_)
      rw [if_neg (ne_true_of_eq_false hb)]
      exact showHold_none hb hn
    · obtain ⟨t, e, ht⟩ := boundary_over ho hr ha hn
      refine ⟨t, (if_pos ⟨hsv, hu⟩).trans (rowOf_ok ?_), ht⟩
      rw [if_pos hb]
      exact e
    · refine (if_pos ⟨hsv, hu⟩).trans (rowOf_ok ?_)
      rw [if_pos hb]
      exact e
    · refine (if_pos ⟨hsv, hu⟩).trans (rowOf_ok ?_)
      rw [if_neg (ne_true_of_eq_false hb)]
      exact e

end Sys2Proof.Machine

/-! PROOFS. The serving step: boundaries, launches, handoffs, reports and time (R533 - R556). -/
namespace Sys2Proof.Machine

theorem State.runs_ok {s r : State} {x : EM Unit} (e : x.go s = (.ok (), r)) : s.runs x = r := by
  unfold State.runs
  rw [e]

/-! ## Words of bytes -/

theorem State.length_bytesAt (s : State) (w : Who) (a n : Nat) : (s.bytesAt w a n).length = n := by
  simp [State.bytesAt]

theorem wordAt_bytesAt (s : State) (w : Who) (a n k : Nat) (h : 8 * k + 8 ≤ n) :
    (wordAt (s.bytesAt w a n) k).toNat = s.natAt w (a + 8 * k) 8 := by
  have e : s.bytesAt w a n = s.bytesAt w a (8 * k) ++ (s.bytesAt w (a + 8 * k) 8 ++ s.bytesAt w (a + 8 * k + 8) (n - 8 * k - 8)) := by
    rw [bytesAt_append, bytesAt_append, show 8 * k + (8 + (n - 8 * k - 8)) = n by omega]
  have hl := leNat_lt (s.bytesAt w (a + 8 * k) 8)
  rw [State.length_bytesAt] at hl
  unfold wordAt State.natAt
  rw [e, List.drop_left' (State.length_bytesAt _ _ _ _), List.take_left' (State.length_bytesAt _ _ _ _), BitVec.toNat_ofNat,
    Nat.mod_eq_of_lt hl]

/-! ## Boundaries -/

theorem jobList_filter_eq {j : Nat} (h : j < 64) : jobList.filter (fun k => k == j) = [j] := by
  have hn : jobList.Nodup := List.nodup_range
  rw [List.filter_beq, List.count_eq_one_of_mem hn (mem_jobList h)]
  rfl

section
variable {s : State} {j : Nat}

/-- A boundary handles its own job alone where no other job's step has ended. -/
theorem State.boundJobs_own (hj : j < 64) (hs : s.serves j = true) (hr : (s.srvJob j).ready = false)
    (he : (s.srvJob j).running = false ∨ (s.srvJob j).ended = true)
    (ha : jobList.all (fun k => k == j || !s.boundDue k) = true) : s.boundJobs j = [j] := by
  have hm : s.mayBound j = true := by
    unfold State.mayBound
    rw [hs, hr]
    rcases he with h | h <;> simp [h]
  rw [← jobList_filter_eq hj]
  refine List.filter_congr fun k hk => ?_
  have hk := List.all_eq_true.1 ha k hk
  by_cases hkj : k = j
  · simp [hkj, hm]
  · have hb : s.boundDue k = false := by simpa [hkj] using hk
    simp [hkj, hb]

theorem stepBoundary_runs {r : State} (hj : j < 64) (hs : s.serves j = true) (hu : s.up = true)
    (hr : (s.srvJob j).ready = false) (he : (s.srvJob j).running = false ∨ (s.srvJob j).ended = true)
    (ha : jobList.all (fun k => k == j || !s.boundDue k) = true) (e : (boundary j).go s = (.ok (), r)) :
    exec (.stepBoundary j) s = .next r := by
  refine congrArg Host.Outcome.next ((if_pos hu).trans ?_)
  rw [State.boundJobs_own hj hs hr he ha]
  exact State.runs_ok e

theorem stepLaunch_runs {r : State} (hs : s.serves j = true) (hu : s.up = true) (hr : (s.srvJob j).ready = true)
    (ha : (s.srvJob j).unrep.all (fun p => p.1 == (s.reg (SRV_JOB_STEP.at j)).toNat) = true)
    (e : (launch j).go s = (.ok (), r)) : exec (.stepLaunch j) s = .next r :=
  (if_pos ⟨hs, hu, hr, ha⟩).trans (rowOf_ok e)

/-- A handoff that names the current step is taken (R537). -/
theorem handoff_runs {r : State} {bs : List Byte} (hs : s.serves j = true) (hu : s.up = true)
    (hr : (s.srvJob j).running = true) (hn : (s.srvJob j).handoff = none) (hh : (s.srvJob j).handed = false)
    (e : (srvRd j (s.f (SRV_JOB_BD.BASE j) + 64) 64).go s = (.ok bs, r))
    (hw : (wordAt bs 0).toNat = (s.reg (SRV_JOB_STEP.at j)).toNat) (hb : bitAt (wordAt bs 1) 0 = false) :
    exec (.handoff j) s = .next (r.setSrvJob j { r.srvJob j with handoff := some (wordList bs 8) }) := by
  refine (if_pos ⟨hs, hu, hr, by rw [hn]; rfl, by rw [hh]; rfl⟩).trans (rowOf_ok (EM.go_bind_ok e ?_))
  rw [if_pos hw]
  refine EM.go_bind_ok (EM.go_modify _ _) ?_
  rw [if_neg (ne_true_of_eq_false hb)]
  rfl

theorem stepReport_runs {r r2 : State} {k : Nat} (hs : s.serves j = true) (hu : s.up = true)
    (e : (srvRdNat j (s.f (SRV_JOB_BD.BASE j) + 128) 8).go s = (.ok k, r)) (e2 : (report j k).go r = (.ok (), r2)) :
    exec (.stepReport j) s = .next r2 :=
  (if_pos ⟨hs, hu⟩).trans (rowOf_ok (EM.go_bind_ok e e2))

/-- The report of a step that is none of those unreported does nothing. -/
theorem report_unknown {k : Nat} (h : ∀ p ∈ (s.srvJob j).unrep, p.1 ≠ k) : (report j k).go s = (.ok (), s) := by
  have hf : (s.srvJob j).unrep.find? (fun p => p.1 == k) = none :=
    List.find?_eq_none.2 fun p hp => by simpa using h p hp
  unfold report
  refine EM.go_bind_ok (EM.go_get s) ?_
  rw [hf]
  rfl

end

/-! ## Time -/

section
variable {α β : Type}

theorem SMap.get_absent (d : α) : ∀ (l : SMap α) (i : Nat), i ∉ l.map (·.1) → SMap.get d l i = d
  | [], _, _ => rfl
  | (a, v) :: t, i, h => by
    rw [List.map_cons, List.mem_cons, not_or] at h
    exact (if_neg fun e => h.1 e.symm).trans (SMap.get_absent d t i h.2)

/-- A map rewritten entry by entry, in a state read by `get` and written by `put`: each of its keys holds its entry's
new value, and every other key what it held. -/
theorem get_foldl_entries (get : β → Nat → α) (put : β → Nat → α → β)
    (hget : ∀ b k i v, get (put b k v) i = if i = k then v else get b i) (d : α) (f : α → α) :
    ∀ (l : SMap α) (b : β) (i : Nat), (l.map (·.1)).Nodup →
      get (l.foldl (fun b p => put b p.1 (f p.2)) b) i = if i ∈ l.map (·.1) then f (SMap.get d l i) else get b i
  | [], _, _, _ => rfl
  | (a, v) :: t, b, i, h => by
    rw [List.map_cons, List.nodup_cons] at h
    rw [List.foldl_cons, get_foldl_entries get put hget d f t _ i h.2, hget, List.map_cons, SMap.get]
    by_cases hi : i ∈ t.map (·.1)
    · rw [if_pos hi, if_pos (List.mem_cons_of_mem _ hi), if_neg (fun e : a = i => h.1 (e.symm ▸ hi))]
    · rw [if_neg hi]
      by_cases ha : i = a
      · rw [if_pos ha, ha, if_pos List.mem_cons_self, if_pos rfl]
      · rw [if_neg ha, if_neg (by simp only [List.mem_cons, not_or]; exact ⟨ha, hi⟩)]

/-- The same, of the map that the state holds. -/
theorem get_foldl_own (get : β → Nat → α) (put : β → Nat → α → β)
    (hget : ∀ b k i v, get (put b k v) i = if i = k then v else get b i) {d : α} {f : α → α} (hd : f d = d)
    {l : SMap α} {b : β} (hb : ∀ i, get b i = SMap.get d l i) (h : (l.map (·.1)).Nodup) (i : Nat) :
    get (l.foldl (fun b p => put b p.1 (f p.2)) b) i = f (get b i) := by
  rw [get_foldl_entries get put hget d f l b i h, hb]
  split
  · rfl
  next hi => rw [SMap.get_absent d l i hi, hd]

end

theorem State.req_setReq (s : State) (k i : Nat) (r : Req) :
    (s.setReq k r).req i = if i = k then r else s.req i := SMap.get_put _ _ _ _ _

theorem State.srvJob_setSrvJob (s : State) (k j : Nat) (x : SrvJob) :
    (s.setSrvJob k x).srvJob j = if j = k then x else s.srvJob j := SMap.get_put _ _ _ _ _

theorem Req.tick_eq (r : Req) : r.tick = if qDONE ≤ r.state ∨ r.state = qFREE ∨ r.left = 2 ^ 32 - 1 then r
    else { r with left := r.left - 1 } := by
  unfold Req.tick
  refine if_congr ?_ rfl rfl
  rw [Bool.or_eq_true, Bool.or_eq_true, beq_iff_eq, beq_iff_eq, Req.terminal, decide_eq_true_eq, or_assoc]
  exact Iff.rfl

/-- A serving job's running step counts a microsecond (R553). -/
def SrvJob.tick (x : SrvJob) : SrvJob := if x.running then { x with us := x.us + 1 } else x

/-- A microsecond counts in every deadline and every running step (R551, R553). -/
theorem deadlineTick_counts {s : State} (h1 : (s.rqt.map (·.1)).Nodup) (h2 : (s.srv.map (·.1)).Nodup) :
    ∃ t, exec .deadlineTick s = .next t ∧ (∀ i, t.req i = (s.req i).tick) ∧ ∀ j, t.srvJob j = (s.srvJob j).tick := by
  obtain ⟨u, hu⟩ : ∃ u, u = s.rqt.foldl (fun s p => s.setReq p.1 p.2.tick) s := ⟨_, rfl⟩
  have hq : ∀ i, u.req i = (s.req i).tick := fun i => by
    rw [hu]
    exact get_foldl_own State.req State.setReq State.req_setReq (d := Req.zero) rfl (fun _ => rfl) h1 i
  have hs : u.srv = s.srv := by
    rw [hu]
    exact foldl_keeps State.srv _ (by intro x p; rfl) _ _
  refine ⟨u.srv.foldl (fun s p => s.setSrvJob p.1 p.2.tick) u, ?_, fun i => ?_, fun j => ?_⟩
  · rw [hu]
    rfl
  · rw [← hq]
    exact foldl_keeps (State.req · i) _ (by intro x p; rfl) _ _
  · rw [hs]
    refine (get_foldl_own State.srvJob State.setSrvJob State.srvJob_setSrvJob (d := SrvJob.zero) rfl (l := s.srv) (fun i => ?_) h2 j).trans ?_
    · unfold State.srvJob
      rw [hs]
    · unfold State.srvJob
      rw [hs]

theorem nodup_of_wf {s : State} (h : Memory.wf s = true) : (s.rqt.map (·.1)).Nodup ∧ (s.srv.map (·.1)).Nodup := by
  simp only [Memory.wf, Bool.and_eq_true, decide_eq_true_eq] at h
  obtain ⟨⟨⟨⟨⟨⟨⟨-, hq⟩, hs⟩, -⟩, -⟩, -⟩, -⟩, -⟩ := h
  exact ⟨hq, hs⟩

/-! ## The request window -/

/-- Registers written one after another at distinct places. -/
theorem State.reg_foldl_setReg (at_ : Nat → Nat) (g : Nat → W64) (hat : ∀ a b, at_ a = at_ b → a = b) (l : List Nat) :
    ∀ (s : State) (n : Nat), (l.foldl (fun s n => s.setReg (at_ n) (g n)) s).reg (at_ n) =
      if n ∈ l then g n else s.reg (at_ n) := by
  induction l with
  | nil => exact fun _ _ => rfl
  | cons k l ih =>
    intro s n
    rw [List.foldl_cons, ih, State.reg_setReg]
    by_cases hn : n ∈ l
    · rw [if_pos hn, if_pos (List.mem_cons_of_mem _ hn)]
    · rw [if_neg hn]
      by_cases hk : n = k
      · rw [if_pos (congrArg at_ hk), hk, if_pos List.mem_cons_self]
      · rw [if_neg (fun e => hk (hat _ _ e)), if_neg (by simp [hk, hn])]

theorem State.req_setReg (s : State) (a : Nat) (w : W64) (i : Nat) : (s.setReg a w).req i = s.req i := rfl

/-- The window's words come from the entry as it stands. -/
theorem State.copyReq_eq (s : State) (i : Nat) : s.copyReq i =
    (List.range 16).foldl (fun u n => u.setReg (SRV_RQT_W.at n) ((s.req i).word n)) (s.setF SRV_RQT_IDX.IDX i) := by
  have key : ∀ (l : List Nat) (v : State), v.req i = s.req i →
      l.foldl (fun u n => u.setReg (SRV_RQT_W.at n) ((u.req i).word n)) v =
        l.foldl (fun u n => u.setReg (SRV_RQT_W.at n) ((s.req i).word n)) v := by
    intro l
    induction l with
    | nil => exact fun v _ => List.foldl_nil.trans List.foldl_nil.symm
    | cons n l ih =>
      intro v hv
      exact (congrArg (fun r : Req => List.foldl _ (v.setReg (SRV_RQT_W.at n) (r.word n)) l) hv).trans
        (ih _ ((v.req_setReg _ _ i).trans hv))
  exact key _ _ rfl

theorem State.f_copyReq (s : State) (idx : BitVec 15) : (s.copyReq idx.toNat).f SRV_RQT_IDX.IDX = idx.toNat := by
  rw [State.copyReq_eq, State.f_of_reg (foldl_keeps (State.reg · SRV_RQT_IDX.at) _ (by
    intro x n
    refine (State.reg_setReg _ _ _ _).trans (if_neg ?_)
    simp only [SRV_RQT_IDX.at, SRV_RQT_W.at]
    omega) _ _), State.f_setF_self _ _ _ (by show 14 < 64; decide) (by show 0 ≤ 14; decide)]
  exact Nat.mod_eq_of_lt idx.isLt

theorem State.reg_copyReq (s : State) (i : Nat) {n : Nat} (h : n < 16) :
    (s.copyReq i).reg (SRV_RQT_W.at n) = (s.req i).word n := by
  rw [State.copyReq_eq, State.reg_foldl_setReg SRV_RQT_W.at (s.req i).word (by
    intro a b e
    simp only [SRV_RQT_W.at] at e
    omega), if_pos (List.mem_range.2 h)]

/-- Settles O49: a boundary without requests ends; a launch, a handoff and a report whose accesses are served do what
they name; a microsecond counts once in every deadline and step; the window copies the entry. -/
theorem stepsRun : Obligations.StepsRun := by
  unfold Obligations.StepsRun
  refine ⟨?_, ?_, ?_⟩
  · intro s r r2 j k lo hi plo phi bs x step bd inside at_ pinIn entry hj hs hu
    refine ⟨?_, ?_, ?_, ?_, ?_, ?_, ?_, ?_, ?_⟩
    · intro hr he hd ha ho hq hn
      obtain ⟨h1, h2, h3⟩ := endStep_srvJob s j
      obtain ⟨t, e, ht⟩ := boundary_empty (s := s) (j := j) (h1.trans ho) (.inr ⟨h2.trans ha, hq⟩) (by rw [h3]; exact hn)
      exact ⟨t, stepBoundary_runs hj hs hu hr he hd e, ht⟩
    · intro hr hun hc hbd hl
      obtain ⟨v, rows, pins, kv, hrows, e⟩ := launch_calm (s := s) (j := j) (plo := plo) (phi := phi) hc hbd.1 hbd.2
        (fun i hi => (hl i hi).2) fun i hi n hn => (hl i hi).1 n hn
      obtain ⟨n1, n2, n3, n4⟩ := launched_next v hj (((s.reg (SRV_JOB_STEP.at j)).toNat + 1) % 2 ^ 64) rows pins
      refine ⟨_, stepLaunch_runs hs hu hr hun e, n1, n2, by rw [n3]; exact hrows, n4.trans ?_⟩
      exact BitVec.eq_of_toNat_eq (by simp)
    · intro hr hn hh hc hi hst hb
      refine handoff_runs hs hu hr hn hh (srvRd_calm hc j hi.1 hi.2) ?_ ?_
      · rw [wordAt_bytesAt _ _ _ _ _ (by decide)]
        exact hst
      · rw [bitAt, wordAt_bytesAt _ _ _ _ _ (by decide)]
        exact hb
    · intro hc hi
      have e := srvRdNat_calm hc j hi.1 hi.2
      refine ⟨fun hn => stepReport_runs hs hu e (report_unknown hn), fun pins hf hp => ?_⟩
      obtain ⟨t, e2, ht⟩ := report_ends hc hf hp
      exact ⟨t, stepReport_runs hs hu e e2, ht⟩
    · exact fun hr he hd e => stepBoundary_runs hj hs hu hr he hd e
    · exact fun hr hun e => stepLaunch_runs hs hu hr hun e
    · exact fun _ hun => if_neg fun h => ne_true_of_eq_false hun h.2.2.2
    · exact fun hr hn hh e hw hb => handoff_runs hs hu hr hn hh e hw hb
    · exact fun e e2 => stepReport_runs hs hu e e2
  · intro s hwf
    obtain ⟨h1, h2⟩ := nodup_of_wf hwf
    obtain ⟨t, e, hq, hx⟩ := deadlineTick_counts h1 h2
    exact ⟨t, e, fun i => (hq i).trans (Req.tick_eq _), hx⟩
  · exact fun s by_ idx ha => ⟨_, congrArg Host.Outcome.next (if_pos ha), s.f_copyReq idx, fun n hn => s.reg_copyReq _ hn⟩

end Sys2Proof.Machine

/-! PROOFS. The sampler: handoffs, drafts and commit points (R545, R564 - R574). -/
namespace Sys2Proof.Machine

section
variable {s : State} {j i lo hi k n : Nat} {h : Hand}

/-! ## Commit points -/

/-- What ended before a commit point is not committed (R545). -/
theorem commitPoint_ended {p : Pend} (ha : ((s.judgeEnd i).req i).alive = false) :
    (commitPoint j i h p).go s = (.ok (some false), s.judgeEnd i) := by
  unfold commitPoint
  refine EM.go_bind_ok (EM.go_get s) ?_
  dsimp only
  rw [if_pos (by rw [ha]; rfl)]
  exact EM.go_bind_ok (EM.go_set _ _) (EM.go_pure _ _)

theorem State.req_bumpSat (s : State) (q : FRef) (m i : Nat) : (s.bumpSat q m).req i = s.req i := rfl
theorem State.srvJob_bumpSat (s : State) (q : FRef) (m j : Nat) : (s.bumpSat q m).srvJob j = s.srvJob j := rfl

theorem State.endReq_cancelled (s : State) (i : Nat) :
    s.endReq i qCANCELLED = s.setReq i { s.req i with state := qCANCELLED } := by
  unfold State.endReq
  extract_lets r u
  exact if_neg (by decide)

theorem State.req_endReq_expired (s : State) (i : Nat) :
    (s.endReq i qEXPIRED).req i = { s.req i with state := qEXPIRED } := by
  unfold State.endReq
  extract_lets r u
  rw [if_pos rfl, State.req_bumpSat]
  exact State.req_setReq_self _ _ _

theorem alive_of_state {r : Req} {st : Nat} (h : st = qCANCELLED ∨ st = qEXPIRED) :
    ({ r with state := st } : Req).alive = false := by
  rcases h with rfl | rfl <;> rfl

theorem State.judgeEnd_cancelled (ha : (s.req i).alive = true) (hc : (s.req i).cancel = true) :
    s.judgeEnd i = s.endReq i qCANCELLED := by
  unfold State.judgeEnd
  extract_lets r
  exact (if_neg (by rw [ha]; decide)).trans (if_pos hc)

theorem State.judgeEnd_expired (ha : (s.req i).alive = true) (hc : (s.req i).cancel = false) (hl : (s.req i).left = 0) :
    s.judgeEnd i = s.endReq i qEXPIRED := by
  unfold State.judgeEnd
  extract_lets r
  exact (if_neg (by rw [ha]; decide)).trans ((if_neg (ne_true_of_eq_false hc)).trans (if_pos hl))

theorem State.judgeEnd_over (ha : (s.req i).alive = false) : s.judgeEnd i = s := by
  unfold State.judgeEnd
  extract_lets r
  exact if_pos (by rw [ha]; rfl)

/-! ## Tokens -/

/-- A row that waits for nothing samples its token (R564, R565). -/
theorem nextPend_samples {row : RowSt} {verify : Bool} (hw : row.wait = none) (hv : verify = false ∨ row.drafts = 0)
    (hr : s.rowReady j row.idx h (row.row0 + row.nq - 1) n lo hi) (hn : 16448 ≤ n)
    (ht : s.tokenOf j row.idx h (row.row0 + row.nq - 1) ≠ none) (x : SrvJob) :
    ∃ p : Pend, p.dead = false ∧ p.final = true ∧
      (nextPend j h verify row).go (s.setSrvJob j x) = (.ok p, s.setSrvJob j x) := by
  obtain ⟨v, -, -, -, -, hall⟩ := viewRow_sees hr hn
  obtain ⟨hc, -⟩ := hr
  have e0 := (hall s rfl ⟨hc, fun _ _ => rfl⟩).2
  have e1 := (hall (s.setSrvJob j x) rfl ⟨(State.calm_serve' s s.rqt _ s.srvIn s.arrivals _ _ _ _).trans hc,
    fun a n => State.bytesAt_serve' s s.rqt _ s.srvIn s.arrivals _ a n⟩).2
  have ho : v.choice.sample (draw v.q (s.req row.idx).delivered 0 0) ≠ none := by
    unfold State.tokenOf at ht
    rw [e0] at ht
    exact ht
  refine ⟨⟨(v.choice.sample (draw v.q (s.req row.idx).delivered 0 0)).getD 0, v.nan,
    (v.choice.sample (draw v.q (s.req row.idx).delivered 0 0)).isNone, true⟩, ?_, rfl, ?_⟩
  · exact Option.isNone_eq_false_iff.2 (Option.isSome_iff_ne_none.2 ho)
  · unfold nextPend
    rw [hw]
    dsimp only
    rw [if_neg (by rcases hv with h | h <;> simp [h])]
    exact EM.go_bind_ok e1 (EM.go_bind_ok (EM.go_get _) (EM.go_pure _ _))

/-! ## Drafts -/

/-- The first entry, and those of the others that are kept, are no more than the list (R565 step 8). -/
theorem kept_length {α : Type} (p : α → Bool) (n : Nat) (l : List α) :
    (l.take 1 ++ ((l.take n).drop 1).filter p).length ≤ l.length := by
  have h1 := List.length_filter_le p ((l.take n).drop 1)
  rw [List.length_drop, List.length_take] at h1
  rw [List.length_append, List.length_take]
  omega

/-- At most as many candidates as top-k are kept (R565). -/
theorem distOf_length (q : Param) (xs : List (Nat × FVal)) {cs : List Cand} (h : distOf q xs = .dist cs) :
    cs.length ≤ q.topK := by
  unfold distOf at h
  extract_lets ys c0 at h
  have hc : c0.length ≤ q.topK := by
    unfold c0
    rw [List.length_take]
    exact Nat.min_le_left _ _
  clear_value c0
  cases c0 with
  | nil => cases h
  | cons c t =>
    cases h
    rw [List.length_map]
    exact (kept_length _ _ _).trans ((List.length_map _).trans_le hc)

/-- The distribution of a draft, as it is stored (R573). -/
def Choice.draft (c : Choice) : List (Nat × FVal) :=
  match c with
  | .dist cs => cs.map (fun x => (x.tok, x.p))
  | .greedy t => [(t, fOne)]
  | .dead => []

theorem Choice.draft_length (q : Param) (m : Option (List Byte)) (l : List Nat) (xs : List FVal) (hk : q.topK ≤ 4096) :
    (chooseRow q m l xs).draft.length ≤ 4096 := by
  cases hc : chooseRow q m l xs with
  | dead => exact Nat.zero_le _
  | greedy t => exact (by decide : 1 ≤ 4096)
  | dist cs =>
    have hd : ∃ ys, distOf q ys = .dist cs := by
      unfold chooseRow at hc
      extract_lets ys at hc
      split at hc
      · split at hc <;> cases hc
      · exact ⟨ys, hc⟩
    obtain ⟨ys, hd⟩ := hd
    exact (List.length_map _).trans_le ((distOf_length q ys hd).trans hk)

theorem flatMap_draft_length : ∀ cs : List (Nat × FVal),
    (cs.flatMap (fun c => leBytes 4 c.1 ++ leBytes 4 (toBits32 c.2).toNat)).length = 8 * cs.length
  | [] => rfl
  | c :: t => by
    rw [List.flatMap_cons, List.length_append, flatMap_draft_length t, List.length_append, leBytes_len, leBytes_len,
      List.length_cons]
    omega

/-- A draft is chosen and its distribution stored where the row's bytes lie in a calm range. -/
theorem draftRow_calm {row : RowSt} (hr : s.rowReady j row.idx h k (0x5000 + 0x8000 * (h.didx + 1)) lo hi) :
    ∃ r tok, Kept s r ∧ (draftRow j k h row).go s = (.ok tok, r) := by
  obtain ⟨v, hv, -, hk, ⟨m, l, xs, hch⟩, hall⟩ := viewRow_sees hr (by omega)
  obtain ⟨hc, -, -, -, ⟨h1, h2⟩, -⟩ := hr
  rw [← hv] at h1 h2
  have hl : v.choice.draft.length ≤ 4096 := by
    rw [hch]
    exact Choice.draft_length _ _ _ _ hk
  obtain ⟨_, r1, e1, k1, -⟩ := smpWrNat_ends (j := j) (serves_kept hc) (a := v.q.ssb + 16 + 4 * h.didx) (n := 4)
    v.choice.draft.length (by omega) (by omega) s (Kept.refl s)
  obtain ⟨_, r2, e2, k2, -⟩ := smpWr_ends (j := j) (serves_kept hc) (a := v.q.ssb + 0x5000 + 0x8000 * h.didx)
    (bs := v.choice.draft.flatMap (fun c => leBytes 4 c.1 ++ leBytes 4 (toBits32 c.2).toNat)) (by omega)
    (by rw [flatMap_draft_length]; omega) r1 k1
  refine ⟨r2, (v.choice.sample (draw v.q (row.t0 + h.didx) 1 v.ssb.vcount)).getD (freeToken v (row.t0 + h.didx)), k2, ?_⟩
  unfold draftRow
  refine EM.go_bind_ok (hall s rfl ⟨hc, fun _ _ => rfl⟩).2 ?_
  exact EM.go_bind_ok (EM.go_bind_ok e1 e2) (EM.go_pure _ _)

/-- The row with its draft of index d (R573). -/
def RowSt.withDraft (row : RowSt) (d tok : Nat) : RowSt :=
  { row with drafted := row.drafted.filter (fun x => x.1 != d) ++ [(d, tok)] }

/-- A DRAFT handoff of a step of one row drafts its token (R573). -/
theorem goDraft_one {row : RowSt} (hrow : (s.srvJob j).rows = [row]) (hd : h.didx < row.drafts)
    (hr : s.rowReady j row.idx h 0 (0x5000 + 0x8000 * (h.didx + 1)) lo hi) :
    ∃ t, (goDraft j h).go s = (.ok ⟨⟩, t) ∧ (t.srvJob j).handoff = none ∧ ∃ tok, (t.srvJob j).rows = [row.withDraft h.didx tok] := by
  obtain ⟨r, tok, kr, e⟩ := draftRow_calm hr
  obtain ⟨hc, -, -, -, -, -, -, ho⟩ := hr
  obtain ⟨_, u, e2, ku, -⟩ := smpWrNat_ends (j := j) (serves_kept hc) (a := h.out + 4 * 0) (n := 4) tok (by omega) (by omega) r kr
  obtain ⟨w, hw⟩ : ∃ w, w = u.setSrvJob j { u.srvJob j with rows := listSet (u.srvJob j).rows 0 (row.withDraft h.didx tok) } := ⟨_, rfl⟩
  have hwj : w.srvJob j = { s.srvJob j with rows := [row.withDraft h.didx tok] } := by
    rw [hw, State.srvJob_setSrvJob_self, ku.srvJob, hrow]
    rfl
  obtain ⟨x, hx⟩ : ∃ x, x = w.bumpSat (SMP_JOB_SPEC.DRAFTED j) 1 := ⟨_, rfl⟩
  have hxj : x.srvJob j = w.srvJob j := by rw [hx, State.srvJob_bumpSat]
  have hend := x.signal_setSrvJob j { x.srvJob j with handoff := none }
    ((x.setSrvJob j { x.srvJob j with handoff := none }).f (SRV_JOB_CFG.LEAD j)) h.doneTok 1 0
  refine ⟨(x.setSrvJob j { x.srvJob j with handoff := none }).signal j
    ((x.setSrvJob j { x.srvJob j with handoff := none }).f (SRV_JOB_CFG.LEAD j)) h.doneTok 1, ?_, ?_, tok, ?_⟩
  · unfold goDraft
    refine EM.go_bind_ok (EM.go_get s) ?_
    dsimp only
    rw [hrow]
    refine EM.go_bind_ok (s' := x) (a := ⟨⟩) ?_ (EM.go_modify _ _)
    show (forIn [(0, row)] _ _ : EM PUnit).go s = _
    rw [List.forIn_cons]
    refine EM.go_bind_ok (a := ForInStep.yield ⟨⟩) (s' := x) ?_ rfl
    rw [if_pos hd]
    refine EM.go_bind_ok e (EM.go_bind_ok e2 (EM.go_bind_ok (a := ⟨⟩) (s' := w) ?_ (EM.go_bind_ok (a := ⟨⟩) (s' := x) ?_ rfl)))
    · rw [hw]
      exact EM.go_modify _ _
    · rw [hx]
      exact EM.go_modify _ _
  · rw [hend.1]
  · rw [hend.1, hxj, hwj]

end

/-- Settles O50: for a step of one row, the token that the row has or samples is committed and the handoff ends, and a
draft is stored; what a commit point finds ended is dropped. -/
theorem samplerHandlesHandoffs : Obligations.SamplerHandlesHandoffs := by
  unfold Obligations.SamplerHandlesHandoffs
  intro s r j i lo hi h p row x last delivered samples
  have hs : ∀ {modes begun}, s.handoffOf j modes begun = some h → ∀ {y : Hand → EM Unit} {t : State},
      (y h).go s = (.ok (), t) → (match s.handoffOf j modes begun with
        | some h => rowOf (y h) s
        | none => .next s) = .next t := fun hh y t e => by
    rw [hh]
    exact rowOf_ok e
  refine ⟨?_, ?_, ?_, ?_, ?_, ?_, ?_, ?_, ?_⟩
  · intro hrow hpass hd
    refine ⟨fun hh hsm => ?_, fun hh hsm hdr => ?_, fun hh hw hdead hfin hv hr => ?_⟩
    · obtain ⟨hw, hsam, hr, htok⟩ := hsm
      obtain ⟨q, hq1, hq2, e⟩ := nextPend_samples (verify := false) hw (.inl rfl) hr (Nat.le_refl _) htok
        { s.srvJob j with begun := true }
      obtain ⟨t, et, ht⟩ := goHandoff_one hrow hpass (fun _ => hsam) e hr (Nat.le_refl _) hd hq1 hq2 (.inl rfl)
      exact ⟨t, hs hh et, ht⟩
    · obtain ⟨hw, hsam, hr, htok⟩ := hsm
      obtain ⟨q, hq1, hq2, e⟩ := nextPend_samples (verify := true) hw (.inr hdr) hr (Nat.le_refl _) htok
        { s.srvJob j with begun := true }
      obtain ⟨t, et, ht⟩ := goHandoff_one hrow hpass (fun _ => hsam) e hr (Nat.le_refl _) hd hq1 hq2 (.inr hdr)
      exact ⟨t, hs hh et, ht⟩
    · have e : (nextPend j h (h.mode == 2) row).go (s.setSrvJob j { s.srvJob j with begun := true }) =
          (.ok p, s.setSrvJob j { s.srvJob j with begun := true }) := by
        unfold nextPend
        rw [hw]
        rfl
      obtain ⟨t, et, ht⟩ := goHandoff_one (verify := h.mode == 2) hrow hpass (fun hn => by rw [hw] at hn; cases hn) e hr
        (Nat.le_refl _) hd hdead hfin (hv.imp_left fun h => by simpa using h)
      exact ⟨t, hs (y := fun h => goHandoff j h (h.mode == 2)) hh et, ht⟩
  · intro hrow hdx hh hr
    obtain ⟨t, e, ht⟩ := goDraft_one hrow hdx hr
    exact ⟨t, hs hh e, ht⟩
  · exact fun hh e => hs hh e
  · exact fun hh e => hs hh e
  · exact fun hh e => hs hh e
  · exact fun hh e => hs (y := fun h => goHandoff j h (h.mode == 2)) hh e
  · intro ha hc
    have e := (State.judgeEnd_cancelled ha hc).trans (s.endReq_cancelled i)
    rw [← e]
    refine commitPoint_ended ?_
    rw [e, State.req_setReq_self]
    exact alive_of_state (.inl rfl)
  · intro ha hc hl
    have e := State.judgeEnd_expired ha hc hl
    have er : (s.judgeEnd i).req i = { s.req i with state := qEXPIRED } := by rw [e, State.req_endReq_expired]
    exact ⟨_, commitPoint_ended (by rw [er]; exact alive_of_state (.inr rfl)), er⟩
  · intro ha
    have e := State.judgeEnd_over ha
    refine (commitPoint_ended ?_).trans (by rw [e])
    rw [e]
    exact ha

end Sys2Proof.Machine

/-! PROOFS. Accesses of the companion (R12, R636, R637, R726). -/
namespace Sys2Proof.Machine

section
variable {s s' : State} {addr size hold lo hi : Nat} {bytes bs : List Byte}

theorem compRow_ok {α : Type} {x : EM α} {ok : State → α → State} {v : α} (e : x.go s = (.ok v, s')) :
    compRow x ok s = .next (ok s' v) := by
  unfold compRow
  rw [e]

theorem size_of_ctlShape {off : Nat} (h : ctlShape off size = true) : size ≠ 0 := by
  rintro rfl
  simp [ctlShape] at h

/-- A read of memory that the snoop filter does not hold back. -/
theorem companionRead_reads (hu : s.dylUp = true) (hn : size ≠ 0) (hr : s.region addr ≠ .control) (hy : s.ready = true)
    (hh : hold ≠ 0 → s.region addr = .stack ∧ s.coherent = true ∧ addr % 64 + size ≤ 64)
    (hf : hold ≠ 0 → s.filter.length < filterSize ∨ s.filter.any (fun e => e.1 == addr / 64) = true)
    (e : (readSpan compWho size addr size).go s = (.ok bs, s')) :
    exec (.companionRead addr size hold) s =
      .next ((if hold = 0 then s' else s'.grant (addr / 64) (min hold 2)).answerComp (.data bs)) := by
  have h1 : ¬ (!s.ready ∨ (hold ≠ 0 ∧ (s.region addr ≠ .stack ∨ !s.coherent ∨ addr % 64 + size > 64))) := by
    rw [hy]
    rintro (h | ⟨h0, h⟩)
    · cases h
    · obtain ⟨a, b, c⟩ := hh h0
      rw [b] at h
      rcases h with h | h | h
      · exact h a
      · cases h
      · omega
  refine (if_neg (by simp [hu, hn])).trans ((if_neg hr).trans ((if_neg h1).trans ?_))
  have ec := compRow_ok (ok := fun s bs =>
    (if hold = 0 then s else s.grant (addr / 64) (min hold 2)).answerComp (.data bs)) e
  cases hq : s.filter.head? with
  | none => exact ec
  | some p =>
    refine (if_neg ?_).trans ec
    rintro ⟨h0, h2, h3⟩
    rcases hf h0 with h | h
    · exact absurd h2 (Nat.not_le.2 h)
    · rw [h] at h3
      cases h3

/-- A full filter back-invalidates its oldest granule first (R637). -/
theorem companionRead_snoops {o : Nat × Nat} {rest : List (Nat × Nat)} (hu : s.dylUp = true) (hn : size ≠ 0)
    (hh : hold ≠ 0) (hr : s.region addr = .stack) (hy : s.ready = true) (hc : s.coherent = true)
    (ha : addr % 64 + size ≤ 64) (hl : filterSize ≤ s.filter.length)
    (hf : s.filter.any (fun e => e.1 == addr / 64) = false) (ho : s.filter = o :: rest) :
    exec (.companionRead addr size hold) s =
      .next { s with snoops := s.snoops.filter (fun p => p.1 != o.1) ++ [(o.1, true)] } := by
  have h1 : ¬ (!s.ready ∨ (hold ≠ 0 ∧ (s.region addr ≠ .stack ∨ !s.coherent ∨ addr % 64 + size > 64))) := by
    rw [hy, hc, hr]
    rintro (h | ⟨-, h | h | h⟩)
    · cases h
    · exact h rfl
    · cases h
    · omega
  refine (if_neg (by simp [hu, hn])).trans ((if_neg (by rw [hr]; decide)).trans ((if_neg h1).trans ?_))
  have hq : s.filter.head? = some o := by rw [ho]; rfl
  have h2 : hold ≠ 0 ∧ filterSize ≤ s.filter.length ∧ !s.filter.any (fun x => x.1 == addr / 64) := ⟨hh, hl, by rw [hf]; rfl⟩
  generalize compRow (readSpan compWho size addr size) _ s = c
  dsimp only
  rw [hq]
  exact if_pos h2

theorem companionWrite_writes (hu : s.dylUp = true) (hn : bytes ≠ []) (hr : s.region addr ≠ .control)
    (hy : s.ready = true) (e : (writeSpan compWho bytes.length addr bytes).go s = (.ok (), s')) :
    exec (.companionWrite addr bytes) s = .next (s'.answerComp .done) :=
  (if_neg (by simp [hu, hn])).trans ((if_neg hr).trans ((if_neg (by simp [hy])).trans (compRow_ok e)))

end

/-- Settles O52: the guards of a companion's access decide its answer in order, and in a served range it is done. -/
theorem companionAccessesEnd : Obligations.CompanionAccessesEnd := by
  unfold Obligations.CompanionAccessesEnd
  intro s s' addr size hold lo hi bytes bs answer g off hu
  refine ⟨?_, ?_, ?_, ?_, ?_, ?_⟩
  · intro hr hy h1
    refine ⟨fun hn hc h2 => ?_, fun hn hc h2 => ?_⟩
    · obtain ⟨q, e⟩ := readSpan_calm size hc h1 h2 (Nat.le_refl _)
      exact ⟨_, companionRead_reads hu hn hr hy (fun h => absurd rfl h) (fun h => absurd rfl h) e, rfl⟩
    · obtain ⟨_, t, e, -, -⟩ := writeSpan_ends hc bytes.length bytes h1 h2 s (Kept.refl s)
      exact ⟨t, e, companionWrite_writes hu hn hr hy e⟩
  · intro hn hr hy e
    refine ⟨companionRead_reads hu hn hr hy (fun h => absurd rfl h) (fun h => absurd rfl h) e, ?_⟩
    intro hh hst hc ha hf
    refine (companionRead_reads hu hn hr hy (fun _ => ⟨hst, hc, ha⟩) (fun _ => hf) e).trans ?_
    rw [if_neg (by omega), show min hold 2 = hold by omega]
    rfl
  · intro hn hh hr hy hc ha hl hf
    obtain ⟨o, rest, ho⟩ := List.exists_cons_of_length_pos (Nat.lt_of_lt_of_le (by decide) hl)
    exact ⟨o, rest, ho, companionRead_snoops hu hn hh hr hy hc ha hl hf ho⟩
  · exact fun hn hr hy e => companionWrite_writes hu hn hr hy e
  · intro hr hy
    exact ⟨fun hn => (if_neg (by simp [hu, hn])).trans ((if_neg hr).trans (if_pos (.inl (by simp [hy])))),
      fun hn => (if_neg (by simp [hu, hn])).trans ((if_neg hr).trans (if_pos (by simp [hy])))⟩
  · intro hr
    refine ⟨fun hn h => ?_, fun hn h => ?_, fun hsh hrf hho => ?_, fun hn hsh hrf hho => ?_⟩
    · refine (if_neg (by simp [hu, hn])).trans ((if_pos hr).trans (if_pos ?_))
      rcases h with h | h
      · exact .inr (.inl (by show (!ctlShape off size) = true; rw [h]; rfl))
      · exact .inr (.inr h)
    · refine (if_neg (by simp [hu, hn])).trans ((if_pos hr).trans (if_pos ?_))
      rcases h with h | h
      · exact .inl (by show (!ctlShape off bytes.length) = true; rw [h]; rfl)
      · exact .inr h
    · refine (if_neg (by simp [hu, size_of_ctlShape hsh])).trans ((if_pos hr).trans ((if_neg ?_).trans (if_neg ?_)))
      · show ¬ (0 ≠ 0 ∨ (!ctlShape off size) = true ∨ s.ctlRefuses off = true)
        rw [hsh, hrf]
        decide
      · exact ne_true_of_eq_false hho
    · refine (if_neg (by simp [hu, hn])).trans ((if_pos hr).trans ((if_neg ?_).trans ((if_neg ?_).trans ?_)))
      · show ¬ ((!ctlShape off bytes.length) = true ∨ s.ctlRefuses off = true)
        rw [hsh, hrf]
        decide
      · exact ne_true_of_eq_false hho
      · exact (if_neg fun h => absurd (hsh.symm.trans h.2.2) (by decide)).symm

end Sys2Proof.Machine

/-! PROOFS. Frames of the fabric: requests, answers, transit and resends (R661 - R674). -/
namespace Sys2Proof.Machine

/-! ## Numbers applied -/

theorem RxNode.next_advance : ∀ (n : Nat) (x : RxNode), ∃ k, k ≤ n ∧ (x.advance n).next = x.next + BitVec.ofNat 32 k
  | 0, x => ⟨0, Nat.le_refl _, (BitVec.add_zero _).symm⟩
  | n + 1, x => by
    unfold RxNode.advance
    split
    · obtain ⟨k, hk, e⟩ := RxNode.next_advance n { x with next := x.next + 1#32, ahead := dropNum x.ahead x.next.toNat }
      refine ⟨k + 1, by omega, e.trans ?_⟩
      rw [BitVec.add_assoc]
      congr 1
      apply BitVec.eq_of_toNat_eq
      simp only [BitVec.toNat_add, BitVec.toNat_ofNat]
      omega
    · exact ⟨0, Nat.zero_le _, (BitVec.add_zero _).symm⟩

/-- A number counts as applied once it is noted (R666). -/
theorem RxNode.seen_note (x : RxNode) (n : W32) (h : x.ahead.length < 2 ^ 31) : (x.note n).seen n = true := by
  unfold RxNode.note RxNode.seen
  split
  next e =>
    obtain ⟨k, hk, e2⟩ := RxNode.next_advance x.ahead.length { x with next := x.next + 1#32 }
    rw [e2, e, Bool.or_eq_true, decide_eq_true_eq]
    left
    have hk2 : k < 2 ^ 31 := by omega
    have hkm : (BitVec.ofNat 32 k).toNat = k := Nat.mod_eq_of_lt (by omega)
    bv_omega
  · rw [Bool.or_eq_true]
    exact .inr (contains_addNum _ _)

/-! ## Requests -/

section
variable {s y : State} {p c n : Nat} {f a : Frame} {bad : Bool} {bs : List Byte}

/-- The state with an answer kept for its number. -/
def State.answered (s y : State) (f a : Frame) : State :=
  (y.setRx f.src ((s.rx f.src).note f.seq)).setRx f.src
    { (y.setRx f.src ((s.rx f.src).note f.seq)).rx f.src with
      answers := ((y.setRx f.src ((s.rx f.src).note f.seq)).rx f.src).answers ++ [a] }

/-- A request for this node that its port does not drop. -/
structure State.comes (s : State) (p : Nat) (bad : Bool) (f : Frame) : Prop where
  en : s.xwfEn = true
  port : s.portUp p = true
  good : s.badArrival p bad f = false
  typ : f.typ = 0
  dst : f.dst = s.node

section
variable (hc : s.comes p bad f)
include hc

theorem frameRequest_again (hs : (s.rx f.src).seen f.seq = true) : exec (.frameRequest p bad f) s =
    .next (s.sendOrDrop p (((s.rx f.src).answers.find? (fun a => a.seq == f.seq)).getD (s.ackTo f))) := by
  refine (if_pos ⟨hc.en, hc.port⟩).trans ((if_neg (ne_true_of_eq_false hc.good)).trans ((if_pos ⟨hc.typ, hc.dst⟩).trans
    ((if_pos hs).trans ?_)))
  cases (s.rx f.src).answers.find? (fun a => a.seq == f.seq) <;> rfl

variable (hs : (s.rx f.src).seen f.seq = false)
include hs

theorem frameRequest_refused (h : s.serve f = (.refused c, y)) : exec (.frameRequest p bad f) s =
    .next ((s.answered y f { y.answerTo f 3 with len := c }).sendOrDrop p { y.answerTo f 3 with len := c }) := by
  refine (if_pos ⟨hc.en, hc.port⟩).trans ((if_neg (ne_true_of_eq_false hc.good)).trans ((if_pos ⟨hc.typ, hc.dst⟩).trans
    ((if_neg (ne_true_of_eq_false hs)).trans ?_)))
  rw [h]
  rfl

theorem frameRequest_poisoned (h : s.serve f = (.poison, y)) : exec (.frameRequest p bad f) s =
    .next ((s.answered y f { y.answerTo f 1 with poison := true }).sendOrDrop p { y.answerTo f 1 with poison := true }) := by
  refine (if_pos ⟨hc.en, hc.port⟩).trans ((if_neg (ne_true_of_eq_false hc.good)).trans ((if_pos ⟨hc.typ, hc.dst⟩).trans
    ((if_neg (ne_true_of_eq_false hs)).trans ?_)))
  rw [h]
  rfl

theorem frameRequest_read (h : s.serve f = (.done bs, y)) (ho : f.op = 0) : exec (.frameRequest p bad f) s =
    .next ((s.answered y f { y.answerTo f 1 with payload := bs, len := bs.length }).sendOrDrop p
      { y.answerTo f 1 with payload := bs, len := bs.length }) := by
  refine (if_pos ⟨hc.en, hc.port⟩).trans ((if_neg (ne_true_of_eq_false hc.good)).trans ((if_pos ⟨hc.typ, hc.dst⟩).trans
    ((if_neg (ne_true_of_eq_false hs)).trans ?_)))
  rw [h]
  exact if_pos ho

theorem frameRequest_done (h : s.serve f = (.done bs, y)) (ho : f.op ≠ 0) : exec (.frameRequest p bad f) s =
    .next ((y.setRx f.src ((s.rx f.src).note f.seq)).sendOrDrop p
      ((y.setRx f.src ((s.rx f.src).note f.seq)).ackTo f)) := by
  refine (if_pos ⟨hc.en, hc.port⟩).trans ((if_neg (ne_true_of_eq_false hc.good)).trans ((if_pos ⟨hc.typ, hc.dst⟩).trans
    ((if_neg (ne_true_of_eq_false hs)).trans ?_)))
  rw [h]
  exact if_neg ho

/-- A request other than a READ is acknowledged with the last number applied in order (R666). -/
theorem frameRequest_acks (h : s.serve f = (.done bs, y)) (ho : f.op ≠ 0) :
    ∃ a : Frame, a.typ = 2 ∧ a.dst = f.src ∧ a.src = y.node ∧ a.seq = ((s.rx f.src).note f.seq).next - 1#32 ∧
      exec (.frameRequest p bad f) s = .next ((y.setRx f.src ((s.rx f.src).note f.seq)).sendOrDrop p a) := by
  refine ⟨_, rfl, rfl, rfl, ?_, frameRequest_done hc hs h ho⟩
  show (State.rx (y.setRx f.src _) f.src).next - 1#32 = _
  rw [State.rx, State.setRx, SMap.get_put_self]

end

theorem State.serve_refused (h : s.refusal f = some c) : s.serve f = (.refused c, s) := by
  unfold State.serve
  rw [h]

theorem State.serve_done (h : s.refusal f = none) (e : (applyFrame f).go s = (.ok bs, y)) : s.serve f = (.done bs, y) := by
  unfold State.serve
  rw [h, e]

theorem State.serve_poison (h : s.refusal f = none) (ho : f.op = 0) (e : (applyFrame f).go s = (.error (.poison n), y)) :
    s.serve f = (.poison, y) := by
  unfold State.serve
  rw [h, e]
  exact if_pos ho

theorem applyFrame_read (ho : f.op = 0) (e : (readSpan f.who f.len f.raddr f.len).go s = (.ok bs, y)) :
    (applyFrame f).go s = (.ok bs, y) := by
  unfold applyFrame
  exact (congrArg (EM.go · s) (if_pos ho)).trans e

theorem applyFrame_signal (ho : f.op = 3) :
    (applyFrame f).go s = (.ok [], s.signal f.rjob f.rtile f.rtok f.rinc) := by
  unfold applyFrame
  refine (congrArg (EM.go · s) ((if_neg (by omega)).trans ((if_neg (by omega)).trans ((if_neg (by omega)).trans
    (if_pos ho))))).trans ?_
  exact EM.go_bind_ok (EM.go_modify _ _) (EM.go_pure _ _)

end

/-! ## Responses -/

theorem mem_subParts : ∀ (l : List (Nat × Nat)) (lo n : Nat) (q : Nat × Nat), q ∈ subParts l lo n →
    1 ≤ q.2 ∧ ∃ r ∈ l, r.1 ≤ q.1 ∧ q.1 + q.2 ≤ r.1 + r.2
  | [], _, _, q, h => by cases h
  | (o, w) :: t, lo, n, q, h => by
    unfold subParts at h
    split at h
    · cases h
    split at h
    · obtain ⟨h1, r, hr, h2⟩ := mem_subParts t _ _ q h
      exact ⟨h1, r, List.mem_cons_of_mem _ hr, h2⟩
    · rcases List.mem_cons.1 h with rfl | h
      · exact ⟨by dsimp only; omega, (o, w), List.mem_cons_self, by dsimp only; omega, by dsimp only; omega⟩
      · obtain ⟨h1, r, hr, h2⟩ := mem_subParts t _ _ q h
        exact ⟨h1, r, List.mem_cons_of_mem _ hr, h2⟩

/-- A READ's response is written where its view lies in a calm range (R669). -/
theorem writeReturned_ends {s0 : State} {e : Eng} {v : View} {lo hi : Nat} (h : s0.calm e.who true lo hi = true)
    (hv : v.within v.fmt.bits lo hi v.cells = true) (off : Nat) (bs : List Byte) :
    (writeReturned e v off bs).Ends (Kept s0) (fun _ => True) := by
  unfold writeReturned
  extract_lets w b0 b1 data
  refine writePieces_ends h _ fun q hq => ?_
  obtain ⟨d, hd, hq⟩ := List.mem_flatMap.1 hq
  extract_lets i lo2 hi2 at hq
  have hi : i < v.count := by
    have hd := List.mem_range.1 hd
    have h1 : (b1 + w - 1) / w ≤ v.count := by
      have hb : b1 ≤ v.count * w := Nat.min_le_right _ _
      rcases Nat.eq_zero_or_pos w with h0 | h0
      · simp [h0]
      · refine Nat.lt_succ_iff.1 ((Nat.div_lt_iff_lt_mul h0).2 ?_)
        rw [Nat.succ_mul]
        omega
    show b0 / w + d < _
    omega
  have hin := ((Loc.within_iff _).1 (View.within_at hv (List.mem_map.2 ⟨i, List.mem_range.2 hi, rfl⟩))).1
  refine partPieces_inside _ _ _ _ _ (fun r hr => ?_) q hq
  obtain ⟨h1, z, hz, h2, h3⟩ := mem_subParts _ _ _ r hr
  obtain ⟨-, h4, h5⟩ := hin z hz
  exact ⟨h1, by omega, by omega⟩

section
variable {s r : State} {p i : Nat} {f : Frame} {x : Sent} {fl : Flight}

/-- An answer of a frame that was sent and whose FOP lives. -/
structure State.returns (s : State) (p : Nat) (f : Frame) (x : Sent) : Prop where
  comes : s.arrives p 1 f = true
  sent : s.sentTo f.src f.seq = some x
  live : x.dead = false

theorem frameResponse_poisoned (h : s.returns p f x) (hp : f.poison = true) : exec (.frameResponse p f) s =
    .next (((s.failFop x 1 0).dropSent { x with dead := true }).pump f.src s.txWait.length (fun _ => 0)) := by
  show execFrameResponse p f s = _
  unfold execFrameResponse
  rw [if_pos h.comes, h.sent]
  dsimp only
  rw [if_neg (ne_true_of_eq_false h.live), if_pos hp]

theorem frameResponse_written (h : s.returns p f x) (hp : f.poison = false)
    (hf : (s.queue x.job x.lt 26).fopAt x.fop = some (i, fl))
    (e : (fopLocal (engOf x.job x.lt (s.phys x.lt) 26 fl.cmd) x.frame.raddr
      (writeReturned (engOf x.job x.lt (s.phys x.lt) 26 fl.cmd) (vOf fl.cmd fl.views 3 60 57)
        (x.frame.raddr - cf fl.cmd 4 47 0) (f.payload.take x.frame.len))).go s = (.ok (), r)) :
    exec (.frameResponse p f) s = .next (((r.dropSent x).readDone x).pump f.src r.txWait.length (fun _ => 0)) := by
  show execFrameResponse p f s = _
  unfold execFrameResponse
  rw [if_pos h.comes, h.sent]
  dsimp only
  rw [if_neg (ne_true_of_eq_false h.live), if_neg (ne_true_of_eq_false hp), hf]
  dsimp only
  rw [e]

end

/-! ## Resends -/

theorem State.f_bumpSat_self (s : State) (r : FRef) (n : Nat) (h1 : r.hi < 64) (h2 : r.lo ≤ r.hi) :
    (s.bumpSat r n).f r = min (2 ^ (r.hi + 1 - r.lo) - 1) (s.f r + n) := by
  unfold State.bumpSat
  rw [State.f_setF_self _ _ _ h1 h2]
  refine Nat.mod_eq_of_lt (Nat.lt_of_le_of_lt (Nat.min_le_left _ _) ?_)
  have : 0 < 2 ^ (r.hi + 1 - r.lo) := Nat.two_pow_pos _
  omega

/-- The state with a retry of a sent frame counted. -/
def State.resent (s : State) (x : Sent) : State :=
  { s with txSent := s.txSent.map (fun y => if y = x then { y with retries := y.retries + 1 } else y) }

theorem State.f_resent (s : State) (x : Sent) (q : FRef) : (s.resent x).f q = s.f q := rfl

/-- Settles O53: each arriving frame is answered, applied, released or passed on by its type and its number, and a frame
that is not acknowledged is sent again. -/
theorem framesAreAppliedOnce : Obligations.FramesAreAppliedOnce := by
  unfold Obligations.FramesAreAppliedOnce
  refine ⟨fun x n h => x.seen_note n h, ?_⟩
  intro s r p c n i lo hi f bs bad trip x fl rx keeps back answers fop e sent acks lv hen hport
  refine ⟨?_, ?_, ?_, ?_, ?_, ?_, ?_⟩
  · intro he hb
    refine (if_pos ⟨hen, hport⟩).trans (if_pos ?_)
    show (s.ethernet p && (bad || f.dst != s.node)) = true
    rw [he]
    rcases hb with h | h <;> simp [h]
  · intro hb ht hd
    have hc : s.comes p bad f := ⟨hen, hport, by
      show (s.ethernet p && (bad || f.dst != s.node)) = false
      rcases hb with h | h <;> simp [h, hd], ht, hd⟩
    refine ⟨fun hs => frameRequest_again hc hs, fun hs hr => frameRequest_refused hc hs (State.serve_refused hr),
      fun hs hr => ⟨fun ho hcalm h1 h2 => ?_, fun ho => ?_⟩, fun hs hr ho e => ?_, fun hs hr e => ⟨fun ho => ?_, fun ho => ?_⟩⟩
    · obtain ⟨g, e⟩ := readSpan_calm f.len hcalm h1 h2 (Nat.le_refl _)
      refine ⟨g, (frameRequest_read hc hs (State.serve_done hr (applyFrame_read ho e)) ho).trans ?_⟩
      rw [State.length_bytesAt]
      rfl
    · exact frameRequest_acks hc hs (State.serve_done hr (applyFrame_signal ho)) (by omega)
    · exact frameRequest_poisoned hc hs (State.serve_poison hr ho e)
    · exact frameRequest_read hc hs (State.serve_done hr e) ho
    · exact frameRequest_acks hc hs (State.serve_done hr e) ho
  · intro ht hd hsent hlive
    have hc : s.returns p f x := ⟨by simp [State.arrives, hen, hport, ht, hd], hsent, hlive⟩
    refine ⟨fun hp => frameResponse_poisoned hc hp, fun hp hf hcalm hv => ?_, fun hp hf e => frameResponse_written hc hp hf e⟩
    obtain ⟨_, r, er, -, -⟩ := writeReturned_ends hcalm hv (x.frame.raddr - cf fl.cmd 4 47 0)
      (f.payload.take x.frame.len) s (Kept.refl s)
    exact ⟨r, EM.go_tryCatch_ok er, frameResponse_written hc hp hf (EM.go_tryCatch_ok er)⟩
  · intro ht hd acked u w win
    refine (if_pos (by simp [State.arrives, hen, hport, ht, hd])).trans (congrArg Host.Outcome.next ?_)
    have hlen : (u.adjustWindow p f trip).txWait.length = s.txWait.length := by
      unfold State.adjustWindow
      split <;> rfl
    exact congrArg (fun k => State.pump f.src k (fun _ => 0) (u.adjustWindow p f trip)) hlen
  · intro ht hd hsent u
    show execFrameRefuse p f s = _
    unfold execFrameRefuse
    rw [if_pos (by simp [State.arrives, hen, hport, ht, hd]), hsent]
  · intro hd
    refine ⟨fun h => (if_pos ⟨hen, hport, hd⟩).trans (if_pos h), fun he hh => ?_⟩
    refine (if_pos ⟨hen, hport, hd⟩).trans ((if_neg (by simp [he, hh])).trans (congrArg Host.Outcome.next ?_))
    unfold State.sendOrDrop State.sendOn
    dsimp only
    cases fewest (fun _ => 0) (s.routes f.dst) <;> rfl
  · intro hsent
    have hrow : (if s.xwfEn then s.sentTo f.dst f.seq else none) = some x := (if_pos hen).trans hsent
    refine ⟨fun hr => ?_, fun hr hf hn => ?_⟩
    · show execResendTimeout f.dst f.seq s = _
      unfold execResendTimeout
      rw [hrow]
      exact if_neg (by omega)
    · obtain ⟨y, hy⟩ : ∃ y : State, y = { s with xwfOut := s.xwfOut ++ [(n, x.frame)] } := ⟨_, rfl⟩
      have hon : s.sendOn (fun _ => 0) x.frame = some (n, y) := by
        unfold State.sendOn
        rw [hf, hy]
      refine ⟨(y.bumpSat (XWF_PORT_ERR.REPLAY n) 1).resent x, ?_, ?_, ?_, ?_⟩
      · show execResendTimeout f.dst f.seq s = _
        unfold execResendTimeout
        rw [hrow]
        dsimp only
        rw [if_pos hr, hon]
        rfl
      · rw [hy]
        rfl
      · rw [State.f_resent, State.f_bumpSat_self _ _ _ (by show 31 < 64; decide) (by show 16 ≤ 31; decide), hy]
        rfl
      · rw [hy]
        rfl

end Sys2Proof.Machine

/-! PROOFS. Ports of the fabric and far ports (R362, R657 - R661, R677). -/
namespace Sys2Proof.Machine

/-! ## Fields under the operations of ports -/

section
variable (s : State) (p : Nat) {q : FRef}

theorem State.f_linkRec (sev : Nat) (h : 0x5000 ≤ q.off) : (s.linkRec p sev).f q = s.f q := State.f_erq _ _ _ h

theorem State.f_waveRec (w : Nat) (b : Bool) (h : 0x5000 ≤ q.off) : (s.waveRec p w b).f q = s.f q := State.f_erq _ _ _ h

theorem State.f_linkRec_eth (l : List Nat) (sev : Nat) (h : 0x5000 ≤ q.off) :
    (State.linkRec { s with xwfEth := l } p sev).f q = s.f q := State.f_erq { s with xwfEth := l } _ _ h

theorem State.f_resync (d : Nat) (h : q.off ≠ TDC_DOM_STATUS.at d) : (s.resync d).f q = s.f q := by
  unfold State.resync
  split
  · exact State.f_of_reg (State.reg_setF_at _ _ _ _ h)
  · rfl

theorem State.flag_setFlag_self (q : FRef) (b : Bool) (h : q.hi < 64) (hl : q.lo ≤ q.hi) : (s.setFlag q b).flag q = b := by
  have hp : 2 ≤ 2 ^ (q.hi + 1 - q.lo) := by
    rw [show q.hi + 1 - q.lo = q.hi - q.lo + 1 by omega, Nat.pow_succ]
    have := Nat.two_pow_pos (q.hi - q.lo)
    omega
  unfold State.flag State.setFlag
  rw [State.f_setF_self _ _ _ h hl, Nat.mod_eq_of_lt (by split <;> omega)]
  cases b <;> rfl

theorem State.flag_of_f {s t : State} (h : t.f q = s.f q) : t.flag q = s.flag q := by rw [State.flag, h, State.flag]

/-! ## Fabric ports -/

/-- The fields of a port that has trained (R658). -/
def State.cameUp (mode partner : Nat) : State :=
  let s := (s.setF (XWF_PORT_STATUS.STATE p) pUP).setF (XWF_PORT_STATUS.MODE p) mode
  let s := (s.setF (XWF_PORT_STATUS.WAVES p) 8).setF (XWF_PORT_STATUS.PARTNER p) (if mode = 1 then partner else 0)
  ((s.setF (XWF_PORT_STATUS.SPARE_V p) 0).setF (XWF_PORT_STATUS.SPARE_W p) 0).setF (XWF_PORT_STATUS.WAVE_FAIL p) 0

theorem State.f_cameUp {mode partner : Nat} (hm : mode < 4) (hp : partner < 2 ^ 15) :
    (s.cameUp p mode partner).f (XWF_PORT_STATUS.STATE p) = 2 ∧ (s.cameUp p mode partner).f (XWF_PORT_STATUS.MODE p) = mode ∧
      (s.cameUp p mode partner).f (XWF_PORT_STATUS.WAVES p) = 8 ∧
      (s.cameUp p mode partner).f (XWF_PORT_STATUS.PARTNER p) = if mode = 1 then partner else 0 := by
  unfold State.cameUp
  dsimp only
  refine ⟨?_, ?_, ?_, ?_⟩ <;>
    simp (disch := (simp only [XWF_PORT_STATUS.STATE, XWF_PORT_STATUS.MODE, XWF_PORT_STATUS.WAVES,
      XWF_PORT_STATUS.PARTNER, XWF_PORT_STATUS.SPARE_V, XWF_PORT_STATUS.SPARE_W, XWF_PORT_STATUS.WAVE_FAIL]; omega)) only
      [State.f_setF_other, State.f_setF_self]
  · rfl
  · exact Nat.mod_eq_of_lt hm
  · rfl
  · refine Nat.mod_eq_of_lt ?_
    show (if mode = 1 then partner else 0) < 2 ^ 15
    split <;> omega

/-- A port that goes DOWN has no mode. -/
theorem State.f_portDown : (s.portDown p).f (XWF_PORT_STATUS.STATE p) = 0 ∧ (s.portDown p).f (XWF_PORT_STATUS.MODE p) = 0 := by
  unfold State.portDown
  extract_lets u
  have h0 : 0x5000 ≤ XWF_PORT_STATUS.at p := by simp only [XWF_PORT_STATUS.at]; omega
  rw [State.f_linkRec_eth u p _ _ h0, State.f_linkRec_eth u p _ _ h0]
  unfold u
  constructor <;>
    simp (disch := (simp only [XWF_PORT_STATUS.STATE, XWF_PORT_STATUS.MODE, XWF_PORT_STATUS.WAVES]; omega)) only
      [State.f_setF_other, State.f_setF_self]
  · rfl
  · rfl

/-- A port that starts to train, with the list of those that fell back. -/
def State.trains (s : State) (p : Nat) (l : List Nat) : State :=
  { s.setF (XWF_PORT_STATUS.STATE p) pTRAINING with xwfEth := l }

theorem State.f_eth (s : State) (l : List Nat) (q : FRef) : State.f { s with xwfEth := l } q = s.f q := rfl
theorem State.xwfEth_eth (s : State) (l : List Nat) : State.xwfEth { s with xwfEth := l } = l := rfl

theorem State.f_trains (l : List Nat) : (s.trains p l).f (XWF_PORT_STATUS.STATE p) = 1 :=
  (State.f_eth _ _ _).trans (State.f_setF_self _ _ _ (by show 63 < 64; decide) (by show 60 ≤ 63; decide))

theorem State.maxMode_trains (l : List Nat) : (s.trains p l).f (XWF_PORT_CTL.MAX_MODE p) = s.f (XWF_PORT_CTL.MAX_MODE p) :=
  (State.f_eth _ _ _).trans (State.f_of_reg (State.reg_setF_at _ _ _ _ (by
    simp only [XWF_PORT_CTL.MAX_MODE, XWF_PORT_CTL.at, XWF_PORT_STATUS.STATE, XWF_PORT_STATUS.at]
    omega)))

theorem State.xwfEth_trains (l : List Nat) : (s.trains p l).xwfEth = l := State.xwfEth_eth _ _

theorem State.mayTrain_native : s.mayTrain p 1 = true ↔ s.f (XWF_PORT_CTL.MAX_MODE p) ≠ 2 ∧ p ∉ s.xwfEth := by
  show (s.f (XWF_PORT_CTL.MAX_MODE p) != 2 && !s.xwfEth.contains p) = true ↔ _
  simp

theorem State.mayTrain_ethernet : s.mayTrain p 2 = true ↔
    s.f (XWF_PORT_CTL.MAX_MODE p) = 2 ∨ (s.f (XWF_PORT_CTL.MAX_MODE p) = 0 ∧ p ∈ s.xwfEth) := by
  show (2 == 2 && (s.f (XWF_PORT_CTL.MAX_MODE p) == 2 || (s.f (XWF_PORT_CTL.MAX_MODE p) == 0 && s.xwfEth.contains p))) = true ↔ _
  simp

theorem State.mode_of_mayTrain {mode : Nat} (h : s.mayTrain p mode = true) : mode = 1 ∨ mode = 2 := by
  unfold State.mayTrain at h
  extract_lets m at h
  split at h
  next h1 => exact .inl h1
  · rw [Bool.and_eq_true, beq_iff_eq] at h
    exact .inr h.1

end

/-- A training that reaches a mode leaves the port UP in it (R658). -/
theorem xwfTraining_up {s : State} {p mode partner : Nat} (hp : p < 16) (hpar : partner < 2 ^ 15)
    (hd : s.flag (XWF_PORT_CTL.DISABLE p) = false) (hs : s.f (XWF_PORT_STATUS.STATE p) ≠ 2) (ho : s.opticsOn = true)
    (hm : s.mayTrain p mode = true) : ∃ t, exec (.xwfTraining p mode partner true) s = .next t ∧
      t.f (XWF_PORT_STATUS.STATE p) = 2 ∧ t.f (XWF_PORT_STATUS.MODE p) = mode ∧ t.f (XWF_PORT_STATUS.WAVES p) = 8 ∧
      t.f (XWF_PORT_STATUS.PARTNER p) = if mode = 1 then partner else 0 := by
  have hlt : mode < 4 := by rcases State.mode_of_mayTrain s p hm with h | h <;> omega
  obtain ⟨e1, e2, e3, e4⟩ := s.f_cameUp p hlt hpar
  have hx : exec (.xwfTraining p mode partner true) s = .next ((State.linkRec { s.cameUp p mode partner with
      xwfEth := dropNum (s.cameUp p mode partner).xwfEth p } p 0).resync (dXWF p)) :=
    (if_pos ⟨hp, hd, hs, ho⟩).trans ((if_neg (by decide)).trans (if_pos hm))
  have hf : ∀ q : FRef, q.off = XWF_PORT_STATUS.at p → ((State.linkRec { s.cameUp p mode partner with
      xwfEth := dropNum (s.cameUp p mode partner).xwfEth p } p 0).resync (dXWF p)).f q = (s.cameUp p mode partner).f q := by
    intro q hq
    rw [State.f_resync _ _ (by
      rw [hq]
      simp only [XWF_PORT_STATUS.at, TDC_DOM_STATUS.at, dXWF]
      omega), State.f_linkRec_eth _ _ _ _ (by
      rw [hq]
      simp only [XWF_PORT_STATUS.at]
      omega)]
  exact ⟨_, hx, (hf _ rfl).trans e1, (hf _ rfl).trans e2, (hf _ rfl).trans e3, (hf _ rfl).trans e4⟩

/-! ## Wavelengths -/

section
variable {s : State} {p w : Nat}

/-- The port's fields with wavelength w marked failed. -/
def State.waveFailed (s : State) (p w : Nat) : State :=
  s.setF (XWF_PORT_STATUS.WAVE_FAIL p) (s.f (XWF_PORT_STATUS.WAVE_FAIL p) ||| 2 ^ w)

theorem State.f_waveFailed {h l : Nat} (hd : h < 40 ∨ 48 < l) :
    (s.waveFailed p w).f ⟨XWF_PORT_STATUS.at p, h, l⟩ = s.f ⟨XWF_PORT_STATUS.at p, h, l⟩ :=
  State.f_setF_other _ _ _ _ (by show 48 < 64; decide) (by show 40 ≤ 48; decide) (.inr hd)

theorem State.ethernet_waveFailed : (s.waveFailed p w).ethernet p = s.ethernet p :=
  congrArg (· == 2) (State.f_waveFailed (.inr (by decide)))

theorem State.spared_waveFailed : (s.waveFailed p w).flag (XWF_PORT_STATUS.SPARE_V p) = s.flag (XWF_PORT_STATUS.SPARE_V p) :=
  State.flag_of_f (State.f_waveFailed (.inr (by decide)))

/-- The spare takes the wavelength's place (R657). -/
def State.waveSpared (s : State) (p w : Nat) : State :=
  (((s.waveFailed p w).setF (XWF_PORT_STATUS.SPARE_V p) 1).setF (XWF_PORT_STATUS.SPARE_W p) w)

/-- The failed wavelength marked, and the spare given up where it is the one that failed. -/
def State.waveGone (s : State) (p w : Nat) : State :=
  if w = 8 then (s.waveFailed p w).setF (XWF_PORT_STATUS.SPARE_V p) 0 else s.waveFailed p w

/-- The port with a wavelength less (R657). -/
def State.waveLess (s : State) (p w : Nat) : State :=
  (s.waveGone p w).setF (XWF_PORT_STATUS.WAVES p) ((s.waveGone p w).f (XWF_PORT_STATUS.WAVES p) - 1)

theorem State.f_waveSpared (hw : w < 8) :
    (s.waveSpared p w).f (XWF_PORT_STATUS.STATE p) = s.f (XWF_PORT_STATUS.STATE p) ∧
      (s.waveSpared p w).flag (XWF_PORT_STATUS.SPARE_V p) = true ∧ (s.waveSpared p w).f (XWF_PORT_STATUS.SPARE_W p) = w ∧
      (s.waveSpared p w).f (XWF_PORT_STATUS.WAVES p) = s.f (XWF_PORT_STATUS.WAVES p) := by
  unfold State.waveSpared State.waveFailed State.flag
  refine ⟨?_, ?_, ?_, ?_⟩ <;>
    simp (disch := (simp only [XWF_PORT_STATUS.STATE, XWF_PORT_STATUS.WAVES, XWF_PORT_STATUS.SPARE_V,
      XWF_PORT_STATUS.SPARE_W, XWF_PORT_STATUS.WAVE_FAIL]; omega)) only [State.f_setF_other, State.f_setF_self]
  · rfl
  · exact Nat.mod_eq_of_lt (by show w < 2 ^ 4; omega)

theorem State.f_lt (s : State) (q : FRef) : s.f q < 2 ^ (q.hi + 1 - q.lo) := Nat.mod_lt _ (Nat.two_pow_pos _)

theorem State.f_waveGone {h l : Nat} (hl : 53 < l) :
    (s.waveGone p w).f ⟨XWF_PORT_STATUS.at p, h, l⟩ = s.f ⟨XWF_PORT_STATUS.at p, h, l⟩ := by
  unfold State.waveGone
  split
  · exact (State.f_setF_other _ _ _ _ (by show 53 < 64; decide) (by show 53 ≤ 53; decide) (.inr (.inr hl))).trans
      (State.f_waveFailed (.inr (by omega)))
  · exact State.f_waveFailed (.inr (by omega))

theorem State.waves_waveGone : (s.waveGone p w).f (XWF_PORT_STATUS.WAVES p) = s.f (XWF_PORT_STATUS.WAVES p) :=
  State.f_waveGone (by decide)

theorem State.f_waveLess : (s.waveLess p w).f (XWF_PORT_STATUS.STATE p) = s.f (XWF_PORT_STATUS.STATE p) ∧
    (s.waveLess p w).f (XWF_PORT_STATUS.WAVES p) = s.f (XWF_PORT_STATUS.WAVES p) - 1 := by
  have hlt := s.f_lt (XWF_PORT_STATUS.WAVES p)
  constructor
  · exact (State.f_setF_other _ _ _ _ (by show 57 < 64; decide) (by show 54 ≤ 57; decide)
      (.inr (.inr (by show 57 < 60; decide)))).trans (State.f_waveGone (by decide))
  · rw [State.waveLess, State.f_setF_self _ _ _ (by show 57 < 64; decide) (by show 54 ≤ 57; decide), State.waves_waveGone]
    exact Nat.mod_eq_of_lt (Nat.lt_of_le_of_lt (Nat.sub_le _ _) hlt)

section
variable (hup : s.portUp p = true) (hw : w < 9) (hn : (s.f (XWF_PORT_STATUS.WAVE_FAIL p)).testBit w = false)
include hup hw hn

/-- A wavelength of an Ethernet port fails: the spare alone changes nothing else. -/
theorem wavelengthFail_ethernet (he : s.ethernet p = true) : exec (.wavelengthFail p w) s =
    .next (if w = 8 then (s.waveFailed p w).waveRec p w false
      else ((s.waveFailed p w).waveRec p w false).trains p (dropNum ((s.waveFailed p w).waveRec p w false).xwfEth p)) := by
  refine (if_pos ⟨hup, hw, hn⟩).trans ((if_pos (State.ethernet_waveFailed.trans he)).trans ?_)
  by_cases h8 : w = 8
  · rw [if_pos h8, if_pos h8]
    rfl
  · rw [if_neg h8, if_neg h8]
    rfl

variable (he : s.ethernet p = false)
include he

theorem wavelengthFail_spares (h8 : w < 8) (hsp : s.flag (XWF_PORT_STATUS.SPARE_V p) = false)
    (hf : (s.f (XWF_PORT_STATUS.WAVE_FAIL p)).testBit 8 = false) : exec (.wavelengthFail p w) s =
      .next ((s.waveSpared p w).waveRec p w true) :=
  (if_pos ⟨hup, hw, hn⟩).trans ((if_neg (ne_true_of_eq_false (State.ethernet_waveFailed.trans he))).trans
    (if_pos ⟨h8, State.spared_waveFailed.trans hsp, hf⟩))

theorem wavelengthFail_spare (h8 : w = 8) (hsp : s.flag (XWF_PORT_STATUS.SPARE_V p) = false) :
    exec (.wavelengthFail p w) s = .next ((s.waveFailed p w).waveRec p w false) :=
  (if_pos ⟨hup, hw, hn⟩).trans ((if_neg (ne_true_of_eq_false (State.ethernet_waveFailed.trans he))).trans
    ((if_neg fun h => absurd h.1 (by omega)).trans (if_pos ⟨h8, State.spared_waveFailed.trans hsp⟩)))

theorem wavelengthFail_narrows (hsp : s.flag (XWF_PORT_STATUS.SPARE_V p) = true ∨
    (w ≠ 8 ∧ (s.f (XWF_PORT_STATUS.WAVE_FAIL p)).testBit 8 = true)) : exec (.wavelengthFail p w) s =
      .next (if s.f (XWF_PORT_STATUS.WAVES p) - 1 < 4 then ((s.waveLess p w).waveRec p w false).portDown p
        else (s.waveLess p w).waveRec p w false) := by
  have hspu : (s.waveFailed p w).flag (XWF_PORT_STATUS.SPARE_V p) = s.flag (XWF_PORT_STATUS.SPARE_V p) :=
    State.spared_waveFailed
  refine (if_pos ⟨hup, hw, hn⟩).trans ((if_neg (ne_true_of_eq_false (State.ethernet_waveFailed.trans he))).trans
    ((if_neg ?_).trans ((if_neg ?_).trans (congrArg Host.Outcome.next ?_))))
  · rintro ⟨-, h1, h2⟩
    rcases hsp with h | ⟨-, h⟩
    · exact Bool.false_ne_true (h1.symm.trans (hspu.trans h))
    · exact Bool.false_ne_true (h2.symm.trans h)
  · rintro ⟨h1, h2⟩
    rcases hsp with h | ⟨h, -⟩
    · exact Bool.false_ne_true (h2.symm.trans (hspu.trans h))
    · exact h h1
  · refine if_congr ?_ rfl rfl
    exact (congrArg (· - 1 < 4) (State.waves_waveGone (s := s) (p := p) (w := w))).to_iff

end

/-- The record of a wavelength leaves the port's fields. -/
theorem State.f_waveRec_port (u : State) (w : Nat) (b : Bool) {h l : Nat} :
    (u.waveRec p w b).f ⟨XWF_PORT_STATUS.at p, h, l⟩ = u.f ⟨XWF_PORT_STATUS.at p, h, l⟩ :=
  State.f_waveRec u p w b (by simp only [XWF_PORT_STATUS.at]; omega)

end

/-! ## Far ports -/

section
variable (s : State) (p : Nat)

theorem State.f_cxpPerst (s : State) (l : List Nat) (q : FRef) : State.f { s with cxpPerst := l } q = s.f q := rfl

theorem State.cxpPerst_erq (s : State) (l : List Nat) (r : ErqRec) :
    (State.erq { s with cxpPerst := l } r).cxpPerst = l :=
  congrArg State.cxpPerst (State.noted_erq { s with cxpPerst := l } r false)

theorem State.f_cxpLoss (h : s.f (CXP_PORT_STATUS.MODE p) ≠ 0) :
    (s.cxpLoss p).f (CXP_PORT_STATUS.MODE p) = 0 ∧ (s.cxpLoss p).f (CXP_PORT_STATUS.WIDTH p) = 0 ∧
      (s.cxpLoss p).flag (CXP_PORT_STATUS.LINK_DOWN p) = true ∧ p ∈ (s.cxpLoss p).cxpPerst := by
  unfold State.cxpLoss
  rw [if_neg h]
  extract_lets u v
  have hv : ∀ (l : List Nat) (r : ErqRec) (q : FRef), q.off = CXP_PORT_STATUS.at p →
      (State.erq { v with cxpPerst := l } r).f q = v.f q := fun l r q hq => (State.f_erq { v with cxpPerst := l } r false (by
    rw [hq]
    simp only [CXP_PORT_STATUS.at]
    omega)).trans (State.f_cxpPerst v l q)
  have h1 : v.f (CXP_PORT_STATUS.MODE p) = 0 ∧ v.f (CXP_PORT_STATUS.WIDTH p) = 0 := by
    unfold v u State.setFlag
    constructor <;>
      simp (disch := (simp only [CXP_PORT_STATUS.MODE, CXP_PORT_STATUS.RATE, CXP_PORT_STATUS.WIDTH,
        CXP_PORT_STATUS.LINK_DOWN]; omega)) only [State.f_setF_other, State.f_setF_self]
    · rfl
    · rfl
  refine ⟨(hv _ _ _ rfl).trans h1.1, (hv _ _ _ rfl).trans h1.2, ?_, ?_⟩
  · exact (State.flag_of_f (hv _ _ _ rfl)).trans
      (State.flag_setFlag_self u _ true (by show 5 < 64; decide) (by show 5 ≤ 5; decide))
  · rw [State.cxpPerst_erq]
    exact mem_addNum _ _

theorem State.f_cxpTrained {mode rate width devices : Nat} (hm : mode < 16) (hr : rate < 256) (hw : width < 4)
    (hd : devices < 16) : (s.cxpTrained p mode rate width devices).f (CXP_PORT_STATUS.MODE p) = mode ∧
      (s.cxpTrained p mode rate width devices).f (CXP_PORT_STATUS.RATE p) = rate ∧
      (s.cxpTrained p mode rate width devices).f (CXP_PORT_STATUS.WIDTH p) = width ∧
      (s.cxpTrained p mode rate width devices).f (CXP_PORT_STATUS.DEVICES p) = devices := by
  unfold State.cxpTrained
  extract_lets u v
  refine ⟨(State.f_cxpPerst _ _ _).trans ?_, (State.f_cxpPerst _ _ _).trans ?_, (State.f_cxpPerst _ _ _).trans ?_,
    (State.f_cxpPerst _ _ _).trans ?_⟩ <;> unfold v u <;>
    simp (disch := (simp only [CXP_PORT_STATUS.MODE, CXP_PORT_STATUS.RATE, CXP_PORT_STATUS.WIDTH,
      CXP_PORT_STATUS.DEVICES]; omega)) only [State.f_setF_other, State.f_setF_self]
  · exact Nat.mod_eq_of_lt hm
  · exact Nat.mod_eq_of_lt hr
  · exact Nat.mod_eq_of_lt hw
  · exact Nat.mod_eq_of_lt hd

theorem rate_of_cxpRateOk {mode rate : Nat} (h : cxpRateOk mode rate = true) : mode < 16 ∧ rate < 256 := by
  simp only [cxpRateOk, Bool.or_eq_true, Bool.and_eq_true, beq_iff_eq] at h
  omega

end

theorem cxpRetrainDone_trains {s : State} {p mode rate width devices : Nat} (hp : p < 4)
    (hm : s.f (CXP_PORT_STATUS.MODE p) = 0) (hl : s.flag (CXP_PORT_STATUS.LINK_DOWN p) = true)
    (hc : s.cxpPerst.contains p = true) (hr : s.domRuns (dCXP p) = true) (ho : cxpRateOk mode rate = true)
    (hw : 1 ≤ width) (hw3 : width ≤ 3) (hd : devices ≤ 4) :
    ∃ t, exec (.cxpRetrainDone p mode rate width devices) s = .next t ∧ t.f (CXP_PORT_STATUS.MODE p) = mode ∧
      t.f (CXP_PORT_STATUS.RATE p) = rate ∧ t.f (CXP_PORT_STATUS.WIDTH p) = width ∧
      t.f (CXP_PORT_STATUS.DEVICES p) = devices := by
  obtain ⟨h1, h2⟩ := rate_of_cxpRateOk ho
  obtain ⟨e1, e2, e3, e4⟩ := s.f_cxpTrained p h1 h2 (width := width) (devices := devices) (by omega) (by omega)
  have hf : ∀ q : FRef, q.off = CXP_PORT_STATUS.at p →
      ((s.cxpTrained p mode rate width devices).resync (dCXP p)).f q = (s.cxpTrained p mode rate width devices).f q :=
    fun q hq => State.f_resync _ _ (by
      rw [hq]
      simp only [CXP_PORT_STATUS.at, TDC_DOM_STATUS.at, dCXP]
      omega)
  exact ⟨_, (if_pos ⟨hp, hm, hl, hc, hr⟩).trans (if_pos ⟨ho, hw, hw3, hd⟩), (hf _ rfl).trans e1, (hf _ rfl).trans e2,
    (hf _ rfl).trans e3, (hf _ rfl).trans e4⟩

/-- Settles O54: the fields that a training, a lost wavelength and a lost far link leave in the port's registers. That
the fall-back to Ethernet is kept until a retrain and that wavelength 8 is the spare is the model's choice, log entry
39. -/
theorem portsTrainAndFail : Obligations.PortsTrainAndFail := by
  unfold Obligations.PortsTrainAndFail
  intro s p mode partner w rate width devices by_ upper lower state maxMode
  refine ⟨?_, ?_, ?_, ?_⟩
  · intro hp hpar hd
    refine ⟨fun hs ho => ⟨fun hm => xwfTraining_up hp hpar hd hs ho hm, ?_⟩, s.mayTrain_native p, s.mayTrain_ethernet p,
      fun hs hm => ?_, fun ha => ?_⟩
    · exact ⟨_, (if_pos ⟨hp, hd, hs, ho⟩).trans (if_pos rfl), s.f_portDown p⟩
    · refine ⟨s.trains p (addNum s.xwfEth p), if_pos ⟨hp, hd, hs, hm⟩, State.f_trains _ _ _, ?_, ?_⟩
      · refine (State.mayTrain_ethernet _ p).2 (.inr ⟨(s.maxMode_trains p _).trans hm, ?_⟩)
        rw [State.xwfEth_trains]
        exact mem_addNum _ _
      · refine Bool.eq_false_iff.2 fun h => ((State.mayTrain_native _ p).1 h).2 ?_
        rw [State.xwfEth_trains]
        exact mem_addNum _ _
    · refine ⟨s.trains p (dropNum s.xwfEth p), congrArg Host.Outcome.next ((if_pos ha).trans (if_pos ⟨hp, hd⟩)),
        State.f_trains _ _ _, ?_⟩
      rw [State.xwfEth_trains]
      simp [dropNum]
  · intro hup hw hn waves spared
    have hst : state s = 2 := by
      have h := hup
      simp only [State.portUp, Bool.and_eq_true, beq_iff_eq] at h
      exact h.2
    by_cases he : s.ethernet p = true
    · refine ⟨_, wavelengthFail_ethernet hup hw hn he, fun _ h8 => ?_, fun _ h8 => ?_, ?_, ?_, ?_⟩
      · rw [if_neg (by omega)]
        exact State.f_trains _ _ _
      · rw [if_pos h8]
        exact (State.f_waveRec_port _ _ _).trans ((State.f_waveFailed (.inr (by decide))).trans hst)
      · exact fun h => absurd (h.symm.trans he) (by decide)
      · exact fun h => absurd (h.symm.trans he) (by decide)
      · exact fun h => absurd (h.symm.trans he) (by decide)
    have he : s.ethernet p = false := Bool.eq_false_iff.2 he
    by_cases hna : spared = true ∨ (w ≠ 8 ∧ (s.f (XWF_PORT_STATUS.WAVE_FAIL p)).testBit 8 = true)
    · refine ⟨_, wavelengthFail_narrows hup hw hn he hna, ?_, ?_, ?_, ?_, ?_⟩
      · exact fun h => absurd (h.symm.trans he) (by decide)
      · exact fun h => absurd (h.symm.trans he) (by decide)
      · intro _ h8 hsp hf
        rcases hna with h | ⟨-, h⟩
        · exact absurd (h.symm.trans hsp) (by decide)
        · exact absurd (h.symm.trans hf) (by decide)
      · intro _ h8 hsp
        rcases hna with h | ⟨h, -⟩
        · exact absurd (h.symm.trans hsp) (by decide)
        · exact absurd h8 h
      · intro _ _
        refine ⟨fun h5 => ?_, fun h4 => ?_⟩
        · rw [if_neg (by omega)]
          exact ⟨(State.f_waveRec_port _ _ _).trans (State.f_waveLess.1.trans hst),
            (State.f_waveRec_port _ _ _).trans State.f_waveLess.2⟩
        · rw [if_pos (by omega)]
          exact (State.f_portDown _ p).1
    rw [not_or, not_and_or, not_ne_iff] at hna
    have hsp : spared = false := Bool.eq_false_iff.2 hna.1
    by_cases h8 : w = 8
    · have hf8 : (s.f (XWF_PORT_STATUS.WAVE_FAIL p)).testBit 8 = false := h8 ▸ hn
      refine ⟨_, wavelengthFail_spare hup hw hn he h8 hsp, ?_, ?_, ?_, ?_, ?_⟩
      · exact fun h => absurd (h.symm.trans he) (by decide)
      · exact fun h => absurd (h.symm.trans he) (by decide)
      · exact fun _ h => absurd h (by omega)
      · exact fun _ _ _ => ⟨(State.f_waveRec_port _ _ _).trans ((State.f_waveFailed (.inr (by decide))).trans hst),
          (State.f_waveRec_port _ _ _).trans (State.f_waveFailed (.inr (by decide)))⟩
      · rintro _ (h | h)
        · exact absurd (h.symm.trans hsp) (by decide)
        · exact absurd (h.symm.trans hf8) (by decide)
    · have hf8 : (s.f (XWF_PORT_STATUS.WAVE_FAIL p)).testBit 8 = false :=
        Bool.eq_false_iff.2 (hna.2.resolve_left h8)
      have hlt : w < 8 := by omega
      obtain ⟨e1, e2, e3, e4⟩ := State.f_waveSpared (s := s) (p := p) hlt
      refine ⟨_, wavelengthFail_spares hup hw hn he hlt hsp hf8, ?_, ?_, ?_, ?_, ?_⟩
      · exact fun h => absurd (h.symm.trans he) (by decide)
      · exact fun h => absurd (h.symm.trans he) (by decide)
      · exact fun _ _ _ _ => ⟨(State.f_waveRec_port _ _ _).trans (e1.trans hst),
          (State.flag_of_f (State.f_waveRec_port _ _ _)).trans e2, (State.f_waveRec_port _ _ _).trans e3,
          (State.f_waveRec_port _ _ _).trans e4⟩
      · exact fun _ h => absurd h h8
      · rintro _ (h | h)
        · exact absurd (h.symm.trans hsp) (by decide)
        · exact absurd (h.symm.trans hf8) (by decide)
  · intro hup he
    exact ⟨fun hu hl => if_pos ⟨hup, he, hu, hl⟩, fun h => if_neg fun ⟨_, _, hu, hl⟩ => h.elim (· hu) (· hl)⟩
  · intro hp
    exact ⟨fun hm => ⟨_, if_pos hp, s.f_cxpLoss p hm⟩,
      fun hm hl hc hr ho hw hw3 hd => cxpRetrainDone_trains hp hm hl hc hr ho hw hw3 hd⟩

end Sys2Proof.Machine

/-! PROOFS. Clock domains and COUNT crossings (R679 - R695). -/
namespace Sys2Proof.Machine

/-! ## COUNT crossings -/

section
variable (c : Cross) (events : Nat)

/-- The source stalls rather than produce more than the destination can count (R683). -/
theorem Cross.behind_produce (h : c.behind < 2 ^ 31) :
    (c.produce events).behind = c.behind + min events (2 ^ 31 - 1 - c.behind) ∧ (c.produce events).behind < 2 ^ 31 := by
  have e : (c.produce events).behind = c.behind + min events (2 ^ 31 - 1 - c.behind) := by
    unfold Cross.behind Cross.produce
    have hk : (BitVec.ofNat 32 (min events (2 ^ 31 - 1 - c.behind))).toNat = min events (2 ^ 31 - 1 - c.behind) :=
      Nat.mod_eq_of_lt (by omega)
    have hb : (c.produced - c.applied).toNat = c.behind := rfl
    dsimp only
    generalize BitVec.ofNat 32 (min events (2 ^ 31 - 1 - c.behind)) = k at *
    rw [show c.produced + k - c.applied = (c.produced - c.applied) + k by bv_omega, BitVec.toNat_add, hb, hk]
    omega
  exact ⟨e, by omega⟩

theorem Cross.behind_sample : c.sample.behind = 0 := by
  unfold Cross.behind Cross.sample
  simp

end

theorem State.crossing_put (s : State) (d : Nat) (job : Bool) (c : Cross) (e : Nat) (k : Bool) :
    State.crossing { s with cross := SMap.put Cross.zero s.cross (2 * d + job.toNat) c } e k =
      if 2 * e + k.toNat = 2 * d + job.toNat then c else s.crossing e k := SMap.get_put _ _ _ _ _

/-! ## Domains -/

theorem State.reg_cxpPerst (s : State) (l : List Nat) (a : Nat) : State.reg { s with cxpPerst := l } a = s.reg a := rfl
theorem State.reg_xwfEth (s : State) (l : List Nat) (a : Nat) : State.reg { s with xwfEth := l } a = s.reg a := rfl

section
variable (s : State) (d p : Nat) {a : Nat} (ha : 0x8000000 ≤ a)
include ha

theorem State.reg_setDyl_far (hp : p < 2) (st : Nat) : (s.setDyl p st).reg a = s.reg a := by
  by_cases h : s.dylState p = st
  · rw [State.setDyl, if_pos h]
  · rw [State.reg_setDyl s h (by omega)]
    refine State.reg_setF_at _ _ _ _ ?_
    simp only [DYL_PORT_STATUS.STATE, DYL_PORT_STATUS.at]
    omega

theorem State.reg_dylDown_far (hp : p < 2) : (s.dylDown p).reg a = s.reg a := by
  unfold State.dylDown
  split
  · rfl
  · rw [State.reg_setDyl_far _ p ha hp, State.clearLane, State.reg_setReg, if_neg]
    simp only [DYL_PORT_STATUS.at]
    omega

theorem State.reg_cxpLoss_far (hp : p < 4) : (s.cxpLoss p).reg a = s.reg a := by
  have hn : a ≠ CXP_PORT_STATUS.at p := by
    simp only [CXP_PORT_STATUS.at]
    omega
  unfold State.cxpLoss
  split
  · rfl
  · extract_lets u v
    refine (State.reg_erq { v with cxpPerst := addNum v.cxpPerst p } _ false (by omega)).trans
      ((State.reg_cxpPerst _ _ _).trans ?_)
    unfold v u State.setFlag
    rw [State.reg_setF_at _ _ _ _ hn, State.reg_setF_at _ _ _ _ hn, State.reg_setF_at _ _ _ _ hn,
      State.reg_setF_at _ _ _ _ hn]

theorem State.reg_portDown_far (hp : p < 16) : (s.portDown p).reg a = s.reg a := by
  have hn : a ≠ XWF_PORT_STATUS.at p := by
    simp only [XWF_PORT_STATUS.at]
    omega
  unfold State.portDown
  extract_lets u
  refine (State.reg_erq { u with xwfEth := dropNum u.xwfEth p } _ false (by omega)).trans
    ((State.reg_xwfEth _ _ _).trans ?_)
  unfold u
  rw [State.reg_setF_at _ _ _ _ hn, State.reg_setF_at _ _ _ _ hn, State.reg_setF_at _ _ _ _ hn]

/-- What a port's block does when its clock stops leaves the registers of the timing block alone. -/
theorem State.reg_stopBlock : (s.stopBlock d).reg a = s.reg a := by
  unfold State.stopBlock
  split
  next hd => exact State.reg_dylDown_far _ _ ha (by omega)
  split
  next hd => exact State.reg_cxpLoss_far _ _ ha (by omega)
  split
  next hd =>
    split
    · rfl
    · exact State.reg_portDown_far _ _ ha (by omega)
  · rfl

end

section
variable (s : State) (d : Nat)

/-- A stopped domain's registers, before its block is held or refuses (R684). -/
def State.stopped : State :=
  let s := (s.setF (TDC_DOM_STATUS.STATE d) 2).bump (TDC_DOM_STATUS.STOPS d) 1
  let s := s.setFlag (TDC_DOM_STATUS.STOP_SEEN d) true
  if d = dZEN then { s with zenLost := true } else if d = dDSK then s.setFlag TDC_OSC.DSK_ON_Z true else s

theorem State.f_zenLost (s : State) (b : Bool) (q : FRef) : State.f { s with zenLost := b } q = s.f q := rfl

/-- A field of the domain's own registers after the stop is as its status was set. -/
theorem State.f_stopped {q : FRef} (h : q.off ≠ TDC_OSC.at) : (s.stopped d).f q =
    (((s.setF (TDC_DOM_STATUS.STATE d) 2).bump (TDC_DOM_STATUS.STOPS d) 1).setFlag (TDC_DOM_STATUS.STOP_SEEN d) true).f q := by
  unfold State.stopped
  extract_lets u v
  split
  · exact State.f_zenLost _ _ _
  split
  · exact State.f_of_reg (State.reg_setFlag_at _ _ _ h)
  · rfl

theorem State.domState_stopped : (s.stopped d).domState d = 2 := by
  rw [State.domState, State.f_stopped s d (by simp only [TDC_DOM_STATUS.STATE, TDC_DOM_STATUS.at, TDC_OSC.at]; omega),
    State.setFlag, State.bump]
  simp (disch := (simp only [TDC_DOM_STATUS.STATE, TDC_DOM_STATUS.STOPS, TDC_DOM_STATUS.STOP_SEEN]; omega)) only
    [State.f_setF_other, State.f_setF_self]
  rfl

theorem State.stops_stopped : (s.stopped d).f (TDC_DOM_STATUS.STOPS d) = (s.f (TDC_DOM_STATUS.STOPS d) + 1) % 2 ^ 16 := by
  rw [State.f_stopped s d (by simp only [TDC_DOM_STATUS.STOPS, TDC_DOM_STATUS.at, TDC_OSC.at]; omega),
    State.setFlag, State.bump]
  simp (disch := (simp only [TDC_DOM_STATUS.STATE, TDC_DOM_STATUS.STOPS, TDC_DOM_STATUS.STOP_SEEN]; omega)) only
    [State.f_setF_other, State.f_setF_self]
  rfl

theorem State.scm_stopped (hd : d < 60) : (s.stopped d).flag (TDC_DOM_CTL.SCM d) = s.flag (TDC_DOM_CTL.SCM d) := by
  refine State.flag_of_f ?_
  have hn : (TDC_DOM_CTL.SCM d).off ≠ TDC_DOM_STATUS.at d := by simp only [TDC_DOM_CTL.SCM, TDC_DOM_CTL.at, TDC_DOM_STATUS.at]; omega
  rw [State.f_stopped s d (by simp only [TDC_DOM_CTL.SCM, TDC_DOM_CTL.at, TDC_OSC.at]; omega)]
  refine State.f_of_reg ?_
  rw [State.reg_setFlag_at _ _ _ hn, State.reg_bump_at _ _ _ hn, State.reg_setF_at _ _ _ _ hn]

theorem State.zenLost_stopped (h : d = dZEN) : (s.stopped d).zenLost = true := by
  unfold State.stopped
  extract_lets u v
  rw [if_pos h]

theorem State.dskOnZ_stopped (h : d = dDSK) : (s.stopped d).flag TDC_OSC.DSK_ON_Z = true := by
  unfold State.stopped
  extract_lets u v
  rw [if_neg (by rw [h]; decide), if_pos h]
  exact State.flag_setFlag_self _ _ _ (by show 5 < 64; decide) (by show 5 ≤ 5; decide)

/-- An oscillator's failure changes its own register alone. -/
theorem State.f_oscFail {q : FRef} (h : q.off ≠ TDC_OSC.at) : (s.oscFail d).f q = s.f q := by
  unfold State.oscFail
  split
  · exact State.f_of_reg (State.reg_setF_at _ _ _ _ h)
  · rfl

theorem State.byDesign_oscFail (hd : d < 60) : (s.oscFail d).byDesign d = s.byDesign d := by
  unfold State.byDesign State.opticsOn
  rw [State.flag_of_f (State.f_oscFail s d (q := DYL_PORT_CTL.DISABLE (d - 32)) (by
      simp only [DYL_PORT_CTL.DISABLE, DYL_PORT_CTL.at, TDC_OSC.at]; omega)),
    State.flag_of_f (State.f_oscFail s d (q := XWF_PORT_CTL.DISABLE (d - 39)) (by
      simp only [XWF_PORT_CTL.DISABLE, XWF_PORT_CTL.at, TDC_OSC.at]; omega)),
    State.f_oscFail s d (q := PWR_DOM_STATUS.STATE 29) (by
      simp only [PWR_DOM_STATUS.STATE, PWR_DOM_STATUS.at, TDC_OSC.at]; omega)]

end

/-- Settles O55: the fields that a stop, a return and a resynchronisation leave in a domain's register, and the numbers of
a COUNT crossing. That HELD is set at the stop and that a destination samples only while it runs is the model's choice,
log entry 57, and so is the bus error of a command that a resynchronisation discards, log entry 54. -/
theorem domainsStopAndReturn : Obligations.DomainsStopAndReturn := by
  unfold Obligations.DomainsStopAndReturn
  refine ⟨?_, ?_⟩
  · intro s d events job c n hd
    obtain ⟨z, hz⟩ : ∃ z, z = (if s.domRuns d then (c.produce events).sample else c.produce events) := ⟨_, rfl⟩
    refine ⟨{ s with cross := SMap.put Cross.zero s.cross (2 * d + job.toNat) z }, ?_, ?_, ?_, ?_⟩
    · rw [hz]
      exact if_pos hd
    · rw [State.crossing_put, if_pos rfl, hz]
      split <;> rfl
    · intro hb
      obtain ⟨h1, h2⟩ := c.behind_produce events hb
      rw [State.crossing_put, if_pos rfl]
      refine ⟨?_, fun hr => ?_, fun hr => ?_⟩
      · rw [hz]
        split
        · rw [Cross.behind_sample]
          decide
        · exact h2
      · rw [hz, if_pos hr]
        refine ⟨rfl, ?_⟩
        show c.total + BitVec.ofNat 64 (c.produce events).behind = _
        rw [h1]
      · rw [hz, if_neg (ne_true_of_eq_false hr)]
        exact ⟨rfl, rfl, h1⟩
    · intro e k hk
      rw [State.crossing_put, if_neg hk]
  · intro s d osc by_ x hd
    have hbx : s.byDesign d = false → x.byDesign d = false := fun hb => by
      unfold x
      split
      · rw [State.byDesign_oscFail _ _ hd, hb]
      · exact hb
    have hsx : x.f (TDC_DOM_STATUS.STOPS d) = s.f (TDC_DOM_STATUS.STOPS d) := by
      unfold x
      split
      · exact State.f_oscFail _ _ (by simp only [TDC_DOM_STATUS.STOPS, TDC_DOM_STATUS.at, TDC_OSC.at]; omega)
      · rfl
    refine ⟨fun hs => ⟨fun hb ho => ?_, fun hb => ⟨?_, fun hm => ?_, fun hm => ?_⟩⟩, fun hs => ?_, fun hs ho => ?_,
      fun ha hs => ?_, fun hs h => ?_, fun hs h1 h2 => ?_⟩
    · subst ho
      exact (if_pos ⟨hd, hs⟩).trans (if_pos hb)
    · exact hbx hb
    · have hx : x.byDesign d = false := hbx hb
      have he : exec (.domainStopped d osc) s = .next ((x.stopped d).setFlag (TDC_DOM_STATUS.HELD d) true) :=
        (if_pos ⟨hd, hs⟩).trans ((if_neg (ne_true_of_eq_false hx)).trans (if_pos ((x.scm_stopped d hd).trans hm)))
      have hds : ((x.stopped d).setFlag (TDC_DOM_STATUS.HELD d) true).domState d = 2 :=
        (State.f_setFlag_apart _ _ (by decide)).trans (x.domState_stopped d)
      refine ⟨_, he, hds, ?_, State.flag_setFlag_self _ _ _ (by show 1 < 64; decide) (by show 1 ≤ 1; decide), ?_, fun h => ?_⟩
      · rw [← hsx]
        exact (State.f_setFlag_apart _ _ (by decide)).trans (x.stops_stopped d)
      · have hscm : ((x.stopped d).setFlag (TDC_DOM_STATUS.HELD d) true).flag (TDC_DOM_CTL.SCM d) = true := by
          rw [State.flag_setFlag_away _ _ (by
            simp only [TDC_DOM_CTL.SCM, TDC_DOM_CTL.at, TDC_DOM_STATUS.HELD, TDC_DOM_STATUS.at]; omega), x.scm_stopped d hd, hm]
        unfold State.domWaits
        rw [hds, hscm]
        rfl
      · rw [State.zenLost_setFlag]
        exact x.zenLost_stopped d h
    · have hx : x.byDesign d = false := hbx hb
      have he : exec (.domainStopped d osc) s = .next ((x.stopped d).stopBlock d) :=
        (if_pos ⟨hd, hs⟩).trans ((if_neg (ne_true_of_eq_false hx)).trans
          (if_neg (ne_true_of_eq_false ((x.scm_stopped d hd).trans hm))))
      have hf : ∀ q : FRef, 0x8000000 ≤ q.off → ((x.stopped d).stopBlock d).f q = (x.stopped d).f q :=
        fun q hq => State.f_of_reg (State.reg_stopBlock _ d hq)
      have h0 : 0x8000000 ≤ TDC_DOM_STATUS.at d := by simp only [TDC_DOM_STATUS.at]; omega
      have hds : ((x.stopped d).stopBlock d).domState d = 2 := (hf _ h0).trans (x.domState_stopped d)
      refine ⟨_, he, hds, ?_, ?_, fun h => ?_⟩
      · have hscm : ((x.stopped d).stopBlock d).flag (TDC_DOM_CTL.SCM d) = false := by
          rw [State.flag_of_f (hf _ (by simp only [TDC_DOM_CTL.SCM, TDC_DOM_CTL.at]; omega)), x.scm_stopped d hd, hm]
        unfold State.domRefuses
        rw [hds, hscm]
        rfl
      · rw [← hsx]
        exact (hf _ h0).trans (x.stops_stopped d)
      · rw [State.flag_of_f (hf _ (by decide))]
        exact x.dskOnZ_stopped d h
    · refine ⟨_, if_pos ⟨hd, hs⟩, ?_, State.flag_setFlag_self _ _ _ (by show 1 < 64; decide) (by show 1 ≤ 1; decide)⟩
      exact (State.f_setFlag_apart _ _ (by decide)).trans
        (State.f_setF_self _ _ _ (by show 7 < 64; decide) (by show 4 ≤ 7; decide))
    · subst ho
      refine ⟨_, if_pos ⟨hd, hs⟩, ?_, State.flag_setFlag_self _ _ _ (by show 3 < 64; decide) (by show 3 ≤ 3; decide)⟩
      exact (congrArg (· == 0) (State.f_setFlag_apart _ _ (by decide))).trans hs
    · refine ⟨_, congrArg Host.Outcome.next ((if_pos ⟨ha, hd⟩).trans (if_pos hs)), ?_, rfl⟩
      exact State.f_setF_self _ _ _ (by show 7 < 64; decide) (by show 4 ≤ 7; decide)
    · exact (if_pos ⟨hd, hs⟩).trans (congrArg Host.Outcome.next (if_neg (by omega)))
    · exact (if_pos ⟨hd, hs⟩).trans (congrArg Host.Outcome.next (if_pos ⟨h1, h2⟩))

end Sys2Proof.Machine

/-! PROOFS. Voltages, domains, samples and phases (R697 - R715, R752 - R754). -/
namespace Sys2Proof.Machine

/-! ## Voltages of domains -/

section
variable (s : State) {a : Nat}

theorem State.reg_setVolt (d : Nat) (h : a ≠ PWR_DOM_STATUS.at d) : (s.setVolt d).reg a = s.reg a := by
  unfold State.setVolt
  split
  · rw [State.reg_setF_at _ _ _ _ h, State.reg_setF_at _ _ _ _ h]
  split
  · exact State.reg_setF_at _ _ _ _ h
  · rfl

/-- Where the domains' registers lie not (R698). -/
def offDoms (a : Nat) : Prop := ∀ d, d < 30 → a ≠ PWR_DOM_STATUS.at d

theorem State.reg_setVolts (h : offDoms a) (l : List Nat) (hl : ∀ d ∈ l, d < 30) :
    ∀ s : State, (l.foldl State.setVolt s).reg a = s.reg a := by
  induction l with
  | nil => exact fun _ => rfl
  | cons d l ih =>
    intro s
    rw [List.foldl_cons, ih fun e he => hl e (List.mem_cons_of_mem _ he), State.reg_setVolt _ _ (h d (hl d List.mem_cons_self))]

theorem State.reg_setVC (v : Nat) (h : offDoms a) : (s.setVC v).reg a = (s.setF TMD_STATUS.V_C v).reg a :=
  State.reg_setVolts h _ (fun d hd => by have := List.mem_range.1 hd; omega) _

theorem State.reg_setVN {n : Nat} (v : Nat) (hn : n < 16) (h : offDoms a) :
    (s.setVN n v).reg a = (s.setF (TMD_STK.V_N n) v).reg a := State.reg_setVolt _ _ (h _ (by omega))

theorem offDoms_tmd (h : 0x810000 ≤ a) : offDoms a := fun d hd => by
  simp only [PWR_DOM_STATUS.at]
  omega

theorem offDoms_low (h : a < 0x800100) : offDoms a := fun d hd => by
  simp only [PWR_DOM_STATUS.at]
  omega

theorem State.f_throttleRec {q : FRef} (i v k : Nat) (h : 0x5000 ≤ q.off) : (s.throttleRec i v k).f q = s.f q :=
  State.f_erq _ _ _ h

theorem State.f_limitRec {q : FRef} (h : 0x5000 ≤ q.off) : s.limitRec.f q = s.f q := State.f_erq _ _ _ h

theorem State.vc_setVC {v : Nat} (h : v < 2 ^ 10) : (s.setVC v).f TMD_STATUS.V_C = v := by
  rw [State.f_of_reg (State.reg_setVC s v (offDoms_tmd (by decide))),
    State.f_setF_self _ _ _ (by show 59 < 64; decide) (by show 50 ≤ 59; decide)]
  exact Nat.mod_eq_of_lt h

theorem State.ceilC_lt : s.ceilC < 2 ^ 10 := by
  have h := s.f_lt TMD_CTL.VMAX_C
  unfold State.ceilC
  refine Nat.max_lt.2 ⟨by decide, Nat.lt_of_le_of_lt (Nat.sub_le _ _) h⟩

theorem State.ceilV_lt (n : Nat) : s.ceilV n < 2 ^ 10 :=
  Nat.lt_of_le_of_lt (Nat.min_le_left _ _) (s.f_lt TMD_CTL.VMAX_V)

/-! ## The round (R706, R708) -/

theorem State.nextVC_vmaxEff (v : Nat) : (s.setF ZEN_PHASE_CAP.VMAX_EFF v).nextVC = s.nextVC := by
  have hf : ∀ q : FRef, q.off ≠ ZEN_PHASE_CAP.at ∨ q.hi < 32 → (s.setF ZEN_PHASE_CAP.VMAX_EFF v).f q = s.f q := fun q hq =>
    State.f_setF_other _ _ _ _ (by show 41 < 64; decide) (by show 32 ≤ 41; decide) (hq.imp_right fun h => .inl h)
  unfold State.nextVC State.overC State.ceilC
  rw [hf TMD_STATUS.V_C (.inl (by decide)), hf PWR_CAP.CAP_W (.inl (by decide)), hf ZEN_PHASE_CAP.PH_CAP_W (.inr (by decide)),
    hf PWR_IN.P_ROUND (.inl (by decide)), hf TMD_CTL.TJ_MAX_C (.inl (by decide)), hf TMD_CTL.VMAX_C (.inl (by decide)),
    hf ZEN_PHASE.VC_LIVE (.inl (by decide)), State.nodes_setF]

theorem State.nextVC_lt : s.nextVC < 2 ^ 10 := Nat.lt_of_le_of_lt (Nat.min_le_right _ _) s.ceilC_lt

/-- A round sets V_C to what R706 gives. -/
theorem State.vc_throttleC : s.throttleC.f TMD_STATUS.V_C = s.nextVC := by
  unfold State.throttleC
  extract_lets u v w k x y z
  have hw : w = s.nextVC := s.nextVC_vmaxEff _
  have hz : z.f TMD_STATUS.V_C = w := State.vc_setVC y (by rw [hw]; exact s.nextVC_lt)
  rw [← hw]
  split
  · exact (State.f_throttleRec _ _ _ _ (by decide)).trans hz
  · exact hz

theorem State.nextVC_eq : s.nextVC = min s.ceilC
    (if s.f PWR_IN.P_ROUND > min (s.f PWR_CAP.CAP_W) (s.f ZEN_PHASE_CAP.PH_CAP_W) ∨
        (tempC (s.f TMD_CTL.TJ_MAX_C)).lt (hottest (s.nodes.take 13)) = true then max (s.f TMD_STATUS.V_C - 10) 600
      else if s.f PWR_IN.P_ROUND + 50 < min (s.f PWR_CAP.CAP_W) (s.f ZEN_PHASE_CAP.PH_CAP_W) ∧
        (hottest (s.nodes.take 13)).lt (tempC ((s.f TMD_CTL.TJ_MAX_C : Int) - 2)) = true ∧ s.f TMD_STATUS.V_C < s.ceilC then
        s.f TMD_STATUS.V_C + 10
      else s.f TMD_STATUS.V_C) := by
  unfold State.nextVC
  refine (Nat.min_comm _ _).trans (congrArg (min s.ceilC) (if_congr ?_ rfl rfl))
  unfold State.overC
  rw [Bool.or_eq_true, decide_eq_true_eq]

/-- A stack's registers as a round leaves them, before the record of the change (R708). -/
def State.stackSet (n why v duty : Nat) : State :=
  ((s.setF (TMD_STK.WHY n) why).setF (TMD_STK.DUTY n) duty).setVN n v

theorem State.f_stackSet {n why v duty : Nat} (hn : n < 16) (hv : v < 2 ^ 10) (hd : duty < 8) :
    (s.stackSet n why v duty).f (TMD_STK.V_N n) = v ∧ (s.stackSet n why v duty).f (TMD_STK.DUTY n) = duty := by
  unfold State.stackSet
  have ho : offDoms (TMD_STK.at n) := offDoms_tmd (by simp only [TMD_STK.at]; omega)
  constructor
  · rw [State.f_of_reg (State.reg_setVN _ v hn ho),
      State.f_setF_self _ _ _ (by show 41 < 64; decide) (by show 32 ≤ 41; decide)]
    exact Nat.mod_eq_of_lt hv
  · rw [State.f_of_reg (State.reg_setVN _ v hn ho),
      State.f_setF_other _ _ _ _ (by show 41 < 64; decide) (by show 32 ≤ 41; decide) (.inr (.inl (by show 2 < 32; decide))),
      State.f_setF_self _ _ _ (by show 2 < 64; decide) (by show 0 ≤ 2; decide)]
    exact Nat.mod_eq_of_lt hd

/-- V_n and DUTY that R708 gives, before the ceiling. -/
def State.nextStack (n : Nat) : Nat × Nat :=
  let hot := (tempC (s.f TMD_CTL.TJ_MAX_V)).lt (s.node32 (13 + n)) ||
    decide (s.signed (MSC_TEMP.TMAX n) > (s.f TMD_CTL.DRAM_TGT : Int))
  let cool := (s.node32 (13 + n)).lt (tempC ((s.f TMD_CTL.TJ_MAX_V : Int) - 2)) &&
    decide (s.signed (MSC_TEMP.TMAX n) < (s.f TMD_CTL.DRAM_TGT : Int) - 2)
  let v := s.f (TMD_STK.V_N n)
  let duty := s.f (TMD_STK.DUTY n)
  if hot then (if v > 600 then (v - 10, duty) else (v, min 4 (duty + 1)))
  else if cool then (if duty > 0 then (v, duty - 1) else if v < s.ceilV n then (v + 10, duty) else (v, duty))
  else (v, duty)

theorem State.throttleV_eq (n : Nat) : ∃ why i v k, s.throttleV n =
    let u := s.stackSet n why (min (s.nextStack n).1 (s.ceilV n)) (s.nextStack n).2
    if (s.nextStack n).2 ≠ s.f (TMD_STK.DUTY n) then u.throttleRec i v k else u := ⟨_, _, _, _, rfl⟩

theorem State.nextStack_fst (n : Nat) : (s.nextStack n).1 =
    if ((tempC (s.f TMD_CTL.TJ_MAX_V)).lt (s.node32 (13 + n)) ||
        decide (s.signed (MSC_TEMP.TMAX n) > (s.f TMD_CTL.DRAM_TGT : Int))) = true then
      (if s.f (TMD_STK.V_N n) > 600 then s.f (TMD_STK.V_N n) - 10 else s.f (TMD_STK.V_N n))
    else if ((s.node32 (13 + n)).lt (tempC ((s.f TMD_CTL.TJ_MAX_V : Int) - 2)) &&
        decide (s.signed (MSC_TEMP.TMAX n) < (s.f TMD_CTL.DRAM_TGT : Int) - 2)) = true ∧ s.f (TMD_STK.DUTY n) = 0 ∧
          s.f (TMD_STK.V_N n) < s.ceilV n then s.f (TMD_STK.V_N n) + 10
    else s.f (TMD_STK.V_N n) := by
  unfold State.nextStack
  extract_lets hot cool v duty
  split
  · split <;> rfl
  split
  next hc =>
    split
    next hd => exact (if_neg fun h => absurd h.2.1 (by omega)).symm
    next hd =>
      split
      next hv => exact (if_pos ⟨hc, by omega, hv⟩).symm
      next hv => exact (if_neg fun h => hv h.2.2).symm
  next hc => exact (if_neg fun h => hc h.1).symm

theorem State.nextStack_snd (n : Nat) : (s.nextStack n).2 =
    if ((tempC (s.f TMD_CTL.TJ_MAX_V)).lt (s.node32 (13 + n)) ||
        decide (s.signed (MSC_TEMP.TMAX n) > (s.f TMD_CTL.DRAM_TGT : Int))) = true then
      (if s.f (TMD_STK.V_N n) > 600 then s.f (TMD_STK.DUTY n) else min 4 (s.f (TMD_STK.DUTY n) + 1))
    else if ((s.node32 (13 + n)).lt (tempC ((s.f TMD_CTL.TJ_MAX_V : Int) - 2)) &&
        decide (s.signed (MSC_TEMP.TMAX n) < (s.f TMD_CTL.DRAM_TGT : Int) - 2)) = true then s.f (TMD_STK.DUTY n) - 1
    else s.f (TMD_STK.DUTY n) := by
  unfold State.nextStack
  extract_lets hot cool v duty
  split
  · split <;> rfl
  split
  next hc =>
    split
    next hd => rfl
    next hd =>
      have h0 : duty = 0 := by omega
      split
      · exact h0.trans (by show 0 = duty - 1; omega)
      · exact h0.trans (by show 0 = duty - 1; omega)
  next hc => rfl

theorem State.f_throttleV {n : Nat} (hn : n < 16) (hd : s.f (TMD_STK.DUTY n) ≤ 4) :
    (s.throttleV n).f (TMD_STK.V_N n) = min (s.ceilV n) (s.nextStack n).1 ∧
      (s.throttleV n).f (TMD_STK.DUTY n) = (s.nextStack n).2 := by
  obtain ⟨why, i, v, k, e⟩ := s.throttleV_eq n
  have hd2 : (s.nextStack n).2 < 8 := by
    rw [State.nextStack_snd]
    split
    · split <;> omega
    split <;> omega
  obtain ⟨h1, h2⟩ := s.f_stackSet (why := why) hn (Nat.lt_of_le_of_lt (Nat.min_le_right (s.nextStack n).1 _) (s.ceilV_lt n)) hd2
  have h0 : 0x5000 ≤ TMD_STK.at n := by simp only [TMD_STK.at]; omega
  have h1 := h1.trans (Nat.min_comm _ _)
  rw [e]
  dsimp only
  split
  · exact ⟨(State.f_throttleRec (q := TMD_STK.V_N n) _ _ _ _ h0).trans h1,
      (State.f_throttleRec (q := TMD_STK.DUTY n) _ _ _ _ h0).trans h2⟩
  · exact ⟨h1, h2⟩

/-! ## Peaks (R707) -/

theorem peakResponse_lowers (p10 : Nat) (hp : s.pgood = true) (h : p10 > s.f ZEN_PHASE_CAP.PH_PEAK_W) :
    ∃ t, exec (.peakResponse p10) s = .next t ∧ t.f TMD_STATUS.V_C = max 600 (s.f TMD_STATUS.V_C - 50) ∧
      t.f PWR_CAP.PEAKS = (s.f PWR_CAP.PEAKS + 1) % 2 ^ 16 := by
  obtain ⟨u, hu⟩ : ∃ u, u = (s.setF PWR_IN.P_10US p10).bump PWR_CAP.PEAKS 1 := ⟨_, rfl⟩
  have hv : u.f TMD_STATUS.V_C = s.f TMD_STATUS.V_C := by
    rw [hu, State.f_of_reg ((State.reg_bump_at _ _ _ (by decide)).trans (State.reg_setF_at _ _ _ _ (by decide)))]
  have hpk : u.f PWR_CAP.PEAKS = (s.f PWR_CAP.PEAKS + 1) % 2 ^ 16 := by
    rw [hu, State.bump, State.f_setF_self _ _ _ (by show 31 < 64; decide) (by show 16 ≤ 31; decide),
      State.f_of_reg (q := PWR_CAP.PEAKS) (State.reg_setF_at s PWR_IN.P_10US p10 PWR_CAP.at (by decide))]
    rfl
  obtain ⟨w, hw⟩ : ∃ w, w = u.setVC (max 600 (u.f TMD_STATUS.V_C - 50)) := ⟨_, rfl⟩
  have hlt := s.f_lt TMD_STATUS.V_C
  have hwv : w.f TMD_STATUS.V_C = max 600 (s.f TMD_STATUS.V_C - 50) := by
    rw [hw, hv]
    exact u.vc_setVC (Nat.max_lt.2 ⟨by decide, Nat.lt_of_le_of_lt (Nat.sub_le _ _) hlt⟩)
  have hwp : w.f PWR_CAP.PEAKS = (s.f PWR_CAP.PEAKS + 1) % 2 ^ 16 := by
    rw [hw, State.f_of_reg ((State.reg_setVC u _ (offDoms_low (by decide))).trans (State.reg_setF_at _ _ _ _ (by decide))), hpk]
  obtain ⟨x, hx⟩ : ∃ x, x = (if w.f TMD_STATUS.V_C = 600 ∧ u.f TMD_STATUS.V_C ≠ 600 then w.throttleRec 0 600 0 else w) := ⟨_, rfl⟩
  have hxf : ∀ q : FRef, 0x5000 ≤ q.off → x.f q = w.f q := fun q hq => by
    rw [hx]
    split
    · exact State.f_throttleRec _ _ _ _ hq
    · rfl
  refine ⟨x.erq ⟨0xC1, 0, bPWR, 0, none, 0, BitVec.ofNat 64 (p10 % 2 ^ 16)⟩, ?_, ?_, ?_⟩
  · rw [hx, hw, hu]
    exact if_pos ⟨h, hp⟩
  · exact (State.f_erq _ _ _ (by decide)).trans ((hxf _ (by decide)).trans hwv)
  · exact (State.f_erq _ _ _ (by decide)).trans ((hxf _ (by decide)).trans hwp)

end

end Sys2Proof.Machine

/-! PROOFS. Trips, samples, switched domains and phases (R697 - R701, R711, R752 - R754). -/
namespace Sys2Proof.Machine

section
variable (s : State) {a : Nat}

/-! ## What shows that a domain is off -/

theorem State.reg_showOff (d : Nat) (off : Bool) (h : a < 0x1000000) : (s.showOff d off).reg a = s.reg a := by
  unfold State.showOff
  split
  · refine foldl_keeps (State.reg · a) _ (fun x i => State.reg_setFlag_at _ _ _ ?_) _ _
    simp only [ANV_STATUS.GROUP_OFF, ANV_STATUS.at]
    omega
  split
  · refine State.reg_setFlag_at _ _ _ ?_
    simp only [VRG_STATUS.DOMAIN_OFF, VRG_STATUS.at]
    omega
  · rfl

theorem State.groupOff_fold (g : Nat) (off : Bool) (l : List Nat) : ∀ (s : State) (i : Nat),
    (l.foldl (fun s i => s.setFlag (ANV_STATUS.GROUP_OFF (25 * g + i)) off) s).flag (ANV_STATUS.GROUP_OFF (25 * g + i)) =
      if i ∈ l then off else s.flag (ANV_STATUS.GROUP_OFF (25 * g + i)) := by
  induction l with
  | nil => exact fun _ _ => rfl
  | cons k l ih =>
    intro s i
    rw [List.foldl_cons, ih]
    by_cases hi : i ∈ l
    · rw [if_pos hi, if_pos (List.mem_cons_of_mem _ hi)]
    · rw [if_neg hi]
      by_cases hk : i = k
      · rw [hk, if_pos List.mem_cons_self]
        exact State.flag_setFlag_self _ _ _ (by show 13 < 64; decide) (by show 13 ≤ 13; decide)
      · rw [if_neg (by simp [hk, hi]), State.flag_setFlag_away _ _ (by simp only [ANV_STATUS.GROUP_OFF, ANV_STATUS.at]; omega)]

theorem State.groupOff_showOff {g i : Nat} (hg : g < 8) (hi : i < 25) (off : Bool) :
    (s.showOff g off).flag (ANV_STATUS.GROUP_OFF (25 * g + i)) = off := by
  unfold State.showOff
  rw [if_pos hg, State.groupOff_fold, if_pos (List.mem_range.2 hi)]

theorem State.domainOff_showOff {d : Nat} (h1 : 13 ≤ d) (h2 : d < 29) (off : Bool) :
    (s.showOff d off).flag (VRG_STATUS.DOMAIN_OFF (d - 13)) = off := by
  unfold State.showOff
  rw [if_neg (by omega), if_pos ⟨h1, h2⟩]
  exact State.flag_setFlag_self _ _ _ (by show 1 < 64; decide) (by show 1 ≤ 1; decide)

/-! ## Switching -/

theorem State.powState_powerOff {d : Nat} (hd : d < 30) : (s.powerOff d).powState d = 0 := by
  unfold State.powerOff State.powState
  rw [State.f_of_reg (State.reg_showOff _ d true (by simp only [PWR_DOM_STATUS.STATE, PWR_DOM_STATUS.at]; omega))]
  unfold State.f
  show fld ((s.setReg (PWR_DOM_STATUS.at d) 0#64).reg (PWR_DOM_STATUS.at d)) 63 62 = 0
  rw [State.reg_setReg_self]
  rfl

/-- A domain that comes on takes its voltage (R699). -/
theorem State.f_powerOn {d : Nat} (hd : d < 30) : (s.powerOn d).powState d = 2 ∧
    (s.powerOn d).f (PWR_DOM_STATUS.VOLT d) = s.domVolt d := by
  obtain ⟨u, hu⟩ : ∃ u, u = s.setF (PWR_DOM_STATUS.STATE d) 2 := ⟨_, rfl⟩
  have hst : u.powState d = 2 := by
    rw [hu]
    exact State.f_setF_self _ _ _ (by show 63 < 64; decide) (by show 62 ≤ 63; decide)
  have hv : u.domVolt d = s.domVolt d := by
    have hf : ∀ q : FRef, 0x810000 ≤ q.off → u.f q = s.f q := fun q hq => by
      rw [hu]
      refine State.f_of_reg (State.reg_setF_at _ _ _ _ ?_)
      simp only [PWR_DOM_STATUS.STATE, PWR_DOM_STATUS.at]
      omega
    unfold State.domVolt
    rw [hf TMD_STATUS.V_C (by decide), hf (TMD_STK.V_N (d - 13)) (by simp only [TMD_STK.V_N, TMD_STK.at]; omega)]
  have hlt : s.domVolt d < 2 ^ 10 := by
    unfold State.domVolt
    split
    · exact s.f_lt TMD_STATUS.V_C
    split
    · exact s.f_lt (TMD_STK.V_N (d - 13))
    · decide
  have he : s.powerOn d = ((u.setF (PWR_DOM_STATUS.VOLT d) (u.domVolt d)).setF (PWR_DOM_STATUS.TARGET d) (u.domVolt d)).showOff
      d false := by
    have h2 : u.powOn d = true := by
      unfold State.powOn
      rw [hst]
      rfl
    unfold State.powerOn State.setVolt
    rw [← hu, if_pos h2]
  have h0 : PWR_DOM_STATUS.at d < 0x1000000 := by simp only [PWR_DOM_STATUS.at]; omega
  rw [he, hv]
  constructor
  · rw [State.powState, State.f_of_reg (State.reg_showOff _ d false h0)]
    rw [State.f_setF_other _ _ _ _ (by show 37 < 64; decide) (by show 28 ≤ 37; decide) (.inr (.inr (by show 37 < 62; decide))),
      State.f_setF_other _ _ _ _ (by show 47 < 64; decide) (by show 38 ≤ 47; decide) (.inr (.inr (by show 47 < 62; decide)))]
    exact hst
  · rw [State.f_of_reg (State.reg_showOff _ d false h0),
      State.f_setF_other _ _ _ _ (by show 37 < 64; decide) (by show 28 ≤ 37; decide) (.inr (.inr (by show 37 < 38; decide))),
      State.f_setF_self _ _ _ (by show 47 < 64; decide) (by show 38 ≤ 47; decide)]
    exact Nat.mod_eq_of_lt hlt

/-! ## Samples (R701) -/

theorem State.sampleQ_askSample (d : Nat) : (s.askSample d).sampleQ = s.sampleQ ++ [d] := rfl

theorem State.f_sampleQ (s : State) (l : List Nat) (q : FRef) : State.f { s with sampleQ := l } q = s.f q := rfl

theorem pwrSampleGo_asks {by_ : Agent} {dom : BitVec 5} (ha : s.accepts by_ PWR_SAMPLE.at = true) (hd : dom.toNat ≤ 29) :
    ∃ t, exec (.pwrSampleGo by_ dom) s = .next t ∧ t.sampleQ = s.sampleQ ++ [dom.toNat] ∧
      t.flag PWR_SAMPLE.BUSY = true ∧ t.f PWR_SAMPLE.DOM = dom.toNat := by
  have hm : min 29 dom.toNat = dom.toNat := by omega
  refine ⟨(s.setF PWR_SAMPLE.DOM dom.toNat).askSample dom.toNat, ?_, ?_, ?_, ?_⟩
  · refine (if_neg (by rw [ha]; decide)).trans ?_
    show Host.Outcome.next ((s.setF PWR_SAMPLE.DOM (min 29 dom.toNat)).askSample (min 29 dom.toNat)) = _
    rw [hm]
  · rw [State.sampleQ_askSample, State.sampleQ_setF]
  · exact State.flag_setFlag_self _ _ _ (by decide) (by decide)
  · refine (State.f_setFlag_apart _ _ (by decide)).trans ((State.f_sampleQ _ _ _).trans
      ((State.f_setF_self _ _ _ (by decide) (by decide)).trans (Nat.mod_eq_of_lt ?_)))
    exact dom.isLt

theorem sampleDone_shows {power d : Nat} {rest : List Nat} (hq : s.sampleQ = d :: rest) (hd : d < 30) :
    ∃ t, exec (.sampleDone power) s = .next t ∧ t.sampleQ = rest ∧ t.flag PWR_SAMPLE.BUSY = !rest.isEmpty ∧
      t.f (PWR_DOM_STATUS.POWER d) = if s.f (PWR_DOM_STATUS.STATE d) = 2 then power % 2 ^ 16 else 0 := by
  obtain ⟨u, hu⟩ : ∃ u, u = s.setF (PWR_DOM_STATUS.POWER d) (if s.powOn d then power else 0) := ⟨_, rfl⟩
  refine ⟨State.setFlag { u with sampleQ := rest } PWR_SAMPLE.BUSY (!rest.isEmpty), ?_, rfl,
    State.flag_setFlag_self _ _ _ (by decide) (by decide), ?_⟩
  · show execSampleDone power s = _
    unfold execSampleDone
    rw [hq, hu]
  · refine (State.f_setFlag_away _ _ (by simp only [PWR_DOM_STATUS.POWER, PWR_DOM_STATUS.at, PWR_SAMPLE.BUSY, PWR_SAMPLE.at]; omega)).trans
      ((State.f_sampleQ _ _ _).trans ?_)
    rw [hu, State.f_setF_self _ _ _ (by show 15 < 64; decide) (by show 0 ≤ 15; decide)]
    have hp : s.powOn d = true ↔ s.f (PWR_DOM_STATUS.STATE d) = 2 := beq_iff_eq
    by_cases h : s.powOn d = true
    · rw [if_pos h, if_pos (hp.1 h)]
      rfl
    · rw [if_neg h, if_neg fun e => h (hp.2 e)]
      rfl

/-! ## Phases (R752 - R754) -/

theorem State.mem_svcDue_due (k n : Nat) : (k, n) ∈ (s.due k n).svcDue ∨ (s.due k n).svc = some (k, n) := by
  unfold State.due
  split
  next h =>
    rw [List.contains_iff_mem] at h
    exact h
  · exact .inl (List.mem_append_right _ List.mem_cons_self)

/-- The rail's count and its stack's voltage after a phase of it is shed (R754). -/
def State.vrgShed (n : Nat) : State :=
  let u := (s.setFlag ZEN_ALERT.PHASE true).setF ⟨ZEN_PHASE.at, 3 * n + 2, 3 * n⟩ (s.vrgLive n - 1)
  u.setVN n (min (u.f (TMD_STK.V_N n)) (u.ceilV n))

theorem State.vrgLive_vrgShed {n : Nat} (hn : n < 16) (hl : s.vrgLive n ≤ 8) :
    (s.vrgShed n).vrgLive n = s.vrgLive n - 1 := by
  unfold State.vrgShed
  extract_lets u
  rw [State.vrgLive, State.f_of_reg ((State.reg_setVN u _ hn (offDoms_low (by show 0x4010 < 0x800100; decide))).trans
      (State.reg_setF_at _ _ _ _ (by simp only [TMD_STK.V_N, TMD_STK.at, ZEN_PHASE.at]; omega)))]
  unfold u
  rw [State.f_setF_self _ _ _ (by show 3 * n + 2 < 64; omega) (by show 3 * n ≤ 3 * n + 2; omega)]
  show (s.vrgLive n - 1) % 2 ^ (3 * n + 2 + 1 - 3 * n) = _
  rw [show 3 * n + 2 + 1 - 3 * n = 3 by omega]
  exact Nat.mod_eq_of_lt (by omega)

theorem State.mode_vrgShed {n : Nat} (hn : n < 16) : (s.vrgShed n).f (VRG_ID.MODE n) = s.f (VRG_ID.MODE n) := by
  unfold State.vrgShed
  extract_lets u
  have h1 : VRG_ID.at n ≠ (TMD_STK.V_N n).off := by simp only [TMD_STK.V_N, TMD_STK.at, VRG_ID.at]; omega
  have h2 : VRG_ID.at n ≠ ZEN_PHASE.at := by simp only [ZEN_PHASE.at, VRG_ID.at]; omega
  have h3 : VRG_ID.at n ≠ ZEN_ALERT.PHASE.off := by simp only [ZEN_ALERT.PHASE, ZEN_ALERT.at, VRG_ID.at]; omega
  refine State.f_of_reg ((State.reg_setVN u _ hn (offDoms_tmd (by simp only [VRG_ID.MODE, VRG_ID.at]; omega))).trans
    ((State.reg_setF_at _ _ _ _ h1).trans ?_))
  unfold u
  exact (State.reg_setF_at _ _ _ _ h2).trans (State.reg_setFlag_at _ _ _ h3)

/-- The stack's voltage lies at or below the ceiling of the phases that are left (R754). -/
theorem State.vn_vrgShed {n : Nat} (hn : n < 16) (hl : s.vrgLive n ≤ 8) :
    (s.vrgLive n = 3 → (s.vrgShed n).f (TMD_STK.V_N n) ≤ 650) ∧ (s.vrgLive n = 2 → (s.vrgShed n).f (TMD_STK.V_N n) ≤ 600) := by
  have hu : ((s.setFlag ZEN_ALERT.PHASE true).setF ⟨ZEN_PHASE.at, 3 * n + 2, 3 * n⟩ (s.vrgLive n - 1)).vrgLive n =
      s.vrgLive n - 1 := by
    rw [State.vrgLive, State.f_setF_self _ _ _ (by show 3 * n + 2 < 64; omega) (by show 3 * n ≤ 3 * n + 2; omega)]
    show (s.vrgLive n - 1) % 2 ^ (3 * n + 2 + 1 - 3 * n) = _
    rw [show 3 * n + 2 + 1 - 3 * n = 3 by omega]
    exact Nat.mod_eq_of_lt (by omega)
  have hv : (s.vrgShed n).f (TMD_STK.V_N n) ≤
      ((s.setFlag ZEN_ALERT.PHASE true).setF ⟨ZEN_PHASE.at, 3 * n + 2, 3 * n⟩ (s.vrgLive n - 1)).ceilV n := by
    unfold State.vrgShed
    extract_lets u
    rw [State.f_of_reg (State.reg_setVN u _ hn (offDoms_tmd (by simp only [TMD_STK.V_N, TMD_STK.at]; omega))),
      State.f_setF_self _ _ _ (by show 41 < 64; decide) (by show 32 ≤ 41; decide)]
    exact (Nat.mod_le _ _).trans (Nat.min_le_right _ _)
  constructor
  · intro h
    refine hv.trans ((Nat.min_le_right _ _).trans ?_)
    rw [hu, h]
    decide
  · intro h
    refine hv.trans ((Nat.min_le_right _ _).trans ?_)
    rw [hu, h]
    decide

theorem State.f_svcDue (s : State) (l : List (Nat × Nat)) (q : FRef) : State.f { s with svcDue := l } q = s.f q := rfl

theorem State.f_due (k n : Nat) (q : FRef) : (s.due k n).f q = s.f q := by
  unfold State.due
  split
  · rfl
  · exact State.f_svcDue _ _ _

/-- A phase of a rail is shed. -/
theorem phaseShed_vrg {n : Nat} (hn : n < 16) (hl : s.vrgLive n ≠ 0) (hl8 : s.vrgLive n ≤ 8) (hm : s.f (VRG_ID.MODE n) = 0) :
    exec (.phaseShed (.vrg n)) s = .next (if s.vrgLive n = 2 then (s.vrgShed n).due 4 n
      else if s.vrgLive n = 1 then ((((s.vrgShed n).powerOff (13 + n)).setFlag (VRG_CTL.RETIRE n) true).setF
        (VRG_ID.MODE n) 1).vrgFault n
      else s.vrgShed n) := by
  have hm' := (s.mode_vrgShed hn).trans hm
  refine (if_neg (by omega)).trans ?_
  show (if s.vrgLive n - 1 = 1 ∧ (s.vrgShed n).f (VRG_ID.MODE n) = 0 then Host.Outcome.next ((s.vrgShed n).due 4 n)
    else if s.vrgLive n - 1 = 0 ∧ (s.vrgShed n).f (VRG_ID.MODE n) < 2 then Host.Outcome.next
      (((((s.vrgShed n).powerOff (13 + n)).setFlag (VRG_CTL.RETIRE n) true).setF (VRG_ID.MODE n) 1).vrgFault n)
    else Host.Outcome.next (s.vrgShed n)) = _
  rw [hm']
  by_cases h2 : s.vrgLive n = 2
  · rw [if_pos h2, if_pos ⟨by omega, rfl⟩]
  rw [if_neg h2, if_neg (by omega)]
  by_cases h1 : s.vrgLive n = 1
  · rw [if_pos h1, if_pos ⟨by omega, by decide⟩]
  rw [if_neg h1, if_neg (by omega)]

/-- The limits of the converters that are left (R752). -/
theorem State.f_busLimits {l : Nat} (h1 : 7 ≤ l) (h2 : l ≤ 10) (u : State) (hu : u.f ZEN_PHASE.BUS_LIVE = l - 1) :
    u.busLimits.f ZEN_PHASE.BUS_LIVE = l - 1 ∧ u.busLimits.f ZEN_PHASE_CAP.PH_CAP_W = min 3200 (400 * (l - 1) - 600) ∧
      u.busLimits.f ZEN_PHASE_CAP.PH_PEAK_W = min 3800 (400 * (l - 1) - 200) := by
  unfold State.busLimits
  extract_lets k
  have hk : k = l - 1 := hu
  rw [hk]
  refine ⟨?_, ?_, ?_⟩
  · exact (State.f_of_reg (q := ZEN_PHASE.BUS_LIVE) ((State.reg_setF_at _ ZEN_PHASE_CAP.PH_PEAK_W _ _ (by decide)).trans
      (State.reg_setF_at _ ZEN_PHASE_CAP.PH_CAP_W _ _ (by decide)))).trans hu
  · rw [State.f_setF_other _ _ _ _ (by show 31 < 64; decide) (by show 16 ≤ 31; decide) (.inr (.inl (by show 15 < 16; decide))),
      State.f_setF_self _ _ _ (by show 15 < 64; decide) (by show 0 ≤ 15; decide)]
    exact Nat.mod_eq_of_lt (Nat.lt_of_le_of_lt (Nat.min_le_left _ _) (by show 3200 < 2 ^ 16; decide))
  · rw [State.f_setF_self _ _ _ (by show 31 < 64; decide) (by show 16 ≤ 31; decide)]
    exact Nat.mod_eq_of_lt (Nat.lt_of_le_of_lt (Nat.min_le_left _ _) (by show 3800 < 2 ^ 16; decide))

end

/-- Settles O56: what a round, a peak, a switch and a shed phase leave in the registers of PWR and TMD. That every round
holds V_n and V_C below their ceilings, and so lowers them where VMAX was lowered, that VMAX_EFF shows the ceiling, and that
a trip for want of phases is cleared by a reset alone is the model's choice, log entry 56. -/
theorem powerIsHeldDown : Obligations.PowerIsHeldDown := by
  unfold Obligations.PowerIsHeldDown
  refine ⟨?_, ?_⟩
  · intro s r p10 n cap tc v pin jc tb jv tmax tgt vn duty hot cool
    refine ⟨fun hz hy => if_pos ⟨hz, hy⟩, s.vc_throttleC.trans s.nextVC_eq, fun hl hv => ?_, fun hn hd => ?_,
      fun hp h => peakResponse_lowers s p10 hp h⟩
    · unfold State.ceilC
      rw [hl]
      exact Nat.max_eq_right hv
    · obtain ⟨h1, h2⟩ := s.f_throttleV hn hd
      refine ⟨h1.trans (congrArg _ (s.nextStack_fst n)), h2.trans (s.nextStack_snd n), fun h => ?_, fun h => ?_⟩
      · refine (Nat.min_le_right _ _).trans ?_
        rw [h]
        decide
      · refine (Nat.min_le_right _ _).trans ?_
        rw [h]
        decide
  · intro s by_ dom d n power rest cool told l vc
    refine ⟨fun ha ht => ⟨fun hc hh => ?_, fun h => ?_⟩, fun ha hd => pwrSampleGo_asks s ha hd,
      fun hq hd => sampleDone_shows s hq hd, fun hd => ⟨fun hz hp hw hall => ?_, fun hp => ?_, fun hd8 hz hp hw hb => ?_⟩,
      fun h1 h2 => ?_, fun h1 h2 => ?_, fun h1 h2 => ?_, fun h1 => ?_, fun hn hm => ⟨fun h => ?_, fun h => ?_, fun h => ?_⟩⟩
    · exact congrArg Host.Outcome.next ((if_pos ha).trans (if_pos ⟨ht, by rw [hh]; rfl, hc⟩))
    · refine congrArg Host.Outcome.next ((if_pos ha).trans (if_neg ?_))
      rintro ⟨-, h1, h2⟩
      rcases h with h | h
      · exact absurd (h.symm.trans h2) (by decide)
      · rw [h] at h1
        exact absurd h1 (by decide)
    · refine ⟨_, if_pos ⟨hd, hz, hp, hw, hall⟩, ?_⟩
      rw [State.powState, State.f_setF_other _ _ _ _ (by show 37 < 64; decide) (by show 28 ≤ 37; decide)
        (.inr (.inr (by show 37 < 62; decide)))]
      exact State.f_setF_self _ _ _ (by show 63 < 64; decide) (by show 62 ≤ 63; decide)
    · obtain ⟨e1, e2⟩ := s.f_powerOn hd
      exact ⟨_, if_pos ⟨hd, hp⟩, e1, e2, fun h1 h2 => State.domainOff_showOff _ h1 h2 false⟩
    · exact ⟨_, if_pos ⟨hd8, hz, hp, by rw [hw]; rfl, hb.imp_right fun h => by rw [h]; rfl⟩, s.powState_powerOff hd,
        fun i h8 hi => State.groupOff_showOff _ h8 hi true⟩
    · have hu : (told.setF ZEN_PHASE.BUS_LIVE (l - 1)).f ZEN_PHASE.BUS_LIVE = l - 1 := by
        rw [State.f_setF_self _ _ _ (by show 63 < 64; decide) (by show 60 ≤ 63; decide)]
        exact Nat.mod_eq_of_lt (by show l - 1 < 16; omega)
      exact ⟨_, (if_neg (by omega)).trans (congrArg Host.Outcome.next (if_neg (by omega))), State.f_busLimits h1 h2 _ hu⟩
    · exact (if_neg (by omega)).trans (congrArg Host.Outcome.next (if_pos (by omega)))
    · exact (if_neg (by omega)).trans (congrArg Host.Outcome.next (if_pos (by omega)))
    · exact (if_neg (by omega)).trans (congrArg Host.Outcome.next (if_neg (by omega)))
    · have hl8 : s.vrgLive n ≤ 8 := by omega
      refine ⟨s.vrgShed n, ?_, s.vrgLive_vrgShed hn hl8, fun h3 => (s.vn_vrgShed hn hl8).1 h3⟩
      rw [phaseShed_vrg s hn (by omega) hl8 hm, if_neg (by omega), if_neg (by omega)]
    · have hl8 : s.vrgLive n ≤ 8 := by omega
      refine ⟨(s.vrgShed n).due 4 n, ?_, ?_, State.mem_svcDue_due _ 4 n⟩
      · rw [phaseShed_vrg s hn (by omega) hl8 hm, if_pos h]
      · rw [State.f_due]
        exact (s.vn_vrgShed hn hl8).2 h
    · intro u w
      have e := phaseShed_vrg s hn (by omega) (by omega) hm
      rw [if_neg (by omega), if_pos h] at e
      refine e.trans ?_
      have hw : s.vrgShed n = w := by
        unfold State.vrgShed
        rw [h]
      rw [hw]

end Sys2Proof.Machine

/-! PROOFS. The map of logical tiles (R168). -/
namespace Sys2Proof.Machine

section
variable (bad : List Nat)

/-- The tiles of group g that are not defective. -/
def goodTiles (g : Nat) : List Nat :=
  (List.range 25).filterMap (fun i => if bad.contains (25 * g + i) then none else some (25 * g + i))

/-- The tiles that keep their own group's numbers. -/
def ownTiles : List (Nat × Nat) :=
  (List.range 8).flatMap (fun g => (goodTiles bad g).zip ((List.range 24).map (fun i => 24 * g + i)))

/-- A number without a tile in its own group takes a spare. -/
def takeSpare (m : List (Nat × Nat)) (l : Nat) : List (Nat × Nat) :=
  match (spareOrder (l / 24)).findSome? (fun g => ((goodTiles bad g).drop 24).find? (fun t => !m.any (fun p => p.1 == t))) with
  | some t => m ++ [(t, l)]
  | none => m

theorem tileMap_eq : tileMap bad =
    ((List.range 192).filter (fun l => !(ownTiles bad).any (fun p => p.2 == l))).foldl (takeSpare bad) (ownTiles bad) := rfl

variable {bad}

theorem mem_goodTiles {g t : Nat} : t ∈ goodTiles bad g ↔ 25 * g ≤ t ∧ t < 25 * g + 25 ∧ bad.contains t = false := by
  unfold goodTiles
  rw [List.mem_filterMap]
  constructor
  · rintro ⟨i, hi, h⟩
    have hi := List.mem_range.1 hi
    split at h
    · cases h
    next hb =>
      cases h
      exact ⟨by omega, by omega, Bool.eq_false_iff.2 hb⟩
  · rintro ⟨h1, h2, h3⟩
    refine ⟨t - 25 * g, List.mem_range.2 (by omega), ?_⟩
    rw [show 25 * g + (t - 25 * g) = t by omega, h3]
    rfl

theorem goodTiles_nodup (g : Nat) : (goodTiles bad g).Nodup := by
  refine List.nodup_range.filterMap fun i j t hi hj => ?_
  split at hi
  · cases hi
  split at hj
  · cases hj
  have hi := Option.some.inj hi
  have hj := Option.some.inj hj
  omega

theorem zip_fst_sublist {α β : Type} (l : List α) (k : List β) : ((l.zip k).map (·.1)).Sublist l := by
  rw [List.zip_eq_zip_take_min, List.map_fst_zip (by simp)]
  exact List.take_sublist _ _

theorem zip_snd_sublist {α β : Type} (l : List α) (k : List β) : ((l.zip k).map (·.2)).Sublist k := by
  rw [List.zip_eq_zip_take_min, List.map_snd_zip (by simp)]
  exact List.take_sublist _ _

theorem pairs_range : (List.range 8).Pairwise (· < ·) := List.pairwise_lt_range

/-- Distinct tiles that are not defective, with distinct numbers. -/
structure Placed (bad : List Nat) (m : List (Nat × Nat)) : Prop where
  tiles : (m.map (·.1)).Nodup
  numbers : (m.map (·.2)).Nodup
  good : ∀ x ∈ m, x.1 < 200 ∧ x.2 < 192 ∧ bad.contains x.1 = false

theorem mem_own {x : Nat × Nat} (h : x ∈ ownTiles bad) :
    ∃ g, g < 8 ∧ x.1 ∈ goodTiles bad g ∧ 24 * g ≤ x.2 ∧ x.2 < 24 * g + 24 := by
  obtain ⟨g, hg, hx⟩ := List.mem_flatMap.1 h
  obtain ⟨h1, h2⟩ := List.of_mem_zip (a := x.1) (b := x.2) hx
  obtain ⟨i, hi, e⟩ := List.mem_map.1 h2
  have hi := List.mem_range.1 hi
  exact ⟨g, List.mem_range.1 hg, h1, by omega, by omega⟩

theorem placed_own : Placed bad (ownTiles bad) := by
  refine ⟨?_, ?_, fun x hx => ?_⟩
  · unfold ownTiles
    rw [List.map_flatMap, List.nodup_flatMap]
    refine ⟨fun g _ => (goodTiles_nodup g).sublist (zip_fst_sublist _ _), pairs_range.imp fun {g h} hgh t h1 h2 => ?_⟩
    have a := mem_goodTiles.1 ((zip_fst_sublist _ _).subset h1)
    have b := mem_goodTiles.1 ((zip_fst_sublist _ _).subset h2)
    omega
  · unfold ownTiles
    rw [List.map_flatMap, List.nodup_flatMap]
    refine ⟨fun g _ => (List.nodup_range.map fun i j e => by omega).sublist (zip_snd_sublist _ _),
      pairs_range.imp fun {g h} hgh t h1 h2 => ?_⟩
    obtain ⟨i, hi, e1⟩ := List.mem_map.1 ((zip_snd_sublist _ _).subset h1)
    obtain ⟨k, hk, e2⟩ := List.mem_map.1 ((zip_snd_sublist _ _).subset h2)
    have hi := List.mem_range.1 hi
    have hk := List.mem_range.1 hk
    omega
  · obtain ⟨g, hg, h1, h2, h3⟩ := mem_own hx
    obtain ⟨a, b, c⟩ := mem_goodTiles.1 h1
    exact ⟨by omega, by omega, c⟩

theorem mem_spareOrder {l h : Nat} (hl : l < 192) (hh : h ∈ spareOrder (l / 24)) : h < 8 := by
  simp only [spareOrder, List.mem_append, List.mem_cons, List.mem_flatMap, List.not_mem_nil, or_false] at hh
  rcases hh with (rfl | rfl) | ⟨k, -, rfl | rfl⟩ <;> omega

/-- A spare is a tile that no number holds yet. -/
theorem placed_takeSpare {m : List (Nat × Nat)} {l : Nat} (hm : Placed bad m) (hl : l < 192) (hn : l ∉ m.map (·.2)) :
    Placed bad (takeSpare bad m l) ∧ ∀ k ∈ (takeSpare bad m l).map (·.2), k ∈ m.map (·.2) ∨ k = l := by
  unfold takeSpare
  split
  next t ht =>
    obtain ⟨g, hg, ht⟩ := List.exists_of_findSome?_eq_some ht
    have hfree : t ∉ m.map (·.1) := by
      have h := List.find?_some ht
      rw [Bool.not_eq_true', List.any_eq_false] at h
      intro hm2
      obtain ⟨x, hx, e⟩ := List.mem_map.1 hm2
      exact h x hx (beq_iff_eq.2 e)
    obtain ⟨h1, h2, h3⟩ := mem_goodTiles.1 (List.drop_subset _ _ (List.mem_of_find?_eq_some ht))
    have h8 := mem_spareOrder hl hg
    refine ⟨⟨?_, ?_, fun x hx => ?_⟩, fun k hk => ?_⟩
    · rw [List.map_append, List.map_singleton]
      exact List.nodup_append.2 ⟨hm.tiles, List.nodup_singleton _, fun a ha b hb => by
        rw [List.mem_singleton.1 hb]
        exact fun e : a = t => hfree (e ▸ ha)⟩
    · rw [List.map_append, List.map_singleton]
      exact List.nodup_append.2 ⟨hm.numbers, List.nodup_singleton _, fun a ha b hb => by
        rw [List.mem_singleton.1 hb]
        exact fun e : a = l => hn (e ▸ ha)⟩
    · rcases List.mem_append.1 hx with hx | hx
      · exact hm.good x hx
      · rw [List.mem_singleton.1 hx]
        exact ⟨by show t < 200; omega, hl, h3⟩
    · rw [List.map_append, List.mem_append] at hk
      exact hk.imp_right fun h => by simpa using h
  · exact ⟨hm, fun k hk => .inl hk⟩

theorem placed_foldl : ∀ (ls : List Nat) (m : List (Nat × Nat)), Placed bad m → ls.Nodup → (∀ l ∈ ls, l < 192 ∧ l ∉ m.map (·.2)) →
    Placed bad (ls.foldl (takeSpare bad) m)
  | [], m, hm, _, _ => hm
  | l :: ls, m, hm, hd, hl => by
    rw [List.nodup_cons] at hd
    obtain ⟨h1, h2⟩ := placed_takeSpare hm (hl l List.mem_cons_self).1 (hl l List.mem_cons_self).2
    refine placed_foldl ls _ h1 hd.2 fun k hk => ⟨(hl k (List.mem_cons_of_mem _ hk)).1, fun hm2 => ?_⟩
    rcases h2 k hm2 with h | h
    · exact (hl k (List.mem_cons_of_mem _ hk)).2 h
    · exact hd.1 (h ▸ hk)

/-- The map of R168 gives each tile and each number once, and no number to a defective tile. -/
theorem placed_tileMap : Placed bad (tileMap bad) := by
  rw [tileMap_eq]
  refine placed_foldl _ _ placed_own (List.nodup_range.filter _) fun l hl => ?_
  obtain ⟨h1, h2⟩ := List.mem_filter.1 hl
  refine ⟨List.mem_range.1 h1, fun hm => ?_⟩
  rw [Bool.not_eq_true', List.any_eq_false] at h2
  obtain ⟨x, hx, e⟩ := List.mem_map.1 hm
  exact h2 x hx (beq_iff_eq.2 e)

end

end Sys2Proof.Machine

/-! PROOFS. Resets, the boot and restarts of ZEN (R716 - R727, R738, R763, R764). -/
namespace Sys2Proof.Machine

/-! ## What outlives a loss of power (R716) -/

/-- GEN of every stack, set in turn. -/
def State.setGens (t : State) (v : Nat → Nat) : State := (List.range 16).foldl (fun t n => t.setF (MSC_GEN.GEN n) (v n)) t

theorem State.setGens_keeps {γ : Type} (g : State → γ) (h : ∀ (t : State) (q : FRef) (v : Nat), g (t.setF q v) = g t)
    (t : State) (v : Nat → Nat) : g (t.setGens v) = g t :=
  foldl_keeps g _ (by intro x n; exact h x _ _) _ _

theorem State.reg_setGens (t : State) (v : Nat → Nat) {a : Nat} (h : ∀ n, n < 16 → a ≠ (MSC_GEN.GEN n).off) :
    (t.setGens v).reg a = t.reg a := by
  have key : ∀ (l : List Nat) (t : State), (∀ n ∈ l, n < 16) →
      (l.foldl (fun t n => t.setF (MSC_GEN.GEN n) (v n)) t).reg a = t.reg a := by
    intro l
    induction l with
    | nil => exact fun _ _ => rfl
    | cons n l ih =>
      intro t hl
      rw [List.foldl_cons, ih _ fun m hm => hl m (List.mem_cons_of_mem _ hm),
        State.reg_setF_at _ _ _ _ (h n (hl n List.mem_cons_self))]
  exact key _ t fun n hn => List.mem_range.1 hn

theorem State.gen_setGens (t : State) (v : Nat → Nat) {n : Nat} (hn : n < 16) (hv : v n < 2 ^ 32) :
    (t.setGens v).f (MSC_GEN.GEN n) = v n := by
  have off : ∀ m, m ≠ n → (MSC_GEN.GEN n).off ≠ (MSC_GEN.GEN m).off := fun m hm => by
    simp only [MSC_GEN.GEN, MSC_GEN.at]
    omega
  have rest : ∀ (l : List Nat) (t : State), n ∉ l →
      (l.foldl (fun t n => t.setF (MSC_GEN.GEN n) (v n)) t).f (MSC_GEN.GEN n) = t.f (MSC_GEN.GEN n) := by
    intro l
    induction l with
    | nil => exact fun _ _ => rfl
    | cons m l ih =>
      intro t hl
      rw [List.foldl_cons, ih _ fun h => hl (List.mem_cons_of_mem _ h)]
      exact State.f_of_reg (State.reg_setF_at _ _ _ _ (off m fun e => hl (e ▸ List.mem_cons_self)))
  have key : ∀ (l : List Nat) (t : State), n ∈ l → l.Nodup →
      (l.foldl (fun t n => t.setF (MSC_GEN.GEN n) (v n)) t).f (MSC_GEN.GEN n) = v n := by
    intro l
    induction l with
    | nil => exact fun _ h => absurd h List.not_mem_nil
    | cons m l ih =>
      intro t hm hd
      rw [List.nodup_cons] at hd
      rcases List.mem_cons.1 hm with rfl | hm
      · rw [List.foldl_cons, rest _ _ hd.1, State.f_setF_self _ _ _ (by show 31 < 64; decide) (by show 0 ≤ 31; decide)]
        exact Nat.mod_eq_of_lt hv
      · exact ih _ hm hd.2
  exact key _ t (List.mem_range.2 hn) List.nodup_range

/-- What outlives a loss of power, before GEN is kept. -/
def State.outlived (s : State) : State :=
  { State.reset with
    pending := s.pending, free := s.free, far := s.far, farPoison := s.farPoison, comp := s.comp,
    flash := s.abandoned, fwFloor := s.fwFloor, recFloor := s.recFloor, retired := s.retired, badCopy := s.badCopy,
    dylPerst := s.dylPerst, pgood := s.pgood, pgPull := s.pgPull, inputOff := s.inputOff, vddSb := s.vddSb,
    inputMv := s.inputMv, tap := s.tap, tapIr := s.tapIr, tapShift := s.tapShift, tdo := s.tdo,
    regs := s.keptRedirs }

theorem State.nonvolatile_eq (s : State) : s.nonvolatile = s.outlived.setGens (fun n => s.f (MSC_GEN.GEN n)) := rfl

/-- A field that no register write touches is as the reset and what it keeps leave it. -/
theorem State.nonvolatile_keeps {γ : Type} (s : State) (g : State → γ)
    (h : ∀ (t : State) (q : FRef) (v : Nat), g (t.setF q v) = g t) : g s.nonvolatile = g s.outlived := by
  rw [State.nonvolatile_eq, State.setGens_keeps g h]

/-- A register outside the redirect entries is not kept. -/
theorem State.reg_outlived (s : State) {a : Nat}
    (h : ∀ n, n < 16 → ¬(0x2010000 + 0x100000 * n ≤ a ∧ a < 0x2018000 + 0x100000 * n)) : s.outlived.reg a = regReset a := by
  show SMap.get (regReset a) s.keptRedirs a = regReset a
  refine SMap.get_absent _ _ _ fun hm => ?_
  obtain ⟨x, hx, e⟩ := List.mem_map.1 hm
  obtain ⟨-, hx⟩ := List.mem_filter.1 hx
  simp only [Bool.and_eq_true, decide_eq_true_eq] at hx
  obtain ⟨⟨⟨⟨⟨h1, h2⟩, h3⟩, h4⟩, -⟩, -⟩ := hx
  subst e
  exact h ((x.1 - 0x2000000) / 0x100000) (by omega) (by omega)

/-! ## Restarts of ZEN (R718) -/

section
variable (s : State)

theorem State.heldRecs_storeWords (ws : List W64) : ∀ (s : State) (a : Nat), (s.storeWords a ws).heldRecs = s.heldRecs := by
  induction ws with
  | nil => exact fun _ _ => rfl
  | cons w ws ih =>
    intro s a
    rw [State.storeWords, ih, State.heldRecs_setReg]

theorem State.heldRecs_alertFor (k : Nat) : (s.alertFor k).heldRecs = s.heldRecs := by
  unfold State.alertFor
  simp only [apply_ite State.heldRecs, State.heldRecs_setFlag, ite_self]

theorem State.heldRecs_erqLatch (r : ErqRec) (ws : List W64) : (s.erqLatch r ws).heldRecs = s.heldRecs := by
  unfold State.erqLatch
  simp only [apply_ite State.heldRecs, State.heldRecs_setFlag, State.heldRecs_storeWords, ite_self]

theorem State.heldRecs_erqLose : s.erqLose.heldRecs = s.heldRecs :=
  (State.heldRecs_setFlag _ _ _).trans (State.heldRecs_bump _ _ _)

theorem State.heldRecs_erqEntered (r : ErqRec) (ws : List W64) : (s.erqEntered r ws).heldRecs = s.heldRecs :=
  (State.heldRecs_erqLatch _ _ _).trans (State.heldRecs_alertFor _ _)

theorem State.heldRecs_post (k : Nat) (j : Option Nat) (v : W64) (a : Nat) : (s.post k j v a).heldRecs = s.heldRecs := rfl

theorem State.heldRecs_erqPut (ws : List W64) : (s.erqPut ws).heldRecs = s.heldRecs := by
  unfold State.erqPut
  dsimp only
  rw [State.heldRecs_post, State.heldRecs_setF, State.heldRecs_storeWords]

/-- A record that enters the queue is held by no unit. -/
theorem State.heldRecs_erqQueue (n : W32) (r : ErqRec) (j : Bool) : (s.erqQueue n r j).heldRecs = s.heldRecs := by
  by_cases h : s.erqCount = 64
  · rw [State.erqQueue_full h, State.heldRecs_erqLose, State.heldRecs_erqEntered]
  · rw [State.erqQueue_room h, State.heldRecs_erqPut, State.heldRecs_erqEntered]

theorem State.zenRestart_of_noted {s t : State} (h : s.noted = t.noted) : s.zenRestart = t.zenRestart := by
  have h1 : ∀ x : State, x.noted.zenRestart = x.zenRestart := fun _ => rfl
  rw [← h1 s, h, h1]

theorem State.zenRestart_erqQueue (n : W32) (r : ErqRec) (j : Bool) : (s.erqQueue n r j).zenRestart = s.zenRestart :=
  State.zenRestart_of_noted (State.noted_erqQueue s n r j)

theorem State.zenRestart_erq (r : ErqRec) (j : Bool) : (s.erq r j).zenRestart = s.zenRestart :=
  State.zenRestart_of_noted (State.noted_erq s r j)

theorem State.heldRecs_seq (n : W32) : State.heldRecs { s with erqSeq := n } = s.heldRecs := rfl
theorem State.zenRestart_seq (n : W32) : State.zenRestart { s with erqSeq := n } = s.zenRestart := rfl

/-- Outside a restart no unit holds its records. -/
theorem State.heldRecs_erq (h : s.zenRestart = false) (r : ErqRec) (j : Bool) : (s.erq r j).heldRecs = s.heldRecs := by
  unfold State.erq
  split
  · rfl
  · dsimp only
    rw [if_neg fun h' => absurd (h.symm.trans ((State.zenRestart_seq s _).symm.trans h')) (by decide)]
    exact (State.heldRecs_erqQueue _ _ _ _).trans (State.heldRecs_seq s _)

theorem State.heldRecs_resync (d : Nat) : (s.resync d).heldRecs = s.heldRecs := by
  unfold State.resync
  split
  · exact State.heldRecs_setF _ _ _
  · rfl

theorem State.zenRestart_resync (d : Nat) : (s.resync d).zenRestart = s.zenRestart := by
  unfold State.resync
  split
  · exact State.zenRestart_setF _ _ _
  · rfl

end

theorem State.zenRestart_ended (s : State) (b : Bool) : State.zenRestart { s with zenRestart := b, heldRecs := [] } = b := rfl
theorem State.heldRecs_ended (s : State) (b : Bool) : State.heldRecs { s with zenRestart := b, heldRecs := [] } = [] := rfl

/-- Records held during a restart, entered in turn. -/
def State.queueHeld (s : State) (held : List (W32 × Bool × ErqRec)) : State :=
  held.foldl (fun s h => s.erqQueue h.1 h.2.2 h.2.1) s

theorem State.zenRestart_queueHeld (s : State) (held : List (W32 × Bool × ErqRec)) :
    (s.queueHeld held).zenRestart = s.zenRestart := by
  unfold State.queueHeld
  induction held generalizing s with
  | nil => rfl
  | cons x held ih => rw [List.foldl_cons, ih, State.zenRestart_erqQueue]

theorem State.heldRecs_queueHeld (s : State) (held : List (W32 × Bool × ErqRec)) :
    (s.queueHeld held).heldRecs = s.heldRecs := by
  unfold State.queueHeld
  induction held generalizing s with
  | nil => rfl
  | cons x held ih => rw [List.foldl_cons, ih, State.heldRecs_erqQueue]

/-- A restart's end, once its copy has passed. -/
def State.restarted (v : State) : State :=
  (v.erq ⟨0xD3, 2, bZEN, 0, none, 0, BitVec.ofNat 64 v.watchdog.toNat⟩).resync dZEN

theorem exec_zenRestartDone {s : State} (h : s.zenRestart = true) (hc : s.copyCheck 0 (s.f ZEN_BOOT.FW_COPY) = 0) :
    exec .zenRestartDone s =
      .next (State.queueHeld { s with zenRestart := false, heldRecs := [] } s.heldRecs).restarted :=
  (if_pos h).trans (if_pos hc)

/-- A restart whose copy passes again ends, and no unit holds a record any more. -/
theorem zenRestartDone_ends {s : State} (h : s.zenRestart = true) (hc : s.copyCheck 0 (s.f ZEN_BOOT.FW_COPY) = 0) :
    ∃ u, exec .zenRestartDone s = .next u ∧ u.zenRestart = false ∧ u.heldRecs = [] := by
  obtain ⟨v, hv⟩ : ∃ v, v = State.queueHeld { s with zenRestart := false, heldRecs := [] } s.heldRecs := ⟨_, rfl⟩
  have hz : v.zenRestart = false := by rw [hv, State.zenRestart_queueHeld]
  have hh : v.heldRecs = [] := by rw [hv, State.heldRecs_queueHeld]
  refine ⟨v.restarted, (exec_zenRestartDone h hc).trans (by rw [hv]), ?_, ?_⟩
  · exact (State.zenRestart_resync _ _).trans ((State.zenRestart_erq _ _ _).trans hz)
  · exact (State.heldRecs_resync _ _).trans ((State.heldRecs_erq _ hz _ _).trans hh)

/-! ## The boot (R725) -/

section
variable (s : State) {a : Nat} (ha : a < 0x1000)
include ha

theorem State.reg_powerOn_low (d : Nat) : (s.powerOn d).reg a = s.reg a := by
  have h : a ≠ PWR_DOM_STATUS.at d := by
    simp only [PWR_DOM_STATUS.at]
    omega
  unfold State.powerOn
  rw [State.reg_showOff _ _ _ (by omega), State.reg_setVolt _ _ h, State.reg_setF_at _ _ _ _ h]

theorem State.reg_switchAll_low : s.switchAll.reg a = s.reg a := by
  refine foldl_keeps (State.reg · a) _ (fun x i => ?_) _ _
  extract_lets d
  show State.reg (if _ then _ else _) a = _
  split
  · exact State.reg_powerOn_low _ ha _
  · rfl

omit ha in
theorem State.reg_loadVpcs : s.loadVpcs.reg a = s.reg a := by
  refine foldl_keeps (State.reg · a) _ (fun x n => ?_) _ _
  show State.reg (if _ then _ else _) a = _
  split
  · rfl
  · rfl

theorem State.reg_cxpTrained_low (p mode rate width devices : Nat) :
    (s.cxpTrained p mode rate width devices).reg a = s.reg a := by
  have h : a ≠ CXP_PORT_STATUS.at p := by
    simp only [CXP_PORT_STATUS.at]
    omega
  unfold State.cxpTrained
  dsimp only
  refine (State.reg_cxpPerst _ _ _).trans ?_
  rw [State.reg_setF_at _ _ _ _ h, State.reg_setF_at _ _ _ _ h, State.reg_setF_at _ _ _ _ h, State.reg_setF_at _ _ _ _ h]

theorem State.reg_setDecoder_low (d ports iw dev base size : Nat) :
    (s.setDecoder d ports iw dev base size).reg a = s.reg a := by
  have h : a ≠ CXP_HDM_RANGE.at d := by
    simp only [CXP_HDM_RANGE.at]
    omega
  have h' : a ≠ CXP_HDM_TGT.at d := by
    simp only [CXP_HDM_TGT.at]
    omega
  unfold State.setDecoder
  extract_lets u
  unfold u
  rw [State.reg_setF_at _ _ _ _ h', State.reg_setF_at _ _ _ _ h', State.reg_setF_at _ _ _ _ h', State.reg_setFlag_at _ _ _ h,
    State.reg_setF_at _ _ _ _ h, State.reg_setF_at _ _ _ _ h]

theorem State.reg_mapDevices_low (l : List (Nat × Nat × Nat)) :
    ∀ (s : State) (d base : Nat), (s.mapDevices d base l).reg a = s.reg a := by
  induction l with
  | nil => exact fun _ _ _ => rfl
  | cons x l ih =>
    intro s d base
    obtain ⟨p, v, sz⟩ := x
    unfold State.mapDevices
    extract_lets sz
    split
    · rfl
    · rw [ih, State.reg_setDecoder_low _ ha]

/-- The far ports that enumerated devices, trained. -/
def State.farPorts (s : State) (ports : List Nat) (dv : Nat → List Nat) (links : List (Nat × Nat)) : State :=
  ports.foldl (fun s p => s.cxpTrained p (if ((links[p]?).getD (64, 3)).1 = 64 then 1 else 2) ((links[p]?).getD (64, 3)).1
    ((links[p]?).getD (64, 3)).2 (dv p).length) { s with cxpPerst := [] }

theorem State.reg_farPorts_low (ports : List Nat) (dv : Nat → List Nat) (links : List (Nat × Nat)) :
    (s.farPorts ports dv links).reg a = s.reg a :=
  (foldl_keeps (State.reg · a) _ (fun x _ => State.reg_cxpTrained_low x ha _ _ _ _ _) _ _).trans (State.reg_cxpPerst _ _ _)

theorem State.reg_bootFar_low (devices : List (List Nat)) (links : List (Nat × Nat)) :
    (s.bootFar devices links).reg a = s.reg a := by
  have hv := fun ports dv => State.reg_farPorts_low s ha ports dv links
  unfold State.bootFar
  dsimp only
  split
  · split
    · exact (State.reg_setDecoder_low _ ha _ _ _ _ _ _).trans (hv _ _)
    · exact (State.reg_mapDevices_low ha _ _ _ _).trans (hv _ _)
  · exact (State.reg_mapDevices_low ha _ _ _ _).trans (hv _ _)

theorem State.reg_portDown_low (p : Nat) (he : offErq a) : (s.portDown p).reg a = s.reg a := by
  have h : a ≠ XWF_PORT_STATUS.at p := by
    simp only [XWF_PORT_STATUS.at]
    omega
  unfold State.portDown
  extract_lets u
  refine (State.reg_erq_outside { u with xwfEth := dropNum u.xwfEth p } _ false he).trans ((State.reg_xwfEth _ _ _).trans ?_)
  unfold u
  rw [State.reg_setF_at _ _ _ _ h, State.reg_setF_at _ _ _ _ h, State.reg_setF_at _ _ _ _ h]

theorem State.reg_portDisable_low (p : Nat) (d : Bool) (he : offErq a) : (s.portDisable p d).reg a = s.reg a := by
  have h : a ≠ XWF_PORT_CTL.at p := by
    simp only [XWF_PORT_CTL.at]
    omega
  have h' : a ≠ XWF_PORT_STATUS.at p := by
    simp only [XWF_PORT_STATUS.at]
    omega
  obtain ⟨u, hu⟩ : ∃ u, u = s.setFlag (XWF_PORT_CTL.DISABLE p) d := ⟨_, rfl⟩
  have e : u.reg a = s.reg a := by
    rw [hu]
    exact State.reg_setFlag_at _ _ _ h
  unfold State.portDisable
  dsimp only
  rw [← hu]
  split
  · split
    · exact e
    · exact (State.reg_portDown_low u ha p he).trans e
  · split
    · exact (State.reg_xwfEth _ _ _).trans ((State.reg_setF_at _ _ _ _ h').trans e)
    · exact e

theorem State.reg_bootFabric_low (site : Site) (he : offErq a) : (s.bootFabric site).reg a = s.reg a := by
  have h : a ≠ XWF_IPV6_PREFIX.at ∧ a ≠ XWF_ID.at := by
    simp only [XWF_IPV6_PREFIX.at, XWF_ID.at]
    omega
  unfold State.bootFabric
  dsimp only
  refine (foldl_keeps (State.reg · a) _ (fun x p => ?_) _ _).trans ?_
  · show State.reg (if _ then _ else _) a = _
    split
    · refine State.reg_setFlag_at _ _ _ ?_
      simp only [XWF_PORT_CTL.DISABLE, XWF_PORT_CTL.at]
      omega
    · exact State.reg_portDisable_low x ha p false he
  · rw [State.reg_setReg, if_neg h.1, State.reg_setF_at _ _ _ _ h.2]

omit ha in
theorem State.reg_checkFlash (he : a ≠ ZEN_FLASH.at ∧ a ≠ ZEN_ALERT.at) : s.checkFlash.reg a = s.reg a := by
  unfold State.checkFlash
  dsimp only
  split
  · rw [State.reg_bump_at _ _ _ he.1, State.reg_setF_at _ _ _ _ he.1]
  · rw [State.reg_setFlag_at _ _ _ he.2, State.reg_bump_at _ _ _ he.1, State.reg_setF_at _ _ _ _ he.1]

omit ha in
theorem State.reg_fallbackRec (kind : Nat) (he : offErq a) : (s.fallbackRec kind).reg a = s.reg a := by
  unfold State.fallbackRec
  split
  · exact State.reg_erq_outside _ _ _ he
  · rfl

end

theorem State.reg_vpcFw (s : State) (v : List Byte) (a : Nat) : State.reg { s with vpcFw := v } a = s.reg a := rfl
theorem State.reg_badCopy (s : State) (v : Option Nat) (a : Nat) : State.reg { s with badCopy := v } a = s.reg a := rfl
theorem State.badCopy_badCopy (s : State) (v : Option Nat) : State.badCopy { s with badCopy := v } = v := rfl
theorem State.reg_measure (s : State) (i : Nat) (bs : List Byte) (a : Nat) : (s.measure i bs).reg a = s.reg a := rfl

theorem State.reg_measure8 (s : State) (a : Nat) : s.measure8.reg a = s.reg a := State.reg_measure _ _ _ _

theorem State.reg_vpcsLoaded (s : State) (v : List Byte) {a : Nat} (ha : a < 0x1000) :
    (State.switchAll { s with vpcFw := v }).loadVpcs.reg a = s.reg a :=
  (State.reg_loadVpcs _).trans ((State.reg_switchAll_low _ ha).trans (State.reg_vpcFw _ _ _))

/-- A boot that goes on to its end leaves the device READY, with no copy that failed to start. -/
theorem State.bootRest_ready (s : State) (devices : List (List Nat)) (links : List (Nat × Nat)) :
    (s.bootRest devices links).ready = true ∧ (s.bootRest devices links).badCopy = none := by
  have ha : ZEN_BOOT.at < 0x1000 := by decide
  have he : offErq ZEN_BOOT.at := ⟨.inl (by decide), by decide⟩
  unfold State.bootRest
  split
  extract_lets m e o v k b c d r q w
  have h1 : o.f ZEN_BOOT.STATE = 2 := State.f_setF_self e ZEN_BOOT.STATE 2 (by decide) (by decide)
  have h2 : v.reg ZEN_BOOT.at = o.reg ZEN_BOOT.at := State.reg_vpcsLoaded o (e.stage 2) ha
  have h3 : b.reg ZEN_BOOT.at = k.reg ZEN_BOOT.at :=
    (State.reg_bootFabric_low _ ha _ he).trans (State.reg_bootFar_low k ha _ _)
  have hk : k.reg ZEN_BOOT.at = v.reg ZEN_BOOT.at :=
    (State.reg_measure8 _ _).trans ((State.reg_measure _ 5 _ _).trans (State.reg_measure v 4 _ _))
  have h4 : c.reg ZEN_BOOT.at = b.reg ZEN_BOOT.at := State.reg_checkFlash b (by decide)
  have h5 : d.reg ZEN_BOOT.at = c.reg ZEN_BOOT.at := by
    unfold d
    split
    · exact State.reg_due c 5 1 _
    · rfl
  have h6 : r.reg ZEN_BOOT.at = d.reg ZEN_BOOT.at :=
    (State.reg_fallbackRec _ 1 he).trans (State.reg_fallbackRec d 0 he)
  have h7 : q.reg ZEN_BOOT.at = r.reg ZEN_BOOT.at := by
    unfold q
    split
    · exact State.reg_erq_outside r _ _ he
    · rfl
  have h8 : w.reg ZEN_BOOT.at = q.reg ZEN_BOOT.at := State.reg_erq_outside q _ _ he
  clear_value w q r d c b k v o
  refine ⟨beq_iff_eq.2 ?_, State.badCopy_badCopy w none⟩
  refine (State.f_of_reg (q := ZEN_BOOT.STATE) (State.reg_badCopy w none ZEN_BOOT.at)).trans ?_
  exact (State.f_of_reg (q := ZEN_BOOT.STATE) (h8.trans (h7.trans (h6.trans (h5.trans (h4.trans (h3.trans (hk.trans h2)))))))).trans h1

/-! ## The statement -/

/-- What a loss of power keeps and what it takes (R716). -/
theorem State.nonvolatile_leaves (s : State) :
    let t := s.nonvolatile
    (t.pending = s.pending ∧ t.far = s.far ∧ t.comp = s.comp ∧ t.fwFloor = s.fwFloor ∧ t.recFloor = s.recFloor ∧
      t.retired = s.retired ∧ t.tiles = [] ∧ t.saved = [] ∧ t.pages = [] ∧ t.blank = [] ∧ t.merge = [] ∧ t.cache = [] ∧
      t.scratch = [] ∧ t.rqt = [] ∧ t.fwu = none) := by
  intro t
  exact ⟨s.nonvolatile_keeps State.pending fun _ _ _ => State.pending_setF _ _ _,
    s.nonvolatile_keeps State.far fun _ _ _ => State.far_setF _ _ _,
    s.nonvolatile_keeps State.comp fun _ _ _ => State.comp_setF _ _ _,
    s.nonvolatile_keeps State.fwFloor fun _ _ _ => State.fwFloor_setF _ _ _,
    s.nonvolatile_keeps State.recFloor fun _ _ _ => State.recFloor_setF _ _ _,
    s.nonvolatile_keeps State.retired fun _ _ _ => State.retired_setF _ _ _,
    s.nonvolatile_keeps State.tiles fun _ _ _ => State.tiles_setF _ _ _,
    s.nonvolatile_keeps State.saved fun _ _ _ => State.saved_setF _ _ _,
    s.nonvolatile_keeps State.pages fun _ _ _ => State.pages_setF _ _ _,
    s.nonvolatile_keeps State.blank fun _ _ _ => State.blank_setF _ _ _,
    s.nonvolatile_keeps State.merge fun _ _ _ => State.merge_setF _ _ _,
    s.nonvolatile_keeps State.cache fun _ _ _ => State.cache_setF _ _ _,
    s.nonvolatile_keeps State.scratch fun _ _ _ => State.scratch_setF _ _ _,
    s.nonvolatile_keeps State.rqt fun _ _ _ => State.rqt_setF _ _ _,
    s.nonvolatile_keeps State.fwu fun _ _ _ => State.fwu_setF _ _ _⟩

/-- Every register but GEN and the kept redirect entries takes its reset value. -/
theorem State.reg_nonvolatile (s : State) {off : Nat} (h : ∀ n, n < 16 → off ≠ (MSC_GEN.GEN n).off ∧
    ¬(0x2010000 + 0x100000 * n ≤ off ∧ off < 0x2018000 + 0x100000 * n)) : s.nonvolatile.reg off = regReset off := by
  rw [State.nonvolatile_eq, State.reg_setGens _ _ fun n hn => (h n hn).1, State.reg_outlived _ fun n hn => (h n hn).2]

theorem State.gen_nonvolatile (s : State) {n : Nat} (hn : n < 16) :
    s.nonvolatile.f (MSC_GEN.GEN n) = s.f (MSC_GEN.GEN n) := by
  rw [State.nonvolatile_eq]
  exact State.gen_setGens _ _ hn (s.f_lt _)

theorem ne_zenKey {key : BitVec 16} (h : key ≠ 0x5A17#16) : key.toNat ≠ zenKey :=
  fun e => h (BitVec.eq_of_toNat_eq e)

/-- A restart begins where ZEN runs outside recovery (R718). -/
theorem State.restartZen_begins {s : State} (hz : s.zenUp = true) (hr : s.recovery = false) (w : Bool) :
    s.restartZen w = { s with zenRestart := true, watchdog := w } := if_pos ⟨hz, by rw [hr]; rfl⟩

/-- SB_PGOOD low, and the pull of the board or of the input's switch after it. -/
theorem State.pgood_pull (v : State) (b : Bool) :
    ({ ({ v with pgood := false } : State) with pgPull := b } : State) = { v with pgood := false, pgPull := b } := rfl

theorem State.pgood_pull_off (v : State) :
    ({ ({ v with pgood := false } : State) with pgPull := true, inputOff := true } : State) =
      { v with pgood := false, pgPull := true, inputOff := true } := rfl

theorem bootDone_started {s : State} (hs : s.f ZEN_BOOT.STATE = 1) (hz : s.zenUp = true) (ok : Bool)
    (devices : List (List Nat)) (links : List (Nat × Nat)) : exec (.bootDone ok devices links) s =
      .next (if ok then s.bootRest devices links else { s with badCopy := some (s.f ZEN_BOOT.FW_COPY) }) := by
  show execBootDone ok devices links s = _
  have h0 : ¬s.f ZEN_BOOT.STATE = 0 := by omega
  have h1 : s.f ZEN_BOOT.STATE ≤ 1 ∧ s.zenUp = true := ⟨by omega, hz⟩
  unfold execBootDone
  rw [if_pos h1]
  dsimp only
  rw [if_neg h0, if_pos hs]

theorem exec_hotSwapTrip {s : State} (hi : s.inputOff = false) : exec .hotSwapTrip s =
    .next { (if s.pgood then s.powerLoss else s) with pgPull := true, inputOff := true } :=
  if_neg (by rw [hi]; decide)

/-- Settles O57. Registers are as they were reset but for what is kept, each row is its definition with its condition
decided, and READY survives what is left of the boot. That a failing copy leaves a restart pending with the copy marked,
and the order of the boot's steps, are the model's choice (log entry 52). -/
theorem resetsAndBoot : Obligations.ResetsAndBoot := by
  unfold Obligations.ResetsAndBoot
  refine ⟨fun bad => ?_, fun s by_ key devices links mV vdd byBoard => ?_⟩
  · exact ⟨placed_tileMap.tiles, placed_tileMap.numbers, placed_tileMap.good⟩
  intro t keyed
  refine ⟨?_, fun hg hp hi => ?_, fun hg hd => ?_, fun ⟨ha, hk⟩ => ?_, fun hk => ?_, fun hz hr => ?_, fun hz => ?_,
    fun hs hz => ?_, fun hg => ?_, fun hi => ?_, rfl, fun hg hi hm => ?_⟩
  · obtain ⟨h1, h2, h3, h4, h5, h6, h7, h8, h9, h10, h11, h12, h13, h14, h15⟩ := s.nonvolatile_leaves
    exact ⟨h1, h2, h3, h4, h5, h6, h7, h8, h9, h10, h11, h12, h13, h14, h15, fun off h => s.reg_nonvolatile h,
      fun n hn => s.gen_nonvolatile hn⟩
  · exact if_pos (c := (!s.pgood) = true ∧ (!s.pgPull) = true ∧ (!s.inputOff) = true) ⟨by rw [hg]; rfl, by rw [hp]; rfl, by rw [hi]; rfl⟩
  · exact if_pos ⟨hg, hd⟩
  · have hz : s.accepts by_ ZEN_RESET.at = true ∧ key.toNat = zenKey := ⟨ha, by rw [hk]; rfl⟩
    exact ⟨if_pos hz, fun hz' hr =>
      (if_pos hz).trans (congrArg Host.Outcome.next (State.restartZen_begins hz' hr false))⟩
  · exact ⟨if_neg fun h => ne_zenKey hk h.2, if_neg fun h => ne_zenKey hk h.2⟩
  · exact congrArg Host.Outcome.next (State.restartZen_begins hz hr true)
  · exact ⟨zenRestartDone_ends hz, fun hc => (if_pos hz).trans (if_neg hc)⟩
  · exact ⟨⟨_, bootDone_started hs hz true devices links, s.bootRest_ready devices links⟩,
      bootDone_started hs hz false devices links⟩
  · exact (if_pos hg).trans (congrArg Host.Outcome.next (State.pgood_pull _ _))
  · refine ⟨fun hg => (exec_hotSwapTrip hi).trans ?_, fun hg => (exec_hotSwapTrip hi).trans ?_⟩
    · rw [if_pos hg]
      exact congrArg Host.Outcome.next (State.pgood_pull_off _)
    · rw [if_neg (by rw [hg]; decide)]
  · exact if_pos (c := s.pgPull = true ∧ (!s.inputOff) = true ∧ mV ≥ 40000) ⟨hg, by rw [hi]; rfl, hm⟩

end Sys2Proof.Machine

/-! PROOFS. Updates of the firmware and of the record (R713, R724, R734 - R737). -/
namespace Sys2Proof.Machine

/-! ## Keyed maps -/

theorem SMap.get_dropRange {α : Type} (d : α) (m : SMap α) (lo n k : Nat) :
    SMap.get d (SMap.dropRange m lo n) k = if lo ≤ k ∧ k < lo + n then d else SMap.get d m k := by
  unfold SMap.dropRange
  induction m with
  | nil => rw [List.filter_nil, SMap.get, ite_self]
  | cons x m ih =>
    obtain ⟨a, v⟩ := x
    rw [List.filter_cons]
    by_cases ha : lo ≤ a ∧ a < lo + n
    · rw [if_neg (by simp [ha]), ih, SMap.get]
      split
      · rfl
      · rw [if_neg (by omega)]
    · rw [if_pos (by simp; omega), SMap.get, SMap.get, ih]
      by_cases hk : a = k
      · rw [if_pos hk, if_pos hk, if_neg (hk ▸ ha)]
      · rw [if_neg hk, if_neg hk]

/-- Values put in turn at distinct keys, each from what the key held. -/
theorem SMap.get_foldl_put {α : Type} [DecidableEq α] (d : α) (g : Nat → α → α) (l : List Nat) (hl : l.Nodup) :
    ∀ (m : SMap α) (i : Nat), i ∈ l →
      SMap.get d (l.foldl (fun m n => SMap.put d m n (g n (SMap.get d m n))) m) i = g i (SMap.get d m i) := by
  have rest : ∀ (l : List Nat) (m : SMap α) (i : Nat), i ∉ l →
      SMap.get d (l.foldl (fun m n => SMap.put d m n (g n (SMap.get d m n))) m) i = SMap.get d m i := by
    intro l
    induction l with
    | nil => exact fun _ _ _ => rfl
    | cons n l ih =>
      intro m i hi
      rw [List.mem_cons, not_or] at hi
      rw [List.foldl_cons, ih _ _ hi.2, SMap.get_put, if_neg hi.1]
  induction l with
  | nil => exact fun _ _ h => absurd h List.not_mem_nil
  | cons n l ih =>
    intro m i hi
    rw [List.nodup_cons] at hl
    rcases List.mem_cons.1 hi with rfl | hi
    · rw [List.foldl_cons, rest _ _ _ hl.1, SMap.get_put, if_pos rfl]
    · have hne : i ≠ n := fun e => hl.1 (e ▸ hi)
      rw [List.foldl_cons, ih hl.2 _ _ hi, SMap.get_put, if_neg hne]

/-! ## The flash's copies -/

theorem Bytes.rd_eraseCopy_outside (fl : Bytes) (kind copy : Nat) {a : Nat}
    (h : a < copyAt kind copy ∨ copyAt kind copy + copySize kind ≤ a) :
    Bytes.rd (eraseCopy fl kind copy) a = Bytes.rd fl a := by
  unfold Bytes.rd eraseCopy
  rw [SMap.get_dropRange, if_neg (by omega)]

/-- An object written over an erased area reads back, and bytes outside the area stay. -/
theorem Bytes.rd_written_outside (fl : Bytes) (kind copy off : Nat) (bs : List Byte) {a : Nat}
    (ho : off + bs.length ≤ copySize kind) (h : a < copyAt kind copy ∨ copyAt kind copy + copySize kind ≤ a) :
    Bytes.rd (Bytes.wrList (eraseCopy fl kind copy) (copyAt kind copy + off) bs) a = Bytes.rd fl a := by
  rw [Bytes.rd_wrList_other _ _ _ _ (by omega), Bytes.rd_eraseCopy_outside _ _ _ h]

/-! ## An update's end -/

theorem State.reg_fwu (s : State) (x : Option Fwu) (y : Option Nat) (a : Nat) :
    State.reg { s with fwu := x, fwStream := y } a = s.reg a := rfl
theorem State.fwu_fwu (s : State) (x : Option Fwu) (y : Option Nat) : State.fwu { s with fwu := x, fwStream := y } = x := rfl
theorem State.flash_fwu (s : State) (x : Option Fwu) (y : Option Nat) :
    State.flash { s with fwu := x, fwStream := y } = s.flash := rfl

theorem State.flash_of_noted {s t : State} (h : s.noted = t.noted) : s.flash = t.flash := by
  have h1 : ∀ x : State, x.noted.flash = x.flash := fun _ => rfl
  rw [← h1 s, h, h1]

theorem State.fwu_of_noted {s t : State} (h : s.noted = t.noted) : s.fwu = t.fwu := by
  have h1 : ∀ x : State, x.noted.fwu = x.fwu := fun _ => rfl
  rw [← h1 s, h, h1]

section
variable (s : State)

/-- What the end of an update leaves: its RESULT, no update, and the flash as written. -/
theorem State.fwuEnd_leaves {c : Nat} (hc : c < 16) :
    (s.fwuEnd c).f ZEN_FWU_STATUS.RESULT = c ∧ (s.fwuEnd c).fwu = none ∧ (s.fwuEnd c).flash = s.flash := by
  obtain ⟨v, hv⟩ : ∃ v, v = ({ s with fwu := none, fwStream := none }.setF ZEN_FWU_STATUS.STATE 0).setF
    ZEN_FWU_STATUS.RESULT c := ⟨_, rfl⟩
  have he : s.fwuEnd c = v.fwuRec (c == 1) := by
    rw [hv]
    rfl
  rw [he]
  unfold State.fwuRec
  refine ⟨?_, ?_, ?_⟩
  · rw [State.f_of_reg (q := ZEN_FWU_STATUS.RESULT) (State.reg_erq_outside v _ _ ⟨.inr (by decide), by decide⟩), hv,
      State.f_setF_self _ _ _ (by decide) (by decide)]
    exact Nat.mod_eq_of_lt hc
  · rw [State.fwu_of_noted (State.noted_erq _ _ _), hv, State.fwu_setF, State.fwu_setF]
  · rw [State.flash_of_noted (State.noted_erq _ _ _), hv, State.flash_setF, State.flash_setF]

end

/-! ## The write of a copy (R734) -/

section
variable {s : State} {u : Fwu} (hu : s.fwu = some u)
include hu

/-- The state at the end of a write that read back, before the update ends. -/
def State.copyWritten (s : State) (u : Fwu) : State :=
  State.setF { s with flash := Bytes.wrList (eraseCopy s.flash u.kind u.copy) (copyAt u.kind u.copy) u.obj }
    ZEN_FWU_STATUS.DONE_KIB (ceilDiv u.obj.length 1024)

/-- The state after a write that did not read back: the area is erased. -/
def State.copyErased (s : State) (u : Fwu) : State := { s with flash := eraseCopy s.flash u.kind u.copy }

omit hu in
theorem State.flash_flash (v : State) (x : Bytes) : State.flash { v with flash := x } = x := rfl

omit hu in
theorem State.flash_copyWritten : (s.copyWritten u).flash =
    Bytes.wrList (eraseCopy s.flash u.kind u.copy) (copyAt u.kind u.copy) u.obj :=
  (State.flash_setF _ _ _).trans (State.flash_flash s _)

omit hu in
theorem State.flash_copyErased : (s.copyErased u).flash = eraseCopy s.flash u.kind u.copy := State.flash_flash s _

theorem fwuWriteDone_matches (hr : u.repair = false) (hz : s.zenUp = true) (hd : s.domRuns dSBD = true)
    (hs : u.started = true) : exec (.fwuWriteDone true) s = .next ((s.copyWritten u).fwuEnd 1) := by
  show execFwuWriteDone true s = _
  unfold execFwuWriteDone State.copyWritten
  rw [hu]
  simp only [hr, hz, hd, hs, if_true, Bool.false_eq_true, if_false, true_or, and_self]

theorem fwuWriteDone_differs (hr : u.repair = false) (hz : s.zenUp = true) (hd : s.domRuns dSBD = true)
    (hs : u.started = true) : exec (.fwuWriteDone false) s = .next ((s.copyErased u).fwuEnd 6) := by
  show execFwuWriteDone false s = _
  unfold execFwuWriteDone State.copyErased
  rw [hu]
  simp only [hr, hz, hd, hs, if_true, Bool.false_eq_true, if_false, true_or, and_self]

/-! ## The flash's window (R713) -/

theorem flashHoldBegin_holds (hs : u.started = false) (ho : s.flashOpen = false) (hf : s.flag TMD_FLASH.FHOLD = false) :
    ∃ t, exec .flashHoldBegin s = .next t ∧ t.flag TMD_FLASH.FHOLD = true ∧ t.f ZEN_FWU_STATUS.STATE = 5 ∧
      t.flash = s.flash := by
  obtain ⟨v, hv⟩ : ∃ v, v = (s.setFlag TMD_FLASH.FHOLD true).setF ZEN_FWU_STATUS.STATE 5 := ⟨_, rfl⟩
  refine ⟨v.holdRec true, ?_, ?_, ?_, ?_⟩
  · show execFlashHoldBegin s = _
    unfold execFlashHoldBegin
    rw [hu]
    dsimp only
    rw [if_pos (by rw [hs, ho, hf]; decide), hv]
  · unfold State.holdRec
    rw [State.flag, State.f_of_reg (q := TMD_FLASH.FHOLD) (State.reg_erq_outside v _ _ ⟨.inr (by decide), by decide⟩), hv,
      State.f_of_reg (q := TMD_FLASH.FHOLD) (State.reg_setF_at _ _ _ TMD_FLASH.at (by decide))]
    exact State.flag_setFlag_self _ _ _ (by decide) (by decide)
  · unfold State.holdRec
    rw [State.f_of_reg (q := ZEN_FWU_STATUS.STATE) (State.reg_erq_outside v _ _ ⟨.inr (by decide), by decide⟩), hv]
    exact State.f_setF_self _ _ _ (by decide) (by decide)
  · unfold State.holdRec
    rw [State.flash_of_noted (State.noted_erq _ _ _), hv, State.flash_setF, State.flash_setFlag]

theorem flashHoldEnd_starts (hs : u.started = false) (ho : s.flashOpen = true) (hf : s.flag TMD_FLASH.FHOLD = true) :
    ∃ t, exec .flashHoldEnd s = .next t ∧ t.flag TMD_FLASH.FHOLD = false ∧ t.f ZEN_FWU_STATUS.STATE = 2 ∧
      t.fwu = some { u with started := true } := by
  obtain ⟨w, hw⟩ : ∃ w : State, w = { s with fwu := some { u with started := true } } := ⟨_, rfl⟩
  obtain ⟨v, hv⟩ : ∃ v, v = (w.setFlag TMD_FLASH.FHOLD false).setF ZEN_FWU_STATUS.STATE 2 := ⟨_, rfl⟩
  refine ⟨v.holdRec false, ?_, ?_, ?_, ?_⟩
  · show execFlashHoldEnd s = _
    unfold execFlashHoldEnd
    rw [hu]
    dsimp only
    rw [if_pos (by rw [hs, ho, hf]; decide), hv, hw]
  · unfold State.holdRec
    rw [State.flag, State.f_of_reg (q := TMD_FLASH.FHOLD) (State.reg_erq_outside v _ _ ⟨.inr (by decide), by decide⟩), hv,
      State.f_of_reg (q := TMD_FLASH.FHOLD) (State.reg_setF_at _ _ _ TMD_FLASH.at (by decide))]
    exact State.flag_setFlag_self _ _ _ (by decide) (by decide)
  · unfold State.holdRec
    rw [State.f_of_reg (q := ZEN_FWU_STATUS.STATE) (State.reg_erq_outside v _ _ ⟨.inr (by decide), by decide⟩), hv]
    exact State.f_setF_self _ _ _ (by decide) (by decide)
  · unfold State.holdRec
    rw [State.fwu_of_noted (State.noted_erq _ _ _), hv, State.fwu_setF, State.fwu_setFlag, hw]

end

/-! ## COMMIT (R724) -/

section
variable (s : State)

/-- Floors raised to at least v in every repair area. -/
def raised (m : SMap Nat) (v : Nat) : SMap Nat :=
  (List.range 16).foldl (fun m n => SMap.put 0 m n (max (SMap.get 0 m n) v)) m

theorem get_raised (m : SMap Nat) (v : Nat) {n : Nat} (hn : n < 16) :
    SMap.get 0 (raised m v) n = max (SMap.get 0 m n) v :=
  SMap.get_foldl_put 0 (fun _ x => max x v) _ List.nodup_range m n (List.mem_range.2 hn)

/-- The floors of both kinds set. -/
def State.withFloors (s : State) (x y : SMap Nat) : State := { s with fwFloor := x, recFloor := y }

theorem State.flash_withFloors (x y : SMap Nat) : (s.withFloors x y).flash = s.flash := rfl
theorem State.fwFloor_withFloors (x y : SMap Nat) : (s.withFloors x y).fwFloor = x := rfl
theorem State.recFloor_withFloors (x y : SMap Nat) : (s.withFloors x y).recFloor = y := rfl

/-- The floors after COMMIT. -/
def State.floored (s : State) : State :=
  s.withFloors (raised s.fwFloor (max (s.floorOf 0) (objSvn (s.running 0))))
    (raised s.recFloor (max (s.floorOf 1) (objSvn (s.running 1))))

theorem State.flash_measure (i : Nat) (bs : List Byte) : (s.measure i bs).flash = s.flash := rfl
theorem State.fwFloor_measure (i : Nat) (bs : List Byte) : (s.measure i bs).fwFloor = s.fwFloor := rfl
theorem State.recFloor_measure (i : Nat) (bs : List Byte) : (s.measure i bs).recFloor = s.recFloor := rfl

theorem fwuCommit_raises {by_ : Agent} {n : Nat} (ha : s.accepts by_ ZEN_FWU_CTL.at = true) (hz : s.zenUp = true)
    (hr : s.ready = true) : ∃ t, exec (.fwuCommit by_) s = .next t ∧ t.flash = s.flash ∧
      (n < 16 → SMap.get 0 t.fwFloor n = max (SMap.get 0 s.fwFloor n) (max (s.floorOf 0) (objSvn (s.running 0))) ∧
        SMap.get 0 t.recFloor n = max (SMap.get 0 s.recFloor n) (max (s.floorOf 1) (objSvn (s.running 1)))) := by
  refine ⟨(s.floored.setF ZEN_BOOT.FLOOR (s.floored.floorOf 0)).measure8, ?_, ?_, fun hn => ⟨?_, ?_⟩⟩
  · exact (if_pos ha).trans (congrArg Host.Outcome.next (if_pos ⟨hz, hr⟩))
  · exact (State.flash_measure _ _ _).trans ((State.flash_setF _ _ _).trans (State.flash_withFloors _ _ _))
  · rw [State.measure8, State.fwFloor_measure, State.fwFloor_setF, State.floored, State.fwFloor_withFloors, get_raised _ _ hn]
  · rw [State.measure8, State.recFloor_measure, State.recFloor_setF, State.floored, State.recFloor_withFloors, get_raised _ _ hn]

/-! ## Streamed objects (R737) -/

/-- The flash and the offset that a stream has reached. -/
def State.streamed (s : State) (fl : Bytes) (off : Nat) : State := { s with flash := fl, fwStream := some off }

theorem State.fwStream_streamed (fl : Bytes) (off : Nat) : (s.streamed fl off).fwStream = some off := rfl
theorem State.flash_streamed (fl : Bytes) (off : Nat) : (s.streamed fl off).flash = fl := rfl

/-- The flash after a chunk at an offset: the first one erases the area. -/
def State.chunked (s : State) (off : Nat) (bytes : List Byte) : Bytes :=
  Bytes.wrList (if off = 0 then eraseCopy s.flash (s.f ZEN_FWU_STATUS.KIND) s.streamCopy else s.flash)
    (copyAt (s.f ZEN_FWU_STATUS.KIND) s.streamCopy + off) bytes

theorem fwChunk_written {off : Nat} {bytes : List Byte} (hsb : s.sbUp = true) (hz : s.zenUp = true)
    (hr : s.ready = true ∨ s.recovery = true) (hu : s.fwu = none) (hl : bytes.length = 4096)
    (ho : off + 4096 ≤ copySize (s.f ZEN_FWU_STATUS.KIND)) (hs : off = 0 ∨ s.fwStream = some off)
    (hf : s.flashOpen = true) :
    ∃ t, exec (.fwChunk off bytes) s = .next t ∧ t.fwStream = some (off + 4096) ∧ t.flash = s.chunked off bytes := by
  refine ⟨((s.streamed (s.chunked off bytes) (off + 4096)).setF ZEN_FWU_STATUS.STATE 3).setF ZEN_FWU_STATUS.DONE_KIB (off / 1024 + 4), ?_, ?_, ?_⟩
  · have hn : s.fwu.isNone = true := by rw [hu]; rfl
    exact if_pos ⟨hsb, hz, hr, hn, hl, ho, hs, hf⟩
  · rw [State.fwStream_setF, State.fwStream_setF, State.fwStream_streamed]
  · rw [State.flash_setF, State.flash_setF, State.flash_streamed]

end

theorem fwEnd_checked (s : State) {off : Nat} (hsb : s.sbUp = true) (hz : s.zenUp = true) (hs : s.fwStream = some off) :
    exec .fwEnd s = .next (s.fwuEnd (if s.copyCheck (s.f ZEN_FWU_STATUS.KIND) s.streamCopy = 0 then 1
      else s.copyCheck (s.f ZEN_FWU_STATUS.KIND) s.streamCopy)) := by
  show execFwEnd s = _
  unfold execFwEnd
  rw [if_pos ⟨hsb, hz, by rw [hs]; rfl⟩]

/-! ## GO (R734) -/

section
variable {s : State}

theorem fwuGo_runs {by_ : Agent} {r : State} (ha : s.accepts by_ ZEN_FWU_CTL.at = true) (hz : s.zenUp = true)
    (hr : s.ready = true) (h1 : s.fwu = none) (h2 : s.fwStream = none) (h3 : s.f ZEN_FWU_STATUS.STATE = 0)
    (e : startUpdate.go s = (.ok (), r)) : exec (.fwuGo by_) s = .next r := by
  refine (if_pos ha).trans ?_
  unfold fwuGo
  rw [if_neg (by rw [hz, hr]; decide), if_neg (by rw [h1, h2, h3]; decide), rowOf, State.runs_ok e]

theorem fwuGo_busy {by_ : Agent} {u : Fwu} (ha : s.accepts by_ ZEN_FWU_CTL.at = true) (hz : s.zenUp = true)
    (hr : s.ready = true) (h1 : s.fwu = some u) : exec (.fwuGo by_) s = .next (s.setF ZEN_FWU_STATUS.RESULT 2) := by
  refine (if_pos ha).trans ?_
  unfold fwuGo
  rw [if_neg (by rw [hz, hr]; decide), if_pos (.inl (by rw [h1]; rfl))]

theorem rangesMeet_prefix {a n m : Nat} {l : List (Nat × Nat)} (h : rangesMeet [(a, m)] l = false) (hn : n ≤ m) :
    rangesMeet [(a, n)] l = false := by
  unfold rangesMeet at *
  simp only [List.any_cons, List.any_nil, Bool.or_false, List.any_eq_false, Bool.and_eq_true, decide_eq_true_eq,
    not_and] at *
  intro q hq h1 h2
  exact h q hq h1 (by omega)

/-- An object staged in served memory that no job uses is read whole. -/
theorem stagedObject_calm {src lo hi : Nat} (hc : s.calm ldrWho false lo hi = true) (h0 : src % 4096 = 0) (hlo : lo ≤ src)
    (hhi : src + (8192 + objNum (s.bytesAt ldrWho src 8192) 12 4) ≤ hi)
    (hsz : 8192 + objNum (s.bytesAt ldrWho src 8192) 12 4 ≤ copySize 0) (i0 : s.inStore src = true)
    (i1 : s.inStore (src + 8191) = true)
    (i2 : s.inStore (src + (8192 + objNum (s.bytesAt ldrWho src 8192) 12 4) - 1) = true)
    (hm : rangesMeet [(src, src + (8192 + objNum (s.bytesAt ldrWho src 8192) 12 4) - 1)] s.busyRanges = false) :
    ∃ g, (stagedObject src).go s =
      (.ok (0, s.bytesAt ldrWho src (8192 + objNum (s.bytesAt ldrWho src 8192) 12 4)), s.gran g) := by
  obtain ⟨g1, e1⟩ := ldrRead_calm (n := 8192) hc h0 i0 i1 hlo (by omega)
  obtain ⟨g2, e2⟩ := ldrRead_calm (s := s.gran g1) (n := 8192 + objNum (s.bytesAt ldrWho src 8192) 12 4) hc h0 i0 i2 hlo hhi
  refine ⟨g2, EM.go_bind_ok (EM.go_get s) ?_⟩
  rw [if_neg (by rw [rangesMeet_prefix hm (by omega)]; decide)]
  refine EM.go_bind_ok e1 ?_
  dsimp only
  rw [if_neg (by omega), if_neg (by rw [hm]; decide)]
  exact EM.go_bind_ok e2 (EM.go_pure _ _)

/-- A staged object whose check answers a code ends the update with it, and one that passes and fits begins its write. -/
theorem startUpdate_calm {o : List Byte} {g : SMap Nat} (e : (stagedObject (s.f ZEN_FWU_CTL.SRC)).go s = (.ok (0, o), s.gran g)) :
    (objCheck (s.f ZEN_FWU_STATUS.KIND) (s.floorOf (s.f ZEN_FWU_STATUS.KIND)) o ≠ 0 → startUpdate.go s =
      (.ok (), (s.gran g).fwuEnd (objCheck (s.f ZEN_FWU_STATUS.KIND) (s.floorOf (s.f ZEN_FWU_STATUS.KIND)) o))) ∧
    (objCheck (s.f ZEN_FWU_STATUS.KIND) (s.floorOf (s.f ZEN_FWU_STATUS.KIND)) o = 0 →
      o.length ≤ copySize (s.f ZEN_FWU_STATUS.KIND) → startUpdate.go s =
      (.ok (), (s.gran g).fwuBegin ⟨s.f ZEN_FWU_STATUS.KIND, 1 - s.selected (s.f ZEN_FWU_STATUS.KIND),
        if s.f ZEN_FWU_STATUS.KIND = 1 then Config.mergeRecord (s.running 1) o else o, false, false⟩)) := by
  have hf : (s.gran g).floorOf (s.f ZEN_FWU_STATUS.KIND) = s.floorOf (s.f ZEN_FWU_STATUS.KIND) := rfl
  have hs : (s.gran g).selected (s.f ZEN_FWU_STATUS.KIND) = s.selected (s.f ZEN_FWU_STATUS.KIND) := rfl
  have hr : (s.gran g).running 1 = s.running 1 := rfl
  constructor
  · intro hc
    refine EM.go_bind_ok (EM.go_get s) (EM.go_bind_ok e ((EM.go_modify _ _).trans ?_))
    dsimp only
    rw [if_neg (by decide), hf, if_pos hc]
  · intro hc hl
    refine EM.go_bind_ok (EM.go_get s) (EM.go_bind_ok e ((EM.go_modify _ _).trans ?_))
    dsimp only
    rw [if_neg (by decide), hf, if_neg (not_not_intro hc), if_neg (by omega), hs, hr]

end

/-! ## The statement -/

/-- Settles O58. A staged object is read whole and its check decides, a write that ends reads back from its erased area, and
the floors, the window and the stream do as their definitions say. What the configuration merges into a record
(Config.mergeRecord, log entry 50) and the order of the checks (log entry 53) are the model's choice. -/
theorem updatesWriteTheOtherCopy : Obligations.UpdatesWriteTheOtherCopy := by
  unfold Obligations.UpdatesWriteTheOtherCopy
  intro s r by_ u off n lo hi bytes kind src len obj c base area
  refine ⟨fun ha hz hr => ⟨fun hu => fwuGo_busy ha hz hr hu, ?_, fun h1 h2 h3 e => fwuGo_runs ha hz hr h1 h2 h3 e,
    fwuCommit_raises s ha hz hr⟩, fun hu hrep hz hd hst hl => ⟨?_, ?_⟩, fun hu hst => ⟨fun ho hf => flashHoldBegin_holds hu hst ho hf,
    fun ho hf => flashHoldEnd_starts hu hst ho hf⟩, fun hsb hz => ⟨fun hr hu hl ho hs hf => ?_, fun hs => ?_⟩⟩
  · intro h1 h2 h3 h0 hc hlo hhi hsz i0 i1 i2 hm
    obtain ⟨g, e⟩ := stagedObject_calm hc h0 hlo hhi hsz i0 i1 i2 hm
    obtain ⟨hbad, hgood⟩ := startUpdate_calm e
    refine ⟨g, fun hne => fwuGo_runs ha hz hr h1 h2 h3 (hbad hne), fun he hk => fwuGo_runs ha hz hr h1 h2 h3 (hgood he ?_)⟩
    rw [State.length_bytesAt]
    exact hk
  · obtain ⟨h1, h2, h3⟩ := (s.copyWritten u).fwuEnd_leaves (c := 1) (by decide)
    refine ⟨_, fwuWriteDone_matches hu hrep hz hd hst, h1, h2, ?_, fun a hout => ?_⟩
    · rw [h3, State.flash_copyWritten]
      exact Bytes.rdList_wrList _ _ _
    · rw [h3, State.flash_copyWritten]
      exact Bytes.rd_written_outside s.flash u.kind u.copy 0 u.obj (by omega) hout
  · obtain ⟨h1, h2, h3⟩ := (s.copyErased u).fwuEnd_leaves (c := 6) (by decide)
    refine ⟨_, fwuWriteDone_differs hu hrep hz hd hst, h1, h2, fun a hout => ?_⟩
    rw [h3, State.flash_copyErased]
    exact Bytes.rd_eraseCopy_outside s.flash u.kind u.copy hout
  · obtain ⟨t, e, h1, h2⟩ := fwChunk_written s hsb hz hr hu hl ho hs hf
    refine ⟨t, e, h1, ?_, fun a hout => ?_⟩
    · rw [h2, State.chunked, ← hl]
      exact Bytes.rdList_wrList _ _ _
    · rw [h2, State.chunked]
      by_cases h0 : off = 0
      · rw [if_pos h0]
        exact Bytes.rd_written_outside s.flash kind s.streamCopy off bytes (by omega) (by rcases hout with h | h | h <;> [exact .inl h; exact .inr h; exact absurd h0 h.1])
      · rw [if_neg h0]
        refine Bytes.rd_wrList_other _ _ _ _ ?_
        change a < copyAt kind s.streamCopy + off ∨ copyAt kind s.streamCopy + off + bytes.length ≤ a
        omega
  · exact fwEnd_checked s hsb hz hs

end Sys2Proof.Machine

/-! PROOFS. Attestation and the test access port (R731 - R733, R736). -/
namespace Sys2Proof.Machine

/-! ## The responder (R732) -/

section
variable {s : State} {tr : Nat} (hup : s.spdmUp tr = true)
include hup

/-- A request in the connection state that it needs is answered, and UnexpectedRequest in another one. -/
theorem spdmRow_needs (need stage : Nat) (r : SpdmRsp) :
    (SMap.get 0 s.spdm tr = need → spdmRow tr need s stage r = .next (s.answerSpdm tr stage r)) ∧
    (SMap.get 0 s.spdm tr ≠ need →
      spdmRow tr need s stage r = .next (s.answerSpdm tr (SMap.get 0 s.spdm tr) (.error eUnexpected))) := by
  unfold spdmRow State.spdmStage
  rw [if_pos hup]
  exact ⟨fun h => by rw [if_pos h], fun h => by rw [if_neg h]⟩

/-- The same for a row whose answer is r. -/
theorem spdmRow_answers {i : Instr} {need stage : Nat} {q r : SpdmRsp} (hi : exec i s = spdmRow tr need s stage q)
    (hq : q = r) :
    (SMap.get 0 s.spdm tr = need → exec i s = .next (s.answerSpdm tr stage r)) ∧
    (SMap.get 0 s.spdm tr ≠ need → exec i s = .next (s.answerSpdm tr (SMap.get 0 s.spdm tr) (.error 4))) := by
  rw [hi, hq]
  exact spdmRow_needs hup need stage r

theorem getVersion_answers : exec (.getVersion tr) s = .next (s.answerSpdm tr 1 (.version [3])) := if_pos hup

theorem unsupportedRequest_answers (code : Nat) :
    exec (.unsupportedRequest tr code) s = .next (s.answerSpdm tr (SMap.get 0 s.spdm tr) (.error 7)) := if_pos hup

end

section
variable (s : State)

/-- No key was derived, or debug access is open. -/
def State.keyless (s : State) : Prop := s.flag ZEN_BOOT.UNLOCKED = true ∨ s.certs.isEmpty = true

variable {s}

theorem State.keyless_iff : s.keyless ↔ s.flag ZEN_BOOT.UNLOCKED = true ∨ s.certs = [] := by
  unfold State.keyless
  rw [List.isEmpty_iff]

theorem State.not_keyless (h : s.flag ZEN_BOOT.UNLOCKED = false ∧ s.certs ≠ []) : ¬s.keyless := by
  rw [State.keyless_iff, h.1]
  exact fun hk => hk.elim (fun e => absurd e (by decide)) h.2

/-- The answer to GET_CERTIFICATE. -/
def State.certAnswer (s : State) (slot off len : Nat) : SpdmRsp :=
  if s.flag ZEN_BOOT.UNLOCKED ∨ s.certs.isEmpty then .error 5
  else if slot ≠ 0 ∨ s.certChain.length ≤ off then .error 1
  else .certificate 0 ((s.certChain.drop off).take len) (s.certChain.length - off - min len (s.certChain.length - off))

theorem exec_getCertificate (tr slot off len : Nat) :
    exec (.getCertificate tr slot off len) s = spdmRow tr 3 s 3 (s.certAnswer slot off len) := rfl

/-- The answer to CHALLENGE. -/
def State.challengeAnswer (s : State) (slot : Nat) (nonce : List Byte) : SpdmRsp :=
  if s.flag ZEN_BOOT.UNLOCKED ∨ s.certs.isEmpty then .error 5
  else if slot ≠ 0 then .error 1
  else .challengeAuth (digest64 s.certChain) s.summary (Config.sign s.aliasSeed (nonce ++ digest64 s.certChain ++ s.summary))

theorem exec_challenge (tr slot : Nat) (nonce : List Byte) :
    exec (.challenge tr slot nonce) s = spdmRow tr 3 s 3 (s.challengeAnswer slot nonce) := rfl

/-- The blocks that GET_MEASUREMENTS asks for. -/
def State.askedBlocks (s : State) (index : Nat) : List (Nat × List Byte) :=
  if index = 0 then [] else if index = 255 then s.blocks else s.blocks.filter (fun b => b.1 == index)

/-- The answer to GET_MEASUREMENTS. -/
def State.measureAnswer (s : State) (index : Nat) (signed : Bool) (nonce : List Byte) : SpdmRsp :=
  if signed ∧ s.aliasSeed.isEmpty then .error 5
  else if index ≠ 0 ∧ (s.askedBlocks index).isEmpty then .error 1
  else .measurements s.blocks.length (s.askedBlocks index)
    (if signed then Config.sign s.aliasSeed (nonce ++ (s.askedBlocks index).flatMap (fun b => leBytes 1 b.1 ++ b.2)) else [])

theorem exec_getMeasurements (tr index : Nat) (signed : Bool) (nonce : List Byte) :
    exec (.getMeasurements tr index signed nonce) s = spdmRow tr 3 s 3 (s.measureAnswer index signed nonce) := rfl

theorem State.measureAnswer_given {index : Nat} {signed : Bool} {nonce : List Byte}
    (h : index = 0 ∨ s.askedBlocks index ≠ []) (hs : signed = true → s.aliasSeed ≠ []) :
    s.measureAnswer index signed nonce = .measurements s.blocks.length (s.askedBlocks index)
      (if signed then Config.sign s.aliasSeed (nonce ++ (s.askedBlocks index).flatMap (fun b => leBytes 1 b.1 ++ b.2))
        else []) := by
  unfold State.measureAnswer
  rw [if_neg fun ⟨h1, h2⟩ => hs h1 (List.isEmpty_iff.1 h2), if_neg fun ⟨h1, h2⟩ => h.elim h1 fun h => h (List.isEmpty_iff.1 h2)]

end

/-! ## The test access port (R736) -/

section
variable (s : State) (b : Bool × Bool)

/-- What the clock does to the shifted bits before the controller moves. -/
def State.tapShifts (s : State) (b : Bool × Bool) : State :=
  match s.tap with
  | 3 => { s with tapShift := if s.tapIr = tapBypass then [false] else Config.drCapture s.tapIr }
  | 10 => { s with tapShift := true :: List.replicate (Config.irLen - 1) false }
  | 4 => { s with tdo := s.tdo ++ s.tapShift.take 1, tapShift := s.tapShift.drop 1 ++ [b.2] }
  | 11 => { s with tdo := s.tdo ++ s.tapShift.take 1, tapShift := s.tapShift.drop 1 ++ [b.2] }
  | _ => s

/-- The controller in a state, with the instruction register as that state leaves it. -/
def State.tapMoves (s : State) (n : Nat) : State :=
  if n = 15 then { s with tap := n, tapIr := s.tapShift } else if n = 0 then { s with tap := n, tapIr := tapBypass }
  else { s with tap := n }

theorem State.tapClock_eq : s.tapClock b = (s.tapShifts b).tapMoves (tapNext (s.tapShifts b).tap b.1) := rfl

theorem State.tap_tapShifts : (s.tapShifts b).tap = s.tap := by
  unfold State.tapShifts
  split <;> rfl

theorem State.tap_tapMoves (n : Nat) : (s.tapMoves n).tap = n := by
  unfold State.tapMoves
  split
  · rfl
  split <;> rfl

theorem State.tap_tapClock : (s.tapClock b).tap = tapNext s.tap b.1 := by
  rw [State.tapClock_eq, State.tap_tapMoves, State.tap_tapShifts]

/-- A clock that ends in the reset state selects BYPASS. -/
theorem State.tapIr_tapClock (h : tapNext s.tap b.1 = 0) : (s.tapClock b).tapIr = tapBypass := by
  rw [State.tapClock_eq, State.tap_tapShifts, h]
  rfl

/-- A clock of the shift state with TMS low shifts one bit out and one in. -/
theorem State.tapClock_shift (h : s.tap = 4) (hb : b.1 = false) :
    (s.tapClock b).tdo ++ (s.tapClock b).tapShift = s.tdo ++ s.tapShift ++ [b.2] := by
  have e : s.tapShifts b = { s with tdo := s.tdo ++ s.tapShift.take 1, tapShift := s.tapShift.drop 1 ++ [b.2] } := by
    unfold State.tapShifts
    split
    next e => exact absurd (h.symm.trans e) (by decide)
    next e => exact absurd (h.symm.trans e) (by decide)
    next => rfl
    next e => exact absurd (h.symm.trans e) (by decide)
    next e _ => exact absurd h e
  rw [State.tapClock_eq, State.tap_tapShifts, h, hb, e]
  show s.tdo ++ s.tapShift.take 1 ++ (s.tapShift.drop 1 ++ [b.2]) = _
  rw [List.append_assoc, ← List.append_assoc (s.tapShift.take 1), List.take_append_drop, List.append_assoc]

end

/-- Clocks with TMS low keep the controller shifting. -/
theorem tapClocks_shift (bits : List (Bool × Bool)) : ∀ (s : State), s.tap = 4 → bits.all (fun b => b.1 == false) = true →
    (bits.foldl State.tapClock s).tap = 4 ∧ (bits.foldl State.tapClock s).tdo ++ (bits.foldl State.tapClock s).tapShift =
      s.tdo ++ s.tapShift ++ bits.map (·.2) := by
  induction bits with
  | nil => exact fun s h _ => ⟨h, (List.append_nil _).symm⟩
  | cons b bits ih =>
    intro s h hb
    rw [List.all_cons, Bool.and_eq_true, beq_iff_eq] at hb
    have ht : (s.tapClock b).tap = 4 := by
      rw [State.tap_tapClock, h, hb.1]
      rfl
    obtain ⟨h1, h2⟩ := ih _ ht hb.2
    rw [List.foldl_cons, List.map_cons]
    refine ⟨h1, h2.trans ?_⟩
    rw [State.tapClock_shift s b h hb.1, List.append_assoc _ [b.2]]
    rfl

/-- Five clocks with TMS high end in the reset state, from any state. -/
theorem tapNext_five : ∀ n : Nat, n < 16 →
    tapNext (tapNext (tapNext (tapNext (tapNext n true) true) true) true) true = 0 := by decide

theorem tapClocks_reset {s : State} {bits : List (Bool × Bool)} (hs : s.tap < 16) (hl : bits.length = 5)
    (hb : bits.all (fun b => b.1) = true) :
    (bits.foldl State.tapClock s).tap = 0 ∧ (bits.foldl State.tapClock s).tapIr = tapBypass := by
  have keep : ∀ (bits : List (Bool × Bool)) (s : State), bits.all (fun b => b.1) = true →
      (bits.foldl State.tapClock s).tap = bits.foldl (fun n _ => tapNext n true) s.tap := by
    intro bits
    induction bits with
    | nil => exact fun _ _ => rfl
    | cons b bits ih =>
      intro s h
      rw [List.all_cons, Bool.and_eq_true] at h
      rw [List.foldl_cons, ih _ h.2, State.tap_tapClock, h.1, List.foldl_cons]
  match bits, hl with
  | [a, b, c, d, e], _ =>
    have h5 := (keep _ s hb).trans (tapNext_five _ hs)
    refine ⟨h5, ?_⟩
    rw [List.foldl_cons, List.foldl_cons, List.foldl_cons, List.foldl_cons, List.foldl_cons, List.foldl_nil] at h5 ⊢
    refine State.tapIr_tapClock _ _ ?_
    rwa [State.tap_tapClock] at h5

/-- The state in which an access of the port begins its clocks. -/
def State.tapOpened (s : State) (trst : Bool) : State :=
  if trst then { s with tdo := [], tap := 0, tapIr := tapBypass } else { s with tdo := [] }

theorem exec_jtagTapAccess {s : State} (h : s.pgood = true) (trst : Bool) (bits : List (Bool × Bool)) :
    exec (.jtagTapAccess trst bits) s = .next (bits.foldl State.tapClock (s.tapOpened trst)) := by
  refine (if_pos h).trans ?_
  cases trst <;> rfl

/-! ## The statement -/

/-- Settles O60. Each row is the responder's shared row with its own answer, and the clocks of the port fold the controller's
next state. The error codes and their order (log entry 59) and the numbers of the controller's states (log entry 68) are
the model's choice. -/
theorem requestsAreAnswered : Obligations.RequestsAreAnswered := by
  unfold Obligations.RequestsAreAnswered
  intro s tr slot off len index code nonce signed bits replies stage needs chain key asked
  refine ⟨fun hup => ⟨getVersion_answers hup, spdmRow_answers hup rfl rfl, spdmRow_answers hup rfl rfl,
    spdmRow_answers hup rfl rfl, spdmRow_answers (need := 2) (stage := 2) (q := .error 1) hup ?_ rfl, ?_, fun hk h0 hl => ?_, fun hk hs => ?_, fun hk hs => ?_,
    fun hk hs => ?_, fun hk => ⟨?_, ?_⟩, fun ha => ⟨?_, fun hs => ?_⟩, fun hi ha => ?_, fun hs => ?_,
    unsupportedRequest_answers hup code⟩, fun hg => ⟨?_, fun ht hl hb => ?_, fun ht hb => ?_⟩⟩
  · exact if_neg (by simp)
  · refine spdmRow_answers hup rfl (congrArg SpdmRsp.digests (if_congr List.isEmpty_iff rfl rfl))
  · exact spdmRow_answers hup (exec_getCertificate _ _ _ _) ((if_neg (State.not_keyless hk)).trans (if_neg
      (fun h => h.elim (· h0) (Nat.not_le.2 hl))))
  · exact spdmRow_answers hup (exec_getCertificate _ _ _ _) ((if_neg (State.not_keyless hk)).trans (if_pos hs))
  · exact spdmRow_answers hup (exec_challenge _ _ _) ((if_neg (State.not_keyless hk)).trans (if_pos hs))
  · exact spdmRow_answers hup (exec_challenge _ _ _) ((if_neg (State.not_keyless hk)).trans (if_neg (by omega)))
  · exact spdmRow_answers hup (exec_getCertificate _ _ _ _) (if_pos (State.keyless_iff.2 hk))
  · exact spdmRow_answers hup (exec_challenge _ _ _) (if_pos (State.keyless_iff.2 hk))
  · exact spdmRow_answers hup (exec_getMeasurements _ _ _ _) (State.measureAnswer_given ha (fun h => absurd h (by decide)))
  · exact spdmRow_answers hup (exec_getMeasurements _ _ _ _) (State.measureAnswer_given ha fun _ => hs)
  · exact spdmRow_answers hup (exec_getMeasurements _ _ _ _)
      ((if_neg (by simp)).trans (if_pos ⟨hi, List.isEmpty_iff.2 ha⟩))
  · exact spdmRow_answers hup (exec_getMeasurements _ _ _ _) (if_pos ⟨rfl, List.isEmpty_iff.2 hs⟩)
  · exact ⟨_, exec_jtagTapAccess hg true [], rfl, rfl, rfl⟩
  · obtain ⟨h1, h2⟩ := tapClocks_reset (s := s.tapOpened false) ht hl hb
    exact ⟨_, exec_jtagTapAccess hg false bits, h1, h2⟩
  · obtain ⟨h1, h2⟩ := tapClocks_shift bits (s.tapOpened false) ht hb
    exact ⟨_, exec_jtagTapAccess hg false bits, h1, h2⟩

end Sys2Proof.Machine

/-! PROOFS. Service actions (R223, R741 - R749, R756). -/
namespace Sys2Proof.Machine

/-! ## The slot (R741, R742) -/

section
variable {s : State} {a n : Nat}

/-- The state in which an action has left the slot. -/
def State.leftSlot (s : State) : State := { s with svc := none, svcHeld := false, migTodo := [] }

theorem State.reg_leftSlot (s : State) (b : Nat) : s.leftSlot.reg b = s.reg b := rfl
theorem State.svc_leftSlot (s : State) : s.leftSlot.svc = none := rfl
theorem State.retired_leftSlot (s : State) : s.leftSlot.retired = s.retired := rfl

/-- The end of an action: the slot is free and its RESULT shown. -/
theorem State.endAction_eq (h : s.svc = some (a, n)) (r : Nat) : s.endAction r =
    ((((s.leftSlot).setF ZEN_SVC_STATUS.STATE 0).setF ZEN_SVC_STATUS.RESULT r).setF ZEN_SVC_STATUS.LAST_ACTION a).bump
      ZEN_SVC_STATUS.ACTIONS 1 := by
  unfold State.endAction State.leftSlot
  rw [h]

theorem State.svc_endAction (h : s.svc = some (a, n)) (r : Nat) : (s.endAction r).svc = none := by
  rw [State.endAction_eq h, State.svc_bump, State.svc_setF, State.svc_setF, State.svc_setF, State.svc_leftSlot]

theorem State.retired_endAction (h : s.svc = some (a, n)) (r : Nat) : (s.endAction r).retired = s.retired := by
  rw [State.endAction_eq h, State.retired_bump, State.retired_setF, State.retired_setF, State.retired_setF,
    State.retired_leftSlot]

theorem State.reg_endAction (h : s.svc = some (a, n)) (r : Nat) {b : Nat} (hb : b ≠ ZEN_SVC_STATUS.at) :
    (s.endAction r).reg b = s.reg b := by
  rw [State.endAction_eq h, State.reg_bump_at _ _ _ hb, State.reg_setF_at _ _ _ _ hb, State.reg_setF_at _ _ _ _ hb,
    State.reg_setF_at _ _ _ _ hb, State.reg_leftSlot]

theorem State.result_endAction (h : s.svc = some (a, n)) {r : Nat} (hr : r < 16) :
    (s.endAction r).f ZEN_SVC_STATUS.RESULT = r := by
  rw [State.endAction_eq h]
  unfold State.bump
  simp (disch := decide) only [State.f_setF_other, State.f_setF_self]
  exact Nat.mod_eq_of_lt hr

/-- The row of an action that holds the slot does its work. -/
theorem actionRow_held (h : s.svc = some (a, n)) (hz : s.zenUp = true) (work : State → State) :
    actionRow a n s work = .next (work s) := by
  have hc : s.claim a n = s := if_neg fun hn => absurd (h.symm.trans hn.1) (by simp)
  unfold actionRow
  dsimp only
  rw [hc, if_pos ⟨h, hz⟩]

end

/-! ## Retiring a tile (R744 - R747) -/

section
variable {s : State} {p sp l : Nat}

theorem State.spareFor_state {g : Nat} (h : s.spareFor g = some sp) : s.f (ANV_ID.STATE sp) = 1 := by
  unfold State.spareFor at h
  obtain ⟨k, -, hk⟩ := List.exists_of_findSome?_eq_some h
  obtain ⟨i, -, hi⟩ := List.exists_of_findSome?_eq_some hk
  split at hi
  next e =>
    cases hi
    exact e
  · cases hi

/-- The identities of the tile that retires and of its spare. -/
def State.swapped (s : State) (p sp l : Nat) : State :=
  (((s.setF (ANV_ID.STATE p) 2).setF (ANV_ID.LOGICAL p) 255).setF (ANV_ID.STATE sp) 0).setF (ANV_ID.LOGICAL sp) l

theorem State.f_swapped (hne : p ≠ sp) (hl : l < 256) : (s.swapped p sp l).f (ANV_ID.STATE p) = 2 ∧
    (s.swapped p sp l).f (ANV_ID.LOGICAL p) = 255 ∧ (s.swapped p sp l).f (ANV_ID.STATE sp) = 0 ∧
    (s.swapped p sp l).f (ANV_ID.LOGICAL sp) = l := by
  unfold State.swapped
  refine ⟨?_, ?_, ?_, ?_⟩ <;>
    simp (disch := (simp only [ANV_ID.STATE, ANV_ID.LOGICAL, ANV_ID.at]; omega)) only [State.f_setF_other, State.f_setF_self]
  · rfl
  · rfl
  · rfl
  · exact Nat.mod_eq_of_lt hl

/-- A tile listed in every repair area. -/
def listed (m : SMap (List Nat)) (p : Nat) : SMap (List Nat) :=
  (List.range 16).foldl (fun x n => SMap.put [] x n (addNum (SMap.get [] m n) p)) m

theorem mem_listed (m : SMap (List Nat)) (p : Nat) {n : Nat} (hn : n < 16) : p ∈ SMap.get [] (listed m p) n := by
  have key : ∀ (l : List Nat) (x : SMap (List Nat)), (n ∈ l ∨ p ∈ SMap.get [] x n) →
      p ∈ SMap.get [] (l.foldl (fun x n => SMap.put [] x n (addNum (SMap.get [] m n) p)) x) n := by
    intro l
    induction l with
    | nil => exact fun x h => h.resolve_left List.not_mem_nil
    | cons k l ih =>
      intro x h
      refine ih _ ?_
      rw [SMap.get_put]
      by_cases hk : n = k
      · rw [if_pos hk]
        exact .inr (mem_addNum _ _)
      · rw [if_neg hk]
        exact h.imp_left fun hm => (List.mem_cons.1 hm).resolve_left hk
  exact key _ m (.inl (List.mem_range.2 hn))

/-- The retired tiles as the repair areas list them. -/
def State.withRetired (s : State) (m : SMap (List Nat)) : State := { s with retired := m }

theorem State.reg_withRetired (m : SMap (List Nat)) (b : Nat) : (s.withRetired m).reg b = s.reg b := rfl
theorem State.retired_withRetired (m : SMap (List Nat)) : (s.withRetired m).retired = m := rfl
theorem State.svc_withRetired (m : SMap (List Nat)) : (s.withRetired m).svc = s.svc := rfl

/-- The counts of spares and of retired tiles, and the alert. -/
def State.tileCounted (s : State) : State :=
  ((s.setF ZEN_SVC_STATUS.SPARES (s.f ZEN_SVC_STATUS.SPARES - 1)).bump ZEN_SVC_STATUS.RETIRED 1).setFlag ZEN_ALERT.TILE true

theorem State.moveTile_eq : s.moveTile p sp l =
    (((s.swapped p sp l).withRetired (listed (s.swapped p sp l).retired p)).tileCounted).endAction 1 := rfl

theorem State.reg_tileCounted {b : Nat} (h1 : b ≠ ZEN_SVC_STATUS.at) (h2 : b ≠ ZEN_ALERT.at) :
    s.tileCounted.reg b = s.reg b := by
  unfold State.tileCounted
  rw [State.reg_setFlag_at _ _ _ h2, State.reg_bump_at _ _ _ h1, State.reg_setF_at _ _ _ _ h1]

/-- What a move leaves: both identities, the repair areas' lists and the end of the action. -/
theorem State.moveTile_leaves {a n : Nat} (hs : s.svc = some (a, n)) (hne : p ≠ sp) (hl : l < 256) :
    let t := s.moveTile p sp l
    t.svc = none ∧ t.f (ANV_ID.STATE p) = 2 ∧ t.f (ANV_ID.LOGICAL p) = 255 ∧ t.f (ANV_ID.STATE sp) = 0 ∧
      t.f (ANV_ID.LOGICAL sp) = l ∧ t.f ZEN_SVC_STATUS.RESULT = 1 ∧ (∀ m, m < 16 → p ∈ SMap.get [] t.retired m) := by
  intro t
  obtain ⟨v, hv⟩ : ∃ v, v = (s.swapped p sp l).withRetired (listed (s.swapped p sp l).retired p) := ⟨_, rfl⟩
  have ht : t = v.tileCounted.endAction 1 := by
    rw [hv]
    exact State.moveTile_eq
  have hsvc : v.tileCounted.svc = some (a, n) := by
    rw [State.tileCounted, State.svc_setFlag, State.svc_bump, State.svc_setF, hv, State.svc_withRetired, State.swapped,
      State.svc_setF, State.svc_setF, State.svc_setF, State.svc_setF, hs]
  have hf : ∀ q : FRef, 0x4000000 ≤ q.off → t.f q = (s.swapped p sp l).f q := fun q hq => by
    have h1 : q.off ≠ ZEN_SVC_STATUS.at := by unfold ZEN_SVC_STATUS.at; omega
    have h2 : q.off ≠ ZEN_ALERT.at := by unfold ZEN_ALERT.at; omega
    rw [ht]
    refine State.f_of_reg ((State.reg_endAction hsvc 1 h1).trans ((State.reg_tileCounted h1 h2).trans ?_))
    rw [hv, State.reg_withRetired]
  have hoff : ∀ k, 0x4000000 ≤ ANV_ID.at k := fun k => by unfold ANV_ID.at; omega
  obtain ⟨e1, e2, e3, e4⟩ := State.f_swapped (s := s) hne hl
  refine ⟨?_, (hf _ (hoff p)).trans e1, (hf _ (hoff p)).trans e2, (hf _ (hoff sp)).trans e3, (hf _ (hoff sp)).trans e4,
    ?_, fun m hm => ?_⟩
  · rw [ht, State.svc_endAction hsvc]
  · rw [ht, State.result_endAction hsvc (by decide)]
  · rw [ht, State.retired_endAction hsvc, State.tileCounted, State.retired_setFlag, State.retired_bump, State.retired_setF, hv,
      State.retired_withRetired]
    exact mem_listed _ p hm

/-- The state while the action keeps the tile's jobs off it. -/
def State.heldOff (s : State) : State := { s with svcHeld := true }

theorem State.onTiles_heldOff : s.heldOff.onTiles l = s.onTiles l := rfl
theorem State.powOn_heldOff (d : Nat) : s.heldOff.powOn d = s.powOn d := rfl
theorem State.svc_heldOff : s.heldOff.svc = s.svc := rfl

theorem State.retireTile_moves (h : s.spareFor (p / 25) = some sp) (ho : s.onTiles (s.ltile p) = [])
    (hp : s.powOn (sp / 25) = true) : s.retireTile p = s.heldOff.moveTile p sp (s.ltile p) := by
  have h1 : s.heldOff.onTiles (s.ltile p) = [] := ho
  unfold State.retireTile
  rw [h]
  show (if _ ∧ _ then _ else _) = _
  change (if (State.onTiles ((s.heldOff.onTiles (s.ltile p)).foldl State.startSave s.heldOff) (s.ltile p)).isEmpty = true ∧
    State.powOn ((s.heldOff.onTiles (s.ltile p)).foldl State.startSave s.heldOff) (sp / 25) = true then
    State.moveTile ((s.heldOff.onTiles (s.ltile p)).foldl State.startSave s.heldOff) p sp (s.ltile p)
    else (s.heldOff.onTiles (s.ltile p)).foldl State.startSave s.heldOff) = _
  rw [h1, List.foldl_nil, h1]
  exact if_pos ⟨rfl, hp⟩

theorem retireTile_fails (hz : s.zenUp = true) (hs : s.svc = some (1, p)) (h : s.spareFor (p / 25) = none) :
    exec (.retireTile p) s = .next (s.endAction 3) := by
  refine (actionRow_held hs hz fun s => s.retireTile p).trans ?_
  unfold State.retireTile
  rw [h]

theorem retireTile_moves (hz : s.zenUp = true) (hs : s.svc = some (1, p)) (hst : s.f (ANV_ID.STATE p) = 0)
    (h : s.spareFor (p / 25) = some sp) (ho : s.onTiles (s.ltile p) = []) (hp : s.powOn (sp / 25) = true) :
    ∃ t, exec (.retireTile p) s = .next t ∧ t.svc = none ∧ t.f (ANV_ID.STATE p) = 2 ∧ t.f (ANV_ID.LOGICAL p) = 255 ∧
      t.f (ANV_ID.STATE sp) = 0 ∧ t.f (ANV_ID.LOGICAL sp) = s.ltile p ∧ t.f ZEN_SVC_STATUS.RESULT = 1 ∧
      (∀ m, m < 16 → p ∈ SMap.get [] t.retired m) := by
  have hne : p ≠ sp := fun e => by
    have := State.spareFor_state h
    rw [← e, hst] at this
    cases this
  refine ⟨_, (actionRow_held hs hz fun s => s.retireTile p).trans
    (congrArg Host.Outcome.next (State.retireTile_moves h ho hp)), ?_⟩
  exact State.moveTile_leaves hs hne (s.f_lt (ANV_ID.LOGICAL p))

end

/-! ## Migrations (R743, R748, R749) -/

section
variable {s : State}

/-- A migration ends where there is no room or no extent, and otherwise starts at its first one. -/
theorem State.migrate_cases {k ch : Nat} {exts : List (Nat × Nat)} (h : s.flag (MSC_COPY.ACTIVE k) = false) :
    (s.planMigration k ch exts = none → s.migrate k ch exts = s.endAction 4) ∧
    (s.planMigration k ch exts = some [] → s.migrate k ch exts = s.endAction 1) ∧
    (∀ w ws, s.planMigration k ch exts = some (w :: ws) → s.migrate k ch exts = { s with migTodo := w :: ws }.startExtent k) := by
  unfold State.migrate
  rw [if_neg (by rw [h]; decide)]
  exact ⟨fun e => by rw [e], fun e => by rw [e], fun w ws e => by rw [e]⟩

end

/-! ## Retiring an engine (R223) -/

section
variable {s : State} {n : Nat}

theorem retireEngine_retires (hz : s.zenUp = true) (hs : s.svc = some (4, n)) :
    ∃ t, exec (.retireEngine n) s = .next t ∧ t.svc = none ∧ t.flag (VRG_CTL.RETIRE n) = true ∧ t.f (VRG_ID.MODE n) = 1 := by
  obtain ⟨v, hv⟩ : ∃ v, v = (s.setFlag (VRG_CTL.RETIRE n) true).setF (VRG_ID.MODE n) 1 := ⟨_, rfl⟩
  have h : v.svc = some (4, n) := by rw [hv, State.svc_setF, State.svc_setFlag, hs]
  refine ⟨v.endAction 1, ?_, State.svc_endAction h _, ?_, ?_⟩
  · rw [hv]
    exact actionRow_held hs hz fun s => ((s.setFlag (VRG_CTL.RETIRE n) true).setF (VRG_ID.MODE n) 1).endAction 1
  · rw [State.flag, State.f_of_reg (q := VRG_CTL.RETIRE n) (State.reg_endAction h 1 (by
      simp only [VRG_CTL.RETIRE, VRG_CTL.at, ZEN_SVC_STATUS.at]; omega)), hv,
      State.f_of_reg (q := VRG_CTL.RETIRE n) (State.reg_setF_at _ _ _ (VRG_CTL.at n) (by
      simp only [VRG_ID.MODE, VRG_ID.at, VRG_CTL.at]; omega))]
    exact State.flag_setFlag_self _ _ _ (by show 0 < 64; decide) (by show 0 ≤ 0; decide)
  · rw [State.f_of_reg (q := VRG_ID.MODE n) (State.reg_endAction h 1 (by
      simp only [VRG_ID.MODE, VRG_ID.at, ZEN_SVC_STATUS.at]; omega)), hv]
    exact State.f_setF_self _ _ _ (by show 31 < 64; decide) (by show 30 ≤ 31; decide)

theorem State.reg_powerOff_engine (s : State) {b : Nat} (h1 : b ≠ PWR_DOM_STATUS.at (13 + n)) (h2 : b ≠ VRG_STATUS.at n)
    (hn : n < 16) : (s.powerOff (13 + n)).reg b = s.reg b := by
  have h3 : 13 + n - 13 = n := by omega
  unfold State.powerOff State.showOff
  rw [if_neg (by omega), if_pos ⟨by omega, by omega⟩, h3, State.reg_setFlag_at _ _ _ h2, State.reg_setReg, if_neg h1]

theorem State.slots_powerOff (s : State) (d : Nat) : (s.powerOff d).slots = s.slots := by
  unfold State.powerOff State.showOff
  split
  · rw [foldl_keeps State.slots _ (fun x i => State.slots_setFlag x _ _), State.slots_setReg]
  split
  · rw [State.slots_setFlag, State.slots_setReg]
  · exact State.slots_setReg _ _ _

/-- The slots set. -/
def State.withSlots (s : State) (m : SMap Slot) : State := { s with slots := m }

theorem State.reg_withSlots (m : SMap Slot) (b : Nat) : (s.withSlots m).reg b = s.reg b := rfl
theorem State.slots_withSlots (m : SMap Slot) : (s.withSlots m).slots = m := rfl

theorem State.enterPlain_eq : s.enterPlain n = (((s.setF (VRG_ID.MODE n) 2).setTile (200 + n) TileState.zero).withSlots
    (SMap.dropRange ((s.setF (VRG_ID.MODE n) 2).setTile (200 + n) TileState.zero).slots (65536 * n) 65536)).powerOff (13 + n) := rfl

theorem State.reg_setTile_any (k : Nat) (x : TileState) (b : Nat) : (s.setTile k x).reg b = s.reg b := rfl

theorem State.reg_enterPlain (s : State) {b : Nat} (h1 : b ≠ PWR_DOM_STATUS.at (13 + n)) (h2 : b ≠ VRG_STATUS.at n)
    (hn : n < 16) : (s.enterPlain n).reg b = (s.setF (VRG_ID.MODE n) 2).reg b := by
  rw [State.enterPlain_eq, State.reg_powerOff_engine _ h1 h2 hn]
  exact (State.reg_withSlots _ _).trans (State.reg_setTile_any _ _ _)

/-- What the plain mode of an engine leaves. -/
theorem State.enterPlain_leaves (s : State) (hn : n < 16) :
    (s.enterPlain n).f (VRG_ID.MODE n) = 2 ∧ (s.enterPlain n).flag (VRG_CTL.PLAIN n) = s.flag (VRG_CTL.PLAIN n) ∧
      (s.enterPlain n).powState (13 + n) = 0 ∧ ∀ k, k < 65536 → (s.enterPlain n).slot n k = Slot.zero := by
  refine ⟨?_, ?_, ?_, fun k hk => ?_⟩
  · rw [State.f_of_reg (q := VRG_ID.MODE n) (s.reg_enterPlain (by
      simp only [VRG_ID.MODE, VRG_ID.at, PWR_DOM_STATUS.at]; omega) (by
      simp only [VRG_ID.MODE, VRG_ID.at, VRG_STATUS.at]; omega) hn)]
    exact State.f_setF_self s (VRG_ID.MODE n) 2 (by show 31 < 64; decide) (by show 30 ≤ 31; decide)
  · have h : (s.enterPlain n).reg (VRG_CTL.at n) = s.reg (VRG_CTL.at n) :=
      (s.reg_enterPlain (by simp only [VRG_CTL.at, PWR_DOM_STATUS.at]; omega) (by
        simp only [VRG_CTL.at, VRG_STATUS.at]; omega) hn).trans (State.reg_setF_at _ _ _ _ (by
        simp only [VRG_ID.MODE, VRG_ID.at, VRG_CTL.at]; omega))
    rw [State.flag, State.f_of_reg (q := VRG_CTL.PLAIN n) h, State.flag]
  · rw [State.enterPlain_eq]
    exact State.powState_powerOff _ (by omega)
  · rw [State.enterPlain_eq, State.slot, State.slots_powerOff, State.slots_withSlots, SMap.get_dropRange,
      if_pos (by unfold slotKey; omega)]

theorem retireComplete_ends (hz : s.zenUp = true) (hu : s.up = true) (hn : n < 16) (hm : s.f (VRG_ID.MODE n) = 1)
    (he : s.engineUsed n = false) (hb : s.virgaBusy n = 0) :
    ∃ t, exec (.retireComplete n) s = .next t ∧ t.f (VRG_ID.MODE n) = 2 ∧ t.flag (VRG_CTL.PLAIN n) = true ∧
      t.powState (13 + n) = 0 ∧ ∀ k, k < 65536 → t.slot n k = Slot.zero := by
  obtain ⟨h1, h2, h3, h4⟩ := (s.setFlag (VRG_CTL.PLAIN n) true).enterPlain_leaves hn
  refine ⟨_, if_pos ⟨hn, hm, he, hb, hu, hz⟩, h1, h2.trans ?_, h3, h4⟩
  exact State.flag_setFlag_self _ _ _ (by show 1 < 64; decide) (by show 1 ≤ 1; decide)

end

/-! ## Flash copies (R756) -/

theorem flashCheck_checks {s : State} (hz : s.zenUp = true) (hs : s.svc = some (5, 0)) (hf : s.flashFree = true) :
    exec .flashCheck s = .next (s.checkFlash.repairNext 0) := by
  have hc : s.claim 5 0 = s := if_neg fun hn => absurd (hs.symm.trans hn.1) (by simp)
  show execFlashCheck s = _
  unfold execFlashCheck
  dsimp only
  rw [hc, if_pos hs, if_pos ⟨hz, hf⟩]

/-! ## The statement -/

/-- Settles O59. An action that holds the slot does its work there, and each work's registers are read back. Which extents
a migration copies and that an empty plan ends it DONE (log entry 23), and what the flash check's TARGET and the slot's
waiting actions do (log entry 58), are the model's choice. -/
theorem serviceActionsAct : Obligations.ServiceActionsAct := by
  unfold Obligations.ServiceActionsAct
  intro s p sp g addr n w ws chan st c page moves
  refine ⟨fun hz => ⟨fun hs => ⟨fun h => retireTile_fails hz hs h, fun _ h0 h ho hp => retireTile_moves hz hs h0 h ho hp⟩,
    fun hs ha => ?_, fun hs ha => ?_, fun _ hs => retireEngine_retires hz hs, fun hs hf => flashCheck_checks hz hs hf,
    fun hu hn hm he hb => retireComplete_ends hz hu hn hm he hb⟩, fun hr => ?_⟩
  · obtain ⟨h1, h2, h3⟩ := State.migrate_cases (s := s) (ch := g % 32) (exts := chan) ha
    have e := actionRow_held hs hz fun s => s.migrate (g / 32) (g % 32) (s.channelExtents (g / 32) (g % 32))
    exact ⟨fun h => e.trans (congrArg Host.Outcome.next (h1 h)), fun h => e.trans (congrArg Host.Outcome.next (h2 h)),
      fun h => e.trans (congrArg Host.Outcome.next (h3 w ws h))⟩
  · obtain ⟨h1, h2, h3⟩ := State.migrate_cases (s := s) (ch := c) (exts := page) ha
    have e := actionRow_held hs hz fun s => s.migrate (s.stackOf (addr / 4096)) (s.pageOfAddr addr).1
      (freeExtents (s.usedExtents (s.stackOf (addr / 4096)) (s.pageOfAddr addr).1) 0 (s.pageOfAddr addr).2)
    exact ⟨fun h => e.trans (congrArg Host.Outcome.next (h1 h)), fun h => e.trans (congrArg Host.Outcome.next (h2 h)),
      fun h => e.trans (congrArg Host.Outcome.next (h3 w ws h))⟩
  · exact ⟨s.due 5 0, congrArg Host.Outcome.next (if_pos hr), State.mem_svcDue_due s 5 0⟩

end Sys2Proof.Machine

/-! PROOFS. Fatal faults and the compute reset (R422, R546, R602 - R604). -/
namespace Sys2Proof.Machine

/-! ## Bytes written without a requester that could wait -/

section
variable {P : State → Prop}

theorem PageSteady.forceStack (hP : PageSteady P) {s : State} (h : P s) (a : Nat) (bs : List Byte) : P (s.forceStack a bs) := by
  unfold State.forceStack
  dsimp only
  split
  · exact hP.mergeInto h _ _ _
  split
  next e => exact hP.pushEntry h e
  · exact hP.setMergeBuf h _ _

theorem PageSteady.mergeReset (hP : PageSteady P) {s : State} (h : P s) : P s.mergeReset :=
  foldl_inv h fun s e _ h => by
    split
    · exact h
    · exact hP.writeBackEntry h _

variable (hP : Steady P)
include hP

theorem Steady.forceWrite {s : State} (h : P s) (a : Nat) (bs : List Byte) : P (s.forceWrite a bs) := by
  unfold State.forceWrite
  split
  · exact hP.forceStack h _ _
  · exact farWrite_keeps hP _ _ _ h
  · exact hP.scratch _ _ _ _ h
  · exact h

/-- The dirty granules of the cache, written back (R357). -/
def State.linesReset (s : State) : State :=
  s.cache.foldl (fun s p =>
    [0, 1, 2, 3].foldl (fun s g =>
      if p.2.dirty.toNat.testBit g && !p.2.bad.toNat.testBit g then
        (s.clbCe (some (p.1 / 2 ^ 40)) (s.homeSlice (p.1 % 2 ^ 40 * 256)) (p.1 % 2 ^ 40 * 256 + 64 * g)
          (p.2.weakIn (64 * g) 64)).forceWrite (p.1 % 2 ^ 40 * 256 + 64 * g) (Bytes.rdList p.2.data (64 * g) 64)
      else s) s) s

/-- Cloudbank's lines and its scratch emptied. -/
def State.noLines (s : State) : State := { s with cache := [], scratch := [], scratchBad := [], scratchWeak := [] }

omit hP in
theorem State.clbReset_eq (s : State) : s.clbReset = s.linesReset.noLines := rfl

theorem Steady.linesReset {s : State} (h : P s) : P s.linesReset :=
  foldl_inv h fun s p _ h => foldl_inv h fun s g _ h => by
    split
    · exact hP.forceWrite (hP.clbCe h _ _ _ _) _ _
    · exact h

end

/-! ## The first steps of a reset (steps 3 to 6 of R603) -/

/-- What a reset's first steps leave: the reset itself and the queue of commands. -/
def State.ResetAt (p : List Instr) (q : Option W32) (s : State) : Prop := s.pending = p ∧ s.resetSeq = q

theorem State.resetAt_setPage {p : List Instr} {q : Option W32} {s : State} (gp : Nat) (pg : Page) (h : s.ResetAt p q) :
    (s.setPage gp pg).ResetAt p q := by
  unfold State.setPage
  split
  · exact h
  · split <;> exact h

theorem resetAt_steady (p : List Instr) (q : Option W32) : Steady (State.ResetAt p q) where
  apart {s t} h e := by
    have h1 : ∀ x : State, x.untouched.pending = x.pending := fun _ => rfl
    have h2 : ∀ x : State, x.untouched.resetSeq = x.resetSeq := fun _ => rfl
    exact ⟨by rw [← h1 t, e, h1, h.1], by rw [← h2 t, e, h2, h.2]⟩
  setReg _ h _ := h
  setPage gp pg h := State.resetAt_setPage gp pg h
  far _ _ _ h := h
  scratch _ _ _ _ h := h
  setLine _ _ _ h := h
  setReq _ _ h := h
  setSrvJob _ _ h := h

/-- No line is cached and Cloudbank's scratch is zero. -/
def State.Lineless (s : State) : Prop := s.cache = [] ∧ s.scratch = []

theorem lineless_steady : PageSteady State.Lineless where
  apart {s t} h e := by
    have h1 : ∀ x : State, x.untouched.cache = x.cache := fun _ => rfl
    have h2 : ∀ x : State, x.untouched.scratch = x.scratch := fun _ => rfl
    exact ⟨by rw [← h1 t, e, h1, h.1], by rw [← h2 t, e, h2, h.2]⟩
  setReg _ h _ := h
  setPage {s} gp pg h := by
    unfold State.setPage
    split
    · exact h
    · split <;> exact h

/-- What the first steps of a reset leave of a state whose Cloudbank and merge buffers are written back. -/
def State.emptied (s : State) : State :=
  { s with tiles := [], saved := [], slots := [], parked := [], demT := [], demV := [], chosen := [], endAsked := [],
           loading := s.loading.map (fun x => { x with job := none, result := 2, reason := 12, detail := 0#64, feat := 0#64 }),
           cross := s.cross.filterMap (fun p =>
             let c := if p.1 % 2 = 1 then { p.2 with applied := p.2.produced } else p.2
             if c = Cross.zero then none else some (p.1, c)),
           txWait := [], txSent := s.txSent.map (fun x => { x with dead := true }), lateWait := [], lateHeld := [] }

theorem State.emptied_leaves (s : State) : s.emptied.tiles = [] ∧ s.emptied.saved = [] ∧ s.emptied.slots = [] ∧
    s.emptied.parked = [] := ⟨rfl, rfl, rfl, rfl⟩

theorem State.lineless_emptied {s : State} (h : s.Lineless) : s.emptied.Lineless := h
theorem State.resetAt_emptied {s : State} {p : List Instr} {q : Option W32} (h : s.ResetAt p q) : s.emptied.ResetAt p q := h

/-- The state whose Cloudbank and merge buffers are written back, before it is emptied. -/
def State.flushed (s : State) : State := s.endAllLost.clbReset.mergeReset.clearHaltLatches

theorem State.stopCompute_eq (s : State) : s.stopCompute = s.flushed.emptied := rfl

theorem State.resetAt_clearHaltLatches {s : State} {p : List Instr} {q : Option W32} (h : s.ResetAt p q) :
    s.clearHaltLatches.ResetAt p q := h
theorem State.lineless_clearHaltLatches {s : State} (h : s.Lineless) : s.clearHaltLatches.Lineless := h
theorem State.resetAt_noLines {s : State} {p : List Instr} {q : Option W32} (h : s.ResetAt p q) : s.noLines.ResetAt p q := h
theorem State.lineless_noLines (s : State) : s.noLines.Lineless := ⟨rfl, rfl⟩

theorem State.resetAt_flushed {s : State} {p : List Instr} {q : Option W32} (h : s.ResetAt p q) : s.flushed.ResetAt p q := by
  have hP := resetAt_steady p q
  refine State.resetAt_clearHaltLatches (hP.mergeReset ?_)
  rw [State.clbReset_eq]
  exact State.resetAt_noLines (hP.linesReset (hP.endAllLost h))

theorem State.lineless_flushed (s : State) : s.flushed.Lineless := by
  refine State.lineless_clearHaltLatches (lineless_steady.mergeReset ?_)
  rw [State.clbReset_eq]
  exact State.lineless_noLines _

theorem State.stopCompute_leaves {s : State} {p : List Instr} {q : Option W32} (h : s.ResetAt p q) :
    let t := s.stopCompute
    t.resetSeq = q ∧ t.tiles = [] ∧ t.saved = [] ∧ t.slots = [] ∧ t.cache = [] ∧ t.scratch = [] ∧ t.parked = [] ∧
      t.pending = p := by
  intro t
  have ht : t = s.flushed.emptied := s.stopCompute_eq
  obtain ⟨hp, hq⟩ := State.resetAt_emptied (State.resetAt_flushed h)
  obtain ⟨hc, hs⟩ := State.lineless_emptied s.lineless_flushed
  obtain ⟨h1, h2, h3, h4⟩ := s.flushed.emptied_leaves
  rw [ht]
  exact ⟨hq, h1, h2, h3, hc, hs, h4, hp⟩

/-- The state in which a reset has latched its cause. -/
def State.faultLatched (s : State) (cause : Option Nat) (r : ErqRec) (seq : W32) : State :=
  match cause with
  | some c =>
    if s.flag EQX_FAULT.VALID then s
    else
      let w := setFld (setFld (setFld 0#64 63 63 1) 55 48 c) 47 43 r.block
      let w := setFld (setFld w 42 35 r.inst) 31 0 seq.toNat
      s.setReg EQX_FAULT.at (match r.job with
        | some j => setFld (setFld w 62 57 j) 56 56 1
        | none => w)
  | none => s

theorem State.resetAt_faultLatched {s : State} {p : List Instr} {q : Option W32} (cause : Option Nat) (r : ErqRec) (seq : W32)
    (h : s.ResetAt p q) : (s.faultLatched cause r seq).ResetAt p q := by
  unfold State.faultLatched
  split
  · split
    · exact h
    · exact h
  · exact h

/-- The state with its reset's record numbered. -/
def State.resetBegun (s : State) (q : W32) : State := { s with resetSeq := some q }

theorem State.resetAt_resetBegun {s : State} {p : List Instr} {x : Option W32} (q : W32) (h : s.ResetAt p x) :
    (s.resetBegun q).ResetAt p (some q) := ⟨h.1, rfl⟩

theorem State.beginReset_eq (s : State) (cause : Option Nat) (r : ErqRec) (seq : W32) : s.beginReset cause r seq =
    (((s.faultLatched cause r seq).erq ⟨0x30, 3, bEQX, 0, r.job, 0, BitVec.ofNat 64 seq.toNat⟩).resetBegun
      (s.faultLatched cause r seq).erqSeq).stopCompute := rfl

theorem fatalFault_begins (s : State) (cause : Nat) (r : ErqRec) (h : s.resetSeq = none) :
    let t := s.fatalFault cause r
    t.resetSeq.isSome = true ∧ t.tiles = [] ∧ t.saved = [] ∧ t.slots = [] ∧ t.cache = [] ∧ t.scratch = [] ∧
      t.parked = [] ∧ t.pending = s.pending := by
  intro t
  have hP := resetAt_steady s.pending none
  have ht : t = (s.erq { r with sev := 3 }).beginReset (some cause) r s.erqSeq := by
    show s.startReset (some cause) r = _
    unfold State.startReset
    rw [h]
  rw [ht, State.beginReset_eq]
  obtain ⟨h1, h⟩ := State.stopCompute_leaves (State.resetAt_resetBegun
    ((s.erq { r with sev := 3 }).faultLatched (some cause) r s.erqSeq).erqSeq (hP.erq
    (State.resetAt_faultLatched (some cause) r s.erqSeq (hP.erq ⟨rfl, h⟩ { r with sev := 3 } false))
    ⟨0x30, 3, bEQX, 0, r.job, 0, BitVec.ofNat 64 s.erqSeq.toNat⟩ false))
  exact ⟨by rw [h1]; rfl, h⟩

end Sys2Proof.Machine

/-! PROOFS. The end of a compute reset (R9, R546, R603, R604). -/
namespace Sys2Proof.Machine

/-! ## Bits of a field -/

theorem fld_zero_of_testBit {w : W64} {hi lo : Nat} (h : ∀ i, lo ≤ i → i ≤ hi → w.getLsbD i = false) : fld w hi lo = 0 := by
  refine Nat.eq_of_testBit_eq fun i => ?_
  show (w.toNat / 2 ^ lo % 2 ^ (hi + 1 - lo)).testBit i = _
  rw [Nat.testBit_mod_two_pow, Nat.testBit_div_two_pow, Nat.zero_testBit, Bool.and_eq_false_iff, decide_eq_false_iff_not]
  by_cases hi' : i < hi + 1 - lo
  · exact .inr (h (i + lo) (by omega) (by omega))
  · exact .inl hi'

/-! ## Registers that a reset clears or keeps (R9, R604) -/

/-- The field at an offset is zero after a reset, whatever it held: the check is on the register's definition. -/
def clearedAt (q : FRef) : Bool :=
  !keptBlock q.off && (regFind q.off).all (fun p => p.1.base != VRG_ID.at 0) &&
    (List.range (q.hi + 1)).all (fun i => decide (i < q.lo) || (!(keptMask q.off).getLsbD i && !(regReset q.off).getLsbD i))

theorem keptMode_same {a : Nat} (h : (regFind a).all (fun p => p.1.base != VRG_ID.at 0) = true) (w : W64) : keptMode a w = w := by
  unfold keptMode
  split
  next d ix e =>
    rw [e] at h
    have h : d.base ≠ VRG_ID.at 0 := by simpa using h
    rw [if_neg fun hc => h hc.1]
  · rfl

theorem fld_afterReset {q : FRef} (h : clearedAt q = true) (v : W64) : fld (afterReset q.off v) q.hi q.lo = 0 := by
  unfold clearedAt at h
  rw [Bool.and_eq_true, Bool.and_eq_true] at h
  obtain ⟨⟨-, hm⟩, hb⟩ := h
  unfold afterReset
  rw [keptMode_same hm]
  refine fld_zero_of_testBit fun i h1 h2 => ?_
  have hi := List.all_eq_true.1 hb i (List.mem_range.2 (by omega))
  simp only [Bool.or_eq_true, decide_eq_true_eq, Bool.and_eq_true, Bool.not_eq_true'] at hi
  obtain ⟨h3, h4⟩ := hi.resolve_left (by omega)
  rw [BitVec.getLsbD_or, BitVec.getLsbD_and, BitVec.getLsbD_and, h3, h4, Bool.and_false, Bool.false_and, Bool.or_false]

theorem fld_regReset {q : FRef} (h : clearedAt q = true) : fld (regReset q.off) q.hi q.lo = 0 := by
  unfold clearedAt at h
  rw [Bool.and_eq_true] at h
  refine fld_zero_of_testBit fun i h1 h2 => ?_
  have hi := List.all_eq_true.1 h.2 i (List.mem_range.2 (by omega))
  simp only [Bool.or_eq_true, decide_eq_true_eq, Bool.and_eq_true, Bool.not_eq_true'] at hi
  exact (hi.resolve_left (by omega)).2

theorem clearedAt_jobState {j : Nat} (hj : j < 64) : clearedAt (EQX_JOB_STATUS.STATE j) = true :=
  List.all_eq_true.1 (by decide +kernel : (List.range 64).all (fun j => clearedAt (EQX_JOB_STATUS.STATE j)) = true) j
    (List.mem_range.2 hj)

theorem clearedAt_loaded {k : Nat} (hk : k < 200) : clearedAt (ANV_ID.JOB_V k) = true :=
  List.all_eq_true.1 (by decide +kernel : (List.range 200).all (fun k => clearedAt (ANV_ID.JOB_V k)) = true) k
    (List.mem_range.2 hk)

/-- EQX_RESETS is kept whole. -/
theorem afterReset_resets (v : W64) : afterReset EQX_RESETS.at v = v := by
  have hm : keptMask EQX_RESETS.at = BitVec.allOnes 64 := by decide +kernel
  have hk : (regFind EQX_RESETS.at).all (fun p => p.1.base != VRG_ID.at 0) = true := by decide +kernel
  unfold afterReset
  rw [keptMode_same hk, hm, BitVec.and_allOnes, BitVec.not_allOnes, BitVec.and_zero, BitVec.or_zero]

/-! ## Every register at its reset -/

section
variable {s : State}

/-- What holds of a register's word after its reset, and of its word where no entry stands, holds once all are reset. -/
theorem State.reg_resetRegisters {a : Nat} (hk : keptBlock a = false) (Q : W64 → Prop)
    (hin : ∀ p ∈ s.regs, p.1 = a → Q (afterReset a p.2)) (hout : a ∉ s.regs.map (·.1) → Q (s.reg a)) :
    Q (s.resetRegisters.reg a) := by
  have key : ∀ (l : SMap W64) (t : State), (∀ p ∈ l, p.1 = a → Q (afterReset a p.2)) → (a ∉ l.map (·.1) → Q (t.reg a)) →
      Q ((l.foldl (fun s p => if keptBlock p.1 then s else s.setReg p.1 (afterReset p.1 p.2)) t).reg a) := by
    intro l
    induction l with
    | nil => exact fun t _ h => h (by simp)
    | cons p l ih =>
      intro t h1 h2
      refine ih _ (fun x hx => h1 x (List.mem_cons_of_mem _ hx)) fun hl => ?_
      dsimp only
      by_cases hp : p.1 = a
      · rw [hp, if_neg (by rw [hk]; decide), State.reg_setReg_self]
        exact h1 p List.mem_cons_self hp
      · have ht : Q (t.reg a) := h2 (by
          rw [List.map_cons, List.mem_cons, not_or]
          exact ⟨fun e => hp e.symm, hl⟩)
        split
        · exact ht
        · rw [State.reg_setReg, if_neg fun e => hp e.symm]
          exact ht
  exact key s.regs s hin hout

theorem State.reg_absent {a : Nat} (h : a ∉ s.regs.map (·.1)) : s.reg a = regReset a := SMap.get_absent _ _ _ h

theorem State.f_resetRegisters {q : FRef} (h : clearedAt q = true) : s.resetRegisters.f q = 0 := by
  have hk : keptBlock q.off = false := by
    unfold clearedAt at h
    rw [Bool.and_eq_true, Bool.and_eq_true, Bool.not_eq_true'] at h
    exact h.1.1
  refine State.reg_resetRegisters (s := s) hk (fun w => fld w q.hi q.lo = 0) (fun p _ _ => fld_afterReset h _) fun hn => ?_
  rw [State.reg_absent hn]
  exact fld_regReset h

/-- An entry of a map with distinct keys is what its key holds. -/
theorem SMap.get_of_mem {α : Type} (d : α) : ∀ (m : SMap α), (m.map (·.1)).Nodup → ∀ p ∈ m, SMap.get d m p.1 = p.2
  | [], _, _, h => absurd h List.not_mem_nil
  | (a, v) :: m, hn, p, hp => by
    rw [List.map_cons, List.nodup_cons] at hn
    rcases List.mem_cons.1 hp with rfl | hp
    · exact if_pos rfl
    · have hne : a ≠ p.1 := fun e => hn.1 (List.mem_map.2 ⟨p, hp, e.symm⟩)
      exact (if_neg hne).trans (SMap.get_of_mem d m hn.2 p hp)

theorem State.resets_resetRegisters (h : (s.regs.map (·.1)).Nodup) :
    s.resetRegisters.f EQX_RESETS.COUNT = s.f EQX_RESETS.COUNT := by
  refine State.f_of_reg (State.reg_resetRegisters (s := s) (a := EQX_RESETS.at) (by decide) (fun w => w = s.reg EQX_RESETS.at)
    (fun p hp e => ?_) fun _ => rfl)
  rw [afterReset_resets, ← e]
  exact (SMap.get_of_mem (regReset p.1) s.regs h p hp).symm

end

/-! ## What the end of a reset leaves alone -/

/-- The state but for records, registers, tiles, the reset and the repairs asked for. -/
def State.afterRecords (s : State) : State := { s.noted with tiles := [], resetSeq := none, repairDue := [] }

theorem State.afterRecords_of_noted {s t : State} (h : s.noted = t.noted) : s.afterRecords = t.afterRecords := by
  unfold State.afterRecords
  rw [h]

theorem State.parts_of_afterRecords {s t : State} (h : s.afterRecords = t.afterRecords) :
    s.pages = t.pages ∧ s.blank = t.blank ∧ s.far = t.far := by
  have h1 : ∀ x : State, x.afterRecords.pages = x.pages := fun _ => rfl
  have h2 : ∀ x : State, x.afterRecords.blank = x.blank := fun _ => rfl
  have h3 : ∀ x : State, x.afterRecords.far = x.far := fun _ => rfl
  exact ⟨by rw [← h1 s, h, h1], by rw [← h2 s, h, h2], by rw [← h3 s, h, h3]⟩

section
variable (s : State)

theorem State.noted_resetRegisters : s.resetRegisters.noted = s.noted :=
  foldl_keeps State.noted _ (fun x p => by
    show State.noted (if _ then _ else _) = _
    split
    · rfl
    · exact State.noted_setReg _ _ _) _ _

theorem State.tiles_resetRegisters : s.resetRegisters.tiles = s.tiles := State.tiles_of_noted s.noted_resetRegisters

theorem State.noted_resetRegs (l : List Nat) : (s.resetRegs l).noted = s.noted := rfl

theorem State.afterRecords_setTile (k : Nat) (x : TileState) : (s.setTile k x).afterRecords = s.afterRecords := rfl

theorem State.afterRecords_loadVpcs : s.loadVpcs.afterRecords = s.afterRecords :=
  foldl_keeps State.afterRecords _ (fun x n => by
    show State.afterRecords (if _ then _ else _) = _
    split
    · rfl
    · exact State.afterRecords_setTile _ _ _) _ _

/-- The VPCs are no tiles' cores. -/
theorem State.tile_loadVpcs {k : Nat} (hk : k < 200) : s.loadVpcs.tile k = s.tile k :=
  foldl_keeps (State.tile · k) _ (fun x n => by
    show State.tile (if _ then _ else _) k = _
    split
    · rfl
    · exact (State.tile_setTile _ _ _ _).trans (if_neg (by omega))) _ _

/-- A repair asked of the companion, unless the page is of class A. -/
def State.askOne (s : State) (r : Nat × Nat × Nat × Nat) : State :=
  if r.2.2.2 = 2 then s
  else
    let d : W64 := BitVec.ofNat 64 r.2.2.1
    (s.erq ⟨0x84, 2, bDYL, 0, some r.2.1, r.1, d⟩).post 6 (some r.2.1) d r.1

theorem State.noted_askOne (r : Nat × Nat × Nat × Nat) : (s.askOne r).noted = s.noted := by
  unfold State.askOne
  split
  · rfl
  · exact (State.noted_post _ _ _ _ _).trans (State.noted_erq _ _ _)

theorem State.reg_askOne (r : Nat × Nat × Nat × Nat) {a : Nat} (h : 0x5000 ≤ a) : (s.askOne r).reg a = s.reg a := by
  unfold State.askOne
  split
  · rfl
  · exact (State.reg_of_regs rfl a).trans (State.reg_erq _ _ _ h)

/-- The state in which no repair is due. -/
def State.noRepairs (s : State) : State := { s with repairDue := [] }

/-- The repairs of a list asked for. -/
def State.asked (s : State) (l : List (Nat × Nat × Nat × Nat)) : State := l.foldl State.askOne s

theorem State.askRepair_eq : s.askRepair = s.noRepairs.asked s.repairDue := rfl

theorem State.afterRecords_noRepairs : s.noRepairs.afterRecords = s.afterRecords := rfl
theorem State.tiles_noRepairs : s.noRepairs.tiles = s.tiles := rfl
theorem State.reg_noRepairs (a : Nat) : s.noRepairs.reg a = s.reg a := rfl
theorem State.resetSeq_noRepairs : s.noRepairs.resetSeq = s.resetSeq := rfl

theorem State.noted_asked (l : List (Nat × Nat × Nat × Nat)) : (s.asked l).noted = s.noted := foldl_keeps State.noted _ (fun x r => x.noted_askOne r) _ _

theorem State.resetSeq_of_noted {s t : State} (h : s.noted = t.noted) : s.resetSeq = t.resetSeq := by
  have h1 : ∀ x : State, x.noted.resetSeq = x.resetSeq := fun _ => rfl
  rw [← h1 s, h, h1]

theorem State.askRepair_leaves : s.askRepair.resetSeq = s.resetSeq ∧ s.askRepair.tiles = s.tiles ∧
    s.askRepair.afterRecords = s.afterRecords ∧ ∀ a, 0x5000 ≤ a → s.askRepair.reg a = s.reg a := by
  rw [State.askRepair_eq]
  refine ⟨?_, ?_, ?_, fun a h => ?_⟩
  · rw [State.resetSeq_of_noted (State.noted_asked _ _), State.resetSeq_noRepairs]
  · rw [State.tiles_of_noted (State.noted_asked _ _), State.tiles_noRepairs]
  · rw [State.afterRecords_of_noted (State.noted_asked _ _), State.afterRecords_noRepairs]
  · exact (foldl_keeps (State.reg · a) _ (fun x r => x.reg_askOne r h) _ _).trans (State.reg_noRepairs _ _)

/-- The state with no reset in progress. -/
def State.resetOver (s : State) : State := { s with resetSeq := none }

theorem State.resetOver_leaves : s.resetOver.resetSeq = none ∧ s.resetOver.tiles = s.tiles ∧
    s.resetOver.afterRecords = s.afterRecords ∧ ∀ a, s.resetOver.reg a = s.reg a := ⟨rfl, rfl, rfl, fun _ => rfl⟩

/-- The reset's registers and VPCs, before its record. -/
def State.rebuilt (s : State) : State := (s.resetRegisters.resetRegs (jobList.map XWF_JOB_GROUP.at)).loadVpcs

/-- The RESET_DONE record and the count of resets. -/
def State.resetCounted (s : State) (jf : W32) : State :=
  (s.erq ⟨0x31, 0, bEQX, 0, none, 0, BitVec.ofNat 64 jf.toNat⟩).bump EQX_RESETS.COUNT 1

variable {s}

theorem State.endAllLost_none (h : ∀ j ∈ jobList, s.serving j = false) : s.endAllLost = s := by
  unfold State.endAllLost
  generalize jobList = l at h
  induction l with
  | nil => rfl
  | cons j l ih =>
    have hj : s.endLost j = s := by
      unfold State.endLost
      rw [endRequests_none (h j List.mem_cons_self)]
    rw [List.foldl_cons, hj]
    exact ih fun k hk => h k (List.mem_cons_of_mem _ hk)

theorem State.finishReset_eq {jf : W32} (hr : s.resetSeq = some jf) (h : ∀ j ∈ jobList, s.serving j = false) :
    s.finishReset = (s.rebuilt.resetCounted jf).resetOver.askRepair := by
  have hn : ¬jobList.any s.serving = true := by
    rw [List.any_eq_true]
    rintro ⟨j, hj, e⟩
    rw [h j hj] at e
    cases e
  unfold State.finishReset
  rw [hr]
  dsimp only
  rw [State.endAllLost_none h, if_neg hn]
  rfl

theorem State.rebuilt_leaves : s.rebuilt.afterRecords = s.afterRecords ∧ (∀ k, k < 200 → s.rebuilt.tile k = s.tile k) ∧
    ∀ a, a ∉ jobList.map XWF_JOB_GROUP.at → s.rebuilt.reg a = s.resetRegisters.reg a := by
  unfold State.rebuilt
  refine ⟨?_, fun k hk => ?_, fun a ha => ?_⟩
  · rw [State.afterRecords_loadVpcs, State.afterRecords_of_noted (State.noted_resetRegs _ _),
      State.afterRecords_of_noted s.noted_resetRegisters]
  · rw [State.tile_loadVpcs _ hk, State.tile, State.tiles_of_noted (State.noted_resetRegs _ _), s.tiles_resetRegisters,
      State.tile]
  · rw [State.reg_loadVpcs, State.reg_resetRegs _ ha]

theorem State.resetCounted_leaves (jf : W32) : (s.resetCounted jf).afterRecords = s.afterRecords ∧
    (s.resetCounted jf).tiles = s.tiles ∧
    (s.resetCounted jf).f EQX_RESETS.COUNT = (s.f EQX_RESETS.COUNT + 1) % 2 ^ 32 ∧
    ∀ a, 0x5000 ≤ a → a ≠ EQX_RESETS.at → (s.resetCounted jf).reg a = s.reg a := by
  have hn : (s.resetCounted jf).noted = s.noted := (State.noted_bump _ _ _).trans (State.noted_erq _ _ _)
  refine ⟨State.afterRecords_of_noted hn, State.tiles_of_noted hn, ?_, fun a h ha => ?_⟩
  · unfold State.resetCounted State.bump
    rw [State.f_setF_self _ _ _ (by decide) (by decide), State.f_erq _ _ _ (by decide)]
    rfl
  · unfold State.resetCounted
    rw [State.reg_bump_at _ _ _ ha, State.reg_erq _ _ _ h]

end

theorem not_xwfGroup {a : Nat} (h : a < 0x1201000 ∨ 0x1202000 ≤ a) : a ∉ jobList.map XWF_JOB_GROUP.at := fun hm => by
  obtain ⟨j, hj, e⟩ := List.mem_map.1 hm
  have hj := List.mem_range.1 hj
  unfold XWF_JOB_GROUP.at at e
  omega

theorem regs_nodup_of_wf {s : State} (h : Memory.wf s = true) : (s.regs.map (·.1)).Nodup := by
  simp only [Memory.wf, Bool.and_eq_true, decide_eq_true_eq] at h
  obtain ⟨⟨⟨⟨⟨⟨⟨⟨-, hr⟩, -⟩, -⟩, -⟩, -⟩, -⟩, -⟩, -⟩ := h
  exact hr

/-- A reset that ends with no serving job left leaves every job NONE, every tile unloaded and one more reset counted. -/
theorem resetDone_ends {s : State} (hwf : Memory.wf s = true) (hz : s.zenUp = true) {jf : W32} (hr : s.resetSeq = some jf)
    (h : ∀ j ∈ jobList, s.serving j = false) :
    ∃ t, exec .resetDone s = .next t ∧ t.resetSeq = none ∧ (∀ j, j < 64 → t.jobState j = jNONE) ∧
      (∀ k, k < 200 → t.loaded k = false) ∧ t.f EQX_RESETS.COUNT = (s.f EQX_RESETS.COUNT + 1) % 2 ^ 32 ∧
      (∀ k, k < 200 → t.tile k = s.tile k) ∧ t.pages = s.pages ∧ t.blank = s.blank ∧ t.far = s.far := by
  obtain ⟨a1, a2, a3⟩ := s.rebuilt_leaves
  obtain ⟨b1, b2, b3, b4⟩ := s.rebuilt.resetCounted_leaves jf
  obtain ⟨c1, c2, c3, c4⟩ := (s.rebuilt.resetCounted jf).resetOver_leaves
  obtain ⟨d1, d2, d3, d4⟩ := (s.rebuilt.resetCounted jf).resetOver.askRepair_leaves
  have hreg : ∀ q : FRef, clearedAt q = true → 0x5000 ≤ q.off → q.off ≠ EQX_RESETS.at → (q.off < 0x1201000 ∨ 0x1202000 ≤ q.off) →
      (s.rebuilt.resetCounted jf).resetOver.askRepair.f q = 0 := fun q hq h1 h2 h3 =>
    (State.f_of_reg ((d4 _ h1).trans ((c4 _).trans ((b4 _ h1 h2).trans (a3 _ (not_xwfGroup h3)))))).trans
      (State.f_resetRegisters hq)
  refine ⟨_, (if_pos hz).trans (congrArg Host.Outcome.next (State.finishReset_eq hr h)), d1.trans c1, fun j hj => ?_, fun k hk => ?_,
    ?_, fun k hk => ?_, ?_⟩
  · exact hreg _ (clearedAt_jobState hj) (by simp only [EQX_JOB_STATUS.STATE, EQX_JOB_STATUS.at]; omega)
      (by simp only [EQX_JOB_STATUS.STATE, EQX_JOB_STATUS.at, EQX_RESETS.at]; omega)
      (by simp only [EQX_JOB_STATUS.STATE, EQX_JOB_STATUS.at]; omega)
  · have e := hreg _ (clearedAt_loaded hk) (by simp only [ANV_ID.JOB_V, ANV_ID.at]; omega)
      (by simp only [ANV_ID.JOB_V, ANV_ID.at, EQX_RESETS.at]; omega) (by simp only [ANV_ID.JOB_V, ANV_ID.at]; omega)
    unfold State.loaded State.flag
    rw [e]
    rfl
  · rw [State.f_of_reg (q := EQX_RESETS.COUNT) (d4 EQX_RESETS.at (by decide)),
      State.f_of_reg (q := EQX_RESETS.COUNT) (c4 EQX_RESETS.at), b3,
      State.f_of_reg (q := EQX_RESETS.COUNT) (a3 EQX_RESETS.at (not_xwfGroup (.inl (by decide)))),
      State.resets_resetRegisters (regs_nodup_of_wf hwf)]
  · rw [State.tile, d2, c2, b2]
    exact a2 k hk
  · exact State.parts_of_afterRecords (d3.trans (c3.trans (b1.trans a1)))

/-- Settles O39. The first steps of a reset keep what a step of the accesses keeps and then empty the state, and its end is
read register by register. That steps 1 to 6 of R603 happen in the step of the fault is the model's choice (log entry 72). -/
theorem computeReset : Obligations.ComputeReset := by
  unfold Obligations.ComputeReset
  refine ⟨fun s cause r h => fatalFault_begins s cause r h, fun s cause r h => ?_, fun s hwf hz hr => ?_⟩
  · obtain ⟨q, hq⟩ := Option.isSome_iff_exists.1 h
    show s.startReset (some cause) r = _
    unfold State.startReset
    rw [hq]
  · obtain ⟨jf, hjf⟩ := Option.isSome_iff_exists.1 hr
    refine ⟨fun h => resetDone_ends hwf hz hjf fun j hj => ?_, fun h => ?_⟩
    · simpa using List.all_eq_true.1 h j hj
    · refine (if_pos hz).trans (congrArg Host.Outcome.next ?_)
      unfold State.finishReset
      rw [hjf]
      exact if_pos h

end Sys2Proof.Machine

/-! PROOFS. What every step keeps: the queue of commands, and the canonical form of the memories. -/
namespace Sys2Proof.Machine

/-! ## Keyed maps without repeated keys -/

theorem SMap.nodup_filter {α : Type} (m : SMap α) (f : Nat × α → Bool) (h : (m.map (·.1)).Nodup) : ((m.filter f).map (·.1)).Nodup :=
  h.sublist (List.filter_sublist.map _)

theorem SMap.nodup_erase {α : Type} (m : SMap α) (k : Nat) (h : (m.map (·.1)).Nodup) : ((SMap.erase m k).map (·.1)).Nodup := by
  rw [SMap.erase_eq_filter]
  exact SMap.nodup_filter m _ h

theorem SMap.nodup_insert {α : Type} (m : SMap α) (k : Nat) (v : α) (hk : ∀ p ∈ m, p.1 ≠ k) (h : (m.map (·.1)).Nodup) :
    ((SMap.insert m k v).map (·.1)).Nodup := by
  induction m with
  | nil => exact List.nodup_singleton k
  | cons x m ih =>
    obtain ⟨a, y⟩ := x
    have hne : a ≠ k := hk (a, y) List.mem_cons_self
    have hk' : ∀ p ∈ m, p.1 ≠ k := fun p hp => hk p (List.mem_cons_of_mem _ hp)
    unfold SMap.insert
    split
    · rw [List.map_cons, List.nodup_cons]
      refine ⟨fun hm => ?_, h⟩
      obtain ⟨p, hp, e⟩ := List.mem_map.1 hm
      exact hk p hp e
    · rw [List.map_cons, List.nodup_cons] at h ⊢
      refine ⟨fun hm => ?_, ih hk' h.2⟩
      obtain ⟨p, hp, e⟩ := List.mem_map.1 hm
      rcases SMap.insert_mem m k v p hp with rfl | hp
      · exact hne e.symm
      · exact h.1 (List.mem_map.2 ⟨p, hp, e⟩)

theorem SMap.nodup_put {α : Type} [DecidableEq α] (d : α) (m : SMap α) (k : Nat) (v : α) (h : (m.map (·.1)).Nodup) :
    ((SMap.put d m k v).map (·.1)).Nodup := by
  unfold SMap.put
  split
  · exact SMap.nodup_erase m k h
  · exact SMap.nodup_insert _ k v (fun p hp => (SMap.erase_keys m k p hp).1) (SMap.nodup_erase m k h)

theorem SMap.sorted_erase {α : Type} (m : SMap α) (k : Nat) (h : SMap.sorted m = true) : SMap.sorted (SMap.erase m k) = true := by
  rw [SMap.erase_eq_filter]
  exact SMap.sorted_filter m _ h

theorem SMap.sorted_insert {α : Type} (m : SMap α) (k : Nat) (v : α) (hk : ∀ p ∈ m, p.1 ≠ k) (h : SMap.sorted m = true) :
    SMap.sorted (SMap.insert m k v) = true := by
  induction m with
  | nil => rfl
  | cons x m ih =>
    obtain ⟨a, y⟩ := x
    have hne : a ≠ k := hk (a, y) List.mem_cons_self
    obtain ⟨h1, h2⟩ := (SMap.sorted_cons a y m).1 h
    unfold SMap.insert
    split
    next hlt =>
      refine (SMap.sorted_cons k v _).2 ⟨fun p hp => ?_, h⟩
      rcases List.mem_cons.1 hp with rfl | hp
      · exact hlt
      · exact hlt.trans (h1 p hp)
    · refine (SMap.sorted_cons a y _).2 ⟨fun p hp => ?_, ih (fun p hp => hk p (List.mem_cons_of_mem _ hp)) h2⟩
      rcases SMap.insert_mem m k v p hp with rfl | hp
      · show a < k
        omega
      · exact h1 p hp

/-! ## The stores of a state -/

/-- The canonical form of the memories, part by part. -/
structure State.Stored (s : State) : Prop where
  far : Bytes.wf s.far = true
  scratch : Bytes.wf s.scratch = true
  comp : Bytes.wf s.comp = true
  flash : Bytes.wf s.flash = true
  regs : (s.regs.map (·.1)).Nodup
  rqt : (s.rqt.map (·.1)).Nodup
  srv : (s.srv.map (·.1)).Nodup
  pages : SMap.sorted s.pages = true
  bare : (s.pages.all fun p => !p.2.bare) = true
  blank : Runs.wf none s.blank = true
  reserve : SMap.wf Page.zero s.reserve = true
  slots : SMap.wf Slot.zero s.slots = true

theorem State.stored_iff {s : State} : Memory.wf s = true ↔ s.Stored := by
  simp only [Memory.wf, Bool.and_eq_true, decide_eq_true_eq]
  constructor
  · rintro ⟨⟨⟨⟨⟨⟨⟨⟨⟨⟨⟨h1, h2⟩, h3⟩, h4⟩, h5⟩, h6⟩, h7⟩, h8⟩, h9⟩, h10⟩, h11⟩, h12⟩
    exact ⟨h1, h2, h3, h4, h5, h6, h7, h8, h9, h10, h11, h12⟩
  · rintro ⟨h1, h2, h3, h4, h5, h6, h7, h8, h9, h10, h11, h12⟩
    exact ⟨⟨⟨⟨⟨⟨⟨⟨⟨⟨⟨h1, h2⟩, h3⟩, h4⟩, h5⟩, h6⟩, h7⟩, h8⟩, h9⟩, h10⟩, h11⟩, h12⟩

/-- The queue is p and, where w holds, the memories are in canonical form. -/
def Fit (p : List Instr) (w : Prop) (s : State) : Prop := s.pending = p ∧ (w → Memory.wf s = true)

section
variable {p : List Instr} {w : Prop} {s : State}

theorem Fit.store {t : State} (h : Fit p w s) (k : s.Stored → t.Stored) (e : t.pending = s.pending := by rfl) : Fit p w t :=
  ⟨e.trans h.1, fun hw => State.stored_iff.2 (k (State.stored_iff.1 (h.2 hw)))⟩

/-! ## Stores written -/

theorem Fit.setReg (h : Fit p w s) (a : Nat) (v : W64) : Fit p w (s.setReg a v) :=
  h.store fun h => { h with regs := SMap.nodup_put _ _ _ _ h.regs }

theorem Fit.regsFilter (h : Fit p w s) (f : Nat × W64 → Bool) : Fit p w { s with regs := s.regs.filter f } :=
  h.store fun h => { h with regs := SMap.nodup_filter _ f h.regs }

theorem Fit.resetRegs (h : Fit p w s) (l : List Nat) : Fit p w (s.resetRegs l) := by
  refine h.store fun h => { h with regs := ?_ }
  show ((l.foldl SMap.erase s.regs).map (·.1)).Nodup
  exact foldl_inv (P := fun m : SMap W64 => (m.map (·.1)).Nodup) h.regs fun m k _ hm => SMap.nodup_erase m k hm

theorem Fit.setReq (h : Fit p w s) (i : Nat) (r : Req) : Fit p w (s.setReq i r) :=
  h.store fun h => { h with rqt := SMap.nodup_put _ _ _ _ h.rqt }

theorem Fit.setSrvJob (h : Fit p w s) (j : Nat) (x : SrvJob) : Fit p w (s.setSrvJob j x) :=
  h.store fun h => { h with srv := SMap.nodup_put _ _ _ _ h.srv }

theorem Fit.setSlot (h : Fit p w s) (n i : Nat) (x : Slot) : Fit p w (s.setSlot n i x) :=
  h.store fun h => { h with slots := SMap.wf_put _ _ _ _ h.slots }

theorem Fit.slotsDrop (h : Fit p w s) (a n : Nat) : Fit p w { s with slots := SMap.dropRange s.slots a n } :=
  h.store fun h => { h with slots := SMap.wf_dropRange _ _ _ _ h.slots }

theorem Fit.reserve (h : Fit p w s) (k : Nat) (pg : Page) : Fit p w { s with reserve := SMap.put Page.zero s.reserve k pg } :=
  h.store fun h => { h with reserve := SMap.wf_put _ _ _ _ h.reserve }

theorem Fit.blankRun (h : Fit p w s) (lo n : Nat) (b : Option Blank) :
    Fit p w { s with blank := Runs.set none s.blank lo n b } :=
  h.store fun h => { h with blank := Runs.wf_set none _ _ _ _ h.blank }

theorem Fit.setBlank (h : Fit p w s) (lo n : Nat) (b : Option Blank) : Fit p w (s.setBlank lo n b) := by
  refine h.store fun h => { h with blank := ?_, pages := ?_, bare := ?_ }
  · exact SMap.sorted_filter _ _ h.pages
  · refine List.all_eq_true.2 fun x hx => ?_
    exact List.all_eq_true.1 h.bare x (List.mem_filter.1 hx).1
  · exact Runs.wf_set none _ _ _ _ h.blank

theorem Fit.pageListed (h : Fit p w s) (gp : Nat) {pg : Page} (hb : pg.bare = false) :
    Fit p w { s with pages := SMap.insert (SMap.erase s.pages gp) gp pg } := by
  refine h.store fun h => { h with pages := ?_, bare := ?_ }
  · exact SMap.sorted_insert _ _ _ (fun p hp => (SMap.erase_keys _ _ p hp).1) (SMap.sorted_erase _ _ h.pages)
  · refine List.all_eq_true.2 fun x hx => ?_
    rcases SMap.insert_mem _ _ _ x hx with rfl | hx
    · show (!pg.bare) = true
      rw [hb]
      rfl
    · exact List.all_eq_true.1 h.bare x (SMap.erase_keys _ _ x hx).2

theorem Fit.setPage (h : Fit p w s) (gp : Nat) (pg : Page) : Fit p w (s.setPage gp pg) := by
  unfold State.setPage
  split
  · exact h.reserve _ _
  · split
    · exact h.setBlank _ _ _
    next hb => exact h.pageListed gp (Bool.not_eq_true _ ▸ hb)

theorem Fit.farWrite (h : Fit p w s) (a : Nat) (bs : List Byte) (g : List Nat) :
    Fit p w { s with far := Bytes.wrList s.far a bs, farPoison := g } :=
  h.store fun h => { h with far := Bytes.wrList_wf _ _ _ h.far }

theorem Fit.farDrop (h : Fit p w s) (a n : Nat) (g : List Nat) :
    Fit p w { s with far := SMap.dropRange s.far a n, farPoison := g } :=
  h.store fun h => { h with far := SMap.wf_dropRange _ _ _ _ h.far }

theorem Fit.scratchWrite (h : Fit p w s) (a : Nat) (bs : List Byte) (g k : List Nat) :
    Fit p w { s with scratch := Bytes.wrList s.scratch a bs, scratchBad := g, scratchWeak := k } :=
  h.store fun h => { h with scratch := Bytes.wrList_wf _ _ _ h.scratch }

theorem Fit.scratchDrop (h : Fit p w s) (a n : Nat) (g k : List Nat) :
    Fit p w { s with scratch := SMap.dropRange s.scratch a n, scratchBad := g, scratchWeak := k } :=
  h.store fun h => { h with scratch := SMap.wf_dropRange _ _ _ _ h.scratch }

theorem Fit.noLines (h : Fit p w s) : Fit p w s.noLines := h.store (t := s.noLines) fun h => { h with scratch := rfl }

theorem Fit.toComp (h : Fit p w s) (a : Nat) (bs : List Byte) : Fit p w (s.toComp a bs) :=
  h.store fun h => { h with comp := Bytes.wrList_wf _ _ _ h.comp }

theorem Fit.flashSet (h : Fit p w s) {b : Bytes} (hb : Bytes.wf s.flash = true → Bytes.wf b = true) :
    Fit p w { s with flash := b } :=
  h.store fun h => { h with flash := hb h.flash }

/-! ## Accesses -/

theorem State.wf_untouched (s : State) : Memory.wf s.untouched = Memory.wf s := rfl
theorem State.pending_untouched (s : State) : s.untouched.pending = s.pending := rfl

theorem Fit.untouched {t : State} (h : Fit p w s) (e : t.untouched = s.untouched) : Fit p w t :=
  ⟨by rw [← t.pending_untouched, e, s.pending_untouched, h.1], fun hw => by rw [← t.wf_untouched, e, s.wf_untouched, h.2 hw]⟩

theorem fit_steady : Steady (Fit p w) where
  apart h e := h.untouched e
  setReg v h _ := h.setReg _ v
  setPage gp pg h := h.setPage gp pg
  far a bs g h := h.farWrite a bs g
  scratch a bs g k h := h.scratchWrite a bs g k
  setLine _ _ _ h := h
  setReq i r h := h.setReq i r
  setSrvJob j x h := h.setSrvJob j x

theorem fit_loads : Loads (Fit p w) where
  toPageSteady := fit_steady.toPageSteady
  setBlank lo n b h := h.setBlank lo n b
  blankRun lo n b h := h.blankRun lo n b
  farDrop a n g h := h.farDrop a n g
  scratchDrop a n g k h := h.scratchDrop a n g k
  slotsDrop a n h := h.slotsDrop a n

end

end Sys2Proof.Machine

/-! PROOFS. What every step keeps, through the updates that units share: registers, records, counters, tiles, pools. -/
namespace Sys2Proof.Machine

section
variable {p : List Instr} {w : Prop} {s : State}

/-! ## Choices and folds -/

theorem Fit.ite {c : Prop} [Decidable c] {a b : State} (ha : Fit p w a) (hb : Fit p w b) : Fit p w (if c then a else b) := by
  split
  · exact ha
  · exact hb

theorem Fit.foldl {α : Type} {f : State → α → State} {l : List α} (h : Fit p w s)
    (k : ∀ {s : State} {a : α}, Fit p w s → Fit p w (f s a)) : Fit p w (l.foldl f s) :=
  foldl_inv h fun _ _ _ h => k h

/-! ## Registers -/

theorem Fit.setF (h : Fit p w s) {r v} : Fit p w (s.setF r v) := h.setReg _ _
theorem Fit.setFlag (h : Fit p w s) {r b} : Fit p w (s.setFlag r b) := h.setReg _ _
theorem Fit.bump (h : Fit p w s) {r n} : Fit p w (s.bump r n) := h.setReg _ _
theorem Fit.bumpSat (h : Fit p w s) {r n} : Fit p w (s.bumpSat r n) := h.setReg _ _
theorem Fit.setSigned (h : Fit p w s) {r v} : Fit p w (s.setSigned r v) := h.setReg _ _

theorem Fit.storeWords {ws : List W64} : ∀ {s : State} {a : Nat}, Fit p w s → Fit p w (s.storeWords a ws) := by
  induction ws with
  | nil => exact fun h => h
  | cons v ws ih => exact fun h => ih (h.setReg _ _)

theorem Fit.perfAdd (h : Fit p w s) {c o n} : Fit p w (s.perfAdd c o n) := by
  unfold State.perfAdd
  extract_lets v u
  exact .ite h.setF.setFlag h.setF

theorem Fit.anvEvent (h : Fit p w s) {t ev n} : Fit p w (s.anvEvent t ev n) := fit_steady.anvEvent h _ _ _
theorem Fit.vrgEvent (h : Fit p w s) {n ev k} : Fit p w (s.vrgEvent n ev k) := fit_steady.vrgEvent h _ _ _

/-! ## Records and messages -/

theorem Fit.due (h : Fit p w s) {a t} : Fit p w (s.due a t) := fit_steady.due h _ _
theorem Fit.post (h : Fit p w s) {k j v a} : Fit p w (s.post k j v a) := h
theorem Fit.erq (h : Fit p w s) {r joined} : Fit p w (s.erq r joined) := fit_steady.erq h _ _
theorem Fit.erqQueue (h : Fit p w s) {n r joined} : Fit p w (s.erqQueue n r joined) := fit_steady.erqQueue h _ _ _
theorem Fit.takeFree (h : Fit p w s) : Fit p w s.takeFree := h

/-! ## Tiles and jobs -/

theorem Fit.setTile (h : Fit p w s) {t x} : Fit p w (s.setTile t x) := h
theorem Fit.setCtx (h : Fit p w s) {j l x} : Fit p w (s.setCtx j l x) := fit_steady.setCtx h _ _ _
theorem Fit.setQueue (h : Fit p w s) {j l q v} : Fit p w (s.setQueue j l q v) := h.setCtx
theorem Fit.setLine (h : Fit p w s) {j n x} : Fit p w (s.setLine j n x) := h
theorem Fit.setMergeBuf (h : Fit p w s) {gc l} : Fit p w (s.setMergeBuf gc l) := h

theorem Fit.unpark (h : Fit p w s) {j} : Fit p w (s.unpark j) := by
  unfold State.unpark
  split
  · exact h
  · exact h

theorem Fit.signal (h : Fit p w s) {j l tok inc} : Fit p w (s.signal j l tok inc) := h.setCtx.unpark

theorem Fit.anvCe (h : Fit p w s) {t n} : Fit p w (s.anvCe t n) := fit_steady.anvCe h _ _
theorem Fit.anvUe (h : Fit p w s) {t u r o} : Fit p w (s.anvUe t u r o) := fit_steady.anvUe h _ _ _ _
theorem Fit.clbCe (h : Fit p w s) {j q a k} : Fit p w (s.clbCe j q a k) := fit_steady.clbCe h _ _ _ _
theorem Fit.forceWrite (h : Fit p w s) {a bs} : Fit p w (s.forceWrite a bs) := fit_steady.forceWrite h _ _
theorem Fit.writeBackEntry (h : Fit p w s) {e} : Fit p w (s.writeBackEntry e) := fit_steady.writeBackEntry h _
theorem Fit.endLost (h : Fit p w s) {j} : Fit p w (s.endLost j) := fit_steady.endLost h _

/-! ## Domains -/

theorem Fit.resync (h : Fit p w s) {d} : Fit p w (s.resync d) := .ite h.setF h

theorem Fit.showOff (h : Fit p w s) {d off} : Fit p w (s.showOff d off) := .ite (h.foldl fun h => h.setFlag) (.ite h.setFlag h)

theorem Fit.powerOff (h : Fit p w s) {d} : Fit p w (s.powerOff d) := (h.setReg _ _).showOff

theorem Fit.enterPlain (h : Fit p w s) {n} : Fit p w (s.enterPlain n) := by
  rw [State.enterPlain_eq]
  exact (h.setF.setTile.slotsDrop _ _).powerOff

/-! ## Balances and demand -/

theorem Fit.endReq (h : Fit p w s) {i st} : Fit p w (s.endReq i st) := .ite (h.setReq _ _).bumpSat (h.setReq _ _)

theorem Fit.setBalT (h : Fit p w s) {j b} : Fit p w (s.setBalT j b) := h.setSigned.setFlag
theorem Fit.setBalV (h : Fit p w s) {n j b} : Fit p w (s.setBalV n j b) := h.setSigned.setF
theorem Fit.debitT (h : Fit p w s) {j b} : Fit p w (s.debitT j b) := h.setBalT.bump
theorem Fit.debitV (h : Fit p w s) {n j b} : Fit p w (s.debitV n j b) := h.setBalV.bump

theorem Fit.demT (h : Fit p w s) (l : List Nat) : Fit p w { s with demT := l } := h
theorem Fit.demV (h : Fit p w s) (l : List Nat) : Fit p w { s with demV := l } := h
theorem Fit.sharesT (h : Fit p w s) (m : SMap Nat) (l : List Nat) : Fit p w { s with shareT := m, demT := l } := h
theorem Fit.sharesV (h : Fit p w s) (m : SMap Nat) (l : List Nat) : Fit p w { s with shareV := m, demV := l } := h

theorem Fit.noteDemandT (h : Fit p w s) : Fit p w s.noteDemandT := h.demT _
theorem Fit.noteDemandV (h : Fit p w s) {n j} : Fit p w (s.noteDemandV n j) := .ite (h.demV _) h

theorem Fit.endRoundT (h : Fit p w s) : Fit p w s.endRoundT := by
  unfold State.endRoundT
  extract_lets len js cr u sh
  have hu : Fit p w u := h.foldl fun h => h.setBalT
  exact hu.sharesT _ _

theorem Fit.endRoundV (h : Fit p w s) {n} : Fit p w (s.endRoundV n) := by
  unfold State.endRoundV
  extract_lets len js sum cr u sh dem
  have hu : Fit p w u := h.foldl fun h => h.setBalV
  exact hu.sharesV _ _

end

end Sys2Proof.Machine

/-! PROOFS. What every step keeps, through faults, compute resets and running work, and the rows that run it. -/
namespace Sys2Proof.Machine

section
variable {p : List Instr} {w : Prop} {s : State}

/-! ## Compute resets (R422, R602 - R604) -/

theorem Fit.emptied (h : Fit p w s) : Fit p w s.emptied := h.store fun h => { h with slots := rfl }
theorem Fit.clearHaltLatches (h : Fit p w s) : Fit p w s.clearHaltLatches := h.regsFilter _

theorem Fit.stopCompute (h : Fit p w s) : Fit p w s.stopCompute := by
  have hc : Fit p w s.endAllLost.clbReset := by
    rw [State.clbReset_eq]
    exact (fit_steady.linesReset (fit_steady.endAllLost h)).noLines
  rw [State.stopCompute_eq]
  exact (fit_steady.mergeReset hc).clearHaltLatches.emptied

theorem Fit.faultLatched (h : Fit p w s) {cause r seq} : Fit p w (s.faultLatched cause r seq) := by
  unfold State.faultLatched
  split
  · exact .ite h (h.setReg _ _)
  · exact h

theorem Fit.resetBegun (h : Fit p w s) {q} : Fit p w (s.resetBegun q) := h

theorem Fit.beginReset (h : Fit p w s) {cause r seq} : Fit p w (s.beginReset cause r seq) := by
  rw [State.beginReset_eq]
  exact h.faultLatched.erq.resetBegun.stopCompute

theorem Fit.startReset (h : Fit p w s) {cause r} : Fit p w (s.startReset cause r) := by
  unfold State.startReset
  split
  · exact h.erq
  · exact h.erq.beginReset

theorem Fit.fatalFault (h : Fit p w s) {cause r} : Fit p w (s.fatalFault cause r) := h.startReset

theorem Fit.askOne (h : Fit p w s) {r} : Fit p w (s.askOne r) := .ite h h.erq.post
theorem Fit.noRepairs (h : Fit p w s) : Fit p w s.noRepairs := h

theorem Fit.askRepair (h : Fit p w s) : Fit p w s.askRepair := by
  rw [State.askRepair_eq]
  exact h.noRepairs.foldl fun h => h.askOne

theorem Fit.loadVpcs (h : Fit p w s) : Fit p w s.loadVpcs := h.foldl fun h => .ite h h.setTile

theorem Fit.resetRegisters (h : Fit p w s) : Fit p w s.resetRegisters := h.foldl fun h => .ite h (h.setReg _ _)

theorem Fit.resetOver (h : Fit p w s) : Fit p w s.resetOver := h

theorem Fit.endAllLost (h : Fit p w s) : Fit p w s.endAllLost := fit_steady.endAllLost h

theorem Fit.finishReset (h : Fit p w s) : Fit p w s.finishReset := by
  unfold State.finishReset
  split
  · exact h
  · extract_lets u v x y
    have hu : Fit p w u := h.endAllLost
    have hx : Fit p w x := (hu.resetRegisters.resetRegs _).loadVpcs
    have hy : Fit p w y := hx.erq.bump
    exact .ite hu hy.resetOver.askRepair

/-! ## Running work, and rows -/

/-- The row ends in a next state that keeps the queue and the memories' form. -/
def Fits (p : List Instr) (w : Prop) (o : Out) : Prop := ∃ t, o = .next t ∧ Fit p w t

theorem Fit.next (h : Fit p w s) : Fits p w (.next s) := ⟨s, rfl, h⟩

theorem Fits.ite {c : Prop} [Decidable c] {a b : Out} (ha : Fits p w a) (hb : Fits p w b) : Fits p w (if c then a else b) := by
  split
  · exact ha
  · exact hb

theorem Fit.runs (h : Fit p w s) {x : EM Unit} (hx : x.Keeps (Fit p w)) : Fit p w (s.runs x) := by
  have hk := hx s h
  unfold State.runs
  split
  case h_3 => exact h
  case h_2 e =>
    rw [e] at hk
    exact hk.fatalFault
  all_goals
    next e =>
    rw [e] at hk
    exact hk

theorem Fit.row (h : Fit p w s) {x : EM Unit} (hx : x.Keeps (Fit p w)) : Fits p w (rowOf x s) := (h.runs hx).next

end

end Sys2Proof.Machine

/-! PROOFS. What every step keeps, through the operands of commands: reads of elements and writes of granules. -/
namespace Sys2Proof.Machine

section
variable {p : List Instr} {w : Prop} {s : State} {α β : Type}

/-! ## Shared forms of work -/

theorem at_fits {e : Eng} {dir pos : Nat} {x : EM α} (h : x.Keeps (Fit p w)) : (e.at_ dir pos x).Keeps (Fit p w) :=
  .tryCatch h fun e => by cases e <;> exact .throw

theorem atTile_fits {t : Nat} {x : EM α} (h : x.Keeps (Fit p w)) : (atTile t x).Keeps (Fit p w) :=
  .tryCatch h fun e => by cases e <;> exact .throw

theorem raise_fits : ∀ {o : Option HaltRec}, (raise o).Keeps (Fit p w)
  | some _ => .throw
  | none => .pure

theorem readUntil_fits {f : α → EM β} (h : ∀ a, (f a).Keeps (Fit p w)) : ∀ l, (readUntil f l).Keeps (Fit p w)
  | [] => .pure
  | a :: t => by
    refine .bind (.tryCatch (.bind (h a) fun _ => .pure) fun e => ?_) fun r => ?_
    · cases e with
      | halt _ => exact .pure
      | _ => exact .throw
    · cases r with
      | inr _ => exact .pure
      | inl _ => exact .bind (readUntil_fits h t) fun _ => .pure

theorem untilStop_fits {act : α → EM Unit} (h : ∀ a, (act a).Keeps (Fit p w)) : ∀ l, (untilStop act l).Keeps (Fit p w)
  | [] => .pure
  | a :: t => by
    refine .read fun s hs => ?_
    have hk := h a s hs
    split
    next e =>
      rw [e] at hk
      exact .bind (.set hk) fun _ => untilStop_fits h t
    · exact .pure

theorem allOrNone_fits {act : α → EM Unit} (h : ∀ a, (act a).Keeps (Fit p w)) {l : List α} :
    (allOrNone act l).Keeps (Fit p w) :=
  .read fun _ hs => .bind (untilStop_fits h l) fun r => by
    cases r with
    | nil => exact .pure
    | cons a _ => exact .bind (.set hs) fun _ => h a

theorem undoBus_fits {x : EM α} (h : x.Keeps (Fit p w)) : (undoBus x).Keeps (Fit p w) :=
  .read fun _ hs => .tryCatch h fun e => by
    cases e with
    | bus _ => exact .bind (.set hs) fun _ => .throw
    | _ => exact .throw

/-! ## Reads -/

theorem jobRead_fits {who a n} : (jobRead who a n).Keeps (Fit p w) := jobRead_keeps fit_steady _ _ _
theorem jobWrite_fits {who a bs} : (jobWrite who a bs).Keeps (Fit p w) := jobWrite_keeps fit_steady _ _ _
theorem checkSeg_fits {who a n wr} : (checkSeg who a n wr).Keeps (Fit p w) := checkSeg_keeps _ _ _ _
theorem readSpan_fits {who sz a n} : (readSpan who sz a n).Keeps (Fit p w) := readSpan_keeps fit_steady _ _ _ _
theorem writeSpan_fits {who sz a bs} : (writeSpan who sz a bs).Keeps (Fit p w) := writeSpan_keeps fit_steady _ _ _ _

theorem readBits_fits {who o n} : (readBits who o n).Keeps (Fit p w) := .bind jobRead_fits fun _ => .pure

theorem readParts_fits {who} : ∀ {l}, (readParts who l).Keeps (Fit p w)
  | [] => .pure
  | _ :: _ => .bind readBits_fits fun _ => .bind readParts_fits fun _ => .pure

theorem readCode_fits {who v np ix} : (readCode who v np ix).Keeps (Fit p w) := by
  have hend (x : Nat) : EM.Keeps (Fit p w) (do let c ← readParts who (v.loc np ix).parts; pure (c, x) : EM (Nat × Nat)) :=
    .bind readParts_fits fun _ => .pure
  unfold readCode
  dsimp only
  split
  · exact .bind jobRead_fits fun _ => .bind .pure hend
  · exact .bind .pure hend

theorem readElem_fits {who v np rc ix} : (readElem who v np rc ix).Keeps (Fit p w) := .bind readCode_fits fun _ => .pure

/-! ## Writes -/

theorem writeGran_fits {e g} : (writeGran e g).Keeps (Fit p w) :=
  atTile_fits (.bind (at_fits (.forM (fun _ => checkSeg_fits) _)) fun _ => .ite
    (fun _ => at_fits (undoBus_fits (.forM (fun _ => writeSpan_fits) _)))
    fun _ => .bind (at_fits readSpan_fits) fun _ => at_fits writeSpan_fits)

theorem writePieces_fits {e ps} : (writePieces e ps).Keeps (Fit p w) :=
  .read fun _ hs => .bind (untilStop_fits (fun _ => writeGran_fits) _) fun r => by
    cases r with
    | nil => exact .pure
    | cons g _ => exact .bind (.set hs) fun _ => .bind (.forM (fun _ => writeGran_fits) _) fun _ => writeGran_fits

theorem storedElem_fits {who v ix} : (storedElem who v ix).Keeps (Fit p w) := by
  have hend (x : Nat) (l : Loc) : EM.Keeps (Fit p w) (do
      let c ← l.parts.reverse.foldlM (fun acc p => do
        let y ← readSpan who 2 (p.1 / 8) ((p.1 + p.2 - 1) / 8 - p.1 / 8 + 1)
        pure (acc * 2 ^ p.2 + leNat y / 2 ^ (p.1 % 8) % 2 ^ p.2)) 0
      pure (some (codeValue v.fmt v.fmt.bits .trunc x c)) : EM (Option FVal)) :=
    .bind (.foldlM (fun _ _ => .bind readSpan_fits fun _ => .pure) _ _) fun _ => .pure
  refine .ite (fun _ => .bind checkSeg_fits fun _ => ?_) fun _ => .pure
  split
  · exact .bind readSpan_fits fun _ => .bind .pure fun x => hend x _
  · exact .bind .pure fun x => hend x _

theorem blockPieces_fits {e v pos ws b} : (blockPieces e v pos ws b).Keeps (Fit p w) := by
  refine .bind (at_fits (.mapM (fun i => ?_) _)) fun _ => .pure
  dsimp only
  split
  · exact .pure
  · exact .bind storedElem_fits fun _ => .pure

theorem writes_fits {e : Eng} {v rm ov keep ws pads} : (e.writes v rm ov keep ws pads).Keeps (Fit p w) :=
  .ite (fun _ => .bind (readUntil_fits (fun _ => blockPieces_fits) _) fun _ => .bind writePieces_fits fun _ => raise_fits)
    fun _ => writePieces_fits

end

end Sys2Proof.Machine

/-! PROOFS. What every step keeps, through the queues of a tile and the matrix, vector and attention engines. -/
namespace Sys2Proof.Machine

section
variable {p : List Instr} {w : Prop} {s : State}

/-! ## Queues (chapter 6) -/

theorem Fit.signalAll (h : Fit p w s) {j l c} : Fit p w (s.signalAll j l c) := by
  have h1 : Fit p w (if cf c 0 52 52 = 1 then s.signal j l (cf c 0 31 24) (cf c 0 23 16) else s) := .ite h.signal h
  exact .ite h1.signal h1

theorem Fit.virgaRound (h : Fit p w s) {n} : Fit p w (s.virgaRound n) := .ite h.endRoundV h
theorem Fit.tileFault (h : Fit p w s) {t q} : Fit p w (s.tileFault t q) := .ite h.setFlag h
theorem Fit.vrgBit (h : Fit p w s) {n b} : Fit p w (s.vrgBit n b) := (Fit.ite h h.setFlag).setFlag
theorem Fit.vrgFaultAt (h : Fit p w s) (m : SMap Nat) : Fit p w { s with vrgFaultAt := m } := h

theorem Fit.vrgFault (h : Fit p w s) {n} : Fit p w (s.vrgFault n) := by
  unfold State.vrgFault
  extract_lets last u v
  have hu : Fit p w u := .ite h.due h
  exact (hu.vrgFaultAt _).fatalFault

theorem Fit.vrgUe (h : Fit p w s) {n b} : Fit p w (s.vrgUe n b) := .ite h.vrgBit.erq h.vrgBit.vrgFault

theorem Fit.rrLast (h : Fit p w s) (m : SMap Nat) : Fit p w { s with rrLast := m } := h

theorem Fit.startCommand (h : Fit p w s) {j l q} : Fit p w (s.startCommand j l q) := by
  unfold State.startCommand
  extract_lets u x
  have hu : Fit p w u := .ite h.virgaRound h
  split
  · exact hu
  · refine .ite (.ite ?_ hu.tileFault.fatalFault) hu
    extract_lets y z
    have hy : Fit p w y := hu.setQueue.anvEvent
    have hz : Fit p w z := .ite hy.vrgEvent hy
    exact .ite (hz.rrLast _) (.ite hz.bump hz)

theorem commandStart_fits (h : Fit p w s) {j l q} : Fits p w (execCommandStart j l q s) := h.startCommand.next

theorem queueSend_fits (h : Fit p w s) {j l q} : Fits p w (execQueueSend j l q s) := by
  unfold execQueueSend
  extract_lets x
  split
  · exact .ite h.setQueue.next h.next
  · exact h.next

theorem destAccept_fits (h : Fit p w s) {j l q} : Fits p w (execDestAccept j l q s) := by
  unfold execDestAccept
  extract_lets x
  split
  · exact .ite h.setQueue.next (.ite h.next (.ite (Fit.ite h.setQueue.noteDemandV h.setQueue).next h.next))
  · exact h.next

theorem Fit.reportCode (h : Fit p w s) {j l q code} : Fit p w (s.reportCode j l q code) :=
  .ite (.ite h.bump.setF h) (.ite (.ite h.bump.setF h) (.ite (.ite h.bump.setF h) (.ite h.bump.setF h.bump.setF)))

theorem view_fits (h : Fit p w s) {j l q} : Fits p w (execView j l q s) := by
  unfold execView
  extract_lets x
  split
  · exact h.next
  · refine .ite (.ite ?_ h.tileFault.fatalFault.next) h.next
    extract_lets v views x u t
    have hu : Fit p w u := h.setQueue.anvEvent
    have ht : Fit p w t := .ite hu.vrgEvent hu
    exact ht.reportCode.next

theorem Fit.setFlight (h : Fit p w s) {j l q i f} : Fit p w (s.setFlight j l q i f) := h.setQueue

/-- A row that runs a command keeps what the command's work keeps. -/
theorem runCommand_fits (h : Fit p w s) {j l q pr} {work : Eng → Flight → EM Nat} (hw : ∀ e f, (work e f).Keeps (Fit p w)) :
    Fits p w (runCommand j l q pr work s) := by
  unfold runCommand
  refine .ite ?_ h.next
  split
  · exact h.next
  next i f _ =>
    extract_lets e x
    have hx : x.Keeps (Fit p w) := .ite (fun _ => .throw) fun _ => hw e f
    have hk := hx s h
    split <;> rename_i heq <;> rw [heq] at hk
    · exact hk.setFlight.next
    · exact hk.setFlight.next
    · exact hk.tileFault.fatalFault.next
    · exact hk.setFlight.next
    · exact hk.setFlight.next
    · exact hk.tileFault.fatalFault.next
    · exact h.next

theorem runVirga_fits (h : Fit p w s) {j l n pr ue} {work : Eng → Flight → EM Nat} (hw : ∀ e f, (work e f).Keeps (Fit p w)) :
    Fits p w (runVirga j l n pr ue work s) := by
  unfold runVirga
  split
  · exact runCommand_fits h hw
  · exact .ite (runCommand_fits h hw) (.ite (runCommand_fits h.vrgUe.vrgEvent hw) h.vrgUe.next)

theorem nop_fits (h : Fit p w s) {j l q} : Fits p w (execNop j l q s) := runCommand_fits h fun _ _ => .pure

theorem Fit.setReject (h : Fit p w s) {t q} : Fit p w (s.setReject t q) := .ite h.setFlag (.ite h.setFlag h.setFlag)

theorem cfg_fits (h : Fit p w s) {j l q} : Fits p w (execCfg j l q s) :=
  runCommand_fits h fun _ _ => .read fun _ h => .bind (.set (.ite (h.setReg _ _).setReject (h.setReg _ _))) fun _ => .pure

theorem Fit.popReleased {j l q} : ∀ {n : Nat} {s : State}, Fit p w s → Fit p w (State.popReleased j l q n s)
  | 0, _, h => h
  | n + 1, s, h => by
    unfold State.popReleased
    extract_lets x
    split
    · split
      · exact Fit.popReleased (.ite h.setQueue.signalAll h.setQueue)
      · exact h
    · exact h

theorem commandCompletion_fits (h : Fit p w s) {j l q beats} : Fits p w (execCommandCompletion j l q beats s) := by
  unfold execCommandCompletion
  extract_lets x
  split
  · refine .ite ?_ h.next
    extract_lets a b c
    have hc : Fit p w c := .ite h.setQueue.reportCode.debitV h.setQueue.reportCode
    exact hc.signalAll.popReleased.next
  · exact h.next

/-! ## The matrix engine -/

theorem readAll_fits {who v np rc} : ∀ {l}, (readAll who v np rc l).Keeps (Fit p w)
  | [] => .pure
  | _ :: _ => .bind readElem_fits fun _ => .bind readAll_fits fun _ => .pure

theorem readView_fits {who v} : (readView who v).Keeps (Fit p w) := readAll_fits

theorem Fit.reqOf (h : Fit p w s) {q} : Fit p w (s.reqOf q).2 := fit_steady.reqOf h _

theorem accUe_fits {l} : (accUe l).Keeps (Fit p w) := by
  refine .read fun s h => ?_
  have h1 : Fit p w s.takeFree := h
  exact .bind (.set h1.anvUe) fun _ => .throw
theorem vxeUe_fits {l} : (vxeUe l).Keeps (Fit p w) := .read fun _ h => .bind (.set h.anvUe) fun _ => .throw

theorem mmulWork_fits {j l e f} : (mmulWork j l e f).Keeps (Fit p w) := by
  refine .bind (.mapM (fun _ => at_fits readAll_fits) _) fun _ => .bind (.mapM (fun _ => at_fits readAll_fits) _) fun _ =>
    .read fun s h => ?_
  extract_lets -underBinder x0 set0 jp
  have hjp : ∀ r, (jp r).Keeps (Fit p w) := fun r => by
    unfold jp
    extract_lets -underBinder vl initOf rows cols
    have hinit : ∀ r q, (initOf r q).Keeps (Fit p w) := fun _ _ => .ite (fun _ => .pure) fun _ => .ite (fun _ => .ite
      (fun _ => .bind (at_fits readCode_fits) fun _ => .pure) fun _ => .pure) fun _ => .pure
    exact .bind (.mapM (fun _ => .mapM (fun _ => .bind (hinit _ _) fun _ => .pure) _) _) fun _ => .ite
      (fun _ => .bind (.modify fun _ h => h.setCtx) fun _ => .pure)
      fun _ => .bind writes_fits fun _ => .bind (.modify fun _ h => h.setCtx) fun _ => .pure
  refine .ite (fun _ => ?_) fun _ => hjp ⟨⟩
  split
  · exact .bind accUe_fits hjp
  · exact hjp ⟨⟩

theorem mmul_fits (h : Fit p w s) {j l} : Fits p w (execMmul j l s) := runCommand_fits h fun _ _ => mmulWork_fits

/-! ## The vector engine -/

theorem reads_fits {e : Eng} {v} : (e.reads v).Keeps (Fit p w) := .mapM (fun _ => at_fits readElem_fits) _

theorem vecWork_fits {ord blk e f} : (vecWork ord blk e f).Keeps (Fit p w) := by
  have hr {v : View} {g : FVal → FVal} : EM.Keeps (Fit p w) (do let l ← e.reads v; pure (l.map g) : EM (List FVal)) :=
    .bind reads_fits fun _ => .pure
  refine .bind hr fun xs => ?_
  extract_lets -underBinder jy
  have hy : ∀ r, (jy r).Keeps (Fit p w) := fun ys => by
    unfold jy
    extract_lets -underBinder jz
    have hz : ∀ r, (jz r).Keeps (Fit p w) := fun zs => .ite
      (fun _ => .bind hr fun _ => .bind writes_fits fun _ => .bind writes_fits fun _ => .bind writes_fits fun _ => .pure)
      fun _ => .bind writes_fits fun _ => .pure
    exact .ite (fun _ => .bind hr hz) fun _ => .bind .pure hz
  exact .ite (fun _ => .bind hr hy) fun _ => .bind .pure hy

theorem vop_fits (h : Fit p w s) {j l par} : Fits p w (execVop j l par s) :=
  runCommand_fits h fun _ _ => .ite (fun _ => vxeUe_fits) fun _ => vecWork_fits

/-! ## Attention -/

theorem placeView_fits {n r dir v} : (placeView n r dir v).Keeps (Fit p w) := .read fun _ _ => by
  split
  · exact .throw
  · exact .pure

theorem readVec_fits {e port v dh i1 i2} : (readVec e port v dh i1 i2).Keeps (Fit p w) :=
  .mapM (fun _ => at_fits readElem_fits) _

theorem attendSeq_fits {e qv ov scale mask window dh gq q kv} :
    (attendSeq e qv ov scale mask window dh gq q kv).Keeps (Fit p w) :=
  .forM (fun _ => .forM (fun _ => .bind readVec_fits fun _ => writes_fits) _) _

theorem readSeq_fits {e v i} : (readSeq e v i).Keeps (Fit p w) :=
  at_fits (.bind readCode_fits fun _ => .bind readCode_fits fun _ => .pure)

theorem attWork_fits {e f} : (attWork e f).Keeps (Fit p w) := by
  refine .bind (.forM (fun i => ?_) _) fun _ => .pure
  extract_lets -underBinder jp
  have hjp : ∀ r, (jp r).Keeps (Fit p w) := fun q => .ite (fun _ => .pure) fun _ => .ite (fun _ => .throw) fun _ =>
    .bind (.mapM (fun _ => .bind readVec_fits fun _ => .bind readVec_fits fun _ => .pure) _) fun _ => attendSeq_fits
  exact .ite (fun _ => .bind readSeq_fits hjp) fun _ => .bind .pure hjp

theorem Fit.attHalt (h : Fit p w s) {j l} : Fit p w (s.attHalt j l) := by
  unfold State.attHalt
  extract_lets x
  split
  · exact h.setQueue.setF
  · exact h

theorem att_fits (h : Fit p w s) {j l par} : Fits p w (execAtt j l par s) := by
  obtain ⟨t, e, ht⟩ : Fits p w (runCommand j l 0 (fun c => cKind c == kATT) (fun e f => if par then vxeUe l else attWork e f) s) :=
    runCommand_fits h fun _ _ => .ite (fun _ => vxeUe_fits) fun _ => attWork_fits
  unfold execAtt
  rw [e]
  exact ht.attHalt.next

end

end Sys2Proof.Machine

/-! PROOFS. What every step keeps, through the key-value pages, the memory-side adders, the copies of DMA and the engines
of the stacks. -/
namespace Sys2Proof.Machine

section
variable {p : List Instr} {w : Prop} {s : State} {α β : Type}

/-! ## Work before the rest -/

/-- Work that stands before the rest where c holds. -/
theorem EM.Keeps.when {P : State → Prop} {c : Prop} [Decidable c] {x : EM PUnit} {k : PUnit → EM β}
    (hx : x.Keeps P) (hk : ∀ r, (k r).Keeps P) : EM.Keeps P (if c then x >>= k else k ⟨⟩) :=
  .ite (fun _ => .bind hx hk) fun _ => hk _

/-- One of two works stands before the rest. -/
theorem EM.Keeps.fork {P : State → Prop} {c : Prop} [Decidable c] {x y : EM α} {k : α → EM β}
    (hx : x.Keeps P) (hy : y.Keeps P) (hk : ∀ a, (k a).Keeps P) : EM.Keeps P (if c then x >>= k else y >>= k) :=
  .ite (fun _ => .bind hx hk) fun _ => .bind hy hk

/-! ## Key-value pages (R481 - R497) -/

theorem readHeader_fits {e pl} : (readHeader e pl).Keeps (Fit p w) := at_fits (.bind jobRead_fits fun _ => .pure)

theorem place_fits {k : KvCmd} {dir ent a n} : (k.place dir ent a n).Keeps (Fit p w) :=
  .read fun _ _ => .guard fun _ => .ite (fun _ => .throw) fun _ => .pure

theorem readList_fits {e h k q} : (readList e h k q).Keeps (Fit p w) :=
  .mapM (fun _ => .bind place_fits fun _ => .bind (at_fits jobRead_fits) fun _ => .pure) _

theorem appendVec_fits {e h k pages x p' xs} : (appendVec e h k pages x p' xs).Keeps (Fit p w) :=
  .read fun _ _ => .bind place_fits fun _ => .ite
    (fun _ => .bind place_fits fun _ => .bind writePieces_fits fun _ => .pure)
    fun _ => .bind writePieces_fits fun _ => .pure

theorem readKvVec_fits {e h k pages x p'} : (readKvVec e h k pages x p').Keeps (Fit p w) := by
  have hread {a sa : Nat} : EM.Keeps (Fit p w) (do
      let bs ← jobRead e.who a h.vec
      let sc ← if h.scales = 0 then pure [] else jobRead e.who sa h.scales
      pure (kvDequantise k.kvf (if x = 0 then k.sk else k.sv) k.dh (leNat bs) (sc.map (·.toNat))) : EM (List FVal)) :=
    .bind jobRead_fits fun _ => .fork .pure jobRead_fits fun _ => .pure
  refine .read fun _ _ => .bind place_fits fun _ => ?_
  exact .ite (fun _ => .bind place_fits fun _ => .tryCatch (at_fits hread) fun e => by cases e <;> exact .throw)
    fun _ => .tryCatch (at_fits hread) fun e => by cases e <;> exact .throw

theorem countSat_fits {n j k} : (countSat n j k).Keeps (Fit p w) := .modify fun _ h => h.bumpSat.vrgEvent

theorem kvApply_fits {e h k qv ov scale gq q pages} : (kvApply e h k qv ov scale gq q pages).Keeps (Fit p w) := by
  refine .fork (.mapM (fun _ => ?_) _) .pure fun _ => .ite (fun _ => ?_) fun _ => .pure
  · exact .bind readVec_fits fun _ => .bind readVec_fits fun _ => .bind appendVec_fits fun _ => .bind appendVec_fits
      fun _ => .bind countSat_fits fun _ => .pure
  · exact .bind (.mapM (fun _ => .bind readKvVec_fits fun _ => .bind readKvVec_fits fun _ => .pure) _)
      fun _ => .bind attendSeq_fits fun _ => .pure

theorem kvSeq_fits {e h k qv ov lv scale gq i q lists rows} :
    (kvSeq e h k qv ov lv scale gq i q lists rows).Keeps (Fit p w) := by
  refine .guard fun _ => .bind readList_fits fun _ => .guard fun _ => .read fun _ _ => ?_
  split
  · exact .throw
  · exact kvApply_fits

theorem kvSeqs_fits {e k qv ov lv scale gq nseq} : ∀ {f h lists rows sat},
    (kvSeqs e k qv ov lv scale gq nseq f h lists rows sat).Keeps (Fit p w)
  | 0, _, _, _, _ => .pure
  | f + 1, h, lists, rows, sat => by
    refine .bind readSeq_fits fun q => .ite (fun _ => kvSeqs_fits) fun _ => .read fun s _ => ?_
    have hrest : ∀ h, EM.Keeps (Fit p w) (do
        let k := if k.attend then k else { k with dh := h.dh }
        let n ← kvSeq e h k qv ov lv scale gq (nseq - (f + 1)) q lists rows
        kvSeqs e k qv ov lv scale gq nseq f (some h) (q.list :: lists) (rows + q.nq) (sat + n) : EM Nat) :=
      fun h => .bind kvSeq_fits fun _ => kvSeqs_fits
    cases h with
    | some h => exact .bind .pure hrest
    | none => exact .guard fun _ => .bind readHeader_fits hrest

theorem vattWork_fits {n e f} : (vattWork n e f).Keeps (Fit p w) :=
  .bind placeView_fits fun _ => .bind placeView_fits fun _ => .bind placeView_fits fun _ => .ite
    (fun _ => .bind placeView_fits fun _ => .bind placeView_fits fun _ => .bind kvSeqs_fits fun _ => .pure)
    fun _ => .bind kvSeqs_fits fun _ => .pure

theorem vatt_fits (h : Fit p w s) {j l n ue} : Fits p w (execVatt j l n ue s) := runVirga_fits h fun _ _ => vattWork_fits

theorem vkvaWork_fits {n e f} : (vkvaWork n e f).Keeps (Fit p w) :=
  .bind placeView_fits fun _ => .bind placeView_fits fun _ => .bind placeView_fits fun _ =>
    .bind kvSeqs_fits fun _ => .pure

theorem vkva_fits (h : Fit p w s) {j l n ue} : Fits p w (execVkva j l n ue s) := runVirga_fits h fun _ _ => vkvaWork_fits

/-! ## Memory-side adders and slots (R81 - R87, R205, R206) -/

theorem adderOp_fits {who a f aop c cmp} : (adderOp who a f aop c cmp).Keeps (Fit p w) :=
  .bind (directRead_keeps fit_steady _ _ _) fun _ => .bind (rawWrite_keeps fit_steady _ _ _) fun _ =>
    .bind (.modify fun _ h => h.vrgEvent) fun _ => .pure

theorem jobAdderOp_fits {who a f aop c cmp} : (jobAdderOp who a f aop c cmp).Keeps (Fit p w) :=
  .read fun _ _ => .guard fun _ => .guard fun _ => .bind checkSeg_fits fun _ => adderOp_fits

theorem adderOperation_fits (h : Fit p w s) {a aop fmtc x cmp} : Fits p w (execAdderOperation a aop fmtc x cmp s) := by
  unfold execAdderOperation
  split
  · exact .ite (h.row (.bind adderOp_fits fun _ => .pure)) h.next
  · exact h.next

theorem contribute_fits {e n i v} : (contribute e n i v).Keeps (Fit p w) := by
  refine .read fun s h => .guard fun _ => ?_
  split
  · exact .throw
  · exact .set (h.setSlot _ _ _).vrgEvent

theorem slotContribution_fits (h : Fit p w s) {n slot fmtc x} : Fits p w (execSlotContribution n slot fmtc x s) := by
  unfold execSlotContribution
  split
  · exact .ite (h.setSlot _ _ _).vrgEvent.next h.next
  · exact h.next

/-! ## Copies (chapter 10) -/

theorem atEntry_fits {pos} {x : EM α} (h : x.Keeps (Fit p w)) : (atEntry pos x).Keeps (Fit p w) :=
  .tryCatch h fun e => by cases e <;> exact .throw

theorem readDatum_fits {who v np ix} : (readDatum who v np ix).Keeps (Fit p w) := .bind readCode_fits fun _ => .pure

theorem moveBlock_fits {e tile v np pos ent ws b} : (moveBlock e tile v np pos ent ws b).Keeps (Fit p w) := by
  refine .bind (atTile_fits (at_fits (.mapM (fun i => ?_) _))) fun _ => ?_
  · dsimp only
    split
    · exact .pure
    · exact .bind storedElem_fits fun _ => .pure
  · dsimp only
    split
    · exact .pure
    · exact .pure

theorem putItems_fits {e tg np ov keep ws} : (putItems e tg np ov keep ws).Keeps (Fit p w) := by
  unfold putItems
  split
  · exact .pure
  · refine .ite (fun _ => .bind (readUntil_fits (fun b => ?_) _) fun _ => .bind writePieces_fits fun _ => raise_fits)
      fun _ => writePieces_fits
    split
    · exact .bind (.mapM (fun _ => moveBlock_fits) _) fun _ => .pure
    · exact .pure

theorem targets_fits {c v} : (targets c v).Keeps (Fit p w) := by
  refine .ite (fun _ => .pure) fun _ => ?_
  split
  · exact .throw
  · exact .pure

theorem moveWork_fits {lim e f np wnp mv} : (moveWork lim e f np wnp mv).Keeps (Fit p w) := by
  refine .bind targets_fits fun _ => .bind (readUntil_fits (fun i => ?_) _) fun _ => .bind putItems_fits fun _ =>
    .bind raise_fits fun _ => .pure
  dsimp only
  split
  · exact .bind (at_fits readDatum_fits) fun _ => .pure
  · exact .pure

theorem copyWork_fits {lim e f} : (copyWork lim e f).Keeps (Fit p w) := moveWork_fits
theorem planeSplitWork_fits {lim e f} : (planeSplitWork lim e f).Keeps (Fit p w) := moveWork_fits
theorem planeMergeWork_fits {lim e f} : (planeMergeWork lim e f).Keeps (Fit p w) := moveWork_fits

theorem readEntry_fits {e iv mode d p'} : (readEntry e iv mode d p').Keeps (Fit p w) := by
  refine .bind (at_fits readCode_fits) fun c => ?_
  dsimp only
  split
  · exact .throw
  · exact .pure

theorem putRows_fits {e k rows h} : (putRows e k rows h).Keeps (Fit p w) :=
  .bind putItems_fits fun _ => .bind raise_fits fun _ => .pure

theorem gatherWork_fits {lim e k} : (gatherWork lim e k).Keeps (Fit p w) := by
  refine .bind (readUntil_fits (fun _ => .bind readEntry_fits fun r => .mapM (fun _ => ?_) _) _) fun _ => putRows_fits
  cases r with
  | row i => exact .bind (at_fits readDatum_fits) fun _ => .pure
  | _ => exact .pure

theorem scatterRow_fits {e k p'} : (scatterRow e k p').Keeps (Fit p w) :=
  .bind readEntry_fits fun r => by
    cases r with
    | row i => exact .mapM (fun _ => .bind (at_fits readDatum_fits) fun _ => .pure) _
    | _ => exact .pure

theorem scatterWork_fits {lim e k} : (scatterWork lim e k).Keeps (Fit p w) :=
  .bind (readUntil_fits (fun _ => scatterRow_fits) _) fun _ => putRows_fits

theorem contributeItem_fits {e k x} : (contributeItem e k x).Keeps (Fit p w) :=
  .ite (fun _ => at_fits (atEntry_fits contribute_fits))
    fun _ => atEntry_fits (.bind (at_fits jobAdderOp_fits) fun _ => .pure)

theorem accWork_fits {lim e k} : (accWork lim e k).Keeps (Fit p w) :=
  .bind (readUntil_fits (fun _ => scatterRow_fits) _) fun _ =>
    .bind (.forM (fun _ => allOrNone_fits fun _ => contributeItem_fits) _) fun _ =>
      .bind raise_fits fun _ => .ite (fun _ => .bind putItems_fits fun _ => .pure) fun _ => .pure

theorem listEntry_fits {e iv i} : (listEntry e iv i).Keeps (Fit p w) :=
  .bind (at_fits readCode_fits) fun _ => .bind (at_fits readCode_fits) fun _ => .guard fun _ =>
    .bind (at_fits jobRead_fits) fun _ => writePieces_fits

theorem listWork_fits {lim e f} : (listWork lim e f).Keeps (Fit p w) := .bind (.forM (fun _ => listEntry_fits) _) fun _ => .pure

theorem dcopyWork_fits {lim e f} : (dcopyWork lim e f).Keeps (Fit p w) := by
  unfold dcopyWork
  split
  · exact copyWork_fits
  · exact planeSplitWork_fits
  · exact planeMergeWork_fits
  · exact gatherWork_fits
  · exact scatterWork_fits
  · exact accWork_fits
  · exact listWork_fits

theorem runDcopy_fits (h : Fit p w s) {j l ch m} {work : Eng → Flight → EM Nat} (hw : ∀ e f, (work e f).Keeps (Fit p w)) :
    Fits p w (runDcopy j l ch m work s) := .ite (runCommand_fits h hw) h.next

theorem copy_fits (h : Fit p w s) {j l ch} : Fits p w (execCopy j l ch s) := runDcopy_fits h fun _ _ => copyWork_fits
theorem planeSplit_fits (h : Fit p w s) {j l ch} : Fits p w (execPlaneSplit j l ch s) := runDcopy_fits h fun _ _ => planeSplitWork_fits
theorem planeMerge_fits (h : Fit p w s) {j l ch} : Fits p w (execPlaneMerge j l ch s) := runDcopy_fits h fun _ _ => planeMergeWork_fits
theorem gather_fits (h : Fit p w s) {j l ch} : Fits p w (execGather j l ch s) := runDcopy_fits h fun _ _ => gatherWork_fits
theorem scatter_fits (h : Fit p w s) {j l ch} : Fits p w (execScatter j l ch s) := runDcopy_fits h fun _ _ => scatterWork_fits
theorem scatterAcc_fits (h : Fit p w s) {j l ch} : Fits p w (execScatterAcc j l ch s) := runDcopy_fits h fun _ _ => accWork_fits
theorem list_fits (h : Fit p w s) {j l ch} : Fits p w (execList j l ch s) := runDcopy_fits h fun _ _ => listWork_fits

/-! ## Engines of the stacks (chapter 5) -/

theorem vmvWork_fits {n e f} : (vmvWork n e f).Keeps (Fit p w) := by
  refine .bind placeView_fits fun _ => .bind placeView_fits fun _ => .when placeView_fits fun _ =>
    .when placeView_fits fun _ => .bind (.mapM (fun _ => .mapM (fun _ => at_fits readElem_fits) _) _) fun _ =>
    .bind (.mapM (fun _ => .mapM (fun _ => at_fits readElem_fits) _) _) fun _ => ?_
  refine .fork (.mapM (fun _ => .bind (at_fits readElem_fits) fun _ => .pure) _) .pure fun _ => ?_
  refine .ite (fun _ => .bind (.forM (fun _ => at_fits (atEntry_fits contribute_fits)) _) fun _ => .pure) fun _ => ?_
  exact .ite (fun _ => .bind (.forM (fun _ => .bind (at_fits (atEntry_fits jobAdderOp_fits)) fun _ => .pure) _)
    fun _ => .bind writes_fits fun _ => .pure) fun _ => .bind writes_fits fun _ => .pure

theorem vmv_fits (h : Fit p w s) {j l n ue} : Fits p w (execVmv j l n ue s) := runVirga_fits h fun _ _ => vmvWork_fits

theorem vewWork_fits {n e f} : (vewWork n e f).Keeps (Fit p w) :=
  .bind placeView_fits fun _ => .when placeView_fits fun _ => .when placeView_fits fun _ =>
    .bind placeView_fits fun _ => vecWork_fits

theorem vew_fits (h : Fit p w s) {j l n ue} : Fits p w (execVew j l n ue s) := runVirga_fits h fun _ _ => vewWork_fits

theorem vgsGatherWork_fits {n e f} : (vgsGatherWork n e f).Keeps (Fit p w) :=
  .bind placeView_fits fun _ => .bind placeView_fits fun _ => .bind placeView_fits fun _ => gatherWork_fits

theorem vgsScatterWork_fits {n e f} : (vgsScatterWork n e f).Keeps (Fit p w) :=
  .bind placeView_fits fun _ => .bind placeView_fits fun _ => .bind placeView_fits fun _ => scatterWork_fits

theorem vgsAccWork_fits {n e f} : (vgsAccWork n e f).Keeps (Fit p w) :=
  .bind placeView_fits fun _ => .bind placeView_fits fun _ => .when placeView_fits fun _ => accWork_fits

theorem vgsGather_fits (h : Fit p w s) {j l n ue} : Fits p w (execVgsGather j l n ue s) :=
  runVirga_fits h fun _ _ => vgsGatherWork_fits
theorem vgsScatter_fits (h : Fit p w s) {j l n ue} : Fits p w (execVgsScatter j l n ue s) :=
  runVirga_fits h fun _ _ => vgsScatterWork_fits
theorem vgsScatterAcc_fits (h : Fit p w s) {j l n ue} : Fits p w (execVgsScatterAcc j l n ue s) :=
  runVirga_fits h fun _ _ => vgsAccWork_fits

theorem vamoWork_fits {n e f} : (vamoWork n e f).Keeps (Fit p w) := by
  refine .bind placeView_fits fun _ => .when placeView_fits fun _ => .when placeView_fits fun _ =>
    .when placeView_fits fun _ => .bind (readUntil_fits (fun _ => .ite (fun _ => ?_) fun _ => ?_) _) fun _ =>
    .bind writePieces_fits fun _ => .bind raise_fits fun _ => .pure
  · exact .bind (at_fits readElem_fits) fun _ => .bind (at_fits (atEntry_fits contribute_fits)) fun _ => .pure
  · exact .bind (at_fits readCode_fits) fun _ => .fork (at_fits readCode_fits) .pure fun _ =>
      .bind (at_fits (atEntry_fits jobAdderOp_fits)) fun _ => .pure

theorem vamo_fits (h : Fit p w s) {j l n ue} : Fits p w (execVamo j l n ue s) := runVirga_fits h fun _ _ => vamoWork_fits

theorem slotBase_fits {n e c} : (slotBase n e c).Keeps (Fit p w) := .read fun _ _ => .guard fun _ => .pure

theorem slotClearWork_fits {n e f} : (slotClearWork n e f).Keeps (Fit p w) :=
  .bind slotBase_fits fun _ => .bind (.forM (fun _ => .modify fun _ h => h.setSlot _ _ _) _) fun _ => .pure

theorem onHalt_fits {x : EM Unit} {act : Nat → EM Unit} (h : x.Keeps (Fit p w)) (ha : ∀ i, (act i).Keeps (Fit p w)) :
    (onHalt x act).Keeps (Fit p w) :=
  .tryCatch h fun e => by
    cases e with
    | halt y => exact .bind (ha _) fun _ => .throw
    | _ => exact .throw

theorem slotFinaliseWork_fits {n e f} : (slotFinaliseWork n e f).Keeps (Fit p w) := by
  refine .bind placeView_fits fun _ => .bind slotBase_fits fun b => .read fun s _ => ?_
  extract_lets -underBinder js clear
  have hc : ∀ k, (clear k).Keeps (Fit p w) := fun k => .ite
    (fun _ => .forM (fun _ => .ite (fun _ => .modify fun _ h => h.setSlot _ _ _) fun _ => .pure) _) fun _ => .pure
  exact .bind (onHalt_fits writePieces_fits hc) fun _ => .bind (hc _) fun _ => .pure

theorem slotSaveWork_fits {n e f} : (slotSaveWork n e f).Keeps (Fit p w) :=
  .bind placeView_fits fun _ => .bind slotBase_fits fun _ => .read fun _ _ => .bind writePieces_fits fun _ => .pure

theorem readImage_fits {e m i} : (readImage e m i).Keeps (Fit p w) :=
  .bind (.mapM (fun _ => .bind (at_fits readCode_fits) fun _ => .pure) _) fun _ => .pure

theorem slotLoadWork_fits {n e f} : (slotLoadWork n e f).Keeps (Fit p w) :=
  .bind placeView_fits fun _ => .bind slotBase_fits fun _ =>
    .bind (.forM (fun _ => .bind readImage_fits fun _ => .modify fun _ h => h.setSlot _ _ _) _) fun _ => .pure

theorem slotCombineWork_fits {n e f} : (slotCombineWork n e f).Keeps (Fit p w) :=
  .bind placeView_fits fun _ => .bind slotBase_fits fun _ =>
    .bind (.forM (fun _ => .bind readImage_fits fun _ => .modify fun _ h => h.setSlot _ _ _) _) fun _ => .pure

theorem slotClear_fits (h : Fit p w s) {j l n ue} : Fits p w (execSlotClear j l n ue s) :=
  runVirga_fits h fun _ _ => slotClearWork_fits
theorem slotFinalise_fits (h : Fit p w s) {j l n ue} : Fits p w (execSlotFinalise j l n ue s) :=
  runVirga_fits h fun _ _ => slotFinaliseWork_fits
theorem slotSave_fits (h : Fit p w s) {j l n ue} : Fits p w (execSlotSave j l n ue s) :=
  runVirga_fits h fun _ _ => slotSaveWork_fits
theorem slotLoad_fits (h : Fit p w s) {j l n ue} : Fits p w (execSlotLoad j l n ue s) :=
  runVirga_fits h fun _ _ => slotLoadWork_fits
theorem slotCombine_fits (h : Fit p w s) {j l n ue} : Fits p w (execSlotCombine j l n ue s) :=
  runVirga_fits h fun _ _ => slotCombineWork_fits

/-! ## Performance counters and halt latches -/

theorem Fit.vrgZero (h : Fit p w s) {n} : Fit p w (s.vrgZero n) := h.foldl fun h => h.setF.setF
theorem Fit.anvZero (h : Fit p w s) {t} : Fit p w (s.anvZero t) := h.foldl fun h => h.setF.setF

theorem vrgPerfClear_fits (h : Fit p w s) {a n} : Fits p w (execVrgPerfClear a n s) := (Fit.ite h.vrgZero h).next
theorem anvPerfClear_fits (h : Fit p w s) {a t} : Fits p w (execAnvPerfClear a t s) := (Fit.ite h.anvZero h).next

theorem Fit.putLatch (h : Fit p w s) {j l off v} : Fit p w (s.putLatch j l off v) := by
  unfold State.putLatch
  split
  · exact h.setReg _ _
  · exact h.setCtx

end

end Sys2Proof.Machine

/-! PROOFS. What every step keeps, through the halts of queues and the fabric. -/
namespace Sys2Proof.Machine

section
variable {p : List Instr} {w : Prop} {s : State} {α β : Type}

/-! ## Halts (R218 - R220, R450 - R455) -/

theorem Fit.giveUp (h : Fit p w s) {j l q b} : Fit p w (s.giveUp j l q b) := h.setQueue.popReleased
theorem Fit.haltRecord (h : Fit p w s) {n r} : Fit p w (s.haltRecord n r) := .ite h.fatalFault h.erq

theorem vrgHalt_fits (h : Fit p w s) {j l n} : Fits p w (execVrgHalt j l n s) := by
  unfold execVrgHalt
  dsimp only
  split
  · exact h.next
  · exact .ite h.setQueue.putLatch.putLatch.setF.vrgEvent.haltRecord.next h.next

theorem Fit.vrgResume (h : Fit p w s) {n t b c} : Fit p w (s.vrgResume n t b c) := .ite h.setFlag.setFlag.giveUp h.setFlag

theorem vrgResume_fits (h : Fit p w s) {a n t b} : Fits p w (execVrgResume a n t b s) := (Fit.ite h.vrgResume h).next

theorem dmaHalt_fits (h : Fit p w s) {j l ch} : Fits p w (execDmaHalt j l ch s) := by
  unfold execDmaHalt
  dsimp only
  split
  · exact h.next
  · exact .ite ((h.setQueue.setReg _ _).setReg _ _).setF.haltRecord.next h.next

theorem Fit.dmaResume (h : Fit p w s) {t ch a b c} : Fit p w (s.dmaResume t ch a b c) :=
  .ite (.ite h.setFlag.setFlag.giveUp h.setFlag.setFlag.setQueue) h.setFlag

theorem dmaResume_fits (h : Fit p w s) {a t ch b} : Fits p w (execDmaResume a t ch b s) := (Fit.ite h.dmaResume h).next
theorem dmaRetry_fits (h : Fit p w s) {a t ch b} : Fits p w (execDmaRetry a t ch b s) := (Fit.ite h.dmaResume h).next

theorem Fit.cutDcopy (h : Fit p w s) {t ch n} : Fit p w (s.cutDcopy t ch n) := by
  unfold State.cutDcopy
  refine .ite ?_ h
  split
  · exact h
  next i f _ =>
    dsimp only
    have hk := dcopyWork_fits (p := p) (w := w) (lim := min n (dcopyCount f - 1))
      (e := engOf (s.jobOf t) (s.ltile t) t (2 + ch) f.cmd) (f := f) s h
    split <;> rename_i heq <;> rw [heq] at hk
    · exact hk.setFlight
    · exact hk.setFlight
    · exact hk.tileFault.fatalFault
    · exact h.setFlight

theorem Fit.dmaEnable (h : Fit p w s) {t ch b n} : Fit p w (s.dmaEnable t ch b n) :=
  .ite h.setFlag.cutDcopy (.ite h.setFlag.setFlag h)

theorem dmaDisable_fits (h : Fit p w s) {a t ch n} : Fits p w (execDmaDisable a t ch n s) := (Fit.ite h.dmaEnable h).next
theorem dmaDisabled_fits (h : Fit p w s) {t ch} : Fits p w (execDmaDisabled t ch s) := .ite h.setFlag.next h.next

/-! ## Frames that are sent (R661 - R674) -/

theorem Fit.dropSince (h : Fit p w s) (m : SMap Nat) : Fit p w { s with dropSince := m } := h
theorem Fit.xwfOut (h : Fit p w s) (l : List (Nat × Frame)) : Fit p w { s with xwfOut := l } := h
theorem Fit.txSent (h : Fit p w s) (l : List Sent) : Fit p w { s with txSent := l } := h
theorem Fit.txLists (h : Fit p w s) (k l : List Sent) : Fit p w { s with txWait := k, txSent := l } := h
theorem Fit.txNumbered (h : Fit p w s) (k l : List Sent) (m : SMap W32) :
    Fit p w { s with txWait := k, txSent := l, txSeq := m } := h
theorem Fit.fopIssued (h : Fit p w s) (n : Nat) (l : List Sent) : Fit p w { s with fopNext := n, txWait := l } := h
theorem Fit.lateWait (h : Fit p w s) (l : List LateHalt) : Fit p w { s with lateWait := l } := h
theorem Fit.lateHeld (h : Fit p w s) (l : List LateHalt) : Fit p w { s with lateHeld := l } := h

theorem Fit.lateMoved (h : Fit p w s) (k l : List LateHalt) : Fit p w { s with lateWait := k, lateHeld := l } := h

theorem Fit.drop (h : Fit p w s) {q} : Fit p w (s.drop q) := h.bumpSat.dropSince _

theorem Fit.sendOn (h : Fit p w s) {q f n t} (e : s.sendOn q f = some (n, t)) : Fit p w t := by
  unfold State.sendOn at e
  split at e
  · obtain ⟨-, rfl⟩ := Prod.mk.inj (Option.some.inj e)
    exact h.xwfOut _
  · cases e

theorem Fit.sendOrDrop (h : Fit p w s) {q f} : Fit p w (s.sendOrDrop q f) := by
  unfold State.sendOrDrop
  split
  next e => exact h.sendOn e
  · exact h.drop

theorem Fit.readEnded (h : Fit p w s) {j op} : Fit p w (s.readEnded j op) := .ite h.setF h

theorem Fit.failFop (h : Fit p w s) {x r c} : Fit p w (s.failFop x r c) := by
  unfold State.failFop
  refine .ite h ?_
  extract_lets u
  have hu : Fit p w u := h.txLists _ _
  split
  · exact hu.setFlight.readEnded
  · exact hu.lateWait _

theorem Fit.pump {d : Nat} : ∀ {n : Nat} {q : Nat → Nat} {s : State}, Fit p w s → Fit p w (State.pump d n q s)
  | 0, _, _, h => h
  | n + 1, q, s, h => by
    unfold State.pump
    split
    · exact h
    · refine .ite h ?_
      extract_lets seq f
      split
      · exact Fit.pump h.failFop
      next e =>
        have ht := h.sendOn e
        extract_lets rest v
        have hv : Fit p w v := ht.txNumbered _ _ _
        exact hv.pump

/-! ## Frames that are served -/

theorem slotsApply_fits {f g} : (slotsApply f g).Keeps (Fit p w) := by
  refine .forM (fun _ => .modify fun s h => ?_) _
  split
  · exact (h.setSlot _ _ _).vrgEvent
  · exact h

theorem applyFrame_fits {f} : (applyFrame f).Keeps (Fit p w) :=
  .ite (fun _ => readSpan_fits) fun _ => .ite (fun _ => .bind writeSpan_fits fun _ => .pure) fun _ => .ite
    (fun _ => .ite (fun _ => .bind slotsApply_fits fun _ => .pure)
      fun _ => .bind (allOrNone_fits fun _ => .bind adderOp_fits fun _ => .pure) fun _ => .pure)
    fun _ => .ite (fun _ => .bind (.modify fun _ h => h.signal) fun _ => .pure) fun _ => .bind slotsApply_fits fun _ => .pure

theorem Fit.serve (h : Fit p w s) {f} : Fit p w (s.serve f).2 := by
  unfold State.serve
  split
  · exact h
  · have hk := applyFrame_fits (p := p) (w := w) (f := f) s h
    split <;> rename_i heq <;> rw [heq] at hk
    · exact hk
    · split
      · exact hk
      · exact .ite hk h
    · exact h
    · exact h
    · exact h
    · exact h
    · exact hk.fatalFault

theorem Fit.serveNext (h : Fit p w s) {f a t} (e : s.serve f = (a, t)) : Fit p w t := by
  have hk := h.serve (f := f)
  rw [e] at hk
  exact hk

theorem readCodes_fits {e v} : (readCodes e v).Keeps (Fit p w) := .mapM (fun _ => .bind (at_fits readCode_fits) fun _ => .pure) _

theorem fopLocal_fits {e a} {x : EM α} (h : x.Keeps (Fit p w)) : (fopLocal e a x).Keeps (Fit p w) :=
  .tryCatch h fun e => by
    cases e with
    | halt y => exact .ite (fun _ => .throw) fun _ => .throw
    | _ => exact .throw

theorem fopPrepare_fits {e f} : (fopPrepare e f).Keeps (Fit p w) :=
  .read fun _ _ => .guard fun _ => .guard fun _ => .ite (fun _ => .pure) fun _ => .ite (fun _ => .pure)
    fun _ => .bind (fopLocal_fits readCodes_fits) fun _ => .pure

theorem writeReturned_fits {e v off bs} : (writeReturned e v off bs).Keeps (Fit p w) := writePieces_fits

theorem serveOwn_fits {e lv base} : ∀ {l}, (serveOwn e lv base l).Keeps (Fit p w)
  | [] => .pure
  | f :: l => by
    refine .read fun s h => ?_
    split
    next heq =>
      exact .bind (.set (h.serveNext heq)) fun _ => .when (fopLocal_fits writeReturned_fits) fun _ => serveOwn_fits
    next heq => exact .bind (.set (h.serveNext heq)) fun _ => .throw
    next heq => exact .bind (.set (h.serveNext heq)) fun _ => .throw
    · exact .throw

/-! ## FOPs -/

theorem Fit.issueFop (h : Fit p w s) {j l i f fs} : Fit p w (s.issueFop j l i f fs) := by
  unfold State.issueFop
  extract_lets k u op v
  have hu : Fit p w u := h.fopIssued _ _
  exact hu.setFlight.pump

theorem runFop_fits (h : Fit p w s) {j l op} : Fits p w (runFop j l op s) := by
  unfold runFop
  refine .ite ?_ h.next
  split
  · exact h.next
  · extract_lets e own work
    have hw : work.Keeps (Fit p w) := .bind fopPrepare_fits fun _ => .when serveOwn_fits fun _ => .pure
    have hk := hw s h
    split <;> rename_i heq <;> rw [heq] at hk
    · exact .ite hk.setFlight.readEnded.next hk.issueFop.next
    · exact hk.setFlight.readEnded.next
    · exact hk.fatalFault.next
    · exact h.next

theorem fopRead_fits (h : Fit p w s) {j l} : Fits p w (execFopRead j l s) := runFop_fits h
theorem fopWrite_fits (h : Fit p w s) {j l} : Fits p w (execFopWrite j l s) := runFop_fits h
theorem fopAtomic_fits (h : Fit p w s) {j l} : Fits p w (execFopAtomic j l s) := runFop_fits h
theorem fopSignal_fits (h : Fit p w s) {j l} : Fits p w (execFopSignal j l s) := runFop_fits h
theorem fopCombine_fits (h : Fit p w s) {j l} : Fits p w (execFopCombine j l s) := runFop_fits h

theorem Fit.latchFq (h : Fit p w s) {j l r x a} : Fit p w (s.latchFq j l r x a) := h.putLatch.putLatch.setF.haltRecord

theorem xwfHalt_fits (h : Fit p w s) {j l} : Fits p w (execXwfHalt j l s) := by
  unfold execXwfHalt
  refine .ite ?_ h.next
  split
  · exact h.setQueue.latchFq.next
  · split
    · exact (h.setQueue.lateMoved _ _).latchFq.next
    · exact h.next

theorem Fit.xwfResume (h : Fit p w s) {t b c} : Fit p w (s.xwfResume t b c) :=
  .ite (.ite (h.setFlag.setFlag.lateHeld _).setQueue h.setFlag.setFlag.giveUp) h.setFlag

theorem xwfResume_fits (h : Fit p w s) {a t b} : Fits p w (execXwfResume a t b s) := (Fit.ite h.xwfResume h).next

/-! ## Frames that arrive -/

theorem Fit.setRx (h : Fit p w s) {n x} : Fit p w (s.setRx n x) := h

theorem frameRequest_fits (h : Fit p w s) {q b f} : Fits p w (execFrameRequest q b f s) := by
  unfold execFrameRequest
  refine .ite (.ite h.drop.next (.ite ?_ h.next)) h.next
  dsimp only
  split
  · split
    · exact h.sendOrDrop.next
    · exact h.sendOrDrop.next
  · split
    · exact h.next
    next e => exact .ite (h.serveNext e).setRx.setRx.sendOrDrop.next (h.serveNext e).setRx.sendOrDrop.next
    next e => exact (h.serveNext e).setRx.setRx.sendOrDrop.next
    next e => exact (h.serveNext e).setRx.setRx.sendOrDrop.next

theorem Fit.dropSent (h : Fit p w s) {x} : Fit p w (s.dropSent x) := h

theorem Fit.readDone (h : Fit p w s) {x} : Fit p w (s.readDone x) := by
  unfold State.readDone
  refine .ite h ?_
  split
  · exact h.setFlight.readEnded
  · exact h

theorem frameResponse_fits (h : Fit p w s) {q f} : Fits p w (execFrameResponse q f s) := by
  unfold execFrameResponse
  refine .ite ?_ h.next
  split
  · exact h.next
  next x _ =>
    refine .ite h.dropSent.pump.next (.ite h.failFop.dropSent.pump.next ?_)
    split
    · exact h.dropSent.next
    · extract_lets e v off
      have hk := fopLocal_fits (p := p) (w := w) (e := e) (a := x.frame.raddr)
        (writeReturned_fits (e := e) (v := v) (off := off) (bs := f.payload.take x.frame.len)) s h
      split <;> rename_i heq <;> rw [heq] at hk
      · exact hk.dropSent.readDone.pump.next
      · exact hk.fatalFault.next
      · exact h.next
      · exact hk.dropSent.readDone.next

theorem Fit.txWin (h : Fit p w s) (m : SMap Nat) : Fit p w { s with txWin := m } := h

theorem Fit.adjustWindow (h : Fit p w s) {q f b} : Fit p w (s.adjustWindow q f b) := .ite (h.txWin _) h

theorem frameAck_fits (h : Fit p w s) {q f b} : Fits p w (execFrameAck q f b s) := by
  unfold execFrameAck
  extract_lets acked u v
  have hu : Fit p w u := h.txSent _
  exact .ite hu.adjustWindow.pump.next h.next

theorem frameRefuse_fits (h : Fit p w s) {q f} : Fits p w (execFrameRefuse q f s) := by
  unfold execFrameRefuse
  refine .ite ?_ h.next
  split
  · exact h.next
  · exact (h.failFop.txSent _).pump.next

theorem transitFrame_fits (h : Fit p w s) {q f} : Fits p w (execTransitFrame q f s) :=
  .ite (.ite h.drop.next h.sendOrDrop.next) h.next

theorem resendTimeout_fits (h : Fit p w s) {d n} : Fits p w (execResendTimeout d n s) := by
  unfold execResendTimeout
  split
  · exact h.next
  · refine .ite ?_ (h.failFop.txSent _).next
    split
    next e => exact ((h.sendOn e).bumpSat.txSent _).next
    · exact (h.txSent _).next

/-! ## Ports (R657 - R661, R677) -/

theorem Fit.xwfEth (h : Fit p w s) (l : List Nat) : Fit p w { s with xwfEth := l } := h

theorem Fit.linkRec (h : Fit p w s) {q n} : Fit p w (s.linkRec q n) := h.erq
theorem Fit.portDown (h : Fit p w s) {q} : Fit p w (s.portDown q) := (h.setF.setF.setF.xwfEth _).linkRec
theorem Fit.portTrain (h : Fit p w s) {q} : Fit p w (s.portTrain q) := h.setF.xwfEth _

theorem xwfTraining_fits (h : Fit p w s) {q m n b} : Fits p w (execXwfTraining q m n b s) :=
  .ite (.ite h.portDown.next
    (.ite (h.setF.setF.setF.setF.setF.setF.setF.xwfEth _).linkRec.resync.next h.next)) h.next

theorem nativeAnswerTimeout_fits (h : Fit p w s) {q} : Fits p w (execNativeAnswerTimeout q s) :=
  .ite (h.setF.xwfEth _).next h.next

theorem Fit.xwfRetrain (h : Fit p w s) {q} : Fit p w (s.xwfRetrain q) := .ite h.portTrain h

theorem xwfRetrain_fits (h : Fit p w s) {a q} : Fits p w (execXwfRetrain a q s) := (Fit.ite h.xwfRetrain h).next

theorem Fit.portDisable (h : Fit p w s) {q b} : Fit p w (s.portDisable q b) :=
  .ite (.ite h.setFlag h.setFlag.portDown) (.ite h.setFlag.portTrain h.setFlag)

theorem Fit.waveRec (h : Fit p w s) {q n b} : Fit p w (s.waveRec q n b) := h.erq

theorem wavelengthFail_fits (h : Fit p w s) {q n} : Fits p w (execWavelengthFail q n s) := by
  have hw : Fit p w (s.setF (XWF_PORT_STATUS.WAVE_FAIL q) (s.f (XWF_PORT_STATUS.WAVE_FAIL q) ||| 2 ^ n)) := h.setF
  have hs := Fit.ite (c := n = 8) (hw.setF (r := XWF_PORT_STATUS.SPARE_V q) (v := 0)) hw
  exact .ite (.ite (.ite hw.waveRec.next hw.waveRec.portTrain.next) (.ite hw.setF.setF.waveRec.next
    (.ite hw.waveRec.next (Fit.ite hs.setF.waveRec.portDown hs.setF.waveRec).next))) h.next

theorem Fit.naOut (h : Fit p w s) (l : List Nat) : Fit p w { s with naOut := l } := h

theorem neighbourSolicitation_fits (h : Fit p w s) {q a b} : Fits p w (execNeighbourSolicitation q a b s) :=
  .ite (h.naOut _).next h.next

end

end Sys2Proof.Machine

/-! PROOFS. What every step keeps, through the instructions of the cores. -/
namespace Sys2Proof.Machine

section
variable {p : List Instr} {w : Prop} {s : State}

/-! ## Issue (R286 - R290, R324 - R327) -/

/-- What an instruction does with the state keeps the queue and the memories' form. -/
def Issue.Fits (p : List Instr) (w : Prop) : Issue → Prop
  | .done s _ => Fit p w s
  | .stay _ => True
  | .trap s _ _ => Fit p w s

theorem Issue.Fits.ite {c : Prop} [Decidable c] {a b : Issue} (ha : a.Fits p w) (hb : b.Fits p w) :
    Issue.Fits p w (if c then a else b) := by
  split
  · exact ha
  · exact hb

theorem Fit.countRetired (h : Fit p w s) {t} : Fit p w (s.countRetired t) := .ite h.vrgEvent h.anvEvent
theorem Fit.coreCe (h : Fit p w s) {t k} : Fit p w (s.coreCe t k) := .ite (h.foldl fun h => h.vrgUe) h.anvCe
theorem Fit.coreUe (h : Fit p w s) {t u n} : Fit p w (s.coreUe t u n) := .ite h.vrgBit h.anvUe.erq
theorem Fit.setCore (h : Fit p w s) {t c} : Fit p w (s.setCore t c) := h.setTile

theorem Fit.stopAt (h : Fit p w s) {t i e x v} : Fit p w (s.stopAt t i e x v) :=
  .ite h.setCore ((h.setCore.setReg _ _).setReg _ _)

theorem Fit.fatalTrap (h : Fit p w s) {t x a b c} : Fit p w (s.fatalTrap t x a b c) := h.stopAt.setFlag.fatalFault

theorem Fit.vpcTrap (h : Fit p w s) {n x} : Fit p w (s.vpcTrap n x) := (Fit.ite h.stopAt.setFlag h.stopAt.vrgBit).vrgFault

theorem Fit.trap (h : Fit p w s) {t x} : Fit p w (s.trap t x) := .ite h.vpcTrap (.ite h.fatalTrap (.ite h.fatalTrap h.setCore))

theorem Fit.stall (h : Fit p w s) {t n} : Fit p w (s.stall t n) := h.setCore

theorem Fit.trapWhenDrained (h : Fit p w s) {t x} : Fit p w (s.trapWhenDrained t x) := .ite h.stall h.trap

theorem Fit.perform (h : Fit p w s) {t regs} {f : State → Core → Issue} (hf : ∀ s c, Fit p w s → (f s c).Fits p w) :
    Fit p w (s.perform t regs f) := by
  have hk := hf s (s.core t) h
  refine .ite h.stall (.ite h.stall ?_)
  split <;> rename_i heq <;> rw [heq] at hk
  · exact Fit.countRetired (Fit.setCore hk)
  · exact h.stall
  · exact .ite h.stall (Fit.trap hk)

theorem Fit.fetch (h : Fit p w s) {t} {k : State → State} (hk : ∀ s, Fit p w s → Fit p w (k s)) : Fit p w (s.fetch t k) := by
  unfold State.fetch
  extract_lets x c
  refine .ite h.trapWhenDrained ?_
  split
  · exact .ite h.stall h.coreUe.trap
  · exact hk _ (.ite h h.setTile.coreCe)

theorem Fit.issueWord (h : Fit p w s) {t n regs} {f : State → Core → Issue} (hf : ∀ s c, Fit p w s → (f s c).Fits p w) :
    Fit p w (s.issueWord t n regs f) :=
  .ite (.ite h (h.fetch fun _ h => .ite (h.perform hf) h.trapWhenDrained)) h

theorem issue_fits (h : Fit p w s) {t n regs} {f : State → Core → Issue} (hf : ∀ s c, Fit p w s → (f s c).Fits p w) :
    Fits p w (issue t n regs f s) := (h.issueWord hf).next

/-! ## Rows that compute -/

theorem compute_fits (h : Fit p w s) {t n regs rd f} : Fits p w (compute t n regs rd f s) := issue_fits h fun _ _ h => h
theorem alu_fits (h : Fit p w s) {t fn rd rs1 rs2 f} : Fits p w (alu t fn rd rs1 rs2 f s) := compute_fits h
theorem aluImm_fits (h : Fit p w s) {t op rd rs1 imm f} : Fits p w (aluImm t op rd rs1 imm f s) := compute_fits h

theorem shi_fits (h : Fit p w s) {t rd rs1 op sh} : Fits p w (execShi t rd rs1 op sh s) := aluImm_fits h
theorem madd_fits (h : Fit p w s) {t rd rs1 rs2 rs3} : Fits p w (execMadd t rd rs1 rs2 rs3 s) := compute_fits h
theorem fext_fits (h : Fit p w s) {t rd rs1 a b} : Fits p w (execFext t rd rs1 a b s) := compute_fits h
theorem fins_fits (h : Fit p w s) {t rd rs1 a b} : Fits p w (execFins t rd rs1 a b s) := compute_fits h
theorem sel_fits (h : Fit p w s) {t rd rs1 rs2 q} : Fits p w (execSel t rd rs1 rs2 q s) := compute_fits h

theorem cmp_fits (h : Fit p w s) {t pd cond rs1 rs2} : Fits p w (execCmp t pd cond rs1 rs2 s) := issue_fits h fun _ _ h => h
theorem cmpi_fits (h : Fit p w s) {t pd cond rs1 imm} : Fits p w (execCmpi t pd cond rs1 imm s) := issue_fits h fun _ _ h => h
theorem plog_fits (h : Fit p w s) {t pd a b c d f} : Fits p w (execPlog t pd a b c d f s) := issue_fits h fun _ _ h => h

/-! ## Loads and stores (R292, R300 - R303) -/

theorem Fit.dmemUe (h : Fit p w s) {t n a} : (s.dmemUe t n a).Fits p w := h.coreUe (u := .dmem)

theorem load_fits (h : Fit p w s) {t op size sg rd rs1 imm} : Fits p w (load t op size sg rd rs1 imm s) := by
  refine issue_fits h fun s c h => ?_
  dsimp only
  split
  · exact h
  · split
    · exact h.dmemUe
    · exact Fit.ite h h.setTile.coreCe

theorem store_fits (h : Fit p w s) {t op size rs rs1 imm} : Fits p w (store t op size rs rs1 imm s) := by
  refine issue_fits h fun s c h => ?_
  dsimp only
  split
  · exact h
  · split
    · exact h.dmemUe
    · exact h.setTile.coreCe

theorem globalAccess_fits (h : Fit p w s) {t n regs rs1 size imm acc} :
    Fits p w (globalAccess t n regs rs1 size imm acc s) := by
  refine issue_fits h fun s c h => ?_
  dsimp only
  split
  · exact h
  · exact .ite trivial h

theorem ldg_fits (h : Fit p w s) {t rd rs1 size sx imm} : Fits p w (execLdg t rd rs1 size sx imm s) := globalAccess_fits h
theorem stg_fits (h : Fit p w s) {t rd rs1 size imm} : Fits p w (execStg t rd rs1 size imm s) := globalAccess_fits h

theorem Fit.access {α : Type} (h : Fit p w s) {t k o} {x : EM α} {done} (hx : x.Keeps (Fit p w)) :
    Fit p w (s.access t k o x done) := by
  have hk := hx s h
  unfold State.access
  split <;> rename_i heq <;> rw [heq] at hk
  · exact hk.setCore
  · exact hk.setCore
  · exact hk.trap
  · exact hk.tileFault.fatalFault
  · exact h
  · exact hk
  · exact hk

theorem ldgDataArrival_fits (h : Fit p w s) {t k} : Fits p w (execLdgDataArrival t k s) := by
  unfold execLdgDataArrival
  refine .ite ?_ h.next
  split
  · exact (h.access readSpan_fits).next
  · exact h.next

theorem stgApplied_fits (h : Fit p w s) {t k} : Fits p w (execStgApplied t k s) := by
  unfold execStgApplied
  refine .ite ?_ h.next
  split
  · exact (h.access writeSpan_fits).next
  · exact h.next

theorem busTrap_fits (h : Fit p w s) {t} : Fits p w (execBusTrap t s) := by
  unfold execBusTrap
  dsimp only
  split
  · exact .ite h.setCore.trap.next h.next
  · exact h.next

/-! ## Transfers, system instructions and debug controls (R298, R299, R319 - R336) -/

theorem Fit.transferTo (h : Fit p w s) {c a} : (Sys2Proof.Machine.transferTo s c a).Fits p w := .ite (show Fit p w s from h) h

theorem br_fits (h : Fit p w s) {t ps b off} : Fits p w (execBr t ps b off s) :=
  issue_fits h fun _ _ h => .ite h.transferTo h
theorem bdec_fits (h : Fit p w s) {t rd off} : Fits p w (execBdec t rd off s) :=
  issue_fits h fun _ _ h => .ite h.transferTo h
theorem jal_fits (h : Fit p w s) {t rd off} : Fits p w (execJal t rd off s) := issue_fits h fun _ _ h => h.transferTo
theorem jalr_fits (h : Fit p w s) {t rd rs1 imm} : Fits p w (execJalr t rd rs1 imm s) := issue_fits h fun _ _ h => h.transferTo
theorem trap_fits (h : Fit p w s) {t imm} : Fits p w (execTrap t imm s) := issue_fits h fun _ _ h => h
theorem eret_fits (h : Fit p w s) {t} : Fits p w (execEret t s) :=
  issue_fits h fun s _ h => .ite (show Fit p w s from h) h.transferTo
theorem csrr_fits (h : Fit p w s) {t rd num} : Fits p w (execCsrr t rd num s) := issue_fits h fun _ _ h => h
theorem csrw_fits (h : Fit p w s) {t rs1 num} : Fits p w (execCsrw t rs1 num s) := issue_fits h fun _ _ h => h
theorem endTile_fits (h : Fit p w s) {t} : Fits p w (execEndTile t s) := issue_fits h fun _ _ h => h
theorem brk_fits (h : Fit p w s) {t} : Fits p w (execBrk t s) := issue_fits h fun _ _ h => h

theorem Fit.haltReq (h : Fit p w s) {t} : Fit p w (s.haltReq t) := .ite h.setCore h
theorem Fit.dbgResume (h : Fit p w s) {t} : Fit p w (s.dbgResume t) := .ite h.setCore h
theorem Fit.dbgStep (h : Fit p w s) {t} : Fit p w (s.dbgStep t) := .ite h.setCore h

theorem haltReq_fits (h : Fit p w s) {a t} : Fits p w (execHaltReq a t s) := (Fit.ite h.haltReq h).next
theorem dbgStep_fits (h : Fit p w s) {a t} : Fits p w (execDbgStep a t s) := (Fit.ite h.dbgStep h).next
theorem dbgResume_fits (h : Fit p w s) {a t} : Fits p w (execDbgResume a t s) := (Fit.ite h.dbgResume h).next

theorem illegalInstruction_fits (h : Fit p w s) {t} : Fits p w (execIllegalInstruction t s) :=
  .ite h.next (issue_fits h fun _ _ _ => trivial)

/-! ## Commands, tokens and fences (R240, R305 - R311) -/

theorem Fit.pushIssue (h : Fit p w s) {t n rs1 rs2 b q c} : (Sys2Proof.Machine.pushIssue t n rs1 rs2 b q s c).Fits p w := by
  have ht {code val} : (Issue.trap s code val).Fits p w := h
  unfold Sys2Proof.Machine.pushIssue
  extract_lets q a x
  refine .ite ht (.ite ht (.ite ht ?_))
  split
  · exact h.dmemUe
  · refine .ite ht ?_
    split
    · exact h.dmemUe
    · split
      · exact h
      · exact .ite trivial h.setTile.anvCe

theorem Fit.countStall {t : State} (h : Fit p w t) {n} : Fit p w (Sys2Proof.Machine.countStall n s t) := .ite h.anvEvent h

theorem push_fits (h : Fit p w s) {t rs1 rs2 b q} : Fits p w (execPush t rs1 rs2 b q s) :=
  (h.issueWord fun _ _ h => h.pushIssue).countStall.next

theorem pushRoomFree_fits (h : Fit p w s) {t} : Fits p w (execPushRoomFree t s) :=
  .ite (issue_fits h fun _ _ h => h.pushIssue) h.next

theorem tsig_fits (h : Fit p w s) {t rs tok inc} : Fits p w (execTsig t rs tok inc s) :=
  issue_fits h fun _ _ h => .ite trivial h.setTile
theorem twait_fits (h : Fit p w s) {t rs tok} : Fits p w (execTwait t rs tok s) := issue_fits h fun _ _ h => .ite h trivial
theorem fence_fits (h : Fit p w s) {t k f} : Fits p w (fence t k f s) := issue_fits h fun _ _ h => .ite h trivial

/-! ## Ranges of Cloudbank and the fill of IMEM (R314 - R317) -/

theorem clb_fits (h : Fit p w s) {t rs1 rs2 b tok sg} : Fits p w (clb t rs1 rs2 b tok sg s) :=
  issue_fits h fun s _ h => .ite (show Fit p w s from h) h

theorem clbLine_fits {who j line b} : (clbLine who j line b).Keeps (Fit p w) :=
  .bind (.forIn (fun _ _ => .bind (checkGranule_keeps fit_steady _ _ _) fun _ => .pure) _ _) fun _ =>
    .bind (writeBackLine_keeps fit_steady _ _ _) fun _ => .ite (fun _ => .modify fun _ h => h.setLine) fun _ => .pure

theorem clbComplete_fits (h : Fit p w s) {t} : Fits p w (execClbComplete t s) := by
  unfold execClbComplete
  split
  · exact .ite (h.row (.bind (.forIn (fun _ _ => .bind clbLine_fits fun _ => .pure) _ _) fun _ =>
      .modify fun _ h => .ite h.setCore.setTile h.setCore)) h.next
  · exact h.next

theorem ifill_fits (h : Fit p w s) {t rs1 rs2} : Fits p w (execIfill t rs1 rs2 s) :=
  issue_fits h fun s _ h => .ite (show Fit p w s from h) (.ite (show Fit p w s from h) h)

theorem ifillCopyDone_fits (h : Fit p w s) {t} : Fits p w (execIfillCopyDone t s) := by
  unfold execIfillCopyDone
  split
  next a o _ =>
    refine .ite ?_ h.next
    have hk := readSpan_fits (p := p) (w := w) (who := ⟨.ifill, some (s.jobOf t), s.ltile t, some 4⟩) (sz := 4096) (a := a)
      (n := 4096) s h
    split <;> rename_i heq <;> rw [heq] at hk
    · exact hk.setTile.next
    · exact hk.setCore.trapWhenDrained.next
    · exact hk.tileFault.fatalFault.next
    · exact h.next
  · exact h.next

end

end Sys2Proof.Machine

/-! PROOFS. What every step keeps, through the memories' maintenance and the jobs. -/
namespace Sys2Proof.Machine

section
variable {p : List Instr} {w : Prop} {s : State}

/-! ## Accesses and the merge buffer (R352 - R361, R395 - R403) -/

theorem readRow_fits (h : Fit p w s) {who} {x : EM Unit} (hx : x.Keeps (Fit p w)) : Fits p w (readRow who x s) := by
  have hk := hx s h
  unfold readRow
  split
  next heq =>
    rw [heq] at hk
    exact .ite hk.beginReset.next hk.next
  · exact h.row hx

theorem stackRead_fits (h : Fit p w s) {who j a} : Fits p w (execStackRead who j a s) :=
  .ite (readRow_fits h (.bind (directRead_keeps fit_steady _ _ _) fun _ => .pure)) h.next

theorem stackWrite_fits (h : Fit p w s) {who a bs} : Fits p w (execStackWrite who a bs s) :=
  .ite (h.row (rawWrite_keeps fit_steady _ _ _)) h.next

theorem mergeIdleTimeout_fits (h : Fit p w s) {n c g} : Fits p w (execMergeIdleTimeout n c g s) :=
  .ite h.next h.setMergeBuf.next

theorem mergeWriteback_fits (h : Fit p w s) {n c g} : Fits p w (execMergeWriteback n c g s) := by
  unfold execMergeWriteback
  split
  · exact .ite h.writeBackEntry.next h.next
  · exact h.next

theorem farAccess_fits (h : Fit p w s) {a bs b} : Fits p w (execFarAccess a bs b s) :=
  .ite (h.row (.ite (fun _ => farWrite_keeps fit_steady _ _) fun _ => .bind (farRead_keeps fit_steady _ _) fun _ => .pure))
    h.next

theorem cacheAccess_fits (h : Fit p w s) {j a bs b} : Fits p w (execCacheAccess j a bs b s) :=
  .ite (readRow_fits h (.ite (fun _ => cachedWrite_keeps fit_steady _ _ _ _)
    fun _ => .bind (cachedRead_keeps fit_steady _ _ _ _) fun _ => .pure)) h.next

theorem flitReceive_fits (h : Fit p w s) {b i k} : Fits p w (execFlitReceive b i k s) :=
  .ite h.next (.ite h.anvUe.tileFault.fatalFault.next h.fatalFault.next)

/-! ## Retraining (R369 - R387) -/

theorem Fit.setRetrains (h : Fit p w s) {n l} : Fit p w (s.setRetrains n l) := h
theorem Fit.showFailed (h : Fit p w s) {n} : Fit p w (s.showFailed n) := h.setFlag
theorem Fit.beginRetrain (h : Fit p w s) {n c} : Fit p w (s.beginRetrain n c) := h.setF.setF.setFlag.setF.showFailed
theorem Fit.requestRetrain (h : Fit p w s) {n c} : Fit p w (s.requestRetrain n c) :=
  .ite (.ite h h.setRetrains) h.beginRetrain

theorem Fit.nextRetrain (h : Fit p w s) {n} : Fit p w (s.nextRetrain n) := by
  unfold State.nextRetrain
  dsimp only
  split
  · exact h.setFlag.setF.setRetrains.beginRetrain
  · exact h.setFlag.setF

theorem linkCrcLimit_fits (h : Fit p w s) {n c k} : Fits p w (execLinkCrcLimit n c k s) :=
  (Fit.ite h.bumpSat.requestRetrain h.bumpSat).next
theorem dramTemperatureMove_fits (h : Fit p w s) {n c} : Fits p w (execDramTemperatureMove n c s) := h.requestRetrain.next
theorem mscRetrainGo_fits (h : Fit p w s) {a n c} : Fits p w (execMscRetrainGo a n c s) := (Fit.ite h.requestRetrain h).next

theorem retrainAttemptEnd_fits (h : Fit p w s) {n b} : Fits p w (execRetrainAttemptEnd n b s) :=
  .ite (.ite h.setF.setF.setF.bump.bump.showFailed.nextRetrain.next
    (.ite h.bump.setF.showFailed.erq.due.nextRetrain.next h.bump.next)) h.next

/-! ## Migration, scrubbing and write holds (R366, R374 - R380, R413 - R416) -/

theorem Fit.migTodo (h : Fit p w s) (l : List W64) : Fit p w { s with migTodo := l } := h
theorem Fit.svcOver (h : Fit p w s) (x : Option (Nat × Nat)) (b : Bool) (l : List W64) :
    Fit p w { s with svc := x, svcHeld := b, migTodo := l } := h
theorem Fit.lapCe (h : Fit p w s) (m : SMap Nat) : Fit p w { s with lapCe := m } := h
theorem Fit.lapUe (h : Fit p w s) (m : SMap Nat) : Fit p w { s with lapUe := m } := h
theorem Fit.lapLate (h : Fit p w s) (l : List Nat) : Fit p w { s with lapLate := l } := h
theorem Fit.scrubAt (h : Fit p w s) (m : SMap Nat) : Fit p w { s with scrubAt := m } := h
theorem Fit.lapOver (h : Fit p w s) (k l m : SMap Nat) (a b c : List Nat) : Fit p w { s with
    scrubAt := k, lapCe := l, lapUe := m, lapLate := a, heavyPrev := b, heavyNow := c } := h

theorem Fit.startExtent (h : Fit p w s) {n} : Fit p w (s.startExtent n) := by
  unfold State.startExtent
  split
  · exact ((h.migTodo _).setReg _ _).setF.setF.setFlag
  · exact h

theorem Fit.endAction (h : Fit p w s) {r} : Fit p w (s.endAction r) := by
  unfold State.endAction
  split
  · exact h
  · exact (h.svcOver _ _ _).setF.setF.setF.bump

theorem Fit.countFixed (h : Fit p w s) {g k} : Fit p w (s.countFixed g k) := fit_steady.countFixed h _ _
theorem Fit.poisonPage (h : Fit p w s) {g c k} : Fit p w (s.poisonPage g c k) := fit_steady.poisonPage h _ _ _
theorem Fit.otherRead (h : Fit p w s) {g} : Fit p w (s.otherRead g).2 := fit_steady.otherRead h _

theorem Fit.copyOf (h : Fit p w s) {g} : Fit p w (s.copyOf g).2 := by
  unfold State.copyOf
  extract_lets pg n expect
  split
  · exact h
  · exact h.countFixed
  · extract_lets u
    have hu : Fit p w u := by
      unfold u
      split
      · exact h.bumpSat
      · exact h
    have h1 := hu.otherRead (g := g)
    split <;> rename_i heq <;> rw [heq] at h1
    · exact Fit.erq (.ite h1.setF h1)
    · exact h1.bump.erq.erq

theorem copyPage_fits (h : Fit p w s) {n} : Fits p w (execCopyPage n s) := by
  unfold execCopyPage
  refine .ite ?_ h.next
  extract_lets i x cp gp
  refine .ite h.next ?_
  split
  · exact h.next
  next u e =>
    have hu : Fit p w u := fit_steady.mergeRoom h e
    have hc := hu.copyOf (g := gp)
    generalize u.copyOf gp = r at hc ⊢
    obtain ⟨pg, v⟩ := r
    dsimp -zeta only
    extract_lets v1 v2 v3 v4
    have h2 : Fit p w v2 := (hc.reserve _ _).setF
    have h4 : Fit p w v4 := h2.setF.setFlag.erq
    exact .ite (Fit.ite h4.endAction h4.startExtent).next h2.next

theorem writeHoldBegin_fits (h : Fit p w s) {n a b} : Fits p w (execWriteHoldBegin n a b s) := .ite h.setFlag.erq.next h.next
theorem writeHoldEnd_fits (h : Fit p w s) {n a b} : Fits p w (execWriteHoldEnd n a b s) := .ite h.setFlag.erq.next h.next

theorem Fit.scrubOne (h : Fit p w s) {g t} (e : s.scrubOne g = some t) : Fit p w t := by
  unfold State.scrubOne at e
  dsimp only at e
  split at e
  · exact Option.some.inj e ▸ h
  · exact Option.some.inj e ▸ h
  · split at e
    · exact Option.some.inj e ▸ h
    · exact fit_steady.writeUnder (h.countFixed.lapCe _) e
  next c k _ =>
    have h1 := ((h.poisonPage (g := g) (c := c) (k := k)).lapUe
      (SMap.put 0 s.lapUe (s.stackOf g) (SMap.get 0 s.lapUe (s.stackOf g) + 1))).otherRead (g := g)
    split at e <;> rename_i heq <;> rw [heq] at h1
    · obtain ⟨u, hu, rfl⟩ := Option.map_eq_some_iff.1 e
      exact Fit.erq (fit_steady.writeUnder h1 hu)
    · exact Option.some.inj e ▸ h1

theorem Fit.endLap (h : Fit p w s) {n k} : Fit p w (s.endLap n k) := by
  unfold State.endLap
  extract_lets a b c own d
  have hc : Fit p w c := h.setF.bump.setF.setF
  have hd : Fit p w d := hc.lapOver _ _ _ _ _ _
  exact .ite hd.erq hd

theorem scrubPage_fits (h : Fit p w s) {n c k} : Fits p w (execScrubPage n c k s) := by
  unfold execScrubPage
  refine .ite ?_ h.next
  split
  · exact h.next
  next e =>
    have ht := (h.scrubOne e).scrubAt
    exact (Fit.ite (ht _).endLap (ht _)).next

theorem scrubTargetExpiry_fits (h : Fit p w s) {n} : Fits p w (execScrubTargetExpiry n s) := (h.lapLate _).next

theorem Fit.erqConsume (h : Fit p w s) {v} : Fit p w (s.erqConsume v) := .ite h.setF h
theorem erqConsume_fits (h : Fit p w s) {a v} : Fits p w (execErqConsume a v s) := (Fit.ite h.erqConsume h).next
theorem resetDone_fits (h : Fit p w s) : Fits p w (execResetDone s) := .ite h.finishReset.next h.next

/-! ## Jobs that take turns (R583 - R601) -/

theorem Fit.chosen (h : Fit p w s) (l : List Nat) : Fit p w { s with chosen := l } := h
theorem Fit.parked (h : Fit p w s) (l : List Nat) : Fit p w { s with parked := l } := h
theorem Fit.saved (h : Fit p w s) (m : SMap TileState) : Fit p w { s with saved := m } := h
theorem Fit.endAsked (h : Fit p w s) (l : List Nat) : Fit p w { s with endAsked := l } := h
theorem Fit.offTurn (h : Fit p w s) (a b c : List Nat) : Fit p w { s with parked := a, demT := b, chosen := c } := h
theorem Fit.forgotten (h : Fit p w s) (a b c : List Nat) (m : SMap Nat) :
    Fit p w { s with endAsked := a, demT := b, demV := c, rrLast := m } := h

theorem Fit.showSaving (h : Fit p w s) {j b} : Fit p w (s.showSaving j b) := h.foldl fun h => h.setFlag

theorem Fit.startSave (h : Fit p w s) {j} : Fit p w (s.startSave j) := by
  have hf : Fit p w ((s.tileSet j).foldl (fun s l => s.setCtx j l (s.ctx j l).withdraw) s) := h.foldl fun h => h.setCtx
  exact .ite hf.setF.bump.showSaving h

theorem sliceEnd_fits (h : Fit p w s) {j k} : Fits p w (execSliceEnd j k s) := by
  unfold execSliceEnd
  refine .ite (.ite h.debitT.startSave.next ?_) h.next
  split
  · exact (h.debitT.chosen _).startSave.next
  · exact h.debitT.next

theorem idlePreempt_fits (h : Fit p w s) {j k} : Fits p w (execIdlePreempt j k s) :=
  .ite (h.debitT.startSave.parked _).next h.next

theorem Fit.saveTile (h : Fit p w s) {j l} : Fit p w (s.saveTile j l) :=
  ((h.saved _).setTile.resetRegs _).setFlag.setF.setFlag

theorem Fit.loadTile (h : Fit p w s) {j l} : Fit p w (s.loadTile j l) := by
  unfold State.loadTile
  extract_lets t x u v
  have hu : Fit p w u := h.foldl fun h => h.setReg _ _
  have hv : Fit p w v := hu.saved _
  exact hv.setTile.setFlag

theorem Fit.showHalts (h : Fit p w s) {j} : Fit p w (s.showHalts j) := h.setFlag

theorem flushCache_fits {j} : (flushCache j).Keeps (Fit p w) :=
  .read fun _ _ => .loop fun _ _ => .bind clbLine_fits fun _ => .pure

/-- A tile leaves its live place. -/
theorem Fit.vacate (h : Fit p w s) {t x l} :
    Fit p w ((((s.setTile t x).resetRegs l).setFlag (ANV_ID.JOB_V t) false).setF (ANV_ID.JOB t) 0) :=
  (h.setTile.resetRegs _).setFlag.setF

theorem Fit.toEnding (h : Fit p w s) {j} : Fit p w (s.toEnding j) := by
  unfold State.toEnding
  extract_lets u v
  have hu : Fit p w u := h.foldl fun {s l} h => by
    dsimp only
    refine Fit.saved ?_ _
    split
    · exact h.vacate.setFlag
    · exact h
  have hv : Fit p w v := hu.setF.setFlag
  exact hv.offTurn _ _ _

theorem Fit.applyEnd (h : Fit p w s) {j} : Fit p w (s.applyEnd j) := .ite h.toEnding h

theorem saveDone_fits (h : Fit p w s) {j k} : Fits p w (execSaveDone j k s) := by
  unfold execSaveDone
  refine .ite ?_ h.next
  extract_lets u v x
  have hv : Fit p w v := h.debitT.foldl fun h => h.saveTile
  have hx : Fit p w x := hv.setF.showHalts
  exact hx.applyEnd.next

theorem restoreStart_fits (h : Fit p w s) {j} : Fits p w (execRestoreStart j s) := by
  unfold execRestoreStart
  refine .ite ?_ h.next
  extract_lets u v
  have hu : Fit p w u := h.chosen _
  have hv : Fit p w v := hu.foldl fun h => h.setFlag.setF
  exact hv.setF.showSaving.next

theorem restoreDone_fits (h : Fit p w s) {j k} : Fits p w (execRestoreDone j k s) := by
  unfold execRestoreDone
  refine .ite ?_ h.next
  extract_lets u v x
  have hv : Fit p w v := h.debitT.foldl fun h => h.loadTile
  have hx : Fit p w x := hv.setF.setFlag
  exact hx.applyEnd.next

theorem Fit.writeHold (h : Fit p w s) {j b} : Fit p w (s.writeHold j b) := h.setFlag.unpark.noteDemandT

theorem jobHold_fits (h : Fit p w s) {a j} : Fits p w (execJobHold a j s) := (Fit.ite h.writeHold h).next

theorem Fit.requestEnd (h : Fit p w s) {j} : Fit p w (s.requestEnd j) := .ite h (h.endAsked _).endLost.applyEnd

theorem jobEndRequest_fits (h : Fit p w s) {a j b} : Fits p w (execJobEndRequest a j b s) :=
  (Fit.ite h.writeHold.requestEnd h).next

theorem jobEnd_fits (h : Fit p w s) {j} : Fits p w (execJobEnd j s) :=
  .ite (h.row (.bind flushCache_fits fun _ => .bind (endRequests_keeps fit_steady _) fun _ => .modify fun _ h => h.toEnding))
    h.next

theorem Fit.release (h : Fit p w s) {j} : Fit p w (s.release j) := by
  unfold State.release
  extract_lets u regs v
  have hu : Fit p w u := h.foldl fun h => h.saved _
  have hv : Fit p w v := hu.resetRegs _
  exact hv.forgotten _ _ _ _

theorem jobEnded_fits (h : Fit p w s) {j} : Fits p w (execJobEnded j s) :=
  .ite (h.row (.bind flushCache_fits fun _ => .bind (endRequests_keeps fit_steady _) fun _ =>
    .modify fun _ h => h.erq.post.release.setF)) h.next

theorem tileRoundEnd_fits (h : Fit p w s) {l} : Fits p w (execTileRoundEnd l s) :=
  Fit.next (Fit.endRoundT (h.foldl fun h => .ite h.debitT h))

theorem stackRoundEnd_fits (h : Fit p w s) {n l} : Fits p w (execStackRoundEnd n l s) :=
  .ite (Fit.next (Fit.endRoundV (h.foldl fun h => .ite h.debitV h))) h.next

end

end Sys2Proof.Machine

/-! PROOFS. What every step keeps, through the loading of jobs. -/
namespace Sys2Proof.Machine

section
variable {p : List Instr} {w : Prop} {s : State}

/-! ## Loading (chapter 16) -/

theorem ldrRead_fits {a n} : (ldrRead a n).Keeps (Fit p w) :=
  .read fun _ _ => .ite (fun _ => .pure) fun _ => .tryCatch (.bind readSpan_fits fun _ => .pure) fun e => by
    cases e with
    | poison _ => exact .pure
    | bus _ => exact .pure
    | _ => exact .throw

theorem ldrWrite_fits {a bs} : (ldrWrite a bs).Keeps (Fit p w) :=
  .tryCatch (rawSpanWrite_keeps fit_steady _ _ _ _) fun e => by
    cases e with
    | poison _ => exact .pure
    | bus _ => exact .pure
    | _ => exact .throw

theorem Fit.setAll (h : Fit p w s) {l} : Fit p w (Sys2Proof.Machine.setAll l s) := h.foldl fun h => h.setReg _ _

theorem loadInit_fits {x c} : (loadInit x c).Keeps (Fit p w) := by
  refine .read fun s h => ?_
  dsimp only
  split
  · exact .set (h.scratchWrite _ _ _ _)
  · exact .pure
  · exact .bind ldrWrite_fits fun _ => .ite (fun _ => .loop fun _ _ => .bind ldrWrite_fits fun _ => .pure) fun _ => .pure

theorem loadKvHeader_fits {x} : (loadKvHeader x).Keeps (Fit p w) :=
  .read fun _ _ => .loop fun _ _ => .bind ldrWrite_fits fun _ => .ite (fun _ => .bind ldrWrite_fits fun _ => .pure)
    fun _ => .pure

theorem Fit.loadShares (h : Fit p w s) (a b d : SMap Nat) (c : SMap (List Byte)) :
    Fit p w { s with shareT := a, engines := b, digests := c, shareV := d } := h

theorem applyLoad_fits {x feat} : (applyLoad x feat).Keeps (Fit p w) := by
  have hsaved : EM.Keeps (Fit p w) (modify fun s => { s with
      saved := x.img.tiles.foldl (fun m l => SMap.put TileState.zero m (savedKey x.job l) (x.tileInit feat l)) s.saved }) :=
    .modify fun _ h => h.saved _
  exact .read fun _ _ => .guard fun _ => .bind (.modify fun _ h => fit_loads.prepare h _) fun _ =>
    .bind (.modify fun _ h => h.setAll) fun _ =>
    .bind (.modify fun _ h => .ite (h.setAll.setSrvJob _ _) h) fun _ =>
    .bind (.modify fun _ h => h.loadShares _ _ _ _) fun _ =>
    .bind (.forIn (fun _ _ => .ite (fun _ => .bind loadInit_fits fun _ => .pure) fun _ => .pure) _ _) fun _ =>
    .when loadKvHeader_fits fun _ => hsaved

theorem checkLoad_fits {place f pads b} : (checkLoad place f pads b).Keeps (Fit p w) := by
  refine .bind ldrRead_fits fun r => ?_
  split
  · exact .pure
  · refine .bind ldrRead_fits fun r => ?_
    split
    · exact .pure
    · refine .read fun _ _ => .ite (fun _ => .pure) fun _ => .ite (fun _ => .pure) fun _ => .bind ldrRead_fits fun r => ?_
      split
      · exact .pure
      · exact .read fun _ _ => .pure

theorem Fit.loading (h : Fit p w s) (x : Option Loading) : Fit p w { s with loading := x } := h
theorem Fit.ldrIn (h : Fit p w s) (l : List (List W64)) : Fit p w { s with ldrIn := l } := h

theorem loadRow_fits {place cookie f pads b} : (loadRow place cookie f pads b).Keeps (Fit p w) := by
  refine .bind checkLoad_fits fun r => ?_
  dsimp only
  split
  · exact .modify fun _ h => h.loading _
  · exact .bind applyLoad_fits fun _ => .modify fun _ h => h.loading _

theorem load_record_fits (h : Fit p w s) {f pads b} : Fits p w (execLoad f pads b s) := by
  unfold execLoad
  split
  · exact .ite (h.row (.bind (.modify fun _ h => h.ldrIn _) fun _ => loadRow_fits)) h.next
  · exact h.next

theorem Fit.recheckLoad (h : Fit p w s) {x} : Fit p w (s.recheckLoad x).2 := by
  unfold State.recheckLoad
  split
  · split
    · exact h
    · exact (h.release.setSrvJob _ _).setFlag
  · exact h

/-- The state that work ends in. -/
theorem EM.Keeps.after {α : Type} {P : State → Prop} {x : EM α} {r : Except Stop α} {t : State} (e : x.go s = (r, t)) (h : P s)
    (hx : x.Keeps P) : P t := by
  have hk := hx s h
  rw [e] at hk
  exact hk

theorem loadResult_fits (h : Fit p w s) : Fits p w (execLoadResult s) := by
  unfold execLoadResult
  split
  · exact h.next
  next x _ =>
    refine .ite h.next ?_
    have hc := h.recheckLoad (x := x)
    generalize s.recheckLoad x = r at hc ⊢
    obtain ⟨y, u⟩ := r
    dsimp -zeta only
    split
    · exact h.next
    next heq =>
      refine (EM.Keeps.after heq hc (.read fun s _ => .when ldrWrite_fits fun _ => .modify fun s h => ?_)).next
      refine Fit.loading (Fit.bump (Fit.post (Fit.erq ?_))) _
      split
      · exact h.setFlag.setF.noteDemandT
      · exact h

end

end Sys2Proof.Machine

/-! PROOFS. What every step keeps, through the pools of pages, the tree of PXW and the sampler. -/
namespace Sys2Proof.Machine

section
variable {p : List Instr} {w : Prop} {s : State}

/-! ## Accesses of the serving units -/

theorem srvRd_fits {j a n} : (srvRd j a n).Keeps (Fit p w) := srvRd_keeps fit_steady _ _ _
theorem srvWr_fits {j a bs} : (srvWr j a bs).Keeps (Fit p w) := srvWr_keeps fit_steady _ _ _
theorem srvRdNat_fits {j a n} : (srvRdNat j a n).Keeps (Fit p w) := srvRdNat_keeps fit_steady _ _ _
theorem srvWrNat_fits {j a n v} : (srvWrNat j a n v).Keeps (Fit p w) := srvWrNat_keeps fit_steady _ _ _ _
theorem smpRd_fits {j a n} : (smpRd j a n).Keeps (Fit p w) := smpRd_keeps fit_steady _ _ _
theorem smpWr_fits {j a bs} : (smpWr j a bs).Keeps (Fit p w) := smpWr_keeps fit_steady _ _ _
theorem smpRdNat_fits {j a n} : (smpRdNat j a n).Keeps (Fit p w) := smpRdNat_keeps fit_steady _ _ _
theorem smpWrNat_fits {j a n v} : (smpWrNat j a n v).Keeps (Fit p w) := smpWrNat_keeps fit_steady _ _ _ _

/-! ## The pool map (R486 - R496) -/

theorem mapWord_fits {j n k} : (mapWord j n k).Keeps (Fit p w) := .read fun _ _ => .bind srvRdNat_fits fun _ => .pure
theorem setMapWord_fits {j n k x} : (setMapWord j n k x).Keeps (Fit p w) := .read fun _ _ => srvWrNat_fits
theorem addRef_fits {j q b} : (addRef j q b).Keeps (Fit p w) := .bind mapWord_fits fun _ => setMapWord_fits
theorem addPin_fits {j q b} : (addPin j q b).Keeps (Fit p w) := .bind mapWord_fits fun _ => setMapWord_fits
theorem pageEntry_fits {j r i} : (pageEntry j r i).Keeps (Fit p w) := .read fun _ _ => srvRdNat_fits
theorem setPageEntry_fits {j r i v} : (setPageEntry j r i v).Keeps (Fit p w) :=
  .read fun _ _ => .loop fun _ _ => .bind srvWrNat_fits fun _ => .pure

theorem listPages_fits {j r} : (listPages j r).Keeps (Fit p w) :=
  .read fun _ _ => .bind (.forIn (fun _ _ => .bind pageEntry_fits fun _ => .ite (fun _ => .pure) fun _ => .pure) _ _)
    fun _ => .pure

theorem poolWords_fits {j n} : (poolWords j n).Keeps (Fit p w) :=
  .read fun _ _ => .bind (.forIn (fun _ _ => .bind mapWord_fits fun _ => .pure) _ _) fun _ => .pure

/-! ## The tree of PXW (chapter 13) -/

theorem readNode_fits {j i} : (readNode j i).Keeps (Fit p w) := .read fun _ _ => .bind srvRd_fits fun _ => .pure
theorem writeNode_fits {j d} : (writeNode j d).Keeps (Fit p w) := .read fun _ _ => srvWr_fits
theorem nodeToks_fits {j i} : (nodeToks j i).Keeps (Fit p w) := .read fun _ _ => .bind srvRd_fits fun _ => .pure

theorem chainFrom_fits {j} : ∀ {f i}, (chainFrom j f i).Keeps (Fit p w)
  | 0, _ => .pure
  | _ + 1, _ => .ite (fun _ => .pure) fun _ => .bind readNode_fits fun _ => .bind chainFrom_fits fun _ => .pure

theorem chainOf_fits {j parent ns tok} : (chainOf j parent ns tok).Keeps (Fit p w) :=
  .read fun _ _ => .bind srvRdNat_fits fun _ => chainFrom_fits

theorem allNodes_fits {j} : (allNodes j).Keeps (Fit p w) :=
  .read fun _ _ => .bind (.forIn (fun _ _ => .bind readNode_fits fun _ => .ite (fun _ => .pure) fun _ => .pure) _ _)
    fun _ => .pure

theorem roomIn_fits {j n x} : (roomIn j n x).Keeps (Fit p w) :=
  .bind poolWords_fits fun _ => .bind allNodes_fits fun _ => .read fun _ _ => .pure

theorem promptToks_fits {j r m n} : (promptToks j r m n).Keeps (Fit p w) := .bind srvRd_fits fun _ => .pure

theorem bestChild_fits {j parent ns toks} : ∀ {l b}, (bestChild j parent ns toks l b).Keeps (Fit p w)
  | [], _ => .pure
  | _ :: _, _ => .ite (fun _ => .bind nodeToks_fits fun _ => bestChild_fits) fun _ => bestChild_fits

theorem walkLoop_fits {j r step} : ∀ {f parent m path}, (walkLoop j r step f parent m path).Keeps (Fit p w)
  | 0, _, _, _ => .pure
  | _ + 1, _, _, _ => .ite (fun _ => .bind promptToks_fits fun _ => .bind chainOf_fits fun _ => .bind bestChild_fits
      fun _ => .ite (fun _ => .pure) fun _ => .bind readNode_fits fun _ => .bind writeNode_fits fun _ =>
      .ite (fun _ => .pure) fun _ => walkLoop_fits) fun _ => .pure

theorem cutMatch_fits {j} : ∀ {l b}, (cutMatch j l b).Keeps (Fit p w)
  | [], _ => .pure
  | _ :: _, _ => .bind readNode_fits fun _ => .bind roomIn_fits fun _ => .ite (fun _ => .pure) fun _ => cutMatch_fits

theorem walk_fits {j r} : (walk j r).Keeps (Fit p w) :=
  .read fun _ _ => .bind walkLoop_fits fun _ => .bind cutMatch_fits fun _ => .ite (fun _ => .pure)
    fun _ => .bind readNode_fits fun _ => .pure

theorem holdNode_fits {j n b} : (holdNode j n b).Keeps (Fit p w) :=
  .ite (fun _ => .bind readNode_fits fun _ => writeNode_fits) fun _ => .pure

theorem unlink_fits {j d} : (unlink j d).Keeps (Fit p w) :=
  .read fun _ _ => .bind nodeToks_fits fun _ => .bind srvRdNat_fits fun _ => .ite (fun _ => srvWrNat_fits)
    fun _ => .bind chainFrom_fits fun _ => by
      split
      · exact writeNode_fits
      · exact .pure

theorem evictNode_fits {j d} : (evictNode j d).Keeps (Fit p w) := by
  refine .bind unlink_fits fun _ => .bind readNode_fits fun _ => .bind writeNode_fits fun _ => ?_
  have hend : EM.Keeps (Fit p w) (do
      addRef j d.page false
      modify (fun s => s.setF (PXW_JOB_NODES.USEDN j) (s.f (PXW_JOB_NODES.USEDN j) - 1))) :=
    .bind addRef_fits fun _ => .modify fun _ h => h.setF
  exact .ite (fun _ => .bind readNode_fits fun _ => .bind writeNode_fits fun _ => hend) fun _ => hend

theorem freePage_fits {j n} : ∀ {f}, (freePage j n f).Keeps (Fit p w)
  | 0 => .bind poolWords_fits fun _ => .pure
  | f + 1 => .bind poolWords_fits fun _ => by
    split
    · exact .pure
    · refine .bind allNodes_fits fun _ => ?_
      split
      · exact .bind evictNode_fits fun _ => freePage_fits
      · exact .pure

theorem allocPage_fits {j i} : (allocPage j i).Keeps (Fit p w) :=
  .read fun _ _ => .bind freePage_fits fun _ => by
    split
    · exact .bind addRef_fits fun _ => .bind (.modify fun _ h => h.setReq _ _) fun _ => .pure
    · exact .pure

theorem freeNode_fits {j parent} : (freeNode j parent).Keeps (Fit p w) :=
  .read fun _ _ => .bind allNodes_fits fun _ => by
    dsimp only
    split
    · exact .pure
    · refine .bind allNodes_fits fun _ => ?_
      split
      · exact .bind evictNode_fits fun _ => .pure
      · exact .pure

theorem sameChild_fits {j parent ns toks} : (sameChild j parent ns toks).Keeps (Fit p w) :=
  .bind chainOf_fits fun _ => .bind bestChild_fits fun _ => .pure

theorem addNode_fits {j idx parent ns page toks} : (addNode j idx parent ns page toks).Keeps (Fit p w) := by
  refine .read fun _ _ => .bind srvRdNat_fits fun _ => .bind writeNode_fits fun _ => .bind srvWr_fits fun _ =>
    .bind srvWrNat_fits fun _ => ?_
  have hend : EM.Keeps (Fit p w) (do
      addRef j page true
      modify (fun s => s.bump (PXW_JOB_NODES.USEDN j) 1)) := .bind addRef_fits fun _ => .modify fun _ h => h.bump
  exact .ite (fun _ => .bind readNode_fits fun _ => .bind writeNode_fits fun _ => hend) fun _ => hend

theorem insertPages_fits {j q} : ∀ {f i parent}, (insertPages j q f i parent).Keeps (Fit p w)
  | 0, _, _ => .pure
  | f + 1, i, parent => .read fun _ _ => .bind promptToks_fits fun _ => .bind sameChild_fits fun _ => by
    split
    · exact insertPages_fits
    · refine .bind freeNode_fits fun _ => ?_
      split
      · exact .pure
      · exact .bind pageEntry_fits fun _ => .bind addNode_fits fun _ => insertPages_fits

theorem pathNode_fits {j r} : ∀ {f i parent}, (pathNode j r f i parent).Keeps (Fit p w)
  | 0, _, _ => .pure
  | f + 1, i, parent => .bind promptToks_fits fun _ => .bind sameChild_fits fun _ => by
    split
    · exact pathNode_fits
    · exact .pure

theorem insertPrompt_fits {j q} : (insertPrompt j q).Keeps (Fit p w) :=
  .read fun _ _ => .bind pathNode_fits fun _ => by
    split
    · exact insertPages_fits
    · exact .pure

/-! ## The sampler's blocks (chapter 14) -/

theorem readParam_fits {j a} : (readParam j a).Keeps (Fit p w) := .bind smpRd_fits fun _ => .bind smpRd_fits fun _ => .pure
theorem readGram_fits {j q} : (readGram j q).Keeps (Fit p w) := .ite (fun _ => .pure) fun _ => .bind smpRd_fits fun _ => .pure
theorem readSsb_fits {j a} : (readSsb j a).Keeps (Fit p w) := .bind smpRd_fits fun _ => .pure
theorem writeSsbHead_fits {j a x} : (writeSsbHead j a x).Keeps (Fit p w) := smpWr_fits
theorem writeVcount_fits {j a v} : (writeVcount j a v).Keeps (Fit p w) := smpWrNat_fits
theorem readHistory_fits {j a x} : (readHistory j a x).Keeps (Fit p w) := .bind smpRd_fits fun _ => .pure

theorem smpAdmit_fits {j i} : (smpAdmit j i).Keeps (Fit p w) :=
  .read fun _ _ => .bind readParam_fits fun _ => .bind readGram_fits fun _ => .bind smpRd_fits fun _ =>
    .bind smpRd_fits fun _ => .bind (.modify fun _ h => h.setReq _ _) fun _ => .bind writeSsbHead_fits fun _ =>
    .bind writeVcount_fits fun _ => smpWr_fits

theorem readLogits_fits {j h k} : (readLogits j h k).Keeps (Fit p w) := .bind smpRd_fits fun _ => .pure

theorem viewRow_fits {j i h k} : (viewRow j i h k).Keeps (Fit p w) :=
  .read fun _ _ => .bind readParam_fits fun _ => .bind readSsb_fits fun _ => .bind readHistory_fits fun _ =>
    .bind readLogits_fits fun _ => .bind readGram_fits fun _ => by
      split
      · exact .bind .pure fun _ => .pure
      · exact .bind smpRd_fits fun _ => .bind .pure fun _ => .pure

theorem writeEntry_fits {j i x} : (writeEntry j i x).Keeps (Fit p w) :=
  .read fun _ _ => .bind smpRdNat_fits fun _ => .bind smpWrNat_fits fun _ => smpWrNat_fits

theorem afterToken_fits {j q o tok} : (afterToken j q o tok).Keeps (Fit p w) :=
  .bind readSsb_fits fun _ => .ite (fun _ => writeSsbHead_fits) fun _ => .bind smpWrNat_fits fun _ =>
    .ite (fun _ => writeSsbHead_fits) fun _ => writeSsbHead_fits

/-! ## Rows of a step -/

theorem deliver_fits {j i h x} : (deliver j i h x).Keeps (Fit p w) := by
  refine .read fun s _ => .bind readParam_fits fun q => .bind readSsb_fits fun _ => .bind readGram_fits fun _ => ?_
  extract_lets -underBinder jp
  have hjp : ∀ o, (jp o).Keeps (Fit p w) := fun o => .bind writeEntry_fits fun _ => .bind afterToken_fits fun _ =>
    .bind (.modify fun _ h => h.setReq _ _) fun _ => .ite (fun _ => insertPrompt_fits) fun _ => .pure
  split
  · exact .bind .pure hjp
  · exact .bind smpRdNat_fits fun _ => .bind .pure hjp

theorem Fit.judgeEnd (h : Fit p w s) {i} : Fit p w (s.judgeEnd i) := .ite h (.ite h.endReq (.ite h.endReq h))

theorem commitPoint_fits {j i h x} : (commitPoint j i h x).Keeps (Fit p w) :=
  .read fun _ hs => .ite (fun _ => .bind (.set hs.judgeEnd) fun _ => .pure) fun _ =>
    .bind smpRdNat_fits fun _ => .bind smpRdNat_fits fun _ => .ite (fun _ => .pure) fun _ => .ite
      (fun _ => .bind writeEntry_fits fun _ => .bind (.modify fun _ h => h.endReq.bumpSat) fun _ => .pure)
      fun _ => .bind deliver_fits fun _ => .pure

theorem storeDraft_fits {j q d l} : (storeDraft j q d l).Keeps (Fit p w) := .bind smpWrNat_fits fun _ => smpWr_fits
theorem readDraft_fits {j q d} : (readDraft j q d).Keeps (Fit p w) := .bind smpRdNat_fits fun _ => .bind smpRd_fits fun _ => .pure
theorem draftRow_fits {j k h r} : (draftRow j k h r).Keeps (Fit p w) :=
  .bind viewRow_fits fun _ => .bind storeDraft_fits fun _ => .pure

theorem verifyNext_fits {j h r} : (verifyNext j h r).Keeps (Fit p w) :=
  .bind viewRow_fits fun _ => .ite (fun _ => .ite (fun _ => .ite (fun _ => .pure) fun _ => .pure)
    fun _ => .bind readDraft_fits fun _ => .ite (fun _ => .pure) fun _ => .pure) fun _ => .pure

theorem setRow_fits {j i r} : (setRow j i r).Keeps (Fit p w) := .modify fun _ h => h.setSrvJob _ _
theorem passRow_fits {j i b} : (passRow j i b).Keeps (Fit p w) := .read fun _ _ => setRow_fits

theorem nextPend_fits {j h b r} : (nextPend j h b r).Keeps (Fit p w) := by
  unfold nextPend
  split
  · exact .pure
  · exact .ite (fun _ => .bind verifyNext_fits fun _ => .ite
      (fun _ => .bind (.modify fun _ h => h.bumpSat) fun _ => .pure) fun _ => .pure)
      fun _ => .bind viewRow_fits fun _ => .read fun _ _ => .pure

theorem runRow_fits {j i h b} : ∀ {f}, (runRow j i h b f).Keeps (Fit p w)
  | 0 => .bind passRow_fits fun _ => .pure
  | f + 1 => .read fun _ _ => .ite (fun _ => .bind passRow_fits fun _ => .pure) fun _ => .bind nextPend_fits fun _ =>
      .bind commitPoint_fits fun _ => by
    split
    · exact .bind setRow_fits fun _ => .pure
    · exact .bind setRow_fits fun _ => .read fun _ _ => .ite (fun _ => .bind passRow_fits fun _ => .pure) fun _ => runRow_fits

theorem runRows_fits {j h b} : ∀ {f i}, (runRows j h b f i).Keeps (Fit p w)
  | 0, _ => .pure
  | _ + 1, _ => .read fun _ _ => .ite (fun _ => runRows_fits) fun _ => .bind runRow_fits fun _ =>
      .ite (fun _ => runRows_fits) fun _ => .pure

theorem endHandoff_fits {j h b} : (endHandoff j h b).Keeps (Fit p w) :=
  .read fun _ _ => .bind (.forIn (fun _ _ => .bind smpWrNat_fits fun _ => .ite
      (fun _ => .bind readParam_fits fun _ => .bind readSsb_fits fun _ => .bind writeVcount_fits fun _ => .pure)
      fun _ => .pure) _ _) fun _ =>
    .bind (.forIn (fun _ _ => .ite (fun _ => .bind (.modify fun _ h => h.judgeEnd) fun _ => .pure) fun _ => .pure) _ _)
      fun _ => .modify fun _ h => h.setSrvJob _ _

theorem goHandoff_fits {j h b} : (goHandoff j h b).Keeps (Fit p w) :=
  .bind (.modify fun _ h => h.setSrvJob _ _) fun _ => .read fun _ _ => .bind runRows_fits fun _ =>
    .when endHandoff_fits fun _ => .modify fun _ h => h.setFlag

theorem goDraft_fits {j h} : (goDraft j h).Keeps (Fit p w) :=
  .read fun _ _ => .bind (.forIn (fun _ _ => .ite
      (fun _ => .bind draftRow_fits fun _ => .bind smpWrNat_fits fun _ => .bind setRow_fits fun _ =>
        .bind (.modify fun _ h => h.bumpSat) fun _ => .pure) fun _ => .pure) _ _) fun _ =>
    .modify fun _ h => (h.setSrvJob _ _).signal

theorem sample_fits (h : Fit p w s) {j} : Fits p w (execSample j s) := by
  unfold execSample
  split
  · exact h.row goHandoff_fits
  · exact h.next

theorem draft_fits (h : Fit p w s) {j} : Fits p w (execDraft j s) := by
  unfold execDraft
  split
  · exact h.row goDraft_fits
  · exact h.next

theorem verify_fits (h : Fit p w s) {j} : Fits p w (execVerify j s) := by
  unfold execVerify
  split
  · exact h.row goHandoff_fits
  · exact h.next

theorem ringRoom_fits (h : Fit p w s) {j} : Fits p w (execRingRoom j s) := by
  unfold execRingRoom
  split
  · exact h.row goHandoff_fits
  · exact h.next

end

end Sys2Proof.Machine

/-! PROOFS. What every step keeps, through the serving of requests and its steps. -/
namespace Sys2Proof.Machine

section
variable {p : List Instr} {w : Prop} {s : State}

/-! ## Requests and cancels (R518 - R524, R550) -/

theorem resRoom_fits {j} : (resRoom j).Keeps (Fit p w) := resRoom_keeps fit_steady _
theorem showHold_fits {j} : (showHold j).Keeps (Fit p w) := showHold_keeps fit_steady _

theorem result_fits {j ws} : (result j ws).Keeps (Fit p w) := .bind (writeResult_keeps fit_steady _ _) fun _ => showHold_fits
theorem refuseNow_fits {j r n} : (refuseNow j r n).Keeps (Fit p w) := result_fits

theorem Fit.arrivals (h : Fit p w s) (n : Nat) : Fit p w { s with arrivals := n } := h
theorem Fit.srvIn (h : Fit p w s) (l : List (Nat × List W64)) : Fit p w { s with srvIn := l } := h

theorem observeRequest_fits {ws} : (observeRequest ws).Keeps (Fit p w) := by
  refine .read fun s h => .bind (.set (h.arrivals _)) fun _ => .ite (fun _ => refuseNow_fits) fun _ => ?_
  split
  · exact refuseNow_fits
  · exact .ite (fun _ => refuseNow_fits) fun _ => .ite (fun _ => refuseNow_fits) fun _ => .fork walk_fits .pure fun _ =>
      .ite (fun _ => refuseNow_fits) fun _ => .ite (fun _ => refuseNow_fits) fun _ => .bind holdNode_fits fun _ =>
      .bind (.modify fun _ h => h.setReq _ _) fun _ => .bind (.modify fun _ h => h.setReq _ _) fun _ =>
      .read fun _ _ => result_fits

theorem observeCancel_fits {ws} : (observeCancel ws).Keeps (Fit p w) :=
  .read fun _ h => .ite (fun _ => result_fits) fun _ => .ite
    (fun _ => .bind holdNode_fits fun _ => .bind (.modify fun _ h => h.setReq _ _) fun _ => .read fun _ _ => result_fits)
    fun _ => .ite (fun _ => .set (h.setReq _ _)) fun _ => .ite (fun _ => .pure) fun _ => result_fits

theorem firstReady_fits {kind} : ∀ {l k seen}, (firstReady kind l k seen).Keeps (Fit p w)
  | [], _, _ => .pure
  | _ :: _, _, _ => .read fun _ _ => .ite (fun _ => firstReady_fits) fun _ => .ite
      (fun _ => .bind resRoom_fits fun _ => .ite (fun _ => .pure)
        fun _ => .bind (.modify fun _ h => h.setFlag) fun _ => firstReady_fits)
      fun _ => firstReady_fits

theorem takeRecord_fits {kind} {work : List W64 → EM Unit} (hw : ∀ ws, (work ws).Keeps (Fit p w)) :
    (takeRecord kind work).Keeps (Fit p w) :=
  .read fun _ _ => .bind firstReady_fits fun _ => by
    split
    · exact .bind (.modify fun _ h => h.srvIn _) fun _ => .bind (hw _) fun _ => showHold_fits
    · exact .pure

theorem request_fits (h : Fit p w s) : Fits p w (execRequest s) :=
  .ite (h.row (takeRecord_fits fun _ => observeRequest_fits)) h.next
theorem cancel_fits (h : Fit p w s) : Fits p w (execCancel s) :=
  .ite (h.row (takeRecord_fits fun _ => observeCancel_fits)) h.next

/-! ## Boundaries of steps (R510, R533 - R537) -/

theorem report_fits {j k} : (report j k).Keeps (Fit p w) :=
  .read fun _ _ => by
    split
    · exact .bind (.forIn (fun _ _ => .bind addPin_fits fun _ => .pure) _ _) fun _ => .modify fun _ h => h.setSrvJob _ _
    · exact .pure

theorem Fit.endStep (h : Fit p w s) {j} : Fit p w (s.endStep j) := by
  unfold State.endStep
  extract_lets x q tp a b c
  have ha : Fit p w a := .ite h.setF h
  have hb : Fit p w b := ha.foldl fun h => h.setReq _ _
  exact .ite h (hb.setSrvJob _ _).post

theorem releaseReq_fits {j i} : (releaseReq j i).Keeps (Fit p w) := by
  have hend : EM.Keeps (Fit p w) (do
      for q in ← listPages j i do addRef j q false
      modify (fun s => s.setSrvJob j { s.srvJob j with order := (s.srvJob j).order.filter (fun k => k != i) })
      let s ← get
      result j (resWords evFINAL 0 false j i (s.req i) (s.req i).delivered)) :=
    .bind listPages_fits fun _ => .bind (.forIn (fun _ _ => .bind addRef_fits fun _ => .pure) _ _) fun _ =>
      .bind (.modify fun _ h => h.setSrvJob _ _) fun _ => .read fun _ _ => result_fits
  exact .read fun _ h => .ite (fun _ => .bind (.set h.endReq) fun _ => hend) fun _ => hend

theorem refuseQueued_fits {j i n} : (refuseQueued j i n).Keeps (Fit p w) :=
  .read fun _ _ => .bind holdNode_fits fun _ => .bind (.modify fun _ h => h.setReq _ _) fun _ => .read fun _ _ => result_fits

theorem deferQueued_fits {j i n} : (deferQueued j i n).Keeps (Fit p w) :=
  .read fun _ h => .bind (.set (h.setReq _ _)) fun _ => .ite (fun _ => .read fun _ _ => result_fits) fun _ => .pure

theorem matchedPages_fits {j} : ∀ {f i acc}, (matchedPages j f i acc).Keeps (Fit p w)
  | 0, _, _ => .pure
  | _ + 1, _, _ => .ite (fun _ => .pure) fun _ => .bind readNode_fits fun _ => matchedPages_fits

theorem admitReq_fits {j i n} : (admitReq j i n).Keeps (Fit p w) := by
  refine .read fun _ _ => .fork .pure matchedPages_fits fun pages => .bind (.forIn (fun k _ => ?_) _ _) fun _ =>
    .bind holdNode_fits fun _ => .bind (.modify fun _ h => (h.setReq _ _).setSrvJob _ _) fun _ =>
    .bind smpAdmit_fits fun _ => .read fun _ _ => result_fits
  split
  · exact .bind setPageEntry_fits fun _ => .bind addRef_fits fun _ => .pure
  · exact .bind setPageEntry_fits fun _ => .pure

theorem Fit.setLoop (h : Fit p w s) {j l} : Fit p w (s.setLoop j l) := h.setSrvJob _ _

theorem admitLoop_fits {j} : ∀ {l b}, (admitLoop j l b).Keeps (Fit p w)
  | [], _ => .pure
  | i :: t, b => by
    refine .bind (.modify fun _ h => h.setLoop) fun _ => .bind resRoom_fits fun room => .read fun s _ => .ite
      (fun _ => .ite (fun _ => .bind refuseQueued_fits fun _ => admitLoop_fits) fun _ => .pure) fun _ => .bind roomIn_fits fun free => ?_
    extract_lets -underBinder jp
    have hjp : ∀ r, (jp r).Keeps (Fit p w) := fun r => .ite (fun _ => .pure) fun _ => .ite
      (fun _ => .bind admitReq_fits fun _ => admitLoop_fits) fun _ => .bind deferQueued_fits fun _ => admitLoop_fits
    exact .ite (fun _ => .bind .pure hjp) fun _ => .ite (fun _ => .bind .pure hjp) fun _ => .fork .pure .pure hjp

theorem releaseAll_fits {j} : ∀ {l}, (releaseAll j l).Keeps (Fit p w)
  | [] => .pure
  | _ :: _ => .bind resRoom_fits fun _ => .ite (fun _ => .bind releaseReq_fits fun _ => releaseAll_fits) fun _ => .pure

theorem draftsOf_fits {j i} : (draftsOf j i).Keeps (Fit p w) :=
  .read fun _ _ => .ite (fun _ => .bind readParam_fits fun _ => .pure) fun _ => .pure

theorem prepareEntry_fits {j i e} : (prepareEntry j i e).Keeps (Fit p w) := by
  refine .bind pageEntry_fits fun old => .ite (fun _ => .bind allocPage_fits fun _ => ?_)
    fun _ => .bind mapWord_fits fun _ => .ite (fun _ => .bind allocPage_fits fun _ => ?_) fun _ => .pure
  · split
    · exact setPageEntry_fits
    · exact .pure
  · split
    · exact .read fun _ _ => .bind srvRd_fits fun _ => .bind srvWr_fits fun _ => .bind setPageEntry_fits fun _ => addRef_fits
    · exact .pure

theorem prepareWrites_fits {j} : ∀ {l}, (prepareWrites j l).Keeps (Fit p w)
  | [] => .pure
  | _ :: _ => .bind draftsOf_fits fun _ => .read fun _ _ => .ite
      (fun _ => .bind (.forIn (fun _ _ => .bind prepareEntry_fits fun _ => .pure) _ _) fun _ => prepareWrites_fits)
      fun _ => prepareWrites_fits

theorem admission_fits {j} : (admission j).Keeps (Fit p w) :=
  .read fun _ _ => by
    split
    · exact admitLoop_fits
    · exact .bind releaseAll_fits fun _ => .ite (fun _ => .read fun _ _ =>
        .bind (.forIn (fun _ _ => .bind (.modify fun _ h => h.setReq _ _) fun _ => .pure) _ _) fun _ => admitLoop_fits)
        fun _ => .pure

theorem comingStep_fits {j} : (comingStep j).Keeps (Fit p w) :=
  .read fun _ _ => .bind prepareWrites_fits fun _ => .modify fun _ h => h.setSrvJob _ _

theorem boundary_fits {j} : (boundary j).Keeps (Fit p w) :=
  .bind (.modify fun _ h => h.endStep) fun _ => .bind (.modify fun _ h => h.setSrvJob _ _) fun _ =>
    .bind admission_fits fun _ => .when comingStep_fits fun _ => showHold_fits

theorem stepBoundary_fits (h : Fit p w s) {j} : Fits p w (execStepBoundary j s) :=
  (Fit.ite (h.foldl fun h => h.runs boundary_fits) h).next

theorem resultRingRoom_fits (h : Fit p w s) {j} : Fits p w (execResultRingRoom j s) :=
  .ite (h.row (.ite (fun _ => boundary_fits) fun _ => showHold_fits)) h.next

/-! ## Launches, handoffs and reports -/

theorem buildRows_fits {j} : ∀ {l r}, (buildRows j l r).Keeps (Fit p w)
  | [], _ => .pure
  | _ :: _, _ => .bind draftsOf_fits fun _ => .read fun _ _ => .bind buildRows_fits fun _ => .pure

theorem Fit.stepSet (h : Fit p w s) {j n} : Fit p w (s.stepSet j n) := .ite (h.setReg _ _).setF.bumpSat (h.setReg _ _).setF
theorem Fit.launched (h : Fit p w s) {j n rows pins} : Fit p w (s.launched j n rows pins) :=
  (h.stepSet.setSrvJob _ _).signal

theorem launch_fits {j} : (launch j).Keeps (Fit p w) :=
  .read fun _ _ => .bind buildRows_fits fun _ => .bind (.mapM (fun _ => listPages_fits) _) fun _ =>
    .bind srvWr_fits fun _ => .bind srvWr_fits fun _ => .bind (.forM (fun _ => addPin_fits) _) fun _ =>
    .modify fun _ h => h.launched

theorem stepLaunch_fits (h : Fit p w s) {j} : Fits p w (execStepLaunch j s) := .ite (h.row launch_fits) h.next

theorem handoff_fits (h : Fit p w s) {j} : Fits p w (execHandoff j s) :=
  .ite (h.row (.bind srvRd_fits fun _ => .ite (fun _ => .bind (.modify fun _ h => h.setSrvJob _ _) fun _ => .ite
    (fun _ => report_fits) fun _ => .pure) fun _ => .pure)) h.next

theorem stepReport_fits (h : Fit p w s) {j} : Fits p w (execStepReport j s) :=
  .ite (h.row (.bind srvRdNat_fits fun _ => report_fits)) h.next

theorem deadlineTick_fits (h : Fit p w s) : Fits p w (execDeadlineTick s) := by
  unfold execDeadlineTick
  extract_lets u
  have hu : Fit p w u := h.foldl fun h => h.setReq _ _
  exact Fit.next (hu.foldl fun h => h.setSrvJob _ _)

theorem Fit.copyReq (h : Fit p w s) {i} : Fit p w (s.copyReq i) := h.setF.foldl fun h => h.setReg _ _
theorem rqtIdxWrite_fits (h : Fit p w s) {a i} : Fits p w (execRqtIdxWrite a i s) := (Fit.ite h.copyReq h).next

end

end Sys2Proof.Machine

/-! PROOFS. What every step keeps, through the link to the companion. -/
namespace Sys2Proof.Machine

section
variable {p : List Instr} {w : Prop} {s : State}

/-! ## Ports (R631 - R635, R649 - R652) -/

theorem Fit.dylMode (h : Fit p w s) (n : Nat) : Fit p w { s with dylMode := n } := h
theorem Fit.dylPerst (h : Fit p w s) (l : List Nat) : Fit p w { s with dylPerst := l } := h
theorem Fit.linkCache (h : Fit p w s) (l : List Nat) : Fit p w { s with linkCache := l } := h
theorem Fit.ringSeen (h : Fit p w s) (m : SMap (Option (List W64))) : Fit p w { s with ringSeen := m } := h
theorem Fit.ringTaken (h : Fit p w s) (m : SMap (Option (List W64))) (l : List Nat) :
    Fit p w { s with ringSeen := m, linkCache := l } := h
theorem Fit.snoops (h : Fit p w s) (l : List (Nat × Bool)) : Fit p w { s with snoops := l } := h
theorem Fit.snooped (h : Fit p w s) (l : List (Nat × Bool)) (f : List (Nat × Nat)) :
    Fit p w { s with snoops := l, filter := f } := h
theorem Fit.linkGone (h : Fit p w s) (f : List (Nat × Nat)) (l : List (Nat × Bool)) (c : List Nat)
    (m : SMap (Option (List W64))) (n : Nat) :
    Fit p w { s with filter := f, snoops := l, linkCache := c, ringSeen := m, dylMode := n } := h
theorem Fit.vecWait (h : Fit p w s) (m : SMap Nat) : Fit p w { s with vecWait := m } := h
theorem Fit.msgs (h : Fit p w s) (l : List Msg) : Fit p w { s with msgs := l } := h
theorem Fit.msgPend (h : Fit p w s) (l : List Msg) : Fit p w { s with msgPend := l } := h
theorem Fit.msgsOff (h : Fit p w s) (l k : List Msg) : Fit p w { s with msgs := l, msgPend := k } := h

theorem Fit.setDyl (h : Fit p w s) {q st} : Fit p w (s.setDyl q st) := by
  unfold State.setDyl
  refine .ite h ?_
  extract_lets was u x d v y
  have hu : Fit p w u := h.setF
  have hv : Fit p w v := .ite hu.erq (.ite hu.erq hu)
  exact .ite hv.post.setFlag hv.post

theorem Fit.clearLane (h : Fit p w s) {q} : Fit p w (s.clearLane q) := h.setReg _ _
theorem Fit.dylDown (h : Fit p w s) {q} : Fit p w (s.dylDown q) := .ite h h.clearLane.setDyl

theorem dylTraining_fits (h : Fit p w s) {q} : Fits p w (execDylTraining q s) := .ite h.setDyl.next h.next

theorem dylL0_fits (h : Fit p w s) {q m r n b} : Fits p w (execDylL0 q m r n b s) :=
  .ite (.ite h.clearLane.setDyl.next (h.dylMode _).setF.setF.setF.setDyl.next) h.next

theorem dylTrainingTimeout_fits (h : Fit p w s) {q} : Fits p w (execDylTrainingTimeout q s) := .ite h.dylDown.next h.next

theorem dylPerst_fits (h : Fit p w s) {q b} : Fits p w (execDylPerst q b s) :=
  .ite (.ite (h.dylPerst _).next (h.dylPerst _).dylDown.next) h.next

theorem Fit.lowerWidth (h : Fit p w s) {q} : Fit p w (s.lowerWidth q) := h.setF
theorem Fit.laneRecord (h : Fit p w s) {q n b} : Fit p w (s.laneRecord q n b) := h.erq

theorem Fit.failLane (h : Fit p w s) {q n} : Fit p w (s.failLane q n) :=
  .ite h (.ite (.ite h.setF.setFlag.setF.lowerWidth.laneRecord h.setF.laneRecord)
    (.ite h.setF.setFlag.setF.laneRecord h.setF.lowerWidth.laneRecord))

theorem Fit.dylRecover (h : Fit p w s) {q} : Fit p w (s.dylRecover q) := .ite h.bump.setDyl h

theorem dylRecovery_fits (h : Fit p w s) {q l} : Fits p w (execDylRecovery q l s) :=
  .ite (Fit.next (h.dylRecover.foldl fun h => h.failLane)) h.next

theorem Fit.dylRetrain (h : Fit p w s) {q} : Fit p w (s.dylRetrain q) := .ite h.dylRecover (.ite h.setDyl h)
theorem dylRetrain_fits (h : Fit p w s) {a q} : Fits p w (execDylRetrain a q s) := (Fit.ite h.dylRetrain h).next

theorem dylRecoveryEnd_fits (h : Fit p w s) {q b r} : Fits p w (execDylRecoveryEnd q b r s) :=
  .ite (.ite h.setF.setDyl.resync.next h.dylDown.next) h.next

theorem Fit.losePage (h : Fit p w s) {g l} : Fit p w (s.losePage g l) := (h.bump.setPage _ _).erq

theorem linkLoss_fits (h : Fit p w s) : Fits p w (execLinkLoss s) := by
  unfold execLinkLoss
  extract_lets gone u
  have hu : Fit p w u := h.foldl fun h => h.losePage
  exact .ite (hu.linkGone _ _ _ _ _).next h.next

/-! ## Snoops (R637, R638) -/

theorem snoop_fits (h : Fit p w s) {a} : Fits p w (execSnoop a s) := .ite h.next (h.linkCache _).next
theorem deviceSnoop_fits (h : Fit p w s) {a b} : Fits p w (execDeviceSnoop a b s) := .ite (h.snoops _).next h.next

theorem snoopResponse_fits (h : Fit p w s) {a d} : Fits p w (execSnoopResponse a d s) := by
  unfold execSnoopResponse
  dsimp only
  split
  · exact h.row (.when (rawWrite_keeps fit_steady _ _ _) fun _ => .modify fun _ h => h.snooped _ _)
  · exact h.next

theorem snoopTimeout_fits (h : Fit p w s) {q a} : Fits p w (execSnoopTimeout q a s) := .ite h.dylRecover.next h.next

/-! ## Job rings (R640 - R644) -/

theorem Fit.readHeader (h : Fit p w s) {r x} : Fit p w (s.readHeader r x) := by
  unfold State.readHeader
  extract_lets u
  have hu : Fit p w u := .ite (h.linkCache _) h
  exact .ite (hu.ringSeen _) hu

theorem ringPoll_fits (h : Fit p w s) {r x} : Fits p w (execRingPoll r x s) := .ite h.readHeader.next h.next
theorem ringSnoop_fits (h : Fit p w s) {r x} : Fits p w (execRingSnoop r x s) := .ite h.readHeader.next h.next

theorem Fit.answerRing (h : Fit p w s) {r n} : Fit p w (s.answerRing r n) := by
  have hd : Fit p w _ := ((h.toComp (s.headerAt r + 8) (leBytes 8 (setFld (setFld 0#64 63 63 1) 62 56 n).toNat)).setF
    (r := DYL_RING_STATUS.NEXT r) (v := s.f (DYL_RING_STATUS.NEXT r) + 1)).setF (r := DYL_RING_STATUS.STALL r) (v := 0)
  exact .ite (hd.ringTaken _ _) (hd.ringTaken _ _).erq

theorem Fit.stallRing (h : Fit p w s) {r n} : Fit p w (s.stallRing r n) := h.setF

theorem ringObserve_fits (h : Fit p w s) {r l} : Fits p w (execRingObserve r l s) := by
  unfold execRingObserve
  split
  · exact h.next
  · exact .ite h.next (.ite h.answerRing.next (.ite h.answerRing.next (.ite h.stallRing.next (.ite
      (.ite h.next (.ite h.stallRing.next (h.ldrIn _).answerRing.next))
      (.ite h.stallRing.next (h.srvIn _).answerRing.next)))))

/-! ## Messages and vectors (R645 - R648) -/

theorem Fit.fireVec (h : Fit p w s) {v} : Fit p w (s.fireVec v) := ((h.toComp _ _).vecWait _).setFlag
theorem Fit.tryFire (h : Fit p w s) {v} : Fit p w (s.tryFire v) := .ite h.setFlag h.fireVec

theorem Fit.countVec (h : Fit p w s) {v} : Fit p w (s.countVec v) := by
  unfold State.countVec
  extract_lets n u
  have hu : Fit p w u := h.vecWait _
  exact .ite hu.tryFire hu

theorem Fit.putMsg (h : Fit p w s) {m} : Fit p w (s.putMsg m) := ((h.toComp _ _).setF.toComp _ _).countVec
theorem Fit.foldMsg (h : Fit p w s) {m} : Fit p w (s.foldMsg m) := (h.msgPend _).bump

theorem messageWrite_fits (h : Fit p w s) : Fits p w (execMessageWrite s) := by
  unfold execMessageWrite
  refine .ite (h.msgsOff _ _).next (.ite ?_ ?_)
  · split
    · exact (h.msgPend _).putMsg.next
    · exact (h.msgs _).putMsg.next
    · exact h.next
  · split
    · exact (h.msgs _).foldMsg.next
    · exact h.next

theorem Fit.msgConsume (h : Fit p w s) {v} : Fit p w (s.msgConsume v) := .ite h.setF h
theorem msgConsume_fits (h : Fit p w s) {a v} : Fits p w (execMsgConsume a v s) := (Fit.ite h.msgConsume h).next
theorem vectorHoldExpiry_fits (h : Fit p w s) {v} : Fits p w (execVectorHoldExpiry v s) := .ite h.tryFire.next h.next

end

end Sys2Proof.Machine

/-! PROOFS. What every step keeps, through the clock domains, the power and the temperatures. -/
namespace Sys2Proof.Machine

section
variable {p : List Instr} {w : Prop} {s : State}

/-! ## Far ports and clock domains (R362, R683 - R693) -/

theorem Fit.cxpPerst (h : Fit p w s) (l : List Nat) : Fit p w { s with cxpPerst := l } := h
theorem Fit.zenLost (h : Fit p w s) (b : Bool) : Fit p w { s with zenLost := b } := h
theorem Fit.cross (h : Fit p w s) (m : SMap Cross) : Fit p w { s with cross := m } := h

theorem Fit.cxpLoss (h : Fit p w s) {q} : Fit p w (s.cxpLoss q) := .ite h (h.setF.setF.setF.setFlag.cxpPerst _).erq
theorem cxpLinkLoss_fits (h : Fit p w s) {q} : Fits p w (execCxpLinkLoss q s) := .ite h.cxpLoss.next h.next

theorem Fit.cxpTrained (h : Fit p w s) {q a b c d} : Fit p w (s.cxpTrained q a b c d) := h.setF.setF.setF.setF.cxpPerst _

theorem cxpRetrainDone_fits (h : Fit p w s) {q a b c d} : Fits p w (execCxpRetrainDone q a b c d s) :=
  .ite (.ite h.cxpTrained.resync.next (h.cxpPerst _).next) h.next

theorem Fit.oscFail (h : Fit p w s) {d} : Fit p w (s.oscFail d) := by
  unfold State.oscFail
  split
  · exact h.setF
  · exact h

theorem Fit.stopBlock (h : Fit p w s) {d} : Fit p w (s.stopBlock d) :=
  .ite h.dylDown (.ite h.cxpLoss (.ite (.ite h h.portDown) h))

theorem domainStopped_fits (h : Fit p w s) {d b} : Fits p w (execDomainStopped d b s) := by
  unfold execDomainStopped
  refine .ite ?_ h.next
  extract_lets u v x y
  have hu : Fit p w u := .ite h.oscFail h
  have hx : Fit p w x := hu.setF.bump.setFlag
  have hy : Fit p w y := .ite (hx.zenLost _) (.ite hx.setFlag hx)
  exact .ite hu.setF.next (.ite hy.setFlag.next hy.stopBlock.next)

theorem domainRunning_fits (h : Fit p w s) {d} : Fits p w (execDomainRunning d s) := .ite h.setF.setFlag.next h.next

theorem freqOutOfRange_fits (h : Fit p w s) {d b} : Fits p w (execFreqOutOfRange d b s) :=
  .ite (Fit.ite h.setFlag.oscFail h.setFlag).next h.next

theorem countSample_fits (h : Fit p w s) {d n b} : Fits p w (execCountSample d n b s) := .ite (h.cross _).next h.next
theorem forceResync_fits (h : Fit p w s) {a d} : Fits p w (execForceResync a d s) := (Fit.ite h.resync h).next

theorem Fit.discardSent (h : Fit p w s) {n} : Fit p w (s.discardSent n) :=
  h.foldl fun h => .ite (h.foldl fun h => .ite h.setQueue h) h

theorem rsyncAck_fits (h : Fit p w s) {d} : Fits p w (execRsyncAck d s) := .ite (Fit.ite h.setF.discardSent h.setF).next h.next

/-! ## Domains that switch (R697 - R701) -/

theorem Fit.setVolt (h : Fit p w s) {d} : Fit p w (s.setVolt d) := .ite h.setF.setF (.ite h.setF h)
theorem Fit.powerOn (h : Fit p w s) {d} : Fit p w (s.powerOn d) := h.setF.setVolt.showOff

theorem domainSwitchOn_fits (h : Fit p w s) {d} : Fits p w (execDomainSwitchOn d s) := .ite h.setF.setF.next h.next
theorem domainRampDone_fits (h : Fit p w s) {d} : Fits p w (execDomainRampDone d s) := .ite h.powerOn.next h.next
theorem domainSwitchOff_fits (h : Fit p w s) {d} : Fits p w (execDomainSwitchOff d s) := .ite h.powerOff.next h.next

/-! ## Rounds of housekeeping (R702 - R711) -/

theorem Fit.limitRec (h : Fit p w s) : Fit p w s.limitRec := h.erq

theorem Fit.trip (h : Fit p w s) {i d} : Fit p w (s.trip i d) := by
  unfold State.trip
  extract_lets u v
  have hu : Fit p w u := h.startReset
  have hv : Fit p w v := hu.foldl fun h => h.powerOff
  exact hv.setFlag.setFlag

theorem Fit.tripHard (h : Fit p w s) (b : Bool) : Fit p w { s with tripHard := b } := h
theorem Fit.inputMv (h : Fit p w s) (n : Nat) : Fit p w { s with inputMv := n } := h
theorem Fit.nodes (h : Fit p w s) (l : List W32) : Fit p w { s with nodes := l } := h
theorem Fit.stuckFor (h : Fit p w s) (n : Nat) : Fit p w { s with stuckFor := n } := h
theorem Fit.ceLast (h : Fit p w s) (m : SMap Nat) : Fit p w { s with ceLast := m } := h
theorem Fit.ceSince (h : Fit p w s) (m : SMap Nat) : Fit p w { s with ceSince := m } := h
theorem Fit.clock (h : Fit p w s) (n : W32) : Fit p w { s with ms := n } := h
theorem Fit.sampleQ (h : Fit p w s) (l : List Nat) : Fit p w { s with sampleQ := l } := h
theorem Fit.fwu (h : Fit p w s) (u : Option Fwu) : Fit p w { s with fwu := u } := h

theorem Fit.hardTrip (h : Fit p w s) : Fit p w s.hardTrip := .ite h (h.trip.tripHard _)

theorem Fit.readSensors (h : Fit p w s) {r} : Fit p w (s.readSensors r) := by
  unfold State.readSensors
  obtain ⟨tin, bad⟩ := inletOf r.inlet
  dsimp -zeta only
  extract_lets hi rise u v x
  have hu : Fit p w u := h.setSigned.setFlag.setFlag
  have hv : Fit p w v := .ite hu.setFlag.limitRec hu
  have hx : Fit p w x := hv.setSigned
  exact hx.foldl fun h => h.setSigned.setSigned.setFlag

theorem Fit.samplePower (h : Fit p w s) {r} : Fit p w (s.samplePower r) := by
  unfold State.samplePower
  extract_lets u v
  have hu : Fit p w u := h.foldl fun h => h.setF
  have hv : Fit p w v := hu.inputMv _
  exact hv.setF.setF.setF

theorem Fit.stepModel (h : Fit p w s) : Fit p w s.stepModel := (h.nodes _).foldl fun h => h.setF

theorem Fit.checkTrip (h : Fit p w s) : Fit p w s.checkTrip := by
  unfold State.checkTrip
  refine .ite h ?_
  split
  · exact h.trip
  · exact h

theorem Fit.setVC (h : Fit p w s) {v} : Fit p w (s.setVC v) := h.setF.foldl fun h => h.setVolt
theorem Fit.setVN (h : Fit p w s) {n v} : Fit p w (s.setVN n v) := h.setF.setVolt
theorem Fit.throttleRec (h : Fit p w s) {i v d} : Fit p w (s.throttleRec i v d) := h.erq

theorem Fit.throttleC (h : Fit p w s) : Fit p w s.throttleC := by
  unfold State.throttleC
  extract_lets u v n k x y z
  have hu : Fit p w u := h.setF
  have hx : Fit p w x := hu.stuckFor _
  have hy : Fit p w y := .ite hx.setFlag.limitRec hx
  have hz : Fit p w z := hy.setVC
  exact .ite hz.throttleRec hz

theorem Fit.throttleV (h : Fit p w s) {n} : Fit p w (s.throttleV n) := by
  unfold State.throttleV
  extract_lets tb tmax mv tgt hotT hotD cool v duty
  have hend {x d : Nat} {k : Nat} : Fit p w (((s.setF (TMD_STK.WHY n) k).setF (TMD_STK.DUTY n) d).setVN n x) :=
    h.setF.setF.setVN
  split
  exact .ite hend.throttleRec hend

theorem Fit.summaries (h : Fit p w s) : Fit p w s.summaries := by
  unfold State.summaries
  extract_lets u v
  have hu : Fit p w u := h.foldl fun h => .ite h (.ite (h.ceLast _).erq.due (h.ceLast _).erq)
  have hv : Fit p w v := hu.foldl fun h => .ite h (h.ceSince _).erq
  exact hv.foldl fun h => .ite h (h.dropSince _).erq

theorem Fit.round (h : Fit p w s) {r} : Fit p w (s.round r) := by
  unfold State.round
  extract_lets u v x y
  have hu : Fit p w u := h.clock _
  have hv : Fit p w v := hu.readSensors.samplePower.stepModel.checkTrip
  have hy : Fit p w y := hv.throttleC.foldl fun h => h.throttleV
  exact hy.summaries.bump

theorem housekeepingRound_fits (h : Fit p w s) {r} : Fits p w (execHousekeepingRound r s) := .ite h.round.next h.next

/-! ## Trips, peaks, samples and phases (R702, R711, R752 - R754) -/

theorem Fit.clearTrip (h : Fit p w s) : Fit p w s.clearTrip := .ite h.setFlag h
theorem tripClear_fits (h : Fit p w s) {a} : Fits p w (execTripClear a s) := (Fit.ite h.clearTrip h).next

theorem peakResponse_fits (h : Fit p w s) {n} : Fits p w (execPeakResponse n s) := by
  unfold execPeakResponse
  refine .ite ?_ h.next
  extract_lets u v x y
  have hu : Fit p w u := h.setF.bump
  have hx : Fit p w x := hu.setVC
  have hy : Fit p w y := .ite hx.throttleRec hx
  exact hy.erq.next

theorem Fit.askSample (h : Fit p w s) {d} : Fit p w (s.askSample d) := (h.sampleQ _).setFlag
theorem pwrSampleGo_fits (h : Fit p w s) {a d} : Fits p w (execPwrSampleGo a d s) := .ite h.next h.setF.askSample.next

theorem sampleDone_fits (h : Fit p w s) {n} : Fits p w (execSampleDone n s) := by
  unfold execSampleDone
  split
  · exact (h.setF.sampleQ _).setFlag.next
  · exact h.next

theorem Fit.busLimits (h : Fit p w s) : Fit p w s.busLimits := h.setF.setF

theorem phaseShed_fits (h : Fit p w s) {r} : Fits p w (execPhaseShed r s) := by
  cases r with
  | bus => exact .ite h.next (Fit.ite h.setFlag.setF.busLimits.hardTrip h.setFlag.setF.busLimits).next
  | vc => exact .ite h.next (Fit.ite h.setFlag.setF.setF.hardTrip h.setFlag.setF.setF).next
  | vrg n =>
    exact .ite h.next (.ite h.setFlag.setF.setVN.due.next
      (.ite h.setFlag.setF.setVN.powerOff.setFlag.setF.vrgFault.next h.setFlag.setF.setVN.next))

theorem Fit.holdRec (h : Fit p w s) {b} : Fit p w (s.holdRec b) := h.erq

theorem flashHoldBegin_fits (h : Fit p w s) : Fits p w (execFlashHoldBegin s) := by
  unfold execFlashHoldBegin
  split
  · exact .ite h.setFlag.setF.holdRec.next h.next
  · exact h.next

theorem flashHoldEnd_fits (h : Fit p w s) : Fits p w (execFlashHoldEnd s) := by
  unfold execFlashHoldEnd
  split
  · exact .ite ((h.fwu _).setFlag.setF.holdRec).next h.next
  · exact h.next

end

end Sys2Proof.Machine

/-! PROOFS. What every step keeps, through the boot, resets, updates, service actions and the test port. -/
namespace Sys2Proof.Machine

section
variable {p : List Instr} {w : Prop} {s : State}

/-! ## Resets (R716, R717) -/

theorem State.abandoned_wf (h : Bytes.wf s.flash = true) : Bytes.wf s.abandoned = true := by
  unfold State.abandoned
  split
  · split
    · exact SMap.wf_dropRange _ _ _ _ h
    · exact h
  · exact h

theorem Fit.outlived (h : Fit p w s) : Fit p w s.outlived := h.store fun h => {
  far := h.far, scratch := rfl, comp := h.comp, flash := State.abandoned_wf h.flash
  regs := SMap.nodup_filter _ _ h.regs
  rqt := List.nodup_nil, srv := List.nodup_nil, pages := rfl, bare := rfl, blank := rfl, reserve := rfl, slots := rfl }

theorem Fit.setGens (h : Fit p w s) {v} : Fit p w (s.setGens v) := h.foldl fun h => h.setF

theorem Fit.nonvolatile (h : Fit p w s) : Fit p w s.nonvolatile := by
  rw [State.nonvolatile_eq]
  exact h.outlived.setGens

/-- The pages of the stacks as another state has them. -/
theorem Fit.pagesOf {t : State} (h : Fit p w s) (k : Fit p w t) :
    Fit p w { t with pages := s.pages, blank := s.blank, reserve := s.reserve } :=
  ⟨k.1, fun hw =>
    have hs := State.stored_iff.1 (h.2 hw)
    State.stored_iff.2 { State.stored_iff.1 (k.2 hw) with
      pages := hs.pages, bare := hs.bare, blank := hs.blank, reserve := hs.reserve }⟩

theorem Fit.meas (h : Fit p w s) (m : SMap (List Byte)) : Fit p w { s with meas := m } := h
theorem Fit.keys (h : Fit p w s) (l : List Byte) (c : List (List Byte)) : Fit p w { s with aliasSeed := l, certs := c } := h
theorem Fit.curves (h : Fit p w s) (a b : List W32) : Fit p w { s with theta := a, tau := b } := h
theorem Fit.pgood (h : Fit p w s) (b : Bool) : Fit p w { s with pgood := b } := h
theorem Fit.pgPull (h : Fit p w s) (b : Bool) : Fit p w { s with pgPull := b } := h
theorem Fit.inputOff (h : Fit p w s) (b : Bool) : Fit p w { s with inputOff := b } := h
theorem Fit.inputLost (h : Fit p w s) (a b : Bool) : Fit p w { s with pgPull := a, inputOff := b } := h
theorem Fit.inputBack (h : Fit p w s) (a : Bool) (n : Nat) (b : Bool) :
    Fit p w { s with pgPull := a, inputMv := n, vddSb := b } := h
theorem Fit.vpcFw (h : Fit p w s) (l : List Byte) : Fit p w { s with vpcFw := l } := h
theorem Fit.badCopy (h : Fit p w s) (c : Option Nat) : Fit p w { s with badCopy := c } := h
theorem Fit.restartAsked (h : Fit p w s) (a b : Bool) : Fit p w { s with zenRestart := a, watchdog := b } := h
theorem Fit.restartOver (h : Fit p w s) (a : Bool) (l : List (W32 × Bool × ErqRec)) :
    Fit p w { s with zenRestart := a, heldRecs := l } := h

/-! ## The boot (R723 - R727, R738) -/

theorem Fit.measure (h : Fit p w s) {i bs} : Fit p w (s.measure i bs) := h.meas _
theorem Fit.deriveKeys (h : Fit p w s) {f} : Fit p w (s.deriveKeys f) := .ite (h.keys _ _) (h.keys _ _)
theorem Fit.measure8 (h : Fit p w s) : Fit p w s.measure8 := h.measure

theorem Fit.enterRecovery (h : Fit p w s) : Fit p w s.enterRecovery := h.setF.measure.foldl fun h => h.setF.setFlag

theorem Fit.applyFactory (h : Fit p w s) {f} : Fit p w (s.applyFactory f) := by
  unfold State.applyFactory
  extract_lets u v x y
  have hv : Fit p w v := (h.setReg _ _).setF.setF.setF
  have hx : Fit p w x := hv.foldl fun h => h.setF.setSigned.setSigned
  have hy : Fit p w y := hx.foldl fun h => h.setF
  exact hy.curves _ _

theorem Fit.bootInit (h : Fit p w s) {a b} : Fit p w (s.bootInit a b) := by
  unfold State.bootInit
  extract_lets fb u fwo df
  have hu : Fit p w u := h.setF.setF.setFlag
  clear_value u
  obtain ⟨f, site⟩ := u.record
  dsimp -zeta only
  extract_lets v x un y z k m n o
  have hv : Fit p w v := hu.setFlag.applyFactory
  have hx : Fit p w x := hv.setF.setF.setF
  have hz : Fit p w z := hx.setFlag.measure.measure
  have hm : Fit p w m := hz.measure.deriveKeys
  have ho : Fit p w o := hm.measure.measure.foldl fun h => h.setF.setFlag
  exact ho.setF

theorem Fit.bootEarly (h : Fit p w s) : Fit p w s.bootEarly := by
  unfold State.bootEarly
  split
  · exact h.bootInit
  · exact h.enterRecovery

theorem Fit.discardRun (h : Fit p w s) {lo n tag} : Fit p w (s.discardRun lo n tag) := fit_loads.discardRun h _ _ _
theorem Fit.discardStacks (h : Fit p w s) : Fit p w s.discardStacks := h.foldl fun h => .ite h.discardRun h

theorem Fit.powerUp (h : Fit p w s) {c} : Fit p w (s.powerUp c) := by
  unfold State.powerUp
  extract_lets t u v
  have hu : Fit p w u := h.nonvolatile.foldl fun h => h.setF
  have hv : Fit p w v := h.pagesOf hu
  exact hv.setF.bootEarly.discardStacks

theorem powerUpReset_fits (h : Fit p w s) {b} : Fits p w (execPowerUpReset b s) :=
  .ite (.ite h.powerUp.next h.next) (.ite (h.pgood _).powerUp.next h.next)

theorem deviceReset_fits (h : Fit p w s) {a k} : Fits p w (execDeviceReset a k s) := .ite h.powerUp.next h.next

theorem Fit.powerLoss (h : Fit p w s) : Fit p w s.powerLoss := h.nonvolatile.pgood _

theorem pgoodLow_fits (h : Fit p w s) {b} : Fits p w (execPgoodLow b s) := .ite (h.powerLoss.pgPull _).next h.next

theorem hotSwapTrip_fits (h : Fit p w s) : Fits p w (execHotSwapTrip s) :=
  .ite h.next (Fit.inputLost (.ite h.powerLoss h) _ _).next

theorem hotSwapRetry_fits (h : Fit p w s) : Fits p w (execHotSwapRetry s) := (h.inputOff _).next
theorem sbPgoodRelease_fits (h : Fit p w s) {n b} : Fits p w (execSbPgoodRelease n b s) := .ite (h.inputBack _ _ _).next h.next

theorem Fit.buildMap (h : Fit p w s) {a b} : Fit p w (s.buildMap a b) := by
  unfold State.buildMap
  extract_lets m u n
  have hu : Fit p w u := h.foldl fun h => by
    split
    · exact h.setF.setF
    · exact h.setF.setF
  exact hu.setF.setF

theorem Fit.markEngines (h : Fit p w s) {l} : Fit p w (s.markEngines l) := h.foldl fun h => .ite h.setF.setF.setFlag h.setF
theorem Fit.switchAll (h : Fit p w s) : Fit p w s.switchAll := h.foldl fun h => .ite h.powerOn h
theorem Fit.setDecoder (h : Fit p w s) {a b c d e f} : Fit p w (s.setDecoder a b c d e f) :=
  h.setF.setF.setFlag.setF.setF.setF

theorem Fit.mapDevices : ∀ {l : List (Nat × Nat × Nat)} {s : State} {d b : Nat}, Fit p w s → Fit p w (s.mapDevices d b l)
  | [], _, _, _, h => h
  | _ :: _, _, _, _, h => .ite h (Fit.mapDevices h.setDecoder)

theorem Fit.bootFar (h : Fit p w s) {a b} : Fit p w (s.bootFar a b) := by
  unfold State.bootFar
  extract_lets dv ports u v caps
  have hv : Fit p w v := (h.cxpPerst _).foldl fun h => h.cxpTrained
  clear_value v caps
  split
  · exact .ite hv.setDecoder hv.mapDevices
  · exact hv.mapDevices

theorem Fit.bootFabric (h : Fit p w s) {x} : Fit p w (s.bootFabric x) :=
  (h.setF.setReg _ _).foldl fun h => .ite h.setFlag h.portDisable

theorem Fit.checkFlash (h : Fit p w s) : Fit p w s.checkFlash := .ite h.setF.bump h.setF.bump.setFlag

theorem Fit.fallbackRec (h : Fit p w s) {k} : Fit p w (s.fallbackRec k) := by
  unfold State.fallbackRec
  split
  · exact h.erq
  · exact h

theorem Fit.bootRest (h : Fit p w s) {a b} : Fit p w (s.bootRest a b) := by
  unfold State.bootRest
  obtain ⟨f, site⟩ := s.record
  dsimp -zeta only
  extract_lets t u staged v x y z k l m listed
  have hu : Fit p w u := h.buildMap.markEngines
  have hv : Fit p w v := ((hu.setF (r := ZEN_BOOT.STATE) (v := 2)).vpcFw _).switchAll.loadVpcs
  have hx : Fit p w x := hv.measure.measure.measure8
  have hz : Fit p w z := hx.bootFar.bootFabric.checkFlash
  have hk : Fit p w k := .ite hz.due hz
  have hl : Fit p w l := hk.fallbackRec.fallbackRec
  have hm : Fit p w m := .ite hl.erq hl
  have he : Fit p w listed := hm.erq
  exact he.badCopy _

theorem bootDone_fits (h : Fit p w s) {b ds ls} : Fits p w (execBootDone b ds ls s) := by
  unfold execBootDone
  refine .ite ?_ h.next
  extract_lets u
  have hu : Fit p w u := .ite h.bootEarly h
  exact .ite (Fit.ite hu.bootRest (hu.badCopy _)).next hu.next

theorem Fit.restartZen (h : Fit p w s) {b} : Fit p w (s.restartZen b) := .ite (h.restartAsked _ _) h
theorem zenRestart_fits (h : Fit p w s) {a k} : Fits p w (execZenRestart a k s) := .ite h.restartZen.next h.next
theorem zenWatchdog_fits (h : Fit p w s) : Fits p w (execZenWatchdog s) := h.restartZen.next

theorem zenRestartDone_fits (h : Fit p w s) : Fits p w (execZenRestartDone s) := by
  unfold execZenRestartDone
  refine .ite (.ite ?_ (h.badCopy _).next) h.next
  extract_lets held u v
  have hv : Fit p w v := (h.restartOver _ _).foldl fun h => h.erqQueue
  exact hv.erq.resync.next

/-! ## Updates (R724, R734 - R737) -/

theorem Fit.fwuOver (h : Fit p w s) (a : Option Fwu) (b : Option Nat) : Fit p w { s with fwu := a, fwStream := b } := h
theorem Fit.fwStream (h : Fit p w s) (b : Option Nat) : Fit p w { s with fwStream := b } := h
theorem Fit.floors (h : Fit p w s) (a b : SMap Nat) : Fit p w { s with fwFloor := a, recFloor := b } := h

theorem Fit.fwuRec (h : Fit p w s) {b} : Fit p w (s.fwuRec b) := h.erq
theorem Fit.fwuEnd (h : Fit p w s) {r} : Fit p w (s.fwuEnd r) := (h.fwuOver _ _).setF.setF.fwuRec
theorem Fit.fwuBegin (h : Fit p w s) {u} : Fit p w (s.fwuBegin u) := (h.fwu _).setF.setF.setF

theorem stagedObject_fits {a} : (stagedObject a).Keeps (Fit p w) := by
  refine .read fun _ _ => .ite (fun _ => .pure) fun _ => .bind ldrRead_fits fun _ => ?_
  split
  · exact .pure
  · refine .ite (fun _ => .pure) fun _ => .ite (fun _ => .pure) fun _ => .bind ldrRead_fits fun _ => ?_
    split
    · exact .pure
    · exact .pure

theorem startUpdate_fits : startUpdate.Keeps (Fit p w) :=
  .read fun _ _ => .bind stagedObject_fits fun _ => .modify fun _ h =>
    .ite h.fwuEnd (.ite h.fwuEnd (.ite h.fwuEnd h.fwuBegin))

theorem fwuGo_fits (h : Fit p w s) : Fits p w (fwuGo s) := .ite h.next (.ite h.setF.next (h.row startUpdate_fits))
theorem fwuGo_write_fits (h : Fit p w s) {a} : Fits p w (execFwuGo a s) := .ite (fwuGo_fits h) h.next

theorem Fit.repairNext (h : Fit p w s) {k} : Fit p w (s.repairNext k) := by
  unfold State.repairNext
  split
  · refine .ite h.fwuBegin (.ite ?_ h.endAction)
    split
    · exact .ite h.fwuBegin h.endAction
    · exact h.endAction
  · exact h.endAction

theorem eraseCopy_wf {b : Bytes} (h : Bytes.wf b = true) (k c : Nat) : Bytes.wf (eraseCopy b k c) = true :=
  SMap.wf_dropRange _ _ _ _ h

theorem Fit.copyWritten (h : Fit p w s) {k c a : Nat} {bs : List Byte} :
    Fit p w { s with flash := Bytes.wrList (eraseCopy s.flash k c) a bs } :=
  h.flashSet fun h => Bytes.wrList_wf _ _ _ (eraseCopy_wf h _ _)

theorem fwuWriteDone_fits (h : Fit p w s) {b} : Fits p w (execFwuWriteDone b s) := by
  unfold execFwuWriteDone
  split
  · refine .ite ?_ h.next
    extract_lets fl u v x
    have hu : Fit p w u := .ite h.copyWritten (h.flashSet fun h => eraseCopy_wf h _ _)
    have hv : Fit p w v := .ite hu.setF hu
    have hx : Fit p w x := hv.fwuEnd
    exact (Fit.ite (.ite hx.repairNext hx.endAction) hx).next
  · exact h.next

theorem Fit.fwuCommit (h : Fit p w s) : Fit p w s.fwuCommit := .ite (h.floors _ _).setF.measure8 h
theorem fwuCommit_fits (h : Fit p w s) {a} : Fits p w (execFwuCommit a s) := .ite h.fwuCommit.next h.next

theorem fwChunk_fits (h : Fit p w s) {n bs} : Fits p w (execFwChunk n bs s) := by
  unfold execFwChunk
  extract_lets kind c fl u
  have hu : Fit p w u := Fit.fwStream (h.flashSet fun h => Bytes.wrList_wf _ _ _ (by
    unfold fl
    split
    · exact eraseCopy_wf h _ _
    · exact h)) _
  exact .ite hu.setF.setF.next h.next

theorem fwEnd_fits (h : Fit p w s) : Fits p w (execFwEnd s) := .ite h.fwuEnd.next h.next

/-! ## Service actions (R741 - R756) -/

theorem Fit.svc (h : Fit p w s) (x : Option (Nat × Nat)) : Fit p w { s with svc := x } := h
theorem Fit.svcDue (h : Fit p w s) (l : List (Nat × Nat)) : Fit p w { s with svcDue := l } := h
theorem Fit.svcHeld (h : Fit p w s) (b : Bool) : Fit p w { s with svcHeld := b } := h
theorem Fit.retired (h : Fit p w s) (m : SMap (List Nat)) : Fit p w { s with retired := m } := h

theorem Fit.beginAction (h : Fit p w s) {a t} : Fit p w (s.beginAction a t) :=
  .ite (h.svc _).setF.setF.endAction (h.svc _).setF.setF
theorem Fit.svcGo (h : Fit p w s) : Fit p w s.svcGo := .ite h.setF (.ite h.beginAction h.due)
theorem Fit.claim (h : Fit p w s) {a t} : Fit p w (s.claim a t) := .ite (h.svcDue _).beginAction h

theorem actionRow_fits (h : Fit p w s) {a t} {work : State → State} (hw : ∀ s, Fit p w s → Fit p w (work s)) :
    Fits p w (actionRow a t s work) := .ite (hw _ h.claim).next h.claim.next

theorem Fit.moveTile (h : Fit p w s) {a b c} : Fit p w (s.moveTile a b c) :=
  (h.setF.setF.setF.setF.retired _).setF.bump.setFlag.endAction

theorem Fit.retireTile (h : Fit p w s) {a} : Fit p w (s.retireTile a) := by
  unfold State.retireTile
  split
  · exact h.endAction
  · extract_lets l u v
    have hv : Fit p w v := (h.svcHeld _).foldl fun h => h.startSave
    exact .ite hv.moveTile hv

theorem retireTile_fits (h : Fit p w s) {t} : Fits p w (execRetireTile t s) := actionRow_fits h fun _ h => h.retireTile

theorem Fit.migrate (h : Fit p w s) {n c l} : Fit p w (s.migrate n c l) := by
  unfold State.migrate
  refine .ite h ?_
  split
  · exact h.endAction
  · exact h.endAction
  · exact (h.migTodo _).startExtent

theorem migrateChannel_fits (h : Fit p w s) {g} : Fits p w (execMigrateChannel g s) := actionRow_fits h fun _ h => h.migrate
theorem migratePage_fits (h : Fit p w s) {a} : Fits p w (execMigratePage a s) := actionRow_fits h fun _ h => h.migrate
theorem retireEngine_fits (h : Fit p w s) {n} : Fits p w (execRetireEngine n s) :=
  actionRow_fits h fun _ h => h.setFlag.setF.endAction
theorem retireComplete_fits (h : Fit p w s) {n} : Fits p w (execRetireComplete n s) := .ite h.setFlag.enterPlain.next h.next

theorem flashCheck_fits (h : Fit p w s) : Fits p w (execFlashCheck s) :=
  .ite (Fit.ite h.claim.checkFlash.repairNext h.claim).next (actionRow_fits h fun _ h => .ite h.repairNext h)
theorem flashCheckTimer_fits (h : Fit p w s) : Fits p w (execFlashCheckTimer s) := (Fit.ite h.due h).next

/-! ## Attestation and the test port (R731 - R736) -/

theorem Fit.answerSpdm (h : Fit p w s) {a b r} : Fit p w (s.answerSpdm a b r) := h

theorem spdmRow_fits (h : Fit p w s) {a b c r} : Fits p w (spdmRow a b s c r) :=
  .ite (Fit.ite h.answerSpdm h.answerSpdm).next h.next

theorem getVersion_fits (h : Fit p w s) {a} : Fits p w (execGetVersion a s) := .ite h.answerSpdm.next h.next
theorem getCapabilities_fits (h : Fit p w s) {a} : Fits p w (execGetCapabilities a s) := spdmRow_fits h
theorem negotiateAlgorithms_fits (h : Fit p w s) {a b c} : Fits p w (execNegotiateAlgorithms a b c s) :=
  .ite (spdmRow_fits h) (spdmRow_fits h)
theorem getDigests_fits (h : Fit p w s) {a} : Fits p w (execGetDigests a s) := spdmRow_fits h
theorem getCertificate_fits (h : Fit p w s) {a b c d} : Fits p w (execGetCertificate a b c d s) := spdmRow_fits h
theorem challenge_fits (h : Fit p w s) {a b n} : Fits p w (execChallenge a b n s) := spdmRow_fits h
theorem getMeasurements_fits (h : Fit p w s) {a b c n} : Fits p w (execGetMeasurements a b c n s) := spdmRow_fits h
theorem unsupportedRequest_fits (h : Fit p w s) {a c} : Fits p w (execUnsupportedRequest a c s) :=
  .ite h.answerSpdm.next h.next

/-- The test port's registers. -/
theorem Fit.tapRegs (h : Fit p w s) (n : Nat) (a b c : List Bool) :
    Fit p w { s with tap := n, tapIr := a, tapShift := b, tdo := c } := h

theorem Fit.tapClock (h : Fit p w s) {b} : Fit p w (s.tapClock b) := by
  unfold State.tapClock
  extract_lets u n v
  have hu : Fit p w u := by
    unfold u
    split
    · exact h.tapRegs _ _ _ _
    · exact h.tapRegs _ _ _ _
    · exact h.tapRegs _ _ _ _
    · exact h.tapRegs _ _ _ _
    · exact h
  have hv : Fit p w v := hu.tapRegs _ _ _ _
  exact .ite (hv.tapRegs _ _ _ _) (.ite (hv.tapRegs _ _ _ _) hv)

theorem jtagTapAccess_fits (h : Fit p w s) {b l} : Fits p w (execJtagTapAccess b l s) := by
  unfold execJtagTapAccess
  refine .ite ?_ h.next
  extract_lets u v
  have hu : Fit p w u := h.tapRegs _ _ _ _
  have hv : Fit p w v := .ite (hu.tapRegs _ _ _ _) hu
  exact Fit.next (hv.foldl fun h => h.tapClock)

end

end Sys2Proof.Machine

/-! PROOFS. What every step keeps, through the writes of the control space and the accesses of the companion. -/
namespace Sys2Proof.Machine

section
variable {p : List Instr} {w : Prop} {s : State}

/-! ## Effects of a register write (R8 - R13) -/

theorem Fit.reject (h : Fit p w s) {b i} : Fit p w (s.reject b i) :=
  .ite h.setReject (.ite h.setReject (.ite h.setReject (.ite h.setFlag (.ite h.setFlag h.setFlag))))

theorem Fit.clampFloor (h : Fit p w s) {j} : Fit p w (s.clampFloor j) := h.setF
theorem Fit.dropRing (h : Fit p w s) {r} : Fit p w (s.dropRing r) := .ite h (h.ringTaken _ _)
theorem Fit.unmask (h : Fit p w s) {v b} : Fit p w (s.unmask v b) := .ite h.fireVec h
theorem Fit.followMode (h : Fit p w s) {n} : Fit p w (s.followMode n) := .ite h (.ite (.ite h h.enterPlain) (.ite h.setF h))

theorem regEffect_fits (h : Fit p w s) {b i k off v act} : Fits p w (regEffect s b i k off v act) := by
  unfold regEffect
  extract_lets t update job link off port core0 core vpc0 vpc
  have ht : Fit p w t := h.setReg _ _
  clear_value t
  have hu : Fit p w update := .ite ht.fwuCommit ht
  have hj : Fit p w job := h.writeHold
  have hd : Fit p w link := .ite ht.dylDown ht
  have hx : Fit p w port := ht.setFlag.portDisable
  have hc0 : Fit p w core0 := .ite h.dbgResume h
  have hc : Fit p w core := .ite hc0.dbgStep hc0
  have hv0 : Fit p w vpc0 := .ite h.dbgResume h
  have hv : Fit p w vpc := .ite hv0.dbgStep hv0
  refine .ite (Fit.ite h (.ite h.powerUp (.ite h.restartZen h))).next ?_
  refine .ite (.ite (fwuGo_fits hu) hu.next) ?_
  refine .ite h.erqConsume.next ?_
  refine .ite (Fit.ite ht.svcGo ht).next ?_
  refine .ite (Fit.ite hj.requestEnd hj).next ?_
  refine .ite h.copyReq.next ?_
  refine .ite (Fit.ite ht ht.clampFloor).next ?_
  refine .ite (Fit.ite ht.askSample ht).next ?_
  refine .ite (Fit.ite h.clearTrip h).next ?_
  refine .ite (Fit.ite hd.dylRetrain hd).next ?_
  refine .ite ht.dropRing.next ?_
  refine .ite h.msgConsume.next ?_
  refine .ite ht.unmask.next ?_
  refine .ite (Fit.ite hx.xwfRetrain hx).next ?_
  refine .ite h.xwfResume.next ?_
  refine .ite (Fit.ite h.requestRetrain h).next ?_
  refine .ite ht.followMode.next ?_
  refine .ite h.vrgResume.next ?_
  refine .ite (Fit.ite ht.vrgZero ht).next ?_
  refine .ite (Fit.ite ht.anvZero ht).next ?_
  refine .ite h.dmaEnable.next ?_
  refine .ite h.dmaResume.next ?_
  refine .ite (Fit.ite hc.haltReq hc).next ?_
  refine .ite (Fit.ite hv.haltReq hv).next ?_
  exact .ite (Fit.ite ht.resync ht).next ht.next

theorem Fit.debugWrite (h : Fit p w s) {t o off size v} : Fit p w (s.debugWrite t o off size v) :=
  .ite h (.ite h.setCore (.ite h.setCore (.ite h.setTile.anvCe (.ite h.setTile.anvCe h))))

theorem ctlWrite_fits (h : Fit p w s) {a off size v} : Fits p w (ctlWrite a off size v s) := by
  unfold ctlWrite
  refine .ite h.next ?_
  dsimp only
  split
  · exact .ite (regEffect_fits (.ite h.reject h)) h.next
  · split
    · exact (Fit.ite h.debugWrite h).next
    · exact h.next

/-! ## Accesses of the companion and the controller (R636, R637, R726) -/

theorem Fit.rsp (h : Fit p w s) (r : Option CRsp) : Fit p w { s with rsp := r } := h
theorem Fit.mcRsp (h : Fit p w s) (r : Option W64) : Fit p w { s with mcRsp := r } := h
theorem Fit.filter (h : Fit p w s) (f : List (Nat × Nat)) : Fit p w { s with filter := f } := h

theorem Fit.answerComp (h : Fit p w s) {r} : Fit p w (s.answerComp r) := h.rsp _
theorem Fit.grant (h : Fit p w s) {g n} : Fit p w (s.grant g n) := h.filter _

theorem registerWrite_fits (h : Fit p w s) {a off size v} : Fits p w (execRegisterWrite a off size v s) :=
  .ite h.answerComp.next (ctlWrite_fits h)

theorem compRow_fits {α : Type} (h : Fit p w s) {x : EM α} {ok : State → α → State} (hx : x.Keeps (Fit p w))
    (hok : ∀ s v, Fit p w s → Fit p w (ok s v)) : Fits p w (compRow x ok s) := by
  have hk := hx s h
  unfold compRow
  split <;> rename_i heq <;> rw [heq] at hk
  · exact (hok _ _ hk).next
  · exact h.next
  · exact Fit.next (Fit.answerComp hk)
  · exact Fit.next (Fit.answerComp (Fit.fatalFault hk))
  · exact Fit.next (Fit.answerComp hk)

theorem companionRead_fits (h : Fit p w s) {a n k} : Fits p w (execCompanionRead a n k s) := by
  unfold execCompanionRead
  have hread : Fits p w (compRow (readSpan compWho n a n) (fun s bs =>
      (if k = 0 then s else s.grant (a / 64) (min k 2)).answerComp (.data bs)) s) :=
    compRow_fits h readSpan_fits fun _ _ h => Fit.answerComp (.ite h h.grant)
  refine .ite h.next (.ite (.ite h.answerComp.next (.ite h.next h.answerComp.next)) (.ite h.answerComp.next ?_))
  dsimp only
  split
  · exact .ite (h.snoops _).next hread
  · exact hread

theorem companionWrite_fits (h : Fit p w s) {a bs} : Fits p w (execCompanionWrite a bs s) :=
  .ite h.next (.ite (.ite h.answerComp.next (.ite h.next (ctlWrite_fits h.answerComp)))
    (.ite h.answerComp.next (compRow_fits h writeSpan_fits fun _ _ h => h.answerComp)))

theorem sidebandRegisterRead_fits (h : Fit p w s) {off} : Fits p w (execSidebandRegisterRead off s) :=
  .ite (h.mcRsp _).next h.next

end

end Sys2Proof.Machine

/-! PROOFS. What every step keeps: the commands one by one, and the two statements about every step. -/
namespace Sys2Proof.Machine

/-- Every command ends in a next state, and neither changes the queue nor breaks the memories' form. -/
theorem exec_fits {p : List Instr} {w : Prop} {s : State} (h : Fit p w s) (i : Instr) : Fits p w (exec i s) := by
  cases i with
  | registerWrite => exact registerWrite_fits h
  | commandStart => exact commandStart_fits h
  | commandCompletion => exact commandCompletion_fits h
  | queueSend => exact queueSend_fits h
  | destAccept => exact destAccept_fits h
  | view => exact view_fits h
  | cfg => exact cfg_fits h
  | nop => exact nop_fits h
  | mmul => exact mmul_fits h
  | att => exact att_fits h
  | vop => exact vop_fits h
  | copy => exact copy_fits h
  | planeSplit => exact planeSplit_fits h
  | planeMerge => exact planeMerge_fits h
  | gather => exact gather_fits h
  | scatter => exact scatter_fits h
  | scatterAcc => exact scatterAcc_fits h
  | list => exact list_fits h
  | vmv => exact vmv_fits h
  | vatt => exact vatt_fits h
  | vkva => exact vkva_fits h
  | vew => exact vew_fits h
  | vgsGather => exact vgsGather_fits h
  | vgsScatter => exact vgsScatter_fits h
  | vgsScatterAcc => exact vgsScatterAcc_fits h
  | vamo => exact vamo_fits h
  | slotClear => exact slotClear_fits h
  | slotFinalise => exact slotFinalise_fits h
  | slotSave => exact slotSave_fits h
  | slotLoad => exact slotLoad_fits h
  | slotCombine => exact slotCombine_fits h
  | fopRead => exact fopRead_fits h
  | fopWrite => exact fopWrite_fits h
  | fopAtomic => exact fopAtomic_fits h
  | fopSignal => exact fopSignal_fits h
  | fopCombine => exact fopCombine_fits h
  | vrgHalt => exact vrgHalt_fits h
  | dmaHalt => exact dmaHalt_fits h
  | xwfHalt => exact xwfHalt_fits h
  | vrgResume => exact vrgResume_fits h
  | dmaResume => exact dmaResume_fits h
  | dmaRetry => exact dmaRetry_fits h
  | xwfResume => exact xwfResume_fits h
  | dmaDisable => exact dmaDisable_fits h
  | dmaDisabled => exact dmaDisabled_fits h
  | add => exact show Fits p w (execAdd _ _ _ _ _) from alu_fits h
  | sub => exact show Fits p w (execSub _ _ _ _ _) from alu_fits h
  | and => exact show Fits p w (execAnd _ _ _ _ _) from alu_fits h
  | or => exact show Fits p w (execOr _ _ _ _ _) from alu_fits h
  | xor => exact show Fits p w (execXor _ _ _ _ _) from alu_fits h
  | andn => exact show Fits p w (execAndn _ _ _ _ _) from alu_fits h
  | sll => exact show Fits p w (execSll _ _ _ _ _) from alu_fits h
  | srl => exact show Fits p w (execSrl _ _ _ _ _) from alu_fits h
  | sra => exact show Fits p w (execSra _ _ _ _ _) from alu_fits h
  | ror => exact show Fits p w (execRor _ _ _ _ _) from alu_fits h
  | mul => exact show Fits p w (execMul _ _ _ _ _) from alu_fits h
  | mulh => exact show Fits p w (execMulh _ _ _ _ _) from alu_fits h
  | mulhu => exact show Fits p w (execMulhu _ _ _ _ _) from alu_fits h
  | div => exact show Fits p w (execDiv _ _ _ _ _) from alu_fits h
  | divu => exact show Fits p w (execDivu _ _ _ _ _) from alu_fits h
  | rem => exact show Fits p w (execRem _ _ _ _ _) from alu_fits h
  | remu => exact show Fits p w (execRemu _ _ _ _ _) from alu_fits h
  | min => exact show Fits p w (execMin _ _ _ _ _) from alu_fits h
  | max => exact show Fits p w (execMax _ _ _ _ _) from alu_fits h
  | minu => exact show Fits p w (execMinu _ _ _ _ _) from alu_fits h
  | maxu => exact show Fits p w (execMaxu _ _ _ _ _) from alu_fits h
  | clz => exact show Fits p w (execClz _ _ _ _) from alu_fits h
  | ctz => exact show Fits p w (execCtz _ _ _ _) from alu_fits h
  | popc => exact show Fits p w (execPopc _ _ _ _) from alu_fits h
  | shadd => exact show Fits p w (execShadd _ _ _ _ _ _) from alu_fits h
  | addi => exact show Fits p w (execAddi _ _ _ _ _) from aluImm_fits h
  | andi => exact show Fits p w (execAndi _ _ _ _ _) from aluImm_fits h
  | ori => exact show Fits p w (execOri _ _ _ _ _) from aluImm_fits h
  | xori => exact show Fits p w (execXori _ _ _ _ _) from aluImm_fits h
  | shi => exact shi_fits h
  | cat16 => exact show Fits p w (execCat16 _ _ _ _ _) from aluImm_fits h
  | addh => exact show Fits p w (execAddh _ _ _ _ _) from aluImm_fits h
  | madd => exact madd_fits h
  | fext => exact fext_fits h
  | fins => exact fins_fits h
  | cmp => exact cmp_fits h
  | cmpi => exact cmpi_fits h
  | plog => exact plog_fits h
  | sel => exact sel_fits h
  | ldb => exact show Fits p w (execLdb _ _ _ _ _) from load_fits h
  | ldh => exact show Fits p w (execLdh _ _ _ _ _) from load_fits h
  | ldw => exact show Fits p w (execLdw _ _ _ _ _) from load_fits h
  | ldd => exact show Fits p w (execLdd _ _ _ _ _) from load_fits h
  | ldbu => exact show Fits p w (execLdbu _ _ _ _ _) from load_fits h
  | ldhu => exact show Fits p w (execLdhu _ _ _ _ _) from load_fits h
  | ldwu => exact show Fits p w (execLdwu _ _ _ _ _) from load_fits h
  | stb => exact show Fits p w (execStb _ _ _ _ _) from store_fits h
  | sth => exact show Fits p w (execSth _ _ _ _ _) from store_fits h
  | stw => exact show Fits p w (execStw _ _ _ _ _) from store_fits h
  | std => exact show Fits p w (execStd _ _ _ _ _) from store_fits h
  | ldg => exact ldg_fits h
  | stg => exact stg_fits h
  | ldgDataArrival => exact ldgDataArrival_fits h
  | stgApplied => exact stgApplied_fits h
  | busTrap => exact busTrap_fits h
  | br => exact br_fits h
  | bdec => exact bdec_fits h
  | jal => exact jal_fits h
  | jalr => exact jalr_fits h
  | push => exact push_fits h
  | pushRoomFree => exact pushRoomFree_fits h
  | tsig => exact tsig_fits h
  | twait => exact twait_fits h
  | fenceLocal => exact show Fits p w (execFenceLocal _ _) from fence_fits h
  | fenceDrain => exact show Fits p w (execFenceDrain _ _) from fence_fits h
  | fenceRemote => exact show Fits p w (execFenceRemote _ _) from fence_fits h
  | fenceAll => exact show Fits p w (execFenceAll _ _) from fence_fits h
  | acquire => exact show Fits p w (execAcquire _ _ _ _ _ _) from clb_fits h
  | release => exact show Fits p w (execRelease _ _ _ _ _ _) from clb_fits h
  | clbComplete => exact clbComplete_fits h
  | ifill => exact ifill_fits h
  | ifillCopyDone => exact ifillCopyDone_fits h
  | trap => exact trap_fits h
  | eret => exact eret_fits h
  | csrr => exact csrr_fits h
  | csrw => exact csrw_fits h
  | endTile => exact endTile_fits h
  | brk => exact brk_fits h
  | haltReq => exact haltReq_fits h
  | dbgStep => exact dbgStep_fits h
  | dbgResume => exact dbgResume_fits h
  | anvPerfClear => exact anvPerfClear_fits h
  | vrgPerfClear => exact vrgPerfClear_fits h
  | adderOperation => exact adderOperation_fits h
  | slotContribution => exact slotContribution_fits h
  | stackRead => exact stackRead_fits h
  | stackWrite => exact stackWrite_fits h
  | mergeIdleTimeout => exact mergeIdleTimeout_fits h
  | mergeWriteback => exact mergeWriteback_fits h
  | refresh => exact h.next
  | farAccess => exact farAccess_fits h
  | cacheAccess => exact cacheAccess_fits h
  | flitReceive => exact flitReceive_fits h
  | linkCrcLimit => exact linkCrcLimit_fits h
  | mscRetrainGo => exact mscRetrainGo_fits h
  | retrainAttemptEnd => exact retrainAttemptEnd_fits h
  | copyPage => exact copyPage_fits h
  | writeHoldBegin => exact writeHoldBegin_fits h
  | writeHoldEnd => exact writeHoldEnd_fits h
  | scrubPage => exact scrubPage_fits h
  | scrubTargetExpiry => exact scrubTargetExpiry_fits h
  | erqConsume => exact erqConsume_fits h
  | resetDone => exact resetDone_fits h
  | sliceEnd => exact sliceEnd_fits h
  | idlePreempt => exact idlePreempt_fits h
  | tileRoundEnd => exact tileRoundEnd_fits h
  | stackRoundEnd => exact stackRoundEnd_fits h
  | saveDone => exact saveDone_fits h
  | restoreStart => exact restoreStart_fits h
  | restoreDone => exact restoreDone_fits h
  | jobHold => exact jobHold_fits h
  | jobEndRequest => exact jobEndRequest_fits h
  | jobEnd => exact jobEnd_fits h
  | jobEnded => exact jobEnded_fits h
  | load => exact load_record_fits h
  | loadResult => exact loadResult_fits h
  | ringPoll => exact ringPoll_fits h
  | ringSnoop => exact ringSnoop_fits h
  | ringObserve => exact ringObserve_fits h
  | request => exact request_fits h
  | cancel => exact cancel_fits h
  | resultRingRoom => exact resultRingRoom_fits h
  | stepBoundary => exact stepBoundary_fits h
  | stepLaunch => exact stepLaunch_fits h
  | handoff => exact handoff_fits h
  | stepReport => exact stepReport_fits h
  | sample => exact sample_fits h
  | draft => exact draft_fits h
  | verify => exact verify_fits h
  | ringRoom => exact ringRoom_fits h
  | deadlineTick => exact deadlineTick_fits h
  | rqtIdxWrite => exact rqtIdxWrite_fits h
  | companionRead => exact companionRead_fits h
  | companionWrite => exact companionWrite_fits h
  | snoop => exact snoop_fits h
  | deviceSnoop => exact deviceSnoop_fits h
  | snoopResponse => exact snoopResponse_fits h
  | snoopTimeout => exact snoopTimeout_fits h
  | dylTraining => exact dylTraining_fits h
  | dylL0 => exact dylL0_fits h
  | dylTrainingTimeout => exact dylTrainingTimeout_fits h
  | dylPerst => exact dylPerst_fits h
  | dylRetrain => exact dylRetrain_fits h
  | dylRecovery => exact dylRecovery_fits h
  | dylRecoveryEnd => exact dylRecoveryEnd_fits h
  | linkLoss => exact linkLoss_fits h
  | messageWrite => exact messageWrite_fits h
  | msgConsume => exact msgConsume_fits h
  | vectorHoldExpiry => exact vectorHoldExpiry_fits h
  | frameRequest => exact frameRequest_fits h
  | frameResponse => exact frameResponse_fits h
  | frameAck => exact frameAck_fits h
  | frameRefuse => exact frameRefuse_fits h
  | transitFrame => exact transitFrame_fits h
  | resendTimeout => exact resendTimeout_fits h
  | xwfTraining => exact xwfTraining_fits h
  | nativeAnswerTimeout => exact nativeAnswerTimeout_fits h
  | xwfRetrain => exact xwfRetrain_fits h
  | wavelengthFail => exact wavelengthFail_fits h
  | cxpLinkLoss => exact cxpLinkLoss_fits h
  | cxpRetrainDone => exact cxpRetrainDone_fits h
  | domainStopped => exact domainStopped_fits h
  | domainRunning => exact domainRunning_fits h
  | freqOutOfRange => exact freqOutOfRange_fits h
  | countSample => exact countSample_fits h
  | forceResync => exact forceResync_fits h
  | rsyncAck => exact rsyncAck_fits h
  | housekeepingRound => exact housekeepingRound_fits h
  | tripClear => exact tripClear_fits h
  | peakResponse => exact peakResponse_fits h
  | pwrSampleGo => exact pwrSampleGo_fits h
  | sampleDone => exact sampleDone_fits h
  | domainSwitchOn => exact domainSwitchOn_fits h
  | domainRampDone => exact domainRampDone_fits h
  | domainSwitchOff => exact domainSwitchOff_fits h
  | phaseShed => exact phaseShed_fits h
  | flashHoldBegin => exact flashHoldBegin_fits h
  | flashHoldEnd => exact flashHoldEnd_fits h
  | powerUpReset => exact powerUpReset_fits h
  | bootDone => exact bootDone_fits h
  | pgoodLow => exact pgoodLow_fits h
  | hotSwapTrip => exact hotSwapTrip_fits h
  | deviceReset => exact deviceReset_fits h
  | zenRestart => exact zenRestart_fits h
  | zenWatchdog => exact zenWatchdog_fits h
  | zenRestartDone => exact zenRestartDone_fits h
  | fwuGo => exact fwuGo_write_fits h
  | fwuWriteDone => exact fwuWriteDone_fits h
  | fwuCommit => exact fwuCommit_fits h
  | retireTile => exact retireTile_fits h
  | migrateChannel => exact migrateChannel_fits h
  | migratePage => exact migratePage_fits h
  | retireEngine => exact retireEngine_fits h
  | retireComplete => exact retireComplete_fits h
  | flashCheck => exact flashCheck_fits h
  | flashCheckTimer => exact flashCheckTimer_fits h
  | getVersion => exact getVersion_fits h
  | getCapabilities => exact getCapabilities_fits h
  | negotiateAlgorithms => exact negotiateAlgorithms_fits h
  | getDigests => exact getDigests_fits h
  | getCertificate => exact getCertificate_fits h
  | challenge => exact challenge_fits h
  | getMeasurements => exact getMeasurements_fits h
  | unsupportedRequest tr code => exact unsupportedRequest_fits (c := code) h
  | sidebandRegisterRead => exact sidebandRegisterRead_fits h
  | fwChunk => exact fwChunk_fits h
  | fwEnd => exact fwEnd_fits h
  | illegalInstruction => exact illegalInstruction_fits h
  | dramTemperatureMove => exact dramTemperatureMove_fits h
  | neighbourSolicitation => exact neighbourSolicitation_fits h
  | jtagTapAccess => exact jtagTapAccess_fits h
  | sbPgoodRelease => exact sbPgoodRelease_fits h
  | hotSwapRetry => exact hotSwapRetry_fits h

theorem State.wf_pending (s : State) (l : List Instr) : Memory.wf { s with pending := l } = Memory.wf s := rfl

theorem State.formed_tail {s : State} (h : s.formed = true) : s.pending.tail.all Instr.wf = true :=
  List.all_eq_true.2 fun i hi => List.all_eq_true.1 h i (List.mem_of_mem_tail hi)

theorem step_nil {s : State} (e : s.pending = []) : step s = .next s := by
  unfold step
  rw [e]

theorem step_cons {s : State} {c : Instr} {l : List Instr} (e : s.pending = c :: l) :
    step s = exec c { s with pending := l } := by
  unfold step
  rw [e]

/-- Settles O2: every command of the table ends in a next state with the queue it found. -/
theorem stepAnswersAndKeepsQueue : Obligations.StepAnswersAndKeepsQueue := by
  unfold Obligations.StepAnswersAndKeepsQueue
  intro s hs
  cases e : s.pending with
  | nil => exact ⟨s, step_nil e, e, hs⟩
  | cons c l =>
    obtain ⟨t, ht, hp, -⟩ : Fits l False (exec c { s with pending := l }) := exec_fits ⟨rfl, False.elim⟩ c
    refine ⟨t, (step_cons e).trans ht, hp, ?_⟩
    have hl := State.formed_tail hs
    rw [e] at hl
    show t.pending.all Instr.wf = true
    rw [hp]
    exact hl

/-- Settles O3: every command of the table keeps the form of each memory that it writes. -/
theorem stepKeepsMemoryForm : Obligations.StepKeepsMemoryForm := by
  unfold Obligations.StepKeepsMemoryForm
  intro s t hs ht
  cases e : s.pending with
  | nil =>
    rw [step_nil e] at ht
    cases ht
    exact hs
  | cons c l =>
    obtain ⟨u, hu, -, hw⟩ : Fits l True (exec c { s with pending := l }) := 
      exec_fits ⟨rfl, fun _ => (s.wf_pending l).trans hs⟩ c
    rw [step_cons e, hu] at ht
    cases ht
    exact hw trivial

end Sys2Proof.Machine
